-- ==== Sys2Proof/Word.lean ====
section
/-!
DEFINITION. The word and byte types of the register space and of the engines' memories, and the types of the operands that
commands carry.
-/

namespace Sys2Proof

/-- One register word (R3): 32 bits. -/
abbrev Word := BitVec 32

/-- One byte of a memory or buffer (R3, R515). -/
abbrev Byte := BitVec 8

/-- The two synthesizers with a lock counter (R56). -/
inductive LoopId where
  | scs
  | ccs
deriving DecidableEq, Repr

/-- How a two-wire transaction of the device ended (R426 to R428): with the word read (0 for a write), refused, lost in
arbitration, or with a word read whose PEC fails. -/
inductive TwbResult where
  | ok (w : Nat)
  | nack
  | arbLost
  | pecErr (w : Nat)
deriving DecidableEq, Repr

/-- What the environment shows at a tick boundary: the conversions of the eight die sensors in 1/16 degree (none where a sensor fails
its own check), the metrics of R138 for WA, WB and LF (SF, CF, share and level in the units of CAL_MEAS, none for a
converter with no valid sample or with clips) and the SAFE_OSC cycles counted in the tick;
whether a supply lay outside its operating range in the tick that ends (R493); and for ANT_A and ANT_B the ratio of the powers on either side of the gain step
that began the tick, in 1/1024 dB, none where a window holds a clip (R146). -/
structure TickObs where
  temps : List (Option Int) := []
  meas : List (Option (Nat × Nat × Nat × Nat)) := []
  safe : Nat := 0
  out : Bool := false
  lna : List (Option Rat) := []
deriving DecidableEq, Repr

/-- What the device sees at a plan cut-off of the window that closes: the three bias currents in microamperes, and for WA and WB the
peak absolute code and the clips (none where the window holds no valid sample); the peak of LF. -/
structure CutObs where
  ima : List Nat := []
  win : List (Option (Nat × Nat)) := []
  lfPeak : Nat := 0
deriving DecidableEq, Repr

/-- A copy of a target's parameter page (R357 to R359, R362): geometry, NV-DDR3 support, the fastest timing mode and its maximum clock in MHz, whether
the first two blocks are guaranteed, and the read-retry levels it declares. -/
structure TgtPage where
  page : Nat
  spare : Nat
  ppb : Nat
  bpl : Nat
  luns : Nat
  bits : Nat
  nv : Bool
  mode : Nat
  clk : Nat
  twoValid : Bool := true
  levels : Nat := 0
deriving DecidableEq, Repr

/-- What answers on one chip enable (R357): whether READ ID in SDR and, repeated, in NV-DDR3 signalling gives 'ONFI', the copies of the parameter page with
the outcome of their CRC, and the factory bad-block markers (R377). -/
structure TgtObs where
  sdr : Bool := false
  ddr : Bool := false
  copies : List (Bool × TgtPage) := []
  bad : List Nat := []
deriving DecidableEq, Repr

/-- How the decodes of one codeword would end (R362): the bits corrected at the default level and at each retry level, none where the decode fails, and by
the soft decode. -/
structure CwObs where
  hard : List (Option Nat) := [some 0]
  soft : Option Nat := none
deriving DecidableEq, Repr

/-- The element types of a vector operation (R208). -/
inductive VTy where
  | i8
  | i16
  | q15
  | i32
  | c16
  | c32
deriving DecidableEq, Repr

/-- The conditions of VCMP (R215). -/
inductive VCc where
  | eq
  | ne
  | lt
  | le
  | ltu
  | leu
deriving DecidableEq, Repr

/-- A correlation peak as a burst channel measures it (R293, R294): its stu, quality in Q15, the correlation at the two samples on either side, level and SNR in
0.1 dB, fine position and frequency offset. -/
structure PeakIn where
  p : Nat
  qual : Nat
  sides : List Nat := []
  level : Int
  snr : Int
  fine : Int := 0
  fofs : Int := 0
deriving DecidableEq, Repr

/-- The object that holds an uncorrectable store word (R480). -/
inductive EccObj where
  /-- Met first by the haul that runs on an engine. -/
  | haul (e : Fin 8)
  /-- The current state copy or the extension of a context; the copy not in use. -/
  | state (n : Fin 256)
  | spare (n : Fin 256)
  /-- The program image of a handle. -/
  | image (h : Nat)
  /-- A CHAIN, BURST or output ring: `m` unread entries from the one holding the word on. -/
  | ring (n : Fin 256) (q : Fin 16) (m : Nat)
  /-- A tap ring: the tap of a unit (0 WA, 1 WB, 2 LF) and the first and last label concerned. -/
  | tap (u : Fin 3) (w first last : Nat)
  /-- The record at a place in witness staging. -/
  | staging (i : Nat)
  | warden
  /-- A 64-byte word of the raw-capture buffer, by its number. -/
  | raw (w : Nat)
deriving DecidableEq, Repr

/-- What the release of a reset finds (R357, R502): the straps, whether WDA passes its ROM self-test, and what answers on the chip enables. -/
structure BootIn where
  bootsel : Fin 4 := 0
  twaddr : Fin 4 := 0
  wdaOk : Bool := true
  tgts : List TgtObs := [{}, {}, {}, {}]
deriving DecidableEq, Repr

end Sys2Proof
end

