-- ==== Sys2Proof/Syntax.lean ====
section
/-!
DEFINITION. The commands of the block: one constructor per row of the spec's table of operations and events, with the
operands a sender or the environment supplies. `t` is the stu at which an event from outside falls; the observations an
event rests on (counts, voltages, samples) are operands.
-/

namespace Sys2Proof

/-- One command of the block. -/
inductive Instr where
  /-- TICK_BOUNDARY (R17): Every 12,800 rc (or every 2,048,000 stu while coasting or walking) TB_TICK increments and plan N, grade N and all boundary changes for tick N take effect. -/
  | tickBoundary (obs : TickObs)
  /-- TICK_OUT_FALL (R46): TICK_OUT falls after WIDTH rc, or 1 rc before the next pulse. -/
  | tickOutFall
  /-- LEDGER_ACCOUNT_CLOSE (R270): The ledger closes the energy account of tick N-1 during the first 512,000 stu of tick N. -/
  | ledgerAccountClose
  /-- GRADE_DECISION (R277): At stu offset 512,000 the ledger sets the grade and frequency for tick N+1. -/
  | gradeDecision
  /-- HEARTBEAT_DEADLINE (R481): At stu offset 512,000 a heartbeat not posted is counted as missed; the third miss starts failover. -/
  | heartbeatDeadline (posted : Bool)
  /-- PLAN_CUTOFF (R15): At stu offset 1,792,000 the plan for tick N+1 closes to new requests. -/
  | planCutoff (obs : CutObs)
  /-- PLAN_READY (R17): The planner finishes checking plan N+1 and hands it to the tick sequencer. -/
  | planReady (t : Nat)
  /-- TB_LATCH_READ (R32): A read of TB_STU_LO latches TB_STU_HI, TB_TICK, DTS and quality registers for the tenant. -/
  | tbLatchRead (p : Fin 4) (t : Nat)
  /-- HOST_LOAD (R40): T0 writes TB_CTRL.HOST_LOAD to submit the staged host time claim, which is refused, recorded or scheduled. -/
  | hostLoad (p : Fin 4) (t : Nat)
  /-- DISCIPLINE_EVALUATION (R38): Every 3000 ticks the device sorts new time observations, forms the offset and slews or steps DTS. -/
  | disciplineEvaluation
  /-- LEAP_CHANGE (R36): At the change instant of a pending leap second OFS changes by DELTA and PEND clears. -/
  | leapChange
  /-- PPS_EDGE (R43): A PPS_IN edge is stamped and accepted or counted as stray, updating the spoofing check. -/
  | ppsEdge (falling : Bool) (t : Nat)
  /-- PPS_WINDOW_END (R43): If no PPS_IN edge arrives by the end of the acceptance window, PPS_MISSED is set. -/
  | ppsWindowEnd
  /-- PPS_OUT_RISE (R45): PPS_OUT rises at the first stu whose DTS is at or past a whole second, per MODE. -/
  | ppsOutRise
  /-- PPS_OUT_FALL (R45): PPS_OUT falls WIDTH ms after it rose. -/
  | ppsOutFall
  /-- REF_MONITOR_WINDOW (R47): Each window of 400 SAFE_OSC cycles counts REF_IN edges; too few or too many declares REF_IN lost. -/
  | refMonitorWindow (t : Nat) (edges : Nat)
  /-- REF_QUAL_WINDOW (R49): A 1024 rc window checks the returned REF_IN against the coasted clock; the fourth qualifying one sets REF_BACK. -/
  | refQualWindow (t : Nat) (span : Option Nat)
  /-- REALIGN_EDGE (R49): The first REF_IN edge after REF_BACK is measured and realignment is made by STEP or WALK. -/
  | realignEdge (t : Nat)
  /-- WALK_END (R51): When the walk residual falls below 1 stu, the walk ends, REALIGNED sets and COAST clears. -/
  | walkEnd
  /-- BAND_SEARCH_STEP (R56): Each band search step of SCS or CCS sets a band, holds and counts, then halves the interval. -/
  | bandSearchStep (l : LoopId) (count : Nat)
  /-- LOCK_WINDOW (R57): Each 1024 rc window of the lock counter declares lock, loss of lock or a failed attempt. -/
  | lockWindow (l : LoopId) (count : Nat)
  /-- SLIP_DETECT (R58): A missing or extra divided-output edge declares loss of lock. -/
  | slipDetect (l : LoopId) (t : Nat)
  /-- SCS_RETRY (R61): After three failed searches SCS retries every 3000 ticks. -/
  | scsRetry
  /-- CCS_NO_EDGE (R73): CCS producing no edge for 4 SAFE_OSC cycles switches the core domain to SAFE_OSC. -/
  | ccsNoEdge (t : Nat)
  /-- CCS_RETRY (R75): A dead CCS retries lock once every 3000 ticks. -/
  | ccsRetry
  /-- RAMP_TARGET_REACHED (R64): A ramp segment reaches its target; the profile ends at LAST and the voltage may be lowered. -/
  | rampTargetReached
  /-- READING_DUE (R72): A TWB reading is started when its interval (400,000 stu while awaiting a raise, 300 ticks otherwise) expires. -/
  | readingDue (t : Nat)
  /-- RAISE_TIMEOUT (R69): With no confirmation within 30 ticks, the raise is abandoned and VFAIL is set. -/
  | raiseTimeout
  /-- VOUT_COMMAND (R69): The device writes VOUT_COMMAND to the core regulator on TWB. -/
  | voutCommand (t : Nat) (r : TwbResult)
  /-- OPERATION (R425): The device writes OPERATION on to the regulator when the compute island first starts. -/
  | operation (t : Nat) (r : TwbResult)
  /-- READ_VOUT (R69): The first transaction of a reading reads the regulator output voltage. -/
  | readVout (t : Nat) (r : TwbResult)
  /-- STATUS_WORD (R69): The second transaction of a reading ends the reading's stu and may confirm a raise. -/
  | statusWord (t : Nat) (r : TwbResult)
  /-- READ_IOUT (R271): The third transaction of a reading reads the regulator output current. -/
  | readIout (t : Nat) (r : TwbResult)
  /-- ICS_PRECHARGE_END (R77): After 8192 rc the LKF precharge ends and the pin is released. -/
  | icsPrechargeEnd (node : Nat)
  /-- LKF_RELEASE_CHECK (R78): 64 rc after release the LKF node is checked against 0.5 × VDD_IO. -/
  | lkfReleaseCheck (node : Nat)
  /-- ICS_LOCK (R77): LKF below 0.2 × VDD_IO for 64 rc declares ICS lock and traffic resumes. -/
  | icsLock (t : Nat)
  /-- ICS_LOCK_LOST (R79): LKF above 0.3 × VDD_IO for 16 rc declares loss; NAND, SPI and two-wire traffic pause. -/
  | icsLockLost (t : Nat)
  /-- LKF_FAULT_TIMEOUT (R78): Lock not declared within 4 ms of release sets LKF_FAULT and ICS runs timed. -/
  | lkfFaultTimeout
  /-- ICS_TIMED_LOCK (R78): In timed mode ICS declares lock 153,600 rc after the fault. -/
  | icsTimedLock
  /-- BIAS_RETRY (R86): RETRY seconds after a short shutdown, bias is re-enabled at the next boundary. -/
  | biasRetry (p : Fin 3)
  /-- EMERGENCY_TRIP (R94): The fast clip detector trips at the sample completing EM_N clips within 2^EM_K stu. -/
  | emergencyTrip (c : Fin 2) (clips : List Nat)
  /-- EMERGENCY_STEP (R94): 192 stu after detection the gain steps down one step with an EMERGENCY gain marker. -/
  | emergencyStep (c : Fin 2)
  /-- CONVERTER_VOID_END (R98): 64 ticks after a converter powers up again its void marking ends. -/
  | converterVoidEnd (c : Fin 2)
  /-- CHN_CONFIG_WRITE (R132): A write to CHN_SRC, TAP, CIC or FIR is taken before the OPEN's acceptance and discarded with CFG_REFUSED after. -/
  | chnConfigWrite (p : Fin 4) (n : Fin 256) (k : Fin 5) (v : Word) (t : Nat)
  /-- CHN_NCO_WRITE (R108): A write of CHN_NCO_FTW or CHN_NCO_PH is a request for an open context or a plain write otherwise. -/
  | chnNcoWrite (p : Fin 4) (n : Fin 256) (ph : Bool) (v : Word) (t : Nat)
  /-- CHN_BANK_REQ (R124): A write with CHN_BANK.REQ = 1 requests, queues or supersedes a coefficient-bank swap. -/
  | chnBankReq (p : Fin 4) (n : Fin 256) (v : Word) (t : Nat)
  /-- CHN_AGC_WRITE (R129): A write of CHN_AGC is a request for an open context, possibly raising CHN_COST. -/
  | chnAgcWrite (p : Fin 4) (n : Fin 256) (v : Word) (t : Nat)
  /-- CHN_SYNC_ARM (R120): Writing CHN_SYNC_HI.ARM = 1 requests a chain reset at the named tick boundary. -/
  | chnSyncArm (p : Fin 4) (n : Fin 256) (v : Word) (t : Nat)
  /-- COEF_WRITE (R123): A coefficient write is taken only into the standby bank; otherwise it sets BANK_BUSY. -/
  | coefWrite (p : Fin 4) (n : Fin 256) (b : Fin 2) (ix : Fin 256) (v : Word) (t : Nat)
  /-- FADE_END (R125): At the label of output M-1 the cross-fade ends, raising the cross-fade done cue. -/
  | fadeEnd (n : Fin 256)
  /-- AGC_GROUP_END (R127): At the end of each group of 8 outputs the AGC sets the gain for the next group. -/
  | agcGroupEnd (n : Fin 256)
  /-- AGC_HOLD_EXPIRE (R128): An AGC hold ends after HOLDMAX × 64 groups and AGC_RELEASE is set. -/
  | agcHoldExpire (n : Fin 256)
  /-- CHAIN_RING_RESUME (R181): When space returns in a full CHAIN ring the chain writes a LOST marker and resumes. -/
  | chainRingResume (n : Fin 256)
  /-- RING_SPACE_RETURN (R177): When space next allows in a full output ring, one LOST entry is written. -/
  | ringSpaceReturn (n : Fin 256) (q : Fin 16)
  /-- CAL_ESTIMATE_DUE (R154): An estimate becomes due at MAXAGE or when T_cal drifts beyond DRIFT from the nearest point. -/
  | calEstimateDue (g : Fin 7) (u : Fin 2)
  /-- CAL_ESTIMATE_DONE (R140): A formed estimate is checked for plausibility and accepted, relearned or rejected. -/
  | calEstimateDone (g : Fin 7) (u : Fin 2) (pair : Fin 6) (v se : List Rat)
  /-- CAL_ABANDON (R139): A deferral that reaches WAIT ticks without EST_T passing ticks is abandoned. -/
  | calAbandon (g : Fin 7) (u : Fin 2)
  /-- CAL_REEVALUATE (R147): Every 3000 ticks the values in force are re-interpolated at the current T_cal. -/
  | calReevaluate
  /-- CAL_AUTOSAVE (R158): With AUTOSAVE, a changed set is saved at most once per SAVE_INT seconds. -/
  | calAutosave (ok : Bool)
  /-- CAL_START (R154): Writing CAL_CTRL.START = 1 makes every group's estimate due, escalated. -/
  | calStart (p : Fin 4) (t : Nat)
  /-- CAL_SAVE (R158): Writing CAL_CTRL.SAVE = 1 saves the set at the next opportunity. -/
  | calSave (p : Fin 4) (t : Nat)
  /-- CAL_FACTORY (R161): Writing CAL_CTRL.FACTORY = 1 replaces the learned points with the factory set at its boundary. -/
  | calFactory (p : Fin 4) (t : Nat)
  /-- CAL_SWEEP_HOLD_END (R151): Each 16-tick hold of the power-up LNA sweep ends and the next gain step is set. -/
  | calSweepHoldEnd (p : Fin 2) (clip : Bool) (peak : Nat) (obs : Option Rat)
  /-- CAL_GAIN_SET (R151): At tick 225 of power-up calibration the gain is set from the sweep. -/
  | calGainSet (p : Fin 2)
  /-- CAL_PWRUP_END (R151): At tick 750 of power-up calibration PWRUP clears and PWRUP_DONE is set. -/
  | calPwrupEnd
  /-- RUN_START (R169): The sequencer starts a run: loads code, hauls in CONST and STATE, fills CUEINFO and runs pending handlers then the body. -/
  | runStart (n : Fin 256) (slot : Option (Fin 7)) (t : Nat)
  /-- RUN_PUBLISH (R171): At the end of a run the state is hauled out to the alternate copy and output entries are published. -/
  | runPublish (e : Fin 8) (t : Nat)
  /-- ENGINE_RUN_TIMEOUT (R260): A run not at END after its run cost plus 1024 cycles declares the engine failed. -/
  | engineRunTimeout (e : Fin 8) (t : Nat)
  /-- ENGINE_MEMORY_ERROR (R260): An uncorrectable error in an engine's lmem or instruction cache declares the engine failed. -/
  | engineMemoryError (e : Fin 8) (t : Nat)
  /-- JOB_COMPLETE (R184): An accelerator job writes its outputs and its completion record. -/
  | jobComplete (n : Fin 256) (ix t : Nat)
  /-- ACC_JOB_TIMEOUT (R264): A job with no completion record within its latency bound declares its unit failed. -/
  | accJobTimeout (run : Option (Fin 8)) (n : Fin 256) (ix t : Nat)
  /-- TIMER_CUE (R186): At the armed deadline the timer cue is raised for the context. -/
  | timerCue (n : Fin 256)
  /-- CTX_DOORBELL (R186): A write to CTX_DOORBELL raises the host doorbell cue, or is discarded if the context is not open. -/
  | ctxDoorbell (p : Fin 4) (n : Fin 256) (v : Word) (t : Nat)
  /-- CTX_RUN_WRITE (R248): A write of CTX_RUN requests a STRIDE or priority change, checked by R248 from check 4. -/
  | ctxRunWrite (p : Fin 4) (n : Fin 256) (v : Word) (t : Nat)
  /-- CTX_IMAGE_WRITE (R202): A write of CTX_IMAGE sets the image handle until the OPEN is accepted and is discarded after. -/
  | ctxImageWrite (p : Fin 4) (n : Fin 256) (v : Word) (t : Nat)
  /-- ADD (R212): d = a + b. -/
  | add (e : Fin 8) (pr : Bool) (d a b : Fin 32)
  /-- SUB (R212): d = a − b. -/
  | sub (e : Fin 8) (pr : Bool) (d a b : Fin 32)
  /-- AND (R212): Bitwise AND of two scalars. -/
  | andI (e : Fin 8) (pr : Bool) (d a b : Fin 32)
  /-- OR (R212): Bitwise OR of two scalars. -/
  | orI (e : Fin 8) (pr : Bool) (d a b : Fin 32)
  /-- XOR (R212): Bitwise XOR of two scalars. -/
  | xorI (e : Fin 8) (pr : Bool) (d a b : Fin 32)
  /-- SLL (R212): Scalar shift left logical. -/
  | sll (e : Fin 8) (pr : Bool) (d a b : Fin 32)
  /-- SRL (R212): Scalar shift right logical. -/
  | srl (e : Fin 8) (pr : Bool) (d a b : Fin 32)
  /-- SRA (R212): Scalar shift right arithmetic. -/
  | sra (e : Fin 8) (pr : Bool) (d a b : Fin 32)
  /-- SLT (R212): Signed set-less-than. -/
  | slt (e : Fin 8) (pr : Bool) (d a b : Fin 32)
  /-- SLTU (R212): Unsigned set-less-than. -/
  | sltu (e : Fin 8) (pr : Bool) (d a b : Fin 32)
  /-- SEQ (R212): Set if equal. -/
  | seqI (e : Fin 8) (pr : Bool) (d a b : Fin 32)
  /-- MIN (R212): Signed scalar minimum. -/
  | minI (e : Fin 8) (pr : Bool) (d a b : Fin 32)
  /-- MAX (R212): Signed scalar maximum. -/
  | maxI (e : Fin 8) (pr : Bool) (d a b : Fin 32)
  /-- MINU (R212): Unsigned scalar minimum. -/
  | minu (e : Fin 8) (pr : Bool) (d a b : Fin 32)
  /-- MAXU (R212): Unsigned scalar maximum. -/
  | maxu (e : Fin 8) (pr : Bool) (d a b : Fin 32)
  /-- MUL (R212): Low 32 bits of the product. -/
  | mul (e : Fin 8) (pr : Bool) (d a b : Fin 32)
  /-- MULH (R212): High 32 bits of the signed product. -/
  | mulh (e : Fin 8) (pr : Bool) (d a b : Fin 32)
  /-- MULHU (R212): High 32 bits of the unsigned product. -/
  | mulhu (e : Fin 8) (pr : Bool) (d a b : Fin 32)
  /-- DIV (R212): Signed quotient truncated toward zero, edge cases by R210. -/
  | divI (e : Fin 8) (pr : Bool) (d a b : Fin 32)
  /-- DIVU (R212): Unsigned quotient, edge cases by R210. -/
  | divu (e : Fin 8) (pr : Bool) (d a b : Fin 32)
  /-- REM (R212): Signed remainder with the sign of a. -/
  | rem (e : Fin 8) (pr : Bool) (d a b : Fin 32)
  /-- REMU (R212): Unsigned remainder. -/
  | remu (e : Fin 8) (pr : Bool) (d a b : Fin 32)
  /-- CLZ (R212): Count leading zeros. -/
  | clz (e : Fin 8) (pr : Bool) (d a : Fin 32)
  /-- POPC (R212): Count of ones. -/
  | popc (e : Fin 8) (pr : Bool) (d a : Fin 32)
  /-- SEXTB (R212): Sign-extend bits [7:0]. -/
  | sextb (e : Fin 8) (pr : Bool) (d a : Fin 32)
  /-- SEXTH (R212): Sign-extend bits [15:0]. -/
  | sexth (e : Fin 8) (pr : Bool) (d a : Fin 32)
  /-- ABS (R212): Saturating absolute value. -/
  | abs (e : Fin 8) (pr : Bool) (d a : Fin 32)
  /-- ADDI (R212): Add a sign-extended immediate. -/
  | addi (e : Fin 8) (pr : Bool) (d a : Fin 32) (ix : BitVec 15)
  /-- SLTI (R212): Signed compare with immediate. -/
  | slti (e : Fin 8) (pr : Bool) (d a : Fin 32) (ix : BitVec 15)
  /-- SLTIU (R212): Unsigned compare with immediate. -/
  | sltiu (e : Fin 8) (pr : Bool) (d a : Fin 32) (ix : BitVec 15)
  /-- ANDI (R212): AND with zero-extended immediate. -/
  | andi (e : Fin 8) (pr : Bool) (d a : Fin 32) (ix : BitVec 15)
  /-- ORI (R212): OR with zero-extended immediate. -/
  | ori (e : Fin 8) (pr : Bool) (d a : Fin 32) (ix : BitVec 15)
  /-- XORI (R212): XOR with zero-extended immediate. -/
  | xori (e : Fin 8) (pr : Bool) (d a : Fin 32) (ix : BitVec 15)
  /-- SLLI (R212): Shift left logical by immediate. -/
  | slli (e : Fin 8) (pr : Bool) (d a n : Fin 32)
  /-- SRLI (R212): Shift right logical by immediate. -/
  | srli (e : Fin 8) (pr : Bool) (d a n : Fin 32)
  /-- SRAI (R212): Shift right arithmetic by immediate. -/
  | srai (e : Fin 8) (pr : Bool) (d a n : Fin 32)
  /-- LI (R212): Load a 32-bit immediate. -/
  | li (e : Fin 8) (d : Fin 32) (ix : Word)
  /-- ADDIL (R212): Add a 32-bit immediate. -/
  | addil (e : Fin 8) (d a : Fin 32) (ix : Word)
  /-- SLTIL (R212): Signed compare with a 32-bit immediate. -/
  | sltil (e : Fin 8) (d a : Fin 32) (ix : Word)
  /-- LB (R213): Load a signed byte from lmem. -/
  | lb (e : Fin 8) (pr : Bool) (d a : Fin 32) (off : BitVec 12)
  /-- LBU (R213): Load a zero-extended byte from lmem. -/
  | lbu (e : Fin 8) (pr : Bool) (d a : Fin 32) (off : BitVec 12)
  /-- LH (R213): Load a signed halfword from lmem. -/
  | lh (e : Fin 8) (pr : Bool) (d a : Fin 32) (off : BitVec 12)
  /-- LHU (R213): Load a zero-extended halfword from lmem. -/
  | lhu (e : Fin 8) (pr : Bool) (d a : Fin 32) (off : BitVec 12)
  /-- LW (R213): Load a word from lmem. -/
  | lw (e : Fin 8) (pr : Bool) (d a : Fin 32) (off : BitVec 12)
  /-- SB (R213): Store a byte to lmem. -/
  | sb (e : Fin 8) (pr : Bool) (d a : Fin 32) (off : BitVec 12)
  /-- SH (R213): Store a halfword to lmem. -/
  | sh (e : Fin 8) (pr : Bool) (d a : Fin 32) (off : BitVec 12)
  /-- SW (R213): Store a word to lmem. -/
  | sw (e : Fin 8) (pr : Bool) (d a : Fin 32) (off : BitVec 12)
  /-- FADD (R214): binary32 add. -/
  | fadd (e : Fin 8) (pr : Bool) (d a b : Fin 32)
  /-- FSUB (R214): binary32 subtract. -/
  | fsub (e : Fin 8) (pr : Bool) (d a b : Fin 32)
  /-- FMUL (R214): binary32 multiply. -/
  | fmul (e : Fin 8) (pr : Bool) (d a b : Fin 32)
  /-- FDIV (R214): binary32 divide. -/
  | fdiv (e : Fin 8) (pr : Bool) (d a b : Fin 32)
  /-- FSQRT (R214): binary32 square root. -/
  | fsqrt (e : Fin 8) (pr : Bool) (d a : Fin 32)
  /-- FMIN (R214): binary32 minimum. -/
  | fmin (e : Fin 8) (pr : Bool) (d a b : Fin 32)
  /-- FMAX (R214): binary32 maximum. -/
  | fmax (e : Fin 8) (pr : Bool) (d a b : Fin 32)
  /-- FCVTFI (R214): f32 from i32. -/
  | fcvtfi (e : Fin 8) (pr : Bool) (d a : Fin 32)
  /-- FCVTIF (R214): i32 from f32, saturating. -/
  | fcvtif (e : Fin 8) (pr : Bool) (d a : Fin 32)
  /-- FLT (R214): f32 less-than compare. -/
  | fltI (e : Fin 8) (pr : Bool) (d a b : Fin 32)
  /-- FEQ (R214): f32 equality compare. -/
  | feq (e : Fin 8) (pr : Bool) (d a b : Fin 32)
  /-- FABS (R214): Clear the sign bit. -/
  | fabs (e : Fin 8) (pr : Bool) (d a : Fin 32)
  /-- FNEG (R214): Flip the sign bit. -/
  | fneg (e : Fin 8) (pr : Bool) (d a : Fin 32)
  /-- PAND (R214): Predicate AND. -/
  | pand (e : Fin 8) (pr : Bool) (d a b : Fin 8)
  /-- POR (R214): Predicate OR. -/
  | por (e : Fin 8) (pr : Bool) (d a b : Fin 8)
  /-- PXOR (R214): Predicate XOR. -/
  | pxor (e : Fin 8) (pr : Bool) (d a b : Fin 8)
  /-- PANDN (R214): Predicate a AND NOT b. -/
  | pandn (e : Fin 8) (pr : Bool) (d a b : Fin 8)
  /-- PNOT (R214): Predicate NOT. -/
  | pnot (e : Fin 8) (pr : Bool) (d a : Fin 8)
  /-- PFROMS (R214): Copy a scalar into a predicate. -/
  | pfroms (e : Fin 8) (pr : Bool) (d : Fin 8) (a : Fin 32)
  /-- PTOS (R214): Copy a predicate into a scalar. -/
  | ptos (e : Fin 8) (pr : Bool) (d : Fin 32) (a : Fin 8)
  /-- PSETS (R214): Set a predicate all ones if the scalar is non-zero. -/
  | psets (e : Fin 8) (pr : Bool) (d : Fin 8) (a : Fin 32)
  /-- PCNT (R214): Count set predicate bits. -/
  | pcnt (e : Fin 8) (pr : Bool) (d : Fin 32) (a : Fin 8)
  /-- PFIRST (R214): Index of the lowest set predicate bit. -/
  | pfirst (e : Fin 8) (pr : Bool) (d : Fin 32) (a : Fin 8)
  /-- VADD (R215): Vector add per governed lane. -/
  | vadd (e : Fin 8) (pr : Bool) (g : Fin 8) (ty : VTy) (d a b : Fin 32)
  /-- VSUB (R215): Vector subtract per governed lane. -/
  | vsub (e : Fin 8) (pr : Bool) (g : Fin 8) (ty : VTy) (d a b : Fin 32)
  /-- VADDS (R215): Saturating vector add. -/
  | vadds (e : Fin 8) (pr : Bool) (g : Fin 8) (ty : VTy) (d a b : Fin 32)
  /-- VSUBS (R215): Saturating vector subtract. -/
  | vsubs (e : Fin 8) (pr : Bool) (g : Fin 8) (ty : VTy) (d a b : Fin 32)
  /-- VMIN (R215): Vector signed minimum. -/
  | vmin (e : Fin 8) (pr : Bool) (g : Fin 8) (ty : VTy) (d a b : Fin 32)
  /-- VMAX (R215): Vector signed maximum. -/
  | vmax (e : Fin 8) (pr : Bool) (g : Fin 8) (ty : VTy) (d a b : Fin 32)
  /-- VABS (R215): Vector saturating absolute value. -/
  | vabs (e : Fin 8) (pr : Bool) (g : Fin 8) (ty : VTy) (d a : Fin 32)
  /-- VNEG (R215): Vector saturating negation. -/
  | vneg (e : Fin 8) (pr : Bool) (g : Fin 8) (ty : VTy) (d a : Fin 32)
  /-- VAVG (R215): Vector rounded average. -/
  | vavg (e : Fin 8) (pr : Bool) (g : Fin 8) (ty : VTy) (d a b : Fin 32)
  /-- VCONJ (R215): Complex conjugate per lane. -/
  | vconj (e : Fin 8) (pr : Bool) (g : Fin 8) (ty : VTy) (d a : Fin 32)
  /-- VSEL (R215): Select lanes by predicate. -/
  | vsel (e : Fin 8) (pr : Bool) (g : Fin 8) (ty : VTy) (d a b : Fin 32)
  /-- VMOVV (R215): Vector move. -/
  | vmovv (e : Fin 8) (pr : Bool) (g : Fin 8) (ty : VTy) (d a : Fin 32)
  /-- VMUL (R215): Vector multiply, scaled per type. -/
  | vmul (e : Fin 8) (pr : Bool) (g : Fin 8) (ty : VTy) (d a b : Fin 32)
  /-- VCMULC (R215): Complex multiply by conjugate. -/
  | vcmulc (e : Fin 8) (pr : Bool) (g : Fin 8) (ty : VTy) (d a b : Fin 32)
  /-- VMAC (R215): Multiply-accumulate into an accumulator. -/
  | vmac (e : Fin 8) (pr : Bool) (g : Fin 8) (ty : VTy) (k : Fin 4) (a b : Fin 32)
  /-- VMSU (R215): Multiply-subtract from an accumulator. -/
  | vmsu (e : Fin 8) (pr : Bool) (g : Fin 8) (ty : VTy) (k : Fin 4) (a b : Fin 32)
  /-- VCMAC (R215): Complex multiply-accumulate. -/
  | vcmac (e : Fin 8) (pr : Bool) (g : Fin 8) (k : Fin 4) (a b : Fin 32)
  /-- VCMACC (R215): Complex multiply-accumulate with conjugate. -/
  | vcmacc (e : Fin 8) (pr : Bool) (g : Fin 8) (k : Fin 4) (a b : Fin 32)
  /-- VMULH (R215): High half of the signed product. -/
  | vmulh (e : Fin 8) (pr : Bool) (g : Fin 8) (ty : VTy) (d a b : Fin 32)
  /-- VAND (R215): Vector bitwise AND. -/
  | vand (e : Fin 8) (pr : Bool) (g : Fin 8) (ty : VTy) (d a b : Fin 32)
  /-- VOR (R215): Vector bitwise OR. -/
  | vor (e : Fin 8) (pr : Bool) (g : Fin 8) (ty : VTy) (d a b : Fin 32)
  /-- VXOR (R215): Vector bitwise XOR. -/
  | vxor (e : Fin 8) (pr : Bool) (g : Fin 8) (ty : VTy) (d a b : Fin 32)
  /-- VNOT (R215): Vector bitwise NOT. -/
  | vnot (e : Fin 8) (pr : Bool) (g : Fin 8) (ty : VTy) (d a : Fin 32)
  /-- VSLL (R215): Vector shift left logical. -/
  | vsll (e : Fin 8) (pr : Bool) (g : Fin 8) (ty : VTy) (d a b : Fin 32)
  /-- VSRL (R215): Vector shift right logical. -/
  | vsrl (e : Fin 8) (pr : Bool) (g : Fin 8) (ty : VTy) (d a b : Fin 32)
  /-- VSRA (R215): Vector shift right arithmetic. -/
  | vsra (e : Fin 8) (pr : Bool) (g : Fin 8) (ty : VTy) (d a b : Fin 32)
  /-- VSRAR (R215): Vector rounding arithmetic shift right. -/
  | vsrar (e : Fin 8) (pr : Bool) (g : Fin 8) (ty : VTy) (d a b : Fin 32)
  /-- VCMP (R215): Vector compare into a predicate. -/
  | vcmp (e : Fin 8) (pr : Bool) (g : Fin 8) (ty : VTy) (cc : VCc) (d : Fin 8) (a b : Fin 32)
  /-- VPERM (R216): Vector permute by index lanes. -/
  | vperm (e : Fin 8) (pr : Bool) (g : Fin 8) (ty : VTy) (d a b : Fin 32)
  /-- VZIPL (R216): Interleave low halves. -/
  | vzipl (e : Fin 8) (pr : Bool) (g : Fin 8) (ty : VTy) (d a b : Fin 32)
  /-- VZIPH (R216): Interleave high halves. -/
  | vziph (e : Fin 8) (pr : Bool) (g : Fin 8) (ty : VTy) (d a b : Fin 32)
  /-- VUZPE (R216): Unzip even lanes. -/
  | vuzpe (e : Fin 8) (pr : Bool) (g : Fin 8) (ty : VTy) (d a b : Fin 32)
  /-- VUZPO (R216): Unzip odd lanes. -/
  | vuzpo (e : Fin 8) (pr : Bool) (g : Fin 8) (ty : VTy) (d a b : Fin 32)
  /-- VREV (R216): Reverse lanes. -/
  | vrev (e : Fin 8) (pr : Bool) (g : Fin 8) (ty : VTy) (d a : Fin 32)
  /-- VSLD (R216): Slide i16 lanes across two vectors. -/
  | vsld (e : Fin 8) (pr : Bool) (d a b n : Fin 32)
  /-- VRSUM (R216): Sum of governed lanes to a scalar. -/
  | vrsum (e : Fin 8) (pr : Bool) (g : Fin 8) (ty : VTy) (d a : Fin 32)
  /-- VRMAX (R216): Maximum of governed lanes. -/
  | vrmax (e : Fin 8) (pr : Bool) (g : Fin 8) (ty : VTy) (d a : Fin 32)
  /-- VRMIN (R216): Minimum of governed lanes. -/
  | vrmin (e : Fin 8) (pr : Bool) (g : Fin 8) (ty : VTy) (d a : Fin 32)
  /-- VRAMAX (R216): Largest absolute value of governed lanes. -/
  | vramax (e : Fin 8) (pr : Bool) (g : Fin 8) (ty : VTy) (d a : Fin 32)
  /-- VRSUMA (R216): Rounded, saturated sum of accumulator lanes. -/
  | vrsuma (e : Fin 8) (pr : Bool) (g : Fin 8) (d : Fin 32) (k : Fin 4) (sh : Fin 32)
  /-- VRPWR (R216): Sum of c16 power. -/
  | vrpwr (e : Fin 8) (pr : Bool) (g : Fin 8) (d a : Fin 32)
  /-- VACLR (R216): Clear accumulator lanes. -/
  | vaclr (e : Fin 8) (pr : Bool) (g : Fin 8) (k : Fin 4)
  /-- VAMOV (R216): Move rounded accumulator lanes to a vector. -/
  | vamov (e : Fin 8) (pr : Bool) (g : Fin 8) (ty : VTy) (d : Fin 32) (k : Fin 4) (sh : Fin 32)
  /-- VAIN (R216): Load vector lanes into an accumulator. -/
  | vain (e : Fin 8) (pr : Bool) (g : Fin 8) (ty : VTy) (k : Fin 4) (a : Fin 32)
  /-- VBCAST (R216): Broadcast a scalar to governed lanes. -/
  | vbcast (e : Fin 8) (pr : Bool) (g : Fin 8) (ty : VTy) (d a : Fin 32)
  /-- VEXT (R216): Extract a lane to a scalar. -/
  | vext (e : Fin 8) (pr : Bool) (ty : VTy) (d a n : Fin 32)
  /-- VINS (R216): Insert a scalar into a lane. -/
  | vins (e : Fin 8) (pr : Bool) (g : Fin 8) (ty : VTy) (d a n : Fin 32)
  /-- VIDX (R216): Lane indices. -/
  | vidx (e : Fin 8) (pr : Bool) (g : Fin 8) (ty : VTy) (d : Fin 32)
  /-- VDUPI (R216): Duplicate a 32-bit immediate to every lane. -/
  | vdupi (e : Fin 8) (d : Fin 32) (ix : Word)
  /-- VLD (R216): Load 64 B from lmem into governed lanes. -/
  | vld (e : Fin 8) (pr : Bool) (g : Fin 8) (d a : Fin 32) (off : BitVec 12)
  /-- VST (R216): Store governed lanes of 64 B to lmem. -/
  | vst (e : Fin 8) (pr : Bool) (g : Fin 8) (d a : Fin 32) (off : BitVec 12)
  /-- BEQZ (R217): Branch if zero. -/
  | beqz (e : Fin 8) (a : Fin 32) (off : BitVec 17)
  /-- BNEZ (R217): Branch if not zero. -/
  | bnez (e : Fin 8) (a : Fin 32) (off : BitVec 17)
  /-- BLTZ (R217): Branch if negative. -/
  | bltz (e : Fin 8) (a : Fin 32) (off : BitVec 17)
  /-- BGEZ (R217): Branch if not negative. -/
  | bgez (e : Fin 8) (a : Fin 32) (off : BitVec 17)
  /-- BGTZ (R217): Branch if positive. -/
  | bgtz (e : Fin 8) (a : Fin 32) (off : BitVec 17)
  /-- BLEZ (R217): Branch if not positive. -/
  | blez (e : Fin 8) (a : Fin 32) (off : BitVec 17)
  /-- BANY (R217): Branch if any predicate bit is set. -/
  | bany (e a : Fin 8) (off : BitVec 17)
  /-- BNONE (R217): Branch if no predicate bit is set. -/
  | bnone (e a : Fin 8) (off : BitVec 17)
  /-- JMP (R217): Unconditional forward jump. -/
  | jmp (e : Fin 8) (off : BitVec 17)
  /-- CALL (R217): Push the return word and go to the target. -/
  | callI (e : Fin 8) (off : BitVec 17)
  /-- RET (R217): Pop the return word and go there. -/
  | retI (e : Fin 8)
  /-- LOOP (R218): Open a counted loop with a clamped pass count. -/
  | loopI (e : Fin 8) (a : Fin 32) (n : BitVec 16)
  /-- LEND (R218): Close the innermost loop, returning while passes remain. -/
  | lend (e : Fin 8) (off : BitVec 17)
  /-- HIN (R219): Haul n bytes from EXT into lmem. -/
  | hin (e : Fin 8) (a b c : Fin 32) (n10 : Fin 1024)
  /-- HOUT (R219): Haul n bytes from lmem to EXT. -/
  | hout (e : Fin 8) (a b c : Fin 32) (n10 : Fin 1024)
  /-- QRDC (R220): Read a CHAIN port into samples, flags and entries arrays. -/
  | qrdc (e : Fin 8) (d : Fin 32) (q : Fin 16) (a b c : Fin 32)
  /-- QRD (R220): Read whole entries from a CTXOUT or BURST port. -/
  | qrd (e : Fin 8) (d : Fin 32) (q : Fin 16) (a : Fin 32)
  /-- QWR (R220): Append one record to an output port. -/
  | qwr (e d : Fin 8) (q : Fin 16) (a b c : Fin 32)
  /-- JOB (R222): Issue an accelerator job from a descriptor. -/
  | jobI (e : Fin 8) (t : Fin 8) (kind : Fin 6) (cls : Fin 16) (span : Fin 256) (a : Fin 32)
  /-- JWAIT (R222): Retire when the tag's span-0 job has written its outputs. -/
  | jwait (e : Fin 8) (t : Fin 8)
  /-- CUERD (R234): Copy and clear a CUEINFO record. -/
  | cuerd (e d : Fin 8) (k : Fin 7) (a : Fin 32)
  /-- CUECLR (R234): Clear a CUEINFO record. -/
  | cueclr (e : Fin 8) (k : Fin 7)
  /-- CUEPEND (R234): Return a mask of pending cue records. -/
  | cuepend (e : Fin 8) (d : Fin 32)
  /-- TIMER (R234): Arm, replace or disarm the context's timer cue. -/
  | timerI (e : Fin 8) (a : Fin 32)
  /-- AGCREL (R234): End the AGC hold from the next group. -/
  | agcrel (e : Fin 8)
  /-- RINF (R235): Read a selected run information value. -/
  | rinf (e : Fin 8) (d sel : Fin 32)
  /-- LCNT (R235): Read the pass number of an open loop. -/
  | lcnt (e : Fin 8) (d k : Fin 32)
  /-- BRK (R522): Log a breakpoint in SE_BRK when debug is enabled; otherwise no operation. -/
  | brkI (e : Fin 8)
  /-- END (R235): End the body or handler. -/
  | endRun (e : Fin 8)
  /-- PEAK_DECISION (R293): A burst correlation peak is decided at d and starts, pre-empts, captures or is discarded. -/
  | peakDecision (n : Fin 256) (c : Fin 2) (k : PeakIn) (raw : List Bool)
  /-- START_CONDITION (R297): The start condition completes and the channel goes to receiving. -/
  | startCondition (n : Fin 256) (c : Fin 2) (t : Nat) (raw : List Bool)
  /-- START_DEADLINE (R297): A reception that has not started by its start deadline ends NO_START. -/
  | startDeadline (n : Fin 256) (c : Fin 2) (raw : List Bool)
  /-- END_CONDITION (R299): A reception completes its end condition and ends GOOD or BAD_FRAME. -/
  | endCondition (n : Fin 256) (c : Fin 2) (raw : List Bool)
  /-- END_DEADLINE (R298): A reception reaching its end deadline ends TOO_LONG. -/
  | endDeadline (n : Fin 256) (c : Fin 2) (raw : List Bool)
  /-- BURST_GAP_INTERRUPT (R300): A gap marker on the channel input ends a reception INTERRUPTED. -/
  | burstGapInterrupt (n : Fin 256) (c : Fin 2) (t : Nat) (raw : List Bool)
  /-- PAIR_TIMEOUT (R304): A GOOD report waiting for its partner is delivered when the pairing wait ends. -/
  | pairTimeout (n : Fin 256)
  /-- BRS_CAPTURE_WRITE (R309): A write of BRS_CAPTURE while open is a request at a boundary. -/
  | brsCaptureWrite (p : Fin 4) (n : Fin 256) (v : Word) (t : Nat)
  /-- OBS_REFERENCE (R340): At a scheduled OBS reference the device raises cue 5 in every context with a WIT port. -/
  | obsReference
  /-- OBS_INTERVAL_CLOSE (R341): LAG ticks after its reference an OBS interval closes and its record is formed. -/
  | obsIntervalClose
  /-- EVT_COALESCE_CLOSE (R344): 1 s after the first event of a code, the coalesced EVT record is formed. -/
  | evtCoalesceClose
  /-- RECORD_COMMIT (R347): A signed witness record is committed as an ingot and delivered to readers. -/
  | recordCommit (t : Nat)
  /-- WITNESS_CHECKPOINT (R353): Every 60 s a checkpoint ingot of the chain head is written. -/
  | witnessCheckpoint (t : Nat)
  /-- ENROL (R330): KEY_CTRL.ENROL generates an OWK certified by a DIK-signed KEY record. -/
  | keyEnrol (p : Fin 4) (t : Nat)
  /-- ROLL (R331): KEY_CTRL.ROLL replaces the OWK with a new one. -/
  | keyRoll (p : Fin 4) (t : Nat)
  /-- RELEASE (R331): KEY_CTRL.RELEASE destroys the OWK with a KEY record. -/
  | keyRelease (p : Fin 4) (t : Nat)
  /-- MOUNT_COMPLETE (R375): Mount finishes, writing a new map and root; STATE reads mounted. -/
  | mountComplete (bad : List Nat) (fwd : List (Nat × List (Option (List Byte)))) (again : List (Nat × List CwObs)) (t : Nat)
  /-- FORMAT (R377): FST_CTRL.FORMAT erases the medium and writes the first map and root. -/
  | fstFormat (p : Fin 4) (t : Nat)
  /-- SCRUBNOW (R381): FST_CTRL.SCRUBNOW escalates a full scrub. -/
  | fstScrubnow (p : Fin 4) (t : Nat)
  /-- INGOT_COMMIT (R370): The status read after a hallmark program reports pass and the ingot commits. -/
  | ingotCommit (t : Nat)
  /-- INGOT_DURABLE (R370): A native ingot becomes durable after PAIRDIST further pages of its block are programmed. -/
  | ingotDurable (seq : Nat) (t : Nat)
  /-- PAD_TIMEOUT (R370): FLUSH ticks without following pages makes the device write a pad ingot. -/
  | padTimeout (seq : Nat)
  /-- INGOT_FLUSH (R365): A FLASH port ingot is closed FLUSH ticks after its first record. -/
  | ingotFlush (ctx : Fin 256) (q : Fin 16)
  /-- NAND_OP_FAIL (R383): A program or erase reports fail and the block is retired. -/
  | nandOpFail (b : Nat) (t : Nat)
  /-- NAND_READ_DONE (R362): A codeword read completes by hard, retry or soft decode, or is uncorrectable. -/
  | nandReadDone (seq : Nat) (t : Nat) (o : CwObs)
  /-- XTEMP_DEFER_TIMEOUT (R380): A native ingot deferred for temperature is written after TDEFER seconds. -/
  | xtempDeferTimeout
  /-- SCRUB_READ (R381): A scrub wind-up task reads pages and marks blocks due for refresh. -/
  | scrubRead (b : Nat) (t : Nat) (ps : List (List CwObs))
  /-- REFRESH (R382): A refresh relocates every valid ingot of a block and erases it once they are durable. -/
  | fstRefresh (b : Nat) (back : List Nat) (t : Nat)
  /-- WEAR_LEVEL_MOVE (R384): At most once a minute cold ingots move to a high-count free block. -/
  | wearLevelMove (native : Bool) (t : Nat)
  /-- RETENTION_ACCUMULATE (R385): Each whole second AF(T_s) is added to FST_RETACC. -/
  | retentionAccumulate
  /-- CLOCK_STAMP (R386): A clock-stamp ingot is written every 60 s. -/
  | clockStamp (t : Nat)
  /-- SNAP_EDGE (R458): A rising edge on SNAP triggers a snapshot. -/
  | snapEdge (t : Nat)
  /-- FIRE (R458): T0 writing SNP_CTRL.FIRE triggers a snapshot. -/
  | snpFire (p : Fin 4) (t : Nat)
  /-- RAWEN_WRITE (R466): A write of SNP_CTRL.RAWEN requests raw capture at a boundary. -/
  | rawenWrite (p : Fin 4) (en : Bool) (t : Nat)
  /-- RAW_DONE (R467): At t0 + 6,144,000 raw capture completes and RAWDONE is set. -/
  | rawDone (wa wb : List (Nat × BitVec 12)) (clipsA clipsB : List Nat)
  /-- TELEMETRY_RECORD (R474): Every 3000 ticks a 64-byte telemetry record is formed. -/
  | telemetryRecord
  /-- STORE_SCRUB (R472): The store scrubber reads and corrects store words as a wind-up task. -/
  | storeScrub (n : Nat) (t : Nat)
  /-- KNOWN_ANSWER_TEST (R473): An engine or accelerator unit runs its known-answer self-test as a wind-up task. -/
  | knownAnswerTest (u : Fin 18) (pass : Bool) (t : Nat)
  /-- LEDGER_SECOND (R274): At each whole second the ledger updates T_base, KCORR, share marks and per-second sums. -/
  | ledgerSecond
  /-- RESV_STALE (R275): No LDG_RESV write for RES_TO seconds sets RSTALE. -/
  | resvStale
  /-- HIBER (R510): LDG_CTRL.HIBER from T0 requests HIBERNATE entry from its boundary. -/
  | ldgHiber (p : Fin 4) (t : Nat)
  /-- HIBER_TIMEOUT (R510): 500 ms after B the remaining entry steps are taken at once. -/
  | hiberTimeout
  /-- HIBER_WAKE (R511): 1 ms after a PWRON rise during the hold, the device boots as a wake. -/
  | hiberWake (ix : BootIn)
  /-- UNQ (R263): SEQ_CTRL.UNQ tests and releases quarantined engines and units. -/
  | seqUnq (p : Fin 4) (eng : BitVec 8) (acc : BitVec 10) (t : Nat)
  /-- STORE_ECC_ERROR (R480): An uncorrectable store word is handled by the object that holds it. -/
  | storeEccError (o : EccObj) (t : Nat)
  /-- FAILOVER (R481): FLT_CTRL.FAILOVER from T0 requests a warden failover. -/
  | fltFailover (p : Fin 4) (t : Nat)
  /-- FAILOVER_COMPLETE (R483): The new warden posts its first heartbeat and plan. -/
  | failoverComplete (t : Nat)
  /-- WARDEN_SELFTEST_DONE (R484): The failed warden's three self-tests end; it becomes standby or is quarantined. -/
  | wardenSelftestDone (w : Fin 2) (pass : Bool) (t : Nat)
  /-- UNQW (R484): FLT_CTRL.UNQW repeats the tests on a quarantined warden. -/
  | fltUnqw (p : Fin 4) (t : Nat)
  /-- RESTART (R487): FLT_CTRL.RESTART requests a Tin Soldier compute restart. -/
  | fltRestart (p : Fin 4) (t : Nat)
  /-- DEVRESET (R491): FLT_CTRL.DEVRESET makes an F5 reset. -/
  | fltDevreset (p : Fin 4) (t : Nat)
  /-- AVCLR (R496): FLT_CTRL.AVCLR restarts the availability counters. -/
  | fltAvclr (p : Fin 4) (t : Nat)
  /-- LOGCLR (R479): FLT_CTRL.LOGCLR empties FLT_LOG. -/
  | fltLogclr (p : Fin 4) (t : Nat)
  /-- TS_VOTE_STEP (R486): Each Tin Soldier step carries out the majority action and resynchronises a dissenting channel. -/
  | tsVoteStep (a b c : Nat) (t : Nat)
  /-- TS_RESET_RELEASE (R487): After 1 ms of reset the compute island and wardens are released. -/
  | tsResetRelease (t : Nat)
  /-- TS_FIRMWARE_READ (R487): The warden firmware has been read and the warden is started under boot ROM verification. -/
  | tsFirmwareRead (t : Nat)
  /-- TS_RESTART_COMPLETE (R487): The first heartbeat and plan after a restart; COMPUTE reads running. -/
  | tsRestartComplete (t : Nat)
  /-- TS_RESTART_TIMEOUT (R488): No heartbeat 250 ms after the trigger makes an F5 reset. -/
  | tsRestartTimeout
  /-- RESET_N_ASSERT (R501): RESET_N held low resets every island except backup. -/
  | resetNAssert (t : Nat)
  /-- RESET_RELEASE (R506): On release of RESET_N the straps are sampled and the boot ROM starts. -/
  | resetRelease (ix : BootIn)
  /-- SUPPLY_MONITOR_TRIP (R500): A step 2 or 3 supply below its reset threshold holds the device in reset. -/
  | supplyMonitorTrip (t : Nat)
  /-- TMODE (R534): TMODE at 1 acts exactly as RESET_N held low. -/
  | tmode (level : Bool) (ix : BootIn) (t : Nat)
  /-- BOOT_LOAD (R505): A write of BOOT_LOAD appends a firmware chunk from the boot window. -/
  | bootLoad (p : Fin 4) (n : BitVec 16) (last : Bool) (t : Nat)
  /-- GO (R505): BOOT_CTRL.GO verifies the loaded firmware and runs it or discards it. -/
  | bootGo (p : Fin 4) (t : Nat)
  /-- STORE (R505): BOOT_CTRL.STORE with GO also writes the verified image to the image zone. -/
  | bootStore (p : Fin 4) (t : Nat)
  /-- FIRMWARE_VERIFIED (R561): Verified warden firmware starts; the compute island starts, OPERATION is written and CCS searches. -/
  | firmwareVerified (t : Nat)
  /-- FIRST_PLANNED_TICK (R506): The first tick with a plan: DTS set from the backup domain and the calibration set loaded. -/
  | firstPlannedTick (edge raw : Nat)
  /-- READY (R153): 810 ticks after the first planned tick TOP_DOMAIN.READY is set. -/
  | readyEvt
  /-- IMAGE_LOAD (R408): IMAGE subop 0 loads a program image for verification. -/
  | imageLoad (t : Fin 4) (tag : BitVec 16) (b : List Byte) (u : Nat)
  /-- IMAGE_PART (R411): IMAGE subop 1 copies a part of an image from the data window. -/
  | imagePart (t : Fin 4) (tag : BitVec 16) (off : BitVec 32) (b : List Byte) (u : Nat)
  /-- IMAGE_LAST_PART (R411): IMAGE subop 3 copies the last part and starts verification. -/
  | imageLastPart (t : Fin 4) (tag : BitVec 16) (off : BitVec 32) (b : List Byte) (u : Nat)
  /-- IMAGE_UNLOAD (R256): IMAGE subop 2 unloads an image, or completes image in use. -/
  | imageUnload (t : Fin 4) (tag h : BitVec 16) (u : Nat)
  /-- IMAGE_VERIFY_DONE (R195): The loader finishes checking an image and completes with a handle or a refusal. -/
  | imageVerifyDone (t : Fin 4) (u : Nat)
  /-- OPEN (R248): The OPEN command is checked for admission and scheduled for its boundary. -/
  | openCtx (t : Fin 4) (tag : BitVec 16) (n : Fin 256) (u : Nat)
  /-- CLOSE (R408): The CLOSE command closes a context at its boundary, or is refused source busy. -/
  | closeCtx (t : Fin 4) (tag : BitVec 16) (n : Fin 256) (u : Nat)
  /-- BUDGET (R408): The BUDGET command writes PCAP, LEVEL and FMAX for one ledger decision. -/
  | budget (t : Fin 4) (tag : BitVec 16) (mask : BitVec 8) (pcap : BitVec 16) (level : BitVec 8) (fmax : BitVec 32) (u : Nat)
  /-- BIND (R408): BIND subop 0 binds a context port to a stream, zone or context output. -/
  | bindPort (t : Fin 4) (tag : BitVec 16) (n : Fin 256) (q target a b : BitVec 8) (u : Nat)
  /-- STREAM_SETUP (R414): BIND subop 1 sets a stream to PULL or PUSH with its host buffer. -/
  | streamSetup (t : Fin 4) (tag : BitVec 16) (k mode : BitVec 8) (base : BitVec 64) (size : BitVec 32) (wb : BitVec 64) (u : Nat)
  /-- READ_STREAM (R415): READ_STREAM subop 0 copies whole waiting entries to the data reference. -/
  | readStream (t : Fin 4) (tag : BitVec 16) (k : BitVec 8) (daddr : BitVec 64) (dlen : BitVec 32) (u : Nat)
  /-- READ_PASSAGE (R415): READ_STREAM subop 1 copies passage records from a given sequence. -/
  | readPassage (t : Fin 4) (tag : BitVec 16) (first daddr : BitVec 64) (dlen : BitVec 32) (u : Nat)
  /-- WITNESS_OBS (R343): The WITNESS OBS command requests an OBS record at the next allowed boundary. -/
  | witnessObs (t : Fin 4) (tag : BitVec 16) (u : Nat)
  /-- WITNESS_EVENT (R343): The WITNESS EVENT command posts a tenant event code with data for an EVT record. -/
  | witnessEvent (t : Fin 4) (tag : BitVec 16) (code : BitVec 8) (data : List Byte) (u : Nat)
  /-- SNAP_RELEASE (R464): The SNAP_RELEASE command releases the held snapshot. -/
  | snapRelease (t : Fin 4) (tag : BitVec 16) (u : Nat)
  /-- CHALLENGE (R400): TENANCY subop 0 returns a fresh 32-byte nonce. -/
  | challenge (t : Fin 4) (tag : BitVec 16) (u : Nat)
  /-- PROVE (R400): TENANCY subop 1 verifies an owner proof, or claims an unowned device. -/
  | proveOwner (t : Fin 4) (tag : BitVec 16) (b : List Byte) (u : Nat)
  /-- WRITE_TABLE (R397): TENANCY subop 2 checks a tenancy table write and schedules it. -/
  | writeTable (t : Fin 4) (tag : BitVec 16) (b : List Byte) (u : Nat)
  /-- READ_TABLE (R401): TENANCY subop 3 returns the tenancy table. -/
  | readTable (t : Fin 4) (tag : BitVec 16) (daddr : BitVec 64) (dlen : BitVec 32) (u : Nat)
  /-- TENANCY_CLEAR (R401): TENANCY subop 4 removes the owner anchor, disables T1 to T3 and releases the OWK at its boundary. -/
  | tenancyClear (t : Fin 4) (tag : BitVec 16) (u : Nat)
  /-- END_PROOF (R400): TENANCY subop 5 ends the proof on the port. -/
  | endProof (t : Fin 4) (tag : BitVec 16) (u : Nat)
  /-- PROOF_EXPIRE (R400): A proof ends 600 s after acceptance. -/
  | proofExpire (p : Fin 5)
  /-- CQ_TAIL_WRITE (R405): A write of HST_CQ_TAIL makes commands available for the device to take. -/
  | cqTailWrite (p : Fin 4) (ix : BitVec 8) (t : Nat)
  /-- COMMAND_TAKE (R405): The device takes waiting commands in ring order, at most 8 per tenant per tick, while completion entries are free. -/
  | commandTake (t : Fin 4) (entry data : List Byte) (u : Nat)
  /-- CPL_HEAD_WRITE (R405): A write of HST_CPL_HEAD returns completion entries so waiting commands and events resume. -/
  | cplHeadWrite (p : Fin 4) (ix : BitVec 8) (t : Nat)
  /-- RING_EN (R404): Writing HST_CTRL.RING_EN = 1 binds the rings to the writing port and zeroes the indexes. -/
  | ringEn (p : Fin 4) (on : Bool) (t : Nat)
  /-- TRESET (R417): HST_CTRL.TRESET resets the tenant at its boundary. -/
  | hstTreset (p : Fin 4) (t : Nat)
  /-- SRD_WRITE (R414): A write of HST_SRD frees PUSH buffer space so waiting entries are written. -/
  | srdWrite (p : Fin 4) (k : Fin 32) (v : Word) (t : Nat)
  /-- CPL_COALESCE_TIMEOUT (R416): TMO µs after the first unread completion the CPL cause fires. -/
  | cplCoalesceTimeout (t : Fin 4)
  /-- PORT_RESET (R417): FLR, hot reset, link down, PERST or D3hot to D0 resets the port's ring and proof state. -/
  | portReset (p : Fin 2) (u : Nat)
  /-- BUS_MASTER_CLEAR (R392): Clearing Bus Master Enable stops DMA at a TLP boundary. -/
  | busMasterClear (p : Fin 2) (on : Bool) (u : Nat)
  /-- SPI_READ (R393): SPI opcode 0x0B reads words in 1-1-1 mode. -/
  | spiRead (a : Word) (ts : List Nat) (t raw : Nat)
  /-- SPI_QUAD_READ (R393): SPI opcode 0xEB reads words in 1-4-4 mode. -/
  | spiQuadRead (a : Word) (ts : List Nat) (t raw : Nat)
  /-- SPI_WRITE (R393): SPI opcode 0x02 writes words in 1-1-1 mode. -/
  | spiWrite (a : Word) (l : List (Nat × Word)) (t raw : Nat)
  /-- SPI_QUAD_WRITE (R393): SPI opcode 0x38 writes words in 1-4-4 mode. -/
  | spiQuadWrite (a : Word) (l : List (Nat × Word)) (t raw : Nat)
  /-- SPI_STATUS (R393): SPI opcode 0x05 returns the port status byte. -/
  | spiStatus (t : Nat)
  /-- TWA_WRITE_TRANSFER (R394): A TWA write transfer sets an address and writes words. -/
  | twaWriteTransfer (l : List (Nat × Byte)) (t raw : Nat)
  /-- TWA_READ_TRANSFER (R394): A TWA read transfer returns words from the last address. -/
  | twaReadTransfer (ts : List Nat) (t raw : Nat)
  /-- HOST_NOTIFY (R423): The device sends SMBus Host Notify when an enabled cause becomes pending, retrying up to 3 times. -/
  | hostNotify (r : TwbResult) (t : Nat)
  /-- ARA_READ (R424): A read of the Alert Response Address is answered with the device's address. -/
  | araRead (won : Bool) (t : Nat)
  /-- BUS_FREE (R429): The bus is taken as free after TBUF or 50 µs idle, and pending retries start. -/
  | busFree (b : Fin 2) (t : Nat)
  /-- TW_CONTROLLER_TIMEOUT (R433): SCL held low 25 ms while controller abandons the transaction. -/
  | twControllerTimeout (b : Fin 2) (t : Nat)
  /-- TW_TARGET_TIMEOUT (R434): SCL low 35 ms in a transfer to the device makes it release the bus. -/
  | twTargetTimeout (t : Nat)
  /-- TW_STUCK_DETECT (R435): SDA low 35 ms starts a bus clear, which may declare the line stuck. -/
  | twStuckDetect (b : Fin 2) (scl : Bool) (freed : Option (Fin 3)) (t : Nat)
  /-- TW_STUCK_RETRY (R435): While stuck, a bus clear is attempted every 3000 ticks. -/
  | twStuckRetry (b : Fin 2) (freed : Bool)
  /-- CLEAR (R435): TW_CTRL.CLEAR attempts a bus clear. -/
  | twClear (p : Fin 4) (b : Fin 2) (freed : Bool) (t : Nat)
  /-- RSTART_ABORT (R436): A START in an acknowledge slot abandons the transfer. -/
  | rstartAbort (b : Fin 2) (ctl : Bool) (t : Nat)
  /-- RISE_MONITOR_JUDGE (R432): After each 256 SCL edges the rise monitor judges TR_MAX and MARGIN. -/
  | riseMonitorJudge (b : Fin 2) (rise low : Nat) (t : Nat)
  /-- SUPPLY_SWITCH (R439): The backup domain switches between VDD_AON and VBAT at an oscillator edge. -/
  | supplySwitch (t raw aon vbat : Nat)
  /-- BACKUP_POWER_UP (R440): The backup domain is powered after losing state; every BKP register resets and PWRON goes high. -/
  | backupPowerUp (vbat : Bool)
  /-- OSC_FAIL (R441): No crystal edge within 1 ms halts the count and sets OSCFAIL. -/
  | oscFail (t raw : Nat)
  /-- OSC_RESUME (R441): Crystal edges return and the count resumes. -/
  | oscResume (t : Nat)
  /-- BKP_WRITE_EFFECT (R442): A tenant write to a BKP register takes effect at the first oscillator edge after crossing. -/
  | bkpWriteEffect (t raw : Nat)
  /-- BKP_SEC_LATCH_READ (R443): A read of BKP_SEC_LO latches BKP_SEC_HI and BKP_FRAC. -/
  | bkpSecLatchRead (p : Fin 4) (t raw : Nat)
  /-- BKP_CAL_LATCH_READ (R443): A read of BKP_CAL_DATE latches BKP_CAL_TIME. -/
  | bkpCalLatchRead (p : Fin 4) (t raw : Nat)
  /-- CAPTURE (R444): BKP_CTRL.CAPTURE copies the count to BKP_CSEC, BKP_CFRAC and BKP_CSTU. -/
  | bkpCapture (p : Fin 4) (t raw : Nat)
  /-- LOAD (R445): BKP_CTRL.LOAD replaces the count with the staged seconds and fraction. -/
  | bkpLoad (p : Fin 4) (t raw : Nat)
  /-- LOADCAL (R448): BKP_CTRL.LOADCAL converts the staged calendar fields and loads them. -/
  | bkpLoadcal (p : Fin 4) (t raw : Nat)
  /-- TRIM_WINDOW (R449): A rate-trim window starts and takes any new BKP_TRIM setting. -/
  | trimWindow (t : Nat)
  /-- WAKE_FIRE (R450): A wake channel fires every PERIOD counts, toggling SQW and possibly asserting PWRON. -/
  | wakeFire (ix : Fin 8) (t raw : Nat)
  /-- ALARM_FIRE (R452): The alarm fires when the count reaches the alarm time. -/
  | alarmFire (t raw : Nat)
  /-- TAMPER_ACTIVE (R454): A tamper or WAKE_IN input reaches its active level and starts its filter. -/
  | tamperActive (ix : Fin 3) (t raw : Nat) (high : Bool)
  /-- TAMPER_EVENT (R454): A filtered tamper event captures the count, counts, may erase scratch and may assert PWRON. -/
  | tamperEvent (ix : Fin 2) (t raw : Nat)
  /-- WAKE_IN_EVENT (R454): A filtered WAKE_IN event sets WAKEIN and may assert PWRON. -/
  | wakeInEvent (t raw : Nat)
  /-- PWRON_CLR (R455): BKP_PWRON.CLR from T0 drives PWRON low. -/
  | pwronClr (p : Fin 4) (t raw : Nat)
  /-- SE_STAT_LATCH_READ (R521): A read of SE_STAT latches SE_PC. -/
  | seStatLatchRead (p : Fin 4) (e : Fin 8) (t : Nat)
  /-- JTAG_BYPASS (R535): The JTAG BYPASS instruction. -/
  | jtagBypass (d : List Bool)
  /-- JTAG_IDCODE (R535): The JTAG IDCODE instruction returns 0x1825_655F. -/
  | jtagIdcode (d : List Bool)
  /-- JTAG_SAMPLE_PRELOAD (R535): The JTAG SAMPLE/PRELOAD instruction. -/
  | jtagSamplePreload (pins d : List Bool)
  /-- JTAG_EXTEST (R535): The JTAG EXTEST instruction drives balls only while in reset. -/
  | jtagExtest (pins d : List Bool)
  /-- JTAG_UNLOCK (R535): A proof passed through the UNLOCK data register unlocks the debug port. -/
  | jtagUnlock (b : List Byte) (t : Nat)
  /-- JTAG_DEBUG (R535): A debug instruction acts while unlocked, otherwise as BYPASS. -/
  | jtagDebug (d : List Bool) (acc : Option (Word × Option Word)) (t raw : Nat)
  /-- JTAG_TRST (R535): JTAG_TRST_N going low ends a TAP proof. -/
  | jtagTrst
  /-- REGISTER_WRITE (R6): A write to a register with no row of its own acts by its access code and tenant view. -/
  | registerWrite (p : Fin 4) (a v : Word) (be : BitVec 4) (t raw : Nat)
  /-- CHAIN_OUTPUT_WRITE (R112): The fabric writes each chain output, labelled, with its SETTLE or VOID flag, attached markers and saturation count, into the context's CHAIN ring or finds the ring full. -/
  | chainOutputWrite (n : Fin 256)
  /-- LF_CLIP (R98): A clip on the LF converter is counted in FE_L_PEAK and sets FE_L_EVT.MIN_CLIP, with no gain step. -/
  | lfClip (t : Nat)
  /-- WARDEN_MEMORY_ERROR (R481): An uncorrectable error in the active warden's own memory starts failover at once. -/
  | wardenMemoryError (t : Nat)
  /-- STANDBY_SELFTEST (R484): The standby warden runs its known-answer self-test every SELFTP seconds and is quarantined as F2 if it fails. -/
  | standbySelftest (pass : Bool) (t : Nat)
  /-- POWER_ON_RESET_END (R502): When every monitored supply is back above its reset threshold, the power-on reset ends, the straps are sampled and boot follows. -/
  | powerOnResetEnd (ix : BootIn)
  /-- BACKUP_STATE_LOSS (R440): The backup-domain supply in use falls below 1.45 V and the domain loses its count, wakes, alarm, captures and scratch. -/
  | backupStateLoss (t mv : Nat)
  /-- TW_START_SEEN (R429): A START by another controller on a two-wire bus makes TW_STAT.BUSY 1 until the bus is free, holding back the device's own transactions. -/
  | twStartSeen (b : Fin 2) (t : Nat)
  /-- SPI_UNKNOWN_OPCODE (R393): An SPI frame with an opcode not in the table is discarded and counted as a port error. -/
  | spiUnknownOpcode (t : Nat)
deriving DecidableEq, Repr

end Sys2Proof
end

