-- ==== Sys2Proof/WellFormed.lean ====
section
/-!
DEFINITION. Well-formed commands: the operands that a command's constructor does not bound already. A command that is not
well-formed is one the environment cannot send; a meaning is total all the same.
-/

namespace Sys2Proof

/-- What the environment shows at a tick boundary names eight sensors, three converters and two ports with gain (R138, R146, R273), and a sensor's word fits its 16-bit
field (R288). -/
def TickObs.wf (o : TickObs) : Bool :=
  o.temps.length == 8 && o.meas.length == 3 && o.lna.length == 2 &&
    o.temps.all (fun t => match t with
      | some q => decide (-32768 ≤ q ∧ q ≤ 32767)
      | none => true)

/-- Three bias currents and two wideband windows (R85, R90); a peak is the absolute value of a 12-bit code (R467). -/
def CutObs.wf (o : CutObs) : Bool :=
  o.ima.length == 3 && o.win.length == 2 &&
    o.win.all (fun w => match w with
      | some (p, _) => decide (p ≤ 2048)
      | none => true)

/-- A peak's measures lie in their fields, its fine position within its sample (R294, R305), and it stands above its four neighbours (R293). -/
def PeakIn.wf (k : PeakIn) : Bool :=
  let half := fun (v : Int) => decide (-32768 ≤ v ∧ v ≤ 32767)
  decide (k.qual ≤ 32768) && k.sides.length == 4 && half k.level && half k.snr && half k.fofs && decide (-128 ≤ k.fine ∧ k.fine ≤ 128)

/-- Discovery looks at the four chip enables (R357). -/
def wfTargets (l : List TgtObs) : Bool := l.length == 4

/-- An image is at most 192 KiB (R411), a part at most 16 KiB. -/
def wfImage (n most : Nat) : Bool := decide (n ≤ most)

/-- A raw capture holds 6,144,000 samples of a converter (R467). -/
def wfRaw (l : List (Nat × BitVec 12)) : Bool := l.all (fun p => decide (p.1 < 6144000))

/-- The well-formed commands. -/
def Instr.wf : Instr → Bool
  | .tickBoundary o => o.wf
  | .planCutoff o => o.wf
  | .resetRelease i => wfTargets i.tgts
  | .powerOnResetEnd i => wfTargets i.tgts
  | .hiberWake i => wfTargets i.tgts
  | .tmode _ i _ => wfTargets i.tgts
  | .peakDecision _ _ k _ => k.wf
  | .imageLoad _ _ b _ => wfImage b.length 196608
  | .imagePart _ _ _ b _ => wfImage b.length 16384
  | .imageLastPart _ _ _ b _ => wfImage b.length 16384
  | .rawDone wa wb _ _ => wfRaw wa && wfRaw wb
  | .commandTake _ e _ _ => e.length == 64
  | .spiRead _ ts _ _ => !ts.isEmpty
  | .spiWrite _ l _ _ => !l.isEmpty
  | _ => true

end Sys2Proof
end

