-- ==== Sys2Proof/Decode.lean ====
section
/-!
DEFINITION. The words of the command table: none. No row of the table of operations and events gives a word or a bit, so no word spells a command
(log entry 1).
-/

namespace Sys2Proof

/-- The command that a word spells by the table's bits: the table gives no row any. -/
def decodeTableWord (_nbits _w : Nat) : Option Instr := none

end Sys2Proof
end

