-- ==== Sys2Proof/Config.lean ====
section
/-!
DEFINITION. What the spec leaves to an implementation and the values it leaves open, as opaque constants: nothing can be proved
of their values.
-/

namespace Sys2Proof.Config

/-- The values the spec leaves open, in the order in which a run meets them: State.free counts them. -/
opaque freeValue : Nat → Nat

/-- The ES256 signature (R334, R400) that the key of a public point makes over a message: r and s as one 64-byte number. The spec
does not give its random part. -/
opaque sign : List Byte → List Byte → Nat

/-- A 64-byte ES256 signature verifies over a message under a public point (R192, R400): point, message, signature. -/
opaque verify : List Byte → List Byte → List Byte → Bool

/-- A firmware image carries a signature of the Ronbel firmware key that verifies, over a digest that is that of the image, and its version (R503):
the spec gives neither the layout of the signature nor the place of the version. -/
opaque firmwareSigned : List Byte → Bool
opaque firmwareVersion : List Byte → Nat

/-- What a DER certificate with an ES256 P-256 key says (R400), as X.509 gives it: its 65-byte public point (none where it is no such certificate), and
whether its signature verifies under a point. -/
opaque certPoint : List Byte → Option (List Byte)
opaque certSignedBy : List Byte → List Byte → Bool

/-- What R329 leaves to the device's manufacture and to Ronbel, for the device certificate (0), the Device CA's (1) and the root (2): the serial numbers and the
parts of the dates (year to second of notBefore, then of notAfter), which `serialOf` and `derDate` hold to what X.509 allows; the DER names and the
uncompressed points of the Device CA and the Root CA, the Device CA's key identifier, the root's extensions, and the signature of the Device CA (0) or the
Root CA (1) over a tbsCertificate, in DER. -/
opaque certSerial : Nat → Nat
opaque certDate : Nat → Nat → Nat
opaque caName : Nat → List Byte
opaque caPoint : Nat → List Byte
opaque caKeyId : List Byte
opaque rootExts : List Byte
opaque certSignature : Nat → List Byte → List Byte

/-- IV, wrapped private scalar and tag of a public point's OWK copy 0 or 1, 60 bytes (R333, R374): the scalar and the wrapping key are secrets. -/
opaque wrapped : List Byte → Nat → Nat

/-- The parity of a 2048-byte codeword (R362), whose LDPC code no rule gives. -/
opaque ldpcParity : List Byte → List Byte

/-- The bound in ns that the device gives an accepted PPS_IN edge as a time observation: R39 weighs it and no rule states it. -/
opaque ppsBound : Nat

/-- The idle energy per tick, nJ, that OTP characterises for a block at a voltage in mV and a temperature in 1/16 degree (R268). Blocks: 0, 1 the
wideband converters with their channelizers, 2 the LF converter with its taps, 3 the fabric, 4 to 11 the engines, 12 to 21 the accelerator
units, 22 and 23 the wardens, 24 the interface island, 25 the rest, 26 to 41 the banks of the store. -/
opaque idleEnergy : Nat → Nat → Int → Nat

/-- The energy in nJ of the escalated work of a wind-up class in one tick (R269). -/
opaque windUpEnergy : Nat → Nat

/-- The energy in nJ of the full fill with wind-up work (R269, R471) of this many spare engine cycles at a voltage in mV: no rule gives it. -/
opaque windUpFill : Nat → Nat → Nat

/-- The bytes an LDPC job writes (R228), whose codes other standards give, and which of two equally likely paths a Viterbi job keeps (R229): kind, descriptor,
inputs, number. -/
opaque jobByte : Nat → List Byte → List (List Byte) → Nat → Byte

/-- What the antennas bring: the sample of a converter (0 WA, 1 WB, 2 LF) at a stu, as a fraction of its full scale, after the calibrated correction and at the gain
in force (R90, R134). -/
opaque converterSample : Nat → Nat → Rat

/-- The impulse response of a channelizer's prototype filter over its 49,153 converter samples (R102), and of the filter of a tap of a decimation over its span
(R103): the rules give tolerances and no coefficients, and `filterTaps` holds them to the tolerances. -/
opaque bandProto : Nat → Rat
opaque tapProto : Nat → Nat → Rat

/-- What a part's oscillators deviate by from the exact exponential at a phase in 2^-32 turns (R105: 96 dB below the signal), and what the DC gain of a CIC of an order and
decimation deviates by from 1 (R109): `rotate` and `cicScale` hold them to these bounds. -/
opaque ncoError : Nat → Rat × Rat
opaque cicError : Nat → Nat → Rat

/-- What the rounding of an FFT adds to a component of its output (R227): descriptor, inputs, component. -/
opaque fftError : List Byte → List (List Byte) → Nat → Int

/-- The iterations of an LDPC job and the shift of an FFT, and whether an LDPC job ends with parity checks unsatisfied (R227, R228). -/
opaque jobResult : Nat → List Byte → List (List Byte) → Nat
opaque jobFails : Nat → List Byte → List (List Byte) → Bool

end Sys2Proof.Config
end

