-- ==== Sys2Proof/Machine/Bits.lean ====
section
/-!
DEFINITION. Bit fields of register words, signed readings, byte order, integer roots and exact rounding: the plain
arithmetic every block shares (R3, R4).
-/

namespace Sys2Proof.Machine

/-- The bits [hi:lo] of a word, as a number. -/
def fieldOf (v : Word) (hi lo : Nat) : Nat := v.toNat / 2 ^ lo % 2 ^ (hi + 1 - lo)

/-- The word with its bits [hi:lo] replaced by the low bits of `n`. -/
def putField (v : Word) (hi lo n : Nat) : Word :=
  let w := hi + 1 - lo
  BitVec.ofNat 32 (v.toNat % 2 ^ lo + (n % 2 ^ w) * 2 ^ lo + (v.toNat / 2 ^ (hi + 1)) * 2 ^ (hi + 1))

/-- 1 for true, 0 for false. -/
def b2n (b : Bool) : Nat := if b then 1 else 0

/-- The `w`-bit two's complement reading of `n`. -/
def sgn (w n : Nat) : Int :=
  let m := n % 2 ^ w
  if m < 2 ^ (w - 1) then (m : Int) else (m : Int) - (2 ^ w : Nat)

/-- The `w`-bit two's complement code of `i`. -/
def code (w : Nat) (i : Int) : Nat := (i % ((2 ^ w : Nat) : Int)).toNat

/-- `i` held to the range of a signed `w`-bit number. -/
def satS (w : Nat) (i : Int) : Int :=
  let h : Int := ((2 ^ (w - 1) : Nat) : Int)
  if i < -h then -h else if h - 1 < i then h - 1 else i

/-- `n` held to `m`. -/
def satTo (m n : Nat) : Nat := if m < n then m else n

/-- `n` held to the range `lo` to `hi`. -/
def clampN (lo hi n : Nat) : Nat := if n < lo then lo else if hi < n then hi else n

/-- A field for which 0 acts as 1. -/
def zeroAs1 (n : Nat) : Nat := if n = 0 then 1 else n

/-- `a / b` rounded up. -/
def ceilDiv (a b : Nat) : Nat := if b = 0 then 0 else (a + (b - 1)) / b

/-- `n` rounded up to a multiple of `g`. -/
def roundUp (n g : Nat) : Nat := ceilDiv n g * g

/-- A rational rounded to the nearest integer, ties away from zero (R111). -/
def roundAway (q : Rat) : Int :=
  if q < 0 then -((-q + 1 / 2).floor) else (q + 1 / 2).floor

/-- A rational truncated toward zero. -/
def truncZ (q : Rat) : Int := if q < 0 then -((-q).floor) else q.floor

/-- The absolute value of a rational. -/
def absQ (q : Rat) : Rat := if q < 0 then -q else q

/-- One bit of the integer square root: try `r + 2^k`. -/
def isqrtStep (n k r : Nat) : Nat := if (r + 2 ^ k) * (r + 2 ^ k) ≤ n then r + 2 ^ k else r

/-- The bits of the integer square root from bit `k - 1` down. -/
def isqrtFrom (n : Nat) : Nat → Nat → Nat
  | 0, r => r
  | k + 1, r => isqrtFrom n k (isqrtStep n k r)

/-- The integer square root of a number below 2^256. -/
def isqrt (n : Nat) : Nat := isqrtFrom n 128 0

/-- The byte `i` of `n`, byte 0 least significant. -/
def byteOf (n i : Nat) : Byte := BitVec.ofNat 8 (n / 2 ^ (8 * i))

/-- `n` as `k` bytes, least significant first (R4). -/
def leBytes (n k : Nat) : List Byte := (List.range k).map (byteOf n)

/-- `n` as `k` bytes, most significant first. -/
def beBytes (n k : Nat) : List Byte := (leBytes n k).reverse

/-- The number that bytes spell, least significant first. -/
def ofLe : List Byte → Nat
  | [] => 0
  | b :: l => b.toNat + 256 * ofLe l

/-- The number that bytes spell, most significant first. -/
def ofBe (l : List Byte) : Nat := ofLe l.reverse

/-- `k` bytes of `l` from offset `o`, short past its end. -/
def slice (l : List Byte) (o k : Nat) : List Byte := (l.drop o).take k

/-- The little-endian number in `k` bytes of `l` from offset `o`. -/
def leAt (l : List Byte) (o k : Nat) : Nat := ofLe (slice l o k)

/-- Every byte of the list is 0. -/
def allZero (l : List Byte) : Bool := l.all (· == 0)

/-- The list with `f` applied to its element `n`. -/
def modifyAt {α : Type} (l : List α) (n : Nat) (f : α → α) : List α :=
  match l, n with
  | [], _ => []
  | a :: t, 0 => f a :: t
  | a :: t, k + 1 => a :: modifyAt t k f

/-- The bit `n` of a number. -/
def bitOf (v n : Nat) : Bool := v / 2 ^ n % 2 == 1

/-- The sum of a list of numbers. -/
def sumN (l : List Nat) : Nat := l.foldl (· + ·) 0

/-- The largest of a list of numbers, 0 for none. -/
def maxN (l : List Nat) : Nat := l.foldl Nat.max 0

/-- Bits packed, the first in bit 7 of the first byte; the unused bits of the last byte are 0 (R226, R230, R305). -/
def packBits (l : List Bool) : List Byte :=
  (List.range (ceilDiv l.length 8)).map (fun j =>
    BitVec.ofNat 8 (sumN ((List.range 8).map (fun i => b2n (l.getD (8 * j + i) false) * 2 ^ (7 - i)))))

end Sys2Proof.Machine
end

