-- ==== Sys2Proof/Machine/Real.lean ====
section
/-!
DEFINITION. Fixed-point evaluation, with 64 fraction bits, of the irrational functions some rules name: powers of ten for
decibels, the raised cosine of R125, and exp for the retention clock.
-/

namespace Sys2Proof.Machine

/-- One in fixed point. -/
def fixOne : Nat := 18446744073709551616

/-- The product of two fixed-point numbers, truncated. -/
def fixMul (a b : Nat) : Nat := a * b / fixOne

/-- A fixed-point number to the power `n`. -/
def fixPow (a : Nat) : Nat → Nat
  | 0 => fixOne
  | n + 1 => fixMul (fixPow a n) a

/-- 10^(1/320), the amplitude ratio of 0.0625 dB, in fixed point. -/
def dbUnit : Nat := 18579957767217326799

/-- The amplitude ratio of `g` units of 0.0625 dB. -/
def dbGain (g : Int) : Rat :=
  let p : Rat := ((fixPow dbUnit g.natAbs : Nat) : Rat) / ((fixOne : Nat) : Rat)
  if g < 0 then 1 / p else p

/-- The terms of a cosine series: `x2` the square of the argument, `t` the present term, `k` its index. -/
def cosTerms (x2 : Nat) : Nat → Nat → Nat → Int
  | 0, _, _ => 0
  | n + 1, k, t =>
    let next := fixMul t x2 / ((2 * k + 1) * (2 * k + 2))
    (t : Int) - cosTerms x2 n (k + 1) next

/-- cos x of a fixed-point angle from 0 to pi, in fixed point. -/
def fixCos (x : Nat) : Int := cosTerms (fixMul x x) 24 0 fixOne

/-- Pi in fixed point. -/
def fixPi : Nat := 57952155664616982739

/-- The weight of the new bank for output `m` of a fade of `n` outputs (R125). -/
def fadeWeight (m n : Nat) : Nat :=
  let c := fixCos (fixPi * (2 * m + 1) / (2 * n))
  (roundAway (((32768 * ((fixOne : Int) - c) : Int) : Rat) / ((2 * fixOne : Nat) : Rat))).toNat

/-- cos of a phase in units of 2^-32 turns. -/
def phaseCos (p : Nat) : Rat :=
  let q := p % 4294967296
  ((fixCos (fixPi * (if q ≤ 2147483648 then q else 4294967296 - q) / 2147483648) : Int) : Rat) / ((fixOne : Nat) : Rat)

/-- sin of a phase in units of 2^-32 turns. -/
def phaseSin (p : Nat) : Rat := phaseCos (p + 3221225472)

/-- A value held within a bound on either side of 0. -/
def boundQ (b q : Rat) : Rat := if q < -b then -b else if b < q then b else q

/-- The terms of an exponential series. -/
def expTerms (x : Nat) : Nat → Nat → Nat → Nat
  | 0, _, _ => 0
  | n + 1, k, t => t + expTerms x n (k + 1) (fixMul t x / (k + 1))

/-- exp x of a fixed-point number below 1. -/
def fixExp01 (x : Nat) : Nat := expTerms x 24 0 fixOne

/-- e in fixed point. -/
def fixE : Nat := 50143449209799256682

/-- exp x of a rational. -/
def expRat (q : Rat) : Rat :=
  let a := absQ q
  let n := a.floor.toNat
  let f := ((a - (n : Rat)) * ((fixOne : Nat) : Rat)).floor.toNat
  let v : Rat := ((fixMul (fixPow fixE n) (fixExp01 f) : Nat) : Rat) / ((fixOne : Nat) : Rat)
  if q < 0 then 1 / v else v

end Sys2Proof.Machine
end

