-- ==== Sys2Proof/Machine/Filters.lean ====
section
/-!
DEFINITION. The decimation filters of channelizer and taps: the tolerances of R102 and R103, the free impulse response where it meets them, and a
windowed sinc that does where it does not.
-/

namespace Sys2Proof.Machine

/-- A complex sample, real part first. -/
abbrev Cx := Rat × Rat

/-- A sum of two. -/
def Cx.plus (a b : Cx) : Cx := (a.1 + b.1, a.2 + b.2)

/-- A sample times a real factor. -/
def Cx.times (a : Cx) (k : Rat) : Cx := (a.1 * k, a.2 * k)

/-- The squared magnitude of a sample. -/
def Cx.power (a : Cx) : Rat := a.1 * a.1 + a.2 * a.2

/-- The power response of an impulse response of `n + 1` taps, of decimation `d`, at `k` / 512 of the output rate. -/
def response (d n k : Nat) (h : Nat → Rat) : Rat :=
  ((List.range (n + 1)).foldl (fun (a : Cx) i =>
    let p := k * i * 8388608 / d % 4294967296
    a.plus (Cx.times (phaseCos p, phaseSin p) (h i))) ((0, 0) : Cx)).power

/-- A filter keeps to the tolerances of R102 and R103: within 0.05 dB of 1 where the distance from its centre is at most `edge` of the output rate, and `rej` in power where a
component folds there, at 512 frequencies for each output rate. -/
def filterMeets (d n : Nat) (edge rej : Rat) (h : Nat → Rat) : Bool :=
  (List.range (512 * d)).all (fun k =>
    let folds := decide (((Nat.min (k % 512) (512 - k % 512) : Nat) : Rat) ≤ edge * 512)
    let pass := decide (k < 256) || decide (512 * d - 256 < k)
    let p := response d n k h
    !folds || (if pass then decide (9885530 / 10000000 ≤ p) && decide (p ≤ 10115795 / 10000000) else decide (p ≤ rej * 1000001 / 1000000)))

/-- One tap of a windowed sinc of decimation `d`, before its sum is brought to 1. -/
def sincTap (d n i : Nat) : Rat :=
  let x : Int := 2 * (i : Int) - (n : Int)
  let w := fun (m : Nat) => phaseCos (m * i * 4294967296 / n % 4294967296)
  let s : Rat := if x = 0 then 1 / ((d : Nat) : Rat)
    else phaseSin (((x * 4294967296 / (4 * (d : Int))) % 4294967296).toNat) * 2 * ((fixOne : Nat) : Rat) / ((fixPi : Nat) : Rat) / (x : Rat)
  s * (35875 / 100000 - 48829 / 100000 * w 1 + 14128 / 100000 * w 2 - 1168 / 100000 * w 3)

/-- The windowed sinc: it meets R102 and R103. -/
def sincFilter (d n i : Nat) : Rat := sincTap d n i / (List.range (n + 1)).foldl (fun a k => a + sincTap d n k) 0

/-- The taps of a decimation's filter: the part's own where they keep to the tolerances. -/
def filterTaps (d n : Nat) (edge rej : Rat) (h : Nat → Rat) : Nat → Rat := if filterMeets d n edge rej h then h else sincFilter d n

/-- The taps of a channelizer band (R102): 3.3 MHz of 12 MS/s either side, 80 dB. -/
def bandTaps (i : Nat) : Rat := filterTaps 512 49152 (33 / 120) (1 / 100000000) Config.bandProto i

/-- The order of a tap's filter (R103): its span in input samples. -/
def tapOrder (d : Nat) : Nat := 5 * (d - 1) + ceilDiv (95 * d) 2

/-- The taps of a wide or LF tap of a decimation (R103): 0.42 of the output rate either side, 70 dB. -/
def tapTaps (d i : Nat) : Rat := filterTaps d (tapOrder d) (42 / 100) (1 / 10000000) (Config.tapProto d) i

end Sys2Proof.Machine
end

