-- ==== Sys2Proof/Machine/Regs.lean ====
section
/-!
DEFINITION. The register map (R514, R515): the byte address of every register of the spec's register tables, the
place of every field, and one row per register with the bits a write may change (by access code, R6), the bits a
write of 1 clears (W1C) and the value the table gives for reset. Reserved bits are in neither mask, so they read 0
and discard writes (R9). Registers of a repeated block take the instance number as their first argument. A tenant's
HST instance (one per tenant at one address, R514) is held at the bank address base + 0x0200_0000 * tenant.
-/

namespace Sys2Proof.Machine.Reg

/-- One field of one register: the register's address and the field's highest and lowest bit. -/
structure Fld where
  addr : Nat
  hi : Nat
  lo : Nat
deriving DecidableEq, Repr

/-- One row of the map: `c1` instances `s1` bytes apart, each of `c2` words `s2` apart; the writable mask, the W1C mask
and the reset value. -/
structure Row where
  base : Nat
  c1 : Nat
  s1 : Nat
  c2 : Nat
  s2 : Nat
  w : Nat
  w1c : Nat
  reset : Nat
deriving DecidableEq, Repr

/-- TOP_ID (R28), access RO. -/
def TOP_ID : Nat := 0x0

/-- TOP_ID.VENDOR. -/
def TOP_ID_VENDOR : Fld := ⟨TOP_ID, 31, 16⟩

/-- TOP_ID.PART. -/
def TOP_ID_PART : Fld := ⟨TOP_ID, 15, 0⟩

/-- TOP_VERSION (R28), access RO. -/
def TOP_VERSION : Nat := 0x4

/-- TOP_VERSION.STEP_MAJ. -/
def TOP_VERSION_STEP_MAJ : Fld := ⟨TOP_VERSION, 23, 16⟩

/-- TOP_VERSION.STEP_MIN. -/
def TOP_VERSION_STEP_MIN : Fld := ⟨TOP_VERSION, 15, 8⟩

/-- TOP_VERSION.ROM_VER. -/
def TOP_VERSION_ROM_VER : Fld := ⟨TOP_VERSION, 7, 0⟩

/-- TOP_DEVID_LO (R28), access RO. -/
def TOP_DEVID_LO : Nat := 0x8

/-- TOP_DEVID_HI (R28), access RO. -/
def TOP_DEVID_HI : Nat := 0xC

/-- TOP_DOMAIN (R28), access RO. -/
def TOP_DOMAIN : Nat := 0x10

/-- TOP_DOMAIN.BKP_ON_VBAT. -/
def TOP_DOMAIN_BKP_ON_VBAT : Fld := ⟨TOP_DOMAIN, 15, 15⟩

/-- TOP_DOMAIN.ICS_LOCK. -/
def TOP_DOMAIN_ICS_LOCK : Fld := ⟨TOP_DOMAIN, 14, 14⟩

/-- TOP_DOMAIN.SCS_LOCK. -/
def TOP_DOMAIN_SCS_LOCK : Fld := ⟨TOP_DOMAIN, 13, 13⟩

/-- TOP_DOMAIN.REF_OK. -/
def TOP_DOMAIN_REF_OK : Fld := ⟨TOP_DOMAIN, 12, 12⟩

/-- TOP_DOMAIN.COAST. -/
def TOP_DOMAIN_COAST : Fld := ⟨TOP_DOMAIN, 11, 11⟩

/-- TOP_DOMAIN.CORE_SAFE. -/
def TOP_DOMAIN_CORE_SAFE : Fld := ⟨TOP_DOMAIN, 10, 10⟩

/-- TOP_DOMAIN.SUPERVISOR. -/
def TOP_DOMAIN_SUPERVISOR : Fld := ⟨TOP_DOMAIN, 9, 8⟩

/-- TOP_DOMAIN.GRADE. -/
def TOP_DOMAIN_GRADE : Fld := ⟨TOP_DOMAIN, 7, 5⟩

/-- TOP_DOMAIN.COMPUTE. -/
def TOP_DOMAIN_COMPUTE : Fld := ⟨TOP_DOMAIN, 4, 3⟩

/-- TOP_DOMAIN.READY. -/
def TOP_DOMAIN_READY : Fld := ⟨TOP_DOMAIN, 2, 2⟩

/-- BOOT_STAT (R513), access RO. -/
def BOOT_STAT : Nat := 0x10000

/-- BOOT_STAT.BOOTSEL. -/
def BOOT_STAT_BOOTSEL : Fld := ⟨BOOT_STAT, 31, 30⟩

/-- BOOT_STAT.TWADDR. -/
def BOOT_STAT_TWADDR : Fld := ⟨BOOT_STAT, 29, 28⟩

/-- BOOT_STAT.STAGE. -/
def BOOT_STAT_STAGE : Fld := ⟨BOOT_STAT, 27, 25⟩

/-- BOOT_STAT.SRC. -/
def BOOT_STAT_SRC : Fld := ⟨BOOT_STAT, 24, 23⟩

/-- BOOT_STAT.ERR. -/
def BOOT_STAT_ERR : Fld := ⟨BOOT_STAT, 15, 8⟩

/-- BOOT_CAUSE (R513), access RO. -/
def BOOT_CAUSE : Nat := 0x10004

/-- BOOT_CAUSE.HIBWAKE. -/
def BOOT_CAUSE_HIBWAKE : Fld := ⟨BOOT_CAUSE, 31, 31⟩

/-- BOOT_CAUSE.SUPMON. -/
def BOOT_CAUSE_SUPMON : Fld := ⟨BOOT_CAUSE, 30, 30⟩

/-- BOOT_CAUSE.F5. -/
def BOOT_CAUSE_F5 : Fld := ⟨BOOT_CAUSE, 29, 29⟩

/-- BOOT_CTRL (R513), access WO. -/
def BOOT_CTRL : Nat := 0x10008

/-- BOOT_CTRL.GO. -/
def BOOT_CTRL_GO : Fld := ⟨BOOT_CTRL, 31, 31⟩

/-- BOOT_CTRL.STORE. -/
def BOOT_CTRL_STORE : Fld := ⟨BOOT_CTRL, 30, 30⟩

/-- BOOT_LOAD_REG (R513), access WO. -/
def BOOT_LOAD_REG : Nat := 0x1000C

/-- BOOT_LOAD_REG.LAST. -/
def BOOT_LOAD_REG_LAST : Fld := ⟨BOOT_LOAD_REG, 31, 31⟩

/-- BOOT_LOAD_REG.BYTES. -/
def BOOT_LOAD_REG_BYTES : Fld := ⟨BOOT_LOAD_REG, 15, 0⟩

/-- BOOT_FWVER (R513), access RO. -/
def BOOT_FWVER : Nat := 0x10010

/-- BOOT_FWFLOOR (R513), access RO. -/
def BOOT_FWFLOOR : Nat := 0x10014

/-- BOOT_WINDOW[i < 8192] (R505), access WO. -/
def BOOT_WINDOW (i : Nat) : Nat := 0x18000 + 0x4 * i

/-- TB_CTRL (R54), access per field. -/
def TB_CTRL : Nat := 0x20000

/-- TB_CTRL.HOST_LOAD. -/
def TB_CTRL_HOST_LOAD : Fld := ⟨TB_CTRL, 31, 31⟩

/-- TB_CTRL.RTC_SYNC. -/
def TB_CTRL_RTC_SYNC : Fld := ⟨TB_CTRL, 30, 30⟩

/-- TB_CTRL.REALIGN. -/
def TB_CTRL_REALIGN : Fld := ⟨TB_CTRL, 29, 28⟩

/-- TB_CTRL.WALK_PPM. -/
def TB_CTRL_WALK_PPM : Fld := ⟨TB_CTRL, 27, 21⟩

/-- TB_CTRL.PPS_SRC. -/
def TB_CTRL_PPS_SRC : Fld := ⟨TB_CTRL, 20, 20⟩

/-- TB_CTRL.PPS_XCHK. -/
def TB_CTRL_PPS_XCHK : Fld := ⟨TB_CTRL, 19, 19⟩

/-- TB_CTRL.BCAST_SRC. -/
def TB_CTRL_BCAST_SRC : Fld := ⟨TB_CTRL, 18, 18⟩

/-- TB_CTRL.HOST_SRC. -/
def TB_CTRL_HOST_SRC : Fld := ⟨TB_CTRL, 17, 17⟩

/-- TB_CTRL.SPOOF_DROP. -/
def TB_CTRL_SPOOF_DROP : Fld := ⟨TB_CTRL, 16, 16⟩

/-- TB_STU_LO (R54), access RO. -/
def TB_STU_LO : Nat := 0x20008

/-- TB_STU_HI (R54), access RO. -/
def TB_STU_HI : Nat := 0x2000C

/-- TB_TICK_LO (R54), access RO. -/
def TB_TICK_LO : Nat := 0x20010

/-- TB_TICK_HI (R54), access RO. -/
def TB_TICK_HI : Nat := 0x20014

/-- TB_DTS_SEC_LO (R54), access RO. -/
def TB_DTS_SEC_LO : Nat := 0x20018

/-- TB_DTS_SEC_HI (R54), access RO. -/
def TB_DTS_SEC_HI : Nat := 0x2001C

/-- TB_DTS_FRAC (R54), access RO. -/
def TB_DTS_FRAC : Nat := 0x20020

/-- TB_QUAL_LO (R54), access RO. -/
def TB_QUAL_LO : Nat := 0x20024

/-- TB_QUAL_HI (R54), access RO. -/
def TB_QUAL_HI : Nat := 0x20028

/-- TB_QUAL_HI.SRC. -/
def TB_QUAL_HI_SRC : Fld := ⟨TB_QUAL_HI, 31, 29⟩

/-- TB_QUAL_HI.COAST. -/
def TB_QUAL_HI_COAST : Fld := ⟨TB_QUAL_HI, 28, 28⟩

/-- TB_QUAL_HI.WALK. -/
def TB_QUAL_HI_WALK : Fld := ⟨TB_QUAL_HI, 27, 27⟩

/-- TB_QUAL_HI.COARSE. -/
def TB_QUAL_HI_COARSE : Fld := ⟨TB_QUAL_HI, 26, 26⟩

/-- TB_QUAL_HI.SPOOF. -/
def TB_QUAL_HI_SPOOF : Fld := ⟨TB_QUAL_HI, 25, 25⟩

/-- TB_QUAL_HI.UTC_OK. -/
def TB_QUAL_HI_UTC_OK : Fld := ⟨TB_QUAL_HI, 24, 24⟩

/-- TB_QUAL_HI.RESID. -/
def TB_QUAL_HI_RESID : Fld := ⟨TB_QUAL_HI, 23, 0⟩

/-- TB_UTC (R54), access RWO. -/
def TB_UTC : Nat := 0x2002C

/-- TB_UTC.VALID. -/
def TB_UTC_VALID : Fld := ⟨TB_UTC, 31, 31⟩

/-- TB_UTC.PEND. -/
def TB_UTC_PEND : Fld := ⟨TB_UTC, 30, 30⟩

/-- TB_UTC.DELTA. -/
def TB_UTC_DELTA : Fld := ⟨TB_UTC, 29, 28⟩

/-- TB_UTC.OFS. -/
def TB_UTC_OFS : Fld := ⟨TB_UTC, 15, 0⟩

/-- TB_LEAP_AT (R54), access RWO. -/
def TB_LEAP_AT : Nat := 0x20030

/-- TB_DISC (R54), access RWO. -/
def TB_DISC : Nat := 0x20034

/-- TB_DISC.SLEW_PPM. -/
def TB_DISC_SLEW_PPM : Fld := ⟨TB_DISC, 31, 24⟩

/-- TB_DISC.STEP_THR. -/
def TB_DISC_STEP_THR : Fld := ⟨TB_DISC, 23, 8⟩

/-- TB_DISC.MINOBS. -/
def TB_DISC_MINOBS : Fld := ⟨TB_DISC, 7, 0⟩

/-- TB_COAST (R54), access RWO. -/
def TB_COAST : Nat := 0x20038

/-- TB_COAST.TC. -/
def TB_COAST_TC : Fld := ⟨TB_COAST, 31, 16⟩

/-- TB_COAST.BASE. -/
def TB_COAST_BASE : Fld := ⟨TB_COAST, 15, 0⟩

/-- TB_JUMP (R54), access RO. -/
def TB_JUMP : Nat := 0x2003C

/-- TB_JUMP.VALID. -/
def TB_JUMP_VALID : Fld := ⟨TB_JUMP, 31, 31⟩

/-- TB_JUMP.MODE. -/
def TB_JUMP_MODE : Fld := ⟨TB_JUMP, 30, 30⟩

/-- TB_JUMP.SKIP. -/
def TB_JUMP_SKIP : Fld := ⟨TB_JUMP, 15, 8⟩

/-- TB_JUMP.PHASE. -/
def TB_JUMP_PHASE : Fld := ⟨TB_JUMP, 7, 0⟩

/-- TB_JUMP_STU_LO (R54), access RO. -/
def TB_JUMP_STU_LO : Nat := 0x20040

/-- TB_JUMP_STU_HI (R54), access RO. -/
def TB_JUMP_STU_HI : Nat := 0x20044

/-- TB_PPS_CTRL (R54), access RWO. -/
def TB_PPS_CTRL : Nat := 0x20048

/-- TB_PPS_CTRL.LIMIT. -/
def TB_PPS_CTRL_LIMIT : Fld := ⟨TB_PPS_CTRL, 31, 16⟩

/-- TB_PPS_CTRL.CONSEC. -/
def TB_PPS_CTRL_CONSEC : Fld := ⟨TB_PPS_CTRL, 15, 12⟩

/-- TB_PPS_CTRL.EDGE. -/
def TB_PPS_CTRL_EDGE : Fld := ⟨TB_PPS_CTRL, 8, 8⟩

/-- TB_PPS_CTRL.WIN. -/
def TB_PPS_CTRL_WIN : Fld := ⟨TB_PPS_CTRL, 7, 0⟩

/-- TB_PPS_STU_LO (R54), access RO. -/
def TB_PPS_STU_LO : Nat := 0x2004C

/-- TB_PPS_STU_HI (R54), access RO. -/
def TB_PPS_STU_HI : Nat := 0x20050

/-- TB_PPS_ERR (R54), access RO. -/
def TB_PPS_ERR : Nat := 0x20054

/-- TB_PPSO_CTRL (R54), access RWO. -/
def TB_PPSO_CTRL : Nat := 0x20058

/-- TB_PPSO_CTRL.MODE. -/
def TB_PPSO_CTRL_MODE : Fld := ⟨TB_PPSO_CTRL, 31, 30⟩

/-- TB_PPSO_CTRL.WIDTH. -/
def TB_PPSO_CTRL_WIDTH : Fld := ⟨TB_PPSO_CTRL, 23, 16⟩

/-- TB_PPSO_CTRL.QLIM. -/
def TB_PPSO_CTRL_QLIM : Fld := ⟨TB_PPSO_CTRL, 15, 0⟩

/-- TB_TICKO_CTRL (R54), access RWO. -/
def TB_TICKO_CTRL : Nat := 0x2005C

/-- TB_TICKO_CTRL.EN. -/
def TB_TICKO_CTRL_EN : Fld := ⟨TB_TICKO_CTRL, 31, 31⟩

/-- TB_TICKO_CTRL.DIV. -/
def TB_TICKO_CTRL_DIV : Fld := ⟨TB_TICKO_CTRL, 27, 16⟩

/-- TB_TICKO_CTRL.WIDTH. -/
def TB_TICKO_CTRL_WIDTH : Fld := ⟨TB_TICKO_CTRL, 7, 0⟩

/-- TB_HSET_SEC_LO (R54), access RWS. -/
def TB_HSET_SEC_LO : Nat := 0x20060

/-- TB_HSET_SEC_HI (R54), access RWS. -/
def TB_HSET_SEC_HI : Nat := 0x20064

/-- TB_HSET_FRAC (R54), access RWS. -/
def TB_HSET_FRAC : Nat := 0x20068

/-- TB_HSET_STU_LO (R54), access RWS. -/
def TB_HSET_STU_LO : Nat := 0x2006C

/-- TB_HSET_STU_HI (R54), access RWS. -/
def TB_HSET_STU_HI : Nat := 0x20070

/-- TB_HSET_UNC (R54), access RWS. -/
def TB_HSET_UNC : Nat := 0x20074

/-- TB_EVT (R54), access W1C. -/
def TB_EVT : Nat := 0x20078

/-- TB_EVT.HOST_REJECT. -/
def TB_EVT_HOST_REJECT : Fld := ⟨TB_EVT, 10, 10⟩

/-- TB_EVT.HOST_IGNORED. -/
def TB_EVT_HOST_IGNORED : Fld := ⟨TB_EVT, 9, 9⟩

/-- TB_EVT.UTC_CHANGE. -/
def TB_EVT_UTC_CHANGE : Fld := ⟨TB_EVT, 8, 8⟩

/-- TB_EVT.OBS_REJECT. -/
def TB_EVT_OBS_REJECT : Fld := ⟨TB_EVT, 7, 7⟩

/-- TB_EVT.PPS_STRAY. -/
def TB_EVT_PPS_STRAY : Fld := ⟨TB_EVT, 6, 6⟩

/-- TB_EVT.PPS_MISSED. -/
def TB_EVT_PPS_MISSED : Fld := ⟨TB_EVT, 5, 5⟩

/-- TB_EVT.SPOOF. -/
def TB_EVT_SPOOF : Fld := ⟨TB_EVT, 4, 4⟩

/-- TB_EVT.TIME_STEP. -/
def TB_EVT_TIME_STEP : Fld := ⟨TB_EVT, 3, 3⟩

/-- TB_EVT.REALIGNED. -/
def TB_EVT_REALIGNED : Fld := ⟨TB_EVT, 2, 2⟩

/-- TB_EVT.REF_BACK. -/
def TB_EVT_REF_BACK : Fld := ⟨TB_EVT, 1, 1⟩

/-- TB_EVT.REF_LOST. -/
def TB_EVT_REF_LOST : Fld := ⟨TB_EVT, 0, 0⟩

/-- SCS_STAT (R81), access RO. -/
def SCS_STAT : Nat := 0x30000

/-- SCS_STAT.LASTCNT. -/
def SCS_STAT_LASTCNT : Fld := ⟨SCS_STAT, 23, 16⟩

/-- SCS_STAT.BAND. -/
def SCS_STAT_BAND : Fld := ⟨SCS_STAT, 13, 8⟩

/-- SCS_STAT.HOLD. -/
def SCS_STAT_HOLD : Fld := ⟨SCS_STAT, 2, 2⟩

/-- SCS_STAT.SEARCH. -/
def SCS_STAT_SEARCH : Fld := ⟨SCS_STAT, 1, 1⟩

/-- SCS_STAT.LOCK. -/
def SCS_STAT_LOCK : Fld := ⟨SCS_STAT, 0, 0⟩

/-- SCS_EVT (R81), access W1C. -/
def SCS_EVT : Nat := 0x30004

/-- SCS_EVT.SEARCH_FAIL. -/
def SCS_EVT_SEARCH_FAIL : Fld := ⟨SCS_EVT, 3, 3⟩

/-- SCS_EVT.SLIP. -/
def SCS_EVT_SLIP : Fld := ⟨SCS_EVT, 2, 2⟩

/-- SCS_EVT.LOCK_LOST. -/
def SCS_EVT_LOCK_LOST : Fld := ⟨SCS_EVT, 1, 1⟩

/-- SCS_EVT.LOCKED. -/
def SCS_EVT_LOCKED : Fld := ⟨SCS_EVT, 0, 0⟩

/-- SCS_LOST_STU_LO (R81), access RO. -/
def SCS_LOST_STU_LO : Nat := 0x30008

/-- SCS_LOST_STU_HI (R81), access RO. -/
def SCS_LOST_STU_HI : Nat := 0x3000C

/-- CCS_CTRL (R81), access RWO. -/
def CCS_CTRL : Nat := 0x34000

/-- CCS_CTRL.SSC. -/
def CCS_CTRL_SSC : Fld := ⟨CCS_CTRL, 21, 19⟩

/-- CCS_CTRL.FMAX. -/
def CCS_CTRL_FMAX : Fld := ⟨CCS_CTRL, 18, 0⟩

/-- CCS_STAT (R81), access RO. -/
def CCS_STAT : Nat := 0x34004

/-- CCS_STAT.LOCK. -/
def CCS_STAT_LOCK : Fld := ⟨CCS_STAT, 31, 31⟩

/-- CCS_STAT.SAFE. -/
def CCS_STAT_SAFE : Fld := ⟨CCS_STAT, 30, 30⟩

/-- CCS_STAT.RAMP. -/
def CCS_STAT_RAMP : Fld := ⟨CCS_STAT, 29, 29⟩

/-- CCS_STAT.VWAIT. -/
def CCS_STAT_VWAIT : Fld := ⟨CCS_STAT, 28, 28⟩

/-- CCS_STAT.VFROZEN. -/
def CCS_STAT_VFROZEN : Fld := ⟨CCS_STAT, 27, 27⟩

/-- CCS_STAT.CLAMP. -/
def CCS_STAT_CLAMP : Fld := ⟨CCS_STAT, 26, 26⟩

/-- CCS_STAT.DEAD. -/
def CCS_STAT_DEAD : Fld := ⟨CCS_STAT, 25, 25⟩

/-- CCS_STAT.BAND. -/
def CCS_STAT_BAND : Fld := ⟨CCS_STAT, 24, 19⟩

/-- CCS_STAT.FREQ. -/
def CCS_STAT_FREQ : Fld := ⟨CCS_STAT, 18, 0⟩

/-- CCS_TICKCYC (R81), access RO. -/
def CCS_TICKCYC : Nat := 0x34008

/-- CCS_NEXTCYC (R81), access RO. -/
def CCS_NEXTCYC : Nat := 0x3400C

/-- CCS_SAFE (R81), access RO. -/
def CCS_SAFE : Nat := 0x34010

/-- CCS_VREG (R81), access RWO. -/
def CCS_VREG : Nat := 0x34014

/-- CCS_VREG.ADDR. -/
def CCS_VREG_ADDR : Fld := ⟨CCS_VREG, 23, 17⟩

/-- CCS_VREG.VEXP. -/
def CCS_VREG_VEXP : Fld := ⟨CCS_VREG, 16, 12⟩

/-- CCS_VREG.VMARGIN. -/
def CCS_VREG_VMARGIN : Fld := ⟨CCS_VREG, 7, 0⟩

/-- CCS_VOUT (R81), access RO. -/
def CCS_VOUT : Nat := 0x34018

/-- CCS_VOUT.VREQ. -/
def CCS_VOUT_VREQ : Fld := ⟨CCS_VOUT, 31, 16⟩

/-- CCS_VOUT.VOUT. -/
def CCS_VOUT_VOUT : Fld := ⟨CCS_VOUT, 15, 0⟩

/-- CCS_EVT (R81), access W1C. -/
def CCS_EVT : Nat := 0x3401C

/-- CCS_EVT.VLOW. -/
def CCS_EVT_VLOW : Fld := ⟨CCS_EVT, 6, 6⟩

/-- CCS_EVT.DEAD. -/
def CCS_EVT_DEAD : Fld := ⟨CCS_EVT, 5, 5⟩

/-- CCS_EVT.VFAIL. -/
def CCS_EVT_VFAIL : Fld := ⟨CCS_EVT, 4, 4⟩

/-- CCS_EVT.SAFE_ON. -/
def CCS_EVT_SAFE_ON : Fld := ⟨CCS_EVT, 3, 3⟩

/-- CCS_EVT.SAFE_OFF. -/
def CCS_EVT_SAFE_OFF : Fld := ⟨CCS_EVT, 2, 2⟩

/-- CCS_EVT.LOCK_LOST. -/
def CCS_EVT_LOCK_LOST : Fld := ⟨CCS_EVT, 1, 1⟩

/-- CCS_EVT.LOCKED. -/
def CCS_EVT_LOCKED : Fld := ⟨CCS_EVT, 0, 0⟩

/-- CCS_VF[n < 8] (R81), access RO. -/
def CCS_VF (n : Nat) : Nat := 0x34020 + 0x4 * n

/-- CCS_VF.VMIN. -/
def CCS_VF_VMIN (n : Nat) : Fld := ⟨CCS_VF n, 31, 20⟩

/-- CCS_VF.FMAX. -/
def CCS_VF_FMAX (n : Nat) : Fld := ⟨CCS_VF n, 18, 0⟩

/-- CCS_SEG_TGT[n < 16] (R81), access RO. -/
def CCS_SEG_TGT (n : Nat) : Nat := 0x34100 + 0x8 * n

/-- CCS_SEG_TGT.LAST. -/
def CCS_SEG_TGT_LAST (n : Nat) : Fld := ⟨CCS_SEG_TGT n, 31, 31⟩

/-- CCS_SEG_TGT.TARGET. -/
def CCS_SEG_TGT_TARGET (n : Nat) : Fld := ⟨CCS_SEG_TGT n, 18, 0⟩

/-- CCS_SEG_SLP[n < 16] (R81), access RO. -/
def CCS_SEG_SLP (n : Nat) : Nat := 0x34104 + 0x8 * n

/-- CCS_SEG_SLP.SLOPE. -/
def CCS_SEG_SLP_SLOPE (n : Nat) : Fld := ⟨CCS_SEG_SLP n, 11, 0⟩

/-- ICS_STAT (R81), access RO. -/
def ICS_STAT : Nat := 0x38000

/-- ICS_STAT.PAUSED. -/
def ICS_STAT_PAUSED : Fld := ⟨ICS_STAT, 4, 4⟩

/-- ICS_STAT.TIMED. -/
def ICS_STAT_TIMED : Fld := ⟨ICS_STAT, 3, 3⟩

/-- ICS_STAT.LKF_FAULT. -/
def ICS_STAT_LKF_FAULT : Fld := ⟨ICS_STAT, 2, 2⟩

/-- ICS_STAT.PRECHARGE. -/
def ICS_STAT_PRECHARGE : Fld := ⟨ICS_STAT, 1, 1⟩

/-- ICS_STAT.LOCK. -/
def ICS_STAT_LOCK : Fld := ⟨ICS_STAT, 0, 0⟩

/-- ICS_EVT (R81), access W1C. -/
def ICS_EVT : Nat := 0x38004

/-- ICS_EVT.LKF_FAULT. -/
def ICS_EVT_LKF_FAULT : Fld := ⟨ICS_EVT, 2, 2⟩

/-- ICS_EVT.LOCK_LOST. -/
def ICS_EVT_LOCK_LOST : Fld := ⟨ICS_EVT, 1, 1⟩

/-- ICS_EVT.LOCKED. -/
def ICS_EVT_LOCKED : Fld := ⟨ICS_EVT, 0, 0⟩

/-- FE_CTRL[p < 3] (R100), access RWO. -/
def FE_CTRL (p : Nat) : Nat := 0x40000 + 0x4000 * p

/-- FE_CTRL.ROUTE. -/
def FE_CTRL_ROUTE (p : Nat) : Fld := ⟨FE_CTRL p, 8, 8⟩

/-- FE_CTRL.PSMODE. -/
def FE_CTRL_PSMODE (p : Nat) : Fld := ⟨FE_CTRL p, 7, 7⟩

/-- FE_CTRL.PSMASK. -/
def FE_CTRL_PSMASK (p : Nat) : Fld := ⟨FE_CTRL p, 5, 0⟩

/-- FE_GAIN[p < 3] (R100), access RWO. -/
def FE_GAIN (p : Nat) : Nat := 0x40004 + 0x4000 * p

/-- FE_GAIN.GMODE. -/
def FE_GAIN_GMODE (p : Nat) : Fld := ⟨FE_GAIN p, 15, 14⟩

/-- FE_GAIN.GSET. -/
def FE_GAIN_GSET (p : Nat) : Fld := ⟨FE_GAIN p, 10, 8⟩

/-- FE_GAIN.GMAX. -/
def FE_GAIN_GMAX (p : Nat) : Fld := ⟨FE_GAIN p, 6, 4⟩

/-- FE_GAIN.GMIN. -/
def FE_GAIN_GMIN (p : Nat) : Fld := ⟨FE_GAIN p, 2, 0⟩

/-- FE_GLOOP[p < 3] (R100), access RWO. -/
def FE_GLOOP (p : Nat) : Nat := 0x40008 + 0x4000 * p

/-- FE_GLOOP.DN_PEAK. -/
def FE_GLOOP_DN_PEAK (p : Nat) : Fld := ⟨FE_GLOOP p, 31, 20⟩

/-- FE_GLOOP.UP_PEAK. -/
def FE_GLOOP_UP_PEAK (p : Nat) : Fld := ⟨FE_GLOOP p, 19, 8⟩

/-- FE_GLOOP.UP_T10. -/
def FE_GLOOP_UP_T10 (p : Nat) : Fld := ⟨FE_GLOOP p, 7, 0⟩

/-- FE_CLIPCFG[p < 3] (R100), access RWO. -/
def FE_CLIPCFG (p : Nat) : Nat := 0x4000C + 0x4000 * p

/-- FE_CLIPCFG.EM_N. -/
def FE_CLIPCFG_EM_N (p : Nat) : Fld := ⟨FE_CLIPCFG p, 15, 8⟩

/-- FE_CLIPCFG.EM_K. -/
def FE_CLIPCFG_EM_K (p : Nat) : Fld := ⟨FE_CLIPCFG p, 3, 0⟩

/-- FE_STAT[p < 3] (R100), access RO. -/
def FE_STAT (p : Nat) : Nat := 0x40010 + 0x4000 * p

/-- FE_STAT.GNOW. -/
def FE_STAT_GNOW (p : Nat) : Fld := ⟨FE_STAT p, 16, 14⟩

/-- FE_STAT.PSNOW. -/
def FE_STAT_PSNOW (p : Nat) : Fld := ⟨FE_STAT p, 13, 8⟩

/-- FE_STAT.EMHELD. -/
def FE_STAT_EMHELD (p : Nat) : Fld := ⟨FE_STAT p, 7, 7⟩

/-- FE_STAT.EMERG. -/
def FE_STAT_EMERG (p : Nat) : Fld := ⟨FE_STAT p, 6, 6⟩

/-- FE_STAT.ANN. -/
def FE_STAT_ANN (p : Nat) : Fld := ⟨FE_STAT p, 5, 5⟩

/-- FE_STAT.GNEXT. -/
def FE_STAT_GNEXT (p : Nat) : Fld := ⟨FE_STAT p, 4, 2⟩

/-- FE_PEAK[p < 3] (R100), access RO. -/
def FE_PEAK (p : Nat) : Nat := 0x40014 + 0x4000 * p

/-- FE_PEAK.PEAK. -/
def FE_PEAK_PEAK (p : Nat) : Fld := ⟨FE_PEAK p, 31, 20⟩

/-- FE_PEAK.CLIPS. -/
def FE_PEAK_CLIPS (p : Nat) : Fld := ⟨FE_PEAK p, 19, 0⟩

/-- FE_BIAS[p < 3] (R100), access RWO. -/
def FE_BIAS (p : Nat) : Nat := 0x40018 + 0x4000 * p

/-- FE_BIAS.EN. -/
def FE_BIAS_EN (p : Nat) : Fld := ⟨FE_BIAS p, 31, 31⟩

/-- FE_BIAS.RETRY. -/
def FE_BIAS_RETRY (p : Nat) : Fld := ⟨FE_BIAS p, 23, 16⟩

/-- FE_BIAS.OPEN. -/
def FE_BIAS_OPEN (p : Nat) : Fld := ⟨FE_BIAS p, 15, 8⟩

/-- FE_BIAS.SHORT. -/
def FE_BIAS_SHORT (p : Nat) : Fld := ⟨FE_BIAS p, 7, 0⟩

/-- FE_BSTAT[p < 3] (R100), access RO. -/
def FE_BSTAT (p : Nat) : Nat := 0x4001C + 0x4000 * p

/-- FE_BSTAT.STATE. -/
def FE_BSTAT_STATE (p : Nat) : Fld := ⟨FE_BSTAT p, 31, 30⟩

/-- FE_BSTAT.IMA. -/
def FE_BSTAT_IMA (p : Nat) : Fld := ⟨FE_BSTAT p, 9, 0⟩

/-- FE_ADLY[p < 3] (R100), access RO. -/
def FE_ADLY (p : Nat) : Nat := 0x40020 + 0x4000 * p

/-- FE_EVT[p < 3] (R100), access W1C. -/
def FE_EVT (p : Nat) : Nat := 0x40024 + 0x4000 * p

/-- FE_EVT.VOID. -/
def FE_EVT_VOID (p : Nat) : Fld := ⟨FE_EVT p, 8, 8⟩

/-- FE_EVT.PRESEL. -/
def FE_EVT_PRESEL (p : Nat) : Fld := ⟨FE_EVT p, 7, 7⟩

/-- FE_EVT.RETRY. -/
def FE_EVT_RETRY (p : Nat) : Fld := ⟨FE_EVT p, 6, 6⟩

/-- FE_EVT.SHORT. -/
def FE_EVT_SHORT (p : Nat) : Fld := ⟨FE_EVT p, 5, 5⟩

/-- FE_EVT.OPEN. -/
def FE_EVT_OPEN (p : Nat) : Fld := ⟨FE_EVT p, 4, 4⟩

/-- FE_EVT.EM_AGAIN. -/
def FE_EVT_EM_AGAIN (p : Nat) : Fld := ⟨FE_EVT p, 3, 3⟩

/-- FE_EVT.MIN_CLIP. -/
def FE_EVT_MIN_CLIP (p : Nat) : Fld := ⟨FE_EVT p, 2, 2⟩

/-- FE_EVT.EMERG. -/
def FE_EVT_EMERG (p : Nat) : Fld := ⟨FE_EVT p, 1, 1⟩

/-- FE_EVT.STEP. -/
def FE_EVT_STEP (p : Nat) : Fld := ⟨FE_EVT p, 0, 0⟩

/-- FE_EMSTU_LO[p < 3] (R100), access RO. -/
def FE_EMSTU_LO (p : Nat) : Nat := 0x40028 + 0x4000 * p

/-- FE_EMSTU_HI[p < 3] (R100), access RO. -/
def FE_EMSTU_HI (p : Nat) : Nat := 0x4002C + 0x4000 * p

/-- CHZ_DLY[x < 2] (R133), access RO. -/
def CHZ_DLY (x : Nat) : Nat := 0x50000 + 0x8000 * x

/-- CHZ_WT_FTW[x < 2][w < 8] (R133), access RO. -/
def CHZ_WT_FTW (x : Nat) (w : Nat) : Nat := 0x50100 + 0x8000 * x + 0x8 * w

/-- CHZ_WT_CFG[x < 2][w < 8] (R133), access RO. -/
def CHZ_WT_CFG (x : Nat) (w : Nat) : Nat := 0x50104 + 0x8000 * x + 0x8 * w

/-- CHZ_WT_CFG.USED. -/
def CHZ_WT_CFG_USED (x : Nat) (w : Nat) : Fld := ⟨CHZ_WT_CFG x w, 31, 31⟩

/-- CHZ_WT_CFG.USERS. -/
def CHZ_WT_CFG_USERS (x : Nat) (w : Nat) : Fld := ⟨CHZ_WT_CFG x w, 24, 16⟩

/-- CHZ_WT_CFG.DEC. -/
def CHZ_WT_CFG_DEC (x : Nat) (w : Nat) : Fld := ⟨CHZ_WT_CFG x w, 15, 0⟩

/-- CHZ_LT_FTW[n < 16] (R133), access RO. -/
def CHZ_LT_FTW (n : Nat) : Nat := 0x50200 + 0x8 * n

/-- CHZ_LT_CFG[n < 16] (R133), access RO. -/
def CHZ_LT_CFG (n : Nat) : Nat := 0x50204 + 0x8 * n

/-- CHZ_LT_CFG.USED. -/
def CHZ_LT_CFG_USED (n : Nat) : Fld := ⟨CHZ_LT_CFG n, 31, 31⟩

/-- CHZ_LT_CFG.USERS. -/
def CHZ_LT_CFG_USERS (n : Nat) : Fld := ⟨CHZ_LT_CFG n, 24, 16⟩

/-- CHZ_LT_CFG.DEC. -/
def CHZ_LT_CFG_DEC (n : Nat) : Fld := ⟨CHZ_LT_CFG n, 15, 0⟩

/-- CHN_SRC[n < 256] (R132), access RW. -/
def CHN_SRC (n : Nat) : Nat := 0x60000 + 0x100 * n

/-- CHN_SRC.KIND. -/
def CHN_SRC_KIND (n : Nat) : Fld := ⟨CHN_SRC n, 31, 30⟩

/-- CHN_SRC.CONV. -/
def CHN_SRC_CONV (n : Nat) : Fld := ⟨CHN_SRC n, 29, 29⟩

/-- CHN_SRC.INDEX. -/
def CHN_SRC_INDEX (n : Nat) : Fld := ⟨CHN_SRC n, 8, 0⟩

/-- CHN_TAP_FTW[n < 256] (R132), access RW. -/
def CHN_TAP_FTW (n : Nat) : Nat := 0x60004 + 0x100 * n

/-- CHN_TAP_DEC[n < 256] (R132), access RW. -/
def CHN_TAP_DEC (n : Nat) : Nat := 0x60008 + 0x100 * n

/-- CHN_CIC[n < 256] (R132), access RW. -/
def CHN_CIC (n : Nat) : Nat := 0x6000C + 0x100 * n

/-- CHN_CIC.ORDER. -/
def CHN_CIC_ORDER (n : Nat) : Fld := ⟨CHN_CIC n, 18, 16⟩

/-- CHN_CIC.DECM1. -/
def CHN_CIC_DECM1 (n : Nat) : Fld := ⟨CHN_CIC n, 15, 0⟩

/-- CHN_FIR[n < 256] (R132), access RW. -/
def CHN_FIR (n : Nat) : Nat := 0x60010 + 0x100 * n

/-- CHN_FIR.TAPS. -/
def CHN_FIR_TAPS (n : Nat) : Fld := ⟨CHN_FIR n, 24, 16⟩

/-- CHN_FIR.PDECM1. -/
def CHN_FIR_PDECM1 (n : Nat) : Fld := ⟨CHN_FIR n, 3, 0⟩

/-- CHN_NCO_FTW[n < 256] (R132), access RW. -/
def CHN_NCO_FTW (n : Nat) : Nat := 0x60014 + 0x100 * n

/-- CHN_NCO_PH[n < 256] (R132), access RW. -/
def CHN_NCO_PH (n : Nat) : Nat := 0x60018 + 0x100 * n

/-- CHN_BANK[n < 256] (R132), access RW. -/
def CHN_BANK (n : Nat) : Nat := 0x6001C + 0x100 * n

/-- CHN_BANK.REQ. -/
def CHN_BANK_REQ (n : Nat) : Fld := ⟨CHN_BANK n, 31, 31⟩

/-- CHN_BANK.TARGET. -/
def CHN_BANK_TARGET (n : Nat) : Fld := ⟨CHN_BANK n, 8, 8⟩

/-- CHN_BANK.FADE. -/
def CHN_BANK_FADE (n : Nat) : Fld := ⟨CHN_BANK n, 4, 4⟩

/-- CHN_BANK.K. -/
def CHN_BANK_K (n : Nat) : Fld := ⟨CHN_BANK n, 3, 0⟩

/-- CHN_AGC[n < 256] (R132), access RW. -/
def CHN_AGC (n : Nat) : Nat := 0x60020 + 0x100 * n

/-- CHN_AGC.EN. -/
def CHN_AGC_EN (n : Nat) : Fld := ⟨CHN_AGC n, 31, 31⟩

/-- CHN_AGC.GMAX. -/
def CHN_AGC_GMAX (n : Nat) : Fld := ⟨CHN_AGC n, 29, 24⟩

/-- CHN_AGC.TGT. -/
def CHN_AGC_TGT (n : Nat) : Fld := ⟨CHN_AGC n, 23, 16⟩

/-- CHN_AGC.REL. -/
def CHN_AGC_REL (n : Nat) : Fld := ⟨CHN_AGC n, 15, 8⟩

/-- CHN_AGC.HOLDMAX. -/
def CHN_AGC_HOLDMAX (n : Nat) : Fld := ⟨CHN_AGC n, 7, 0⟩

/-- CHN_SYNC_LO[n < 256] (R132), access RW. -/
def CHN_SYNC_LO (n : Nat) : Nat := 0x60024 + 0x100 * n

/-- CHN_SYNC_HI[n < 256] (R132), access RW. -/
def CHN_SYNC_HI (n : Nat) : Nat := 0x60028 + 0x100 * n

/-- CHN_SYNC_HI.ARM. -/
def CHN_SYNC_HI_ARM (n : Nat) : Fld := ⟨CHN_SYNC_HI n, 31, 31⟩

/-- CHN_SYNC_HI.TICK. -/
def CHN_SYNC_HI_TICK (n : Nat) : Fld := ⟨CHN_SYNC_HI n, 15, 0⟩

/-- CHN_STAT[n < 256] (R132), access RO. -/
def CHN_STAT (n : Nat) : Nat := 0x6002C + 0x100 * n

/-- CHN_STAT.OPEN. -/
def CHN_STAT_OPEN (n : Nat) : Fld := ⟨CHN_STAT n, 31, 31⟩

/-- CHN_STAT.BANK. -/
def CHN_STAT_BANK (n : Nat) : Fld := ⟨CHN_STAT n, 30, 30⟩

/-- CHN_STAT.FADING. -/
def CHN_STAT_FADING (n : Nat) : Fld := ⟨CHN_STAT n, 29, 29⟩

/-- CHN_STAT.PEND. -/
def CHN_STAT_PEND (n : Nat) : Fld := ⟨CHN_STAT n, 28, 28⟩

/-- CHN_STAT.PTARGET. -/
def CHN_STAT_PTARGET (n : Nat) : Fld := ⟨CHN_STAT n, 27, 27⟩

/-- CHN_STAT.FROZEN. -/
def CHN_STAT_FROZEN (n : Nat) : Fld := ⟨CHN_STAT n, 26, 26⟩

/-- CHN_STAT.BANK_BUSY. -/
def CHN_STAT_BANK_BUSY (n : Nat) : Fld := ⟨CHN_STAT n, 25, 25⟩

/-- CHN_STAT.SETTLING. -/
def CHN_STAT_SETTLING (n : Nat) : Fld := ⟨CHN_STAT n, 24, 24⟩

/-- CHN_STAT.VOID. -/
def CHN_STAT_VOID (n : Nat) : Fld := ⟨CHN_STAT n, 23, 23⟩

/-- CHN_EVT[n < 256] (R132), access W1C. -/
def CHN_EVT (n : Nat) : Nat := 0x60030 + 0x100 * n

/-- CHN_EVT.SUPERSEDED. -/
def CHN_EVT_SUPERSEDED (n : Nat) : Fld := ⟨CHN_EVT n, 7, 7⟩

/-- CHN_EVT.SYNC_LATE. -/
def CHN_EVT_SYNC_LATE (n : Nat) : Fld := ⟨CHN_EVT n, 6, 6⟩

/-- CHN_EVT.CFG_REFUSED. -/
def CHN_EVT_CFG_REFUSED (n : Nat) : Fld := ⟨CHN_EVT n, 5, 5⟩

/-- CHN_EVT.SAT. -/
def CHN_EVT_SAT (n : Nat) : Fld := ⟨CHN_EVT n, 4, 4⟩

/-- CHN_EVT.FADE_DONE. -/
def CHN_EVT_FADE_DONE (n : Nat) : Fld := ⟨CHN_EVT n, 3, 3⟩

/-- CHN_EVT.SWAP. -/
def CHN_EVT_SWAP (n : Nat) : Fld := ⟨CHN_EVT n, 2, 2⟩

/-- CHN_EVT.AGC_RELEASE. -/
def CHN_EVT_AGC_RELEASE (n : Nat) : Fld := ⟨CHN_EVT n, 1, 1⟩

/-- CHN_EVT.NOSWAP. -/
def CHN_EVT_NOSWAP (n : Nat) : Fld := ⟨CHN_EVT n, 0, 0⟩

/-- CHN_DELAY_LO[n < 256] (R132), access RO. -/
def CHN_DELAY_LO (n : Nat) : Nat := 0x60034 + 0x100 * n

/-- CHN_DELAY_HI[n < 256] (R132), access RO. -/
def CHN_DELAY_HI (n : Nat) : Nat := 0x60038 + 0x100 * n

/-- CHN_SETTLE[n < 256] (R132), access RO. -/
def CHN_SETTLE (n : Nat) : Nat := 0x6003C + 0x100 * n

/-- CHN_COST[n < 256] (R132), access RO. -/
def CHN_COST (n : Nat) : Nat := 0x60040 + 0x100 * n

/-- CHN_AGCG[n < 256] (R132), access RO. -/
def CHN_AGCG (n : Nat) : Nat := 0x60044 + 0x100 * n

/-- CHN_SATCNT[n < 256] (R132), access RO. -/
def CHN_SATCNT (n : Nat) : Nat := 0x60048 + 0x100 * n

/-- CHN_FADE_END_LO[n < 256] (R132), access RO. -/
def CHN_FADE_END_LO (n : Nat) : Nat := 0x6004C + 0x100 * n

/-- CHN_FADE_END_HI[n < 256] (R132), access RO. -/
def CHN_FADE_END_HI (n : Nat) : Nat := 0x60050 + 0x100 * n

/-- CAL_CTRL (R163), access per field. -/
def CAL_CTRL : Nat := 0x70000

/-- CAL_CTRL.START. -/
def CAL_CTRL_START : Fld := ⟨CAL_CTRL, 31, 31⟩

/-- CAL_CTRL.SAVE. -/
def CAL_CTRL_SAVE : Fld := ⟨CAL_CTRL, 30, 30⟩

/-- CAL_CTRL.FACTORY. -/
def CAL_CTRL_FACTORY : Fld := ⟨CAL_CTRL, 29, 29⟩

/-- CAL_CTRL.AUTOSAVE. -/
def CAL_CTRL_AUTOSAVE : Fld := ⟨CAL_CTRL, 1, 1⟩

/-- CAL_CTRL.TRACK. -/
def CAL_CTRL_TRACK : Fld := ⟨CAL_CTRL, 0, 0⟩

/-- CAL_CFG0 (R163), access RWO. -/
def CAL_CFG0 : Nat := 0x70004

/-- CAL_CFG0.WAIT. -/
def CAL_CFG0_WAIT : Fld := ⟨CAL_CFG0, 31, 16⟩

/-- CAL_CFG0.EST_T. -/
def CAL_CFG0_EST_T : Fld := ⟨CAL_CFG0, 15, 8⟩

/-- CAL_CFG0.RELEARN. -/
def CAL_CFG0_RELEARN : Fld := ⟨CAL_CFG0, 7, 4⟩

/-- CAL_CFG0.DRIFT. -/
def CAL_CFG0_DRIFT : Fld := ⟨CAL_CFG0, 3, 0⟩

/-- CAL_CFG1 (R163), access RWO. -/
def CAL_CFG1 : Nat := 0x70008

/-- CAL_CFG1.SAVE_INT. -/
def CAL_CFG1_SAVE_INT : Fld := ⟨CAL_CFG1, 31, 16⟩

/-- CAL_CFG1.MAXAGE. -/
def CAL_CFG1_MAXAGE : Fld := ⟨CAL_CFG1, 15, 0⟩

/-- CAL_PRE (R163), access RWO. -/
def CAL_PRE : Nat := 0x7000C

/-- CAL_PRE.SFMIN. -/
def CAL_PRE_SFMIN : Fld := ⟨CAL_PRE, 31, 24⟩

/-- CAL_PRE.SHAREMAX. -/
def CAL_PRE_SHAREMAX : Fld := ⟨CAL_PRE, 23, 16⟩

/-- CAL_PRE.LVLMIN. -/
def CAL_PRE_LVLMIN : Fld := ⟨CAL_PRE, 15, 8⟩

/-- CAL_PRE.CFMIN. -/
def CAL_PRE_CFMIN : Fld := ⟨CAL_PRE, 7, 4⟩

/-- CAL_PRE.CFMAX. -/
def CAL_PRE_CFMAX : Fld := ⟨CAL_PRE, 3, 0⟩

/-- CAL_STAT (R163), access RO. -/
def CAL_STAT : Nat := 0x70010

/-- CAL_STAT.PWRUP. -/
def CAL_STAT_PWRUP : Fld := ⟨CAL_STAT, 31, 31⟩

/-- CAL_STAT.DEFERRED. -/
def CAL_STAT_DEFERRED : Fld := ⟨CAL_STAT, 30, 30⟩

/-- CAL_STAT.REJECT. -/
def CAL_STAT_REJECT : Fld := ⟨CAL_STAT, 29, 29⟩

/-- CAL_STAT.REASON. -/
def CAL_STAT_REASON : Fld := ⟨CAL_STAT, 28, 25⟩

/-- CAL_STAT.GROUP. -/
def CAL_STAT_GROUP : Fld := ⟨CAL_STAT, 24, 22⟩

/-- CAL_STAT.UNIT. -/
def CAL_STAT_UNIT : Fld := ⟨CAL_STAT, 21, 20⟩

/-- CAL_STAT.SRC. -/
def CAL_STAT_SRC : Fld := ⟨CAL_STAT, 19, 18⟩

/-- CAL_STAT.NOSAVE. -/
def CAL_STAT_NOSAVE : Fld := ⟨CAL_STAT, 17, 17⟩

/-- CAL_STAT.SLEWING. -/
def CAL_STAT_SLEWING : Fld := ⟨CAL_STAT, 16, 16⟩

/-- CAL_STAT.ESC. -/
def CAL_STAT_ESC : Fld := ⟨CAL_STAT, 15, 15⟩

/-- CAL_STAT.NPTS. -/
def CAL_STAT_NPTS : Fld := ⟨CAL_STAT, 11, 8⟩

/-- CAL_STAT.DEFMASK. -/
def CAL_STAT_DEFMASK : Fld := ⟨CAL_STAT, 6, 0⟩

/-- CAL_EVT (R163), access W1C. -/
def CAL_EVT : Nat := 0x70014

/-- CAL_EVT.RELEARN. -/
def CAL_EVT_RELEARN : Fld := ⟨CAL_EVT, 7, 7⟩

/-- CAL_EVT.SAVED. -/
def CAL_EVT_SAVED : Fld := ⟨CAL_EVT, 6, 6⟩

/-- CAL_EVT.SAVE_FAIL. -/
def CAL_EVT_SAVE_FAIL : Fld := ⟨CAL_EVT, 5, 5⟩

/-- CAL_EVT.ABANDON. -/
def CAL_EVT_ABANDON : Fld := ⟨CAL_EVT, 4, 4⟩

/-- CAL_EVT.REJECT. -/
def CAL_EVT_REJECT : Fld := ⟨CAL_EVT, 3, 3⟩

/-- CAL_EVT.DEFER. -/
def CAL_EVT_DEFER : Fld := ⟨CAL_EVT, 2, 2⟩

/-- CAL_EVT.ACCEPT. -/
def CAL_EVT_ACCEPT : Fld := ⟨CAL_EVT, 1, 1⟩

/-- CAL_EVT.PWRUP_DONE. -/
def CAL_EVT_PWRUP_DONE : Fld := ⟨CAL_EVT, 0, 0⟩

/-- CAL_MEAS[c < 3] (R163), access RO. -/
def CAL_MEAS (c : Nat) : Nat := 0x70018 + 0x4 * c

/-- CAL_MEAS.SF. -/
def CAL_MEAS_SF (c : Nat) : Fld := ⟨CAL_MEAS c, 31, 24⟩

/-- CAL_MEAS.CF. -/
def CAL_MEAS_CF (c : Nat) : Fld := ⟨CAL_MEAS c, 23, 16⟩

/-- CAL_MEAS.SHARE. -/
def CAL_MEAS_SHARE (c : Nat) : Fld := ⟨CAL_MEAS c, 15, 8⟩

/-- CAL_MEAS.LEVEL. -/
def CAL_MEAS_LEVEL (c : Nat) : Fld := ⟨CAL_MEAS c, 7, 0⟩

/-- CAL_CNT (R163), access RO. -/
def CAL_CNT : Nat := 0x70024

/-- CAL_CNT.ABANDONED. -/
def CAL_CNT_ABANDONED : Fld := ⟨CAL_CNT, 31, 16⟩

/-- CAL_CNT.REJECTED. -/
def CAL_CNT_REJECTED : Fld := ⟨CAL_CNT, 15, 0⟩

/-- CAL_TEMP[p < 8] (R163), access RO. -/
def CAL_TEMP (p : Nat) : Nat := 0x70030 + 0x4 * p

/-- CAL_TEMP.VALID. -/
def CAL_TEMP_VALID (p : Nat) : Fld := ⟨CAL_TEMP p, 31, 31⟩

/-- CAL_TEMP.TEMP. -/
def CAL_TEMP_TEMP (p : Nat) : Fld := ⟨CAL_TEMP p, 15, 0⟩

/-- CAL_APPLY[g < 7] (R163), access RWO. -/
def CAL_APPLY (g : Nat) : Nat := 0x70060 + 0x4 * g

/-- CAL_APPLY.MODE. -/
def CAL_APPLY_MODE (g : Nat) : Fld := ⟨CAL_APPLY g, 8, 8⟩

/-- CAL_APPLY.N. -/
def CAL_APPLY_N (g : Nat) : Fld := ⟨CAL_APPLY g, 3, 0⟩

/-- CAL_ILA[c < 2][i < 16] (R163), access RO. -/
def CAL_ILA (c : Nat) (i : Nat) : Nat := 0x70100 + 0x80 * c + 0x8 * i

/-- CAL_ILB[c < 2][i < 16] (R163), access RO. -/
def CAL_ILB (c : Nat) (i : Nat) : Nat := 0x70104 + 0x80 * c + 0x8 * i

/-- CAL_LNA[p < 2][k < 6] (R163), access RO. -/
def CAL_LNA (p : Nat) (k : Nat) : Nat := 0x70200 + 0x20 * p + 0x4 * k

/-- CAL_LFOFS (R163), access RO. -/
def CAL_LFOFS : Nat := 0x70240

/-- CAL_TRIM[c < 2] (R163), access RO. -/
def CAL_TRIM (c : Nat) : Nat := 0x70244 + 0x4 * c

/-- SEQ_CTRL (R267), access per field. -/
def SEQ_CTRL : Nat := 0x80000

/-- SEQ_CTRL.UNQ. -/
def SEQ_CTRL_UNQ : Fld := ⟨SEQ_CTRL, 31, 31⟩

/-- SEQ_CTRL.P0_SPARE. -/
def SEQ_CTRL_P0_SPARE : Fld := ⟨SEQ_CTRL, 30, 30⟩

/-- SEQ_CTRL.REBAL. -/
def SEQ_CTRL_REBAL : Fld := ⟨SEQ_CTRL, 29, 29⟩

/-- SEQ_CTRL.ACCMASK. -/
def SEQ_CTRL_ACCMASK : Fld := ⟨SEQ_CTRL, 25, 16⟩

/-- SEQ_CTRL.MOVEMAX. -/
def SEQ_CTRL_MOVEMAX : Fld := ⟨SEQ_CTRL, 15, 8⟩

/-- SEQ_CTRL.ENGMASK. -/
def SEQ_CTRL_ENGMASK : Fld := ⟨SEQ_CTRL, 7, 0⟩

/-- SEQ_STAT (R267), access RO. -/
def SEQ_STAT : Nat := 0x80004

/-- SEQ_STAT.HEALTHY. -/
def SEQ_STAT_HEALTHY : Fld := ⟨SEQ_STAT, 31, 28⟩

/-- SEQ_STAT.SPARE. -/
def SEQ_STAT_SPARE : Fld := ⟨SEQ_STAT, 27, 25⟩

/-- SEQ_STAT.SPARE_VALID. -/
def SEQ_STAT_SPARE_VALID : Fld := ⟨SEQ_STAT, 24, 24⟩

/-- SEQ_STAT.SAFEPLAN. -/
def SEQ_STAT_SAFEPLAN : Fld := ⟨SEQ_STAT, 23, 23⟩

/-- SEQ_STAT.REPEAT. -/
def SEQ_STAT_REPEAT : Fld := ⟨SEQ_STAT, 22, 22⟩

/-- SEQ_EVT (R267), access W1C. -/
def SEQ_EVT : Nat := 0x80008

/-- SEQ_EVT.UNQ_FAIL. -/
def SEQ_EVT_UNQ_FAIL : Fld := ⟨SEQ_EVT, 8, 8⟩

/-- SEQ_EVT.UNQ_DONE. -/
def SEQ_EVT_UNQ_DONE : Fld := ⟨SEQ_EVT, 7, 7⟩

/-- SEQ_EVT.ACC_LOST. -/
def SEQ_EVT_ACC_LOST : Fld := ⟨SEQ_EVT, 6, 6⟩

/-- SEQ_EVT.P0_SHED. -/
def SEQ_EVT_P0_SHED : Fld := ⟨SEQ_EVT, 5, 5⟩

/-- SEQ_EVT.SHED_FIT. -/
def SEQ_EVT_SHED_FIT : Fld := ⟨SEQ_EVT, 4, 4⟩

/-- SEQ_EVT.QUAR_ACC. -/
def SEQ_EVT_QUAR_ACC : Fld := ⟨SEQ_EVT, 3, 3⟩

/-- SEQ_EVT.QUAR_ENG. -/
def SEQ_EVT_QUAR_ENG : Fld := ⟨SEQ_EVT, 2, 2⟩

/-- SEQ_EVT.OVERRUN. -/
def SEQ_EVT_OVERRUN : Fld := ⟨SEQ_EVT, 1, 1⟩

/-- SEQ_EVT.REPEAT. -/
def SEQ_EVT_REPEAT : Fld := ⟨SEQ_EVT, 0, 0⟩

/-- SEQ_BUDGET (R267), access RO. -/
def SEQ_BUDGET : Nat := 0x8000C

/-- SEQ_FABRIC (R267), access RO. -/
def SEQ_FABRIC : Nat := 0x80010

/-- SEQ_STORE (R267), access RO. -/
def SEQ_STORE : Nat := 0x80014

/-- SEQ_SPACE (R267), access RO. -/
def SEQ_SPACE : Nat := 0x80018

/-- SEQ_SPACE.FREE. -/
def SEQ_SPACE_FREE : Fld := ⟨SEQ_SPACE, 31, 16⟩

/-- SEQ_SPACE.ALLOC. -/
def SEQ_SPACE_ALLOC : Fld := ⟨SEQ_SPACE, 15, 0⟩

/-- SEQ_ENG[e < 8] (R267), access RO. -/
def SEQ_ENG (e : Nat) : Nat := 0x80020 + 0x4 * e

/-- SEQ_ENG.STATE. -/
def SEQ_ENG_STATE (e : Nat) : Fld := ⟨SEQ_ENG e, 31, 30⟩

/-- SEQ_ENG.SPARE. -/
def SEQ_ENG_SPARE (e : Nat) : Fld := ⟨SEQ_ENG e, 29, 29⟩

/-- SEQ_ENG.HOMED. -/
def SEQ_ENG_HOMED (e : Nat) : Fld := ⟨SEQ_ENG e, 28, 20⟩

/-- SEQ_ENG.PEAK. -/
def SEQ_ENG_PEAK (e : Nat) : Fld := ⟨SEQ_ENG e, 18, 0⟩

/-- SEQ_ACC[k < 6] (R267), access RO. -/
def SEQ_ACC (k : Nat) : Nat := 0x80040 + 0x4 * k

/-- SEQ_ACC.STATE1. -/
def SEQ_ACC_STATE1 (k : Nat) : Fld := ⟨SEQ_ACC k, 31, 30⟩

/-- SEQ_ACC.STATE0. -/
def SEQ_ACC_STATE0 (k : Nat) : Fld := ⟨SEQ_ACC k, 29, 28⟩

/-- SEQ_ACC.PEAK. -/
def SEQ_ACC_PEAK (k : Nat) : Fld := ⟨SEQ_ACC k, 18, 0⟩

/-- SEQ_OVRCNT (R267), access RO. -/
def SEQ_OVRCNT : Nat := 0x80060

/-- SEQ_OVRLAST (R267), access RO. -/
def SEQ_OVRLAST : Nat := 0x80064

/-- SEQ_OVRLAST.CAUSE. -/
def SEQ_OVRLAST_CAUSE : Fld := ⟨SEQ_OVRLAST, 31, 24⟩

/-- SEQ_OVRLAST.CTX. -/
def SEQ_OVRLAST_CTX : Fld := ⟨SEQ_OVRLAST, 7, 0⟩

/-- SEQ_OVR_STU_LO (R267), access RO. -/
def SEQ_OVR_STU_LO : Nat := 0x80068

/-- SEQ_OVR_STU_HI (R267), access RO. -/
def SEQ_OVR_STU_HI : Nat := 0x8006C

/-- SEQ_REPEAT (R267), access RO. -/
def SEQ_REPEAT : Nat := 0x80070

/-- SEQ_MOVES (R267), access RO. -/
def SEQ_MOVES : Nat := 0x80074

/-- SEQ_CTX[n < 256] (R267), access RO. -/
def SEQ_CTX (n : Nat) : Nat := 0x80400 + 0x4 * n

/-- SEQ_CTX.HOME. -/
def SEQ_CTX_HOME (n : Nat) : Fld := ⟨SEQ_CTX n, 31, 29⟩

/-- SEQ_CTX.PEAK. -/
def SEQ_CTX_PEAK (n : Nat) : Fld := ⟨SEQ_CTX n, 18, 0⟩

/-- LDG_CTRL (R288), access per field. -/
def LDG_CTRL : Nat := 0x90000

/-- LDG_CTRL.HIBER. -/
def LDG_CTRL_HIBER : Fld := ⟨LDG_CTRL, 31, 31⟩

/-- LDG_CTRL.PARK. -/
def LDG_CTRL_PARK : Fld := ⟨LDG_CTRL, 30, 30⟩

/-- LDG_CTRL.DVFS. -/
def LDG_CTRL_DVFS : Fld := ⟨LDG_CTRL, 2, 2⟩

/-- LDG_CTRL.DOZE. -/
def LDG_CTRL_DOZE : Fld := ⟨LDG_CTRL, 1, 1⟩

/-- LDG_CTRL.HEAT. -/
def LDG_CTRL_HEAT : Fld := ⟨LDG_CTRL, 0, 0⟩

/-- LDG_STAT (R288), access RO. -/
def LDG_STAT : Nat := 0x90004

/-- LDG_STAT.GRADE. -/
def LDG_STAT_GRADE : Fld := ⟨LDG_STAT, 31, 29⟩

/-- LDG_STAT.NEXT. -/
def LDG_STAT_NEXT : Fld := ⟨LDG_STAT, 28, 26⟩

/-- LDG_STAT.PSTATE. -/
def LDG_STAT_PSTATE : Fld := ⟨LDG_STAT, 25, 24⟩

/-- LDG_STAT.FLOOR. -/
def LDG_STAT_FLOOR : Fld := ⟨LDG_STAT, 23, 21⟩

/-- LDG_STAT.TPARK. -/
def LDG_STAT_TPARK : Fld := ⟨LDG_STAT, 20, 20⟩

/-- LDG_STAT.OVER. -/
def LDG_STAT_OVER : Fld := ⟨LDG_STAT, 19, 19⟩

/-- LDG_STAT.FPLAN. -/
def LDG_STAT_FPLAN : Fld := ⟨LDG_STAT, 18, 0⟩

/-- LDG_EVT (R288), access W1C. -/
def LDG_EVT : Nat := 0x90008

/-- LDG_EVT.KCLAMP. -/
def LDG_EVT_KCLAMP : Fld := ⟨LDG_EVT, 7, 7⟩

/-- LDG_EVT.HEAT_MOVE. -/
def LDG_EVT_HEAT_MOVE : Fld := ⟨LDG_EVT, 6, 6⟩

/-- LDG_EVT.SHARE_OVER. -/
def LDG_EVT_SHARE_OVER : Fld := ⟨LDG_EVT, 5, 5⟩

/-- LDG_EVT.RSTALE. -/
def LDG_EVT_RSTALE : Fld := ⟨LDG_EVT, 4, 4⟩

/-- LDG_EVT.TPARK. -/
def LDG_EVT_TPARK : Fld := ⟨LDG_EVT, 3, 3⟩

/-- LDG_EVT.OVER. -/
def LDG_EVT_OVER : Fld := ⟨LDG_EVT, 2, 2⟩

/-- LDG_EVT.MARGIN_SHED. -/
def LDG_EVT_MARGIN_SHED : Fld := ⟨LDG_EVT, 1, 1⟩

/-- LDG_EVT.GRADE_CHG. -/
def LDG_EVT_GRADE_CHG : Fld := ⟨LDG_EVT, 0, 0⟩

/-- LDG_PCAP (R288), access RWO. -/
def LDG_PCAP : Nat := 0x9000C

/-- LDG_PCAP.PCAP. -/
def LDG_PCAP_PCAP : Fld := ⟨LDG_PCAP, 10, 0⟩

/-- LDG_RESV (R288), access RWO. -/
def LDG_RESV : Nat := 0x90010

/-- LDG_RESV.LEVEL. -/
def LDG_RESV_LEVEL : Fld := ⟨LDG_RESV, 7, 0⟩

/-- LDG_RMAP (R288), access RWO. -/
def LDG_RMAP : Nat := 0x90014

/-- LDG_RMAP.G5_AT. -/
def LDG_RMAP_G5_AT : Fld := ⟨LDG_RMAP, 31, 24⟩

/-- LDG_RMAP.G4_AT. -/
def LDG_RMAP_G4_AT : Fld := ⟨LDG_RMAP, 23, 16⟩

/-- LDG_RMAP.G3_AT. -/
def LDG_RMAP_G3_AT : Fld := ⟨LDG_RMAP, 15, 8⟩

/-- LDG_RMAP.G2_AT. -/
def LDG_RMAP_G2_AT : Fld := ⟨LDG_RMAP, 7, 0⟩

/-- LDG_THERM (R288), access RWO. -/
def LDG_THERM : Nat := 0x90018

/-- LDG_THERM.TJ_LIMIT. -/
def LDG_THERM_TJ_LIMIT : Fld := ⟨LDG_THERM, 31, 24⟩

/-- LDG_THERM.SPREAD. -/
def LDG_THERM_SPREAD : Fld := ⟨LDG_THERM, 23, 16⟩

/-- LDG_THERM.RTH. -/
def LDG_THERM_RTH : Fld := ⟨LDG_THERM, 15, 0⟩

/-- LDG_CFG (R288), access RWO. -/
def LDG_CFG : Nat := 0x9001C

/-- LDG_CFG.HOLD. -/
def LDG_CFG_HOLD : Fld := ⟨LDG_CFG, 31, 20⟩

/-- LDG_CFG.HYST. -/
def LDG_CFG_HYST : Fld := ⟨LDG_CFG, 19, 12⟩

/-- LDG_CFG.RES_TO. -/
def LDG_CFG_RES_TO : Fld := ⟨LDG_CFG, 11, 4⟩

/-- LDG_CFG.SLOPE. -/
def LDG_CFG_SLOPE : Fld := ⟨LDG_CFG, 3, 0⟩

/-- LDG_LIMIT (R288), access RO. -/
def LDG_LIMIT : Nat := 0x90020

/-- LDG_LIMIT.BIND. -/
def LDG_LIMIT_BIND : Fld := ⟨LDG_LIMIT, 31, 31⟩

/-- LDG_LIMIT.L. -/
def LDG_LIMIT_L : Fld := ⟨LDG_LIMIT, 22, 0⟩

/-- LDG_PLAN (R288), access RO. -/
def LDG_PLAN : Nat := 0x90024

/-- LDG_TICKE (R288), access RO. -/
def LDG_TICKE : Nat := 0x90028

/-- LDG_FIXE (R288), access RO. -/
def LDG_FIXE : Nat := 0x9002C

/-- LDG_KCORR (R288), access RO. -/
def LDG_KCORR : Nat := 0x90030

/-- LDG_TBASE (R288), access RO. -/
def LDG_TBASE : Nat := 0x90034

/-- LDG_TEMP[i < 8] (R288), access RO. -/
def LDG_TEMP (i : Nat) : Nat := 0x90040 + 0x4 * i

/-- LDG_TEMP.VALID. -/
def LDG_TEMP_VALID (i : Nat) : Fld := ⟨LDG_TEMP i, 31, 31⟩

/-- LDG_TEMP.TEMP. -/
def LDG_TEMP_TEMP (i : Nat) : Fld := ⟨LDG_TEMP i, 15, 0⟩

/-- LDG_TENS[t < 4] (R288), access RO. -/
def LDG_TENS (t : Nat) : Nat := 0x90060 + 0x4 * t

/-- LDG_TENS.OVER. -/
def LDG_TENS_OVER (t : Nat) : Fld := ⟨LDG_TENS t, 31, 31⟩

/-- LDG_TENS.UJ. -/
def LDG_TENS_UJ (t : Nat) : Fld := ⟨LDG_TENS t, 23, 0⟩

/-- LDG_SHARE[t < 4] (R288), access RO. -/
def LDG_SHARE (t : Nat) : Nat := 0x90070 + 0x4 * t

/-- LDG_WUE[k < 6] (R288), access RO. -/
def LDG_WUE (k : Nat) : Nat := 0x90080 + 0x4 * k

/-- LDG_DEVE (R288), access RO. -/
def LDG_DEVE : Nat := 0x900A0

/-- LDG_EPC[n < 8] (R288), access RO. -/
def LDG_EPC (n : Nat) : Nat := 0x900C0 + 0x4 * n

/-- LDG_CTXE[n < 256] (R288), access RO. -/
def LDG_CTXE (n : Nat) : Nat := 0x90400 + 0x4 * n

/-- BRS_CFG[n < 256] (R309), access RW. -/
def BRS_CFG (n : Nat) : Nat := 0xA0000 + 0x40 * n

/-- BRS_CFG.CLASS. -/
def BRS_CFG_CLASS (n : Nat) : Fld := ⟨BRS_CFG n, 31, 30⟩

/-- BRS_CFG.CH1EN. -/
def BRS_CFG_CH1EN (n : Nat) : Fld := ⟨BRS_CFG n, 29, 29⟩

/-- BRS_CFG.CH0EN. -/
def BRS_CFG_CH0EN (n : Nat) : Fld := ⟨BRS_CFG n, 28, 28⟩

/-- BRS_CFG.PEN. -/
def BRS_CFG_PEN (n : Nat) : Fld := ⟨BRS_CFG n, 27, 27⟩

/-- BRS_CFG.PAIR. -/
def BRS_CFG_PAIR (n : Nat) : Fld := ⟨BRS_CFG n, 15, 8⟩

/-- BRS_CH_FTW[n < 256][c < 2] (R309), access RW. -/
def BRS_CH_FTW (n : Nat) (c : Nat) : Nat := 0xA0004 + 0x40 * n + 0x4 * c

/-- BRS_DET[n < 256] (R309), access RW. -/
def BRS_DET (n : Nat) : Nat := 0xA000C + 0x40 * n

/-- BRS_DET.THR. -/
def BRS_DET_THR (n : Nat) : Fld := ⟨BRS_DET n, 15, 0⟩

/-- BRS_CAPTURE_REG[n < 256] (R309), access RW. -/
def BRS_CAPTURE_REG (n : Nat) : Nat := 0xA0010 + 0x40 * n

/-- BRS_CAPTURE_REG.CAPEN. -/
def BRS_CAPTURE_REG_CAPEN (n : Nat) : Fld := ⟨BRS_CAPTURE_REG n, 31, 31⟩

/-- BRS_CAPTURE_REG.CAPTURE. -/
def BRS_CAPTURE_REG_CAPTURE (n : Nat) : Fld := ⟨BRS_CAPTURE_REG n, 15, 8⟩

/-- BRS_CAPTURE_REG.PREEMPT. -/
def BRS_CAPTURE_REG_PREEMPT (n : Nat) : Fld := ⟨BRS_CAPTURE_REG n, 7, 0⟩

/-- BRS_LIM[n < 256] (R309), access RW. -/
def BRS_LIM (n : Nat) : Nat := 0xA0014 + 0x40 * n

/-- BRS_LIM.FLAG_TO. -/
def BRS_LIM_FLAG_TO (n : Nat) : Fld := ⟨BRS_LIM n, 31, 24⟩

/-- BRS_LIM.MAXBITS. -/
def BRS_LIM_MAXBITS (n : Nat) : Fld := ⟨BRS_LIM n, 12, 0⟩

/-- BRS_GEN[n < 256] (R309), access RW. -/
def BRS_GEN (n : Nat) : Nat := 0xA0018 + 0x40 * n

/-- BRS_GEN.MOD. -/
def BRS_GEN_MOD (n : Nat) : Fld := ⟨BRS_GEN n, 31, 30⟩

/-- BRS_GEN.SPBM1. -/
def BRS_GEN_SPBM1 (n : Nat) : Fld := ⟨BRS_GEN n, 29, 24⟩

/-- BRS_GEN.PRELEN. -/
def BRS_GEN_PRELEN (n : Nat) : Fld := ⟨BRS_GEN n, 23, 18⟩

/-- BRS_GEN.SYNCLEN. -/
def BRS_GEN_SYNCLEN (n : Nat) : Fld := ⟨BRS_GEN n, 17, 12⟩

/-- BRS_GEN.SYNCERR. -/
def BRS_GEN_SYNCERR (n : Nat) : Fld := ⟨BRS_GEN n, 11, 10⟩

/-- BRS_GEN.CRC. -/
def BRS_GEN_CRC (n : Nat) : Fld := ⟨BRS_GEN n, 9, 8⟩

/-- BRS_GPRE[n < 256] (R309), access RW. -/
def BRS_GPRE (n : Nat) : Nat := 0xA001C + 0x40 * n

/-- BRS_GSYNC[n < 256] (R309), access RW. -/
def BRS_GSYNC (n : Nat) : Nat := 0xA0020 + 0x40 * n

/-- BRS_STAT[n < 256] (R309), access RO. -/
def BRS_STAT (n : Nat) : Nat := 0xA0024 + 0x40 * n

/-- BRS_STAT.ALLOC. -/
def BRS_STAT_ALLOC (n : Nat) : Fld := ⟨BRS_STAT n, 31, 31⟩

/-- BRS_STAT.PAIRED. -/
def BRS_STAT_PAIRED (n : Nat) : Fld := ⟨BRS_STAT n, 30, 30⟩

/-- BRS_STAT.CH1. -/
def BRS_STAT_CH1 (n : Nat) : Fld := ⟨BRS_STAT n, 3, 2⟩

/-- BRS_STAT.CH0. -/
def BRS_STAT_CH0 (n : Nat) : Fld := ⟨BRS_STAT n, 1, 0⟩

/-- BRS_EVT[n < 256] (R309), access W1C. -/
def BRS_EVT (n : Nat) : Nat := 0xA0028 + 0x40 * n

/-- BRS_EVT.LOST. -/
def BRS_EVT_LOST (n : Nat) : Fld := ⟨BRS_EVT n, 7, 7⟩

/-- BRS_EVT.MISSED. -/
def BRS_EVT_MISSED (n : Nat) : Fld := ⟨BRS_EVT n, 6, 6⟩

/-- BRS_EVT.COLLIDED. -/
def BRS_EVT_COLLIDED (n : Nat) : Fld := ⟨BRS_EVT n, 5, 5⟩

/-- BRS_EVT.FALSESTART. -/
def BRS_EVT_FALSESTART (n : Nat) : Fld := ⟨BRS_EVT n, 4, 4⟩

/-- BRS_EVT.TIMEOUT. -/
def BRS_EVT_TIMEOUT (n : Nat) : Fld := ⟨BRS_EVT n, 3, 3⟩

/-- BRS_EVT.BADFRAME. -/
def BRS_EVT_BADFRAME (n : Nat) : Fld := ⟨BRS_EVT n, 2, 2⟩

/-- BRS_EVT.GOOD. -/
def BRS_EVT_GOOD (n : Nat) : Fld := ⟨BRS_EVT n, 1, 1⟩

/-- BRS_EVT.DETECT. -/
def BRS_EVT_DETECT (n : Nat) : Fld := ⟨BRS_EVT n, 0, 0⟩

/-- BRS_CNT0[n < 256] (R309), access RO. -/
def BRS_CNT0 (n : Nat) : Nat := 0xA002C + 0x40 * n

/-- BRS_CNT0.GOOD. -/
def BRS_CNT0_GOOD (n : Nat) : Fld := ⟨BRS_CNT0 n, 31, 16⟩

/-- BRS_CNT0.BAD_FRAME. -/
def BRS_CNT0_BAD_FRAME (n : Nat) : Fld := ⟨BRS_CNT0 n, 15, 0⟩

/-- BRS_CNT1[n < 256] (R309), access RO. -/
def BRS_CNT1 (n : Nat) : Nat := 0xA0030 + 0x40 * n

/-- BRS_CNT1.FALSE_START. -/
def BRS_CNT1_FALSE_START (n : Nat) : Fld := ⟨BRS_CNT1 n, 31, 16⟩

/-- BRS_CNT1.COLLIDED. -/
def BRS_CNT1_COLLIDED (n : Nat) : Fld := ⟨BRS_CNT1 n, 15, 0⟩

/-- BRS_CNT2[n < 256] (R309), access RO. -/
def BRS_CNT2 (n : Nat) : Nat := 0xA0034 + 0x40 * n

/-- BRS_CNT2.MISSED_UNDER. -/
def BRS_CNT2_MISSED_UNDER (n : Nat) : Fld := ⟨BRS_CNT2 n, 31, 16⟩

/-- BRS_CNT2.NO_START. -/
def BRS_CNT2_NO_START (n : Nat) : Fld := ⟨BRS_CNT2 n, 15, 0⟩

/-- BRS_FRES[n < 256] (R309), access RO. -/
def BRS_FRES (n : Nat) : Nat := 0xA0038 + 0x40 * n

/-- WIT_CTRL (R355), access RWO. -/
def WIT_CTRL : Nat := 0xB0000

/-- WIT_CTRL.OBS_EN. -/
def WIT_CTRL_OBS_EN : Fld := ⟨WIT_CTRL, 1, 1⟩

/-- WIT_CTRL.EVT_EN. -/
def WIT_CTRL_EVT_EN : Fld := ⟨WIT_CTRL, 0, 0⟩

/-- WIT_CFG (R355), access RWO. -/
def WIT_CFG : Nat := 0xB0004

/-- WIT_CFG.INTERVAL. -/
def WIT_CFG_INTERVAL : Fld := ⟨WIT_CFG, 31, 20⟩

/-- WIT_CFG.LAG. -/
def WIT_CFG_LAG : Fld := ⟨WIT_CFG, 19, 8⟩

/-- WIT_CFG.MAXOBS. -/
def WIT_CFG_MAXOBS : Fld := ⟨WIT_CFG, 7, 0⟩

/-- WIT_STAT (R355), access RO. -/
def WIT_STAT : Nat := 0xB0008

/-- WIT_STAT.NOJOURNAL. -/
def WIT_STAT_NOJOURNAL : Fld := ⟨WIT_STAT, 31, 31⟩

/-- WIT_STAT.STAGEFULL. -/
def WIT_STAT_STAGEFULL : Fld := ⟨WIT_STAT, 30, 30⟩

/-- WIT_STAT.EPOCH_FULL. -/
def WIT_STAT_EPOCH_FULL : Fld := ⟨WIT_STAT, 29, 29⟩

/-- WIT_STAT.STAGED. -/
def WIT_STAT_STAGED : Fld := ⟨WIT_STAT, 16, 8⟩

/-- WIT_STAT.EPOCH. -/
def WIT_STAT_EPOCH : Fld := ⟨WIT_STAT, 7, 0⟩

/-- WIT_EVT (R355), access W1C. -/
def WIT_EVT : Nat := 0xB000C

/-- WIT_EVT.GENESIS. -/
def WIT_EVT_GENESIS : Fld := ⟨WIT_EVT, 5, 5⟩

/-- WIT_EVT.SKIP. -/
def WIT_EVT_SKIP : Fld := ⟨WIT_EVT, 4, 4⟩

/-- WIT_EVT.LATE. -/
def WIT_EVT_LATE : Fld := ⟨WIT_EVT, 3, 3⟩

/-- WIT_EVT.DISCARD. -/
def WIT_EVT_DISCARD : Fld := ⟨WIT_EVT, 2, 2⟩

/-- WIT_EVT.DROPPED. -/
def WIT_EVT_DROPPED : Fld := ⟨WIT_EVT, 1, 1⟩

/-- WIT_EVT.COMMIT. -/
def WIT_EVT_COMMIT : Fld := ⟨WIT_EVT, 0, 0⟩

/-- WIT_SEQ_LO (R355), access RO. -/
def WIT_SEQ_LO : Nat := 0xB0010

/-- WIT_SEQ_HI (R355), access RO. -/
def WIT_SEQ_HI : Nat := 0xB0014

/-- WIT_OLDEST_LO (R355), access RO. -/
def WIT_OLDEST_LO : Nat := 0xB0018

/-- WIT_OLDEST_HI (R355), access RO. -/
def WIT_OLDEST_HI : Nat := 0xB001C

/-- WIT_HEAD[i < 8] (R355), access RO. -/
def WIT_HEAD (i : Nat) : Nat := 0xB0020 + 0x4 * i

/-- WIT_CNT0 (R355), access RO. -/
def WIT_CNT0 : Nat := 0xB0040

/-- WIT_CNT0.LATE. -/
def WIT_CNT0_LATE : Fld := ⟨WIT_CNT0, 31, 16⟩

/-- WIT_CNT0.DISCARD. -/
def WIT_CNT0_DISCARD : Fld := ⟨WIT_CNT0, 15, 0⟩

/-- WIT_CNT1 (R355), access RO. -/
def WIT_CNT1 : Nat := 0xB0044

/-- WIT_CNT1.DROPPED. -/
def WIT_CNT1_DROPPED : Fld := ⟨WIT_CNT1, 31, 16⟩

/-- WIT_CNT1.SKIP. -/
def WIT_CNT1_SKIP : Fld := ⟨WIT_CNT1, 15, 0⟩

/-- WIT_NEXTREF_LO (R355), access RO. -/
def WIT_NEXTREF_LO : Nat := 0xB0048

/-- WIT_NEXTREF_HI (R355), access RO. -/
def WIT_NEXTREF_HI : Nat := 0xB004C

/-- KEY_CTRL (R355), access WO. -/
def KEY_CTRL : Nat := 0xB8000

/-- KEY_CTRL.ENROL. -/
def KEY_CTRL_ENROL : Fld := ⟨KEY_CTRL, 31, 31⟩

/-- KEY_CTRL.ROLL. -/
def KEY_CTRL_ROLL : Fld := ⟨KEY_CTRL, 30, 30⟩

/-- KEY_CTRL.RELEASE. -/
def KEY_CTRL_RELEASE : Fld := ⟨KEY_CTRL, 29, 29⟩

/-- KEY_STAT (R355), access RO. -/
def KEY_STAT : Nat := 0xB8004

/-- KEY_STAT.OWK. -/
def KEY_STAT_OWK : Fld := ⟨KEY_STAT, 31, 31⟩

/-- KEY_STAT.BUSY. -/
def KEY_STAT_BUSY : Fld := ⟨KEY_STAT, 30, 30⟩

/-- KEY_STAT.RESULT. -/
def KEY_STAT_RESULT : Fld := ⟨KEY_STAT, 7, 0⟩

/-- KEY_EVT (R355), access W1C. -/
def KEY_EVT : Nat := 0xB8008

/-- KEY_EVT.LOST. -/
def KEY_EVT_LOST : Fld := ⟨KEY_EVT, 1, 1⟩

/-- KEY_EVT.DONE. -/
def KEY_EVT_DONE : Fld := ⟨KEY_EVT, 0, 0⟩

/-- KEY_DIK_KID_LO (R355), access RO. -/
def KEY_DIK_KID_LO : Nat := 0xB8010

/-- KEY_DIK_KID_HI (R355), access RO. -/
def KEY_DIK_KID_HI : Nat := 0xB8014

/-- KEY_OWK_KID_LO (R355), access RO. -/
def KEY_OWK_KID_LO : Nat := 0xB8018

/-- KEY_OWK_KID_HI (R355), access RO. -/
def KEY_OWK_KID_HI : Nat := 0xB801C

/-- KEY_DIK_PUB[i < 16] (R355), access RO. -/
def KEY_DIK_PUB (i : Nat) : Nat := 0xB8040 + 0x4 * i

/-- KEY_OWK_PUB[i < 16] (R355), access RO. -/
def KEY_OWK_PUB (i : Nat) : Nat := 0xB8080 + 0x4 * i

/-- KEY_CERTLEN[c < 3] (R355), access RO. -/
def KEY_CERTLEN (c : Nat) : Nat := 0xB80C0 + 0x4 * c

/-- KEY_CERTWIN[i < 2048] (R355), access RO. -/
def KEY_CERTWIN (i : Nat) : Nat := 0xB9000 + 0x4 * i

/-- FST_CTRL (R389), access per field. -/
def FST_CTRL : Nat := 0xC0000

/-- FST_CTRL.FORMAT. -/
def FST_CTRL_FORMAT : Fld := ⟨FST_CTRL, 31, 31⟩

/-- FST_CTRL.SCRUBNOW. -/
def FST_CTRL_SCRUBNOW : Fld := ⟨FST_CTRL, 30, 30⟩

/-- FST_CTRL.FORCE. -/
def FST_CTRL_FORCE : Fld := ⟨FST_CTRL, 3, 3⟩

/-- FST_CTRL.BULKWRAP. -/
def FST_CTRL_BULKWRAP : Fld := ⟨FST_CTRL, 2, 2⟩

/-- FST_CTRL.WL. -/
def FST_CTRL_WL : Fld := ⟨FST_CTRL, 1, 1⟩

/-- FST_CTRL.SCRUB. -/
def FST_CTRL_SCRUB : Fld := ⟨FST_CTRL, 0, 0⟩

/-- FST_STAT (R389), access RO. -/
def FST_STAT : Nat := 0xC0004

/-- FST_STAT.STATE. -/
def FST_STAT_STATE : Fld := ⟨FST_STAT, 31, 29⟩

/-- FST_STAT.READONLY. -/
def FST_STAT_READONLY : Fld := ⟨FST_STAT, 28, 28⟩

/-- FST_STAT.PSLCNAT. -/
def FST_STAT_PSLCNAT : Fld := ⟨FST_STAT, 27, 27⟩

/-- FST_STAT.RETUNK. -/
def FST_STAT_RETUNK : Fld := ⟨FST_STAT, 26, 26⟩

/-- FST_STAT.FULLSCAN. -/
def FST_STAT_FULLSCAN : Fld := ⟨FST_STAT, 25, 25⟩

/-- FST_STAT.SPARELOW. -/
def FST_STAT_SPARELOW : Fld := ⟨FST_STAT, 24, 24⟩

/-- FST_STAT.TARGETS. -/
def FST_STAT_TARGETS : Fld := ⟨FST_STAT, 23, 20⟩

/-- FST_STAT.N. -/
def FST_STAT_N : Fld := ⟨FST_STAT, 14, 8⟩

/-- FST_EVT (R389), access W1C. -/
def FST_EVT : Nat := 0xC0008

/-- FST_EVT.FMT_FAIL. -/
def FST_EVT_FMT_FAIL : Fld := ⟨FST_EVT, 9, 9⟩

/-- FST_EVT.FORMATTED. -/
def FST_EVT_FORMATTED : Fld := ⟨FST_EVT, 8, 8⟩

/-- FST_EVT.MOUNTED. -/
def FST_EVT_MOUNTED : Fld := ⟨FST_EVT, 7, 7⟩

/-- FST_EVT.TMISS. -/
def FST_EVT_TMISS : Fld := ⟨FST_EVT, 6, 6⟩

/-- FST_EVT.DISCARD. -/
def FST_EVT_DISCARD : Fld := ⟨FST_EVT, 5, 5⟩

/-- FST_EVT.RETUNK. -/
def FST_EVT_RETUNK : Fld := ⟨FST_EVT, 4, 4⟩

/-- FST_EVT.SPARELOW. -/
def FST_EVT_SPARELOW : Fld := ⟨FST_EVT, 3, 3⟩

/-- FST_EVT.RETIRED. -/
def FST_EVT_RETIRED : Fld := ⟨FST_EVT, 2, 2⟩

/-- FST_EVT.REFRESH. -/
def FST_EVT_REFRESH : Fld := ⟨FST_EVT, 1, 1⟩

/-- FST_EVT.LOST. -/
def FST_EVT_LOST : Fld := ⟨FST_EVT, 0, 0⟩

/-- FST_GEOM (R389), access RO. -/
def FST_GEOM : Nat := 0xC000C

/-- FST_GEOM.PAGEKIB. -/
def FST_GEOM_PAGEKIB : Fld := ⟨FST_GEOM, 31, 24⟩

/-- FST_GEOM.BITS. -/
def FST_GEOM_BITS : Fld := ⟨FST_GEOM, 23, 20⟩

/-- FST_GEOM.BLOCKS. -/
def FST_GEOM_BLOCKS : Fld := ⟨FST_GEOM, 19, 0⟩

/-- FST_PSLC (R389), access RWO. -/
def FST_PSLC : Nat := 0xC0010

/-- FST_PSLC.PREFIX. -/
def FST_PSLC_PREFIX : Fld := ⟨FST_PSLC, 7, 0⟩

/-- FST_ENDUR (R389), access RWO. -/
def FST_ENDUR : Nat := 0xC0014

/-- FST_ENDUR.NATIVE. -/
def FST_ENDUR_NATIVE : Fld := ⟨FST_ENDUR, 31, 16⟩

/-- FST_ENDUR.PSLC. -/
def FST_ENDUR_PSLC : Fld := ⟨FST_ENDUR, 15, 0⟩

/-- FST_RET (R389), access RWO. -/
def FST_RET : Nat := 0xC0018

/-- FST_RET.EA. -/
def FST_RET_EA : Fld := ⟨FST_RET, 31, 24⟩

/-- FST_RET.REFRAC. -/
def FST_RET_REFRAC : Fld := ⟨FST_RET, 23, 16⟩

/-- FST_RET.TOFS. -/
def FST_RET_TOFS : Fld := ⟨FST_RET, 15, 8⟩

/-- FST_RET.UNKDAYS. -/
def FST_RET_UNKDAYS : Fld := ⟨FST_RET, 7, 0⟩

/-- FST_RETLIM (R389), access RWO. -/
def FST_RETLIM : Nat := 0xC001C

/-- FST_RETLIM.PSLC. -/
def FST_RETLIM_PSLC : Fld := ⟨FST_RETLIM, 31, 16⟩

/-- FST_RETLIM.NATIVE. -/
def FST_RETLIM_NATIVE : Fld := ⟨FST_RETLIM, 15, 0⟩

/-- FST_SCRUB (R389), access RWO. -/
def FST_SCRUB : Nat := 0xC0020

/-- FST_SCRUB.PERIOD. -/
def FST_SCRUB_PERIOD : Fld := ⟨FST_SCRUB, 31, 20⟩

/-- FST_SCRUB.REFRESH. -/
def FST_SCRUB_REFRESH : Fld := ⟨FST_SCRUB, 19, 12⟩

/-- FST_SCRUB.RETIRE. -/
def FST_SCRUB_RETIRE : Fld := ⟨FST_SCRUB, 11, 4⟩

/-- FST_PLACE (R389), access RWO. -/
def FST_PLACE : Nat := 0xC0024

/-- FST_PLACE.TLO. -/
def FST_PLACE_TLO : Fld := ⟨FST_PLACE, 31, 24⟩

/-- FST_PLACE.THI. -/
def FST_PLACE_THI : Fld := ⟨FST_PLACE, 23, 16⟩

/-- FST_PLACE.TDEFER. -/
def FST_PLACE_TDEFER : Fld := ⟨FST_PLACE, 15, 4⟩

/-- FST_WL (R389), access RWO. -/
def FST_WL : Nat := 0xC0028

/-- FST_WL.NATIVE. -/
def FST_WL_NATIVE : Fld := ⟨FST_WL, 31, 16⟩

/-- FST_WL.PSLC. -/
def FST_WL_PSLC : Fld := ⟨FST_WL, 15, 0⟩

/-- FST_NATIVE (R389), access RWO. -/
def FST_NATIVE : Nat := 0xC002C

/-- FST_NATIVE.FLUSH. -/
def FST_NATIVE_FLUSH : Fld := ⟨FST_NATIVE, 15, 8⟩

/-- FST_NATIVE.PAIRDIST. -/
def FST_NATIVE_PAIRDIST : Fld := ⟨FST_NATIVE, 7, 0⟩

/-- FST_ZONE[z < 4] (R389), access RWS. -/
def FST_ZONE (z : Nat) : Nat := 0xC0030 + 0x4 * z

/-- FST_ZFREE[z < 4] (R389), access RO. -/
def FST_ZFREE (z : Nat) : Nat := 0xC0040 + 0x4 * z

/-- FST_RETACC_LO (R389), access RO. -/
def FST_RETACC_LO : Nat := 0xC0050

/-- FST_RETACC_HI (R389), access RO. -/
def FST_RETACC_HI : Nat := 0xC0054

/-- FST_OP (R389), access RO. -/
def FST_OP : Nat := 0xC0058

/-- FST_OP.OP. -/
def FST_OP_OP : Fld := ⟨FST_OP, 31, 28⟩

/-- FST_OP.TARGET. -/
def FST_OP_TARGET : Fld := ⟨FST_OP, 27, 26⟩

/-- FST_OP.ZONE. -/
def FST_OP_ZONE : Fld := ⟨FST_OP, 25, 23⟩

/-- FST_CNT0 (R389), access RO. -/
def FST_CNT0 : Nat := 0xC0060

/-- FST_CNT0.RETIRED. -/
def FST_CNT0_RETIRED : Fld := ⟨FST_CNT0, 31, 16⟩

/-- FST_CNT0.FACTORY. -/
def FST_CNT0_FACTORY : Fld := ⟨FST_CNT0, 15, 0⟩

/-- FST_CNT1 (R389), access RO. -/
def FST_CNT1 : Nat := 0xC0064

/-- FST_CNT1.REFRESHES. -/
def FST_CNT1_REFRESHES : Fld := ⟨FST_CNT1, 31, 16⟩

/-- FST_CNT1.LOST. -/
def FST_CNT1_LOST : Fld := ⟨FST_CNT1, 15, 0⟩

/-- FST_CNT2 (R389), access RO. -/
def FST_CNT2 : Nat := 0xC0068

/-- FST_CNT2.SOFT. -/
def FST_CNT2_SOFT : Fld := ⟨FST_CNT2, 31, 16⟩

/-- FST_CNT2.RETRY. -/
def FST_CNT2_RETRY : Fld := ⟨FST_CNT2, 15, 0⟩

/-- FST_WEAR (R389), access RO. -/
def FST_WEAR : Nat := 0xC006C

/-- FST_WEAR.NATIVE. -/
def FST_WEAR_NATIVE : Fld := ⟨FST_WEAR, 31, 24⟩

/-- FST_WEAR.PSLC. -/
def FST_WEAR_PSLC : Fld := ⟨FST_WEAR, 23, 16⟩

/-- FST_TUSE[t < 4] (R389), access RO. -/
def FST_TUSE (t : Nat) : Nat := 0xC0070 + 0x4 * t

/-- FST_TGT[c < 4] (R389), access RO. -/
def FST_TGT (c : Nat) : Nat := 0xC0080 + 0x4 * c

/-- FST_TGT.PRESENT. -/
def FST_TGT_PRESENT (c : Nat) : Fld := ⟨FST_TGT c, 31, 31⟩

/-- FST_TGT.LUNSM1. -/
def FST_TGT_LUNSM1 (c : Nat) : Fld := ⟨FST_TGT c, 30, 28⟩

/-- FST_TGT.MODE. -/
def FST_TGT_MODE (c : Nat) : Fld := ⟨FST_TGT c, 7, 0⟩

/-- HST_CTRL[t < 4] (R419), access per field. -/
def HST_CTRL (t : Nat) : Nat := 0xD0000 + 0x2000000 * t

/-- HST_CTRL.TRESET. -/
def HST_CTRL_TRESET (t : Nat) : Fld := ⟨HST_CTRL t, 31, 31⟩

/-- HST_CTRL.RING_EN. -/
def HST_CTRL_RING_EN (t : Nat) : Fld := ⟨HST_CTRL t, 30, 30⟩

/-- HST_STAT[t < 4] (R419), access RO. -/
def HST_STAT (t : Nat) : Nat := 0xD0004 + 0x2000000 * t

/-- HST_STAT.TENANT. -/
def HST_STAT_TENANT (t : Nat) : Fld := ⟨HST_STAT t, 31, 30⟩

/-- HST_STAT.PORTS. -/
def HST_STAT_PORTS (t : Nat) : Fld := ⟨HST_STAT t, 29, 26⟩

/-- HST_STAT.RPORT. -/
def HST_STAT_RPORT (t : Nat) : Fld := ⟨HST_STAT t, 25, 24⟩

/-- HST_STAT.RINGS. -/
def HST_STAT_RINGS (t : Nat) : Fld := ⟨HST_STAT t, 23, 23⟩

/-- HST_STAT.PROOF. -/
def HST_STAT_PROOF (t : Nat) : Fld := ⟨HST_STAT t, 22, 22⟩

/-- HST_STAT.OWNED. -/
def HST_STAT_OWNED (t : Nat) : Fld := ⟨HST_STAT t, 21, 21⟩

/-- HST_STAT.CPLFULL. -/
def HST_STAT_CPLFULL (t : Nat) : Fld := ⟨HST_STAT t, 20, 20⟩

/-- HST_STAT.EVPEND. -/
def HST_STAT_EVPEND (t : Nat) : Fld := ⟨HST_STAT t, 19, 19⟩

/-- HST_STAT.LOADING. -/
def HST_STAT_LOADING (t : Nat) : Fld := ⟨HST_STAT t, 18, 18⟩

/-- HST_ICAUSE[t < 4] (R419), access W1C. -/
def HST_ICAUSE (t : Nat) : Nat := 0xD0008 + 0x2000000 * t

/-- HST_ICAUSE.STREAM. -/
def HST_ICAUSE_STREAM (t : Nat) : Fld := ⟨HST_ICAUSE t, 6, 6⟩

/-- HST_ICAUSE.SNAP. -/
def HST_ICAUSE_SNAP (t : Nat) : Fld := ⟨HST_ICAUSE t, 5, 5⟩

/-- HST_ICAUSE.TENANCY. -/
def HST_ICAUSE_TENANCY (t : Nat) : Fld := ⟨HST_ICAUSE t, 4, 4⟩

/-- HST_ICAUSE.PORTERR. -/
def HST_ICAUSE_PORTERR (t : Nat) : Fld := ⟨HST_ICAUSE t, 3, 3⟩

/-- HST_ICAUSE.VIEW. -/
def HST_ICAUSE_VIEW (t : Nat) : Fld := ⟨HST_ICAUSE t, 2, 2⟩

/-- HST_ICAUSE.TRIP. -/
def HST_ICAUSE_TRIP (t : Nat) : Fld := ⟨HST_ICAUSE t, 1, 1⟩

/-- HST_ICAUSE.CPL. -/
def HST_ICAUSE_CPL (t : Nat) : Fld := ⟨HST_ICAUSE t, 0, 0⟩

/-- HST_IMASK[t < 4] (R419), access RW. -/
def HST_IMASK (t : Nat) : Nat := 0xD000C + 0x2000000 * t

/-- HST_IMASK.STREAM. -/
def HST_IMASK_STREAM (t : Nat) : Fld := ⟨HST_IMASK t, 6, 6⟩

/-- HST_IMASK.SNAP. -/
def HST_IMASK_SNAP (t : Nat) : Fld := ⟨HST_IMASK t, 5, 5⟩

/-- HST_IMASK.TENANCY. -/
def HST_IMASK_TENANCY (t : Nat) : Fld := ⟨HST_IMASK t, 4, 4⟩

/-- HST_IMASK.PORTERR. -/
def HST_IMASK_PORTERR (t : Nat) : Fld := ⟨HST_IMASK t, 3, 3⟩

/-- HST_IMASK.VIEW. -/
def HST_IMASK_VIEW (t : Nat) : Fld := ⟨HST_IMASK t, 2, 2⟩

/-- HST_IMASK.TRIP. -/
def HST_IMASK_TRIP (t : Nat) : Fld := ⟨HST_IMASK t, 1, 1⟩

/-- HST_IMASK.CPL. -/
def HST_IMASK_CPL (t : Nat) : Fld := ⟨HST_IMASK t, 0, 0⟩

/-- HST_ICOAL[t < 4] (R419), access RW. -/
def HST_ICOAL (t : Nat) : Nat := 0xD0010 + 0x2000000 * t

/-- HST_ICOAL.CNT. -/
def HST_ICOAL_CNT (t : Nat) : Fld := ⟨HST_ICOAL t, 31, 24⟩

/-- HST_ICOAL.TMO. -/
def HST_ICOAL_TMO (t : Nat) : Fld := ⟨HST_ICOAL t, 15, 0⟩

/-- HST_ERR[t < 4] (R419), access RO. -/
def HST_ERR (t : Nat) : Nat := 0xD0014 + 0x2000000 * t

/-- HST_ERRCNT[t < 4] (R419), access RO. -/
def HST_ERRCNT (t : Nat) : Nat := 0xD0018 + 0x2000000 * t

/-- HST_ERRCNT.VIEW. -/
def HST_ERRCNT_VIEW (t : Nat) : Fld := ⟨HST_ERRCNT t, 31, 16⟩

/-- HST_ERRCNT.PORT. -/
def HST_ERRCNT_PORT (t : Nat) : Fld := ⟨HST_ERRCNT t, 15, 0⟩

/-- HST_LOSTCPL[t < 4] (R419), access RO. -/
def HST_LOSTCPL (t : Nat) : Nat := 0xD001C + 0x2000000 * t

/-- HST_CQ_BASE_LO[t < 4] (R419), access RW. -/
def HST_CQ_BASE_LO (t : Nat) : Nat := 0xD0020 + 0x2000000 * t

/-- HST_CQ_BASE_HI[t < 4] (R419), access RW. -/
def HST_CQ_BASE_HI (t : Nat) : Nat := 0xD0024 + 0x2000000 * t

/-- HST_CPL_BASE_LO[t < 4] (R419), access RW. -/
def HST_CPL_BASE_LO (t : Nat) : Nat := 0xD0028 + 0x2000000 * t

/-- HST_CPL_BASE_HI[t < 4] (R419), access RW. -/
def HST_CPL_BASE_HI (t : Nat) : Nat := 0xD002C + 0x2000000 * t

/-- HST_CQ_TAIL[t < 4] (R419), access RW. -/
def HST_CQ_TAIL (t : Nat) : Nat := 0xD0030 + 0x2000000 * t

/-- HST_CQ_HEAD[t < 4] (R419), access RO. -/
def HST_CQ_HEAD (t : Nat) : Nat := 0xD0034 + 0x2000000 * t

/-- HST_CPL_HEAD[t < 4] (R419), access RW. -/
def HST_CPL_HEAD (t : Nat) : Nat := 0xD0038 + 0x2000000 * t

/-- HST_CPL_TAIL[t < 4] (R419), access RO. -/
def HST_CPL_TAIL (t : Nat) : Nat := 0xD003C + 0x2000000 * t

/-- HST_SRD[t < 4][k < 32] (R419), access RW. -/
def HST_SRD (t : Nat) (k : Nat) : Nat := 0xD0100 + 0x2000000 * t + 0x8 * k

/-- HST_SWR[t < 4][k < 32] (R419), access RO. -/
def HST_SWR (t : Nat) (k : Nat) : Nat := 0xD0104 + 0x2000000 * t + 0x8 * k

/-- HST_DATAWIN[t < 4][i < 4096] (R406), access RW. -/
def HST_DATAWIN (t : Nat) (i : Nat) : Nat := 0xD4000 + 0x2000000 * t + 0x4 * i

/-- HST_CQWIN[t < 4][i < 4096] (R404), access RW. -/
def HST_CQWIN (t : Nat) (i : Nat) : Nat := 0xD8000 + 0x2000000 * t + 0x4 * i

/-- HST_CPLWIN[t < 4][i < 4096] (R404), access RO. -/
def HST_CPLWIN (t : Nat) (i : Nat) : Nat := 0xDC000 + 0x2000000 * t + 0x4 * i

/-- TW_CTRL[b < 2] (R438), access per field. -/
def TW_CTRL (b : Nat) : Nat := 0xE0000 + 0x1000 * b

/-- TW_CTRL.CLEAR. -/
def TW_CTRL_CLEAR (b : Nat) : Fld := ⟨TW_CTRL b, 31, 31⟩

/-- TW_CTRL.MODE. -/
def TW_CTRL_MODE (b : Nat) : Fld := ⟨TW_CTRL b, 5, 4⟩

/-- TW_CTRL.PEC. -/
def TW_CTRL_PEC (b : Nat) : Fld := ⟨TW_CTRL b, 3, 3⟩

/-- TW_CTRL.HNEN. -/
def TW_CTRL_HNEN (b : Nat) : Fld := ⟨TW_CTRL b, 2, 2⟩

/-- TW_CTRL.ARAEN. -/
def TW_CTRL_ARAEN (b : Nat) : Fld := ⟨TW_CTRL b, 1, 1⟩

/-- TW_STAT[b < 2] (R438), access RO. -/
def TW_STAT (b : Nat) : Nat := 0xE0004 + 0x1000 * b

/-- TW_STAT.STUCK. -/
def TW_STAT_STUCK (b : Nat) : Fld := ⟨TW_STAT b, 31, 31⟩

/-- TW_STAT.BUSY. -/
def TW_STAT_BUSY (b : Nat) : Fld := ⟨TW_STAT b, 30, 30⟩

/-- TW_STAT.ACTIVE. -/
def TW_STAT_ACTIVE (b : Nat) : Fld := ⟨TW_STAT b, 29, 29⟩

/-- TW_STAT.MARGIN. -/
def TW_STAT_MARGIN (b : Nat) : Fld := ⟨TW_STAT b, 28, 28⟩

/-- TW_STAT.TR_MAX. -/
def TW_STAT_TR_MAX (b : Nat) : Fld := ⟨TW_STAT b, 27, 27⟩

/-- TW_STAT.ADDR. -/
def TW_STAT_ADDR (b : Nat) : Fld := ⟨TW_STAT b, 6, 0⟩

/-- TW_EVT[b < 2] (R438), access W1C. -/
def TW_EVT (b : Nat) : Nat := 0xE0008 + 0x1000 * b

/-- TW_EVT.PEC_ERR. -/
def TW_EVT_PEC_ERR (b : Nat) : Fld := ⟨TW_EVT b, 9, 9⟩

/-- TW_EVT.HN_FAIL. -/
def TW_EVT_HN_FAIL (b : Nat) : Fld := ⟨TW_EVT b, 8, 8⟩

/-- TW_EVT.UNSTUCK. -/
def TW_EVT_UNSTUCK (b : Nat) : Fld := ⟨TW_EVT b, 7, 7⟩

/-- TW_EVT.STUCK. -/
def TW_EVT_STUCK (b : Nat) : Fld := ⟨TW_EVT b, 6, 6⟩

/-- TW_EVT.RSTART_ABORT. -/
def TW_EVT_RSTART_ABORT (b : Nat) : Fld := ⟨TW_EVT b, 5, 5⟩

/-- TW_EVT.TIMEOUT. -/
def TW_EVT_TIMEOUT (b : Nat) : Fld := ⟨TW_EVT b, 4, 4⟩

/-- TW_EVT.ARB_LOST. -/
def TW_EVT_ARB_LOST (b : Nat) : Fld := ⟨TW_EVT b, 3, 3⟩

/-- TW_EVT.NACK. -/
def TW_EVT_NACK (b : Nat) : Fld := ⟨TW_EVT b, 2, 2⟩

/-- TW_EVT.MARGIN. -/
def TW_EVT_MARGIN (b : Nat) : Fld := ⟨TW_EVT b, 1, 1⟩

/-- TW_EVT.TR_MAX. -/
def TW_EVT_TR_MAX (b : Nat) : Fld := ⟨TW_EVT b, 0, 0⟩

/-- TW_TIM0[b < 2] (R438), access RWO. -/
def TW_TIM0 (b : Nat) : Nat := 0xE000C + 0x1000 * b

/-- TW_TIM0.TLOW. -/
def TW_TIM0_TLOW (b : Nat) : Fld := ⟨TW_TIM0 b, 31, 24⟩

/-- TW_TIM0.THIGH. -/
def TW_TIM0_THIGH (b : Nat) : Fld := ⟨TW_TIM0 b, 23, 16⟩

/-- TW_TIM0.THD_STA. -/
def TW_TIM0_THD_STA (b : Nat) : Fld := ⟨TW_TIM0 b, 15, 8⟩

/-- TW_TIM0.TSU_STA. -/
def TW_TIM0_TSU_STA (b : Nat) : Fld := ⟨TW_TIM0 b, 7, 0⟩

/-- TW_TIM1[b < 2] (R438), access RWO. -/
def TW_TIM1 (b : Nat) : Nat := 0xE0010 + 0x1000 * b

/-- TW_TIM1.TSU_STO. -/
def TW_TIM1_TSU_STO (b : Nat) : Fld := ⟨TW_TIM1 b, 31, 24⟩

/-- TW_TIM1.TBUF. -/
def TW_TIM1_TBUF (b : Nat) : Fld := ⟨TW_TIM1 b, 23, 16⟩

/-- TW_TIM1.THD_DAT. -/
def TW_TIM1_THD_DAT (b : Nat) : Fld := ⟨TW_TIM1 b, 15, 8⟩

/-- TW_TIM1.TSU_DAT. -/
def TW_TIM1_TSU_DAT (b : Nat) : Fld := ⟨TW_TIM1 b, 7, 0⟩

/-- TW_TIM2[b < 2] (R438), access RWO. -/
def TW_TIM2 (b : Nat) : Nat := 0xE0014 + 0x1000 * b

/-- TW_TIM2.SPIKE. -/
def TW_TIM2_SPIKE (b : Nat) : Fld := ⟨TW_TIM2 b, 3, 0⟩

/-- TW_RISE[b < 2] (R438), access RO. -/
def TW_RISE (b : Nat) : Nat := 0xE0018 + 0x1000 * b

/-- TW_RISE.MINLOW. -/
def TW_RISE_MINLOW (b : Nat) : Fld := ⟨TW_RISE b, 31, 16⟩

/-- TW_RISE.MAXRISE. -/
def TW_RISE_MAXRISE (b : Nat) : Fld := ⟨TW_RISE b, 15, 0⟩

/-- TW_CNT[b < 2] (R438), access RO. -/
def TW_CNT (b : Nat) : Nat := 0xE001C + 0x1000 * b

/-- TW_CNT.ARB. -/
def TW_CNT_ARB (b : Nat) : Fld := ⟨TW_CNT b, 31, 16⟩

/-- TW_CNT.CLEARS. -/
def TW_CNT_CLEARS (b : Nat) : Fld := ⟨TW_CNT b, 15, 0⟩

/-- BKP_CTRL (R457), access per field. -/
def BKP_CTRL : Nat := 0xF0000

/-- BKP_CTRL.CAPTURE. -/
def BKP_CTRL_CAPTURE : Fld := ⟨BKP_CTRL, 31, 31⟩

/-- BKP_CTRL.LOAD. -/
def BKP_CTRL_LOAD : Fld := ⟨BKP_CTRL, 30, 30⟩

/-- BKP_CTRL.LOADCAL. -/
def BKP_CTRL_LOADCAL : Fld := ⟨BKP_CTRL, 29, 29⟩

/-- BKP_CTRL.SQWSEL. -/
def BKP_CTRL_SQWSEL : Fld := ⟨BKP_CTRL, 1, 0⟩

/-- BKP_STAT (R457), access RO. -/
def BKP_STAT : Nat := 0xF0004

/-- BKP_STAT.ONVBAT. -/
def BKP_STAT_ONVBAT : Fld := ⟨BKP_STAT, 31, 31⟩

/-- BKP_STAT.SYNC. -/
def BKP_STAT_SYNC : Fld := ⟨BKP_STAT, 30, 30⟩

/-- BKP_STAT.DISC. -/
def BKP_STAT_DISC : Fld := ⟨BKP_STAT, 29, 29⟩

/-- BKP_STAT.TLOST. -/
def BKP_STAT_TLOST : Fld := ⟨BKP_STAT, 28, 28⟩

/-- BKP_STAT.OSCFAIL. -/
def BKP_STAT_OSCFAIL : Fld := ⟨BKP_STAT, 27, 27⟩

/-- BKP_STAT.NONCANON. -/
def BKP_STAT_NONCANON : Fld := ⟨BKP_STAT, 26, 26⟩

/-- BKP_STAT.ALM_LATE. -/
def BKP_STAT_ALM_LATE : Fld := ⟨BKP_STAT, 25, 25⟩

/-- BKP_STAT.ARMED. -/
def BKP_STAT_ARMED : Fld := ⟨BKP_STAT, 24, 24⟩

/-- BKP_STAT.PWRON. -/
def BKP_STAT_PWRON : Fld := ⟨BKP_STAT, 23, 23⟩

/-- BKP_EVT (R457), access W1C. -/
def BKP_EVT : Nat := 0xF0008

/-- BKP_EVT.WAKE. -/
def BKP_EVT_WAKE : Fld := ⟨BKP_EVT, 15, 8⟩

/-- BKP_EVT.ALARM. -/
def BKP_EVT_ALARM : Fld := ⟨BKP_EVT, 7, 7⟩

/-- BKP_EVT.TOVBAT. -/
def BKP_EVT_TOVBAT : Fld := ⟨BKP_EVT, 6, 6⟩

/-- BKP_EVT.TOAON. -/
def BKP_EVT_TOAON : Fld := ⟨BKP_EVT, 5, 5⟩

/-- BKP_EVT.TAMP1. -/
def BKP_EVT_TAMP1 : Fld := ⟨BKP_EVT, 4, 4⟩

/-- BKP_EVT.TAMP0. -/
def BKP_EVT_TAMP0 : Fld := ⟨BKP_EVT, 3, 3⟩

/-- BKP_EVT.WAKEIN. -/
def BKP_EVT_WAKEIN : Fld := ⟨BKP_EVT, 2, 2⟩

/-- BKP_EVT.OSCFAIL. -/
def BKP_EVT_OSCFAIL : Fld := ⟨BKP_EVT, 1, 1⟩

/-- BKP_EVT.LOADREF. -/
def BKP_EVT_LOADREF : Fld := ⟨BKP_EVT, 0, 0⟩

/-- BKP_SEC_LO (R457), access RO. -/
def BKP_SEC_LO : Nat := 0xF0010

/-- BKP_SEC_HI (R457), access RO. -/
def BKP_SEC_HI : Nat := 0xF0014

/-- BKP_FRAC (R457), access RO. -/
def BKP_FRAC : Nat := 0xF0018

/-- BKP_CAL_DATE (R457), access RO. -/
def BKP_CAL_DATE : Nat := 0xF001C

/-- BKP_CAL_DATE.YEAR. -/
def BKP_CAL_DATE_YEAR : Fld := ⟨BKP_CAL_DATE, 31, 16⟩

/-- BKP_CAL_DATE.MON. -/
def BKP_CAL_DATE_MON : Fld := ⟨BKP_CAL_DATE, 11, 8⟩

/-- BKP_CAL_DATE.DAY. -/
def BKP_CAL_DATE_DAY : Fld := ⟨BKP_CAL_DATE, 4, 0⟩

/-- BKP_CAL_TIME (R457), access RO. -/
def BKP_CAL_TIME : Nat := 0xF0020

/-- BKP_CAL_TIME.WDAY. -/
def BKP_CAL_TIME_WDAY : Fld := ⟨BKP_CAL_TIME, 26, 24⟩

/-- BKP_CAL_TIME.HOUR. -/
def BKP_CAL_TIME_HOUR : Fld := ⟨BKP_CAL_TIME, 20, 16⟩

/-- BKP_CAL_TIME.MIN. -/
def BKP_CAL_TIME_MIN : Fld := ⟨BKP_CAL_TIME, 13, 8⟩

/-- BKP_CAL_TIME.SEC. -/
def BKP_CAL_TIME_SEC : Fld := ⟨BKP_CAL_TIME, 5, 0⟩

/-- BKP_CSEC_LO (R457), access RO. -/
def BKP_CSEC_LO : Nat := 0xF0024

/-- BKP_CSEC_HI (R457), access RO. -/
def BKP_CSEC_HI : Nat := 0xF0028

/-- BKP_CFRAC (R457), access RO. -/
def BKP_CFRAC : Nat := 0xF002C

/-- BKP_CSTU_LO (R457), access RO. -/
def BKP_CSTU_LO : Nat := 0xF0030

/-- BKP_CSTU_HI (R457), access RO. -/
def BKP_CSTU_HI : Nat := 0xF0034

/-- BKP_SET_SEC_LO (R457), access RWS. -/
def BKP_SET_SEC_LO : Nat := 0xF0038

/-- BKP_SET_SEC_HI (R457), access RWS. -/
def BKP_SET_SEC_HI : Nat := 0xF003C

/-- BKP_SET_FRAC (R457), access RWS. -/
def BKP_SET_FRAC : Nat := 0xF0040

/-- BKP_SET_DATE (R457), access RWS. -/
def BKP_SET_DATE : Nat := 0xF0044

/-- BKP_SET_DATE.YEAR. -/
def BKP_SET_DATE_YEAR : Fld := ⟨BKP_SET_DATE, 31, 16⟩

/-- BKP_SET_DATE.MON. -/
def BKP_SET_DATE_MON : Fld := ⟨BKP_SET_DATE, 11, 8⟩

/-- BKP_SET_DATE.DAY. -/
def BKP_SET_DATE_DAY : Fld := ⟨BKP_SET_DATE, 4, 0⟩

/-- BKP_SET_TIME (R457), access RWS. -/
def BKP_SET_TIME : Nat := 0xF0048

/-- The place of WDAY, reserved in BKP_SET_TIME: it reads 0. -/
def BKP_SET_TIME_WDAY : Fld := ⟨BKP_SET_TIME, 26, 24⟩

/-- BKP_SET_TIME.HOUR. -/
def BKP_SET_TIME_HOUR : Fld := ⟨BKP_SET_TIME, 20, 16⟩

/-- BKP_SET_TIME.MIN. -/
def BKP_SET_TIME_MIN : Fld := ⟨BKP_SET_TIME, 13, 8⟩

/-- BKP_SET_TIME.SEC. -/
def BKP_SET_TIME_SEC : Fld := ⟨BKP_SET_TIME, 5, 0⟩

/-- BKP_TRIM (R457), access RWO. -/
def BKP_TRIM : Nat := 0xF004C

/-- BKP_TRIM.N. -/
def BKP_TRIM_N : Fld := ⟨BKP_TRIM, 31, 28⟩

/-- BKP_TRIM.VALUE. -/
def BKP_TRIM_VALUE : Fld := ⟨BKP_TRIM, 10, 0⟩

/-- BKP_ALM_SEC_LO (R457), access RWO. -/
def BKP_ALM_SEC_LO : Nat := 0xF0050

/-- BKP_ALM_SEC_HI (R457), access RWO. -/
def BKP_ALM_SEC_HI : Nat := 0xF0054

/-- BKP_ALM_CTRL (R457), access RWO. -/
def BKP_ALM_CTRL : Nat := 0xF0058

/-- BKP_ALM_CTRL.ARM. -/
def BKP_ALM_CTRL_ARM : Fld := ⟨BKP_ALM_CTRL, 31, 31⟩

/-- BKP_ALM_CTRL.FRAC. -/
def BKP_ALM_CTRL_FRAC : Fld := ⟨BKP_ALM_CTRL, 14, 0⟩

/-- BKP_WAKE[i < 8] (R457), access RWO. -/
def BKP_WAKE (i : Nat) : Nat := 0xF0060 + 0x4 * i

/-- BKP_WAKE.EN. -/
def BKP_WAKE_EN (i : Nat) : Fld := ⟨BKP_WAKE i, 31, 31⟩

/-- BKP_WAKE.PM1. -/
def BKP_WAKE_PM1 (i : Nat) : Fld := ⟨BKP_WAKE i, 30, 0⟩

/-- BKP_PWRON (R457), access per field. -/
def BKP_PWRON : Nat := 0xF0080

/-- BKP_PWRON.CLR. -/
def BKP_PWRON_CLR : Fld := ⟨BKP_PWRON, 31, 31⟩

/-- BKP_PWRON.CAUSE. -/
def BKP_PWRON_CAUSE : Fld := ⟨BKP_PWRON, 27, 24⟩

/-- BKP_PWRON.SRC. -/
def BKP_PWRON_SRC : Fld := ⟨BKP_PWRON, 11, 0⟩

/-- BKP_TAMP (R457), access RWO. -/
def BKP_TAMP : Nat := 0xF0084

/-- BKP_TAMP.T1EN. -/
def BKP_TAMP_T1EN : Fld := ⟨BKP_TAMP, 31, 31⟩

/-- BKP_TAMP.T1POL. -/
def BKP_TAMP_T1POL : Fld := ⟨BKP_TAMP, 30, 30⟩

/-- BKP_TAMP.T1ERASE. -/
def BKP_TAMP_T1ERASE : Fld := ⟨BKP_TAMP, 29, 29⟩

/-- BKP_TAMP.T1FILT. -/
def BKP_TAMP_T1FILT : Fld := ⟨BKP_TAMP, 27, 24⟩

/-- BKP_TAMP.WEN. -/
def BKP_TAMP_WEN : Fld := ⟨BKP_TAMP, 15, 15⟩

/-- BKP_TAMP.WPOL. -/
def BKP_TAMP_WPOL : Fld := ⟨BKP_TAMP, 14, 14⟩

/-- BKP_TAMP.WFILT. -/
def BKP_TAMP_WFILT : Fld := ⟨BKP_TAMP, 11, 8⟩

/-- BKP_TAMP.T0EN. -/
def BKP_TAMP_T0EN : Fld := ⟨BKP_TAMP, 23, 23⟩

/-- BKP_TAMP.T0POL. -/
def BKP_TAMP_T0POL : Fld := ⟨BKP_TAMP, 22, 22⟩

/-- BKP_TAMP.T0ERASE. -/
def BKP_TAMP_T0ERASE : Fld := ⟨BKP_TAMP, 21, 21⟩

/-- BKP_TAMP.T0FILT. -/
def BKP_TAMP_T0FILT : Fld := ⟨BKP_TAMP, 19, 16⟩

/-- BKP_TCNT (R457), access RO. -/
def BKP_TCNT : Nat := 0xF0088

/-- BKP_TCNT.T1. -/
def BKP_TCNT_T1 : Fld := ⟨BKP_TCNT, 31, 16⟩

/-- BKP_TCNT.T0. -/
def BKP_TCNT_T0 : Fld := ⟨BKP_TCNT, 15, 0⟩

/-- BKP_TCAP_LO[i < 2] (R457), access RO. -/
def BKP_TCAP_LO (i : Nat) : Nat := 0xF0090 + 0x8 * i

/-- BKP_TCAP_HI[i < 2] (R457), access RO. -/
def BKP_TCAP_HI (i : Nat) : Nat := 0xF0094 + 0x8 * i

/-- BKP_TCAP_HI.VALID. -/
def BKP_TCAP_HI_VALID (i : Nat) : Fld := ⟨BKP_TCAP_HI i, 31, 31⟩

/-- BKP_TCAP_HI.FRAC. -/
def BKP_TCAP_HI_FRAC (i : Nat) : Fld := ⟨BKP_TCAP_HI i, 30, 16⟩

/-- BKP_TCAP_HI.SEC_HI. -/
def BKP_TCAP_HI_SEC_HI (i : Nat) : Fld := ⟨BKP_TCAP_HI i, 15, 0⟩

/-- BKP_SWCAP_LO (R457), access RO. -/
def BKP_SWCAP_LO : Nat := 0xF00A0

/-- BKP_SWCAP_HI (R457), access RO. -/
def BKP_SWCAP_HI : Nat := 0xF00A4

/-- BKP_SWCAP_HI.VALID. -/
def BKP_SWCAP_HI_VALID : Fld := ⟨BKP_SWCAP_HI, 31, 31⟩

/-- BKP_SWCAP_HI.FRAC. -/
def BKP_SWCAP_HI_FRAC : Fld := ⟨BKP_SWCAP_HI, 30, 16⟩

/-- BKP_SWCAP_HI.SEC_HI. -/
def BKP_SWCAP_HI_SEC_HI : Fld := ⟨BKP_SWCAP_HI, 15, 0⟩

/-- BKP_PWCAP_LO (R457), access RO. -/
def BKP_PWCAP_LO : Nat := 0xF00A8

/-- BKP_PWCAP_HI (R457), access RO. -/
def BKP_PWCAP_HI : Nat := 0xF00AC

/-- BKP_PWCAP_HI.VALID. -/
def BKP_PWCAP_HI_VALID : Fld := ⟨BKP_PWCAP_HI, 31, 31⟩

/-- BKP_PWCAP_HI.FRAC. -/
def BKP_PWCAP_HI_FRAC : Fld := ⟨BKP_PWCAP_HI, 30, 16⟩

/-- BKP_PWCAP_HI.SEC_HI. -/
def BKP_PWCAP_HI_SEC_HI : Fld := ⟨BKP_PWCAP_HI, 15, 0⟩

/-- BKP_DSEC_LO (R457), access RO. -/
def BKP_DSEC_LO : Nat := 0xF00B0

/-- BKP_DSEC_HI (R457), access RO. -/
def BKP_DSEC_HI : Nat := 0xF00B4

/-- BKP_SCR[i < 16] (R457), access RWO. -/
def BKP_SCR (i : Nat) : Nat := 0xF00C0 + 0x4 * i

/-- SNP_CTRL (R476), access per field. -/
def SNP_CTRL : Nat := 0x100000

/-- SNP_CTRL.FIRE. -/
def SNP_CTRL_FIRE : Fld := ⟨SNP_CTRL, 31, 31⟩

/-- SNP_CTRL.RAWEN. -/
def SNP_CTRL_RAWEN : Fld := ⟨SNP_CTRL, 8, 8⟩

/-- SNP_CTRL.FMASK. -/
def SNP_CTRL_FMASK : Fld := ⟨SNP_CTRL, 7, 4⟩

/-- SNP_CTRL.PINEN. -/
def SNP_CTRL_PINEN : Fld := ⟨SNP_CTRL, 0, 0⟩

/-- SNP_STAT (R476), access RO. -/
def SNP_STAT : Nat := 0x100004

/-- SNP_STAT.HELD. -/
def SNP_STAT_HELD : Fld := ⟨SNP_STAT, 31, 31⟩

/-- SNP_STAT.RAWON. -/
def SNP_STAT_RAWON : Fld := ⟨SNP_STAT, 30, 30⟩

/-- SNP_STAT.RAWDONE. -/
def SNP_STAT_RAWDONE : Fld := ⟨SNP_STAT, 29, 29⟩

/-- SNP_STAT.RELPEND. -/
def SNP_STAT_RELPEND : Fld := ⟨SNP_STAT, 28, 28⟩

/-- SNP_EVT (R476), access W1C. -/
def SNP_EVT : Nat := 0x100008

/-- SNP_EVT.TELDROP. -/
def SNP_EVT_TELDROP : Fld := ⟨SNP_EVT, 4, 4⟩

/-- SNP_EVT.RAWREF. -/
def SNP_EVT_RAWREF : Fld := ⟨SNP_EVT, 3, 3⟩

/-- SNP_EVT.MISSED. -/
def SNP_EVT_MISSED : Fld := ⟨SNP_EVT, 2, 2⟩

/-- SNP_EVT.RAWDONE. -/
def SNP_EVT_RAWDONE : Fld := ⟨SNP_EVT, 1, 1⟩

/-- SNP_EVT.LATCHED. -/
def SNP_EVT_LATCHED : Fld := ⟨SNP_EVT, 0, 0⟩

/-- SNP_MISSED (R476), access RO. -/
def SNP_MISSED : Nat := 0x10000C

/-- SNP_SEQ (R476), access RO. -/
def SNP_SEQ : Nat := 0x100010

/-- SNP_CAUSE (R476), access RO. -/
def SNP_CAUSE : Nat := 0x100014

/-- SNP_CAUSE.CTX. -/
def SNP_CAUSE_CTX : Fld := ⟨SNP_CAUSE, 31, 24⟩

/-- SNP_CAUSE.SRC. -/
def SNP_CAUSE_SRC : Fld := ⟨SNP_CAUSE, 7, 0⟩

/-- SNP_STU_LO (R476), access RO. -/
def SNP_STU_LO : Nat := 0x100018

/-- SNP_STU_HI (R476), access RO. -/
def SNP_STU_HI : Nat := 0x10001C

/-- SNP_TICK_LO (R476), access RO. -/
def SNP_TICK_LO : Nat := 0x100020

/-- SNP_TICK_HI (R476), access RO. -/
def SNP_TICK_HI : Nat := 0x100024

/-- SNP_QUAL_LO (R476), access RO. -/
def SNP_QUAL_LO : Nat := 0x100028

/-- SNP_QUAL_HI (R476), access RO. -/
def SNP_QUAL_HI : Nat := 0x10002C

/-- SNP_FE[c < 3] (R476), access RO. -/
def SNP_FE (c : Nat) : Nat := 0x100030 + 0x4 * c

/-- SNP_FE.CLIPS. -/
def SNP_FE_CLIPS (c : Nat) : Fld := ⟨SNP_FE c, 31, 12⟩

/-- SNP_FE.GNOW. -/
def SNP_FE_GNOW (c : Nat) : Fld := ⟨SNP_FE c, 8, 6⟩

/-- SNP_FE.GNEXT. -/
def SNP_FE_GNEXT (c : Nat) : Fld := ⟨SNP_FE c, 5, 3⟩

/-- SNP_FE.ANN. -/
def SNP_FE_ANN (c : Nat) : Fld := ⟨SNP_FE c, 2, 2⟩

/-- SNP_FE.EMERG. -/
def SNP_FE_EMERG (c : Nat) : Fld := ⟨SNP_FE c, 1, 1⟩

/-- SNP_FE.VOID. -/
def SNP_FE_VOID (c : Nat) : Fld := ⟨SNP_FE c, 0, 0⟩

/-- SNP_SE[e < 8] (R476), access RO. -/
def SNP_SE (e : Nat) : Nat := 0x100040 + 0x4 * e

/-- SNP_SE.CTX. -/
def SNP_SE_CTX (e : Nat) : Fld := ⟨SNP_SE e, 31, 24⟩

/-- SNP_SE.ACTIVE. -/
def SNP_SE_ACTIVE (e : Nat) : Fld := ⟨SNP_SE e, 23, 23⟩

/-- SNP_SE.INCUE. -/
def SNP_SE_INCUE (e : Nat) : Fld := ⟨SNP_SE e, 22, 22⟩

/-- SNP_SE.CUEKIND. -/
def SNP_SE_CUEKIND (e : Nat) : Fld := ⟨SNP_SE e, 21, 19⟩

/-- SNP_SE.WORD. -/
def SNP_SE_WORD (e : Nat) : Fld := ⟨SNP_SE e, 12, 0⟩

/-- SNP_LDG (R476), access RO. -/
def SNP_LDG : Nat := 0x100060

/-- SNP_LDG.GRADE. -/
def SNP_LDG_GRADE : Fld := ⟨SNP_LDG, 31, 29⟩

/-- SNP_LDG.E. -/
def SNP_LDG_E : Fld := ⟨SNP_LDG, 22, 0⟩

/-- SNP_LDGPREV (R476), access RO. -/
def SNP_LDGPREV : Nat := 0x100064

/-- SNP_FST (R476), access RO. -/
def SNP_FST : Nat := 0x100068

/-- SNP_RTCSEC_LO (R476), access RO. -/
def SNP_RTCSEC_LO : Nat := 0x10006C

/-- SNP_RTCSEC_HI (R476), access RO. -/
def SNP_RTCSEC_HI : Nat := 0x100070

/-- SNP_RTCFRAC (R476), access RO. -/
def SNP_RTCFRAC : Nat := 0x100074

/-- SNP_RTCFRAC.AMBIG. -/
def SNP_RTCFRAC_AMBIG : Fld := ⟨SNP_RTCFRAC, 31, 31⟩

/-- SNP_RTCFRAC.FRAC. -/
def SNP_RTCFRAC_FRAC : Fld := ⟨SNP_RTCFRAC, 14, 0⟩

/-- SNP_RAWFIRST_LO (R476), access RO. -/
def SNP_RAWFIRST_LO : Nat := 0x100080

/-- SNP_RAWFIRST_HI (R476), access RO. -/
def SNP_RAWFIRST_HI : Nat := 0x100084

/-- SNP_RAWSEL (R476), access RWO. -/
def SNP_RAWSEL : Nat := 0x100088

/-- SNP_RAWSEL.PAGE. -/
def SNP_RAWSEL_PAGE : Fld := ⟨SNP_RAWSEL, 9, 0⟩

/-- SNP_WUCFG (R476), access RWO. -/
def SNP_WUCFG : Nat := 0x1000A0

/-- SNP_WUCFG.SCRUBP. -/
def SNP_WUCFG_SCRUBP : Fld := ⟨SNP_WUCFG, 31, 16⟩

/-- SNP_WUCFG.SELFTP. -/
def SNP_WUCFG_SELFTP : Fld := ⟨SNP_WUCFG, 15, 0⟩

/-- SNP_WUSTAT (R476), access RO. -/
def SNP_WUSTAT : Nat := 0x1000A4

/-- SNP_WUSTAT.ESC. -/
def SNP_WUSTAT_ESC : Fld := ⟨SNP_WUSTAT, 5, 0⟩

/-- SNP_BURST[j < 8] (R476), access RWO. -/
def SNP_BURST (j : Nat) : Nat := 0x1000C0 + 0x4 * j

/-- SNP_LASTOUT_LO[n < 256] (R476), access RO. -/
def SNP_LASTOUT_LO (n : Nat) : Nat := 0x100400 + 0x8 * n

/-- SNP_LASTOUT_HI[n < 256] (R476), access RO. -/
def SNP_LASTOUT_HI (n : Nat) : Nat := 0x100404 + 0x8 * n

/-- SNP_TELWIN[i < 256] (R476), access RO. -/
def SNP_TELWIN (i : Nat) : Nat := 0x101000 + 0x4 * i

/-- SNP_RAWWIN[i < 8192] (R469), access RO. -/
def SNP_RAWWIN (i : Nat) : Nat := 0x108000 + 0x4 * i

/-- FLT_CTRL (R497), access WO. -/
def FLT_CTRL : Nat := 0x110000

/-- FLT_CTRL.DEVRESET. -/
def FLT_CTRL_DEVRESET : Fld := ⟨FLT_CTRL, 31, 31⟩

/-- FLT_CTRL.RESTART. -/
def FLT_CTRL_RESTART : Fld := ⟨FLT_CTRL, 30, 30⟩

/-- FLT_CTRL.FAILOVER. -/
def FLT_CTRL_FAILOVER : Fld := ⟨FLT_CTRL, 29, 29⟩

/-- FLT_CTRL.UNQW. -/
def FLT_CTRL_UNQW : Fld := ⟨FLT_CTRL, 28, 28⟩

/-- FLT_CTRL.AVCLR. -/
def FLT_CTRL_AVCLR : Fld := ⟨FLT_CTRL, 27, 27⟩

/-- FLT_CTRL.LOGCLR. -/
def FLT_CTRL_LOGCLR : Fld := ⟨FLT_CTRL, 26, 26⟩

/-- FLT_STAT (R497), access RO. -/
def FLT_STAT : Nat := 0x110004

/-- FLT_STAT.WDA. -/
def FLT_STAT_WDA : Fld := ⟨FLT_STAT, 31, 30⟩

/-- FLT_STAT.WDB. -/
def FLT_STAT_WDB : Fld := ⟨FLT_STAT, 29, 28⟩

/-- FLT_STAT.TSRUN. -/
def FLT_STAT_TSRUN : Fld := ⟨FLT_STAT, 27, 27⟩

/-- FLT_STAT.NOSTBY. -/
def FLT_STAT_NOSTBY : Fld := ⟨FLT_STAT, 26, 26⟩

/-- FLT_STAT.HBMISS. -/
def FLT_STAT_HBMISS : Fld := ⟨FLT_STAT, 25, 24⟩

/-- FLT_EVT (R497), access W1C. -/
def FLT_EVT : Nat := 0x110008

/-- FLT_EVT.REFUSED. -/
def FLT_EVT_REFUSED : Fld := ⟨FLT_EVT, 6, 6⟩

/-- FLT_EVT.RESTARTED. -/
def FLT_EVT_RESTARTED : Fld := ⟨FLT_EVT, 5, 5⟩

/-- FLT_EVT.F4. -/
def FLT_EVT_F4 : Fld := ⟨FLT_EVT, 4, 4⟩

/-- FLT_EVT.F3. -/
def FLT_EVT_F3 : Fld := ⟨FLT_EVT, 3, 3⟩

/-- FLT_EVT.F2. -/
def FLT_EVT_F2 : Fld := ⟨FLT_EVT, 2, 2⟩

/-- FLT_EVT.F1. -/
def FLT_EVT_F1 : Fld := ⟨FLT_EVT, 1, 1⟩

/-- FLT_EVT.F0. -/
def FLT_EVT_F0 : Fld := ⟨FLT_EVT, 0, 0⟩

/-- FLT_CNT0 (R497), access RO. -/
def FLT_CNT0 : Nat := 0x11000C

/-- FLT_CNT0.F1. -/
def FLT_CNT0_F1 : Fld := ⟨FLT_CNT0, 31, 16⟩

/-- FLT_CNT0.F0. -/
def FLT_CNT0_F0 : Fld := ⟨FLT_CNT0, 15, 0⟩

/-- FLT_CNT1 (R497), access RO. -/
def FLT_CNT1 : Nat := 0x110010

/-- FLT_CNT1.F4. -/
def FLT_CNT1_F4 : Fld := ⟨FLT_CNT1, 31, 24⟩

/-- FLT_CNT1.F3. -/
def FLT_CNT1_F3 : Fld := ⟨FLT_CNT1, 23, 16⟩

/-- FLT_CNT1.F2. -/
def FLT_CNT1_F2 : Fld := ⟨FLT_CNT1, 15, 0⟩

/-- FLT_RSTCAUSE (R497), access RO. -/
def FLT_RSTCAUSE : Nat := 0x110014

/-- FLT_RSTCAUSE.CODE. -/
def FLT_RSTCAUSE_CODE : Fld := ⟨FLT_RSTCAUSE, 31, 16⟩

/-- FLT_RSTSTU (R497), access RO. -/
def FLT_RSTSTU : Nat := 0x110018

/-- FLT_LOGHEAD (R497), access RO. -/
def FLT_LOGHEAD : Nat := 0x11001C

/-- FLT_TSLAST (R497), access RO. -/
def FLT_TSLAST : Nat := 0x110020

/-- FLT_AVCNT_LO (R497), access RO. -/
def FLT_AVCNT_LO : Nat := 0x110028

/-- FLT_AVCNT_HI (R497), access RO. -/
def FLT_AVCNT_HI : Nat := 0x11002C

/-- FLT_AVBAD (R497), access RO. -/
def FLT_AVBAD : Nat := 0x110030

/-- FLT_AVEXCL_LO (R497), access RO. -/
def FLT_AVEXCL_LO : Nat := 0x110034

/-- FLT_AVEXCL_HI (R497), access RO. -/
def FLT_AVEXCL_HI : Nat := 0x110038

/-- FLT_LOG[i < 64][w < 4] (R497), access RO. -/
def FLT_LOG (i : Nat) (w : Nat) : Nat := 0x110400 + 0x10 * i + 0x4 * w

/-- SE_STAT[e < 8] (R521), access RO. -/
def SE_STAT (e : Nat) : Nat := 0x120000 + 0x1000 * e

/-- SE_STAT.STATE. -/
def SE_STAT_STATE (e : Nat) : Fld := ⟨SE_STAT e, 31, 30⟩

/-- SE_STAT.ACTIVE. -/
def SE_STAT_ACTIVE (e : Nat) : Fld := ⟨SE_STAT e, 29, 29⟩

/-- SE_STAT.INCUE. -/
def SE_STAT_INCUE (e : Nat) : Fld := ⟨SE_STAT e, 28, 28⟩

/-- SE_STAT.CUEKIND. -/
def SE_STAT_CUEKIND (e : Nat) : Fld := ⟨SE_STAT e, 27, 25⟩

/-- SE_STAT.GATED. -/
def SE_STAT_GATED (e : Nat) : Fld := ⟨SE_STAT e, 24, 24⟩

/-- SE_STAT.CTX. -/
def SE_STAT_CTX (e : Nat) : Fld := ⟨SE_STAT e, 23, 16⟩

/-- SE_PC[e < 8] (R521), access RO. -/
def SE_PC (e : Nat) : Nat := 0x120004 + 0x1000 * e

/-- SE_DBG[e < 8] (R521), access RWO. -/
def SE_DBG (e : Nat) : Nat := 0x120008 + 0x1000 * e

/-- SE_DBG.BRKEN. -/
def SE_DBG_BRKEN (e : Nat) : Fld := ⟨SE_DBG e, 31, 31⟩

/-- SE_BRK[e < 8] (R521), access RO. -/
def SE_BRK (e : Nat) : Nat := 0x12000C + 0x1000 * e

/-- SE_BRK.CTX. -/
def SE_BRK_CTX (e : Nat) : Fld := ⟨SE_BRK e, 31, 24⟩

/-- SE_BRK.INCUE. -/
def SE_BRK_INCUE (e : Nat) : Fld := ⟨SE_BRK e, 23, 23⟩

/-- SE_BRK.CUEKIND. -/
def SE_BRK_CUEKIND (e : Nat) : Fld := ⟨SE_BRK e, 22, 20⟩

/-- SE_BRK.WORD. -/
def SE_BRK_WORD (e : Nat) : Fld := ⟨SE_BRK e, 12, 0⟩

/-- SE_BRKSTU_LO[e < 8] (R521), access RO. -/
def SE_BRKSTU_LO (e : Nat) : Nat := 0x120010 + 0x1000 * e

/-- SE_BRKSTU_HI[e < 8] (R521), access RO. -/
def SE_BRKSTU_HI (e : Nat) : Nat := 0x120014 + 0x1000 * e

/-- SE_BRKCNT[e < 8] (R521), access RO. -/
def SE_BRKCNT (e : Nat) : Nat := 0x120018 + 0x1000 * e

/-- CTX_IMAGE[n < 256] (R202), access RW. -/
def CTX_IMAGE (n : Nat) : Nat := 0x1000000 + 0x10000 * n

/-- CTX_RUN[n < 256] (R202), access RW. -/
def CTX_RUN (n : Nat) : Nat := 0x1000004 + 0x10000 * n

/-- CTX_RUN.PRIO. -/
def CTX_RUN_PRIO (n : Nat) : Fld := ⟨CTX_RUN n, 13, 12⟩

/-- CTX_RUN.STRIDE. -/
def CTX_RUN_STRIDE (n : Nat) : Fld := ⟨CTX_RUN n, 11, 0⟩

/-- CTX_STAT[n < 256] (R202), access RO. -/
def CTX_STAT (n : Nat) : Nat := 0x1000008 + 0x10000 * n

/-- CTX_STAT.STATE. -/
def CTX_STAT_STATE (n : Nat) : Fld := ⟨CTX_STAT n, 31, 29⟩

/-- CTX_STAT.BACKLOG. -/
def CTX_STAT_BACKLOG (n : Nat) : Fld := ⟨CTX_STAT n, 28, 28⟩

/-- CTX_STAT.CLAMPED. -/
def CTX_STAT_CLAMPED (n : Nat) : Fld := ⟨CTX_STAT n, 27, 27⟩

/-- CTX_STAT.CUEPEND. -/
def CTX_STAT_CUEPEND (n : Nat) : Fld := ⟨CTX_STAT n, 26, 26⟩

/-- CTX_STAT.PHASE. -/
def CTX_STAT_PHASE (n : Nat) : Fld := ⟨CTX_STAT n, 11, 0⟩

/-- CTX_FAULT[n < 256] (R202), access RO. -/
def CTX_FAULT (n : Nat) : Nat := 0x100000C + 0x10000 * n

/-- CTX_FAULT.CODE. -/
def CTX_FAULT_CODE (n : Nat) : Fld := ⟨CTX_FAULT n, 31, 24⟩

/-- CTX_FAULT.INCUE. -/
def CTX_FAULT_INCUE (n : Nat) : Fld := ⟨CTX_FAULT n, 23, 23⟩

/-- CTX_FAULT.CUEKIND. -/
def CTX_FAULT_CUEKIND (n : Nat) : Fld := ⟨CTX_FAULT n, 22, 20⟩

/-- CTX_FAULT.WORD. -/
def CTX_FAULT_WORD (n : Nat) : Fld := ⟨CTX_FAULT n, 12, 0⟩

/-- CTX_FAULT_STU_LO[n < 256] (R202), access RO. -/
def CTX_FAULT_STU_LO (n : Nat) : Nat := 0x1000010 + 0x10000 * n

/-- CTX_FAULT_STU_HI[n < 256] (R202), access RO. -/
def CTX_FAULT_STU_HI (n : Nat) : Nat := 0x1000014 + 0x10000 * n

/-- CTX_COST[n < 256] (R202), access RO. -/
def CTX_COST (n : Nat) : Nat := 0x1000018 + 0x10000 * n

/-- CTX_CUECOST[n < 256] (R202), access RO. -/
def CTX_CUECOST (n : Nat) : Nat := 0x100001C + 0x10000 * n

/-- CTX_DOORBELL[n < 256] (R202), access WO. -/
def CTX_DOORBELL (n : Nat) : Nat := 0x1000020 + 0x10000 * n

/-- CTX_RUNS[n < 256] (R202), access RO. -/
def CTX_RUNS (n : Nat) : Nat := 0x1000024 + 0x10000 * n

/-- CTX_CUT[n < 256] (R202), access RO. -/
def CTX_CUT (n : Nat) : Nat := 0x1000028 + 0x10000 * n

/-- CTX_CUT.CUT. -/
def CTX_CUT_CUT (n : Nat) : Fld := ⟨CTX_CUT n, 31, 16⟩

/-- CTX_CUT.LATE. -/
def CTX_CUT_LATE (n : Nat) : Fld := ⟨CTX_CUT n, 15, 0⟩

/-- CTX_QSTAT[n < 256][p < 16] (R202), access RO. -/
def CTX_QSTAT (n : Nat) (p : Nat) : Nat := 0x1000100 + 0x10000 * n + 0x10 * p

/-- CTX_CUESLOT[n < 256][k < 7][j < 4] (R202), access RO. -/
def CTX_CUESLOT (n : Nat) (k : Nat) (j : Nat) : Nat := 0x1000040 + 0x10000 * n + 0x10 * k + 0x4 * j

/-- The rows of the TOP registers. -/
def rowsTOP : List Row :=
  [ ⟨0x0, 1, 0x0, 1, 0x0, 0x0, 0x0, 0xB5E8256⟩,
    ⟨0x4, 1, 0x0, 1, 0x0, 0x0, 0x0, 0x10003⟩,
    ⟨0x8, 1, 0x0, 1, 0x0, 0x0, 0x0, 0x0⟩,
    ⟨0xC, 1, 0x0, 1, 0x0, 0x0, 0x0, 0x0⟩,
    ⟨0x10, 1, 0x0, 1, 0x0, 0x0, 0x0, 0x700⟩ ]

/-- The rows of the BOOT registers. -/
def rowsBOOT : List Row :=
  [ ⟨0x10000, 1, 0x0, 1, 0x0, 0x0, 0x0, 0x1800000⟩,
    ⟨0x10004, 1, 0x0, 1, 0x0, 0x0, 0x0, 0x0⟩,
    ⟨0x10008, 1, 0x0, 1, 0x0, 0x0, 0x0, 0x0⟩,
    ⟨0x1000C, 1, 0x0, 1, 0x0, 0x0, 0x0, 0x0⟩,
    ⟨0x10010, 1, 0x0, 1, 0x0, 0x0, 0x0, 0x0⟩,
    ⟨0x10014, 1, 0x0, 1, 0x0, 0x0, 0x0, 0x0⟩,
    ⟨0x18000, 8192, 0x4, 1, 0x0, 0x0, 0x0, 0x0⟩ ]

/-- The rows of the TB registers. -/
def rowsTB : List Row :=
  [ ⟨0x20000, 1, 0x0, 1, 0x0, 0x7FFF0000, 0x0, 0x415F0000⟩,
    ⟨0x20008, 1, 0x0, 1, 0x0, 0x0, 0x0, 0x0⟩,
    ⟨0x2000C, 1, 0x0, 1, 0x0, 0x0, 0x0, 0x0⟩,
    ⟨0x20010, 1, 0x0, 1, 0x0, 0x0, 0x0, 0x0⟩,
    ⟨0x20014, 1, 0x0, 1, 0x0, 0x0, 0x0, 0x0⟩,
    ⟨0x20018, 1, 0x0, 1, 0x0, 0x0, 0x0, 0x0⟩,
    ⟨0x2001C, 1, 0x0, 1, 0x0, 0x0, 0x0, 0x0⟩,
    ⟨0x20020, 1, 0x0, 1, 0x0, 0x0, 0x0, 0x0⟩,
    ⟨0x20024, 1, 0x0, 1, 0x0, 0x0, 0x0, 0xFFFFFFFF⟩,
    ⟨0x20028, 1, 0x0, 1, 0x0, 0x0, 0x0, 0x0⟩,
    ⟨0x2002C, 1, 0x0, 1, 0x0, 0xF000FFFF, 0x0, 0x0⟩,
    ⟨0x20030, 1, 0x0, 1, 0x0, 0xFFFFFFFF, 0x0, 0x0⟩,
    ⟨0x20034, 1, 0x0, 1, 0x0, 0xFFFFFFFF, 0x0, 0x14000A03⟩,
    ⟨0x20038, 1, 0x0, 1, 0x0, 0xFFFFFFFF, 0x0, 0x6400C8⟩,
    ⟨0x2003C, 1, 0x0, 1, 0x0, 0x0, 0x0, 0x0⟩,
    ⟨0x20040, 1, 0x0, 1, 0x0, 0x0, 0x0, 0x0⟩,
    ⟨0x20044, 1, 0x0, 1, 0x0, 0x0, 0x0, 0x0⟩,
    ⟨0x20048, 1, 0x0, 1, 0x0, 0xFFFFF1FF, 0x0, 0x64300A⟩,
    ⟨0x2004C, 1, 0x0, 1, 0x0, 0x0, 0x0, 0x0⟩,
    ⟨0x20050, 1, 0x0, 1, 0x0, 0x0, 0x0, 0x0⟩,
    ⟨0x20054, 1, 0x0, 1, 0x0, 0x0, 0x0, 0x0⟩,
    ⟨0x20058, 1, 0x0, 1, 0x0, 0xC0FFFFFF, 0x0, 0x640064⟩,
    ⟨0x2005C, 1, 0x0, 1, 0x0, 0x8FFF00FF, 0x0, 0x100A0⟩,
    ⟨0x20060, 1, 0x0, 1, 0x0, 0xFFFFFFFF, 0x0, 0x0⟩,
    ⟨0x20064, 1, 0x0, 1, 0x0, 0xFFFF, 0x0, 0x0⟩,
    ⟨0x20068, 1, 0x0, 1, 0x0, 0xFFFFFFFF, 0x0, 0x0⟩,
    ⟨0x2006C, 1, 0x0, 1, 0x0, 0xFFFFFFFF, 0x0, 0x0⟩,
    ⟨0x20070, 1, 0x0, 1, 0x0, 0xFFFFFFFF, 0x0, 0x0⟩,
    ⟨0x20074, 1, 0x0, 1, 0x0, 0xFFFFFFFF, 0x0, 0x0⟩,
    ⟨0x20078, 1, 0x0, 1, 0x0, 0x0, 0x7FF, 0x0⟩ ]

/-- The rows of the SCS registers. -/
def rowsSCS : List Row :=
  [ ⟨0x30000, 1, 0x0, 1, 0x0, 0x0, 0x0, 0x2000⟩,
    ⟨0x30004, 1, 0x0, 1, 0x0, 0x0, 0xF, 0x0⟩,
    ⟨0x30008, 1, 0x0, 1, 0x0, 0x0, 0x0, 0x0⟩,
    ⟨0x3000C, 1, 0x0, 1, 0x0, 0x0, 0x0, 0x0⟩ ]

/-- The rows of the CCS registers. -/
def rowsCCS : List Row :=
  [ ⟨0x34000, 1, 0x0, 1, 0x0, 0x3FFFFF, 0x0, 0x7D000⟩,
    ⟨0x34004, 1, 0x0, 1, 0x0, 0x0, 0x0, 0x4101F400⟩,
    ⟨0x34008, 1, 0x0, 1, 0x0, 0x0, 0x0, 0x0⟩,
    ⟨0x3400C, 1, 0x0, 1, 0x0, 0x0, 0x0, 0x0⟩,
    ⟨0x34010, 1, 0x0, 1, 0x0, 0x0, 0x0, 0x0⟩,
    ⟨0x34014, 1, 0x0, 1, 0x0, 0xFFF0FF, 0x0, 0x81400A⟩,
    ⟨0x34018, 1, 0x0, 1, 0x0, 0x0, 0x0, 0x0⟩,
    ⟨0x3401C, 1, 0x0, 1, 0x0, 0x0, 0x7F, 0x0⟩,
    ⟨0x34020, 8, 0x4, 1, 0x0, 0x0, 0x0, 0x0⟩,
    ⟨0x34100, 16, 0x8, 1, 0x0, 0x0, 0x0, 0x0⟩,
    ⟨0x34104, 16, 0x8, 1, 0x0, 0x0, 0x0, 0x0⟩ ]

/-- The rows of the ICS registers. -/
def rowsICS : List Row :=
  [ ⟨0x38000, 1, 0x0, 1, 0x0, 0x0, 0x0, 0x0⟩,
    ⟨0x38004, 1, 0x0, 1, 0x0, 0x0, 0x7, 0x0⟩ ]

/-- The rows of the FE registers. -/
def rowsFE : List Row :=
  [ ⟨0x40000, 1, 0x0, 1, 0x0, 0x1BF, 0x0, 0x3F⟩,
    ⟨0x44000, 1, 0, 1, 0, 0xBF, 0, 0x3F⟩,
    ⟨0x40004, 2, 0x4000, 1, 0x0, 0xC777, 0x0, 0x360⟩,
    ⟨0x40008, 2, 0x4000, 1, 0x0, 0xFFFFFFFF, 0x0, 0x7333341E⟩,
    ⟨0x4000C, 2, 0x4000, 1, 0x0, 0xFF0F, 0x0, 0x1008⟩,
    ⟨0x40010, 2, 0x4000, 1, 0x0, 0x0, 0x0, 0xFF0C⟩,
    ⟨0x40014, 3, 0x4000, 1, 0x0, 0x0, 0x0, 0x0⟩,
    ⟨0x40018, 3, 0x4000, 1, 0x0, 0x80FFFFFF, 0x0, 0xA053F⟩,
    ⟨0x4001C, 3, 0x4000, 1, 0x0, 0x0, 0x0, 0x0⟩,
    ⟨0x40020, 3, 0x4000, 1, 0x0, 0x0, 0x0, 0x0⟩,
    ⟨0x40024, 2, 0x4000, 1, 0x0, 0x0, 0x1FF, 0x0⟩,
    ⟨0x48024, 1, 0, 1, 0, 0, 0x174, 0⟩,
    ⟨0x40028, 2, 0x4000, 1, 0x0, 0x0, 0x0, 0x0⟩,
    ⟨0x4002C, 2, 0x4000, 1, 0x0, 0x0, 0x0, 0x0⟩ ]

/-- The rows of the CHZ registers. -/
def rowsCHZ : List Row :=
  [ ⟨0x50000, 2, 0x8000, 1, 0x0, 0x0, 0x0, 0x6000⟩,
    ⟨0x50100, 2, 0x8000, 8, 0x8, 0x0, 0x0, 0x0⟩,
    ⟨0x50104, 2, 0x8000, 8, 0x8, 0x0, 0x0, 0x0⟩,
    ⟨0x50200, 16, 0x8, 1, 0x0, 0x0, 0x0, 0x0⟩,
    ⟨0x50204, 16, 0x8, 1, 0x0, 0x0, 0x0, 0x0⟩ ]

/-- The rows of the CHN registers. -/
def rowsCHN : List Row :=
  [ ⟨0x60000, 256, 0x100, 1, 0x0, 0xE00001FF, 0x0, 0x0⟩,
    ⟨0x60004, 256, 0x100, 1, 0x0, 0xFFFFFFFF, 0x0, 0x0⟩,
    ⟨0x60008, 256, 0x100, 1, 0x0, 0xFFFF, 0x0, 0x0⟩,
    ⟨0x6000C, 256, 0x100, 1, 0x0, 0x7FFFF, 0x0, 0x50000⟩,
    ⟨0x60010, 256, 0x100, 1, 0x0, 0x1FF000F, 0x0, 0x10000⟩,
    ⟨0x60014, 256, 0x100, 1, 0x0, 0xFFFFFFFF, 0x0, 0x0⟩,
    ⟨0x60018, 256, 0x100, 1, 0x0, 0xFFFF, 0x0, 0x0⟩,
    ⟨0x6001C, 256, 0x100, 1, 0x0, 0x11F, 0x0, 0x3⟩,
    ⟨0x60020, 256, 0x100, 1, 0x0, 0xBFFFFFFF, 0x0, 0x24180400⟩,
    ⟨0x60024, 256, 0x100, 1, 0x0, 0xFFFFFFFF, 0x0, 0x0⟩,
    ⟨0x60028, 256, 0x100, 1, 0x0, 0xFFFF, 0x0, 0x0⟩,
    ⟨0x6002C, 256, 0x100, 1, 0x0, 0x0, 0x2000000, 0x0⟩,
    ⟨0x60030, 256, 0x100, 1, 0x0, 0x0, 0xFF, 0x0⟩,
    ⟨0x60034, 256, 0x100, 1, 0x0, 0x0, 0x0, 0x0⟩,
    ⟨0x60038, 256, 0x100, 1, 0x0, 0x0, 0x0, 0x0⟩,
    ⟨0x6003C, 256, 0x100, 1, 0x0, 0x0, 0x0, 0x0⟩,
    ⟨0x60040, 256, 0x100, 1, 0x0, 0x0, 0x0, 0x0⟩,
    ⟨0x60044, 256, 0x100, 1, 0x0, 0x0, 0x0, 0x0⟩,
    ⟨0x60048, 256, 0x100, 1, 0x0, 0x0, 0x0, 0x0⟩,
    ⟨0x6004C, 256, 0x100, 1, 0x0, 0x0, 0x0, 0x0⟩,
    ⟨0x60050, 256, 0x100, 1, 0x0, 0x0, 0x0, 0x0⟩ ]

/-- The rows of the CAL registers. -/
def rowsCAL : List Row :=
  [ ⟨0x70000, 1, 0x0, 1, 0x0, 0x3, 0x0, 0x3⟩,
    ⟨0x70004, 1, 0x0, 1, 0x0, 0xFFFFFFFF, 0x0, 0x75301044⟩,
    ⟨0x70008, 1, 0x0, 1, 0x0, 0xFFFFFFFF, 0x0, 0x2580258⟩,
    ⟨0x7000C, 1, 0x0, 1, 0x0, 0xFFFFFFFF, 0x0, 0x1A400C5A⟩,
    ⟨0x70010, 1, 0x0, 1, 0x0, 0x0, 0x0, 0x0⟩,
    ⟨0x70014, 1, 0x0, 1, 0x0, 0x0, 0xFF, 0x0⟩,
    ⟨0x70018, 3, 0x4, 1, 0x0, 0x0, 0x0, 0x0⟩,
    ⟨0x70024, 1, 0x0, 1, 0x0, 0x0, 0x0, 0x0⟩,
    ⟨0x70030, 8, 0x4, 1, 0x0, 0x0, 0x0, 0x0⟩,
    ⟨0x70060, 1, 0, 1, 0, 0x10F, 0, 0x108⟩,
    ⟨0x70064, 1, 0, 1, 0, 0x10F, 0, 0x108⟩,
    ⟨0x70068, 1, 0, 1, 0, 0x10F, 0, 0x10A⟩,
    ⟨0x7006C, 1, 0, 1, 0, 0x10F, 0, 0x10A⟩,
    ⟨0x70070, 1, 0, 1, 0, 0x10F, 0, 0x0⟩,
    ⟨0x70074, 1, 0, 1, 0, 0x10F, 0, 0x106⟩,
    ⟨0x70078, 1, 0, 1, 0, 0x10F, 0, 0x10C⟩,
    ⟨0x70100, 2, 0x80, 16, 0x8, 0x0, 0x0, 0x0⟩,
    ⟨0x70104, 2, 0x80, 16, 0x8, 0x0, 0x0, 0x0⟩,
    ⟨0x70200, 2, 0x20, 6, 0x4, 0x0, 0x0, 0x0⟩,
    ⟨0x70240, 1, 0x0, 1, 0x0, 0x0, 0x0, 0x0⟩,
    ⟨0x70244, 2, 0x4, 1, 0x0, 0x0, 0x0, 0x0⟩ ]

/-- The rows of the SEQ registers. -/
def rowsSEQ : List Row :=
  [ ⟨0x80000, 1, 0x0, 1, 0x0, 0x63FFFFFF, 0x0, 0x60001000⟩,
    ⟨0x80004, 1, 0x0, 1, 0x0, 0x0, 0x0, 0x8F000000⟩,
    ⟨0x80008, 1, 0x0, 1, 0x0, 0x0, 0x1FF, 0x0⟩,
    ⟨0x8000C, 1, 0x0, 1, 0x0, 0x0, 0x0, 0x0⟩,
    ⟨0x80010, 1, 0x0, 1, 0x0, 0x0, 0x0, 0x0⟩,
    ⟨0x80014, 1, 0x0, 1, 0x0, 0x0, 0x0, 0x0⟩,
    ⟨0x80018, 1, 0x0, 1, 0x0, 0x0, 0x0, 0x0⟩,
    ⟨0x80020, 8, 0x4, 1, 0x0, 0x0, 0x0, 0x0⟩,
    ⟨0x80040, 6, 0x4, 1, 0x0, 0x0, 0x0, 0x0⟩,
    ⟨0x80060, 1, 0x0, 1, 0x0, 0x0, 0x0, 0x0⟩,
    ⟨0x80064, 1, 0x0, 1, 0x0, 0x0, 0x0, 0x0⟩,
    ⟨0x80068, 1, 0x0, 1, 0x0, 0x0, 0x0, 0x0⟩,
    ⟨0x8006C, 1, 0x0, 1, 0x0, 0x0, 0x0, 0x0⟩,
    ⟨0x80070, 1, 0x0, 1, 0x0, 0x0, 0x0, 0x0⟩,
    ⟨0x80074, 1, 0x0, 1, 0x0, 0x0, 0x0, 0x0⟩,
    ⟨0x80400, 256, 0x4, 1, 0x0, 0x0, 0x0, 0x0⟩ ]

/-- The rows of the LDG registers. -/
def rowsLDG : List Row :=
  [ ⟨0x90000, 1, 0x0, 1, 0x0, 0x40000007, 0x0, 0x7⟩,
    ⟨0x90004, 1, 0x0, 1, 0x0, 0x0, 0x0, 0x107D000⟩,
    ⟨0x90008, 1, 0x0, 1, 0x0, 0x0, 0xFF, 0x0⟩,
    ⟨0x9000C, 1, 0x0, 1, 0x0, 0x7FF, 0x0, 0x578⟩,
    ⟨0x90010, 1, 0x0, 1, 0x0, 0xFF, 0x0, 0xFF⟩,
    ⟨0x90014, 1, 0x0, 1, 0x0, 0xFFFFFFFF, 0x0, 0x0⟩,
    ⟨0x90018, 1, 0x0, 1, 0x0, 0xFFFFFFFF, 0x0, 0x64080190⟩,
    ⟨0x9001C, 1, 0x0, 1, 0x0, 0xFFFFFFFF, 0x0, 0x12C05006⟩,
    ⟨0x90020, 1, 0x0, 1, 0x0, 0x0, 0x0, 0x0⟩,
    ⟨0x90024, 1, 0x0, 1, 0x0, 0x0, 0x0, 0x0⟩,
    ⟨0x90028, 1, 0x0, 1, 0x0, 0x0, 0x0, 0x0⟩,
    ⟨0x9002C, 1, 0x0, 1, 0x0, 0x0, 0x0, 0x0⟩,
    ⟨0x90030, 1, 0x0, 1, 0x0, 0x0, 0x0, 0x400⟩,
    ⟨0x90034, 1, 0x0, 1, 0x0, 0x0, 0x0, 0x0⟩,
    ⟨0x90040, 8, 0x4, 1, 0x0, 0x0, 0x0, 0x0⟩,
    ⟨0x90060, 4, 0x4, 1, 0x0, 0x0, 0x0, 0x0⟩,
    ⟨0x90070, 4, 0x4, 1, 0x0, 0x0, 0x0, 0x0⟩,
    ⟨0x90080, 6, 0x4, 1, 0x0, 0x0, 0x0, 0x0⟩,
    ⟨0x900A0, 1, 0x0, 1, 0x0, 0x0, 0x0, 0x0⟩,
    ⟨0x900C0, 8, 0x4, 1, 0x0, 0x0, 0x0, 0x0⟩,
    ⟨0x90400, 256, 0x4, 1, 0x0, 0x0, 0x0, 0x0⟩ ]

/-- The rows of the BRS registers. -/
def rowsBRS : List Row :=
  [ ⟨0xA0000, 256, 0x40, 1, 0x0, 0xF800FF00, 0x0, 0xF0000000⟩,
    ⟨0xA0004, 256, 0x40, 2, 0x4, 0xFFFFFFFF, 0x0, 0x0⟩,
    ⟨0xA000C, 256, 0x40, 1, 0x0, 0xFFFF, 0x0, 0x4000⟩,
    ⟨0xA0010, 256, 0x40, 1, 0x0, 0x8000FFFF, 0x0, 0x8000503C⟩,
    ⟨0xA0014, 256, 0x40, 1, 0x0, 0xFF001FFF, 0x0, 0x30000480⟩,
    ⟨0xA0018, 256, 0x40, 1, 0x0, 0xFFFFFF00, 0x0, 0x7410000⟩,
    ⟨0xA001C, 256, 0x40, 1, 0x0, 0xFFFFFFFF, 0x0, 0x55555555⟩,
    ⟨0xA0020, 256, 0x40, 1, 0x0, 0xFFFFFFFF, 0x0, 0x0⟩,
    ⟨0xA0024, 256, 0x40, 1, 0x0, 0x0, 0x0, 0x0⟩,
    ⟨0xA0028, 256, 0x40, 1, 0x0, 0x0, 0xFF, 0x0⟩,
    ⟨0xA002C, 256, 0x40, 1, 0x0, 0x0, 0x0, 0x0⟩,
    ⟨0xA0030, 256, 0x40, 1, 0x0, 0x0, 0x0, 0x0⟩,
    ⟨0xA0034, 256, 0x40, 1, 0x0, 0x0, 0x0, 0x0⟩,
    ⟨0xA0038, 256, 0x40, 1, 0x0, 0x0, 0x0, 0x0⟩ ]

/-- The rows of the WIT registers. -/
def rowsWIT : List Row :=
  [ ⟨0xB0000, 1, 0x0, 1, 0x0, 0x3, 0x0, 0x3⟩,
    ⟨0xB0004, 1, 0x0, 1, 0x0, 0xFFFFFFFF, 0x0, 0x3C01E40⟩,
    ⟨0xB0008, 1, 0x0, 1, 0x0, 0x0, 0x0, 0x80000000⟩,
    ⟨0xB000C, 1, 0x0, 1, 0x0, 0x0, 0x3F, 0x0⟩,
    ⟨0xB0010, 1, 0x0, 1, 0x0, 0x0, 0x0, 0x0⟩,
    ⟨0xB0014, 1, 0x0, 1, 0x0, 0x0, 0x0, 0x0⟩,
    ⟨0xB0018, 1, 0x0, 1, 0x0, 0x0, 0x0, 0x0⟩,
    ⟨0xB001C, 1, 0x0, 1, 0x0, 0x0, 0x0, 0x0⟩,
    ⟨0xB0020, 8, 0x4, 1, 0x0, 0x0, 0x0, 0x0⟩,
    ⟨0xB0040, 1, 0x0, 1, 0x0, 0x0, 0x0, 0x0⟩,
    ⟨0xB0044, 1, 0x0, 1, 0x0, 0x0, 0x0, 0x0⟩,
    ⟨0xB0048, 1, 0x0, 1, 0x0, 0x0, 0x0, 0x0⟩,
    ⟨0xB004C, 1, 0x0, 1, 0x0, 0x0, 0x0, 0x0⟩ ]

/-- The rows of the KEY registers. -/
def rowsKEY : List Row :=
  [ ⟨0xB8000, 1, 0x0, 1, 0x0, 0x0, 0x0, 0x0⟩,
    ⟨0xB8004, 1, 0x0, 1, 0x0, 0x0, 0x0, 0x0⟩,
    ⟨0xB8008, 1, 0x0, 1, 0x0, 0x0, 0x3, 0x0⟩,
    ⟨0xB8010, 1, 0x0, 1, 0x0, 0x0, 0x0, 0x0⟩,
    ⟨0xB8014, 1, 0x0, 1, 0x0, 0x0, 0x0, 0x0⟩,
    ⟨0xB8018, 1, 0x0, 1, 0x0, 0x0, 0x0, 0x0⟩,
    ⟨0xB801C, 1, 0x0, 1, 0x0, 0x0, 0x0, 0x0⟩,
    ⟨0xB8040, 16, 0x4, 1, 0x0, 0x0, 0x0, 0x0⟩,
    ⟨0xB8080, 16, 0x4, 1, 0x0, 0x0, 0x0, 0x0⟩,
    ⟨0xB80C0, 3, 0x4, 1, 0x0, 0x0, 0x0, 0x0⟩,
    ⟨0xB9000, 2048, 0x4, 1, 0x0, 0x0, 0x0, 0x0⟩ ]

/-- The rows of the FST registers. -/
def rowsFST : List Row :=
  [ ⟨0xC0000, 1, 0x0, 1, 0x0, 0xF, 0x0, 0x3⟩,
    ⟨0xC0004, 1, 0x0, 1, 0x0, 0x0, 0x0, 0x4000⟩,
    ⟨0xC0008, 1, 0x0, 1, 0x0, 0x0, 0x3FF, 0x0⟩,
    ⟨0xC000C, 1, 0x0, 1, 0x0, 0x0, 0x0, 0x0⟩,
    ⟨0xC0010, 1, 0x0, 1, 0x0, 0xFF, 0x0, 0x0⟩,
    ⟨0xC0014, 1, 0x0, 1, 0x0, 0xFFFFFFFF, 0x0, 0xBB80BB8⟩,
    ⟨0xC0018, 1, 0x0, 1, 0x0, 0xFFFFFFFF, 0x0, 0x6E08001E⟩,
    ⟨0xC001C, 1, 0x0, 1, 0x0, 0xFFFFFFFF, 0x0, 0xE42016D⟩,
    ⟨0xC0020, 1, 0x0, 1, 0x0, 0xFFFFFFF0, 0x0, 0xA850780⟩,
    ⟨0xC0024, 1, 0x0, 1, 0x0, 0xFFFFFFF0, 0x0, 0x552580⟩,
    ⟨0xC0028, 1, 0x0, 1, 0x0, 0xFFFFFFFF, 0x0, 0xC807D0⟩,
    ⟨0xC002C, 1, 0x0, 1, 0x0, 0xFFFF, 0x0, 0x1E06⟩,
    ⟨0xC0030, 1, 0, 1, 0, 0xFFFFFFFF, 0, 0x400⟩,
    ⟨0xC0034, 1, 0, 1, 0, 0xFFFFFFFF, 0, 0x0⟩,
    ⟨0xC003C, 1, 0, 1, 0, 0xFFFFFFFF, 0, 0x40⟩,
    ⟨0xC0040, 4, 0x4, 1, 0x0, 0x0, 0x0, 0x0⟩,
    ⟨0xC0050, 1, 0x0, 1, 0x0, 0x0, 0x0, 0x0⟩,
    ⟨0xC0054, 1, 0x0, 1, 0x0, 0x0, 0x0, 0x0⟩,
    ⟨0xC0058, 1, 0x0, 1, 0x0, 0x0, 0x0, 0x0⟩,
    ⟨0xC0060, 1, 0x0, 1, 0x0, 0x0, 0x0, 0x0⟩,
    ⟨0xC0064, 1, 0x0, 1, 0x0, 0x0, 0x0, 0x0⟩,
    ⟨0xC0068, 1, 0x0, 1, 0x0, 0x0, 0x0, 0x0⟩,
    ⟨0xC006C, 1, 0x0, 1, 0x0, 0x0, 0x0, 0x0⟩,
    ⟨0xC0070, 4, 0x4, 1, 0x0, 0x0, 0x0, 0x0⟩,
    ⟨0xC0080, 4, 0x4, 1, 0x0, 0x0, 0x0, 0x0⟩ ]

/-- The rows of the HST registers. -/
def rowsHST : List Row :=
  [ ⟨0xD0000, 4, 0x2000000, 1, 0x0, 0x40000000, 0x0, 0x0⟩,
    ⟨0xD0004, 4, 0x2000000, 1, 0x0, 0x0, 0x0, 0x3C000000⟩,
    ⟨0xD0008, 4, 0x2000000, 1, 0x0, 0x0, 0x7F, 0x0⟩,
    ⟨0xD000C, 4, 0x2000000, 1, 0x0, 0x7F, 0x0, 0x0⟩,
    ⟨0xD0010, 4, 0x2000000, 1, 0x0, 0xFF00FFFF, 0x0, 0x1000001⟩,
    ⟨0xD0014, 4, 0x2000000, 1, 0x0, 0x0, 0x0, 0x0⟩,
    ⟨0xD0018, 4, 0x2000000, 1, 0x0, 0x0, 0x0, 0x0⟩,
    ⟨0xD001C, 4, 0x2000000, 1, 0x0, 0x0, 0x0, 0x0⟩,
    ⟨0xD0020, 4, 0x2000000, 1, 0x0, 0xFFFFFFFF, 0x0, 0x0⟩,
    ⟨0xD0024, 4, 0x2000000, 1, 0x0, 0xFFFFFFFF, 0x0, 0x0⟩,
    ⟨0xD0028, 4, 0x2000000, 1, 0x0, 0xFFFFFFFF, 0x0, 0x0⟩,
    ⟨0xD002C, 4, 0x2000000, 1, 0x0, 0xFFFFFFFF, 0x0, 0x0⟩,
    ⟨0xD0030, 4, 0x2000000, 1, 0x0, 0xFF, 0x0, 0x0⟩,
    ⟨0xD0034, 4, 0x2000000, 1, 0x0, 0x0, 0x0, 0x0⟩,
    ⟨0xD0038, 4, 0x2000000, 1, 0x0, 0xFF, 0x0, 0x0⟩,
    ⟨0xD003C, 4, 0x2000000, 1, 0x0, 0x0, 0x0, 0x0⟩,
    ⟨0xD0100, 4, 0x2000000, 32, 0x8, 0xFFFFFFFF, 0x0, 0x0⟩,
    ⟨0xD0104, 4, 0x2000000, 32, 0x8, 0x0, 0x0, 0x0⟩,
    ⟨0xD4000, 4, 0x2000000, 4096, 0x4, 0xFFFFFFFF, 0x0, 0x0⟩,
    ⟨0xD8000, 4, 0x2000000, 4096, 0x4, 0xFFFFFFFF, 0x0, 0x0⟩,
    ⟨0xDC000, 4, 0x2000000, 4096, 0x4, 0x0, 0x0, 0x0⟩ ]

/-- The rows of the TW registers. -/
def rowsTW : List Row :=
  [ ⟨0xE0000, 1, 0, 1, 0, 0x36, 0, 0x12⟩,
    ⟨0xE1000, 1, 0, 1, 0, 0x38, 0, 0x10⟩,
    ⟨0xE0004, 2, 0x1000, 1, 0x0, 0x0, 0x0, 0x0⟩,
    ⟨0xE0008, 2, 0x1000, 1, 0x0, 0x0, 0x3FF, 0x0⟩,
    ⟨0xE000C, 2, 0x1000, 1, 0x0, 0xFFFFFFFF, 0x0, 0x38281818⟩,
    ⟨0xE0010, 2, 0x1000, 1, 0x0, 0xFFFFFFFF, 0x0, 0x18340C04⟩,
    ⟨0xE0014, 2, 0x1000, 1, 0x0, 0xF, 0x0, 0x2⟩,
    ⟨0xE0018, 2, 0x1000, 1, 0x0, 0x0, 0x0, 0x0⟩,
    ⟨0xE001C, 2, 0x1000, 1, 0x0, 0x0, 0x0, 0x0⟩ ]

/-- The rows of the BKP registers. -/
def rowsBKP : List Row :=
  [ ⟨0xF0000, 1, 0x0, 1, 0x0, 0x3, 0x0, 0x0⟩,
    ⟨0xF0004, 1, 0x0, 1, 0x0, 0x0, 0x0, 0x10800000⟩,
    ⟨0xF0008, 1, 0x0, 1, 0x0, 0x0, 0xFFFF, 0x0⟩,
    ⟨0xF0010, 1, 0x0, 1, 0x0, 0x0, 0x0, 0x0⟩,
    ⟨0xF0014, 1, 0x0, 1, 0x0, 0x0, 0x0, 0x0⟩,
    ⟨0xF0018, 1, 0x0, 1, 0x0, 0x0, 0x0, 0x0⟩,
    ⟨0xF001C, 1, 0x0, 1, 0x0, 0x0, 0x0, 0x7E40101⟩,
    ⟨0xF0020, 1, 0x0, 1, 0x0, 0x0, 0x0, 0x2000000⟩,
    ⟨0xF0024, 1, 0x0, 1, 0x0, 0x0, 0x0, 0x0⟩,
    ⟨0xF0028, 1, 0x0, 1, 0x0, 0x0, 0x0, 0x0⟩,
    ⟨0xF002C, 1, 0x0, 1, 0x0, 0x0, 0x0, 0x0⟩,
    ⟨0xF0030, 1, 0x0, 1, 0x0, 0x0, 0x0, 0x0⟩,
    ⟨0xF0034, 1, 0x0, 1, 0x0, 0x0, 0x0, 0x0⟩,
    ⟨0xF0038, 1, 0x0, 1, 0x0, 0xFFFFFFFF, 0x0, 0x0⟩,
    ⟨0xF003C, 1, 0x0, 1, 0x0, 0xFFFF, 0x0, 0x0⟩,
    ⟨0xF0040, 1, 0x0, 1, 0x0, 0x7FFF, 0x0, 0x0⟩,
    ⟨0xF0044, 1, 0x0, 1, 0x0, 0xFFFF0F1F, 0x0, 0x7E40101⟩,
    ⟨0xF0048, 1, 0x0, 1, 0x0, 0x1F3F3F, 0x0, 0x0⟩,
    ⟨0xF004C, 1, 0x0, 1, 0x0, 0xF00007FF, 0x0, 0xA0000000⟩,
    ⟨0xF0050, 1, 0x0, 1, 0x0, 0xFFFFFFFF, 0x0, 0x0⟩,
    ⟨0xF0054, 1, 0x0, 1, 0x0, 0xFFFF, 0x0, 0x0⟩,
    ⟨0xF0058, 1, 0x0, 1, 0x0, 0x80007FFF, 0x0, 0x0⟩,
    ⟨0xF0060, 8, 0x4, 1, 0x0, 0xFFFFFFFF, 0x0, 0x7FFF⟩,
    ⟨0xF0080, 1, 0x0, 1, 0x0, 0xFFF, 0x0, 0xF000F00⟩,
    ⟨0xF0084, 1, 0x0, 1, 0x0, 0xEFEFCF00, 0x0, 0x4040400⟩,
    ⟨0xF0088, 1, 0x0, 1, 0x0, 0x0, 0x0, 0x0⟩,
    ⟨0xF0090, 2, 0x8, 1, 0x0, 0x0, 0x0, 0x0⟩,
    ⟨0xF0094, 2, 0x8, 1, 0x0, 0x0, 0x0, 0x0⟩,
    ⟨0xF00A0, 1, 0x0, 1, 0x0, 0x0, 0x0, 0x0⟩,
    ⟨0xF00A4, 1, 0x0, 1, 0x0, 0x0, 0x0, 0x0⟩,
    ⟨0xF00A8, 1, 0x0, 1, 0x0, 0x0, 0x0, 0x0⟩,
    ⟨0xF00AC, 1, 0x0, 1, 0x0, 0x0, 0x0, 0x0⟩,
    ⟨0xF00B0, 1, 0x0, 1, 0x0, 0x0, 0x0, 0x0⟩,
    ⟨0xF00B4, 1, 0x0, 1, 0x0, 0x0, 0x0, 0x0⟩,
    ⟨0xF00C0, 16, 0x4, 1, 0x0, 0xFFFFFFFF, 0x0, 0x0⟩ ]

/-- The rows of the SNP registers. -/
def rowsSNP : List Row :=
  [ ⟨0x100000, 1, 0x0, 1, 0x0, 0x1F1, 0x0, 0xE1⟩,
    ⟨0x100004, 1, 0x0, 1, 0x0, 0x0, 0x0, 0x0⟩,
    ⟨0x100008, 1, 0x0, 1, 0x0, 0x0, 0x1F, 0x0⟩,
    ⟨0x10000C, 1, 0x0, 1, 0x0, 0x0, 0x0, 0x0⟩,
    ⟨0x100010, 1, 0x0, 1, 0x0, 0x0, 0x0, 0x0⟩,
    ⟨0x100014, 1, 0x0, 1, 0x0, 0x0, 0x0, 0x0⟩,
    ⟨0x100018, 1, 0x0, 1, 0x0, 0x0, 0x0, 0x0⟩,
    ⟨0x10001C, 1, 0x0, 1, 0x0, 0x0, 0x0, 0x0⟩,
    ⟨0x100020, 1, 0x0, 1, 0x0, 0x0, 0x0, 0x0⟩,
    ⟨0x100024, 1, 0x0, 1, 0x0, 0x0, 0x0, 0x0⟩,
    ⟨0x100028, 1, 0x0, 1, 0x0, 0x0, 0x0, 0x0⟩,
    ⟨0x10002C, 1, 0x0, 1, 0x0, 0x0, 0x0, 0x0⟩,
    ⟨0x100030, 3, 0x4, 1, 0x0, 0x0, 0x0, 0x0⟩,
    ⟨0x100040, 8, 0x4, 1, 0x0, 0x0, 0x0, 0x0⟩,
    ⟨0x100060, 1, 0x0, 1, 0x0, 0x0, 0x0, 0x0⟩,
    ⟨0x100064, 1, 0x0, 1, 0x0, 0x0, 0x0, 0x0⟩,
    ⟨0x100068, 1, 0x0, 1, 0x0, 0x0, 0x0, 0x0⟩,
    ⟨0x10006C, 1, 0x0, 1, 0x0, 0x0, 0x0, 0x0⟩,
    ⟨0x100070, 1, 0x0, 1, 0x0, 0x0, 0x0, 0x0⟩,
    ⟨0x100074, 1, 0x0, 1, 0x0, 0x0, 0x0, 0x0⟩,
    ⟨0x100080, 1, 0x0, 1, 0x0, 0x0, 0x0, 0x0⟩,
    ⟨0x100084, 1, 0x0, 1, 0x0, 0x0, 0x0, 0x0⟩,
    ⟨0x100088, 1, 0x0, 1, 0x0, 0x3FF, 0x0, 0x0⟩,
    ⟨0x1000A0, 1, 0x0, 1, 0x0, 0xFFFFFFFF, 0x0, 0x258003C⟩,
    ⟨0x1000A4, 1, 0x0, 1, 0x0, 0x0, 0x0, 0x0⟩,
    ⟨0x1000C0, 8, 0x4, 1, 0x0, 0xFFFFFFFF, 0x0, 0x0⟩,
    ⟨0x100400, 256, 0x8, 1, 0x0, 0x0, 0x0, 0x0⟩,
    ⟨0x100404, 256, 0x8, 1, 0x0, 0x0, 0x0, 0x0⟩,
    ⟨0x101000, 256, 0x4, 1, 0x0, 0x0, 0x0, 0x0⟩,
    ⟨0x108000, 8192, 0x4, 1, 0x0, 0x0, 0x0, 0x0⟩ ]

/-- The rows of the FLT registers. -/
def rowsFLT : List Row :=
  [ ⟨0x110000, 1, 0x0, 1, 0x0, 0x0, 0x0, 0x0⟩,
    ⟨0x110004, 1, 0x0, 1, 0x0, 0x0, 0x0, 0x10000000⟩,
    ⟨0x110008, 1, 0x0, 1, 0x0, 0x0, 0x7F, 0x0⟩,
    ⟨0x11000C, 1, 0x0, 1, 0x0, 0x0, 0x0, 0x0⟩,
    ⟨0x110010, 1, 0x0, 1, 0x0, 0x0, 0x0, 0x0⟩,
    ⟨0x110014, 1, 0x0, 1, 0x0, 0x0, 0x0, 0x0⟩,
    ⟨0x110018, 1, 0x0, 1, 0x0, 0x0, 0x0, 0x0⟩,
    ⟨0x11001C, 1, 0x0, 1, 0x0, 0x0, 0x0, 0x0⟩,
    ⟨0x110020, 1, 0x0, 1, 0x0, 0x0, 0x0, 0x0⟩,
    ⟨0x110028, 1, 0x0, 1, 0x0, 0x0, 0x0, 0x0⟩,
    ⟨0x11002C, 1, 0x0, 1, 0x0, 0x0, 0x0, 0x0⟩,
    ⟨0x110030, 1, 0x0, 1, 0x0, 0x0, 0x0, 0x0⟩,
    ⟨0x110034, 1, 0x0, 1, 0x0, 0x0, 0x0, 0x0⟩,
    ⟨0x110038, 1, 0x0, 1, 0x0, 0x0, 0x0, 0x0⟩,
    ⟨0x110400, 64, 0x10, 4, 0x4, 0x0, 0x0, 0x0⟩ ]

/-- The rows of the SE registers. -/
def rowsSE : List Row :=
  [ ⟨0x120000, 8, 0x1000, 1, 0x0, 0x0, 0x0, 0x0⟩,
    ⟨0x120004, 8, 0x1000, 1, 0x0, 0x0, 0x0, 0x0⟩,
    ⟨0x120008, 8, 0x1000, 1, 0x0, 0x80000000, 0x0, 0x0⟩,
    ⟨0x12000C, 8, 0x1000, 1, 0x0, 0x0, 0x0, 0x0⟩,
    ⟨0x120010, 8, 0x1000, 1, 0x0, 0x0, 0x0, 0x0⟩,
    ⟨0x120014, 8, 0x1000, 1, 0x0, 0x0, 0x0, 0x0⟩,
    ⟨0x120018, 8, 0x1000, 1, 0x0, 0x0, 0x0, 0x0⟩ ]

/-- The rows of the CTX registers. -/
def rowsCTX : List Row :=
  [ ⟨0x1000000, 256, 0x10000, 1, 0x0, 0xFFFF, 0x0, 0x0⟩,
    ⟨0x1000004, 256, 0x10000, 1, 0x0, 0x3FFF, 0x0, 0x3001⟩,
    ⟨0x1000008, 256, 0x10000, 1, 0x0, 0x0, 0x0, 0x0⟩,
    ⟨0x100000C, 256, 0x10000, 1, 0x0, 0x0, 0x0, 0x0⟩,
    ⟨0x1000010, 256, 0x10000, 1, 0x0, 0x0, 0x0, 0x0⟩,
    ⟨0x1000014, 256, 0x10000, 1, 0x0, 0x0, 0x0, 0x0⟩,
    ⟨0x1000018, 256, 0x10000, 1, 0x0, 0x0, 0x0, 0x0⟩,
    ⟨0x100001C, 256, 0x10000, 1, 0x0, 0x0, 0x0, 0x0⟩,
    ⟨0x1000020, 256, 0x10000, 1, 0x0, 0x0, 0x0, 0x0⟩,
    ⟨0x1000024, 256, 0x10000, 1, 0x0, 0x0, 0x0, 0x0⟩,
    ⟨0x1000028, 256, 0x10000, 1, 0x0, 0x0, 0x0, 0x0⟩,
    ⟨0x1000100, 256, 0x10000, 64, 0x4, 0x0, 0x0, 0x0⟩,
    ⟨0x1000040, 256, 0x10000, 28, 0x4, 0x0, 0x0, 0xFFFFFFFF⟩ ]

/-- Every row of the map. -/
def rows : List Row :=
  rowsTOP ++ rowsBOOT ++ rowsTB ++ rowsSCS ++ rowsCCS ++ rowsICS ++ rowsFE ++ rowsCHZ ++ rowsCHN ++ rowsCAL ++ rowsSEQ ++ rowsLDG ++ rowsBRS ++ rowsWIT ++ rowsKEY ++ rowsFST ++ rowsHST ++ rowsTW ++ rowsBKP ++ rowsSNP ++ rowsFLT ++ rowsSE ++ rowsCTX

/-- The word at `a` lies in this row. -/
def Row.has (r : Row) (a : Nat) : Bool :=
  let d := a - r.base
  let i := if r.s1 = 0 then 0 else d / r.s1
  let rest := d - i * r.s1
  let j := if r.s2 = 0 then 0 else rest / r.s2
  decide (r.base ≤ a) && decide (i < r.c1) && decide (j < r.c2) && decide (rest = j * r.s2)

/-- The row that describes the word at `a`, if the map lists one. -/
def rowOf (a : Nat) : Option Row := rows.find? (fun r => r.has a)

/-- The reset value of the word at `a` by the tables: 0 where they list none. -/
def resetOf (a : Nat) : Word := BitVec.ofNat 32 (((rowOf a).map (·.reset)).getD 0)

end Sys2Proof.Machine.Reg
end

