-- ==== Sys2Proof/Machine/State.lean ====
section
/-!
DEFINITION. The state of the DNL-8256 as a block: every register (one sparse register file), every piece of internal
state the spec's rules name, and the queue of commands that wait. Plain data throughout.
-/

namespace Sys2Proof.Machine

/-- Why the machine stops with a fault: nothing. No rule of the spec ends the machine's run; every fault the spec describes
(F0 to F5, context trips, port errors) is an effect on the state. Kept as a closed type with one constructor that no meaning
raises. Safe: a stop could only make fewer claims provable. -/
inductive Fault where
  /-- Never raised. -/
  | none
deriving DecidableEq, Repr

/-- Why a command is refused. -/
inductive Refusal where
  /-- The command has no meaning yet (raised by Dispatch only). Safe: the run stops. -/
  | notModelled (mnemonic : String)
deriving DecidableEq, Repr

/-- The register file: (address, word) pairs, addresses strictly rising, no pair equal to the table's reset value. -/
abbrev RegFile := List (Nat × Word)


/-! ## Timebase (chapter 2) -/

/-- The three disciplining classes of R37, in order of preference. -/
inductive TimeClass where
  | bcast
  | pps
  | host
deriving DecidableEq, Repr

/-- UTC information of a time observation (R182, R36). -/
structure UtcInfo where
  pend : Nat := 0
  delta : Nat := 0
  ofs : Nat := 0
  leapAt : Nat := 0
deriving DecidableEq, Repr

/-- One time observation (R38, R40, R182): its class, the transmitter (kind and identifier), the claimed DTS in seconds at
the epoch stu, its bound in ns and its UTC information. -/
structure Obs where
  cls : TimeClass
  tx : Nat := 0
  claim : Rat
  epoch : Nat
  bound : Nat
  utc : Option UtcInfo := none
deriving DecidableEq, Repr

/-- A correction of DTS already made (R39): its class and the DTS of its evaluation. -/
structure Correction where
  cls : TimeClass
  dts : Rat
deriving DecidableEq, Repr

/-- A WALK in progress (R51): the phase measured at the edge, its stu and the rate; `frozen` holds the residual while REF_IN
is lost again (R52). -/
structure Walk where
  e : Int
  start : Nat
  ppm : Nat
  frozen : Option Rat := none
deriving DecidableEq, Repr

/-- The registers a read of TB_STU_LO latches for one tenant (R32). -/
structure TbLatch where
  stuHi : Word := 0
  tickLo : Word := 0
  tickHi : Word := 0
  secLo : Word := 0
  secHi : Word := 0
  frac : Word := 0
  qLo : Word := 0xFFFFFFFF
  qHi : Word := 0
deriving DecidableEq, Repr

/-- The timebase (R30 to R53). -/
structure TimeS where
  /-- TB_STU (R30). -/
  stu : Nat := 0
  /-- TB_TICK (R31). -/
  tick : Nat := 0
  /-- The latch of each tenant (R32). -/
  latches : List TbLatch := List.replicate 4 {}
  /-- The mapping DTS(s) = a + (s - s0) * k of R35. -/
  a : Rat := 0
  s0 : Nat := 0
  k : Rat := 1 / 6144000000
  /-- The part of a slew not yet run at `s0`, seconds (R39). -/
  slew : Rat := 0
  /-- The slew rate of that slew, a pure ratio. -/
  slewRate : Rat := 0
  /-- UNC in ns at `uncAt`; none while no bound is known (R53). -/
  unc : Option Rat := none
  uncAt : Nat := 0
  /-- New observations since the last evaluation (R38). -/
  obs : List Obs := []
  /-- Accepted broadcast observations: the stu of their evaluation and the transmitter (R37). -/
  bcastHist : List (Nat × Nat) := []
  /-- The stu of the accepted PPS_IN edges of the last 12 s (R37). -/
  ppsHist : List Nat := []
  /-- Host claims that wait for the next tick boundary (R40). -/
  claims : List Obs := []
  /-- A host claim has been applied since reset (R37). -/
  hostValid : Bool := false
  /-- The run of rejecting evaluations and the class in use it belongs to (R38). -/
  rejRun : Nat := 0
  rejCls : Option TimeClass := none
  /-- The previous correction (R39). -/
  prev : Option Correction := none
  /-- Consecutive accepted PPS_IN edges outside and within the limit of R44. -/
  spoofBad : Nat := 0
  spoofGood : Nat := 0
  /-- The PPS_IN window whose second has been judged: the last whole second with an accepted or a missed edge (R43). -/
  ppsSecond : Nat := 0
  /-- PPS_OUT, the stu of its last rise, the last whole second pulsed or omitted, and whether DTS has stepped since that rise (R45). -/
  ppsOut : Bool := false
  ppsRise : Option Nat := none
  ppsOutSecond : Nat := 0
  stepped : Bool := false
  /-- TICK_OUT and the stu of its last rise (R46). -/
  tickOut : Bool := false
  tickOutRise : Nat := 0
  /-- The tick of the last disciplining evaluation (R38). -/
  lastEval : Nat := 0
  /-- The stu at which TB_UTC.PEND was last set (R36). -/
  pendSet : Nat := 0
  /-- Qualifying windows and windows outside 49 ppm, consecutive, since REF_IN returned (R49, R52). -/
  qualWins : Nat := 0
  newRefWins : Nat := 0
  /-- The realignment selected at REF_BACK and not yet made: true for WALK (R49). -/
  realign : Option Bool := none
  walk : Option Walk := none
  /-- SCS was locked when REF_IN was lost (R59). -/
  lockedAtLoss : Bool := false
  /-- The hottest sensor when REF_IN was lost, 1/16 degree (R48). -/
  lossTemp : Int := 0
  /-- The stu of the last event bits that hardware set, and those bits (address, bit): a write at that stu does not clear them (R7). -/
  evtStu : Nat := 0
  evtBits : List (Nat × Nat) := []
  /-- The stu at which TB_LEAP_AT was last set (R36). -/
  leapSet : Nat := 0
  /-- Observations rejected (R38) and stray edges (R43) counted since reset; no register shows them. -/
  rejCount : Nat := 0
  strays : Nat := 0
deriving DecidableEq, Repr

/-! ## Host ports and tenancy (chapter 15) -/

/-- A completion entry (R407): the 40 result bytes are `result`. -/
structure Cpl where
  tag : Nat
  opcode : Nat
  phase : Bool := true
  status : Nat
  accept : Nat
  written : Nat
  result : List Byte := []
  /-- The quality words of its two stamps (R53; log entry 85). -/
  quals : Nat × Nat := (0, 0)
deriving DecidableEq, Repr

/-- One entry of the tenancy table (R396). -/
structure TenEntry where
  enabled : Bool := false
  ports : Nat := 0
  ctxBase : Nat := 0
  ctxCount : Nat := 0
  engShare : Nat := 0
  nrgShare : Nat := 0
  storeQ : Nat := 0
  flashQ : Nat := 0
  rights : Nat := 0
  kids : List (List Byte) := []
deriving DecidableEq, Repr

/-- An event that waits for a free completion entry: kinds 1 and 2 (R408). -/
structure WaitEvent where
  ctx : Nat
  kind : Nat
  cpl : Cpl
deriving DecidableEq, Repr

/-- One stream of a tenant (R413, R414): mode, host buffer, write-back address and the entries that wait, oldest first, each as
its bytes with the context and port that wrote it (none for a LOST entry of the passage stream). The stream's read and write
offsets are HST_SRD and HST_SWR. -/
structure StreamS where
  push : Bool := false
  base : Nat := 0
  size : Nat := 0
  writeBack : Nat := 0
  entries : List (Option (Nat × Nat) × List Byte) := []
deriving DecidableEq, Repr

/-- An image that has arrived whole: its bytes, the load's tag and acceptance, and the stu by which its verification ends (R411). -/
structure ImgLoad where
  bytes : List Byte
  tag : Nat
  accept : Nat
  due : Nat
deriving DecidableEq, Repr

/-- A partial image load (R411). -/
structure PartLoad where
  bytes : List Byte := []
deriving DecidableEq, Repr

/-- What one tenant's host interface holds beside its HST registers. -/
structure TenantS where
  /-- PHASE of the next completion entry (R404). -/
  phase : Bool := true
  /-- Accepted commands whose completion is not yet written: each holds a free entry (R405). -/
  inflight : Nat := 0
  /-- The stu at which the rings were last enabled: completions of commands accepted before it are lost (R417). -/
  ringAt : Nat := 0
  /-- Commands taken in the current tick (R405). -/
  taken : Nat := 0
  /-- The stu after its last accepted command or checked request (R249); 0 before the first. -/
  tookAt : Nat := 0
  /-- The completion ring as the device wrote it: (index, entry), indexes rising. -/
  ring : List (Nat × Cpl) := []
  /-- The stus at which the unread completions since the CPL cause last fired were written, oldest first (R416). -/
  fresh : List Nat := []
  /-- Waiting events of kinds 1 and 2, one per context and kind (R408). -/
  waitEvents : List WaitEvent := []
  /-- Waiting request completions, oldest first, at most 64 (R409). -/
  waitReqs : List Cpl := []
  load : Option PartLoad := none
  streams : List StreamS := List.replicate 32 {}
  /-- The sequence of the next passage record the passage stream delivers (R352). -/
  passage : Nat := 0
  /-- MSI-X vectors raised since the last command, and the Host Notify wanted (R416). -/
  vectors : List Nat := []
  /-- DMA writes that wait while Bus Master Enable is 0 (R392). -/
  held : List (Nat × List Byte) := []
  /-- Images that have arrived whole and are being verified, oldest first (R411). -/
  verify : List ImgLoad := []
  /-- The data window and the command ring of SPI and TWA, bytes by their offset in the tenant's HST view; an unlisted byte reads 0 (R404, R406). -/
  window : List (Nat × Byte) := []
deriving DecidableEq, Repr

/-- The stu of the first unread completion since the CPL cause last fired (R416). -/
def TenantS.firstUnread (x : TenantS) : Option Nat := x.fresh.head?

/-- One host port (R390 to R400): PE0, PE1, SPI, TWA. -/
structure PortS where
  busMaster : Bool := false
  dma : Bool := false
  nonce : Option (List Byte) := none
  /-- The stu at which the proof in force ends (R400). -/
  proof : Option Nat := none
  /-- SHA-256 of the owner certificate of that proof (R346). -/
  cert : List Byte := []
deriving DecidableEq, Repr

/-- The words and bytes the device last drove out of a port, and the DMA writes of the present tick (address, bytes): outputs,
replaced by the next transfer and the next tick. -/
structure PortOut where
  bytes : List Byte := []
  words : List Word := []
  dma : List (Nat × List Byte) := []
deriving DecidableEq, Repr

/-- Host ports and tenancy. -/
structure HostS where
  tenants : List TenantS := List.replicate 4 {}
  table : List TenEntry := List.replicate 4 {}
  /-- PE0, PE1, SPI, TWA, and the JTAG TAP as number 4, whose proof R535 describes. -/
  ports : List PortS := List.replicate 5 {}
  out : PortOut := {}
  /-- The owner anchor: the 65-byte public point (R399). -/
  anchor : Option (List Byte) := none
  /-- Ports are bound to tenants: the mount has ended (R507). -/
  bound : Bool := false
  /-- HIRQ0_N to HIRQ3_N held low (R416). -/
  hirq : List Bool := [false, false, false, false]
deriving DecidableEq, Repr

/-! ## Snapshots, faults, boot (chapters 18, 19, 20) -/

/-- A change the block map of R468 shows: its stu, the converter (WA 0, WB 1; 2 for both), and the gain step and the void before
and after; `skip` marks a STEP skip. -/
structure RawNote where
  stu : Nat
  conv : Nat
  gain : Nat × Nat := (0, 0)
  void : Bool × Bool := (false, false)
  skip : Bool := false
  /-- The labels a STEP skips: those before `stu`. -/
  len : Nat := 0
deriving DecidableEq, Repr

/-- One telemetry record's bytes are formed at a whole second; the newest 16 and those not yet journalled are held (R474). -/
structure SnapS where
  telemetry : List (List Byte) := []
  unjournalled : List (List Byte) := []
  /-- Faults of class F0 to F4 logged in the second (R474). -/
  secondFaults : List Nat := [0, 0, 0, 0, 0]
  /-- The stu at which the raw buffer began to record, none while RAWON is 0 (R466). -/
  rawFrom : Option Nat := none
  /-- The raw buffer is reserved (R466). -/
  rawHeld : Bool := false
  /-- The samples the capture recorded of WA and WB, (index, code), an unlisted one being 0, and the indexes of their clips (R467, R468). -/
  rawCodes : List (List (Nat × Nat)) := [[], []]
  rawClips : List (List Nat) := [[], []]
  /-- Changes of gain and void in the recording, and STEP skips, oldest first (R468). -/
  rawNotes : List RawNote := []
  /-- The 64-byte words of the raw buffer in which an uncorrectable error has been met: they read 0 (R480). -/
  rawBad : List Nat := []
  /-- The last known-answer test of each unit, stu (R473, R484): engines 0 to 7, accelerator units 8 to 17, the standby warden 18; and the banks in retention that
  the last pass of the store scrubber left out (R472). -/
  lastTest : List Nat := List.replicate 19 0
  asleep : List Nat := []
  /-- Last completion of each wind-up class, stu (R471), and since when each is escalated. -/
  lastDone : List Nat := [0, 0, 0, 0, 0, 0]
  escSince : List (Option Nat) := [none, none, none, none, none, none]
deriving DecidableEq, Repr

/-- The supervisors (R481 to R489). -/
structure FaultS where
  /-- Entries written into FLT_LOG since it was last empty (R479). -/
  logged : Nat := 0
  /-- The tick whose heartbeat deadline has been judged last (R481). -/
  judged : Nat := 0
  /-- A failover in progress: the stu by which the new warden's first heartbeat falls (R483). -/
  failover : Option Nat := none
  /-- The code and the warden of that failover, logged at the new warden's first heartbeat (R483). -/
  failCode : Nat := 0
  failUnit : Nat := 0
  /-- Missed heartbeats of the new warden before its first plan (R485). -/
  newMiss : Nat := 0
  /-- The tick at whose boundary the standby's mirror was filled last (R482 to R484), none while there is no standby. -/
  mirror : Option Nat := none
  /-- The state of the Tin Soldier's three channels: the action each took at the last step (R486). -/
  chans : List Nat := [0, 0, 0]
  /-- The stu at which a restart put the compute island and the wardens into reset, and the source of the warden firmware it starts: 0 or 1 an image-zone copy, 2 that
  retained at boot (R487). -/
  resetAt : Nat := 0
  source : Option Nat := none
  /-- Self-tests a warden under test has passed since its reset (R484), WDA and WDB. -/
  passed : List Nat := [0, 0]
  /-- A Tin Soldier restart in progress: its trigger stu; the steps done: 1 the boundary, 2 the resets released, 3 the firmware
  read (R487). -/
  restart : Option Nat := none
  restartStep : Nat := 0
  /-- WDA was quarantined before the restart. -/
  wdaQuar : Bool := false
  wdbQuar : Bool := false
  /-- Trigger stus of the F4s of the last 60 s (R488). -/
  f4s : List Nat := []
  /-- Trouble of the tick for availability (R493, R494): the tick is excluded, the tick is unavailable. -/
  excluded : Bool := false
  bad : Bool := false
deriving DecidableEq, Repr

/-- Time quality as records carry it (R336 key 6): SRC, flags, UNC in ns, RESID in stu; and DTS, seconds and fraction (key 4). -/
structure WitTime where
  sec : Nat := 0
  frac : Nat := 0
  src : Nat := 0
  flags : Nat := 0
  unc : Nat := 0
  resid : Int := 0
deriving DecidableEq, Repr

/-- Boot and the pins of reset (R498 to R513). -/
structure BootS where
  /-- RESET_N is held low: the state after reset is that of the instant before its release (log entry 34). -/
  resetLow : Bool := true
  /-- TMODE is at 1 (R534). -/
  tmode : Bool := false
  /-- A supply of steps 2 and 3 lies below its reset threshold (R500). -/
  supplyLow : Bool := false
  /-- A power-on reset or supply trip held the device in reset since the last boot. -/
  supmon : Bool := false
  /-- The hibernation hold is in force (R511). -/
  hold : Bool := false
  /-- The boot ROM runs: from the release of reset until warden firmware runs. -/
  rom : Bool := true
  /-- The boot ROM runs on WDB, WDA having failed its ROM self-test. -/
  onB : Bool := false
  /-- The boot ROM waits in recovery (R504). -/
  recovery : Bool := false
  /-- GO is being carried out, and STORE with it (R505). -/
  going : Option Bool := none
  /-- The verified firmware, retained in the device's own store area (R505). -/
  firmware : List Byte := []
  /-- Firmware appended through the boot window, LAST seen, and the port that holds the window (R505). -/
  loaded : List Byte := []
  last : Bool := false
  windowPort : Option Nat := none
  /-- Firmware runs; the first planned tick has passed (R506); its TB_TICK. -/
  planned : Bool := false
  firstTick : Nat := 240
  /-- The stu at which firmware was verified. -/
  verifiedAt : Option Nat := none
  /-- HIBERNATE entry in progress: its boundary B (stu) and the step reached (R510). -/
  hiber : Option (Nat × Nat) := none
  /-- An F5 reset holds the device until its end (R491). -/
  f5 : Bool := false
  /-- The EVT record of the boot has been formed (R509). -/
  bootEvt : Bool := false
  /-- The time at the first planned tick (R336, R509). -/
  firstTime : Option WitTime := none
deriving DecidableEq, Repr

/-! ## Clock synthesizers (chapter 3) and two-wire buses (chapter 16) -/

/-- Where a lock machine of SCS or CCS stands (R56, R57, R59). -/
inductive LoopPhase where
  /-- Not started. -/
  | idle
  /-- Search step `k` of 6, the interval of bands [lo, hi) (R56). -/
  | search (k lo hi : Nat)
  /-- The loop closes for 256 rc. -/
  | settle
  /-- Counting windows: windows done and consecutive good ones (R57). -/
  | count (win good : Nat)
  /-- Lock declared. -/
  | locked
  /-- A failed search waits for its next attempt (R61, R75). -/
  | failed
  /-- The attempt was abandoned when REF_IN was lost and starts anew at its return (R59). -/
  | waitRef
deriving DecidableEq, Repr

/-- One lock machine. -/
structure LoopS where
  phase : LoopPhase := .idle
  /-- The stu at which the present step or window began. -/
  since : Nat := 0
  /-- Failed attempts since the last lock. -/
  fails : Nat := 0
  /-- The tick of the next retry (R61, R75). -/
  retry : Nat := 0
  /-- The last 16 window counts, newest first (R47). -/
  counts : List Nat := []
  /-- The control word held while coasting, as the window count it stands for: the mean of the last 16 windows, or 1024 where CCS holds the base its profile
  reached (R47, R80). -/
  held : Option Rat := none
  /-- The control word held before the WALK in progress (R52). -/
  before : Option Rat := none
deriving DecidableEq, Repr

/-- One ramp segment (R63). -/
structure Seg where
  target : Nat
  slope : Nat
  last : Bool
deriving DecidableEq, Repr

/-- A raise that awaits confirmation (R69): its target in cpt, the voltage commanded for it, the tick from which its limit of 30
ticks counts, and the stu at which VOUT_COMMAND was written, none until then. -/
structure RaiseS where
  target : Nat
  mv : Nat
  since : Nat
  written : Option Nat
  confirmed : Bool := false
deriving DecidableEq, Repr

/-- The core clock synthesizer (R62 to R75). -/
structure CcsS where
  loop : LoopS := {}
  /-- The accumulator of R62 and the base as they stood before evaluation `rc0` of the tick, and the target; 1/16 cpt. -/
  rc0 : Nat := 0
  acc : Nat := 0
  base16 : Nat := 2048000
  target16 : Nat := 2048000
  slope16 : Nat := 0
  /-- The segment running started at this stu; none while none runs. -/
  segStart : Option Nat := none
  /-- That segment has reached its target in this tick, which CCS holds to the boundary (R64). -/
  reached : Bool := false
  /-- The cycles that a STEP realignment has taken out of this tick (R50). -/
  stepCut : Nat := 0
  /-- Segments of the profile still to start (R64). -/
  segs : List Seg := []
  /-- A profile planned for the next boundary (R69, R70, R72). -/
  planned : List Seg := []
  /-- SSC and FMAX in force (R66). -/
  ssc : Nat := 0
  fmax : Nat := 512000
  /-- Lock was declared and the core returns to CCS at the next boundary (R75). -/
  returnDue : Bool := false
  /-- The stu in the tick in progress at which the core switched to SAFE_OSC (R73, R74). -/
  switchAt : Option Nat := none
  raise : Option RaiseS := none
  /-- No raise before this tick (R69). -/
  noRaise : Nat := 0
  /-- The voltage commanded, mV; and a VOUT_COMMAND still to be written. -/
  mv : Nat := 750
  vcmd : Option Nat := none
  /-- A voltage to command once the down profile has ended (R70). -/
  lowerTo : Option Nat := none
  /-- The down profile a low reading asks for at the next boundary; the profile planned is such a fall, which starts whatever profile runs (R72). -/
  vlow : Option Nat := none
  steep : Bool := false
  /-- The frequency the ledger chose (R282), cpt. -/
  chosen : Nat := 128000
  /-- The last reading: READ_VOUT in mV, its stu, and whether STATUS_WORD was clean; the mV of a reading still under way; the
  stu and tick at which the last reading started (R69, R72). -/
  readMv : Nat := 0
  readStu : Nat := 0
  readOk : Bool := false
  readSinceCmd : Bool := false
  pendMv : Option Nat := none
  readStart : Nat := 0
  readTick : Nat := 0
  /-- A reading is under way: 0 none, 1 READ_VOUT next, 2 STATUS_WORD next, 3 READ_IOUT next. -/
  readStage : Nat := 0
  /-- OPERATION has been written since the last reset (R561). -/
  operation : Bool := false
deriving DecidableEq, Repr

/-- Where the ICS lock sequence stands (R77, R78). -/
inductive IcsPhase where
  | idle
  | precharge
  | released
  | locked
  /-- Timed mode: the fault's stu is `since`. -/
  | timed
  | waitRef
deriving DecidableEq, Repr

/-- The synthesizers. -/
structure ClockS where
  scs : LoopS := {}
  ccs : CcsS := {}
  ics : IcsPhase := .idle
  icsSince : Nat := 0
  /-- The control word ICS holds while coasting, as the mean window count it stands for (R47), and the one held before the walk in progress (R52). -/
  icsWord : Option Rat := none
  icsBefore : Option Rat := none
deriving DecidableEq, Repr

/-- One two-wire bus (R420 to R436). -/
structure BusS where
  /-- The timing in force, taken at a START (R431): the words of TW_TIM0 to TW_TIM2. -/
  tim : List Word := []
  /-- TWA: the address a transfer to the device has set (R394). -/
  addr : Nat := 0
  /-- Host Notify: wanted, and refusals so far (R423); the condition when last looked at. -/
  notify : Bool := false
  refusals : Nat := 0
  pendingWas : Bool := false
  /-- TWA_ALERT_N held low; released after a won ARA read until the next cause (R424). -/
  alert : Bool := false
  alertDone : Bool := false
  /-- TWB: the transaction in hand was refused once and repeats after bus-free (R427). -/
  repeated : Bool := false
  /-- A transaction waits for bus-free (R428, R433). -/
  retry : Bool := false
  /-- The last transaction the device drove: the address, the code or first byte, and the bytes after it. -/
  last : Option (Nat × Nat × List Byte) := none
deriving DecidableEq, Repr

/-! ## Images, contexts and engine runs (chapters 7 and 8) -/

/-- A sparse byte memory: (address, byte) pairs, addresses strictly rising, no byte 0; an unlisted byte reads 0 (R166, R168). -/
abbrev Mem := List (Nat × Byte)

/-- A cue handler of an image (R188): its kind, SAME or NEXT, reservation count, code and costs. -/
structure Handler where
  kind : Nat
  same : Bool
  slots : Nat
  code : List Word := []
  wcet : Nat
  full : Nat
deriving DecidableEq, Repr

/-- One port declaration of BIND (R191). -/
structure Bind where
  kind : Nat := 0
  most : Nat := 0
deriving DecidableEq, Repr

/-- The accelerator sums of an image for one kind and span (R240): of the body, and of the handlers together. -/
structure AccFig where
  kind : Nat
  span : Nat
  body : Nat
  handlers : Nat
deriving DecidableEq, Repr

/-- A loaded image (R190 to R195): its owner, its sections and its figures. -/
structure ImageS where
  handle : Nat
  tenant : Nat
  size : Nat
  body : List Word
  handlers : List Handler
  const : List Byte
  state : List Byte
  stateSize : Nat
  scratch : Nat
  ext : Nat
  hmax : Nat
  cost : Nat
  wcet : Nat
  strideMin : Nat
  strideMax : Nat
  value : Nat
  /-- Maximum jobs per run and maximum span, per accelerator kind. -/
  jobs : List (Nat × Nat)
  binds : List Bind
  /-- U summed over the costliest path, per accelerator kind and span: body, then handlers (R240). -/
  acc : List AccFig := []
  /-- An uncorrectable store word has been met in it (R480). -/
  bad : Bool := false
deriving DecidableEq, Repr

/-- A chain marker (R114). -/
structure Marker where
  stu : Nat
  kind : Nat
  flags : Nat := 0
  old : Nat := 0
  new : Nat := 0
  param : Nat := 0
  /-- The quality word of its stamp (R53; log entry 85). -/
  qual : Nat := 0
deriving DecidableEq, Repr

/-- One thing in a CHAIN ring: an output sample (label, I, Q, flags, AGC gain and the quality word of the label) or a marker (R173, R114, R53). -/
inductive Item where
  | sample (label : Nat) (i q : Int) (settle void : Bool) (agcg : Int) (qual : Nat)
  | mark (m : Marker)
deriving DecidableEq, Repr

/-- A record or output marker of R175: LEN is the payload's length. -/
structure Rec where
  stu : Nat
  kind : Nat := 0x10
  flags : Nat := 0
  payload : List Byte := []
  param : Nat := 0
  /-- The quality word of its stamp (R53; log entry 85). -/
  qual : Nat := 0
deriving DecidableEq, Repr

/-- A cue record (R187): pending while its count is not 0. -/
structure Cue where
  count : Nat := 0
  first : Nat := 0
  last : Nat := 0
  info : Nat := 0
  late : Bool := false
deriving DecidableEq, Repr

/-- The far end of an output binding (R172, the BIND command). -/
inductive Target where
  | unbound
  | stream (n : Nat)
  | journal
  | bulk
  | ctxOut (ctx port : Nat)
deriving DecidableEq, Repr

/-- One port of an open context: waiting entries with the tick of their publish (an in-queue other than q0), the count of entries discarded since the last one
written, and the LOST total of q status (R177, R202). -/
structure PortQ where
  target : Target := .unbound
  queue : List (Nat × Rec) := []
  lostNow : Nat := 0
  lost : Nat := 0
deriving DecidableEq, Repr

/-- An accelerator job (R184, R223 to R226): tag, kind, size class, span, unit, tick and stu of issue, and its descriptor and inputs as they stood
when it issued (R224). -/
structure Job where
  tag : Nat
  kind : Nat
  cls : Nat
  span : Nat
  unit : Nat
  tick : Nat
  issue : Nat
  desc : List Byte
  inputs : List (List Byte)
deriving DecidableEq, Repr

/-- The registers of an engine (R164). -/
structure RegSet where
  s : List Word := List.replicate 32 0
  v : List (BitVec 512) := List.replicate 32 0
  p : List Word := List.replicate 8 0
  a : List (List Int) := List.replicate 4 (List.replicate 32 0)
deriving DecidableEq, Repr

/-- An open counted loop (R218): the first word of its body, the word of its LEND, passes left after this one, pass number, and the calls open at its LOOP. -/
structure LoopF where
  first : Nat
  lend : Nat
  left : Nat
  pass : Nat := 0
  depth : Nat := 0
deriving DecidableEq, Repr

/-- What the second word of a pair reads: the registers and memory before the pair, and the cost of the first word (R206). -/
structure PairS where
  regs : RegSet
  lmem : Mem
  cost : Nat
deriving DecidableEq, Repr

/-- A run of a context on an engine (R169). -/
structure Run where
  ctx : Nat
  tick : Nat
  /-- A SAME slot's handler kind; none for the main run of NEXT handlers and body (R188). -/
  slot : Option Nat := none
  /-- The stu at which the run started, and core cycles issued since. -/
  start : Nat
  cycles : Nat := 0
  /-- The handler kind that executes; none in the body. -/
  handler : Option Nat := none
  /-- Handlers still to run, then whether the body runs. -/
  todo : List Nat := []
  body : Bool := true
  /-- The word index within the section. -/
  word : Nat := 0
  regs : RegSet := {}
  lmem : Mem := []
  pair : Option PairS := none
  loops : List LoopF := []
  calls : List Nat := []
  /-- The cue records as filled at the start of the run. -/
  cues : List Cue := []
  /-- Bytes moved per port and by hauls, jobs issued per kind, span-0 jobs outstanding. -/
  moved : List Nat := List.replicate 17 0
  issued : List Nat := List.replicate 8 0
  jobs : List Job := []
  /-- Entries written and not yet published: port and record, in order (R171). -/
  out : List (Nat × Rec) := []
  /-- First and last label of the q0 input taken (R200). -/
  taken : Option (Nat × Nat) := none
  /-- What the run has taken from q0 and from its other in-queues, oldest first, and the AGC gain and marker flag of q0 before it: a run that
  a compute restart ends gives it back (R489). -/
  input : List Item := []
  inputs : List (Nat × (Nat × Rec)) := []
  before : Int × Bool := (0, false)
  clamped : Bool := false
  /-- Its run cost: that of the body with the handlers it runs first, or of its handlers alone (R188, R193, R240). -/
  most : Nat := 0
  /-- The run has ended its last section and awaits publish. -/
  ended : Bool := false
deriving DecidableEq, Repr

/-- What a context is doing (CTX_STAT.STATE). -/
inductive CtxMode where
  | closed
  | pendingGrade
  | running
  | shed
  | tripped
  | stopped
deriving DecidableEq, Repr

/-! ## Burst receivers (chapter 11) -/

/-- A peak as the receiver measured it (R293, R294): stu, quality, level, SNR, fine position and frequency offset. -/
structure PeakS where
  p : Nat
  qual : Nat
  level : Int
  snr : Int
  fine : Int
  fofs : Int
deriving DecidableEq, Repr

/-- A channel: off, armed for peaks decided after stu `since` (0 where nothing ended before), awaiting a start, or receiving from start stu `s` (R297, R298), of
DSC with its first symbol in a DX position or not. -/
inductive ChanMode where
  | off
  | armed (since : Nat)
  | await (k : PeakS)
  | recv (k : PeakS) (s : Nat) (dx : Bool)
deriving DecidableEq, Repr

/-- A GOOD report that waits for its partner (R304): channel, start stu, SNR, when its wait ends, and the report. -/
structure PairWait where
  chan : Nat
  start : Nat
  snr : Int
  due : Nat
  rep : Rec
deriving DecidableEq, Repr

/-- A context's burst receiver. -/
structure BrsS where
  alloc : Bool := false
  chans : List ChanMode := [.off, .off]
  waits : List PairWait := []
  /-- The channels rearm on the first sample after this stu (R308). -/
  rearm : Nat := 0
  /-- The label of the newest output a gap marker attached to (R300). -/
  gap : Option Nat := none
deriving DecidableEq, Repr

/-! ## Context chains and taps (chapter 5) -/

/-- A swap request (R124): target bank, fade, K and acceptance stu. -/
structure SwapReq where
  target : Nat
  fade : Bool
  k : Nat
  accept : Nat
  due : Nat
deriving DecidableEq, Repr

/-- A cross-fade under way (R125): the bank faded in, M, the stu of its boundary, and the outputs blended so far. -/
structure FadeS where
  target : Nat
  m : Nat
  start : Nat
  done : Nat := 0
deriving DecidableEq, Repr

/-- The settings of a chain taken at the acceptance of its OPEN (R132). -/
structure ChainCfg where
  kind : Nat := 0
  conv : Nat := 0
  index : Nat := 0
  tapFtw : Nat := 0
  tapDec : Nat := 0
  order : Nat := 5
  dc : Nat := 1
  taps : Nat := 1
  df : Nat := 1
deriving DecidableEq, Repr

/-- What a chain's filters hold (R105, R109, R110): the CIC's integrators and combs, the FIR's delay line, newest first; NCO words that applied to inputs
labelled before a stu, oldest first; and the source context's outputs that the chain has taken no output from yet: label, I, Q (R106). -/
structure DspS where
  ints : List (Rat × Rat) := []
  combs : List (Rat × Rat) := []
  line : List (Rat × Rat) := []
  words : List (Nat × Nat × Nat) := []
  input : List (Nat × Int × Int) := []
deriving DecidableEq, Repr

/-- A context's chain. -/
structure ChainS where
  cfg : ChainCfg := {}
  /-- The chain runs: it is open and its context is not shed, pending or stopped. -/
  on : Bool := false
  /-- The NCO words in force, and the AGC word in force (R108, R129). -/
  ftw : Nat := 0
  ph : Nat := 0
  agc : Word := 0x24180400
  /-- FADE as taken at open, and EN as taken at open or asked for since (R562). -/
  costFade : Bool := false
  costAgc : Bool := false
  /-- The terms that requests in effect have brought into CHN_COST (R562). -/
  hasFade : Bool := false
  hasAgc : Bool := false
  /-- The stu of the last reset, outputs since, a label of the output grid and the outputs before it, SETTLE outputs still to come (R112, R119, R121). -/
  base : Nat := 0
  outs : Nat := 0
  lab1 : Nat := 0
  outs0 : Nat := 0
  dsp : DspS := {}
  settle : Nat := 0
  /-- The active bank and the cross-fade under way (R122, R125). -/
  bank : Nat := 0
  fade : Option FadeS := none
  /-- The swap request not yet planned, the one closed into the plan, the queued one, and the last swap's boundary (R124, R126). -/
  pend : Option SwapReq := none
  planned : Option SwapReq := none
  queued : Option SwapReq := none
  lastSwap : Nat := 0
  /-- Input and output periods, CHN_DELAY less ADLY and the CIC and FIR terms, in 1/16 stu (R113, R115); the last label written. -/
  per : Nat := 512
  outPer : Nat := 512
  evDelay : Nat := 0
  ownDelay : Nat := 0
  lastOut : Nat := 0
  /-- AGC: the gain in units of 0.0625 dB, the group's peak so far after the gain, the hold and its expiry in groups (R127, R128). -/
  gain : Int := 0
  peak : Nat := 0
  groupDue : Bool := false
  held : Bool := false
  expire : Option Nat := none
  /-- A detection that sets the gain from its group on: its stu and the gain; a release asked for from its stu on (R128, R234). -/
  setGain : Option (Nat × Int) := none
  release : Option Nat := none
  /-- Markers that wait for the sample they attach to, with that delay (R115). -/
  marks : List (Marker × Nat) := []
  void : Bool := false
  /-- The last output that carried VOID or SETTLE (R293). -/
  deaf : Nat := 0
  /-- The last label of void samples from a damaged tap ring (R480). -/
  voidTo : Option Nat := none
  /-- The wide or LF tap the context draws from (R104). -/
  tap : Option (Nat × Nat) := none
  /-- The chain found its ring full: samples lost so far (R181). -/
  ringFull : Bool := false
  ringLost : Nat := 0
deriving DecidableEq, Repr

/-- A wide or LF tap (R104): its setting, the contexts that draw from it and when it started or restarted. -/
structure TapS where
  ftw : Nat := 0
  dec : Nat := 0
  users : List Nat := []
  since : Nat := 0
deriving DecidableEq, Repr

/-- An open accepted and not yet carried out (R248, R408). -/
structure OpenReq where
  tag : Nat
  accept : Nat
  tenant : Nat
deriving DecidableEq, Repr

/-- One of the 256 contexts. -/
structure ContextS where
  mode : CtxMode := .closed
  /-- The tenant that opened it, and the OPEN's tag and acceptance. -/
  opened : Option OpenReq := none
  /-- The OPEN is accepted and its boundary has not come. -/
  opening : Bool := false
  /-- A CLOSE is accepted and its boundary has not come. -/
  closing : Bool := false
  image : Option ImageS := none
  ports : List PortQ := List.replicate 16 {}
  stride : Nat := 1
  prio : Nat := 3
  phase : Nat := 0
  chain : ChainS := {}
  /-- Coefficients written, by bank and index; the others are 0 (R122). -/
  coefs : List (Nat × Int) := []
  /-- The q0 ring, oldest first (R173). -/
  ring : List Item := []
  /-- The AGC gain of the run before, for AGCG entries (R180). -/
  lastAgcg : Int := 0
  /-- The last thing read from q0 was a marker: the next sample is the one it attaches to. -/
  lastMark : Bool := false
  /-- The current copy of the state window, and the store extension (R168, R170). -/
  state : Mem := []
  ext : Mem := []
  /-- The seven cue records for the next run (R187). -/
  cues : List Cue := List.replicate 7 {}
  /-- NEXT cue events of the present tick, which run from the next tick on (R188). -/
  fresh : List Cue := List.replicate 7 {}
  /-- The armed timer deadline (R186). -/
  timer : Option Nat := none
  /-- Span-k jobs under way (R184). -/
  jobs : List Job := []
  /-- The doorbell value last written. -/
  bell : Nat := 0
  /-- The home engine, and the unit its jobs of each kind go to (R237). -/
  home : Nat := 0
  units : List Nat := List.replicate 6 0
  brs : BrsS := {}
  /-- Shed by R250 or R252, or by the grade (R277), or by the loss of an accelerator kind (R264). -/
  shedFit : Bool := false
  shedGrade : Bool := false
  shedAcc : Bool := false
  /-- An uncorrectable word has been met in its current state copy or extension: it trips at the next boundary (R480). -/
  ecc : Bool := false
  /-- The tick of the context's last run and whether it has run since its open or readmission. -/
  lastRun : Option Nat := none
deriving DecidableEq, Repr

/-- What a request of R15 asks for. -/
inductive ReqKind where
  /-- A register written: it takes its effect at the boundary. -/
  | reg (addr : Nat) (v : Word)
  /-- OPEN and CLOSE of a context. -/
  | openCtx (n tag : Nat)
  | closeCtx (n tag : Nat)
  /-- A changed CTX_RUN: its word, and the home, phase and units found for it. -/
  | run (n : Nat) (v : Word) (home phase : Nat) (units : List Nat)
  /-- A tenancy table, a clear and a tenant reset (R398, R401, R417). -/
  | table (l : List TenEntry) (port tag : Nat)
  | clear (port tag : Nat) (time : WitTime)
  | treset (tenant : Nat)
deriving DecidableEq, Repr

/-- A request accepted and waiting for the boundary of tick `due` (R15). -/
structure Req where
  due : Nat
  accept : Nat
  tenant : Nat
  kind : ReqKind
deriving DecidableEq, Repr

/-! ## Antenna ports and converters (chapter 4) -/

/-- One port's internal state: ANT_A, ANT_B, ANT_L. -/
structure PortFE where
  /-- Windows in a row below UP_PEAK (R90). -/
  quiet : Nat := 0
  /-- Windows in a row below OPEN (R85). -/
  openRun : Nat := 0
  /-- The stu of the last shutdown for a short; bias goes low for one at the next boundary (R85, R86). -/
  shutAt : Option Nat := none
  shortDue : Bool := false
  biasHigh : Bool := false
  /-- A write of FE_x_GAIN is to be announced (R93, R96). -/
  manual : Bool := false
deriving DecidableEq, Repr

/-- One converter's internal state: WA, WB, LF. -/
structure ConvS where
  powered : Bool := true
  /-- The tick of the last trip (R95), and the marker stus of the emergency steps still to be made, oldest first (R94). -/
  emTick : Option Nat := none
  emMarks : List Nat := []
  /-- The detection stu of the last trip: later clips count afresh (R94). -/
  lastTrip : Option Nat := none
  /-- The void after power-up ends at this stu (R98). -/
  voidUntil : Option Nat := none
  /-- Clips so far in the current window. -/
  clips : Nat := 0
  /-- Its samples, its channelizer and its taps are valid from this stu on, since the last void (R117). -/
  since : Nat := 0
  /-- The inverse digital gains of its gain markers, newest first: marker stu and factor in 2^-24 (R92, R116). -/
  gains : List (Nat × Nat) := []
deriving DecidableEq, Repr

/-- The front end. -/
structure FeS where
  ports : List PortFE := [{}, {}, {}]
  convs : List ConvS := [{}, {}, {}]
  /-- The routing in force (R82). -/
  route : Nat := 0
deriving DecidableEq, Repr

/-! ## OTP contents -/

/-- What OTP holds for this part: no value of it is the spec's for every part; the typical ones are taken (log entry 9). -/
structure OtpS where
  devid : Nat := 0
  /-- CCS_VF: FMAX in cpt and VMIN in mV (R68). -/
  vf : List (Nat × Nat) := [(160000, 600), (224000, 630), (288000, 660), (352000, 690), (416000, 725), (464000, 760),
    (512000, 800), (512000, 800)]
  /-- LDG_EPC: engine and accelerator pJ per cycle (R268). -/
  epc : List (Nat × Nat) := [(259, 56), (285, 61), (312, 67), (341, 73), (375, 81), (412, 89), (456, 98), (456, 98)]
  /-- Store energy per 64 B in pJ and fabric energy per MAC in 0.1 pJ (R268). -/
  stPj : Nat := 24
  mac : Nat := 15
  /-- FE_x_ADLY of the three ports (R97). -/
  adly : List Nat := [310, 310, 3000]
  /-- The chain epochs used (R348) and the firmware version floor (R503). -/
  epochs : Nat := 0
  fwFloor : Nat := 0
deriving DecidableEq, Repr


/-! ## Self-calibration (chapter 6) -/

/-- One temperature point (R143): its temperature in 1/16 degree and 13 value vectors, in the units of R156: groups 0 to 4 for two
units each, LF_OFS, TRIM for two units. -/
structure CalPoint where
  temp : Int := 400
  vals : List (List Rat)
deriving DecidableEq, Repr

/-- An estimate's course for one group and unit (R139, R142). -/
structure EstS where
  /-- Due since this tick; none while none is due. -/
  due : Option Nat := none
  deferred : Bool := false
  esc : Bool := false
  /-- Passing ticks gathered, and the sum of T_cal over them, 1/16 degree (R139, R145). -/
  passing : Nat := 0
  tsum : Rat := 0
  /-- The tick of the last estimate accepted (R139). -/
  lastAccept : Nat := 0
  /-- Estimates rejected in a row for the change limit alone. -/
  rejects : List (List Rat) := []
deriving DecidableEq, Repr

/-- A gradual change: the increment of each value and how many are left (R148). -/
structure SlewS where
  inc : List Rat
  left : Nat
  target : List Rat
deriving DecidableEq, Repr

/-- Self-calibration. -/
structure CalS where
  /-- The factory set of OTP (R159): one point, every correction 0 and every ratio 6 dB (log entry 9). -/
  factory : List CalPoint := [{ vals := List.replicate 8 (List.replicate 16 0) ++ [List.replicate 6 6144, List.replicate 6 6144, [0], [0], [0]] }]
  points : List CalPoint := [{ vals := List.replicate 8 (List.replicate 16 0) ++ [List.replicate 6 6144, List.replicate 6 6144, [0], [0], [0]] }]
  inForce : List (List Rat) := List.replicate 8 (List.replicate 16 0) ++ [List.replicate 6 6144, List.replicate 6 6144, [0], [0], [0]]
  slews : List (Option SlewS) := List.replicate 13 none
  ests : List EstS := List.replicate 13 {}
  /-- The last observations of each pair of a port, newest first: port 0 pairs 0 to 5, port 1 pairs 0 to 5 (R146). -/
  lnaObs : List (List Rat) := List.replicate 12 []
  /-- Targets accepted and waiting for their boundary: vector index, tick, target, by step (R148). -/
  waiting : List (Nat × Nat × List Rat × Bool) := []
  changed : Bool := false
  wanted : Bool := false
  lastSave : Nat := 0
  /-- The index of the two slots of the calibration zone: set sequence number and points of each copy that qualifies (R157, R159, R375). -/
  saved : List (Option (Nat × List CalPoint)) := [none, none]
  /-- The power-up sweep (R151): the hold in progress per port, clips and peak of each hold, the step before the sweep. -/
  hold : List Nat := [0, 0]
  holds : List (List (Bool × Nat)) := [[], []]
  before : List Nat := [3, 3]
  /-- The pair of the last scheduled gain step of ANT_A and ANT_B, where it was one step (R146, R152); and the pairs of each, as in `lnaObs`, that have had no
  estimate since the sweep gave them no observation (R152). -/
  stepPair : List (Option Nat) := [none, none]
  pairDef : List Bool := List.replicate 12 false
  /-- An emergency step in the hold in progress, per port (R151, R152). -/
  holdEm : List Bool := [false, false]
  /-- The tick whose R147 evaluation was made last. -/
  reeval : Nat := 0
  /-- A set written and not yet durable: its ingot, slot, sequence number and points (R158, R370). -/
  undur : Option (Nat × Nat × Nat × List CalPoint) := none
deriving DecidableEq, Repr

/-! ## Ledger (chapter 10) -/

/-- The ledger's internal state. -/
structure LdgS where
  /-- Energy of the present tick so far, corrected, nJ (R460), and its core-domain part uncorrected, 0.1 pJ; the 0.1 pJ charged to each context. -/
  soFar : Nat := 0
  core : Nat := 0
  ctxNow : List (Nat × Nat) := []
  /-- The tick before, awaiting the close of its account: energy of contexts and jobs, that of each context, and the powered blocks' idle energy, nJ (R270). -/
  prev : Option (Nat × List (Nat × Nat) × Nat) := none
  /-- Sums of the second so far, nJ (R270, R284): contexts, wind-up classes, the device, all, the core domain in 0.1 pJ, and the sum of L. -/
  ctxSum : List (Nat × Nat) := []
  wuSum : List Nat := List.replicate 6 0
  devSum : Nat := 0
  allSum : Nat := 0
  coreSum : Nat := 0
  limSum : Nat := 0
  /-- The last READ_IOUT in mA, and the readings of the second, mV × mA (R271). -/
  lastIout : Rat := 0
  readings : List Rat := []
  /-- T_base in °C (R274); before the first whole-second boundary 0, as LDG_TBASE reads (DESIGN CHOICE, log entry 83). -/
  tbase : Rat := 0
  /-- Consecutive passing decisions for the better grade (R280), decisions below the park end (R275), decisions with a lower
  frequency (R282). -/
  passes : Nat := 0
  parkCool : Nat := 0
  lowFreq : Nat := 0
  /-- Consecutive fitting decisions of contexts shed at the margin (R279). -/
  fits : List (Nat × Nat) := []
  /-- The contexts that the grade decided for the next tick sheds, and those in force (R276, R279). -/
  shedNext : List Nat := []
  shed : List Nat := []
  /-- The stu of the last accepted write of LDG_RESV (R275). -/
  resvAt : Nat := 0
  /-- Heat moves are asked for, off the half of the engines that is hotter: 0 SE0 to SE3, 1 SE4 to SE7 (R287). -/
  hot : Option Nat := none
  /-- The tick of the last decision. -/
  decided : Nat := 0
  /-- SCS has been unlocked in the present tick (R22). -/
  unlocked : Bool := true
deriving DecidableEq, Repr

/-! ## Witness unit and keys (chapter 13) -/

/-- One observation from a WIT port (R338). -/
structure WitObs where
  stu : Nat
  kind : Nat
  tx : Nat
  freq : Nat
  level : Int
  snr : Int
  digest : Option (List Byte) := none
deriving DecidableEq, Repr

/-- A witness command that waits for its record (R343, R408): tenant, tag, acceptance and whether it was coalesced. -/
structure WitReq where
  tenant : Nat
  tag : Nat
  accept : Nat
  coalesced : Bool := false
deriving DecidableEq, Repr

/-- An OBS interval whose reference has passed and that has not closed (R340, R341). -/
structure WitIvl where
  start : Nat
  ref : Nat
  close : Nat
  time : WitTime
  reqs : List WitReq := []
deriving DecidableEq, Repr

/-- What one record type holds beside the common keys (R337, R344, R345, R346). -/
inductive WitBody where
  | obs (l : List WitObs)
  | evt (code count : Nat) (bkp : Option (Nat × Nat)) (data : List Byte) (tenant : Nat)
  | time (step : Int) (src used : Nat) (ofs : Int)
  | key (op : Nat) (pub cert : List Byte) (reason : Nat)
deriving DecidableEq, Repr

/-- A record formed and not yet committed (R350), or an event still collecting (R344): the stu at which its commit fell due, its
reference stu and the time there. -/
structure WitRec where
  formed : Nat
  ref : Nat
  time : WitTime
  body : WitBody
  reqs : List WitReq := []
  /-- It is the KEY record of the request that KEY_CTRL started (R330, R331). -/
  asked : Bool := false
deriving DecidableEq, Repr

/-- The witness unit and the key store. -/
structure WitS where
  /-- The public points x || y of the DIK and of the OWK in force, of the key store (log entry 9). -/
  dik : List Byte := List.replicate 64 0
  owk : Option (List Byte) := none
  /-- The sequence of the next record, the digest of the last one, and its ingot. -/
  next : Nat := 0
  head : List Byte := List.replicate 32 0
  headIngot : Nat := 0
  /-- WIT records that wait for an interval, and the reference up to which intervals have closed (R341). -/
  obs : List WitObs := []
  closed : Nat := 0
  /-- The last OBS reference, open intervals, and references asked for by command (R343). -/
  lastRef : Nat := 0
  ivls : List WitIvl := []
  want : List (Nat × WitReq) := []
  /-- Events that collect for 1 s, and records in staging in commit order. -/
  evts : List WitRec := []
  staged : List WitRec := []
  /-- A record that commits before all others: the genesis of a chain, or the release of a lost OWK (R333, R348). KEY records for which staging has no room
  yet (R350). -/
  first : Option WitRec := none
  late : List WitRec := []
  /-- Commands whose record's ingot is committed and not yet durable: ingot, record sequence, command (R370). -/
  undur : List (Nat × Nat × WitReq) := []
  /-- KEY records whose ingots are committed and not yet durable: ingot, operation, point, and whether a request asked for it (R370). -/
  undurKeys : List (Nat × Nat × List Byte × Bool) := []
  /-- The stu of the last checkpoint (R353). -/
  lastCkpt : Nat := 0
deriving DecidableEq, Repr


/-! ## Flash store (chapter 14) -/

/-- The geometry all targets share (R358). -/
structure Geom where
  page : Nat
  spare : Nat
  ppb : Nat
  bpl : Nat
  luns : Nat
  bits : Nat
  targets : Nat
  /-- The read-retry levels of the parameter page (R362). -/
  levels : Nat := 0
deriving DecidableEq, Repr

/-- One block (R373): target, number, pool, zone, state, flags, class, erase count, first page not programmed, corrected bits and time of
the last scrub. -/
structure BlockS where
  target : Nat
  num : Nat
  native : Bool := false
  zone : Nat := 255
  /-- 0 free, 1 next-up, 2 open, 3 full, 4 sealed, 5 retired, 6 factory bad. -/
  st : Nat := 0
  low : Bool := false
  xtemp : Bool := false
  due : Bool := false
  cold : Bool := false
  erases : Nat := 0
  next : Nat := 0
  corr : Nat := 0
  scrubbed : Nat := 0
  /-- The slot or copy of a calibration or image block (R364). -/
  part : Nat := 0
  /-- Due for corrected bits, a retry level or a soft decode (R379), with the last retry level used and whether a soft decode was (R362). -/
  worn : Bool := false
  level : Nat := 0
  soft : Bool := false
  /-- 1 erased, 2 retired, once the last of its ingots has moved durably (R382, R383); 0 neither. -/
  drain : Nat := 0
deriving DecidableEq, Repr

/-- An ingot asked for (R367): zone, type, owner, context, type-specific fields, payload; the origin of a relocation. -/
structure IngotReq where
  zone : Nat
  type : Nat
  tenant : Nat := 255
  ctx : Nat := 255
  fields : List Byte := []
  payload : List Byte := []
  /-- The reference stu of a passage record: key 5 of its payload. -/
  refStu : Nat := 0
  /-- The stu since which a native ingot waits for its temperature, and whether the wait is over (R380). -/
  waits : Option Nat := none
  forced : Bool := false
deriving DecidableEq, Repr

/-- A committed ingot (R367): its hallmark's contents, where it lies and whether it is durable. -/
structure IngotS where
  seq : Nat
  origin : Nat
  req : IngotReq
  block : Nat
  page : Nat
  pages : Nat
  retacc : Nat
  tprog : Int
  xtemp : Bool := false
  reloc : Bool := false
  durable : Bool := true
  commit : Nat := 0
deriving DecidableEq, Repr

/-- The records of one FLASH port that wait for their ingot, and the stu at which the first of them was taken (R365). -/
structure PortBuf where
  ctx : Nat
  port : Nat
  tenant : Nat
  bulk : Bool
  entries : List (List Byte) := []
  stus : List Nat := []
  since : Nat := 0
deriving DecidableEq, Repr

/-- The newest clock stamp (R374, R386). -/
structure StampS where
  retacc : Nat
  sec : Nat
  frac : Nat
  ts : Nat
deriving DecidableEq, Repr

/-- The flash store: the medium and what the device knows of it. -/
structure FstS where
  geom : Option Geom := none
  /-- The medium holds a valid root (R375). -/
  rooted : Bool := false
  blocks : List BlockS := []
  ingots : List IngotS := []
  queue : List IngotReq := []
  lastSeq : Nat := 0
  /-- The four next-up lists: pSLC hot, pSLC cold, native hot, native cold (R378). -/
  nextUp : List (List Nat) := [[], [], [], []]
  /-- The generation of the newest map, and the ingot sequences of part 0 of the newest map and of the one before as the root names them (R368, R372). -/
  mapGen : Nat := 0
  mapSeq : Nat := 0
  prevSeq : Nat := 0
  /-- The label block that takes the next root (R364, R372). -/
  labelBlk : Nat := 0
  /-- The records of the FLASH ports that wait for their ingots (R365). -/
  bufs : List PortBuf := []
  /-- The newest clock stamp (R374, R386). -/
  stamp : Option StampS := none
  /-- Ingots to be read back after ICS relocks, with the codewords still to be read of each (R79). -/
  verify : List (Nat × Nat) := []
  /-- What discovery found on each chip enable (R357), and the factory bad blocks it read. -/
  found : List (Option TgtPage) := []
  bad : List (Nat × Nat) := []
  /-- The highest ingot sequence when the backup domain last lost power: a stamp up to it cannot tell the time that has passed since (R386). -/
  lostAt : Nat := 0
  /-- A full scrub is under way (R381, R386). -/
  fullScrub : Bool := false
  /-- The blocks an escalated full scrub has still to read (R381, R386). -/
  scrubLeft : List Nat := []
  /-- The stu of the last wear-levelling move of each pool (R384) and of the last clock stamp (R386), and the tick of the last step of
  FST_RETACC (R385). -/
  lastMove : List Nat := [0, 0]
  lastStamp : Nat := 0
  retSec : Nat := 0
  /-- FST_ZONE and FST_PSLC.PREFIX as the last format took them (R6, R372). -/
  zonesFmt : List Nat := [0, 0, 0, 0]
  prefixFmt : Nat := 0
  /-- The geometry and the targets of the last format (R372), and the ingots on a formatted target that is absent (R376). -/
  geomFmt : Option Geom := none
  away : List IngotS := []
  /-- The controller has begun the first ingot of the queue as a restart began (R388), and a format that waits for ICS (R79), with the zone sizes staged as it was
  accepted (R8). -/
  begun : Bool := false
  formatWait : Option (List Nat) := none
  /-- NF_WP_N is high (R387). -/
  wpHigh : Bool := false
  /-- The owner anchor and tenancy table written in the root (R372). -/
  anchor : Option (List Byte) := none
  table : List TenEntry := []
deriving DecidableEq, Repr

/-! ## The sequencer and planner (chapter 9) -/

/-- One engine or accelerator unit: 0 healthy, 1 fenced, 2 quarantined, 3 testing (R267); failed and not yet fenced; the tick in which the failure was known
by the cut-off; passes of the release tests so far. -/
structure UnitS where
  st : Nat := 0
  failed : Bool := false
  knownTick : Option Nat := none
  passes : Nat := 0
deriving DecidableEq, Repr

/-- An object of the store (R253, R254): its owner, a context or an image's handle; its part, 0 and 1 the state copies, 2 EXT, 3 the CHAIN ring, 4 + q an output
ring, 20 an image; and its bytes. -/
structure StoreObj where
  owner : Nat
  part : Nat
  size : Nat
deriving DecidableEq, Repr

/-- One run of a plan (R237): the context, the SAME kind it serves or none for the main run, whether its body is due, its run cost and its start offset in
core cycles from the boundary, and the store banks it uses with the cycles at which it uses them. -/
structure PlanRun where
  ctx : Nat
  slot : Option Nat := none
  body : Bool := false
  cost : Nat := 0
  start : Nat := 0
  hauls : List (Nat × Nat × Nat) := []
deriving DecidableEq, Repr

/-- A wind-up task of a plan (R471): its class, the unit it runs on and the cycles it takes there. Units: engines 0 to 7, accelerator units 8 to 17, the standby warden
18; none for work on the flash controller, the scrubber or the active warden (R470). -/
structure WuTask where
  cls : Nat
  unit : Option Nat := none
  cycles : Nat := 0
deriving DecidableEq, Repr

/-- The items of a tick plan (R237): the run list of each engine in execution order, the units of each context by kind, the chain set, the wind-up tasks in
the order in which they fill what is left and the cycles each engine and each accelerator unit leaves (R471), and the core profile: the cycles of the tick, and whether a ramp segment starts at its boundary. -/
structure TickPlan where
  runs : List (List PlanRun) := []
  units : List (Nat × List Nat) := []
  chains : List Nat := []
  fill : List WuTask := []
  spare : List Nat := []
  cycles : Nat := 0
  ramp : Bool := false
deriving DecidableEq, Repr

/-- A plan handed to the tick sequencer for the next tick (R237): contexts shed by R250, by R252 and returned, the homes it gives, its items, and those of the
safe plan built beside it (R74). -/
structure PlanS where
  tick : Nat
  shed : List Nat := []
  p0shed : List Nat := []
  back : List Nat := []
  homes : List (Nat × Nat) := []
  units : List (Nat × Nat × Nat) := []
  /-- The failed engines and units the plan leaves out, and the contexts whose accelerator kind has no unit left (R261, R264). -/
  outEngs : List Nat := []
  outAccs : List Nat := []
  accShed : List Nat := []
  /-- The plan's items (R237) and those of the safe plan beside it (R74). -/
  items : TickPlan := {}
  safe : TickPlan := {}
deriving DecidableEq, Repr

/-- Placement and sequencing. -/
structure SeqS where
  engs : List UnitS := List.replicate 8 {}
  accs : List UnitS := List.replicate 10 {}
  /-- The plan for the next tick once handed over. -/
  plan : Option PlanS := none
  /-- No plan was ready and the present tick repeats the one before (R19). -/
  repeated : Bool := false
  /-- The stu at which each engine ended its last run: the next one of its list starts then where its offset has passed (R237). -/
  freed : List Nat := List.replicate 8 0
  /-- The core domain ran on SAFE_OSC at the last boundary (R74, R260). -/
  wasSafe : Bool := true
  /-- The items of the plan in force and of its safe plan (R19, R74, R237). -/
  now : TickPlan := {}
  nowSafe : TickPlan := {}
deriving DecidableEq, Repr

/-! ## Backup domain (chapter 17) -/

/-- A write on its way into the backup domain (R442), or a load that disciplining asks for (R41). -/
inductive BkpW where
  | reg (addr : Nat) (v : Word)
  | disc
deriving DecidableEq, Repr

/-- The edge at which a tamper input or WAKE_IN reached its active level (R454): raw pulse, count, stu stamp and the time there. -/
structure TampEdge where
  raw : Nat
  sec : Nat
  frac : Nat
  stu : Nat
  time : WitTime
deriving DecidableEq, Repr

/-- One tamper input or WAKE_IN (R454): the level at the pin, whether it was sampled active, the edge at which the filter that runs began, an event taken since
the input last became active, and the raw pulse since which it has been inactive. -/
structure TampS where
  high : Bool := false
  act : Bool := false
  start : Option TampEdge := none
  taken : Bool := false
  quiet : Nat := 0
deriving DecidableEq, Repr

/-- The registers a read of BKP_SEC_LO or BKP_CAL_DATE latches for one tenant (R443). -/
structure BkpLatch where
  secHi : Word := 0
  frac : Word := 0
  cal : Word := 0x2000000
deriving DecidableEq, Repr

/-- The backup domain. -/
structure BkpS where
  powered : Bool := true
  /-- The hibernation marker (R510, R511). -/
  hib : Bool := false
  sec : Nat := 0
  frac : Nat := 0
  /-- Raw oscillator pulses and trimmed counts since it was powered (R449, R450). -/
  raw : Nat := 0
  trim : Nat := 0
  /-- The raw pulse at which the window in force began, the setting a write or disciplining asks for, and DTS and pulses at the window's
  start (R449, R41). -/
  winStart : Nat := 0
  winNext : Option Word := none
  winDts : Option Rat := none
  /-- The trimmed count at which each enabled channel fires next (R450). -/
  wakes : List (Option Nat) := List.replicate 8 none
  sqw : Bool := false
  /-- The stu at which `raw` was last known, and the counts that its last pulse made. -/
  seen : Nat := 0
  step : Nat := 1
  /-- The raw pulses of the last load, of the last edge at which ARM or the alarm time took effect, and of the last capture (R452, R456). -/
  loadEdge : Option Nat := none
  armEdge : Option Nat := none
  capEdge : Option Nat := none
  /-- The tamper inputs and WAKE_IN (R454). -/
  inputs : List TampS := [{}, {}, {}]
  /-- The raw pulse of the last rise of PWRON. -/
  rise : Option Nat := none
  /-- Writes in flight, with the raw pulse each was issued after (R442). -/
  inflight : List (BkpW × Nat) := []
  /-- The latch of each tenant (R443). -/
  latches : List BkpLatch := List.replicate 4 {}
  /-- Events taken while the rest of the device was unpowered, with their backup-domain time: EVT code, seconds, fraction (R344). -/
  evts : List (Nat × Nat × Nat) := []
deriving DecidableEq, Repr


/-! ## The JTAG port (R535) -/

/-- The JTAG port: the boundary cells, EXTEST in force, and the bits last shifted out (TDO, first bit first). -/
structure JtagS where
  cells : List Bool := []
  extest : Bool := false
  out : List Bool := []
deriving DecidableEq, Repr

/-! ## The whole state -/

/-- The state of the device as a block. -/
structure State where
  /-- The commands that wait, first in first out. -/
  pending : List Instr := []
  /-- The model's own: how many free values have been drawn. -/
  free : Nat := 0
  regs : RegFile := []
  time : TimeS := {}
  clk : ClockS := {}
  buses : List BusS := [{}, {}]
  host : HostS := {}
  snp : SnapS := {}
  flt : FaultS := {}
  boot : BootS := {}
  fe : FeS := {}
  cal : CalS := {}
  fst : FstS := {}
  otp : OtpS := {}
  wit : WitS := {}
  ldg : LdgS := {}
  seq : SeqS := {}
  bkp : BkpS := {}
  jtag : JtagS := {}
  reqs : List Req := []
  images : List ImageS := []
  /-- Contexts that have been touched, by number. -/
  ctxs : List (Nat × ContextS) := []
  /-- Wide taps of A and B and LF taps in use: (0, w), (1, w), (2, n). -/
  taps : List ((Nat × Nat) × TapS) := []
  /-- The runs on SE0 to SE7. -/
  runs : List (Option Run) := List.replicate 8 none
deriving DecidableEq, Repr

/-- The machine right after reset: every field at the value its declaration gives; every register at its table's reset
value. -/
def State.reset : State := {}

end Sys2Proof.Machine
end

