-- ==== Sys2Proof/Machine/Ops.lean ====
section
/-!
DEFINITION. The named operations every block shares: the register file, the passing of time, the acceptance of requests
(R15), the fault log and snapshots (R479, R458), completions and events (R404 to R409, R416).
-/

namespace Sys2Proof.Machine

/-! ## The register file -/

/-- The word the file holds at `a`: the table's reset value where it lists none. -/
def regsGet (f : RegFile) (a : Nat) : Word :=
  match f with
  | [] => Reg.resetOf a
  | (b, v) :: t => if b = a then v else regsGet t a

/-- The file with the entry at `a` taken out. -/
def regsDrop (f : RegFile) (a : Nat) : RegFile := f.filter (fun p => p.1 != a)

/-- The file with an entry put at its place. -/
def regsPut (f : RegFile) (a : Nat) (v : Word) : RegFile :=
  match f with
  | [] => [(a, v)]
  | (b, w) :: t => if a < b then (a, v) :: (b, w) :: t else if a = b then (a, v) :: t else (b, w) :: regsPut t a v

/-- The file after the word at `a` becomes `v`; a word at its reset value is not listed. -/
def regsSet (f : RegFile) (a : Nat) (v : Word) : RegFile :=
  if v = Reg.resetOf a then regsDrop f a else regsPut f a v

/-- The canonical form: addresses strictly rising, no entry at its reset value. -/
def regsWf (f : RegFile) : Bool :=
  match f with
  | [] => true
  | [(a, v)] => decide (v ≠ Reg.resetOf a)
  | (a, v) :: (b, w) :: t => decide (v ≠ Reg.resetOf a) && decide (a < b) && regsWf ((b, w) :: t)

/-- The register at `a`. -/
def State.rget (s : State) (a : Nat) : Word := regsGet s.regs a

/-- The state after the register at `a` becomes `v`. -/
def State.rset (s : State) (a : Nat) (v : Word) : State := { s with regs := regsSet s.regs a v }

/-- A field's value. -/
def State.fget (s : State) (f : Reg.Fld) : Nat := fieldOf (s.rget f.addr) f.hi f.lo

/-- The state after a field takes the low bits of `n`. -/
def State.fset (s : State) (f : Reg.Fld) (n : Nat) : State := s.rset f.addr (putField (s.rget f.addr) f.hi f.lo n)

/-- A one-bit field read as a truth value. -/
def State.flag (s : State) (f : Reg.Fld) : Bool := s.fget f != 0

/-- The state after a one-bit field is set or cleared. -/
def State.fsetB (s : State) (f : Reg.Fld) (b : Bool) : State := s.fset f (b2n b)

/-- An event bit is among those set at the present stu (R7). -/
def TimeS.noteEvt (t : TimeS) (f : Reg.Fld) : TimeS :=
  { t with evtStu := t.stu, evtBits := (f.addr, f.lo) :: (if t.evtStu = t.stu then t.evtBits else []) }

/-- The state after hardware sets an event bit (W1C), with the stu of it (R7). -/
def State.evt (s : State) (f : Reg.Fld) : State := { s.fset f 1 with time := s.time.noteEvt f }

/-- The state after a counter field rises by `n`, saturating at its width. -/
def State.bumpBy (s : State) (f : Reg.Fld) (n : Nat) : State :=
  s.fset f (satTo (2 ^ (f.hi + 1 - f.lo) - 1) (s.fget f + n))

/-- The state after a counter field rises by one, saturating. -/
def State.bump (s : State) (f : Reg.Fld) : State := s.bumpBy f 1

/-- A whole register as a field. -/
def whole (a : Nat) : Reg.Fld := ⟨a, 31, 0⟩

/-- The state after a register takes a number. -/
def State.rsetN (s : State) (a n : Nat) : State := s.rset a (BitVec.ofNat 32 n)

/-- A value of two registers, the low word at `a` (R3). -/
def State.rget64 (s : State) (a : Nat) : Nat := (s.rget a).toNat + 4294967296 * (s.rget (a + 4)).toNat

/-- The state after the two registers from `a` take a 64-bit value (R3). -/
def State.rset64 (s : State) (a n : Nat) : State := (s.rsetN a n).rsetN (a + 4) (n / 4294967296)

/-- The bits of the register at `a` that hardware set at the present stu: a write at that stu leaves them set (R7). -/
def TimeS.justSet (t : TimeS) (a : Nat) : Word :=
  if t.evtStu = t.stu then (t.evtBits.filter (fun p => p.1 == a)).foldl (fun (w : Word) p => putField w p.2 p.2 1) 0 else 0

/-- A plain write (R6, R7, R9): writable bits take the value, W1C bits written 1 clear unless hardware has just set them, every other bit keeps. -/
def State.wr (s : State) (a : Nat) (v : Word) : State :=
  match Reg.rowOf a with
  | none => s
  | some r =>
    let w := BitVec.ofNat 32 r.w
    let c := BitVec.ofNat 32 r.w1c &&& ~~~(s.time.justSet a)
    let o := s.rget a
    s.rset a ((o &&& ~~~(w ||| c)) ||| (v &&& w) ||| (o &&& c &&& ~~~v))

/-! ## Free values -/

/-- A value the spec leaves open: the next one of the sequence the configuration leaves free. -/
def State.free1 (s : State) : Nat × State := (Config.freeValue s.free, { s with free := s.free + 1 })

/-! ## Time -/

/-- One tick in stu (R5). -/
def tickStu : Nat := 2048000

/-- One second in stu (R5). -/
def secStu : Nat := 6144000000

/-- The present stu. -/
def State.now (s : State) : Nat := s.time.stu

/-- The block is out of reset: RESET_N and the supplies are good, TMODE is 0, and neither a hibernation hold nor an F5 reset is in force
(R491, R500, R501, R511, R534). -/
def State.up (s : State) : Bool := !(s.boot.resetLow || s.boot.tmode || s.boot.supplyLow || s.boot.hold || s.boot.f5)

/-- SCS lock is declared (R57). -/
def State.scsLocked (s : State) : Bool := s.flag Reg.TOP_DOMAIN_SCS_LOCK

/-- Stamps resolve only 160 stu: SCS is not locked (R30, R34, R59). -/
def State.coarse (s : State) : Bool := !s.scsLocked

/-- TB_STU advances by 160 at each REF_IN edge: SCS is not locked and the clocks do not coast (R30, R59). -/
def State.onGrid (s : State) : Bool := !s.scsLocked && !s.flag Reg.TOP_DOMAIN_COAST

/-- The state with TB_STU moved on to `t`: it never decreases, and on the reference grid it takes only multiples of 160 (R30). -/
def State.at (s : State) (t : Nat) : State :=
  let u := if s.onGrid then roundUp t 160 else t
  if s.now < u then { s with time := { s.time with stu := u } } else s

/-- The stamp of an event at stu `u`: while SCS is not locked it resolves 160 stu, rounded down (R34; the rounding: DESIGN CHOICE, log entry 84). -/
def State.stampOf (s : State) (u : Nat) : Nat := if s.coarse then u / 160 * 160 else u

/-- The stamp of an event at the present stu. -/
def State.stamp (s : State) : Nat := s.stampOf s.now

/-- The deadline of an SI time given in ns, rounded up to a whole stu (R33). -/
def nsStu (n : Nat) : Nat := ceilDiv (n * 6144) 1000

/-- The stu offset of the present stu in its tick, counted from the grid position (R15). -/
def State.offset (s : State) : Nat := s.now - s.time.tick * tickStu

/-- The plan cut-off's offset (R15). -/
def cutoff : Nat := 1792000

/-- The stu at which a deadline takes effect: the first stu after the last STEP skip where it falls inside it; the edge's own coasted count is the first value
skipped (R33, R50). -/
def State.afterSkip (s : State) (d : Nat) : Nat :=
  let j := s.rget64 Reg.TB_JUMP_STU_LO
  let k := s.fget Reg.TB_JUMP_SKIP
  if s.flag Reg.TB_JUMP_VALID && !s.flag Reg.TB_JUMP_MODE && decide (j - k ≤ d) && decide (d < j) then j else d

/-- The first value of the grid that stu `b` carries: the start of the STEP skip that ends at it, or itself (R50, R118). -/
def State.beforeSkip (s : State) (b : Nat) : Nat :=
  if s.flag Reg.TB_JUMP_VALID && !s.flag Reg.TB_JUMP_MODE && b == s.rget64 Reg.TB_JUMP_STU_LO then b - s.fget Reg.TB_JUMP_SKIP else b

/-- The stu of the sample `d` stu before the one labelled `l`, samples on either side of the last STEP skip being contiguous (R118). -/
def State.stuBack (s : State) (l d : Nat) : Nat :=
  let j := s.rget64 Reg.TB_JUMP_STU_LO
  if s.flag Reg.TB_JUMP_VALID && !s.flag Reg.TB_JUMP_MODE && decide (j ≤ l) && decide (l - d < j) then l - d - s.fget Reg.TB_JUMP_SKIP
  else l - d

/-- The tick at whose boundary a request accepted now takes effect: the cut-off itself may fall after a STEP skip (R15). -/
def State.boundaryTick (s : State) : Nat :=
  if s.now ≤ s.afterSkip (s.time.tick * tickStu + cutoff) then s.time.tick + 1 else s.time.tick + 2

/-- A warden runs and takes commands: firmware runs, no Tin Soldier restart and no gap of a failover (R25, R482). -/
def State.wardenUp (s : State) : Bool :=
  s.up && !s.boot.rom && s.flt.restart.isNone && s.flt.failover.isNone

/-! ## The quality word (R53) -/

/-- The walk residual at a stu (R51): from E toward 0 at WALK_PPM of the stu passed since the edge. -/
def Walk.residual (w : Walk) (s : Nat) : Rat :=
  match w.frozen with
  | some r => r
  | none =>
    let run : Rat := ((s - w.start : Nat) : Rat) * (w.ppm : Rat) / 1000000
    if w.e < 0 then (if run < ((-w.e : Int) : Rat) then (w.e : Rat) + run else 0)
    else (if run < (w.e : Rat) then (w.e : Rat) - run else 0)

/-- The hottest valid die sensor, 1/16 degree (R48); 25 degrees where none is valid (DESIGN CHOICE, log entry 83). -/
def State.hottest (s : State) : Int :=
  let ts := (List.range 8).filterMap (fun i =>
    if s.flag (Reg.LDG_TEMP_VALID i) then some (sgn 16 (s.fget (Reg.LDG_TEMP_TEMP i))) else none)
  ts.foldl (fun a b => if a < b then b else a) (ts.headD 400)

/-- TJ_LIMIT as it acts (R288). -/
def State.tjLimit (s : State) : Nat := clampN 60 104 (s.fget Reg.LDG_THERM_TJ_LIMIT)

/-- T_hot in 1/16 °C (R273): TJ_LIMIT while three or more sensors are invalid. -/
def State.tHot (s : State) : Int :=
  let bad := ((List.range 8).filter (fun i => !s.flag (Reg.LDG_TEMP_VALID i))).length
  if 3 ≤ bad then 16 * (s.tjLimit : Int) else s.hottest

/-- The growth of UNC in ns per stu: 0.2 ppm of elapsed time, or the coasting rule (R39, R48), which holds as long as COAST is 1, so to the end of a WALK
(DESIGN CHOICE, log entry 83). -/
def State.uncRate (s : State) : Rat :=
  let ppm10 : Rat :=
    if s.flag Reg.TOP_DOMAIN_COAST then
      (s.fget Reg.TB_COAST_BASE : Rat) +
        (s.fget Reg.TB_COAST_TC : Rat) * absQ ((s.hottest - s.time.lossTemp : Int) : Rat) / 16
    else 2
  ppm10 / 10000000 * (1000000000 / 6144000000)

/-- UNC in ns at a stu; none while no bound is known (R53). -/
def State.uncAt (s : State) (u : Nat) : Option Rat :=
  s.time.unc.map (fun q => q + ((u - s.time.uncAt : Nat) : Rat) * s.uncRate)

/-- UNC as TB_QUAL_LO shows it: whole ns rounded up, saturating (R53). -/
def State.uncNs (s : State) (u : Nat) : Nat :=
  match s.uncAt u with
  | none => 4294967295
  | some q => satTo 4294967295 q.ceil.toNat

/-- The high quality word at a stu (R53): TB_QUAL_HI with COARSE, UTC_OK and the walk residual of that stu. -/
def State.qualHiAt (s : State) (u : Nat) : Word :=
  let q := s.rget Reg.TB_QUAL_HI
  let resid : Int := match s.time.walk with
    | none => 0
    | some w => truncZ (w.residual u)
  let q1 := putField q 23 0 (code 24 resid)
  let q2 := putField q1 26 26 (b2n (!s.scsLocked))
  putField q2 24 24 (s.fget Reg.TB_UTC_VALID)

/-- The low quality word at a stu (R53). -/
def State.qualLoAt (s : State) (u : Nat) : Word := BitVec.ofNat 32 (s.uncNs u)

/-- The 64-bit quality word at a stu (R53). -/
def State.qualAt (s : State) (u : Nat) : Nat := (s.qualHiAt u).toNat * 4294967296 + (s.qualLoAt u).toNat

/-! ## Interrupt causes and completions -/

/-- The pin HIRQt_N of R416: low while an enabled cause is pending, for a tenant whose rings lie on SPI or TWA. -/
def State.hirqOf (s : State) (t : Nat) : Bool :=
  ((s.rget (Reg.HST_ICAUSE t)) &&& (s.rget (Reg.HST_IMASK t))) != 0 &&
  s.flag (Reg.HST_STAT_RINGS t) && decide (2 ≤ s.fget (Reg.HST_STAT_RPORT t))

/-- An enabled cause is pending for the tenant whose rings lie on TWA (R423, R424). -/
def State.twaPending (s : State) : Bool :=
  (List.range 4).any (fun t => s.hirqOf t && s.fget (Reg.HST_STAT_RPORT t) == 3)

/-- The state with the four HIRQ pins and TWA_ALERT_N driven as R416 and R424 say; Host Notify is wanted from the stu at which the condition becomes
true, where HNEN is 1 (R423). -/
def State.pins (s : State) : State :=
  let now := s.twaPending
  { s with
    host := { s.host with hirq := (List.range 4).map s.hirqOf }
    buses := modifyAt s.buses 0 (fun (b : BusS) =>
      let rise := now && !b.pendingWas
      let fresh := b.alertDone && !rise && now
      { b with
        pendingWas := now, alertDone := fresh, alert := now && !fresh
        notify := if rise then s.flag (Reg.TW_CTRL_HNEN 0) else b.notify
        refusals := if rise then 0 else b.refusals }) }

/-- What one tenant's host interface holds. -/
def State.ten (s : State) (t : Nat) : TenantS := s.host.tenants.getD t {}

/-- The state with one tenant's host interface changed. -/
def State.tenMod (s : State) (t : Nat) (f : TenantS → TenantS) : State :=
  { s with host := { s.host with tenants := modifyAt s.host.tenants t f } }

/-- An interrupt cause of a tenant becomes pending (R416): the pin follows, on a PCIe port its vector is raised if enabled, and for the
tenant whose rings lie on TWA TWA_ALERT_N may go low again (R424). -/
def State.cause (s : State) (t : Nat) (f : Reg.Fld) : State :=
  let was := s.flag f
  let s1 := s.evt f
  let en := bitOf (s.rget (Reg.HST_IMASK t)).toNat f.lo
  let s2 := if !was && en && s.flag (Reg.HST_STAT_RINGS t) && decide (s.fget (Reg.HST_STAT_RPORT t) < 2) && decide (f.lo < 6)
            then s1.tenMod t (fun x => { x with vectors := x.vectors ++ [f.lo] }) else s1
  let s3 := if !was && en && s.flag (Reg.HST_STAT_RINGS t) && s.fget (Reg.HST_STAT_RPORT t) == 3 then { s2 with buses := modifyAt s2.buses 0 (fun (b : BusS) => { b with alertDone := false }) } else s2
  s3.pins

/-- A cause for several tenants. -/
def State.causes (s : State) (ts : List Nat) (f : Nat → Reg.Fld) : State := ts.foldl (fun x t => x.cause t (f t)) s

/-- The completions a tenant's ring holds that the host has not returned (R404): the indexes differ by them, and CPLFULL tells 256 from none (log entry
6). -/
def State.unread (s : State) (t : Nat) : Nat :=
  if s.flag (Reg.HST_STAT_CPLFULL t) then 256
  else ((s.rget (Reg.HST_CPL_TAIL t)).toNat + 256 - (s.rget (Reg.HST_CPL_HEAD t)).toNat % 256) % 256

/-- A completion entry is free beside those that accepted commands hold (R405). -/
def State.cplFree (s : State) (t : Nat) : Bool := decide (s.unread t + (s.ten t).inflight < 256)

/-- Requests are checked in the order of their acceptance, and at one stu in the order of tenants (R249): one that comes at the stu of a later-numbered tenant's is
accepted at the next stu (log entry 11). -/
def State.inTurn (s : State) (t : Nat) : State :=
  if (List.range 4).any (fun k => decide (t < k) && (s.ten k).tookAt == s.now + 1) then s.at (s.now + 1) else s

/-- A request of a tenant is accepted and checked now. -/
def State.took (s : State) (t : Nat) : State := s.tenMod t (fun x => { x with tookAt := s.now + 1 })

/-- The CPL cause fires when CNT completions are unread (R416). -/
def State.cplCause (s : State) (t : Nat) : State :=
  if zeroAs1 (s.fget (Reg.HST_ICOAL_CNT t)) ≤ s.unread t then
    (s.tenMod t (fun x => { x with fresh := [] })).cause t (Reg.HST_ICAUSE_CPL t)
  else s

/-- The rings of a tenant are enabled (R404). -/
def State.rings (s : State) (t : Nat) : Bool := s.flag (Reg.HST_STAT_RINGS t)

/-- A 64-byte completion entry (R407). -/
def Cpl.bytes (c : Cpl) : List Byte :=
  leBytes c.tag 2 ++ leBytes c.opcode 1 ++ leBytes (b2n c.phase) 1 ++ leBytes c.status 2 ++ [0, 0] ++
  leBytes c.accept 8 ++ leBytes c.written 8 ++ (c.result ++ List.replicate 40 0).take 40

/-- An entry put into a list held by index. -/
def putIdx {α : Type} (l : List (Nat × α)) (i : Nat) (x : α) : List (Nat × α) :=
  match l with
  | [] => [(i, x)]
  | (j, y) :: t => if i < j then (i, x) :: (j, y) :: t else if i = j then (i, x) :: t else (j, y) :: putIdx t i x

/-- The element at an index of such a list. -/
def getIdx {α : Type} (l : List (Nat × α)) (i : Nat) : Option α :=
  match l with
  | [] => none
  | (j, y) :: t => if i = j then some y else getIdx t i

/-- An element taken out of such a list. -/
def dropIdx {α : Type} (l : List (Nat × α)) (i : Nat) : List (Nat × α) := l.filter (fun p => p.1 != i)

/-- A tenant's rings lie on a PCIe port whose Bus Master Enable is 1 (R392). -/
def State.dmaOn (s : State) (t : Nat) : Bool := (s.host.ports.getD (s.fget (Reg.HST_STAT_RPORT t)) {}).busMaster

/-- The device writes bytes into host memory; the write waits while Bus Master Enable is 0 (R392). -/
def State.dma (s : State) (t a : Nat) (l : List Byte) : State :=
  if s.dmaOn t then { s with host := { s.host with out := { s.host.out with dma := s.host.out.dma ++ [(a, l)] } } }
  else s.tenMod t (fun x => { x with held := x.held ++ [(a, l)] })

/-- A completion entry is written at HST_CPL_TAIL with the quality words of its stamps (R404, R407, R53): on PCIe it leaves by DMA. -/
def State.writeCpl (s : State) (t : Nat) (c : Cpl) : State :=
  let i := (s.rget (Reg.HST_CPL_TAIL t)).toNat % 256
  let c' := { c with phase := (s.ten t).phase, written := s.stamp, quals := (s.qualAt c.accept, s.qualAt s.stamp) }
  let s1 := s.tenMod t (fun x => { x with
    ring := putIdx x.ring i c'
    phase := if i = 255 then !x.phase else x.phase
    fresh := x.fresh ++ [s.now] })
  let s2 := s1.rsetN (Reg.HST_CPL_TAIL t) ((i + 1) % 256)
  let s3 := if s.fget (Reg.HST_STAT_RPORT t) < 2 then s2.dma t (s.rget64 (Reg.HST_CPL_BASE_LO t) + 64 * i) c'.bytes else s2
  let s4 := s3.fsetB (Reg.HST_STAT_CPLFULL t) ((i + 1) % 256 == (s.rget (Reg.HST_CPL_HEAD t)).toNat % 256)
  s4.cplCause t

/-- A command's completion (R408): it gives back the entry the command held; with the rings gone it is counted lost (R417). -/
def State.complete (s : State) (t tag op status accept : Nat) (result : List Byte) : State :=
  if s.rings t && decide (0 < (s.ten t).inflight) && decide ((s.ten t).ringAt ≤ accept) then
    (s.tenMod t (fun x => { x with inflight := x.inflight - 1 })).writeCpl t
      { tag := tag, opcode := op, status := status, accept := accept, written := s.stamp, result := result }
  else s.bump (whole (Reg.HST_LOSTCPL t))

/-- HST_STAT.EVPEND shows whether device events wait (R408, R409). -/
def State.evPend (s : State) (t : Nat) : State :=
  s.fsetB (Reg.HST_STAT_EVPEND t) (!((s.ten t).waitEvents.isEmpty && (s.ten t).waitReqs.isEmpty))

/-- A device-originated EVENT entry (R408, R409). -/
def eventCpl (tag status at_ ctx kind fault addr : Nat) : Cpl :=
  { tag := tag, opcode := 0x80, status := status, accept := at_, written := 0,
    result := leBytes ctx 1 ++ leBytes kind 1 ++ leBytes fault 1 ++ [0] ++ leBytes addr 4 }

/-- An event of kind 1 or 2: written if an entry is free, else it waits, one per context and kind (R408). -/
def State.postEvent (s : State) (t ctx kind : Nat) (c : Cpl) : State :=
  if !s.rings t then s
  else if s.cplFree t then s.writeCpl t c
  else
    (s.tenMod t (fun x => { x with
      waitEvents := if x.waitEvents.any (fun w => w.ctx == ctx && w.kind == kind) then x.waitEvents
        else x.waitEvents ++ [{ ctx := ctx, kind := kind, cpl := c }] })).evPend t

/-- A completion put among those that wait, in the order of acceptance (R409). -/
def insCpl (c : Cpl) : List Cpl → List Cpl
  | [] => [c]
  | d :: t => if c.accept < d.accept then c :: d :: t else d :: insCpl c t

/-- A request completion (R409): written if an entry is free, else it waits; beyond 64 the oldest is dropped and counted. -/
def State.postReq (s : State) (t status accept ctx addr : Nat) : State :=
  let c := eventCpl 0xFFFF status accept ctx 3 0 addr
  if !s.rings t then s
  else if s.cplFree t && (s.ten t).waitReqs.isEmpty then s.writeCpl t c
  else
    let full := decide (64 ≤ (s.ten t).waitReqs.length)
    let s1 := s.tenMod t (fun x => { x with waitReqs := (insCpl c x.waitReqs).drop (if full then 1 else 0) })
    let s2 := if full then s1.bump (whole (Reg.HST_LOSTCPL t)) else s1
    s2.evPend t

/-- Waiting events and request completions are written while entries are free, at most `n` of them. -/
def drainEvents (t : Nat) : Nat → State → State
  | 0, s => s.evPend t
  | n + 1, s =>
    if !s.cplFree t then s.evPend t
    else match (s.ten t).waitEvents, (s.ten t).waitReqs with
      | w :: ws, _ => drainEvents t n ((s.tenMod t (fun x => { x with waitEvents := ws })).writeCpl t w.cpl)
      | [], c :: cs => drainEvents t n ((s.tenMod t (fun x => { x with waitReqs := cs })).writeCpl t c)
      | [], [] => s.evPend t

/-! ## Tenancy -/

/-- The tenant of a port: by the table while the device is owned, T0 otherwise; none before the mount ends (R399, R507). -/
def State.portTenant (s : State) (p : Nat) : Option Nat :=
  if !s.host.bound then none
  else if s.host.anchor.isNone then some 0
  else (List.range 4).find? (fun t =>
    let e := s.host.table.getD t {}
    e.enabled && bitOf e.ports p)

/-- The tenancy entry in force for a tenant: while unowned, T0 holds every port, context and right (R399). -/
def State.tenancy (s : State) (t : Nat) : TenEntry :=
  if s.host.anchor.isNone then
    if t = 0 then { enabled := true, ports := 15, ctxBase := 0, ctxCount := 256, engShare := 0, nrgShare := 0,
                    storeQ := 4294967295, flashQ := 4294967295, rights := 0x1F }
    else {}
  else s.host.table.getD t {}

/-- LDG_SHARE shows the energy shares of the table in force (R284, R288). -/
def State.showShares (s : State) : State :=
  (List.range 4).foldl (fun (x : State) t => x.rsetN (Reg.LDG_SHARE t) (s.tenancy t).nrgShare) s

/-- The image-signing kids of a tenant: its slots in use (R396). -/
def TenEntry.signers (e : TenEntry) : List (List Byte) := e.kids.filter (fun k => !allZero k)

/-- A right of a tenant by its bit (R396); T0's own rights are the table's once owned. -/
def State.right (s : State) (t bit : Nat) : Bool := (s.tenancy t).enabled && bitOf (s.tenancy t).rights bit

/-- The tenant whose enabled range holds context `n` (R517). -/
def State.owner (s : State) (n : Nat) : Option Nat :=
  (List.range 4).find? (fun t =>
    let e := s.tenancy t
    e.enabled && decide (e.ctxBase ≤ n) && decide (n < e.ctxBase + e.ctxCount))

/-! ## Contexts, runs and buses by number -/

/-- A context. -/
def State.ctx (s : State) (n : Nat) : ContextS := (getIdx s.ctxs n).getD {}

/-- The state with one context changed. -/
def State.ctxMod (s : State) (n : Nat) (f : ContextS → ContextS) : State :=
  { s with ctxs := putIdx s.ctxs n (f (s.ctx n)) }

/-- The state with one context's chain changed. -/
def State.chnMod (s : State) (n : Nat) (f : ChainS → ChainS) : State :=
  s.ctxMod n (fun c => { c with chain := f c.chain })

/-- P0 work has been cut, lost or not served in the present tick (R494). -/
def State.trouble (s : State) (n : Nat) : State :=
  if (s.ctx n).prio = 0 then { s with flt := { s.flt with bad := true } } else s

/-- The present tick is not counted (R493). -/
def State.exclude (s : State) : State := { s with flt := { s.flt with excluded := true } }

/-- The context is open: admitted and not closed. -/
def State.isOpen (s : State) (n : Nat) : Bool := (s.ctx n).mode != .closed

/-- The numbers of the contexts that are open. -/
def State.openCtxs (s : State) : List Nat := (s.ctxs.filter (fun p => p.2.mode != .closed)).map (·.1)

/-- The run on an engine. -/
def State.run (s : State) (e : Nat) : Option Run := (s.runs.getD e none)

/-- The state with an engine's run replaced. -/
def State.setRun (s : State) (e : Nat) (r : Option Run) : State := { s with runs := modifyAt s.runs e (fun _ => r) }

/-- Work of a wind-up class completes now (R471). -/
def State.wuDone (s : State) (k : Nat) : State := { s with snp := { s.snp with lastDone := modifyAt s.snp.lastDone k (fun _ => s.now) } }

/-- A two-wire bus: 0 TWA, 1 TWB. -/
def State.bus (s : State) (b : Nat) : BusS := s.buses.getD b {}

/-- The state with a bus changed. -/
def State.busMod (s : State) (b : Nat) (f : BusS → BusS) : State := { s with buses := modifyAt s.buses b f }

end Sys2Proof.Machine
end

