-- ==== Sys2Proof/Machine/TimeOps.lean ====
section
/-!
DEFINITION. The DTS mapping, its slew and walk (R35, R39, R48, R50, R51), and the count of the backup domain (R441, R449).
-/

namespace Sys2Proof.Machine

/-- The stu the sample clock has gained on the reference since the walk began: DTS leaves them out (R51). -/
def TimeS.walked (t : TimeS) (s : Nat) : Rat :=
  match t.walk with
  | none => 0
  | some w => w.residual s - (w.e : Rat)

/-- The part of a slew that has run at `s` (R39). -/
def TimeS.slewRun (t : TimeS) (s : Nat) : Rat :=
  let most := t.slewRate * ((s - t.s0 : Nat) : Rat) * t.k
  if t.slew < 0 then (if most < -t.slew then -most else t.slew)
  else (if most < t.slew then most else t.slew)

/-- DTS at a stu, in seconds (R35, R39, R51). -/
def TimeS.dts (t : TimeS) (s : Nat) : Rat :=
  t.a + (((s : Int) - (t.s0 : Int) : Int) : Rat) * t.k - t.walked s * t.k + t.slewRun s

/-- DTS at a stu. -/
def State.dts (s : State) (u : Nat) : Rat := s.time.dts u

/-- The mapping rewritten with its anchor at `u`: DTS keeps its value there, the slew its remainder, a walk its course. -/
def TimeS.rebase (t : TimeS) (u : Nat) : TimeS :=
  { t with a := t.dts u + t.walked u * t.k, s0 := u, slew := t.slew - t.slewRun u }

/-- The whole seconds of DTS, held to 48 bits (R35). -/
def dtsSec (q : Rat) : Nat := (q.floor % 281474976710656).toNat

/-- The fraction of DTS in units of 2^-32 s (R35), truncated. -/
def dtsFrac (q : Rat) : Nat := ((q - (q.floor : Rat)) * 4294967296).floor.toNat

/-- UNC brought up to the present stu, before its growth rate changes. -/
def State.foldUnc (s : State) : State :=
  { s with time := { s.time with unc := s.uncAt s.now, uncAt := s.now } }

/-- SRC of the quality word for a class (R54). -/
def TimeClass.src : TimeClass → Nat
  | .bcast => 1
  | .pps => 2
  | .host => 3

/-- The first stu at or after the present whose DTS is at or past `sec`, searched by halving in [lo, lo + 2^n] (R36, R45). -/
def State.firstStuFrom (s : State) (sec : Rat) : Nat → Nat → Nat
  | 0, lo => lo
  | n + 1, lo => if sec ≤ s.dts (lo + 2 ^ n - 1) then s.firstStuFrom sec n lo else s.firstStuFrom sec n (lo + 2 ^ n)

/-- The first stu from the present at which DTS is at or past `sec` seconds, within 2^80 stu. -/
def State.stuOfDts (s : State) (sec : Rat) : Nat := s.firstStuFrom sec 80 s.now

/-! ## The backup domain's oscillator (R441, R449) -/

/-- The state with the backup domain changed. -/
def State.bkpMod (s : State) (f : BkpS → BkpS) : State := { s with bkp := f s.bkp }

/-- The window length in raw pulses and the trim of a BKP_TRIM word (R449). -/
def trimWin (v : Word) : Nat := 2 ^ clampN 5 12 (fieldOf v 31 28) * 32768

/-- T, signed. -/
def trimVal (v : Word) : Int :=
  let t := sgn 11 (fieldOf v 10 0)
  if t < -1023 then -1023 else t

/-- The trim points among the first `x` raw pulses of a window: the k with floor(k W / |T|) - 1 < x (R449). -/
def trimPts (v : Word) (x : Nat) : Nat :=
  let t := (trimVal v).natAbs
  if t = 0 then 0 else Nat.min t (((x + 1) * t - 1) / trimWin v)

/-- The counts that `x` raw pulses from a window's start make. -/
def trimCount (v : Word) (x : Nat) : Nat :=
  let w := trimWin v
  let t := (trimVal v).natAbs
  let p := x / w * t + trimPts v (x % w)
  if trimVal v < 0 then x - p else x + p

/-- The domain at raw pulse `r`: the count and the trimmed stream move on (R441, R449); with the crystal stopped nothing does. -/
def State.osc (s : State) (r : Nat) : State :=
  let b := s.bkp
  if r ≤ b.raw ∨ s.flag Reg.BKP_STAT_OSCFAIL ∨ !b.powered then s else
  let v := s.rget Reg.BKP_TRIM
  let d := trimCount v (r - b.winStart) - trimCount v (b.raw - b.winStart)
  let last := trimCount v (r - b.winStart) - trimCount v (r - 1 - b.winStart)
  let n := b.sec * 32768 + b.frac + d
  s.bkpMod (fun b => { b with seen := s.now, step := last, raw := r, trim := b.trim + d, sec := n / 32768 % 281474976710656, frac := n % 32768 })

/-- The raw pulses since the count was last known: 32,768 a second within the crystal's 20 ppm (R549) and REF_IN's 49 (R49), and no command shows which, so a
free value between the bounds (DESIGN CHOICE, log entry 85). -/
def State.pulses (s : State) : Nat × State :=
  let d := s.now - s.bkp.seen
  let lo := d * 999931 / 187500000000
  let hi := d * 1000069 / 187500000000 + 1
  let (f, s1) := s.free1
  (if d = 0 then 0 else lo + f % (hi + 1 - lo), s1)

/-- The domain as at its most recent edge before the present stu, where no command shows the pulse. -/
def State.oscGo (s : State) : State := s.pulses.2.osc (s.bkp.raw + s.pulses.1)

end Sys2Proof.Machine
end

