-- ==== Sys2Proof/Machine/Report.lean ====
section
/-!
DEFINITION. The snapshot latch (R458 to R463) and the fault log (R477 to R479), which every block reports through.
-/

namespace Sys2Proof.Machine

/-! ## Converters -/

/-- A converter's samples are void: SCS is unlocked, it is powered down, or it powered up less than 64 ticks ago (R98). -/
def State.convVoid (s : State) (c : Nat) : Bool :=
  let k := s.fe.convs.getD c {}
  !s.scsLocked || !k.powered || k.voidUntil.isSome

/-- The port that feeds a converter, and the converter a port feeds (R82). -/
def State.crossed (s : State) (c : Nat) : Nat := if c = 2 then 2 else if s.fe.route = 0 then c else 1 - c

/-- What SNP_FE latches of a converter (R460, R476): the gain fields are those of the port that feeds it. -/
def State.snapFe (s : State) (c : Nat) : Word :=
  let p := s.crossed c
  let k := s.fe.convs.getD c {}
  let w0 := putField 0 31 12 (satTo 1048575 k.clips)
  let w1 := if c = 2 then w0 else
    putField (putField (putField (putField w0 8 6 (s.fget (Reg.FE_STAT_GNOW p))) 5 3 (s.fget (Reg.FE_STAT_GNEXT p)))
      2 2 (s.fget (Reg.FE_STAT_ANN p))) 1 1 (s.fget (Reg.FE_STAT_EMERG p))
  putField w1 0 0 (b2n (s.convVoid c))

/-- What SNP_SE latches of an engine (R460, R476). -/
def State.snapSe (s : State) (e : Nat) : Word :=
  match s.run e with
  | none => 0
  | some r =>
    if r.ended then 0 else
    let w := putField (putField (putField 0 31 24 r.ctx) 23 23 1) 12 0 r.word
    match r.handler with
    | none => w
    | some k => putField (putField w 22 22 1) 21 19 k

/-! ## Snapshots -/

/-- FST_OP shows what the NAND interface does at this instant (R389). The commands carry out whole operations and no rule gives their stus, so while the interface may run it is
free; it is idle while ICS is not locked (R79) and while no store is being discovered, mounted or mounted (DESIGN CHOICE, log entry 86). -/
def State.showOp (s : State) : State :=
  let st := s.fget Reg.FST_STAT_STATE
  if s.flag Reg.TOP_DOMAIN_ICS_LOCK && decide (1 ≤ st) && decide (st ≤ 3) then
    let (f, s1) := s.free1
    let op := f % 6
    let ts := (List.range 4).filter (fun c => bitOf (s.fget Reg.FST_STAT_TARGETS) c)
    s1.rsetN Reg.FST_OP (if op = 0 then 0 else op * 268435456 + ts.getD (f / 6 % Nat.max 1 ts.length) 0 * 67108864 + f / 24 % 5 * 8388608)
  else s.rsetN Reg.FST_OP 0

/-- The copies of SNP_FE, SNP_SE and SNP_LASTOUT (R460). -/
def State.snapCopies (s : State) : State :=
  let s1 := (List.range 3).foldl (fun (x : State) c => x.rset (Reg.SNP_FE c) (s.snapFe c)) s
  let s2 := (List.range 8).foldl (fun (x : State) e => x.rset (Reg.SNP_SE e) (s.snapSe e)) s1
  s.ctxs.foldl (fun (x : State) p =>
    x.rset64 (Reg.SNP_LASTOUT_LO p.1) (if p.2.mode = .closed then 0 else p.2.chain.lastOut)) s2

/-- The energy of the present tick so far (R460): what has been charged in it, and a free amount for the runs that have not ended and for the idle, fabric, finder and
wind-up energy, whose growth within a tick no rule gives (DESIGN CHOICE, log entry 86). -/
def State.energySoFar (s : State) : Nat × State :=
  let (f, s1) := s.free1
  (satTo 8388607 (s.ldg.soFar + f), s1)

/-- An engine's entry in a snapshot that `t` has latched and `s` had not: what the engine held before its run was dropped (R459, R460). -/
def State.seAsWas (s : State) (e : Nat) (t : State) : State :=
  if !s.flag Reg.SNP_STAT_HELD && t.flag Reg.SNP_STAT_HELD then t.rset (Reg.SNP_SE e) (s.snapSe e) else t

/-- A snapshot is latched at trigger instant `t` (R459 to R463, R467). Whether an oscillator edge lies within 2 rc of it is free;
with AMBIG the count is free by one pulse (R461). -/
def State.snapLatch (s : State) (src ctx t : Nat) : State :=
  let s1 := ((s.snapCopies.rset64 Reg.SNP_STU_LO t).rset64 Reg.SNP_TICK_LO s.time.tick).rset64 Reg.SNP_QUAL_LO (s.qualAt t)
  let (e, s1b) := s1.energySoFar
  let s2 := (s1b.fset Reg.SNP_LDG_GRADE (s.fget Reg.TOP_DOMAIN_GRADE)).fset Reg.SNP_LDG_E e
  let s2b := s2.showOp
  let s3 := (s2b.rset Reg.SNP_LDGPREV (s.rget Reg.LDG_TICKE)).rset Reg.SNP_FST (s2b.rget Reg.FST_OP)
  let (near, sA) := s3.free1
  let (off, sB) := sA.free1
  let ambig := near % 2 == 1
  let s3b := sB.oscGo
  let count := s3b.bkp.sec * 32768 + s3b.bkp.frac + (if ambig then off % 3 else 1) - 1
  let s4 := ((s3b.rset64 Reg.SNP_RTCSEC_LO (count / 32768)).fset Reg.SNP_RTCFRAC_FRAC (count % 32768)).fsetB Reg.SNP_RTCFRAC_AMBIG ambig
  let s5 := ((s4.fsetB Reg.SNP_STAT_HELD true).evt Reg.SNP_EVT_LATCHED).bump (whole Reg.SNP_SEQ)
  let s6 := (s5.rsetN Reg.SNP_CAUSE (src % 256)).fset Reg.SNP_CAUSE_CTX ctx
  let s7 := if s.flag Reg.SNP_STAT_RAWON then s6.rset64 Reg.SNP_RAWFIRST_LO (t - 3072000 - t % 512) else s6
  s7.causes ((List.range 4).filter (fun k => k == 0 || s.right k 4)) Reg.HST_ICAUSE_SNAP

/-- A trigger (R458): of sources that share an instant one snapshot forms (R462); any other trigger during a hold is counted
(R463). `src` is the bit of SNP_CAUSE.SRC. -/
def State.snapTrigger (s : State) (src ctx t : Nat) : State :=
  if !s.flag Reg.SNP_STAT_HELD then s.snapLatch (2 ^ src) ctx t
  else if s.rget64 Reg.SNP_STU_LO = t then
    let w := s.fget Reg.SNP_CAUSE_SRC
    let s1 := if bitOf w src then s else s.fset Reg.SNP_CAUSE_SRC (w + 2 ^ src)
    s1.fset Reg.SNP_CAUSE_CTX (Nat.min ctx (s1.fget Reg.SNP_CAUSE_CTX))
  else (s.bump (whole Reg.SNP_MISSED)).evt Reg.SNP_EVT_MISSED

/-! ## Raw capture -/

/-- A wideband converter's gain step and void as the block map shows them (R468). -/
def State.rawLevel (s : State) (c : Nat) : Nat × Bool := (s.fget (Reg.FE_STAT_GNOW (s.crossed c)), s.convVoid c)

/-- A note for the block map; notes older than six ticks describe no capture that can still form. -/
def State.rawNote (s : State) (n : RawNote) : State :=
  { s with snp := { s.snp with rawNotes := s.snp.rawNotes.filter (fun m => decide (s.now < m.stu + 6 * tickStu)) ++ [n] } }

/-- A STEP skip in a recording (R468). -/
def State.skipNote (s : State) (u len : Nat) : State :=
  if s.flag Reg.SNP_STAT_RAWON then s.rawNote { stu := u, conv := 2, skip := true, len := len } else s

/-- While the buffer records, the changes an effect made to gain and void are noted at `u` (R468). -/
def State.rawTrack (s : State) (u : Nat) (f : State → State) : State :=
  let s1 := f s
  if s.flag Reg.SNP_STAT_RAWON then
    [0, 1].foldl (fun (x : State) c =>
      let a := s.rawLevel c
      let b := x.rawLevel c
      if a = b then x else x.rawNote { stu := u, conv := c, gain := (a.1, b.1), void := (a.2, b.2) }) s1
  else s1

/-! ## The fault log -/

/-- The FLT_EVT bit and the counter of a class (R497). -/
def fltEvt : Nat → Reg.Fld
  | 0 => Reg.FLT_EVT_F0
  | 1 => Reg.FLT_EVT_F1
  | 2 => Reg.FLT_EVT_F2
  | 3 => Reg.FLT_EVT_F3
  | _ => Reg.FLT_EVT_F4

/-- The counter of a class (R497). -/
def fltCnt : Nat → Reg.Fld
  | 0 => Reg.FLT_CNT0_F0
  | 1 => Reg.FLT_CNT0_F1
  | 2 => Reg.FLT_CNT1_F2
  | 3 => Reg.FLT_CNT1_F3
  | _ => Reg.FLT_CNT1_F4

/-- A fault of class F0 to F4 is detected at stu `t` (R479): its entry, its event bit and counts, and for F1 to F4 the snapshot
trigger of R458. -/
def State.faultAt (s : State) (t fc unit ctx detail : Nat) : State :=
  let cls := fc / 4096
  let i := s.flt.logged % 64
  let a := Reg.FLT_LOG i 0
  let s1 := ((s.rset64 a t).rsetN (a + 8) (fc + 65536 * unit + 16777216 * ctx)).rsetN (a + 12) detail
  let s2 := (s1.rsetN Reg.FLT_LOGHEAD i).evt (fltEvt cls)
  let s3 := { s2.bump (fltCnt cls) with
    flt := { s2.flt with logged := s2.flt.logged + 1 }
    snp := { s2.snp with secondFaults := modifyAt s2.snp.secondFaults cls (fun n => satTo 255 (n + 1)) } }
  if cls ≠ 0 && bitOf (s.fget Reg.SNP_CTRL_FMASK) (cls - 1) then
    s3.snapTrigger (cls + 1) (if cls = 1 then ctx else 255) t
  else s3

/-- A fault detected at the present stu. -/
def State.fault (s : State) (fc unit ctx detail : Nat) : State := s.faultAt s.stamp fc unit ctx detail

end Sys2Proof.Machine
end

