-- ==== Sys2Proof/Machine/Chains.lean ====
section
/-!
DEFINITION. Channelizers, taps and context chains (chapter 5), the cues they raise (R186 to R189) and their CHAIN rings
(R173, R174, R181).
-/

namespace Sys2Proof.Machine

/-- The state with one converter changed: 0 WA, 1 WB, 2 LF. -/
def State.convMod (s : State) (c : Nat) (f : ConvS → ConvS) : State :=
  { s with fe := { s.fe with convs := modifyAt s.fe.convs c f } }

/-- A converter's internal state. -/
def State.conv (s : State) (c : Nat) : ConvS := s.fe.convs.getD c {}

/-! ## Cues -/

/-- A cue record with one more event (R187). -/
def Cue.add (c : Cue) (kind first last info : Nat) (late : Bool) : Cue :=
  { count := satTo 65535 (c.count + 1)
    first := if c.count = 0 then first else c.first
    last := last
    info := if kind = 0 then c.info ||| info else if kind = 6 then info else 0
    late := c.late || late }

/-- The handler of a kind that a context's image declares. -/
def ContextS.handler (c : ContextS) (kind : Nat) : Option Handler :=
  c.image.bind (fun im => im.handlers.find? (fun h => h.kind == kind))

/-- The start offset of the last SAME slot of a kind in the present tick, none without one (R202). -/
def State.lastSlot (s : State) (n kind : Nat) : Option Nat :=
  let offs := ((List.range 4).map (fun j => (s.rget (Reg.CTX_CUESLOT n kind j)).toNat)).filter (· != 4294967295)
  if offs.isEmpty then none else some (maxN offs)

/-- A cue is raised for a context (R186): nothing is raised while it is closed or tripped (R199). An event of a NEXT handler waits
for the next tick (R188); one of a SAME handler after the tick's last slot is LATE (R189). -/
def State.raiseCueSpan (s : State) (n kind first last info : Nat) : State :=
  let c := s.ctx n
  if c.mode = .closed ∨ c.mode = .tripped then s else
  let s1 := match c.handler kind with
    | none => s.ctxMod n (fun c => { c with cues := modifyAt c.cues kind (fun q => q.add kind first last info false) })
    | some h =>
      if h.same then
        let late := match s.lastSlot n kind with
          | none => false
          | some o => decide (o < s.offset)
        let s2 := s.ctxMod n (fun c => { c with cues := modifyAt c.cues kind (fun q => q.add kind first last info late) })
        if late then s2.bump (Reg.CTX_CUT_LATE n) else s2
      else s.ctxMod n (fun c => { c with fresh := modifyAt c.fresh kind (fun q => q.add kind first last info false) })
  s1.fsetB (Reg.CTX_STAT_CUEPEND n) true

/-- A cue raised at a stu. -/
def State.raiseCue (s : State) (n kind stu info : Nat) : State := s.raiseCueSpan n kind stu stu info

/-- A later record of a kind joins an earlier one (R187, R188): the gap reasons together, of the doorbell the value of the last write. -/
def Cue.join (a : Cue) (kind : Nat) (b : Cue) : Cue :=
  if b.count = 0 then a else if a.count = 0 then b else
  { count := satTo 65535 (a.count + b.count), first := a.first, last := b.last
    info := if kind = 0 then a.info ||| b.info else b.info, late := a.late || b.late }

/-! ## Sources and delays -/

/-- The settings as the registers hold them (R132). -/
def State.takeCfg (s : State) (n : Nat) : ChainCfg :=
  { kind := s.fget (Reg.CHN_SRC_KIND n), conv := s.fget (Reg.CHN_SRC_CONV n), index := s.fget (Reg.CHN_SRC_INDEX n)
    tapFtw := (s.rget (Reg.CHN_TAP_FTW n)).toNat, tapDec := (s.rget (Reg.CHN_TAP_DEC n)).toNat % 65536
    order := s.fget (Reg.CHN_CIC_ORDER n), dc := s.fget (Reg.CHN_CIC_DECM1 n) + 1
    taps := zeroAs1 (s.fget (Reg.CHN_FIR_TAPS n)), df := s.fget (Reg.CHN_FIR_PDECM1 n) + 1 }

/-- The converter at the head of a chain, through its cascade: 0 WA, 1 WB, 2 LF (R106). -/
def State.convFrom (s : State) : Nat → ChainCfg → Nat
  | 0, c => c.conv
  | k + 1, c => if c.kind = 3 then s.convFrom k (s.ctx c.index).chain.cfg else if c.kind = 2 then 2 else c.conv

/-- The converter that feeds a context. -/
def State.convOf (s : State) (n : Nat) : Nat := s.convFrom 4 (s.ctx n).chain.cfg

/-- The cascade level of a source setting (R106). -/
def State.levelOf (s : State) : Nat → ChainCfg → Nat
  | 0, _ => 4
  | k + 1, c => if c.kind = 3 then 1 + s.levelOf k (s.ctx c.index).chain.cfg else 0

/-- The input period of a chain in stu (R101, R103, R106). -/
def State.inPeriod (s : State) (c : ChainCfg) : Nat :=
  if c.kind = 0 then 512 else if c.kind = 1 then c.tapDec else if c.kind = 2 then 24 * c.tapDec
  else (s.ctx c.index).chain.outPer

/-- The delay of a tap of decimation D on a wideband converter, in 1/16 stu (R103). -/
def tapDelay16 (d : Nat) : Nat := 40 * (d - 1) + 380 * d

/-- The CIC and FIR terms in 1/16 stu (R113). -/
def ChainCfg.own16 (c : ChainCfg) (p : Nat) : Nat := 8 * c.order * (c.dc - 1) * p + 8 * (c.taps - 1) * p * c.dc

/-- The delay from the converter to the output, in 1/16 stu (R113): CHN_DELAY without its analogue term. -/
def State.evDelay16 (s : State) (c : ChainCfg) : Nat :=
  let src := if c.kind = 0 then 24576 * 16 else if c.kind = 1 then tapDelay16 c.tapDec
    else if c.kind = 2 then 24 * tapDelay16 c.tapDec else (s.ctx c.index).chain.evDelay
  src + c.own16 (s.inPeriod c)

/-- The span of a source sample's converter samples, in stu, and the period of the source (R102, R103). -/
def srcSpan (c : ChainCfg) : Nat :=
  let t := 5 * (c.tapDec - 1) + ceilDiv (95 * c.tapDec) 2
  if c.kind = 0 then 49152 else if c.kind = 1 then t else if c.kind = 2 then 24 * t else 0

/-- The source outputs labelled at or after B whose span reaches before B (R121): multiples of P in [B, B + span). -/
def restartZ (c : ChainCfg) (p b : Nat) : Nat := ceilDiv (b + srcSpan c) p - ceilDiv b p

/-- The SETTLE outputs after a reset (R121). -/
def ChainCfg.settle (c : ChainCfg) (z : Nat) : Nat :=
  ((c.taps - 1) * c.dc + c.order * (c.dc - 1) + z) / (c.dc * c.df)

/-- The fabric cost (R130). -/
def ChainCfg.cost (c : ChainCfg) (p : Nat) (fade agc : Bool) : Nat :=
  let nin := ceilDiv 2048000 p
  let nc := ceilDiv nin c.dc
  let nout := ceilDiv nc c.df
  4 * nin + 2 * c.order * (nin + nc) + 2 * ((c.taps + 1) / 2) * nout * (if fade then 2 else 1) + (if agc then 4 * nout else 0)

/-- The cost includes or is to include the FIR term of a cross-fade: taken at open, raised already, or asked for by a swap that waits (R562). -/
def ChainS.needsFade (c : ChainS) : Bool :=
  c.costFade || c.hasFade || [c.pend, c.planned, c.queued].any (fun q => (q.map (·.fade)).getD false)

/-- A context's fabric charge with the terms its cost includes and those that accepted requests still need (R562). -/
def ContextS.cost (x : ContextS) : Nat := x.chain.cfg.cost x.chain.per x.chain.needsFade x.chain.costAgc

/-- The charge in force: a raise counts from the boundary at which its request takes effect (R562). -/
def ContextS.costNow (x : ContextS) : Nat := x.chain.cfg.cost x.chain.per x.chain.hasFade x.chain.hasAgc

/-- The MACs of every admitted context, whatever its state (R243). -/
def State.fabricSum (s : State) : Nat :=
  sumN ((s.ctxs.filter (fun p => p.2.mode != .closed || p.2.opening)).map (fun p => p.2.cost))

/-- The fabric's MACs per tick. -/
def fabricMax : Nat := 131072000

/-- The first source label at or after B: multiples of P for a band or tap, the output grid of a source context (R112). A grid label in a STEP skip that ends at B
is carried at B (R118). -/
def State.firstLabel (s : State) (c : ChainCfg) (p b : Nat) : Nat :=
  let b' := s.beforeSkip b
  if c.kind = 3 then
    let g := (s.ctx c.index).chain.lab1
    if b' ≤ g then g else g + roundUp (b' - g) (Nat.max 1 p)
  else roundUp b' (Nat.max 1 p)

/-! ## What CHN_STAT shows -/

/-- CHN_STAT follows the chain (R132). -/
def State.showChn (s : State) (n : Nat) : State :=
  let x := s.ctx n
  let c := x.chain
  let wait := match c.queued, c.pend with
    | some q, _ => some q
    | none, q => q
  let s1 := ((s.fsetB (Reg.CHN_STAT_OPEN n) (x.mode != .closed)).fset (Reg.CHN_STAT_BANK n) c.bank).fsetB
    (Reg.CHN_STAT_FADING n) c.fade.isSome
  let s2 := (s1.fsetB (Reg.CHN_STAT_PEND n) wait.isSome).fset (Reg.CHN_STAT_PTARGET n) ((wait.map (·.target)).getD 0)
  let s3 := (s2.fsetB (Reg.CHN_STAT_FROZEN n) c.held).fsetB (Reg.CHN_STAT_SETTLING n) (decide (0 < c.settle))
  (s3.fsetB (Reg.CHN_STAT_VOID n) c.void).fset (Reg.CHN_AGCG n |> fun a => ⟨a, 15, 0⟩) 
    (code 16 (if bitOf c.agc.toNat 31 then c.gain else 0))

/-! ## Markers -/

/-- The order of markers at one stu (R115). -/
def markRank (kind : Nat) : Nat :=
  if kind = 2 then 0 else if kind = 6 then 1 else if kind = 3 then 2 else if kind = 4 then 3 else if kind = 5 then 4
  else if kind = 7 then 5 else 6

/-- A marker put among those that wait, in the order of R115. -/
def insMark (m : Marker × Nat) : List (Marker × Nat) → List (Marker × Nat)
  | [] => [m]
  | h :: t =>
    if m.1.stu < h.1.stu ∨ (m.1.stu = h.1.stu ∧ markRank m.1.kind < markRank h.1.kind) then m :: h :: t else h :: insMark m t

/-- A marker sent to one chain with its event-to-output delay; a chain reset at that stu receives none (R119). So does a VOID that begins at that stu, which R119's list
does not name: its chain starts void (DESIGN CHOICE, log entry 84). -/
def State.sendMark (s : State) (n : Nat) (m : Marker) (d : Nat) : State :=
  let c := (s.ctx n).chain
  if !c.on || c.base == m.stu then s else s.chnMod n (fun c => { c with marks := insMark ({ m with qual := s.qualAt m.stu }, d) c.marks })

/-- A marker of an event at a converter, sent to every chain fed from it (R115). The inverse gain of a gain marker multiplies the converter's samples from its
stu on (R92, R116). -/
def State.convMark (s : State) (conv : Nat) (m : Marker) : State :=
  let s1 := if m.kind = 1 then s.convMod conv (fun k => { k with gains := (m.stu, m.param) :: k.gains }) else s
  (s1.openCtxs.filter (fun n => s1.convOf n == conv)).foldl (fun (x : State) n => x.sendMark n m (x.ctx n).chain.evDelay) s1

/-- The delay from context `m` down to context `n`: the CIC and FIR terms of both and of every context between (R115); none where
`n` does not draw on `m`. -/
def State.ncoDelay (s : State) (m : Nat) : Nat → Nat → Option Nat
  | 0, _ => none
  | k + 1, n =>
    let c := (s.ctx n).chain
    if n = m then some c.ownDelay
    else if c.cfg.kind = 3 then (s.ncoDelay m k c.cfg.index).map (· + c.ownDelay) else none

/-- An NCO marker of context `m`, sent to it and to every context that draws on it (R108, R115). -/
def State.ncoMark (s : State) (m : Nat) (mk : Marker) : State :=
  s.openCtxs.foldl (fun (x : State) n => match x.ncoDelay m 4 n with
    | none => x
    | some d => x.sendMark n mk d) s

/-! ## The CHAIN ring -/

/-- An item continues the data run of the item before: no marker between, the same flags and gain, and the same tick (R174). -/
def sameRun : Item → Item → Bool
  | .sample l _ _ st v g _, .sample l' _ _ st' v' g' _ => st == st' && v == v' && g == g' && l / tickStu == l' / tickStu
  | _, _ => false

/-- The entries of a ring after the run `cur` gathered so far, newest item first. -/
def ringRunsGo (cur : List Item) : List Item → List (List Item)
  | [] => if cur.isEmpty then [] else [cur.reverse]
  | i :: t =>
    match cur with
    | [] => ringRunsGo [i] t
    | j :: r => if sameRun j i && decide (r.length + 1 < 256) then ringRunsGo (i :: j :: r) t else (j :: r).reverse :: ringRunsGo [i] t

/-- The data runs and markers of a ring: each data run as its samples, at most 256 (R173, R174). -/
def ringRuns (l : List Item) : List (List Item) := ringRunsGo [] l

/-- The bytes of a ring entry (R173, R114). -/
def entryBytes : List Item → Nat
  | .mark _ :: _ => 16
  | l => 16 + roundUp (4 * l.length) 16

/-- The bytes a ring holds. -/
def ringBytes (l : List Item) : Nat := sumN ((ringRuns l).map entryBytes)

/-- The bytes a context's CHAIN ring can hold: STRIDE + 2 ticks of output at the declared bytes, 800 ticks for P0, in whole 4 KiB
(R181, R254). -/
def ContextS.ringMost (x : ContextS) : Nat :=
  let d := ((x.image.map (fun im => (im.binds.headD {}).most)).getD 0)
  roundUp (d * (if x.prio = 0 then Nat.max 800 (x.stride + 2) else x.stride + 2)) 4096

/-- q0's status words: entries and bytes waiting, LOST count (R202). -/
def State.showQ0 (s : State) (n : Nat) : State :=
  let r := (s.ctx n).ring
  let a := Reg.CTX_QSTAT n 0
  (s.rsetN a (ringRuns r).length).rsetN (a + 4) (ringBytes r)

/-- One item is put on the ring. -/
def State.pushItem (s : State) (n : Nat) (i : Item) : State := s.ctxMod n (fun x => { x with ring := x.ring ++ [i] })

/-- A marker reaches q0: it raises its cue (R186). -/
def State.pushMark (s : State) (n : Nat) (m : Marker) : State :=
  let s1 := s.pushItem n (.mark m)
  if m.kind = 1 then s1.raiseCue n 1 m.stu 0 else s1.raiseCue n 0 m.stu (2 ^ m.kind)

/-- STOP is written to a context's chain ring (R176). -/
def State.stopMark (s : State) (n reason : Nat) : State :=
  (s.pushMark n { stu := s.now, kind := 8, param := reason, qual := s.qualAt s.now }).showQ0 n

/-- A full ring, once it has room for the LOST marker and an output with a marker before it, has space again: a LOST marker gives the samples lost (R181); its cue carries BACKLOG_LOST (R186, R201). -/
def State.ringResume (s : State) (n : Nat) : State :=
  let x := s.ctx n
  if x.chain.ringFull && decide (ringBytes x.ring + 64 ≤ x.ringMost) then
    let k := x.chain.ringLost
    let s1 := s.chnMod n (fun c => { c with ringFull := false, ringLost := 0 })
    let s2 := s1.pushItem n (.mark { stu := s.now, kind := 9, param := k, qual := s.qualAt s.now })
    let s3 := s2.raiseCue n 0 s.now (512 + 262144)
    ((s3.bumpBy ⟨Reg.CTX_QSTAT n 0 + 8, 31, 0⟩ k).showQ0 n).trouble n
  else s

/-! ## The AGC -/

/-- The target peak (R127): TGT quarter decibels below full scale. -/
def agcTarget (agc : Word) : Rat := 32768 * dbGain (-(4 * (fieldOf agc 23 16 : Nat) : Int))

/-- The bounds of the gain: −24 dB to +GMAX dB. -/
def agcClamp (agc : Word) (g : Int) : Int :=
  let hi : Int := 16 * (satTo 48 (fieldOf agc 29 24) : Nat)
  if g < -384 then -384 else if hi < g then hi else g

/-- The fewest whole units of 0.0625 dB, in which G is kept (R129), by which the gain is lowered so that the peak meets the target: what R127 calls exactly enough,
rounded up (DESIGN CHOICE: the rule states no rounding; log entry 84). -/
def agcLower (peak tgt : Rat) : Nat → Nat → Nat
  | 0, k => k
  | n + 1, k => if peak * dbGain (-(k : Int)) ≤ tgt then k else agcLower peak tgt n (k + 1)

/-- The gain after a group with this peak (R127). -/
def agcNext (agc : Word) (g : Int) (peak : Nat) : Int :=
  let tgt := agcTarget agc
  if tgt < (peak : Rat) then agcClamp agc (g - (agcLower peak tgt 2048 0 : Nat))
  else agcClamp agc (g + (fieldOf agc 15 8 : Nat))

/-- A group of 8 outputs has ended: G for the next group (R127); a held G stays (R128). -/
def State.groupEnd (s : State) (n : Nat) : State :=
  let c := (s.ctx n).chain
  if !c.groupDue then s else
  (s.chnMod n (fun c => { c with
    groupDue := false, peak := 0
    gain := if c.held || !bitOf c.agc.toNat 31 then c.gain else agcNext c.agc c.gain c.peak })).showChn n

/-- The label of the next output (R112). -/
def ChainS.nextLabel (c : ChainS) : Nat := c.lab1 + (c.outs - c.outs0) * c.outPer

/-- HOLDMAX has run out (R128). -/
def State.holdExpire (s : State) (n : Nat) : State :=
  let c := (s.ctx n).chain
  match c.expire with
  | some g =>
    if c.held && decide (g ≤ c.outs / 8) then
      ((s.chnMod n (fun c => { c with held := false, expire := none })).evt (Reg.CHN_EVT_AGC_RELEASE n)).showChn n
    else s
  | none => s

/-- A group starts at output label `l`: a release or detection at or before it acts (R128, R234). Where both act at one start the release comes first and the new hold
stays (DESIGN CHOICE: the rules give no order; log entry 84). -/
def State.groupStart (s : State) (n l : Nat) : State :=
  let s1 := s.groupEnd n
  let c := (s1.ctx n).chain
  let s2 := match c.release with
    | some r => if r ≤ l then s1.chnMod n (fun c => { c with release := none, held := false, expire := none }) else s1
    | none => s1
  let s3 := match (s2.ctx n).chain.setGain with
    | some (d, g) =>
      if d ≤ l then
        let h := fieldOf c.agc 7 0
        s2.chnMod n (fun c => { c with setGain := none, gain := agcClamp c.agc g, held := true
                                       expire := if h = 0 then none else some (c.outs / 8 + 64 * h) })
      else s2
    | none => s2
  s3.holdExpire n

/-! ## The filters (R105, R106, R109, R110) -/

/-- The phase of R105 at a stu. -/
def ncoPhase (ftw ph t : Nat) : Nat := (ph * 65536 + ftw * t) % 4294967296

/-- The deviation of an oscillator at a phase: free within 96 dB below the signal, so with a power of at most 10^-9.6 (R105). -/
def ncoDev (p : Nat) : Cx :=
  if Cx.power (Config.ncoError p) ≤ 2511886 / 10000000000000000 then Config.ncoError p else (0, 0)

/-- A sample times exp(−j 2π φ / 2^32) (R105). -/
def rotate (p : Nat) (x : Cx) : Cx :=
  let e := ncoDev p
  let c := phaseCos p + e.1
  let d := phaseSin p + e.2
  (x.1 * c + x.2 * d, x.2 * c - x.1 * d)

/-! ### Bands and taps (R101 to R105, R116) -/

/-- A converter's sample at a stu as its channelizer and taps take it in: multiplied by every inverse digital gain from its marker's stu on (R116), and 0 before
the stu from which its samples are valid (R117). -/
def State.converterAt (s : State) (c t : Nat) : Rat :=
  if t < (s.conv c).since then 0 else
  Config.converterSample c t *
    ((s.conv c).gains.filter (fun g => decide (g.1 ≤ t))).foldl (fun a g => a * ((g.2 : Nat) : Rat) / 16777216) 1

/-- A filter of `n + 1` taps over the samples of a converter that end at `l`, `step` stu apart, each turned by its phase. -/
def State.filtered (s : State) (c l step n since : Nat) (h : Nat → Rat) (phase : Nat → Nat) : Cx :=
  (List.range (n + 1)).foldl (fun (a : Cx) i =>
    let t := s.stuBack l (step * i)
    a.plus (if t < since then (0, 0) else (rotate (phase t) (s.converterAt c t, 0)).times (h i))) (0, 0)

/-- A source sample as a c16 code; a real tone at full scale has a magnitude of 16,384 (R102, R103). That it is rounded and saturated as an output is by R111 is
the model's choice (DESIGN CHOICE, log entry 77). -/
def c16Of (x : Cx) : Int × Int := (satS 16 (roundAway (x.1 * 32768)), satS 16 (roundAway (x.2 * 32768)))

/-- The band sample labelled `l` of band `k`, centred at k × 6 MHz (R101, R102). -/
def State.bandSample (s : State) (c k l : Nat) : Int × Int :=
  c16Of (s.filtered c l 1 49152 0 bandTaps (fun t => (k * 4194304 * t) % 4294967296))

/-- The sample labelled `l` of the tap that a chain draws on, after the NCO of R105 with PH 0, from zero state at the tap's start (R103, R104). -/
def State.tapSample (s : State) (k : Nat × Nat) (t : TapS) (l : Nat) : Int × Int :=
  c16Of (s.filtered k.1 l (if k.1 = 2 then 24 else 1) (tapOrder t.dec) t.since (tapTaps t.dec) (fun u => ncoPhase t.ftw 0 u))

/-- A running tap: unit and number. -/
def State.tapAt (s : State) (k : Nat × Nat) : TapS :=
  match s.taps.find? (fun (p : (Nat × Nat) × TapS) => p.1 == k) with
  | some p => p.2
  | none => {}

/-- The sample labelled `l` of a chain's band or tap: every chain on one band or tap takes the same (R101, R104). -/
def State.sourceSample (s : State) (c : ChainS) (l : Nat) : Int × Int :=
  if c.cfg.kind = 0 then s.bandSample c.cfg.conv c.cfg.index l
  else match c.tap with
    | some k => s.tapSample k (s.tapAt k) l
    | none => (0, 0)

/-- The NCO words that apply to an input labelled `l` (R108). -/
def ChainS.wordsAt (c : ChainS) (l : Nat) : Nat × Nat :=
  match c.dsp.words.find? (fun w => decide (l < w.1)) with
  | some w => w.2
  | none => (c.ftw, c.ph)

/-- A sample runs through the integrators. -/
def cicIn (x : Cx) : List Cx → List Cx
  | [] => []
  | i :: t => i.plus x :: cicIn (i.plus x) t

/-- A decimated sample runs through the combs: its output and the combs after it. -/
def cicOut (x : Cx) : List Cx → Cx × List Cx
  | [] => (x, [])
  | d :: t =>
    let r := cicOut (x.plus (d.times (-1))) t
    (r.1, x :: r.2)

/-- Inputs run through the CIC, `k` of them since its last output: its outputs, newest first, and what it holds after them (R109). -/
def cicRun (dc : Nat) : List Cx → Nat → DspS → List Cx → List Cx × DspS
  | [], _, d, out => (out, d)
  | x :: t, k, d, out =>
    let ints := cicIn x d.ints
    if k + 1 = dc then
      let r := cicOut (ints.getLastD x) d.combs
      cicRun dc t 0 { d with ints := ints, combs := r.2 } (r.1 :: out)
    else cicRun dc t (k + 1) { d with ints := ints } out

/-- A DC gain's deviation from 1 held within 0.01 dB either way (R109). -/
def cicDev (q : Rat) : Rat := if q < -1150630 / 1000000000 then -1150630 / 1000000000 else if 1151955 / 1000000000 < q then 1151955 / 1000000000 else q

/-- The factor that brings the CIC's DC gain to 1, within 0.01 dB of it (R109); with Dc = 1 samples pass unchanged. -/
def cicScale (c : ChainCfg) : Rat :=
  if c.dc = 1 then 1 else (1 + cicDev (Config.cicError c.order c.dc)) / (((c.dc ^ c.order : Nat) : Nat) : Rat)

/-- The inputs of the next output, oldest first, turned by the NCO (R105, R106, R112): a cascade takes its source's outputs, another chain the samples of its band or
tap; one labelled before the last reset counts as zero (R119). A label inside a STEP skip is carried by the first stu after it (R118). -/
def State.chainInputs (s : State) (c : ChainS) : List Cx :=
  let r := c.cfg.dc * c.cfg.df
  let own := (List.range r).map (fun k =>
    let l := s.afterSkip (c.nextLabel - (r - 1 - k) * c.per)
    (l, s.sourceSample c l))
  let mine := if c.cfg.kind = 3 then c.dsp.input.take r else own
  mine.map (fun e =>
    let l := s.afterSkip e.1
    if l < c.base then (0, 0) else
    let w := c.wordsAt l
    rotate (ncoPhase w.1 w.2 l) (((e.2.1 : Int) : Rat), ((e.2.2 : Int) : Rat)))

/-- The source has given every input of the next output: a chain on another context's output waits for it (R106, R112). -/
def ChainS.inputsReady (c : ChainS) : Bool := c.cfg.kind != 3 || decide (c.cfg.dc * c.cfg.df ≤ c.dsp.input.length)

/-- The chain's filters after the inputs of the next output. -/
def State.chainStep (s : State) (c : ChainS) : DspS :=
  let r := cicRun c.cfg.dc (s.chainInputs c) 0 c.dsp []
  { r.2 with
    line := ((r.1.map (fun x => x.times (cicScale c.cfg))) ++ c.dsp.line).take c.cfg.taps
    words := c.dsp.words.filter (fun w => decide (c.nextLabel < w.1))
    input := c.dsp.input.drop (c.cfg.dc * c.cfg.df) }

/-- The FIR output of a bank (R110): tap j uses c[min(j, T − 1 − j)], in units of 2^-17. -/
def ContextS.fir (x : ContextS) (bank : Nat) (line : List Cx) : Cx :=
  let t := x.chain.cfg.taps
  let sum := (List.range t).foldl (fun (a : Cx) j =>
    a.plus ((line.getD j (0, 0)).times ((((getIdx x.coefs (192 * bank + Nat.min j (t - 1 - j))).getD 0 : Int) : Int) : Rat))) (0, 0)
  sum.times (1 / 131072)

/-! ## Outputs -/

/-- The cross-fade has ended (R125): cue 3, FADE_DONE, CHN_FADE_END and the new bank in force. -/
def State.fadeEnd (s : State) (n stu : Nat) : State :=
  match (s.ctx n).chain.fade with
  | none => s
  | some f =>
    let s1 := (s.chnMod n (fun c => { c with fade := none, bank := f.target })).evt (Reg.CHN_EVT_FADE_DONE n)
    ((s1.rset64 (Reg.CHN_FADE_END_LO n) stu).raiseCue n 3 stu 0).showChn n

/-- One component of an output (R111): rounded with ties away from zero and saturated; and whether it saturated. -/
def outComp (q : Rat) : Int × Bool :=
  let r := roundAway q
  (satS 16 r, decide (satS 16 r ≠ r))

/-- The blended value of one component: the FIR outputs of the two banks in codes, times the gain (R125, R127). -/
def blend (f : Option FadeS) (old new gain : Rat) : Rat :=
  (match f with
    | none => old
    | some f =>
      let w := fadeWeight f.done f.m
      (((32768 - w : Nat) : Rat) * old + ((w : Nat) : Rat) * new) / 32768) * gain

/-- Markers attach to the output labelled `l` (R115) and are written before it; a receiver sees the gap markers among them (R300). -/
def State.attach (s : State) (n l : Nat) : State :=
  let c := (s.ctx n).chain
  let due := c.marks.filter (fun p => decide (16 * p.1.stu + p.2 ≤ 16 * l))
  let s1 := s.chnMod n (fun c => { c with marks := c.marks.filter (fun p => !decide (16 * p.1.stu + p.2 ≤ 16 * l)) })
  let s2 := due.foldl (fun (x : State) p => x.pushMark n p.1) s1
  if due.any (fun p => p.1.kind != 1) then s2.ctxMod n (fun x => { x with brs := { x.brs with gap := some l } }) else s2

/-- FADE_END (R125): at the label of output M − 1. -/
def execFadeEnd (n : Fin 256) (s : State) : Host.Outcome State Fault Refusal :=
  .next (
    let c := (s.ctx n).chain
    match c.fade with
    | some f => if f.m ≤ f.done then (s.at c.lastOut).fadeEnd n c.lastOut else s
    | none => s)

/-- AGC_GROUP_END (R127): at the end of each group of 8 outputs. -/
def execAgcGroupEnd (n : Fin 256) (s : State) : Host.Outcome State Fault Refusal :=
  .next (s.groupEnd n)

/-- AGC_HOLD_EXPIRE (R128): HOLDMAX × 64 groups after the hold began. -/
def execAgcHoldExpire (n : Fin 256) (s : State) : Host.Outcome State Fault Refusal :=
  .next (s.holdExpire n)

/-- CHAIN_RING_RESUME (R181): space has returned in a full CHAIN ring. -/
def execChainRingResume (n : Fin 256) (s : State) : Host.Outcome State Fault Refusal :=
  .next (s.ringResume n)

/-! ## Reset, open and close of a chain -/

/-- The chains that draw on context `n`'s output (R106). -/
def State.drawing (s : State) (n : Nat) : List Nat :=
  s.openCtxs.filter (fun m => (s.ctx m).chain.on && (s.ctx m).chain.cfg.kind == 3 && (s.ctx m).chain.cfg.index == n)

/-- The chains that draw on a source whose labels begin anew take their label from it: their input count goes on (R106, R112). -/
def State.regrid : Nat → State → Nat → State
  | 0, s, _ => s
  | k + 1, s, n =>
    let src := (s.ctx n).chain
    (s.drawing n).foldl (fun (x : State) m => State.regrid k (x.chnMod m (fun c => { c with
      lab1 := src.nextLabel + (c.cfg.dc * c.cfg.df - 1 - c.dsp.input.length) * c.per, outs0 := c.outs })) m) s

/-- A chain is reset at stu B (R119, R121): `z` counts the unsettled source outputs. A reset at a boundary ends a fade and begins a new grid of labels;
the reset after a void, `going`, keeps both (R117, R131). -/
def State.chnReset (s : State) (n b z : Nat) (endFade going : Bool) : State :=
  let s0 := if endFade then s.fadeEnd n b else s
  let c := (s0.ctx n).chain
  let k := c.cfg.settle z
  let l1 := if going then c.nextLabel else s0.firstLabel c.cfg c.per b + (c.cfg.dc * c.cfg.df - 1) * c.per
  let zero := List.replicate c.cfg.order ((0, 0) : Rat × Rat)
  let s1 := ((s0.chnMod n (fun c => { c with
    base := b, outs := 0, lab1 := l1, outs0 := 0, settle := k
    dsp := { ints := zero, combs := zero, words := c.dsp.words, input := if going then c.dsp.input else [] }
    gain := 0, peak := 0, groupDue := false, held := false, expire := none
    setGain := none, release := none
    marks := c.marks.filter (fun p => p.1.stu != b) })).fset ⟨Reg.CHN_SETTLE n, 19, 0⟩ k).showChn n
  if going then s1 else State.regrid 4 s1 n

/-- The stu since which a chain's band or tap runs: its converter's last void, or the start of its tap (R104, R117). -/
def State.sourceSince (s : State) (c : ChainS) : Nat :=
  match c.tap with
  | some k => (s.tapAt k).since
  | none => (s.conv c.cfg.conv).since

/-- Z of R121 for a reset at B: every chain of a source that itself starts or restarts at B counts its unsettled outputs; `fresh` says so of a source that
a damaged ring made void (R480). -/
def State.zOf (s : State) (n b : Nat) (fresh : Bool) : Nat :=
  let c := (s.ctx n).chain
  if c.cfg.kind = 3 then
    let src := (s.ctx c.cfg.index).chain
    if src.base = b then s.fget ⟨Reg.CHN_SETTLE c.cfg.index, 19, 0⟩ else 0
  else if fresh || s.sourceSince c == b then restartZ c.cfg c.per b else 0

/-- The CHZ registers of a tap (R133): unit 0 or 1 wide, 2 LF. -/
def State.showTap (s : State) (u w : Nat) : State :=
  let t := (s.taps.find? (fun p => p.1 == (u, w))).map (·.2)
  let used := t.isSome
  let v := t.getD {}
  if u = 2 then
    (((s.rsetN (Reg.CHZ_LT_FTW w) v.ftw).fsetB (Reg.CHZ_LT_CFG_USED w) used).fset (Reg.CHZ_LT_CFG_USERS w) v.users.length).fset
      (Reg.CHZ_LT_CFG_DEC w) v.dec
  else
    (((s.rsetN (Reg.CHZ_WT_FTW u w) v.ftw).fsetB (Reg.CHZ_WT_CFG_USED u w) used).fset (Reg.CHZ_WT_CFG_USERS u w) v.users.length).fset
      (Reg.CHZ_WT_CFG_DEC u w) v.dec

/-- The tap unit a setting asks for: wide taps of WA or WB, or LF taps. -/
def ChainCfg.tapUnit (c : ChainCfg) : Nat := if c.kind = 2 then 2 else c.conv

/-- A tap that already runs with a setting (R104). -/
def State.tapFor (s : State) (c : ChainCfg) : Option (Nat × Nat) :=
  (s.taps.find? (fun p => p.1.1 == c.tapUnit && p.2.ftw == c.tapFtw && p.2.dec == c.tapDec)).map (·.1)

/-- A free tap of a unit: the lowest-numbered (R104 leaves the choice; log entry 10). -/
def State.freeTap (s : State) (u : Nat) : Option (Nat × Nat) :=
  ((List.range (if u = 2 then 16 else 8)).find? (fun w => !s.taps.any (fun p => p.1 == (u, w)))).map (fun w => (u, w))

/-- A tap is found or started for a context at its open boundary (R104); true if it starts now. -/
def State.takeTap (s : State) (n b : Nat) : State :=
  let c := (s.ctx n).chain.cfg
  if c.kind = 1 ∨ c.kind = 2 then
    match s.tapFor c with
    | some k =>
      let s1 : State := { s with taps := s.taps.map (fun (p : (Nat × Nat) × TapS) => if p.1 == k then (p.1, { p.2 with users := p.2.users ++ [n] }) else p) }
      (s1.chnMod n (fun c => { c with tap := some k })).showTap k.1 k.2
    | none =>
      match s.freeTap c.tapUnit with
      | some k =>
        let s1 : State := { s with taps := s.taps ++ [(k, { ftw := c.tapFtw, dec := c.tapDec, users := [n], since := b })] }
        (s1.chnMod n (fun c => { c with tap := some k })).showTap k.1 k.2
      | none => s
  else s

/-- A context leaves its tap; the last one releases it (R104). -/
def State.leaveTap (s : State) (n : Nat) : State :=
  match (s.ctx n).chain.tap with
  | none => s
  | some k =>
    let ts : List ((Nat × Nat) × TapS) := s.taps.map (fun p => if p.1 == k then (p.1, { p.2 with users := p.2.users.filter (· != n) }) else p)
    let s1 := { s with taps := ts.filter (fun p => !(p.1 == k && p.2.users.isEmpty)) }
    (s1.chnMod n (fun c => { c with tap := none })).showTap k.1 k.2

/-- A chain starts at its open boundary B (R119, R113, R130, R132). -/
def State.openChain (s : State) (n b : Nat) : State :=
  let s1 := s.takeTap n b
  let cfg := (s1.ctx n).chain.cfg
  let p := s1.inPeriod cfg
  let ev := s1.evDelay16 cfg
  let adly := 16 * s1.otp.adly.getD (s1.crossed (s1.convFrom 4 cfg)) 0
  let dly := if cfg.kind = 3 then s1.rget64 (Reg.CHN_DELAY_LO cfg.index) + cfg.own16 p else ev + adly
  let s2 := s1.chnMod n (fun c => { c with
    on := true, per := p, outPer := p * cfg.dc * cfg.df, evDelay := ev, ownDelay := cfg.own16 p
    fade := none, marks := [], void := s1.convVoid (s1.convFrom 4 cfg)
    ringFull := false, ringLost := 0, lastOut := 0, lastSwap := 0 })
  let s3 := (((s2.rset64 (Reg.CHN_DELAY_LO n) dly).rsetN (Reg.CHN_SATCNT n) 0).rsetN (Reg.CTX_QSTAT n 0 + 8) 0).rsetN (Reg.CHN_COST n)
    (s2.ctx n).costNow
  s3.chnReset n b (s3.zOf n b false) false false

/-- A chain stops (close, shed, trip, restart): nothing is in flight any more. A shed or stopped chain keeps its source, and a fade in progress for the reset
that readmits it (R326); a swap planned for the boundary completes there as "context shed" (R409). -/
def State.stopChain (s : State) (n : Nat) : State :=
  (s.chnMod n (fun c => { c with on := false, marks := [], held := false, expire := none })).showChn n

/-- A chain that stopped runs again from a reset at B (R119, R251), which ends a fade that it stopped in (R131, R326). -/
def State.restartChain (s : State) (n b : Nat) : State :=
  let s1 := s.chnMod n (fun c => { c with on := true, void := s.convVoid (s.convOf n) })
  s1.chnReset n b (s1.zOf n b false) true false

/-! ## Void (R98, R117) -/

/-- A converter turns void at the present stu: its VOID event, and a VOID marker and cue for every chain fed from it. -/
def State.convVoidBegin (s : State) (c : Nat) : State :=
  let s1 := s.evt (Reg.FE_EVT_VOID c)
  let s2 := s1.convMark c { stu := s.now, kind := 6 }
  (s2.openCtxs.filter (fun n => s2.convOf n == c)).foldl
    (fun (x : State) n => (x.chnMod n (fun k => { k with void := true })).showChn n) s2

/-- A converter's samples are valid again from `b` on: channelizer, taps and chains are reset (R117). -/
def State.convVoidEnd (s : State) (c b : Nat) : State :=
  let ns := s.openCtxs.filter (fun n => s.convOf n == c && (s.ctx n).chain.on)
  let lvl := fun k => ns.filter (fun n => s.levelOf 4 (s.ctx n).chain.cfg == k)
  let ord := lvl 0 ++ lvl 1 ++ lvl 2 ++ lvl 3
  let s1 := ({ s with taps := s.taps.map (fun p => if p.1.1 == c then (p.1, { p.2 with since := b }) else p) } : State).convMod c
    (fun k => { k with since := b })
  ord.foldl (fun (x : State) n => ((x.chnMod n (fun k => { k with void := false })).chnReset n b (x.zOf n b true) false true)) s1

/-- Every converter turns void when SCS loses lock (R60); one already void stays so. -/
def State.voidBegin (s : State) : State :=
  (List.range 3).foldl (fun (x : State) c =>
    let k := s.fe.convs.getD c {}
    if k.powered && k.voidUntil.isNone then x.convVoidBegin c else x) s

/-- Void ends when SCS lock is declared: the first sample after that stu is valid (R60). -/
def State.voidEnd (s : State) : State :=
  (List.range 3).foldl (fun (x : State) c => if x.convVoid c then x else x.convVoidEnd c (s.now + 1)) s

/-- The void of a damaged tap ring ends before the next output: the chain is reset at the first valid sample (R117, R480). -/
def State.tapVoidEnd (s : State) (n : Nat) : State :=
  match (s.ctx n).chain.voidTo with
  | none => s
  | some v =>
    if (s.ctx n).chain.nextLabel ≤ v then s
    else (s.chnMod n (fun c => { c with void := s.convVoid (s.convOf n), voidTo := none })).chnReset n (v + 1) (s.zOf n (v + 1) true) false true

/-- A chain's output goes to every chain that draws on it (R106). -/
def State.feedDown (s : State) (n l : Nat) (i q : Int) : State :=
  (s.drawing n).foldl (fun (x : State) m =>
    x.chnMod m (fun c => { c with dsp := { c.dsp with input := c.dsp.input ++ [(l, i, q)] } })) s

/-- CHAIN_OUTPUT_WRITE (R105 to R112): the chain of context `n` writes its next output, once its source has given the samples it takes in. A label inside a STEP
skip is carried by the first stu after it (R118). A ring is full when the output, with the markers due before it, no longer fits (R181). -/
def execChainOutputWrite (n : Fin 256) (s : State) : Host.Outcome State Fault Refusal :=
  .next (
    if !(s.ctx n).chain.on || !(s.ctx n).chain.inputsReady then s else
    let s := s.tapVoidEnd n
    let c := (s.ctx n).chain
    let l := s.afterSkip c.nextLabel
    let s0 := s.at l
    let s1 := if c.outs % 8 = 0 then s0.groupStart n l else s0
    let s2 := s1.ringResume n
    let x := s2.ctx n
    let c2 := x.chain
    let en := bitOf c2.agc.toNat 31
    let gain := if en then dbGain c2.gain else 1
    let fade := match c2.fade with
      | none => none
      | some f => if f.start ≤ l then some f else none
    let dsp := s.chainStep c
    let old := x.fir c2.bank dsp.line
    let new := x.fir ((fade.map (·.target)).getD 0) dsp.line
    let vi := if c2.void then 0 else blend fade old.1 new.1 gain
    let vq := if c2.void then 0 else blend fade old.2 new.2 gain
    let (yi, si) := outComp vi
    let (yq, sq) := outComp vq
    let w := (s2.attach n l).pushItem n (.sample l yi yq (decide (0 < c2.settle)) c2.void (if en then c2.gain else 0) (s2.qualAt l))
    let s3 := if c2.ringFull || decide (x.ringMost < ringBytes (w.ctx n).ring) then
        s2.chnMod n (fun c => { c with ringFull := true, ringLost := c.ringLost + 1 })
      else w
    -- the group's peak is that of the outputs before they saturate
    let pk := Nat.max (roundAway vi).natAbs (roundAway vq).natAbs
    let s4 := s3.chnMod n (fun c => { c with
      dsp := dsp, outs := c.outs + 1, settle := c.settle - 1, lastOut := l, deaf := if 0 < c.settle ∨ c.void = true then l else c.deaf
      peak := Nat.max c.peak pk, groupDue := decide ((c.outs + 1) % 8 = 0)
      fade := c.fade.map (fun f => if f.start ≤ l then { f with done := f.done + 1 } else f) })
    let s5 := if si || sq then (s4.bumpBy (whole (Reg.CHN_SATCNT n)) (b2n si + b2n sq)).evt (Reg.CHN_EVT_SAT n) else s4
    let s6 := if c2.void && !s5.scsLocked then s5.trouble n else s5
    ((s6.showQ0 n).showChn n).feedDown n l yi yq)

/-! ## Writes of CHN registers -/

/-- The context is open or its OPEN has been accepted: writes of request registers are requests (R132). -/
def State.busyCtx (s : State) (n : Nat) : Bool := s.isOpen n || (s.ctx n).opening

/-- A request is accepted (R15). -/
def State.request (s : State) (tenant : Nat) (k : ReqKind) : State :=
  { s with reqs := s.reqs ++ [{ due := s.boundaryTick, accept := s.stamp, tenant := tenant, kind := k }] }

/-- The tick at whose boundary a context's open takes effect, 0 where none waits. -/
def State.openTick (s : State) (n : Nat) : Nat :=
  maxN (s.reqs.map (fun q => match q.kind with
    | .openCtx m _ => if m = n then q.due else 0
    | _ => 0))

/-- The boundary at which a request of a context's chain takes effect: the open boundary at the earliest (R15, R132). -/
def State.chainTick (s : State) (n : Nat) : Nat := Nat.max s.boundaryTick (s.openTick n)

/-- A request of a context's chain is accepted (R15, R132). -/
def State.chainRequest (s : State) (tenant n : Nat) (k : ReqKind) : State :=
  { s with reqs := s.reqs ++ [{ due := s.chainTick n, accept := s.stamp, tenant := tenant, kind := k }] }

/-- CHN_SRC, TAP, CIC and FIR: written only until the OPEN is accepted (R132). -/
def State.wrChnConfig (s : State) (n a : Nat) (v : Word) : State :=
  if s.busyCtx n then s.evt (Reg.CHN_EVT_CFG_REFUSED n) else s.wr a v

/-- CHN_NCO_FTW and CHN_NCO_PH (R108). -/
def State.wrChnNco (s : State) (tenant n a : Nat) (v : Word) : State :=
  if s.busyCtx n then (s.wr a v).chainRequest tenant n (.reg a v) else s.wr a v

/-- A request that would leave the chain as `f` does (R562): none where it raises the cost and the fabric does not hold the raised value. -/
def State.raiseCost (s : State) (n : Nat) (f : ChainS → ChainS) : Option State :=
  let s1 := s.chnMod n f
  if (s1.ctx n).cost ≤ (s.ctx n).cost ∨ s1.fabricSum ≤ fabricMax then some s1 else none

/-- CHN_AGC (R129, R562). -/
def State.wrChnAgc (s : State) (tenant n : Nat) (v : Word) : State :=
  let a := Reg.CHN_AGC n
  if s.busyCtx n then
    match s.raiseCost n (fun c => { c with costAgc := c.costAgc || bitOf v.toNat 31 }) with
    | some s1 => (s1.wr a v).chainRequest tenant n (.reg a v)
    | none => (s.wr a v).postReq tenant 0x29 s.stamp n a
  else s.wr a v

/-- M's exponent as it acts (R132). -/
def fadeK (k : Nat) : Nat := clampN 3 12 k

/-- The replaced request's completion reads "superseded" (R409). -/
def State.superseded (s : State) (tenant n : Nat) (old : Option SwapReq) : State :=
  match old with
  | none => s
  | some q => (s.evt (Reg.CHN_EVT_SUPERSEDED n)).postReq tenant 0x32 q.accept n (Reg.CHN_BANK n)

/-- A swap request takes its place (R124, R126): it replaces the one queued or pending, or waits behind a swap in hand, or is pending. -/
def ChainS.ask (c : ChainS) (q : SwapReq) : ChainS :=
  if c.queued.isSome then { c with queued := some q }
  else if c.pend.isSome then { c with pend := some q }
  else if c.planned.isSome || c.fade.isSome then { c with queued := some q }
  else { c with pend := some q }

/-- CHN_BANK (R124, R126, R562): a request superseded by this one needs no cost any more. -/
def State.wrChnBank (s : State) (tenant n : Nat) (v : Word) : State :=
  let a := Reg.CHN_BANK n
  let s0 := s.wr a v
  if !(bitOf v.toNat 31) || !s.busyCtx n then s0 else
  let q : SwapReq := { target := fieldOf v 8 8, fade := bitOf v.toNat 4, k := fadeK (fieldOf v 3 0), accept := s.stamp, due := s.chainTick n }
  match s0.raiseCost n (fun c => c.ask q) with
  | none => s0.postReq tenant 0x29 s.stamp n a
  | some s1 =>
    let c := (s.ctx n).chain
    ((if c.queued.isSome then s1.superseded tenant n c.queued else s1.superseded tenant n c.pend).showChn n)

/-- CHN_SYNC_HI (R120): an arming is a request for the boundary of its tick, or the first that R15 allows. -/
def State.wrChnSync (s : State) (tenant n : Nat) (v : Word) : State :=
  let a := Reg.CHN_SYNC_HI n
  let s0 := s.wr a v
  if !(bitOf v.toNat 31) || !s.busyCtx n then s0 else
  let t := (v.toNat % 65536) * 4294967296 + (s.rget (Reg.CHN_SYNC_LO n)).toNat
  let due := Nat.max t (s.chainTick n)
  let s1 := if t < s.chainTick n then s0.evt (Reg.CHN_EVT_SYNC_LATE n) else s0
  { s1 with reqs := s1.reqs ++ [{ due := due, accept := s.stamp, tenant := tenant, kind := .reg a v }] }

/-- A coefficient word of bank 0 (A) or 1 (B): written only while its bank is the standby bank, as both are until the open boundary (R122, R123). -/
def State.wrCoef (s : State) (n bank i : Nat) (v : Word) : State :=
  let c := (s.ctx n).chain
  let hit := fun (q : Option SwapReq) => (q.map (fun q => q.target == bank)).getD false
  let busy := s.isOpen n && (c.bank == bank || c.fade.isSome || hit c.pend || hit c.planned || hit c.queued)
  if 192 ≤ i then s
  else if busy then s.evt (Reg.CHN_STAT_BANK_BUSY n)
  else s.ctxMod n (fun x => { x with coefs := putIdx x.coefs (192 * bank + i) (sgn 18 (v.toNat % 262144)) })

/-- A coefficient word as it reads: sign-extended (R122). -/
def State.rdCoef (s : State) (n bank i : Nat) : Word :=
  if 192 ≤ i then 0 else BitVec.ofNat 32 (code 32 ((getIdx (s.ctx n).coefs (192 * bank + i)).getD 0))

/-! ## The boundary -/

/-- The plan closes at the cut-off: a pending swap whose boundary comes is carried into it, one that waits for its open boundary too (R124, R132). -/
def State.planSwaps (s : State) (tick : Nat) : State :=
  ((s.ctxs.filter (fun p => p.2.mode != .closed || p.2.opening)).map (·.1)).foldl (fun (x : State) n => match (x.ctx n).chain.pend with
    | some q => if q.due ≤ tick then (x.chnMod n (fun c => { c with pend := none, planned := some q })).showChn n else x
    | none => x) s

/-- A swap starts at boundary B (R125). An NCO marker of this boundary goes to the first blended output (R131; DEDUCED, log entry 77). -/
def State.startSwap (s : State) (n b : Nat) (q : SwapReq) : State :=
  let s1 := s.evt (Reg.CHN_EVT_SWAP n)
  if q.fade then
    s1.chnMod n (fun c => { c with
      fade := some { target := q.target, m := 2 ^ q.k, start := b }, lastSwap := b, hasFade := true
      marks := c.marks.map (fun p => if p.1.kind = 7 ∧ p.1.stu = b then (p.1, 0) else p) })
  else s1.chnMod n (fun c => { c with bank := q.target, lastSwap := b })

/-- The swaps of one context at boundary B of tick `tick`: the planned one, then a queued one whose turn has come (R126). A chain
that is stopped discards them: "context shed" (R409). A queued swap with FADE = 1 that ends as NOSWAP leaves CHN_COST as it is: no fade takes effect (DESIGN
CHOICE beside R562; log entry 83). -/
def State.swapsAt (s : State) (tenant n b tick : Nat) : State :=
  let c := (s.ctx n).chain
  let a := Reg.CHN_BANK n
  match c.planned with
  | some q =>
    let s1 := s.chnMod n (fun c => { c with planned := none })
    (if c.on then (s1.startSwap n b q).postReq tenant 0 q.accept n a else s1.postReq tenant 0x33 q.accept n a).showChn n
  | none =>
    match c.queued with
    | some q =>
      if q.due ≤ tick && c.fade.isNone && decide (c.lastSwap < b) then
        let s1 := s.chnMod n (fun c => { c with queued := none })
        (if !c.on then s1.postReq tenant 0x33 q.accept n a
         else if q.target = c.bank then (s1.evt (Reg.CHN_EVT_NOSWAP n)).postReq tenant 0 q.accept n a
         else (s1.startSwap n b q).postReq tenant 0 q.accept n a).showChn n
      else s
    | none => s

/-- New NCO words come into force at boundary B (R108): an NCO marker carries the phase step. -/
def State.setNco (s : State) (n b ftw ph : Nat) : State :=
  let c := (s.ctx n).chain
  let step := (ncoPhase ftw ph b + 4294967296 - ncoPhase c.ftw c.ph b) % 4294967296
  let s1 := s.chnMod n (fun c => { c with
    ftw := ftw, ph := ph, dsp := { c.dsp with words := if c.on then c.dsp.words ++ [(b, c.ftw, c.ph)] else [] } })
  if c.on then s1.ncoMark n { stu := b, kind := 7, param := step } else s1

end Sys2Proof.Machine
end

