-- ==== Sys2Proof/Machine/Fe.lean ====
section
/-!
DEFINITION. Antenna ports and direct-sampling conversion (chapter 4): routing, bias, preselector, the gain loop, the emergency clip
step and void.
-/

namespace Sys2Proof.Machine

/-- The state with one port changed: 0 ANT_A, 1 ANT_B, 2 ANT_L. -/
def State.portFeMod (s : State) (p : Nat) (f : PortFE → PortFE) : State :=
  { s with fe := { s.fe with ports := modifyAt s.fe.ports p f } }

/-- A port's internal state. -/
def State.portFe (s : State) (p : Nat) : PortFE := s.fe.ports.getD p {}

/-! ## Inverse digital gain (R92) -/

/-- ln 10 to 20 places. -/
def ln10 : Rat := 230258509299404568402 / 100000000000000000000

/-- The sum of a port's calibrated step ratios from step 0 to step g, in 1/1024 dB: the interpolated ratios in force, not the whole values that the CAL_LNA
registers show (R92 says only "calibrated step ratios (CAL_LNA)"; DESIGN CHOICE, log entry 83). -/
def State.lnaSum (s : State) (p g : Nat) : Rat := ((s.cal.inForce.getD (8 + p) []).take g).foldl (· + ·) 0

/-- The inverse digital gain G(p_old, g_old) / G(p_new, g_new), in 2^-24, to the nearest (R92, R114). -/
def State.invGain (s : State) (pOld gOld pNew gNew : Nat) : Nat :=
  let d := s.lnaSum pOld gOld - s.lnaSum pNew gNew
  satTo 4294967295 (roundAway (expRat (d * ln10 / 20480) * 16777216)).toNat

/-- The gain step in force on a port. -/
def State.gnow (s : State) (p : Nat) : Nat := s.fget (Reg.FE_STAT_GNOW p)

/-- The pair of steps between which a port's last scheduled step lay (R146). -/
def State.stepSeen (s : State) (p : Nat) (k : Option Nat) : State :=
  { s with cal := { s.cal with stepPair := modifyAt s.cal.stepPair p (fun _ => k) } }

/-- The pair of steps that a change of gain between adjacent steps lies between (R146). -/
def stepPairOf (old g : Nat) : Option Nat := if old + 1 = g then some old else if g + 1 = old then some g else none

/-- A port's gain becomes `g` at the present stu: a GAIN marker goes to every stream of its converter (R91, R94). -/
def State.stepGain (s : State) (p g flags : Nat) : State :=
  let old := s.gnow p
  let s1 := s.rawTrack s.now (fun x => x.fset (Reg.FE_STAT_GNOW p) g)
  -- an emergency step observes no ratio and takes none from the step before it (R146)
  let s2 := if flags = 0 then s1.stepSeen p (stepPairOf old g) else s1
  s2.convMark (s.crossed p) { stu := s.now, kind := 1, flags := flags, old := old, new := g, param := s.invGain p old p g }

/-- Nothing is announced: GNEXT equals GNOW (R100). -/
def State.noStep (s : State) (p : Nat) : State := (s.fset (Reg.FE_STAT_GNEXT p) (s.gnow p)).fsetB (Reg.FE_STAT_ANN p) false

/-- A target is announced for the next boundary (R91); one equal to the gain in force announces nothing. -/
def State.announce (s : State) (p g : Nat) : State :=
  if g = s.gnow p then s.noStep p else (s.fset (Reg.FE_STAT_GNEXT p) g).fsetB (Reg.FE_STAT_ANN p) true

/-! ## The settings as they act (R100) -/

/-- GMAX. -/
def State.gmax (s : State) (p : Nat) : Nat := satTo 6 (s.fget (Reg.FE_GAIN_GMAX p))

/-- GMIN, not above GMAX. -/
def State.gmin (s : State) (p : Nat) : Nat := satTo (s.gmax p) (s.fget (Reg.FE_GAIN_GMIN p))

/-- GSET. -/
def State.gset (s : State) (p : Nat) : Nat := satTo 6 (s.fget (Reg.FE_GAIN_GSET p))

/-- DN_PEAK. -/
def State.dnPeak (s : State) (p : Nat) : Nat := zeroAs1 (s.fget (Reg.FE_GLOOP_DN_PEAK p))

/-- G5 is decided for the next tick or in force (R91). -/
def State.g5 (s : State) : Bool := s.fget Reg.LDG_STAT_NEXT == 5 || s.fget Reg.TOP_DOMAIN_GRADE == 5

/-- The power-up sweep holds the gain: the loop announces nothing (R151). -/
def State.sweeping (s : State) : Bool :=
  s.flag Reg.CAL_STAT_PWRUP && decide (s.time.tick ≤ s.boot.firstTick + 225)

/-! ## The cut-off (R85, R90, R91) -/

/-- One port's bias current is judged (R85). -/
def State.judgeBias (s : State) (p ua : Nat) : State :=
  let s1 := s.fset (Reg.FE_BSTAT_IMA p) (satTo 1023 (ua / 1000))
  if 4000 * zeroAs1 (s.fget (Reg.FE_BIAS_SHORT p)) < ua then s1.portFeMod p (fun x => { x with shortDue := true, openRun := 0 })
  else if !(s.portFe p).biasHigh then s1
  else if ua < 1000 * s.fget (Reg.FE_BIAS_OPEN p) then
    let n := (s.portFe p).openRun + 1
    let s2 := s1.portFeMod p (fun x => { x with openRun := n })
    if n = 30 then (s2.fset (Reg.FE_BSTAT_STATE p) 3).evt (Reg.FE_EVT_OPEN p) else s2
  else
    let s2 := s1.portFeMod p (fun x => { x with openRun := 0 })
    if s.fget (Reg.FE_BSTAT_STATE p) = 3 then s2.fset (Reg.FE_BSTAT_STATE p) 1 else s2

/-- The loop's target for a window of a port in AUTO, in the order of R90. -/
def State.autoTarget (s : State) (p peak clips quiet : Nat) : Nat :=
  let g := s.gnow p
  if (1 ≤ clips ∨ s.dnPeak p ≤ peak) ∧ 0 < g then g - 1
  else if 10 * zeroAs1 (s.fget (Reg.FE_GLOOP_UP_T10 p)) ≤ quiet ∧ g < s.gmax p then g + 1
  else if g < s.gmin p then g + 1
  else g

/-- One wideband port's window is judged at the cut-off (R90, R91, R93). A MANUAL write staged before an emergency step and not yet announced is announced here while EMHELD
stays 1 (DESIGN CHOICE: R93 and R96 leave open which prevails; log entry 84). -/
def State.judgeGain (s : State) (p : Nat) (w : Option (Nat × Nat)) : State :=
  let c := s.crossed p
  let s0 := match w with
    | some (pk, cl) => (s.fset (Reg.FE_PEAK_PEAK c) (satTo 4095 pk)).fset (Reg.FE_PEAK_CLIPS c) (satTo 1048575 cl)
    | none => s.rsetN (Reg.FE_PEAK c) 0
  let q := match w with
    | some (pk, _) => if pk < s.fget (Reg.FE_GLOOP_UP_PEAK p) then (s.portFe p).quiet + 1 else 0
    | none => (s.portFe p).quiet
  let s1 := (s0.convMod c (fun x => { x with clips := 0 })).portFeMod p (fun x => { x with quiet := if s.g5 then x.quiet else q })
  let mode := s.fget (Reg.FE_GAIN_GMODE p)
  -- a MANUAL request waits only for a grade that powers the converter
  if s1.sweeping || (s1.g5 && (mode != 2 || s.fget Reg.LDG_STAT_NEXT == 5)) then s1.noStep p
  else
    if mode = 2 then
      if (s.portFe p).manual then (s1.announce p (s.gset p)).portFeMod p (fun x => { x with manual := false }) else s1.noStep p
    else if mode = 0 then
      match w with
      | none => s1.noStep p
      | some (pk, cl) => s1.announce p (s1.autoTarget p pk cl q)
    else s1.noStep p

/-- The front end at a plan cut-off. -/
def State.feCutoff (s : State) (o : CutObs) : State :=
  let s1 := (List.range 3).foldl (fun (x : State) p => x.judgeBias p (o.ima.getD p 0)) s
  let s2 := (List.range 2).foldl (fun (x : State) p => x.judgeGain p (o.win.getD (x.crossed p) none)) s1
  let lf := s2.conv 2
  (((s2.rsetN (Reg.FE_PEAK 2) (satTo 65535 o.lfPeak * 65536 + satTo 65535 lf.clips))).convMod 2 (fun x => { x with clips := 0 }))

/-! ## The boundary -/

/-- A bias output changes level (R86): an ANTENNA marker in every stream of the port's converter. -/
def State.biasTo (s : State) (p : Nat) (high : Bool) (st : Nat) : State :=
  let s1 := s.fset (Reg.FE_BSTAT_STATE p) st
  if (s.portFe p).biasHigh = high then s1 else
  (s1.portFeMod p (fun x => { x with biasHigh := high, openRun := 0 })).convMark (s.crossed p)
    { stu := s.now, kind := 4, param := b2n high }

/-- A short judged at the cut-off shuts the bias down at the boundary (R85); one of a bias that is low already shuts nothing down, so no retry follows
it. -/
def State.biasShort (s : State) (p : Nat) : State :=
  if (s.portFe p).shortDue then
    let was := (s.portFe p).biasHigh
    ((s.biasTo p false 2).evt (Reg.FE_EVT_SHORT p)).portFeMod p (fun x => { x with
      shortDue := false, shutAt := if was then some s.now else x.shutAt })
  else s

/-- An owner's EN takes effect at its boundary (R86): after a short, EN = 1 is held off until EN = 0 only where RETRY = 0. A short judged for the same
boundary comes first (R85): EVT.SHORT is set, EN = 1 does not drive the output high there, and EN = 0 leaves it off with no retry (DEDUCED, log entry 83). -/
def State.biasEn (s : State) (p : Nat) (en : Bool) : State :=
  if (s.portFe p).shortDue then
    let y := s.biasShort p
    if en then y else (y.biasTo p false 0).portFeMod p (fun x => { x with shutAt := none })
  else if en then
    if (s.fget (Reg.FE_BSTAT_STATE p) = 2 ∧ s.fget (Reg.FE_BIAS_RETRY p) = 0) ∨ (s.portFe p).biasHigh then s
    else (s.biasTo p true 1).portFeMod p (fun x => { x with shutAt := none })
  else (s.biasTo p false 0).portFeMod p (fun x => { x with shutAt := none })

/-- The boundary at which bias is retried, if one is due (R86): always a boundary that is still to come or has just come. -/
def State.retryAt (s : State) (p : Nat) : Option Nat :=
  let r := s.fget (Reg.FE_BIAS_RETRY p)
  match (s.portFe p).shutAt with
  | some t => if r = 0 then none else some (roundUp (Nat.max (t + r * secStu) s.now) tickStu)
  | none => none

/-- BIAS_RETRY (R86): RETRY seconds after a shutdown. -/
def execBiasRetry (p : Fin 3) (s : State) : Host.Outcome State Fault Refusal :=
  .next (
    match s.retryAt p with
    | none => s
    | some b =>
      let s1 := s.at b
      ((s1.biasTo p true 1).evt (Reg.FE_EVT_RETRY p)).portFeMod p (fun x => { x with shutAt := none }))

/-- The gain step of a port from this boundary on: the one announced for it, or the one in force (R91). -/
def State.stepTarget (s : State) (p : Nat) : Nat := if s.flag (Reg.FE_STAT_ANN p) then s.fget (Reg.FE_STAT_GNEXT p) else s.gnow p

/-- A port's announced step has been made: STEP is set and nothing is announced any more (R91, R100). -/
def State.stepDone (s : State) (p : Nat) : State :=
  (if s.flag (Reg.FE_STAT_ANN p) then s.evt (Reg.FE_EVT_STEP p) else s).noStep p

/-- ROUTE takes effect (R83, R99): a ROUTE marker and one GAIN marker in every stream of WA and of WB; the GAIN marker carries the step announced for the
boundary too. -/
def State.routeTo (s : State) (r : Nat) : State :=
  if s.fe.route = r then s else
  let s1 := s.rawTrack s.now (fun x =>
    (List.range 2).foldl (fun (y : State) p => y.fset (Reg.FE_STAT_GNOW p) (s.stepTarget p)) { x with fe := { x.fe with route := r } })
  let s2 := (List.range 2).foldl (fun (x : State) p => (x.stepDone p).stepSeen p (stepPairOf (s.gnow p) (s.stepTarget p))) s1
  (List.range 2).foldl (fun (x : State) c =>
    let pOld := s.crossed c
    let pNew := s1.crossed c
    let gOld := s.gnow pOld
    let gNew := s.stepTarget pNew
    (x.convMark c { stu := s.now, kind := 3, new := gNew, param := r }).convMark c
      { stu := s.now, kind := 1, old := gOld, new := gNew, param := s.invGain pOld gOld pNew gNew }) s2

/-- The sections' edges in Hz. -/
def sections : List (Nat × Nat) :=
  [(30000000, 88000000), (87000000, 110000000), (110000000, 250000000), (250000000, 470000000), (470000000, 1000000000),
   (1000000000, 2700000000)]

/-- The span of a source at the converter input, in Hz (R87). -/
def srcBand (c : ChainCfg) : Rat × Rat :=
  if c.kind = 0 then
    let f : Rat := ((c.index * 6000000 : Nat) : Rat)
    (f - 3300000, f + 3300000)
  else
    let f : Rat := absQ (((sgn 32 c.tapFtw : Int) : Rat) * 6144000000 / 4294967296)
    let h : Rat := 6144000000 / (((2 * Nat.max 1 c.tapDec : Nat) : Nat) : Rat)
    (f - h, f + h)

/-- The sections AUTO enables for a converter (R87): all six with no context open on it. -/
def State.autoMask (s : State) (c : Nat) : Nat :=
  let cfgs := ((s.openCtxs.filter (fun n => s.convOf n == c)).map (fun n => (s.ctx n).chain.cfg)).filter (fun k => k.kind < 2)
  if cfgs.isEmpty then 63 else
  sumN ((List.range 6).map (fun i =>
    let (lo, hi) := sections.getD i (0, 0)
    if cfgs.any (fun k => decide ((srcBand k).1 < (hi : Rat)) && decide ((lo : Rat) < (srcBand k).2)) then 2 ^ i else 0))

/-- The preselector at the boundary (R88): a PRESEL marker where the mask in force changes. -/
def State.preselAt (s : State) (p : Nat) : State :=
  let m := if s.flag (Reg.FE_CTRL_PSMODE p) then s.fget (Reg.FE_CTRL_PSMASK p) else s.autoMask (s.crossed p)
  if m = s.fget (Reg.FE_STAT_PSNOW p) then s else
  ((s.fset (Reg.FE_STAT_PSNOW p) m).evt (Reg.FE_EVT_PRESEL p)).convMark (s.crossed p) { stu := s.now, kind := 5, param := m }

/-- An announced step is made at the boundary (R91). -/
def State.stepAt (s : State) (p : Nat) : State :=
  let s0 := s.fsetB (Reg.FE_STAT_EMERG p) false
  if s.flag (Reg.FE_STAT_ANN p) then (s0.stepGain p (s.fget (Reg.FE_STAT_GNEXT p)) 0).stepDone p else s0.stepDone p

/-- The wideband converters' power follows the grade at the boundary: off in G5, void for 64 ticks after power-up (R98, R286). An emergency step still to be
marked is dropped with the power: no marker, no EMSTU, no change of gain (DESIGN CHOICE: the spec does not say what becomes of it; log entry 83). -/
def State.convPower (s : State) (grade : Nat) : State :=
  s.rawTrack s.now fun s0 => (List.range 2).foldl (fun (x : State) c =>
    let k := x.conv c
    if grade = 5 ∧ k.powered then
      let was := x.convVoid c
      let y := x.convMod c (fun k => { k with powered := false, voidUntil := none, emMarks := [] })
      if was then y else y.convVoidBegin c
    else if grade ≠ 5 ∧ !k.powered then
      x.convMod c (fun k => { k with powered := true, voidUntil := some (x.now + 64 * tickStu) })
    else x) s0

/-! ## The emergency step (R94 to R96) -/

/-- EM_N and the span of a converter's detector (R94). -/
def State.emN (s : State) (c : Nat) : Nat := zeroAs1 (s.fget (Reg.FE_CLIPCFG_EM_N c))

/-- The detector's span in stu. -/
def State.emSpan (s : State) (c : Nat) : Nat := 2 ^ clampN 6 12 (s.fget (Reg.FE_CLIPCFG_EM_K c))

/-- The first clip that completes EM_N clips within the span, of clips in rising order (R94). -/
def emDetect (n span : Nat) (clips : List Nat) : Option Nat :=
  clips.find? (fun d => decide (n ≤ (clips.filter (fun c => decide (c ≤ d) && decide (d < c + span))).length))

/-- No step can be made at marker stu `t` of this tick: the gain in force there, once the emergency steps still to be made by then (`marks`) are made, is
0 (R95). A marker at or after the next boundary steps from the gain in force there, whatever the boundary brings (an announced step, a change of ROUTE, a
step of the sweep), and is judged at the marker. -/
def State.atFloor (s : State) (p t : Nat) (marks : List Nat) : Bool :=
  decide (t < (s.time.tick + 1) * tickStu) && decide (s.gnow p ≤ (marks.filter (fun m => decide (m < t))).length)

/-- EMERGENCY_TRIP (R94, R95): the stus of a wideband converter's recent clips; those at or before the last trip count no more, and
void samples never do. -/
def execEmergencyTrip (c : Fin 2) (clips : List Nat) (s : State) : Host.Outcome State Fault Refusal :=
  .next (
    if s.convVoid c then s else
    let k := s.conv c
    let live := clips.filter (fun t => match k.lastTrip with
      | none => true
      | some l => decide (l < t))
    match emDetect (s.emN c) (s.emSpan c) live with
    | none => s.convMod c (fun k => { k with clips := k.clips + live.length })
    | some d =>
      let s1 := (s.at d).convMod c (fun k => { k with lastTrip := some d, clips := k.clips + live.length })
      let p := s1.crossed c
      let tk := d / tickStu
      let again := decide (k.emTick = some tk)
      let floor := s1.atFloor p (d + 192) k.emMarks
      let s2 := if again then s1.evt (Reg.FE_EVT_EM_AGAIN c) else s1
      let s3 := if floor then s2.evt (Reg.FE_EVT_MIN_CLIP c) else s2
      s3.convMod c (fun k => { k with emTick := some tk, emMarks := if again || floor then k.emMarks else k.emMarks ++ [d + 192] }))

/-- EMERGENCY_STEP (R94, R95): the first sample at the lower gain, 192 stu after the detection; a step whose marker meets g = 0 after a boundary changes no
gain and sets MIN_CLIP there. Where detection + 192 lies in a STEP skip or off the grid of an unlocked SCS, EMSTU holds detection + 192 and the marker the stu reached
(DESIGN CHOICE: the rules do not say which is recorded; log entry 84). -/
def execEmergencyStep (c : Fin 2) (s : State) : Host.Outcome State Fault Refusal :=
  .next (
    match (s.conv c).emMarks with
    | [] => s
    | m :: ms =>
      let s1 := (s.at m).convMod c (fun k => { k with emMarks := ms, clips := 0 })
      let p := s1.crossed c
      let g := s1.gnow p
      if g = 0 then s1.evt (Reg.FE_EVT_MIN_CLIP c) else
      let s2 := s1.stepGain p (g - 1) 1
      let s3 := (((s2.rset64 (Reg.FE_EMSTU_LO p) m).fsetB (Reg.FE_STAT_EMERG p) true).evt (Reg.FE_EVT_EMERG p)).portFeMod p
        (fun x => { x with quiet := 0 })
      let s4 := if s.fget (Reg.FE_GAIN_GMODE p) = 0 then s3 else s3.fsetB (Reg.FE_STAT_EMHELD p) true
      let s5 := { s4 with cal := { s4.cal with holdEm := modifyAt s4.cal.holdEm p (fun _ => true) } }
      if s5.flag (Reg.FE_STAT_ANN p) then s5.announce p (s5.fget (Reg.FE_STAT_GNEXT p) - 1) else s5.noStep p)

/-- LF_CLIP (R98): an LF clip is counted and shown, never stepped. -/
def execLfClip (t : Nat) (s : State) : Host.Outcome State Fault Refusal :=
  .next (
    let s1 := s.at t
    if s1.convVoid 2 then s1 else (s1.convMod 2 (fun k => { k with clips := k.clips + 1 })).evt (Reg.FE_EVT_MIN_CLIP 2))

/-! ## Writes -/

/-- FE_x_GAIN by the owner (R93, R96): staged for the next cut-off in MANUAL; a hold after an emergency step ends. -/
def State.wrFeGain (s : State) (p : Nat) (v : Word) : State :=
  ((s.wr (Reg.FE_GAIN p) v).fsetB (Reg.FE_STAT_EMHELD p) false).portFeMod p (fun x => { x with manual := true })

/-- FE_x_CTRL: ROUTE is a request (R83); the preselector settings act from the next boundary (R88). -/
def State.wrFeCtrl (s : State) (p : Nat) (v : Word) : State :=
  let s1 := s.wr (Reg.FE_CTRL p) v
  if p = 0 then s1.request 0 (.reg (Reg.FE_CTRL 0) v) else s1

/-- FE_x_BIAS: EN is a request (R86). -/
def State.wrFeBias (s : State) (p : Nat) (v : Word) : State :=
  (s.wr (Reg.FE_BIAS p) v).request 0 (.reg (Reg.FE_BIAS p) v)

end Sys2Proof.Machine
end

