-- ==== Sys2Proof/Machine/Sha.lean ====
section
/-!
DEFINITION. SHA-256 (FIPS 180-4, which the spec names and does not restate; log entry 12).
-/

namespace Sys2Proof.Machine

/-- The round constants. -/
def shaK : List Nat :=
  [0x428A2F98, 0x71374491, 0xB5C0FBCF, 0xE9B5DBA5, 0x3956C25B, 0x59F111F1, 0x923F82A4, 0xAB1C5ED5,
   0xD807AA98, 0x12835B01, 0x243185BE, 0x550C7DC3, 0x72BE5D74, 0x80DEB1FE, 0x9BDC06A7, 0xC19BF174,
   0xE49B69C1, 0xEFBE4786, 0x0FC19DC6, 0x240CA1CC, 0x2DE92C6F, 0x4A7484AA, 0x5CB0A9DC, 0x76F988DA,
   0x983E5152, 0xA831C66D, 0xB00327C8, 0xBF597FC7, 0xC6E00BF3, 0xD5A79147, 0x06CA6351, 0x14292967,
   0x27B70A85, 0x2E1B2138, 0x4D2C6DFC, 0x53380D13, 0x650A7354, 0x766A0ABB, 0x81C2C92E, 0x92722C85,
   0xA2BFE8A1, 0xA81A664B, 0xC24B8B70, 0xC76C51A3, 0xD192E819, 0xD6990624, 0xF40E3585, 0x106AA070,
   0x19A4C116, 0x1E376C08, 0x2748774C, 0x34B0BCB5, 0x391C0CB3, 0x4ED8AA4A, 0x5B9CCA4F, 0x682E6FF3,
   0x748F82EE, 0x78A5636F, 0x84C87814, 0x8CC70208, 0x90BEFFFA, 0xA4506CEB, 0xBEF9A3F7, 0xC67178F2]

/-- The initial hash value. -/
def shaH0 : List Word :=
  [0x6A09E667, 0xBB67AE85, 0x3C6EF372, 0xA54FF53A, 0x510E527F, 0x9B05688C, 0x1F83D9AB, 0x5BE0CD19]

/-- The message as whole 64-byte blocks: 0x80, zeros and the bit length, big-endian. -/
def shaPad (m : List Byte) : List Byte :=
  let z := (64 - (m.length + 9) % 64) % 64
  m ++ [0x80] ++ List.replicate z 0 ++ beBytes (8 * m.length) 8

/-- The next word of the message schedule from the sixteen before it, newest first. -/
def shaNext (w : List Word) : Word :=
  let a := w.getD 1 0
  let b := w.getD 14 0
  let s1 := (a.rotateRight 17) ^^^ (a.rotateRight 19) ^^^ (a >>> 10)
  let s0 := (b.rotateRight 7) ^^^ (b.rotateRight 18) ^^^ (b >>> 3)
  s1 + w.getD 6 0 + s0 + w.getD 15 0

/-- The schedule extended by `n` words, newest first. -/
def shaExpand : Nat → List Word → List Word
  | 0, w => w
  | n + 1, w => shaExpand n (shaNext w :: w)

/-- One round on the eight working variables. -/
def shaRound (h : List Word) (kw : Nat × Word) : List Word :=
  let a := h.getD 0 0
  let b := h.getD 1 0
  let c := h.getD 2 0
  let e := h.getD 4 0
  let s1 := (e.rotateRight 6) ^^^ (e.rotateRight 11) ^^^ (e.rotateRight 25)
  let ch := (e &&& h.getD 5 0) ^^^ (~~~e &&& h.getD 6 0)
  let t1 := h.getD 7 0 + s1 + ch + BitVec.ofNat 32 kw.1 + kw.2
  let s0 := (a.rotateRight 2) ^^^ (a.rotateRight 13) ^^^ (a.rotateRight 22)
  let mj := (a &&& b) ^^^ (a &&& c) ^^^ (b &&& c)
  [t1 + s0 + mj, a, b, c, h.getD 3 0 + t1, e, h.getD 5 0, h.getD 6 0]

/-- The hash value after one block. -/
def shaBlock (h : List Word) (blk : List Byte) : List Word :=
  let w := (List.range 16).map (fun i => BitVec.ofNat 32 (ofBe (slice blk (4 * i) 4)))
  let sched := (shaExpand 48 w.reverse).reverse
  let r := (shaK.zip sched).foldl shaRound h
  (h.zip r).map (fun p => p.1 + p.2)

/-- SHA-256, 32 bytes. -/
def sha256 (m : List Byte) : List Byte :=
  let p := shaPad m
  let h := (List.range (p.length / 64)).foldl (fun h i => shaBlock h (slice p (64 * i) 64)) shaH0
  (h.map (fun w => beBytes w.toNat 4)).flatten

/-- One bit of the reflected CRC-32. -/
def crcBit (c : Nat) : Nat := if c % 2 = 1 then (c / 2) ^^^ 0xEDB88320 else c / 2

/-- CRC-32 of IEEE 802.3, which R367 names. -/
def crc32 (m : List Byte) : Nat :=
  (m.foldl (fun c b => crcBit (crcBit (crcBit (crcBit (crcBit (crcBit (crcBit (crcBit (c ^^^ b.toNat))))))))) 0xFFFFFFFF) ^^^ 0xFFFFFFFF

end Sys2Proof.Machine
end

