-- ==== Sys2Proof/Machine/Medium.lean ====
section
/-!
DEFINITION. The pages of the flash medium: codewords and their reads (R362), the hallmark page and the test of an ingot's validity (R367 to R369), and what
mount finds as it reads a block forward (R375).
-/

namespace Sys2Proof.Machine

/-! ## Codewords (R362) -/

/-- Codewords in a page. -/
def Geom.codewords (g : Geom) : Nat := g.page / 2048

/-- Parity bytes of a codeword: an even number of at most 256. -/
def Geom.parity (g : Geom) : Nat :=
  let p := Nat.min 256 (g.spare / Nat.max 1 g.codewords)
  p - p % 2

/-- The spare area of a page: the parity bytes in codeword order, the rest left unprogrammed. -/
def Geom.spareArea (g : Geom) (data : List Byte) : List Byte :=
  let l := (List.range g.codewords).flatMap (fun k => (Config.ldpcParity (slice data (2048 * k) 2048) ++ List.replicate g.parity 0).take g.parity)
  l ++ List.replicate (g.spare - l.length) 255

/-- How a read ended: the highest retry level used (0 none), whether a soft decode was, the most bits a codeword corrected, and whether every codeword
decoded. -/
structure ReadObs where
  retry : Nat := 0
  soft : Bool := false
  corr : Nat := 0
  ok : Bool := true
deriving DecidableEq, Repr

/-- The read of one codeword: the hard decode, the retry levels in turn, then the soft decode, each only where the ones before failed. -/
def readCw (levels : Nat) (o : CwObs) : ReadObs :=
  match (List.range (levels + 1)).find? (fun k => (o.hard.getD k none).isSome) with
  | some k => { retry := k, corr := (o.hard.getD k none).getD 0 }
  | none => { retry := levels, soft := true, corr := o.soft.getD 0, ok := o.soft.isSome }

/-- Two reads together. -/
def ReadObs.join (a b : ReadObs) : ReadObs :=
  { retry := Nat.max a.retry b.retry, soft := a.soft || b.soft, corr := Nat.max a.corr b.corr, ok := a.ok && b.ok }

/-- The reads of a page's codewords; one that the list does not give decodes with no bit corrected. -/
def Geom.pageReads (g : Geom) (l : List CwObs) : List ReadObs := (List.range g.codewords).map (fun k => readCw g.levels (l.getD k {}))

/-- The read of a page as a whole. -/
def pageRead (l : List ReadObs) : ReadObs := l.foldl ReadObs.join {}

/-! ## Hallmark pages (R367 to R369) -/

/-- The data areas of an ingot's data pages: the payload, then zeros. -/
def IngotS.data (pg : Nat) (i : IngotS) : List Byte :=
  i.req.payload ++ List.replicate (i.pages * pg - i.req.payload.length) 0

/-- Bytes 0 to 123 of a hallmark page. -/
def IngotS.marked (pg : Nat) (i : IngotS) : List Byte :=
  leBytes 0x4B4D4C48 4 ++ leBytes 1 2 ++ leBytes i.req.zone 1 ++ leBytes i.req.type 1 ++ leBytes i.seq 8 ++ leBytes i.origin 8 ++ leBytes i.pages 2 ++
  leBytes i.req.tenant 1 ++ leBytes i.req.ctx 1 ++ leBytes i.req.payload.length 4 ++ sha256 (i.data pg) ++ leBytes i.retacc 8 ++
  leBytes (code 16 i.tprog) 2 ++ leBytes (b2n i.xtemp + 2 * b2n i.reloc) 1 ++ [0] ++ (i.req.fields ++ List.replicate 48 0).take 48

/-- An ingot's hallmark page, its CRC-32 at bytes 124 to 127. -/
def IngotS.hallmark (pg : Nat) (i : IngotS) : List Byte :=
  i.marked pg ++ leBytes (crc32 (i.marked pg)) 4 ++ List.replicate (pg - 128) 0

/-- A page is a hallmark (R369); `none` stands for a page with a codeword that does not decode. -/
def hallmarkOf : Option (List Byte) → Option (List Byte)
  | some h => if leAt h 0 4 = 0x4B4D4C48 ∧ leAt h 4 2 = 1 ∧ leAt h 124 4 = crc32 (h.take 124) then some h else none
  | none => none

/-- The argument of a CBOR item's head, and what follows it. -/
def cborArg : List Byte → Nat × List Byte
  | [] => (0, [])
  | b :: l =>
    let a := b.toNat % 32
    let n := if a < 24 then 0 else 2 ^ (a - 24)
    (if a < 24 then a else ofBe (l.take n), l.drop n)

/-- The items of a list that start with heads only, skipped. -/
def cborSkip : Nat → List Byte → List Byte
  | 0, l => l
  | n + 1, l => cborSkip n (cborArg l).2

/-- Key 5 of a witness record (R334 to R336): past the fixed 17 bytes, the heads of the payload and its map and keys 1 and 2, the 32 bytes of key 3, and the
two numbers of key 4. -/
def witRef (bytes : List Byte) : Nat :=
  let l := (cborSkip 8 (bytes.drop 17)).drop 32
  (cborArg (cborSkip 5 l)).1

/-- The ingot that a hallmark and the data pages before it make (R369), where it is valid: `ps` are the pages since the block's previous hallmark, `page` the
hallmark's own. -/
def ingotOf (block page : Nat) (ps : List (Option (List Byte))) (h : List Byte) : Option IngotS :=
  let n := leAt h 24 2
  let l := ps.drop (ps.length - n)
  let data := (l.map (·.getD [])).flatten
  if 1 ≤ n ∧ n ≤ 255 ∧ n ≤ ps.length ∧ l.all Option.isSome ∧ sha256 data = slice h 32 32 then
    let payload := data.take (leAt h 28 4)
    some { seq := leAt h 8 8, origin := leAt h 16 8, block := block, page := page - n, pages := n
           retacc := leAt h 64 8, tprog := sgn 16 (leAt h 72 2), xtemp := bitOf (leAt h 74 1) 0, reloc := bitOf (leAt h 74 1) 1
           req := { zone := leAt h 6 1, type := leAt h 7 1, tenant := leAt h 26 1, ctx := leAt h 27 1, fields := slice h 76 48, payload := payload
                    refStu := if leAt h 7 1 = 0x10 then witRef payload else 0 } }
  else none

/-- The valid ingots among the pages read forward in a block from page `p`, and whether an invalid one is among them (R375 step 4): `ps` are the pages since
the last hallmark. -/
def readForward (block : Nat) : Nat → List (Option (List Byte)) → List (Option (List Byte)) → List IngotS × Bool
  | _, ps, [] => ([], !ps.isEmpty)
  | p, ps, x :: l =>
    match hallmarkOf x with
    | none => readForward block (p + 1) (ps ++ [x]) l
    | some h =>
      let r := readForward block (p + 1) [] l
      match ingotOf block p ps h with
      | some i => (i :: r.1, r.2)
      | none => (r.1, true)

end Sys2Proof.Machine
end

