-- ==== Sys2Proof/Machine/Fst.lean ====
section
/-!
DEFINITION. The flash store (chapter 14): ingots and hallmarks, placement, commit and durability, mount and format, upkeep and the
retention clock.
-/

namespace Sys2Proof.Machine

/-- The state with the flash store changed. -/
def State.fstMod (s : State) (f : FstS → FstS) : State := { s with fst := f s.fst }

/-- NF_WP_N as the interface island drives it: high while ICS is locked and the store is not read-only (R387); a reset of the island leaves it low. -/
def State.nfWp (s : State) : State :=
  s.fstMod (fun x => { x with wpHigh := s.flag Reg.TOP_DOMAIN_ICS_LOCK && !s.flag Reg.FST_STAT_READONLY })

/-- The state with one block changed. -/
def State.blkMod (s : State) (b : Nat) (f : BlockS → BlockS) : State := s.fstMod (fun x => { x with blocks := modifyAt x.blocks b f })

/-- A block. -/
def FstS.blk (x : FstS) (b : Nat) : BlockS := x.blocks.getD b { target := 0, num := 0, st := 6 }

/-- The store is mounted and may write. -/
def State.mounted (s : State) : Bool := s.fget Reg.FST_STAT_STATE == 3

/-- The controller may program: mounted, not read-only, ICS locked (R376, R383, R79). -/
def State.fstRuns (s : State) : Bool :=
  s.mounted && !s.flag Reg.FST_STAT_READONLY && s.flag Reg.TOP_DOMAIN_ICS_LOCK

/-- An ingot may be started: during a compute restart none is (R388). -/
def State.fstCanWrite (s : State) : Bool := s.fstRuns && s.flt.restart.isNone

/-! ## Temperature and the retention clock (R380, R385) -/

/-- T_prog in 1/16 degree (R380). -/
def State.tprog (s : State) : Int := s.tHot + 16 * sgn 8 (s.fget Reg.FST_RET_TOFS)

/-- T_prog lies outside TLO to THI. -/
def State.outOfTemp (s : State) : Bool :=
  decide (s.tprog < 16 * sgn 8 (s.fget Reg.FST_PLACE_TLO)) || decide (16 * sgn 8 (s.fget Reg.FST_PLACE_THI) < s.tprog)

/-- T_s: T_prog in kelvin (R385). -/
def State.kelvin (s : State) : Rat := (s.tprog : Rat) / 16 + 27315 / 100

/-- T_s as a clock stamp holds it: whole 1/16 kelvin (R374). -/
def State.tsKelvin (s : State) : Nat := (s.kelvin * 16).floor.toNat

/-- AF(T) of a temperature in kelvin (R385), evaluated in fixed point. -/
def retAf (ea : Nat) (t : Rat) : Rat :=
  expRat (((zeroAs1 ea : Nat) : Rat) / 100 / (8617333 / 100000000000) * (100 / 31315 - 1 / t))

/-- RETENTION_ACCUMULATE (R385): at each whole-second boundary FST_RETACC grows by AF(T_s). -/
def execRetentionAccumulate (s : State) : Host.Outcome State Fault Refusal :=
  .next (
    if s.time.tick % 3000 = 0 ∧ s.fst.retSec ≠ s.time.tick then
      let d := (retAf (s.fget Reg.FST_RET_EA) s.kelvin * 1024).floor.toNat
      (s.rset64 Reg.FST_RETACC_LO (s.rget64 Reg.FST_RETACC_LO + d)).fstMod (fun x => { x with retSec := s.time.tick })
    else s)

/-! ## Geometry and pools -/

/-- Pages of a block in its mode: floor(P / b) in pseudo-SLC (R361). -/
def State.blkPages (s : State) (native : Bool) : Nat :=
  match s.fst.geom with
  | none => 0
  | some g => if native || s.flag Reg.FST_STAT_PSLCNAT then g.ppb else g.ppb / Nat.max 1 g.bits

/-- The zone of a block is written in pairs of pages that a later page may disturb: a native one, and a pseudo-SLC one in native mode (R361, R370). -/
def State.pairs (s : State) (native : Bool) : Bool := (native || s.flag Reg.FST_STAT_PSLCNAT) && s.fget Reg.FST_NATIVE_PAIRDIST != 0

/-- The data pages a payload needs. -/
def State.dataPages (s : State) (r : IngotReq) : Nat :=
  match s.fst.geom with
  | none => 1
  | some g => Nat.max 1 (ceilDiv r.payload.length (Nat.max 1 g.page))

/-- The zone is written in native mode: bulk, or any while PREFIX is 0 (R361, R364). -/
def nativeZone (z : Nat) : Bool := z == 2

/-- An ingot's class: cold but for roots, maps, stamps, checkpoints and telemetry (R364). -/
def coldType (t : Nat) : Bool := !(t == 0x01 || t == 0x02 || t == 0x03 || t == 0x11 || t == 0x13 || t == 0x7F)

/-- The slot of a calibration set or the copy of an image (R364, R368): each has blocks of its own. -/
def IngotReq.part (r : IngotReq) : Nat := if r.zone = 3 ∨ r.zone = 4 then leAt r.fields 0 1 else 0

/-- The pages a block must have left for an ingot: its data pages, its hallmark, and behind them room for the pad that makes it durable (R370; log entry
83). -/
def State.needFor (s : State) (r : IngotReq) : Nat :=
  s.dataPages r + 1 + (if s.pairs (nativeZone r.zone) then Nat.max 2 (s.fget Reg.FST_NATIVE_PAIRDIST) else 0)

/-- The most data pages an ingot of a pool may have: 255, and what one of its blocks holds (R367). -/
def State.dataMost (s : State) (native : Bool) : Nat :=
  Nat.min 255 (s.blkPages native - 1 - (if s.pairs native then Nat.max 2 (s.fget Reg.FST_NATIVE_PAIRDIST) else 0))

/-- The list of a pool and class in the order of R373. -/
def listIdx (native cold : Bool) : Nat := 2 * b2n native + b2n cold

/-- The endurance of a pool (R389): the native one also for pSLC zones written in native mode (R361). -/
def State.endur (s : State) (native : Bool) : Nat :=
  if native || s.flag Reg.FST_STAT_PSLCNAT then zeroAs1 (s.fget Reg.FST_ENDUR_NATIVE) else 10 * zeroAs1 (s.fget Reg.FST_ENDUR_PSLC)

/-- Insertion of a block index by a key. -/
def insBy (key : Nat → Nat) (b : Nat) : List Nat → List Nat
  | [] => [b]
  | c :: l => if key b < key c then b :: c :: l else c :: insBy key b l

/-- One next-up list rebuilt (R378): free blocks by erase count, ascending for hot and descending for cold, ties by target then
block. -/
def State.buildList (s : State) (native cold : Bool) : List Nat :=
  let bs := (List.range s.fst.blocks.length).filter (fun b =>
    let k := s.fst.blk b
    decide (k.st < 2) && k.native == native &&
      !(cold && (k.low || decide (15 * s.endur native ≤ 16 * k.erases))))
  let key := fun b => if cold then 1000000000 - (s.fst.blk b).erases else (s.fst.blk b).erases
  (bs.foldl (fun l b => insBy key b l) []).take 64

/-! ## Zones and spares (R364, R366) -/

/-- The blocks that `mib` MiB take. -/
def State.blocksFor (s : State) (native : Bool) (mib : Nat) : Nat :=
  ceilDiv (mib * 1048576) (Nat.max 1 (s.blkPages native * (s.fst.geom.map (·.page)).getD 0))

/-- The size of a zone in blocks, as the last format set it (R364). -/
def State.zoneCap (s : State) (z : Nat) : Nat :=
  if z = 1 then s.blocksFor false (Nat.max 64 (s.fst.zonesFmt.getD 0 0))
  else if z = 2 then s.blocksFor true (s.fst.zonesFmt.getD 1 0)
  else if z = 3 then 4
  else if z = 4 then 2 * s.blocksFor false (s.fst.zonesFmt.getD 3 0)
  else 2

/-- The blocks a zone holds. -/
def FstS.zoneUsed (x : FstS) (z : Nat) : Nat := (x.blocks.filter (fun k => k.zone == z && decide (2 ≤ k.st) && decide (k.st < 5))).length

/-- The blocks of the slot, copy or zone that an ingot goes to: what it holds and the most it may come to, 2 a calibration slot and FST_ZONE[3] an image
copy (R364). -/
def FstS.partUsed (x : FstS) (r : IngotReq) : Nat :=
  (x.blocks.filter (fun k => k.zone == r.zone && k.part == r.part && decide (2 ≤ k.st) && decide (k.st < 5))).length

@[inherit_doc FstS.partUsed]
def State.partCap (s : State) (r : IngotReq) : Nat :=
  if r.zone = 3 ∨ r.zone = 4 then s.zoneCap r.zone / 2 else s.zoneCap r.zone

/-- The spare blocks a pool of `n` keeps: at least 4 or 2 % of it (R364). -/
def sparesOf (n : Nat) : Nat := Nat.max 4 (ceilDiv (2 * n) 100)

/-- The spare blocks that a pool keeps beside `want` blocks for its zones, so that they are 4 or 2 % of the whole. -/
def sparesBeside (want : Nat) : Nat := Nat.max 4 (ceilDiv (2 * want) 98)

/-- The blocks of a pool, those retired or bad from the factory left out. -/
def FstS.usable (x : FstS) (native : Bool) : Nat := (x.blocks.filter (fun k => k.native == native && decide (k.st < 5))).length

/-- The spare blocks a pool still has (R364, R383): what its zones do not claim. -/
def State.spares (s : State) (native : Bool) : Nat :=
  s.fst.usable native - (if native then s.zoneCap 2 else 2 + s.zoneCap 1 + s.zoneCap 3 + s.zoneCap 4)

/-- The flash bytes a tenant holds: its ingots with their hallmark pages (R389, R396). -/
def State.tenantBytes (s : State) (t : Nat) : Nat :=
  sumN ((s.fst.ingots.filter (fun i => i.req.tenant == t)).map (fun i => (i.pages + 1) * (s.fst.geom.map (·.page)).getD 0))

/-! ## What the registers show -/

/-- The sequences of the witness records held (R352). -/
def FstS.heldSeqs (x : FstS) : List Nat := (x.ingots.filter (fun i => i.req.type == 0x10)).map (fun i => leAt i.req.fields 0 8)

/-- WIT_OLDEST is the lowest sequence held (R352). -/
def State.showOldest (s : State) : State :=
  s.rset64 Reg.WIT_OLDEST_LO (s.fst.heldSeqs.foldl Nat.min (s.fst.heldSeqs.headD 0))

/-- FST_TUSE, FST_ZFREE, FST_WEAR and WIT_OLDEST follow the medium (R352, R389). -/
def State.showFst (x : State) : State :=
  let s := x.showOldest
  match s.fst.geom with
  | none => s
  | some g =>
    let s1 := (List.range 4).foldl (fun (x : State) t =>
      x.rsetN (Reg.FST_TUSE t) (ceilDiv (s.tenantBytes t) 65536)) s
    let mib := fun native n => n * s.blkPages native * g.page / 1048576
    let s2 := (List.range 4).foldl (fun (x : State) z =>
      let zone := z + 1
      let free := (s.fst.blocks.filter (fun k => decide (k.st < 2) && k.native == nativeZone zone)).length
      x.rsetN (Reg.FST_ZFREE z) (mib (nativeZone zone) (Nat.min free (s.zoneCap zone - s.fst.zoneUsed zone)))) s1
    let worst := fun native => 100 * maxN ((s.fst.blocks.filter (fun b => b.native == native)).map (·.erases)) / s.endur native
    s2.rsetN Reg.FST_WEAR (satTo 255 (worst true) * 16777216 + satTo 255 (worst false) * 65536)

/-! ## Allocation and writing -/

/-- The open block of an ingot's zone, part and class that has room for it. -/
def State.openBlock (s : State) (r : IngotReq) (cold : Bool) : Option Nat :=
  (List.range s.fst.blocks.length).find? (fun b =>
    let k := s.fst.blk b
    k.st == 2 && k.zone == r.zone && k.part == r.part && k.cold == cold && decide (k.next + s.needFor r ≤ s.blkPages (nativeZone r.zone)))

/-- The blocks of a next-up list that are still free; of the cold list those whose health has become low since are left out (R379). -/
def FstS.nextFree (x : FstS) (native cold : Bool) : List Nat :=
  (x.nextUp.getD (listIdx native cold) []).filter (fun b => decide ((x.blk b).st < 2) && !(cold && (x.blk b).low))

/-- A block is taken for an ingot: the open one of its zone, part and class if it has room, else, while fewer than `cap` are held and an empty block has room,
the next free one of the pool's list (R378). A block without programmed pages counts as scrubbed as its first is taken (DESIGN CHOICE beside R381; log entry 86). -/
def State.takeBlock (s : State) (r : IngotReq) (cold : Bool) (cap : Nat) : State × Option Nat :=
  let native := nativeZone r.zone
  match s.openBlock r cold with
  | some b => (s, some b)
  | none =>
    match (if cap ≤ s.fst.partUsed r ∨ s.blkPages native < s.needFor r then [] else s.fst.nextFree native cold) with
    | [] => (s, none)
    | b :: rest =>
      let s0 := s.oscGo
      let s1 := s0.fstMod (fun x => { x with
        nextUp := modifyAt x.nextUp (listIdx native cold) (fun _ => rest)
        blocks := (List.range x.blocks.length).map (fun i =>
          let k := x.blk i
          if i = b then { k with zone := r.zone, part := r.part, st := 2, cold := cold, next := 0, scrubbed := s0.bkp.sec }
          else if k.st = 2 ∧ k.zone = r.zone ∧ k.part = r.part ∧ k.cold = cold then { k with st := 3 } else k) })
      (s1, some b)

/-- The class an ingot asks for: a block of low health takes hot ingots only (R379), so its class is the type's own (R364). -/
def IngotReq.cold (r : IngotReq) : Bool := coldType r.type

/-- The blocks a zone may come to: its own, and for a map or a relocation the pool's spares as well (R364, R382). -/
def State.capFor (s : State) (r : IngotReq) (origin : Option Nat) : Nat :=
  s.partCap r + (if origin.isSome || r.type == 2 then s.spares (nativeZone r.zone) else 0)

/-- An ingot is programmed in a block and commits at the present stu with a new sequence (R367, R370, R371): durable at once in pseudo-SLC. The origin
of a relocation is given. -/
def State.putAt (s : State) (b : Nat) (r : IngotReq) (origin : Option Nat) : State × Nat :=
  let n := s.dataPages r
  let q := s.fst.lastSeq + 1
  let k := s.fst.blk b
  let i : IngotS := { seq := q, origin := origin.getD q, req := { r with waits := none, forced := false }, block := b, page := k.next, pages := n
                      retacc := s.rget64 Reg.FST_RETACC_LO, tprog := s.tprog, xtemp := s.outOfTemp
                      reloc := origin.isSome, durable := !s.pairs k.native, commit := s.now }
  let s1 := (s.fstMod (fun x => { x with lastSeq := q, ingots := x.ingots ++ [i] })).blkMod b (fun k =>
    { k with next := k.next + n + 1, xtemp := k.xtemp || i.xtemp })
  (s1.showFst, q)

/-- One ingot is written to the open block of its zone and class, or to the next free one (R367, R378). Nothing where no block is free. -/
def State.putIngot (s : State) (r : IngotReq) (origin : Option Nat) : State × Option Nat :=
  match s.takeBlock r r.cold (s.capFor r origin) with
  | (_, none) => (s, none)
  | (s1, some b) => ((s1.putAt b r origin).1, some (s1.fst.lastSeq + 1))

/-- The pages programmed in its block after an ingot. -/
def FstS.after (x : FstS) (i : IngotS) : Nat := (x.blk i.block).next - (i.page + i.pages + 1)

/-- A block is erased: its ingots are gone (R382); a label block stays one (R364). -/
def State.eraseBlock (s : State) (b : Nat) : State :=
  (s.fstMod (fun x => { x with ingots := x.ingots.filter (fun i => i.block != b) })).blkMod b (fun k =>
    { k with st := if k.zone = 0 then 2 else 0, zone := if k.zone = 0 then 0 else 255, part := 0, next := 0, erases := k.erases + 1, xtemp := false, due := false, worn := false, corr := 0, level := 0
             soft := false, drain := 0 })

/-- The ingots of a block, oldest first. -/
def FstS.inBlock (x : FstS) (b : Nat) : List IngotS := x.ingots.filter (fun i => i.block == b)

/-- A pool's spares are at half their minimum or below (R383). -/
def State.poolLow (s : State) (native : Bool) : Bool :=
  let n := (s.fst.blocks.filter (fun k => k.native == native)).length
  n != 0 && !(native && s.zoneCap 2 == 0) && decide (2 * s.spares native ≤ sparesOf n)

/-- SPARELOW follows the pools, with its event where one's spares have come so low (R383, R389). -/
def State.checkSpares (s : State) (native : Bool) : State :=
  let s1 := s.fsetB Reg.FST_STAT_SPARELOW (s.poolLow false || s.poolLow true)
  if s.poolLow native then s1.evt Reg.FST_EVT_SPARELOW else s1

/-- A block that holds no valid ingot any more is retired (R383). -/
def State.retireNow (s : State) (b : Nat) : State :=
  let s2 := ((s.blkMod b (fun k => { k with st := 5, drain := 0 })).evt Reg.FST_EVT_RETIRED).bump Reg.FST_CNT0_RETIRED
  ((s2.fault 0x000A 0xFF 0xFF 0).checkSpares (s.fst.blk b).native).showFst

/-- A block is erased, and retired where its erase count has come to its pool's endurance (R382, R383). -/
def State.freeUp (s : State) (b : Nat) : State :=
  let s1 := s.eraseBlock b
  if s1.endur (s1.fst.blk b).native ≤ (s1.fst.blk b).erases then s1.retireNow b else s1

/-- An ingot takes the place of an older one: of the same origin (R371), or a calibration set or image of the same slot or copy (R157, R364). -/
def IngotS.replaces (j i : IngotS) : Bool :=
  decide (i.seq < j.seq) && (j.origin == i.origin ||
    (j.req.type == i.req.type && j.req.part == i.req.part && (i.req.type == 0x30 || i.req.type == 0x40 || i.req.type == 0x41)))

/-- A superseded ingot is gone once the one that takes its place is durable (R370, R371). -/
def State.dropStale (s : State) : State :=
  s.fstMod (fun x => { x with ingots := x.ingots.filter (fun i => !(x.ingots.any (fun j => j.replaces i && j.durable))) })

/-- The blocks to be emptied whose last ingot has moved durably are erased or retired (R382, R383). -/
def State.settle (s : State) : State :=
  (List.range s.fst.blocks.length).foldl (fun (x : State) b =>
    if !(x.fst.inBlock b).isEmpty then x
    else if (x.fst.blk b).drain = 1 then x.freeUp b
    else if (x.fst.blk b).drain = 2 then x.retireNow b else x) s.dropStale

/-! ## Maps and roots (R372, R373) -/

/-- One block's entry of the map image. -/
def blkBytes (k : BlockS) (stamp cnt : Nat) : List Byte :=
  leBytes k.zone 1 ++ leBytes k.st 1 ++ leBytes (b2n k.native + 2 * b2n k.low + 4 * b2n k.xtemp + 8 * b2n k.due) 1 ++
  leBytes (b2n k.cold) 1 ++ leBytes k.erases 4 ++ leBytes stamp 8 ++ leBytes k.next 2 ++ leBytes cnt 2 ++ leBytes k.corr 2 ++
  [0, 0] ++ leBytes (k.scrubbed % 281474976710656) 8

/-- The retention stamp of a block: FST_RETACC of its oldest valid ingot (R373). -/
def FstS.stampOf (x : FstS) (b : Nat) : Nat := ((x.inBlock b).head?.map (·.retacc)).getD 0

/-- The map image (R373). -/
def State.mapImage (s : State) : List Byte :=
  let x := s.fst
  let nb := x.blocks.length
  let np := (x.blocks.filter (fun k => !k.native)).length
  let word := fun (b : Nat) => leBytes ((x.blk b).target * 1073741824 + (x.blk b).num) 4
  leBytes 0x50414D46 4 ++ leBytes 1 2 ++ [0, 0] ++ leBytes nb 4 ++ leBytes (64 + 32 * nb) 4 ++
  leBytes (s.rget64 Reg.FST_RETACC_LO) 8 ++ leBytes x.lastSeq 8 ++ leBytes np 4 ++ leBytes (nb - np) 4 ++
  leBytes (s.spares false) 4 ++ leBytes (s.spares true) 4 ++ List.replicate 16 0 ++
  ((List.range nb).map (fun b => blkBytes (x.blk b) (x.stampOf b) (x.inBlock b).length)).flatten ++
  (x.nextUp.map (fun l => (l.map word).flatten ++ List.replicate (4 * (64 - l.length)) 255)).flatten

/-- One tenancy entry as its 64 bytes (R396). -/
def TenEntry.bytes (e : TenEntry) : List Byte :=
  leBytes (b2n e.enabled) 1 ++ leBytes e.ports 1 ++ leBytes e.ctxBase 2 ++ leBytes e.ctxCount 2 ++ leBytes e.engShare 1 ++
  leBytes e.nrgShare 1 ++ leBytes e.storeQ 4 ++ leBytes e.flashQ 4 ++ leBytes e.rights 1 ++ List.replicate 7 0 ++
  ((e.kids ++ List.replicate 4 (List.replicate 8 0)).take 4).flatten ++ List.replicate 8 0

/-- The generation of a map's part (R368). -/
def IngotS.gen (i : IngotS) : Nat := leAt i.req.fields 0 4

/-- The ingot in force of a part of the map of a generation (R371, R373). -/
def FstS.mapPart (x : FstS) (g k : Nat) : Option IngotS :=
  (x.ingots.filter (fun i => i.req.type == 2 && i.gen == g && leAt i.req.fields 4 2 == k)).foldl (fun (a : Option IngotS) i => match a with
    | none => some i
    | some j => if j.seq < i.seq then some i else some j) none

/-- The parts of the map of a generation in part order, empty unless every one is a valid ingot (R373). -/
def FstS.mapParts (x : FstS) (g : Nat) : List IngotS :=
  let n := ((x.mapPart g 0).map (fun i => leAt i.req.fields 6 2)).getD 0
  let l := (List.range n).filterMap (x.mapPart g)
  if l.length = n then l else []

/-- The root page's payload (R372): its location words name the parts of the newest map and of the one before. -/
def State.rootImage (s : State) (parts before : List IngotS) : List Byte :=
  let g := s.fst.geomFmt.getD { page := 0, spare := 0, ppb := 0, bpl := 0, luns := 0, bits := 0, targets := 0 }
  let loc := fun (i : IngotS) =>
    let k := s.fst.blk i.block
    leBytes (k.target * 4611686018427387904 + k.num * 4294967296 + i.page * 65536 + i.pages) 8
  let locs := (parts.map loc).flatten
  let prev := (before.map loc).flatten
  leBytes 0x544F4F52 4 ++ leBytes 1 2 ++ leBytes parts.length 2 ++ leBytes (prev.length / 8) 2 ++ List.replicate 6 0 ++
  leBytes g.page 4 ++ leBytes g.spare 2 ++ leBytes g.ppb 2 ++ leBytes g.bpl 4 ++ leBytes g.luns 1 ++ leBytes g.bits 1 ++
  leBytes g.targets 1 ++ leBytes s.fst.prefixFmt 1 ++
  ((List.range 4).map (fun z => leBytes (s.fst.zonesFmt.getD z 0) 4)).flatten ++ List.replicate 48 0 ++
  leBytes (b2n s.fst.anchor.isSome) 1 ++ ((s.fst.anchor.getD []) ++ List.replicate 65 0).take 65 ++
  (match s.fst.anchor with
   | none => List.replicate 32 0
   | some a => sha256 a) ++ List.replicate 62 0 ++
  (s.fst.table.map TenEntry.bytes).flatten.take 256 ++ List.replicate (256 - 64 * s.fst.table.length) 0 ++
  (locs ++ List.replicate 512 0).take 512 ++ (prev ++ List.replicate 512 0).take 512

/-- The parts of a map image, each at most `most` bytes. -/
def splitBytes (most : Nat) : Nat → List Byte → List (List Byte)
  | 0, _ => []
  | n + 1, l => if l.length ≤ most then [l] else l.take most :: splitBytes most n (l.drop most)

/-- The owner anchor and tenancy table in force go into the next root (R398, R399); before the ports are bound, those of the last root stay. -/
def State.rootOwner (s : State) : State :=
  if s.host.bound then s.fstMod (fun x => { x with anchor := s.host.anchor, table := s.host.table }) else s

/-- A label block in use has room for a root, or is erased for it: one that its erase count retires then takes none (R383). -/
def State.labelRoom (s : State) (b : Nat) : State :=
  if (s.fst.blk b).st ≠ 2 ∨ (s.fst.blk b).next + 2 ≤ s.blkPages false then s else s.freeUp b

/-- A root is programmed in a label block (R367, R372): one outside the temperature range carries XTEMP, and so does its block (R380). -/
def State.putRoot (s : State) (b : Nat) : State :=
  let parts := s.fst.mapParts s.fst.mapGen
  let before := s.fst.mapParts (s.fst.mapGen - 1)
  let first := fun (l : List IngotS) => (l.head?.map (·.seq)).getD 0
  let r : IngotReq := { zone := 0, type := 1, fields := leBytes (first parts) 8 ++ leBytes (first before) 8, payload := s.rootImage parts before }
  let q := s.fst.lastSeq + 1
  let i : IngotS := { seq := q, origin := q, req := r, block := b, page := (s.fst.blk b).next, pages := 1
                      retacc := s.rget64 Reg.FST_RETACC_LO, tprog := s.tprog, xtemp := s.outOfTemp, durable := !s.pairs false, commit := s.now }
  (s.fstMod (fun x => { x with lastSeq := q, labelBlk := b, rooted := true, mapSeq := first parts, prevSeq := first before, ingots := x.ingots ++ [i] })).blkMod b
    (fun k => { k with next := k.next + 2, xtemp := k.xtemp || i.xtemp })

/-- A root is written in the label blocks, used alternately (R364, R372): in the other one alone once one is retired or being emptied, and nowhere where
both are. -/
def State.writeRoot (x : State) : State :=
  let s := x.rootOwner
  let b := 1 - x.fst.labelBlk
  let s1 := s.labelRoom b
  if (s1.fst.blk b).st = 2 then s1.putRoot b
  else
    let s2 := s1.labelRoom (1 - b)
    if (s2.fst.blk (1 - b)).st = 2 then s2.putRoot (1 - b) else s2

/-- A pool that has blocks and no spare left makes its zones read-only (R376, R383). -/
def State.noSpares (s : State) : State :=
  if [false, true].any (fun n => decide (0 < s.fst.usable n) && s.spares n == 0 && (!n || decide (0 < s.zoneCap 2))) then
    ((s.fsetB Reg.FST_STAT_READONLY true).fsetB Reg.FST_STAT_SPARELOW true).nfWp
  else s

/-- A map is written, with rebuilt next-up lists, then the root that names it (R372, R373, R378); a pool without spares is read-only from it on (R383). None is without ICS
lock (R79). -/
def State.writeMap (s : State) : State :=
  if s.flag Reg.FST_STAT_READONLY || !s.flag Reg.TOP_DOMAIN_ICS_LOCK then s else
  let lists := [s.buildList false false, s.buildList false true, s.buildList true false, s.buildList true true]
  let s1 := s.fstMod (fun x => { x with
    nextUp := lists
    blocks := (List.range x.blocks.length).map (fun b => let k := x.blk b
      if k.st < 2 then { k with st := b2n (lists.any (·.contains b)) } else k)
    mapGen := x.mapGen + 1 })
  let pg := (s1.fst.geom.map (·.page)).getD 4096
  let parts := splitBytes (Nat.max 1 (s1.dataMost false) * pg) 64 s1.mapImage
  let s2 := (List.range parts.length).foldl (fun (x : State) k =>
    (x.putIngot { zone := 1, type := 2, fields := leBytes s1.fst.mapGen 4 ++ leBytes k 2 ++ leBytes parts.length 2
                  payload := parts.getD k [] } none).1) s1
  s2.writeRoot.noSpares

/-! ## A zone without a free block (R366) -/

/-- What the device relocates before it erases a block of the journal (R366), and the parts of the maps that the root names. -/
def FstS.keeps (x : FstS) (i : IngotS) : Bool :=
  let newest := fun t => !(x.ingots.any (fun j => j.req.type == t && decide (i.seq < j.seq)))
  i.req.type == 0x12 || ((i.req.type == 0x11 || i.req.type == 0x03) && newest i.req.type) ||
    (i.req.type == 2 && decide (x.mapGen ≤ i.gen + 1))

/-- The order of retirement: by witness sequence, then by ingot sequence (R366, R352). -/
def IngotS.older (i j : IngotS) : Bool :=
  let w := fun (k : IngotS) => if k.req.type = 0x10 then leAt k.req.fields 0 8 else 2 ^ 64
  decide (w i < w j) || (w i == w j && decide (i.seq < j.seq))

/-- The oldest ingot of a zone that may be retired, of one tenant where one is given. -/
def FstS.oldest (x : FstS) (z : Nat) (own : Option Nat) : Option IngotS :=
  (x.ingots.filter (fun i => i.req.zone == z && !x.keeps i && (own.isNone || own == some i.req.tenant))).foldl
    (fun (a : Option IngotS) i => match a with
      | none => some i
      | some j => if i.older j then some i else some j) none

/-- An ingot is written to the open block of its zone and class or to the next free one, after a map where the next-up list has run out (R367, R378). -/
def State.placeIngot (s : State) (r : IngotReq) (origin : Option Nat) : State × Option Nat :=
  let dry := (s.openBlock r r.cold).isNone && (s.fst.nextFree (nativeZone r.zone) r.cold).isEmpty && decide (s.fst.partUsed r < s.capFor r origin)
  (if dry then s.writeMap else s).putIngot r origin

/-- A native ingot that would be relocated outside its temperature range still waits for it, TDEFER seconds at most (R380). -/
def State.deferredMove (s : State) (i : IngotS) : Bool :=
  nativeZone i.req.zone && s.outOfTemp && (match i.req.waits with
    | none => true
    | some w => decide (s.now < w + s.fget Reg.FST_PLACE_TDEFER * secStu))

/-- One valid ingot is relocated (R371, R382): the old copy stays in force until the new one is durable. Nothing where the store is read-only (R376), in a compute
restart (R388), or where a copy has been made already; one that waits for its temperature (R380) is noted. -/
def State.relocateOne (s : State) (i : IngotS) : State :=
  if s.flag Reg.FST_STAT_READONLY || s.flt.restart.isSome || s.fst.ingots.any (fun j => j.origin == i.origin && decide (i.seq < j.seq)) then s
  else if s.deferredMove i then s.fstMod (fun x => { x with ingots := x.ingots.map (fun j =>
    if j.seq = i.seq then { j with req := { j.req with waits := some (i.req.waits.getD s.now) } } else j) })
  else (s.placeIngot i.req (some i.origin)).1.dropStale

/-- Every valid ingot of a block is relocated to a new block of the same zone and class (R371, R382). -/
def State.relocate (s : State) (b : Nat) : State := (s.fst.inBlock b).foldl (fun (x : State) i => x.relocateOne i) s

/-- A block holds a part of a map that the root names. -/
def FstS.holdsMap (x : FstS) (b : Nat) : Bool := (x.inBlock b).any (fun i => i.req.type == 2 && x.keeps i)

/-- Every valid ingot of a block is relocated; a root names the new places of the parts of a map before the old ones go (R372, R373). In place of the roots of a label
block a new one is written in the other. -/
def State.moveOut (s : State) (b : Nat) : State :=
  if (s.fst.blk b).zone = 0 then
    let s1 := s.writeRoot
    if s1.fst.labelBlk = b then s1 else s1.fstMod (fun x => { x with ingots := x.ingots.filter (fun i => i.block != b) })
  else if s.fst.holdsMap b then (s.relocate b).writeRoot else s.relocate b

/-- A block is emptied: nothing more is written into it, its ingots are relocated, and once they are durable it is erased (`how` 1) or retired (2). -/
def State.emptyBlock (s : State) (b how : Nat) : State :=
  ((s.blkMod b (fun k => { k with st := 4, drain := how })).moveOut b).settle

/-- The blocks that are being emptied go on (R382, R383), and so do relocations that waited for their temperature (R380): what had no room before is relocated
now. -/
def State.emptyMore (s : State) : State :=
  let s1 := if s.fst.blocks.all (fun k => k.drain == 0) then s else
    ((List.range s.fst.blocks.length).foldl (fun (x : State) b => if (x.fst.blk b).drain = 0 then x else x.moveOut b) s).settle
  (s1.fst.ingots.filter (fun i => i.req.waits.isSome)).foldl (fun (x : State) i => x.relocateOne i) s1

/-- The last valid ingot of a block is relocated (R375). -/
def State.relocateLast (s : State) (b : Nat) : State :=
  match (s.fst.inBlock b).getLast? with
  | some i => s.relocateOne i
  | none => s

/-- The block of the oldest ingot is freed (R366): nothing more is written into it, what is kept is relocated, the rest is retired, and it is erased once
nothing is left in it; a map that lay there is followed by a new one. -/
def State.freeBlock (s : State) (z : Nat) : State :=
  match s.fst.oldest z none with
  | none => s
  | some i =>
    let kept := (s.fst.inBlock i.block).filter s.fst.keeps
    let s1 := (s.fstMod (fun x => { x with ingots := x.ingots.filter (fun j => j.block != i.block || x.keeps j) })).emptyBlock i.block 1
    if kept.any (fun j => j.req.type == 2) then s1.writeMap else s1

/-- The oldest bulk ingot of a tenant is retired (R366); a block left without a valid ingot is erased. -/
def State.dropOldest (s : State) (t : Nat) : State :=
  match s.fst.oldest 2 (some t) with
  | none => s
  | some i =>
    let s1 := s.fstMod (fun x => { x with ingots := x.ingots.filter (fun j => j.seq != i.seq) })
    if (s1.fst.inBlock i.block).isEmpty && (s1.fst.blk i.block).st != 2 then s1.freeUp i.block else s1

/-- The blocks of an ingot's zone and part that hold no valid ingot and have no room for it are erased (log entry 83). -/
def State.reclaim (s : State) (r : IngotReq) : State :=
  (List.range s.fst.blocks.length).foldl (fun (x : State) b =>
    let k := x.fst.blk b
    if k.zone = r.zone ∧ k.part = r.part ∧ 2 ≤ k.st ∧ k.st < 5 ∧ k.drain = 0 ∧ 0 < k.next ∧ (x.fst.inBlock b).isEmpty = true then x.freeUp b else x) s

/-- An ingot finds no block: no open one has room, and its zone is at its size or its pool has none free (R366). -/
def State.zoneFull (s : State) (r : IngotReq) : Bool :=
  (s.openBlock r r.cold).isNone &&
    (decide (s.capFor r none ≤ s.fst.partUsed r) || (s.buildList (nativeZone r.zone) r.cold).isEmpty)

/-- An ingot of a tenant's FLASH port would pass the tenant's flash quota (R366, R396). -/
def State.overQuota (s : State) (r : IngotReq) : Bool :=
  r.type == 0x20 && decide (r.tenant < 4) &&
    decide ((s.tenancy r.tenant).flashQ * 1048576 <
      s.tenantBytes r.tenant + (s.dataPages r + 1) * (s.fst.geom.map (·.page)).getD 0)

/-- An ingot is not started (R366): bulk is full, or its tenant is at its quota, and nothing may be retired for it. -/
def State.ingotHeld (s : State) (r : IngotReq) : Bool :=
  let wrap := s.flag Reg.FST_CTRL_BULKWRAP
  (r.zone == 2 && s.zoneFull r && !wrap) || (s.overQuota r && (!wrap || (s.fst.oldest 2 (some r.tenant)).isNone))

/-- What is retired to make room for an ingot (R366). -/
def State.makeRoom (s : State) (r : IngotReq) : State :=
  let wrap := s.flag Reg.FST_CTRL_BULKWRAP
  let s1 := if wrap then s.fst.ingots.foldl (fun (x : State) _ => if x.overQuota r then x.dropOldest r.tenant else x) s else s
  let s2 := if s1.zoneFull r then s1.reclaim r else s1
  if s2.zoneFull r && (r.zone == 1 || (r.zone == 2 && wrap)) then s2.freeBlock r.zone else s2

/-- An ingot is written: room is made for it (R366), and it is placed (R378). -/
def State.writeIngot (s : State) (r : IngotReq) (origin : Option Nat) : State × Option Nat := (s.makeRoom r).placeIngot r origin

/-! ## Ingots asked for -/

/-- An ingot joins the queue (R365, R370). One that is larger than an ingot can be is not written (R367; log entry 83). -/
def State.askIngot (s : State) (r : IngotReq) : State :=
  let r' := if nativeZone r.zone && s.outOfTemp then { r with waits := some s.now } else r
  if s.dataMost (nativeZone r.zone) < s.dataPages r then s else s.fstMod (fun x => { x with queue := x.queue ++ [r'] })

/-- A native ingot still waits for its programming temperature (R380). -/
def State.deferredReq (s : State) (r : IngotReq) : Bool := nativeZone r.zone && s.outOfTemp && !r.forced

/-- What the payload of a clock stamp says (R374). -/
def stampOfBytes (b : List Byte) : StampS := { retacc := leAt b 0 8, sec := leAt b 8 6, frac := leAt b 14 2, ts := leAt b 16 2 }

/-- A committed clock stamp is the newest (R386). -/
def State.noteStamp (s : State) (r : IngotReq) : State :=
  if r.type = 3 then s.fstMod (fun x => { x with stamp := some (stampOfBytes r.payload) }) else s

/-- INGOT_COMMIT (R370): the first ingot of the queue that need not wait commits at stu `t`, and the blocks being emptied go on. During a restart only the
ingot that was begun does (R388). -/
def execIngotCommit (t : Nat) (s : State) : Host.Outcome State Fault Refusal :=
  .next (
    let s1 := s.at t
    if !s1.fstRuns || (s1.flt.restart.isSome && !s1.fst.begun) then s1 else
    match s1.fst.queue.find? (fun r => !s1.deferredReq r && !s1.ingotHeld r) with
    | none => s1
    | some r =>
      match s1.writeIngot r none with
      | (s2, some _) => (((s2.fstMod (fun x => { x with queue := x.queue.erase r, begun := false })).noteStamp r).dropStale).emptyMore
      | (_, none) => s1)

/-- PAIRDIST further pages of a native block have been programmed: its ingot is durable (R370), and what it supersedes is gone. -/
def State.ingotDurable (s : State) (seq : Nat) : State :=
  (s.fstMod (fun x => { x with ingots := x.ingots.map (fun i =>
    if i.seq = seq ∧ s.fget Reg.FST_NATIVE_PAIRDIST ≤ x.after i then { i with durable := true } else i) })).settle

/-- A pad ingot behind an ingot with too few pages after it makes up the count (R370); where its block has no room for one the ingot is written again
elsewhere (log entry 83). -/
def State.padNow (s1 : State) (i : IngotS) : State :=
  let want := s1.fget Reg.FST_NATIVE_PAIRDIST
  let have_ := s1.fst.after i
  if want ≤ have_ then s1.ingotDurable i.seq
  else if !s1.fstCanWrite then s1 else
  let pg := (s1.fst.geom.map (·.page)).getD 4096
  let n := Nat.max 1 (want - have_ - 1)
  let k := s1.fst.blk i.block
  if k.st < 4 ∧ k.next + n + 1 ≤ s1.blkPages k.native then
    let s2 := (s1.putAt i.block { zone := i.req.zone, type := 0x7F, payload := List.replicate (n * pg) 0 } none).1
    (s2.fstMod (fun x => { x with ingots := x.ingots.map (fun j =>
      if j.block = i.block ∧ want ≤ x.after j then { j with durable := true } else j) })).settle
  else (s1.blkMod i.block (fun k => { k with st := Nat.max 3 k.st })).relocateOne i

/-- The pad of an ingot is due FLUSH ticks after its commit (R370). -/
def State.padIngot (s : State) (i : IngotS) : State :=
  (s.at (i.commit + zeroAs1 (s.fget Reg.FST_NATIVE_FLUSH) * tickStu)).padNow i

/-! ## FLASH ports (R365) -/

/-- The bytes of an entry in a ring: header and payload, zero-padded to 16 (R175). -/
def Rec.bytes (r : Rec) : List Byte :=
  let b := leBytes r.stu 8 ++ leBytes r.kind 1 ++ leBytes r.flags 1 ++ leBytes r.payload.length 2 ++ leBytes r.param 4 ++ r.payload
  b ++ List.replicate (roundUp b.length 16 - b.length) 0

/-- The ingot that a port's gathered records ask for (R365, R368). -/
def PortBuf.req (b : PortBuf) : IngotReq :=
  { zone := if b.bulk then 2 else 1, type := 0x20, tenant := b.tenant, ctx := b.ctx
    fields := leBytes b.port 1 ++ [0] ++ leBytes b.entries.length 2 ++ leBytes (b.stus.headD 0) 8 ++ leBytes (b.stus.getLastD 0) 8
    payload := b.entries.flatten }

/-- The ingot of a part of a bulk object (R368, R374), which no operation of the spec asks for. -/
def objectReq (tenant id part parts : Nat) (b : List Byte) : IngotReq :=
  { zone := 2, type := 0x21, tenant := tenant, payload := b, fields := leBytes id 8 ++ leBytes part 2 ++ leBytes parts 2 }

/-- The bytes a port's gathered records take. -/
def PortBuf.size (b : PortBuf) : Nat := sumN (b.entries.map List.length)

/-- How many of the entries, oldest first, fit in `room` bytes. -/
def fitCount : Nat → List (List Byte) → Nat
  | _, [] => 0
  | room, e :: l => if e.length ≤ room then fitCount (room - e.length) l + 1 else 0

/-- A port's gathered records become an ingot, as many of them as its data pages hold; the rest go on gathering (R365). Those of a port that has to wait
stay in its ring (R366). -/
def State.closeBuf (s : State) (b : PortBuf) : State :=
  let pg := (s.fst.geom.map (·.page)).getD 4096
  let n := fitCount (s.dataMost b.bulk * pg) b.entries
  let first := { b with entries := b.entries.take n, stus := b.stus.take n }
  let rest := { b with entries := b.entries.drop n, stus := b.stus.drop n, since := s.now }
  if first.entries.isEmpty || s.ingotHeld first.req then s
  else (s.askIngot first.req).fstMod (fun x => { x with
    bufs := x.bufs.filter (fun c => c != b) ++ (if rest.entries.isEmpty then [] else [rest]) })

/-- A record of a FLASH port is taken: the ingot in hand closes first where the record does not fit in its data pages (R365). -/
def State.flashRec (s : State) (ctx port tenant : Nat) (bulk : Bool) (r : Rec) : State :=
  let pg := (s.fst.geom.map (·.page)).getD 4096
  let mine := fun (b : PortBuf) => b.ctx == ctx && b.port == port
  let s1 := match s.fst.bufs.find? mine with
    | some b => if s.dataMost bulk * pg < b.size + r.bytes.length then s.closeBuf b else s
    | none => s
  let next := match s1.fst.bufs.find? mine with
    | some b => { b with entries := b.entries ++ [r.bytes], stus := b.stus ++ [r.stu] }
    | none => { ctx := ctx, port := port, tenant := tenant, bulk := bulk, entries := [r.bytes], stus := [r.stu], since := s.now }
  s1.fstMod (fun x => { x with bufs := x.bufs.filter (fun b => !mine b) ++ [next] })

/-- INGOT_FLUSH (R33, R365): FLUSH ticks from the stu at which its first record was taken a port's ingot closes. -/
def execIngotFlush (ctx : Fin 256) (q : Fin 16) (s : State) : Host.Outcome State Fault Refusal :=
  .next (
    match s.fst.bufs.find? (fun b => b.ctx == ctx.val && b.port == q.val) with
    | none => s
    | some b => (s.at (b.since + zeroAs1 (s.fget Reg.FST_NATIVE_FLUSH) * tickStu)).closeBuf b)

/-- XTEMP_DEFER_TIMEOUT (R380): TDEFER seconds of waiting are over; the ingot is written outside its range, and so is one to be relocated. -/
def execXtempDeferTimeout (s : State) : Host.Outcome State Fault Refusal :=
  .next (
    match s.fst.queue.find? (fun r => s.deferredReq r) with
    | none =>
      match s.fst.ingots.find? (fun i => i.req.waits.isSome) with
      | none => s
      | some i =>
        let s1 := s.at (i.req.waits.getD s.now + s.fget Reg.FST_PLACE_TDEFER * secStu)
        if s1.fstCanWrite then s1.emptyMore else s1
    | some r =>
      let s1 := s.at (r.waits.getD s.now + s.fget Reg.FST_PLACE_TDEFER * secStu)
      s1.fstMod (fun x => { x with queue := x.queue.map (fun q => if q = r then { q with forced := true } else q) }))

/-! ## Failures and reads (R362, R363, R383) -/

/-- NAND operations go on: the store is mounted and ICS is locked (R79, R358). -/
def State.nandRuns (s : State) : Bool := s.mounted && s.flag Reg.TOP_DOMAIN_ICS_LOCK

/-- NAND_OP_FAIL (R383): a program or erase of a block reports fail. Its valid ingots are relocated and it is retired; the ingot in hand stays in the queue
and is written whole into a new block under its own sequence. -/
def execNandOpFail (b : Nat) (t : Nat) (s : State) : Host.Outcome State Fault Refusal :=
  .next (
    let s1 := s.at t
    if s1.nandRuns && decide (b < s.fst.blocks.length) && decide ((s.fst.blk b).st < 5) then s1.emptyBlock b 2 else s1)

/-- The slot of a calibration set that is lost holds none any more (R157, R363). -/
def State.loseSet (s : State) (i : IngotS) : State :=
  if i.req.type = 0x30 then { s with cal := { s.cal with saved := modifyAt s.cal.saved i.req.part (fun _ => none) } } else s

/-- An ingot is lost to an uncorrectable page (R363). -/
def State.loseIngot (x : State) (seq : Nat) : State :=
  let s := (x.fst.ingots.filter (fun i => i.seq == seq)).foldl (fun (y : State) i => y.loseSet i) x
  (((s.fstMod (fun x => { x with ingots := x.ingots.filter (fun i => i.seq != seq) })).bump Reg.FST_CNT1_LOST).evt Reg.FST_EVT_LOST).fault
    0x000A 0xFF 0xFF 0

/-- The counters of a codeword's read (R362). -/
def State.countRead (s : State) (r : ReadObs) : State :=
  let s1 := if 0 < r.retry then s.bump Reg.FST_CNT2_RETRY else s
  if r.soft then s1.bump Reg.FST_CNT2_SOFT else s1

/-- What a read adds to its block's scrub state (R362, R381). -/
def BlockS.noteRead (k : BlockS) (bits : Nat) (r : ReadObs) : BlockS :=
  let hurt := decide (bits ≤ r.corr) || decide (0 < r.retry) || r.soft
  { k with corr := Nat.max k.corr r.corr, level := if 0 < r.retry then r.retry else k.level, soft := k.soft || r.soft
           worn := k.worn || hurt, due := k.due || hurt }

/-- The read-retry levels of the targets. -/
def FstS.levels (x : FstS) : Nat := (x.geom.map (·.levels)).getD 0

/-- ICS lost lock at the present stu (R79): the ingots written in the 2 ms before are to be read back after the relock, every codeword of their data pages. -/
def State.icsPause (s : State) : State :=
  s.fstMod (fun x => { x with
    verify := x.verify.filter (fun v => !x.ingots.any (fun i => i.seq == v.1 && decide (s.now < i.commit + 12288000))) ++
      (x.ingots.filter (fun i => decide (s.now < i.commit + 12288000))).map (fun i => (i.seq, i.pages * (x.geom.map Geom.codewords).getD 1)) })

/-- A codeword of an ingot on that list reads as it was written: the list without it once all have (R79). -/
def readBack (seq : Nat) : List (Nat × Nat) → List (Nat × Nat)
  | [] => []
  | v :: l => if v.1 = seq then (if v.2 ≤ 1 then l else (v.1, v.2 - 1) :: l) else v :: readBack seq l

/-- NAND_READ_DONE (R362, R363): a codeword of an ingot has been read; what it took counts for the block's scrub state. The read back of R79 rewrites an ingot whose
data no longer matches its digest. -/
def execNandReadDone (seq : Nat) (t : Nat) (o : CwObs) (s : State) : Host.Outcome State Fault Refusal :=
  .next (
    let s0 := s.at t
    let r := readCw s.fst.levels o
    if !s0.nandRuns then s0 else
    let s1 := s0.countRead r
    match s.fst.ingots.find? (fun i => i.seq == seq) with
    | none => s1
    | some i =>
      let s2 := s1.blkMod i.block (fun k => k.noteRead (zeroAs1 (s.fget Reg.FST_SCRUB_REFRESH)) r)
      if r.ok then s2.fstMod (fun x => { x with verify := readBack seq x.verify })
      else if s.fst.verify.any (fun v => v.1 == seq) then
        ((s2.fstMod (fun x => { x with
          verify := x.verify.filter (fun v => v.1 != seq), ingots := x.ingots.filter (fun j => j.seq != seq) })).askIngot i.req).showFst
      else (s2.loseIngot seq).showFst)

/-- A full scrub is escalated (R386, FST_CTRL.SCRUBNOW): it ends when every block that holds pages has been read. -/
def State.scrubAll (s : State) : State :=
  let l := (List.range s.fst.blocks.length).filter (fun b => decide (2 ≤ (s.fst.blk b).st) && decide ((s.fst.blk b).st < 5))
  s.fstMod (fun x => { x with fullScrub := !l.isEmpty, scrubLeft := l })

/-- The retention clock of a block has reached num/den of its refresh point (R381, R385). -/
def State.retDue (s : State) (b num den : Nat) : Bool :=
  let k := s.fst.blk b
  let lim := zeroAs1 (if k.native || s.flag Reg.FST_STAT_PSLCNAT then s.fget Reg.FST_RETLIM_NATIVE else s.fget Reg.FST_RETLIM_PSLC)
  let fr := clampN 1 16 (s.fget Reg.FST_RET_REFRAC)
  let clk := s.rget64 Reg.FST_RETACC_LO - s.fst.stampOf b
  decide (0 < (s.fst.inBlock b).length) && decide (num * fr * lim * 86400 * 1024 ≤ clk * 16 * den)

/-- The ingots of a block one of whose pages, hallmark included, has a codeword that does not decode (R363); `l` are the reads of its pages from page 0. -/
def FstS.unreadable (x : FstS) (b : Nat) (l : List ReadObs) : List IngotS :=
  (x.inBlock b).filter (fun i => ((l.drop i.page).take (i.pages + 1)).any (fun r => !r.ok))

/-- The geometry in use. -/
def FstS.geo (x : FstS) : Geom := x.geom.getD { page := 0, spare := 0, ppb := 0, bpl := 0, luns := 0, bits := 0, targets := 0 }

/-- SCRUB_READ (R379 to R381, R363): the programmed pages of a block have been read by the scrub, `ps` giving the decodes of each page's codewords from page
0; a block with XTEMP comes before the others once the temperature is back in its range. The last block of a full scrub ends it. -/
def execScrubRead (b : Nat) (t : Nat) (ps : List (List CwObs)) (s : State) : Host.Outcome State Fault Refusal :=
  .next (
    let s0 := (s.at t).oscGo
    let first := !s0.outOfTemp && s0.fst.blocks.any (fun k => k.xtemp && decide (k.st < 5)) && !(s0.fst.blk b).xtemp
    if !(s0.nandRuns && decide (b < s.fst.blocks.length) && s.flag Reg.FST_CTRL_SCRUB && decide ((s.fst.blk b).st < 5)) || first then s0 else
    let reads := ps.map s.fst.geo.pageReads
    let s1 := reads.flatten.foldl (fun (x : State) r => x.countRead r) s0
    let r := pageRead (reads.map pageRead)
    let bits := zeroAs1 (s.fget Reg.FST_SCRUB_REFRESH)
    let k := s.fst.blk b
    let warm := k.xtemp && !s1.outOfTemp && decide (bits / 2 ≤ r.corr)
    let left := s1.fst.scrubLeft.filter (· != b)
    let s2 := ((s1.wuDone 0).fstMod (fun x => { x with scrubLeft := left, fullScrub := x.fullScrub && !left.isEmpty })).blkMod b (fun k =>
      let n := ({ k with corr := 0 } : BlockS).noteRead bits r
      { n with scrubbed := s0.bkp.sec, worn := n.worn || warm, due := n.due || warm || s1.retDue b 1 1, xtemp := k.xtemp && s1.outOfTemp })
    ((s2.fst.unreadable b (reads.map pageRead)).foldl (fun (x : State) i => x.loseIngot i.seq) s2).showFst)

/-- FST_SCRUB.RETIRE as it acts (R389). -/
def State.retireBits (s : State) : Nat := Nat.max (s.fget Reg.FST_SCRUB_RETIRE) (zeroAs1 (s.fget Reg.FST_SCRUB_REFRESH))

/-- REFRESH (R382, R379): a due block's ingots are relocated, one due by its retention clock alone only while FST_CTRL.SCRUB = 1 (R389); it is erased once they are durable, or retired where its erase count reaches the pool's
endurance (R383); its health is low where corrected bits, a retry level or a soft decode made it due. `back` gives, for each of the block's valid ingots in
order, the most bits a codeword of its rewritten pages corrects as they are read back: a block such a page lies in is retired at FST_SCRUB.RETIRE. -/
def execFstRefresh (b : Nat) (back : List Nat) (t : Nat) (s : State) : Host.Outcome State Fault Refusal :=
  .next (
    let s1 := s.at t
    let k := s1.fst.blk b
    let due := k.worn || (s1.flag Reg.FST_CTRL_SCRUB && (k.due || s1.retDue b 1 1))
    if !(s1.fstCanWrite && decide (b < s1.fst.blocks.length) && decide (2 ≤ k.st) && decide (k.st < 5) && k.drain == 0 && due) then s1 else
    let s2 := (((s1.blkMod b (fun k => { k with low := k.low || k.worn })).emptyBlock b 1).evt Reg.FST_EVT_REFRESH).bump Reg.FST_CNT1_REFRESHES
    let worn := ((s1.fst.inBlock b).zip back).filter (fun p => decide (s1.retireBits ≤ p.2))
    let blks := ((worn.flatMap (fun p => (s2.fst.ingots.filter (fun j => j.origin == p.1.origin && j.block != b)).map (·.block))).eraseDups)
    ((blks.filter (fun k => decide ((s2.fst.blk k).st < 5))).foldl (fun (x : State) k => x.emptyBlock k 2) s2).showFst)

/-- WEAR_LEVEL_MOVE (R384): the cold ingots of the lowest-count block of a pool move to the free block with the highest count that may take them (R379), at
most one move a minute; a block left empty is erased. -/
def execWearLevelMove (native : Bool) (t : Nat) (s : State) : Host.Outcome State Fault Refusal :=
  .next (
    let s1 := s.at t
    let pool := (List.range s1.fst.blocks.length).filter (fun b => (s1.fst.blk b).native == native)
    let held := pool.filter (fun b => decide (2 ≤ (s1.fst.blk b).st) && decide ((s1.fst.blk b).st < 5) && !(s1.fst.inBlock b).isEmpty)
    let er := fun b => (s1.fst.blk b).erases
    let lo := held.foldl (fun a b => if er b < er a then b else a) (held.headD 0)
    let hi := maxN (held.map er)
    let spread := zeroAs1 (if native then s1.fget Reg.FST_WL_NATIVE else s1.fget Reg.FST_WL_PSLC)
    let free := pool.filter (fun b => decide ((s1.fst.blk b).st < 2) && !(s1.fst.blk b).low)
    let dst := free.foldl (fun a b => if er a < er b then b else a) (free.headD 0)
    let last := s1.fst.lastMove.getD (b2n native) 0
    if !(s1.fstCanWrite && s1.flag Reg.FST_CTRL_WL) || held.isEmpty || free.isEmpty || decide (hi ≤ er lo + spread) ||
        decide (s1.now < last + 60 * secStu ∧ last ≠ 0) then s1 else
    let z := (s1.fst.blk lo).zone
    let p := (s1.fst.blk lo).part
    let s2 := s1.fstMod (fun x => { x with
      lastMove := modifyAt x.lastMove (b2n native) (fun _ => s1.now)
      nextUp := modifyAt x.nextUp (listIdx native true) (fun l => dst :: l.filter (· != dst))
      blocks := (List.range x.blocks.length).map (fun b => let k := x.blk b
        if k.st = 2 ∧ k.zone = z ∧ k.part = p ∧ k.cold then { k with st := 3 } else k) })
    let cold := (s2.fst.inBlock lo).filter (fun i => coldType i.req.type)
    let s3 := cold.foldl (fun (x : State) i => x.relocateOne i) s2
    (if cold.length = (s2.fst.inBlock lo).length then s3.emptyBlock lo 1 else s3).showFst)

/-! ## Clock stamps (R386) -/

/-- The payload of a clock stamp (R374). -/
def StampS.bytes (p : StampS) (reason disc : Nat) : List Byte :=
  leBytes p.retacc 8 ++ leBytes p.sec 6 ++ leBytes p.frac 2 ++ leBytes p.ts 2 ++ leBytes reason 1 ++ leBytes disc 1 ++ List.replicate 12 0

/-- A clock stamp is asked for (R386), with the backup time of the stu; it is the newest one once its ingot commits. -/
def State.clockStamp (x : State) (reason : Nat) : State :=
  if !x.mounted || x.flag Reg.FST_STAT_READONLY then x else
  let s := x.oscGo
  let p : StampS := { retacc := s.rget64 Reg.FST_RETACC_LO, sec := s.bkp.sec, frac := s.bkp.frac, ts := s.tsKelvin }
  let s1 := s.askIngot { zone := 1, type := 3, payload := p.bytes reason (s.fget Reg.BKP_STAT_DISC) }
  s1.fstMod (fun x => { x with lastStamp := s.now })

/-- CLOCK_STAMP (R386): every 60 s. -/
def execClockStamp (t : Nat) (s : State) : Host.Outcome State Fault Refusal :=
  .next (
    let s1 := s.at t
    if s.fst.lastStamp + 60 * secStu ≤ s1.now ∨ s.fst.lastStamp = 0 then s1.clockStamp 0 else s1)

/-! ## Discovery, mount and format -/

/-- N of R359: the smallest divider of at least 4 whose clock does not exceed the maximum. -/
def nandDiv (clk : Nat) : Nat := Nat.max 4 (ceilDiv 1536 (Nat.max 1 clk))

/-- The parameter page in use of a target (R357): the first copy whose CRC checks, where READ ID answers in either signalling. A target none of whose copies
checks counts as absent (log entry 83). -/
def TgtObs.found (o : TgtObs) : Option TgtPage := if o.sdr || o.ddr then (o.copies.find? (·.1)).map (·.2) else none

/-- The targets found form a supported set (R358). -/
def supported (ts : List (Option TgtPage)) : Bool :=
  match ts with
  | some t0 :: _ =>
    let all := ts.filterMap id
    t0.twoValid && all.all (fun t => t.nv && decide (4096 ≤ t.page) && decide (t.page ≤ 32768) && t.page % 2048 == 0 &&
      decide (128 * (t.page / 2048) ≤ t.spare) &&
      t.page == t0.page && t.spare == t0.spare && t.ppb == t0.ppb && t.bpl == t0.bpl && t.luns == t0.luns && t.bits == t0.bits)
  | _ => false

/-- The page that stands for a set of targets: that of the first one present. -/
def firstPage (ts : List (Option TgtPage)) : TgtPage :=
  (ts.filterMap id).headD { page := 0, spare := 0, ppb := 0, bpl := 0, luns := 0, bits := 0, nv := false, mode := 0, clk := 0 }

/-- The geometry of a supported set. -/
def geomOf (ts : List (Option TgtPage)) : Geom :=
  let t0 := firstPage ts
  { page := t0.page, spare := t0.spare, ppb := t0.ppb, bpl := t0.bpl, luns := t0.luns, bits := t0.bits, levels := t0.levels
    targets := sumN ((List.range 4).map (fun c => if (ts.getD c none).isSome then 2 ^ c else 0)) }

/-- What discovery sets (R357 to R359, R389): the clock divider only for a supported set, whose data interface is selected; another set is logged, and no NAND traffic
follows. -/
def State.discover (s : State) (os : List TgtObs) : State :=
  let ts := os.map TgtObs.found
  let g := geomOf ts
  let s1 := (List.range 4).foldl (fun (x : State) c => match ts.getD c none with
    | none => x.rsetN (Reg.FST_TGT c) 0
    | some t => x.rsetN (Reg.FST_TGT c) (2147483648 + (t.luns - 1) % 8 * 268435456 + t.mode % 256)) s
  let s2 := (s1.fset Reg.FST_STAT_TARGETS g.targets).rsetN Reg.FST_GEOM
    ((g.page / 1024) % 256 * 16777216 + g.bits % 16 * 1048576 + (g.bpl * g.luns) % 1048576)
  let bad := (List.range 4).flatMap (fun c => if (ts.getD c none).isSome then (os.getD c {}).bad.map (fun b => (c, b)) else [])
  let s3 := s2.fstMod (fun x => { x with bad := bad, found := ts })
  if supported ts then s3.fset Reg.FST_STAT_N (maxN ((ts.filterMap id).map (fun t => nandDiv t.clk)))
  else (s3.fset Reg.FST_STAT_STATE 5).fault 0x2006 0xFF 0xFF 0

/-- The newest clock stamp held (R375, R386). -/
def FstS.newestStamp (x : FstS) : Option IngotS :=
  (x.ingots.filter (fun i => i.req.type == 3)).foldl (fun (a : Option IngotS) i => match a with
    | none => some i
    | some j => if j.origin < i.origin then some i else some j) none

/-- FST_RETACC at mount (R386), from the newest stamp that can be read. -/
def State.mountRetacc (x : State) : State :=
  let s := (x.fstMod (fun f => { f with stamp := f.newestStamp.map (fun i => stampOfBytes i.req.payload) })).oscGo
  match s.fst.newestStamp with
  | none => s
  | some i =>
    let p := stampOfBytes i.req.payload
    let gone : Rat := (((s.bkp.sec : Int) - (p.sec : Int) : Int) : Rat) + (((s.bkp.frac : Int) - (p.frac : Int) : Int) : Rat) / 32768
    if i.origin ≤ s.fst.lostAt ∨ gone < 0 then
      ((s.rset64 Reg.FST_RETACC_LO (p.retacc + s.fget Reg.FST_RET_UNKDAYS * 86400 * 1024)).fsetB Reg.FST_STAT_RETUNK true).evt
        Reg.FST_EVT_RETUNK |>.scrubAll
    else s.rset64 Reg.FST_RETACC_LO (p.retacc + (gone * retAf (s.fget Reg.FST_RET_EA) (((Nat.max 1 p.ts : Nat) : Rat) / 16) * 1024).floor.toNat)

/-- A target that was formatted is absent (R372, R376). -/
def State.tmiss (s : State) : Bool :=
  match s.fst.geom, s.fst.geomFmt with
  | some g, some m => (List.range 4).any (fun c => bitOf m.targets c && !bitOf g.targets c)
  | _, _ => false

/-- The medium's root was written for other targets than those found (R372): the spec states no outcome, and the store is blank (log entry 83). -/
def FstS.otherGeom (x : FstS) (g : Geom) : Bool :=
  match x.geomFmt with
  | some m => !(m.page == g.page && m.spare == g.spare && m.ppb == g.ppb && m.bpl == g.bpl && m.luns == g.luns && m.bits == g.bits)
  | none => false

/-- The medium as mount finds it (R369, R371, R376, R388): ingots of absent targets stay away, a native ingot that checks is kept, and of two with one
origin the newer is in force. -/
def FstS.asFound (x : FstS) (g : Geom) : FstS :=
  let here := fun (i : IngotS) => bitOf g.targets (x.blk i.block).target
  let l := x.ingots ++ x.away
  { x with
    geom := some g, queue := [], bufs := [], away := l.filter (fun i => !here i)
    ingots := ((l.filter here).filter (fun i => !(l.any (fun j => j.origin == i.origin && decide (i.seq < j.seq))))).map (fun i => { i with durable := true }) }

/-- A block as its entry in a map image describes it (R373); what the entry does not hold starts anew. -/
def BlockS.fromMap (k : BlockS) (e : List Byte) : BlockS :=
  let f := leAt e 2 1
  { k with zone := leAt e 0 1, st := leAt e 1 1, native := bitOf f 0, low := bitOf f 1, xtemp := bitOf f 2, due := bitOf f 3, cold := bitOf (leAt e 3 1) 0
           erases := leAt e 4 4, next := leAt e 16 2, corr := leAt e 20 2, scrubbed := leAt e 24 6, worn := false, level := 0, soft := false, drain := 0 }

/-- A block as a full scan finds it in the hallmarks (R375 step 3): retired and bad ones stay, one without ingots is free, another full. Erase counts, pool and health, which
no hallmark holds, stay as they were (DESIGN CHOICE: the spec does not say what the rebuilt map gives for them; log entry 86). -/
def BlockS.fromScan (k : BlockS) (l : List IngotS) : BlockS :=
  if 5 ≤ k.st then k else
  match l with
  | [] => { k with zone := 255, st := 0, part := 0, next := 0, corr := 0 }
  | i :: _ => { k with zone := i.req.zone, part := i.req.part, cold := coldType i.req.type, st := 3, xtemp := l.any (·.xtemp), corr := 0 }

/-- A block with the valid ingots found in it since the map was written (R375 step 4): its pages up to the last are programmed, and one that was next-up is open. -/
def BlockS.entered (k : BlockS) (l : List IngotS) : BlockS :=
  let n := maxN (k.next :: l.map (fun i => i.page + i.pages + 1))
  match l with
  | [] => k
  | i :: _ => if k.st < 2 then { k with st := 2, zone := i.req.zone, part := i.req.part, cold := coldType i.req.type, next := n }
    else { k with part := i.req.part, next := n }

/-- The image of the map of a generation: the payloads of its parts in part order (R373). -/
def FstS.mapBytes (x : FstS) (g : Nat) : List Byte := ((x.mapParts g).map (fun i => i.req.payload)).flatten

/-- The map image that mount reads (R375 step 3): the newest where it is valid, else the one before; empty where neither is. -/
def FstS.readMap (x : FstS) : List Byte :=
  if (x.mapParts x.mapGen).isEmpty then x.mapBytes (x.mapGen - 1) else x.mapBytes x.mapGen

/-- The next-up lists of a map image (R373). -/
def nextUpOf (m : List Byte) (bpl : Nat) : List (List Nat) :=
  let o := leAt m 12 4
  (List.range 4).map (fun k => ((List.range 64).map (fun j => leAt m (o + 256 * k + 4 * j) 4)).filterMap (fun w =>
    if w = 4294967295 then none else some (w / 1073741824 * bpl + w % 1073741824)))

/-- The blocks and next-up lists from the map read, or from every page where neither map is valid (R375 step 3); the ingots found in a block are entered. -/
def State.fromMap (s : State) : State :=
  let m := s.fst.readMap
  s.fstMod (fun x =>
    let g := x.geo
    { x with
      nextUp := if m.isEmpty then x.nextUp else nextUpOf m (g.bpl * g.luns)
      blocks := (List.range x.blocks.length).map (fun b =>
        let k := x.blk b
        ((if m.isEmpty then k.fromScan (x.inBlock b) else k.fromMap (slice m (64 + 32 * b) 32))).entered (x.inBlock b)) })

/-- A block read forward (R375 step 4), `ps` being the pages after the last that is known: every valid ingot is entered, an invalid one sets DISCARD and
seals the block, and a next-up block that does not start with a valid ingot is erased again, without an event where none of its pages decodes: its erase was cut
off (R388). -/
def State.forward (s : State) (b : Nat) (ps : List (Option (List Byte))) : State :=
  let k := s.fst.blk b
  let (l, torn) := readForward b k.next [] ps
  let fresh := l.filter (fun i => !s.fst.ingots.any (fun j => j.seq == i.seq))
  let s1 := (s.fstMod (fun x => { x with ingots := x.ingots ++ fresh, lastSeq := maxN (x.lastSeq :: fresh.map (·.seq)) })).blkMod b (fun k =>
    { k with next := k.next + ps.length })
  let s2 := if torn && (decide (2 ≤ k.st) || ps.any Option.isSome) then s1.evt Reg.FST_EVT_DISCARD else s1
  if k.st < 2 then
    (if (l.head?.map (·.page)) = some 0 then
       match l.head? with
       | some i => s2.blkMod b (fun k => { k with st := if torn then 4 else 2, zone := i.req.zone, part := i.req.part, cold := coldType i.req.type })
       | none => s2
     else if ps.isEmpty then s2 else s2.freeUp b)
  else if torn then s2.blkMod b (fun k => { k with st := 4 }) else s2

/-- The last valid ingot of a block read forward is read again (R375 step 5), `l` giving the decodes of its codewords: what they took is counted and kept for the
block (R362), an ingot that does not decode is lost (R363), and one that reads weak is relocated. -/
def State.readAgain (s : State) (b : Nat) (l : List CwObs) : State :=
  let rs := l.map (readCw s.fst.levels)
  let r := pageRead rs
  let bits := zeroAs1 (s.fget Reg.FST_SCRUB_REFRESH)
  let s1 := (rs.foldl (fun (x : State) q => x.countRead q) s).blkMod b (fun k => k.noteRead bits r)
  if r.ok = false then (match (s.fst.inBlock b).getLast? with
    | some i => s1.loseIngot i.seq
    | none => s1)
  else if 0 < r.retry ∨ r.soft = true ∨ bits / 2 ≤ r.corr then s1.relocateLast b else s1

/-- The ingots with a page that does not decode do not exist (R369, R375, R388): one written since the map, found in reading forward, sets DISCARD and seals its
block; one that the map counts is lost (R363). -/
def State.badIngots (s : State) (bad : List Nat) (top : Nat) : State :=
  bad.foldl (fun (x : State) q => match x.fst.ingots.find? (fun i => i.seq == q) with
    | none => x
    | some i =>
      if q ≤ top then x.loseIngot q
      else ((x.fstMod (fun f => { f with ingots := f.ingots.filter (fun j => j.seq != q) })).evt Reg.FST_EVT_DISCARD).blkMod i.block (fun k => { k with st := 4 })) s

/-- FST_CNT0 counts the retired and the factory bad blocks that mount finds (R389). -/
def State.countBad (s : State) : State :=
  (s.fset Reg.FST_CNT0_RETIRED (satTo 65535 (s.fst.blocks.filter (fun k => k.st == 5)).length)).fset Reg.FST_CNT0_FACTORY (satTo 65535 s.fst.bad.length)

/-- Mount (R375, R376) of the targets that discovery found: `bad` the ingots with a page that does not decode (R363), `fwd` the pages found in the blocks read forward
behind what is known of them, and `again` the reads of step 5. -/
def State.mount (s : State) (bad : List Nat) (fwd : List (Nat × List (Option (List Byte)))) (again : List (Nat × List CwObs)) : State :=
  if !supported s.fst.found then s else
  let g := geomOf s.fst.found
  let roots := s.fst.ingots.filter (fun i => i.req.type == 1)
  let blank := !s.fst.rooted || s.fst.otherGeom g || (!roots.isEmpty && roots.all (fun i => bad.contains i.seq))
  let s2 := s.fsetB Reg.FST_STAT_PSLCNAT ((if blank then s.fget Reg.FST_PSLC_PREFIX else s.fst.prefixFmt) == 0)
  if blank then (s2.fstMod (fun x => { x with geom := some g })).fset Reg.FST_STAT_STATE 4
  else
    let s3 := s2.fstMod (fun x => x.asFound g)
    let maps := fun (x : State) => (x.fst.ingots.filter (fun i => i.req.type == 2 && bad.contains i.seq)).map (·.seq)
    let s4 := (s3.badIngots (maps s3) (2 ^ 64)).fromMap
    let full := s4.fst.readMap.isEmpty
    let s5 := s4.badIngots bad (if full then 2 ^ 64 else leAt s4.fst.readMap 24 8)
    let s6 := if s5.tmiss then ((s5.fsetB Reg.FST_STAT_READONLY true).nfWp).evt Reg.FST_EVT_TMISS else s5
    let s7 := (fwd.foldl (fun (x : State) p => x.forward p.1 p.2) (s6.fsetB Reg.FST_STAT_FULLSCAN full)).dropStale
    let s8 := again.foldl (fun (x : State) p => x.readAgain p.1 p.2) s7
    let s9 := (((((s8.mountRetacc).countBad).checkSpares false).checkSpares true).noSpares).writeMap
    ((s9.fset Reg.FST_STAT_STATE 3).evt Reg.FST_EVT_MOUNTED).showFst

/-- The zone sizes that FST_ZONE stages, MiB (R377). -/
def State.stagedZones (s : State) : List Nat := (List.range 4).map (fun z => (s.rget (Reg.FST_ZONE z)).toNat)

/-- The blocks that the pSLC zones of the sizes `zs` take: label, calibration, journal and two image copies (R364, R377). -/
def State.pslcWant (s : State) (zs : List Nat) (g : Geom) : Nat :=
  let pages := if s.fget Reg.FST_PSLC_PREFIX = 0 then g.ppb else g.ppb / Nat.max 1 g.bits
  let need := fun mib => ceilDiv (mib * 1048576) (Nat.max 1 (pages * g.page))
  2 + 4 + need (Nat.max 64 (zs.getD 0 0)) + 2 * need (zs.getD 3 0)

/-- The blocks that the bulk zone of its size takes, with its spares; none where it is 0. -/
def bulkWant (zs : List Nat) (g : Geom) : Nat :=
  let mib := zs.getD 1 0
  let n := ceilDiv (mib * 1048576) (Nat.max 1 (g.ppb * g.page))
  if mib = 0 then 0 else n + sparesBeside n

/-- The most blocks whose data area is used: 512 GiB (R356). -/
def Geom.blocksMost (g : Geom) : Nat := 549755813888 / Nat.max 1 (g.page * g.ppb)

/-- Every block index of the targets, in the order of R373, absent targets below a present one included; of the blocks of present targets the lowest ones that
make up 512 GiB are used (R356). -/
def Geom.places (g : Geom) : List (Nat × Nat) :=
  let n := g.bpl * g.luns
  let top := maxN ((List.range 4).map (fun c => if bitOf g.targets c then c + 1 else 0))
  let used := fun c => sumN ((List.range c).map (fun d => if bitOf g.targets d then n else 0))
  (List.range top).flatMap (fun c =>
    (List.range (if bitOf g.targets c then Nat.min n (g.blocksMost - used c) else n)).map (fun b => (c, b)))

/-- A block as a format finds it: its place, whether it can be used, its state where it cannot, and its erase count with the format's own erase (R377, R383). A
block of a target that is not there counts as bad. -/
def State.allBlocks (s : State) (g : Geom) : List BlockS :=
  g.places.map (fun p =>
    let old := s.fst.blocks.find? (fun k => k.target == p.1 && k.num == p.2)
    let n := (old.map (·.erases)).getD 0
    if !bitOf g.targets p.1 || s.fst.bad.contains p then { target := p.1, num := p.2, st := 6 }
    else if old.any (fun k => k.st == 5) then { target := p.1, num := p.2, st := 5, erases := n }
    else { target := p.1, num := p.2, erases := n + 1 })

/-- The pools of a format (R377) after `n` good blocks: the first `np` good ones are pSLC where a bulk zone is asked for; blocks 0 and 1 are the label zone. -/
def formatFrom (np : Nat) (bulk : Bool) : Nat → Nat → List BlockS → List BlockS
  | _, _, [] => []
  | i, n, k :: l =>
    let good := decide (k.st < 5)
    { k with native := bulk && decide (np ≤ n), zone := if i < 2 then 0 else 255, st := if good && decide (i < 2) then 2 else k.st } ::
      formatFrom np bulk (i + 1) (n + b2n good) l

/-- A format's blocks (R377): every block of the targets, the factory bad ones marked, pSLC first for label, journal, calibration and
image with its spares, the rest native where a bulk zone is asked for. -/
def State.formatBlocks (s : State) (zs : List Nat) (g : Geom) : List BlockS :=
  formatFrom (s.pslcWant zs g + sparesBeside (s.pslcWant zs g)) (bulkWant zs g != 0) 0 0 (s.allBlocks g)

/-- The zone sizes fit the medium with its spares (R377). -/
def State.formatFits (s : State) (zs : List Nat) (g : Geom) : Bool :=
  decide (s.pslcWant zs g + sparesBeside (s.pslcWant zs g) + bulkWant zs g ≤ ((s.allBlocks g).filter (fun k => decide (k.st < 5))).length)

/-- No port is bound until a table is read again: the next root takes no owner from the host block. -/
def State.unbind (s : State) : State := { s with host := { s.host with bound := false } }

/-- FORMAT is accepted when blank, or when mounted with FORCE (R377). -/
def State.mayFormat (s : State) : Bool :=
  let st := s.fget Reg.FST_STAT_STATE
  st == 4 || (st == 3 && s.flag Reg.FST_CTRL_FORCE)

/-- The blocks whose erase count the format's own erase brings to their pool's endurance are retired (R383). -/
def State.retireSpent (s : State) : State :=
  (List.range s.fst.blocks.length).foldl (fun (x : State) b =>
    if (x.fst.blk b).st < 5 ∧ x.endur (x.fst.blk b).native ≤ (x.fst.blk b).erases then x.retireNow b else x) s

/-- An accepted FORMAT (R377) with the zone sizes staged at its acceptance (R8). Everything held is gone; retired blocks stay retired, and the erase counts go on. -/
def State.format (s : State) (zs : List Nat) : State :=
  match s.fst.geom with
  | none => s
  | some g =>
    if !s.formatFits zs g then s.evt Reg.FST_EVT_FMT_FAIL else
    let bs := s.formatBlocks zs g
    let s1 := s.unbind.fstMod (fun x => { x with
      blocks := bs, ingots := [], queue := [], bufs := [], nextUp := [[], [], [], []], mapGen := 0, mapSeq := 0, prevSeq := 0
      lastSeq := 0, labelBlk := 0, stamp := none, anchor := none, table := [], geomFmt := some g, away := [], verify := []
      fullScrub := false, scrubLeft := [], lostAt := 0
      zonesFmt := zs, prefixFmt := s.fget Reg.FST_PSLC_PREFIX })
    let s2 := ((((((s1.fset Reg.FST_CNT0_FACTORY (satTo 65535 s.fst.bad.length)).fset Reg.FST_STAT_STATE 3).fsetB Reg.FST_STAT_PSLCNAT
      (s.fget Reg.FST_PSLC_PREFIX == 0)).fsetB Reg.FST_STAT_READONLY false).nfWp.retireSpent.checkSpares false).checkSpares true).writeMap
    (s2.evt Reg.FST_EVT_FORMATTED).showFst

end Sys2Proof.Machine
end

