-- ==== Sys2Proof/Machine/Cal.lean ====
section
/-!
DEFINITION. Self-calibration (chapter 6): points and interpolation, plausibility, application, estimates, power-up calibration and
saves.
-/

namespace Sys2Proof.Machine

/-! ## Vectors of values -/

/-- The index of a group and unit's vector: groups 0 to 4 have units 0 and 1, LF_OFS one, TRIM two (R134). -/
def calIdx (g u : Nat) : Nat := if g < 5 then 2 * g + u else if g = 5 then 10 else 11 + u

/-- The group of a vector. -/
def calGroup (i : Nat) : Nat := if i < 10 then i / 2 else if i = 10 then 5 else 6

/-- The unit of a vector. -/
def calUnit (i : Nat) : Nat := if i < 10 then i % 2 else if i = 10 then 2 else i - 11

/-- The state with its calibration changed. -/
def State.calMod (s : State) (f : CalS → CalS) : State := { s with cal := f s.cal }

/-- The state with one estimate's course changed. -/
def State.estMod (s : State) (i : Nat) (f : EstS → EstS) : State :=
  s.calMod (fun c => { c with ests := modifyAt c.ests i f })

/-- T_cal: the mean of sensors 0, 1 and 2, in 1/16 degree (R143). -/
def State.tcal (s : State) : Rat :=
  let t := fun i => ((sgn 16 (s.fget (Reg.LDG_TEMP_TEMP i)) : Int) : Rat)
  (t 0 + t 1 + t 2) / 3

/-- A vector of one point. -/
def CalPoint.vec (p : CalPoint) (i : Nat) : List Rat := p.vals.getD i []

/-- Two vectors combined value by value. -/
def vzip (f : Rat → Rat → Rat) (a b : List Rat) : List Rat := (a.zip b).map (fun p => f p.1 p.2)

/-- The value of a vector at a temperature (R144): linear between adjacent points, held at the ends. -/
def interp (i : Nat) (t : Rat) : List CalPoint → List Rat
  | [] => []
  | [p] => p.vec i
  | p :: q :: l =>
    if t ≤ (p.temp : Rat) then p.vec i
    else if t ≤ (q.temp : Rat) then
      vzip (fun a b => a + (t - (p.temp : Rat)) * (b - a) / ((q.temp - p.temp : Int) : Rat)) (p.vec i) (q.vec i)
    else interp i t (q :: l)

/-- The slope of R144 at a temperature: 0 with one point and beyond the ends. -/
def slope (i : Nat) (t : Rat) : List CalPoint → List Rat
  | p :: q :: l =>
    if t < (p.temp : Rat) then (p.vec i).map (fun _ => 0)
    else if t ≤ (q.temp : Rat) then vzip (fun a b => (b - a) / ((q.temp - p.temp : Int) : Rat)) (p.vec i) (q.vec i)
    else slope i t (q :: l)
  | [p] => (p.vec i).map (fun _ => 0)
  | [] => []

/-! ## Points (R145) -/

/-- A point put in ascending order. -/
def insPoint (p : CalPoint) : List CalPoint → List CalPoint
  | [] => [p]
  | q :: l => if p.temp < q.temp then p :: q :: l else q :: insPoint p l

/-- The smallest gap between adjacent points. -/
def minGap : List CalPoint → Option Int
  | p :: q :: l =>
    let g := q.temp - p.temp
    match minGap (q :: l) with
    | none => some g
    | some h => some (if h < g then h else g)
  | _ => none

/-- Two points merged: the mean of their temperatures and of each value. -/
def mergeTwo (p q : CalPoint) : CalPoint :=
  { temp := (p.temp + q.temp) / 2, vals := (p.vals.zip q.vals).map (fun x => vzip (fun a b => (a + b) / 2) x.1 x.2) }

/-- The first pair of adjacent points at the smallest gap is merged. -/
def mergeClosest (g : Int) : List CalPoint → List CalPoint
  | p :: q :: l => if q.temp - p.temp = g then mergeTwo p q :: l else p :: mergeClosest g (q :: l)
  | l => l

/-- An accepted estimate of vector `i` at temperature `t` (1/16 degree) updates the set (R145); a new point lies within −40 to 105 °C (R143). Of two points within 5.0 degrees
the lower is updated (DESIGN CHOICE: R145 says a point; log entry 84). -/
def updatePoints (i : Nat) (t : Rat) (v : List Rat) (ps : List CalPoint) : List CalPoint :=
  let near := fun (p : CalPoint) => decide (absQ ((p.temp : Rat) - t) ≤ 80)
  if ps.any near then
    let sl := slope i t ps
    let put := fun (p : CalPoint) => { p with vals := modifyAt p.vals i (fun _ =>
      (vzip (fun a b => a - (t - (p.temp : Rat)) * b) v sl)) }
    let rec go : List CalPoint → List CalPoint
      | [] => []
      | p :: l => if near p then put p :: l else p :: go l
    go ps
  else
    let base : List (List Rat) := (List.range 13).map (fun k => if k = i then v else interp k t ps)
    let at_ := roundAway t
    let l := insPoint { temp := if at_ < -640 then -640 else if 1680 < at_ then 1680 else at_, vals := base } ps
    if 8 < l.length then
      match minGap l with
      | none => l
      | some g => mergeClosest g l
    else l

/-! ## What the registers show -/

/-- A value as a signed 16-bit field. -/
def calCode (l : List Rat) (k : Nat) : Nat := code 16 (satS 16 (roundAway (l.getD k 0)))

/-- The registers of the values in force, of the points and of SLEWING and DEFERRED (R163). -/
def State.showCal (s : State) : State :=
  let f := s.cal.inForce
  let v := fun g u k => calCode (f.getD (calIdx g u) []) k
  let s1 := (List.range 2).foldl (fun (x : State) c => (List.range 16).foldl (fun (y : State) i =>
    (y.rsetN (Reg.CAL_ILA c i) (v 0 c i * 65536 + v 1 c i)).rsetN (Reg.CAL_ILB c i) (v 2 c i * 65536 + v 3 c i)) x) s
  let s2 := (List.range 2).foldl (fun (x : State) p => (List.range 6).foldl (fun (y : State) k => y.rsetN (Reg.CAL_LNA p k) (v 4 p k)) x) s1
  let s3 := ((s2.rsetN Reg.CAL_LFOFS (v 5 0 0)).rsetN (Reg.CAL_TRIM 0) (v 6 0 0)).rsetN (Reg.CAL_TRIM 1) (v 6 1 0)
  let s4 := (List.range 8).foldl (fun (x : State) p => match s.cal.points[p]? with
    | some q => x.rsetN (Reg.CAL_TEMP p) (2147483648 + code 16 q.temp)
    | none => x.rsetN (Reg.CAL_TEMP p) 0) s3
  (s4.fset Reg.CAL_STAT_NPTS s.cal.points.length).fsetB Reg.CAL_STAT_SLEWING (s.cal.slews.any (·.isSome))

/-- DEFMASK bit g and DEFERRED: bit 4 also for a pair that the sweep left without an observation (R139, R152). An acceptance for one converter leaves the bit
of its group set while the other converter's estimate is still deferred (DESIGN CHOICE: R139 says only that the bit clears when an estimate of the group
is accepted; log entry 83). -/
def State.showDef (s : State) : State :=
  let m := sumN ((List.range 7).map (fun g =>
    if (List.range 13).any (fun i => calGroup i == g && (s.cal.ests.getD i {}).deferred) || (g == 4 && s.cal.pairDef.any id)
    then 2 ^ g else 0))
  ((s.fset Reg.CAL_STAT_DEFMASK m).fsetB Reg.CAL_STAT_DEFERRED (m != 0)).fsetB Reg.CAL_STAT_ESC (s.cal.ests.any (·.esc))

/-! ## Limits (R140) -/

/-- The absolute limits of a group, lowest and highest, in the units of R156. -/
def absLim (g : Nat) : Rat × Rat :=
  if g = 0 then (-128, 128) else if g = 1 then (-196608 / 100, 196608 / 100) else if g = 2 then (-2000, 2000)
  else if g = 3 then (-300, 300) else if g = 4 then (5632, 6656) else if g = 5 then (-2048, 2048) else (-4000, 4000)

/-- The change limit of a group. -/
def chgLim (g : Nat) : Rat :=
  if g = 0 then 32 else if g = 1 then 32768 / 100 else if g = 2 then 250 else if g = 3 then 50
  else if g = 4 then 1024 / 10 else if g = 5 then 512 else 500

/-- The reason code an estimate fails with (R140, R141): its absolute code before 0x8 and 0x9. One that fails both of these has not failed for the change limit
alone (R142) and reports 0x9 (DEDUCED, log entry 78). -/
def calReason (g : Nat) (v inf se : List Rat) (single : Bool) : Nat :=
  let (lo, hi) := absLim g
  if v.any (fun x => decide (x < lo) || decide (hi < x)) then g + 1
  else if !single && se.any (fun x => decide (chgLim g / 4 < x)) then 9
  else if (v.zip inf).any (fun p => decide (chgLim g < absQ (p.1 - p.2))) then 8
  else 0

/-- The mean of some values. -/
def meanQ (l : List Rat) : Rat := (l.foldl (· + ·) 0) / ((Nat.max 1 l.length : Nat) : Rat)

/-- Interleave values normalised (R134, R135): gains have a mean of 1, skews and bandwidths a mean of 0. -/
def calNorm (g : Nat) (v : List Rat) : List Rat :=
  if g = 1 then
    let m := 65536 + meanQ v
    v.map (fun x => 65536 * (65536 + x) / m - 65536)
  else if g = 2 ∨ g = 3 then v.map (fun x => x - meanQ v)
  else v

/-- The standard error of the mean of a pair's observations lies above a quarter of the change limit (R140): a value that fails the check, else none. -/
def lnaSe (l : List Rat) : List Rat :=
  let n := l.length
  let m := meanQ l
  let sq := (l.map (fun x => (x - m) * (x - m))).foldl (· + ·) 0
  if 2 ≤ n ∧ ((n * (n - 1) : Nat) : Rat) * (chgLim 4 / 4) * (chgLim 4 / 4) < sq then [chgLim 4] else []

/-! ## Bringing values into force (R147 to R150) -/

/-- A group moves by step: power-up, group 4, or MODE 0 (R148, R150, R151). -/
def State.stepMode (s : State) (g : Nat) : Bool :=
  s.flag Reg.CAL_STAT_PWRUP || g == 4 || !s.flag (Reg.CAL_APPLY_MODE g)

/-- A target for vector `i` comes into effect at the present boundary: by step, or as the first of 2^N increments (R148, R149). -/
def State.takeTarget (s : State) (i : Nat) (t : List Rat) (byStep : Bool) : State :=
  let g := calGroup i
  let cur := s.cal.inForce.getD i []
  if byStep || s.stepMode g then
    s.calMod (fun c => { c with inForce := modifyAt c.inForce i (fun _ => t), slews := modifyAt c.slews i (fun _ => none) })
  else
    let n := 2 ^ clampN 4 12 (s.fget (Reg.CAL_APPLY_N g))
    let inc := (vzip (fun a b => (b - a) / ((n : Nat) : Rat)) cur t)
    s.calMod (fun c => { c with
      inForce := modifyAt c.inForce i (fun _ => vzip (· + ·) cur inc)
      slews := modifyAt c.slews i (fun _ => some { inc := inc, left := n - 1, target := t }) })

/-- The R144 values at the present temperature become the targets of all vectors but those in `but` that differ enough (R147). -/
def State.retarget (s : State) (byStep : Bool) (but : List Nat := []) : State :=
  ((List.range 13).filter (fun i => !but.contains i)).foldl (fun (x : State) i =>
    let t := interp i s.tcal s.cal.points
    let cur := s.cal.inForce.getD i []
    if byStep || (t.zip cur).any (fun p => decide (chgLim (calGroup i) / 16 ≤ absQ (p.1 - p.2))) then x.takeTarget i t byStep
    else x) s

/-- The converter whose statistics a vector uses: a port's is the one it feeds. -/
def State.calConv (s : State) (i : Nat) : Nat :=
  let g := calGroup i
  if g = 5 then 2 else if g = 4 then s.crossed (calUnit i) else calUnit i

/-- CONVERTER_VOID_END (R98, R155): 64 ticks after a converter powered up; its groups take their values at T_cal by step. -/
def execConverterVoidEnd (c : Fin 2) (s : State) : Host.Outcome State Fault Refusal :=
  .next (
    match (s.conv c).voidUntil with
    | none => s
    | some t =>
      let s1 := (s.at t).rawTrack t (fun x => x.convMod c (fun k => { k with voidUntil := none }))
      let s2 := if s1.convVoid c then s1 else s1.convVoidEnd c t
      (((List.range 13).filter (fun i => s2.calConv i == c.val)).foldl (fun (x : State) i =>
        x.takeTarget i (interp i x.tcal x.cal.points) true) s2).showCal)

/-- One increment of every gradual change (R148). -/
def State.slewStep (s : State) : State :=
  (List.range 13).foldl (fun (x : State) i => match x.cal.slews.getD i none with
    | none => x
    | some w =>
      if w.left = 0 then x.calMod (fun c => { c with slews := modifyAt c.slews i (fun _ => none) })
      else
        let cur := x.cal.inForce.getD i []
        let next := if w.left = 1 then w.target else vzip (· + ·) cur w.inc
        x.calMod (fun c => { c with
          inForce := modifyAt c.inForce i (fun _ => next)
          slews := modifyAt c.slews i (fun _ => if w.left = 1 then none else some { w with left := w.left - 1 }) })) s

/-- The values in force are evaluated again (R147), where that has not been done at this boundary. -/
def State.reevaluate (s : State) (but : List Nat) : State :=
  if s.time.tick % 3000 = 0 ∧ s.cal.reeval ≠ s.time.tick ∧ s.boot.planned then
    (s.retarget false but).calMod (fun c => { c with reeval := s.time.tick })
  else s

/-- Calibration at a tick boundary: the increments of the running changes, waiting targets whose boundary has come, and the evaluation of R147, before any marker
of the boundary is placed (R150). A change that a new target restarts makes its own increment of the boundary first (DESIGN CHOICE beside R149; log entry 84). -/
def State.calBoundary (s : State) (tick : Nat) : State :=
  let s1 := s.slewStep
  let due := s1.cal.waiting.filter (fun w => decide (w.2.1 ≤ tick))
  let s2 := s1.calMod (fun c => { c with waiting := c.waiting.filter (fun w => !decide (w.2.1 ≤ tick)) })
  ((due.foldl (fun (x : State) w => x.takeTarget w.1 w.2.2.1 w.2.2.2) s2).reevaluate (due.map (·.1))).showCal

/-! ## Estimates -/

/-- The statistics of a tick pass (R138), by its metrics in the units of CAL_MEAS. -/
def State.measPass (s : State) (m : Nat × Nat × Nat × Nat) : Bool :=
  let (sf, cf, sh, lv) := m
  let lo := s.fget Reg.CAL_PRE_CFMIN
  let hi := let h := s.fget Reg.CAL_PRE_CFMAX; if 2 * h < lo then 15 else h
  decide (s.fget Reg.CAL_PRE_SFMIN ≤ sf) && decide (5 * lo ≤ cf) && decide (cf ≤ 10 * hi) &&
    decide (sh ≤ zeroAs1 (s.fget Reg.CAL_PRE_SHAREMAX)) && decide (s.fget Reg.CAL_PRE_LVLMIN ≤ lv)

/-- The tick before which a due estimate gathers (R139): WAIT ticks from the due time, at power-up no later than the end of its tick 720 (R151). -/
def State.gatherEnd (s : State) (d : Nat) : Nat :=
  let e := d + zeroAs1 (s.fget Reg.CAL_CFG0_WAIT)
  if s.flag Reg.CAL_STAT_PWRUP then Nat.min e (s.boot.firstTick + 721) else e

/-- The tick that ends counts toward an estimate due since tick `d` (R139, R151): the first planned tick itself does not. -/
def State.gathers (s : State) (d : Option Nat) : Bool :=
  match d with
  | none => false
  | some d => decide (s.time.tick < s.gatherEnd d) && !(s.flag Reg.CAL_STAT_PWRUP && decide (s.time.tick ≤ s.boot.firstTick))

/-- A tick's metrics are written and counted: a passing tick is gathered toward the due estimates of the converter, a failing one
defers them (R138, R139). A tick of a powered converter that has no metrics (clips, or no valid sample) neither passes nor fails, and CAL_MEAS keeps the metrics
of the tick before (DESIGN CHOICE: the spec gives no values for it; log entry 83). -/
def State.gather (s : State) (c : Nat) (m : Option (Nat × Nat × Nat × Nat)) : State :=
  let s1 := match m with
    | some (sf, cf, sh, lv) => s.rsetN (Reg.CAL_MEAS c) (satTo 255 sf * 16777216 + satTo 255 cf * 65536 + satTo 255 sh * 256 + satTo 255 lv)
    | none => s
  let ok := match m with
    | some x => s.measPass x
    | none => false
  if m.isNone then s1 else
  let idx := (List.range 13).filter (fun i => s.calConv i == c && s.gathers (s.cal.ests.getD i {}).due)
  let s2 := idx.foldl (fun (x : State) i =>
    if ok then x.estMod i (fun e => { e with passing := e.passing + 1, tsum := e.tsum + x.tcal })
    else (x.estMod i (fun e => { e with deferred := true })).evt Reg.CAL_EVT_DEFER) s1
  s2.showDef

/-- The last 8 observations of each pair of a port are held (R146). -/
def State.lnaSeen (s : State) (p k : Nat) (r : Rat) : State :=
  s.calMod (fun c => { c with lnaObs := modifyAt c.lnaObs (6 * p + k) (fun l => (r :: l).take 8) })

/-- The gain steps that began the tick that ends are observed (R146); until the end of the sweep its holds observe them (R151). -/
def State.lnaGather (s : State) (l : List (Option Rat)) : State :=
  (List.range 2).foldl (fun (x : State) p =>
    if x.flag Reg.CAL_STAT_PWRUP && decide (x.time.tick < x.boot.firstTick + 225) then x else
    (match x.cal.stepPair.getD p none, l.getD p none with
      | some k, some r => x.lnaSeen p k r
      | _, _ => x).stepSeen p none) s

/-- A PRESEL or ROUTE marker on a converter discards the ticks gathered (R137). The marker stands at a boundary, and the tick that begins there counts as after
it (DESIGN CHOICE: R137 discards at "a tick that contains" the marker and restarts with "the first passing tick after the marker"; log entry 83). -/
def State.calDiscard (s : State) (c : Nat) : State :=
  ((List.range 13).filter (fun i => s.calConv i == c)).foldl (fun (x : State) i => x.estMod i (fun e => { e with passing := 0, tsum := 0 })) s

/-- The temperature drift makes an estimate due: T_cal lies more than DRIFT degrees from the nearest point (R154). -/
def State.drifted (s : State) : Bool :=
  let d := 16 * zeroAs1 (s.fget Reg.CAL_CFG0_DRIFT)
  s.cal.points.all (fun p => decide ((d : Rat) < absQ (s.tcal - (p.temp : Rat))))

/-- An estimate becomes due (R154). -/
def State.estDue (s : State) (i : Nat) (esc : Bool) : State :=
  if (s.cal.ests.getD i {}).due.isSome then
    (if esc then s.estMod i (fun e => { e with esc := true }) else s).showDef
  else (s.estMod i (fun e => { e with due := some s.time.tick, passing := 0, tsum := 0, esc := esc })).showDef

/-- T_est: the mean T_cal over the passing ticks of an estimate (R145). -/
def EstS.mean (e : EstS) : Rat := e.tsum / ((e.passing : Nat) : Rat)

/-- The converter of a vector is powered (R155). -/
def State.calPowered (s : State) (i : Nat) : Bool := (s.conv (s.calConv i)).powered

/-- CAL_ESTIMATE_DUE (R154): MAXAGE has passed since the last acceptance, or the temperature has drifted, while tracking is on. -/
def execCalEstimateDue (g : Fin 7) (u : Fin 2) (s : State) : Host.Outcome State Fault Refusal :=
  .next (
    let i := calIdx g u
    let e := s.cal.ests.getD i {}
    let age := Nat.max 60 (s.fget Reg.CAL_CFG1_MAXAGE)
    if !s.flag Reg.CAL_CTRL_TRACK || s.flag Reg.CAL_STAT_PWRUP || !s.calPowered i then s
    else if s.drifted then s.estDue i true
    else if e.lastAccept + age * 3000 ≤ s.time.tick then s.estDue i false
    else s)

/-- Targets asked for join those that wait: of two for one vector at one boundary the later is the target set there (R148). -/
def putTargets (old new : List (Nat × Nat × List Rat × Bool)) : List (Nat × Nat × List Rat × Bool) :=
  old.filter (fun w => !new.any (fun v => v.1 == w.1 && v.2.1 == w.2.1)) ++ new

/-- An estimate is accepted (R145, R147): the set is updated and its target asked for by the rule of R15. -/
def State.calAccept (s : State) (i : Nat) (t : Rat) (v : List Rat) : State :=
  let s1 := s.calMod (fun c => { c with points := updatePoints i t v c.points, changed := true })
  let s2 := (s1.estMod i (fun e => { e with due := none, deferred := false, esc := false, passing := 0, tsum := 0, rejects := []
                                            lastAccept := s.time.tick })).evt Reg.CAL_EVT_ACCEPT
  let s3 := s2.fsetB Reg.CAL_STAT_REJECT false
  let tgts := (List.range 13).filterMap (fun k =>
    let tv := interp k s3.tcal s3.cal.points
    let cur := s3.cal.inForce.getD k []
    if (tv.zip cur).any (fun p => decide (chgLim (calGroup k) / 16 ≤ absQ (p.1 - p.2))) then some (k, s3.boundaryTick, tv, false)
    else none)
  ((((s3.calMod (fun c => { c with waiting := putTargets c.waiting tgts })).showDef).showCal).wuDone 1)

/-- An estimate is rejected (R141). -/
def State.calReject (s : State) (i reason : Nat) : State :=
  let s1 := (((s.fsetB Reg.CAL_STAT_REJECT true).fset Reg.CAL_STAT_REASON reason).fset Reg.CAL_STAT_GROUP (calGroup i)).fset
    Reg.CAL_STAT_UNIT (calUnit i)
  let s2 := ((s1.evt Reg.CAL_EVT_REJECT).bump Reg.CAL_CNT_REJECTED).fault 0x0002 0xFF 0xFF 0
  (s2.estMod i (fun e => { e with due := none, passing := 0, tsum := 0 })).showDef

/-- Estimates agree with one another within the change limit (R142). -/
def agree (g : Nat) (l : List (List Rat)) : Bool :=
  l.all (fun a => l.all (fun b => (a.zip b).all (fun p => decide (absQ (p.1 - p.2) ≤ chgLim g))))

/-- An estimate formed is checked, accepted, rejected or relearned (R140 to R142): any other outcome ends a run of change-limit rejections. -/
def State.calJudge (s : State) (i : Nat) (t : Rat) (v se : List Rat) (single : Bool) : State :=
  let g := calGroup i
  let inf := interp i t s.cal.points
  match calReason g v inf se single with
  | 0 => s.calAccept i t v
  | 8 =>
    let rs := v :: (s.cal.ests.getD i {}).rejects
    let n := zeroAs1 (s.fget Reg.CAL_CFG0_RELEARN)
    if n ≤ rs.length && agree g (rs.take n) then (s.evt Reg.CAL_EVT_RELEARN).calAccept i t v
    else (s.calReject i 8).estMod i (fun e => { e with rejects := rs })
  | r => (s.calReject i r).estMod i (fun e => { e with rejects := [] })

/-- An estimate of a step pair is checked (R146, R152): its acceptance ends that pair's deferral. -/
def State.lnaJudge (s : State) (p k : Nat) (t : Rat) : State :=
  let i := calIdx 4 p
  let l := s.cal.lnaObs.getD (6 * p + k) []
  let v := modifyAt (interp i t s.cal.points) k (fun _ => meanQ l)
  let s1 := s.calJudge i t v (lnaSe l) (l.length == 1)
  if s1.flag Reg.CAL_STAT_REJECT then s1
  else (s1.calMod (fun c => { c with pairDef := modifyAt c.pairDef (6 * p + k) (fun _ => false) })).showDef

/-- CAL_ESTIMATE_DONE (R135, R140, R154): the wind-up task has solved a due estimate from EST_T passing ticks; for group 4 one pair's ratio,
the others keeping theirs, formed once at least 4 observations exist (R146). A converter powered down under G5 forms none (R155). `v` are its values before they are normalised and `se` their standard errors, in the units of R156. T_est is the mean T_cal of its passing
ticks; a pair's, which has none, is T_cal as it is formed (DESIGN CHOICE beside R145 and R146; log entry 84). With TRACK = 0 none is formed after power-up. -/
def execCalEstimateDone (g : Fin 7) (u : Fin 2) (pair : Fin 6) (v se : List Rat) (s : State) :
    Host.Outcome State Fault Refusal :=
  .next (
    let i := calIdx g u
    let e := s.cal.ests.getD i {}
    if !(s.flag Reg.CAL_CTRL_TRACK || s.flag Reg.CAL_STAT_PWRUP) || !s.calPowered i then s
    else if g.val = 4 then
      if (s.cal.lnaObs.getD (6 * u.val + pair.val) []).length < 4 then s else s.lnaJudge u pair s.tcal
    else if e.due.isSome && decide (zeroAs1 (s.fget Reg.CAL_CFG0_EST_T) ≤ e.passing) && decide (v.length = (interp i e.mean s.cal.points).length)
    then s.calJudge i e.mean (calNorm g v) se false
    else s)

/-- CAL_ABANDON (R139): WAIT ticks after the due time without EST_T passing ticks; silent for a converter in G5 (R155). -/
def execCalAbandon (g : Fin 7) (u : Fin 2) (s : State) : Host.Outcome State Fault Refusal :=
  .next (
    let i := calIdx g u
    let e := s.cal.ests.getD i {}
    match e.due with
    | none => s
    | some d =>
      if !s.calPowered i then (s.estMod i (fun e => { e with due := none, passing := 0, tsum := 0, esc := false })).showDef
      else if s.gatherEnd d ≤ s.time.tick ∧ e.passing < zeroAs1 (s.fget Reg.CAL_CFG0_EST_T) then
        (((s.estMod i (fun e => { e with due := none, passing := 0, tsum := 0, esc := false, rejects := [] })).evt Reg.CAL_EVT_ABANDON).bump
          Reg.CAL_CNT_ABANDONED).showDef
      else s)

/-- CAL_REEVALUATE (R147): at every boundary at which TB_TICK is a multiple of 3000, unless TICK_BOUNDARY has made the evaluation already. -/
def execCalReevaluate (s : State) : Host.Outcome State Fault Refusal :=
  .next (
    if s.cal.reeval = s.time.tick then s else (s.reevaluate []).showCal)

/-! ## Saves (R156 to R161) -/

/-- A save is due (R158). -/
def State.saveDue (s : State) : Bool :=
  !s.flag Reg.CAL_STAT_NOSAVE &&
  (s.cal.wanted || (s.flag Reg.CAL_CTRL_AUTOSAVE && s.cal.changed &&
    decide (s.cal.lastSave + 3000 * Nat.max 60 (s.fget Reg.CAL_CFG1_SAVE_INT) ≤ s.time.tick)))

/-- The sequence number of a slot, 0 where it holds no set. -/
def CalS.seqOf (c : CalS) (k : Nat) : Nat := ((c.saved.getD k none).map (·.1)).getD 0

/-- The slot that holds the newest set, none where neither does (R157). -/
def CalS.newest (c : CalS) : Option Nat :=
  match c.saved.getD 0 none, c.saved.getD 1 none with
  | none, none => none
  | some _, none => some 0
  | none, some _ => some 1
  | some a, some b => some (if a.1 < b.1 then 1 else 0)

/-! ### The data page (R156) -/

/-- A value as a signed two-byte field. -/
def calField (l : List Rat) (k : Nat) : List Byte := leBytes (calCode l k) 2

/-- One point in its 320-byte slot. -/
def CalPoint.bytes (p : CalPoint) : List Byte :=
  let il := fun u => ((List.range 16).map (fun i => ((List.range 4).map (fun g => calField (p.vec (calIdx g u)) i)).flatten)).flatten
  let lna := fun u => ((List.range 6).map (fun k => calField (p.vec (calIdx 4 u)) k)).flatten
  leBytes (code 16 p.temp) 2 ++ il 0 ++ il 1 ++ lna 0 ++ lna 1 ++ calField (p.vec 10) 0 ++ calField (p.vec 11) 0 ++ calField (p.vec 12) 0 ++
    List.replicate 32 0

/-- The data page of a set. -/
def calPage (devid seq : Nat) (ps : List CalPoint) : List Byte :=
  leBytes 0x534C4143 4 ++ leBytes 1 2 ++ leBytes ps.length 2 ++ leBytes devid 8 ++ leBytes seq 4 ++ List.replicate 44 0 ++
    (ps.map CalPoint.bytes).flatten

/-- The signed two-byte fields of a page at `n` places, `step` bytes apart, from offset `o`. -/
def fieldsAt (b : List Byte) (o step n : Nat) : List Rat := (List.range n).map (fun i => ((sgn 16 (leAt b (o + step * i) 2) : Int) : Rat))

/-- The point that a slot of a page spells; the ratios are unsigned. -/
def pointAt (b : List Byte) (o : Nat) : CalPoint :=
  let il := fun g u => fieldsAt b (o + 2 + 128 * u + 2 * g) 8 16
  let lna := fun u => (List.range 6).map (fun k => ((leAt b (o + 258 + 12 * u + 2 * k) 2 : Nat) : Rat))
  { temp := sgn 16 (leAt b o 2)
    vals := ((List.range 4).map (fun g => [il g 0, il g 1])).flatten ++
      [lna 0, lna 1, fieldsAt b (o + 282) 2 1, fieldsAt b (o + 284) 2 1, fieldsAt b (o + 286) 2 1] }

/-- The set a data page spells, where it qualifies: magic, format version and device ID (R159), and 1 to 8 points. -/
def calSetOf (devid : Nat) (b : List Byte) : Option (Nat × List CalPoint) :=
  let n := leAt b 6 2
  if leAt b 0 4 = 0x534C4143 ∧ leAt b 4 2 = 1 ∧ leAt b 8 8 = devid ∧ 1 ≤ n ∧ n ≤ 8 then
    some (leAt b 16 4, (List.range n).map (fun p => pointAt b (64 + 320 * p)))
  else none

/-- An ingot is a calibration set of a slot (R367, R368). -/
def IngotS.calSlot (i : IngotS) (k : Nat) : Bool := i.req.type == 0x30 && leAt i.req.fields 0 1 == k

/-- The index of the slots as mount builds it from the hallmarked copies (R159, R375): the newest ingot of each slot, where it qualifies. -/
def State.calIndex (s : State) : State :=
  let newest := fun k => (s.fst.ingots.filter (fun i => i.calSlot k)).foldl (fun (a : Option IngotS) i => match a with
    | none => some i
    | some j => if j.seq < i.seq then some i else some j) none
  s.calMod (fun c => { c with saved := (List.range 2).map (fun k => (newest k).bind (fun i => calSetOf s.otp.devid i.req.payload)) })

/-- The ingot of a set in slot `k` under sequence number `q` (R156); none where its hallmark could not be written. -/
def State.calPut (s : State) (ok : Bool) (k q : Nat) : State × Option Nat :=
  if ok && s.fstCanWrite then
    s.writeIngot { zone := 3, type := 0x30, fields := leBytes k 4 ++ leBytes q 4, payload := calPage s.otp.devid q s.cal.points } none
  else (s, none)

/-- A set whose ingot is durable is saved (R158, R370): its slot holds it, and SAVED is set. -/
def State.calSettle (s : State) : State :=
  match s.cal.undur with
  | none => s
  | some (n, k, q, ps) =>
    if s.fst.ingots.any (fun i => i.seq == n && i.durable) then
      (s.calMod (fun c => { c with saved := modifyAt c.saved k (fun _ => some (q, ps)), undur := none })).evt Reg.CAL_EVT_SAVED
    else s

/-- A save (R156 to R158): the slot that does not hold the newest set gets an ingot of one data page; the ingot it supersedes is gone, and the save complete, once the new
one is durable (R370). One that cannot be written, or whose hallmark was not (`ok`), is logged. -/
def State.calSaved (s : State) (ok : Bool) : State :=
  let k := match s.cal.newest with
    | some 0 => 1
    | _ => 0
  let q := (Nat.max (s.cal.seqOf 0) (s.cal.seqOf 1)) + 1
  match s.calPut ok k q with
  | (s1, some n) =>
    (s1.dropStale.calMod (fun c => { c with undur := some (n, k, q, c.points), changed := false, wanted := false, lastSave := s.time.tick })).calSettle
  | (_, none) => (s.evt Reg.CAL_EVT_SAVE_FAIL).fault 0x0002 0xFF 0xFF 0

/-- The save on entry to PARK or HIBERNATE where the set has changed (R158); whether its hallmark is written is open. -/
def State.calEntrySave (s : State) : State :=
  if s.flag Reg.CAL_CTRL_AUTOSAVE && s.cal.changed && !s.flag Reg.CAL_STAT_NOSAVE then
    let (f, s1) := s.free1
    s1.calSaved (f % 2 == 0)
  else s

/-- CAL_AUTOSAVE (R158): a due save is written; `ok` says whether its hallmark was. -/
def execCalAutosave (ok : Bool) (s : State) : Host.Outcome State Fault Refusal :=
  .next (if s.saveDue then s.calSaved ok else s)

/-- CAL_CTRL by the owner: START, SAVE and FACTORY act (R154, R158, R161). -/
def State.wrCalCtrl (s : State) (v : Word) : State :=
  let s0 := s.wr Reg.CAL_CTRL v
  let s1 := if bitOf v.toNat 31 && (s0.flag Reg.CAL_CTRL_TRACK || s0.flag Reg.CAL_STAT_PWRUP) then
      ((List.range 13).filter (fun i => s.calPowered i)).foldl (fun (x : State) i => x.estDue i true) s0 else s0
  let s2 := if bitOf v.toNat 30 then s1.calMod (fun c => { c with wanted := true }) else s1
  if bitOf v.toNat 29 then s2.request 0 (.reg Reg.CAL_CTRL v) else s2

/-- FACTORY at its boundary (R161). -/
def State.calFactory (s : State) : State :=
  let s1 := s.calMod (fun c => { c with points := c.factory, changed := true, waiting := [], slews := List.replicate 13 none })
  (s1.retarget true).showCal

/-! ## Power-up calibration (R151, R152) -/

/-- The step of hold `h` of the sweep: 0 to 6, then 6 to 0. -/
def sweepStep (h : Nat) : Nat := if h < 7 then h else 13 - h

/-- The sweep begins at the first tick after the first planned one, and PWRUP is set with the set loaded (R151, R159). -/
def State.sweepStart (s : State) : State :=
  (List.range 2).foldl (fun (x : State) p =>
    let y := { x with cal := { x.cal with before := modifyAt x.cal.before p (fun _ => x.gnow p) } }
    if y.gnow p = 0 then y.noStep p else (y.stepGain p 0 0).noStep p) s

/-- CAL_SWEEP_HOLD_END (R151, R152): a hold of a port's sweep ends at its boundary; `clip` and `peak` are what the hold showed,
`obs` the ratio observed at the change that began it, in 1/1024 dB, none where a window of it holds a clip. After the fourteenth the pairs are estimated, but for a converter
powered down under G5, whose pairs keep their ratios (R155). -/
def execCalSweepHoldEnd (p : Fin 2) (clip : Bool) (peak : Nat) (obs : Option Rat) (s : State) : Host.Outcome State Fault Refusal :=
  .next (
    let h := s.cal.hold.getD p 0
    if !s.flag Reg.CAL_STAT_PWRUP || decide (14 ≤ h) then s else
    let s1 := s.at ((s.boot.firstTick + 1 + 16 * (h + 1)) * tickStu)
    let em := s.cal.holdEm.getD p false
    let bad := clip || em
    let g := s1.gnow p
    let s2 := (match s1.cal.stepPair.getD p none, obs with
      | some k, some r => s1.lnaSeen p k r
      | _, _ => s1).stepSeen p none
    let s3 := s2.calMod (fun c => { c with
      hold := modifyAt c.hold p (fun n => n + 1), holdEm := modifyAt c.holdEm p (fun _ => false)
      holds := modifyAt c.holds p (fun l => l ++ [(bad, peak)]) })
    if h < 13 then
      let next := sweepStep (h + 1)
      if next = g then s3 else (s3.stepGain p next 0).noStep p
    else
      ((List.range 6).foldl (fun (x : State) k =>
        if (x.cal.lnaObs.getD (6 * p.val + k) []).isEmpty || !x.calPowered (calIdx 4 p) then
          x.calMod (fun c => { c with pairDef := modifyAt c.pairDef (6 * p.val + k) (fun _ => true) })
        else x.lnaJudge p k x.tcal) s3).showDef)

/-- The step the sweep chooses (R151): in AUTO the highest from GMIN to GMAX whose holds, both of them, showed no clips and PEAK below DN_PEAK, GMIN where none did
(DESIGN CHOICE, log entry 78); otherwise the step before the sweep. -/
def State.sweepGain (s : State) (p : Nat) : Nat :=
  if s.fget (Reg.FE_GAIN_GMODE p) = 0 then
    let hs := s.cal.holds.getD p []
    let good := fun g => (List.range 14).all (fun h => sweepStep h != g ||
      (match hs[h]? with
       | some (bad, pk) => !bad && decide (pk < s.dnPeak p)
       | none => false))
    Nat.max (s.gmin p) (maxN ((List.range 7).filter (fun g => good g && decide (g ≤ s.gmax p))))
  else s.cal.before.getD p 3

/-- CAL_GAIN_SET (R151): tick 225 after the first planned tick. -/
def execCalGainSet (p : Fin 2) (s : State) : Host.Outcome State Fault Refusal :=
  .next (
    if !s.flag Reg.CAL_STAT_PWRUP then s else
    let s1 := s.at ((s.boot.firstTick + 225) * tickStu)
    let g := s1.sweepGain p
    if g = s1.gnow p then s1 else (s1.stepGain p g 0).noStep p)

/-- CAL_PWRUP_END (R151): tick 750 after the first planned tick. -/
def execCalPwrupEnd (s : State) : Host.Outcome State Fault Refusal :=
  .next (
    if !s.flag Reg.CAL_STAT_PWRUP then s else
    let s1 := s.at ((s.boot.firstTick + 750) * tickStu)
    let s2 := (s1.fsetB Reg.CAL_STAT_PWRUP false).evt Reg.CAL_EVT_PWRUP_DONE
    ((List.range 13).foldl (fun (x : State) i =>
      x.estMod i (fun e => { e with due := none, passing := 0, tsum := 0, deferred := e.deferred || decide (e.lastAccept = 0) })) s2).showDef)

/-- The calibration at the first planned tick (R151, R159, R160): the set found is loaded and every group is gathered. -/
def State.calStart (s : State) : State :=
  let nosave := s.fget Reg.FST_STAT_STATE != 3 || s.tmiss
  let s := if nosave then s else s.calIndex
  let src := if nosave then none else s.cal.newest
  let ps := match src with
    | some k => ((s.cal.saved.getD k none).map (·.2)).getD s.cal.factory
    | none => s.cal.factory
  let s1 := (s.calMod (fun c => { c with
    points := ps, hold := [0, 0], holds := [[], []], holdEm := [false, false],
    lnaObs := List.replicate 12 [], pairDef := List.replicate 12 false, slews := List.replicate 13 none, waiting := [] })).fsetB Reg.CAL_STAT_PWRUP true
  let s2 := ((s1.fsetB Reg.CAL_STAT_NOSAVE nosave).fset Reg.CAL_STAT_SRC ((src.map (· + 1)).getD 0)).retarget true
  let s3 := ((List.range 13).filter (fun i => calGroup i != 4)).foldl (fun (x : State) i => x.estDue i false) s2
  s3.showCal

end Sys2Proof.Machine
end

