-- ==== Sys2Proof/Machine/Crypto.lean ====
section
/-!
DEFINITION. AES-256-GCM (FIPS 197, SP 800-38D) and the check of an ECDSA P-256 signature (FIPS 186-4), which R232 names and does not restate (log
entry 12).
-/

namespace Sys2Proof.Machine

/-! ## Fields of characteristic 2 -/

/-- The product of `a` and x in the field of degree `deg` of a polynomial. -/
def gfStep (poly deg a : Nat) : Nat := if bitOf (2 * a) deg then 2 * a ^^^ poly else 2 * a

/-- The product of `a` and the low `n` bits of `b`. -/
def gfMulN (poly deg : Nat) : Nat → Nat → Nat → Nat
  | 0, _, _ => 0
  | n + 1, a, b => (if b % 2 = 1 then a else 0) ^^^ gfMulN poly deg n (gfStep poly deg a) (b / 2)

/-- The product in the field. -/
def gfMul (poly deg a b : Nat) : Nat := gfMulN poly deg deg a b

/-- A power, of an exponent below 2^`n`. -/
def gfPow (poly deg : Nat) : Nat → Nat → Nat → Nat
  | 0, _, _ => 1
  | n + 1, a, e =>
    let h := gfPow poly deg n (gfMul poly deg a a) (e / 2)
    if e % 2 = 1 then gfMul poly deg a h else h

/-! ## AES-256 -/

/-- The product of two bytes. -/
def aesMul (a b : Nat) : Nat := gfMul 0x11B 8 a b

/-- A byte turned left by `k` bits. -/
def turn8 (a k : Nat) : Nat := a * 2 ^ k % 256 + a / 2 ^ (8 - k)

/-- The S-box: the inverse, then the affine map. -/
def aesSub (a : Nat) : Nat :=
  let b := gfPow 0x11B 8 8 a 254
  b ^^^ turn8 b 1 ^^^ turn8 b 2 ^^^ turn8 b 3 ^^^ turn8 b 4 ^^^ 0x63

/-- Two byte lists added. -/
def xorL (a b : List Nat) : List Nat := List.zipWith (· ^^^ ·) a b

/-- Word `i` of the key schedule from the words before it, newest first. -/
def aesKeyWord (i : Nat) (l : List (List Nat)) : List Nat :=
  let t := l.headD []
  let u :=
    if i % 8 = 0 then xorL ((t.drop 1 ++ t.take 1).map aesSub) [gfPow 0x11B 8 8 2 (i / 8 - 1), 0, 0, 0]
    else if i % 8 = 4 then t.map aesSub else t
  xorL (l.getD 7 []) u

/-- The 60 words of the key schedule, oldest first. -/
def aesKeys (key : List Nat) : List (List Nat) :=
  ((List.range 52).foldl (fun l i => aesKeyWord (i + 8) l :: l) ((List.range 8).map (fun i => (key.drop (4 * i)).take 4)).reverse).reverse

/-- One column through MixColumns. -/
def aesMix (c : List Nat) : List Nat :=
  (List.range 4).map (fun i =>
    let g := fun j => c.getD ((i + j) % 4) 0
    aesMul 2 (g 0) ^^^ aesMul 3 (g 1) ^^^ g 2 ^^^ g 3)

/-- The state after SubBytes and ShiftRows. -/
def aesShift (s : List Nat) : List Nat := (List.range 16).map (fun i => aesSub (s.getD ((i + 4 * (i % 4)) % 16) 0))

/-- The state after MixColumns. -/
def aesColumns (s : List Nat) : List Nat := ((List.range 4).map (fun c => aesMix ((s.drop (4 * c)).take 4))).flatten

/-- One block of 16 bytes under a key schedule. -/
def aesBlock (w : List (List Nat)) (b : List Nat) : List Nat :=
  let k := fun r => ((w.drop (4 * r)).take 4).flatten
  let s := (List.range 13).foldl (fun s r => xorL (aesColumns (aesShift s)) (k (r + 1))) (xorL b (k 0))
  xorL (aesShift s) (k 14)

/-! ## GCM -/

/-- The bits of a number below 2^`n` in the other order. -/
def flipBits : Nat → Nat → Nat
  | 0, _ => 0
  | n + 1, a => (a % 2) * 2 ^ n + flipBits n (a / 2)

/-- GHASH of whole blocks under the key `h`: both as polynomials whose first coefficient is the first bit. -/
def ghash (h : Nat) (l : List Byte) : Nat :=
  (List.range (l.length / 16)).foldl (fun y i =>
    gfMul (2 ^ 128 + 0x87) 128 (y ^^^ flipBits 128 (ofBe (slice l (16 * i) 16))) h) 0

/-- Bytes padded with zeros to whole blocks. -/
def pad16 (l : List Byte) : List Byte := l ++ List.replicate (roundUp l.length 16 - l.length) 0

/-- The key stream of block `i` for a 12-byte IV. -/
def gcmStream (w : List (List Nat)) (iv : List Byte) (i : Nat) : List Byte :=
  (aesBlock w ((iv ++ beBytes i 4).map (·.toNat))).map (BitVec.ofNat 8)

/-- A message under the key stream from block 2 on. -/
def gcmCrypt (w : List (List Nat)) (iv m : List Byte) : List Byte :=
  List.zipWith (· ^^^ ·) m ((List.range (ceilDiv m.length 16)).map (fun i => gcmStream w iv (i + 2))).flatten

/-- The tag of a ciphertext and its additional data. -/
def gcmTag (w : List (List Nat)) (iv aad c : List Byte) : List Byte :=
  let h := flipBits 128 (ofBe ((aesBlock w (List.replicate 16 0)).map (BitVec.ofNat 8)))
  let y := ghash h (pad16 aad ++ pad16 c ++ beBytes (8 * aad.length) 8 ++ beBytes (8 * c.length) 8)
  List.zipWith (· ^^^ ·) (beBytes (flipBits 128 y) 16) (gcmStream w iv 1)

/-- AES-256-GCM encryption: key, IV followed by the additional data, message. -/
def gcmSeal (key iv m : List Byte) : List Byte :=
  let w := aesKeys (key.map (·.toNat))
  let c := gcmCrypt w (iv.take 12) m
  c ++ gcmTag w (iv.take 12) (iv.drop 12) c

/-- AES-256-GCM decryption of a ciphertext and its tag; none where the tag differs. -/
def gcmOpen (key iv m : List Byte) : Option (List Byte) :=
  let w := aesKeys (key.map (·.toNat))
  let c := m.take (m.length - 16)
  if gcmTag w (iv.take 12) (iv.drop 12) c = m.drop (m.length - 16) then some (gcmCrypt w (iv.take 12) c) else none

/-! ## ECDSA P-256 -/

/-- The prime of the field. -/
def p256P : Nat := 2 ^ 256 - 2 ^ 224 + 2 ^ 192 + 2 ^ 96 - 1

/-- The order of the base point. -/
def p256N : Nat := 0xFFFFFFFF00000000FFFFFFFFFFFFFFFFBCE6FAADA7179E84F3B9CAC2FC632551

/-- The constant b of the curve. -/
def p256B : Nat := 0x5AC635D8AA3A93E7B3EBBD55769886BC651D06B0CC53B0F63BCE3C3E27D2604B

/-- The base point. -/
def p256G : Nat × Nat :=
  (0x6B17D1F2E12C4247F8BCE6E563A440F277037D812DEB33A0F4A13945D898C296, 0x4FE342E2FE1A7F9B8EE7EB4A7C0F9E162BCE33576B315ECECBB6406837BF51F5)

/-- A power modulo `m`, of an exponent below 2^`k`. -/
def powMod (m : Nat) : Nat → Nat → Nat → Nat
  | 0, _, _ => 1
  | k + 1, b, e =>
    let h := powMod m k (b * b % m) (e / 2)
    if e % 2 = 1 then b * h % m else h

/-- The inverse modulo a prime below 2^256. -/
def invMod (m a : Nat) : Nat := powMod m 256 (a % m) (m - 2)

/-- The point on the line of slope `l` through two points. -/
def p256Line (l x1 y1 x2 : Nat) : Nat × Nat :=
  let p := p256P
  let x := (l * l + 2 * p - x1 - x2) % p
  (x, (l * (x1 + p - x) + p - y1) % p)

/-- The sum of two points; none is the point at infinity. -/
def p256Add (a b : Option (Nat × Nat)) : Option (Nat × Nat) :=
  let p := p256P
  match a, b with
  | none, y => y
  | x, none => x
  | some (x1, y1), some (x2, y2) =>
    if x1 = x2 then
      if (y1 + y2) % p = 0 then none
      else some (p256Line ((3 * x1 * x1 + p - 3) * invMod p (2 * y1) % p) x1 y1 x2)
    else some (p256Line ((y2 + p - y1) * invMod p (x2 + p - x1) % p) x1 y1 x2)

/-- A multiple of a point, by a number below 2^`k`. -/
def p256Mul : Nat → Nat → Option (Nat × Nat) → Option (Nat × Nat)
  | 0, _, _ => none
  | k + 1, e, a =>
    let h := p256Mul k (e / 2) (p256Add a a)
    if e % 2 = 1 then p256Add a h else h

/-- A signature r || s over a digest verifies under the public key x || y, all big-endian (R232). -/
def ecdsaOk (key digest rs : List Byte) : Bool :=
  let (x, y) := (ofBe (key.take 32), ofBe (key.drop 32))
  let (r, t) := (ofBe (rs.take 32), ofBe (rs.drop 32))
  let w := invMod p256N t
  let on := decide (x < p256P) && decide (y < p256P) && (y * y) % p256P == (x * x * x + (p256P - 3) * x + p256B) % p256P
  on && decide (0 < r) && decide (r < p256N) && decide (0 < t) && decide (t < p256N) &&
    (match p256Add (p256Mul 256 (ofBe digest * w % p256N) (some p256G)) (p256Mul 256 (r * w % p256N) (some (x, y))) with
      | some q => q.1 % p256N == r
      | none => false)

end Sys2Proof.Machine
end

