-- ==== Sys2Proof/Machine/Decoders.lean ====
section
/-!
DEFINITION. What the FFT, Viterbi, RS/BCH and finder units compute (R226, R227, R229 to R231).
-/

namespace Sys2Proof.Machine

/-! ## Bits and samples (R226) -/

/-- The first `n` bits of a packed array: the first bit in bit 7 of byte 0 (R226). -/
def bitsOf (l : List Byte) (n : Nat) : List Bool := (List.range n).map (fun i => bitOf ((l.getD (i / 8) 0).toNat) (7 - i % 8))

/-- Byte `i` as a signed number: a log-likelihood ratio, positive where 0 is the likelier (R226). -/
def llrAt (l : List Byte) (i : Nat) : Int := (l.getD i 0).toInt

/-- The `n` c16 samples of an array. -/
def samplesOf (l : List Byte) (n : Nat) : List (Int × Int) :=
  (List.range n).map (fun i => (sgn 16 (leAt l (4 * i) 2), sgn 16 (leAt l (4 * i + 2) 2)))

/-! ## FFT (R227) -/

/-- A sum of rationals. -/
def sumQ (l : List Rat) : Rat := l.foldl (· + ·) 0

/-- Output `k` of the transform of 2^lg windowed samples, before the scaling: `inv` turns the exponent. -/
def fftSum (lg : Nat) (inv : Bool) (x : List (Rat × Rat)) (k : Nat) : Rat × Rat :=
  let n := 2 ^ lg
  let w := fun i => (if inv then k * i % n else (n - k * i % n) % n) * 2 ^ (32 - lg)
  let term := fun (i : Nat) => let p := x.getD i (0, 0); (p.1 * phaseCos (w i) - p.2 * phaseSin (w i), p.1 * phaseSin (w i) + p.2 * phaseCos (w i))
  let l := (List.range n).map term
  (sumQ (l.map (·.1)), sumQ (l.map (·.2)))

/-- What the unit's rounding adds to a component: open, but at most one unit for each of the log₂N stages, which each round once (R227; DEDUCED, log entry 18). -/
def fftSlip (d : List Byte) (ins : List (List Byte)) (i : Nat) : Int :=
  let m : Int := ((leAt d 16 2 : Nat) : Int)
  let e := Config.fftError d ins i
  if e < -m then -m else if m < e then m else e

/-- One component of an output: the transform shifted right, and what the unit's rounding adds. -/
def fftOut (d : List Byte) (ins : List (List Byte)) (shift i : Nat) (q : Rat) : List Byte :=
  leBytes (code 16 (satS 16 (roundAway (q / ((2 ^ shift : Nat) : Rat)) + fftSlip d ins i))) 2

/-- RESULT and the bytes of an FFT (R227): a Q15 window where one is named; scaled by 1/N, or by the total right shift that RESULT returns. -/
def fftJob (d : List Byte) (ins : List (List Byte)) : Nat × List Byte :=
  let lg := leAt d 16 2
  let n := 2 ^ lg
  let win := fun i => match ins with
    | _ :: w :: _ => ((sgn 16 (leAt w (2 * i) 2) : Int) : Rat) / 32768
    | _ => 1
  let res := Config.jobResult 0 d ins
  let shift := if leAt d 19 1 = 0 then lg else res % (lg + 1)
  let smp := samplesOf (ins.headD []) n
  let x := (List.range n).map (fun i => let p := smp.getD i (0, 0); (win i * (p.1 : Rat), win i * (p.2 : Rat)))
  (if leAt d 19 1 = 0 then res else shift,
    ((List.range n).map (fun k => let y := fftSum lg (leAt d 18 1 == 1) x k; fftOut d ins shift (2 * k) y.1 ++ fftOut d ins shift (2 * k + 1) y.2)).flatten)

/-! ## Viterbi (R229) -/

/-- The LLRs of the coded bits from the `t`-th on: the transmitted ones in order, 0 for each bit the mask leaves out (R229). -/
def depuncture (mask size : Nat) (l : List Byte) : Nat → Nat → Nat → List Int
  | 0, _, _ => []
  | m + 1, t, i => if bitOf mask (t % size) then llrAt l i :: depuncture mask size l m (t + 1) (i + 1) else 0 :: depuncture mask size l m (t + 1) i

/-- The parity of the bits of a number below 128. -/
def parity7 (a : Nat) : Bool := sumN ((List.range 7).map (fun i => b2n (bitOf a i))) % 2 == 1

/-- What a step with the seven inputs `reg`, the newest in bit 0, adds to the metric of a path. -/
def branchGain (gens : List Nat) (llr : List Int) (reg : Nat) : Int :=
  (List.range gens.length).foldl (fun a j => if parity7 (gens.getD j 0 &&& reg) then a - llr.getD j 0 else a + llr.getD j 0) 0

/-- A path that has survived: its metric and its inputs, newest first. -/
abbrev Survivor := Option (Int × List Bool)

/-- The likelier of two paths; `tie` decides between equals, which the spec leaves open. -/
def likelier (tie : Bool) (a b : Survivor) : Survivor :=
  match a, b with
  | none, y => y
  | x, none => x
  | some x, some y => if x.1 < y.1 ∨ (x.1 = y.1 ∧ tie = true) then some y else some x

/-- One step of the 64 states. -/
def viterbiStep (gens : List Nat) (llr : List Int) (tie : Nat → Bool) (l : List Survivor) : List Survivor :=
  (List.range 64).map (fun ns =>
    let from_ := fun (reg : Nat) => (l.getD (reg / 2) none).map (fun p => (p.1 + branchGain gens llr reg, bitOf ns 0 :: p.2))
    likelier (tie ns) (from_ ns) (from_ (ns + 64)))

/-- The survivors after `k` steps from state `st`. -/
def viterbiRun (gens : List Nat) (llr : List Int) (tie : Nat → Bool) (k st : Nat) : List Survivor :=
  (List.range k).foldl (fun l i => viterbiStep gens ((llr.drop (i * gens.length)).take gens.length) (fun ns => tie (64 * i + ns)) l)
    ((List.range 64).map (fun n => if n = st then some (0, []) else none))

/-- The decoded bits (R229): the likeliest path from state 0 to state 0 through the tail, round a tail-biting code, or from state 0 to any state. -/
def viterbiBits (gens : List Nat) (llr : List Int) (tie : Nat → Bool) (term cnt : Nat) : List Bool :=
  let best := fun (l : List Survivor) => l.foldl (likelier (tie 0)) none
  let r :=
    if term = 0 then (viterbiRun gens llr tie (cnt + 6) 0).getD 0 none
    else if term = 1 then best ((List.range 64).map (fun st => (viterbiRun gens llr tie cnt st).getD st none))
    else best (viterbiRun gens llr tie cnt 0)
  ((r.map (·.2)).getD []).reverse.take cnt

/-- The bytes of a Viterbi job. -/
def viterbiJob (d : List Byte) (ins : List (List Byte)) : List Byte :=
  let (n, term, per, cnt) := (leAt d 20 1, leAt d 21 1, leAt d 22 1, leAt d 28 4)
  let total := n * (cnt + (if term = 0 then 6 else 0))
  let llr := depuncture (leAt d 24 4) (per * n) (ins.headD []) total 0 0
  packBits (viterbiBits ((List.range n).map (fun i => leAt d (16 + i) 1)) llr (fun i => bitOf (Config.jobByte 2 d ins i).toNat 0) term cnt)

/-! ## Reed-Solomon and BCH (R230) -/

/-- The word as a polynomial, its first symbol the highest coefficient, at a point of the field. -/
def polyAt (poly deg x : Nat) (l : List Nat) : Nat := l.foldl (fun a c => gfMul poly deg a x ^^^ c) 0

/-- A word of the code whose consecutive roots are the powers `first` to `first` + `m` - 1 of x. -/
def inCode (poly deg first m : Nat) (l : List Nat) : Bool :=
  (List.range m).all (fun i => polyAt poly deg (gfPow poly deg 20 2 (first + i)) l == 0)

/-- A word within `t` changes of symbols below `q` of the one given for which `ok` holds; the word so far stands reversed in `done`. -/
def nearest (q : Nat) (ok : List Nat → Bool) : Nat → List Nat → List Nat → Option (List Nat)
  | _, done, [] => if ok done.reverse then some done.reverse else none
  | 0, done, x :: l => nearest q ok 0 (x :: done) l
  | t + 1, done, x :: l =>
    match nearest q ok (t + 1) (x :: done) l with
    | some r => some r
    | none => (List.range q).findSome? (fun y => if y = x then none else nearest q ok t (y :: done) l)

/-- The symbols in which two words differ. -/
def distanceOf (a b : List Nat) : Nat := (List.zipWith (fun x y => b2n (x != y)) a b).foldl (· + ·) 0

/-- The fields of the three families: the polynomial where the descriptor names none, and its degree (R230; log entry 18). -/
def rsField (fam : Nat) : Nat × Nat := [(0x11D, 8), (0x402B, 14), (0x1002D, 16)].getD fam (0x11D, 8)

/-- One codeword decoded: its data symbols, the symbols corrected, and whether it was uncorrectable (R230). -/
def rsWord (fam t k first poly : Nat) (l : List Nat) : List Nat × Nat × Bool :=
  let p := if poly = 0 then (rsField fam).1 else poly
  let ok := inCode p (rsField fam).2 (if fam = 0 then first else 1) (2 * t)
  match nearest (if fam = 0 then 256 else 2) ok t [] l with
  | some c => (c.take k, distanceOf c l, false)
  | none => (l.take k, 0, true)

/-- STATUS's failure, RESULT and the bytes of an RS/BCH job (R230). -/
def rsJob (d : List Byte) (ins : List (List Byte)) : Bool × Nat × List Byte :=
  let (fam, t, n, k) := (leAt d 16 1, leAt d 17 1, leAt d 18 2, leAt d 20 2)
  let size := if fam = 0 then n else ceilDiv n 8
  let words := (List.range (leAt d 22 2)).map (fun i =>
    let b := slice (ins.headD []) (size * i) size
    rsWord fam t k (leAt d 24 1) (leAt d 25 3) (if fam = 0 then b.map (·.toNat) else (bitsOf b n).map b2n))
  (words.any (·.2.2), sumN (words.map (·.2.1)),
    (words.map (fun w => if fam = 0 then w.1.map (BitVec.ofNat 8) else packBits (w.1.map (· == 1)))).flatten)

/-! ## The finder (R231) -/

/-- The sum at offset `m` against the reference. -/
def finderSum (x r : List (Int × Int)) (m : Nat) : Int × Int :=
  (List.zip (x.drop m) r).foldl (fun a p =>
    (a.1 + p.1.1 * p.2.1 + p.1.2 * p.2.2, a.2 + p.1.2 * p.2.1 - p.1.1 * p.2.2)) (0, 0)

/-- The energy of samples. -/
def energyOf (l : List (Int × Int)) : Int := l.foldl (fun a p => a + p.1 * p.1 + p.2 * p.2) 0

/-- c(m) squared; 0 where a norm is 0. -/
def finderSq (x r : List (Int × Int)) (m : Nat) : Rat :=
  let s := finderSum x r m
  let e := energyOf ((x.drop m).take r.length) * energyOf r
  if e = 0 then 0 else (((s.1 * s.1 + s.2 * s.2 : Int)) : Rat) / (e : Rat)

/-- An offset put among others, the largest c first, the lower offset first of equals. -/
def insPeak (f : Nat → Rat) (m : Nat) : List Nat → List Nat
  | [] => [m]
  | k :: l => if f k < f m then m :: k :: l else k :: insPeak f m l

/-- The phase of a sum, in units of 2^-16 turns: the unit on which it projects the furthest. -/
def phaseOf (s : Int × Int) : Nat :=
  ((List.range 65536).foldl (fun (b : Nat × Rat) p =>
    let v : Rat := (s.1 : Rat) * phaseCos (65536 * p) + (s.2 : Rat) * phaseSin (65536 * p)
    if b.2 < v then (p, v) else b) (0, (s.1 : Rat))).1

/-- RESULT and the bytes of a finder job (R231). -/
def finderJob (d : List Byte) (ins : List (List Byte)) : Nat × List Byte :=
  let (rl, most, xl) := (leAt d 18 2, leAt d 26 2, leAt d 28 4)
  let thr : Int := sgn 16 (leAt d 24 2)
  let x := samplesOf (ins.headD []) xl
  let refs := ins.getD 1 []
  let r := if leAt d 16 1 = 0 then samplesOf refs rl else (bitsOf refs rl).map (fun b => if b then (-1, 0) else (1, 0))
  let f := finderSq x r
  let peak := fun m => (thr ≤ 0 ∨ (((thr * thr : Int) : Rat) / 1073741824 ≤ f m ∧ 0 < f m)) ∧ (m = 0 ∨ f (m - 1) < f m) ∧ (xl < m + 1 + rl ∨ f (m + 1) ≤ f m)
  let l := (((List.range (xl + 1 - rl)).filter (fun m => decide (peak m))).foldl (fun a m => insPeak f m a) []).take most
  (l.length, (l.map (fun m =>
    leBytes m 4 ++ leBytes (satTo 32767 ((isqrt (4294967296 * f m).floor.toNat + 1) / 2)) 2 ++ leBytes (phaseOf (finderSum x r m)) 2)).flatten)

end Sys2Proof.Machine
end

