-- ==== Sys2Proof/Machine/Frames.lean ====
section
/-!
DEFINITION. The link framing of burst reception (R290, R298, R299, R305): start conditions, end conditions, check bits and payloads, computed from the bits
a channel decodes, in the order in which they are received. What the standards named in R290 lay down beyond the spec's words is PRESUMED from them (log entry 83).
-/

namespace Sys2Proof.Machine

/-! ## Bits -/

/-- Bits as a number, the first the most significant. -/
def msbFirst (l : List Bool) : Nat := l.foldl (fun a b => 2 * a + b2n b) 0

/-- Bits as a number, the first the least significant. -/
def lsbFirst (l : List Bool) : Nat := l.foldr (fun b a => b2n b + 2 * a) 0

/-- One bit through a check register that shifts right. -/
def crcRight (poly c : Nat) (b : Bool) : Nat := if (c + b2n b) % 2 = 1 then (c / 2) ^^^ poly else c / 2

/-- One bit through a check register of `w` bits that shifts left. -/
def crcLeft (w poly c : Nat) (b : Bool) : Nat :=
  let d := 2 * c % 2 ^ w
  if c / 2 ^ (w - 1) + b2n b = 1 then d ^^^ poly else d

/-! ## AIS: HDLC framing (R290, R299) -/

/-- A frame under way: ones in a row, the bits without the stuffed ones, and whether a flag or seven ones have ended it. -/
structure Hdlc where
  ones : Nat := 0
  out : List Bool := []
  flag : Bool := false
  abort : Bool := false
deriving DecidableEq, Repr

/-- The next bit of a frame. -/
def Hdlc.bit (h : Hdlc) (b : Bool) : Hdlc :=
  if h.flag || h.abort then h
  else if b then
    if h.ones = 6 then { h with abort := true }
    else { h with ones := h.ones + 1, out := if h.ones = 5 then h.out else h.out ++ [true] }
  else if h.ones = 6 then { h with flag := true, out := h.out.take (h.out.length - 6) }
  else { h with ones := 0, out := if h.ones = 5 then h.out else h.out ++ [false] }

/-- A frame after the start flag. -/
def hdlc (raw : List Bool) : Hdlc := raw.foldl Hdlc.bit {}

/-- The frame check sequence of a frame without its stuffed bits. -/
def fcsGood (l : List Bool) : Bool := l.foldl (crcRight 0x8408) 0xFFFF == 0xF0B8

/-- An AIS reception ends with the last of these bits (R298, R299): whether its frame checks. -/
def aisEnd (raw : List Bool) : Option Bool :=
  let before := hdlc raw.dropLast
  let h := hdlc raw
  if before.flag || before.abort then none
  else if h.flag then some (fcsGood h.out)
  else if h.abort then some false
  else none

/-- The payload of an AIS reception (R305): the unstuffed bits between the flags, FCS excluded; without a second flag the unstuffed bits so far. -/
def aisPayload (raw : List Bool) : List Bool :=
  let h := hdlc raw
  if h.flag then h.out.take (h.out.length - 16) else h.out

/-! ## DSC: symbols of ten bits (R290, R299) -/

/-- The symbols of ten bits, each whole. -/
def symbols (raw : List Bool) : List (List Bool) := (List.range (raw.length / 10)).map (fun i => (raw.drop (10 * i)).take 10)

/-- A symbol's information, of its first seven bits the first the least significant. -/
def symValue (l : List Bool) : Nat := lsbFirst (l.take 7)

/-- A symbol's check bits are valid: they count the zeros among its information bits. -/
def symValid (l : List Bool) : Bool := l.length == 10 && msbFirst (l.drop 7) == ((l.take 7).filter (fun b => !b)).length

/-- The symbol that the phasing sequence has in a place: 125 in DX positions, 111 down to 104 in RX positions. -/
def phasing (k : Nat) : Option Nat :=
  if k % 2 = 0 then (if k < 12 then some 125 else none) else if k < 16 then some (111 - k / 2) else none

/-- The symbols of `l`, the newest first, that stand in their places where the newest is in place `k`. -/
def inPlaces (k : Nat) (l : List (List Bool)) : List Nat :=
  (List.range (Nat.min (k + 1) l.length)).filter (fun i => symValid (l.getD i []) && some (symValue (l.getD i [])) == phasing (k - i))

/-- Three phasing symbols have been decoded in their places, the newest with the last of these bits; answers whether the next symbol lies in a DX position. -/
def dscStart (raw : List Bool) : Option Bool :=
  let l := (symbols (raw.drop (raw.length % 10))).reverse
  ((List.range 16).find? (fun k => (inPlaces k l).length == 3 && (inPlaces k l).headD 1 == 0)).map (fun k => k % 2 == 1)

/-- An end-of-sequence symbol. -/
def isEos (l : List Bool) : Bool := symValid l && (symValue l == 117 || symValue l == 122 || symValue l == 127)

/-- A DSC reception ends with the last of these bits: the sixth symbol after the first EOS symbol in a DX position. `dx` says that the first symbol lies in one. -/
def dscEnd (dx : Bool) (raw : List Bool) : Option Bool :=
  let l := symbols raw
  match (List.range l.length).find? (fun i => (i % 2 == 0) == dx && isEos (l.getD i [])) with
  | some i => if raw.length = 10 * (i + 7) then some (l.all symValid) else none
  | none => none

/-- The payload of a DSC reception (R305): one 16-bit word for each symbol, as received in [9:0], the first bit in bit 0, and [15] for valid check bits. -/
def dscPayload (raw : List Bool) : List Byte :=
  ((symbols raw).map (fun l => leBytes (lsbFirst l + (if symValid l then 32768 else 0)) 2)).flatten

/-! ## Generic bursts (R290, R299) -/

/-- The bit errors of the newest bits against the sync word, its first bit in bit 31 (R309). -/
def syncErrors (len : Nat) (word : Word) (raw : List Bool) : Nat :=
  ((List.range len).filter (fun i => (raw.drop (raw.length - len)).getD i false != word.getLsbD (31 - i))).length

/-- The last bits check (R299): CRC 1 the 16 bits of CRC-16-CCITT, CRC 2 the 32 bits of CRC-32, any other none. -/
def genCheck (crc : Nat) (raw : List Bool) : Bool :=
  if crc = 1 then
    decide (16 ≤ raw.length) && (raw.take (raw.length - 16)).foldl (crcLeft 16 0x1021) 0xFFFF == msbFirst (raw.drop (raw.length - 16))
  else if crc = 2 then
    decide (32 ≤ raw.length) &&
      4294967295 - (raw.take (raw.length - 32)).foldl (crcLeft 32 0x04C11DB7) 0xFFFFFFFF == msbFirst (raw.drop (raw.length - 32))
  else true

end Sys2Proof.Machine
end

