-- ==== Sys2Proof/Machine/Memory.lean ====
section
/-!
DEFINITION. The sparse byte memories of the engines and the store (R166, R168): addresses strictly rising, no byte 0 listed, an
unlisted byte reads 0.
-/

namespace Sys2Proof.Machine

/-- The byte at an address. -/
def memGet (m : Mem) (a : Nat) : Byte :=
  match m with
  | [] => 0
  | (b, v) :: t => if b = a then v else memGet t a

/-- The memory with a byte other than 0 at its place. -/
def memPut (m : Mem) (a : Nat) (v : Byte) : Mem :=
  match m with
  | [] => [(a, v)]
  | (b, w) :: t => if a < b then (a, v) :: (b, w) :: t else if a = b then (a, v) :: t else (b, w) :: memPut t a v

/-- The memory after a byte is written: a byte 0 is not listed. -/
def memSet (m : Mem) (a : Nat) (v : Byte) : Mem :=
  if v = 0 then m.filter (fun p => p.1 != a) else memPut m a v

/-- The canonical form: addresses strictly rising, no byte 0. -/
def memWf (m : Mem) : Bool :=
  match m with
  | [] => true
  | [(_, v)] => decide (v ≠ 0)
  | (a, v) :: (b, w) :: t => decide (v ≠ 0) && decide (a < b) && memWf ((b, w) :: t)

/-- `n` bytes from `a`. -/
def memRead (m : Mem) (a n : Nat) : List Byte := (List.range n).map (fun i => memGet m (a + i))

/-- The memory after bytes are written from `a` on. -/
def memWrite (m : Mem) (a : Nat) (l : List Byte) : Mem :=
  match l with
  | [] => m
  | b :: t => memWrite (memSet m a b) (a + 1) t

/-- A memory that holds only these bytes, from `a` on. -/
def memOf (a : Nat) (l : List Byte) : Mem :=
  match l with
  | [] => []
  | b :: t => if b = 0 then memOf (a + 1) t else (a, b) :: memOf (a + 1) t

/-- The part of a memory in [lo, hi). -/
def memPart (m : Mem) (lo hi : Nat) : Mem := m.filter (fun p => decide (lo ≤ p.1) && decide (p.1 < hi))

end Sys2Proof.Machine
end

