-- ==== Sys2Proof/Machine/Cert.lean ====
section
/-!
DEFINITION. The device's certificate chain (R329): X.509 v3 in DER (RFC 5280; log entry 9).
-/

namespace Sys2Proof.Machine

/-- A DER length. -/
def derLen (n : Nat) : List Byte :=
  if n < 128 then [BitVec.ofNat 8 n] else if n < 256 then 0x81 :: beBytes n 1 else 0x82 :: beBytes n 2

/-- A DER item of a tag. -/
def der (tag : Byte) (l : List Byte) : List Byte := tag :: (derLen l.length ++ l)

/-- A DER sequence of items. -/
def derSeq (l : List (List Byte)) : List Byte := der 0x30 l.flatten

/-- A positive DER integer of at most 16 bytes: without leading zeros, with one where the top bit is set. -/
def derInt (n : Nat) : List Byte :=
  let b := (beBytes n 16).dropWhile (· == 0)
  der 0x02 (if b.isEmpty || (128 : Byte) ≤ b.headD 0 then 0 :: b else b)

/-- A text as its ASCII bytes. -/
def ascii (s : String) : List Byte := s.toList.map (fun c => BitVec.ofNat 8 c.toNat)

/-- ecdsa-with-SHA256, id-ecPublicKey and prime256v1 as object identifiers. -/
def oidEcdsa : List Byte := der 0x06 [0x2A, 0x86, 0x48, 0xCE, 0x3D, 0x04, 0x03, 0x02]
@[inherit_doc oidEcdsa]
def oidEc : List Byte := der 0x06 [0x2A, 0x86, 0x48, 0xCE, 0x3D, 0x02, 0x01]
@[inherit_doc oidEcdsa]
def oidP256 : List Byte := der 0x06 [0x2A, 0x86, 0x48, 0xCE, 0x3D, 0x03, 0x01, 0x07]

/-- An attribute of a name: id-at `n` and a PrintableString. -/
def derAttr (n : Byte) (l : List Byte) : List Byte := der 0x31 (derSeq [der 0x06 [0x55, 0x04, n], der 0x13 l])

/-- The subject of the device certificate: O, CN and the device ID as 16 hexadecimal digits. -/
def deviceName (id : List Byte) : List Byte :=
  derSeq [derAttr 0x0A (ascii "Ronbel Signal Works"), derAttr 0x03 (ascii "Sundaris DNL-8256"), derAttr 0x05 id]

/-- The subjectPublicKeyInfo of an uncompressed P-256 point. -/
def derKey (point : List Byte) : List Byte := derSeq [derSeq [oidEc, oidP256], der 0x03 (0 :: point)]

/-- An extension: id-ce `n`, critical or not. -/
def derExt (n : Byte) (critical : Bool) (value : List Byte) : List Byte :=
  derSeq [der 0x06 [0x55, 0x1D, n], if critical then der 0x01 [0xFF] else [], der 0x04 value]

/-- A version 3 tbsCertificate signed with ecdsa-with-SHA256. -/
def derTbs (serial : Nat) (issuer validity subject key : List Byte) (exts : List (List Byte)) : List Byte :=
  derSeq [der 0xA0 (derInt 2), derInt serial, derSeq [oidEcdsa], issuer, validity, subject, key, der 0xA3 (derSeq exts)]

/-- A certificate over a tbsCertificate, signed by the Device CA (0) or the Root CA (1). -/
def derCert (who : Nat) (tbs : List Byte) : List Byte := derSeq [tbs, derSeq [oidEcdsa], der 0x03 (0 :: Config.certSignature who tbs)]

/-- The serial number of a certificate (R329): positive, of at most 16 bytes. -/
def serialOf (k : Nat) : Nat := 1 + Config.certSerial k % (2 ^ 127 - 1)

/-- `n` decimal digits of a number, as ASCII. -/
def digits : Nat → Nat → List Byte
  | 0, _ => []
  | n + 1, x => digits n (x / 10) ++ [BitVec.ofNat 8 (48 + x % 10)]

/-- The days of a month. -/
def daysOf (y m : Nat) : Nat :=
  if m = 2 then (if y % 4 = 0 ∧ (y % 100 ≠ 0 ∨ y % 400 = 0) then 29 else 28) else if m = 4 ∨ m = 6 ∨ m = 9 ∨ m = 11 then 30 else 31

/-- The date and time of year `y` that parts `i` of a certificate's dates give, as RFC 5280 writes it: UTCTime from 1950 to 2049, else GeneralizedTime. -/
def derDate (k i y : Nat) : List Byte :=
  let m := 1 + Config.certDate k (i + 1) % 12
  let rest := digits 2 m ++ digits 2 (1 + Config.certDate k (i + 2) % daysOf y m) ++ digits 2 (Config.certDate k (i + 3) % 24) ++
    digits 2 (Config.certDate k (i + 4) % 60) ++ digits 2 (Config.certDate k (i + 5) % 60) ++ ascii "Z"
  if 1950 ≤ y ∧ y < 2050 then der 0x17 (digits 2 (y % 100) ++ rest) else der 0x18 (digits 4 y ++ rest)

/-- notBefore of a certificate: a UTCTime. -/
def notBefore (k : Nat) : List Byte := derDate k 0 (1950 + Config.certDate k 0 % 100)

/-- The device certificate: from the date of manufacture on, without an end. -/
def derValidity : List Byte := derSeq [notBefore 0, der 0x18 (ascii "99991231235959Z")]

/-- The validity of a CA's certificate, whose dates are Ronbel's. -/
def caValidity (k : Nat) : List Byte := derSeq [notBefore k, derDate k 6 (1950 + Config.certDate k 6 % 8050)]

/-- The device certificate: of the DIK `x || y`, whose key identifier is given, and of the device ID's digits. -/
def deviceCert (dik kid id : List Byte) : List Byte :=
  derCert 0 (derTbs (serialOf 0) (Config.caName 0) derValidity (deviceName id) (derKey (4 :: dik))
    [derExt 0x13 true (derSeq []), derExt 0x0F true (der 0x03 [0x07, 0x80]), derExt 0x0E false (der 0x04 kid),
     derExt 0x23 false (derSeq [der 0x80 Config.caKeyId])])

/-- The Device CA's certificate: cA TRUE with pathLenConstraint 0 and keyUsage keyCertSign, issued by the root. -/
def caCert : List Byte :=
  derCert 1 (derTbs (serialOf 1) (Config.caName 1) (caValidity 1) (Config.caName 0) (derKey (Config.caPoint 0))
    [derExt 0x13 true (derSeq [der 0x01 [0xFF], derInt 0]), derExt 0x0F true (der 0x03 [0x02, 0x04])])

/-- The Ronbel Root CA's certificate, self-signed: its own name is the issuer's, its own key signs it. -/
def rootCert : List Byte :=
  derCert 1 (derTbs (serialOf 2) (Config.caName 1) (caValidity 2) (Config.caName 1) (derKey (Config.caPoint 1)) [Config.rootExts])

end Sys2Proof.Machine
end

