-- ==== Sys2Proof/Machine/Streams.lean ====
section
/-!
DEFINITION. Streams of the tenants (R413 to R415) and the passage stream (R352).
-/

namespace Sys2Proof.Machine

/-- The records the journal holds, with their sequences. -/
def State.heldRecs (s : State) : List (Nat × IngotS) :=
  (s.fst.ingots.filter (fun i => i.req.type == 0x10)).map (fun i => (leAt i.req.fields 0 8, i))

/-- The passage record of the lowest sequence from `n` on, durable ones alone (R352). -/
def State.passageFrom (s : State) (n : Nat) : Option (Nat × IngotS) :=
  (s.heldRecs.filter (fun p => p.2.durable && decide (n ≤ p.1))).foldl
    (fun (a : Option (Nat × IngotS)) p => match a with
      | none => some p
      | some q => if p.1 < q.1 then some p else some q) none

/-- A passage record as a stream entry (R413, R175). -/
def passageEntry (i : IngotS) : List Byte := ({ stu := i.req.refStu, payload := i.req.payload } : Rec).bytes

/-- The next entry of a tenant's stream and what is left of the stream after it (R413, R414): on the passage stream a LOST entry
stands for records retired before their delivery. -/
def State.streamHead (s : State) (t k : Nat) : Option (List Byte × TenantS) :=
  let x := s.ten t
  if k = 0 then
    if !s.right t 2 then none else
    match s.passageFrom x.passage with
    | none => none
    | some (n, i) =>
      if x.passage < n then
        some (({ stu := s.now, kind := 9, param := n - x.passage, qual := s.qualAt s.now } : Rec).bytes, { x with passage := n })
      else some (passageEntry i, { x with passage := n + 1 })
  else
    match (x.streams.getD k {}).entries with
    | [] => none
    | (_, b) :: rest => some (b, { x with streams := modifyAt x.streams k (fun q => { q with entries := rest }) })

/-- The entry that fills a PUSH buffer to its end (R414). -/
def padEntry (s : State) (n : Nat) : List Byte :=
  let h := leBytes s.now 8 ++ leBytes 0x0F 1 ++ [0] ++ leBytes (n - 16) 2 ++ [0, 0, 0, 0]
  h ++ List.replicate (n - 16) 0

/-- The entries that fit are written into a PUSH stream's host buffer (R414): the count written. -/
def pushGo (t k : Nat) : Nat → State × Nat → State × Nat
  | 0, r => r
  | n + 1, (s, m) =>
    match s.streamHead t k with
    | none => (s, m)
    | some (b, x) =>
      let q := (s.ten t).streams.getD k {}
      let w := (s.rget (Reg.HST_SWR t k)).toNat % Nat.max 1 q.size
      let r := (s.rget (Reg.HST_SRD t k)).toNat % Nat.max 1 q.size
      let used := (w + q.size - r) % Nat.max 1 q.size
      let toEnd := q.size - w
      let need := if b.length ≤ toEnd then b.length else toEnd + b.length
      if q.size ≤ used + need then (s, m) else
      let s1 := s.tenMod t (fun _ => x)
      let s2 := if b.length ≤ toEnd then s1.dma t (q.base + w) b
        else (s1.dma t (q.base + w) (padEntry s toEnd)).dma t q.base b
      let w2 := if b.length ≤ toEnd then (w + b.length) % q.size else b.length
      pushGo t k n (s2.rsetN (Reg.HST_SWR t k) w2, m + 1)

/-- A PUSH stream advances (R414, R416): entries, write-back, vector and cause. -/
def State.pump (s : State) (t k : Nat) : State :=
  let q := (s.ten t).streams.getD k {}
  if !q.push || q.size == 0 || !s.rings t || !s.dmaOn t then s else
  let most := if k = 0 then s.fst.ingots.length * 2 + 1 else q.entries.length
  match pushGo t k most (s, 0) with
  | (_, 0) => s
  | (s1, _) =>
    let s2 := s1.dma t q.writeBack (leBytes (s1.rget (Reg.HST_SWR t k)).toNat 8)
    let s3 := s2.tenMod t (fun x => { x with vectors := x.vectors ++ [8 + k % 24] })
    s3.cause t (Reg.HST_ICAUSE_STREAM t)

/-- The passage streams advance. -/
def State.pumpPassage (s : State) : State := (List.range 4).foldl (fun (x : State) t => x.pump t 0) s

/-- An entry of a context's port joins its stream (R413). -/
def State.streamAdd (s : State) (t k : Nat) (src : Nat × Nat) (b : List Byte) : State :=
  (s.tenMod t (fun x => { x with
    streams := modifyAt x.streams k (fun q => { q with entries := q.entries ++ [(some src, b)] }) })).pump t k

/-- The bytes of a context's port that wait in a stream (R177). -/
def State.streamHolds (s : State) (t k : Nat) (src : Nat × Nat) : Nat :=
  sumN ((((s.ten t).streams.getD k {}).entries.filter (fun e => e.1 == some src)).map (fun e => e.2.length))

/-- Whole entries, oldest first, up to `most` bytes, taken off a stream (R415): the bytes and the count. -/
def takeEntries (t k : Nat) : Nat → Nat → State → List Byte × Nat × State
  | 0, _, s => ([], 0, s)
  | n + 1, most, s =>
    match s.streamHead t k with
    | none => ([], 0, s)
    | some (b, x) =>
      if most < b.length then ([], 0, s) else
      let (l, m, s') := takeEntries t k n (most - b.length) (s.tenMod t (fun _ => x))
      (b ++ l, m + 1, s')

/-- Passage records from a sequence on, up to `most` bytes (R415). -/
def State.passageRead (s : State) : Nat → Nat → Nat → List Byte × Nat
  | 0, _, _ => ([], 0)
  | k + 1, n, most =>
    match s.passageFrom n with
    | none => ([], 0)
    | some (m, i) =>
      let b := passageEntry i
      if most < b.length then ([], 0) else
      let (l, c) := s.passageRead k (m + 1) (most - b.length)
      (b ++ l, c + 1)

end Sys2Proof.Machine
end

