-- ==== Sys2Proof/Machine/Wit.lean ====
section
/-!
DEFINITION. Witness records and device identity (chapter 13): the deterministic CBOR of the records (R334 to R337), OBS intervals
(R338 to R342), EVT, TIME and KEY records (R344 to R346), the passage chain (R347 to R353) and the key requests (R330 to R333).
-/

namespace Sys2Proof.Machine

/-! ## CBOR (R335) -/

/-- The head of a CBOR item: major type and argument in the shortest form. -/
def cborHead (major n : Nat) : List Byte :=
  if n < 24 then [BitVec.ofNat 8 (32 * major + n)]
  else if n < 256 then BitVec.ofNat 8 (32 * major + 24) :: beBytes n 1
  else if n < 65536 then BitVec.ofNat 8 (32 * major + 25) :: beBytes n 2
  else if n < 4294967296 then BitVec.ofNat 8 (32 * major + 26) :: beBytes n 4
  else BitVec.ofNat 8 (32 * major + 27) :: beBytes n 8

/-- An integer. -/
def cborInt (i : Int) : List Byte := if i < 0 then cborHead 1 (-i - 1).toNat else cborHead 0 i.toNat

/-- A byte string. -/
def cborBytes (b : List Byte) : List Byte := cborHead 2 b.length ++ b

/-- A text string given as its bytes. -/
def cborText (b : List Byte) : List Byte := cborHead 3 b.length ++ b

/-- An array of encoded items. -/
def cborArray (l : List (List Byte)) : List Byte := cborHead 4 l.length ++ l.flatten

/-- A map with unsigned keys, given in ascending order. -/
def cborMap (l : List (Nat × List Byte)) : List Byte :=
  cborHead 5 l.length ++ (l.map (fun p => cborHead 0 p.1 ++ p.2)).flatten

/-! ## Times, keys and identifiers -/

/-- The time quality and DTS at a stu, as key 4 and key 6 carry them (R336). -/
def State.witTime (s : State) (u : Nat) : WitTime :=
  let q := s.qualHiAt u
  let d := s.dts u
  { sec := dtsSec d, frac := dtsFrac d, src := fieldOf q 31 29
    flags := fieldOf q 28 28 + 2 * fieldOf q 27 27 + 4 * fieldOf q 26 26 + 8 * fieldOf q 25 25 + 16 * fieldOf q 24 24
    unc := s.uncNs u, resid := sgn 24 (fieldOf q 23 0) }

/-- A key identifier (R328): the first 8 bytes of SHA-256 over 0x04 || x || y. -/
def kidOf (pub : List Byte) : List Byte := (sha256 (4 :: pub)).take 8

/-- The state with the witness unit changed. -/
def State.witMod (s : State) (f : WitS → WitS) : State := { s with wit := f s.wit }

/-- The journal zone is mounted. -/
def State.journal (s : State) : Bool := s.mounted && !s.tmiss

/-- An upper-case hexadecimal digit as ASCII. -/
def hexDigit (n : Nat) : Byte := BitVec.ofNat 8 (if n < 10 then 48 + n else 55 + n)

/-- The device ID as 16 upper-case hexadecimal digits, most significant first. -/
def hex16 (n : Nat) : List Byte := ((List.range 16).map (fun i => hexDigit (n / 16 ^ i % 16))).reverse

/-- The certificate chain in OTP (R329): device, Device CA, root. -/
def State.certs (s : State) : List (List Byte) := [deviceCert s.wit.dik (kidOf s.wit.dik) (hex16 s.otp.devid), caCert, rootCert]

/-! ## Records -/

/-- The record type of R336 and the rank of R349. -/
def WitBody.code : WitBody → Nat
  | .obs _ => 1
  | .evt .. => 2
  | .time .. => 3
  | .key .. => 4

/-- An observation map (R337). -/
def WitObs.cbor (ref : Nat) (o : WitObs) : List Byte :=
  cborMap ([(1, cborInt o.kind), (2, cborInt o.tx), (3, cborInt o.freq), (4, cborInt ((o.stu : Int) - (ref : Int))),
    (5, cborInt o.level), (6, cborInt o.snr)] ++
    (match o.digest with
     | some d => [(7, cborBytes d)]
     | none => []))

/-- Key 7 or key 8 of a payload (R336, R344 to R346). -/
def WitBody.detail (b : WitBody) (ref epoch devid : Nat) : Nat × List Byte :=
  match b with
  | .obs l => (7, cborArray (l.map (fun o => o.cbor ref)))
  | .evt code count bkp data tenant =>
    (8, cborMap ([(1, cborInt code), (2, cborInt count)] ++
      (match bkp with
       | some (sec, frac) => [(3, cborInt sec), (4, cborInt frac)]
       | none => []) ++
      (if 16 ≤ code then [(5, cborBytes data), (6, cborInt tenant)] else [])))
  | .time step src used ofs => (8, cborMap [(1, cborInt step), (2, cborInt src), (3, cborInt used), (4, cborInt ofs)])
  | .key op pub cert reason =>
    (8, cborMap ([(1, cborInt op)] ++
      (if op = 1 ∨ op = 2 then [(2, cborBytes (4 :: pub)), (3, cborBytes (kidOf pub)), (4, cborBytes cert)] else []) ++
      [(5, cborInt epoch), (6, cborText (hex16 devid))] ++ (if op = 3 then [(7, cborInt reason)] else [])))

/-- The payload map of a record (R336). -/
def WitRec.payload (r : WitRec) (seq : Nat) (prev : List Byte) (epoch devid : Nat) : List Byte :=
  cborMap [(1, cborInt r.body.code), (2, cborInt seq), (3, cborBytes prev), (4, cborArray [cborInt r.time.sec, cborInt r.time.frac]),
    (5, cborInt r.ref), (6, cborArray [cborInt r.time.src, cborInt r.time.flags, cborInt r.time.unc, cborInt r.time.resid]),
    r.body.detail r.ref epoch devid]

/-- The protected header (R334): the map of alg ES256 and kid. -/
def protectedHdr (pub : List Byte) : List Byte := cborMap [(1, cborInt (-7)), (4, cborBytes (kidOf pub))]

/-- The Sig_structure that is signed (R334). -/
def sigStructure (pub payload : List Byte) : List Byte :=
  cborArray [cborText [0x53, 0x69, 0x67, 0x6E, 0x61, 0x74, 0x75, 0x72, 0x65, 0x31], cborBytes (protectedHdr pub), cborBytes [],
    cborBytes payload]

/-- The complete encoding of a record (R334): tag 18 and the four elements. -/
def coseSign1 (pub payload : List Byte) : List Byte :=
  cborHead 6 18 ++ cborArray [cborBytes (protectedHdr pub), cborMap [], cborBytes payload,
    cborBytes (beBytes (Config.sign pub (sigStructure pub payload)) 64)]

/-- The key that signs a record (R332). -/
def State.signer (s : State) (b : WitBody) : List Byte :=
  match b with
  | .key .. => s.wit.dik
  | _ => s.wit.owk.getD s.wit.dik

/-! ## Staging (R349, R350) -/

/-- The place of a record among those whose commits fall due together (R349). -/
def WitRec.rank (r : WitRec) : Nat :=
  match r.body with
  | .key .. => 0
  | .time .. => 1
  | .evt code .. => 2 + code
  | .obs _ => 1000

/-- `a` commits before `b`. -/
def WitRec.before (a b : WitRec) : Bool :=
  decide (a.formed < b.formed) ||
    (a.formed == b.formed && (decide (a.ref < b.ref) || (a.ref == b.ref && decide (a.rank < b.rank))))

/-- A record put into staging in commit order. -/
def insRec (r : WitRec) : List WitRec → List WitRec
  | [] => [r]
  | h :: t => if r.before h then r :: h :: t else h :: insRec r t

/-- WIT_STAT follows the unit (R348, R350, R351, R355). -/
def State.showWit (s : State) : State :=
  let n := s.wit.staged.length
  let s1 := (s.fset Reg.WIT_STAT_STAGED (satTo 256 (n + b2n s.wit.first.isSome))).fsetB Reg.WIT_STAT_STAGEFULL (decide (224 ≤ n))
  let s2 := (s1.fsetB Reg.WIT_STAT_NOJOURNAL (!s1.journal)).fset Reg.WIT_STAT_EPOCH (satTo 255 s1.otp.epochs)
  s2.fsetB Reg.WIT_STAT_EPOCH_FULL (decide (255 ≤ s2.otp.epochs))

/-- A record joins staging. -/
def State.stage (s : State) (r : WitRec) : State :=
  (s.witMod (fun w => { w with staged := insRec r w.staged })).showWit

/-- Staging has room: 224 places for every record, 256 for EVT and KEY records (R350). -/
def State.stageRoom (s : State) (reserve : Bool) : Bool := decide (s.wit.staged.length < if reserve then 256 else 224)

/-! ## Observations (R338 to R343) -/

/-- A WIT record reaches the unit at publish (R338, R339, R341). -/
def State.witSubmit (s : State) (r : Rec) : State :=
  let p := r.payload
  let kind := leAt p 0 2
  if p.length ≠ 64 ∨ bitOf r.flags 0 ∨ kind = 0 ∨ 13 < kind then (s.bump Reg.WIT_CNT0_DISCARD).evt Reg.WIT_EVT_DISCARD
  else if r.stu < s.wit.closed then (s.bump Reg.WIT_CNT0_LATE).evt Reg.WIT_EVT_LATE
  else
    let o : WitObs := { stu := r.stu, kind := kind, tx := leAt p 4 8, freq := leAt p 12 4, level := sgn 16 (leAt p 16 2)
                        snr := sgn 16 (leAt p 18 2), digest := if bitOf (leAt p 2 2) 0 then some (slice p 32 32) else none }
    s.witMod (fun w => { w with obs := w.obs ++ [o] })

/-- INTERVAL as it acts, in ticks. -/
def State.obsTicks (s : State) : Nat := 3000 * clampN 1 3600 (s.fget Reg.WIT_CFG_INTERVAL)

/-- WIT_NEXTREF is set to the first scheduled reference after tick `n` (R340). -/
def State.setNextRef (s : State) (n : Nat) : State :=
  s.rset64 Reg.WIT_NEXTREF_LO ((n / s.obsTicks + 1) * s.obsTicks * tickStu)

/-- WIT_NEXTREF names a reference to come also while OBS_EN is 0, so that none that has passed is taken when it is set again (R340). -/
def State.freshRef (s : State) : State :=
  if s.boot.planned && decide (s.rget64 Reg.WIT_NEXTREF_LO ≤ s.now) then s.setNextRef s.time.tick else s

/-- At a boundary, while OBS_EN is 0. -/
def State.keepRef (s : State) : State := if s.flag Reg.WIT_CTRL_OBS_EN then s else s.freshRef

/-- A write of WIT_CTRL (R340). -/
def State.wrWitCtrl (s : State) (v : Word) : State :=
  let s1 := s.wr Reg.WIT_CTRL v
  if s.flag Reg.WIT_CTRL_OBS_EN then s1 else s1.freshRef

/-- The contexts that are open with a WIT port. -/
def State.witCtxs (s : State) : List Nat :=
  s.openCtxs.filter (fun n => ((s.ctx n).image.map (fun im => im.binds.any (fun b => b.kind == 5))).getD false)

/-- The next OBS reference: the scheduled one while OBS_EN is 1, or one that a command asked for (R340, R343). -/
def State.dueRef (s : State) : Option Nat :=
  let c := (if s.flag Reg.WIT_CTRL_OBS_EN then [s.rget64 Reg.WIT_NEXTREF_LO] else []) ++ s.wit.want.map (·.1)
  match c with
  | [] => none
  | a :: t => some (t.foldl Nat.min a)

/-- The first interval begins at the first planned tick, and the next reference is shown (R340; log entry 36). -/
def State.obsBegin (s : State) : State := (s.setNextRef s.time.tick).witMod (fun w => { w with lastRef := s.now })

/-- OBS_REFERENCE (R340): a reference passes; cue 5 is raised in every open context with a WIT port. -/
def execObsReference (s : State) : Host.Outcome State Fault Refusal :=
  .next (
    if !s.boot.planned then s else
    match s.dueRef with
    | none => s
    | some r =>
      let s1 := s.at r
      let mine := s1.wit.want.filter (fun p => p.1 == r)
      let lag := clampN 2 3000 (s1.fget Reg.WIT_CFG_LAG)
      let v : WitIvl := { start := s1.wit.lastRef, ref := r, close := r + lag * tickStu, time := s1.witTime r, reqs := mine.map (·.2) }
      let s2 := s1.witMod (fun w => { w with ivls := w.ivls ++ [v], lastRef := r, want := w.want.filter (fun p => p.1 != r) })
      let s3 := if s2.rget64 Reg.WIT_NEXTREF_LO ≤ r then s2.setNextRef (r / tickStu) else s2
      s3.witCtxs.foldl (fun (x : State) n => x.raiseCue n 5 r 0) s3)

/-- `a` is kept before `b`: the higher SNR, then the earlier STU (R342). -/
def WitObs.better (a b : WitObs) : Bool := decide (b.snr < a.snr) || (a.snr == b.snr && decide (a.stu < b.stu))

/-- The best observation of each source kind, transmitter and frequency. -/
def bestObs : List WitObs → List WitObs
  | [] => []
  | o :: t =>
    let l := bestObs t
    let same := fun (p : WitObs) => p.kind == o.kind && p.tx == o.tx && p.freq == o.freq
    if l.any same then l.map (fun p => if same p && (!p.better o) then o else p) else o :: l

/-- An observation put at its place in an order. -/
def insObs (lt : WitObs → WitObs → Bool) (o : WitObs) : List WitObs → List WitObs
  | [] => [o]
  | h :: t => if lt h o then h :: insObs lt o t else o :: h :: t

/-- The order of key 7: arrival, source kind, transmitter. -/
def WitObs.first (a b : WitObs) : Bool :=
  decide (a.stu < b.stu) || (a.stu == b.stu && (decide (a.kind < b.kind) || (a.kind == b.kind && decide (a.tx < b.tx))))

/-- A list of observations in an order. -/
def sortObs (lt : WitObs → WitObs → Bool) (l : List WitObs) : List WitObs := l.foldr (insObs lt) []

/-- OBS_INTERVAL_CLOSE (R341, R342, R350, R351): the oldest open interval closes and its record is formed; during a restart none closes (R354). -/
def execObsIntervalClose (s : State) : Host.Outcome State Fault Refusal :=
  .next (
    if s.flt.restart.isSome then s else
    match s.wit.ivls with
    | [] => s
    | v :: rest =>
      let s1 := s.at v.close
      let mine := s1.wit.obs.filter (fun o => decide (v.start ≤ o.stu) && decide (o.stu < v.ref))
      let s2 := s1.witMod (fun w => { w with ivls := rest, closed := v.ref, obs := w.obs.filter (fun o => decide (v.ref ≤ o.stu)) })
      if !s2.journal || !s2.stageRoom false then
        v.reqs.foldl (fun (x : State) q => { x with wit := { x.wit with want := x.wit.want ++ [(x.boundaryTick * tickStu, q)] } })
          ((s2.bump Reg.WIT_CNT1_SKIP).evt Reg.WIT_EVT_SKIP)
      else
        let best := sortObs WitObs.better (bestObs mine)
        let most := clampN 1 128 (s2.fget Reg.WIT_CFG_MAXOBS)
        let s3 := if most < best.length then (s2.bumpBy Reg.WIT_CNT1_DROPPED (best.length - most)).evt Reg.WIT_EVT_DROPPED else s2
        s3.stage { formed := v.close, ref := v.ref, time := v.time, body := .obs (sortObs WitObs.first (best.take most)), reqs := v.reqs })

/-! ## Events (R343, R344) -/

/-- The event code a pending record collects. -/
def WitRec.evtCode (r : WitRec) : Option Nat :=
  match r.body with
  | .evt c .. => some c
  | _ => none

/-- One more event of its code. -/
def WitRec.more (r : WitRec) (q : Option WitReq) : WitRec :=
  match r.body with
  | .evt c k b d t =>
    { r with body := .evt c (k + 1) b d t
             reqs := r.reqs ++ (q.map (fun x => { x with coalesced := true })).toList }
  | _ => r

/-- The newest record of a code takes one more event, if there is one. -/
def mergeNewest (code : Nat) (q : Option WitReq) (l : List WitRec) : List WitRec :=
  match l.reverse.findIdx? (fun r => r.evtCode == some code) with
  | some i => modifyAt l (l.length - 1 - i) (fun r => r.more q)
  | none => l

/-- An event of a code at stu `u`, or at a backup-domain time, falls within 1 s of the first of a record that collects (R344). -/
def WitRec.collects (r : WitRec) (code u : Nat) (bkp : Option (Nat × Nat)) : Bool :=
  match r.body, bkp with
  | .evt c _ none _ _, none => c == code && decide (u ≤ r.ref + secStu)
  | .evt c _ (some a) _ _, some b => c == code && decide (b.1 * 32768 + b.2 ≤ a.1 * 32768 + a.2 + 32768)
  | _, _ => false

/-- The EVT reserve takes one more event (R350, R351): staging holds 256 records in all, and the reserve 32 while the journal is not mounted. -/
def State.evtRoom (s : State) : Bool :=
  decide (s.wit.staged.length + s.wit.evts.length < 256) && (s.journal || decide (s.wit.evts.length < 32))

/-- An event is posted (R344) with the time at its stu: within 1 s of the first of its code it is coalesced; an event stamped in the backup domain carries that
time. Codes 1 to 8 form no record while EVT_EN is 0. Where the reserve is full it joins the newest pending record of its code (R350). -/
def State.witEventAt (s : State) (code u : Nat) (time : WitTime) (bkp : Option (Nat × Nat)) (data : List Byte) (tenant : Nat) (q : Option WitReq) :
    State :=
  if code < 16 && !s.flag Reg.WIT_CTRL_EVT_EN then s
  else
    match s.wit.evts.findIdx? (fun r => r.collects code u bkp) with
    | some i => s.witMod (fun w => { w with evts := modifyAt w.evts i (fun r => r.more q) })
    | none =>
      if s.evtRoom then
        s.witMod (fun w => { w with evts := w.evts ++ [{ formed := u + secStu, ref := u, time := time, body := .evt code 1 bkp data tenant
                                                         reqs := q.toList }] })
      else if s.wit.evts.any (fun r => r.evtCode == some code) then s.witMod (fun w => { w with evts := mergeNewest code q w.evts })
      else s.witMod (fun w => { w with staged := mergeNewest code q w.staged })

/-- An event posted at its own stu. -/
def State.witEvent (s : State) (code u : Nat) (bkp : Option (Nat × Nat)) (data : List Byte) (tenant : Nat) (q : Option WitReq) : State :=
  s.witEventAt code u (s.witTime u) bkp data tenant q

/-- An event stamped in the device. -/
def State.witEvt (s : State) (code u : Nat) : State := s.witEvent code u none [] 0 none

/-- The record of events that have been collected joins staging (R344): the key 5 of a backup-stamped one is the stu of its formation. -/
def State.stageEvt (s : State) (r : WitRec) (u : Nat) : State :=
  match r.body with
  | .evt _ _ (some _) _ _ => s.stage { r with ref := u, time := s.witTime u }
  | _ => s.stage r

/-- EVT_COALESCE_CLOSE (R344, R351): 1 s after the first event of a code its record is formed; while the journal is not mounted the events are held. -/
def execEvtCoalesceClose (s : State) : Host.Outcome State Fault Refusal :=
  .next (
    if !s.journal then s else
    match s.wit.evts with
    | [] => s
    | r :: rest => ((s.at r.formed).witMod (fun w => { w with evts := rest })).stageEvt r (s.at r.formed).now)

/-- A TIME record (R345): DTS has stepped by `step` seconds at the present boundary. -/
def State.witStep (s : State) (step : Rat) (src used : Nat) : State :=
  if !s.journal || !s.stageRoom false then s
  else s.stage { formed := s.now, ref := s.now, time := s.witTime s.now
                 body := .time (roundAway (step * 1000000000)) src used (sgn 16 (s.fget Reg.TB_UTC_OFS)) }

/-! ## Keys (R330 to R333) -/

/-- The words of a public point or a digest, byte 4i in [31:24] (R355). -/
def State.showBytes (s : State) (a : Nat → Nat) (l : List Byte) (n : Nat) : State :=
  (List.range n).foldl (fun (x : State) i => x.rsetN (a i) (ofBe (slice l (4 * i) 4))) s

/-- The key registers follow the key store. -/
def State.showKeys (s : State) : State :=
  let s1 := (s.rset64 Reg.KEY_DIK_KID_LO (ofLe (kidOf s.wit.dik))).showBytes Reg.KEY_DIK_PUB s.wit.dik 16
  let o := s.wit.owk.getD (List.replicate 64 0)
  let k := match s.wit.owk with
    | some p => ofLe (kidOf p)
    | none => 0
  let s2 := (s1.rset64 Reg.KEY_OWK_KID_LO k).showBytes Reg.KEY_OWK_PUB o 16
  s2.fsetB Reg.KEY_STAT_OWK s.wit.owk.isSome

/-- A fresh key pair's public point, from the DRBG: a free value. -/
def State.newPub (s : State) : List Byte × State :=
  let (n, s1) := s.free1
  (beBytes n 64, s1)

/-- A KEY record is formed (R346) for a request accepted at stu `u`, at which the time was `time`; it waits where staging has no room (R350), and while the
journal is not mounted none is formed (R351). -/
def State.stageKey (s : State) (op : Nat) (pub cert : List Byte) (reason u : Nat) (time : WitTime) (asked : Bool) : State :=
  let r : WitRec := { formed := s.now, ref := u, time := time, body := .key op pub cert reason, asked := asked }
  if s.stageRoom true && s.journal then s.stage r else s.witMod (fun w => { w with late := w.late ++ [r] })

/-- A KEY record that waited joins staging once there is room. -/
def State.stageLate (s : State) : State :=
  match s.wit.late with
  | r :: l => if s.stageRoom true && s.journal then (s.witMod (fun w => { w with late := l })).stage r else s
  | [] => s

/-- The check that refuses a key request, in the order of the results' table (R333). -/
def State.keyRefusal (s : State) (p v : Nat) : Option Nat :=
  let n := v / 536870912
  if n % 2 + n / 2 % 2 + n / 4 % 2 ≠ 1 then some 6
  else if (s.host.ports.getD p {}).proof.isNone then some 1
  else if bitOf v 31 && s.wit.owk.isSome then some 2
  else if !bitOf v 31 && s.wit.owk.isNone then some 3
  else if !s.journal then some 4
  else if s.flag Reg.KEY_STAT_BUSY then some 5
  else none

/-- A write of KEY_CTRL from T0 (R330, R331). -/
def State.wrKeyCtrl (s : State) (p : Nat) (v : Word) : State :=
  if v.toNat / 536870912 = 0 then s else
  match s.keyRefusal p v.toNat with
  | some r => s.fset Reg.KEY_STAT_RESULT r
  | none =>
    let s1 := s.fsetB Reg.KEY_STAT_BUSY true
    let cert := (s.host.ports.getD p {}).cert
    if bitOf v.toNat 29 then s1.stageKey 3 [] [] 0 s1.now (s1.witTime s1.now) true
    else
      let (pub, s2) := s1.newPub
      s2.stageKey (if bitOf v.toNat 31 then 1 else 2) pub cert 0 s2.now (s2.witTime s2.now) true

/-- The OWK is released with a reason, unless there is none (R331, R401), by a request accepted at stu `u`. -/
def State.releaseOwk (s : State) (reason u : Nat) (time : WitTime) : State :=
  if s.wit.owk.isNone then s else s.stageKey 3 [] [] reason u time false

/-- The two copies of the OWK are journalled (R333, R374): IV, wrapped scalar and tag, whose values rest on secrets and stay open, then the public point. -/
def State.storeOwk (s : State) (pub : List Byte) : State :=
  [0, 1].foldl (fun (x : State) c =>
    x.askIngot { zone := 1, type := 0x12, fields := leBytes c 1 ++ kidOf pub, payload := beBytes (Config.wrapped pub c) 60 ++ 4 :: pub }) s

/-- The key request that runs ends with a result (R330). -/
def State.keyDone (s : State) (result : Nat) : State :=
  ((s.fsetB Reg.KEY_STAT_BUSY false).fset Reg.KEY_STAT_RESULT result).evt Reg.KEY_EVT_DONE

/-- The KEY record of ingot `q` is committed: the key it establishes is in force from the next record on (R330 to R332); what is still to be written of an older
key is not written any more. -/
def State.keyCommitted (s : State) (q op : Nat) (pub : List Byte) (asked : Bool) : State :=
  if op = 0 then s else
  let s0 := s.fstMod (fun x => { x with queue := x.queue.filter (fun r => r.type != 0x12) })
  let s1 := s0.witMod (fun w => { w with owk := if op = 3 then none else some pub, undurKeys := w.undurKeys ++ [(q, op, pub, asked)] })
  (if op = 3 then s1 else s1.storeOwk pub).showKeys

/-- An ingot is held and durable (R370). -/
def FstS.holds (x : FstS) (q : Nat) : Bool := x.ingots.any (fun i => i.seq == q && i.durable)

/-- KEY records whose ingots are durable now (R370): the copies of keys that are no longer in force go, and the requests complete. -/
def State.keySettle (s : State) : State :=
  let now := s.wit.undurKeys.filter (fun p => s.fst.holds p.1)
  if now.isEmpty then s else
  let s1 := s.witMod (fun w => { w with undurKeys := w.undurKeys.filter (fun p => !s.fst.holds p.1) })
  let kids := (s1.wit.owk.toList ++ s1.wit.undurKeys.map (·.2.2.1)).map kidOf
  let s2 := s1.fstMod (fun x => { x with ingots := x.ingots.filter (fun i => i.req.type != 0x12 || kids.contains (slice i.req.fields 1 8)) })
  now.foldl (fun (x : State) p => if p.2.2.2 then x.keyDone 0 else x) s2

/-! ## The passage chain (R347 to R353) -/

/-- WIT_SEQ, WIT_HEAD and WIT_OLDEST follow the chain. -/
def State.showChain (s : State) : State := (((s.rset64 Reg.WIT_SEQ_LO (s.wit.next - 1)).showOldest).showBytes Reg.WIT_HEAD s.wit.head 8).showWit

/-- A witness command completes with its record's sequence (R408). -/
def State.witDone (s : State) (seq : Nat) (q : WitReq) : State :=
  s.complete q.tenant q.tag 7 0 q.accept (leBytes seq 8 ++ leBytes (b2n q.coalesced) 1)

/-- Commands and key requests whose ingots are durable now complete (R370). -/
def State.witSettle (s : State) : State :=
  let now := s.wit.undur.filter (fun p => s.fst.holds p.1)
  (now.foldl (fun (x : State) p => x.witDone p.2.1 p.2.2)
    ((s.witMod (fun w => { w with undur := w.undur.filter (fun p => !s.fst.holds p.1) })).pumpPassage)).keySettle

/-- The record that commits next (R333, R348, R349), and the unit without it. -/
def WitS.take (w : WitS) : Option (WitRec × WitS) :=
  match w.first, w.staged with
  | some r, _ => some (r, { w with first := none })
  | none, r :: l => some (r, { w with staged := l })
  | none, [] => none

/-- When the commit of the next record given for stu `t` happens: within 24 ticks of the record's close (R350), unless it has waited past them, for the
journal or a restart. -/
def State.commitBy (s : State) (t : Nat) : Nat :=
  match s.wit.take with
  | some (r, _) => if r.formed + 24 * tickStu < s.now then t else Nat.min t (r.formed + 24 * tickStu)
  | none => t

/-- RECORD_COMMIT (R347, R350): the record that is next is signed and its ingot commits at stu `t` or by its bound; nothing happens where the journal cannot
take it or during a restart (R354), and the record waits. -/
def execRecordCommit (t : Nat) (s : State) : Host.Outcome State Fault Refusal :=
  .next (
    let s1 := s.at (s.commitBy t)
    match s1.wit.take with
    | none => s1
    | some (r, w) =>
      if !s1.fstCanWrite || s1.flt.restart.isSome then s1 else
      let epoch := satTo 255 s1.otp.epochs
      let pub := s1.signer r.body
      let bytes := coseSign1 pub (r.payload w.next w.head epoch s1.otp.devid)
      match s1.writeIngot { zone := 1, type := 0x10, fields := leBytes w.next 8 ++ leBytes epoch 1, payload := bytes, refStu := r.ref } none with
      | (_, none) => s1
      | (s2, some q) =>
        let s3 := (s2.witMod (fun _ => { w with
          next := w.next + 1, head := sha256 bytes, headIngot := q
          undur := w.undur ++ r.reqs.map (fun z => (q, w.next, z)) })).evt Reg.WIT_EVT_COMMIT
        let s4 := match r.body with
          | .key op p _ _ => s3.keyCommitted q op p r.asked
          | _ => s3
        s4.stageLate.showChain.witSettle)

/-- A chain starts (R348): the epoch rises in OTP and a genesis record is formed, which commits first; an OWK of the chain before is gone with its copies, and
the passage streams start over (R352). A key request that runs goes on in the new chain (log entry 83). -/
def State.genesis (s : State) : State :=
  let keep := fun (r : WitRec) => r.rank != 0 || r.asked
  let s1 := ({ s with otp := { s.otp with epochs := satTo 255 (s.otp.epochs + 1) } }.witMod (fun w => { w with
    owk := none, next := 0, head := List.replicate 32 0, headIngot := 0, staged := w.staged.filter keep, late := w.late.filter keep })).evt
      Reg.WIT_EVT_GENESIS
  let s2 := (List.range 4).foldl (fun (x : State) t => x.tenMod t (fun y => { y with passage := 0 })) s1
  let s3 := s2.witMod (fun w => { w with first := some { formed := s2.now, ref := s2.now, time := s2.witTime s2.now, body := .key 0 [] [] 0 } })
  s3.showKeys.showChain

/-- The newest checkpoint of the journal: its last committed sequence, digest and record ingot (R353, R374). -/
def FstS.checkpoint (x : FstS) : Option (Nat × List Byte × Nat) :=
  ((x.ingots.filter (fun i => i.req.type == 0x11)).foldl (fun (a : Option IngotS) i => match a with
    | none => some i
    | some j => if j.seq < i.seq then some i else some j) none).map (fun i =>
      (leAt i.req.payload 0 8, slice i.req.payload 8 32, leAt i.req.payload 48 8))

/-- The chain head that mount finds (R353): the newest checkpoint's record, or a later record read forward from it. -/
def State.foundHead (s : State) : Option (Nat × List Byte × Nat) :=
  s.heldRecs.foldl (fun (a : Option (Nat × List Byte × Nat)) p =>
    let c := (p.1, sha256 p.2.req.payload, p.2.seq)
    match a with
    | none => some c
    | some q => if q.1 < p.1 then some c else some q) s.fst.checkpoint

/-- The journal zone has been mounted (R348, R351, R353, R333): the chain head is found, or a new chain starts; an OWK both of whose
copies are gone is released as lost, by a record that commits before any other. The passage streams go on from the oldest record held (log entry 83). -/
def State.witMount (s : State) : State :=
  match s.foundHead with
  | none => s.genesis
  | some (n, head, q) =>
    let from_ := s.fst.heldSeqs.foldl Nat.min (s.fst.heldSeqs.headD (n + 1))
    let s0 := (List.range 4).foldl (fun (x : State) t => x.tenMod t (fun y => { y with passage := from_ })) s
    let s1 := s0.witMod (fun w => { w with next := n + 1, head := head, headIngot := q })
    let s2 := if s1.wit.owk.isSome && !s1.fst.ingots.any (fun j => j.req.type == 0x12) then
        (s1.witMod (fun w => { w with first := some { formed := s1.now, ref := s1.now, time := s1.witTime s1.now, body := .key 3 [] [] 1 } })).evt Reg.KEY_EVT_LOST
      else s1
    s2.showChain.showKeys

/-- WITNESS_CHECKPOINT (R353): once every 60 s, as a wind-up task. -/
def execWitnessCheckpoint (t : Nat) (s : State) : Host.Outcome State Fault Refusal :=
  .next (
    let s1 := s.at t
    if !s1.journal || s1.wit.next == 0 || decide (s1.now < s1.wit.lastCkpt + 60 * secStu) then s1 else
    let w := s1.wit
    let epoch := satTo 255 s1.otp.epochs
    let s2 := s1.askIngot { zone := 1, type := 0x11, fields := leBytes (w.next - 1) 8 ++ leBytes epoch 1
                            payload := leBytes (w.next - 1) 8 ++ w.head ++ leBytes epoch 1 ++ List.replicate 7 0 ++ leBytes w.headIngot 8 }
    let s3 := s2.witMod (fun x => { x with lastCkpt := s1.now })
    s3.wuDone 5)

end Sys2Proof.Machine
end

