-- ==== Sys2Proof/Machine/Bkp.lean ====
section
/-!
DEFINITION. The backup domain (chapter 17): loads and captures (R444 to R448), wake channels
(R450), the alarm (R452), tamper inputs (R454) and PWRON (R455). `raw` counts oscillator pulses since the domain was powered: it is
the domain's own clock, as stu is the device's.
-/

namespace Sys2Proof.Machine

/-! ## PWRON (R455) -/

/-- A capture of the count in the capture layout. -/
def State.capture (s : State) (lo sec frac : Nat) : State :=
  (s.rsetN lo sec).rsetN (lo + 4) (2147483648 + (frac % 32768) * 65536 + sec / 4294967296 % 65536)

/-- An event of the domain forms its EVT record: with its stu while the device runs, else with its backup time when it runs again
(R344). -/
def State.bkpEvtAt (s : State) (code u : Nat) (time : WitTime) (sec frac : Nat) : State :=
  if s.up then s.witEventAt code u time none [] 0 none else s.bkpMod (fun b => { b with evts := b.evts ++ [(code, sec, frac)] })

/-- An event of the domain at its own stu. -/
def State.bkpEvt (s : State) (code u sec frac : Nat) : State := s.bkpEvtAt code u (s.witTime u) sec frac

/-- A source asserts PWRON (R455): a rise writes the cause and captures the count; of sources at the same edge as the rise the lower
number is the cause. -/
def State.assertPwr (s : State) (src u : Nat) : State :=
  if !bitOf (s.fget Reg.BKP_PWRON_SRC) src then s
  else if s.flag Reg.BKP_STAT_PWRON then
    if s.bkp.rise = some s.bkp.raw ∧ src < s.fget Reg.BKP_PWRON_CAUSE then s.fset Reg.BKP_PWRON_CAUSE src else s
  else
    let s1 := ((s.fsetB Reg.BKP_STAT_PWRON true).fset Reg.BKP_PWRON_CAUSE src).bkpMod (fun b => { b with rise := some b.raw })
    (s1.capture Reg.BKP_PWCAP_LO s1.bkp.sec s1.bkp.frac).bkpEvt 8 u s1.bkp.sec s1.bkp.frac

/-- PWRON is driven low. -/
def State.pwrLow (s : State) : State := s.fsetB Reg.BKP_STAT_PWRON false

/-! ## The calendar view (R447, R448) -/

/-- The date and time of a count: year, month, day, hour, minute, second, weekday (R447). -/
def calOf (sec : Nat) : Nat × Nat × Nat × Nat × Nat × Nat × Nat :=
  let z := sec / 86400 + 737730
  let r := sec % 86400
  let era := z / 146097
  let doe := z - era * 146097
  let yoe := (doe - doe / 1460 + doe / 36524 - doe / 146096) / 365
  let doy := doe - (365 * yoe + yoe / 4 - yoe / 100)
  let mp := (5 * doy + 2) / 153
  let day := doy - (153 * mp + 2) / 5 + 1
  let mon := if mp < 10 then mp + 3 else mp - 9
  let year := era * 400 + yoe + b2n (decide (mon ≤ 2))
  if 65535 < year then (65535, 12, 31, 23, 59, 59, (sec / 86400 + 2) % 7)
  else (year, mon, day, r / 3600, r / 60 % 60, r % 60, (sec / 86400 + 2) % 7)

/-- The day number of 65535-12-31, the last that the view shows. -/
def lastDay : Nat := 23198741

/-- BKP_CAL_DATE and BKP_CAL_TIME of a count. -/
def calWords (sec : Nat) : Word × Word :=
  let q := if lastDay < sec / 86400 then lastDay * 86400 + 86399 else sec
  let (y, mo, d, h, mi, se, wd) := calOf q
  (putField (putField (putField 0 31 16 y) 11 8 mo) 4 0 d, putField (putField (putField (putField 0 26 24 wd) 20 16 h) 13 8 mi) 5 0 se)

/-- The days from 2020-01-01 to a date (R448). -/
def calDays (y m d : Int) : Int :=
  let y1 := if m ≤ 2 then y - 1 else y
  let era := y1.tdiv 400
  let yoe := y1 - era * 400
  let doy := (153 * (if 2 < m then m - 3 else m + 9) + 2).tdiv 5 + d - 1
  era * 146097 + yoe * 365 + yoe.tdiv 4 - yoe.tdiv 100 + doy - 737730

/-- The length of a month. -/
def monthLen (y m : Nat) : Nat :=
  if m = 2 then (if (y % 4 = 0 ∧ y % 100 ≠ 0) ∨ y % 400 = 0 then 29 else 28)
  else if m = 4 ∨ m = 6 ∨ m = 9 ∨ m = 11 then 30 else 31

/-- The seconds that staged calendar words load, and whether they were canonical (R448). -/
def calLoad (date time : Word) : Nat × Bool :=
  let year := fieldOf date 31 16
  let mon := fieldOf date 11 8
  let day := fieldOf date 4 0
  let hour := fieldOf time 20 16
  let min_ := fieldOf time 13 8
  let sec := fieldOf time 5 0
  let (y, m) : Int × Int := if mon = 0 then ((year : Int) - 1, 12) else if 12 < mon then ((year : Int) + 1, (mon : Int) - 12)
    else ((year : Int), (mon : Int))
  let t : Int := (calDays y m 1 + (day : Int) - 1) * 86400 + (hour * 3600 + min_ * 60 + sec : Nat)
  let canon := decide (1 ≤ mon) && decide (mon ≤ 12) && decide (1 ≤ day) && decide (day ≤ monthLen year mon) &&
    decide (hour ≤ 23) && decide (min_ ≤ 59) && decide (sec ≤ 59) && decide (0 ≤ t)
  (t.toNat, canon)

/-! ## Loads and captures (R444 to R446) -/

/-- Disciplining keeps the backup clock (R41): RTC_SYNC, a source in use and UNC at most 1 ms. -/
def State.rtcKept (s : State) : Bool :=
  let src := s.fget Reg.TB_QUAL_HI_SRC
  s.up && s.flag Reg.TB_CTRL_RTC_SYNC && decide (1 ≤ src) && decide (src ≤ 3) && decide (s.uncNs s.now ≤ 1000000)

/-- The count stands in the capture registers (R444). -/
def State.showCapture (s : State) : State := (s.rset64 Reg.BKP_CSEC_LO s.bkp.sec).rsetN Reg.BKP_CFRAC s.bkp.frac

/-- A load takes effect at the present edge (R445, R453); a capture at the same edge holds the loaded value, whichever was issued first (R456). -/
def State.bkpLoad (s : State) (sec frac : Nat) : State :=
  let s1 := (s.bkpMod (fun b => { b with sec := sec % 281474976710656, frac := frac % 32768, loadEdge := some b.raw })).fsetB Reg.BKP_STAT_TLOST false
  if s1.bkp.capEdge = some s1.bkp.raw then s1.showCapture else s1

/-- A capture takes effect at an edge of stu `e` (R444). -/
def State.captureAt (s : State) (e : Nat) : State :=
  ((s.bkpMod (fun b => { b with capEdge := some b.raw })).showCapture).rset64 Reg.BKP_CSTU_LO (if s.up then s.stampOf e else 0)

/-- A capture takes effect at the present edge (R444). -/
def State.bkpCapture (s : State) : State := s.captureAt s.now

/-- A write of BKP_CTRL at its edge: load, then capture (R456). A write with LOAD and LOADCAL is discarded (R445), and so is a load while disciplining keeps the
clock (R446). -/
def State.bkpCtrl (s : State) (v : Word) : State :=
  if bitOf v.toNat 30 && bitOf v.toNat 29 then s.evt Reg.BKP_EVT_LOADREF else
  let sel := fieldOf v 1 0
  let s0 := s.wr Reg.BKP_CTRL v
  let s1 := if sel = s.fget Reg.BKP_CTRL_SQWSEL then s0 else s0.bkpMod (fun b => { b with sqw := false })
  let load := bitOf v.toNat 30
  let cal := bitOf v.toNat 29
  let s2 :=
    if !load && !cal then s1
    else if s1.rtcKept then s1.evt Reg.BKP_EVT_LOADREF
    else if load then
      (((s1.bkpLoad (s1.rget64 Reg.BKP_SET_SEC_LO) (s1.rget Reg.BKP_SET_FRAC).toNat).fsetB Reg.BKP_STAT_DISC false).fsetB
        Reg.BKP_STAT_NONCANON false)
    else
      let (sec, canon) := calLoad (s1.rget Reg.BKP_SET_DATE) (s1.rget Reg.BKP_SET_TIME)
      ((s1.bkpLoad sec 0).fsetB Reg.BKP_STAT_DISC false).fsetB Reg.BKP_STAT_NONCANON (!canon)
  if bitOf v.toNat 31 then s2.bkpCapture else s2

/-- An input is watched. -/
def State.tampEn (s : State) (i : Nat) : Bool :=
  if i = 0 then s.flag Reg.BKP_TAMP_T0EN else if i = 1 then s.flag Reg.BKP_TAMP_T1EN else s.flag Reg.BKP_TAMP_WEN

/-- The active level of an input is high. -/
def State.tampPol (s : State) (i : Nat) : Bool :=
  if i = 0 then s.flag Reg.BKP_TAMP_T0POL else if i = 1 then s.flag Reg.BKP_TAMP_T1POL else s.flag Reg.BKP_TAMP_WPOL

/-- FILT × 8 pulses of an input. -/
def State.tampFilt (s : State) (i : Nat) : Nat :=
  8 * (if i = 0 then s.fget Reg.BKP_TAMP_T0FILT else if i = 1 then s.fget Reg.BKP_TAMP_T1FILT else s.fget Reg.BKP_TAMP_WFILT)

/-- An input's state. -/
def State.tamp (s : State) (i : Nat) : TampS := s.bkp.inputs.getD i {}

/-- An input is sampled at the present edge with its pin at a level (R454): one that becomes active starts its filter, unless it took an event before and has
not been inactive for the filter's length since; one that becomes inactive ends it. An input that is not watched is not sampled: when it is again, it is found as
from inactive (DESIGN CHOICE, log entry 85). -/
def State.tampSample (s : State) (i : Nat) (high : Bool) : State :=
  let x := s.tamp i
  let edge : TampEdge := { raw := s.bkp.raw, sec := s.bkp.sec, frac := s.bkp.frac, stu := s.stamp, time := s.witTime s.stamp }
  let y : TampS :=
    if !s.tampEn i then { high := high, quiet := s.bkp.raw }
    else if high == s.tampPol i then
      if x.act then { x with high := high }
      else if x.taken && decide (s.bkp.raw < x.quiet + s.tampFilt i) then { x with high := high, act := true }
      else { x with high := high, act := true, start := some edge, taken := false }
    else if x.act then { x with high := high, act := false, start := none, quiet := s.bkp.raw }
    else { x with high := high }
  s.bkpMod (fun b => { b with inputs := modifyAt b.inputs i (fun _ => y) })

/-- The three inputs are sampled after a change of their settings. -/
def State.tampAll (s : State) : State := [0, 1, 2].foldl (fun (x : State) i => x.tampSample i (x.tamp i).high) s

/-- A write of one register at its edge (R442). -/
def State.bkpReg (s : State) (a : Nat) (v : Word) : State :=
  if a = Reg.BKP_CTRL then s.bkpCtrl v
  else if a = Reg.BKP_EVT then
    let s1 := s.wr a v
    let s2 := if bitOf v.toNat 3 && !s1.flag Reg.BKP_EVT_TAMP0 then s1.fsetB (Reg.BKP_TCAP_HI_VALID 0) false else s1
    if bitOf v.toNat 4 && !s1.flag Reg.BKP_EVT_TAMP1 then s2.fsetB (Reg.BKP_TCAP_HI_VALID 1) false else s2
  else if a = Reg.BKP_TRIM then
    if s.rtcKept then s.evt Reg.BKP_EVT_LOADREF else s.bkpMod (fun b => { b with winNext := some v })
  else if a = Reg.BKP_ALM_SEC_LO ∨ a = Reg.BKP_ALM_SEC_HI ∨ a = Reg.BKP_ALM_CTRL then
    let s1 := (s.wr a v).bkpMod (fun b => { b with armEdge := some b.raw })
    let s2 := if a = Reg.BKP_ALM_CTRL ∧ bitOf v.toNat 31 then s1.fsetB Reg.BKP_STAT_ALM_LATE false else s1
    s2.fsetB Reg.BKP_STAT_ARMED (s2.flag Reg.BKP_ALM_CTRL_ARM)
  else if Reg.BKP_WAKE 0 ≤ a ∧ a < Reg.BKP_WAKE 8 then
    let i := (a - Reg.BKP_WAKE 0) / 4
    let s1 := s.wr a v
    s1.bkpMod (fun b => { b with
      wakes := modifyAt b.wakes i (fun _ => if bitOf v.toNat 31 then some (b.trim + Nat.max 127 (fieldOf v 30 0) + 1) else none) })
  else if a = Reg.BKP_TAMP then (s.wr a v).tampAll
  else if a = Reg.BKP_PWRON then (if bitOf v.toNat 31 then (s.wr a v).pwrLow else s.wr a v)
  else s.wr a v

/-- Disciplining loads the count with DTS at the edge (R41, R446). -/
def State.bkpDisc (s : State) : State :=
  let d := s.dts s.now
  let s1 := s.bkpLoad (dtsSec d) (dtsFrac d / 131072)
  (s1.fsetB Reg.BKP_STAT_DISC true).rset64 Reg.BKP_DSEC_LO (dtsSec d)

/-- One write that crosses takes effect. -/
def State.bkpEffect (s : State) : BkpW → State
  | .reg a v => s.bkpReg a v
  | .disc => s.bkpDisc

/-- The edge at which a write issued after pulse `k` takes effect, where the command gives `raw`: the next one or the one after it (R442). -/
def effectEdge (k raw : Nat) : Nat := Nat.min (k + 2) (Nat.max (k + 1) raw)

/-- Writes take effect: the crystal runs (R441, R442). -/
def State.bkpEdges (s : State) : Bool := s.bkp.powered && !s.flag Reg.BKP_STAT_OSCFAIL

/-- Every write in flight takes effect, in the order issued, at the edge of the last of them. -/
def State.bkpDrain (s : State) (raw : Nat) : State :=
  if !s.bkpEdges then s else
  let l := s.bkp.inflight
  let s1 := match l.getLast? with
    | some w => s.osc (effectEdge w.2 raw)
    | none => s
  (l.foldl (fun (x : State) w => x.bkpEffect w.1) (s1.bkpMod (fun b => { b with inflight := [] }))).fsetB Reg.BKP_STAT_SYNC false

/-- A write is issued toward the domain (R442). -/
def State.bkpIssue (s : State) (w : BkpW) : State :=
  if !s.bkp.powered then s else
  (s.oscGo.bkpMod (fun b => { b with inflight := b.inflight ++ [(w, b.raw)] })).fsetB Reg.BKP_STAT_SYNC true

/-- Disciplining asks for a load (R41). -/
def State.bkpWantDisc (s : State) : State := if s.rtcKept then s.bkpIssue .disc else s

/-- BKP_WRITE_EFFECT (R442): the first write in flight takes effect at raw pulse `raw`, stu `t`, or by its bound. -/
def execBkpWriteEffect (t raw : Nat) (s : State) : Host.Outcome State Fault Refusal :=
  .next (
    let s1 := s.at t
    if !s1.bkpEdges then s1 else
    match s1.bkp.inflight with
    | [] => s1.osc raw
    | w :: ws =>
      (((s1.osc (effectEdge w.2 raw)).bkpMod (fun b => { b with inflight := ws })).bkpEffect w.1).fsetB Reg.BKP_STAT_SYNC (!ws.isEmpty))

/-! ## Events of the domain -/

/-- SUPPLY_SWITCH (R439): at an oscillator edge with the two supplies at these millivolts. -/
def execSupplySwitch (t raw aon vbat : Nat) (s : State) : Host.Outcome State Fault Refusal :=
  .next (
    let s1 := (s.at t).osc raw
    let on := s1.flag Reg.BKP_STAT_ONVBAT
    let go := fun (b : Bool) (e : Reg.Fld) (c : Nat) =>
      let s2 := (((s1.fsetB Reg.BKP_STAT_ONVBAT b).fsetB Reg.TOP_DOMAIN_BKP_ON_VBAT b).evt e).capture Reg.BKP_SWCAP_LO s1.bkp.sec s1.bkp.frac
      s2.bkpEvt c s2.now s2.bkp.sec s2.bkp.frac
    if !s1.bkp.powered then s1
    else if !on && (decide (aon + 50 < vbat) || decide (aon < 1550)) then go true Reg.BKP_EVT_TOVBAT 3
    else if on && decide (vbat + 10 ≤ aon) && decide (1610 ≤ aon) then go false Reg.BKP_EVT_TOAON 4
    else s1)

/-- BACKUP_STATE_LOSS (R440): the supply in use falls below 1.45 V. The next mount cannot tell the elapsed time (R386). -/
def execBackupStateLoss (t mv : Nat) (s : State) : Host.Outcome State Fault Refusal :=
  .next (
    let s1 := s.at t
    if mv < 1450 then { s1 with bkp := { ({} : BkpS) with powered := false }, fst := { s1.fst with lostAt := s1.fst.lastSeq } } else s1)

/-- The registers of the domain at their reset values. -/
def bkpCleared (f : RegFile) : RegFile := f.filter (fun p => decide (p.1 < 0xF0000) || decide (0xF1000 ≤ p.1))

/-- BACKUP_POWER_UP (R440): the domain is powered after it lost its state; `vbat` says which supply it starts from. -/
def execBackupPowerUp (vbat : Bool) (s : State) : Host.Outcome State Fault Refusal :=
  .next (
    if s.bkp.powered then s else
    let s1 : State := { s with regs := bkpCleared s.regs, bkp := {} }
    (s1.fsetB Reg.BKP_STAT_ONVBAT vbat).fsetB Reg.TOP_DOMAIN_BKP_ON_VBAT vbat)

/-- OSC_FAIL (R441): no crystal edge within 1 ms. -/
def execOscFail (t raw : Nat) (s : State) : Host.Outcome State Fault Refusal :=
  .next (
    let s1 := (s.at t).osc raw
    if !s1.bkp.powered || s1.flag Reg.BKP_STAT_OSCFAIL then s1 else
    (((s1.fsetB Reg.BKP_STAT_OSCFAIL true).evt Reg.BKP_EVT_OSCFAIL).fsetB Reg.BKP_STAT_TLOST true).fsetB Reg.BKP_STAT_DISC false)

/-- OSC_RESUME (R441). -/
def execOscResume (t : Nat) (s : State) : Host.Outcome State Fault Refusal :=
  .next (((s.at t).bkpMod (fun b => { b with seen := (s.at t).now })).fsetB Reg.BKP_STAT_OSCFAIL false)

/-- A tenant's read of BKP_SEC_LO (R443): the word read, and the registers it latches. -/
def State.rdBkpSec (s : State) (t : Nat) : State :=
  s.bkpMod (fun b => { b with latches := modifyAt b.latches t (fun l => { l with
    secHi := BitVec.ofNat 32 (b.sec / 4294967296), frac := BitVec.ofNat 32 b.frac }) })

/-- A tenant's read of BKP_CAL_DATE (R443). -/
def State.rdBkpCal (s : State) (t : Nat) : State :=
  s.bkpMod (fun b => { b with latches := modifyAt b.latches t (fun l => { l with cal := (calWords b.sec).2 }) })

/-- The words a port drives out. -/
def State.drive (s : State) (ws : List Word) : State :=
  { s with host := { s.host with out := { s.host.out with words := ws } } }

/-- The trim that disciplining sets from a window's pulses against DTS (R41): the window's length stays, T is the nearest that makes the
counts of the window equal to DTS. -/
def trimFrom (v : Word) (w : Nat) (gone : Rat) : Word :=
  let err := roundAway (gone * 32768) - (w : Int)
  let t := if err < -1023 then -1023 else if 1023 < err then 1023 else err
  putField v 10 0 (code 11 t)

/-- TRIM_WINDOW (R449, R41): a window ends at its last raw pulse and the next begins with the setting that waits. A step of DTS inside the window counts as DTS
elapsed (DESIGN CHOICE, log entry 84). -/
def execTrimWindow (t : Nat) (s : State) : Host.Outcome State Fault Refusal :=
  .next (
    let v := s.rget Reg.BKP_TRIM
    let w := trimWin v
    let s1 := (s.at t).osc (s.bkp.winStart + w)
    if !s1.bkp.powered || s1.flag Reg.BKP_STAT_OSCFAIL then s1 else
    let d := s1.dts s1.now
    let next :=
      if s1.rtcKept then
        match s1.bkp.winDts with
        | some d0 => some (trimFrom v w (d - d0))
        | none => s1.bkp.winNext
      else s1.bkp.winNext
    let s2 := s1.bkpMod (fun b => { b with winStart := b.winStart + w, winNext := none, winDts := if s1.up then some d else none })
    match next with
    | some n => s2.wr Reg.BKP_TRIM n
    | none => s2)

/-- WAKE_FIRE (R450, R451): channel `i` fires where its count has been reached. -/
def execWakeFire (i : Fin 8) (t raw : Nat) (s : State) : Host.Outcome State Fault Refusal :=
  .next (
    let s1 := (s.at t).osc raw
    match s1.bkp.wakes.getD i none with
    | none => s1
    | some n =>
      if s1.bkp.trim < n then s1 else
      let per := Nat.max 127 (s1.fget (Reg.BKP_WAKE_PM1 i)) + 1
      let sel := s1.fget Reg.BKP_CTRL_SQWSEL
      let tog := (sel == 1 && i.val == 6) || (sel == 2 && i.val == 7)
      let s2 := s1.bkpMod (fun b => { b with
        wakes := modifyAt b.wakes i (fun _ => some (n + per)), sqw := if tog then !b.sqw else b.sqw })
      (s2.evt ⟨Reg.BKP_EVT, 8 + i, 8 + i⟩).assertPwr i s2.now)

/-- ALARM_FIRE (R452): the count is at or past the alarm time while ARM is 1. It is late at the edge of a load, and at one at which ARM or the alarm time took
effect with the count already past: past it now, and at or past it at the edge before. -/
def execAlarmFire (t raw : Nat) (s : State) : Host.Outcome State Fault Refusal :=
  .next (
    let s1 := (s.at t).osc raw
    let due := (s1.rget64 Reg.BKP_ALM_SEC_LO % 281474976710656) * 32768 + s1.fget Reg.BKP_ALM_CTRL_FRAC
    if !s1.bkp.powered || !s1.flag Reg.BKP_ALM_CTRL_ARM || decide (s1.bkp.sec * 32768 + s1.bkp.frac < due) then s1 else
    let s2 := ((s1.fsetB Reg.BKP_ALM_CTRL_ARM false).fsetB Reg.BKP_STAT_ARMED false).evt Reg.BKP_EVT_ALARM
    let n := s2.bkp.sec * 32768 + s2.bkp.frac
    let late := s2.bkp.loadEdge = some s2.bkp.raw || (s2.bkp.armEdge = some s2.bkp.raw && decide (due < n) && decide (due + s2.bkp.step ≤ n))
    let s3 := if late then s2.fsetB Reg.BKP_STAT_ALM_LATE true else s2
    s3.assertPwr 8 s3.now)

/-! ## Tamper inputs and WAKE_IN (R454): input 0 TAMP0, 1 TAMP1, 2 WAKE_IN -/

/-- TAMPER_ACTIVE (R454): the pin of an input is at a level from the edge `raw`, stu `t`, on: it reaches its active level, or leaves it. -/
def execTamperActive (i : Fin 3) (t raw : Nat) (high : Bool) (s : State) : Host.Outcome State Fault Refusal :=
  .next (
    let s1 := (s.at t).osc raw
    if s1.bkp.powered then s1.tampSample i high else s1)

/-- An input's filter has run: its start, where an event is taken at the present pulse. -/
def State.tampDone (s : State) (i : Nat) : Option TampEdge :=
  match (s.tamp i).start with
  | none => none
  | some d => if (s.tamp i).taken || decide (s.bkp.raw < d.raw + s.tampFilt i) then none else some d

/-- TAMPER_EVENT (R454, R344): the event of TAMP0 or TAMP1, stamped at the edge at which the input reached its active level. -/
def execTamperEvent (i : Fin 2) (t raw : Nat) (s : State) : Host.Outcome State Fault Refusal :=
  .next (
    let s1 := (s.at t).osc raw
    match s1.tampDone i with
    | none => s1
    | some d =>
      let s2 := s1.bkpMod (fun b => { b with inputs := modifyAt b.inputs i (fun x => { x with taken := true }) })
      let fresh := !s2.flag (Reg.BKP_TCAP_HI_VALID i)
      let s3 := if fresh then s2.capture (Reg.BKP_TCAP_LO i) d.sec d.frac else s2
      let s4 := (s3.bump (if i.val = 0 then Reg.BKP_TCNT_T0 else Reg.BKP_TCNT_T1)).evt (if i.val = 0 then Reg.BKP_EVT_TAMP0 else Reg.BKP_EVT_TAMP1)
      let erase := if i.val = 0 then s4.flag Reg.BKP_TAMP_T0ERASE else s4.flag Reg.BKP_TAMP_T1ERASE
      let s5 := if erase then (List.range 16).foldl (fun (x : State) k => x.rset (Reg.BKP_SCR k) 0) s4 else s4
      let s6 := if s5.up || fresh then s5.bkpEvtAt (1 + i) d.stu d.time d.sec d.frac else s5
      s6.assertPwr (9 + i) s6.now)

/-- WAKE_IN_EVENT (R454). -/
def execWakeInEvent (t raw : Nat) (s : State) : Host.Outcome State Fault Refusal :=
  .next (
    let s1 := (s.at t).osc raw
    match s1.tampDone 2 with
    | none => s1
    | some _ =>
      let s2 := (s1.bkpMod (fun b => { b with inputs := modifyAt b.inputs 2 (fun x => { x with taken := true }) })).evt Reg.BKP_EVT_WAKEIN
      s2.assertPwr 11 s2.now)

/-- The device powers up: events taken meanwhile form their EVT records with their backup-domain times (R344, R454). -/
def State.bkpFlush (s : State) : State :=
  s.bkp.evts.foldl (fun (x : State) (e : Nat × Nat × Nat) => x.witEvent e.1 x.now (some (e.2.1, e.2.2)) [] 0 none)
    (s.bkpMod (fun b => { b with evts := [] }))

end Sys2Proof.Machine
end

