-- ==== Sys2Proof/Machine/Clocks.lean ====
section
/-!
DEFINITION. The clock synthesizers (chapter 3): band search and lock of SCS and CCS (R56 to R61), the core clock's
accumulator, ramps and voltage (R62 to R72), SAFE_OSC (R73 to R75), and the ICS lock sequence (R77 to R79).
-/

namespace Sys2Proof.Machine

/-! ## Access to the two lock machines -/

/-- A lock machine. -/
def State.loop (s : State) : LoopId → LoopS
  | .scs => s.clk.scs
  | .ccs => s.clk.ccs.loop

/-- The state with a lock machine replaced. -/
def State.setLoop (s : State) (l : LoopId) (x : LoopS) : State :=
  match l with
  | .scs => { s with clk := { s.clk with scs := x } }
  | .ccs => { s with clk := { s.clk with ccs := { s.clk.ccs with loop := x } } }

/-- The state with the core synthesizer changed. -/
def State.ccsMod (s : State) (f : CcsS → CcsS) : State := { s with clk := { s.clk with ccs := f s.clk.ccs } }

/-- The band and search bits a lock machine shows; CCS shows its band only (R81). -/
def State.showBand (s : State) (l : LoopId) (band : Nat) (searching : Bool) : State :=
  match l with
  | .scs => (s.fset Reg.SCS_STAT_BAND band).fsetB Reg.SCS_STAT_SEARCH searching
  | .ccs => s.fset Reg.CCS_STAT_BAND band

/-- REF_IN is absent: the clocks coast and nothing is counted (R59). -/
def State.refAbsent (s : State) : Bool := !s.flag Reg.TOP_DOMAIN_REF_OK

/-- A lock machine starts a band search at a stu, at band 32 (R56); while REF_IN is absent it waits for its return (R59), and shows band 32 already (DESIGN
CHOICE, log entry 83). -/
def State.startSearch (s : State) (l : LoopId) (t : Nat) : State :=
  if s.refAbsent then
    (s.setLoop l { (s.loop l) with phase := .waitRef }).showBand l 32 false
  else
    (s.setLoop l { (s.loop l) with phase := .search 0 0 64, since := roundUp t 160, held := none }).showBand l 32 true

/-! ## The core clock's cycles (R62) -/

/-- The depth of down spread in ppm, and of centre spread (R65). -/
def sscDown (ssc : Nat) : Nat := if ssc = 1 then 5000 else if ssc = 2 then 10000 else if ssc = 3 then 20000 else 0

/-- The depth of centre spread in ppm (R65). -/
def sscCentre (ssc : Nat) : Nat := if ssc = 5 then 2500 else if ssc = 6 then 5000 else if ssc = 7 then 10000 else 0

/-- One ramp step: toward the target by the slope, stopping exactly at it (R62). -/
def stepToward (base target slope : Nat) : Nat :=
  if base < target then (if base + slope < target then base + slope else target)
  else (if target + slope < base then base - slope else target)

/-- The spread offset of reference cycle `r` (R62). -/
def sscOff (ssc base r : Nat) : Int :=
  let p : Int := (r % 1280 : Nat)
  let w : Int := 640 - (p - 640).natAbs
  if sscDown ssc ≠ 0 then -(((base : Int) * sscDown ssc * w).tdiv 640000000)
  else if sscCentre ssc ≠ 0 then ((base : Int) * sscCentre ssc * (640 - 2 * w)).tdiv 640000000
  else 0

/-- The accumulator's walk over reference cycles `r`, `r + 1`, …: the base, the accumulator and the cycles issued (R62). -/
def ccsWalk (ssc target slope : Nat) : Nat → Nat → Nat → Nat → Nat → Nat × Nat × Nat
  | 0, _, base, acc, cyc => (base, acc, cyc)
  | n + 1, r, base, acc, cyc =>
    let b := stepToward base target slope
    let a := ((acc : Int) + b + sscOff ssc b r).toNat
    ccsWalk ssc target slope n (r + 1) b (a % 204800) (cyc + a / 204800)

/-- The `n` reference cycles from `r` on: the base and accumulator they end with and their core cycles. With no ramp and no spread the sum is `n` times the
base. -/
def ccsRun (ssc target slope n r base acc : Nat) : Nat × Nat × Nat :=
  if base = target ∧ sscDown ssc = 0 ∧ sscCentre ssc = 0 then
    (base, (acc + n * base) % 204800, (acc + n * base) / 204800)
  else ccsWalk ssc target slope n r base acc 0

/-- A whole tick of 12,800 reference cycles. -/
def ccsTick (ssc target slope base acc : Nat) : Nat × Nat × Nat := ccsRun ssc target slope 12800 0 base acc

/-- The base and accumulator after the evaluations `rc0` to `r` - 1 of the present tick. -/
def CcsS.upTo (c : CcsS) (r : Nat) : Nat × Nat :=
  let (b, a, _) := ccsRun c.ssc c.target16 c.slope16 (r - c.rc0) c.rc0 c.base16 c.acc
  (b, a)

/-- A segment is on its way to its target (R64). -/
def CcsS.ramping (c : CcsS) : Bool := c.segStart.isSome && !c.reached

/-- A profile runs: a segment is on its way, or one has still to start (R64). -/
def CcsS.profile (c : CcsS) : Bool := c.ramping || !c.segs.isEmpty

/-- The base in force at the present stu: the running segment has stepped once per rc since its start (R62). -/
def State.ccsBase (s : State) : Nat :=
  match s.clk.ccs.segStart with
  | none => s.clk.ccs.base16
  | some b =>
    let n := (s.now - b) / 160 + 1
    let c := s.clk.ccs
    if c.base16 < c.target16 then satTo c.target16 (c.base16 + n * c.slope16)
    else if c.target16 + n * c.slope16 < c.base16 then c.base16 - n * c.slope16 else c.target16

/-- The core runs on SAFE_OSC (R73). -/
def State.coreSafe (s : State) : Bool := s.flag Reg.TOP_DOMAIN_CORE_SAFE

/-- The cycles the planner counts on for a tick on SAFE_OSC (R74). -/
def safeCpt : Nat := 120000

/-! ## Voltage and frequency (R67, R68) -/

/-- FMAX as it acts (R81). -/
def fmaxOf (n : Nat) : Nat := clampN 128000 512000 n

/-- The ceiling of R67 for a spread mode and FMAX. -/
def ceilingOf (ssc fmax : Nat) : Nat :=
  let m := sscCentre ssc
  let c := if m = 0 then 512000 else 512000 * 1000000 / (1000000 + m)
  Nat.min (fmaxOf fmax) (Nat.min 512000 c)

/-- The ceiling of R67 under the spread in force. -/
def State.ceiling (s : State) : Nat := ceilingOf s.clk.ccs.ssc s.clk.ccs.fmax

/-- The voltage a frequency requires: VMIN of the lowest-numbered entry whose FMAX is at or above it (R68); past the last
entry the cap of 850 mV. -/
def State.vreq (s : State) (f : Nat) : Nat :=
  match s.otp.vf.find? (fun e => decide (f ≤ e.1)) with
  | some e => e.2
  | none => 850

/-- The voltage the device commands for a frequency (R68). -/
def State.vcommand (s : State) (f : Nat) : Nat :=
  Nat.max ((s.otp.vf.headD (0, 0)).2) (Nat.min 850 (s.vreq f + s.fget Reg.CCS_VREG_VMARGIN))

/-- The highest frequency a reading supports, none below CCS_VF[0].VMIN (R68). -/
def State.supports (s : State) (mv : Nat) : Option Nat :=
  let ok := s.otp.vf.filter (fun e => decide (e.2 ≤ mv))
  if mv < (s.otp.vf.headD (0, 0)).2 then none else some (Nat.min s.ceiling (maxN (ok.map (·.1))))

/-- The frequency in force, cpt, as the last change of a profile showed it: a ramp's start or end. -/
def State.freq (s : State) : Nat := s.fget Reg.CCS_STAT_FREQ

/-- The base frequency in force at the present stu, cpt: it follows a running ramp (R62, R81). -/
def State.freqNow (s : State) : Nat := s.ccsBase / 16

/-- The state with FREQ and the VREQ in force shown (R81). -/
def State.showFreq (s : State) : State :=
  let f := s.ccsBase / 16
  (s.fset Reg.CCS_STAT_FREQ f).fset Reg.CCS_VOUT_VREQ (s.vreq f)

/-! ## Loss of lock -/

/-- The evaluations of R62 made in the present tick, the one of the present reference cycle among them. -/
def State.evals (s : State) : Nat := satTo 12800 ((s.now - s.time.tick * tickStu) / 160 + 1)

/-- A running profile is abandoned, with a fall that a low reading asks for: the base stays where it is reached, from the present evaluation on (R73, R80). -/
def State.abandonProfile (s : State) : State :=
  let (b, a) := s.clk.ccs.upTo s.evals
  ((s.ccsMod (fun c => { c with
    rc0 := s.evals, base16 := b, acc := a, target16 := b, segStart := none, reached := false, segs := [], planned := [], steep := false, vlow := none })).fsetB
    Reg.CCS_STAT_RAMP false).showFreq

/-- The core domain switches to SAFE_OSC (R73); CCS searches for 128,000 cpt (R75). -/
def State.safeSwitch (s : State) : State :=
  let s1 := s.abandonProfile
  let s2 := ((s1.fsetB Reg.TOP_DOMAIN_CORE_SAFE true).fsetB Reg.CCS_STAT_SAFE true).evt Reg.CCS_EVT_SAFE_ON
  let s3 := (s2.fsetB Reg.CCS_STAT_LOCK false).ccsMod (fun c =>
    { c with
      base16 := 2048000, target16 := 2048000, returnDue := false, loop := { c.loop with fails := 0 }
      switchAt := if s.coreSafe then c.switchAt else some s.now })
  (s3.startSearch .ccs s3.now).showFreq

/-- SCS has lost lock at the present stu (R60, R58). -/
def State.scsLose (s : State) (slip : Bool) : State :=
  let s1 := ((s.rawTrack s.now (fun x => x.fsetB Reg.TOP_DOMAIN_SCS_LOCK false)).fsetB Reg.SCS_STAT_LOCK false).evt Reg.SCS_EVT_LOCK_LOST
  let s2 := if slip then s1.evt Reg.SCS_EVT_SLIP else s1
  let s3 := ({ s2 with ldg := { s2.ldg with unlocked := true } }.rset64 Reg.SCS_LOST_STU_LO s.now).fsetB Reg.TB_QUAL_HI_COARSE true
  (s3.setLoop .scs { s3.clk.scs with fails := 0 }).voidBegin.startSearch .scs (s.now + 1)

/-- CCS has lost lock at the present stu (R73). -/
def State.ccsLose (s : State) : State := (s.evt Reg.CCS_EVT_LOCK_LOST).safeSwitch

/-- Loss of lock of either loop. -/
def State.loopLose (s : State) (l : LoopId) (slip : Bool) : State :=
  match l with
  | .scs => s.scsLose slip
  | .ccs => s.ccsLose

/-- Lock declared at the present stu (R57, R60, R75). -/
def State.loopLock (s : State) : LoopId → State
  | .scs =>
    let s1 := (((s.setLoop .scs { s.clk.scs with phase := .locked, since := s.now, fails := 0 }).fsetB
      Reg.SCS_STAT_LOCK true).rawTrack (s.now + 1) (fun x => x.fsetB Reg.TOP_DOMAIN_SCS_LOCK true)).evt Reg.SCS_EVT_LOCKED
    (s1.fsetB Reg.TB_QUAL_HI_COARSE false).voidEnd
  | .ccs =>
    let s1 := ((s.setLoop .ccs { s.clk.ccs.loop with phase := .locked, since := s.now, fails := 0 }).fsetB
      Reg.CCS_STAT_LOCK true).evt Reg.CCS_EVT_LOCKED
    (s1.fsetB Reg.CCS_STAT_DEAD false).ccsMod (fun c => { c with returnDue := true })

/-- The retry of a quarantined loop after tick `now`: every 3000 ticks from the one at tick `r` (R61, R75). -/
def nextRetry (r now : Nat) : Nat := if now < r then r else r + ((now - r) / 3000 + 1) * 3000

/-- A lock attempt has failed (R61, R75): the third in a row quarantines the loop; its next search starts 3000 ticks after that failure, and further ones every
3000 ticks from there (the first of them: DEDUCED, log entry 76). -/
def State.loopFail (s : State) (l : LoopId) : State :=
  let x := s.loop l
  let n := x.fails + 1
  if n < 3 then (s.setLoop l { x with fails := n }).startSearch l s.now
  else
    let s1 := (s.setLoop l { x with phase := .failed, fails := n, retry := if n = 3 then s.time.tick + 3000 else nextRetry x.retry s.time.tick })
    if n = 3 then
      match l with
      | .scs => ((s1.evt Reg.SCS_EVT_SEARCH_FAIL).fsetB Reg.SCS_STAT_SEARCH false).fault 0x2003 0xFF 0xFF 0
      | .ccs => ((s1.evt Reg.CCS_EVT_DEAD).fsetB Reg.CCS_STAT_DEAD true).fault 0x2004 0xFF 0xFF 0
    else s1

/-- A window count kept for the hold mean: the last 16 and one more, which may end inside the failing monitor window (R47). -/
def LoopS.keep (x : LoopS) (n : Nat) : LoopS := { x with counts := (n :: x.counts).take 17 }

/-- The count lies within `d` of the nominal 1024. -/
def near1024 (n d : Nat) : Bool := decide (n ≤ 1024 + d) && decide (1024 ≤ n + d)

/-- LASTCNT of SCS: the count less 1024, signed, saturating (R81). -/
def State.showCount (s : State) (l : LoopId) (n : Nat) : State :=
  match l with
  | .scs => s.fset Reg.SCS_STAT_LASTCNT (code 8 (satS 8 ((n : Int) - 1024)))
  | .ccs => s

/-! ## The commands -/

/-- BAND_SEARCH_STEP (R56): the step ends 1152 rc after it began; its count chooses the half of the interval (a higher band is
taken to run faster, log entry 7); after the sixth the loop settles for 256 rc before its windows. -/
def execBandSearchStep (l : LoopId) (count : Nat) (s : State) : Host.Outcome State Fault Refusal :=
  .next (
    let x := s.loop l
    match x.phase with
    | .search k lo hi =>
      if s.refAbsent then s else
      let s1 := s.at (x.since + 160 * 1152)
      let mid := (lo + hi) / 2
      let lo' := if count ≤ 1024 then mid else lo
      let hi' := if count ≤ 1024 then hi else mid
      if k < 5 then
        (s1.setLoop l { x with phase := .search (k + 1) lo' hi', since := x.since + 160 * 1152 }).showBand l ((lo' + hi') / 2) true
      else
        (s1.setLoop l { x with phase := .count 0 0, since := x.since + 160 * (1152 + 256) }).showBand l lo' false
    | _ => s)

/-- LOCK_WINDOW (R57): a window of 1024 rc ends with its count. -/
def execLockWindow (l : LoopId) (count : Nat) (s : State) : Host.Outcome State Fault Refusal :=
  .next (
    let x := s.loop l
    let e := x.since + 160 * 1024
    if s.refAbsent then s else
    match x.phase with
    | .count win good =>
      let s1 := (s.at e).showCount l count
      let g := if near1024 count 2 then good + 1 else 0
      let y := { x.keep count with since := e, phase := .count (win + 1) g }
      if g = 4 then (s1.setLoop l y).loopLock l
      else if win + 1 = 16 then (s1.setLoop l y).loopFail l
      else s1.setLoop l y
    | .locked =>
      let s1 := ((s.at e).showCount l count).setLoop l { x.keep count with since := e }
      if near1024 count 8 then s1 else s1.loopLose l false
    | _ => s)

/-- SLIP_DETECT (R58): an edge missing or extra within 2 rc declares loss of lock. -/
def execSlipDetect (l : LoopId) (t : Nat) (s : State) : Host.Outcome State Fault Refusal :=
  .next (
    if s.refAbsent then s else
    match (s.loop l).phase with
    | .locked => (s.at t).loopLose l true
    | _ => s)

/-- SCS_RETRY (R61): every 3000 ticks after three failed searches. -/
def execScsRetry (s : State) : Host.Outcome State Fault Refusal :=
  .next (
    match s.clk.scs.phase with
    | .failed =>
      let s1 := s.at (s.clk.scs.retry * tickStu)
      s1.startSearch .scs s1.now
    | _ => s)

/-- CCS_NO_EDGE (R73): no edge for 4 SAFE_OSC cycles. A locked CCS has then lost its lock too (LOCK_LOST: DESIGN CHOICE, log entry 76), but none is declared
while the clocks coast (R59). -/
def execCcsNoEdge (t : Nat) (s : State) : Host.Outcome State Fault Refusal :=
  .next (
    if s.coreSafe then s.at t else
    if s.flag Reg.CCS_STAT_LOCK && !s.refAbsent then (s.at t).ccsLose else (s.at t).safeSwitch)

/-- CCS_RETRY (R75): a dead CCS retries once every 3000 ticks. -/
def execCcsRetry (s : State) : Host.Outcome State Fault Refusal :=
  .next (
    match s.clk.ccs.loop.phase with
    | .failed =>
      let s1 := s.at (s.clk.ccs.loop.retry * tickStu)
      s1.startSearch .ccs s1.now
    | _ => s)

/-- The last segment has ended: RAMP clears, and after a fall the voltage may be lowered (R64, R70). -/
def State.profileEnd (s : State) : State :=
  let s1 := s.fsetB Reg.CCS_STAT_RAMP false
  if s.flag Reg.CCS_STAT_VFROZEN then s1.ccsMod (fun c => { c with lowerTo := none })
  else match s.clk.ccs.lowerTo with
    | some mv => s1.ccsMod (fun c => { c with vcmd := if mv < c.mv then some mv else c.vcmd, lowerTo := none })
    | none => s1

/-- The reference cycles a segment takes: one step each until the target (R62). -/
def rampRc (base target slope : Nat) : Nat :=
  if base < target then ceilDiv (target - base) slope else ceilDiv (base - target) slope

/-- RAMP_TARGET_REACHED (R64): the running segment reaches its target, which CCS holds to the boundary; with no segment left the profile ends. The tick's
evaluations stay as they are: its accumulator is closed at the boundary (R62). -/
def execRampTargetReached (s : State) : Host.Outcome State Fault Refusal :=
  .next (
    let c := s.clk.ccs
    match c.segStart with
    | none => s
    | some b =>
      if c.reached then s else
      let s1 := s.at (b + 160 * rampRc c.base16 c.target16 c.slope16)
      let s2 := (s1.ccsMod (fun c => { c with reached := true })).showFreq
      if c.segs.isEmpty then s2.profileEnd else s2)

/-! ## Voltage (R69 to R72) -/

/-- TWB is ready for a transaction of the device (R71, R79, R429). -/
def State.twbReady (s : State) : Bool :=
  !s.flag (Reg.TW_STAT_STUCK 1) && !s.flag (Reg.TW_STAT_BUSY 1) && !s.flag Reg.ICS_STAT_PAUSED

/-- The word of a voltage in the linear format (R426). -/
def State.voutWord (s : State) (mv : Nat) : Nat :=
  let e := sgn 5 (s.fget Reg.CCS_VREG_VEXP)
  (roundAway ((mv : Rat) / 1000 * (if e < 0 then ((2 ^ (-e).toNat : Nat) : Rat) else 1 / ((2 ^ e.toNat : Nat) : Rat)))).toNat % 65536

/-- The millivolts of a READ_VOUT word, to the nearest (R426; log entry 8). -/
def State.voutMv (s : State) (w : Nat) : Nat :=
  let e := sgn 5 (s.fget Reg.CCS_VREG_VEXP)
  (roundAway (((w % 65536 : Nat) : Rat) * 1000 * (if e < 0 then 1 / ((2 ^ (-e).toNat : Nat) : Rat) else ((2 ^ e.toNat : Nat) : Rat)))).toNat

/-- A transaction of the device on a bus is under way: BUSY from its START, ACTIVE, and the timing registers taken (R429, R431). -/
def State.busStart (s : State) (b : Nat) : State :=
  let s1 := (s.fsetB (Reg.TW_STAT_BUSY b) true).fsetB (Reg.TW_STAT_ACTIVE b) true
  s1.busMod b (fun x => { x with tim := [s.rget (Reg.TW_TIM0 b), s.rget (Reg.TW_TIM1 b), s.rget (Reg.TW_TIM2 b)] })

/-- What a transaction that was not done leaves behind (R426 to R428): true if it is to be repeated after bus-free. -/
def State.twbFail (s : State) (r : TwbResult) : State × Bool :=
  let s0 := s.fsetB (Reg.TW_STAT_ACTIVE 1) false
  match r with
  | .ok _ => (s0.busMod 1 (fun x => { x with repeated := false, retry := false }), false)
  | .arbLost => (((s0.evt (Reg.TW_EVT_ARB_LOST 1)).bump (Reg.TW_CNT_ARB 1)).busMod 1 (fun x => { x with retry := true }), true)
  | .pecErr _ => ((s0.evt (Reg.TW_EVT_PEC_ERR 1)).busMod 1 (fun x => { x with repeated := false, retry := false }), false)
  | .nack =>
    if (s.bus 1).repeated then
      ((s0.evt (Reg.TW_EVT_NACK 1)).busMod 1 (fun x => { x with repeated := false, retry := false }), false)
    else (s0.busMod 1 (fun x => { x with repeated := true, retry := true }), true)

/-- The PEC over the bytes of a write, the address among them: the CRC-8 of the SMBus standard, whose polynomial no rule gives (PRESUMED, log entry 70). -/
def pecOf (l : List Byte) : Byte :=
  BitVec.ofNat 8 ((l.map (fun b => (List.range 8).map (fun i => bitOf b.toNat (7 - i)))).flatten.foldl (crcLeft 8 7) 0)

/-- PEC is used on TWB (R426). -/
def State.pecOn (s : State) : Bool := s.flag (Reg.TW_CTRL_PEC 1)

/-- The bytes of a transaction the device drove to the address of the regulator (R425): a write carries its PEC where PEC is used (R426). -/
def State.drove (s : State) (cmd : Nat) (data : List Byte) : State :=
  let a := s.fget Reg.CCS_VREG_ADDR
  let l := if data.isEmpty || !s.pecOn then data else data ++ [pecOf (leBytes (2 * a) 1 ++ leBytes cmd 1 ++ data)]
  s.busMod 1 (fun x => { x with last := some (a, cmd, l) })

/-- A result as the device takes it: the PEC counts only where it is checked, on reads with PEC = 1 (R426). -/
def twbTaken (r : TwbResult) (checks : Bool) : TwbResult :=
  match r with
  | .pecErr w => if checks then r else .ok w
  | _ => r

/-- A transaction of a reading under way on TWB, or begun now on a free bus (R429); none while the bus is stuck, busy or paused (R79, R437). -/
def State.readOn (s : State) : Option State :=
  if s.flag (Reg.TW_STAT_STUCK 1) || s.flag Reg.ICS_STAT_PAUSED then none
  else if s.flag (Reg.TW_STAT_ACTIVE 1) then some s
  else if s.flag (Reg.TW_STAT_BUSY 1) then none
  else some (s.busStart 1)

/-- The stu by which the next reading starts on a free bus (R69, R72): 500,000 stu after the VOUT_COMMAND of a raise that awaits confirmation, then 400,000
after the reading before; otherwise 300 ticks after it. -/
def State.readDue (s : State) : Nat :=
  let c := s.clk.ccs
  let plain := c.readStart + 300 * tickStu
  match c.raise with
  | some x =>
    if x.confirmed then plain
    else match x.written with
      | some w => if c.readStart < w then Nat.min plain (w + 500000) else c.readStart + 400000
      | none => if c.vcmd.isSome then plain else c.readStart + 400000
  | none => plain

/-- The stu a reading starts at where the command gives `t`: the device may start one sooner than it is due; one that is due starts then on a free bus. -/
def State.readAt (s : State) (t : Nat) : Nat := if s.twbReady then Nat.min t (Nat.max s.now s.readDue) else t

/-- READING_DUE (R69, R72): a reading starts on a free bus once the compute island has started, no later than it is due. -/
def execReadingDue (t : Nat) (s : State) : Host.Outcome State Fault Refusal :=
  .next (
    let s1 := s.at (if s.clk.ccs.operation && s.clk.ccs.readStage == 0 then s.readAt t else t)
    if s1.twbReady && s.clk.ccs.operation && s.clk.ccs.readStage == 0 then
      (s1.busStart 1).ccsMod (fun c => { c with readStage := 1, readStart := s1.now, readTick := s1.time.tick })
    else s1)

/-- VOUT_COMMAND (R69, R70, R426): the write that waits is made, unless the bus is busy or stuck (R71). -/
def execVoutCommand (t : Nat) (r : TwbResult) (s : State) : Host.Outcome State Fault Refusal :=
  .next (
    let s1 := s.at t
    match s.clk.ccs.vcmd with
    | none => s1
    | some mv =>
      if !s1.twbReady then s1 else
      let s2 := ((s1.busStart 1).drove 0x21 (leBytes (s1.voutWord mv) 2))
      let (s3, _) := s2.twbFail (twbTaken r false)
      match twbTaken r false with
      | .ok _ => s3.ccsMod (fun c => { c with
          mv := mv, vcmd := none, readSinceCmd := false
          raise := c.raise.map (fun x => if x.mv = mv then { x with written := some s1.now, since := s1.now } else x) })
      | .nack => if (s.bus 1).repeated then s3.ccsMod (fun c => { c with vcmd := none }) else s3
      | _ => s3)

/-- OPERATION (R425, R561): written once when the compute island first starts. -/
def execOperation (t : Nat) (r : TwbResult) (s : State) : Host.Outcome State Fault Refusal :=
  .next (
    let s1 := s.at t
    if s.clk.ccs.operation || s.boot.verifiedAt.isNone || !s1.twbReady then s1 else
    let s2 := (s1.busStart 1).drove 0x01 [0x80]
    let (s3, again) := s2.twbFail (twbTaken r false)
    if again then s3 else s3.ccsMod (fun c => { c with operation := true }))

/-- A reading below the VREQ of the frequency in force (R72): a steep fall at the next boundary, or SAFE_OSC at once while the
clocks coast. -/
def State.vlow (s : State) (mv : Nat) : State :=
  if s.vreq s.freqNow ≤ mv then s else
  let s1 := (s.evt Reg.CCS_EVT_VLOW).fault 0x0007 0xFF 0xFF 0
  if s.flag Reg.TOP_DOMAIN_COAST then (if s.coreSafe then s1 else s1.safeSwitch)
  else
    let f := (s.supports mv).getD 128000
    -- the steepest fall to such a frequency is under way already
    if (s.clk.ccs.ramping && s.clk.ccs.slope16 == 2777 && s.clk.ccs.target16 ≤ 16 * f) ||
        s.clk.ccs.planned.any (fun g => g.slope == 2777 && decide (g.target ≤ f)) then s1
    else s1.ccsMod (fun c => { c with vlow := some f })

/-- A reading's transaction is not done: the reading ends, unless it repeats. -/
def State.readFail (s : State) (r : TwbResult) : State :=
  let (s1, again) := s.twbFail r
  if again then s1 else s1.ccsMod (fun c => { c with readStage := 0, pendMv := none })

/-- READ_VOUT (R69, R72): the first transaction of a reading, at its end. -/
def execReadVout (t : Nat) (r : TwbResult) (s : State) : Host.Outcome State Fault Refusal :=
  .next (
    let s1 := s.at t
    if s.clk.ccs.readStage ≠ 1 then s1 else
    match s1.readOn with
    | none => s1
    | some x =>
    let s2 := x.drove 0x8B []
    match twbTaken r s.pecOn with
    | .ok w =>
      let mv := s.voutMv w
      let (s3, _) := s2.twbFail (.ok w)
      ((s3.ccsMod (fun c => { c with readStage := 2, pendMv := some mv })).fset Reg.CCS_VOUT_VOUT mv).vlow mv
    | e => s2.readFail e)

/-- A raise is confirmed by a reading at or above its target's VREQ with no VOUT fault (R69). -/
def State.confirm (s : State) : State :=
  match s.clk.ccs.raise with
  | none => s
  | some x =>
    if s.clk.ccs.readOk && decide (s.vreq x.target ≤ s.clk.ccs.readMv) && s.clk.ccs.vcmd.isNone then
      (s.ccsMod (fun c => { c with raise := some { x with confirmed := true } })).fsetB Reg.CCS_STAT_VWAIT false
    else s

/-- STATUS_WORD (R69, R426): the second transaction ends the reading's stu. -/
def execStatusWord (t : Nat) (r : TwbResult) (s : State) : Host.Outcome State Fault Refusal :=
  .next (
    let s1 := s.at t
    if s.clk.ccs.readStage ≠ 2 then s1 else
    match s1.readOn with
    | none => s1
    | some x =>
    let s2 := x.drove 0x79 []
    match twbTaken r s.pecOn with
    | .ok w =>
      let (s3, _) := s2.twbFail (.ok w)
      (s3.ccsMod (fun c => { c with
        readStage := 3, readMv := c.pendMv.getD 0, readStu := s1.now, pendMv := none, readSinceCmd := true
        readOk := !(bitOf w 15 || bitOf w 5) })).confirm
    | e => s2.readFail e)

/-- The milliamperes of a LINEAR11 word (R426): mantissa times 2 to the exponent. -/
def linear11 (w : Nat) : Rat :=
  let m := sgn 11 (w % 2048)
  let e := sgn 5 (w / 2048 % 32)
  (m : Rat) * (if e < 0 then 1 / ((2 ^ (-e).toNat : Nat) : Rat) else ((2 ^ e.toNat : Nat) : Rat)) * 1000

/-- READ_IOUT (R271): the third transaction; the ledger takes the power of the reading. -/
def execReadIout (t : Nat) (r : TwbResult) (s : State) : Host.Outcome State Fault Refusal :=
  .next (
    let s1 := s.at t
    if s.clk.ccs.readStage ≠ 3 then s1 else
    match s1.readOn with
    | none => s1
    | some x =>
    let s2 := x.drove 0x8C []
    match twbTaken r s.pecOn with
    | .ok w =>
      let (s3, _) := s2.twbFail (.ok w)
      let ma := linear11 w
      let s4 := s3.ccsMod (fun c => { c with readStage := 0 })
      { s4 with
        ldg := { s3.ldg with lastIout := ma, readings := s3.ldg.readings ++ [((s.clk.ccs.readMv : Nat) : Rat) * ma] } }
    | e => s2.readFail e)

/-- RAISE_TIMEOUT (R69): 30 ticks after the VOUT_COMMAND write, or after the decision where none was written. -/
def execRaiseTimeout (s : State) : Host.Outcome State Fault Refusal :=
  .next (
    match s.clk.ccs.raise with
    | none => s
    | some x =>
      if x.confirmed then s else
      let s1 := s.at (x.since + 30 * tickStu)
      ((s1.ccsMod (fun c => { c with
        raise := none, noRaise := s1.time.tick + 3000
        vcmd := if s1.vcommand s1.freq = c.mv then none else some (s1.vcommand s1.freq) })).evt Reg.CCS_EVT_VFAIL).fsetB
        Reg.CCS_STAT_VWAIT false)

/-- A raise is decided (R69): VOUT_COMMAND for the target unless that voltage is already commanded, in which case the most
recent reading since then may confirm it at once. -/
def State.decideRaise (s : State) (f : Nat) : State :=
  let mv := s.vcommand f
  let s1 := (s.ccsMod (fun c => { c with
    raise := some { target := f, mv := mv, since := s.now, written := none }
    vcmd := if mv = c.mv then none else some mv, lowerTo := none })).fsetB Reg.CCS_STAT_VWAIT true
  if mv = s.clk.ccs.mv && s.clk.ccs.readSinceCmd then s1.confirm else s1

/-! ## The plan's profile: at the cut-off and at the boundary -/

/-- The slope of the ledger's profiles: LDG_CFG.SLOPE in MHz/µs, in units of 1/16 cpt per rc (R282). -/
def State.ledgerSlope (s : State) : Nat :=
  clampN 14 2777 (694 * zeroAs1 (s.fget Reg.LDG_CFG_SLOPE) / 6)

/-- The frequency to which a steep fall is to go: that which a low reading supports, unless the profile that runs has brought the base to it or below by the
next boundary (R72). -/
def State.steepTo (s : State) : Option Nat :=
  match s.clk.ccs.vlow with
  | some f => if 16 * f < (s.clk.ccs.upTo 12800).1 then some f else none
  | none => none

/-- The profile of the plan for the next tick (R64, R69, R70, R72): a steep fall after a low reading, in place of a profile that runs and of a raise under
way; else, where no profile runs, a confirmed raise or the fall the ledger chose; none while the clocks coast or the core is on SAFE_OSC. A low reading after
the cut-off is planned at the next one, since a first segment starts at the boundary its plan names (DEDUCED from R64, log entry 83). In G5 the core clock is 128,000
cpt (R286): a raise under way is given up. -/
def State.planProfile (s : State) : State :=
  let c := s.clk.ccs
  if s.flag Reg.TOP_DOMAIN_COAST || s.coreSafe then s else
  match s.steepTo with
  | some f =>
    (s.ccsMod (fun c => { c with
      planned := [⟨f, 2777, true⟩], steep := true, vlow := none, raise := none, lowerTo := some (s.vcommand f) })).fsetB Reg.CCS_STAT_VWAIT false
  | none =>
    let g5 := s.fget Reg.LDG_STAT_NEXT == 5
    let s0 := s.ccsMod (fun c => { c with vlow := none })
    let s1 := if g5 && c.raise.isSome then
        (s0.ccsMod (fun c => { c with raise := none, vcmd := if s.vcommand s.freq = c.mv then none else some (s.vcommand s.freq) })).fsetB Reg.CCS_STAT_VWAIT false
      else s0
    if c.profile then s1 else
    match (if g5 then none else c.raise) with
    | some x => if x.confirmed then s1.ccsMod (fun c => { c with planned := [⟨x.target, s.ledgerSlope, true⟩], raise := none }) else s1
    | none =>
      if c.chosen < s.freq then
        s1.ccsMod (fun c' => { c' with planned := [⟨c.chosen, s.ledgerSlope, true⟩], lowerTo := some (s.vcommand c.chosen) })
      else s1

/-- The spread and FMAX in force from the next boundary: the last request of CCS_CTRL that falls due by it (R66). -/
def State.nextCtl (s : State) : Nat × Nat :=
  s.reqs.foldl (fun (n : Nat × Nat) q => match q.kind with
    | .reg a v => if a = Reg.CCS_CTRL ∧ q.due ≤ s.time.tick + 1 then (fieldOf v 21 19, fmaxOf (fieldOf v 18 0)) else n
    | _ => n) (s.clk.ccs.ssc, s.clk.ccs.fmax)

/-- The ceiling from the next boundary on: a ledger decision plans with it, so that all the fields of a BUDGET act on one decision (R408). -/
def State.ceilingNext (s : State) : Nat := ceilingOf s.nextCtl.1 s.nextCtl.2

/-- The segment that starts at a boundary at which the base is `b` (R64, R72): a steep fall in any case, else the next of a profile whose running segment has
reached its target; none while the clocks coast. -/
def State.nextSeg (s : State) (b : Nat) : Option Seg :=
  let c := s.clk.ccs
  if s.flag Reg.TOP_DOMAIN_COAST then none
  else if c.steep then c.planned.head?
  else if c.segStart.isSome && b != c.target16 then none
  else (c.segs ++ c.planned).head?

/-- The exact cycles of the next tick as the plan stands at its cut-off (R62): the present tick runs out first. -/
def State.nextCycles (s : State) : Nat :=
  let c := s.clk.ccs
  if s.coreSafe && !c.returnDue then safeCpt else
  let (b, a) := if s.coreSafe then (c.base16, c.acc) else c.upTo 12800
  let (ssc, fmax) := s.nextCtl
  match if s.coreSafe then none else s.nextSeg b with
  | some g => (ccsTick ssc (16 * Nat.min g.target (ceilingOf ssc fmax)) g.slope b a).2.2
  | none => (ccsTick ssc c.target16 c.slope16 b a).2.2

/-- The profile is written into the segment registers at the boundary it starts at (R63); a TARGET above the ceiling sets CLAMP, which nothing clears (R67;
both DESIGN CHOICE, log entry 76). -/
def State.writeSegs (s : State) : List Seg → Nat → State
  | [], _ => s
  | g :: gs, n =>
    let t := Nat.min g.target s.ceiling
    let s1 := ((s.fset (Reg.CCS_SEG_TGT_TARGET n) t).fsetB (Reg.CCS_SEG_TGT_LAST n) g.last).fset (Reg.CCS_SEG_SLP_SLOPE n) g.slope
    (if t < g.target then s1.fsetB Reg.CCS_STAT_CLAMP true else s1).writeSegs gs (n + 1)

/-- A segment starts at the present boundary (R64). -/
def State.startSeg (s : State) (g : Seg) (rest : List Seg) : State :=
  (s.ccsMod (fun c => { c with
    target16 := 16 * Nat.min g.target s.ceiling, slope16 := g.slope, segStart := some s.now, segs := rest, planned := [], steep := false })).fsetB
    Reg.CCS_STAT_RAMP true

/-- The core clock at the end of the tick (R62, R64): its accumulator and base are taken over under the spread it ran with, and a profile whose last segment
has reached its target in it ends. -/
def State.coreClose (s : State) : State :=
  let c := s.clk.ccs
  let (b, a) := if s.coreSafe then (c.base16, c.acc) else c.upTo 12800
  let running := c.segStart.isSome && b != c.target16
  let ended := c.ramping && b == c.target16
  let s1 := s.ccsMod (fun c => { c with
    rc0 := 0, base16 := b, acc := a, stepCut := 0, reached := false, segStart := if running then some s.now else none })
  if ended && c.segs.isEmpty then s1.profileEnd else s1

/-- The core clock of the tick that begins (R62, R64 to R66, R72, R75): the core returns to CCS if lock was declared, a segment due starts under the spread
and ceiling now in force, and the cycles of the new tick are shown. The accumulator of a CCS that returns is the one it had (DESIGN CHOICE, log entry 76). A
profile planned for this boundary starts also where the plan before is repeated (DESIGN CHOICE, log entry 22). -/
def State.coreOpen (s : State) : State :=
  let c := s.clk.ccs
  let s1 := if c.returnDue && s.coreSafe then
      ((((s.ccsMod (fun c => { c with returnDue := false })).fsetB Reg.TOP_DOMAIN_CORE_SAFE false).fsetB
        Reg.CCS_STAT_SAFE false).evt Reg.CCS_EVT_SAFE_OFF)
    else s
  let s2 := match if s1.coreSafe then none else s1.nextSeg c.base16, c.steep, c.segs with
    | none, _, _ => s1
    | some g, false, _ :: gs => s1.startSeg g gs
    | some g, _, _ => (s1.writeSegs c.planned 0).startSeg g (c.planned.drop 1)
  let s3 := s2.ccsMod (fun c => { c with planned := [], steep := false, switchAt := none })
  let d := s3.clk.ccs
  let cyc := if s3.coreSafe then safeCpt else (ccsTick d.ssc d.target16 d.slope16 d.base16 d.acc).2.2
  (s3.rsetN Reg.CCS_TICKCYC cyc).showFreq

/-! ## The interface clock (R77 to R79) -/

/-- The ICS lock sequence starts with the precharge, whose 8192 rc count from stu `t` (R77). -/
def State.icsStart (s : State) (t : Nat) : State :=
  { s.fsetB Reg.ICS_STAT_PRECHARGE true with clk := { s.clk with ics := .precharge, icsSince := t } }

/-- An LKF fault (R78): timed mode begins. -/
def State.lkfFault (s : State) : State :=
  let s1 := (((s.evt Reg.ICS_EVT_LKF_FAULT).fsetB Reg.ICS_STAT_LKF_FAULT true).fsetB Reg.ICS_STAT_PRECHARGE false).fault 0x0006 0xFF 0xFF 0
  { s1 with clk := { s1.clk with ics := .timed, icsSince := s.now } }

/-- ICS lock is declared: traffic resumes (R77, R79). -/
def State.icsLocked (s : State) : State :=
  ((((s.fsetB Reg.ICS_STAT_LOCK true).fsetB Reg.TOP_DOMAIN_ICS_LOCK true).evt Reg.ICS_EVT_LOCKED).fsetB
    Reg.ICS_STAT_PAUSED false).nfWp

/-- ICS_PRECHARGE_END (R77, R78): after 8192 rc the pin is released; `node` is the LKF voltage in thousandths of VDD_IO. -/
def execIcsPrechargeEnd (node : Nat) (s : State) : Host.Outcome State Fault Refusal :=
  .next (
    match s.clk.ics with
    | .precharge =>
      let s1 := s.at (s.clk.icsSince + 160 * 8192)
      if node < 800 then s1.lkfFault
      else
        let s2 := s1.fsetB Reg.ICS_STAT_PRECHARGE false
        { s2 with clk := { s2.clk with ics := .released, icsSince := s1.now } }
    | _ => s)

/-- LKF_RELEASE_CHECK (R78): 64 rc after release the node must stand at 0.5 of VDD_IO or above. -/
def execLkfReleaseCheck (node : Nat) (s : State) : Host.Outcome State Fault Refusal :=
  .next (
    match s.clk.ics with
    | .released =>
      let s1 := s.at (s.clk.icsSince + 160 * 64)
      if node < 500 then s1.lkfFault else s1
    | _ => s)

/-- The device's own transaction on a two-wire bus stops at its byte boundary when ICS loses lock: abandoned, and retried after relock (R79, R437). -/
def State.twAbandon (s : State) (b : Nat) : State :=
  if s.flag (Reg.TW_STAT_ACTIVE b) then (s.fsetB (Reg.TW_STAT_ACTIVE b) false).busMod b (fun x => { x with retry := true }) else s

/-- ICS_LOCK_LOST (R79): the node has stayed above 0.3 of VDD_IO for 16 rc; timed mode never declares loss (R78), and nothing
is declared while the clocks coast (R59). -/
def execIcsLockLost (t : Nat) (s : State) : Host.Outcome State Fault Refusal :=
  .next (
    match s.clk.ics with
    | .locked =>
      if s.refAbsent then s else
      let s1 := s.at t
      let s2 := ((((s1.fsetB Reg.ICS_STAT_LOCK false).fsetB Reg.TOP_DOMAIN_ICS_LOCK false).evt Reg.ICS_EVT_LOCK_LOST).fsetB
        Reg.ICS_STAT_PAUSED true).nfWp.icsPause
      ((s2.twAbandon 0).twAbandon 1).icsStart s1.now
    | _ => s)

/-- LKF_FAULT_TIMEOUT (R78): lock not declared 153,600 rc after release. -/
def execLkfFaultTimeout (s : State) : Host.Outcome State Fault Refusal :=
  .next (
    match s.clk.ics with
    | .released => (s.at (s.clk.icsSince + 160 * 153600)).lkfFault
    | _ => s)

end Sys2Proof.Machine
end

