-- ==== Sys2Proof/Machine/Timebase.lean ====
section
/-!
DEFINITION. Disciplining of DTS (R36 to R42), PPS_IN and the spoofing check (R43, R44), PPS_OUT and TICK_OUT (R45, R46), and the
loss and return of REF_IN (R47 to R52).
-/

namespace Sys2Proof.Machine

/-- The state with the timebase changed. -/
def State.timeMod (s : State) (f : TimeS → TimeS) : State := { s with time := f s.time }

/-! ## Reads (R32) -/

/-- A tenant's read of TB_STU_LO latches its copies. -/
def State.rdStu (s : State) (k : Nat) : State :=
  let d := s.dts s.now
  let l : TbLatch := {
    stuHi := BitVec.ofNat 32 (s.now / 4294967296), tickLo := BitVec.ofNat 32 s.time.tick, tickHi := BitVec.ofNat 32 (s.time.tick / 4294967296)
    secLo := BitVec.ofNat 32 (dtsSec d), secHi := BitVec.ofNat 32 (dtsSec d / 4294967296), frac := BitVec.ofNat 32 (dtsFrac d)
    qLo := s.qualLoAt s.now, qHi := s.qualHiAt s.now }
  s.timeMod (fun x => { x with latches := modifyAt x.latches k (fun _ => l) })

/-! ## Observations -/

/-- Observations are rejected and counted (R38). -/
def State.rejectObs (s : State) (n : Nat) : State :=
  if n = 0 then s else (s.timeMod (fun x => { x with rejCount := x.rejCount + n })).evt Reg.TB_EVT_OBS_REJECT

/-- The observation a TOBS record makes (R182): a claim in UTC is converted by TB_UTC.OFS; a record of another length is rejected (R220). -/
def State.tobs (s : State) (r : Rec) : State :=
  let p := r.payload
  if p.length ≠ 48 then s.rejectObs 1 else
  let u := leAt p 12 8
  let c : Rat := ((u % 281474976710656 : Nat) : Rat) + ((leAt p 20 4 : Nat) : Rat) / 4294967296
  let ofs : Rat := ((sgn 16 (s.fget Reg.TB_UTC_OFS) : Int) : Rat)
  let b := leAt p 40 1
  let o : Obs := {
    cls := .bcast, tx := leAt p 0 2 * 18446744073709551616 + leAt p 4 8
    claim := if bitOf u 63 then c - ofs else c, epoch := leAt p 24 8, bound := leAt p 36 4
    utc := if bitOf b 0 then some { pend := b / 2 % 2, delta := b / 4 % 4, ofs := leAt p 42 2, leapAt := leAt p 44 4 } else none }
  s.timeMod (fun x => { x with obs := x.obs ++ [o] })

/-- The distinct members of a list. -/
def distinct : List Nat → List Nat
  | [] => []
  | a :: t => if (distinct t).contains a then distinct t else a :: distinct t

/-- The broadcast class is valid (R37). -/
def State.bcastValid (s : State) : Bool :=
  let h := s.time.bcastHist.filter (fun p => decide (s.now ≤ p.1 + 60 * secStu))
  s.flag Reg.TB_CTRL_BCAST_SRC && decide (Nat.max 2 (s.fget Reg.TB_DISC_MINOBS) ≤ h.length) &&
    decide (2 ≤ (distinct (h.map (·.2))).length)

/-- PPS_IN is a valid source (R37, R44). -/
def State.ppsValid (s : State) : Bool :=
  s.flag Reg.TB_CTRL_PPS_SRC && decide (10 ≤ (s.time.ppsHist.filter (fun t => decide (s.now ≤ t + 12 * secStu))).length) &&
    (!s.flag Reg.TB_QUAL_HI_SPOOF || !s.flag Reg.TB_CTRL_SPOOF_DROP)

/-- The class in use (R37): while none is valid and HOST_SRC is 1, the host class. -/
def State.useClass (s : State) : Option TimeClass :=
  if s.bcastValid then some .bcast
  else if s.ppsValid then some .pps
  else if s.flag Reg.TB_CTRL_HOST_SRC then some .host
  else none

/-- A change of the class in use ends the run of rejecting evaluations, also one between evaluations (R38). -/
def State.trackClass (s : State) : State :=
  if s.time.rejCls = s.useClass then s else s.timeMod (fun t => { t with rejRun := 0, rejCls := s.useClass })

/-- UNC in seconds at the present stu, none while unbounded. -/
def State.uncSec (s : State) : Option Rat :=
  if s.uncNs s.now = 4294967295 then none else some ((s.uncNs s.now : Rat) / 1000000000)

/-- The claim less the DTS estimate at its epoch, in seconds. -/
def State.diff (s : State) (o : Obs) : Rat := o.claim - s.dts o.epoch

/-- The first test of R38. -/
def State.passes (s : State) (o : Obs) : Bool :=
  match s.uncSec with
  | none => true
  | some u => decide (absQ (s.diff o) ≤ (o.bound : Rat) / 1000000000 + u)

/-- The observations of a tenth rejecting evaluation agree among themselves (R38). -/
def State.agree (s : State) (c : TimeClass) (l : List Obs) : Bool :=
  let lo := l.map (fun o => s.diff o - (o.bound : Rat) / 1000000000)
  let hi := l.map (fun o => s.diff o + (o.bound : Rat) / 1000000000)
  let many := match c with
    | .bcast => decide (2 ≤ (distinct (l.map (·.tx))).length)
    | .host => decide (2 ≤ l.length)
    | .pps => false
  many && lo.all (fun a => hi.all (fun b => decide (a ≤ b)))

/-! ## Corrections (R39) -/

/-- The weight of an observation: u to the power -2, a bound of 0 taken as 1 ns. -/
def Obs.weight (o : Obs) : Rat := 1 / ((Nat.max 1 o.bound * Nat.max 1 o.bound : Nat) : Rat)

/-- A square root in ns, rounded up to 2^-16. -/
def sqrtUp (q : Rat) : Rat := ((isqrt ((q * 4294967296).ceil.toNat) + 1 : Nat) : Rat) / 65536

/-- The acceptance window's half-width in stu: a duration is exact stu (R33, R43). -/
def State.ppsWin (s : State) : Nat := 61440 * zeroAs1 (s.fget Reg.TB_PPS_CTRL_WIN)

/-- The stu near `u` at which DTS reaches second `n`, within 2^33 stu of it, under the mapping in force. -/
def State.secStuNear (s : State) (n u : Nat) : Nat := s.firstStuFrom (n : Rat) 34 (u - 8589934592)

/-- The second of a PPS_IN edge stamped `u` under the mapping in force, where the edge lies in the window about the stu at which DTS reaches it (R43). -/
def State.ppsIn (s : State) (u : Nat) : Option Nat :=
  let n := (roundAway (s.dts u)).toNat
  let c := s.secStuNear n u
  if c ≤ u + s.ppsWin ∧ u ≤ c + s.ppsWin then some n else none

/-- After a step of DTS the windows are those of the new mapping: the second judged last is that of the last accepted edge where the edge lies in its window,
and else every window that ends from now on is still to be judged (R43). -/
def State.ppsRejudge (s : State) : State :=
  let n := match s.time.ppsHist.getLast? with
    | some u => (s.ppsIn u).getD 0
    | none => 0
  s.timeMod (fun t => { t with ppsSecond := n })

/-- DTS is corrected from accepted observations of one class at the present boundary (R39, R41, R345). SRC names that class from here on, also where it lapses
(DESIGN CHOICE, log entry 76). -/
def State.correct (s : State) (c : TimeClass) (l : List Obs) : State :=
  let w := l.foldl (fun (a : Rat) o => a + o.weight) 0
  if w = 0 then s else
  let d := l.foldl (fun (a : Rat) o => a + o.weight * s.diff o) 0 / w
  let t := s.time
  let r := t.slew - t.slewRun s.now
  let here := s.dts s.now
  let k := match t.prev with
    | some p => if p.cls = c ∧ 10 ≤ here - p.dts then t.k * (1 + (d - r) / (here - p.dts)) else t.k
    | none => t.k
  let step := decide (((s.fget Reg.TB_DISC_STEP_THR : Nat) : Rat) / 10000000 < absQ d)
  let ppm := clampN 1 200 (s.fget Reg.TB_DISC_SLEW_PPM)
  let base := t.rebase s.now
  let a := if step then here + d else here
  let t1 : TimeS := { base with
    a := a + t.walked s.now * k, k := k, slew := if step then 0 else d, slewRate := (ppm : Rat) / 1000000
    prev := some { cls := c, dts := a }, stepped := t.stepped || step
    unc := some (sqrtUp (1 / w) + (if step then 0 else absQ d * 1000000000)), uncAt := s.now }
  let s1 := ({ s with time := t1 }).fset Reg.TB_QUAL_HI_SRC c.src
  if step then ((s1.ppsRejudge.evt Reg.TB_EVT_TIME_STEP).witStep d c.src l.length).bkpWantDisc else s1

/-- Broadcast UTC information (R36): at least two transmitters, every field equal. -/
def State.takeUtc (s : State) (l : List Obs) : State :=
  let us := l.filterMap (fun o => o.utc.map (fun u => (o.tx, u)))
  match us with
  | [] => s
  | (_, u) :: _ =>
    if us.all (fun p => p.2 == u) && decide (2 ≤ (distinct (us.map (·.1))).length) then
      let ch := decide (s.fget Reg.TB_UTC_OFS ≠ u.ofs)
      let same := s.flag Reg.TB_UTC_VALID && !ch && s.fget Reg.TB_UTC_PEND == u.pend && s.fget Reg.TB_UTC_DELTA == u.delta &&
        (s.rget Reg.TB_LEAP_AT).toNat == u.leapAt
      if same then s else
      let s1 := (((s.fset Reg.TB_UTC_OFS u.ofs).fset Reg.TB_UTC_PEND u.pend).fset Reg.TB_UTC_DELTA u.delta).fsetB Reg.TB_UTC_VALID true
      let s2 := (s1.rsetN Reg.TB_LEAP_AT u.leapAt).timeMod (fun x => { x with leapSet := s.now, pendSet := if u.pend = 1 then s.now else x.pendSet })
      if ch then s2.evt Reg.TB_EVT_UTC_CHANGE else s2
    else s

/-- The accepted broadcast observations of the last 60 s are kept with their transmitters (R37). -/
def State.bcastSeen (s : State) (g : List Obs) : State :=
  s.timeMod (fun t => { t with
    bcastHist := (t.bcastHist ++ (g.filter (fun o => o.cls == .bcast)).map (fun o => (s.now, o.tx))).filter
      (fun p => decide (s.now ≤ p.1 + 60 * secStu)) })

/-- The evaluation of R38 at the present boundary. -/
def State.evaluate (s : State) : State :=
  let l := s.time.obs
  let good := l.filter s.passes
  let bad := l.filter (fun o => !s.passes o)
  let s1 := (s.timeMod (fun t => { t with obs := [], lastEval := t.tick })).bcastSeen good
  let cls := s1.useClass
  let mine := bad.filter (fun o => some o.cls == cls)
  let won := good.any (fun o => some o.cls == cls)
  let same := decide (s.time.rejCls = cls)
  let run := if won then 0 else if mine.isEmpty then (if same then s.time.rejRun else 0) else (if same then s.time.rejRun else 0) + 1
  let take := match cls with
    | some c => decide (10 ≤ run) && !mine.isEmpty && s1.agree c mine
    | none => false
  let s2 := s1.timeMod (fun t => { t with rejRun := if take then 0 else run, rejCls := cls })
  let good' := if take then good ++ mine else good
  let rej := if take then bad.filter (fun o => !(some o.cls == cls)) else bad
  let s3 := s2.rejectObs rej.length
  let s4 := s3.takeUtc (good'.filter (fun o => o.cls == .bcast))
  let s5 := match cls with
    | some c => s4.correct c (good'.filter (fun o => o.cls == c))
    | none => s4
  let s6 := if take then s5.bcastSeen mine else s5
  let s7 := s6.oscGo
  let off := ((s7.bkp.sec * 32768 + s7.bkp.frac : Nat) : Rat) - s7.dts s7.now * 32768
  if s7.rtcKept && decide (2 < absQ off) && !s7.bkp.inflight.any (fun w => w.1 == .disc) then s7.bkpWantDisc else s7

/-- DISCIPLINE_EVALUATION (R38): at the boundary of a tick that is a multiple of 3000. -/
def execDisciplineEvaluation (s : State) : Host.Outcome State Fault Refusal :=
  .next (if s.time.tick % 3000 = 0 ∧ s.time.lastEval ≠ s.time.tick then (s.at (s.time.tick * tickStu)).evaluate else s)

/-- Host claims that wait are applied at a boundary (R40): those the test of R38 passes; the others wait for the evaluation. -/
def State.applyClaims (s : State) : State :=
  let l := s.time.claims
  if l.isEmpty then s else
  let s1 := s.timeMod (fun t => { t with claims := [] })
  let good := l.filter s1.passes
  if s1.useClass = some .host ∧ !good.isEmpty then
    (s1.timeMod (fun t => { t with hostValid := true, obs := t.obs.filter (fun o => !good.contains o) })).correct .host good
  else s1

/-- TB_CTRL.HOST_LOAD from T0 (R40). A refused claim sets HOST_REJECT alone, also while a higher class is valid (DESIGN CHOICE, log entry 84). -/
def State.hostLoad (s : State) : State :=
  let at_ := s.rget64 Reg.TB_HSET_STU_LO
  if s.now < at_ ∨ at_ + secStu < s.now then s.evt Reg.TB_EVT_HOST_REJECT else
  let o : Obs := {
    cls := .host, claim := ((s.rget64 Reg.TB_HSET_SEC_LO % 281474976710656 : Nat) : Rat) + (((s.rget Reg.TB_HSET_FRAC).toNat : Nat) : Rat) / 4294967296
    epoch := at_, bound := (s.rget Reg.TB_HSET_UNC).toNat }
  let s1 := s.timeMod (fun t => { t with obs := t.obs ++ [o] })
  if s1.bcastValid || s1.ppsValid then s1.evt Reg.TB_EVT_HOST_IGNORED
  else if s1.useClass = some .host then s1.timeMod (fun t => { t with claims := t.claims ++ [o] })
  else s1

/-- The first tick takes DTS from the backup domain (R42): a capture that takes effect at the oscillator edge of raw pulse `raw`, stu `edge` (R444). A walk in
progress goes on (R51). -/
def State.rtcStart (s : State) (edge raw : Nat) : State :=
  let e := Nat.max s.now edge
  let s1 := (s.osc raw).captureAt e
  let a : Rat := (s1.bkp.sec : Rat) + (s1.bkp.frac : Rat) / 32768
  let s2 := s1.timeMod (fun t => { t with a := a + t.walked e * t.k, s0 := e, slew := 0 })
  if s2.flag Reg.BKP_STAT_DISC then
    let gone : Rat := a - (s2.rget64 Reg.BKP_DSEC_LO : Rat)
    (s2.fset Reg.TB_QUAL_HI_SRC 4).timeMod (fun t => { t with unc := some (1000000 + 50000 * gone), uncAt := s2.now })
  else (s2.fset Reg.TB_QUAL_HI_SRC 0).timeMod (fun t => { t with unc := none })

/-! ## Leap changes (R36) -/

/-- The DTS second of the pending change: the first whose low 32 bits match TB_LEAP_AT that begins at or after the stu at which PEND was set, and at or after
that at which TB_LEAP_AT was: a second already past is never taken. After a step of DTS over that second the change comes at once, or 2^32 s later where the
new mapping puts the second before that stu (DESIGN CHOICE, log entry 84). -/
def State.leapSec (s : State) : Nat :=
  let b := (s.dts (Nat.max s.time.pendSet s.time.leapSet)).ceil.toNat
  let l := (s.rget Reg.TB_LEAP_AT).toNat
  b + (l + 4294967296 - b % 4294967296) % 4294967296

/-- LEAP_CHANGE (R36). -/
def execLeapChange (s : State) : Host.Outcome State Fault Refusal :=
  .next (
    if !s.flag Reg.TB_UTC_PEND then s else
    let s1 := (s.at (s.stuOfDts (s.leapSec : Rat))).fsetB Reg.TB_UTC_PEND false
    let d := s1.fget Reg.TB_UTC_DELTA
    if d = 1 then (s1.fset Reg.TB_UTC_OFS (s1.fget Reg.TB_UTC_OFS + 1)).evt Reg.TB_EVT_UTC_CHANGE
    else if d = 3 then (s1.fset Reg.TB_UTC_OFS (s1.fget Reg.TB_UTC_OFS + 65535)).evt Reg.TB_EVT_UTC_CHANGE
    else s1)

/-- A write of TB_UTC by T0 (R36). -/
def State.wrUtc (s : State) (v : Word) : State :=
  let s1 := s.wr Reg.TB_UTC v
  let s2 := if bitOf v.toNat 30 then s1.timeMod (fun t => { t with pendSet := s.now }) else s1
  if s1.fget Reg.TB_UTC_OFS = s.fget Reg.TB_UTC_OFS then s2 else s2.evt Reg.TB_EVT_UTC_CHANGE

/-- A write of TB_LEAP_AT by T0 (R36). -/
def State.wrLeapAt (s : State) (v : Word) : State := (s.wr Reg.TB_LEAP_AT v).timeMod (fun t => { t with leapSet := s.now })

/-- A write of TB_CTRL by T0 (R40, R54): REALIGN 0b10 and 0b11 read as 0b00; the class in use may change with the sources. -/
def State.wrTbCtrl (s : State) (v : Word) : State :=
  let s1 := (s.wr Reg.TB_CTRL (if bitOf v.toNat 29 then putField v 29 28 0 else v)).trackClass
  if bitOf v.toNat 31 then s1.hostLoad.trackClass else s1

/-- A write of TB_DISC by T0: MINOBS bears on the class in use (R37). -/
def State.wrDisc (s : State) (v : Word) : State := (s.wr Reg.TB_DISC v).trackClass

/-- A write of TB_COAST by T0: UNC has grown at the old rate up to now (R48). -/
def State.wrCoast (s : State) (v : Word) : State := s.foldUnc.wr Reg.TB_COAST v

/-- A write of TB_PPSO_CTRL by T0: in a mode that does not pulse PPS_OUT is held low (R45). -/
def State.wrPpso (s : State) (v : Word) : State :=
  let s1 := s.wr Reg.TB_PPSO_CTRL v
  let m := s1.fget Reg.TB_PPSO_CTRL_MODE
  if m = 1 ∨ m = 2 then s1 else s1.timeMod (fun t => { t with ppsOut := false })

/-! ## PPS_IN (R43, R44) -/

/-- The cross-check of an accepted edge with this error in ns (R44). Accepted edges at which the check does not run neither break nor extend the two runs
(DESIGN CHOICE, log entry 84). -/
def State.spoofCheck (s : State) (err : Int) : State :=
  if !(s.flag Reg.TB_CTRL_PPS_XCHK && s.bcastValid) then s else
  let lim := s.fget Reg.TB_PPS_CTRL_LIMIT * 10 + s.uncNs s.now
  if lim < err.natAbs && !(s.uncNs s.now == 4294967295) then
    let n := s.time.spoofBad + 1
    let s1 := s.timeMod (fun t => { t with spoofBad := n, spoofGood := 0 })
    if zeroAs1 (s.fget Reg.TB_PPS_CTRL_CONSEC) ≤ n && !s.flag Reg.TB_QUAL_HI_SPOOF then
      (s1.fsetB Reg.TB_QUAL_HI_SPOOF true).evt Reg.TB_EVT_SPOOF
    else s1
  else
    let n := s.time.spoofGood + 1
    let s1 := s.timeMod (fun t => { t with spoofBad := 0, spoofGood := n })
    if 60 ≤ n then s1.fsetB Reg.TB_QUAL_HI_SPOOF false else s1

/-- PPS_EDGE (R43): an edge at stu `t`, falling or rising; TB_PPS_CTRL.EDGE selects which is stamped. -/
def execPpsEdge (falling : Bool) (t : Nat) (s : State) : Host.Outcome State Fault Refusal :=
  .next (
    let s1 := (s.at t).trackClass
    let u := s1.stamp
    if s1.flag Reg.TB_PPS_CTRL_EDGE ≠ falling then s1 else
    match s1.ppsIn u with
    | none => (s1.timeMod (fun x => { x with strays := x.strays + 1 })).evt Reg.TB_EVT_PPS_STRAY
    | some n =>
      let e := satS 32 (roundAway (((n : Rat) - s1.dts u) * 1000000000))
      let o : Obs := { cls := .pps, claim := (n : Rat), epoch := u, bound := Config.ppsBound }
      let s2 := (s1.rset64 Reg.TB_PPS_STU_LO u).rsetN Reg.TB_PPS_ERR (code 32 e)
      let s3 := s2.timeMod (fun x => { x with
        ppsHist := (x.ppsHist ++ [u]).filter (fun v => decide (s1.now ≤ v + 12 * secStu)), ppsSecond := n, obs := x.obs ++ [o] })
      (s3.spoofCheck e).trackClass)

/-- The next second whose window has not been judged and has not ended before the present stu. -/
def State.ppsNext (s : State) : Nat :=
  Nat.max (s.time.ppsSecond + 1) ((s.dts (s.now - s.ppsWin - 1)).floor.toNat + 1)

/-- PPS_WINDOW_END (R43): the window of the next second ends without an edge. -/
def execPpsWindowEnd (s : State) : Host.Outcome State Fault Refusal :=
  .next (
    let n := s.ppsNext
    let s1 := s.at (s.firstStuFrom (n : Rat) 80 (s.now - s.ppsWin) + s.ppsWin)
    (s1.timeMod (fun t => { t with ppsSecond := n })).evt Reg.TB_EVT_PPS_MISSED)

/-! ## Outputs (R45, R46) -/

/-- PPS_OUT_RISE (R45): the next whole second is reached. -/
def execPpsOutRise (s : State) : Host.Outcome State Fault Refusal :=
  .next (
    let n := (s.dts s.now).floor.toNat + 1
    let s1 := (s.at (s.stuOfDts (n : Rat))).timeMod (fun t => { t with ppsOutSecond := n })
    let mode := s1.fget Reg.TB_PPSO_CTRL_MODE
    let ok := mode == 1 || (mode == 2 && s1.fget Reg.TB_QUAL_HI_SRC != 0 &&
      decide (s1.uncNs s1.now ≤ 10 * s1.fget Reg.TB_PPSO_CTRL_QLIM))
    let near := match s1.time.ppsRise with
      | some u => s1.time.stepped && decide (s1.now < u + secStu / 2)
      | none => false
    if ok && !near then s1.timeMod (fun t => { t with ppsOut := true, ppsRise := some s1.now, stepped := false }) else s1)

/-- PPS_OUT_FALL (R45): WIDTH ms after the rise. -/
def execPpsOutFall (s : State) : Host.Outcome State Fault Refusal :=
  .next (
    match s.time.ppsOut, s.time.ppsRise with
    | true, some u =>
      (s.at (u + clampN 1 200 (s.fget Reg.TB_PPSO_CTRL_WIDTH) * 6144000)).timeMod (fun t => { t with ppsOut := false })
    | _, _ => s)

/-- DIV as it acts. -/
def State.tickDiv (s : State) : Nat := clampN 1 3000 (s.fget Reg.TB_TICKO_CTRL_DIV)

/-- TICK_OUT rises at the boundary of a tick that DIV divides (R46). -/
def State.tickOutRise (s : State) : State :=
  if s.flag Reg.TB_TICKO_CTRL_EN && s.time.tick % s.tickDiv == 0 then
    s.timeMod (fun t => { t with tickOut := true, tickOutRise := s.now })
  else s

/-- TICK_OUT_FALL (R46): after WIDTH rc, or 1 rc before the next pulse. -/
def execTickOutFall (s : State) : Host.Outcome State Fault Refusal :=
  .next (
    if !s.time.tickOut then s else
    let w := Nat.min (160 * zeroAs1 (s.fget Reg.TB_TICKO_CTRL_WIDTH)) (s.tickDiv * tickStu - 160)
    (s.at (s.time.tickOutRise + w)).timeMod (fun t => { t with tickOut := false }))

/-! ## Loss of the reference (R47, R59) -/

/-- The mean of the 16 window counts completed by stu `u`, the start of the failing monitor window; of those held where there are fewer, windows of earlier
attempts among them (R47; DESIGN CHOICE, log entry 84). -/
def LoopS.mean (x : LoopS) (u : Nat) : Rat :=
  let l := (if u < x.since then x.counts.drop 1 else x.counts).take 16
  (sumN l : Rat) / ((Nat.max 1 l.length : Nat) : Rat)

/-- The stu at which a monitor window that ends now began: 400 SAFE_OSC cycles before, at the rate last measured (R47, R73), or at 400 MHz where none is. -/
def State.monStart (s : State) : Nat :=
  let n := s.fget (whole Reg.CCS_SAFE)
  s.now - 400 * tickStu / (if n = 0 then 133333 else n)

/-- A lock machine when REF_IN is lost in a monitor window that began at `u`: a locked one holds its mean, or 1024 where CCS has reached a base by a `ramp`, or the word held before the `walk` in
progress; an unlocked one gives its attempt up (R47, R52, R59). A failed one that waits for its retry starts anew with the return too (DESIGN CHOICE, log entry
76). -/
def LoopS.lost (x : LoopS) (u : Nat) (ramp walk : Bool) : LoopS :=
  match x.phase with
  | .locked => { x with held := some (if ramp then 1024 else if walk then x.before.getD (x.mean u) else x.mean u) }
  | .idle => x
  | _ => { x with phase := .waitRef, held := none }

/-- REF_IN is lost while a profile runs: CCS holds the base reached, and CCS_TICKCYC shows it (R80). -/
def State.holdBase (s : State) : State := s.abandonProfile.rsetN Reg.CCS_TICKCYC (s.ccsBase / 16)

/-- The mean of 16 windows of ICS, each within 8 of 1024 (R47, R59), that the free value `f` gives. -/
def icsMean (f : Nat) : Rat := ((16256 + f % 257 : Nat) : Rat) / 16

/-- ICS when REF_IN is lost (R47, R59): a locked one holds the mean of its last 16 windows, each within 8 of 1024 and shown by no command, so a free value,
or the word held before the `walk` in progress (R52); an unlocked one gives its attempt up, its precharge with it. -/
def State.icsLost (s : State) (walk : Bool) : State :=
  let (f, s1) := s.free1
  let word := if walk then s.clk.icsBefore.getD (icsMean f) else icsMean f
  if s.flag Reg.ICS_STAT_LOCK then { s1 with clk := { s1.clk with icsWord := some word } }
  else
    let ph := match s.clk.ics with
      | .idle => .idle
      | _ => .waitRef
    { s1.fsetB Reg.ICS_STAT_PRECHARGE false with clk := { s1.clk with ics := ph, icsWord := none } }

/-- REF_IN is declared lost at the present stu (R47). -/
def State.refLost (s : State) : State :=
  let s1 := s.foldUnc
  let s2 := (((((s1.fsetB Reg.TOP_DOMAIN_REF_OK false).fsetB Reg.TOP_DOMAIN_COAST true).fsetB Reg.SCS_STAT_HOLD true).fsetB Reg.TB_QUAL_HI_COAST true).evt
    Reg.TB_EVT_REF_LOST).exclude
  let ramp := s2.clk.ccs.profile
  let s3 := if ramp then s2.holdBase else s2
  let walk := s.time.walk.isSome
  let u := s.monStart
  let s4 := (((s3.setLoop .scs (s3.clk.scs.lost u false walk)).setLoop .ccs (s3.clk.ccs.loop.lost u ramp walk)).fsetB Reg.SCS_STAT_SEARCH false).icsLost walk
  s4.timeMod (fun t => { t with
    lockedAtLoss := s.scsLocked, lossTemp := s.hottest, qualWins := 0, newRefWins := 0, realign := none
    walk := t.walk.map (fun w => { w with frozen := some (w.residual s.now) }) })

/-- Lock machines that wait for the reference start anew at its first edge, and those that hold resume counting with the rc count (R34, R59). -/
def State.loopsResume (s : State) : State :=
  let go := fun (x : State) (l : LoopId) =>
    match (x.loop l).phase with
    | .waitRef => x.startSearch l (x.now + 1)
    | .locked => x.setLoop l { (x.loop l) with since := roundUp x.now 160, before := (x.loop l).held, held := none }
    | _ => x
  let s0 := go (go s .scs) .ccs
  let s1 : State := { s0 with clk := { s0.clk with icsBefore := s0.clk.icsWord, icsWord := none } }
  match s1.clk.ics with
  | .waitRef => s1.icsStart (roundUp (s1.now + 1) 160)
  | _ => s1

/-- REF_IN counts as present as a new reference (R52, R59): no realignment; SCS searches, samples are void, ticks follow the new count. Where R49 had no part in
it (8 windows outside 49 ppm), no REF_BACK is set (DESIGN CHOICE, log entry 76). -/
def State.newRef (s : State) : State :=
  let s1 := s.foldUnc
  let s2 := ((((s1.fsetB Reg.TOP_DOMAIN_REF_OK true).fsetB Reg.TOP_DOMAIN_COAST false).fsetB Reg.SCS_STAT_HOLD false).fsetB Reg.TB_QUAL_HI_COAST false).fsetB Reg.TB_JUMP_VALID false
  let s3 := s2.timeMod (fun t => { (t.rebase s2.now) with a := t.dts s2.now, walk := none })
  let s4 := (s3.fsetB Reg.TB_QUAL_HI_WALK false).loopsResume
  if s4.scsLocked then s4.scsLose false else s4

/-- REF_MONITOR_WINDOW (R47, R59): a window of 400 SAFE_OSC cycles ended at `t` with this many REF_IN edges. -/
def execRefMonitorWindow (t edges : Nat) (s : State) : Host.Outcome State Fault Refusal :=
  .next (
    let s1 := s.at t
    let good := decide (24 ≤ edges) && decide (edges ≤ 56)
    if s1.flag Reg.TOP_DOMAIN_REF_OK then (if good then s1 else s1.refLost)
    else if s1.flag Reg.TOP_DOMAIN_COAST && !s1.time.lockedAtLoss && good then s1.newRef.evt Reg.TB_EVT_REF_BACK
    else s1)

/-- REF_QUAL_WINDOW (R49, R52): 1024 rc of the returned REF_IN spanned this many coasted stu; none where REF_IN dropped. -/
def execRefQualWindow (t : Nat) (span : Option Nat) (s : State) : Host.Outcome State Fault Refusal :=
  .next (
    let s1 := s.at t
    if s1.flag Reg.TOP_DOMAIN_REF_OK || !s1.flag Reg.TOP_DOMAIN_COAST || !s1.time.lockedAtLoss then s1 else
    match span with
    | none => s1.timeMod (fun x => { x with qualWins := 0, newRefWins := 0 })
    | some n =>
      if n ≤ 163848 ∧ 163832 ≤ n then
        let k := s1.time.qualWins + 1
        let s2 := s1.timeMod (fun x => { x with qualWins := k, newRefWins := 0 })
        if k < 4 then s2 else
        let s3 := ((s2.fsetB Reg.TOP_DOMAIN_REF_OK true).evt Reg.TB_EVT_REF_BACK).timeMod (fun x => { x with
          realign := some (s2.fget Reg.TB_CTRL_REALIGN == 1), qualWins := 0 })
        s3.loopsResume
      else
        let k := s1.time.newRefWins + 1
        let s2 := s1.timeMod (fun x => { x with qualWins := 0, newRefWins := k })
        if k < 8 then s2 else s2.newRef)

/-! ## Realignment (R49 to R51) -/

/-- COAST clears, UNC growing at its plain rate from here. -/
def State.coastEnd (s : State) : State :=
  (((s.foldUnc).fsetB Reg.TOP_DOMAIN_COAST false).fsetB Reg.SCS_STAT_HOLD false).fsetB Reg.TB_QUAL_HI_COAST false

/-- TB_JUMP shows a realignment. -/
def State.showJump (s : State) (walk : Bool) (skip : Nat) (e : Int) (u : Nat) : State :=
  ((((s.fsetB Reg.TB_JUMP_VALID true).fsetB Reg.TB_JUMP_MODE walk).fset Reg.TB_JUMP_SKIP skip).fset Reg.TB_JUMP_PHASE (code 8 e)).rset64
    Reg.TB_JUMP_STU_LO u |>.evt Reg.TB_EVT_REALIGNED

/-- STEP (R50): TB_STU skips to the next grid point, DTS stays continuous, and every stream carries a REALIGN marker. -/
def State.stepRealign (s : State) (skip : Nat) (e : Int) : State :=
  let u := s.now + skip
  let d := s.dts s.now
  let s1 := s.timeMod (fun t => { (t.rebase s.now) with a := d, s0 := u, stu := u, walk := none, realign := none })
  let cut := ceilDiv (skip * (s.rget Reg.CCS_TICKCYC).toNat) tickStu
  let s2 := ((s1.rsetN Reg.CCS_TICKCYC ((s.rget Reg.CCS_TICKCYC).toNat - cut)).ccsMod (fun c => { c with stepCut := cut })).coastEnd
  let s3 := ((s2.fsetB Reg.TB_QUAL_HI_WALK false).showJump false skip e u).skipNote u skip |>.exclude
  [0, 1, 2].foldl (fun (x : State) c => x.convMark c { stu := u, kind := 2, param := skip }) s3

/-- WALK (R51): TB_STU stays continuous and the sample clock is steered toward the aligned phase, at the WALK_PPM in force at the measured edge (a later write
does not change the walk under way: DESIGN CHOICE, log entry 76). -/
def State.walkStart (s : State) (e : Int) : State :=
  let d := s.dts s.now
  let ppm := clampN 1 100 (s.fget Reg.TB_CTRL_WALK_PPM)
  (s.timeMod (fun t => { (t.rebase s.now) with a := d, s0 := s.now, realign := none, walk := some { e := e, start := s.now, ppm := ppm } })).fsetB
    Reg.TB_QUAL_HI_WALK true

/-- REALIGN_EDGE (R49): the first REF_IN edge after REF_BACK, at coasted count `t`. -/
def execRealignEdge (t : Nat) (s : State) : Host.Outcome State Fault Refusal :=
  .next (
    match s.time.realign with
    | none => s.at t
    | some walk =>
      let s1 := s.timeMod (fun x => { x with stu := Nat.max x.stu t })
      let j := s1.now % 160
      let skip := (160 - j) % 160
      let e : Int := if skip ≤ 79 then -(skip : Int) else 160 - (skip : Int)
      if walk then s1.walkStart e else s1.stepRealign skip e)

/-- The first stu at which the residual of a walk is below 1. -/
def Walk.endStu (w : Walk) : Nat :=
  if w.e.natAbs = 0 then w.start else w.start + (w.e.natAbs - 1) * 1000000 / Nat.max 1 w.ppm + 1

/-- WALK_END (R51). -/
def execWalkEnd (s : State) : Host.Outcome State Fault Refusal :=
  .next (
    match s.time.walk with
    | none => s
    | some w =>
      if w.frozen.isSome then s else
      let s1 := s.at w.endStu
      let d := s1.dts s1.now
      let s2 := s1.timeMod (fun t => { (t.rebase s1.now) with a := d, walk := none })
      ((s2.fsetB Reg.TB_QUAL_HI_WALK false).coastEnd).showJump true 0 w.e s2.now)

end Sys2Proof.Machine
end

