-- ==== Sys2Proof/Machine/Ports.lean ====
section
/-!
DEFINITION. The stream ports of open contexts (R172, R175 to R177): delivery of records to the far ends of a port, the room of
its ring, and the STOP and LOST entries.
-/

namespace Sys2Proof.Machine

/-- The kind a context's image gives a port (R191); 0 where it has none. -/
def ContextS.portKind (x : ContextS) (q : Nat) : Nat := ((x.image.map (fun im => (im.binds.getD q {}).kind)).getD 0)

/-- The declared bytes per run of a port. -/
def ContextS.portMost (x : ContextS) (q : Nat) : Nat := ((x.image.map (fun im => (im.binds.getD q {}).most)).getD 0)

/-- The tenant that opened a context. -/
def ContextS.tenant (x : ContextS) : Nat := (x.opened.map (·.tenant)).getD 0

/-- A port's kind is an output. -/
def outKind (k : Nat) : Bool := decide (3 ≤ k) && decide (k ≤ 6)

/-- The input ports bound to a context's output port (R172): CTXOUT readers, in other contexts of the same tenant. -/
def State.readers (s : State) (n q : Nat) : List (Nat × Nat) :=
  s.ctxs.foldr (fun p acc =>
    if p.2.mode = .closed ∨ p.1 = n ∨ p.2.tenant ≠ (s.ctx n).tenant then acc else
    ((List.range 16).filter (fun j => p.2.portKind j == 2 && (p.2.ports.getD j {}).target == Target.ctxOut n q)).map (fun j => (p.1, j)) ++ acc) []

/-- The bytes an in-queue holds. -/
def queueBytes (l : List (Nat × Rec)) : Nat := sumN (l.map (fun e => e.2.bytes.length))

/-- The bytes of an output ring not yet taken by its slowest reader (R177). -/
def State.ringHolds (s : State) (n q : Nat) : Nat :=
  let x := s.ctx n
  let far := match (x.ports.getD q {}).target with
    | .stream k => s.streamHolds x.tenant k (n, q)
    | .journal => sumN ((s.fst.bufs.filter (fun b => b.ctx == n && b.port == q)).map (fun b => sumN (b.entries.map List.length)))
    | .bulk => sumN ((s.fst.bufs.filter (fun b => b.ctx == n && b.port == q)).map (fun b => sumN (b.entries.map List.length)))
    | _ => 0
  let far' := if x.portKind q = 3 ∨ x.portKind q = 4 then far else 0
  (s.readers n q).foldl (fun a p => Nat.max a (queueBytes ((s.ctx p.1).ports.getD p.2 {}).queue)) far'

/-- The size of an output ring (R254). -/
def outRing (most : Nat) : Nat := roundUp (64 * most) 4096

/-- An output ring has room for `k` bytes more. -/
def State.ringFits (s : State) (n q k : Nat) : Bool := decide (s.ringHolds n q + k ≤ outRing ((s.ctx n).portMost q))

/-- One port of a context changed. -/
def State.portMod (s : State) (n q : Nat) (f : PortQ → PortQ) : State :=
  s.ctxMod n (fun x => { x with ports := modifyAt x.ports q f })

/-- An entry is discarded because its ring is full (R177, R202). -/
def State.dropEntry (s : State) (n q : Nat) : State :=
  s.portMod n q (fun p => { p with lostNow := p.lostNow + 1, lost := satTo 4294967295 (p.lost + 1) })

/-- A record reaches the far ends of a port (R171, R172): its stream, the flash store, the witness unit or the timebase, and every context
that reads it. -/
def State.deliver (s : State) (n q : Nat) (r : Rec) : State :=
  let x := s.ctx n
  let k := x.portKind q
  let s1 :=
    if k = 3 then
      match (x.ports.getD q {}).target with
      | .stream m => s.streamAdd x.tenant m (n, q) r.bytes
      | _ => s
    else if k = 4 then
      match (x.ports.getD q {}).target with
      | .journal => s.flashRec n q x.tenant false r
      | .bulk => s.flashRec n q x.tenant true r
      | _ => s
    else if k = 5 then (if r.kind = 0x10 then s.witSubmit r else s)
    else if k = 6 then (if r.kind = 0x10 then s.tobs r else s)
    else s
  (s.readers n q).foldl (fun (y : State) p =>
    y.portMod p.1 p.2 (fun z => { z with queue := z.queue ++ [(s.time.tick, r)] })) s1

/-- The bytes a run has written to a port and not yet published. -/
def Run.unpublished (r : Run) (q : Nat) : Nat := sumN ((r.out.filter (fun e => e.1 == q)).map (fun e => e.2.bytes.length))

/-- The engine on which a run of a context executes. -/
def State.runOf (s : State) (n : Nat) : Option (Nat × Run) :=
  (List.range 8).findSome? (fun e => match s.run e with
    | some r => if r.ctx = n then some (e, r) else none
    | none => none)

/-- One LOST entry is written once space allows (R177): behind what a run of the context has written before the loss, with which it is published. -/
def State.lostEntry (s : State) (n q : Nat) : State :=
  let k := ((s.ctx n).ports.getD q {}).lostNow
  let e : Rec := { stu := s.now, kind := 9, param := k, qual := s.qualAt s.now }
  if k = 0 then s else
  match s.runOf n with
  | some (i, r) =>
    if s.ringFits n q (r.unpublished q + 16) then (s.setRun i (some { r with out := r.out ++ [(q, e)] })).portMod n q (fun p => { p with lostNow := 0 }) else s
  | none => if s.ringFits n q 16 then (s.deliver n q e).portMod n q (fun p => { p with lostNow := 0 }) else s

/-- An entry written by the device or published by a run: delivered, or discarded on a full ring (R177). -/
def State.writeEntry (s : State) (n q : Nat) (r : Rec) : State :=
  let s1 := s.lostEntry n q
  if s1.ringFits n q r.bytes.length && ((s1.ctx n).ports.getD q {}).lostNow == 0 then s1.deliver n q r else s1.dropEntry n q

/-- A STOP entry in every output queue of a context (R176, R199, R201). -/
def State.stopOutputs (s : State) (n reason : Nat) : State :=
  (List.range 16).foldl (fun (y : State) q =>
    if outKind ((s.ctx n).portKind q) then y.writeEntry n q { stu := y.now, kind := 8, param := reason, qual := y.qualAt y.now } else y) s

/-- What a context's port shows (R202): entries, bytes, LOST count. -/
def State.portShows (s : State) (n q : Nat) : Nat × Nat × Nat :=
  let x := s.ctx n
  let p := x.ports.getD q {}
  let k := x.portKind q
  if outKind k then
    let held : List (Option (Nat × Nat) × List Byte) := match p.target with
      | .stream m => ((s.ten x.tenant).streams.getD m {}).entries.filter (fun e => e.1 == some (n, q))
      | _ => []
    let buf := (s.fst.bufs.filter (fun b => b.ctx == n && b.port == q)).map (fun b => b.entries.length)
    let rd := (s.readers n q).foldl (fun a r => Nat.max a ((s.ctx r.1).ports.getD r.2 {}).queue.length) 0
    (Nat.max (Nat.max held.length (sumN buf)) rd, s.ringHolds n q, p.lost)
  else (p.queue.length, queueBytes p.queue, p.lost)

end Sys2Proof.Machine
end

