-- ==== Sys2Proof/Machine/Brs.lean ====
section
/-!
DEFINITION. Burst reception (chapter 11): receivers, their channels and lanes, receptions, diversity pairs and reports.
-/

namespace Sys2Proof.Machine

/-! ## Classes (R290, R291) -/

/-- The class of a context's receiver: 0 AIS, 1 DSC, 2 generic, 3 none. -/
def State.brsClass (s : State) (n : Nat) : Nat := s.fget (Reg.BRS_CFG_CLASS n)

/-- SPB of the generic class as it acts (R309). -/
def State.brsSpb (s : State) (n : Nat) : Nat := Nat.max 3 (s.fget (Reg.BRS_GEN_SPBM1 n)) + 1

/-- The bit period in stu at an output period (R290). -/
def State.brsBit (s : State) (n po : Nat) : Nat :=
  if s.brsClass n = 0 then 640000 else if s.brsClass n = 1 then 5120000 else s.brsSpb n * po

/-- How a generic receiver's bits modulate the carrier (R309): DBPSK, or GMSK and 2-FSK; 0b1x acts as 0b00. The
peaks and the bits that come of either are operands of the burst commands (log entry 39). -/
def State.brsDbpsk (s : State) (n : Nat) : Bool := s.brsClass n == 2 && s.fget (Reg.BRS_GEN_MOD n) == 1

/-- The bits of the reference searched (R290), the first sent first: of AIS the training sequence, of DSC the dot pattern, of a generic class PRELEN bits of
BRS_GPRE from bit 31 on. The first bit of the two standard patterns is PRESUMED from the standards (log entry 83). -/
def State.brsBits (s : State) (n : Nat) : List Bool :=
  if s.brsClass n = 0 then (List.range 24).map (fun i => i % 2 == 1)
  else if s.brsClass n = 1 then (List.range 20).map (fun i => i % 2 == 1)
  else (List.range (clampN 8 32 (s.fget (Reg.BRS_GEN_PRELEN n)))).map (fun i => bitOf (s.rget (Reg.BRS_GPRE n)).toNat (31 - i))

/-- The reference length in samples (R291). -/
def State.brsRef (s : State) (n po : Nat) : Nat := (s.brsBits n).length * (s.brsBit n po / Nat.max 1 po)

/-- A channel is in use: DSC has channel 0 alone (R290, R309). -/
def State.brsOn (s : State) (n c : Nat) : Bool :=
  if c = 0 then s.flag (Reg.BRS_CFG_CH0EN n) else s.brsClass n != 1 && s.flag (Reg.BRS_CFG_CH1EN n)

/-- PEN = 1 and PAIR names the context itself or another tenant's, of whatever class it is (R291). -/
def State.badPair (s : State) (n : Nat) : Bool :=
  s.flag (Reg.BRS_CFG_PEN n) && (s.fget (Reg.BRS_CFG_PAIR n) == n || s.owner (s.fget (Reg.BRS_CFG_PAIR n)) != s.owner n)

/-- The settings of an open are refused with "bad burst" (R291): `burst` says that the image declares a BURST port. -/
def State.badBurst (s : State) (n po : Nat) (burst : Bool) : Bool :=
  let c := s.brsClass n
  if c = 3 then burst || s.badPair n else
  let bit := s.brsBit n po
  let spb := bit / Nat.max 1 po
  !burst || decide (bit % Nat.max 1 po ≠ 0) || decide (spb < 4) || decide (64 < spb) || decide (1024 < s.brsRef n po) || s.badPair n

/-- The finder reserve of a receiver in cycles per tick (R296). -/
def State.finderReserve (s : State) (n po : Nat) : Nat :=
  if s.brsClass n = 3 then 0 else
  let m := ceilDiv 2048000 (Nat.max 1 po)
  let one := ceilDiv m 16 * ceilDiv (s.brsRef n po) 128 + 64
  sumN ((List.range 2).map (fun c => if s.brsOn n c then one else 0))

/-- Receivers in use (R289). -/
def State.brsUsed (s : State) : Nat := (s.ctxs.filter (fun p => p.2.brs.alloc)).length

/-! ## State of a receiver -/

/-- A context's receiver changed. -/
def State.brsMod (s : State) (n : Nat) (f : BrsS → BrsS) : State := s.ctxMod n (fun x => { x with brs := f x.brs })

/-- A channel. -/
def State.chan (s : State) (n c : Nat) : ChanMode := (s.ctx n).brs.chans.getD c .off

/-- The code of a channel's state in BRS_STAT at stu `u` (R309): after a reception it shows armed from the next sample on, an output period later (R298). -/
def ChanMode.code (po u : Nat) : ChanMode → Nat
  | .off => 0
  | .armed since => if 0 < since ∧ u < since + po then 3 else 1
  | .await _ => 2
  | .recv _ _ _ => 3

/-- Two receivers are paired (R304). -/
def State.paired (s : State) (n : Nat) : Option Nat :=
  let m := s.fget (Reg.BRS_CFG_PAIR n)
  if (s.ctx n).brs.alloc && (s.ctx m).brs.alloc && s.flag (Reg.BRS_CFG_PEN n) && s.flag (Reg.BRS_CFG_PEN m) &&
     s.fget (Reg.BRS_CFG_PAIR m) == n then some m else none

/-- BRS_STAT follows the receivers. -/
def State.showBrs (s : State) (n : Nat) : State :=
  let b := (s.ctx n).brs
  let code := fun (c : Nat) => (b.chans.getD c .off).code (s.ctx n).chain.outPer s.now
  let s1 := (s.fsetB (Reg.BRS_STAT_ALLOC n) b.alloc).fsetB (Reg.BRS_STAT_PAIRED n) (s.paired n).isSome
  (s1.fset (Reg.BRS_STAT_CH1 n) (code 1)).fset (Reg.BRS_STAT_CH0 n) (code 0)

/-- A channel takes a state. -/
def State.setChan (s : State) (n c : Nat) (m : ChanMode) : State :=
  (s.brsMod n (fun b => { b with chans := modifyAt b.chans c (fun _ => m) })).showBrs n

/-- The receiver of a context starts with its open (R289, R309): its counters start anew. -/
def State.brsOpen (s : State) (n : Nat) : State :=
  if s.brsClass n = 3 then s else
  let s1 := s.brsMod n (fun _ => { alloc := true, chans := (List.range 2).map (fun c => if s.brsOn n c then .armed 0 else .off) })
  let s2 := (((s1.rsetN (Reg.BRS_CNT0 n) 0).rsetN (Reg.BRS_CNT1 n) 0).rsetN (Reg.BRS_CNT2 n) 0).rsetN (Reg.BRS_FRES n)
    (s.finderReserve n (s.ctx n).chain.outPer)
  let s3 := s2.showBrs n
  match s3.paired n with
  | some m => s3.showBrs m
  | none => s3

/-- It is released at the close. -/
def State.brsClose (s : State) (n : Nat) : State :=
  if !(s.ctx n).brs.alloc then s else
  let m := s.paired n
  let s1 := ((s.brsMod n (fun _ => {})).rsetN (Reg.BRS_FRES n) 0).showBrs n
  match m with
  | some m => s1.showBrs m
  | none => s1

/-! ## Reports (R305 to R307) -/

/-- The BURST port of a context. -/
def ContextS.burstPort (x : ContextS) : Option Nat := (List.range 16).find? (fun q => x.portKind q == 7)

/-- The largest entry of the class in bytes (R307). -/
def State.burstMost (s : State) (n : Nat) : Nat :=
  let bits := zeroAs1 (s.fget (Reg.BRS_LIM_MAXBITS n))
  let pay := if s.brsClass n = 1 then 2 * ceilDiv bits 10 else ceilDiv bits 8
  roundUp (64 + pay) 16

/-- A BURST ring has room for `k` bytes more (R307). -/
def State.burstFits (s : State) (n q k : Nat) : Bool := decide (queueBytes ((s.ctx n).ports.getD q {}).queue + k ≤ 64 * s.burstMost n)

/-- One LOST entry is written in a BURST ring once space allows (R177, R307). -/
def State.burstLost (s : State) (n q : Nat) : State :=
  let k := ((s.ctx n).ports.getD q {}).lostNow
  if k = 0 || !s.burstFits n q 16 then s
  else s.portMod n q (fun p => { p with queue := p.queue ++ [(s.time.tick, { stu := s.now, kind := 9, param := k, qual := s.qualAt s.now })], lostNow := 0 })

/-- The LOST entry of a port, whichever ring it has (R177). -/
def State.lostNext (s : State) (n q : Nat) : State := if (s.ctx n).portKind q = 7 then s.burstLost n q else s.lostEntry n q

/-- A read has freed space in a BURST ring (R307). -/
def State.spaceBack (s : State) (k n q : Nat) : State := if k = 7 then s.burstLost n q else s

/-- RING_SPACE_RETURN (R177): space has returned in an output ring. -/
def execRingSpaceReturn (n : Fin 256) (q : Fin 16) (s : State) : Host.Outcome State Fault Refusal :=
  .next (s.lostNext n.val q.val)

/-- A report joins the BURST ring in the order of its STU, or is discarded where the ring is full (R307, R177). -/
def State.putReport (s : State) (n : Nat) (r : Rec) : State :=
  match (s.ctx n).burstPort with
  | none => s
  | some q =>
    let s1 := s.burstLost n q
    if s1.burstFits n q r.bytes.length && ((s1.ctx n).ports.getD q {}).lostNow == 0 then
      s1.portMod n q (fun p => { p with
        queue := p.queue.filter (fun e => decide (e.2.stu ≤ r.stu)) ++ [(s.time.tick, { r with qual := s.qualAt r.stu })] ++ p.queue.filter (fun e => !decide (e.2.stu ≤ r.stu)) })
    else (s1.dropEntry n q).evt (Reg.BRS_EVT_LOST n)

/-- A report of R305. -/
def reportRec (u status chan flags : Nat) (k : PeakS) (po start bits : Nat) (data : List Byte) : Rec :=
  let fixed := leBytes k.p 8 ++ leBytes (k.p + 2 * po) 8 ++ leBytes start 8 ++ leBytes (code 16 k.fine) 2 ++ leBytes k.qual 2 ++
    leBytes (code 16 k.level) 2 ++ leBytes (code 16 k.snr) 2 ++ leBytes (code 16 k.fofs) 2 ++ List.replicate 14 0
  { stu := u, kind := 0x11, flags := flags, payload := fixed ++ data
    param := status + 256 * chan + 65536 * bits }

/-- The event bit and counter of a status (R306, R309). -/
def State.countReport (s : State) (n status : Nat) : State :=
  if status = 1 then (s.evt (Reg.BRS_EVT_GOOD n)).bump (Reg.BRS_CNT0_GOOD n)
  else if status = 2 then (s.evt (Reg.BRS_EVT_BADFRAME n)).bump (Reg.BRS_CNT0_BAD_FRAME n)
  else if status = 3 then (s.evt (Reg.BRS_EVT_FALSESTART n)).bump (Reg.BRS_CNT1_FALSE_START n)
  else if status = 5 then (s.evt (Reg.BRS_EVT_COLLIDED n)).bump (Reg.BRS_CNT1_COLLIDED n)
  else if status = 6 then (s.evt (Reg.BRS_EVT_MISSED n)).bump (Reg.BRS_CNT2_MISSED_UNDER n)
  else if status = 4 ∨ status = 7 then (s.evt (Reg.BRS_EVT_TIMEOUT n)).bump (Reg.BRS_CNT2_NO_START n)
  else s

/-- The channel's bit period. -/
def State.bitOfCtx (s : State) (n : Nat) : Nat := s.brsBit n (s.ctx n).chain.outPer

/-- The payload of R305, from the bits decoded since the start, and how many bits it holds; of DSC the bits of the whole symbols. -/
def State.payloadOf (s : State) (n : Nat) (raw : List Bool) : Nat × List Byte :=
  if s.brsClass n = 0 then ((aisPayload raw).length, packBits (aisPayload raw))
  else if s.brsClass n = 1 then (10 * (raw.length / 10), dscPayload raw)
  else (raw.length, packBits raw)

/-- The bits whose last sample lies at or before stu `u`, of those decoded since stu `st`. -/
def State.bitsBy (s : State) (n st u : Nat) (raw : List Bool) : List Bool := raw.take ((u - st) / Nat.max 1 (s.bitOfCtx n))

/-- A report other than GOOD: `start` is 0 where the start condition was not met, and `raw` the bits decoded since the start. -/
def State.report (s : State) (n c u status : Nat) (k : PeakS) (start : Nat) (raw : List Bool) : State :=
  let (bits, data) := s.payloadOf n raw
  (s.countReport n status).putReport n (reportRec u status c 0 k (s.ctx n).chain.outPer start bits data)

/-! ## Receptions (R295, R297 to R303) -/

/-- The gain that brings a level in 0.1 dB to TGT, in units of 0.0625 dB (R128); where it lies between two of them the choice is free. -/
def State.detectGain (s : State) (n : Nat) (level : Int) : Int × State :=
  let tgt : Int := (fieldOf (s.ctx n).chain.agc 23 16 : Nat)
  let x : Rat := -(4 * (tgt : Rat)) - (level : Rat) * 8 / 5
  if (x.floor : Rat) = x then (x.floor, s) else
  let (f, s1) := s.free1
  (x.floor + (f % 2 : Nat), s1)

/-- The other channel has detected at the same stu and has the later number: its freeze of the AGC stands (R303). -/
def State.laterDetect (s : State) (n c d : Nat) : Bool :=
  match s.chan n 1 with
  | .await k => c == 0 && k.p + 2 * (s.ctx n).chain.outPer == d
  | _ => false

/-- A burst detect cue triggers a snapshot where SNP_BURST enables its context (R458). -/
def State.burstTrigger (s : State) (n d : Nat) : State :=
  if bitOf (s.rget (Reg.SNP_BURST (n / 32))).toNat (n % 32) then s.snapTrigger 6 n d else s

/-- A peak starts a reception at d (R295): cue 2, the AGC frozen at its level, and a snapshot where one is enabled. -/
def State.startReception (s : State) (n c : Nat) (k : PeakS) : State :=
  let d := k.p + 2 * (s.ctx n).chain.outPer
  let s1 := (s.setChan n c (.await k)).evt (Reg.BRS_EVT_DETECT n)
  let (g, s2) := s1.detectGain n k.level
  let s3 := if bitOf (s2.ctx n).chain.agc.toNat 31 && !s2.laterDetect n c d then s2.chnMod n (fun x => { x with setGain := some (d, g) }) else s2
  (s3.raiseCue n 2 d 0).burstTrigger n d

/-- The start deadline (R297); one inside a STEP skip falls at its end (R33). -/
def State.startDeadline (s : State) (n : Nat) (k : PeakS) : Nat :=
  s.afterSkip (k.p + 2 * (s.ctx n).chain.outPer + zeroAs1 (s.fget (Reg.BRS_LIM_FLAG_TO n)) * s.bitOfCtx n)

/-- The end deadline (R298, R33). -/
def State.endDeadline (s : State) (n start : Nat) : Nat := s.afterSkip (start + zeroAs1 (s.fget (Reg.BRS_LIM_MAXBITS n)) * s.bitOfCtx n)

/-- A report that waits is delivered with its flags. -/
def State.giveWait (s : State) (n : Nat) (w : PairWait) (flags : Nat) : State :=
  (s.brsMod n (fun b => { b with waits := b.waits.filter (fun x => x != w) })).putReport n { w.rep with flags := flags }

/-- A GOOD report of a paired receiver (R304): matched with the partner's waiting report, or left to wait. -/
def State.goodReport (s : State) (n c u : Nat) (k : PeakS) (start : Nat) (raw : List Bool) : State :=
  let s0 := s.countReport n 1
  let (bits, data) := s.payloadOf n raw
  let r := reportRec u 1 c 0 k (s.ctx n).chain.outPer start bits data
  match s0.paired n with
  | none => s0.putReport n r
  | some m =>
    let near := fun (w : PairWait) =>
      s.rget (Reg.BRS_CH_FTW n c) == s.rget (Reg.BRS_CH_FTW m w.chan) &&
      decide (start ≤ w.start + s.bitOfCtx n) && decide (w.start ≤ start + s.bitOfCtx n)
    match (s0.ctx m).brs.waits.find? near with
    | some w =>
      let mine := decide (w.snr < k.snr) || (w.snr == k.snr && decide (n < m))
      (s0.giveWait m w (if mine then 1 else 2)).putReport n { r with flags := if mine then 2 else 1 }
    | none =>
      s0.brsMod n (fun b => { b with waits := b.waits ++
        [{ chan := c, start := start, snr := k.snr, due := u + 2 * s.bitOfCtx n, rep := r }] })

/-- The start condition of the class is met with the last of the bits decoded so far (R290): of AIS the flag 0x7E, of DSC three phasing symbols, of a generic
class the sync word within SYNCERR errors. Answers whether a DSC call goes on in a DX position. -/
def State.startMet (s : State) (n : Nat) (raw : List Bool) : Option Bool :=
  if s.brsClass n = 0 then
    if raw.drop (raw.length - 8) = [false, true, true, true, true, true, true, false] then some false else none
  else if s.brsClass n = 1 then dscStart raw
  else
    let len := clampN 8 32 (s.fget (Reg.BRS_GEN_SYNCLEN n))
    if len ≤ raw.length ∧ syncErrors len (s.rget (Reg.BRS_GSYNC n)) raw ≤ s.fget (Reg.BRS_GEN_SYNCERR n) then some false else none

/-- The end condition of the class is met with the last of the bits decoded since the start (R290, R298): whether the frame checks (R299). -/
def State.endMet (s : State) (n : Nat) (dx : Bool) (raw : List Bool) : Option Bool :=
  if s.brsClass n = 0 then aisEnd raw
  else if s.brsClass n = 1 then dscEnd dx raw
  else if raw.length = zeroAs1 (s.fget (Reg.BRS_LIM_MAXBITS n)) then some (genCheck (s.fget (Reg.BRS_GEN_CRC n)) raw)
  else none

/-- A reception ends GOOD or BAD_FRAME at stu `u` (R299); its channel is armed again from the next sample on (R298). -/
def State.endFrame (s : State) (n c u : Nat) (k : PeakS) (st : Nat) (raw : List Bool) (good : Bool) : State :=
  let s1 := s.setChan n c (.armed u)
  if good then s1.goodReport n c u k st raw else s1.report n c u 2 k st raw

/-- A reception in progress ends INTERRUPTED at `u` (R300, R308). -/
def State.interrupt (s : State) (n c u : Nat) (raw : List Bool) : State :=
  match s.chan n c with
  | .await k => (s.report n c u 8 k 0 []).setChan n c (.armed 0)
  | .recv k st _ => (s.report n c u 8 k st (s.bitsBy n st u raw)).setChan n c (.armed 0)
  | _ => s

/-- A reception reaches its end deadline (R298): TOO_LONG, unless its end condition is met at exactly the deadline; a gap marker at
that sample comes first (R303). -/
def State.endLate (s : State) (n c : Nat) (k : PeakS) (st : Nat) (dx : Bool) (raw : List Bool) : State :=
  let u := s.endDeadline n st
  let got := s.bitsBy n st u raw
  let s1 := s.at u
  match s.endMet n dx got with
  | some good =>
    if st + got.length * s.bitOfCtx n = u then
      if (s.ctx n).brs.gap = some u then s1.interrupt n c u got else s1.endFrame n c u k st got good
    else (s1.setChan n c (.armed u)).report n c u 7 k st got
  | none => (s1.setChan n c (.armed u)).report n c u 7 k st got

/-- What the start deadline of a reception that awaits its start brings (R297): NO_START and an armed channel, unless the bits decoded since the peak meet the start
condition at exactly the deadline (R303). -/
def State.startLate (s : State) (n c : Nat) (k : PeakS) (raw : List Bool) : State :=
  let u := s.startDeadline n k
  let got := s.bitsBy n k.p u raw
  match s.startMet n got with
  | some dx => if k.p + got.length * s.bitOfCtx n = u then (s.at u).setChan n c (.recv k u dx) else ((s.at u).report n c u 4 k 0 []).setChan n c (.armed 0)
  | none => ((s.at u).report n c u 4 k 0 []).setChan n c (.armed 0)

/-- The reference window of a peak lies in samples the channel searches: none of them carries VOID or SETTLE or comes before the channel rearmed (R293, R308). -/
def State.heard (s : State) (n p : Nat) : Bool :=
  let x := s.ctx n
  let first := p - (s.brsRef n x.chain.outPer - 1) * x.chain.outPer
  decide (x.brs.rearm ≤ first) && decide (x.chain.deaf < first)

/-- A peak the channel takes (R293, R308): at or above THR, above the correlation at the two samples on either side, in a heard window, and outside a restart. -/
def State.takesPeak (s : State) (n : Nat) (k : PeakIn) : Bool :=
  let x := s.ctx n
  x.brs.alloc && x.chain.on && !x.chain.void && (s.flt.restart.isNone || s.flt.restartStep == 0) && decide (zeroAs1 (s.fget (Reg.BRS_DET_THR n)) ≤ k.qual) &&
    k.sides.all (fun v => decide (v < k.qual)) && s.heard n k.p

/-- A start condition met at exactly stu `d`, with the last of the bits since the peak, is taken before a peak decided at `d` (R303). -/
def State.startFirst (s : State) (n c d : Nat) (raw : List Bool) : State :=
  match s.chan n c, s.startMet n raw with
  | .await k, some dx => if k.p + raw.length * s.bitOfCtx n = d ∧ d ≤ s.startDeadline n k then s.setChan n c (.recv k d dx) else s
  | _, _ => s

/-- What a peak decided at `d` finds (R295, R301 to R303): `raw` holds the bits decoded since the start. -/
def State.judgePeak (s : State) (n c : Nat) (k : PeakS) (raw : List Bool) : State :=
  let po := (s.ctx n).chain.outPer
  let d := k.p + 2 * po
  match s.chan n c with
  | .off => s
  | .armed since => if since < d then s.startReception n c k else s
  | .await cur =>
    if s.startDeadline n cur ≤ d then ((s.report n c (s.startDeadline n cur) 4 cur 0 []).setChan n c (.armed 0)).startReception n c k
    else if cur.p < k.p && (decide (cur.qual < k.qual) || decide (cur.level + (s.fget (Reg.BRS_CAPTURE_REG_PREEMPT n) : Int) ≤ k.level)) then
      (s.report n c d 3 cur 0 []).startReception n c k
    else s
  | .recv cur st dx =>
    if s.brsClass n ≠ 2 ∧ s.endDeadline n st ≤ d then
      if s.endDeadline n st < d then (s.endLate n c cur st dx raw).startReception n c k else s.endLate n c cur st dx raw
    else if k.p < cur.p + s.brsRef n po * po then s
    else if s.flag (Reg.BRS_CAPTURE_REG_CAPEN n) && decide (cur.level + (s.fget (Reg.BRS_CAPTURE_REG_CAPTURE n) : Int) ≤ k.level) then
      (s.report n c d 5 cur st (s.bitsBy n st d raw)).startReception n c k
    else s.report n c d 6 k 0 []

/-- PEAK_DECISION (R293, R295, R297, R298, R301 to R303): a peak on channel `c` of context `n` is decided at p + 2 P_out; a deadline that has come by then ends
the reception first. `raw` holds the bits the channel has decoded since the peak of a reception that awaits its start, or since the start of one that receives. -/
def execPeakDecision (n : Fin 256) (c : Fin 2) (k : PeakIn) (raw : List Bool) (s : State) : Host.Outcome State Fault Refusal :=
  .next (
    let d := k.p + 2 * (s.ctx n).chain.outPer
    if !s.takesPeak n k then s
    else ((s.at d).startFirst n c d raw).judgePeak n c { p := k.p, qual := k.qual, level := k.level, snr := k.snr, fine := k.fine, fofs := k.fofs } raw)

/-- START_CONDITION (R290, R297): the start condition of the class is met at stu `t`, after the detection and at or before the deadline; `raw` ends with the bits
that meet it. -/
def execStartCondition (n : Fin 256) (c : Fin 2) (t : Nat) (raw : List Bool) (s : State) : Host.Outcome State Fault Refusal :=
  .next (
    match s.chan n c, s.startMet n raw with
    | .await k, some dx =>
      if k.p + 2 * (s.ctx n).chain.outPer < t ∧ t ≤ s.startDeadline n k then (s.at t).setChan n c (.recv k t dx) else s
    | _, _ => s)

/-- START_DEADLINE (R297, R303): a reception that has not started by then ends NO_START; `raw` holds the bits decoded since the peak. -/
def execStartDeadline (n : Fin 256) (c : Fin 2) (raw : List Bool) (s : State) : Host.Outcome State Fault Refusal :=
  .next (
    match s.chan n c with
    | .await k => s.startLate n c k raw
    | _ => s)

/-- END_CONDITION (R290, R298, R299): the bits `raw`, decoded since the start, complete the end condition at the last sample of the last of them; a gap marker at
that sample comes first (R303). -/
def execEndCondition (n : Fin 256) (c : Fin 2) (raw : List Bool) (s : State) : Host.Outcome State Fault Refusal :=
  .next (
    match s.chan n c with
    | .recv k st dx =>
      let t := st + raw.length * s.bitOfCtx n
      match s.endMet n dx raw with
      | none => s
      | some good =>
        if s.endDeadline n st < t then s
        else if (s.ctx n).brs.gap = some t then (s.at t).interrupt n c t raw
        else (s.at t).endFrame n c t k st raw good
    | _ => s)

/-- END_DEADLINE (R298): TOO_LONG, or the end condition met at exactly the deadline (R303); the generic class never comes here. -/
def execEndDeadline (n : Fin 256) (c : Fin 2) (raw : List Bool) (s : State) : Host.Outcome State Fault Refusal :=
  .next (
    match s.chan n c with
    | .recv k st dx => if s.brsClass n = 2 then s else s.endLate n c k st dx raw
    | _ => s)

/-- BURST_GAP_INTERRUPT (R300): a gap marker attaches to the channel input's sample labelled `t`. -/
def execBurstGapInterrupt (n : Fin 256) (c : Fin 2) (t : Nat) (raw : List Bool) (s : State) : Host.Outcome State Fault Refusal :=
  .next ((s.at t).interrupt n c t raw)

/-- Free bytes. -/
def freeBytes : Nat → State → List Byte × State
  | 0, s => ([], s)
  | k + 1, s =>
    let (f, s1) := s.free1
    let (l, s2) := freeBytes k s1
    (BitVec.ofNat 8 f :: l, s2)

/-- The bits a reception has decoded by now: those of the time since its start, free values. -/
def State.decodedBits (s : State) (n c : Nat) : List Bool × State :=
  match s.chan n c with
  | .recv _ st _ =>
    let k := (s.now - st) / Nat.max 1 (s.bitOfCtx n)
    let (l, s1) := freeBytes k s
    (l.map (fun b => b.getLsbD 0), s1)
  | _ => ([], s)

/-- One channel of a context that stops (R308). -/
def State.chanStop (s : State) (n c : Nat) : State :=
  let (l, s1) := s.decodedBits n c
  s1.interrupt n c s1.now l

/-- The context of a receiver stops (R308): shed, or a compute restart. -/
def State.brsStop (s : State) (n : Nat) : State :=
  if !(s.ctx n).brs.alloc then s else (s.chanStop n 0).chanStop n 1

/-- The channels rearm on the first sample after stu `b` (R308). -/
def State.brsRearm (s : State) (n b : Nat) : State :=
  if !(s.ctx n).brs.alloc then s else
  s.brsMod n (fun x => { x with rearm := b })

/-- The partner of context `n` is in a reception that could match a waiting report (R304). -/
def State.pairBusy (s : State) (n : Nat) (w : PairWait) : Bool :=
  match s.paired n with
  | none => false
  | some m => (List.range 2).any (fun c => match s.chan m c with
    | .recv _ st _ => s.rget (Reg.BRS_CH_FTW n w.chan) == s.rget (Reg.BRS_CH_FTW m c) &&
        decide (st ≤ w.start + s.bitOfCtx n) && decide (w.start ≤ st + s.bitOfCtx n)
    | _ => false)

/-- PAIR_TIMEOUT (R304): of the waiting reports of a context the oldest whose partner is in no reception that could match it has waited two bit periods. -/
def execPairTimeout (n : Fin 256) (s : State) : Host.Outcome State Fault Refusal :=
  .next (
    match (s.ctx n).brs.waits.find? (fun w => !s.pairBusy n w) with
    | none => s
    | some w => (s.at w.due).giveWait n w 0)

/-! ## BRS_CAPTURE (R309) -/

/-- The write of BRS_CAPTURE: a request while the context is open (R409). -/
def State.wrBrsCapture (s : State) (tenant n : Nat) (v : Word) : State :=
  let a := Reg.BRS_CAPTURE_REG n
  if s.busyCtx n then s.request tenant (.reg a v) else s.wr a v

/-- The other settings are taken at the acceptance of the OPEN and discarded after it. -/
def State.wrBrsCfg (s : State) (n a : Nat) (v : Word) : State :=
  if s.busyCtx n then s.evt (Reg.CHN_EVT_CFG_REFUSED n) else s.wr a v

end Sys2Proof.Machine
end

