-- ==== Sys2Proof/Machine/Charges.lean ====
section
/-!
DEFINITION. What an admitted context is charged in each slot (R239, R240), the budgets those charges must fit (R238, R241 to R247)
and the store space objects take (R253, R254).
-/

namespace Sys2Proof.Machine

/-! ## Costs of an image (R188, R193) -/

/-- Code bytes: BODY plus every CUE section. -/
def ImageS.code (im : ImageS) : Nat := 4 * (im.body.length + sumN (im.handlers.map (fun h => h.code.length)))

/-- The cycles of a run before its first instruction (R193): its start, code, CONST and STATE hauled in, SCRATCH cleared. -/
def ImageS.entry (im : ImageS) : Nat :=
  64 + ceilDiv im.code 64 + ceilDiv im.const.length 64 + ceilDiv im.stateSize 64 + ceilDiv im.scratch 64

/-- The run cost of R193 with a WCET. -/
def ImageS.runCost (im : ImageS) (wcet : Nat) : Nat := im.entry + ceilDiv im.stateSize 64 + wcet

/-- The engine cycles that SAME handlers reserve in every tick. -/
def ImageS.sameCost (im : ImageS) : Nat := sumN (im.handlers.map (fun h => if h.same then h.slots * h.full else 0))

/-- The engine charge of a slot (R240): `due` says that it lies in the charge set. -/
def ImageS.engCharge (im : ImageS) (due : Bool) : Nat :=
  im.sameCost + (if due then im.cost + sumN (im.handlers.map (fun h => if h.same then 0 else h.wcet))
    else sumN (im.handlers.map (fun h => if h.same then 0 else h.full)))

/-- The handler cycles reserved per tick as CTX_CUECOST shows them (R188, R202): with the body running. -/
def ImageS.cueCost (im : ImageS) : Nat := im.sameCost + sumN (im.handlers.map (fun h => if h.same then 0 else h.wcet))

/-- The store traffic T of R240. -/
def ImageS.traffic (im : ImageS) : Nat :=
  im.code + im.const.length + 2 * im.stateSize + im.hmax + sumN (im.binds.map (·.most))

/-- The store-traffic charge of a slot. -/
def ImageS.stCharge (im : ImageS) (due : Bool) : Nat := im.traffic * (b2n due + im.handlers.length)

/-- Whether slot `r` lies in the charge set of a stride and phase (R239). -/
def inCharge (stride phase r : Nat) : Bool :=
  let g := Nat.gcd (Nat.max 1 stride) 3000
  r % g == phase % g

/-- The accelerator charge of a kind in slot `r` (R240): span-k jobs in the slots that follow their issue, modulo 3000. -/
def ImageS.accCharge (im : ImageS) (stride phase kind r : Nat) : Nat :=
  sumN (im.acc.map (fun f =>
    if f.kind ≠ kind then 0 else
    let u := fun j => (if inCharge stride phase j then f.body else 0) + f.handlers
    if f.span = 0 then u r
    else sumN ((List.range f.span).map (fun d => ceilDiv (u ((r + 3000 - d % 3000) % 3000)) f.span))))

/-! ## Charges of a context -/

/-- A context's image, or one that costs nothing. -/
def ContextS.img (x : ContextS) : ImageS :=
  x.image.getD { handle := 0, tenant := 0, size := 0, body := [], handlers := [], const := [], state := [], stateSize := 0, scratch := 0, ext := 0
                 hmax := 0, cost := 0, wcet := 0, strideMin := 1, strideMax := 3000, value := 1, jobs := [], binds := [] }

/-- The engine charge of a context in slot `r`. -/
def ContextS.eng (x : ContextS) (r : Nat) : Nat := x.img.engCharge (inCharge x.stride x.phase r)

/-- The store-traffic charge. -/
def ContextS.store (x : ContextS) (r : Nat) : Nat := x.img.stCharge (inCharge x.stride x.phase r)

/-- The accelerator charge of a kind. -/
def ContextS.acc (x : ContextS) (kind r : Nat) : Nat := x.img.accCharge x.stride x.phase kind r

/-- A context is admitted: open in any state, or accepted and waiting for its boundary (R248, R249). -/
def ContextS.admitted (x : ContextS) : Bool := x.mode != .closed || x.opening

/-- The stride and priority of CTX_RUN as they act (R202). -/
def strideOf (v : Nat) : Nat := clampN 1 3000 v

/-- A context as the accepted changes of its CTX_RUN leave it that `f` picks by the tick they are due at (R246, R249). -/
def State.withRuns (s : State) (f : Nat → Bool) (n : Nat) (x : ContextS) : ContextS :=
  s.reqs.foldl (fun (y : ContextS) q => match q.kind with
    | .run m v home phase units =>
      if m = n ∧ f q.due = true then { y with stride := strideOf (fieldOf v 11 0), prio := fieldOf v 13 12, home := home, phase := phase, units := units } else y
    | _ => y) x

/-- The admitted contexts, with the changes of CTX_RUN due by tick `k`. -/
def State.admittedBy (s : State) (k : Nat) : List (Nat × ContextS) :=
  (s.ctxs.filter (fun p => p.2.admitted)).map (fun p => (p.1, s.withRuns (fun d => decide (d ≤ k)) p.1 p.2))

/-- The admitted contexts as every request accepted so far leaves them (R249). -/
def State.admitted (s : State) : List (Nat × ContextS) :=
  (s.ctxs.filter (fun p => p.2.admitted)).map (fun p => (p.1, s.withRuns (fun _ => true) p.1 p.2))

/-- The slots that can differ: every charge set of the contexts is periodic in this many of the 3000 (R239). -/
def slotPeriod (l : List (Nat × ContextS)) : Nat :=
  l.foldl (fun a p => Nat.lcm a (Nat.gcd (Nat.max 1 p.2.stride) 3000)) 1

/-! ## Units (R244, R267) -/

/-- The accelerator kind of a unit: FFT0, FFT1, LDPC0, LDPC1, Viterbi0, Viterbi1, RS/BCH0, RS/BCH1, finder, crypto. -/
def unitKind (u : Nat) : Nat := if u < 8 then u / 2 else u - 4

/-- The unit of a kind by its number in the kind. -/
def unitOf (kind i : Nat) : Nat := if kind < 4 then 2 * kind + i % 2 else kind + 4

/-- Units of a kind. -/
def unitsOf (kind : Nat) : List Nat := if kind < 4 then [2 * kind, 2 * kind + 1] else [kind + 4]

/-- An engine is healthy (R261). -/
def State.engHealthy (s : State) (e : Nat) : Bool := (s.seq.engs.getD e {}).st == 0

/-- An accelerator unit is healthy (R264). -/
def State.accHealthy (s : State) (u : Nat) : Bool := (s.seq.accs.getD u {}).st == 0

/-- A unit by its number among the wind-up tasks: engines 0 to 7, accelerator units from 8 on. -/
def State.unitAt (s : State) (i : Nat) : UnitS := if i < 8 then s.seq.engs.getD i {} else s.seq.accs.getD (i - 8) {}

/-- The healthy engines. -/
def State.healthy (s : State) : List Nat := (List.range 8).filter s.engHealthy

/-- The unit a context's jobs of a kind go to. -/
def ContextS.unit (x : ContextS) (kind : Nat) : Nat := unitOf kind (x.units.getD kind 0)

/-! ## The budgets -/

/-- The core cycles of a tick at a frequency under a spread mode (R62, R65). -/
def cyclesAt (ssc f : Nat) : Nat := (ccsTick ssc (16 * f) 0 (16 * f) 0).2.2

/-- The committable cycles of a tick of C cycles (R238). -/
def commit (c : Nat) : Nat := 15 * c / 16

/-- The frequency limit of a grade (R276). -/
def State.gradeFreq (s : State) (g : Nat) : Nat := if g = 5 then 128000 else s.ceiling

/-- C_adm (R241). -/
def State.cAdm (s : State) : Nat :=
  cyclesAt s.clk.ccs.ssc (Nat.min (s.gradeFreq (s.fget Reg.TOP_DOMAIN_GRADE)) s.ceiling)

/-- The reserve of an accelerator kind (R244): detection work of the burst receivers, and a sixteenth of the crypto unit. -/
def State.accReserve (s : State) (all : List (Nat × ContextS)) (kind e : Nat) : Nat :=
  if kind = 4 then sumN (all.map (fun p => s.finderReserve p.1 p.2.chain.outPer))
  else if kind = 5 then e / 16 else 0

/-- The engine charges homed on an engine in a slot. -/
def engLoad (l : List (Nat × ContextS)) (e r : Nat) : Nat := sumN (l.map (fun p => if p.2.home = e then p.2.eng r else 0))

/-- The charges of an accelerator unit in a slot. -/
def accLoad (l : List (Nat × ContextS)) (u r : Nat) : Nat :=
  sumN (l.map (fun p => if p.2.unit (unitKind u) = u then p.2.acc (unitKind u) r else 0))

/-- The store traffic of a slot. -/
def storeLoad (l : List (Nat × ContextS)) (r : Nat) : Nat := sumN (l.map (fun p => p.2.store r))

/-- R242 over the healthy engines: every charge sits on a healthy engine and fits. -/
def State.engFits (s : State) (l : List (Nat × ContextS)) (e : Nat) : Bool :=
  s.healthy.all (fun k => (List.range (slotPeriod l)).all (fun r => decide (engLoad l k r ≤ e)))

/-- The largest span-0 sum a context issues to a kind. -/
def ContextS.span0 (x : ContextS) (kind : Nat) : Nat :=
  maxN (x.img.acc.map (fun f => if f.kind = kind ∧ f.span = 0 then Nat.max f.body f.handlers else 0))

/-- R244 for one unit; the finder's reserve covers the receivers of `all`. -/
def State.unitFits (s : State) (all l : List (Nat × ContextS)) (e u : Nat) : Bool :=
  let res := s.accReserve all (unitKind u) e
  (List.range (slotPeriod l)).all (fun r => decide (accLoad l u r + res ≤ e)) &&
  l.all (fun p => p.2.unit (unitKind u) != u || decide (p.2.span0 (unitKind u) + res ≤ e))

/-- R244 over the healthy units. -/
def State.accFits (s : State) (all l : List (Nat × ContextS)) (e : Nat) : Bool :=
  (List.range 10).all (fun u => !s.accHealthy u || s.unitFits all l e u)

/-- R245. -/
def storeFits (l : List (Nat × ContextS)) (e : Nat) : Bool :=
  (List.range (slotPeriod l)).all (fun r => decide (storeLoad l r ≤ 704 * e))

/-- R242, R244 and R245 together for committable cycles `e`. -/
def State.fitsAll (s : State) (all l : List (Nat × ContextS)) (e : Nat) : Bool :=
  s.engFits l e && s.accFits all l e && storeFits l e

/-- The P0 contexts of a list. -/
def p0Of (l : List (Nat × ContextS)) : List (Nat × ContextS) := l.filter (fun p => p.2.prio == 0)

/-- The safe budget E_s (R238). -/
def safeE : Nat := 112500

/-- The spare (R247): the highest-numbered healthy engine that carries no P0 context, of at least two healthy ones; none in G5
(R286). -/
def State.spareOf (s : State) (l : List (Nat × ContextS)) : Option Nat :=
  if !s.flag Reg.SEQ_CTRL_P0_SPARE || decide (s.healthy.length < 2) || s.fget Reg.TOP_DOMAIN_GRADE == 5 then none
  else (s.healthy.filter (fun e => !(p0Of l).any (fun p => p.2.home == e))).getLast?

/-- R246 and R247: the P0 contexts fit together on the safe clock, and a spare is left where one is kept. -/
def State.safeFits (s : State) (l : List (Nat × ContextS)) : Bool :=
  s.fitsAll l (p0Of l) safeE &&
  (!s.flag Reg.SEQ_CTRL_P0_SPARE || decide (s.healthy.length < 2) ||
    s.healthy.any (fun e => !(p0Of l).any (fun p => p.2.home == e)))

/-! ## Store space (R253, R254) -/

/-- The store objects of a context (R254). -/
def State.ctxObjs (s : State) (n : Nat) (x : ContextS) : List StoreObj :=
  let im := x.img
  let src := fun q => !(s.readers n q).isEmpty
  let rings := (List.range 16).map (fun q =>
    ({ owner := n, part := 4 + q, size := if outKind (x.portKind q) || src q then outRing (x.portMost q) else 0 } : StoreObj))
  let copies : List StoreObj := [{ owner := n, part := 0, size := im.stateSize }, { owner := n, part := 1, size := im.stateSize },
    { owner := n, part := 2, size := im.ext }, { owner := n, part := 3, size := roundUp x.ringMost 4096 }]
  (copies ++ rings).filter (fun o => decide (0 < o.size))

/-- Their bytes. -/
def State.footprint (s : State) (n : Nat) (x : ContextS) : Nat := sumN ((s.ctxObjs n x).map (·.size))

/-- The context store, in bytes: 28 MiB, 10 MiB while the raw-capture buffer is reserved (R253). -/
def State.storeMost (s : State) : Nat := if s.snp.rawHeld then 10485760 else 29360128

/-- The objects that the store holds: those of contexts and the images. -/
def State.storeObjs (s : State) : List StoreObj :=
  s.admitted.flatMap (fun p => s.ctxObjs p.1 p.2) ++ s.images.map (fun i => { owner := i.handle, part := 20, size := i.size })

/-- A bank (R253). -/
def bankSize : Nat := 2097152

/-- The banks that hold objects (R253): of 16 the device keeps two for its own use, and raw capture nine more, as 4 MiB and 18 MiB are whole banks; which they are
is the model's (log entry 80). -/
def State.objBanks (s : State) : Nat := if s.snp.rawHeld then 5 else 14

/-- A state copy or EXT of one context keeps apart from its other two (R254). -/
def StoreObj.apart (o p : StoreObj) : Bool := o.owner == p.owner && decide (o.part < 3) && decide (p.part < 3)

/-- The bytes a bank has left. -/
def bankRoom (m : List (StoreObj × Nat)) (b : Nat) : Nat := bankSize - sumN ((m.filter (fun p => p.2 == b)).map (·.1.size))

/-- An object may lie in a bank: wholly, and apart from what R254 keeps it from. -/
def mayLie (m : List (StoreObj × Nat)) (o : StoreObj) (b : Nat) : Bool :=
  decide (o.size ≤ bankRoom m b) && !m.any (fun p => p.2 == b && p.1.apart o)

/-- The next object takes a bank of `k`: the first that may hold it, or the emptiest. -/
def placeObj (even : Bool) (k : Nat) (m : Option (List (StoreObj × Nat))) (o : StoreObj) : Option (List (StoreObj × Nat)) :=
  match m with
  | none => none
  | some m =>
    let ok := (List.range k).filter (mayLie m o)
    let best := ok.foldl (fun (a : Option Nat) b => match a with
      | none => some b
      | some c => if even && decide (bankRoom m c < bankRoom m b) then some b else some c) none
    best.map (fun b => m ++ [(o, b)])

/-- The objects by size, the largest first. -/
def bySize (l : List StoreObj) : List StoreObj :=
  l.foldl (fun a o => a.takeWhile (fun p => decide (o.size ≤ p.size)) ++ o :: a.dropWhile (fun p => decide (o.size ≤ p.size))) []

/-- The banks of the objects (R253, R254), spread evenly, or packed where that leaves no place. R257 lets the device move any object at a boundary, so the objects
are placed anew with every change; how is the model's choice (log entry 80). -/
def storeMap (k : Nat) (l : List StoreObj) : Option (List (StoreObj × Nat)) :=
  match (bySize l).foldl (placeObj true k) (some []) with
  | some m => some m
  | none => (bySize l).foldl (placeObj false k) (some [])

/-- The objects find their banks. -/
def State.storeHolds (s : State) (more : List StoreObj) : Bool := (storeMap s.objBanks (s.storeObjs ++ more)).isSome

/-- The bytes of store allocated: contexts and images. -/
def State.storeUsed (s : State) : Nat :=
  sumN (s.storeObjs.map (·.size))

/-- The bytes of store a tenant uses (R402). -/
def State.tenantStore (s : State) (t : Nat) : Nat :=
  sumN ((s.admitted.filter (fun p => p.2.tenant == t)).map (fun p => s.footprint p.1 p.2)) +
  sumN ((s.images.filter (fun i => i.tenant == t)).map (·.size))

end Sys2Proof.Machine
end

