-- ==== Sys2Proof/Machine/Ledger.lean ====
section
/-!
DEFINITION. The energy and thermal ledger (chapter 10): planned and closed energy (R268 to R271), limits and floor (R272 to R275),
the grade decision (R276 to R281), the frequency choice (R282) and the sums of a second (R270, R271, R274, R284).
-/

namespace Sys2Proof.Machine

/-- The ledger's state changed. -/
def State.ldgMod (s : State) (f : LdgS → LdgS) : State := { s with ldg := f s.ldg }

/-! ## The energy model -/

/-- The CCS_VF entry whose coefficients apply at a frequency (R68, R268): on SAFE_OSC that of the voltage in force, the highest whose voltage is commanded or
exceeded (R287). -/
def State.vfIdx (s : State) (f : Nat) : Nat :=
  if s.coreSafe then (s.otp.vf.filter (fun e => decide (Nat.min 850 (e.2 + s.fget Reg.CCS_VREG_VMARGIN) ≤ s.clk.ccs.mv))).length - 1
  else (s.otp.vf.findIdx? (fun e => decide (f ≤ e.1))).getD 7

/-- The voltage of a frequency being evaluated, in mV; on SAFE_OSC the voltage in force (R269, R287). -/
def State.volts (s : State) (f : Nat) : Nat := if s.coreSafe then s.clk.ccs.mv else s.vcommand f

/-- The engine and accelerator coefficients of a frequency, pJ per cycle. -/
def State.epc (s : State) (f : Nat) : Nat × Nat := s.otp.epc.getD (s.vfIdx f) (0, 0)

/-- An energy from its core-domain part in 0.1 pJ, scaled by LDG_KCORR, and the rest in 1/640 pJ, in whole nJ rounded down (R268, R271). -/
def State.nj (s : State) (core rest : Nat) : Nat :=
  (core * s.fget (whole Reg.LDG_KCORR) / 16 + rest) / 640000

/-- The energy of a context in a slot at a frequency (R269): its core-domain part in 0.1 pJ, and that of the store, exact in T / 64, and the fabric in
1/640 pJ. -/
def State.ctxEnergy (s : State) (p : Nat × ContextS) (slot f : Nat) : Nat × Nat :=
  let (ee, ea) := s.epc f
  let x := p.2
  let acc := sumN ((List.range 6).map (fun k => x.acc k slot)) + s.finderReserve p.1 x.chain.outPer
  (10 * (x.eng slot * ee + acc * ea), 10 * s.otp.stPj * x.store slot + 64 * s.otp.mac * x.cost)

/-- e_i of R269 in nJ. -/
def State.eI (s : State) (p : Nat × ContextS) (slot f : Nat) : Nat :=
  let (c, r) := s.ctxEnergy p slot f
  s.nj c r

/-- The engine that G5 keeps powered (R286). -/
def State.g5Engine (s : State) : Nat := s.healthy.headD 0

/-- The engine whose place the spare takes in a tick under the safe plan: the first that is not healthy and is home to P0 work (R266). -/
def State.safeOut (s : State) : Option Nat :=
  (List.range 8).find? (fun e => !s.engHealthy e && (p0Of s.admitted).any (fun p => p.2.home == e))

/-- The engine a context's runs execute on: its home, in G5 the one engine that is powered (R286), and under the safe plan the spare for the P0 contexts of a
fenced engine (R266); its home does not move with the grade (DEDUCED, log entry 81). -/
def State.engineOf (s : State) (n : Nat) : Nat :=
  if s.fget Reg.TOP_DOMAIN_GRADE = 5 then s.g5Engine
  else if s.flag Reg.SEQ_STAT_SAFEPLAN && s.safeOut == some (s.ctx n).home then (s.spareOf s.admitted).getD (s.ctx n).home
  else (s.ctx n).home

/-- The set's charges use an accelerator kind in a slot, or its receivers the finder (R286). -/
def State.usesKind (s : State) (l : List (Nat × ContextS)) (slot kind : Nat) : Bool :=
  l.any (fun p => p.2.acc kind slot != 0 || (kind == 4 && s.finderReserve p.1 p.2.chain.outPer != 0))

/-- The banks that are active in G5 for the contexts that run (R286): the two of the device's own 4 MiB, and those in which the contexts' objects are gathered; the
others are in retention. -/
def State.activeBanks (s : State) (l : List (Nat × ContextS)) : List Nat :=
  let m := ((bySize (l.flatMap (fun p => s.ctxObjs p.1 p.2))).foldl (placeObj false 14) (some [])).getD []
  (List.range 16).filter (fun b => decide (14 ≤ b) || m.any (fun p => p.2 == b))

/-- The blocks a grade powers for a set in a slot, as Config.idleEnergy numbers them (R276, R286): in G5 the finder and the crypto unit, 20 and 21, only where the
plan uses them, and of the banks of the store, 26 to 41, the active ones. -/
def State.powered (s : State) (g : Nat) (l : List (Nat × ContextS)) (slot : Nat) : List Nat :=
  if g = 5 then [2, 3, 4 + s.g5Engine, 22, 24, 25] ++ (if s.usesKind l slot 4 then [20] else []) ++ (if s.usesKind l slot 5 then [21] else []) ++
    (s.activeBanks l).map (· + 26)
  else List.range 42

/-- E_fix (R269). -/
def State.eFix (s : State) (g f : Nat) (l : List (Nat × ContextS)) (slot : Nat) : Nat :=
  sumN ((s.powered g l slot).map (fun b => Config.idleEnergy b (s.volts f) s.hottest))

/-- WU_min: the escalated wind-up tasks (R269). -/
def State.wuMin (s : State) : Nat :=
  sumN ((List.range 6).map (fun k => if (s.snp.escSince.getD k none).isSome then Config.windUpEnergy k else 0))

/-- WU_full: the reserve and all capacity the plan leaves unused, filled with wind-up work (R269); a free value of that capacity and the voltage. -/
def State.wuFull (s : State) (l : List (Nat × ContextS)) (slot f : Nat) : Nat :=
  let c := cyclesAt s.clk.ccs.ssc f
  Config.windUpFill (sumN (s.healthy.map (fun e => c - engLoad l e slot))) (s.volts f)

/-- Σ e_i of a set. -/
def State.eSum (s : State) (l : List (Nat × ContextS)) (slot f : Nat) : Nat := sumN (l.map (fun p => s.eI p slot f))

/-- W of R277 at a frequency. -/
def State.wAt (s : State) (g : Nat) (l : List (Nat × ContextS)) (slot f : Nat) : Nat :=
  s.eFix g f l slot + s.wuMin + s.eSum l slot f

/-- The planned energy of a tick (R276, R282) under the limit `l`: with the full wind-up fill at G0, and at G1 with as much of it as the limit allows. -/
def State.wPlan (s : State) (g l : Nat) (set : List (Nat × ContextS)) (slot f : Nat) : Nat :=
  let w := s.wAt g set slot f
  let full := w - s.wuMin + s.wuFull set slot f
  if g = 0 then full else if g = 1 then Nat.max w (Nat.min l full) else w

/-! ## The frequency choice (R282) -/

/-- The candidate frequencies. -/
def State.candidates (s : State) : List Nat :=
  ((List.range 17).map (fun k => 32000 * k)).filter (fun f => decide (128000 ≤ f) && decide (f ≤ s.ceilingNext))

/-- The frequency of a set: the lowest W, and at equal W the lower frequency; the ceiling with DVFS = 0 or where the set fits at no
candidate. -/
def State.freqFor (s : State) (g : Nat) (l : List (Nat × ContextS)) (slot : Nat) : Nat :=
  if g = 5 then 128000
  else if !s.flag Reg.LDG_CTRL_DVFS then s.ceilingNext
  else
    let ok := s.candidates.filter (fun f => s.fitsAll l l (commit (cyclesAt s.clk.ccs.ssc f)))
    (ok.foldl (fun (a : Option (Nat × Nat)) f =>
      let w := s.wAt g l slot f
      match a with
      | none => some (w, f)
      | some (v, _) => if w < v then some (w, f) else a) none).elim s.ceilingNext (·.2)

/-- W of a set (R277). -/
def State.wOf (s : State) (g : Nat) (l : List (Nat × ContextS)) (slot : Nat) : Nat := s.wAt g l slot (s.freqFor g l slot)

/-- W with the wind-up fill of G0. -/
def State.wFull (s : State) (l : List (Nat × ContextS)) (slot : Nat) : Nat :=
  let f := s.freqFor 0 l slot
  s.wAt 0 l slot f - s.wuMin + s.wuFull l slot f

/-! ## Limits (R272 to R275) -/

/-- RTH as it acts (R288). -/
def State.rth (s : State) : Nat := zeroAs1 (s.fget Reg.LDG_THERM_RTH)

/-- L_cap (R272). -/
def State.lCap (s : State) : Nat := clampN 150 1400 (s.fget Reg.LDG_PCAP_PCAP) * 10000 / 3

/-- L_th (R274). -/
def State.lTh (s : State) : Nat :=
  let q : Rat := ((s.tjLimit : Rat) - s.ldg.tbase) * 100000000 / (3 * (s.rth : Rat))
  let l := if q < 0 then 0 else q.floor.toNat
  if 16 * (s.tjLimit : Int) ≤ s.tHot then Nat.min l (7 * (s.rget Reg.LDG_TICKE).toNat / 8) else l

/-- The grade floor without the thermal park (R275). -/
def State.floorOf (s : State) : Nat :=
  let v := s.fget Reg.LDG_RESV_LEVEL
  if s.flag Reg.LDG_CTRL_PARK then 5
  else if v < s.fget Reg.LDG_RMAP_G5_AT then 5 else if v < s.fget Reg.LDG_RMAP_G4_AT then 4
  else if v < s.fget Reg.LDG_RMAP_G3_AT then 3 else if v < s.fget Reg.LDG_RMAP_G2_AT then 2 else 0

/-- HOLD and HYST as they act. -/
def State.ldgHold (s : State) : Nat := zeroAs1 (s.fget Reg.LDG_CFG_HOLD)
def State.ldgHyst (s : State) : Nat := 1000 * s.fget Reg.LDG_CFG_HYST

/-! ## Sets (R276 to R279) -/

/-- Contexts that the ledger plans for: admitted, not tripped. -/
def State.workSet (s : State) : List (Nat × ContextS) := s.admitted.filter (fun p => p.2.mode != .tripped)

/-- The work of priorities up to `p`. -/
def upTo (l : List (Nat × ContextS)) (p : Nat) : List (Nat × ContextS) := l.filter (fun x => decide (x.2.prio ≤ p))

/-- The test for a grade (R277, R280): with limit `l`. -/
def State.gradeTest (s : State) (g l slot : Nat) : Bool :=
  let w := s.workSet
  if g = 0 then decide (s.wFull w slot ≤ l)
  else if g ≤ 3 then decide (s.wOf g (upTo w (3 - g)) slot ≤ l)
  else true

/-- The grade of the procedure before floor and improvement rules. -/
def State.gradeBy (s : State) (l slot : Nat) : Nat :=
  if s.gradeTest 0 l slot then 0 else if s.gradeTest 1 l slot then 1 else if s.gradeTest 2 l slot then 2
  else if s.gradeTest 3 l slot then 3 else 4

/-- The keys of the keep order after the priority (R278), compared left to right; `tick` is N + 1. -/
def State.keepKey (s : State) (tick f : Nat) (p : Nat × ContextS) : List Nat :=
  let x := p.2
  let st := Nat.max 1 x.stride
  let e := s.eI p (tick % 3000) f
  [x.prio, b2n (s.flag (Reg.LDG_TENS_OVER x.tenant)), (x.phase + st - tick % st) % st,
   1000000 * e / Nat.max 1 x.img.value, p.1]

/-- Lexicographic order of key lists. -/
def keyLt : List Nat → List Nat → Bool
  | a :: t, b :: u => decide (a < b) || (a == b && keyLt t u)
  | _, _ => false

/-- Insertion in the keep order. -/
def insKeep (key : Nat × ContextS → List Nat) (p : Nat × ContextS) : List (Nat × ContextS) → List (Nat × ContextS)
  | [] => [p]
  | q :: t => if keyLt (key p) (key q) then p :: q :: t else q :: insKeep key p t

/-- The keep order of R278. -/
def State.keepOrder (s : State) (tick f : Nat) (l : List (Nat × ContextS)) : List (Nat × ContextS) :=
  l.foldr (insKeep (s.keepKey tick f)) []

/-- A chain's source, followed through its cascades, is an LF tap (R286). -/
def State.lfSource (s : State) (n : Nat) : Bool :=
  s.convOf n == 2

/-- The P0 contexts that run in G5, in keep order (R286). -/
def State.g5Set (s : State) (tick : Nat) : List (Nat × ContextS) :=
  let slot := tick % 3000
  let l := (p0Of s.workSet).filter (fun p => s.lfSource p.1 && (List.range 4).all (fun k => (p.2.img.jobs.getD k (0, 0)).1 == 0))
  (s.keepOrder tick 128000 l).foldl (fun (kept : List (Nat × ContextS)) p =>
    let all := kept ++ [p]
    let eng := sumN (all.map (fun q => maxN ((List.range (slotPeriod all)).map q.2.eng)))
    let fin := sumN (all.map (fun q => q.2.acc 4 slot + s.finderReserve q.1 q.2.chain.outPer))
    if eng ≤ 120000 ∧ fin ≤ 120000 then all else kept) []

/-- The margin of R279: a context it has shed returns only after HOLD fits; one admitted pending the grade, which it never shed, as soon as it fits. The contexts of the margin priority kept, in keep order, starting from the set run in full; with the counts of
fitting decisions of the others. Decisions count from the tick the margin's grade is in force on (the worked example of chapter 10:
DEDUCED, log entry 38). -/
def State.margin (s : State) (g tick l : Nat) (base : List (Nat × ContextS)) : List (Nat × ContextS) × List (Nat × Nat) :=
  let slot := tick % 3000
  let cand := s.keepOrder tick (s.freqFor g base slot) (s.workSet.filter (fun p => p.2.prio == 4 - g))
  cand.foldl (fun (a : List (Nat × ContextS) × List (Nat × Nat)) p =>
    let w := s.wOf g (a.1 ++ [p]) slot
    let out := s.ldg.shed.contains p.1 && p.2.mode == .shed
    if !out then (if w ≤ l then (a.1 ++ [p], a.2) else a)
    else
      let k := if s.fget Reg.TOP_DOMAIN_GRADE = g ∧ w ≤ l - s.ldgHyst then ((getIdx s.ldg.fits p.1).getD 0) + 1 else 0
      if s.ldgHold ≤ k then (a.1 ++ [p], a.2) else (a.1, putIdx a.2 p.1 k)) (base, [])

/-- The contexts that run at a grade (R276), and the fit counts. -/
def State.runSet (s : State) (g tick l : Nat) : List (Nat × ContextS) × List (Nat × Nat) :=
  let w := s.workSet
  if g = 0 then (w, [])
  else if g ≤ 3 then s.margin g tick l (upTo w (3 - g))
  else if g = 4 then (p0Of w, [])
  else (s.g5Set tick, [])

/-! ## The decision (R277) -/

/-- The thermal park (R275). -/
def State.thermalPark (s : State) : State :=
  let t := s.tHot
  if !s.flag Reg.LDG_STAT_TPARK then
    if 1680 ≤ t then
      (((s.ldgMod (fun x => { x with parkCool := 0 })).fsetB Reg.LDG_STAT_TPARK true).evt Reg.LDG_EVT_TPARK).fault 0x0009 255 255 0
    else s
  else
    let k := if t < 16 * ((s.tjLimit : Int) - 10) then s.ldg.parkCool + 1 else 0
    if s.ldgHold ≤ k then (s.ldgMod (fun x => { x with parkCool := 0 })).fsetB Reg.LDG_STAT_TPARK false
    else s.ldgMod (fun x => { x with parkCool := k })

/-- A raise to `f` may be planned as far as the voltage goes: while it is frozen, no higher than the last confirmed reading supports (R71). -/
def State.mayRaise (s : State) (f : Nat) : Bool :=
  !s.flag Reg.CCS_STAT_VFROZEN || (s.clk.ccs.readOk && decide (f ≤ (s.supports s.clk.ccs.readMv).getD 0))

/-- The frequency the ledger chose for grade `g` acts on the clock plan (R282, R69, R70, R71). In G5 the core clock is 128,000 cpt (R286): its fall waits for no
count of decisions (DEDUCED, log entry 83). -/
def State.chooseFreq (s : State) (g f : Nat) : State :=
  let s0 := s.fset Reg.LDG_STAT_FPLAN f
  if s.flag Reg.TOP_DOMAIN_COAST || s.coreSafe then s0.ldgMod (fun x => { x with lowFreq := 0 })
  else if s.freq < f then
    let s1 := (s0.ldgMod (fun x => { x with lowFreq := 0 })).ccsMod (fun c => { c with chosen := f })
    if s.clk.ccs.raise.isNone && decide (s.clk.ccs.noRaise ≤ s.time.tick) && !s.clk.ccs.ramping && s.mayRaise f then s1.decideRaise f else s1
  else if f < s.freq then
    let k := s.ldg.lowFreq + 1
    (s0.ldgMod (fun x => { x with lowFreq := k })).ccsMod (fun c => { c with chosen := if g = 5 ∨ s.ldgHold ≤ k then f else s.freq })
  else (s0.ldgMod (fun x => { x with lowFreq := 0 })).ccsMod (fun c => { c with chosen := f })

/-- The ledger asks the planner for moves off the hotter half of the engines (R287). -/
def State.heat (s : State) : State :=
  let d : Int := sgn 16 (s.fget (Reg.LDG_TEMP_TEMP 5)) - sgn 16 (s.fget (Reg.LDG_TEMP_TEMP 6))
  if s.flag Reg.LDG_CTRL_HEAT && s.flag (Reg.LDG_TEMP_VALID 5) && s.flag (Reg.LDG_TEMP_VALID 6) &&
     decide (16 * zeroAs1 (s.fget Reg.LDG_THERM_SPREAD) < d.natAbs) then
    (s.evt Reg.LDG_EVT_HEAT_MOVE).ldgMod (fun x => { x with hot := some (if 0 < d then 0 else 1) })
  else s.ldgMod (fun x => { x with hot := none })

/-- The decision for the next tick at stu offset 512,000 (R277 to R282). -/
def State.gradeDecide (s : State) : State :=
  let tick := s.time.tick + 1
  let slot := tick % 3000
  let s1 := s.thermalPark
  let flr := if s1.flag Reg.LDG_STAT_TPARK then 5 else s1.floorOf
  let now := s1.fget Reg.TOP_DOMAIN_GRADE
  let cap := s1.lCap
  let th := s1.lTh
  let l := Nat.min cap th
  let g0 := if flr = 5 then 5 else Nat.max (s1.gradeBy l slot) flr
  let better := decide (0 < now) && decide (flr ≤ now - 1) && s1.gradeTest (now - 1) (l - s1.ldgHyst) slot
  let passes := if better then s1.ldg.passes + 1 else 0
  let g := if g0 < now then (if s1.ldgHold ≤ passes then now - 1 else now) else g0
  let (set, fits) := s1.runSet g tick l
  let shed := ((s1.workSet.filter (fun p => !set.any (fun q => q.1 == p.1)))).map (·.1)
  let marginShed := decide (1 ≤ g) && decide (g ≤ 3) &&
    s1.workSet.any (fun p => p.2.prio == 4 - g && p.2.mode == .running && shed.contains p.1)
  let exceeds := decide (g = 4) && decide (l < s1.wOf 4 (p0Of s1.workSet) slot)
  let f := s1.freqFor g set slot
  let plan := s1.wPlan g l set slot f
  let s2 := s1.ldgMod (fun x => { x with
    passes := if g = now then passes else 0, fits := fits, shedNext := shed, limSum := x.limSum + l, decided := tick })
  let s3 := ((s2.fset Reg.LDG_STAT_NEXT g).fset Reg.LDG_STAT_FLOOR flr).fsetB Reg.LDG_STAT_OVER exceeds
  let s4 := if exceeds then s3.evt Reg.LDG_EVT_OVER else s3
  let s5 := if marginShed then s4.evt Reg.LDG_EVT_MARGIN_SHED else s4
  let s6 := ((s5.fset Reg.LDG_LIMIT_L (satTo 8388607 l)).fsetB Reg.LDG_LIMIT_BIND (decide (th < cap))).rsetN Reg.LDG_PLAN (satTo 8388607 plan)
  (s6.chooseFreq g f).heat

/-- GRADE_DECISION (R277): at stu offset 512,000; none during a compute restart (R287). -/
def execGradeDecision (s : State) : Host.Outcome State Fault Refusal :=
  .next (
    let t := s.time.tick * tickStu + 512000
    if !s.up || s.flt.restart.isSome || s.ldg.decided == s.time.tick + 1 || s.boot.rom then s else (s.at t).gradeDecide)

/-- A context's close comes by tick `k`. -/
def State.closesBy (s : State) (n k : Nat) : Bool :=
  s.reqs.any (fun q => match q.kind with
    | .closeCtx m _ => m == n && decide (q.due ≤ k)
    | _ => false)

/-- A context's open comes after tick `k`. -/
def State.opensAfter (s : State) (n k : Nat) : Bool :=
  s.reqs.any (fun q => match q.kind with
    | .openCtx m _ => m == n && decide (k < q.due)
    | _ => false)

/-- LDG_PLAN is recomputed at the cut-off for the confirmed frequency and the contexts that tick N+1 runs (R282): not those that the grade, the fit or a lost
accelerator sheds, nor those that close by then or open later. Of the fit, those that the plan being built sheds, `shed`, are out and those that it returns, `back`,
are in (R250, R251). -/
def State.replan (s : State) (shed back : List Nat) : State :=
  let tick := s.time.tick + 1
  let g := s.fget Reg.LDG_STAT_NEXT
  let set := s.workSet.filter (fun p => !s.ldg.shedNext.contains p.1 && (!p.2.shedFit || back.contains p.1) && !shed.contains p.1 && !p.2.shedAcc &&
    !s.closesBy p.1 tick && !s.opensAfter p.1 tick)
  let f := match s.clk.ccs.planned with
    | x :: _ => x.target
    | [] => s.freq
  s.rsetN Reg.LDG_PLAN (satTo 8388607 (s.wPlan g (s.fget Reg.LDG_LIMIT_L) set (tick % 3000) f))

/-- LDG_STAT.PSTATE: the power state holds while the grade and LDG_CTRL.DOZE say so (R285). -/
def State.showPower (s : State) : State :=
  s.fset Reg.LDG_STAT_PSTATE (if s.fget Reg.LDG_STAT_GRADE = 5 then 2 else if s.flag Reg.LDG_CTRL_DOZE then 1 else 0)

/-- The grade decided comes into force at the boundary (R277, R29), with its power state (R285). -/
def State.gradeBoundary (s : State) : State :=
  let g := s.fget Reg.LDG_STAT_NEXT
  let s1 := if g ≠ s.fget Reg.TOP_DOMAIN_GRADE then
      ((s.fset Reg.TOP_DOMAIN_GRADE g).fset Reg.LDG_STAT_GRADE g).evt Reg.LDG_EVT_GRADE_CHG
    else s
  s1.showPower.ldgMod (fun x => { x with shed := x.shedNext })

/-! ## Closed accounts (R270) -/

/-- Energy spent in the present tick by a context: its core-domain part in 0.1 pJ, the rest in 1/640 pJ. -/
def State.spend (s : State) (n core rest : Nat) : State :=
  let e := s.nj core rest
  s.ldgMod (fun x => { x with
    soFar := x.soFar + e, core := x.core + core, ctxNow := putIdx x.ctxNow n (((getIdx x.ctxNow n).getD 0) + e) })

/-- The tick that ends is set aside for its close: of every chain that ran in it the fabric's energy, unless SCS was unlocked in any part of it (R270, R22), and
the finder's detection reserve (R296) are charged, and the idle energy of its powered blocks at its grade, voltage and temperature goes with it. -/
def State.accountTick (s : State) : State :=
  let dark := !s.scsLocked || s.ldg.unlocked
  let s1 := s.ctxs.foldl (fun (y : State) p =>
    if p.2.chain.on then
      y.spend p.1 (10 * (if p.2.brs.alloc then s.finderReserve p.1 p.2.chain.outPer else 0) * (s.epc s.freq).2)
        (if dark then 0 else 64 * s.otp.mac * p.2.costNow)
    else y) s
  let ran := s.admitted.filter (fun p => p.2.mode == .running)
  s1.ldgMod (fun x => { x with
    prev := some (x.soFar, x.ctxNow, s.eFix (s.fget Reg.TOP_DOMAIN_GRADE) s.freq ran (s.time.tick % 3000)), coreSum := x.coreSum + x.core
    soFar := 0, core := 0, ctxNow := [], unlocked := !s.scsLocked })

/-- Two tables of sums added. -/
def addSums (a b : List (Nat × Nat)) : List (Nat × Nat) :=
  b.foldl (fun acc p => putIdx acc p.1 (((getIdx acc p.1).getD 0) + p.2)) a

/-- LEDGER_ACCOUNT_CLOSE (R270): the account of the tick before is closed. The wind-up energy of each class in it is a free value: no rule gives it. -/
def execLedgerAccountClose (s : State) : Host.Outcome State Fault Refusal :=
  .next (
    match s.ldg.prev with
    | none => s
    | some (e, cs, fix) =>
      if !s.up || s.flt.restart.isSome then s else
      let ws := (List.range 6).map (fun k => Config.freeValue (s.free + k))
      let wu := sumN ws
      let s1 := ({ s with free := s.free + 6 } : State).ldgMod (fun x => { x with
        prev := none, ctxSum := addSums x.ctxSum cs, devSum := x.devSum + fix, allSum := x.allSum + e + fix + wu
        wuSum := (List.range 6).map (fun k => x.wuSum.getD k 0 + ws.getD k 0) })
      (s1.rsetN Reg.LDG_TICKE (satTo 8388607 (e + fix + wu))).rsetN Reg.LDG_FIXE (satTo 8388607 fix))

/-- µJ as the 24-bit fields show them. -/
def uj (n : Nat) : Nat := satTo 16777215 (n / 1000)

/-- The correction of R271; it is held while TWB is stuck (R287). -/
def State.kcorr (s : State) : State :=
  let x := s.ldg
  if x.readings.isEmpty || x.coreSum == 0 || s.flag (Reg.TW_STAT_STUCK 1) then s else
  let mean : Rat := x.readings.foldl (· + ·) 0 / ((x.readings.length : Nat) : Rat)
  -- readings are mV × mA, so µW; over one second µJ; the model's sum is in 0.1 pJ
  let q : Rat := mean * 10000000 / ((x.coreSum : Nat) : Rat)
  let lo : Rat := 3 / 4
  let hi : Rat := 3 / 2
  let (v, cl) := if q < lo then (lo, true) else if hi < q then (hi, true) else (q, false)
  let s1 := s.rsetN Reg.LDG_KCORR (roundAway (v * 1024)).toNat
  if cl then s1.evt Reg.LDG_EVT_KCLAMP else s1

/-- LEDGER_SECOND (R270, R271, R274, R284): at every boundary at which TB_TICK is a multiple of 3000. -/
def execLedgerSecond (s : State) : Host.Outcome State Fault Refusal :=
  .next (
    if !s.up || s.flt.restart.isSome || s.time.tick % 3000 != 0 then s else
    let x := s.ldg
    let s1 := (List.range 256).foldl (fun (y : State) n => y.rsetN (Reg.LDG_CTXE n) (uj ((getIdx x.ctxSum n).getD 0))) s
    let s2 := (List.range 6).foldl (fun (y : State) k => y.rsetN (Reg.LDG_WUE k) (uj (x.wuSum.getD k 0))) s1
    let s3 := s2.rsetN Reg.LDG_DEVE (uj x.devSum)
    let ten := fun t => sumN ((x.ctxSum.filter (fun p => s.owner p.1 == some t)).map (·.2))
    let s4 := (List.range 4).foldl (fun (y : State) t =>
      let share := let v := (s.tenancy t).nrgShare; if v = 0 then 256 else v
      let exceeds := decide (share * x.limSum < ten t * 256)
      let y1 := (y.fset (Reg.LDG_TENS_UJ t) (uj (ten t))).fsetB (Reg.LDG_TENS_OVER t) exceeds
      if exceeds then y1.evt Reg.LDG_EVT_SHARE_OVER else y1) s3
    let pavg : Rat := ((x.allSum : Nat) : Rat) / 1000000000
    let tb : Rat := (s.tHot : Rat) / 16 - (s.rth : Rat) / 100 * pavg
    let s5 := s4.kcorr.rsetN Reg.LDG_TBASE (code 16 (tb * 16).floor)
    s5.ldgMod (fun x => { x with
      tbase := tb, ctxSum := [], wuSum := List.replicate 6 0, devSum := 0, allSum := 0, coreSum := 0, limSum := 0, readings := [] }))

/-- RESV_STALE (R275): RES_TO seconds without an accepted write of LDG_RESV. -/
def execResvStale (s : State) : Host.Outcome State Fault Refusal :=
  .next (
    let n := s.fget Reg.LDG_CFG_RES_TO
    if n = 0 then s else (s.at (s.ldg.resvAt + n * secStu)).evt Reg.LDG_EVT_RSTALE)

/-! ## Admission (R283) -/

/-- Check 10 of R248: E_fix of G0 and every admitted context's energy fit L_cap in every slot. -/
def State.energyFits (s : State) (l : List (Nat × ContextS)) : Bool :=
  let f := Nat.min (s.gradeFreq (s.fget Reg.TOP_DOMAIN_GRADE)) s.ceiling
  (List.range (slotPeriod l)).all (fun r => decide (s.eFix 0 f l r + s.eSum l r f ≤ s.lCap))

end Sys2Proof.Machine
end

