-- ==== Sys2Proof/Machine/Context.lean ====
section
/-!
DEFINITION. Contexts as placement knows them: the checks of an OPEN and of a changed setting (R107, R248, R291, R402, R410), open,
close, shed and return at boundaries (R20, R198, R201, R250, R251), trips and cut runs (R199, R200).
-/

namespace Sys2Proof.Machine

/-! ## What CTX and SEQ registers show -/

/-- The code of CTX_STAT.STATE (R202). -/
def CtxMode.code : CtxMode → Nat
  | .closed => 0
  | .pendingGrade => 1
  | .running => 2
  | .shed => 3
  | .tripped => 4
  | .stopped => 5

/-- A cue record of the context is pending (R202). -/
def ContextS.cuePending (x : ContextS) : Bool := (x.cues ++ x.fresh).any (fun c => c.count != 0)

/-- A run of the context in progress holds a record that it has neither served nor cleared (R187, R234). -/
def State.cueHeld (s : State) (n : Nat) : Bool :=
  (List.range 8).any (fun e => match s.run e with
    | some r => r.ctx == n && r.cues.any (fun c => c.count != 0)
    | none => false)

/-- SEQ_CTX follows the context (R259, R267). -/
def State.showPlace (s : State) (n : Nat) : State :=
  let x := s.ctx n
  let peak := maxN ((List.range (slotPeriod [(n, x)])).map x.eng)
  (s.fset (Reg.SEQ_CTX_HOME n) (if x.admitted then x.home else 0)).fset (Reg.SEQ_CTX_PEAK n) (if x.admitted then peak else 0)

/-- CTX_STAT follows the context. -/
def State.showCtx (s : State) (n : Nat) : State :=
  let x := s.ctx n
  let s1 := (s.fset (Reg.CTX_STAT_STATE n) x.mode.code).fsetB (Reg.CTX_STAT_CUEPEND n) (x.cuePending || s.cueHeld n)
  (s1.fset (Reg.CTX_STAT_PHASE n) (if x.mode = .closed then 0 else x.phase)).showPlace n

/-- The SEQ registers of loads and store, and SEQ_CTX, follow the admitted set (R259, R267). -/
def State.showSeq (s : State) : State :=
  let l := s.admitted
  let per := List.range (slotPeriod l)
  let sp := s.spareOf l
  let s1 := (List.range 8).foldl (fun (y : State) e =>
    (((y.fset (Reg.SEQ_ENG_STATE e) (s.seq.engs.getD e {}).st).fsetB (Reg.SEQ_ENG_SPARE e) (sp == some e)).fset (Reg.SEQ_ENG_HOMED e)
      (l.filter (fun p => p.2.home == e)).length).fset (Reg.SEQ_ENG_PEAK e) (maxN (per.map (engLoad l e)))) s
  let ust := fun u => (s.seq.accs.getD u {}).st
  let s2 := (List.range 6).foldl (fun (y : State) k =>
    let us := unitsOf k
    let st1 := match us with
      | [_, b] => ust b
      | _ => 2
    let res := s.accReserve l k (commit s.cAdm)
    ((y.fset (Reg.SEQ_ACC_STATE0 k) (ust (us.headD 0))).fset (Reg.SEQ_ACC_STATE1 k) st1).fset (Reg.SEQ_ACC_PEAK k)
      (maxN (us.map (fun u => maxN (per.map (accLoad l u)) + res)))) s1
  let s3 := (s2.rsetN Reg.SEQ_FABRIC s.fabricSum).rsetN Reg.SEQ_STORE (ceilDiv (maxN (per.map (storeLoad l))) 64)
  let s4 := (s3.fset Reg.SEQ_SPACE_ALLOC (s.storeUsed / 1024)).fset Reg.SEQ_SPACE_FREE ((s.storeMost - s.storeUsed) / 1024)
  let s5 := ((s4.fset Reg.SEQ_STAT_HEALTHY s.healthy.length).fset Reg.SEQ_STAT_SPARE (sp.getD 0)).fsetB Reg.SEQ_STAT_SPARE_VALID sp.isSome
  l.foldl (fun (y : State) p => y.showPlace p.1) s5

/-! ## Admission (R248) -/

/-- A candidate put among the admitted contexts in place of its own entry. -/
def withCtx (l : List (Nat × ContextS)) (n : Nat) (x : ContextS) : List (Nat × ContextS) := putIdx (dropIdx l n) n x

/-- The engine share of a tenant (R402): charges in highest slots. -/
def State.engShareOk (s : State) (t : Nat) (l : List (Nat × ContextS)) : Bool :=
  let mine := l.filter (fun p => p.2.tenant == t)
  let sum := sumN (mine.map (fun p => maxN ((List.range (slotPeriod [p])).map p.2.eng)))
  let share := let v := (s.tenancy t).engShare; if v = 0 then 256 else v
  decide (256 * sum ≤ share * s.healthy.length * commit s.cAdm)

/-- The tenant's quotas (R402). -/
def State.quotaOk (s : State) (t n : Nat) (x : ContextS) : Bool :=
  s.owner n == some t && s.engShareOk t (withCtx s.admitted n x) &&
  decide (s.tenantStore t + s.footprint n x ≤ 1024 * (s.tenancy t).storeQ)

/-- The taps of a unit that contexts use or accepted opens will take at the boundary of an open accepted now; a context whose CLOSE is accepted has left its
tap by then (R104). -/
def State.tapsWanted (s : State) (u : Nat) : List (Nat × Nat) :=
  let mine := s.admitted.filter (fun p => !p.2.closing && (p.2.chain.cfg.kind == 1 || p.2.chain.cfg.kind == 2) && p.2.chain.cfg.tapUnit == u)
  mine.foldl (fun (a : List (Nat × Nat)) p =>
    let k := (p.2.chain.cfg.tapFtw, p.2.chain.cfg.tapDec)
    if a.contains k then a else a ++ [k]) []

/-- A source setting that no chain of tenant `t`'s context `n` may have (R106, R107). -/
def State.badSource (s : State) (t n : Nat) (c : ChainCfg) : Bool :=
  if c.kind = 0 then decide (c.index = 0) || decide (511 < c.index)
  else if c.kind = 3 then
    decide (c.index = n) || !s.isOpen c.index || (s.ctx c.index).tenant != t || decide (4 ≤ s.levelOf 4 c)
  else false

/-- The chain settings of an open (R107): the status of the first failure. -/
def State.chainCheck (s : State) (t n : Nat) (c : ChainCfg) (rawCic : Nat) (rawTaps : Nat) : Option Nat :=
  let badSource := s.badSource t n c
  let badTap := (c.kind == 1 && (decide (c.tapDec < 125) || decide (6144 < c.tapDec))) ||
    (c.kind == 2 && (decide (c.tapDec < 16) || decide (65535 < c.tapDec)))
  let used := s.tapsWanted c.tapUnit
  let noTap := (c.kind == 1 || c.kind == 2) && !used.contains (c.tapFtw, c.tapDec) &&
    decide ((if c.kind = 2 then 16 else 8) ≤ used.length)
  if badSource then some 0x23 else if badTap then some 0x24 else if noTap then some 0x25
  else if rawCic < 3 ∨ 5 < rawCic ∨ 384 < rawTaps then some 0x26 else none

/-- The engine and phase classes at which R242 holds for a candidate, without moving others; with `keep` its phase stays (R197, R240). That the planner makes no
move to make room for an admission, as R258 allows it to, is the model's choice (DESIGN CHOICE, log entry 80). -/
def State.places (s : State) (n : Nat) (x : ContextS) (e : Nat) (keep : Bool := false) : List ContextS :=
  let g := Nat.gcd (Nat.max 1 x.stride) 3000
  let phases := if keep then [x.phase] else List.range g
  (s.healthy.map (fun k => phases.map (fun ph => { x with home := k, phase := ph }))).flatten.filter
    (fun y => s.engFits (withCtx s.admitted n y) e)

/-- The unit choices of a candidate: for each of the four paired kinds, unit 0 or 1. -/
def unitChoices : List (List Nat) :=
  (List.range 16).map (fun m => [m % 2, m / 2 % 2, m / 4 % 2, m / 8 % 2, 0, 0])

/-- The unit choices at which R244 holds on healthy units. -/
def State.unitPlaces (s : State) (n : Nat) (x : ContextS) (e : Nat) : List ContextS :=
  (unitChoices.map (fun us => { x with units := us })).filter (fun y =>
    (List.range 6).all (fun k => !y.img.acc.any (fun f => f.kind == k) || s.accHealthy (y.unit k)) &&
    s.accFits (withCtx s.admitted n y) (withCtx s.admitted n y) e)

/-- The places of a candidate through checks 5 to 10 of R248, or the status of the check at which none is left. -/
def State.placeCtx (s : State) (n : Nat) (x : ContextS) (keep : Bool := false) : Except Nat (List ContextS) :=
  let e := commit s.cAdm
  let c5 := s.places n x e keep
  if c5.isEmpty then .error 0x28
  else if fabricMax < sumN ((withCtx s.admitted n x).map (fun p => p.2.cost)) then .error 0x29
  else
    let c7 := (c5.map (fun y => s.unitPlaces n y e)).flatten
    if c7.isEmpty then .error 0x2A
    else
      let c8 := c7.filter (fun y => storeFits (withCtx s.admitted n y) e)
      if c8.isEmpty then .error 0x2B
      else
        let c9 := if x.prio = 0 then c8.filter (fun y => s.safeFits (withCtx s.admitted n y)) else c8
        if c9.isEmpty then .error 0x2C
        else
          let c10 := c9.filter (fun y => s.energyFits (withCtx s.admitted n y))
          if c10.isEmpty then .error 0x2D else .ok c10

/-- One place of those possible: which one the planner takes is open, and so is the phase within its class, unless it is kept. -/
def State.pickPlace (s : State) (x : ContextS) (l : List ContextS) (keep : Bool := false) : ContextS × State :=
  let (f, s1) := s.free1
  let (h, s2) := s1.free1
  let y := l.getD (f % Nat.max 1 l.length) x
  let st := Nat.max 1 y.stride
  let g := Nat.gcd st 3000
  ({ y with phase := if keep then y.phase else y.phase % g + g * (h % Nat.max 1 (st / g)) }, s2)

/-- An image a handle names for a tenant: loaded, owned and good. -/
def State.imageOf (s : State) (t h : Nat) : Option ImageS := s.images.find? (fun i => i.handle == h && i.tenant == t && !i.bad)

/-- A HOST, FLASH or CTXOUT port without a binding (R410). -/
def ContextS.unbound (x : ContextS) : Bool :=
  (List.range 16).any (fun q => (x.portKind q == 2 || x.portKind q == 3 || x.portKind q == 4) && (x.ports.getD q {}).target == Target.unbound)

/-- The context as an OPEN accepted now would admit it: settings taken at the acceptance (R132, R202, R309). -/
def State.candidate (s : State) (t tag n : Nat) (im : ImageS) : ContextS :=
  let c := s.takeCfg n
  let per := s.inPeriod c
  { s.ctx n with
    opened := some { tag := tag, accept := s.stamp, tenant := t }, image := some im
    stride := strideOf (s.fget (Reg.CTX_RUN_STRIDE n)), prio := s.fget (Reg.CTX_RUN_PRIO n)
    chain := { cfg := c, per := per, outPer := per * c.dc * c.df
               ftw := (s.rget (Reg.CHN_NCO_FTW n)).toNat, ph := s.fget ⟨Reg.CHN_NCO_PH n, 15, 0⟩
               agc := s.rget (Reg.CHN_AGC n), bank := s.fget (Reg.CHN_BANK_TARGET n)
               costFade := s.flag (Reg.CHN_BANK_FADE n), costAgc := s.flag (Reg.CHN_AGC_EN n)
               hasFade := s.flag (Reg.CHN_BANK_FADE n), hasAgc := s.flag (Reg.CHN_AGC_EN n) }
    brs := {} }

/-- The checks of an OPEN in order (R410, R339, R248): a status, or the places at which it is admitted. -/
def State.openCheck (s : State) (t tag n : Nat) : Except Nat (List ContextS) :=
  if s.owner n ≠ some t then .error 0x13
  else if s.isOpen n || (s.ctx n).opening then .error 0x14
  else
    let im := s.imageOf t (s.fget ⟨Reg.CTX_IMAGE n, 15, 0⟩)
    let x := s.candidate t tag n (im.getD ({} : ContextS).img)
    if im.isSome && x.unbound then .error 0x16
    else if im.isSome && (x.img.binds.any (fun b => b.kind == 5)) && !s.right t 0 then .error 0x18
    else if !s.quotaOk t n x then .error 0x20
    else if im.isNone then .error 0x21
    else if x.stride < x.img.strideMin ∨ x.img.strideMax < x.stride then .error 0x22
    else
      match s.chainCheck t n x.chain.cfg x.chain.cfg.order (s.fget (Reg.CHN_FIR_TAPS n)) with
      | some e => .error e
      | none =>
        if s.brsClass n ≠ 3 ∧ 16 ≤ s.brsUsed + (s.ctxs.filter (fun p => p.2.opening && s.brsClass p.1 != 3)).length then .error 0x2E
        else if s.badBurst n x.chain.outPer x.burstPort.isSome then .error 0x2F
        else if !s.storeHolds (s.ctxObjs n x) then .error 0x27
        else s.placeCtx n x

/-- The grade decided for the tick runs all work of a priority (R276). -/
def gradeRuns (g prio : Nat) : Bool := decide (g = 0) || (decide (g ≤ 3) && decide (prio + g ≤ 3)) || (decide (g = 4) && prio == 0)

/-- The margin of the grade decided has room for a context beside those it keeps (R279). -/
def State.marginRoom (s : State) (n due : Nat) : Bool :=
  let g := s.fget Reg.LDG_STAT_NEXT
  let kept := s.workSet.filter (fun p => p.1 != n && !s.ldg.shedNext.contains p.1)
  decide (1 ≤ g) && decide (g ≤ 3) && (s.ctx n).prio == 4 - g &&
    decide (s.wOf g (kept ++ [(n, s.ctx n)]) (due % 3000) ≤ s.fget Reg.LDG_LIMIT_L)

/-- An open due at a tick whose grade is decided already waits there for the next decision, unless that grade runs all work of its priority (R20) or its margin
has room for it (R279). -/
def State.lateOpen (s : State) (n due : Nat) : State :=
  if s.ldg.decided = due ∧ gradeRuns (s.fget Reg.LDG_STAT_NEXT) (s.ctx n).prio = false ∧ s.marginRoom n due = false then
    s.ldgMod (fun x => { x with shedNext := x.shedNext ++ [n] })
  else s

/-- An OPEN accepted by tenant `t` (R248, R408): refused at once, or admitted for its boundary. Before READY it takes effect at the first
boundary at or after it (R508). -/
def State.openCtx (s : State) (t tag n : Nat) : State :=
  match s.openCheck t tag n with
  | .error e => s.complete t tag 2 e s.stamp []
  | .ok l =>
    let (y, s1) := s.pickPlace (s.ctx n) l
    let due := Nat.max s.boundaryTick (if s.flag Reg.TOP_DOMAIN_READY then 0 else s.boot.firstTick + 810)
    let s2 := s1.ctxMod n (fun _ => { y with opening := true })
    let s3 := ((s2.rsetN (Reg.CHN_COST n) y.cost).showSeq).lateOpen n due
    { s3 with reqs := s3.reqs ++ [{ due := due, accept := s.stamp, tenant := t, kind := .openCtx n tag }] }

/-- Open contexts whose chains draw on `n` (R106). One whose own CLOSE is accepted and waits for its boundary is no dependant any more: the source's CLOSE is
accepted then (DESIGN CHOICE: R106 says only "open dependants"; log entry 83). -/
def State.dependants (s : State) (n : Nat) : Bool :=
  s.ctxs.any (fun p => p.2.admitted && p.2.chain.cfg.kind == 3 && p.2.chain.cfg.index == n && !p.2.closing)

/-- A CLOSE accepted (R408, R106). -/
def State.closeCmd (s : State) (t tag n : Nat) : State :=
  if s.owner n ≠ some t then s.complete t tag 3 0x13 s.stamp []
  else if !s.isOpen n && !(s.ctx n).opening then s.complete t tag 3 0x15 s.stamp []
  else if s.dependants n then s.complete t tag 3 0x30 s.stamp []
  else
    let s1 := s.ctxMod n (fun x => { x with closing := true })
    { s1 with reqs := s1.reqs ++ [{ due := s.boundaryTick, accept := s.stamp, tenant := t, kind := .closeCtx n tag }] }

/-- CTX_RUN (R197, R240, R248, R249, R409): plain before the OPEN, a checked request after; a write that leaves STRIDE as it is keeps the phase. -/
def State.wrCtxRun (s : State) (tenant n : Nat) (v : Word) : State :=
  let a := Reg.CTX_RUN n
  if !s.busyCtx n then s.wr a v else
  let s := (s.inTurn tenant).took tenant
  let x := s.withRuns (fun _ => true) n (s.ctx n)
  let y := { x with stride := strideOf (fieldOf v 11 0), prio := fieldOf v 13 12 }
  let keep := y.stride == x.stride
  if y.stride < x.img.strideMin ∨ x.img.strideMax < y.stride then s.postReq tenant 0x22 s.stamp n a
  else
    let others := dropIdx s.ctxs n
    let moved : ContextS := { y with opening := false, mode := .closed }
    let t : State := { s with ctxs := putIdx others n moved }
    if !t.storeHolds (t.ctxObjs n y) then s.postReq tenant 0x27 s.stamp n a
    else
      match t.placeCtx n y keep with
      | .error e => s.postReq tenant e s.stamp n a
      | .ok l =>
        let (z, s1) := s.pickPlace y l keep
        -- the new phase and place come into force with the request; the charges count from its acceptance
        { s1 with reqs := s1.reqs ++ [{ due := s.boundaryTick, accept := s.stamp, tenant := tenant
                                        kind := .run n v z.home z.phase z.units }] }

/-! ## Publish, trip and cut (R171, R199, R200) -/

/-- The entries a run wrote become visible (R171); `mark` sets INCOMPLETE (R199, R200). -/
def State.publishOut (s : State) (n : Nat) (out : List (Nat × Rec)) (mark : Bool) : State :=
  out.foldl (fun (y : State) e => y.deliver n e.1 (if mark && e.2.kind == 0x10 then { e.2 with flags := 1 } else e.2)) s

/-- Cue records a run took and did not serve join those of the next run. -/
def State.giveBack (s : State) (n : Nat) (l : List Cue) : State :=
  (s.ctxMod n (fun x => { x with cues := (List.range 7).map (fun k => (l.getD k {}).join k (x.cues.getD k {})) })).showCtx n

/-- The energy of a run: cycles executed and bytes moved (R270); its state is hauled out only where it has been published, `done`. -/
def State.spendRun (s : State) (r : Run) (done : Bool) : State :=
  let im := (s.ctx r.ctx).img
  let out := if done then im.stateSize else 0
  let bytes := im.code + im.const.length + im.stateSize + out + sumN r.moved
  s.spend r.ctx (10 * (r.cycles + ceilDiv out 64) * (s.epc s.freq).1) (10 * s.otp.stPj * bytes)

/-- An in-queue entry lies below a run's fence: CTXOUT by its publish tick, a report by its stu (R178, R307). -/
def belowFence (tick kind : Nat) (e : Nat × Rec) : Bool :=
  if kind = 7 then decide (e.2.stu < tick * tickStu) else decide (e.1 < tick)

/-- The stu that heads a ring entry. -/
def headStu : List Item → Nat
  | .sample l _ _ _ _ _ _ :: _ => l
  | .mark m :: _ => m.stu
  | [] => 0

/-- Input below the fence is left (R179). -/
def ContextS.backlog (x : ContextS) (tick : Nat) : Bool :=
  (match ringRuns x.ring with
    | e :: _ => decide (headStu e < tick * tickStu)
    | [] => false) ||
  (List.range 16).any (fun q => (x.portKind q == 2 || x.portKind q == 7) &&
    (x.ports.getD q {}).queue.any (belowFence tick (x.portKind q)))

/-- What CTX_STAT shows of the last run: BACKLOG, input below its fence that it left (R179), and CLAMPED, a count that it clamped (R196, R219). -/
def State.showRun (s : State) (r : Run) : State :=
  (s.fsetB (Reg.CTX_STAT_CLAMPED r.ctx) r.clamped).fsetB (Reg.CTX_STAT_BACKLOG r.ctx) ((s.ctx r.ctx).backlog r.tick)

/-- A run that ends before its publish: its energy is spent, CTX_STAT shows what it left, and the span-0 jobs it has not waited for go on: what they write to
EXT lands, what they write to local memory is lost (R171, R236). -/
def State.leaveRun (s : State) (r : Run) : State :=
  ((s.spendRun r false).ctxMod r.ctx (fun x => { x with jobs := x.jobs ++ r.jobs })).showRun r

/-- The run on an engine ends before its publish, and the entries it wrote are published with INCOMPLETE set (R199, R200). -/
def State.dropRun (s : State) (e : Nat) (r : Run) : State := ((s.setRun e none).publishOut r.ctx r.out true).leaveRun r

/-- The stu by which `cyc` core cycles after `start` have issued on CCS, at the tick's mean rate, the first stu at or after it (R34). After a STEP in this tick no
cycle issues until the reduction of R50 is made up. -/
def State.ccsStu (s : State) (start cyc : Nat) : Nat :=
  let cut := s.clk.ccs.stepCut
  let rate := Nat.max 1 ((s.rget Reg.CCS_TICKCYC).toNat + cut)
  let j := s.rget64 Reg.TB_JUMP_STU_LO
  let still := ceilDiv (cut * tickStu) rate
  let from_ := if cut ≠ 0 ∧ j ≤ start ∧ start < j + still then j + still else start
  let u := from_ + ceilDiv (cyc * tickStu) rate
  if cut ≠ 0 ∧ from_ < j ∧ j - s.fget Reg.TB_JUMP_SKIP < u then u + still else u

/-- The stu reached `cyc` core cycles after `start`; past a switch to SAFE_OSC in this tick at the rate the planner counts on for it (R73, R74; log entry 30). -/
def State.cycleStu (s : State) (start cyc : Nat) : Nat :=
  let u := s.ccsStu start cyc
  match s.clk.ccs.switchAt with
  | none => u
  | some v =>
    if v ≤ start then start + ceilDiv (cyc * tickStu) safeCpt
    else if u ≤ v then u else v + ceilDiv ((u - v) * (s.rget Reg.CCS_TICKCYC).toNat) safeCpt

/-- The stu at which a run's next instruction issues. -/
def State.issueStu (s : State) (r : Run) : Nat :=
  s.cycleStu r.start (r.cycles - ((r.pair.map (·.cost)).getD 0))

/-- A context trips (R199): STOP 3 in its output queues at once, its chain at the next boundary, CTX_FAULT, the event to its tenant and the fault of
class F1. -/
def State.tripCtx (s : State) (n code u word : Nat) (cue : Option Nat) : State :=
  if (s.ctx n).mode = .tripped ∨ (s.ctx n).mode = .closed then s else
  let t := (s.ctx n).tenant
  let w := putField (putField 0 31 24 code) 12 0 word
  let w1 := match cue with
    | none => w
    | some k => putField (putField w 23 23 1) 22 20 k
  let s1 := (s.stopOutputs n 3).ctxMod n (fun x => { x with
    mode := .tripped, cues := List.replicate 7 {}, fresh := List.replicate 7 {}, timer := none })
  let s2 := ((s1.rset (Reg.CTX_FAULT n) w1).rset64 (Reg.CTX_FAULT_STU_LO n) u).showCtx n
  let s3 := s2.postEvent t n 1 (eventCpl 0xFFFF 0 u n 1 code 0)
  ((s3.cause t (Reg.HST_ICAUSE_TRIP t)).faultAt u (0x1000 + code) 255 n w1.toNat).trouble n

/-- A run on engine `e` trips at its present instruction (R199); a snapshot that its fault triggers shows it. -/
def State.trip (s : State) (e code : Nat) : State :=
  match s.run e with
  | none => s
  | some r =>
    let u := s.issueStu r
    s.seAsWas e ((s.dropRun e r).tripCtx r.ctx code u r.word r.handler)

/-- A run-level loss raises the gap cue for the next run (R200, R262). -/
def State.gapNext (s : State) (n first last info : Nat) : State :=
  if (s.ctx n).mode = .closed ∨ (s.ctx n).mode = .tripped then s else
  (s.ctxMod n (fun c => { c with cues := modifyAt c.cues 0 (fun q => q.add 0 first last info false) })).showCtx n

/-- A run is cut (R200): `info` names OVERRUN or ENGINE. -/
def State.cutRun (s : State) (e info : Nat) : State :=
  match s.run e with
  | none => s
  | some r =>
    let s1 := s.dropRun e r
    let fence := r.tick * tickStu
    let (a, b) := r.taken.getD (fence, fence)
    (((s1.giveBack r.ctx r.cues).gapNext r.ctx a b info).bump (Reg.CTX_CUT_CUT r.ctx)).trouble r.ctx

/-! ## Boundary changes of contexts -/

/-- The grade and the plan let the context run. -/
def ContextS.allowed (x : ContextS) : Bool := !(x.shedFit || x.shedGrade || x.shedAcc)

/-- A context opens at boundary B (R198, R104, R119, R289): it starts, or is admitted pending the grade. -/
def State.openEffect (s : State) (n tag : Nat) : State :=
  let x := s.ctx n
  let t := x.tenant
  let b := s.now
  let im := x.img
  let runs := x.allowed
  let s1 := s.ctxMod n (fun x => { x with
    opening := false, mode := if runs then .running else .pendingGrade
    ring := [], lastAgcg := 0, state := memOf 0 im.state, ext := [], cues := List.replicate 7 {}, fresh := List.replicate 7 {}
    timer := none, jobs := [], lastRun := none
    ports := x.ports.map (fun p => { p with queue := [], lostNow := 0, lost := 0 }) })
  let s2 := (((s1.rsetN (Reg.CTX_COST n) im.cost).rsetN (Reg.CTX_CUECOST n) im.cueCost).rsetN (Reg.CTX_RUNS n) 0).rsetN (Reg.CTX_CUT n) 0
  let s3 := (s2.rsetN (Reg.CTX_FAULT n) 0).rset64 (Reg.CTX_FAULT_STU_LO n) 0
  let s4 := (s3.openChain n b).brsOpen n
  let s5 := if runs then s4 else s4.stopChain n
  (s5.showCtx n).complete t tag 2 (if runs then 1 else 2) ((x.opened.map (·.accept)).getD 0) (leBytes im.cost 4 ++ leBytes im.cueCost 4)

/-- The boundary refuses an open whose source has closed since its acceptance, or for which no tap is free (R104, R106). -/
def State.openRefused (s : State) (n : Nat) : Option Nat :=
  let c := (s.ctx n).chain.cfg
  if s.badSource (s.ctx n).tenant n c then some 0x23
  else if (c.kind == 1 || c.kind == 2) && (s.tapFor c).isNone && (s.freeTap c.tapUnit).isNone then some 0x25
  else none

/-- The context of a CHN or BRS register. -/
def ctxOfReg (a : Nat) : Option Nat :=
  if Reg.CHN_SRC 0 ≤ a ∧ a < Reg.CHN_SRC 256 then some ((a - Reg.CHN_SRC 0) / 256)
  else if Reg.BRS_CFG 0 ≤ a ∧ a < Reg.BRS_CFG 256 then some ((a - Reg.BRS_CFG 0) / 64)
  else none

/-- The register of a request, for its completion. -/
def Req.ctxOf (q : Req) : Option (Nat × Nat) :=
  match q.kind with
  | .run n _ _ _ _ => some (n, Reg.CTX_RUN n)
  | .reg a _ => (ctxOfReg a).map (fun n => (n, a))
  | _ => none

/-- The requests of a context are discarded with "context closed" (R20, R409). -/
def State.dropReqs (s : State) (n : Nat) : State :=
  let mine := s.reqs.filter (fun q => match q.ctxOf with
    | some (m, _) => m == n
    | none => false)
  let rest := s.reqs.filter (fun q => match q.ctxOf with
    | some (m, _) => m != n
    | none => true)
  let s1 := mine.foldl (fun (y : State) q => y.postReq q.tenant 0x15 q.accept n ((q.ctxOf.map (·.2)).getD 0)) { s with reqs := rest }
  let c := (s.ctx n).chain
  let t := (s.ctx n).tenant
  [c.planned, c.pend, c.queued].foldl (fun (y : State) q => match q with
    | some q => y.postReq t 0x15 q.accept n (Reg.CHN_BANK n)
    | none => y) s1

/-- The runs of a context end without a trace of their own (a close). -/
def State.stopRuns (s : State) (n : Nat) : State :=
  (List.range 8).foldl (fun (y : State) e => match y.run e with
    | some r => if r.ctx = n then (y.setRun e none).leaveRun r else y
    | none => y) s

/-- A context closes at the boundary (R20, R201): STOP 4 in its output queues; chain, tap, receiver, cues, jobs and rings go. Its bindings
stay. CHN_COST reads 0 from then on; a cancelled open leaves the admitted value in it (DESIGN CHOICE beside R130; log entry 83). -/
def State.closeEffect (s : State) (n : Nat) : State :=
  let s1 := ((s.stopRuns n).dropReqs n).stopOutputs n 4
  let s2 := ((s1.stopChain n).leaveTap n).brsClose n
  let s3 := s2.ctxMod n (fun x => { ports := x.ports.map (fun p => { p with queue := [], lostNow := 0 }), coefs := x.coefs })
  let s4 := (s3.rsetN (Reg.CHN_COST n) 0).rsetN (Reg.CTX_COST n) 0
  let s5 := (List.range 7).foldl (fun (y : State) k => (List.range 4).foldl (fun (z : State) j =>
    z.rsetN (Reg.CTX_CUESLOT n k j) 4294967295) y) s4
  let s6 := { s5 with reqs := s5.reqs.filter (fun q => match q.kind with
    | .openCtx m _ => m != n
    | .closeCtx m _ => m != n
    | _ => true) }
  (s6.showChn n).showCtx n

/-- An OPEN whose boundary has not come, or that its boundary refuses, ends with a status (R418). -/
def State.cancelOpen (s : State) (n status : Nat) : State :=
  let x := s.ctx n
  match x.opened with
  | some o =>
    if x.opening then
      let s1 := (s.dropReqs n).ctxMod n (fun x => { ports := x.ports, coefs := x.coefs })
      (({ s1 with reqs := s1.reqs.filter (fun q => match q.kind with
        | .openCtx m _ => m != n
        | _ => true) } : State).showPlace n).complete o.tenant o.tag 2 status o.accept []
    else s
  | none => s

/-- A running context is shed at the boundary (R201, R250, R308): its runs stop, its chain stops with STOP 2. -/
def State.shedEffect (s : State) (n : Nat) : State :=
  let s1 := ((s.stopRuns n).brsStop n).stopMark n 2
  ((s1.stopChain n).ctxMod n (fun x => { x with mode := .shed })).showCtx n

/-- A shed, pending or stopped context runs again from the boundary (R251, R201): chain reset; a context admitted pending the grade tells its
tenant that it has started (R408). -/
def State.returnEffect (s : State) (n : Nat) : State :=
  let x := s.ctx n
  let b := s.now
  let s1 := ((s.ctxMod n (fun x => { x with mode := .running, lastRun := none })).restartChain n b).brsRearm n b
  let s2 := s1.showCtx n
  if x.mode = .pendingGrade then
    match x.opened with
    | some o => s2.postEvent o.tenant n 2 (eventCpl o.tag 3 b n 2 0 0)
    | none => s2
  else s2

/-- Contexts in the order of their cascade levels: a source before the chains that draw on it. -/
def State.byLevel (s : State) (l : List Nat) : List Nat :=
  ((List.range 5).map (fun k => l.filter (fun n => s.levelOf 4 (s.ctx n).chain.cfg == k))).flatten

/-- Every context follows what the grade and the plan allow at the boundary (R250, R251, R276, R489): one pass. -/
def State.allowPass (s : State) : State :=
  (s.byLevel s.openCtxs).foldl (fun (y : State) n =>
    let x := y.ctx n
    if x.mode = .running ∧ !x.allowed then y.shedEffect n
    else if (x.mode = .shed ∨ x.mode = .pendingGrade ∨ x.mode = .stopped) ∧ x.allowed then y.returnEffect n
    else y) s

/-- A tripped context's chain stops at the boundary, with STOP 3 in q0 (R199). -/
def State.tripStops (s : State) : State :=
  s.openCtxs.foldl (fun (y : State) n =>
    if (y.ctx n).mode = .tripped ∧ (y.ctx n).chain.on then
      ((y.brsStop n).stopMark n 3).stopChain n else y) s

end Sys2Proof.Machine
end

