-- ==== Sys2Proof/Machine/Float.lean ====
section
/-!
DEFINITION. IEEE 754 binary32 arithmetic as R210 states it: round to nearest even, subnormal inputs and results flushed to
zero of the same sign, one NaN.
-/

namespace Sys2Proof.Machine

/-- A binary32 value: NaN, an infinity, a zero or a finite rational. -/
inductive F32 where
  | nan
  | inf (neg : Bool)
  | zero (neg : Bool)
  | fin (q : Rat)
deriving DecidableEq, Repr

/-- 2 to a signed power. -/
def pow2 (e : Int) : Rat := if e < 0 then 1 / ((2 ^ (-e).toNat : Nat) : Rat) else ((2 ^ e.toNat : Nat) : Rat)

/-- The value of a word; a subnormal is a zero of its sign (R210). -/
def f32Of (w : Word) : F32 :=
  let neg := bitOf w.toNat 31
  let e := fieldOf w 30 23
  let m := fieldOf w 22 0
  if e = 255 then (if m = 0 then .inf neg else .nan)
  else if e = 0 then .zero neg
  else
    let q : Rat := ((8388608 + m : Nat) : Rat) * pow2 ((e : Int) - 150)
    .fin (if neg then -q else q)

/-- An integer rounding of a non-negative rational to nearest, ties to even. -/
def roundEven (q : Rat) : Int :=
  let f := q.floor
  let r := q - (f : Rat)
  if r < 1 / 2 then f else if 1 / 2 < r then f + 1 else (if f % 2 = 0 then f else f + 1)

/-- The exponent e with 2^e ≤ q < 2^(e+1) for a positive rational, searched downwards from `hi`. -/
def expOf (q : Rat) : Nat → Int → Int
  | 0, e => e
  | n + 1, e => if pow2 e ≤ q then e else expOf q n (e - 1)

/-- log2 of a positive rational, within the range that binary32 results can have. -/
def log2Rat (q : Rat) : Int :=
  let guess : Int := (Nat.log2 q.num.natAbs : Int) - (Nat.log2 q.den : Int)
  expOf q 3 (guess + 1)

/-- The word of a positive magnitude with sign bit `neg`, rounded to nearest even; a subnormal result is zero (R210). -/
def f32Mag (neg : Bool) (q : Rat) : Word :=
  let sgnB := if neg then 2147483648 else 0
  let e := log2Rat q
  let m := roundEven (q * pow2 (23 - e))
  let (m, e) := if m = 16777216 then (8388608, e + 1) else (m, e)
  if e < -126 then BitVec.ofNat 32 sgnB
  else if 127 < e then BitVec.ofNat 32 (sgnB + 0x7F800000)
  else BitVec.ofNat 32 (sgnB + (e + 127).toNat * 8388608 + (m - 8388608).toNat)

/-- The one NaN of R210. -/
def f32NaN : Word := 0x7FC00000

/-- The word of a value. -/
def f32Word : F32 → Word
  | .nan => f32NaN
  | .inf neg => if neg then 0xFF800000 else 0x7F800000
  | .zero neg => if neg then 0x80000000 else 0
  | .fin q => if q < 0 then f32Mag true (-q) else if 0 < q then f32Mag false q else 0

/-- The sign of a value that is not NaN. -/
def F32.neg : F32 → Bool
  | .nan => false
  | .inf n => n
  | .zero n => n
  | .fin q => decide (q < 0)

/-- a + b. A sum of opposite signs that is exactly 0 is +0, as IEEE 754 has it for round to nearest. -/
def fadd (a b : F32) : F32 :=
  match a, b with
  | .nan, _ => .nan
  | _, .nan => .nan
  | .inf x, .inf y => if x = y then .inf x else .nan
  | .inf x, _ => .inf x
  | _, .inf y => .inf y
  | .zero x, .zero y => .zero (x && y)
  | .zero _, .fin q => .fin q
  | .fin q, .zero _ => .fin q
  | .fin p, .fin q => if p + q = 0 then .zero false else .fin (p + q)

/-- -a. -/
def fneg : F32 → F32
  | .nan => .nan
  | .inf x => .inf (!x)
  | .zero x => .zero (!x)
  | .fin q => .fin (-q)

/-- a * b. -/
def fmul (a b : F32) : F32 :=
  match a, b with
  | .nan, _ => .nan
  | _, .nan => .nan
  | .inf _, .zero _ => .nan
  | .zero _, .inf _ => .nan
  | .inf x, y => .inf (x != y.neg)
  | x, .inf y => .inf (x.neg != y)
  | .zero x, y => .zero (x != y.neg)
  | x, .zero y => .zero (x.neg != y)
  | .fin p, .fin q => .fin (p * q)

/-- a / b: x / 0 with x not 0 is an infinity with the sign of x, 0 / 0 a NaN (R210; the sign of a zero divisor is not
taken in: "infinity with the sign of x"). -/
def fdiv (a b : F32) : F32 :=
  match a, b with
  | .nan, _ => .nan
  | _, .nan => .nan
  | .inf _, .inf _ => .nan
  | .zero _, .zero _ => .nan
  | .inf x, .zero _ => .inf x
  | .fin p, .zero _ => .inf (decide (p < 0))
  | .inf x, y => .inf (x != y.neg)
  | x, .inf y => .zero (x.neg != y)
  | .zero x, y => .zero (x != y.neg)
  | .fin p, .fin q => .fin (p / q)

/-- The word of a square root of a positive rational, correctly rounded: the integer root of q 2^(2k) with k chosen so that it has 25
bits or more, made odd in its last place where it is not exact, then rounded. -/
def fsqrtWord (q : Rat) : Word :=
  let e := log2Rat q
  let h : Int := if e % 2 = 0 then e else e - 1
  let n := (q * pow2 (60 - h)).floor.toNat
  let r := isqrt n
  let exact := decide (((r * r : Nat) : Rat) = q * pow2 (60 - h))
  let r2 : Rat := ((2 * r + (if exact then 0 else 1) : Nat) : Rat) / 2
  f32Mag false (r2 * pow2 (h / 2 - 30))

/-- The order of two values that are not NaN: a < b. -/
def flt (a b : F32) : Bool :=
  match a, b with
  | .nan, _ => false
  | _, .nan => false
  | .inf x, .inf y => x && !y
  | .inf x, _ => x
  | _, .inf y => !y
  | .zero _, .zero _ => false
  | .zero _, .fin q => decide (0 < q)
  | .fin q, .zero _ => decide (q < 0)
  | .fin p, .fin q => decide (p < q)

/-- a == b; zeros of both signs are equal. -/
def feq (a b : F32) : Bool :=
  match a, b with
  | .nan, _ => false
  | _, .nan => false
  | .zero _, .zero _ => true
  | x, y => decide (x = y)

/-- FMIN: with one NaN operand the other; −0 < +0 (R210, R214). -/
def fmin (a b : F32) : F32 :=
  match a, b with
  | .nan, y => y
  | x, .nan => x
  | .zero x, .zero y => .zero (x || y)
  | x, y => if flt x y then x else y

/-- FMAX. -/
def fmax (a b : F32) : F32 :=
  match a, b with
  | .nan, y => y
  | x, .nan => x
  | .zero x, .zero y => .zero (x && y)
  | x, y => if flt x y then y else x

/-- FCVTIF: rounded to nearest even, saturated to the i32 range; NaN gives 0 (R210, R214). -/
def fcvtif (a : F32) : Word :=
  match a with
  | .nan => 0
  | .inf n => if n then 0x80000000 else 0x7FFFFFFF
  | .zero _ => 0
  | .fin q =>
    let i := if q < 0 then -(roundEven (-q)) else roundEven q
    BitVec.ofNat 32 (code 32 (satS 32 i))

/-- FCVTFI: an i32 as binary32. -/
def fcvtfi (w : Word) : Word :=
  let i := w.toInt
  if i = 0 then 0 else f32Word (.fin (i : Rat))

end Sys2Proof.Machine
end

