-- ==== Sys2Proof/Machine/Vec.lean ====
section
/-!
DEFINITION. Vectors of 512 bits as lists of components, their types, lanes and governing predicates (R208), and the rounding and
saturation rules of R209 and R210.
-/

namespace Sys2Proof.Machine

/-- A 512-bit vector. -/
abbrev Vec := BitVec 512

/-- The width of a lane (R208). -/
def laneW : VTy → Nat
  | .i8 => 8
  | .i16 => 16
  | .q15 => 16
  | .i32 => 32
  | .c16 => 32
  | .c32 => 64

/-- The width of a component: a lane of a complex type has two (R208). -/
def compW : VTy → Nat
  | .i8 => 8
  | .i16 => 16
  | .q15 => 16
  | .i32 => 32
  | .c16 => 16
  | .c32 => 32

/-- Lanes of a type. -/
def lanes (t : VTy) : Nat := 512 / laneW t

/-- The type is complex. -/
def isComplex (t : VTy) : Bool := match t with
  | .c16 => true
  | .c32 => true
  | _ => false

/-- The components of a vector, each as the unsigned code of width `w`. -/
def comps (w : Nat) (v : Vec) : List Nat :=
  (List.range (512 / w)).map (fun j => v.toNat / 2 ^ (w * j) % 2 ^ w)

/-- The vector whose components of width `w` are these codes. -/
def ofComps (w : Nat) (l : List Nat) : Vec :=
  BitVec.ofNat 512 (l.foldr (fun c acc => c % 2 ^ w + 2 ^ w * acc) 0)

/-- The predicate bit that governs the bits from `b` of a vector (R208): lane widths of 16 and more take bit (w / 16) j, and two i8
lanes share a bit. -/
def governed (g : Word) (laneBit : Nat) : Bool := bitOf g.toNat (laneBit / 16)

/-- The lane bit position of component `c`. -/
def compLane (t : VTy) (c : Nat) : Nat := c * compW t / laneW t * laneW t

/-- Component `c` of a typed vector is governed. -/
def govComp (t : VTy) (g : Word) (c : Nat) : Bool := governed g (compLane t c)

/-- Lane `j` of a typed vector is governed. -/
def govLane (t : VTy) (g : Word) (j : Nat) : Bool := governed g (j * laneW t)

/-- A vector written component by component: governed ones take `f c`, the others keep their old value. -/
def vmap (t : VTy) (g : Word) (old : Vec) (f : Nat → Int) : Vec :=
  let w := compW t
  let o := comps w old
  ofComps w ((List.range (512 / w)).map (fun c => if govComp t g c then code w (f c) else o.getD c 0))

/-- Component `c` of a vector, signed. -/
def compS (w : Nat) (v : Vec) (c : Nat) : Int := sgn w (v.toNat / 2 ^ (w * c))

/-- Component `c` of a vector, unsigned. -/
def compU (w : Nat) (v : Vec) (c : Nat) : Nat := v.toNat / 2 ^ (w * c) % 2 ^ w

/-- x / 2^k to the nearest, ties away from zero (R209, R111). -/
def rshRound (x : Int) (k : Nat) : Int :=
  if k = 0 then x
  else if x < 0 then -((-x + 2 ^ (k - 1)) / 2 ^ k) else (x + 2 ^ (k - 1)) / 2 ^ k

/-- Saturation of an accumulator lane (R209). -/
def satAcc (x : Int) : Int := satS 48 x

/-- An add or subtract result: Q15 saturates, the others wrap (R209). -/
def narrowAdd (t : VTy) (x : Int) : Int := match t with
  | .q15 => satS 16 x
  | _ => x

/-- The complex product of components (ar, ai) and (br, bi). -/
def cmul (ar ai br bi : Int) : Int × Int := (ar * br - ai * bi, ar * bi + ai * br)

end Sys2Proof.Machine
end

