-- ==== Sys2Proof/Machine/Engine.lean ====
section
/-!
DEFINITION. Runs on the engines (R169 to R171, R188, R262): start, publish, the registers an instruction reads and writes (R164, R205, R206), and local
memory (R166, R167, R559).
-/

namespace Sys2Proof.Machine

/-! ## Registers (R164, R205) -/

/-- A scalar; s0 reads 0. -/
def RegSet.rs (r : RegSet) (i : Nat) : Word := if i = 0 then 0 else r.s.getD i 0

/-- A scalar written; a write to s0 is discarded. -/
def RegSet.setS (r : RegSet) (i : Nat) (v : Word) : RegSet := if i = 0 then r else { r with s := modifyAt r.s i (fun _ => v) }

/-- A vector. -/
def RegSet.rv (r : RegSet) (i : Nat) : Vec := r.v.getD i 0

/-- A vector written. -/
def RegSet.setV (r : RegSet) (i : Nat) (v : Vec) : RegSet := { r with v := modifyAt r.v i (fun _ => v) }

/-- A predicate; p0 reads all ones. -/
def RegSet.rp (r : RegSet) (i : Nat) : Word := if i = 0 then 0xFFFFFFFF else r.p.getD i 0

/-- A predicate written; a write to p0 is discarded. -/
def RegSet.setP (r : RegSet) (i : Nat) (v : Word) : RegSet := if i = 0 then r else { r with p := modifyAt r.p i (fun _ => v) }

/-- An accumulator: 32 lanes of 48 bits, signed. -/
def RegSet.ra (r : RegSet) (i : Nat) : List Int := r.a.getD i []

/-- An accumulator written. -/
def RegSet.setA (r : RegSet) (i : Nat) (v : List Int) : RegSet := { r with a := modifyAt r.a i (fun _ => v) }

/-- A scalar pair of an even register: sn low, sn+1 high (R205). -/
def RegSet.pair (r : RegSet) (i : Nat) : Nat := (r.rs i).toNat + 4294967296 * (r.rs (i + 1)).toNat

/-! ## Local memory (R166, R167, R559) -/

/-- The code of a fault (R199). -/
def fRange : Nat := 1
def fConst : Nat := 2
def fAlign : Nat := 3
def fQueue : Nat := 4
def fJobBad : Nat := 5
def fJobOver : Nat := 6

/-- The declared regions of an image: start and end. -/
def ImageS.regions (im : ImageS) : List (Nat × Nat) :=
  [(0, im.stateSize), (0x10000, 0x10000 + im.const.length), (0x20000, 0x20000 + im.scratch), (0x3FF00, 0x40000)]

/-- Every byte of [a, a + n) lies in a declared region; `k` bounds the regions it crosses. -/
def ImageS.covers (im : ImageS) : Nat → Nat → Nat → Bool
  | 0, _, n => n == 0
  | k + 1, a, n =>
    if n = 0 then true else
    match im.regions.find? (fun r => decide (r.1 ≤ a) && decide (a < r.2)) with
    | none => false
    | some (_, e) => if a + n ≤ e then true else im.covers k e (a + n - e)

/-- A byte of [a, a + n) lies in CONST or CUEINFO. -/
def ImageS.readOnly (im : ImageS) (a n : Nat) : Bool :=
  let meets := fun lo hi => decide (Nat.max a lo < Nat.min (a + n) hi)
  meets 0x10000 (0x10000 + im.const.length) || meets 0x3FF00 0x40000

/-- The fault of an access, if any, in the order of R559. -/
def ImageS.check (im : ImageS) (a n align : Nat) (write : Bool) : Option Nat :=
  if a % align ≠ 0 then some fAlign
  else if !im.covers 4 a n then some fRange
  else if write && im.readOnly a n then some fConst
  else none

/-- A range lies wholly in STATE or in SCRATCH (R219, R223). -/
def ImageS.inWork (im : ImageS) (a n : Nat) : Bool :=
  decide (a + n ≤ im.stateSize) || (decide (0x20000 ≤ a) && decide (a + n ≤ 0x20000 + im.scratch))

/-! ## Issue (R165, R206) -/

/-- What an instruction reads: the registers and memory before it, or before the pair that holds it. -/
def Run.view (r : Run) : PairS := r.pair.getD { regs := r.regs, lmem := r.lmem, cost := 0 }

/-- The instruction has issued: its word or words passed, its cycles counted; a pair costs the higher of its two (R165, R206). `old` is the run
before it. -/
def Run.advance (r old : Run) (pr : Bool) (cost len : Nat) : Run :=
  match old.pair with
  | some p => { r with word := old.word + len, cycles := old.cycles + (cost - p.cost), pair := none }
  | none =>
    { r with word := old.word + len, cycles := old.cycles + cost
             pair := if pr then some { regs := old.regs, lmem := old.lmem, cost := cost } else none }

/-- An instruction on engine `e` that cannot fault. Nothing happens on an engine whose run has ended or that runs nothing. -/
def State.instr (s : State) (e : Nat) (pr : Bool) (cost len : Nat) (f : PairS → Run → Run) : State :=
  match s.run e with
  | none => s
  | some r => if r.ended then s else (s.at (s.issueStu r)).setRun e (some ((f r.view r).advance r pr cost len))

/-- An instruction that may fault (R199). -/
def State.instrF (s : State) (e : Nat) (pr : Bool) (cost len : Nat) (f : ImageS → PairS → Run → Except Nat Run) : State :=
  match s.run e with
  | none => s
  | some r =>
    if r.ended then s else
    let s1 := s.at (s.issueStu r)
    match f (s.ctx r.ctx).img r.view r with
    | .error c => s1.trip e c
    | .ok r1 => s1.setRun e (some (r1.advance r pr cost len))

/-- An instruction that acts on more than its run: `f` gives the state and the run after it, or a fault. -/
def State.instrS (s : State) (e : Nat) (cost : Run → Nat) (f : Run → State → Except Nat (Run × State)) : State :=
  match s.run e with
  | none => s
  | some r =>
    if r.ended then s else
    let s1 := s.at (s.issueStu r)
    match f r s1 with
    | .error c => s1.trip e c
    | .ok (r1, s2) => s2.setRun e (some (r1.advance r false (cost r) 1))

/-- The run with its registers changed. -/
def Run.regsTo (r : Run) (f : RegSet → RegSet) : Run := { r with regs := f r.regs }

/-! ## Start of a run (R169, R178, R187, R188) -/

/-- A 32-byte cue record (R187). -/
def cueBytes (k : Nat) (c : Cue) : List Byte :=
  if c.count = 0 then List.replicate 32 0 else
  leBytes (k + (if c.late then 2147483648 else 0)) 4 ++ leBytes c.count 4 ++ leBytes c.first 8 ++ leBytes c.last 8 ++ leBytes c.info 4 ++ [0, 0, 0, 0]

/-- CUEINFO as filled from seven records. -/
def cueInfo (l : List Cue) : List Byte := ((List.range 7).map (fun k => cueBytes k (l.getD k {}))).flatten

/-- A cue record of the run is cleared: its copy and its bytes of CUEINFO (R187). -/
def Run.clearCue (r : Run) (k : Nat) : Run :=
  { r with cues := modifyAt r.cues k (fun _ => {}), lmem := memWrite r.lmem (0x3FF00 + 32 * k) (List.replicate 32 0) }

/-- The registers at the entry of a handler (R164, R187). -/
def handlerRegs (k : Nat) (c : Cue) : RegSet :=
  let w := fun n => BitVec.ofNat 32 n
  { s := [0, w (k + (if c.late then 2147483648 else 0)), w c.count, w c.first, w (c.first / 4294967296), w c.last, w (c.last / 4294967296), w c.info] ++
      List.replicate 24 0 }

/-- The next section of a run: a handler still to run, the body, or the end (R164, R169). -/
def Run.next (r : Run) : Run :=
  match r.todo with
  | k :: ks => { r with handler := some k, todo := ks, word := 0, loops := [], calls := [], regs := handlerRegs k (r.cues.getD k {}), pair := none }
  | [] =>
    if r.body then { r with handler := none, body := false, word := 0, loops := [], calls := [], regs := {}, pair := none }
    else { r with ended := true }

/-- The kinds whose handlers run in this run: those of NEXT handlers in the main run, one SAME kind in a slot. -/
def ContextS.kindsDue (x : ContextS) (slot : Option Nat) : List Nat :=
  (List.range 7).filter (fun k =>
    (x.cues.getD k {}).count != 0 &&
    match x.handler k, slot with
    | some h, none => !h.same
    | some h, some j => h.same && j == k
    | none, _ => false)

/-- The run cost of a run of some handlers and the body (R188, R240): handlers before a body add their WCET, others their full run cost. -/
def ContextS.runMost (x : ContextS) (kinds : List Nat) (body : Bool) : Nat :=
  let hs := kinds.filterMap x.handler
  if body then x.img.cost + sumN (hs.map (·.wcet)) else sumN (hs.map (·.full))

/-- A run starts on the home engine, in G5 on the engine that is powered (R169, R286). On an engine that is quarantined, for which no plan has been made since, the
run is not made and takes no input (R262): its gap cue, with reason ENGINE and both stu pairs at the tick's input fence, is raised at the next run, and
CTX_CUT.CUT counts it. `body` says that the plan in force runs the context's body in the tick (R237). -/
def State.startRun (s : State) (n : Nat) (slot : Option Nat) (body : Bool) : State :=
  let x := s.ctx n
  let im := x.img
  let due := slot.isNone && body && x.lastRun != some s.time.tick
  let kinds := x.kindsDue slot
  let tick := s.time.tick
  if kinds.isEmpty && !due then s
  else if !s.engHealthy (s.engineOf n) then
    (((s.gapNext n (tick * tickStu) (tick * tickStu) 131072).bump (Reg.CTX_CUT_CUT n)).trouble n).ctxMod n (fun x => { x with
      lastRun := if slot.isNone then some tick else x.lastRun })
  else
    let cues := x.cues
    let lmem := x.state ++ memOf 0x10000 im.const ++ memOf 0x3FF00 (cueInfo cues)
    let r : Run := { ctx := n, tick := tick, slot := slot, start := s.now, todo := kinds, body := due, lmem := lmem, cues := cues, cycles := im.entry }
    let r : Run := { r with before := (x.lastAgcg, x.lastMark), most := x.runMost kinds due }
    let s1 := s.ctxMod n (fun x => { x with cues := List.replicate 7 {}, lastRun := if slot.isNone then some tick else x.lastRun })
    (s1.setRun (s.engineOf n) (some r.next)).showCtx n

/-! ## End of a run (R171) -/

/-- RUN_PUBLISH (R169, R170, R171): the run that has ended on an engine hauls its state out and publishes. -/
def execRunPublish (e : Fin 8) (t : Nat) (s : State) : Host.Outcome State Fault Refusal :=
  .next (
    match s.run e with
    | none => s
    | some r =>
      if !r.ended then s else
      let n := r.ctx
      let s00 := (s.at t).setRun e none
      let s0 := { s00 with seq := { s00.seq with freed := modifyAt s00.seq.freed e (fun _ => s00.now) } }
      let s1 := s0.ctxMod n (fun x => { x with state := memPart r.lmem 0 x.img.stateSize })
      let s2 := (s1.publishOut n r.out false).spendRun r true
      ((s2.bump (whole (Reg.CTX_RUNS n))).showRun r).giveBack n r.cues)

/-- TIMER_CUE (R186): the armed deadline. -/
def execTimerCue (n : Fin 256) (s : State) : Host.Outcome State Fault Refusal :=
  .next (
    match (s.ctx n).timer with
    | none => s
    | some d =>
      let u := s.afterSkip d
      (((s.at u).ctxMod n (fun x => { x with timer := none })).raiseCue n 4 u 0))

end Sys2Proof.Machine
end

