-- ==== Sys2Proof/Machine/Jobs.lean ====
section
/-!
DEFINITION. The J class (R184, R222 to R233): descriptors and their checks, issue, completion of jobs, and the failures of engines and accelerator
units (R260, R264).
-/

namespace Sys2Proof.Machine

/-! ## Size classes (R226) -/

/-- The iteration cap of an LDPC class. -/
def ldpcCap (cls : Nat) : Nat := [8, 12, 16, 20, 24, 32, 40, 50].getD (cls / 2) 8

/-- The bits of an LDPC frame. -/
def ldpcFrame (long : Nat) : Nat := if long = 0 then 16200 else 64800

/-- The length maximum of a crypto class. -/
def cryptoMost (cls : Nat) : Nat := [256, 1024, 4096, 16384].getD (cls % 4) 256

/-- The codewords of an RS/BCH class. -/
def rsMost (cls : Nat) : Nat := [1, 4, 16, 64].getD (cls % 4) 1

/-- The reference and input maxima of a finder class. -/
def finderMost (cls : Nat) : Nat × Nat := ([128, 256, 512, 1024].getD (cls / 4) 128, [4096, 16384, 32768, 65536].getD (cls % 4) 4096)

/-- A class of a kind is listed. -/
def clsOk (kind cls : Nat) : Bool :=
  match kind with
  | 0 => decide (cls ≤ 9)
  | 1 => decide (cls ≤ 15)
  | 2 => decide (cls ≤ 7)
  | 3 => decide (cls ≤ 11)
  | 4 => decide (cls ≤ 15)
  | 5 => decide (cls ≤ 15) && (cls / 4 != 2 || cls % 4 == 0)
  | _ => false

/-- The unit time U in core cycles. -/
def jobU (kind cls : Nat) : Nat :=
  match kind with
  | 0 => 64 * 2 ^ cls / 16 * (cls + 6) + 48
  | 1 => ldpcFrame (cls % 2) * ldpcCap cls / 8 + 256
  | 2 => 256 * 2 ^ cls + 96
  | 3 => rsMost cls * [320, 1100, 4200].getD (cls / 4) 4200 + 64
  | 4 => ceilDiv (finderMost cls).2 16 * ceilDiv (finderMost cls).1 128 + 64
  | _ =>
    match cls / 4 with
    | 0 => 64 * ceilDiv (cryptoMost cls) 64 + 96
    | 1 => 20 * ceilDiv (cryptoMost cls) 64 + 160
    | 2 => 180000
    | _ => 48 * ceilDiv (cryptoMost cls) 32 + 96

/-! ## What a descriptor asks for (R223, R227 to R232) -/

/-- What one job reads and writes: the parameters are right, the inputs in order as address and bytes, and the output if it has one. -/
structure Plan where
  ok : Bool
  ins : List (Nat × Nat)
  out : Option (Nat × Nat)
deriving DecidableEq, Repr

/-- The information bits K of an LDPC frame (R228): the rates of DVB-T2 and ATSC 3.0 (log entry 32). -/
def ldpcK (std long rate : Nat) : Nat :=
  if std = 1 then ldpcFrame long * rate / 15
  else if long = 0 then [3240, 7200, 9720, 10800, 11880, 12600, 13320].getD rate 0
  else [0, 32400, 38880, 43200, 48600, 51840, 54000].getD rate 0

/-- The coded bits of a Viterbi job that are transmitted (R229). -/
def viterbiSent (n period mask total : Nat) : Nat :=
  let c := (List.range (period * n)).filter (bitOf mask)
  total / (period * n) * c.length + (c.filter (fun i => decide (i < total % (period * n)))).length

/-- The FFT's plan (R227). -/
def fftPlan (d : List Byte) (cls : Nat) : Plan :=
  let lg := leAt d 16 2
  let n := 2 ^ Nat.min lg 16
  let win := leAt d 20 4
  { ok := decide (6 ≤ lg) && decide (lg ≤ cls + 6) && decide (leAt d 18 1 ≤ 1) && decide (leAt d 19 1 ≤ 1) && allZero (d.drop 24)
    ins := (leAt d 4 4, 4 * n) :: (if win = 4294967295 then [] else [(win, 2 * n)])
    out := some (leAt d 8 4, 4 * n) }

/-- The LDPC decoder's plan (R228). -/
def ldpcPlan (d : List Byte) (cls : Nat) : Plan :=
  let (fr, rate, std, it) := (leAt d 16 1, leAt d 17 1, leAt d 18 1, leAt d 19 1)
  let rateOk := if std = 0 then decide (rate ≤ 6) && (rate != 0 || fr == 0) else decide (2 ≤ rate) && decide (rate ≤ 13)
  { ok := decide (fr ≤ cls % 2) && rateOk && decide (std ≤ 1) && decide (1 ≤ it) && decide (it ≤ ldpcCap cls) && allZero (d.drop 20)
    ins := [(leAt d 4 4, ldpcFrame fr)]
    out := some (leAt d 8 4, ceilDiv (ldpcK std fr rate) 8) }

/-- The Viterbi decoder's plan (R229). -/
def viterbiPlan (d : List Byte) (cls : Nat) : Plan :=
  let (n, term, per, cnt) := (leAt d 20 1, leAt d 21 1, leAt d 22 1, leAt d 28 4)
  let total := n * (cnt + (if term = 0 then 6 else 0))
  { ok := decide (2 ≤ n) && decide (n ≤ 4) && decide (term ≤ 2) && decide (1 ≤ per) && decide (per * n ≤ 32) && leAt d 23 1 == 0 &&
      decide (cnt ≤ 256 * 2 ^ cls) && (List.range n).all (fun i => decide (leAt d (16 + i) 1 < 128))
    ins := [(leAt d 4 4, if per * n ≤ 32 then viterbiSent n per (leAt d 24 4) total else 0)]
    out := some (leAt d 8 4, ceilDiv cnt 8) }

/-- The RS/BCH decoder's plan (R230). -/
def rsPlan (d : List Byte) (cls : Nat) : Plan :=
  let (fam, t, n, k, w) := (leAt d 16 1, leAt d 17 1, leAt d 18 2, leAt d 20 2, leAt d 22 2)
  let nMost := [255, 16383, 65535].getD fam 0
  let size := fun m => if fam = 0 then m else ceilDiv m 8
  { ok := fam == cls / 4 && decide (1 ≤ t) && decide (t ≤ if fam = 0 then 16 else 12) && decide (n ≤ nMost) && decide (k ≤ n) &&
      decide (w ≤ rsMost cls) && allZero (d.drop 28)
    ins := [(leAt d 4 4, size n * w)]
    out := some (leAt d 8 4, size k * w) }

/-- The finder's plan (R231). -/
def finderPlan (d : List Byte) (cls : Nat) : Plan :=
  let (kind, rl, pk, xl) := (leAt d 16 1, leAt d 18 2, leAt d 26 2, leAt d 28 4)
  { ok := decide (kind ≤ 1) && leAt d 17 1 == 0 && decide (1 ≤ rl) && decide (rl ≤ (finderMost cls).1) && decide (1 ≤ pk) && decide (pk ≤ 64) &&
      decide (1 ≤ xl) && decide (xl ≤ (finderMost cls).2)
    ins := [(leAt d 4 4, 4 * xl), (leAt d 20 4, if kind = 0 then 4 * rl else ceilDiv rl 8)]
    out := some (leAt d 8 4, 8 * pk) }

/-- The crypto unit's plan (R232). -/
def cryptoPlan (d : List Byte) (cls : Nat) : Plan :=
  let (op, z, key, iv, aad) := (leAt d 1 1, leAt d 16 4, leAt d 20 4, leAt d 24 4, leAt d 28 2)
  let g := cls / 4
  let (i, o) := (leAt d 4 4, leAt d 8 4)
  { ok := ([[0], [1, 2], [3], [4]].getD g []).contains op && decide (z ≤ cryptoMost cls) && decide (aad ≤ 256) && allZero (d.drop 30)
    ins := match op with
      | 0 => [(i, z)]
      | 1 => [(i, z), (key, 32), (iv, 12 + aad)]
      | 2 => [(i, z + 16), (key, 32), (iv, 12 + aad)]
      | 3 => [(i, 32), (key, 64), (o, 64)]
      | _ => []
    out := match op with
      | 0 => some (o, 32)
      | 1 => some (o, z + 16)
      | 2 => some (o, z)
      | 3 => none
      | _ => some (o, z) }

/-- The plan of a descriptor. -/
def jobPlan (kind cls : Nat) (d : List Byte) : Plan :=
  match kind with
  | 0 => fftPlan d cls
  | 1 => ldpcPlan d cls
  | 2 => viterbiPlan d cls
  | 3 => rsPlan d cls
  | 4 => finderPlan d cls
  | _ => cryptoPlan d cls

/-- An address names the store extension (R223). -/
def isExt (a : Nat) : Bool := bitOf a 31

/-- Bytes of the declared EXT. -/
def ImageS.inExt (im : ImageS) (a n : Nat) : Bool := isExt a && decide (a % 2147483648 + n ≤ im.ext)

/-- A range an input may name: STATE, CONST, SCRATCH or EXT. -/
def ImageS.inputOk (im : ImageS) (p : Nat × Nat) : Bool :=
  im.inExt p.1 p.2 || im.inWork p.1 p.2 || (decide (0x10000 ≤ p.1) && decide (p.1 + p.2 ≤ 0x10000 + im.const.length))

/-- A range an output may name. -/
def ImageS.outputOk (im : ImageS) (p : Nat × Nat) (ext : Bool) : Bool := im.inExt p.1 p.2 || (!ext && im.inWork p.1 p.2)

/-- A job with this descriptor may start (R233). -/
def ImageS.jobOk (im : ImageS) (kind cls span : Nat) (d : List Byte) : Bool :=
  let p := jobPlan kind cls d
  clsOk kind cls && leAt d 0 1 == kind && (kind == 5 || leAt d 1 1 == 0) && leAt d 2 2 == 0 && p.ok &&
  decide (leAt d 4 4 % 16 = 0) && decide (leAt d 8 4 % 16 = 0) && decide (leAt d 12 4 % 16 = 0) &&
  p.ins.all im.inputOk && im.outputOk (leAt d 12 4, 16) (decide (0 < span)) &&
  (match p.out with
    | some o => im.outputOk o (decide (0 < span))
    | none => true)

/-! ## What jobs write -/

/-- The bytes at a job address (R223): lmem of a run or EXT. -/
def jobRead (lmem ext : Mem) (p : Nat × Nat) : List Byte :=
  if isExt p.1 then memRead ext (p.1 % 2147483648) p.2 else memRead lmem p.1 p.2

/-- Bytes written at a job address. -/
def jobWrite (lmem ext : Mem) (a : Nat) (l : List Byte) : Mem × Mem :=
  if isExt a then (lmem, memWrite ext (a % 2147483648) l) else (memWrite lmem a l, ext)

/-- STATUS, RESULT and the output bytes of a crypto job (R232), but for a DRBG's. -/
def cryptoJob (d : List Byte) (ins : List (List Byte)) : Nat × Nat × List Byte :=
  let i := fun k => ins.getD k []
  match leAt d 1 1 with
  | 0 => (0, 0, sha256 (i 0))
  | 1 => (0, 0, gcmSeal (i 1) (i 2) (i 0))
  | 2 =>
    match gcmOpen (i 1) (i 2) (i 0) with
    | some m => (0, 0, m)
    | none => (1, 0, List.replicate (leAt d 16 4) 0)
  | _ => (0, b2n (ecdsaOk (i 1) (i 0) (i 2)), [])

/-- STATUS, RESULT and the output bytes of an LDPC job (R228): the iterations it used, all of the limit where parity checks remain unsatisfied. -/
def ldpcJob (d : List Byte) (ins : List (List Byte)) : Nat × Nat × List Byte :=
  let most := Nat.max 1 (leAt d 19 1)
  let fails := Config.jobFails 1 d ins
  (b2n fails, if fails then most else 1 + Config.jobResult 1 d ins % most,
    (List.range (ceilDiv (ldpcK (leAt d 18 1) (leAt d 16 1) (leAt d 17 1)) 8)).map (Config.jobByte 1 d ins))

/-- What a job answers: STATUS, RESULT and output bytes (R227 to R232). A DRBG's bytes are free; so is what the spec leaves to other standards, to
rounding or to a choice between equals (log entry 18). -/
def State.jobDone (s : State) (j : Job) : Nat × Nat × List Byte × State :=
  let (d, x) := (j.desc, j.inputs)
  match j.kind with
  | 0 => let r := fftJob d x; (0, r.1, r.2, s)
  | 1 => let r := ldpcJob d x; (r.1, r.2.1, r.2.2, s)
  | 2 => (0, leAt d 28 4, viterbiJob d x, s)
  | 3 => let r := rsJob d x; (b2n r.1, r.2.1, r.2.2, s)
  | 4 => let r := finderJob d x; (0, r.1, r.2, s)
  | _ =>
    if leAt d 1 1 = 4 then let b := freeBytes (leAt d 16 4) s; (0, 0, b.1, b.2)
    else let r := cryptoJob d x; (r.1, r.2.1, r.2.2, s)

/-- The completion record (R225). -/
def jobRecord (status res stu : Nat) : List Byte := leBytes status 4 ++ leBytes res 4 ++ leBytes stu 8

/-- A job writes its output and then its completion record. -/
def jobPut (j : Job) (status res stu : Nat) (out : List Byte) (lmem ext : Mem) : Mem × Mem :=
  let (l1, e1) := match (jobPlan j.kind j.cls j.desc).out with
    | some o => jobWrite lmem ext o.1 out
    | none => (lmem, ext)
  jobWrite l1 e1 (leAt j.desc 12 4) (jobRecord status res stu)

/-! ## The instructions -/

/-- The fault of a JOB, if any, in the order of R222 and R233. -/
def State.jobFault (s : State) (r : Run) (kind cls span a : Nat) : Option Nat :=
  let im := (s.ctx r.ctx).img
  if (im.jobs.getD kind (0, 0)).1 < r.issued.getD kind 0 + 1 then some fJobOver
  else if a % 32 ≠ 0 ∨ !im.covers 4 a 32 then some fJobBad
  else if !im.jobOk kind cls span (memRead r.lmem a 32) then some fJobBad
  else none

/-- JOB (R184, R222 to R225, R233). -/
def execJobI (e t : Fin 8) (kind : Fin 6) (cls : Fin 16) (span : Fin 256) (a : Fin 32) (s : State) : Host.Outcome State Fault Refusal :=
  .next (s.instrS e (fun _ => 6) (fun r y =>
    let sa := (r.regs.rs a).toNat
    match y.jobFault r kind cls span sa with
    | some f => .error f
    | none =>
      let d := memRead r.lmem sa 32
      let ext := (y.ctx r.ctx).ext
      let j : Job := { tag := t, kind := kind, cls := cls, span := span, unit := (y.ctx r.ctx).unit kind, tick := r.tick, issue := y.now, desc := d
                       inputs := (jobPlan kind cls d).ins.map (jobRead r.lmem ext) }
      let y1 := y.spend r.ctx (10 * jobU kind cls * (y.epc y.freq).2) 0
      let r1 := { r with issued := modifyAt r.issued kind (· + 1) }
      if span.val = 0 then .ok ({ r1 with jobs := r.jobs ++ [j] }, y1)
      else
        .ok (r1, y1.ctxMod r.ctx (fun x => { x with
          ext := memWrite x.ext (leAt d 12 4 % 2147483648) (leBytes 0xFFFFFFFF 4), jobs := x.jobs ++ [j] }))))

/-- The unit of a job has failed or takes no work: the job writes no completion record (R264). -/
def State.jobLost (s : State) (j : Job) : Bool := !s.accHealthy j.unit || (s.seq.accs.getD j.unit {}).failed

/-- The run on an engine is to wait for a job that is lost. -/
def State.waitsLost (s : State) (e t : Nat) : Bool :=
  match s.run e with
  | some r => !r.ended && (match r.jobs.find? (fun j => j.tag == t) with
    | some j => s.jobLost j
    | none => false)
  | none => false

/-- A run goes on at its next instruction's stu no more: it is cut with reason ENGINE (R200, R264). -/
def State.cutWait (s : State) (e : Nat) : State :=
  match s.run e with
  | some r => (s.at (s.issueStu r)).cutRun e 131072
  | none => s

/-- JWAIT (R222, R224, R264): the tag's span-0 job writes its outputs; with none outstanding it retires at once, and with one whose unit has failed the run is
cut. -/
def execJwait (e t : Fin 8) (s : State) : Host.Outcome State Fault Refusal :=
  .next (if s.waitsLost e t then s.cutWait e else s.instrS e
    (fun r => match r.jobs.find? (fun j => j.tag == t.val) with
      | some j => jobU j.kind j.cls + 64
      | none => 0)
    (fun r y => match r.jobs.find? (fun j => j.tag == t.val) with
      | none => .ok (r, y)
      | some j =>
        let u := y.issueStu { r with cycles := r.cycles + jobU j.kind j.cls + 64 }
        let (st, res, out, y1) := y.jobDone j
        let (lm, ex) := jobPut j st res u out r.lmem (y1.ctx r.ctx).ext
        .ok ({ r with lmem := lm, jobs := r.jobs.filter (fun k => k.tag != t.val) }, y1.ctxMod r.ctx (fun x => { x with ext := ex }))))

/-- The span-k job at an index of a context completes into EXT (R184, R224, R225). -/
def State.completeJob (s : State) (n i u : Nat) : State :=
  match (s.ctx n).jobs[i]? with
  | none => s
  | some j =>
    let (st, res, out, s1) := s.jobDone j
    s1.ctxMod n (fun x => { x with
      jobs := x.jobs.eraseIdx i, ext := (jobPut j st res u out [] x.ext).2 })

/-- The span-k job at an index of a context is lost with its unit: no completion record, and a gap cue with reason ENGINE at the context's next run (R264). -/
def State.loseJob (s : State) (n i : Nat) : State :=
  (s.ctxMod n (fun x => { x with jobs := x.jobs.eraseIdx i })).gapNext n (s.time.tick * tickStu) (s.time.tick * tickStu) 131072

/-- JOB_COMPLETE (R184). -/
def execJobComplete (n : Fin 256) (i t : Nat) (s : State) : Host.Outcome State Fault Refusal :=
  .next (
    let s1 := s.at t
    match (s1.ctx n).jobs[i]? with
    | some j => if s1.jobLost j then s1 else s1.completeJob n i s1.now
    | none => s1)

/-- Every span-k job due by the boundary of tick `k` that the device has not shown complete does so in the tick before, after its issue, at a stu that stays
open (R184); a span-0 job whose run has not lived to wait for it ends so too (R171, R236). -/
def State.jobsDue (s : State) (k : Nat) : State :=
  s.ctxs.foldl (fun (y : State) p =>
    (List.range p.2.jobs.length).foldl (fun (z : State) _ =>
      match ((z.ctx p.1).jobs).findIdx? (fun j => decide (j.tick + j.span ≤ k)) with
      | some i =>
        match (z.ctx p.1).jobs[i]? with
        | none => z
        | some j =>
          if z.jobLost j then z.loseJob p.1 i else
          let (f, z1) := z.free1
          let lo := Nat.max ((k - 1) * tickStu) j.issue
          z1.completeJob p.1 i (lo + f % Nat.max 1 (k * tickStu - lo))
      | none => z) y) s

/-! ## Failures (R260, R264) -/

/-- An engine fails (R260): its run stops, F2 is logged, and the sequencer fences it from the next boundary (R261). -/
def State.engineFail (s : State) (e : Nat) : State :=
  if (s.seq.engs.getD e {}).failed ∨ (s.seq.engs.getD e {}).st ≠ 0 then s else
  let s1 := { s with seq := { s.seq with engs := modifyAt s.seq.engs e (fun u => { u with
    failed := true, knownTick := some (s.boundaryTick - 1) }) } }
  s1.seAsWas e ((s1.cutRun e 131072).fault 0x2001 e 0xFF 0)

/-- ENGINE_RUN_TIMEOUT (R260): the run on engine `e`, handlers and body, has not reached END when its run cost plus 1024 cycles have elapsed. -/
def execEngineRunTimeout (e : Fin 8) (t : Nat) (s : State) : Host.Outcome State Fault Refusal :=
  .next (
    let s1 := s.at t
    match s1.run e with
    | none => s1
    | some r =>
      if !r.ended && s1.coreSafe == s1.seq.wasSafe && decide (s1.issueStu { r with cycles := r.most + 1024, pair := none } ≤ s1.now) then
        s1.engineFail e else s1)

/-- ENGINE_MEMORY_ERROR (R260). -/
def execEngineMemoryError (e : Fin 8) (t : Nat) (s : State) : Host.Outcome State Fault Refusal :=
  .next ((s.at t).engineFail e)

/-- The span-k jobs of a context that are on a unit are lost. -/
def State.loseJobs (s : State) (u n : Nat) : State :=
  (List.range (s.ctx n).jobs.length).foldl (fun (y : State) _ =>
    match ((y.ctx n).jobs).findIdx? (fun j => j.unit == u) with
    | some i => y.loseJob n i
    | none => y) s

/-- An accelerator unit fails (R264): F2 is logged, and the span-k jobs in flight on it are lost; a run that waits for a span-0 job of it is cut at its JWAIT. -/
def State.unitFail (s : State) (u : Nat) : State :=
  if (s.seq.accs.getD u {}).failed ∨ (s.seq.accs.getD u {}).st ≠ 0 then s else
  let s1 := (({ s with seq := { s.seq with accs := modifyAt s.seq.accs u (fun x => { x with
    failed := true, knownTick := some (s.boundaryTick - 1) }) } } : State).fault 0x2002 u 0xFF 0)
  s1.openCtxs.foldl (fun (y : State) n => y.loseJobs u n) s1

/-- A job is past its latency bound, counted from its issue (R226, R264). -/
def State.jobLate (s : State) (j : Job) : Bool := decide (s.cycleStu j.issue (jobU j.kind j.cls + 64) ≤ s.now)

/-- ACC_JOB_TIMEOUT (R264): a span-0 job under tag `i` of the run on an engine, or the span-k job at index `i` of context `n`, has written no
completion record within its bound. The run that waits for the span-0 job is cut at its JWAIT. -/
def execAccJobTimeout (run : Option (Fin 8)) (n : Fin 256) (i t : Nat) (s : State) : Host.Outcome State Fault Refusal :=
  .next (
    let s1 := s.at t
    match run with
    | some e =>
      match s1.run e with
      | none => s1
      | some r =>
        match r.jobs.find? (fun j => j.tag == i) with
        | none => s1
        | some j => if s1.jobLate j then s1.unitFail j.unit else s1
    | none =>
      match (s1.ctx n).jobs[i]? with
      | none => s1
      | some j => if s1.jobLate j then s1.unitFail j.unit else s1)

end Sys2Proof.Machine
end

