-- ==== Sys2Proof/Machine/Code.lean ====
section
/-!
DEFINITION. The encodings of Dynoc words as the loader checks them (R203 to R207, R211 to R235): which words are defined, what each writes, costs and
does to the flow.
-/

namespace Sys2Proof.Machine

/-- What a word does to the flow of control; targets are words of the section. -/
inductive Flow where
  | next
  | branch (t : Int)
  | jump (t : Int)
  | call (t : Int)
  | ret
  | loop (a n : Nat)
  | lend (t : Int)
  | fin
deriving DecidableEq, Repr

/-- One decoded instruction: its word, length in words, flow, class (0 S, 1 V, 2 other), the cost of R194 when it goes on in order, and the register
it writes as file (0 s, 1 p, 2 v, 3 a) and number. -/
structure Ins where
  word : Word
  len : Nat := 1
  flow : Flow := .next
  cls : Nat := 2
  cost : Nat := 1
  dst : Option (Nat × Nat) := none
deriving DecidableEq, Repr

/-- How an instruction uses a five-bit register field: not at all, as any scalar or vector, as a predicate, as an accumulator, as an even pair. -/
inductive Use where
  | none
  | any
  | pred
  | acc
  | even
deriving DecidableEq, Repr

/-- A field's value fits its use (R205). -/
def Use.ok (u : Use) (v : Nat) : Bool :=
  match u with
  | .none => v == 0
  | .any => true
  | .pred => decide (v < 8)
  | .acc => decide (v < 4)
  | .even => v % 2 == 0

/-- One row of the S-class operations in format R: opcode, FN7, file of the destination, uses of D, A and B, cost. -/
structure SRow where
  op : Nat
  fn : Nat
  file : Nat
  d : Use
  a : Use
  b : Use
  cost : Nat := 1
deriving DecidableEq, Repr

/-- Rows with three scalars. -/
def sRow3 (op : Nat) (cost : Nat) (fns : List Nat) : List SRow := fns.map (fun f => ⟨op, f, 0, .any, .any, .any, cost⟩)

/-- Rows with two scalars. -/
def sRow2 (op : Nat) (cost : Nat) (fns : List Nat) : List SRow := fns.map (fun f => ⟨op, f, 0, .any, .any, .none, cost⟩)

/-- The S-class operations of format R (R212, R214). -/
def sRows : List SRow :=
  sRow3 0 1 [0x00, 0x01, 0x02, 0x03, 0x04, 0x05, 0x06, 0x07, 0x08, 0x09, 0x0A, 0x0B, 0x0C, 0x0D, 0x0E, 0x10, 0x11, 0x12] ++
  sRow3 0 12 [0x18, 0x19, 0x1A, 0x1B] ++ sRow2 0 1 [0x20, 0x21, 0x22, 0x23, 0x24] ++
  sRow3 8 1 [0x00, 0x01, 0x02, 0x05, 0x06, 0x09, 0x0A] ++ sRow3 8 12 [0x03] ++ sRow2 8 12 [0x04] ++ sRow2 8 1 [0x07, 0x08, 0x0B, 0x0C] ++
  [0x00, 0x01, 0x02, 0x03].map (fun f => ⟨0x0B, f, 1, .pred, .pred, .pred, 1⟩) ++
  [⟨0x0B, 0x04, 1, .pred, .pred, .none, 1⟩, ⟨0x0B, 0x08, 1, .pred, .any, .none, 1⟩, ⟨0x0B, 0x09, 0, .any, .pred, .none, 1⟩,
   ⟨0x0B, 0x0A, 1, .pred, .any, .none, 1⟩, ⟨0x0B, 0x0B, 0, .any, .pred, .none, 1⟩, ⟨0x0B, 0x0C, 0, .any, .pred, .none, 1⟩]

/-- One row of the V-class operations in format R: opcode, FN, file of the destination, uses of D, A and B, the TY values listed (TY 0 alone where the
instruction takes no type), whether G governs it, cost. -/
structure VRow where
  op : Nat
  fn : Nat
  file : Nat
  d : Use
  a : Use
  b : Use
  tys : List Nat
  g : Bool := true
  cost : Nat := 1
deriving DecidableEq, Repr

/-- Rows with three vectors. -/
def vRow3 (op : Nat) (tys : List Nat) (cost : Nat) (fns : List Nat) : List VRow := fns.map (fun f => ⟨op, f, 2, .any, .any, .any, tys, true, cost⟩)

/-- Rows with two vectors. -/
def vRow2 (op : Nat) (tys : List Nat) (cost : Nat) (fns : List Nat) : List VRow := fns.map (fun f => ⟨op, f, 2, .any, .any, .none, tys, true, cost⟩)

/-- The V-class operations of format R (R215, R216). -/
def vRows : List VRow :=
  let all := [0, 1, 2, 3, 4, 5]
  let sh := [0, 1, 3, 4]
  vRow3 0x10 all 1 [0, 1, 2, 3, 0xA] ++ vRow3 0x10 [0, 1, 2, 3] 1 [4, 5, 8] ++ vRow2 0x10 all 1 [6, 7, 0xB] ++ vRow2 0x10 [4, 5] 1 [9] ++
  vRow3 0x11 all 1 [0] ++ vRow3 0x11 [4, 5] 2 [1] ++
  [⟨0x11, 2, 3, .acc, .any, .any, [0, 1, 2], true, 1⟩, ⟨0x11, 3, 3, .acc, .any, .any, [0, 1, 2], true, 1⟩,
   ⟨0x11, 4, 3, .acc, .any, .any, [4], true, 1⟩, ⟨0x11, 5, 3, .acc, .any, .any, [4], true, 2⟩] ++ vRow3 0x11 [1, 3] 1 [6] ++
  vRow3 0x12 all 1 [0, 1, 2] ++ vRow2 0x12 all 1 [3] ++ vRow3 0x12 sh 1 [4, 5, 6, 7] ++
  [0, 1].map (fun f => ⟨0x13, f, 1, .pred, .any, .any, [1, 2, 3, 4], true, 1⟩) ++
  [2, 3, 4, 5].map (fun f => ⟨0x13, f, 1, .pred, .any, .any, [1, 2, 3], true, 1⟩) ++
  vRow3 0x14 [0, 1, 3] 2 [0, 1, 2, 3, 4] ++ vRow2 0x14 [0, 1, 3] 2 [5] ++
  [⟨0x15, 0, 0, .any, .any, .none, [0, 1, 2, 3], true, 4⟩, ⟨0x15, 1, 0, .any, .any, .none, [0, 1, 2, 3], true, 4⟩,
   ⟨0x15, 2, 0, .any, .any, .none, [0, 1, 2, 3], true, 4⟩, ⟨0x15, 3, 0, .any, .any, .none, [1, 2, 3, 4], true, 4⟩,
   ⟨0x15, 4, 0, .any, .acc, .any, [0], true, 4⟩, ⟨0x15, 5, 0, .any, .any, .none, [4], true, 4⟩,
   ⟨0x16, 0, 3, .acc, .none, .none, [0], true, 1⟩, ⟨0x16, 1, 2, .any, .acc, .any, [1, 2, 4], true, 1⟩,
   ⟨0x16, 2, 3, .acc, .any, .none, [1, 2], true, 1⟩,
   ⟨0x19, 0, 2, .any, .any, .none, [0, 1, 2, 3, 4], true, 1⟩, ⟨0x19, 1, 0, .any, .any, .any, [0, 1, 3, 4], false, 2⟩,
   ⟨0x19, 2, 2, .any, .any, .any, [0, 1, 3, 4], true, 2⟩, ⟨0x19, 3, 2, .any, .none, .none, [0, 1, 3], true, 1⟩]

/-- A destination register; s0 and p0 keep nothing. -/
def dstOf (file d : Nat) : Option (Nat × Nat) := if d = 0 ∧ file ≤ 1 then none else some (file, d)

/-- The instruction a word encodes at word `i` of its section; none where it is no defined encoding. `none` for a long form's IMM32, which the section
scan passes over. -/
def decodeWord (i : Nat) (w : Word) : Option Ins :=
  let op := fieldOf w 31 26
  let pr := bitOf w.toNat 25
  let (d, a, b) := (fieldOf w 24 20, fieldOf w 19 15, fieldOf w 14 10)
  let tgt : Int := (i : Int) + sgn 17 (fieldOf w 16 0)
  let plain := fun (ok : Bool) (x : Ins) => if ok then some x else none
  if op = 0 ∨ op = 8 ∨ op = 0x0B then
    match sRows.find? (fun r => r.op == op && r.fn == fieldOf w 6 0) with
    | none => none
    | some r => plain (fieldOf w 9 7 == 0 && r.d.ok d && r.a.ok a && r.b.ok b) { word := w, cls := 0, cost := r.cost, dst := dstOf r.file d }
  else if 1 ≤ op ∧ op ≤ 6 then some { word := w, cls := 0, dst := dstOf 0 d }
  else if op = 7 then plain (decide (fieldOf w 6 5 ≤ 2) && fieldOf w 14 7 == 0) { word := w, cls := 0, dst := dstOf 0 d }
  else if op = 9 then plain (decide (fieldOf w 14 12 ≤ 4)) { word := w, cls := 0, dst := dstOf 0 d }
  else if op = 0x0A then plain ([0, 2, 4].contains (fieldOf w 14 12)) { word := w, cls := 0 }
  else if (0x10 ≤ op ∧ op ≤ 0x16) ∨ op = 0x19 then
    match vRows.find? (fun r => r.op == op && r.fn == fieldOf w 3 0) with
    | none => none
    | some r => plain (r.d.ok d && r.a.ok a && r.b.ok b && r.tys.contains (fieldOf w 6 4) && (r.g || fieldOf w 9 7 == 0))
        { word := w, cls := 1, cost := r.cost, dst := dstOf r.file d }
  else if op = 0x17 then some { word := w, cls := 1, dst := some (2, d) }
  else if op = 0x18 then some { word := w, cls := 1 }
  else if op = 0x1A then plain (fieldOf w 4 0 == 0) { word := w, cls := 1, cost := 2, dst := some (2, d) }
  else if pr then none
  else if op = 0x20 then plain (decide (fieldOf w 19 17 < 6) || decide (d < 8)) { word := w, flow := .branch tgt }
  else if op = 0x21 then plain (d == 0 && fieldOf w 19 17 == 0) { word := w, flow := .jump tgt, cost := 3 }
  else if op = 0x22 then plain (d == 0 && fieldOf w 19 17 == 0) { word := w, flow := .call tgt, cost := 3 }
  else if op = 0x23 then plain (fieldOf w 24 0 == 0) { word := w, flow := .ret, cost := 3 }
  else if op = 0x24 then plain (fieldOf w 3 0 == 0) { word := w, flow := .loop d (fieldOf w 19 4), cost := 2 }
  else if op = 0x25 then plain (d == 0 && fieldOf w 19 17 == 0) { word := w, flow := .lend tgt, cost := 0 }
  else if op = 0x28 ∨ op = 0x29 then some { word := w, cost := 8 + (fieldOf w 9 0 + 1) }
  else if op = 0x2C then plain (d % 2 == 0 && !bitOf w.toNat 0) { word := w }
  else if op = 0x2D then plain (d % 2 == 0 && b == 0 && fieldOf w 9 5 == 0 && !bitOf w.toNat 0) { word := w }
  else if op = 0x2E then plain (decide (d < 8) && fieldOf w 9 5 % 2 == 0 && !bitOf w.toNat 0) { word := w }
  else if op = 0x30 then plain (fieldOf w 1 0 == 0 && clsOk (fieldOf w 16 14) (fieldOf w 13 10)) { word := w, cost := 6 }
  else if op = 0x31 then plain (fieldOf w 21 0 == 0) { word := w, cost := 0 }
  else if op = 0x34 then
    match fieldOf w 9 0 with
    | 0 => plain (decide (d < 8) && decide (b < 7)) { word := w, cost := 2 }
    | 1 => plain (d == 0 && a == 0 && decide (b < 7)) { word := w, cost := 2 }
    | 2 => plain (a == 0 && b == 0) { word := w, cost := 2 }
    | 3 => plain (d == 0 && a % 2 == 0 && b == 0) { word := w, cost := 2 }
    | 4 => plain (d == 0 && a == 0 && b == 0) { word := w, cost := 2 }
    | _ => none
  else if op = 0x36 then
    match fieldOf w 9 0 with
    | 0 => plain (a == 0 && decide (b ≤ 9)) { word := w, cost := 2 }
    | 1 => plain (a == 0) { word := w, cost := 2 }
    | 2 => plain (d == 0 && a == 0 && b == 0) { word := w, cost := 2 }
    | _ => none
  else if op = 0x37 then plain (fieldOf w 24 0 == 0) { word := w, flow := .fin }
  else if op = 0x3C then plain (a == 0 && fieldOf w 14 0 == 0) { word := w, len := 2 }
  else if op = 0x3D ∨ op = 0x3E then plain (fieldOf w 14 0 == 0) { word := w, len := 2 }
  else if op = 0x3F then plain (a == 0 && fieldOf w 14 0 == 0) { word := w, len := 2 }
  else none

/-- A section decoded: at each word its instruction, none on the second word of a long form; no list where a word is no defined encoding or a long form
lacks its second word. -/
def decodeFrom (i : Nat) (skip : Bool) : List Word → Option (List (Option Ins))
  | [] => if skip then none else some []
  | w :: t =>
    if skip then (decodeFrom (i + 1) false t).map (fun l => none :: l)
    else match decodeWord i w with
      | none => none
      | some x => (decodeFrom (i + 1) (x.len == 2) t).map (fun l => some x :: l)

/-- The PR flag of an instruction. -/
def Ins.pr (x : Ins) : Bool := bitOf x.word.toNat 25

/-- A pair is defined (R206): one S-class and one V-class instruction, the second unpaired, not both writing one register. -/
def pairOk (x y : Ins) : Bool := x.cls != 2 && y.cls != 2 && x.cls != y.cls && !y.pr && (x.dst.isNone || x.dst != y.dst)

/-- Every pair of a section is defined. -/
def pairsOk : List (Option Ins) → Bool
  | some x :: t =>
    (if x.pr then (match t with
      | some y :: _ => pairOk x y
      | _ => false) else true) && pairsOk t
  | none :: t => pairsOk t
  | [] => true

end Sys2Proof.Machine
end

