-- ==== Sys2Proof/Machine/Verify.lean ====
section
/-!
DEFINITION. The loader's checks of code (R194, R195, R206, R218, R221, R222): flow, loops, calls, and the costliest paths. Every path of a section that
passes the earlier checks is finite once each counted loop is taken as one step, and the path functions below walk them all.
-/

namespace Sys2Proof.Machine

/-- A section's code. -/
abbrev Code := List (Option Ins)

/-- The instruction at a word; none outside the section and on a second word of a long form. -/
def insAt (c : Code) (w : Nat) : Option Ins := (getElem? c w).join

/-- The word before holds an instruction whose pair this word completes. -/
def pairSecond (c : Code) (w : Nat) : Bool :=
  decide (0 < w) && (match insAt c (w - 1) with
    | some x => x.pr
    | none => false)

/-- A target lies in the section, on an instruction that is not the second of a pair. -/
def targetOk (c : Code) (t : Int) : Bool := decide (0 ≤ t) && (insAt c t.toNat).isSome && !pairSecond c t.toNat

/-- The target an instruction names. -/
def Flow.target : Flow → Option Int
  | .branch t => some t
  | .jump t => some t
  | .call t => some t
  | .lend t => some t
  | _ => none

/-- Every instruction of a section with its word. -/
def insList (c : Code) : List (Nat × Ins) :=
  (List.range c.length).filterMap (fun w => (insAt c w).map (fun x => (w, x)))

/-- The words control can reach next within one function; a CALL goes on at its return word where its callee is one of those, `back`, that return, and a LOOP that
skips its body as `skipTo` says. -/
def succs (back : List Nat) (w : Nat) (x : Ins) : List Nat :=
  match x.flow with
  | .next => [w + x.len]
  | .branch t => [w + 1, t.toNat]
  | .jump t => [t.toNat]
  | .call t => if back.contains t.toNat then [w + 1] else []
  | .ret => []
  | .loop _ _ => [w + 1]
  | .lend t => [w + 1, t.toNat]
  | .fin => []

/-- A number put into a list without repeats. -/
def putNew (l : List Nat) (n : Nat) : List Nat := if l.contains n then l else l ++ [n]

/-- The loops of a section by the nesting of their words: the LOOP, the LEND; none where they do not nest. -/
def loopsOf (c : Code) : Option (List (Nat × Nat)) :=
  let r := (insList c).foldl (fun (acc : Option (List Nat × List (Nat × Nat))) p =>
    match acc with
    | none => none
    | some (st, l) =>
      match p.2.flow with
      | .loop _ _ => some (p.1 :: st, l)
      | .lend t => (match st with
        | h :: rest => if t = (h : Int) + 1 then some (rest, (h, p.1) :: l) else none
        | [] => none)
      | _ => some (st, l)) (some ([], []))
  match r with
  | some ([], l) => some l
  | _ => none

/-- The counted loops of a section, LOOP and LEND, whether or not all of them nest. -/
def bodiesOf (c : Code) : List (Nat × Nat) :=
  (insList c).filterMap (fun p => match p.2.flow with
    | .lend t => (insAt c (t.toNat - 1)).bind (fun x => match x.flow with
      | .loop _ _ => some (t.toNat - 1, p.1)
      | _ => none)
    | _ => none)

/-- The word after a loop's LEND, where a LOOP bounded by a register goes at once with a bound of 0 (R196). -/
def skipTo (c : Code) (w : Nat) (x : Ins) : List Nat :=
  match x.flow with
  | .loop a _ => if a = 0 then [] else ((bodiesOf c).filter (fun l => l.1 == w)).map (fun l => l.2 + 1)
  | _ => []

/-- The words reached in `n` rounds, where the functions at `back` return. -/
def reachFrom (c : Code) (back : List Nat) : Nat → List Nat → List Nat
  | 0, l => l
  | n + 1, l =>
    reachFrom c back n (l.foldl (fun acc w => match insAt c w with
      | some x => (succs back w x ++ skipTo c w x).foldl putNew acc
      | none => acc) l)

/-- The entries of functions: CALL targets. -/
def callTargets (c : Code) : List Nat :=
  (insList c).filterMap (fun p => match p.2.flow with
    | .call t => some t.toNat
    | _ => none)

/-- The functions that reach a RET, found in `n` rounds from those of `back`. -/
def returnsFrom (c : Code) (l : List Nat) : Nat → List Nat → List Nat
  | 0, back => back
  | n + 1, back => returnsFrom c l n (l.filter (fun t => (reachFrom c back c.length [t]).any (fun w => (insAt c w).map (fun x => x.flow) == some .ret)))

/-- The CALL targets whose function returns: one that only ENDs does not. -/
def returning (c : Code) : List Nat := returnsFrom c (callTargets c) (callTargets c).length []

/-- The words of the function entered at a word. -/
def functionOf (c : Code) (w : Nat) : List Nat := reachFrom c (returning c) c.length [w]

/-- A word lies in a loop's body (R218): after its LOOP up to and including its LEND. -/
def inBody (l : Nat × Nat) (w : Nat) : Bool := decide (l.1 < w) && decide (w ≤ l.2)

/-! ## Branches, loops and calls (R195, R206, R218) -/

/-- "bad branch". -/
def branchesOk (c : Code) : Bool :=
  (insList c).all (fun p => match p.2.flow.target with
    | some t => targetOk c t
    | none => true) &&
  (functionOf c 0).all (fun w => ((insAt c w).map (fun x => x.flow)) != some .ret) &&
  (insList c).all (fun p => p.2.flow != .ret || !(bodiesOf c).any (fun l => inBody l p.1))

/-- "unbounded loop": backward branches close counted loops, loops are entered through their LOOP, and no CALL names a loop's body. -/
def loopsOk (c : Code) : Bool :=
  match loopsOf c with
  | none => false
  | some ls =>
    (insList c).all (fun p => match p.2.flow with
      | .branch t => decide ((p.1 : Int) < t) && ls.all (fun l => inBody l p.1 || !inBody l t.toNat)
      | .jump t => decide ((p.1 : Int) < t) && ls.all (fun l => inBody l p.1 || !inBody l t.toNat)
      | .call t => ls.all (fun l => !inBody l t.toNat)
      | _ => true)

/-- The entry a CALL at a word names. -/
def calleeAt (c : Code) (w : Nat) : Option Nat :=
  match insAt c w with
  | none => none
  | some x => match x.flow with
    | .call t => some t.toNat
    | _ => none

/-- The deepest nest of loops in the function at a word, counting callees at their call sites; `n` bounds the calls followed (R195). -/
def nestDepth (c : Code) : Nat → Nat → Nat
  | 0, _ => 0
  | n + 1, w =>
    let ls := (loopsOf c).getD []
    maxN ((functionOf c w).map (fun v =>
      let here := (ls.filter (fun l => inBody l v)).length
      match calleeAt c v with
      | some t => here + nestDepth c n t
      | none => here))

/-- The deepest chain of calls from the function at a word. -/
def callDepth (c : Code) : Nat → Nat → Nat
  | 0, _ => 5
  | n + 1, w =>
    maxN ((functionOf c w).map (fun v =>
      match calleeAt c v with
      | some t => 1 + callDepth c n t
      | none => 0))

/-- Loops nest at most four deep and calls at most four, in every instruction of a section, whether or not a path reaches it (R195). -/
def nestsOk (c : Code) : Bool := (insList c).all (fun p => decide (nestDepth c ((callTargets c).length + 1) p.1 ≤ 4))
def callsOk (c : Code) : Bool := (insList c).all (fun p => decide (callDepth c ((callTargets c).length + 1) p.1 ≤ 4))

/-- Loop bounds are 1 to 65,535. -/
def boundsOk (c : Code) : Bool :=
  (insList c).all (fun p => match p.2.flow with
    | .loop _ n => decide (1 ≤ n)
    | _ => true)

/-! ## Costliest paths (R194, R240) -/

/-- How a path leaves a region: at an END, at a RET, or at a word outside. -/
inductive Leave where
  | fin
  | ret
  | to (w : Nat)
deriving DecidableEq, Repr

/-- Ways to leave, each once, with its highest sum. -/
abbrev Exits := List (Leave × Nat)

/-- One more way to leave. -/
def addExit (l : Exits) (e : Leave × Nat) : Exits :=
  match l with
  | [] => [e]
  | (k, v) :: t => if k = e.1 then (k, Nat.max v e.2) :: t else (k, v) :: addExit t e

/-- Two tables of exits joined. -/
def joinExits (a b : Exits) : Exits := b.foldl addExit a

/-- Every exit after a cost. -/
def costed (k : Nat) (l : Exits) : Exits := l.map (fun e => (e.1, e.2 + k))

/-- The highest sums of the weights along every path from word `w` inside [lo, hi]: `wt` gives an instruction's weight, in order or with its branch
taken. A counted loop weighs its LOOP and its bound times the heaviest pass (R194); one bounded by a register may skip its body (R196), which is a path of
its own where no pass reaches the LEND. `n` bounds the instructions of a path. -/
def pathSums (c : Code) (wt : Nat → Bool → Nat) : Nat → Nat → Nat → Nat → Exits
  | 0, _, _, w => [(.to w, 0)]
  | n + 1, lo, hi, w =>
    if w < lo ∨ hi < w then [(.to w, 0)] else
    match insAt c w with
    | none => [(.to w, 0)]
    | some x =>
      match x.flow with
      | .next => costed (wt w false) (pathSums c wt n lo hi (w + x.len))
      | .branch t => joinExits (costed (wt w false) (pathSums c wt n lo hi (w + 1))) (costed (wt w true) (pathSums c wt n lo hi t.toNat))
      | .jump t => costed (wt w true) (pathSums c wt n lo hi t.toNat)
      | .call t =>
        (pathSums c wt n 0 c.length t.toNat).foldl (fun acc e => match e.1 with
          | .ret => joinExits acc (costed (wt w true + e.2) (pathSums c wt n lo hi (w + 1)))
          | k => addExit acc (k, wt w true + e.2)) []
      | .ret => [(.ret, wt w true)]
      | .lend _ => [(.to (w + 1), wt w false)]
      | .fin => [(.fin, wt w false)]
      | .loop a k =>
        let lend := ((((loopsOf c).getD []).find? (fun l => l.1 == w)).map (·.2)).getD hi
        let body := pathSums c wt n (w + 1) lend (w + 1)
        let all := wt w false + k * maxN (body.map (·.2))
        let out := body.foldl (fun acc e => match e.1 with
          | .to v => joinExits acc (costed all (pathSums c wt n lo hi v))
          | k => addExit acc (k, all)) []
        if a = 0 ∨ body.any (fun e => e.1 == .to (lend + 1)) then out
        else joinExits out (costed (wt w false) (pathSums c wt n lo hi (lend + 1)))

/-- Instructions a path of a section can hold: its words at each of at most five levels of calls. -/
def pathMost (c : Code) : Nat := 6 * c.length + 6

/-- The exits of a section's paths. -/
def sectionSums (c : Code) (wt : Nat → Bool → Nat) : Exits := pathSums c wt (pathMost c) 0 c.length 0

/-- The highest sum over a section's paths. -/
def sectionMax (c : Code) (wt : Nat → Bool → Nat) : Nat := maxN ((sectionSums c wt).map (·.2))

/-! ## What is known along paths: constants and outstanding jobs (R195, R221, R222) -/

/-- Along a path: registers set by an LI, ORI or ADDI from s0, the outstanding span-0 job of each tag with its latency bound, and the highest latency bound of
the span-k jobs issued under each tag, which no JWAIT waits for and which reach every later one (R222). -/
structure Known where
  consts : List (Nat × Nat) := [(0, 0)]
  jobs : List (Nat × Nat) := []
  far : List (Nat × Nat) := []
deriving DecidableEq, Repr

/-- What is met at a word: the constant length of a QWR, the constant address and size of an access (a store with `true`), the latency a JWAIT waits,
or a breach of the rules of jobs. -/
inductive Fact where
  | len (w : Nat) (v : Option Nat)
  | addr (w : Nat) (a n : Nat)
  | wait (w : Nat) (u : Option Nat)
  | breach
deriving DecidableEq, Repr

/-- The constant a register holds. -/
def Known.const (k : Known) (r : Nat) : Option Nat := if r = 0 then some 0 else getIdx k.consts r

/-- A register set to a constant, or to something else. -/
def Known.put (k : Known) (r : Nat) (v : Option Nat) : Known :=
  if r = 0 then k else
  match v with
  | some x => { k with consts := putIdx (dropIdx k.consts r) r x }
  | none => { k with consts := dropIdx k.consts r }

/-- The highest latency bound among the JOBs of a tag that reach here, none where none does (R222). -/
def Known.reach (k : Known) (t : Nat) : Option Nat :=
  match getIdx k.jobs t, getIdx k.far t with
  | some a, some b => some (Nat.max a b)
  | some a, none => some a
  | none, b => b

/-- The accesses at constant addresses an instruction makes: base register, offset in bytes, bytes. -/
def Ins.accesses (x : Ins) (binds : List Bind) : List (Nat × Int × Nat) :=
  let w := x.word
  let (a, b, c) := (fieldOf w 19 15, fieldOf w 14 10, fieldOf w 9 5)
  let off : Int := sgn 12 (fieldOf w 11 0)
  let most := (binds.getD (fieldOf w 4 1) {}).most
  match fieldOf w 31 26 with
  | 0x09 => let n : Nat := [1, 1, 2, 2, 4].getD (fieldOf w 14 12) 4; [(a, off * (n : Int), n)]
  | 0x0A => let n : Nat := if fieldOf w 14 12 = 0 then 1 else fieldOf w 14 12; [(a, off * (n : Int), n)]
  | 0x17 => [(a, off * 64, 64)]
  | 0x18 => [(a, off * 64, 64)]
  | 0x28 => [(fieldOf w 24 20, 0, if b = 0 then 64 * (fieldOf w 9 0 + 1) else 64)]
  | 0x29 => [(fieldOf w 24 20, 0, if b = 0 then 64 * (fieldOf w 9 0 + 1) else 64)]
  | 0x2C => [(a, 0, 4 * (most / 4)), (b, 0, most / 4), (c, 0, most)]
  | 0x2D => [(a, 0, most)]
  | 0x2E => [(a, 0, 1)]
  | 0x30 => [(fieldOf w 21 17, 0, 32)]
  | 0x34 => if fieldOf w 9 0 = 0 then [(a, 0, 32)] else []
  | _ => []

/-- The registers after an instruction. -/
def Known.after (k : Known) (x : Ins) (imm : Nat) : Known :=
  let w := x.word
  let (d, a) := (fieldOf w 24 20, fieldOf w 19 15)
  match fieldOf w 31 26 with
  | 0x01 => k.put d (if a = 0 then some (code 32 (sgn 15 (fieldOf w 14 0))) else none)
  | 0x03 => k.put d (if a = 0 then some (fieldOf w 14 0) else none)
  | 0x3C => k.put d (some imm)
  | 0x3D => k.put d none
  | 0x3E => k.put d none
  | 0x2C => (k.put d none).put (d + 1) none
  | 0x2D => (k.put d none).put (d + 1) none
  | 0x34 => if fieldOf w 9 0 = 2 then k.put d none else k
  | 0x36 => if fieldOf w 9 0 ≤ 1 then k.put d none else k
  | _ => match x.dst with
    | some (0, r) => k.put r none
    | _ => k

/-- What one instruction shows: its facts, and what is known after it. -/
def Known.step (k : Known) (w : Nat) (x : Ins) (imm : Nat) (binds : List Bind) : List Fact × Known :=
  let acc := (x.accesses binds).filterMap (fun p => match k.const p.1 with
    | some v => some (.addr w (((v : Int) + p.2.1) % 4294967296).toNat p.2.2)
    | none => none)
  let k1 := k.after x imm
  let t := fieldOf x.word 24 22
  match fieldOf x.word 31 26 with
  | 0x2E => (.len w (k.const (fieldOf x.word 14 10)) :: acc, k1)
  | 0x30 =>
    let met := (if (getIdx k.jobs t).isSome then [.breach] else []) ++ acc
    let u := jobU (fieldOf x.word 16 14) (fieldOf x.word 13 10) + 64
    if fieldOf x.word 9 2 = 0 then (met, { k1 with jobs := putIdx (dropIdx k1.jobs t) t u })
    else (met, { k1 with far := putIdx (dropIdx k1.far t) t (Nat.max u ((getIdx k1.far t).getD 0)) })
  | 0x31 => (.wait w (k.reach t) :: acc, { k1 with jobs := dropIdx k1.jobs t })
  | _ => (acc, k1)

/-- What paths meet, and how they leave with what is known. -/
abbrev Walked := List Fact × List (Leave × Known)

/-- Exits continued: `f` walks on from a word. -/
def walkOn (f : Nat → Known → Walked) (r : Walked) : Walked :=
  r.2.foldl (fun acc e => match e.1 with
    | .to v => let y := f v e.2; (acc.1 ++ y.1, acc.2 ++ y.2)
    | _ => (acc.1, acc.2 ++ [e])) (r.1, [])

/-- Every path from word `w` inside [lo, hi]. A loop is walked for no pass where its bound is a register, for one, and for two where it has two: what is
known of a register or a tag after more passes was known after two. -/
def walk (c : Code) (words : List Word) (binds : List Bind) : Nat → Nat → Nat → Nat → Known → Walked
  | 0, _, _, w, k => ([], [(.to w, k)])
  | n + 1, lo, hi, w, k =>
    if w < lo ∨ hi < w then ([], [(.to w, k)]) else
    match insAt c w with
    | none => ([], [(.to w, k)])
    | some x =>
      let (fs, k1) := k.step w x (words.getD (w + 1) 0).toNat binds
      let on := fun (r : Walked) => (fs ++ r.1, r.2)
      match x.flow with
      | .next => on (walk c words binds n lo hi (w + x.len) k1)
      | .branch t =>
        let a := walk c words binds n lo hi (w + 1) k1
        let b := walk c words binds n lo hi t.toNat k1
        on (a.1 ++ b.1, a.2 ++ b.2)
      | .jump t => on (walk c words binds n lo hi t.toNat k1)
      | .call t =>
        let r := walk c words binds n 0 c.length t.toNat k1
        on (r.2.foldl (fun acc e => match e.1 with
          | .ret => let y := walk c words binds n lo hi (w + 1) e.2; (acc.1 ++ y.1, acc.2 ++ y.2)
          | _ => (acc.1, acc.2 ++ [e])) (r.1, []))
      | .ret => on ([], [(.ret, k1)])
      | .lend _ => on ([], [(.to (w + 1), k1)])
      | .fin => on (if k1.jobs.isEmpty then [] else [.breach], [(.fin, k1)])
      | .loop a m =>
        let lend := ((((loopsOf c).getD []).find? (fun l => l.1 == w)).map (·.2)).getD hi
        let pass := fun k => walk c words binds n (w + 1) lend (w + 1) k
        let one := pass k1
        let two := if m < 2 then (([], []) : Walked) else
          one.2.foldl (fun acc e => if e.1 = .to (lend + 1) then (let y := pass e.2; (acc.1 ++ y.1, acc.2 ++ y.2)) else acc) ([], [])
        let zero : List (Leave × Known) := if a = 0 then [] else [(.to (lend + 1), k1)]
        on (walkOn (walk c words binds n lo hi) (one.1 ++ two.1, zero ++ one.2 ++ two.2))

/-- The facts of a section. -/
def factsOf (c : Code) (words : List Word) (binds : List Bind) : List Fact := (walk c words binds (pathMost c) 0 c.length 0 {}).1

/-- The payload length a QWR is counted at (R221): the constant every path gives it, else 0. -/
def qwrLen (fs : List Fact) (w : Nat) : Nat :=
  let vs := fs.filterMap (fun f => match f with
    | .len v x => if v = w then some x else none
    | _ => none)
  match vs with
  | some x :: t => if t.all (· == some x) then x % 8192 else 0
  | _ => 0

/-- The latency a JWAIT is counted at (R222): the highest that reaches it. -/
def waitCost (fs : List Fact) (w : Nat) : Nat :=
  maxN (fs.map (fun f => match f with
    | .wait v (some u) => if v = w then u else 0
    | _ => 0))

/-- Every JWAIT that a path meets is reached by a JOB of its tag, and no rule of jobs is broken. -/
def jobsOk (fs : List Fact) : Bool :=
  !fs.contains .breach && fs.all (fun f => match f with
    | .wait w none => fs.any (fun g => match g with
      | .wait v (some _) => v == w
      | _ => false)
    | _ => true)

/-! ## Weights -/

/-- The port of a Q instruction. -/
def Ins.port (x : Ins) : Nat := fieldOf x.word 4 1

/-- The cost of an instruction in cycles (R194, R220), its own or, in a pair, the pair's on the first word (R165). -/
def cycleWt (c : Code) (binds : List Bind) (fs : List Fact) (w : Nat) (taken : Bool) : Nat :=
  match insAt c w with
  | none => 0
  | some x =>
    let op := fieldOf x.word 31 26
    if pairSecond c w then 0
    else if x.pr then Nat.max x.cost (((insAt c (w + 1)).map (·.cost)).getD 0)
    else if 0x2C ≤ op ∧ op ≤ 0x2E then 4 + ceilDiv ((binds.getD x.port {}).most) 64
    else if op = 0x31 then waitCost fs w
    else if op = 0x20 && taken then 3
    else x.cost

/-- A weight by the instruction alone. -/
def insWt (c : Code) (f : Ins → Nat) (w : Nat) (_ : Bool) : Nat := ((insAt c w).map f).getD 0

/-- Jobs of a kind. -/
def jobWt (c : Code) (kind : Nat) : Nat → Bool → Nat :=
  insWt c (fun x => b2n (fieldOf x.word 31 26 == 0x30 && fieldOf x.word 16 14 == kind))

/-- U of the jobs of a kind and span (R240). -/
def accWt (c : Code) (kind span : Nat) : Nat → Bool → Nat :=
  insWt c (fun x => if fieldOf x.word 31 26 = 0x30 ∧ fieldOf x.word 16 14 = kind ∧ fieldOf x.word 9 2 = span then jobU kind (fieldOf x.word 13 10) else 0)

/-- Bytes hauled. -/
def haulWt (c : Code) : Nat → Bool → Nat :=
  insWt c (fun x => if fieldOf x.word 31 26 = 0x28 ∨ fieldOf x.word 31 26 = 0x29 then 64 * (fieldOf x.word 9 0 + 1) else 0)

/-- Bytes moved at a port (R221). -/
def portWt (c : Code) (binds : List Bind) (fs : List Fact) (q : Nat) (w : Nat) (_ : Bool) : Nat :=
  match insAt c w with
  | none => 0
  | some x =>
    let op := fieldOf x.word 31 26
    if x.port ≠ q then 0
    else if op = 0x2C ∨ op = 0x2D then (binds.getD q {}).most
    else if op = 0x2E then 16 + roundUp (qwrLen fs w) 16
    else 0

/-- The Q and J instructions name what the image declares (R195): ports in their direction, kinds with their span. -/
def bindingsOk (c : Code) (binds : List Bind) (jobs : List (Nat × Nat)) : Bool :=
  (insList c).all (fun p =>
    let w := p.2.word
    let k := (binds.getD p.2.port {}).kind
    match fieldOf w 31 26 with
    | 0x2C => k == 1
    | 0x2D => k == 2 || k == 7
    | 0x2E => decide (3 ≤ k) && decide (k ≤ 6)
    | 0x30 => let j := jobs.getD (fieldOf w 16 14) (0, 0); decide (0 < j.1) && decide (fieldOf w 9 2 ≤ j.2)
    | _ => true)

/-- Every path of a section ends at an END. -/
def endsOk (c : Code) : Bool := (sectionSums c (fun _ _ => 0)).all (fun e => e.1 == .fin)

end Sys2Proof.Machine
end

