-- ==== Sys2Proof/Machine/Loader.lean ====
section
/-!
DEFINITION. Program images: their layout (R190, R191), signature (R192), the loader's checks in order (R195), and loading and unloading (R408, R411).
-/

namespace Sys2Proof.Machine

/-! ## Layout -/

/-- One entry of the section table (R190). -/
structure SecS where
  type : Nat
  off : Nat
  size : Nat
  attr : Nat
deriving DecidableEq, Repr

/-- The section table. -/
def secsOf (b : List Byte) : List SecS :=
  (List.range (leAt b 6 2)).map (fun i =>
    let o := 64 + 16 * i
    ⟨leAt b o 4, leAt b (o + 4) 4, leAt b (o + 8) 4, leAt b (o + 12) 4⟩)

/-- Sections of a type. -/
def ofType (l : List SecS) (t : Nat) : List SecS := l.filter (fun x => x.type == t)

/-- The bytes of a section. -/
def SecS.bytes (x : SecS) (b : List Byte) : List Byte := slice b x.off x.size

/-- The words of a code section. -/
def SecS.words (x : SecS) (b : List Byte) : List Word := (List.range (x.size / 4)).map (fun i => BitVec.ofNat 32 (leAt b (x.off + 4 * i) 4))

/-- Two ranges of the image do not meet; an empty one meets none. -/
def apart (a n b m : Nat) : Bool := n == 0 || m == 0 || decide (a + n ≤ b) || decide (b + m ≤ a)

/-- Every section is apart from those after it. -/
def secsApart : List SecS → Bool
  | [] => true
  | x :: t => t.all (fun y => apart x.off x.size y.off y.size) && secsApart t

/-- The declarations of BIND (R191). -/
def bindsOf (d : List Byte) : List Bind := (List.range 16).map (fun q => { kind := leAt d (8 * q) 1, most := leAt d (8 * q + 4) 4 })

/-- Jobs per run and span of the six kinds (R191). -/
def resJobs (d : List Byte) : List (Nat × Nat) := (List.range 6).map (fun k => (leAt d (24 + 4 * k) 1, leAt d (25 + 4 * k) 1))

/-- The RES section's own rules (R166, R168, R191). -/
def resOk (d : List Byte) : Bool :=
  decide (leAt d 0 4 % 64 = 0) && decide (leAt d 0 4 ≤ 130816) && decide (leAt d 4 4 % 4096 = 0) && decide (leAt d 4 4 ≤ 1048576) &&
  decide (1 ≤ leAt d 16 2) && decide (leAt d 16 2 ≤ leAt d 18 2) && decide (leAt d 18 2 ≤ 3000) && decide (1 ≤ leAt d 20 1) &&
  allZero (slice d 21 3) && (List.range 6).all (fun k => allZero (slice d (26 + 4 * k) 2)) && allZero (slice d 48 16)

/-- The BIND section's own rules. -/
def bindOk (d : List Byte) : Bool :=
  (List.range 16).all (fun q => decide (leAt d (8 * q) 1 ≤ 7) && allZero (slice d (8 * q + 1) 3) && decide (leAt d (8 * q + 4) 4 % 16 = 0))

/-- "bad image": magic, version, counts, sizes, offsets and attributes (R190, R191, R195). -/
def imageOk (b : List Byte) : Bool :=
  let l := secsOf b
  let n := leAt b 6 2
  let code := ofType l 1 ++ ofType l 2
  let kinds := (ofType l 2).map (fun x => x.attr % 8)
  decide (64 ≤ b.length) && decide (b.length ≤ 196608) && leAt b 0 4 == 0x31594E44 && leAt b 4 2 == 1 && decide (3 ≤ n) && decide (n ≤ 16) &&
  leAt b 8 4 == b.length && decide (leAt b 12 4 ≤ 1) && allZero (slice b 36 28) && decide (64 + 16 * n ≤ b.length) &&
  l.all (fun x => [1, 2, 3, 4, 5, 6, 15].contains x.type && decide (x.off + x.size ≤ b.length) && apart 0 (64 + 16 * n) x.off x.size) && secsApart l &&
  (ofType l 1).length == 1 && decide ((ofType l 2).length ≤ 7) && decide ((ofType l 3).length ≤ 1) && (ofType l 4).length == 1 &&
  (ofType l 5).length == 1 && (ofType l 6).length == 1 && decide ((ofType l 15).length ≤ 1) &&
  (leAt b 12 4 == 1) == ((ofType l 15).length == 1) && ((ofType l 15).isEmpty || (l.getLast?.map (·.type)) == some 15) &&
  code.all (fun x => x.size % 4 == 0) && decide (sumN (code.map (·.size)) ≤ 32768) &&
  (ofType l 2).all (fun x => decide (x.attr % 8 ≤ 6) && allZero [BitVec.ofNat 8 (x.attr / 8 % 32)] && decide (x.attr / 512 % 8 ≤ 3) &&
    decide (x.attr < 4096)) && kinds.eraseDups.length == kinds.length &&
  (ofType l 1 ++ ofType l 3 ++ ofType l 5 ++ ofType l 6 ++ ofType l 15).all (fun x => x.attr == 0) &&
  (ofType l 3).all (fun x => decide (x.size ≤ 65536) && x.size % 64 == 0) &&
  (ofType l 4).all (fun x => decide (x.size ≤ x.attr) && decide (64 ≤ x.attr) && decide (x.attr ≤ 65536) && x.attr % 64 == 0) &&
  (ofType l 5).all (fun x => x.size == 64 && resOk (x.bytes b)) && (ofType l 6).all (fun x => x.size == 128 && bindOk (x.bytes b)) &&
  (ofType l 15).all (fun x => x.size == 72)

/-- The signature holds (R192): a SIG section verifies under the key it names; a tenant that must sign has one whose kid is listed. -/
def signatureOk (b : List Byte) (must : Bool) (kids : List (List Byte)) : Bool :=
  match (ofType (secsOf b) 15).head? with
  | none => !must
  | some x =>
    let d := x.bytes b
    Config.verify (d.drop 64) (b.take x.off) (d.take 64) && (!must || (kids.contains (d.drop 64) && !allZero (d.drop 64)))

/-! ## The parts and figures of an image -/

/-- A handler as its section declares it; its costs follow. -/
def handlerOf (b : List Byte) (x : SecS) : Handler :=
  { kind := x.attr % 8, same := bitOf x.attr 8, slots := x.attr / 512 % 8 + 1, code := x.words b, wcet := 0, full := 0 }

/-- An image's parts, its figures still to come. -/
def partsOf (b : List Byte) : ImageS :=
  let l := secsOf b
  let sec := fun t => ((ofType l t).headD ⟨0, 0, 0, 0⟩)
  let res := (sec 5).bytes b
  { handle := 0, tenant := 0, size := b.length, body := (sec 1).words b, handlers := (ofType l 2).map (handlerOf b)
    const := (sec 3).bytes b, state := (sec 4).bytes b, stateSize := (sec 4).attr, scratch := leAt res 0 4, ext := leAt res 4 4
    hmax := leAt res 8 4, cost := leAt res 12 4, wcet := 0, strideMin := leAt res 16 2, strideMax := leAt res 18 2, value := leAt res 20 1
    jobs := resJobs res, binds := bindsOf ((sec 6).bytes b) }

/-- The code sections of an image: the body first. -/
def ImageS.sections (im : ImageS) : List (List Word) := im.body :: im.handlers.map (·.code)

/-- A section's code, empty where a word is no defined encoding. -/
def codeOf (l : List Word) : Code := (decodeFrom 0 false l).getD []

/-- "bad encoding": every word is defined and no pair breaks R206. -/
def encodingOk (l : List Word) : Bool :=
  match decodeFrom 0 false l with
  | none => false
  | some c => pairsOk c && c.all (fun x => match x.bind (fun i => i.flow.target) with
      | some t => !(decide (0 ≤ t) && decide (t.toNat < c.length) && (insAt c t.toNat).isNone)
      | none => true)

/-- The WCET of a section (R194). -/
def ImageS.wcetOf (im : ImageS) (l : List Word) : Nat :=
  let c := codeOf l
  sectionMax c (cycleWt c im.binds (factsOf c l im.binds))

/-- The image with the figures the loader records: WCETs, full run costs, and the accelerator sums of R240. -/
def ImageS.figures (im : ImageS) : ImageS :=
  let hs := im.handlers.map (fun h => { h with wcet := im.wcetOf h.code, full := im.runCost (im.wcetOf h.code) })
  let spans := ((im.sections.map (fun l => (insList (codeOf l)).filterMap (fun p =>
    if fieldOf p.2.word 31 26 = 0x30 then some (fieldOf p.2.word 16 14, fieldOf p.2.word 9 2) else none))).flatten).eraseDups
  { im with
    handlers := hs, wcet := im.wcetOf im.body
    acc := spans.map (fun p => { kind := p.1, span := p.2, body := sectionMax (codeOf im.body) (accWt (codeOf im.body) p.1 p.2)
                                 handlers := sumN (im.handlers.map (fun h => sectionMax (codeOf h.code) (accWt (codeOf h.code) p.1 p.2))) }) }

/-- The highest sum of a weight over a run: the body after every NEXT handler, and each SAME handler alone (R169, R188). -/
def ImageS.runMax (im : ImageS) (f : List Word → Nat) : Nat :=
  let next := sumN ((im.handlers.filter (fun h => !h.same)).map (fun h => f h.code))
  maxN ((f im.body + next) :: (im.handlers.filter (·.same)).map (fun h => f h.code))

/-- "over declared": jobs, hauls and port bytes within their declarations, and the rules of jobs (R195, R221, R222). -/
def ImageS.declaredOk (im : ImageS) : Bool :=
  let wt := fun (f : Code → Nat → Bool → Nat) => im.runMax (fun l => sectionMax (codeOf l) (f (codeOf l)))
  (List.range 6).all (fun k => decide (wt (fun c => jobWt c k) ≤ (im.jobs.getD k (0, 0)).1)) &&
  decide (wt haulWt ≤ im.hmax) &&
  (List.range 16).all (fun q =>
    decide (im.runMax (fun l => sectionMax (codeOf l) (portWt (codeOf l) im.binds (factsOf (codeOf l) l im.binds) q)) ≤ (im.binds.getD q {}).most)) &&
  im.sections.all (fun l => jobsOk (factsOf (codeOf l) l im.binds))

/-- "bad address": constant lmem addresses lie within the declared regions. -/
def ImageS.addressOk (im : ImageS) : Bool :=
  im.sections.all (fun l => (factsOf (codeOf l) l im.binds).all (fun f => match f with
    | .addr _ a n => im.covers 4 a n
    | _ => true))

/-- The loader's checks in the order of R195: the status of the first that fails, or the image with its figures. -/
def verifyImage (b : List Byte) (must : Bool) (kids : List (List Byte)) : Except Nat ImageS :=
  if !imageOk b then .error 0x21
  else if !signatureOk b must kids then .error 0x40
  else
    let im := partsOf b
    let cs := im.sections
    let all := fun (f : Code → Bool) => cs.all (fun l => f (codeOf l))
    if !cs.all encodingOk then .error 0x41
    else if !all branchesOk then .error 0x42
    else if !all loopsOk then .error 0x43
    else if !all nestsOk then .error 0x44
    else if !all callsOk then .error 0x45
    else if !all boundsOk then .error 0x43
    else if (im.binds.headD {}).kind ≠ 1 || (im.binds.drop 1).any (fun p => p.kind == 1) || !all (fun c => bindingsOk c im.binds im.jobs) then .error 0x46
    else if !im.declaredOk then .error 0x47
    else if !all endsOk then .error 0x41
    else if !im.addressOk then .error 0x48
    else
      let g := im.figures
      if g.runCost g.wcet ≠ im.cost ∨ 480000 < im.cost then .error 0x49
      else if g.handlers.any (fun h => decide (480000 < h.full)) then .error 0x49
      else .ok g

/-! ## Loading (R408, R411) -/

/-- The stu by which the verification of an image ends: 1 ms, 1 ms for each started 32 KiB, and 0.5 ms for a signature (R411). -/
def State.loadEnd (s : State) (b : List Byte) : Nat :=
  s.now + nsStu (1000000 * (1 + ceilDiv b.length 32768) + if leAt b 12 4 = 1 then 500000 else 0)

/-- An image has arrived whole for a tenant. -/
def State.imageArrived (s : State) (t tag : Nat) (b : List Byte) : State :=
  s.tenMod t (fun x => { x with verify := x.verify ++ [{ bytes := b, tag := tag, accept := s.stamp, due := s.loadEnd b }] })

/-- One part of an image (R411); `last` ends it. -/
def State.imagePart (s : State) (t tag off : Nat) (b : List Byte) (last : Bool) : State :=
  let have_ := (((s.ten t).load).map (·.bytes)).getD []
  if off ≠ have_.length then
    ((s.tenMod t (fun x => { x with load := none })).fsetB (Reg.HST_STAT_LOADING t) false).complete t tag 1 0x10 s.stamp []
  else if last then ((s.tenMod t (fun x => { x with load := none })).fsetB (Reg.HST_STAT_LOADING t) false).imageArrived t tag (have_ ++ b)
  else
    ((s.tenMod t (fun x => { x with load := some { bytes := have_ ++ b } })).fsetB (Reg.HST_STAT_LOADING t) true).complete t tag 1 0 s.stamp []

/-- A handle no image has: which one the device takes is open. -/
def State.freeHandle (s : State) : Nat × State :=
  let (f, s1) := s.free1
  (((List.range 65536).map (fun i => (f + i) % 65536)).find? (fun h => !s.images.any (fun im => im.handle == h)) |>.getD 0, s1)

/-- The oldest image a tenant waits for is verified by now: its completion carries the handle and the body's run cost, or the status of the check it
failed. A load that finds no space completes with "no space"; an image that does is placed once, and every context that names its handle shares it
(State.imageOf; R256). -/
def State.verifyDone (s : State) (t : Nat) : State :=
  match (s.ten t).verify with
  | [] => s
  | v :: vs =>
    let s1 := s.tenMod t (fun x => { x with verify := vs })
    match verifyImage v.bytes (s.right t 5) (s.tenancy t).signers with
    | .error e => s1.complete t v.tag 1 e v.accept []
    | .ok im =>
      if !s1.storeHolds [{ owner := 65536, part := 20, size := im.size }] then s1.complete t v.tag 1 0x27 v.accept []
      else
        let (h, s2) := s1.freeHandle
        (({ s2 with images := s2.images ++ [{ im with handle := h, tenant := t }] } : State).showSeq).complete t v.tag 1 0 v.accept
          (leBytes h 4 ++ leBytes im.cost 4)

/-- IMAGE_VERIFY_DONE (R195, R411): by its bound at the latest. -/
def execImageVerifyDone (t : Fin 4) (u : Nat) (s : State) : Host.Outcome State Fault Refusal :=
  .next (
    match (s.ten t).verify with
    | [] => s.at u
    | v :: _ => (s.at (Nat.min u (Nat.max s.now v.due))).verifyDone t)

/-- An image is unloaded (R408): "bad image" where the handle names none, "not yours" where it names another tenant's, "image in use" while a context
has it open; else its space is free again (R256). -/
def State.unloadCmd (s : State) (t tag h : Nat) : State :=
  if !s.images.any (fun im => im.handle == h) then s.complete t tag 1 0x21 s.stamp []
  else if !s.images.any (fun im => im.handle == h && im.tenant == t) then s.complete t tag 1 0x13 s.stamp []
  else if s.ctxs.any (fun p => p.2.admitted && (p.2.image.map (·.handle)) == some h) then s.complete t tag 1 0x31 s.stamp []
  else (({ s with images := s.images.filter (fun im => im.handle != h) } : State).showSeq).complete t tag 1 0 s.stamp []

end Sys2Proof.Machine
end

