-- ==== Sys2Proof/Machine/Flow.lean ====
section
/-!
DEFINITION. The L class: branches, calls and counted loops (R217, R218), and END (R235).
-/

namespace Sys2Proof.Machine

/-! ## The section a run executes -/

/-- The major opcode of a word. -/
def wordOp (w : Word) : Nat := fieldOf w 31 26

/-- The words of the section a run executes: a handler or the body (R164). -/
def State.sectionOf (s : State) (r : Run) : List Word :=
  let im := (s.ctx r.ctx).img
  match r.handler with
  | none => im.body
  | some k => ((im.handlers.find? (fun h => h.kind == k)).map (·.code)).getD []

/-- The word of the LEND that closes the loop whose body starts the list: `w` is the word of its head, `depth` the loops opened inside, `skip`
set on the second word of a long form (R207, R218). -/
def findLend (w depth : Nat) (skip : Bool) : List Word → Option Nat
  | [] => none
  | x :: t =>
    if skip then findLend (w + 1) depth false t
    else if wordOp x = 0x25 then (match depth with
      | 0 => some w
      | d + 1 => findLend (w + 1) d false t)
    else if wordOp x = 0x24 then findLend (w + 1) (depth + 1) false t
    else findLend (w + 1) depth (decide (0x3C ≤ wordOp x)) t

/-- The LEND of the LOOP at word `w`; beyond every word where the section holds none. -/
def State.lendOf (s : State) (r : Run) : Nat :=
  (findLend (r.word + 1) 0 false ((s.sectionOf r).drop (r.word + 1))).getD 8191

/-! ## Going elsewhere -/

/-- A branch target: the branch word + OFF17 (R217). -/
def Run.target (r : Run) (off : BitVec 17) : Nat := ((r.word : Int) + off.toInt).toNat

/-- A loop's body holds a word (R218). -/
def LoopF.holds (l : LoopF) (w : Nat) : Bool := decide (l.first ≤ w) && decide (w ≤ l.lend)

/-- The run goes to a word; a target outside the bodies of enclosing loops ends them (R218). A loop that a caller left open does not enclose the branch. -/
def Run.goto (r : Run) (w : Nat) : Run :=
  { r with word := w, loops := r.loops.dropWhile (fun l => l.depth == r.calls.length && !l.holds w) }

/-- A flow instruction: `f` sets the word the run goes on at and answers its cycles. -/
def State.flow (s : State) (e : Nat) (f : State → Run → Run × Nat) : State :=
  match s.run e with
  | none => s
  | some r =>
    if r.ended then s else
    let s1 := s.at (s.issueStu r)
    let (r1, c) := f s1 r
    s1.setRun e (some { r1 with cycles := r1.cycles + c, pair := none })

/-- A conditional branch (R217): 3 cycles taken, 1 not. -/
def State.branch (s : State) (e : Nat) (off : BitVec 17) (c : RegSet → Bool) : State :=
  s.flow e (fun _ r => if c r.regs then (r.goto (r.target off), 3) else ({ r with word := r.word + 1 }, 1))

/-- BEQZ (R217). -/
def execBeqz (e : Fin 8) (a : Fin 32) (off : BitVec 17) (s : State) : Host.Outcome State Fault Refusal :=
  .next (s.branch e off (fun g => g.rs a == 0))

/-- BNEZ (R217). -/
def execBnez (e : Fin 8) (a : Fin 32) (off : BitVec 17) (s : State) : Host.Outcome State Fault Refusal :=
  .next (s.branch e off (fun g => g.rs a != 0))

/-- BLTZ (R217). -/
def execBltz (e : Fin 8) (a : Fin 32) (off : BitVec 17) (s : State) : Host.Outcome State Fault Refusal :=
  .next (s.branch e off (fun g => decide ((g.rs a).toInt < 0)))

/-- BGEZ (R217). -/
def execBgez (e : Fin 8) (a : Fin 32) (off : BitVec 17) (s : State) : Host.Outcome State Fault Refusal :=
  .next (s.branch e off (fun g => decide (0 ≤ (g.rs a).toInt)))

/-- BGTZ (R217). -/
def execBgtz (e : Fin 8) (a : Fin 32) (off : BitVec 17) (s : State) : Host.Outcome State Fault Refusal :=
  .next (s.branch e off (fun g => decide (0 < (g.rs a).toInt)))

/-- BLEZ (R217). -/
def execBlez (e : Fin 8) (a : Fin 32) (off : BitVec 17) (s : State) : Host.Outcome State Fault Refusal :=
  .next (s.branch e off (fun g => decide ((g.rs a).toInt ≤ 0)))

/-- BANY (R217): any bit of pa is set. -/
def execBany (e a : Fin 8) (off : BitVec 17) (s : State) : Host.Outcome State Fault Refusal :=
  .next (s.branch e off (fun g => g.rp a != 0))

/-- BNONE (R217): no bit of pa is set. -/
def execBnone (e a : Fin 8) (off : BitVec 17) (s : State) : Host.Outcome State Fault Refusal :=
  .next (s.branch e off (fun g => g.rp a == 0))

/-- JMP (R217). -/
def execJmp (e : Fin 8) (off : BitVec 17) (s : State) : Host.Outcome State Fault Refusal :=
  .next (s.flow e (fun _ r => (r.goto (r.target off), 3)))

/-- CALL (R217, R218): the return word is kept; a call leaves open loops open. -/
def execCallI (e : Fin 8) (off : BitVec 17) (s : State) : Host.Outcome State Fault Refusal :=
  .next (s.flow e (fun _ r => ({ r with calls := (r.word + 1) :: r.calls, word := r.target off }, 3)))

/-- RET (R217): to the last return word; no image with a RET that has none passes the loader (R195), and such a RET goes on. -/
def execRetI (e : Fin 8) (s : State) : Host.Outcome State Fault Refusal :=
  .next (s.flow e (fun _ r => match r.calls with
    | w :: ws => ({ r with calls := ws, word := w }, 3)
    | [] => ({ r with word := r.word + 1 }, 3)))

/-- LOOP (R196, R218): N16 passes with A = s0, else min(sA, N16); a count of 0 goes on after the matching LEND. -/
def execLoopI (e : Fin 8) (a : Fin 32) (n : BitVec 16) (s : State) : Host.Outcome State Fault Refusal :=
  .next (s.flow e (fun x r =>
    let want := if a.val = 0 then n.toNat else (r.regs.rs a).toNat
    let k := Nat.min want n.toNat
    let r1 := { r with clamped := r.clamped || decide (n.toNat < want) }
    let l := x.lendOf r
    if k = 0 then ({ r1 with word := l + 1 }, 2)
    else ({ r1 with word := r.word + 1, loops := { first := r.word + 1, lend := l, left := k - 1, depth := r.calls.length } :: r1.loops }, 2)))

/-- LEND (R217, R218): back to its target while passes remain, then on. -/
def execLend (e : Fin 8) (off : BitVec 17) (s : State) : Host.Outcome State Fault Refusal :=
  .next (s.flow e (fun _ r => match r.loops with
    | l :: ls =>
      if l.left = 0 then ({ r with word := r.word + 1, loops := ls }, 0)
      else ({ r with word := r.target off, loops := { l with left := l.left - 1, pass := l.pass + 1 } :: ls }, 0)
    | [] => ({ r with word := r.word + 1 }, 0)))

/-- END (R235, R164, R169): the handler or body ends; a handler has consumed its record, and the next handler or the body follows. -/
def execEndRun (e : Fin 8) (s : State) : Host.Outcome State Fault Refusal :=
  .next (s.flow e (fun _ r =>
    let r1 := match r.handler with
      | some k => r.clearCue k
      | none => r
    (r1.next, 1)))

end Sys2Proof.Machine
end

