-- ==== Sys2Proof/Machine/Queue.lean ====
section
/-!
DEFINITION. The H class (R183, R219), the Q class (R178 to R180, R220), the C class (R234) and the system instructions of the X class (R235).
-/

namespace Sys2Proof.Machine

/-! ## Faults met by one instruction (R559) -/

/-- The first fault of several checks in the order ALIGN, LMEM_RANGE, CONST_WRITE. -/
def firstFault (l : List (Option Nat)) : Option Nat :=
  [fAlign, fRange, fConst].find? (fun c => l.any (fun x => x == some c))

/-! ## Hauls -/

/-- The bytes of a haul: the maximum, the bytes moved, and whether the length was clamped (R219). -/
def haulLen (g : RegSet) (c n10 : Nat) : Nat × Nat × Bool :=
  let most := (n10 + 1) * 64
  if c = 0 then (most, most, false)
  else
    let v := (g.rs c).toNat
    if most < v then (most, most, true) else (most, v / 64 * 64, false)

/-- The fault of a haul: `a` the lmem address, `b` the EXT offset, `n` the bytes (R219, R559). -/
def ImageS.haulCheck (im : ImageS) (a b n : Nat) (into : Bool) : Option Nat :=
  let k := if n = 0 then 64 else n
  if a % 64 ≠ 0 ∨ b % 64 ≠ 0 then some fAlign
  else if im.ext < b + k then some fRange
  else if im.inWork a k then none
  else if into && im.covers 4 a k && im.readOnly a k then some fConst
  else some fRange

/-- A haul: `f` moves the bytes. -/
def State.haul (s : State) (e a b c n10 : Nat) (into : Bool) : State :=
  s.instrS e (fun r => 8 + (haulLen r.regs c n10).1 / 64) (fun r y =>
    let (_, n, cl) := haulLen r.regs c n10
    let la := (r.regs.rs a).toNat
    let eb := (r.regs.rs b).toNat
    match (y.ctx r.ctx).img.haulCheck la eb n into with
    | some f => .error f
    | none =>
      let r1 := { r with clamped := r.clamped || cl, moved := modifyAt r.moved 16 (fun m => m + n) }
      if into then .ok ({ r1 with lmem := memWrite r.lmem la (memRead (y.ctx r.ctx).ext eb n) }, y)
      else .ok (r1, y.ctxMod r.ctx (fun x => { x with ext := memWrite x.ext eb (memRead r.lmem la n) })))

/-- HIN (R219). -/
def execHin (e : Fin 8) (a b c : Fin 32) (n10 : Fin 1024) (s : State) : Host.Outcome State Fault Refusal :=
  .next (s.haul e a b c n10 true)

/-- HOUT (R219). -/
def execHout (e : Fin 8) (a b c : Fin 32) (n10 : Fin 1024) (s : State) : Host.Outcome State Fault Refusal :=
  .next (s.haul e a b c n10 false)

/-! ## Queues -/

/-- What a read of q0 has taken so far: samples, flags, entries, first and last label, the gain of the last data run, whether the last item was a
marker, and bytes. -/
structure ReadS where
  samples : List Byte := []
  flags : List Byte := []
  entries : List Byte := []
  labels : Option (Nat × Nat) := none
  agcg : Int := 0
  mark : Bool := false
  bytes : Nat := 0
deriving DecidableEq, Repr

/-- A chain marker's 16-byte ring entry (R114). -/
def Marker.bytes (m : Marker) : List Byte :=
  leBytes m.stu 8 ++ leBytes m.kind 1 ++ leBytes m.flags 1 ++ leBytes m.old 1 ++ leBytes m.new 1 ++ leBytes m.param 4

/-- The AGCG entry (R180). -/
def agcgEntry (l : Nat) (g : Int) : List Byte := leBytes l 8 ++ [0x0A, 0, 0, 0] ++ leBytes (code 32 g) 4

/-- Labels taken so far extended by one. -/
def addLabel (x : Option (Nat × Nat)) (l : Nat) : Option (Nat × Nat) := some ((x.map (·.1)).getD l, l)

/-- One sample unpacked. -/
def ReadS.sample (a : ReadS) (l : Nat) (i q : Int) (st v : Bool) : ReadS :=
  { a with
    samples := a.samples ++ leBytes (code 16 i) 2 ++ leBytes (code 16 q) 2
    flags := a.flags ++ leBytes (b2n st + 2 * b2n v + 4 * b2n a.mark) 1
    labels := addLabel a.labels l, mark := false }

/-- One whole ring entry unpacked (R180). -/
def ReadS.entry (a : ReadS) (l : List Item) : ReadS :=
  match l with
  | .mark m :: _ => { a with entries := a.entries ++ m.bytes, labels := addLabel a.labels m.stu, mark := true, bytes := a.bytes + 16 }
  | .sample lab _ _ _ _ g _ :: _ =>
    let a1 := if g = a.agcg then a else { a with entries := a.entries ++ agcgEntry lab g, agcg := g }
    let a2 := l.foldl (fun (x : ReadS) i => match i with
      | .sample l i q st v _ _ => x.sample l i q st v
      | .mark _ => x) a1
    { a2 with bytes := a2.bytes + entryBytes l }
  | [] => a

/-- Whole entries below the fence, oldest first, within the bytes left (R178, R179): what they unpack to, and the entries left. -/
def takeRing (fence room : Nat) (a : ReadS) : List (List Item) → ReadS × List (List Item)
  | [] => (a, [])
  | e :: t =>
    if headStu e < fence ∧ a.bytes + entryBytes e ≤ room then takeRing fence room (a.entry e) t else (a, e :: t)

/-- Two label ranges joined. -/
def joinLabels (a b : Option (Nat × Nat)) : Option (Nat × Nat) :=
  match a, b with
  | none, y => y
  | x, none => x
  | some (f, _), some (_, l) => some (f, l)

/-- A scalar pair written: d the low word, d + 1 the high (R205). -/
def RegSet.setPair (g : RegSet) (d lo hi : Nat) : RegSet := (g.setS d (BitVec.ofNat 32 lo)).setS (d + 1) (BitVec.ofNat 32 hi)

/-- The cost of a Q instruction on a port (R220). -/
def State.qCost (s : State) (q : Nat) (r : Run) : Nat := 4 + ceilDiv ((s.ctx r.ctx).portMost q) 64

/-- QRDC (R178 to R180, R220). -/
def execQrdc (e : Fin 8) (d : Fin 32) (q : Fin 16) (a b c : Fin 32) (s : State) : Host.Outcome State Fault Refusal :=
  .next (s.instrS e (s.qCost q) (fun r y =>
    let x := y.ctx r.ctx
    let most := x.portMost q
    let m := most / 4
    let (sa, sb, sc) := ((r.regs.rs a).toNat, (r.regs.rs b).toNat, (r.regs.rs c).toNat)
    match firstFault [x.img.check sa (4 * m) 16 true, x.img.check sb m 1 true, x.img.check sc most 16 true] with
    | some f => .error f
    | none =>
      let ring := if x.portKind q = 1 then ringRuns x.ring else []
      let (t, rest) := takeRing (r.tick * tickStu) (most - r.moved.getD q 0) { agcg := x.lastAgcg, mark := x.lastMark } ring
      let y1 := if x.portKind q = 1 then
        (y.ctxMod r.ctx (fun x => { x with ring := rest.flatten, lastAgcg := t.agcg, lastMark := t.mark })).showQ0 r.ctx else y
      .ok ({ r with
        lmem := memWrite (memWrite (memWrite r.lmem sa t.samples) sb t.flags) sc t.entries
        moved := modifyAt r.moved q (fun k => k + t.bytes), taken := joinLabels r.taken t.labels
        input := r.input ++ (ring.take (ring.length - rest.length)).flatten
        regs := r.regs.setPair d t.flags.length (t.entries.length / 16) }, y1)))

/-- Whole entries of an in-queue below the fence within the bytes left: the entries taken and those left (R178, R179). -/
def takeQueue (tick kind room : Nat) : List (Nat × Rec) → List (Nat × Rec) × List (Nat × Rec)
  | [] => ([], [])
  | e :: t =>
    if belowFence tick kind e && decide (e.2.bytes.length ≤ room) then
      let (a, b) := takeQueue tick kind (room - e.2.bytes.length) t
      (e :: a, b)
    else ([], e :: t)

/-- QRD (R178, R179, R220). -/
def execQrd (e : Fin 8) (d : Fin 32) (q : Fin 16) (a : Fin 32) (s : State) : Host.Outcome State Fault Refusal :=
  .next (s.instrS e (s.qCost q) (fun r y =>
    let x := y.ctx r.ctx
    let most := x.portMost q
    let sa := (r.regs.rs a).toNat
    match x.img.check sa most 16 true with
    | some f => .error f
    | none =>
      let k := x.portKind q
      let src := if k = 2 ∨ k = 7 then (x.ports.getD q {}).queue else []
      let (t, rest) := takeQueue r.tick k (most - r.moved.getD q 0) src
      let l := (t.map (fun e => e.2.bytes)).flatten
      let y1 := if k = 2 ∨ k = 7 then (y.portMod r.ctx q (fun p => { p with queue := rest })).spaceBack k r.ctx q else y
      .ok ({ r with
        lmem := memWrite r.lmem sa l, moved := modifyAt r.moved q (fun k => k + l.length)
        inputs := r.inputs ++ t.map (fun e => (q.val, e))
        regs := r.regs.setPair d l.length t.length }, y1)))

/-- QWR (R175, R177, R220): one record appended, visible at publish; on a full ring it is discarded. -/
def execQwr (e d : Fin 8) (q : Fin 16) (a b c : Fin 32) (s : State) : Host.Outcome State Fault Refusal :=
  .next (s.instrS e (s.qCost q) (fun r y =>
    let x := y.ctx r.ctx
    let sa := (r.regs.rs a).toNat
    let len := fieldOf (r.regs.rs b) 12 0
    let k := 16 + roundUp len 16
    match x.img.check sa len 16 false with
    | some f => .error f
    | none =>
      if 4096 < len ∨ x.portMost q < r.moved.getD q 0 + k then .error fQueue
      else
        let lost := (x.ports.getD q {}).lostNow
        let lead := if lost = 0 then 0 else 16
        if !y.ringFits r.ctx q (r.unpublished q + lead + k) then
          .ok ({ r with regs := r.regs.setP d 0 }, y.dropEntry r.ctx q)
        else
          let u := if c.val = 0 then r.tick * tickStu else r.regs.pair c
          let rec1 : Rec := { stu := u, qual := y.qualAt u
                              payload := memRead r.lmem sa len, param := fieldOf (r.regs.rs b) 31 16 }
          let head : List (Nat × Rec) := if lost = 0 then [] else [(q.val, { stu := y.now, kind := 9, param := lost, qual := y.qualAt y.now })]
          .ok ({ r with
            out := r.out ++ head ++ [(q.val, rec1)], moved := modifyAt r.moved q (fun m => m + k)
            regs := r.regs.setP d 0xFFFFFFFF }, y.portMod r.ctx q (fun p => { p with lostNow := 0 }))))

/-! ## The C class (R234) -/

/-- An instruction of two cycles that changes its run and the state around it. -/
def State.two (s : State) (e : Nat) (f : Run → State → Run × State) : State :=
  s.instrS e (fun _ => 2) (fun r y => .ok (f r y))

/-- CUERD (R234). -/
def execCuerd (e d : Fin 8) (k : Fin 7) (a : Fin 32) (s : State) : Host.Outcome State Fault Refusal :=
  .next (s.instrS e (fun _ => 2) (fun r y =>
    let sa := (r.regs.rs a).toNat
    match (y.ctx r.ctx).img.check sa 32 32 true with
    | some f => .error f
    | none =>
      let q := r.cues.getD k {}
      let r1 := { r with lmem := memWrite r.lmem sa (cueBytes k q) }
      .ok ({ r1.clearCue k with regs := r.regs.setP d (if q.count = 0 then 0 else 0xFFFFFFFF) }, y)))

/-- CUECLR (R234). -/
def execCueclr (e : Fin 8) (k : Fin 7) (s : State) : Host.Outcome State Fault Refusal :=
  .next (s.two e (fun r y => (r.clearCue k, y)))

/-- CUEPEND (R234): the records of the run that are pending. -/
def execCuepend (e : Fin 8) (d : Fin 32) (s : State) : Host.Outcome State Fault Refusal :=
  .next (s.two e (fun r y =>
    (r.regsTo (fun g => g.setS d (BitVec.ofNat 32 (sumN ((List.range 7).map (fun k => b2n ((r.cues.getD k {}).count != 0) * 2 ^ k))))), y)))

/-- TIMER (R234): the deadline in sa:sa+1; A = s0 disarms. A deadline already passed is raised at the issue stu. -/
def execTimerI (e : Fin 8) (a : Fin 32) (s : State) : Host.Outcome State Fault Refusal :=
  .next (s.two e (fun r y =>
    let d := r.regs.pair a
    (r, if a.val = 0 then y.ctxMod r.ctx (fun x => { x with timer := none })
        else if d ≤ y.now then (y.ctxMod r.ctx (fun x => { x with timer := none })).raiseCue r.ctx 4 y.now 0
        else y.ctxMod r.ctx (fun x => { x with timer := some d }))))

/-- AGCREL (R128, R234): the hold ends from the first group at or after the issue stu. -/
def execAgcrel (e : Fin 8) (s : State) : Host.Outcome State Fault Refusal :=
  .next (s.two e (fun r y =>
    (r, if (y.ctx r.ctx).chain.held then y.chnMod r.ctx (fun c => { c with release := some y.now }) else y)))

/-! ## The X class (R235) -/

/-- The value RINF selects; other selections are no defined encodings and read 0 here (log entry 31). -/
def State.rinf (s : State) (r : Run) (sel : Nat) : Nat :=
  let x := s.ctx r.ctx
  let fence := r.tick * tickStu
  match sel with
  | 0 => r.ctx
  | 1 => x.stride
  | 2 => x.phase
  | 3 => r.tick
  | 4 => r.tick / 4294967296
  | 5 => fence
  | 6 => fence / 4294967296
  | 7 => x.prio
  | 8 => s.fget Reg.LDG_STAT_GRADE
  | 9 => (s.rget Reg.CCS_TICKCYC).toNat
  | _ => 0

/-- RINF (R235). -/
def execRinf (e : Fin 8) (d sel : Fin 32) (s : State) : Host.Outcome State Fault Refusal :=
  .next (s.two e (fun r y => (r.regsTo (fun g => g.setS d (BitVec.ofNat 32 (y.rinf r sel))), y)))

/-- LCNT (R235): the pass number of the loop k levels out. -/
def execLcnt (e : Fin 8) (d k : Fin 32) (s : State) : Host.Outcome State Fault Refusal :=
  .next (s.two e (fun r y =>
    (r.regsTo (fun g => g.setS d (match r.loops[k.val]? with
      | some l => BitVec.ofNat 32 l.pass
      | none => 0xFFFFFFFF)), y)))

/-- BRK (R235, R522): logged where the owner enabled it; nothing else. -/
def execBrkI (e : Fin 8) (s : State) : Host.Outcome State Fault Refusal :=
  .next (s.two e (fun r y =>
    (r, if y.flag (Reg.SE_DBG_BRKEN e) then
      let w := putField (putField 0 31 24 r.ctx) 12 0 r.word
      let w1 := match r.handler with
        | none => w
        | some k => putField (putField w 23 23 1) 22 20 k
      ((y.rset (Reg.SE_BRK e) w1).rset64 (Reg.SE_BRKSTU_LO e) y.now).bump (whole (Reg.SE_BRKCNT e))
      else y)))

end Sys2Proof.Machine
end

