-- ==== Sys2Proof/Machine/Plan.lean ====
section
/-!
DEFINITION. What a tick plan holds (R237): run lists, SAME slots, hauls and their banks, job units, the chain set, the wind-up fill and the core
profile. Every choice that R237 to R255 leave to the planner is a free value (log entry 80).
-/

namespace Sys2Proof.Machine

/-! ## The run lists (R169, R188, R240) -/

/-- The runs a context has reserved in tick `k`, at their charges of R240: the main run where its body is due or it has NEXT handlers, and its SAME slots. -/
def ContextS.planRuns (x : ContextS) (n k : Nat) : List PlanRun :=
  let im := x.img
  let due := decide (k % Nat.max 1 x.stride = x.phase)
  let next := im.handlers.filter (fun h => !h.same)
  let main : PlanRun := { ctx := n, body := due, cost := if due then im.cost + sumN (next.map (·.wcet)) else sumN (next.map (·.full)) }
  (if due || !next.isEmpty then [main] else []) ++
    (im.handlers.filter (·.same)).flatMap (fun h => List.replicate h.slots { ctx := n, slot := some h.kind, cost := h.full })

/-- A list in an order that stays open. -/
def State.shuffle (s : State) : List PlanRun → List PlanRun × State
  | [] => ([], s)
  | r :: t =>
    let (l, s1) := s.shuffle t
    let (f, s2) := s1.free1
    let i := f % (l.length + 1)
    (l.take i ++ r :: l.drop i, s2)

/-! ## The haul schedule (R193, R254, R255) -/

/-- A bank in use: its number and the cycles. -/
abbrev BankUse := Nat × Nat × Nat

/-- Two uses of one bank overlap in time. -/
def BankUse.meets (a b : BankUse) : Bool := a.1 == b.1 && decide (a.2.1 < b.2.2) && decide (b.2.1 < a.2.2)

/-- The bank of an object. -/
def bankOf (m : List (StoreObj × Nat)) (owner part : Nat) : Option Nat := (m.find? (fun p => p.1.owner == owner && p.1.part == part)).map (·.2)

/-- A run that starts at cycle `p`, with its hauls (R193): code and CONST from the image's bank, the state from the current copy and back to the other, and EXT's bank
for the whole of the run (R255). Which copy is current then is not known when the plan is made, so both banks are kept for both hauls. -/
def PlanRun.startAt (r : PlanRun) (m : List (StoreObj × Nat)) (im : ImageS) (p : Nat) : PlanRun :=
  let z := ceilDiv im.stateSize 64
  let c := ceilDiv im.code 64 + ceilDiv im.const.length 64
  let use := fun (part lo hi : Nat) => ((bankOf m (if part = 20 then im.handle else r.ctx) part).map (fun b => (b, lo, hi))).toList
  let done := p + r.cost
  let all := use 20 p (p + c) ++ use 0 (p + c) (p + c + z) ++ use 1 (p + c) (p + c + z) ++ use 0 (done - z) done ++ use 1 (done - z) done ++ use 2 p done
  { r with start := p, hauls := all.filter (fun u => decide (u.2.1 < u.2.2)) }

/-- How much later a run must start for its hauls to leave those of `used` before them. -/
def PlanRun.late (r : PlanRun) (used : List BankUse) : Nat :=
  maxN (r.hauls.flatMap (fun a => (used.filter (fun b => BankUse.meets a b)).map (fun b => b.2.2 - a.2.1)))

/-- The first start from cycle `p` on at which a run's hauls meet none of `used` (R255); every delay passes one of them for good, so `fuel` is their number. -/
def PlanRun.settle (r : PlanRun) (m : List (StoreObj × Nat)) (im : ImageS) (used : List BankUse) : Nat → Nat → PlanRun
  | 0, p => r.startAt m im p
  | fuel + 1, p =>
    let k := (r.startAt m im p).late used
    if k = 0 then r.startAt m im p else r.settle m im used fuel (p + k)

/-- Runs one after another from cycle `pos` of a tick of `c` on, with `slack` cycles to leave between them, and no haul on a bank that `used` has at the time. A run that
would end after the tick starts as early as its hauls allow, and is left out of the plan where that is too late as well (log entry 80). -/
def State.setStarts (s : State) (m : List (StoreObj × Nat)) (img : Nat → ImageS) (used : List BankUse) (c pos slack : Nat) : List PlanRun → List PlanRun × State
  | [] => ([], s)
  | r :: t =>
    let (f, s1) := s.free1
    let at_ := fun p => r.settle m (img r.ctx) used (6 * used.length + 1) p
    let a := at_ (pos + f % (slack + 1))
    let q := if a.start + r.cost ≤ c then a else at_ pos
    if q.start + r.cost ≤ c then
      let (l, s2) := s1.setStarts m img used c (q.start + r.cost) (slack - (q.start - pos)) t
      (q :: l, s2)
    else s1.setStarts m img used c pos slack t

/-- The core cycles of the start delay (R178, R238). -/
def delayCycles (c : Nat) : Nat := ceilDiv (16384 * c) tickStu

/-- The cycles of a tick of `c` that the runs of an engine leave (R471). -/
def spareCycles (c : Nat) (l : List PlanRun) : Nat := c - delayCycles c - sumN (l.map (·.cost))

/-- The run list of an engine in tick `k` of `c` cycles, for the contexts `l`, beside the hauls of the engines before it. -/
def State.engineRuns (s : State) (m : List (StoreObj × Nat)) (used : List BankUse) (l : List (Nat × ContextS)) (k c e : Nat) : List PlanRun × State :=
  let mine := (l.filter (fun p => p.2.home == e)).flatMap (fun p => p.2.planRuns p.1 k)
  let (o, s1) := s.shuffle mine
  s1.setStarts m (fun n => ((getIdx l n).getD {}).img) used c (delayCycles c) (spareCycles c mine) o

/-! ## The wind-up fill (R470, R471) -/

/-- SCRUBP (R472). -/
def State.scrubP (s : State) : Nat := Nat.max 10 (s.fget Reg.SNP_WUCFG_SCRUBP)

/-- SELFTP (R473). -/
def State.selfP (s : State) : Nat := Nat.max 10 (s.fget Reg.SNP_WUCFG_SELFTP)

/-- The period of a wind-up class in seconds: FST_SCRUB.PERIOD, CAL_CFG1.MAXAGE, SCRUBP, SELFTP, the second of a record, the minute of a checkpoint. -/
def State.wuPeriod (s : State) (k : Nat) : Nat :=
  [3600 * Nat.max 24 (s.fget Reg.FST_SCRUB_PERIOD), Nat.max 60 (s.fget Reg.CAL_CFG1_MAXAGE), s.scrubP, s.selfP, 1, 60].getD k 1

/-- The stu by which a class is due: its last completion and its period. -/
def State.wuDue (s : State) (k : Nat) : Nat := s.snp.lastDone.getD k 0 + s.wuPeriod k * secStu

/-- A list in the order of a key; equals keep their order. -/
def sortBy (key : Nat → Nat) (l : List Nat) : List Nat := l.foldl (fun a k => insBy key k a) []

/-- The classes in the order in which wind-up work fills what the plan for the contexts `l` leaves (R471): the escalated ones by the stu of their escalation, then, at
G0 in full and at G1 as far as the limit allows (R276), the others, the furthest behind its period first. From G2 on only escalated work is planned (DEDUCED, log
entry 83). -/
def State.fillOrder (s : State) (l : List (Nat × ContextS)) (slot : Nat) : List Nat :=
  let since := fun k => s.snp.escSince.getD k none
  let (esc, rest) := (List.range 6).partition (fun k => (since k).isSome)
  let g := s.fget Reg.LDG_STAT_NEXT
  let others := sortBy s.wuDue rest
  let most := s.fget Reg.LDG_LIMIT_L - s.wAt g l slot s.freq
  let fits := (others.foldl (fun (a : List Nat × Nat) k =>
    let w := a.2 + Config.windUpEnergy k
    if w ≤ most then (a.1 ++ [k], w) else (a.1, most + 1)) ([], 0)).1
  sortBy (fun k => (since k).getD 0) esc ++ (if g = 0 then others else if g = 1 then fits else [])

/-- A unit's known-answer test is due at stu `u` (R473, R484), or it is under release test (R263); in G5 only the G5 engine and, where the plan for the contexts `l` uses
them, the finder and the crypto unit are tested. -/
def State.testDue (s : State) (l : List (Nat × ContextS)) (slot u i : Nat) : Bool :=
  let g5 := s.fget Reg.LDG_STAT_NEXT == 5
  let up := if i = 18 then s.fget Reg.FLT_STAT_WDA == 1 || s.fget Reg.FLT_STAT_WDB == 1 else (s.unitAt i).st == 0
  let on := !g5 || i == s.g5Engine || (i == 16 && s.usesKind l slot 4) || (i == 17 && s.usesKind l slot 5)
  (i != 18 && (s.unitAt i).st == 3) || (up && on && decide (s.snp.lastTest.getD i 0 + s.selfP * secStu ≤ u))

/-- The wind-up tasks of a class for tick `k` (R470): a test of each unit that is due, of 6,000 engine or 4,000 unit cycles (R473); each estimate whose time has come on one
engine, for a number of cycles that no rule states (free); for the other classes one task, which takes no engine and no unit. -/
def State.classTasks (s : State) (l : List (Nat × ContextS)) (k cls : Nat) : List WuTask × State :=
  if cls = 3 then
    (((List.range 19).filter (fun i => s.testDue l (k % 3000) (k * tickStu) i)).map (fun i =>
      { cls := 3, unit := some i, cycles := if i < 8 then 6000 else if i < 18 then 4000 else 0 }), s)
  else if cls = 1 then
    (s.cal.ests.filter (fun e => e.due.isSome)).foldl (fun (a : List WuTask × State) _ =>
      let (f, y) := a.2.free1
      let (g, z) := y.free1
      (a.1 ++ [{ cls := 1, unit := some (s.healthy.getD (f % Nat.max 1 s.healthy.length) 0), cycles := g }], z)) ([], s)
  else ([{ cls := cls }], s)

/-- Tasks in order, each where its unit has the cycles left; one that does not fit waits for a later tick (R471). -/
def placeTasks (spare : List Nat) : List WuTask → List WuTask
  | [] => []
  | t :: l => match t.unit with
    | none => t :: placeTasks spare l
    | some u =>
      if t.cycles ≤ spare.getD u 0 then t :: placeTasks (modifyAt spare u (fun c => c - t.cycles)) l else placeTasks spare l

/-- The cycles that tick `k` of `c` leaves on each unit: those of the engines are given, and of an accelerator unit its charges and reserve are off (R244, R471). -/
def State.unitSpare (s : State) (l : List (Nat × ContextS)) (engs : List Nat) (k c : Nat) : List Nat :=
  engs ++ (List.range 10).map (fun u => c - (accLoad l u (k % 3000) + s.accReserve l (unitKind u) c))

/-! ## The items -/

/-- The items of a plan for tick `k` of `c` cycles that runs the contexts `l` (R237). -/
def State.planItems (s : State) (l : List (Nat × ContextS)) (chains : List Nat) (k c : Nat) (ramp : Bool) : TickPlan × State :=
  let m := (storeMap s.objBanks s.storeObjs).getD []
  let r := (List.range 8).foldl (fun (a : List (List PlanRun) × State) e =>
    let b := a.2.engineRuns m (a.1.flatten.flatMap (·.hauls)) l k c e
    (a.1 ++ [b.1], b.2)) (([], s) : List (List PlanRun) × State)
  let t := (s.fillOrder l (k % 3000)).foldl (fun (a : List WuTask × State) cls =>
    let b := a.2.classTasks l k cls
    (a.1 ++ b.1, b.2)) ([], r.2)
  let spare := s.unitSpare l (r.1.map (spareCycles c)) k c
  ({ runs := r.1, units := l.map (fun p => (p.1, p.2.units)), chains := chains, fill := placeTasks spare t.1, spare := spare
     cycles := c, ramp := ramp }, t.2)

/-! ## The plan in force -/

/-- The items the sequencer carries out in the present tick (R74). -/
def State.planNow (s : State) : TickPlan := if s.flag Reg.SEQ_STAT_SAFEPLAN then s.seq.nowSafe else s.seq.now

/-- A start offset in stu, at the rate of the present tick; not before offset 16,384 (R178). -/
def State.startStu (s : State) (cyc : Nat) : Nat := Nat.max 16384 (ceilDiv (cyc * tickStu) (Nat.max 1 (s.rget Reg.CCS_TICKCYC).toNat))

/-- The start offsets of the SAME slots of a context's handler, in order (R188, R202). -/
def State.slotsOf (s : State) (n kind : Nat) : List Nat :=
  (((s.planNow.runs.getD (s.engineOf n) []).filter (fun r => r.ctx == n && r.slot == some kind))).map (fun r => s.startStu r.start)

/-- CTX_CUESLOT shows the SAME slots of the tick (R188, R202). -/
def State.placeSlots (s : State) : State :=
  s.openCtxs.foldl (fun (y : State) n =>
    (List.range 7).foldl (fun (z : State) k =>
      (List.range 4).foldl (fun (w : State) j => w.rsetN (Reg.CTX_CUESLOT n k j) ((s.slotsOf n k).getD j 4294967295)) z) y) s

/-- The main run of a context in the run list in force (R237), which a repeated tick runs again as it stands (R19, R266). -/
def State.mainRun (s : State) (n : Nat) : Option PlanRun := (s.planNow.runs.getD (s.engineOf n) []).find? (fun r => r.ctx == n && r.slot == none)

/-- The plan in force has the main run of a context start now: at its offset, or as the run before it on the engine ends where that offset has passed. -/
def State.mainListed (s : State) (n : Nat) : Bool :=
  match s.mainRun n with
  | none => false
  | some r => s.startStu r.start == s.offset || (decide (s.startStu r.start < s.offset) && s.seq.freed.getD (s.engineOf n) 0 == s.now)

/-- The plan in force runs a context's body in this tick. -/
def State.bodyListed (s : State) (n : Nat) : Bool := ((s.mainRun n).map (·.body)).getD false

/-! ## Start of a run (R169, R178) -/

/-- A run may start now (R178, R74, R188, R237, R487): not before offset 16,384 of the tick, one main run a tick where the plan in force has it start now, only P0
work under the safe plan, and a SAME handler at one of its slots. -/
def State.mayStart (s : State) (n : Nat) (slot : Option Nat) : Bool :=
  let x := s.ctx n
  s.up && x.mode == .running && (s.flt.restart.isNone || s.flt.restartStep == 0) && decide (16384 ≤ s.offset) && (s.run (s.engineOf n)).isNone &&
  (!s.flag Reg.SEQ_STAT_SAFEPLAN || x.prio == 0) &&
  (match slot with
    | none => x.lastRun != some s.time.tick && s.mainListed n
    | some k => (List.range 4).any (fun j => (s.rget (Reg.CTX_CUESLOT n k j)).toNat == s.offset))

/-- RUN_START (R169, R178, R262): of a context's main run, or of a slot of its SAME handler of kind `slot`, at stu `t`, on an engine that runs
nothing. -/
def execRunStart (n : Fin 256) (slot : Option (Fin 7)) (t : Nat) (s : State) : Host.Outcome State Fault Refusal :=
  .next (
    let s1 := s.at t
    if s1.mayStart n (slot.map (·.val)) then s1.startRun n (slot.map (·.val)) (s1.bodyListed n) else s1)

end Sys2Proof.Machine
end

