-- ==== Sys2Proof/Machine/Seq.lean ====
section
/-!
DEFINITION. The planner and the tick sequencer (R19, R74, R188, R237, R250 to R252, R258, R259, R261, R263 to R265): the plan handed over for the next
tick, and what it does at the boundary.
-/

namespace Sys2Proof.Machine

/-- The sequencer's state changed. -/
def State.seqMod (s : State) (f : SeqS → SeqS) : State := { s with seq := f s.seq }

/-! ## The plan for the next tick -/

/-- The engines and units as the plan for tick `k` sees them (R26): those whose failure was known by the cut-off are out. -/
def State.planView (s : State) (k : Nat) : State :=
  let out := fun (u : UnitS) => if u.failed ∧ (u.knownTick.getD 0) < k then { u with st := 2 } else u
  s.seqMod (fun q => { q with engs := q.engs.map out, accs := q.accs.map out })

/-- The contexts that can run in tick `k`: open or opening by then, not closing, not tripped. -/
def State.planSet (s : State) (k : Nat) : List (Nat × ContextS) :=
  (s.admittedBy k).filter (fun p => p.2.mode != .tripped && !s.closesBy p.1 k && !s.opensAfter p.1 k)

/-- The P0 contexts of healthy engines in a list. -/
def homedP0 (v : State) (l : List (Nat × ContextS)) : List (Nat × ContextS) := (p0Of l).filter (fun p => v.engHealthy p.2.home)

/-- P0 contexts whose engine is out take new homes in ascending number: the spare first, then any engine on which R246 holds; the rest from the first that
does not fit on (R247). -/
def rehomeP0 (v : State) (all : List (Nat × ContextS)) (spare : Option Nat) :
    List (Nat × ContextS) → List (Nat × ContextS) → List (Nat × ContextS) × List Nat
  | [], done => (done, [])
  | p :: t, done =>
    let engines := (spare.map (fun e => [e])).getD [] ++ v.healthy
    match engines.find? (fun e => v.fitsAll all (done ++ [(p.1, { p.2 with home := e })]) safeE) with
    | some e => rehomeP0 v all spare t (done ++ [(p.1, { p.2 with home := e })])
    | none => (done, (p :: t).map (·.1))

/-- Too few engines for all P0 contexts (R252): they are placed in ascending number, each on its engine where that is healthy and R246 holds on it, else
on any on which it holds; from the first that does not fit on, they are shed. -/
def placeP0 (v : State) (all : List (Nat × ContextS)) :
    List (Nat × ContextS) → List (Nat × ContextS) → List (Nat × ContextS) × List Nat
  | [], done => (done, [])
  | p :: t, done =>
    let engines := (if v.engHealthy p.2.home then [p.2.home] else []) ++ v.healthy
    match engines.find? (fun e => v.fitsAll all (done ++ [(p.1, { p.2 with home := e })]) safeE) with
    | some e => placeP0 v all t (done ++ [(p.1, { p.2 with home := e })])
    | none => (done, (p :: t).map (·.1))

/-- The P0 contexts of an engine take other homes in ascending number, each on the first engine on which R246 holds, so that the engine becomes the spare; none
where one of them fits nowhere. -/
def clearP0 (v : State) (all : List (Nat × ContextS)) (e : Nat) : List (Nat × ContextS) → List (Nat × ContextS) → Option (List (Nat × ContextS))
  | [], done => some done
  | p :: t, done =>
    match (v.healthy.filter (· != e)).find? (fun k => v.fitsAll all (done ++ [(p.1, { p.2 with home := k })]) safeE) with
    | some k => clearP0 v all e t (done ++ [(p.1, { p.2 with home := k })])
    | none => none

/-- Where a spare is to be kept and every healthy engine carries P0 work, the P0 contexts of the highest-numbered engine that the others can take over move off
it (R247, R258). -/
def freeSpare (v : State) (all p0 : List (Nat × ContextS)) : List (Nat × ContextS) :=
  if v.flag Reg.SEQ_CTRL_P0_SPARE && decide (2 ≤ v.healthy.length) && v.fget Reg.TOP_DOMAIN_GRADE != 5 && (v.spareOf p0).isNone then
    (v.healthy.reverse.findSome? (fun e =>
      clearP0 v all e (p0.filter (fun p => p.2.home == e)) (p0.filter (fun p => p.2.home != e)))).getD p0
  else p0

/-- A unit of a kind that is healthy. -/
def State.goodUnit (v : State) (kind : Nat) : Option Nat := (List.range 2).find? (fun i => (unitsOf kind).contains (unitOf kind i) && v.accHealthy (unitOf kind i))

/-- A context's units with failed ones replaced where the kind has another (R264). -/
def State.reUnit (v : State) (x : ContextS) : ContextS :=
  { x with units := (List.range 6).map (fun k =>
      if v.accHealthy (x.unit k) then x.units.getD k 0 else (v.goodUnit k).getD (x.units.getD k 0)) }

/-- A kind that an image declares has no healthy unit (R264). -/
def State.lacksUnit (v : State) (x : ContextS) : Bool :=
  (List.range 6).any (fun k => decide (0 < (x.img.jobs.getD k (0, 0)).1) && !v.accHealthy (x.unit k))

/-- Every other context whose engine is out takes a new home: which engine that has room is open; with none that has, one that is healthy (R261). -/
def State.rehome (s v : State) (e : Nat) : List (Nat × ContextS) → List (Nat × ContextS) → List (Nat × ContextS) × State
  | [], done => (done, s)
  | p :: t, done =>
    let (f, s1) := s.free1
    let room := v.healthy.filter (fun k => v.engFits (done ++ t ++ [(p.1, { p.2 with home := k })]) e)
    let l := if room.isEmpty then v.healthy else room
    s1.rehome v e t (done ++ [(p.1, { p.2 with home := l.getD (f % Nat.max 1 l.length) p.2.home })])

/-- One move for balance or heat (R258): which context moves to which engine, or its jobs of which paired kind to the kind's other unit, is open; it moves only
where every budget still holds on healthy engines and units, and P0 work only where R246 and R247 do. -/
def State.moveOne (v : State) (e f g : Nat) (l : List (Nat × ContextS)) : List (Nat × ContextS) :=
  match l[f % Nat.max 1 l.length]? with
  | none => l
  | some p =>
    let k := g % (v.healthy.length + 4)
    let moved := fun (x : ContextS) => if k < v.healthy.length then { x with home := v.healthy.getD k x.home }
      else { x with units := modifyAt x.units (k - v.healthy.length) (fun u => 1 - u % 2) }
    let m := l.map (fun q => if q.1 = p.1 then (q.1, moved q.2) else q)
    if v.fitsAll m m e && !m.any (fun q => v.lacksUnit q.2 && !v.lacksUnit p.2) && (p.2.prio != 0 || v.safeFits m) then m else l

/-- The half of the engines an engine lies in (R273). -/
def engHalf (e : Nat) : Nat := e / 4

/-- One move for heat (R258, R287): which context of the hotter half moves, and to which engine of the other, is open; it moves only where every budget still holds, and P0
work only where R246 and R247 do. -/
def State.moveCool (v : State) (e f g hot : Nat) (l : List (Nat × ContextS)) : List (Nat × ContextS) :=
  let src := l.filter (fun p => engHalf p.2.home == hot)
  let dst := v.healthy.filter (fun k => engHalf k != hot)
  match src[f % Nat.max 1 src.length]?, dst[g % Nat.max 1 dst.length]? with
  | some p, some k =>
    let m := l.map (fun q => if q.1 = p.1 then (q.1, { q.2 with home := k }) else q)
    if v.fitsAll m m e && (p.2.prio != 0 || v.safeFits m) then m else l
  | _, _ => l

/-- The moves of one boundary for balance or heat: at most MOVEMAX, and only while REBAL is 1 (R258); while the ledger asks for moves off the hotter half, they are moves off
it (R287). -/
def State.rebalance (s v : State) (e : Nat) (l : List (Nat × ContextS)) : List (Nat × ContextS) × State :=
  if !s.flag Reg.SEQ_CTRL_REBAL then (l, s) else
  let (n, s1) := s.free1
  (List.range (n % (zeroAs1 (s.fget Reg.SEQ_CTRL_MOVEMAX) + 1))).foldl (fun (a : List (Nat × ContextS) × State) _ =>
    let (f, y) := a.2.free1
    let (g, z) := y.free1
    ((match s.ldg.hot with
      | some h => v.moveCool e f g h a.1
      | none => v.moveOne e f g a.1), z)) (l, s1)

/-- Contexts shed one at a time, the first of the list first, until the rest fits (R250); P0 work stays (R252). -/
def shedUntil (v : State) (e : Nat) : List (Nat × ContextS) → List (Nat × ContextS) → List Nat → List (Nat × ContextS) × List Nat
  | [], l, out => (l, out)
  | p :: t, l, out =>
    if v.fitsAll l l e || p.2.prio == 0 then (l, out)
    else shedUntil v e t (l.filter (fun q => q.1 != p.1)) (out ++ [p.1])

/-- Contexts shed before return in keep order, each where it fits with those that run (R251). -/
def returnWhile (v : State) (e : Nat) : List (Nat × ContextS) → List (Nat × ContextS) → List Nat → List Nat
  | [], _, back => back
  | p :: t, l, back =>
    let l1 := if l.any (fun q => q.1 == p.1) then l else l ++ [p]
    if v.fitsAll l1 l1 e then returnWhile v e t l1 (back ++ [p.1]) else returnWhile v e t l back

/-- P0 contexts that R252 shed return in ascending number, each where R246 still holds with it: on its own engine where that is healthy, else on any (R251, R252);
the others stay shed. -/
def returnP0 (v : State) (all : List (Nat × ContextS)) :
    List (Nat × ContextS) → List (Nat × ContextS) → List Nat → List (Nat × ContextS) × List Nat
  | [], done, back => (done, back)
  | p :: t, done, back =>
    let engines := (if v.engHealthy p.2.home then [p.2.home] else []) ++ v.healthy
    match engines.find? (fun e => v.fitsAll all (done ++ [(p.1, { p.2 with home := e })]) safeE) with
    | some e => returnP0 v all t (done ++ [(p.1, { p.2 with home := e })]) (back ++ [p.1])
    | none => returnP0 v all t done back

/-- The plan for tick `k`, with the safe plan beside it (R74, R237, R250 to R252, R261, R264). -/
def State.buildPlan (s : State) (k : Nat) : PlanS × State :=
  let v := s.planView k
  let e := commit (s.rget Reg.CCS_NEXTCYC).toNat
  let all := s.planSet k
  let (gone, live) := all.partition (fun p => p.2.prio == 0 && p.2.shedFit)
  let (orphans, kept) := live.partition (fun p => !v.engHealthy p.2.home)
  let (p0a, unplaced) := rehomeP0 v live (v.spareOf kept) (p0Of orphans) (homedP0 v kept)
  let (p0b, p0out) := if unplaced.isEmpty then (freeSpare v live p0a, []) else placeP0 v live (p0Of live) []
  let (p0, p0back) := returnP0 v all gone p0b []
  let (rest, s1) := s.rehome v e (orphans.filter (fun p => p.2.prio != 0)) (kept.filter (fun p => p.2.prio != 0) ++ p0)
  let (placed, s2) := s1.rebalance v e (rest.map (fun p => (p.1, v.reUnit p.2)))
  let accOut := (all.filter (fun p => v.lacksUnit (v.reUnit p.2))).map (·.1)
  let may := placed.filter (fun p => !s.ldg.shedNext.contains p.1 && !accOut.contains p.1)
  let order := s.keepOrder k (s.rget Reg.CCS_NEXTCYC).toNat may
  let running := order.filter (fun p => !p.2.shedFit)
  let (left, shed) := shedUntil v e running.reverse running []
  let back := returnWhile v e (order.filter (fun p => p.2.shedFit && (p.2.prio != 0 || p0back.contains p.1))) left []
  let out := fun (l : List UnitS) (w : List UnitS) => (List.range l.length).filter (fun i =>
    (l.getD i {}).failed && (l.getD i {}).st != 2 && (w.getD i {}).st == 2)
  let was := fun (n : Nat) => (getIdx all n).getD {}
  let stay := left ++ (order.filter (·.2.shedFit)).filter (fun p => back.contains p.1)
  let runs := if s.fget Reg.LDG_STAT_NEXT = 5 then stay.map (fun p => (p.1, { p.2 with home := v.g5Engine })) else stay
  let chains := distinct ((runs ++ p0Of all).map (·.1))
  let (items, s3) := s2.planItems runs chains k (s.rget Reg.CCS_NEXTCYC).toNat (s.nextSeg (s.clk.ccs.upTo 12800).1).isSome
  let (safe, s4) := s3.planItems (p0Of runs) ((p0Of all).map (·.1)) k safeCpt false
  ({ tick := k, items := items, safe := safe, shed := shed, p0shed := p0out, back := back
     homes := placed.filterMap (fun p => if (was p.1).home = p.2.home then none else some (p.1, p.2.home))
     units := (placed.map (fun p => (List.range 6).filterMap (fun j =>
       if (was p.1).units.getD j 0 = p.2.units.getD j 0 then none else some (p.1, j, p.2.units.getD j 0)))).flatten
     outEngs := out s.seq.engs v.seq.engs, outAccs := out s.seq.accs v.seq.accs, accShed := accOut }, s4)

/-- PLAN_READY (R17): the checked plan for the next tick is handed over; it needs an active warden (R482). LDG_PLAN is that of the contexts it runs (R250, R282). -/
def execPlanReady (t : Nat) (s : State) : Host.Outcome State Fault Refusal :=
  .next (
    let s1 := s.at t
    if !s1.wardenUp || s1.offset ≤ cutoff then s1 else
    let (p, s2) := s1.buildPlan (s1.time.tick + 1)
    (s2.seqMod (fun q => { q with plan := some p })).replan (p.shed ++ p.p0shed) p.back)

/-! ## The boundary -/

/-- Under the safe plan the spare, which carries no P0 work, takes the run list of a fenced engine (R266). -/
def State.safeSpare (s : State) : State :=
  if !s.flag Reg.SEQ_STAT_SAFEPLAN then s else
  match s.safeOut, s.spareOf s.admitted with
  | some e, some k => s.seqMod (fun q => { q with nowSafe := { q.nowSafe with
      runs := modifyAt (modifyAt q.nowSafe.runs k (fun _ => q.nowSafe.runs.getD e [])) e (fun _ => []) } })
  | _, _ => s

/-- A run still executing at the boundary is cut (R265). -/
def State.cutRuns (s : State) : State :=
  (List.range 8).foldl (fun (y : State) e => match y.run e with
    | none => y
    | some r =>
      let cause := if y.coreSafe && !y.seq.wasSafe then 1 else 0
      let y1 := ((y.cutRun e 65536).bump (whole Reg.SEQ_OVRCNT)).rset Reg.SEQ_OVRLAST (putField (putField 0 31 24 cause) 7 0 r.ctx)
      ((y1.rset64 Reg.SEQ_OVR_STU_LO y.now).evt Reg.SEQ_EVT_OVERRUN).fault 0x0004 255 r.ctx 0) s

/-- One unit at the boundary: a failed one is quarantined by the plan that leaves it out, and fenced until then (R261); one that has passed three release
tests is healthy again (R263). -/
def UnitS.boundary (u : UnitS) (out : Bool) : UnitS :=
  if u.failed then { u with st := if out then 2 else if u.st = 0 then 1 else u.st, failed := !out }
  else if u.st = 3 ∧ 3 ≤ u.passes then {}
  else u

/-- The fences of the boundary, with the events of quarantine and release; ACC_LOST where the last healthy unit of a kind is quarantined (R264). -/
def State.fences (s : State) (p : Option PlanS) : State :=
  let oe := (p.map (·.outEngs)).getD []
  let oa := (p.map (·.outAccs)).getD []
  let step := fun (l : List UnitS) (o : List Nat) => (List.range l.length).map (fun i => (l.getD i {}).boundary (o.contains i))
  let freed := (s.seq.engs ++ s.seq.accs).any (fun u => u.st == 3 && decide (3 ≤ u.passes))
  let s1 := s.seqMod (fun q => { q with engs := step q.engs oe, accs := step q.accs oa })
  let s2 := if oe.isEmpty then s1 else s1.evt Reg.SEQ_EVT_QUAR_ENG
  let s3 := if oa.isEmpty then s2 else s2.evt Reg.SEQ_EVT_QUAR_ACC
  let s4 := if oa.any (fun u => (unitsOf (unitKind u)).all (fun w => !s3.accHealthy w)) then s3.evt Reg.SEQ_EVT_ACC_LOST else s3
  if freed then s4.evt Reg.SEQ_EVT_UNQ_DONE else s4

/-- The homes, units and sheds of a plan come into force (R250 to R252, R259, R264). -/
def State.applyPlan (s : State) (p : PlanS) : State :=
  let s1 := p.homes.foldl (fun (y : State) h => (y.ctxMod h.1 (fun x => { x with home := h.2 })).bump (whole Reg.SEQ_MOVES)) s
  let s2 := p.units.foldl (fun (y : State) u => y.ctxMod u.1 (fun x => { x with units := modifyAt x.units u.2.1 (fun _ => u.2.2) })) s1
  let s3 := (p.shed ++ p.p0shed).foldl (fun (y : State) n => y.ctxMod n (fun x => { x with shedFit := true })) s2
  let s4 := p.back.foldl (fun (y : State) n => y.ctxMod n (fun x => { x with shedFit := false })) s3
  let s5 := s4.openCtxs.foldl (fun (y : State) n => y.ctxMod n (fun x => { x with shedAcc := p.accShed.contains n })) s4
  let s6 := if p.shed.isEmpty then s5 else s5.evt Reg.SEQ_EVT_SHED_FIT
  p.p0shed.foldl (fun (y : State) n => (y.evt Reg.SEQ_EVT_P0_SHED).fault 0x2005 255 n 0) s6

/-- NEXT events of the tick that has ended may run from now on (R188). -/
def State.joinCues (s : State) : State :=
  s.openCtxs.foldl (fun (y : State) n =>
    y.ctxMod n (fun x => { x with
      cues := (List.range 7).map (fun k => (x.cues.getD k {}).join k (x.fresh.getD k {})), fresh := List.replicate 7 {} })) s

/-! ## Release and self-tests -/

/-- SEQ_CTRL.UNQ (R263, R264): the quarantined units named are tested; healthy ones are ignored (R266). -/
def State.unq (s : State) (eng acc : Nat) : State :=
  let step := fun (l : List UnitS) (m : Nat) => (List.range l.length).map (fun i =>
    let u := l.getD i {}
    if bitOf m i && u.st == 2 then { u with st := 3, passes := 0 } else u)
  (s.seqMod (fun q => { q with engs := step q.engs eng, accs := step q.accs acc })).showSeq

/-- One release test of a unit under test (R263). -/
def UnitS.tested (u : UnitS) (pass : Bool) : UnitS := if pass then { u with passes := u.passes + 1 } else { u with st := 2, passes := 0 }

/-- A self-test of a unit that the plan in force places (R471, R473). -/
def State.testPlanned (s : State) (i : Nat) : Bool := s.planNow.fill.any (fun t => t.cls == 3 && t.unit == some i)

/-- A planned self-test of a unit has been made at the present stu: it is off the plan, and class 3 has completed work. -/
def State.testDone (s : State) (i : Nat) : State :=
  let off := fun (p : TickPlan) => { p with fill := p.fill.filter (fun t => !(t.cls == 3 && t.unit == some i)) }
  (({ s with snp := { s.snp with lastTest := modifyAt s.snp.lastTest i (fun _ => s.now) } } : State).seqMod (fun q =>
    { q with now := off q.now, nowSafe := off q.nowSafe })).wuDone 3

/-- KNOWN_ANSWER_TEST (R260, R263, R264, R473): the self-test of engine `u` below 8, or of accelerator unit `u` - 8, ends at `t`: one that the plan in force places, on an
engine that runs nothing (R471). -/
def execKnownAnswerTest (u : Fin 18) (pass : Bool) (t : Nat) (s : State) : Host.Outcome State Fault Refusal :=
  .next (
    let s1 := s.at t
    if !s1.up || !s1.testPlanned u.val || (decide (u.val < 8) && (s1.run u.val).isSome) then s1 else
    let s2 := s1.testDone u.val
    if (s2.unitAt u.val).st = 3 then
      let s3 := s2.seqMod (fun q => if u.val < 8 then { q with engs := modifyAt q.engs u.val (·.tested pass) }
        else { q with accs := modifyAt q.accs (u.val - 8) (·.tested pass) })
      (if pass then s3 else s3.evt Reg.SEQ_EVT_UNQ_FAIL).showSeq
    else if pass then s2
    else if u.val < 8 then s2.engineFail u.val else s2.unitFail (u.val - 8))

end Sys2Proof.Machine
end

