-- ==== Sys2Proof/Machine/Snap.lean ====
section
/-!
DEFINITION. Snapshots, raw capture, telemetry and the wind-up classes (chapter 18).
-/

namespace Sys2Proof.Machine

/-- The state with the snapshot block's internal state changed. -/
def State.snpMod (s : State) (f : SnapS → SnapS) : State := { s with snp := f s.snp }

/-! ## Raw capture (R466 to R469) -/

/-- The samples, clips and notes of the raw buffer are gone; a recording that goes on keeps its notes. -/
def State.rawDrop (s : State) : State := s.snpMod (fun x => { x with rawCodes := [[], []], rawClips := [[], []], rawBad := [] })

/-- Recording begins at the present stu where it was off (R466). -/
def State.rawStart (s : State) : State :=
  if s.flag Reg.SNP_STAT_RAWON then s
  else (s.fsetB Reg.SNP_STAT_RAWON true).snpMod (fun x => { x with rawFrom := some s.now, rawNotes := [] })

/-- The held snapshot is released (R464): the latch is free, its raw part is gone, and the buffer records again where it is reserved. -/
def State.snapRelease (s : State) : State :=
  let s1 := (((s.fsetB Reg.SNP_STAT_HELD false).fsetB Reg.SNP_STAT_RELPEND false).fsetB Reg.SNP_STAT_RAWDONE false).rawDrop
  if s.snp.rawHeld then s1.rawStart else s1

/-- SNP_CTRL.RAWEN at its boundary (R466, R253). A release that awaits the capture of a buffer now freed takes effect here
(DESIGN CHOICE, log entry 33). -/
def State.rawBoundary (s : State) (en : Bool) : State :=
  if en then
    if s.snp.rawHeld then s
    else if !(s.snpMod (fun x => { x with rawHeld := true })).storeHolds [] then (s.fsetB Reg.SNP_CTRL_RAWEN false).evt Reg.SNP_EVT_RAWREF
    else
      let s1 := s.snpMod (fun x => { x with rawHeld := true })
      if s.flag Reg.SNP_STAT_HELD then s1 else s1.rawStart
  else
    let s1 := ((s.snpMod (fun x => { x with rawHeld := false, rawFrom := none, rawNotes := [] })).fsetB Reg.SNP_STAT_RAWON
      false).rawDrop
    let s2 := s1.fsetB Reg.SNP_STAT_RAWDONE false
    if s.flag Reg.SNP_STAT_RELPEND then s2.snapRelease else s2

/-- The stu at which the capture of the held snapshot completes (R467). -/
def State.rawEnd (s : State) : Nat := s.rget64 Reg.SNP_RAWFIRST_LO + 6144000

/-- RAW_DONE (R467): the capture completes. The operands are what the converters wrote: codes and clips by sample index. At the
capture's end a last note per converter holds the levels. -/
def execRawDone (wa wb : List (Nat × BitVec 12)) (clipsA clipsB : List Nat) (s : State) : Host.Outcome State Fault Refusal :=
  .next (
    if s.flag Reg.SNP_STAT_HELD && s.flag Reg.SNP_STAT_RAWON then
      let s1 := s.at s.rawEnd
      let s2 := [0, 1].foldl (fun (x : State) c =>
        let l := x.rawLevel c
        x.rawNote { stu := s.rawEnd, conv := c, gain := (l.1, l.1), void := (l.2, l.2) }) s1
      let s3 := s2.snpMod (fun x => { x with
        rawCodes := [wa.map (fun p => (p.1, p.2.toNat)), wb.map (fun p => (p.1, p.2.toNat))], rawClips := [clipsA, clipsB] })
      let s4 := ((s3.fsetB Reg.SNP_STAT_RAWDONE true).evt Reg.SNP_EVT_RAWDONE).fsetB Reg.SNP_STAT_RAWON false
      if s.flag Reg.SNP_STAT_RELPEND then s4.snapRelease else s4
    else s)

/-- The notes of one converter after a label, oldest first: the first one's old levels hold up to it. -/
def SnapS.notesAfter (x : SnapS) (c l : Nat) : List RawNote :=
  x.rawNotes.filter (fun n => n.conv == c && decide (l < n.stu) && !n.skip)

/-- A converter's gain step and void at a label of the recording. -/
def SnapS.rawAt (x : SnapS) (c l : Nat) : Nat × Bool :=
  match x.notesAfter c l with
  | n :: _ => (n.gain.1, n.void.1)
  | [] => (0, false)

/-- The label of sample `i` of the capture (R467, R118): the samples stay contiguous across a STEP skip in the window, and their labels run on after it. -/
def State.rawLabel (s : State) (i : Nat) : Nat :=
  let t0 := s.rget64 Reg.SNP_RAWFIRST_LO
  s.snp.rawNotes.foldl (fun l n => if n.skip && decide (t0 < n.stu) && decide (n.stu - n.len ≤ l) then l + (n.stu - Nat.max t0 (n.stu - n.len)) else l) (t0 + i)

/-- The block-map byte of block `b` of a converter (R468). -/
def State.mapByte (s : State) (c b : Nat) : Nat :=
  let x := s.snp
  let first := s.rawLabel (512 * b)
  let last := s.rawLabel (512 * b + 511)
  let mine := x.rawNotes.filter (fun n => n.conv == c && decide (first < n.stu) && decide (n.stu ≤ last))
  let step := mine.any (fun n => n.gain.1 != n.gain.2)
  let void := (x.rawAt c first).2 || mine.any (fun n => n.void.1 || n.void.2)
  let clip := (x.rawClips.getD c []).any (fun i => i / 512 == b)
  let lost := decide (first < x.rawFrom.getD 0)
  let skip := x.rawNotes.any (fun n => n.skip && decide (s.rget64 Reg.SNP_RAWFIRST_LO < n.stu) && decide (first ≤ n.stu) && decide (n.stu ≤ last))
  (x.rawAt c first).1 % 8 + 8 * b2n step + 16 * b2n void + 32 * b2n clip + 64 * b2n lost + 128 * b2n skip

/-- The code of sample `i` of a converter: a void or unrecorded sample reads 0 (R468), and one that a STEP skip has put past the capture's end. -/
def State.rawCode (s : State) (c i : Nat) : Nat :=
  let l := s.rawLabel i
  if (s.snp.rawAt c l).2 || decide (l < s.snp.rawFrom.getD 0) || decide (s.rawEnd ≤ l) then 0
  else (getIdx (s.snp.rawCodes.getD c []) i).getD 0

/-- A byte of the raw buffer (R467); a word in which an uncorrectable error has been met reads 0 (R480). -/
def State.rawByte (s : State) (o : Nat) : Nat :=
  if !s.flag Reg.SNP_STAT_RAWDONE || decide (18468000 ≤ o) || s.snp.rawBad.contains (o / 64) then 0 else
  let c := o / 9228000
  let q := o % 9228000
  if 9216000 ≤ q then s.mapByte c (q - 9216000)
  else
    let two := s.rawCode c (2 * (q / 3)) + 4096 * s.rawCode c (2 * (q / 3) + 1)
    two / 256 ^ (q % 3) % 256

/-- A word of the raw window at SNP offset 0x8000 + `o` (R469). -/
def State.rawWindow (s : State) (o : Nat) : Word :=
  let a := 32768 * s.fget Reg.SNP_RAWSEL_PAGE + o
  BitVec.ofNat 32 (ofLe ((List.range 4).map (fun i => BitVec.ofNat 8 (s.rawByte (a + i)))))

/-! ## Triggers by hand -/

/-- SNAP_EDGE (R458): a rising edge on SNAP while PINEN is 1. -/
def execSnapEdge (t : Nat) (s : State) : Host.Outcome State Fault Refusal :=
  .next (
    let s1 := s.at t
    if s1.flag Reg.SNP_CTRL_PINEN && s1.up then s1.snapTrigger 0 255 s1.stamp else s1)

/-- A write of SNP_CTRL by the owner: FIRE triggers (R458), a changed RAWEN is a request (R466). -/
def State.wrSnpCtrl (s : State) (v : Word) : State :=
  let s1 := s.wr Reg.SNP_CTRL v
  let s2 := if bitOf v.toNat 31 then s1.snapTrigger 1 255 s1.stamp else s1
  if bitOf v.toNat 8 = s.flag Reg.SNP_CTRL_RAWEN then s2 else s2.request 0 (.reg Reg.SNP_CTRL v)

/-- A word with one bit set or cleared. -/
def withBit (v : Word) (n : Nat) (b : Bool) : Word := putField v n n (b2n b)

/-! ## Telemetry (R474) -/

/-- The records gathered and not yet journalled become one ingot of type 0x13. -/
def State.telJournal (s : State) : State :=
  let l := s.snp.unjournalled
  if l.isEmpty then s
  else (s.snpMod (fun x => { x with unjournalled := [] })).askIngot
    { zone := 1, type := 0x13, fields := leBytes l.length 2 ++ [0, 0] ++ (l.headD []).take 8, payload := l.flatten }

/-- The telemetry record of the present boundary (R474). -/
def State.telRecord (s : State) : List Byte :=
  let u := s.time.tick * tickStu
  let temp := fun i => if s.flag (Reg.LDG_TEMP_VALID i) then s.fget (Reg.LDG_TEMP_TEMP i) else 0x8000
  let flags := s.fget Reg.LDG_STAT_TPARK + 2 * s.fget Reg.LDG_STAT_OVER + 4 * s.fget Reg.TOP_DOMAIN_COAST +
    8 * s.fget Reg.TOP_DOMAIN_CORE_SAFE
  leBytes u 8 ++ leBytes (dtsSec (s.dts u)) 8 ++ ((List.range 8).map (fun i => leBytes (temp i) 2)).flatten ++
  leBytes s.clk.ccs.readMv 2 ++ leBytes (satTo 65535 (roundAway (s.ldg.lastIout / 10)).toNat) 2 ++
  leBytes (s.rget Reg.LDG_DEVE).toNat 4 ++ leBytes (s.fget Reg.TOP_DOMAIN_GRADE) 1 ++ leBytes (s.fget Reg.LDG_STAT_FLOOR) 1 ++
  leBytes flags 1 ++ leBytes s.healthy.length 1 ++
  (s.snp.secondFaults.map (fun n => leBytes n 1)).flatten ++ [0, 0, 0] ++ leBytes (s.rget Reg.LDG_KCORR).toNat 2 ++
  leBytes (fieldOf (s.rget Reg.FST_WEAR) 31 16) 2 ++ List.replicate 8 0

/-- TELEMETRY_RECORD (R474): the record of a boundary at which TB_TICK is a multiple of 3000. -/
def execTelemetryRecord (s : State) : Host.Outcome State Fault Refusal :=
  .next (
    let u := s.time.tick * tickStu
    let newest := (s.snp.telemetry.head?).map (fun r => leAt r 0 8)
    if s.time.tick % 3000 ≠ 0 || s.time.tick == 0 || newest == some u || !s.up then s else
    let r := s.telRecord
    let s1 := s.snpMod (fun x => { x with
      telemetry := (r :: x.telemetry).take 16
      secondFaults := [0, 0, 0, 0, 0]
      lastDone := modifyAt x.lastDone 4 (fun _ => s.now) })
    if !s.mounted then s1.evt Reg.SNP_EVT_TELDROP
    else
      let s2 := s1.snpMod (fun x => { x with unjournalled := x.unjournalled ++ [r] })
      if 30 ≤ s2.snp.unjournalled.length then s2.telJournal else s2)

/-- A word of SNP_TELWIN at byte `o` (R474): the newest record first. -/
def State.telWindow (s : State) (o : Nat) : Word :=
  BitVec.ofNat 32 (leAt (s.snp.telemetry.getD (o / 64) []) (o % 64) 4)

/-! ## Wind-up classes (R470 to R473) -/

/-- STORE_SCRUB (R472): a pass of the hardware scrubber ends; each of the `n` words it corrected is logged as F0. In G5 it reads the active banks only (R286); banks that were
left out are read first once they are active again, by a pass of their own. -/
def execStoreScrub (n : Nat) (t : Nat) (s : State) : Host.Outcome State Fault Refusal :=
  .next (
    let s1 := s.at t
    if !s1.up then s1 else
    let s2 := (List.range n).foldl (fun (x : State) _ => x.fault 0x0001 255 255 0) s1
    let on := s1.activeBanks (s1.admitted.filter (fun p => p.2.mode == .running))
    if s1.fget Reg.TOP_DOMAIN_GRADE = 5 then (s2.snpMod (fun x => { x with asleep := (List.range 16).filter (fun b => !on.contains b) })).wuDone 2
    else if s1.snp.asleep.isEmpty then s2.wuDone 2
    else s2.snpMod (fun x => { x with asleep := [] }))

/-- A full scrub is asked for, a scrub is overdue by a tenth of PERIOD (below 24 hours acts as 24), or a block is at 9/8 of its refresh point (R381, R386). -/
def State.flashEsc (s : State) : Bool :=
  s.mounted && (s.fst.fullScrub || (List.range s.fst.blocks.length).any (fun b =>
    let k := s.fst.blk b
    decide (2 ≤ k.st && k.st ≤ 4) &&
      ((s.flag Reg.FST_CTRL_SCRUB && decide (k.scrubbed * 10 + 36000 * Nat.max 24 (s.fget Reg.FST_SCRUB_PERIOD) * 11 / 10 <
        10 * s.bkp.sec)) || s.retDue b 9 8)))

/-- The stu after which a class that was last done at `last` is overdue by a tenth of its period of `p` seconds. -/
def lateAt (last p : Nat) : Nat := last + 11 * p * (secStu / 10)

/-- The units that self-tests keep in turn (R473, R484): healthy engines and accelerator units, and the standby warden; in G5 the G5 engine. -/
def State.testedUnits (s : State) : List Nat :=
  if s.fget Reg.TOP_DOMAIN_GRADE = 5 then [s.g5Engine] else
  (List.range 18).filter (fun i => (s.unitAt i).st == 0) ++ (if s.fget Reg.FLT_STAT_WDA == 1 || s.fget Reg.FLT_STAT_WDB == 1 then [18] else [])

/-- The stu from which class `k` is overdue, for the classes that a period alone escalates (R470): for class 3 the first unit's; for class 5 6 s after the minute. -/
def State.escAt (s : State) (k : Nat) : Option Nat :=
  match k with
  | 2 => some (lateAt (s.snp.lastDone.getD 2 0) s.scrubP)
  | 3 => match s.testedUnits.map (fun i => lateAt (s.snp.lastTest.getD i 0) s.selfP) with
    | [] => none
    | a :: l => some (l.foldl Nat.min a)
  | 5 => if s.mounted then some (lateAt (s.snp.lastDone.getD 5 0) 60) else none
  | _ => none

/-- The condition under which class `k` is escalated (R470); class 4 always is. -/
def State.escalated (s : State) (k : Nat) : Bool :=
  (match s.escAt k with
    | some u => decide (u < s.now)
    | none => false) ||
  match k with
  | 0 => s.flashEsc
  | 1 => s.cal.ests.any (fun e => e.esc)
  | 3 => (s.seq.engs ++ s.seq.accs).any (fun u => u.st == 3)
  | 4 => true
  | _ => false

/-- The conditions of R470 are looked at, at every boundary and where SNP_WUSTAT is read: SNP_WUSTAT.ESC shows them, and the stu of each class's escalation is kept
(R471). -/
def State.escalate (s : State) : State :=
  let l := (List.range 6).map s.escalated
  let s1 := s.snpMod (fun x => { x with escSince := (List.range 6).map (fun k =>
    if l.getD k false then some ((x.escSince.getD k none).getD (Nat.min s.now ((s.escAt k).getD s.now))) else none) })
  s1.fset Reg.SNP_WUSTAT_ESC (sumN ((List.range 6).map (fun k => b2n (l.getD k false) * 2 ^ k)))

end Sys2Proof.Machine
end

