-- ==== Sys2Proof/Machine/Faults.lean ====
section
/-!
DEFINITION. Fault handling beyond each block's own: uncorrectable store words (R480), the wardens and their failover (R481 to
R485), the Tin Soldier's restart (R486 to R490), the device reset (R491), and the log and availability counters (R479, R493 to R497).
-/

namespace Sys2Proof.Machine

/-- The supervisors' internal state changed. -/
def State.fltMod (s : State) (f : FaultS → FaultS) : State := { s with flt := f s.flt }

/-! ## Wardens (R481 to R484) -/

/-- FLT_STAT.WDA and .WDB. -/
def wdField (w : Nat) : Reg.Fld := if w = 0 then Reg.FLT_STAT_WDA else Reg.FLT_STAT_WDB

/-- What a warden is: 0 active, 1 standby, 2 testing, 3 quarantined (R497). -/
def State.warden (s : State) (w : Nat) : Nat := s.fget (wdField w)

/-- FLT_STAT.NOSTBY follows the wardens. -/
def State.showStby (s : State) : State := s.fsetB Reg.FLT_STAT_NOSTBY (!(s.warden 0 == 1 || s.warden 1 == 1))

/-- A warden becomes something else. -/
def State.setWarden (s : State) (w v : Nat) : State := (s.fset (wdField w) v).showStby

/-- The active warden. -/
def State.activeWd (s : State) : Nat := if s.warden 1 = 0 ∧ s.warden 0 ≠ 0 then 1 else 0

/-- There is a standby. -/
def State.standby (s : State) : Bool := s.warden 0 == 1 || s.warden 1 == 1

/-! ## Device reset (R23, R491, R501) -/

/-- The registers a reset keeps: the backup domain's and the cause of the last F5 (R23, R491). -/
def keptReg (a : Nat) : Bool :=
  (decide (0xF0000 ≤ a) && decide (a < 0xF1000)) || a == Reg.FLT_RSTCAUSE || a == Reg.FLT_RSTSTU

/-- What the medium, OTP and the key store keep through a reset (R23): the flash blocks and committed ingots with what mount
reads back from them, the saved calibration copies, the keys and certificates. -/
def State.islands (s : State) : State :=
  { State.reset with
    pending := s.pending, free := s.free, otp := s.otp, bkp := s.bkp, jtag := s.jtag
    regs := s.regs.filter (fun p => keptReg p.1)
    fst := { s.fst with geom := none, queue := [], bufs := [], verify := [], bad := [], fullScrub := false, scrubLeft := [], wpHigh := false
                        lastMove := [0, 0], lastStamp := 0, retSec := 0, begun := false, formatWait := none, found := []
                        blocks := s.fst.blocks.map (fun (k : BlockS) => { k with drain := 0 }) }
    cal := { State.reset.cal with factory := s.cal.factory, saved := s.cal.saved }
    wit := { State.reset.wit with dik := s.wit.dik, owk := s.wit.owk }
    boot := { s.boot with
      rom := true, onB := false, recovery := false, going := none, firmware := [], loaded := [], last := false
      windowPort := none, planned := false, firstTick := 240, verifiedAt := none, hiber := none, bootEvt := false, firstTime := none } }

/-- F5 (R491): the code and the trigger's stu go to the backup domain, and every other island is reset until RESET_RELEASE. -/
def State.deviceReset (s : State) (code : Nat) : State :=
  let s1 := (s.fset Reg.FLT_RSTCAUSE_CODE code).rsetN Reg.FLT_RSTSTU s.now
  let s2 := s1.islands
  { s2 with boot := { s2.boot with f5 := true } }

/-! ## The Tin Soldier's restart (R487 to R490) -/

/-- An F4 is triggered (R487, R488): where two have begun within the 60 s before it, it is an F5 instead, during a restart as well. Otherwise no further one begins during a
restart (DESIGN CHOICE, log entry 35). -/
def State.startRestart (s : State) (code : Nat) : State :=
  let recent := s.flt.f4s.filter (fun t => decide (s.now ≤ t + 60 * secStu))
  if 2 ≤ recent.length then s.deviceReset 0x5002
  else if s.flt.restart.isSome then s
  else
    let s1 := (s.fault code 255 255 0).fltMod (fun x => { x with
      restart := some s.now, restartStep := 0, failover := none, newMiss := 0, passed := [0, 0], mirror := none, source := none
      wdaQuar := s.warden 0 == 3, wdbQuar := s.warden 1 == 3, f4s := recent ++ [s.now] })
    let s2 := ((s1.fsetB Reg.FLT_STAT_TSRUN true).fset Reg.TOP_DOMAIN_SUPERVISOR 2).fset Reg.TOP_DOMAIN_COMPUTE 2
    let held := fun (x : State) w => if x.warden w = 3 then x else x.setWarden w 2
    ((held (held s2 0) 1).seqMod (fun q => { q with plan := none })).fstMod (fun x => { x with begun := !x.queue.isEmpty })

/-- A run that the restart ends leaves its context as it stood before the run (R489). -/
def State.undoRun (s : State) (e : Nat) : State :=
  match s.run e with
  | none => s
  | some r =>
    let s1 := ((s.setRun e none).spendRun r false).ctxMod r.ctx (fun x => { x with
      ring := r.input ++ x.ring, lastAgcg := r.before.1, lastMark := r.before.2
      ports := (List.range x.ports.length).map (fun q =>
        let p := x.ports.getD q {}
        { p with queue := (r.inputs.filter (fun i => i.1 == q)).map (·.2) ++ p.queue }) })
    ((s1.giveBack r.ctx r.cues).showQ0 r.ctx).trouble r.ctx

/-- The first boundary of a restart (R24, R308, R487, R489): runs and receivers stop, and so do the chains of contexts that are not P0. The grade in force is held:
a grade decided and not yet in force is dropped (R287). -/
def State.restartBoundary (s : State) : State :=
  let s1 := (List.range 8).foldl (fun (y : State) e => y.undoRun e) s
  let s2 := s1.openCtxs.foldl (fun (y : State) n =>
    let y1 := (y.brsStop n).ctxMod n (fun x => { x with jobs := [] })
    let x := y1.ctx n
    if x.prio = 0 ∨ !(x.mode == .running || x.mode == .shed) then y1
    else
      let y2 := if x.mode = .running then (y1.stopMark n 1).stopChain n else y1
      (y2.ctxMod n (fun x => { x with mode := .stopped, shedFit := true })).showCtx n) s1
  let s3 := (s2.fset Reg.LDG_STAT_NEXT (s2.fget Reg.TOP_DOMAIN_GRADE)).ldgMod (fun x => { x with
    passes := 0, parkCool := 0, lowFreq := 0, fits := [], ctxSum := [], wuSum := List.replicate 6 0, devSum := 0, allSum := 0
    coreSum := 0, limSum := 0, readings := [], shedNext := x.shed })
  let s4 := s3.calMod (fun c => { c with ests := c.ests.map (fun (e : EstS) => { e with due := none, esc := false, passing := 0, tsum := 0 }) })
  s4.fltMod (fun x => { x with restartStep := 1, resetAt := s4.now })

/-- RESTART's or another F4 source's steps after the boundary need no more than a note of how far the restart has come. -/
def State.restartTo (s : State) (k : Nat) : State := s.fltMod (fun x => { x with restartStep := Nat.max x.restartStep k })

/-- The registers of the sequencer, the ledger and the witness unit that a reset of the compute island brings to their reset values (R23). -/
def islandRegs : List Nat :=
  [Reg.SEQ_CTRL, Reg.SEQ_EVT, Reg.SEQ_BUDGET, Reg.SEQ_FABRIC, Reg.SEQ_STORE, Reg.SEQ_OVRCNT, Reg.SEQ_OVRLAST, Reg.SEQ_OVR_STU_LO, Reg.SEQ_OVR_STU_HI, Reg.SEQ_REPEAT,
    Reg.SEQ_MOVES, Reg.LDG_CTRL, Reg.LDG_EVT, Reg.LDG_PCAP, Reg.LDG_RESV, Reg.LDG_RMAP, Reg.LDG_THERM, Reg.LDG_CFG, Reg.LDG_LIMIT, Reg.LDG_PLAN, Reg.LDG_TICKE,
    Reg.LDG_FIXE, Reg.LDG_KCORR, Reg.LDG_TBASE, Reg.LDG_DEVE, Reg.WIT_CTRL, Reg.WIT_CFG, Reg.WIT_EVT, Reg.WIT_CNT0, Reg.WIT_CNT1, Reg.KEY_EVT] ++
  (List.range 8).flatMap (fun e => [Reg.LDG_TEMP e, Reg.SE_DBG e, Reg.SE_BRK e, Reg.SE_BRKSTU_LO e, Reg.SE_BRKSTU_HI e]) ++
  (List.range 4).map Reg.LDG_TENS ++ (List.range 6).map Reg.LDG_WUE ++ (List.range 256).flatMap (fun n => [Reg.LDG_CTXE n, Reg.BRS_EVT n])

/-- The reset of the compute island (R23): its registers read their reset values, and the ledger's counts and sums start anew (R287). What another rule keeps stays: the grade in
force (R287), quarantine (R263), staging, open intervals and the chain (R347, R354), what the receivers took at their open and count since it (R308, R309), and SE_BRKCNT,
which counts since RESET_N (R521); what the registers copy from OTP, the tenancy table and the key store is the same after it (log entry 45). The next
reference is the first scheduled one (R340). -/
def State.islandReset (s : State) : State :=
  let s1 : State := { s with regs := s.regs.filter (fun p => !islandRegs.contains p.1) }
  let s2 := ((((s1.fset Reg.LDG_STAT_FLOOR 0).fsetB Reg.LDG_STAT_TPARK false).fsetB Reg.LDG_STAT_OVER false).fsetB Reg.SEQ_STAT_REPEAT false).ldgMod (fun x =>
    { ({} : LdgS) with shed := x.shed, shedNext := x.shedNext, decided := x.decided, soFar := x.soFar, core := x.core, ctxNow := x.ctxNow, unlocked := x.unlocked })
  s2.setNextRef s2.time.tick

/-- TS_RESET_RELEASE (R23, R487): the compute island and the wardens leave reset, in which they have been held for 1 ms, 2 ms after the trigger at the latest. -/
def execTsResetRelease (t : Nat) (s : State) : Host.Outcome State Fault Refusal :=
  .next (
    match s.flt.restart with
    | none => s
    | some u =>
      if s.flt.restartStep = 0 then s else
      let s1 := s.at (Nat.min (Nat.max t (s.flt.resetAt + secStu / 1000)) (Nat.max (s.flt.resetAt + secStu / 1000) (u + 2 * (secStu / 1000))))
      (if s.flt.restartStep = 1 then s1.islandReset else s1).restartTo 2)

/-- TS_RESTART_TIMEOUT (R488): 250 ms after the trigger with no first heartbeat. -/
def execTsRestartTimeout (s : State) : Host.Outcome State Fault Refusal :=
  .next (
    match s.flt.restart with
    | none => s
    | some u => (s.at (u + 250 * (secStu / 1000))).deviceReset 0x5001)

/-- The action on which two of three channels agree. -/
def majority (a b c : Nat) : Option Nat := if a = b ∨ a = c then some a else if b = c then some b else none

/-- TS_VOTE_STEP (R486): the three channels propose the actions `a`, `b` and `c`. The action of the majority is the one that every channel has taken after the step: a channel that
disagrees is resynchronised from it. What the actions of a restart do are the rows of R487. -/
def execTsVoteStep (a b c : Nat) (t : Nat) (s : State) : Host.Outcome State Fault Refusal :=
  .next (
    let s1 := s.at t
    if !s1.up then s1 else
    match majority a b c with
    | none => s1.deviceReset 0x5003
    | some m =>
      let s2 := s1.fltMod (fun x => { x with chans := [m, m, m] })
      if a = b ∧ b = c then s2 else s2.fault 0x000B 255 255 0)

/-! ## Failover (R481 to R485) -/

/-- A failover begins (R481, R483, R485): the failed warden is reset and tested, the standby takes over from its mirror, and F3 is logged at its first
heartbeat; with none the Tin Soldier does. `most` is
the stu by which the new warden posts its first heartbeat. A plan that has been handed over is the last checked one (R482) and stays. -/
def State.startFailover (s : State) (code most : Nat) : State :=
  let a := s.activeWd
  if !s.standby then (s.fault code a 255 0).startRestart 0x4001
  else
    let b := 1 - a
    ((s.setWarden a 2).setWarden b 0).fltMod (fun x => { x with
      failover := some most, failCode := code, failUnit := a, newMiss := 0, mirror := none, passed := modifyAt x.passed a (fun _ => 0) })

/-- A failover that no missed heartbeats began: it completes within 28 ticks (R483). -/
def State.forceFailover (s : State) (code : Nat) : State := s.startFailover code (s.now + 28 * tickStu)

/-- HEARTBEAT_DEADLINE (R481, R485): at stu offset 512,000; `posted` says whether the active warden has posted the tick's heartbeat. During a
failover the new warden's heartbeats are due once the time R483 gives it has passed; HBMISS goes on counting. -/
def execHeartbeatDeadline (posted : Bool) (s : State) : Host.Outcome State Fault Refusal :=
  .next (
    let u := s.time.tick * tickStu + 512000
    if !s.up || !s.boot.planned || s.flt.restart.isSome || s.flt.judged == s.time.tick then s else
    let s1 := (s.at u).fltMod (fun x => { x with judged := s.time.tick })
    let k := if posted then 0 else satTo 3 (s1.fget Reg.FLT_STAT_HBMISS + 1)
    let s2 := s1.fset Reg.FLT_STAT_HBMISS k
    match s.flt.failover with
    | some most =>
      if posted then s2.fltMod (fun x => { x with newMiss := 0 })
      else if u ≤ most then s2
      else
        let s3 := s2.fltMod (fun x => { x with newMiss := x.newMiss + 1 })
        if s3.flt.newMiss = 3 then s3.startRestart 0x4001 else s3
    | none => if k = 3 then s2.startFailover 0x3001 ((s.time.tick - 2 + 30) * tickStu) else s2)

/-- At a boundary the active warden copies its planner state into the mirror of the standby, where there is one (R482 to R484). -/
def State.fillMirror (s : State) : State :=
  s.fltMod (fun x => { x with mirror := if s.standby && s.wardenUp then some s.time.tick else if s.standby then x.mirror else none })

/-- WARDEN_MEMORY_ERROR (R481): an uncorrectable error in the active warden's own memory. -/
def execWardenMemoryError (t : Nat) (s : State) : Host.Outcome State Fault Refusal :=
  .next (
    let s1 := s.at t
    if !s1.up || s1.boot.rom || s1.flt.restart.isSome then s1 else s1.forceFailover 0x3002)

/-- WARDEN_SELFTEST_DONE (R484): one of the three self-tests of a warden after its reset. -/
def execWardenSelftestDone (w : Fin 2) (pass : Bool) (t : Nat) (s : State) : Host.Outcome State Fault Refusal :=
  .next (
    let s1 := s.at t
    if s1.warden w ≠ 2 ∨ s1.flt.restart.isSome then s1
    else if !pass then (s1.setWarden w 3).fault 0x2007 w 255 0
    else
      let k := s1.flt.passed.getD w 0 + 1
      let s2 := s1.fltMod (fun x => { x with passed := modifyAt x.passed w (fun _ => k) })
      if k = 3 then s2.setWarden w 1 else s2)

/-- STANDBY_SELFTEST (R484): the self-test of the standby that the plan in force places, once in SELFTP seconds. -/
def execStandbySelftest (pass : Bool) (t : Nat) (s : State) : Host.Outcome State Fault Refusal :=
  .next (
    let s1 := s.at t
    if !s1.standby || !s1.testPlanned 18 then s1
    else
      let w := if s1.warden 0 = 1 then 0 else 1
      let s2 := s1.testDone 18
      if pass then s2 else (s2.setWarden w 3).fault 0x2007 w 255 0)

/-! ## Requests of FLT_CTRL (R497) -/

/-- UNQW (R484): the tests of a quarantined warden are repeated; with none the request is discarded. -/
def State.unqw (s : State) : State :=
  let q := (List.range 2).filter (fun w => s.warden w == 3)
  if q.isEmpty then s.evt Reg.FLT_EVT_REFUSED
  else q.foldl (fun (x : State) w => (x.setWarden w 2).fltMod (fun y => { y with passed := modifyAt y.passed w (fun _ => 0) })) s

/-- AVCLR (R496). -/
def State.avClear (s : State) : State :=
  ((s.rset64 Reg.FLT_AVCNT_LO 0).rsetN Reg.FLT_AVBAD 0).rset64 Reg.FLT_AVEXCL_LO 0

/-- LOGCLR (R497): the log is empty. -/
def State.logClear (s : State) : State :=
  (({ s with regs := s.regs.filter (fun p => !(decide (Reg.FLT_LOG 0 0 ≤ p.1) && decide (p.1 < Reg.FLT_LOG 64 0))) } : State).rsetN
    Reg.FLT_LOGHEAD 0).fltMod (fun x => { x with logged := 0 })

/-- A write of FLT_CTRL by the owner: LOGCLR, AVCLR and UNQW act at once, FAILOVER and RESTART are requests, DEVRESET resets (R497). -/
def State.wrFltCtrl (s : State) (v : Word) : State :=
  let n := v.toNat
  let s1 := if bitOf n 26 then s.logClear else s
  let s2 := if bitOf n 27 then s1.avClear else s1
  let s3 := if bitOf n 28 then s2.unqw else s2
  let s4 := if bitOf n 29 then (if s3.standby then s3.request 0 (.reg Reg.FLT_CTRL 0x20000000) else s3.evt Reg.FLT_EVT_REFUSED) else s3
  let s5 := if bitOf n 30 then s4.request 0 (.reg Reg.FLT_CTRL 0x40000000) else s4
  if bitOf n 31 then s5.deviceReset 0x5004 else s5

/-- FAILOVER and RESTART at their boundary (R15, R492). -/
def State.fltBoundary (s : State) (v : Word) : State :=
  if bitOf v.toNat 30 then s.startRestart 0x4002
  else if bitOf v.toNat 29 then (if s.standby then s.forceFailover 0x3004 else s.evt Reg.FLT_EVT_REFUSED)
  else s

/-! ## Uncorrectable store words (R480) -/

/-- The last `m` entries of a list are gone. -/
def dropLast {α : Type} (l : List α) (m : Nat) : List α := l.take (l.length - m)

/-- The samples in a list of ring items. -/
def sampleCount (l : List Item) : Nat := (l.filter (fun i => match i with
  | .sample .. => true
  | .mark _ => false)).length

/-- The CHAIN ring loses its last `m` entries, with a LOST marker and its gap cue; q0's LOST counts the samples (R177, R181, R186, R202, R480). -/
def State.loseChain (s : State) (n m : Nat) : State :=
  let runs := ringRuns (s.ctx n).ring
  let kept := dropLast runs m
  let k := sampleCount (runs.drop kept.length).flatten
  let s1 := (s.ctxMod n (fun x => { x with ring := kept.flatten })).pushItem n (.mark { stu := s.now, kind := 9, param := k, qual := s.qualAt s.now })
  (((s1.raiseCue n 0 s1.now (512 + 262144)).bumpBy ⟨Reg.CTX_QSTAT n 0 + 8, 31, 0⟩ k).showQ0 n).trouble n

/-- Of the entries of a stream that one port wrote, the first `k` stay. -/
def keepSrc (src : Nat × Nat) : Nat → List (Option (Nat × Nat) × List Byte) → List (Option (Nat × Nat) × List Byte)
  | _, [] => []
  | k, e :: t =>
    if e.1 = some src then (match k with
      | 0 => keepSrc src 0 t
      | k + 1 => e :: keepSrc src k t)
    else e :: keepSrc src k t

/-- An output or BURST ring loses its last `m` unread entries at every far end, and one LOST entry stands for them (R177, R480). -/
def State.loseOut (s : State) (n q m : Nat) : State :=
  let x := s.ctx n
  let cutStream := fun (z : StreamS) =>
    { z with entries := keepSrc (n, q) ((z.entries.filter (fun e => e.1 == some (n, q))).length - m) z.entries }
  let s1 : State := match (x.ports.getD q {}).target with
    | .stream k => s.tenMod x.tenant (fun y => { y with streams := modifyAt y.streams k cutStream })
    | _ => s
  let s2 := s1.fstMod (fun f => { f with bufs := f.bufs.map (fun (b : PortBuf) =>
    if b.ctx == n && b.port == q then { b with entries := dropLast b.entries m, stus := dropLast b.stus m } else b) })
  let s3 := (s2.readers n q).foldl (fun (y : State) (p : Nat × Nat) =>
    y.portMod p.1 p.2 (fun z => { z with queue := dropLast z.queue m })) s2
  if x.portKind q = 7 then
    let e : Nat × Rec := (s3.time.tick, { stu := s3.now, kind := 9, param := m, qual := s3.qualAt s3.now })
    s3.portMod n q (fun p => { p with queue := dropLast p.queue m ++ [e], lost := satTo 4294967295 (p.lost + m) })
  else (s3.portMod n q (fun p => { p with lostNow := p.lostNow + m, lost := satTo 4294967295 (p.lost + m) })).lostNext n q

/-- A record in staging is lost before it is signed (R480): an OBS interval is skipped and its commands wait for the next, an EVT record is
counted as a skip and its commands complete with a status the spec does not state (free), as a key request ends with a result that it does not state. -/
def State.loseStaged (s : State) (i : Nat) : State :=
  match s.wit.staged[i]? with
  | none => s
  | some r =>
    let s1 := (s.witMod (fun w => { w with staged := w.staged.eraseIdx i })).bump Reg.WIT_CNT1_SKIP
    State.showWit <| match r.body with
    | .key .. =>
      let (f, y) := s1.free1
      if r.asked then y.keyDone (f % 256) else y
    | .obs _ => r.reqs.foldl (fun (x : State) q => x.witMod (fun w => { w with want := w.want ++ [(x.boundaryTick * tickStu, q)] }))
        (s1.evt Reg.WIT_EVT_SKIP)
    | _ => r.reqs.foldl (fun (x : State) q =>
        let (f, y) := x.free1
        y.complete q.tenant q.tag 7 (f % 65536) q.accept []) s1

/-- STORE_ECC_ERROR (R480): an uncorrectable word is met at stu `t` in the object `o`. -/
def execStoreEccError (o : EccObj) (t : Nat) (s : State) : Host.Outcome State Fault Refusal :=
  .next (
    let s1 := s.at t
    if !s1.up then s1 else
    match o with
    | .haul e => s1.trip e 7
    | .state n => if (s1.ctx n).mode == .closed then s1 else s1.ctxMod n (fun x => { x with ecc := true })
    | .spare n => s1.fault 0x000C 255 n 0
    | .image h =>
      let s2 := { s1 with images := s1.images.map (fun (i : ImageS) => if i.handle == h then { i with bad := true } else i) }
      s2.openCtxs.foldl (fun (y : State) n =>
        if (y.ctx n).img.handle == h then y.ctxMod n (fun x => { x with ecc := true }) else y) s2
    | .ring n q m =>
      (if (s1.ctx n).portKind q = 1 then s1.loseChain n m else s1.loseOut n q m).fault 0x000C 255 n 0
    | .tap u w first last =>
      let ns := s1.openCtxs.filter (fun n => (s1.ctx n).chain.tap == some (u.val, w))
      let s2 := ns.foldl (fun (y : State) n =>
        (y.sendMark n { stu := first, kind := 6 } (y.ctx n).chain.evDelay).chnMod n (fun c => { c with void := true, voidTo := some last })) s1
      s2.fault 0x000C 255 255 0
    | .staging i => (s1.loseStaged i).fault 0x000C 255 255 0
    | .warden => if s1.boot.rom || s1.flt.restart.isSome then s1 else s1.forceFailover 0x3003
    | .raw w => (s1.snpMod (fun x => { x with rawBad := putNew x.rawBad w })).fault 0x000C 255 255 0)

/-- At the boundary, the contexts in which an uncorrectable word was met trip with ECC (R480). -/
def State.eccTrips (s : State) : State :=
  s.openCtxs.foldl (fun (y : State) n =>
    if (y.ctx n).ecc then ((y.ctxMod n (fun x => { x with ecc := false })).stopRuns n).tripCtx n 7 y.now 0 none else y) s

/-! ## Availability (R493 to R496) -/

/-- Something excludes the tick now (R493); `out` says that a supply lies outside its operating range. -/
def State.excludedNow (s : State) (out : Bool) : Bool :=
  let p0Conv := fun (p : Nat) => s.openCtxs.any (fun n => (s.ctx n).prio == 0 && s.crossed (s.convOf n) == p)
  !s.flag Reg.TOP_DOMAIN_READY || s.flag Reg.TOP_DOMAIN_COAST || out || decide (((s.tjLimit * 16 : Nat) : Int) ≤ s.hottest) ||
  s.flag Reg.LDG_STAT_TPARK || s.fget Reg.TOP_DOMAIN_GRADE == 5 || decide (0 < s.floorOf) ||
  (List.range 3).any (fun p => (s.fget (Reg.FE_BSTAT_STATE p) == 2 || s.fget (Reg.FE_BSTAT_STATE p) == 3) && p0Conv p)

/-- A P0 context was not served in the tick that ends (R494): shed, stopped or tripped, or a body due was never started. -/
def State.unserved (s : State) : Bool :=
  s.ctxs.any (fun p => p.2.prio == 0 && p.2.mode != .closed &&
    (p.2.mode != .running ||
      (s.time.tick % Nat.max 1 p.2.stride == p.2.phase && p.2.lastRun != some s.time.tick)))

/-- The tick that ends is counted (R496). -/
def State.countTick (s : State) (out : Bool) : State :=
  if !s.boot.planned then s else
  let plus := fun (x : State) a => x.rset64 a (x.rget64 a + 1)
  let s1 := if s.flt.excluded || s.excludedNow out then plus s Reg.FLT_AVEXCL_LO
    else
      let y := plus s Reg.FLT_AVCNT_LO
      if s.flt.bad || s.unserved then y.bump (whole Reg.FLT_AVBAD) else y
  s1.fltMod (fun x => { x with bad := false, excluded := false })

end Sys2Proof.Machine
end

