-- ==== Sys2Proof/Machine/Boot.lean ====
section
/-!
DEFINITION. Resets and boot (R498 to R509, R513, R534, R561), mount and format as their commands (R375 to R377), HIBERNATE (R510 to R512).
-/

namespace Sys2Proof.Machine

/-- The boot's state changed. -/
def State.bootMod (s : State) (f : BootS → BootS) : State := { s with boot := f s.boot }

/-! ## Durable ingots (R370) -/

/-- What waited for ingots to be durable goes on: witness commands, key requests, passage entries and a calibration save. -/
def State.durables (s : State) : State := s.witSettle.calSettle

/-- INGOT_DURABLE (R370). -/
def execIngotDurable (seq : Nat) (t : Nat) (s : State) : Host.Outcome State Fault Refusal :=
  .next (((s.at t).ingotDurable seq).durables)

/-- PAD_TIMEOUT (R370): FLUSH ticks after an ingot that is not yet durable; nothing waits for a pad ingot, and none follows it (log entry 37). -/
def execPadTimeout (seq : Nat) (s : State) : Host.Outcome State Fault Refusal :=
  .next (
    match s.fst.ingots.find? (fun i => i.seq == seq && !i.durable && i.req.type != 0x7F) with
    | none => s
    | some i => (s.padIngot i).durables)

/-! ## Resets (R500 to R502, R511, R534) -/

/-- What a release of reset starts (R30, R502, R506, R511, R513): the straps are sampled, BOOT_CAUSE tells what ended, the boot ROM runs on WDA,
or on WDB where WDA fails its self-test, SCS and ICS start, and discovery finds the targets (R357). -/
def State.bootStart (s : State) (i : BootIn) : State :=
  let s0 := s.islands
  let s1 := { s0 with
    bkp := { s0.bkp with hib := false }
    boot := { s0.boot with hold := false, f5 := false, supmon := false, onB := !i.wdaOk, recovery := i.bootsel == 3 } }
  let stage := if i.bootsel = 0 then 0 else if i.bootsel = 3 then 4 else 1
  let s2 := ((s1.fset Reg.BOOT_STAT_BOOTSEL i.bootsel).fset Reg.BOOT_STAT_TWADDR i.twaddr).fset Reg.BOOT_STAT_STAGE stage
  let s3 := ((s2.fsetB Reg.BOOT_CAUSE_HIBWAKE s.bkp.hib).fsetB Reg.BOOT_CAUSE_SUPMON s.boot.supmon).fsetB Reg.BOOT_CAUSE_F5 s.boot.f5
  let s4 := ((s3.fset Reg.TOP_DOMAIN_SUPERVISOR 3).fsetB Reg.TOP_DOMAIN_REF_OK true).fsetB Reg.TOP_DOMAIN_BKP_ON_VBAT
    (s.flag Reg.BKP_STAT_ONVBAT)
  let s5 := if i.wdaOk then s4 else (s4.setWarden 0 3).setWarden 1 0
  ((((s5.fset (Reg.TW_STAT_ADDR 0) (0x58 + i.twaddr)).fset Reg.FST_STAT_STATE 1).startSearch .scs 0).icsStart 0).discover i.tgts

/-- Boot follows once nothing holds the device in reset any more. -/
def State.bootIfUp (s : State) (i : BootIn) : State := if s.up then s.bootStart i else s

/-- RESET_N low, or a condition that acts as it does, at stu `t` (R500, R501, R534): every island but the backup domain is reset. A hibernation
hold and an F5 reset pass into it. -/
def State.resetBy (s : State) (t : Nat) (f : BootS → BootS) : State :=
  ((s.at t).islands).bootMod (fun b => f { b with hold := false, f5 := false })

/-- A release of RESET_N clears the cause of the last F5 (R491). -/
def State.clearCause (s : State) : State := (s.rsetN Reg.FLT_RSTCAUSE 0).rsetN Reg.FLT_RSTSTU 0

/-- RESET_N_ASSERT (R501). -/
def execResetNAssert (t : Nat) (s : State) : Host.Outcome State Fault Refusal :=
  .next (s.resetBy t (fun b => { b with resetLow := true }))

/-- RESET_RELEASE (R506): RESET_N is released; where the pin is high already and an F5 reset is in force, that reset ends (R491). -/
def execResetRelease (i : BootIn) (s : State) : Host.Outcome State Fault Refusal :=
  .next (
    if s.boot.resetLow then ((s.bootMod (fun b => { b with resetLow := false })).clearCause).bootIfUp i
    else if s.boot.f5 then
      let s1 := s.bootMod (fun b => { b with f5 := false })
      if s1.up then s.bootStart i else s1
    else s)

/-- SUPPLY_MONITOR_TRIP (R500): a supply of steps 2 and 3 falls below its reset threshold. -/
def execSupplyMonitorTrip (t : Nat) (s : State) : Host.Outcome State Fault Refusal :=
  .next (s.resetBy t (fun b => { b with supplyLow := true, supmon := true }))

/-- POWER_ON_RESET_END (R500, R502): every monitored supply is above its threshold again. -/
def execPowerOnResetEnd (i : BootIn) (s : State) : Host.Outcome State Fault Refusal :=
  .next (if s.boot.supplyLow then (s.bootMod (fun b => { b with supplyLow := false })).bootIfUp i else s)

/-- TMODE (R534): at 1 exactly as RESET_N held low, for as long as it lasts. -/
def execTmode (level : Bool) (i : BootIn) (t : Nat) (s : State) : Host.Outcome State Fault Refusal :=
  .next (
    if level then s.resetBy t (fun b => { b with tmode := true })
    else if s.boot.tmode then ((s.bootMod (fun b => { b with tmode := false })).clearCause).bootIfUp i
    else s)

/-! ## Loading firmware (R503 to R506) -/

/-- The host ports are served: 5 ms after the release of reset (R506). -/
def State.served (s : State) : Bool := s.up && decide (30720000 ≤ s.now)

/-- The boot window is served to a port: by the source that BOOTSEL names, in recovery to every port until one holds it (R504, R505). -/
def State.bootPort (s : State) (p : Nat) : Bool :=
  let sel := s.fget Reg.BOOT_STAT_BOOTSEL
  s.served && s.boot.rom &&
  (if s.boot.recovery then s.boot.windowPort.isNone || s.boot.windowPort == some p
   else (sel == 1 && p == 2) || (sel == 2 && p == 0))

/-- The boot ROM waits for a chunk or GO. -/
def State.bootWaits (s : State) : Bool := s.boot.going.isNone && (s.fget Reg.BOOT_STAT_STAGE == 1 || s.fget Reg.BOOT_STAT_STAGE == 4)

/-- The error of a boot load. -/
def State.bootErr (s : State) (e : Nat) : State := s.fset Reg.BOOT_STAT_ERR e

/-- The bytes of the boot window. -/
def State.windowBytes (s : State) (n : Nat) : List Byte :=
  (List.range n).map (fun i => byteOf (s.rget (Reg.BOOT_WINDOW (i / 4))).toNat (i % 4))

/-- BOOT_LOAD written (R505, R513): the chunk is appended. -/
def State.wrBootLoad (s : State) (p : Nat) (v : Word) : State :=
  if !s.bootPort p || !s.bootWaits then s else
  let n := fieldOf v 15 0
  let s1 := if s.boot.recovery then s.bootMod (fun b => { b with windowPort := some p }) else s
  if n = 0 ∨ 32768 < n ∨ 1048576 < s.boot.loaded.length + n then s1.bootErr 5
  else
    (s1.bootMod (fun b => { b with loaded := b.loaded ++ s.windowBytes n, last := bitOf v.toNat 31 })).fset Reg.BOOT_STAT_STAGE 1

/-- BOOT_CTRL written (R505, R512): GO starts the verification; with nothing loaded, or no LAST, it is refused. -/
def State.wrBootCtrl (s : State) (p : Nat) (v : Word) : State :=
  if !s.bootPort p || !s.bootWaits || !bitOf v.toNat 31 then s
  else if s.boot.loaded.isEmpty || !s.boot.last then s.bootErr 5
  else (s.bootMod (fun b => { b with going := some (bitOf v.toNat 30), windowPort := none })).fset Reg.BOOT_STAT_STAGE 2

/-- The check of a firmware image (R503): the code of BOOT_STAT.ERR of the one it fails. -/
def State.firmwareErr (s : State) (b : List Byte) : Option Nat :=
  if !Config.firmwareSigned b then some 3
  else if Config.firmwareVersion b < s.otp.fwFloor then some 4 else none

/-- The firmware copies of the image zone (R367, R504): the newest ingot of each copy, the newer version first. -/
def State.firmwareCopies (s : State) : List (Nat × List Byte) :=
  let of := fun c => ((s.fst.ingots.filter (fun i => i.req.type == 0x40 && leAt i.req.fields 0 1 == c)).foldl
    (fun (a : Option IngotS) i => match a with
      | none => some i
      | some j => if j.seq < i.seq then some i else some j) none).map (fun i => (c, i.req.payload))
  match of 0, of 1 with
  | some a, some b => if Config.firmwareVersion a.2 < Config.firmwareVersion b.2 then [b, a] else [a, b]
  | some a, none => [a]
  | none, some b => [b]
  | none, none => []

/-- The ingot of an image in a copy (R364, R368, R374): of firmware, type 0x40, or of a program, type 0x41, which no operation of the spec asks for. -/
def imageReq (type copy version : Nat) (b : List Byte) : IngotReq :=
  { zone := 4, type := type, payload := b, fields := leBytes copy 1 ++ [0, 0, 0] ++ leBytes version 4 ++ leBytes b.length 4 ++ sha256 b }

/-- The ingot of a firmware image in a copy. -/
def firmwareReq (copy : Nat) (b : List Byte) : IngotReq := imageReq 0x40 copy (Config.firmwareVersion b) b

/-- Verified firmware starts (R506, R561): the compute island starts and CCS searches; OPERATION follows as its own transaction. -/
def State.startFirmware (s : State) (b : List Byte) (src first : Nat) : State :=
  let s1 := ((s.fset Reg.BOOT_STAT_STAGE 3).fset Reg.BOOT_STAT_SRC src).rsetN Reg.BOOT_FWVER (Config.firmwareVersion b)
  let s2 := ((s1.fset Reg.TOP_DOMAIN_COMPUTE 1).fset Reg.TOP_DOMAIN_SUPERVISOR s.activeWd).bootMod (fun x => { x with
    rom := false, recovery := false, going := none, loaded := [], last := false, windowPort := none
    firmware := b, verifiedAt := some s.now, firstTick := first })
  let s3 := if s.fget Reg.FST_STAT_STATE = 1 then s2.fset Reg.FST_STAT_STATE 2 else s2
  s3.startSearch .ccs s.now

/-- The first tick that starts 20 ms or more from now (R506). -/
def State.firstTickFrom (s : State) : Nat := ceilDiv (s.now + 122880000) tickStu

/-- FIRMWARE_VERIFIED (R503 to R506, R512): the verification ends at `t`. -/
def execFirmwareVerified (t : Nat) (s : State) : Host.Outcome State Fault Refusal :=
  .next (
    let s1 := s.at t
    if !s1.up || !s1.boot.rom then s1 else
    match s1.boot.going with
    | some store =>
      let b := s1.boot.loaded
      match s1.firmwareErr b with
      | some e => ((s1.bootMod (fun x => { x with going := none, loaded := [], last := false })).bootErr e).fset Reg.BOOT_STAT_STAGE 1
      | none =>
        let copy := match s1.firmwareCopies with
          | (0, _) :: _ => 1
          | _ => 0
        let s2 := if store && s1.mounted then s1.askIngot (firmwareReq copy b) else s1
        s2.startFirmware b 2 s1.firstTickFrom
    | none =>
      if s1.boot.recovery || s1.fget Reg.BOOT_STAT_BOOTSEL != 0 then s1 else
      let toRecovery := fun e => ((s1.bootMod (fun x => { x with recovery := true })).bootErr e).fset Reg.BOOT_STAT_STAGE 4
      let first := Nat.max 240 s1.firstTickFrom
      if s1.fget Reg.FST_STAT_STATE = 5 then toRecovery 1
      else match s1.firmwareCopies with
        | [] => toRecovery 2
        | a :: l =>
          if (s1.firmwareErr a.2).isNone then s1.startFirmware a.2 0 first
          else match l with
            | b :: _ => if (s1.firmwareErr b.2).isNone then s1.startFirmware b.2 1 first
              else toRecovery (if s1.firmwareErr a.2 = some 3 then 3 else 2)
            | [] => toRecovery (if s1.firmwareErr a.2 = some 3 then 3 else 2))

/-! ## Warden firmware in a restart (R487) -/

/-- The sources of the warden firmware in a restart, in the order in which they are tried (R487): the image-zone copies, the newer first, while the flash controller may read, then
that which the boot ROM verified at boot and retained. -/
def State.firmwareSources (s : State) : List (Nat × List Byte) :=
  (if s.nandRuns then s.firmwareCopies else []) ++ [(2, s.boot.firmware)]

/-- TS_FIRMWARE_READ (R487): the warden firmware has been read, 60 ms after the trigger at the latest: the first source whose image the boot ROM verifies. With none the restart
goes no further. -/
def execTsFirmwareRead (t : Nat) (s : State) : Host.Outcome State Fault Refusal :=
  .next (
    match s.flt.restart with
    | none => s
    | some u =>
      if s.flt.restartStep < 2 then s else
      let s1 := s.at (Nat.min t (u + 60 * (secStu / 1000)))
      match s1.firmwareSources.find? (fun p => (s1.firmwareErr p.2).isNone) with
      | none => s1
      | some (c, b) => ((s1.rsetN Reg.BOOT_FWVER (Config.firmwareVersion b)).fltMod (fun x => { x with source := some c })).restartTo 3)

/-! ## Mount, format and scrub (R375 to R377, R381, R399, R507, R509) -/

/-- The first record of the boot (R509): EVT code 7 after a wake, 5 otherwise, with the stu of the first planned tick; then the events
of the backup domain (R344). It waits for the journal and for the first tick. -/
def State.bootRecord (s : State) : State :=
  if s.boot.bootEvt || !s.journal || !s.boot.planned then s
  else
    let u := s.boot.firstTick * tickStu
    let s1 := (s.bootMod (fun b => { b with bootEvt := true })).witEventAt (if s.flag Reg.BOOT_CAUSE_HIBWAKE then 7 else 5) u
      (s.boot.firstTime.getD (s.witTime u)) none [] 0 none
    s1.bkpFlush

/-- Ports are bound by the root's table, or by R399. -/
def State.bindPorts (s : State) : State :=
  ({ s with host := { s.host with bound := true, anchor := s.fst.anchor, table := s.fst.table } } : State).showShares

/-- MOUNT_COMPLETE (R375, R376, R507): mount ends at `t`, with what it read of the medium; not while ICS is unlocked, since it needs the NAND (R79). Where the set of
targets is unsupported there is nothing to mount, and the ports are bound by R399. -/
def execMountComplete (bad : List Nat) (fwd : List (Nat × List (Option (List Byte)))) (again : List (Nat × List CwObs)) (t : Nat)
    (s : State) : Host.Outcome State Fault Refusal :=
  .next (
    let s1 := s.at t
    let st := s1.fget Reg.FST_STAT_STATE
    if !s1.up then s1
    else if st = 5 then (if s1.host.bound then s1 else s1.bindPorts.showKeys)
    else if !((st == 1 || st == 2) && s1.flag Reg.TOP_DOMAIN_ICS_LOCK) then s1 else
    let s2 := (s1.mount bad fwd again).bindPorts
    if !s2.mounted || s2.tmiss then s2.showKeys
    else ((s2.fsetB Reg.CAL_STAT_NOSAVE false).witMount).bootRecord)

/-- An accepted FORMAT is carried out (R377) with the zone sizes `zs`. The medium's owner, records and sets are gone, and a new chain starts. -/
def State.formatNow (s : State) (zs : List Nat) : State :=
  let s1 := (s.fsetB Reg.FST_EVT_FORMATTED false).format zs
  if !s1.flag Reg.FST_EVT_FORMATTED then s1.fsetB Reg.FST_EVT_FORMATTED (s.flag Reg.FST_EVT_FORMATTED)
  else
    let s2 := (s1.calMod (fun c => { c with saved := [none, none] })).bindPorts
    (((s2.fsetB Reg.CAL_STAT_NOSAVE false).genesis).bootRecord).showWit

/-- FORMAT (R377): FST_CTRL.FORMAT written by the owner. While ICS is not locked the NAND makes no bus cycle (R79), and an accepted format waits for it
with the zone sizes that were staged as it was accepted (R8). -/
def State.formatAll (s : State) : State :=
  if !s.mayFormat then s
  else if s.flag Reg.TOP_DOMAIN_ICS_LOCK then s.formatNow s.stagedZones
  else s.fstMod (fun x => { x with formatWait := some s.stagedZones })

/-- NAND traffic resumes with ICS lock: a format that waits is carried out. -/
def State.formatWaiting (s : State) : State :=
  match s.fst.formatWait with
  | some zs => (s.fstMod (fun x => { x with formatWait := none })).formatNow zs
  | none => s

/-- ICS_LOCK (R77): the node has stayed below 0.2 of VDD_IO for 64 rc. -/
def execIcsLock (t : Nat) (s : State) : Host.Outcome State Fault Refusal :=
  .next (
    match s.clk.ics with
    | .released => if s.refAbsent then s else (let s1 := s.at t; ({ s1 with clk := { s1.clk with ics := .locked } }.icsLocked).formatWaiting)
    | _ => s)

/-- ICS_TIMED_LOCK (R78): timed mode declares lock 153,600 rc after the fault; TIMED is set with it (DESIGN CHOICE, log entry 76). Nothing is declared while
REF_IN is absent (R59). -/
def execIcsTimedLock (s : State) : Host.Outcome State Fault Refusal :=
  .next (
    match s.clk.ics with
    | .timed =>
      if s.flag Reg.ICS_STAT_LOCK || s.refAbsent then s else
      (((s.at (s.clk.icsSince + 160 * 153600)).fsetB Reg.ICS_STAT_TIMED true).icsLocked).formatWaiting
    | _ => s)

/-- FST_CTRL by the owner: FORMAT and SCRUBNOW act (R377, R381); FORCE is taken with the write. -/
def State.wrFstCtrl (s : State) (v : Word) : State :=
  let s1 := s.wr Reg.FST_CTRL v
  let s2 := if bitOf v.toNat 31 then s1.formatAll else s1
  if bitOf v.toNat 30 then s2.scrubAll else s2

/-! ## HIBERNATE (R510 to R512) -/

/-- HIBER (R510): LDG_CTRL.HIBER written through a port of T0 is a request; from another tenant it is discarded. -/
def State.wrHiber (s : State) : State := s.request 0 (.reg Reg.LDG_CTRL 0x80000000)

/-- The records that collect are formed at once. -/
def State.closeEvts (s : State) : State :=
  s.wit.evts.foldl (fun (x : State) r => x.stageEvt r x.now) (s.witMod (fun w => { w with evts := [] }))

/-- HIBERNATE entry begins at boundary B (R510): steps 1 to 3; steps 2 to 4 are skipped while the journal zone is not mounted. -/
def State.hiberStart (s : State) : State :=
  let b := s.now
  let s1 := s.openCtxs.foldl (fun (x : State) n => x.closeEffect n) s
  let s2 := (s1.ctxs.filter (fun p => p.2.opening)).foldl (fun (x : State) p => x.cancelOpen p.1 0x15) s1
  let s3 := s2.bootMod (fun x => { x with hiber := some (b, 1) })
  if !s.journal then s3
  else
    let s4 := (s3.witEvt 6 b).closeEvts
    let s6 := s4.calEntrySave.telJournal
    s6.fst.bufs.foldl (fun (y : State) f => y.closeBuf f) s6

/-- The last steps (R510): the marker is set, PWRON cleared, and every other island is held in reset. -/
def State.hiberHold (s : State) : State :=
  let s1 := (s.bkpMod (fun b => { b with hib := true })).pwrLow
  (s1.islands).bootMod (fun b => { b with hold := true })

/-- Step 4 (R388, R510): once nothing waits to be committed, native blocks are padded and the clock stamp follows; once that is committed, the map
and the root, for which the NAND needs ICS lock (R79). -/
def State.hiberDone (s : State) : State :=
  match s.boot.hiber with
  | none => s
  | some (b, k) =>
    if !s.journal then s.hiberHold
    else if !(s.wit.first.isNone && s.wit.staged.isEmpty && s.wit.late.isEmpty && s.fst.queue.isEmpty) then s
    else if k = 1 then
      ((s.fst.ingots.filter (fun i => !i.durable)).foldl (fun (x : State) i => x.padNow i) s).durables.clockStamp 2 |>.bootMod
        (fun x => { x with hiber := some (b, 2) })
    else if s.flag Reg.TOP_DOMAIN_ICS_LOCK || s.flag Reg.FST_STAT_READONLY then (s.writeMap).hiberHold
    else s

/-- HIBER_TIMEOUT (R510): 500 ms after B the steps that remain are taken at once. -/
def execHiberTimeout (s : State) : Host.Outcome State Fault Refusal :=
  .next (
    match s.boot.hiber with
    | none => s
    | some (b, _) => (s.at (b + 500 * (secStu / 1000))).hiberHold)

/-- HIBER_WAKE (R511, R512): 1 ms after a rise of PWRON during the hold, or after a source that kept it high at its edge, the device boots as from a
release of RESET_N. -/
def execHiberWake (i : BootIn) (s : State) : Host.Outcome State Fault Refusal :=
  .next (
    if s.boot.hold && s.flag Reg.BKP_STAT_PWRON && !(s.boot.resetLow || s.boot.tmode || s.boot.supplyLow) then s.bootStart i else s)

end Sys2Proof.Machine
end

