-- ==== Sys2Proof/Machine/Hst.lean ====
section
/-!
DEFINITION. Host ports and tenancy (chapter 15): rings, commands, proofs, the tenancy table, streams, interrupts and the resets of ports and
tenants.
-/

namespace Sys2Proof.Machine

/-- The host block's state changed. -/
def State.hostMod (s : State) (f : HostS → HostS) : State := { s with host := f s.host }

/-- One port changed. -/
def State.portHost (s : State) (p : Nat) (f : PortS → PortS) : State := s.hostMod (fun h => { h with ports := modifyAt h.ports p f })

/-- The port a tenant's rings belong to (R404). -/
def State.rport (s : State) (t : Nat) : Nat := s.fget (Reg.HST_STAT_RPORT t)

/-- The port of the tenant's rings is PE0 or PE1. -/
def State.onPcie (s : State) (t : Nat) : Bool := decide (s.rport t < 2)

/-! ## Taking commands (R16, R25, R404, R405, R482) -/

/-- A tenant has a command ready: a warden runs and HIBERNATE has not begun, the rings are enabled and hold an entry that the
device can read, fewer than eight have been taken in the tick, and a completion entry is free. -/
def State.ready (s : State) (t : Nat) : Bool :=
  s.wardenUp && s.boot.hiber.isNone && s.rings t && s.rget (Reg.HST_CQ_HEAD t) != s.rget (Reg.HST_CQ_TAIL t) &&
  (!s.onPcie t || s.dmaOn t) && decide ((s.ten t).taken < 8) && s.cplFree t

/-- The device can accept a command of a tenant: it has one ready, and no lower-numbered tenant has (R405). When the device has read a lower-numbered tenant's
entries from host memory its own COMMAND_TAKE says; those of SPI and TWA it has at once. -/
def State.canTake (s : State) (t : Nat) : Bool := s.ready t && (List.range t).all (fun k => s.onPcie k || !s.ready k)

/-- A command is accepted: HST_CQ_HEAD advances and a completion entry is held for it. -/
def State.accept (s : State) (t : Nat) : State :=
  (s.rsetN (Reg.HST_CQ_HEAD t) (((s.rget (Reg.HST_CQ_HEAD t)).toNat + 1) % 256)).tenMod t (fun x => { x with
    inflight := x.inflight + 1, taken := x.taken + 1, tookAt := s.now + 1 })

/-- What a command of a tenant does at stu `u`, once accepted. -/
def State.hostCmd (s : State) (t u : Nat) (f : State → State) : State :=
  let s1 := (s.at u).inTurn t
  if s1.canTake t then f (s1.accept t) else s1

/-- A command that completes at its acceptance. -/
def State.done (s : State) (t tag op status : Nat) (result : List Byte := []) : State := s.complete t tag op status s.stamp result

/-- A data reference lies within the data window, where the rings lie on SPI or TWA (R406). -/
def State.refOk (s : State) (t daddr dlen : Nat) : Bool := s.onPcie t || decide (daddr + dlen ≤ 16384)

/-- Bytes go to a data reference (R406): host memory, or the data window. -/
def State.putData (s : State) (t daddr : Nat) (l : List Byte) : State :=
  if s.onPcie t then s.dma t daddr l else s.tenMod t (fun x => { x with window := memWrite x.window (0x4000 + daddr) l })

/-! ## Images (R408, R411) -/

/-- IMAGE subop 0. -/
def State.imageLoad (s : State) (t tag : Nat) (b : List Byte) : State := s.imageArrived t tag b

/-- IMAGE subops 1 and 3: parts are for SPI and TWA (R408), of up to 16 KiB. -/
def State.imageParts (s : State) (t tag off : Nat) (b : List Byte) (last : Bool) : State :=
  if s.onPcie t || decide (16384 < b.length) then s.done t tag 1 0x10 else s.imagePart t tag off b last

/-- IMAGE_LOAD (R408). -/
def execImageLoad (t : Fin 4) (tag : BitVec 16) (b : List Byte) (u : Nat) (s : State) : Host.Outcome State Fault Refusal :=
  .next (s.hostCmd t u (fun x => x.imageLoad t tag.toNat b))

/-- IMAGE_PART (R411). -/
def execImagePart (t : Fin 4) (tag : BitVec 16) (off : BitVec 32) (b : List Byte) (u : Nat) (s : State) : Host.Outcome State Fault Refusal :=
  .next (s.hostCmd t u (fun x => x.imageParts t tag.toNat off.toNat b false))

/-- IMAGE_LAST_PART (R411). -/
def execImageLastPart (t : Fin 4) (tag : BitVec 16) (off : BitVec 32) (b : List Byte) (u : Nat) (s : State) : Host.Outcome State Fault Refusal :=
  .next (s.hostCmd t u (fun x => x.imageParts t tag.toNat off.toNat b true))

/-- IMAGE_UNLOAD (R256, R408). -/
def execImageUnload (t : Fin 4) (tag h : BitVec 16) (u : Nat) (s : State) : Host.Outcome State Fault Refusal :=
  .next (s.hostCmd t u (fun x => x.unloadCmd t tag.toNat h.toNat))

/-! ## Contexts, budget and bindings (R408, R410, R413, R414) -/

/-- OPEN (R248, R408). -/
def execOpenCtx (t : Fin 4) (tag : BitVec 16) (n : Fin 256) (u : Nat) (s : State) : Host.Outcome State Fault Refusal :=
  .next (s.hostCmd t u (fun x => x.openCtx t tag.toNat n))

/-- CLOSE (R106, R408). -/
def execCloseCtx (t : Fin 4) (tag : BitVec 16) (n : Fin 256) (u : Nat) (s : State) : Host.Outcome State Fault Refusal :=
  .next (s.hostCmd t u (fun x => x.closeCmd t tag.toNat n))

/-- CCS_CTRL by the owner (R66): the word is taken, and SSC and FMAX come into force at the boundary. -/
def State.wrCcsCtrl (s : State) (v : Word) : State :=
  let s1 := s.wr Reg.CCS_CTRL v
  s1.request 0 (.reg Reg.CCS_CTRL (s1.rget Reg.CCS_CTRL))

/-- LDG_RESV by a tenant that may set it (R275). -/
def State.wrResv (s : State) (v : Word) : State := (s.wr Reg.LDG_RESV v).ldgMod (fun x => { x with resvAt := s.now })

/-- BUDGET (R408): the selected fields, each where it counts. -/
def State.budget (s : State) (t tag : Nat) (mask : Nat) (pcap level fmax : Nat) : State :=
  let s1 := if bitOf mask 0 && t == 0 then s.wr Reg.LDG_PCAP (putField (s.rget Reg.LDG_PCAP) 10 0 pcap) else s
  let s2 := if bitOf mask 2 && t == 0 then s1.wrCcsCtrl (putField (s1.rget Reg.CCS_CTRL) 18 0 fmax) else s1
  let s3 := if bitOf mask 1 && (t == 0 || s2.right t 3) then
      s2.wrResv (putField (s2.rget Reg.LDG_RESV) Reg.LDG_RESV_LEVEL.hi Reg.LDG_RESV_LEVEL.lo level) else s2
  s3.done t tag 4 0

/-- BUDGET (R408). -/
def execBudget (t : Fin 4) (tag : BitVec 16) (mask : BitVec 8) (pcap : BitVec 16) (level : BitVec 8) (fmax : BitVec 32) (u : Nat) (s : State) :
    Host.Outcome State Fault Refusal :=
  .next (s.hostCmd t u (fun x => x.budget t tag.toNat mask.toNat pcap.toNat level.toNat fmax.toNat))

/-- The target a BIND names (R408, R413): 1 stream, 2 journal, 3 bulk, 4 context output. -/
def bindTarget (target a b : Nat) : Option Target :=
  if target = 1 then (if 1 ≤ a ∧ a ≤ 31 then some (.stream a) else none)
  else if target = 2 then some .journal
  else if target = 3 then some .bulk
  else if target = 4 then (if b ≤ 15 then some (.ctxOut a b) else none)
  else none

/-- A source of a CTXOUT binding that R172 does not admit: the context itself, or one that is not the tenant's. The status is DEDUCED (log entry 79). -/
def State.badFarEnd (s : State) (t n : Nat) (g : Target) : Option Nat :=
  match g with
  | .ctxOut m _ => if m = n then some 0x10 else if s.owner m ≠ some t then some 0x13 else none
  | _ => none

/-- BIND subop 0 (R172, R408, R410). -/
def State.bindCmd (s : State) (t tag n q target a b : Nat) : State :=
  match bindTarget target a b with
  | none => s.done t tag 5 0x10
  | some g =>
    if 15 < q then s.done t tag 5 0x10
    else if s.owner n ≠ some t then s.done t tag 5 0x13
    else if s.isOpen n || (s.ctx n).opening then s.done t tag 5 0x14
    else match s.badFarEnd t n g with
      | some e => s.done t tag 5 e
      | none => (s.portMod n q (fun p => { p with target := g })).done t tag 5 0

/-- BIND (R408). -/
def execBindPort (t : Fin 4) (tag : BitVec 16) (n : Fin 256) (q target a b : BitVec 8) (u : Nat) (s : State) : Host.Outcome State Fault Refusal :=
  .next (s.hostCmd t u (fun x => x.bindCmd t tag.toNat n q.toNat target.toNat a.toNat b.toNat))

/-- A PUSH buffer of R414: 64 KiB to 16 MiB, a power of two, aligned to its size. -/
def pushOk (base size : Nat) : Bool := (List.range 9).any (fun k => size == 65536 * 2 ^ k) && base % Nat.max 1 size == 0

/-- BIND subop 1 (R413, R414). -/
def State.streamSetup (s : State) (t tag k mode base size wb : Nat) : State :=
  if 31 < k ∨ 1 < mode then s.done t tag 5 0x10
  else if k = 0 && !s.right t 2 then s.done t tag 5 0x17
  else if mode = 0 then
    (s.tenMod t (fun x => { x with streams := modifyAt x.streams k (fun q => { q with push := false }) })).done t tag 5 0
  else if !s.onPcie t then s.done t tag 5 0x19
  else if !pushOk base size then s.done t tag 5 0x10
  else
    let s1 := s.tenMod t (fun x => { x with streams := modifyAt x.streams k (fun q => { q with
      push := true, base := base, size := size, writeBack := wb }) })
    (((s1.rsetN (Reg.HST_SRD t k) 0).rsetN (Reg.HST_SWR t k) 0).done t tag 5 0).pump t k

/-- STREAM_SETUP (R414). -/
def execStreamSetup (t : Fin 4) (tag : BitVec 16) (k mode : BitVec 8) (base : BitVec 64) (size : BitVec 32) (wb : BitVec 64) (u : Nat) (s : State) :
    Host.Outcome State Fault Refusal :=
  .next (s.hostCmd t u (fun x => x.streamSetup t tag.toNat k.toNat mode.toNat base.toNat size.toNat wb.toNat))

/-- READ_STREAM subop 0 (R413, R415). -/
def State.readStream (s : State) (t tag k daddr dlen : Nat) : State :=
  if 31 < k || !s.refOk t daddr dlen then s.done t tag 6 0x10
  else if k = 0 && !s.right t 2 then s.done t tag 6 0x17
  else if ((s.ten t).streams.getD k {}).push then s.done t tag 6 0x19
  else
    let (l, c, s1) := takeEntries t k (dlen / 16 + 1) dlen s
    (s1.putData t daddr l).done t tag 6 0 (leBytes l.length 4 ++ leBytes c 4)

/-- READ_STREAM (R415). -/
def execReadStream (t : Fin 4) (tag : BitVec 16) (k : BitVec 8) (daddr : BitVec 64) (dlen : BitVec 32) (u : Nat) (s : State) :
    Host.Outcome State Fault Refusal :=
  .next (s.hostCmd t u (fun x => x.readStream t tag.toNat k.toNat daddr.toNat dlen.toNat))

/-- READ_STREAM subop 1 (R352, R415). -/
def State.readPassage (s : State) (t tag first daddr dlen : Nat) : State :=
  if !s.refOk t daddr dlen then s.done t tag 6 0x10
  else if !s.right t 2 then s.done t tag 6 0x17
  else
    let (l, c) := s.passageRead (s.fst.ingots.length + 1) first dlen
    (s.putData t daddr l).done t tag 6 0 (leBytes l.length 4 ++ leBytes c 4)

/-- READ_PASSAGE (R415). -/
def execReadPassage (t : Fin 4) (tag : BitVec 16) (first daddr : BitVec 64) (dlen : BitVec 32) (u : Nat) (s : State) :
    Host.Outcome State Fault Refusal :=
  .next (s.hostCmd t u (fun x => x.readPassage t tag.toNat first.toNat daddr.toNat dlen.toNat))

/-! ## Witness requests and snapshots (R343, R464) -/

/-- WITNESS subop 0 (R343): an OBS reference at the first boundary that R15 allows. -/
def State.obsCmd (s : State) (t tag : Nat) : State :=
  if !s.right t 1 then s.done t tag 7 0x17
  else s.witMod (fun w => { w with want := w.want ++ [(s.boundaryTick * tickStu, { tenant := t, tag := tag, accept := s.stamp })] })

/-- WITNESS_OBS (R343). -/
def execWitnessObs (t : Fin 4) (tag : BitVec 16) (u : Nat) (s : State) : Host.Outcome State Fault Refusal :=
  .next (s.hostCmd t u (fun x => x.obsCmd t tag.toNat))

/-- WITNESS subop 1 (R343, R344). -/
def State.eventCmd (s : State) (t tag code : Nat) (data : List Byte) : State :=
  if code < 16 ∨ 31 < code ∨ 32 < data.length then s.done t tag 7 0x10
  else if !s.right t 1 then s.done t tag 7 0x17
  else s.witEvent code s.now none data t (some { tenant := t, tag := tag, accept := s.stamp })

/-- WITNESS_EVENT (R343). -/
def execWitnessEvent (t : Fin 4) (tag : BitVec 16) (code : BitVec 8) (data : List Byte) (u : Nat) (s : State) : Host.Outcome State Fault Refusal :=
  .next (s.hostCmd t u (fun x => x.eventCmd t tag.toNat code.toNat data))

/-- SNAP_RELEASE's effect (R464): a release during the capture waits for its end. -/
def State.releaseCmd (s : State) (t tag : Nat) : State :=
  if t ≠ 0 && !s.right t 4 then s.done t tag 8 0x17
  else if !s.flag Reg.SNP_STAT_HELD then s.done t tag 8 0x53
  else if s.flag Reg.SNP_STAT_RAWON then (s.fsetB Reg.SNP_STAT_RELPEND true).done t tag 8 0
  else s.snapRelease.done t tag 8 0

/-- SNAP_RELEASE (R464). -/
def execSnapRelease (t : Fin 4) (tag : BitVec 16) (u : Nat) (s : State) : Host.Outcome State Fault Refusal :=
  .next (s.hostCmd t u (fun x => x.releaseCmd t tag.toNat))

/-! ## Proofs and the tenancy table (R396 to R401) -/

/-- `n` free bytes, from the DRBG. -/
def State.drbg (s : State) (n : Nat) : List Byte × State :=
  let (f, s1) := s.free1
  (beBytes f n, s1)

/-- A proof is in force on the port of a tenant's rings. -/
def State.proofOn (s : State) (p : Nat) : Bool := (s.host.ports.getD p {}).proof.isSome

/-- The proof on a port ends (R400). -/
def State.endProofOn (s : State) (p : Nat) : State := s.portHost p (fun x => { x with proof := none, nonce := none })

/-- What a TENANCY command of T0 does with its proof in force; otherwise it is refused (R401). -/
def State.withProof (s : State) (t tag : Nat) (f : State → State) : State :=
  if t ≠ 0 then s.done t tag 9 0x11 else if !s.proofOn (s.rport t) then s.done t tag 9 0x12 else f s

/-- TENANCY subop 0 (R400). -/
def State.challengeCmd (s : State) (t tag : Nat) : State :=
  if t ≠ 0 then s.done t tag 9 0x11
  else
    let (n, s1) := s.drbg 32
    (s1.portHost (s.rport t) (fun x => { x with nonce := some n })).done t tag 9 0 n

/-- CHALLENGE (R400). -/
def execChallenge (t : Fin 4) (tag : BitVec 16) (u : Nat) (s : State) : Host.Outcome State Fault Refusal :=
  .next (s.hostCmd t u (fun x => x.challengeCmd t tag.toNat))

/-- The tenancy table of an unowned device (R399). -/
def State.unownedTable : List TenEntry :=
  [{ enabled := true, ports := 15, ctxBase := 0, ctxCount := 256, engShare := 0, nrgShare := 0,
     storeQ := 4294967295, flashQ := 4294967295, rights := 0x1F }, {}, {}, {}]

/-- The root is written with the owner anchor and the tenancy table as they stand (R372, R398, R399); where nothing can be written, the next root has them. -/
def State.rootNow (s : State) : State := if s.fstCanWrite then s.writeRoot else s

/-- The check of a proof (R399, R400) for a port number: the certificate of a good one and its public point. A claim, made of an unowned
device, verifies under the certificate's own key. -/
def State.proofCert (s : State) (number : Nat) (nonce b : List Byte) : Option (List Byte × List Byte) :=
  let cert := b.take (b.length - 64)
  let sig := b.drop (b.length - 64)
  match Config.certPoint cert with
  | none => none
  | some k =>
    let good := match s.host.anchor with
      | none => Config.certSignedBy cert k
      | some a => Config.certSignedBy cert a || a == k
    if good && Config.verify k (nonce ++ beBytes s.otp.devid 8 ++ leBytes number 1) sig then some (cert, k) else none

/-- A good proof is in force on a port for 600 s; the first of an unowned device claims it. -/
def State.proofMade (s : State) (p : Nat) (cert k : List Byte) : State :=
  let s1 := s.portHost p (fun x => { x with proof := some (s.now + 600 * secStu), cert := sha256 cert })
  if s.host.anchor.isSome then s1
  else (s1.hostMod (fun h => { h with anchor := some k, table := State.unownedTable })).showShares.rootNow

/-- TENANCY subop 1 (R399, R400): the nonce is used once. -/
def State.proveCmd (s : State) (t tag : Nat) (b : List Byte) : State :=
  if 2048 < b.length then s.done t tag 9 0x10
  else if t ≠ 0 then s.done t tag 9 0x11
  else if !s.mounted then s.done t tag 9 0x51
  else
    let p := s.rport t
    let s1 := s.portHost p (fun x => { x with nonce := none })
    match (s.host.ports.getD p {}).nonce with
    | none => s1.done t tag 9 0x50
    | some n =>
      match s.proofCert p n b with
      | none => s1.done t tag 9 0x50
      | some (cert, k) => (s1.proofMade p cert k).done t tag 9 0

/-- PROVE (R400). -/
def execProveOwner (t : Fin 4) (tag : BitVec 16) (b : List Byte) (u : Nat) (s : State) : Host.Outcome State Fault Refusal :=
  .next (s.hostCmd t u (fun x => x.proveCmd t tag.toNat b))

/-- One table entry read from its 64 bytes (R396). -/
def tenEntryOf (b : List Byte) : TenEntry :=
  { enabled := bitOf (leAt b 0 1) 0, ports := leAt b 1 1 % 16, ctxBase := leAt b 2 2, ctxCount := leAt b 4 2, engShare := leAt b 6 1
    nrgShare := leAt b 7 1, storeQ := leAt b 8 4, flashQ := leAt b 12 4, rights := leAt b 16 1 % 64
    kids := (List.range 4).map (fun k => slice b (24 + 8 * k) 8) }

/-- A tenancy table read from its 256 bytes. -/
def tableOf (b : List Byte) : List TenEntry := (List.range 4).map (fun t => tenEntryOf (slice b (64 * t) 64))

/-- Two enabled entries name a port, or their context ranges have a context in common (R397). -/
def TenEntry.clash (a b : TenEntry) : Bool :=
  a.enabled && b.enabled &&
  ((List.range 4).any (fun p => bitOf a.ports p && bitOf b.ports p) ||
   decide (Nat.max a.ctxBase b.ctxBase < Nat.min (a.ctxBase + a.ctxCount) (b.ctxBase + b.ctxCount)))

/-- The checks of R397. -/
def tableBad (l : List TenEntry) : Bool :=
  let e := fun t => l.getD t {}
  let on := l.filter (·.enabled)
  (List.range 4).any (fun a => (List.range a).any (fun b => (e a).clash (e b))) ||
  on.any (fun x => decide (256 < x.ctxBase + x.ctxCount)) ||
  !(e 0).enabled || (e 0).ports == 0 ||
  decide (256 < sumN (on.map (·.engShare))) || decide (256 < sumN (on.map (·.nrgShare))) ||
  l.any (fun x => bitOf x.rights 5 && x.signers.isEmpty)

/-- TENANCY subop 2 (R397, R398). -/
def State.writeTableCmd (s : State) (t tag : Nat) (b : List Byte) : State :=
  if b.length ≠ 256 then s.done t tag 9 0x10
  else s.withProof t tag (fun x =>
    if tableBad (tableOf b) then x.done t tag 9 0x52 else x.request 0 (.table (tableOf b) (x.rport t) tag))

/-- WRITE_TABLE (R397). -/
def execWriteTable (t : Fin 4) (tag : BitVec 16) (b : List Byte) (u : Nat) (s : State) : Host.Outcome State Fault Refusal :=
  .next (s.hostCmd t u (fun x => x.writeTableCmd t tag.toNat b))

/-- TENANCY subop 3 (R401). -/
def State.readTableCmd (s : State) (t tag daddr dlen : Nat) : State :=
  if dlen ≠ 256 || !s.refOk t daddr dlen then s.done t tag 9 0x10
  else s.withProof t tag (fun x => (x.putData t daddr ((List.range 4).map (fun k => (x.tenancy k).bytes)).flatten).done t tag 9 0)

/-- READ_TABLE (R401). -/
def execReadTable (t : Fin 4) (tag : BitVec 16) (daddr : BitVec 64) (dlen : BitVec 32) (u : Nat) (s : State) : Host.Outcome State Fault Refusal :=
  .next (s.hostCmd t u (fun x => x.readTableCmd t tag.toNat daddr.toNat dlen.toNat))

/-- TENANCY_CLEAR (R401): a request. -/
def execTenancyClear (t : Fin 4) (tag : BitVec 16) (u : Nat) (s : State) : Host.Outcome State Fault Refusal :=
  .next (s.hostCmd t u (fun x => x.withProof t tag.toNat (fun y => y.request 0 (.clear (y.rport t) tag.toNat (y.witTime y.now)))))

/-- END_PROOF (R400): refused where no proof is in force. -/
def execEndProof (t : Fin 4) (tag : BitVec 16) (u : Nat) (s : State) : Host.Outcome State Fault Refusal :=
  .next (s.hostCmd t u (fun x => x.withProof t tag.toNat (fun y => (y.endProofOn (y.rport t)).done t tag.toNat 9 0)))

/-- PROOF_EXPIRE (R400): 600 s after its acceptance. -/
def execProofExpire (p : Fin 5) (s : State) : Host.Outcome State Fault Refusal :=
  .next (
    match (s.host.ports.getD p {}).proof with
    | none => s
    | some e => (s.at e).endProofOn p)

/-! ## Rings and resets (R404, R417, R418) -/

/-- A tenant's rings are off: what has not been accepted is dropped; completions that come later are counted lost. -/
def State.ringsOff (s : State) (t : Nat) : State :=
  let x := s.ten t
  let s1 := ((s.fsetB (Reg.HST_CTRL_RING_EN t) false).fsetB (Reg.HST_STAT_RINGS t) false).fsetB (Reg.HST_STAT_CPLFULL t) false
  let s2 := s1.rset (Reg.HST_CQ_HEAD t) (s1.rget (Reg.HST_CQ_TAIL t))
  let s3 := s2.bumpBy (whole (Reg.HST_LOSTCPL t)) (x.waitEvents.length + x.waitReqs.length)
  ((s3.tenMod t (fun y => { y with inflight := 0, ring := [], fresh := [], waitEvents := [], waitReqs := [], held := [] })).evPend t).pins

/-- A partial image is discarded (R418). -/
def State.dropLoad (s : State) (t : Nat) : State := (s.tenMod t (fun x => { x with load := none })).fsetB (Reg.HST_STAT_LOADING t) false

/-- PUSH streams return to PULL with their entries kept (R417). -/
def State.pullAll (s : State) (t : Nat) : State := s.tenMod t (fun x => { x with streams := x.streams.map (fun q => { q with push := false }) })

/-- A port reset as it meets one tenant (R417). -/
def State.resetRings (s : State) (t p : Nat) : State :=
  if s.rings t && s.rport t == p then ((s.ringsOff t).dropLoad t).pullAll t else s

/-- A port reset (R417): the rings that belong to the port, and its proof. -/
def State.portReset (s : State) (p : Nat) : State :=
  ((List.range 4).foldl (fun (x : State) t => x.resetRings t p) s).endProofOn p

/-- PORT_RESET (R417): a PCIe port is reset; Bus Master Enable is 0 again. -/
def execPortReset (p : Fin 2) (u : Nat) (s : State) : Host.Outcome State Fault Refusal :=
  .next (((s.at u).portReset p).portHost p (fun x => { x with busMaster := false }))

/-- Bus Master Enable of a port (R392): DMA that waited is done once it is set. -/
def State.busMaster (s : State) (p : Nat) (on : Bool) : State :=
  let s1 := s.portHost p (fun x => { x with busMaster := on })
  if !on then s1
  else (List.range 4).foldl (fun (x : State) t =>
    if x.rings t && x.rport t == p then
      let y := (x.ten t).held.foldl (fun (z : State) d => z.dma t d.1 d.2) (x.tenMod t (fun q => { q with held := [] }))
      (List.range 32).foldl (fun (z : State) k => z.pump t k) y
    else x) s1

/-- BUS_MASTER_CLEAR (R392): the host writes Bus Master Enable. -/
def execBusMasterClear (p : Fin 2) (on : Bool) (u : Nat) (s : State) : Host.Outcome State Fault Refusal :=
  .next ((s.at u).busMaster p on)

/-- HST_CTRL written through port `p` of tenant `t` (R404, R417): RING_EN binds the rings to the port and zeroes the indexes; TRESET is a request. -/
def State.wrHstCtrl (s : State) (t p : Nat) (v : Word) : State :=
  let s1 :=
    if bitOf v.toNat 30 then
      let a := (((s.rsetN (Reg.HST_CQ_TAIL t) 0).rsetN (Reg.HST_CQ_HEAD t) 0).rsetN (Reg.HST_CPL_HEAD t) 0).rsetN (Reg.HST_CPL_TAIL t) 0
      let b := ((a.fsetB (Reg.HST_CTRL_RING_EN t) true).fsetB (Reg.HST_STAT_RINGS t) true).fset (Reg.HST_STAT_RPORT t) p
      ((b.fsetB (Reg.HST_STAT_CPLFULL t) false).tenMod t (fun x => { x with
        phase := true, ring := [], fresh := []
        ringAt := if s.rings t then x.ringAt else s.stamp, inflight := if s.rings t then x.inflight else 0 })).pins
    else if s.rings t then s.ringsOff t else s
  if bitOf v.toNat 31 then s1.request t (.treset t) else s1

/-- HST_CQ_TAIL, HST_CPL_HEAD and HST_SRD by tenant `t` (R404, R405, R414). -/
def State.wrCqTail (s : State) (t : Nat) (v : Word) : State := s.rsetN (Reg.HST_CQ_TAIL t) (v.toNat % 256)

/-- Completion entries are returned, the oldest first, as many as the index advances: waiting events and request completions are written while entries are free. -/
def State.wrCplHead (s : State) (t : Nat) (v : Word) : State :=
  let s1 := s.rsetN (Reg.HST_CPL_HEAD t) (v.toNat % 256)
  let s2 := (s1.fsetB (Reg.HST_STAT_CPLFULL t) (s.flag (Reg.HST_STAT_CPLFULL t) && s1.rget (Reg.HST_CPL_HEAD t) == s.rget (Reg.HST_CPL_HEAD t)))
  let s3 := s2.tenMod t (fun x => { x with fresh := x.fresh.drop (x.fresh.length - s2.unread t) })
  if s3.rings t then drainEvents t ((s3.ten t).waitEvents.length + (s3.ten t).waitReqs.length) s3 else s3

/-- The host frees space of a PUSH stream. -/
def State.wrSrd (s : State) (t k : Nat) (v : Word) : State := (s.rset (Reg.HST_SRD t k) v).pump t k

/-- CPL_COALESCE_TIMEOUT (R416): TMO microseconds after the first unread completion. -/
def execCplCoalesceTimeout (t : Fin 4) (s : State) : Host.Outcome State Fault Refusal :=
  .next (
    match (s.ten t).firstUnread with
    | none => s
    | some f =>
      let s1 := s.at (f + nsStu (1000 * zeroAs1 (s.fget (Reg.HST_ICOAL_TMO t))))
      (s1.tenMod t (fun x => { x with fresh := [] })).cause t (Reg.HST_ICAUSE_CPL t))

/-! ## Boundary effects of the tenancy (R398, R401, R417, R418) -/

/-- Contexts that a tenant no longer holds close; opens of theirs end with "not yours"; the images of disabled tenants go. -/
def State.enforce (s : State) : State :=
  let lost := fun (n t : Nat) => s.owner n != some t
  let s1 := (s.ctxs.filter (fun p => p.2.mode != .closed && lost p.1 p.2.tenant)).foldl (fun (x : State) p => x.closeEffect p.1) s
  let s2 := (s1.ctxs.filter (fun p => p.2.opening && lost p.1 p.2.tenant)).foldl (fun (x : State) p => x.cancelOpen p.1 0x13) s1
  { s2 with images := s2.images.filter (fun im => (s2.tenancy im.tenant).enabled) }

/-- A new table or anchor is in force: contexts, images, moved ports, the root and the cause of every tenant (R398). -/
def State.retable (s : State) (anchor : Option (List Byte)) (l : List TenEntry) : State :=
  let was := (List.range 4).map s.portTenant
  let s1 := (s.hostMod (fun h => { h with anchor := anchor, table := l })).showShares.enforce
  let s2 := (List.range 4).foldl (fun (x : State) p =>
    match was.getD p none with
    | some t => if x.portTenant p = some t then x else (x.resetRings t p).endProofOn p
    | none => x) s1
  s2.rootNow.causes [0, 1, 2, 3] Reg.HST_ICAUSE_TENANCY

/-- A tenancy table at its boundary (R398). -/
def State.tableEffect (s : State) (accept tag : Nat) (l : List TenEntry) : State :=
  (s.retable s.host.anchor l).complete 0 tag 9 0 accept []

/-- A clear at its boundary (R401). -/
def State.clearEffect (s : State) (accept tag : Nat) (time : WitTime) : State :=
  ((s.retable none []).releaseOwk 2 accept time).complete 0 tag 9 0 accept []

/-- A tenant reset at its boundary (R417, R418): contexts close, opens end with "context closed", images, bindings and stream setups go, and the rings
are reset: the completion of an image still in verification is counted lost with the image. -/
def State.tresetEffect (s : State) (t : Nat) : State :=
  let s1 := (s.ctxs.filter (fun p => p.2.mode != .closed && p.2.tenant == t)).foldl (fun (x : State) p => x.closeEffect p.1) s
  let s2 := (s1.ctxs.filter (fun p => p.2.opening && p.2.tenant == t)).foldl (fun (x : State) p => x.cancelOpen p.1 0x15) s1
  let mine := s2.ctxs.filter (fun p => s2.owner p.1 == some t)
  let s3 := mine.foldl (fun (x : State) p => x.ctxMod p.1 (fun c => { c with ports := c.ports.map (fun q => { q with target := .unbound }) })) s2
  let s4 : State := { s3 with images := s3.images.filter (fun im => im.tenant != t) }
  let s5 := s4.tenMod t (fun x => { x with
    streams := x.streams.map (fun q => { ({} : StreamS) with entries := q.entries }), verify := [] })
  (((s5.bumpBy (whole (Reg.HST_LOSTCPL t)) (s2.ten t).verify.length).ringsOff t).dropLoad t).showSeq

/-! ## Command entries (R406, R408) -/

/-- The bytes from 8 to 63 that a command's parameters use, by opcode and subop; none for a command the device does not know. -/
def paramBytes (op sub : Nat) : Option (List (Nat × Nat)) :=
  match op, sub with
  | 1, 0 => some [(8, 19)]
  | 1, 1 => some [(8, 23)]
  | 1, 3 => some [(8, 23)]
  | 1, 2 => some [(24, 25)]
  | 2, 0 => some [(8, 8)]
  | 3, 0 => some [(8, 8)]
  | 4, 0 => some [(8, 8), (12, 14), (16, 19)]
  | 5, 0 => some [(8, 12)]
  | 5, 1 => some [(20, 21), (24, 35), (40, 47)]
  | 6, 0 => some [(8, 20)]
  | 6, 1 => some [(8, 19), (24, 31)]
  | 7, 0 => some []
  | 7, 1 => some [(8, 9), (24, 55)]
  | 8, 0 => some []
  | 9, 0 => some []
  | 9, 1 => some [(8, 19)]
  | 9, 2 => some [(8, 19)]
  | 9, 3 => some [(8, 19)]
  | 9, 4 => some []
  | 9, 5 => some []
  | _, _ => none

/-- A command that reads data from its data reference. -/
def takesData (op sub : Nat) : Bool := (op == 1 && sub != 2) || (op == 9 && (sub == 1 || sub == 2))

/-- One command entry, with the data its reference names (R406, R408). -/
def State.runEntry (s : State) (t : Nat) (e data : List Byte) : State :=
  let op := leAt e 0 1
  let sub := leAt e 1 1
  let tag := leAt e 2 2
  match paramBytes op sub with
  | none => s.done t tag op 0x10
  | some used =>
    if leAt e 4 4 ≠ 0 || (List.range 56).any (fun i => !used.any (fun p => decide (p.1 ≤ 8 + i) && decide (8 + i ≤ p.2)) && leAt e (8 + i) 1 != 0) then
      s.done t tag op 0x10
    else
    let daddr := leAt e 8 8
    let dlen := leAt e 16 4
    if takesData op sub && !s.refOk t daddr dlen then s.done t tag op 0x10 else
    let b := if s.onPcie t then data.take dlen else memRead (s.ten t).window (0x4000 + daddr) (if takesData op sub then dlen else 0)
    match op, sub with
    | 1, 0 => s.imageLoad t tag b
    | 1, 1 => s.imageParts t tag (leAt e 20 4) b false
    | 1, 3 => s.imageParts t tag (leAt e 20 4) b true
    | 1, _ => s.unloadCmd t tag (leAt e 24 2)
    | 2, _ => s.openCtx t tag (leAt e 8 1)
    | 3, _ => s.closeCmd t tag (leAt e 8 1)
    | 4, _ => s.budget t tag (leAt e 8 1) (leAt e 12 2) (leAt e 14 1) (leAt e 16 4)
    | 5, 0 => s.bindCmd t tag (leAt e 8 1) (leAt e 9 1) (leAt e 10 1) (leAt e 11 1) (leAt e 12 1)
    | 5, _ => s.streamSetup t tag (leAt e 20 1) (leAt e 21 1) (leAt e 24 8) (leAt e 32 4) (leAt e 40 8)
    | 6, 0 => s.readStream t tag (leAt e 20 1) daddr dlen
    | 6, _ => s.readPassage t tag (leAt e 24 8) daddr dlen
    | 7, 0 => s.obsCmd t tag
    | 7, _ => if 32 < leAt e 9 1 then s.done t tag 7 0x10 else s.eventCmd t tag (leAt e 8 1) (slice e 24 (leAt e 9 1))
    | 8, _ => s.releaseCmd t tag
    | 9, 0 => s.challengeCmd t tag
    | 9, 1 => s.proveCmd t tag b
    | 9, 2 => s.writeTableCmd t tag b
    | 9, 3 => s.readTableCmd t tag daddr dlen
    | 9, 4 => s.withProof t tag (fun y => y.request 0 (.clear (y.rport t) tag (y.witTime y.now)))
    | _, _ => s.withProof t tag (fun y => (y.endProofOn (y.rport t)).done t tag 9 0)

/-- COMMAND_TAKE (R405, R406): the device takes the entry at HST_CQ_HEAD. On PCIe `entry` and `data` are what it reads from host memory; on SPI
and TWA it reads the command ring and the data window. -/
def execCommandTake (t : Fin 4) (entry data : List Byte) (u : Nat) (s : State) : Host.Outcome State Fault Refusal :=
  .next (
    let s1 := s.at u
    let e := if s1.onPcie t then (entry ++ List.replicate 64 0).take 64
      else memRead (s1.ten t).window (0x8000 + 64 * ((s1.rget (Reg.HST_CQ_HEAD t)).toNat % 256)) 64
    s.hostCmd t u (fun x => x.runEntry t e data))

end Sys2Proof.Machine
end

