-- ==== Sys2Proof/Machine/Tw.lean ====
section
/-!
DEFINITION. The two-wire buses (chapter 16): Host Notify and the alert response on TWA, bus-free, time-outs, bus clears and the rise-time
monitor. Bus 0 is TWA, bus 1 TWB. The regulator's transactions stand with the core clock, the transfers of a host with the register accesses.
-/

namespace Sys2Proof.Machine

/-- A bus carries the device's own transactions now: free, not stuck, and not paused by a loss of ICS lock (R79, R429). -/
def State.twFree (s : State) (b : Nat) : Bool :=
  s.up && !s.flag (Reg.TW_STAT_STUCK b) && !s.flag (Reg.TW_STAT_BUSY b) && !s.flag Reg.ICS_STAT_PAUSED

/-- An arbitration the device lost (R428): it is counted, and the transaction is retried after bus-free. -/
def State.arbLost (s : State) (b : Nat) : State :=
  (((s.fsetB (Reg.TW_STAT_ACTIVE b) false).evt (Reg.TW_EVT_ARB_LOST b)).bump (Reg.TW_CNT_ARB b)).busMod b (fun x => { x with retry := true })

/-- The device's own address on TWA, as TWA_STAT shows it (R421). -/
def State.twaAddr (s : State) : Nat := s.fget (Reg.TW_STAT_ADDR 0)

/-- The tenant whose rings lie on TWA. -/
def State.twaTenant (s : State) : Option Nat := (List.range 4).find? (fun t => s.rings t && s.rport t == 3)

/-- The data of a Host Notify (R423), after the host's address and the device's own. -/
def State.notifyBytes (s : State) : List Byte :=
  let c := match s.twaTenant with
    | some t => (s.rget (Reg.HST_ICAUSE t)).toNat
    | none => 0
  leBytes c 2

/-- HOST_NOTIFY (R423): the message is sent on a free bus; after its third refusal nothing more is sent until the condition rises again. -/
def execHostNotify (r : TwbResult) (t : Nat) (s : State) : Host.Outcome State Fault Refusal :=
  .next (
    let s1 := s.at t
    if !(s1.bus 0).notify || !s1.twFree 0 then s1 else
    let s2 := s1.busStart 0
    let s3 := s2.busMod 0 (fun x => { x with last := some (0x08, 2 * s1.twaAddr, s1.notifyBytes), retry := false })
    match r with
    | .arbLost => s3.arbLost 0
    | .nack =>
      let s4 := s3.fsetB (Reg.TW_STAT_ACTIVE 0) false
      if 2 ≤ (s1.bus 0).refusals then
        (s4.busMod 0 (fun x => { x with notify := false, refusals := 3 })).evt (Reg.TW_EVT_HN_FAIL 0)
      else s4.busMod 0 (fun x => { x with refusals := x.refusals + 1, retry := true })
    | _ => (s3.fsetB (Reg.TW_STAT_ACTIVE 0) false).busMod 0 (fun x => { x with notify := false }))

/-- A START on the bus: it is busy, and the timing registers are taken (R429, R431). -/
def State.startSeen (s : State) (b : Nat) : State :=
  if !s.up then s else
  (s.fsetB (Reg.TW_STAT_BUSY b) true).busMod b (fun x => { x with
    tim := [s.rget (Reg.TW_TIM0 b), s.rget (Reg.TW_TIM1 b), s.rget (Reg.TW_TIM2 b)] })

/-- ARA_READ (R424): the alert response address is read; the device that wins releases TWA_ALERT_N until the next cause. -/
def execAraRead (won : Bool) (t : Nat) (s : State) : Host.Outcome State Fault Refusal :=
  .next (
    let s1 := s.at t
    if !s1.served || !s1.flag (Reg.TW_CTRL_ARAEN 0) || s1.flag Reg.ICS_STAT_PAUSED then s1 else
    let s2 := (s1.startSeen 0).hostMod (fun h => { h with out := { h.out with bytes := leBytes (2 * s1.twaAddr) 1 } })
    if won then s2.busMod 0 (fun x => { x with alert := false, alertDone := x.pendingWas }) else s2)

/-- BUS_FREE (R429): TBUF after a STOP, or 50 microseconds of both lines high. The next transaction of a reading in hand starts at once, and one that was refused,
lost or abandoned again (R69, R427, R428, R433). -/
def execBusFree (b : Fin 2) (t : Nat) (s : State) : Host.Outcome State Fault Refusal :=
  .next (
    let s1 := s.at t
    let s2 := ((s1.fsetB (Reg.TW_STAT_BUSY b) false).fsetB (Reg.TW_STAT_ACTIVE b) false).busMod b (fun x => { x with retry := false })
    if b.val = 1 ∧ s2.clk.ccs.readStage ≠ 0 ∧ s2.twbReady then s2.busStart 1 else s2)

/-- TW_START_SEEN (R429): another controller's START. -/
def execTwStartSeen (b : Fin 2) (t : Nat) (s : State) : Host.Outcome State Fault Refusal :=
  .next ((s.at t).startSeen b)

/-- TW_CONTROLLER_TIMEOUT (R433): a target holds SCL low for 25 ms; the transaction in hand is abandoned and retried after bus-free. -/
def execTwControllerTimeout (b : Fin 2) (t : Nat) (s : State) : Host.Outcome State Fault Refusal :=
  .next (
    let s1 := s.at t
    if !s1.up then s1 else
    ((s1.fsetB (Reg.TW_STAT_ACTIVE b) false).evt (Reg.TW_EVT_TIMEOUT b)).busMod b (fun x => { x with retry := true }))

/-- TW_TARGET_TIMEOUT (R434): SCL low for 35 ms in a transfer addressed to the device. The word whose last byte is not acknowledged is no part of
the transfer's command. -/
def execTwTargetTimeout (t : Nat) (s : State) : Host.Outcome State Fault Refusal :=
  .next (let s1 := s.at t; if s1.up then s1.evt (Reg.TW_EVT_TIMEOUT 0) else s1)

/-! ## Stuck lines (R435) -/

/-- STUCK of a bus; with TWB stuck the core voltage is frozen (R71, R435). -/
def State.setStuck (s : State) (b : Nat) (on : Bool) : State :=
  let s1 := s.fsetB (Reg.TW_STAT_STUCK b) on
  if b = 1 then s1.fsetB Reg.CCS_STAT_VFROZEN on else s1

/-- One bus-clear attempt that frees the line or does not. -/
def State.clearOnce (s : State) (b : Nat) (freed : Bool) : State :=
  let s1 := s.bump (Reg.TW_CNT_CLEARS b)
  if freed && s.flag (Reg.TW_STAT_STUCK b) then (s1.setStuck b false).evt (Reg.TW_EVT_UNSTUCK b) else s1

/-- A line is declared stuck. -/
def State.stuck (s : State) (b : Nat) : State :=
  ((s.setStuck b true).evt (Reg.TW_EVT_STUCK b)).fault 0x0005 255 255 0

/-- TW_STUCK_DETECT (R435): SDA has been low for 35 ms, or after an abandon: up to three clear attempts, of which `freed` frees it; SCL held low for
35 ms is stuck at once. -/
def execTwStuckDetect (b : Fin 2) (scl : Bool) (freed : Option (Fin 3)) (t : Nat) (s : State) : Host.Outcome State Fault Refusal :=
  .next (
    let s1 := s.at t
    if !s1.up || s1.flag (Reg.TW_STAT_STUCK b) then s1
    else if scl then s1.stuck b
    else match freed with
      | some k => s1.bumpBy (Reg.TW_CNT_CLEARS b) (k + 1)
      | none => (s1.bumpBy (Reg.TW_CNT_CLEARS b) 3).stuck b)

/-- TW_STUCK_RETRY (R435): a further attempt at each multiple of 3000 of TB_TICK. -/
def execTwStuckRetry (b : Fin 2) (freed : Bool) (s : State) : Host.Outcome State Fault Refusal :=
  .next (if s.flag (Reg.TW_STAT_STUCK b) && s.time.tick % 3000 == 0 then s.clearOnce b freed else s)

/-- TW_CTRL written by the owner: CLEAR makes an attempt, whose end is open. -/
def State.wrTwCtrl (s : State) (b : Nat) (v : Word) : State :=
  let s1 := s.wr (Reg.TW_CTRL b) v
  if bitOf v.toNat 31 then
    let (f, s2) := s1.free1
    s2.clearOnce b (f % 2 == 1)
  else s1

/-- RSTART_ABORT (R436): a START in an acknowledge slot; as controller (`ctl`) it is a lost arbitration. -/
def execRstartAbort (b : Fin 2) (ctl : Bool) (t : Nat) (s : State) : Host.Outcome State Fault Refusal :=
  .next (
    let s1 := s.at t
    if !s1.up then s1
    else if ctl then s1.arbLost b
    else if b = 0 then (s1.startSeen 0).evt (Reg.TW_EVT_RSTART_ABORT 0)
    else s1.startSeen 1)

/-! ## The rise-time monitor (R432) -/

/-- The maximum rise time and the least set-up time of the mode, ns. -/
def riseLimits (mode : Nat) : Nat × Nat := if mode = 0 then (1000, 250) else if mode = 1 then (300, 100) else (120, 50)

/-- A timing field in force: 0 acts as 1 (R431, R438). -/
def State.timField (s : State) (b k : Nat) (f : Reg.Fld) : Nat :=
  zeroAs1 (fieldOf ((s.bus b).tim.getD k (s.rget f.addr)) f.hi f.lo)

/-- The rise passes W less the least set-up time; W in 1/24 ns. -/
def State.riseMargin (s : State) (b rise low : Nat) : Bool :=
  let su := (riseLimits (s.fget (Reg.TW_CTRL_MODE b))).2
  let hd := s.timField b 1 (Reg.TW_TIM1_THD_DAT b)
  if b = 1 then
    decide (625 * (Nat.max (s.timField 1 0 (Reg.TW_TIM0_TLOW 1)) (hd + s.timField 1 1 (Reg.TW_TIM1_TSU_DAT 1)) - hd) < 24 * (rise + su))
  else decide (24 * low < 24 * (rise + su) + 625 * hd)

/-- RISE_MONITOR_JUDGE (R432): the largest rise and the shortest low time, ns, of the last 256 edges. -/
def execRiseMonitorJudge (b : Fin 2) (rise low : Nat) (t : Nat) (s : State) : Host.Outcome State Fault Refusal :=
  .next (
    let s1 := s.at t
    if !s1.up then s1 else
    let tr := decide ((riseLimits (s.fget (Reg.TW_CTRL_MODE b))).1 < rise)
    let mg := s1.riseMargin b rise low
    let s2 := (s1.fset (Reg.TW_RISE_MAXRISE b) (satTo 65535 rise)).fset (Reg.TW_RISE_MINLOW b) (satTo 65535 low)
    let s3 := (s2.fsetB (Reg.TW_STAT_TR_MAX b) tr).fsetB (Reg.TW_STAT_MARGIN b) mg
    let s4 := if tr then s3.evt (Reg.TW_EVT_TR_MAX b) else s3
    if mg then s4.evt (Reg.TW_EVT_MARGIN b) else s4)

end Sys2Proof.Machine
end

