-- ==== Sys2Proof/Machine/Access.lean ====
section
/-!
DEFINITION. Register access (R6 to R10, R25, R392 to R395, R403, R507, and chapter 21): what each tenant sees, what a read returns and latches, what a write
does, and the frames of the SPI and TWA ports.
-/

namespace Sys2Proof.Machine

/-! ## Tenant views (R514 to R519) -/

/-- The context whose CHN or BRS instance or window holds an address (R514, R517). -/
def ctxWord (a : Nat) : Option Nat :=
  if 0x60000 ≤ a ∧ a < 0x70000 then some ((a - 0x60000) / 0x100)
  else if 0xA0000 ≤ a ∧ a < 0xA4000 then some ((a - 0xA0000) / 0x40)
  else if 0x1000000 ≤ a ∧ a < 0x2000000 then some ((a - 0x1000000) / 0x10000)
  else none

/-- The instance of a table of `c` words `step` bytes apart from `base` that an address lies in. -/
def instOf (base c step a : Nat) : Option Nat :=
  if base ≤ a ∧ a < base + c * step then some ((a - base) / step) else none

/-- The address lies in [lo, hi). -/
def within (lo hi a : Nat) : Bool := decide (lo ≤ a) && decide (a < hi)

/-- The context belongs to the tenant. -/
def State.owns (s : State) (t n : Nat) : Bool := s.owner n == some t

/-- An address of the shared blocks, and the HST instance, that tenant `t` sees (R519, R465, R513, R133). -/
def State.seesShared (s : State) (t a : Nat) : Bool :=
  let own := fun (i : Option Nat) => (i.map (s.owns t)).getD false
  if a < 0x10000 then true
  else if a < 0x20000 then t == 0 || s.boot.rom || within 0x10000 0x10008 a || a == Reg.BOOT_FWVER
  else if a < 0x60000 then true
  else if within 0x70000 0x80000 a then true
  else if within 0x80000 0x90000 a then t == 0 || a == Reg.SEQ_STAT || own (instOf 0x80400 256 4 a)
  else if within 0x90000 0xA0000 a then
    t == 0 || a == Reg.LDG_STAT || a == Reg.LDG_TENS t || a == Reg.LDG_SHARE t || own (instOf 0x90400 256 4 a)
  else if within 0xB0000 0xB8000 a then t == 0 || (s.right t 2 && (a == Reg.WIT_STAT || within 0xB0010 0xB0040 a))
  else if within 0xB8000 0xC0000 a then
    t == 0 || a == Reg.KEY_STAT || within 0xB8010 0xB8020 a || within 0xB8040 0xB80CC a || within 0xB9000 0xBB000 a
  else if within 0xC0000 0xD0000 a then t == 0 || a == Reg.FST_STAT || a == Reg.FST_TUSE t
  else if within 0xD0000 0xE0000 a then true
  else if within 0xE0000 0xE2000 a then t == 0
  else if within 0xF0000 0x100000 a then t == 0 || a == Reg.BKP_STAT || within 0xF0010 0xF0024 a
  else if within 0x100000 0x110000 a then t == 0 || s.right t 4
  else if within 0x110000 0x120000 a then t == 0 || a == Reg.FLT_STAT
  else within 0x120000 0x128000 a && t == 0

/-- A word lies in a tenant's view (R516). -/
def State.sees (s : State) (t a : Nat) : Bool :=
  match ctxWord a with
  | some n => s.owns t n
  | none => s.seesShared t a

/-- What a tenant with the SNAP right sees as 0 (R465). -/
def State.snpHidden (s : State) (t a : Nat) : Bool :=
  t != 0 && within 0x100000 0x110000 a &&
  (within 0x108000 0x110000 a || a == Reg.SNP_RAWSEL || within 0x1000C0 0x1000E0 a ||
   ((instOf 0x100400 256 8 a).map (fun n => !s.owns t n)).getD false ||
   ((instOf 0x100040 8 4 a).map (fun _ => !s.owns t (fieldOf (s.rget a) 31 24))).getD false)

/-! ## What a word reads -/

/-- Four bytes as a word, byte a + i in bits [8i + 7:8i] (R515). -/
def wordOf (l : List Byte) : Word := BitVec.ofNat 32 (ofLe l)

/-- SE_STAT (R521). -/
def State.seStat (s : State) (e : Nat) : Word :=
  let w := putField 0 31 30 (s.seq.engs.getD e {}).st
  let on := (s.run e).map (fun r => !r.ended)
  match s.run e with
  | some r =>
    if r.ended then w
    else
      let w1 := putField (putField w 29 29 1) 23 16 r.ctx
      match r.handler with
      | none => w1
      | some k => putField (putField w1 28 28 1) 27 25 k
  | none =>
    putField w 24 24 (b2n (on.isNone && s.flag Reg.LDG_CTRL_DOZE && s.fget Reg.TOP_DOMAIN_GRADE != 5))

/-- The word index SE_PC latches (R521). -/
def State.sePc (s : State) (e : Nat) : Nat :=
  match s.run e with
  | some r => if r.ended then 0 else r.word
  | none => 0

/-- A word of the BKP latches of a tenant (R443). -/
def State.bkpWord (s : State) (t a : Nat) : Word :=
  let l := s.bkp.latches.getD t {}
  if a = Reg.BKP_SEC_LO then BitVec.ofNat 32 s.bkp.sec
  else if a = Reg.BKP_SEC_HI then l.secHi
  else if a = Reg.BKP_FRAC then l.frac
  else if a = Reg.BKP_CAL_DATE then (calWords s.bkp.sec).1
  else if a = Reg.BKP_CAL_TIME then l.cal
  else s.rget a

/-- A word of the TB block: TB_STU_LO and the copies it latched for the tenant (R32). -/
def State.tbWord (s : State) (t a : Nat) : Word :=
  let l := s.time.latches.getD t {}
  if a = Reg.TB_STU_LO then BitVec.ofNat 32 s.now
  else if a = Reg.TB_STU_HI then l.stuHi
  else if a = Reg.TB_TICK_LO then l.tickLo
  else if a = Reg.TB_TICK_HI then l.tickHi
  else if a = Reg.TB_DTS_SEC_LO then l.secLo
  else if a = Reg.TB_DTS_SEC_HI then l.secHi
  else if a = Reg.TB_DTS_FRAC then l.frac
  else if a = Reg.TB_QUAL_LO then l.qLo
  else if a = Reg.TB_QUAL_HI then l.qHi
  else s.rget a

/-- A tap's CFG word as a tenant reads it: USERS counts its own contexts (R133). -/
def State.tapWord (s : State) (t u w a : Nat) : Word :=
  let n := ((s.taps.filter (fun p => p.1 == (u, w))).map (fun p => (p.2.users.filter (s.owns t)).length)).foldl (· + ·) 0
  putField (s.rget a) 24 16 n

/-- A word of a context's window (R202). -/
def State.ctxWindow (s : State) (n a : Nat) : Word :=
  let o := (a - 0x1000000) % 0x10000
  if o < 0x100 then (s.showCtx n).rget a
  else if o < 0x200 then
    let (entries, bytes, lost) := s.portShows n ((o - 0x100) / 0x10)
    let k := o % 0x10 / 4
    if k = 3 then 0
    else if o < 0x110 ∧ k < 2 then BitVec.ofNat 32 (if k = 0 then (ringRuns (s.ctx n).ring).length else ringBytes (s.ctx n).ring)
    else if o < 0x110 then s.rget (Reg.CTX_QSTAT n 0 + 8)
    else BitVec.ofNat 32 (if k = 0 then entries else if k = 1 then bytes else lost)
  else if o < 0x1000 then 0
  else if o < 0xF000 then wordOf (memRead (s.ctx n).state (o - 0x1000) 4)
  else if o < 0xF800 then s.rdCoef n ((o - 0xF000) / 0x400) ((o - 0xF000) % 0x400 / 4)
  else 0

/-- HST_STAT as a port reads it (R419). -/
def State.hstStat (s : State) (p t : Nat) : Word :=
  let ports := sumN ((List.range 4).map (fun i => if s.portTenant i = some t then 2 ^ i else 0))
  let w := putField (putField (s.rget (Reg.HST_STAT t)) 31 30 t) 29 26 ports
  putField (putField w 22 22 (b2n (s.proofOn p))) 21 21 (b2n s.host.anchor.isSome)

/-- The bytes of a tenant's completion ring from offset `o` (R404, R407). -/
def State.cplWord (s : State) (t o : Nat) : Word :=
  match getIdx (s.ten t).ring (o / 64) with
  | some c => wordOf (slice c.bytes (o % 64) 4)
  | none => 0

/-- The rings of a tenant lie in its HST view (R404): on SPI and TWA; while they are not enabled, for the ports on which they would. -/
def State.ringsHere (s : State) (p t : Nat) : Bool := !s.onPcie t || (!s.rings t && decide (2 ≤ p))

/-- A word of the HST instance of tenant `t`, read through port `p`; the rings lie in it only for SPI and TWA (R404, R406, R419). -/
def State.hstWord (s : State) (p t a : Nat) : Word :=
  let o := a - 0xD0000
  if a = 0xD0004 then s.hstStat p t
  else if o < 0x4000 then s.rget (a + 0x2000000 * t)
  else if o < 0x8000 then wordOf (memRead (s.ten t).window o 4)
  else if !s.ringsHere p t then 0
  else if o < 0xC000 then wordOf (memRead (s.ten t).window o 4)
  else s.cplWord t (o - 0xC000)

/-- The word of a context instance. -/
def State.ctxWordAt (s : State) (n a : Nat) : Word :=
  if a < 0x70000 then (s.showChn n).rget a
  else if a < 0x1000000 then (s.showBrs n).rget a
  else s.ctxWindow n a

/-- The certificates as KEY_CERTWIN shows them (R355). -/
def State.certWord (s : State) (o : Nat) : Word := wordOf (slice s.certs.flatten o 4)

/-- KEY_CERTLEN: the DER length of a certificate (R355). -/
def State.certLen (s : State) (c : Nat) : Word := BitVec.ofNat 32 ((s.certs.getD c []).length % 65536)

/-- A word held by OTP (R28, R68, R97, R268, R513). -/
def State.otpWord (s : State) (a : Nat) : Option Word :=
  if a = Reg.TOP_DEVID_LO then some (BitVec.ofNat 32 s.otp.devid)
  else if a = Reg.TOP_DEVID_HI then some (BitVec.ofNat 32 (s.otp.devid / 4294967296))
  else if a = Reg.BOOT_FWFLOOR then some (BitVec.ofNat 32 s.otp.fwFloor)
  else match instOf 0x34020 8 4 a with
    | some n => let e := s.otp.vf.getD n (0, 0); some (BitVec.ofNat 32 (e.2 * 1048576 + e.1))
    | none => match instOf 0x900C0 8 4 a with
      | some n => let e := s.otp.epc.getD n (0, 0); some (BitVec.ofNat 32 (e.2 * 65536 + e.1))
      | none => if a = Reg.FE_ADLY 0 ∨ a = Reg.FE_ADLY 1 ∨ a = Reg.FE_ADLY 2
          then some (BitVec.ofNat 32 (s.otp.adly.getD ((a - 0x40000) / 0x4000) 0)) else none

/-- The word tenant `t` reads at `a` of its view through port `p`. -/
def State.wordAt (s : State) (p t a : Nat) : Word :=
  match ctxWord a with
  | some n => s.ctxWordAt n a
  | none =>
    if s.snpHidden t a then 0 else
    match s.otpWord a with
    | some w => w
    | none =>
      if within 0x18000 0x20000 a then 0
      else if within 0x20000 0x30000 a then s.tbWord t a
      else if a = Reg.CCS_STAT then putField (s.rget a) 18 0 s.freqNow
      else if a = Reg.CCS_VOUT then putField (s.rget a) 31 16 (s.vreq s.freqNow)
      else if within 0x50000 0x60000 a then
        match instOf 0x50104 8 8 (a - a % 8 + 4), instOf 0x58104 8 8 (a - a % 8 + 4), instOf 0x50204 16 8 (a - a % 8 + 4) with
        | some w, _, _ => if a % 8 = 4 then s.tapWord t 0 w a else s.rget a
        | _, some w, _ => if a % 8 = 4 then s.tapWord t 1 w a else s.rget a
        | _, _, some w => if a % 8 = 4 then s.tapWord t 2 w a else s.rget a
        | _, _, _ => s.rget a
      else if within 0xB9000 0xBB000 a then s.certWord (a - 0xB9000)
      else if within 0xB80C0 0xB80CC a then s.certLen ((a - 0xB80C0) / 4)
      else if within 0xD0000 0xE0000 a then s.hstWord p t a
      else if within 0xF0000 0x100000 a then s.bkpWord t a
      else if within 0x101000 0x101400 a then s.telWindow (a - 0x101000)
      else if within 0x108000 0x110000 a then s.rawWindow (a - 0x108000)
      else match instOf 0x120000 8 0x1000 a with
        | some e => if a % 0x1000 = 0 then s.seStat e else s.rget a
        | none => s.rget a

/-- What a read latches: TB_STU_LO (R32), BKP_SEC_LO and BKP_CAL_DATE (R443), SE_STAT (R521). -/
def State.latchAt (s : State) (t a : Nat) : State :=
  if a = Reg.TB_STU_LO then s.rdStu t
  else if a = Reg.BKP_SEC_LO then s.rdBkpSec t
  else if a = Reg.BKP_CAL_DATE then s.rdBkpCal t
  else match instOf 0x120000 8 0x1000 a with
    | some e => if a % 0x1000 = 0 then s.rsetN (Reg.SE_PC e) (s.sePc e) else s
    | none => s

/-! ## Accesses of a port -/

/-- An access outside a tenant's view is reported (R403). -/
def State.viewErr (s : State) (t a : Nat) : State :=
  ((s.rsetN (Reg.HST_ERR t) a).bump (Reg.HST_ERRCNT_VIEW t)).cause t (Reg.HST_ICAUSE_VIEW t)

/-- A port error is counted for the tenant of the port (R392, R393). -/
def State.portErr (s : State) (p : Nat) : State :=
  match s.portTenant p with
  | none => s
  | some t => (s.bump (Reg.HST_ERRCNT_PORT t)).cause t (Reg.HST_ICAUSE_PORTERR t)

/-- The registers that show the present as they are read: FST_OP (R389) and SNP_WUSTAT (R470). -/
def State.refresh (s : State) (a : Nat) : State :=
  if a = Reg.FST_OP then s.showOp else if a = Reg.SNP_WUSTAT then s.escalate else s

/-- A read of the aligned word at `a` through port `p` (R10, R403, R507): before the ports are bound only TOP and BOOT answer. -/
def State.portRead (s : State) (p a : Nat) : Word × State :=
  match s.portTenant p with
  | none => (if !s.host.bound && decide (a < 0x20000) then s.wordAt p 0 a else 0, s)
  | some t => if s.sees t a then ((s.refresh a).wordAt p t a, (s.refresh a).latchAt t a) else (0, s.viewErr t a)

/-- A write of CTX_DOORBELL (R186): the value is cue 6's INFO; discarded while the context is not open. -/
def State.wrDoorbell (s : State) (n : Nat) (v : Word) : State :=
  if !s.isOpen n then s else (s.ctxMod n (fun x => { x with bell := v.toNat })).raiseCue n 6 s.now v.toNat

/-- CTX_IMAGE (R202): until the acceptance of the OPEN. -/
def State.wrCtxImage (s : State) (n : Nat) (v : Word) : State := if s.busyCtx n then s else s.wr (Reg.CTX_IMAGE n) v

/-- A write of the owning tenant to a word of context `n` (R132, R202, R309). -/
def State.wrCtxWord (s : State) (t n a : Nat) (v : Word) : State :=
  if a < 0x70000 then
    if a ≤ Reg.CHN_FIR n then s.wrChnConfig n a v
    else if a = Reg.CHN_NCO_FTW n ∨ a = Reg.CHN_NCO_PH n then s.wrChnNco t n a v
    else if a = Reg.CHN_BANK n then s.wrChnBank t n v
    else if a = Reg.CHN_AGC n then s.wrChnAgc t n v
    else if a = Reg.CHN_SYNC_HI n then s.wrChnSync t n v
    else s.wr a v
  else if a < 0x1000000 then
    if a = Reg.BRS_CAPTURE_REG n then s.wrBrsCapture t n v
    else if a < Reg.BRS_STAT n then s.wrBrsCfg n a v
    else s.wr a v
  else
    let o := (a - 0x1000000) % 0x10000
    if a = Reg.CTX_IMAGE n then s.wrCtxImage n v
    else if a = Reg.CTX_RUN n then s.wrCtxRun t n v
    else if a = Reg.CTX_DOORBELL n then s.wrDoorbell n v
    else if 0xF000 ≤ o ∧ o < 0xF800 then s.wrCoef n ((o - 0xF000) / 0x400) ((o - 0xF000) % 0x400 / 4) v
    else s.wr a v

/-- The MSI-X vectors of causes that an enabling write finds pending, and the pins (R416). -/
def State.wrMask (s : State) (t : Nat) (v : Word) : State := (s.wr (Reg.HST_IMASK t) v).pins

/-- A write to the tenant's own HST instance at offset `o` (R404 to R406, R414, R416, R419). -/
def State.wrHst (s : State) (p t o : Nat) (v : Word) : State :=
  if o = 0 then s.wrHstCtrl t p v
  else if o = 8 then (s.wr (Reg.HST_ICAUSE t) v).pins
  else if o = 0xC then s.wrMask t v
  else if o = 0x30 then s.wrCqTail t v
  else if o = 0x38 then s.wrCplHead t v
  else if 0x100 ≤ o ∧ o < 0x200 then (if o % 8 = 0 then s.wrSrd t ((o - 0x100) / 8) v else s)
  else if o < 0x4000 then s.wr (0xD0000 + o + 0x2000000 * t) v
  else if o < 0x8000 ∨ (o < 0xC000 ∧ s.ringsHere p t) then
    s.tenMod t (fun x => { x with window := memWrite x.window o (leBytes v.toNat 4) })
  else s

/-- A write to the BOOT block through any port: the boot window and its commands (R505, R513). -/
def State.wrBoot (s : State) (p a : Nat) (v : Word) : State :=
  if a = Reg.BOOT_CTRL then s.wrBootCtrl p v
  else if a = Reg.BOOT_LOAD_REG then s.wrBootLoad p v
  else if within 0x18000 0x20000 a && s.bootPort p && s.bootWaits then s.rset a v
  else s

/-- A write of T0 to a shared block (R518, R520). -/
def State.wrShared (s : State) (p a : Nat) (v : Word) : State :=
  if a = Reg.TB_CTRL then s.wrTbCtrl v
  else if a = Reg.TB_UTC then s.wrUtc v
  else if a = Reg.TB_LEAP_AT then s.wrLeapAt v
  else if a = Reg.TB_DISC then s.wrDisc v
  else if a = Reg.TB_COAST then s.wrCoast v
  else if a = Reg.TB_PPSO_CTRL then s.wrPpso v
  else if a = Reg.CCS_CTRL then s.wrCcsCtrl v
  else if a = Reg.CAL_CTRL then s.wrCalCtrl v
  else if a = Reg.SEQ_CTRL then
    let s1 := s.wr a v
    if bitOf v.toNat 31 then s1.unq (fieldOf v 7 0) (fieldOf v 25 16) else s1
  else if a = Reg.LDG_CTRL then
    let s1 := (s.wr a v).showPower
    if bitOf v.toNat 31 then s1.wrHiber else s1
  else if a = Reg.LDG_RESV then s.wrResv v
  else if a = Reg.KEY_CTRL then s.wrKeyCtrl p v
  else if a = Reg.WIT_CTRL then s.wrWitCtrl v
  else if a = Reg.FST_CTRL then s.wrFstCtrl v
  else if a = Reg.SNP_CTRL then s.wrSnpCtrl v
  else if a = Reg.FLT_CTRL then s.wrFltCtrl v
  else if within 0xF0000 0x100000 a then s.bkpIssue (.reg a v)
  else
    match instOf 0x40000 3 0x4000 a with
    | some q =>
      if a = Reg.FE_CTRL q then s.wrFeCtrl q v
      else if a = Reg.FE_GAIN q then s.wrFeGain q v
      else if a = Reg.FE_BIAS q then s.wrFeBias q v
      else s.wr a v
    | none =>
      match instOf 0xE0000 2 0x1000 a with
      | some b => if a = Reg.TW_CTRL b then s.wrTwCtrl b v else s.wr a v
      | none => s.wr a v

/-- A write of tenant `t` to a word of its view. -/
def State.wrWord (s : State) (p t a : Nat) (v : Word) : State :=
  match ctxWord a with
  | some n => s.wrCtxWord t n a v
  | none =>
    if within 0xD0000 0xE0000 a then s.wrHst p t (a - 0xD0000) v
    else if within 0x10000 0x20000 a then s.wrBoot p a v
    else if t = 0 then s.wrShared p a v
    else s

/-- An access to `a` by the tenant of port `p`, which `f` carries out where the word lies in its view (R10, R403). -/
def State.access (s : State) (p a : Nat) (f : Nat → State → State) : State :=
  match s.portTenant p with
  | none => s
  | some t => if s.sees t a then f t s else s.viewErr t a

/-- The ports are served (R506), and SPI and TWA carry traffic (R79). -/
def State.portServes (s : State) (p : Nat) : Bool := s.served && (decide (p < 2) || !s.flag Reg.ICS_STAT_PAUSED)

/-- A write of the aligned word at `a` through port `p`. -/
def State.portWrite (s : State) (p a : Nat) (v : Word) : State :=
  if !s.portServes p then s
  else if !s.host.bound then (if within 0x10000 0x20000 a then s.wrBoot p a v else s)
  else s.access p a (fun t x => x.wrWord p t a v)

/-- A word of a write at stu `t`. -/
def State.regWrite (s : State) (p a t : Nat) (v : Word) : State := (s.at t).portWrite p a v

/-- A register's plain part as it stands, with bits set in it. -/
def State.withBits (s : State) (a n : Nat) : Word := s.rget a ||| BitVec.ofNat 32 n

/-- A write that an owner's command makes: `f` where T0 writes it. -/
def State.ownerWrite (s : State) (p a t : Nat) (f : State → State) : State :=
  let s1 := s.at t
  if s1.portServes p then s1.access p a (fun k x => if k = 0 then f x else x) else s1

/-! ## The rows of chapter tables that are register accesses -/

/-- REGISTER_WRITE (R6 to R10, R392, R395, R403): the word `v` written at `a` through port `p`, `be` its byte enables; on PCIe a write whose byte
enables are not all set is a port error. `raw` is the backup oscillator's pulse count. -/
def execRegisterWrite (p : Fin 4) (a v : Word) (be : BitVec 4) (t raw : Nat) (s : State) : Host.Outcome State Fault Refusal :=
  .next (
    let s1 := (s.at t).osc raw
    if p.val < 2 ∧ be ≠ 15 then (if s1.served then s1.portErr p else s1)
    else s1.portWrite p (a.toNat - a.toNat % 4) v)

/-- TB_LATCH_READ (R32): a port reads TB_STU_LO. -/
def execTbLatchRead (p : Fin 4) (t : Nat) (s : State) : Host.Outcome State Fault Refusal :=
  .next (
    let s1 := s.at t
    if s1.portServes p then
      let (w, s2) := s1.portRead p Reg.TB_STU_LO
      s2.drive [w]
    else s1)

/-- BKP_SEC_LATCH_READ (R443): a port reads BKP_SEC_LO. -/
def execBkpSecLatchRead (p : Fin 4) (t raw : Nat) (s : State) : Host.Outcome State Fault Refusal :=
  .next (
    let s1 := (s.at t).osc raw
    if s1.portServes p then
      let (w, s2) := s1.portRead p Reg.BKP_SEC_LO
      s2.drive [w]
    else s1)

/-- BKP_CAL_LATCH_READ (R443): a port reads BKP_CAL_DATE. -/
def execBkpCalLatchRead (p : Fin 4) (t raw : Nat) (s : State) : Host.Outcome State Fault Refusal :=
  .next (
    let s1 := (s.at t).osc raw
    if s1.portServes p then
      let (w, s2) := s1.portRead p Reg.BKP_CAL_DATE
      s2.drive [w]
    else s1)

/-- SE_STAT_LATCH_READ (R521): a port reads SE_STAT[e]. -/
def execSeStatLatchRead (p : Fin 4) (e : Fin 8) (t : Nat) (s : State) : Host.Outcome State Fault Refusal :=
  .next (
    let s1 := s.at t
    if s1.portServes p then
      let (w, s2) := s1.portRead p (Reg.SE_STAT e)
      s2.drive [w]
    else s1)

/-- HOST_LOAD (R40): TB_CTRL written with HOST_LOAD, its other fields as they stand. -/
def execHostLoad (p : Fin 4) (t : Nat) (s : State) : Host.Outcome State Fault Refusal :=
  .next (s.regWrite p Reg.TB_CTRL t (s.withBits Reg.TB_CTRL 0x80000000))

/-- CHN_CONFIG_WRITE (R132): CHN_SRC, CHN_TAP_FTW, CHN_TAP_DEC, CHN_CIC and CHN_FIR are words 0 to 4. -/
def execChnConfigWrite (p : Fin 4) (n : Fin 256) (k : Fin 5) (v : Word) (t : Nat) (s : State) : Host.Outcome State Fault Refusal :=
  .next (s.regWrite p (Reg.CHN_SRC n + 4 * k) t v)

/-- CHN_NCO_WRITE (R108): CHN_NCO_FTW, or CHN_NCO_PH. -/
def execChnNcoWrite (p : Fin 4) (n : Fin 256) (ph : Bool) (v : Word) (t : Nat) (s : State) : Host.Outcome State Fault Refusal :=
  .next (s.regWrite p (if ph then Reg.CHN_NCO_PH n else Reg.CHN_NCO_FTW n) t v)

/-- CHN_BANK_REQ (R124). -/
def execChnBankReq (p : Fin 4) (n : Fin 256) (v : Word) (t : Nat) (s : State) : Host.Outcome State Fault Refusal :=
  .next (s.regWrite p (Reg.CHN_BANK n) t v)

/-- CHN_AGC_WRITE (R129). -/
def execChnAgcWrite (p : Fin 4) (n : Fin 256) (v : Word) (t : Nat) (s : State) : Host.Outcome State Fault Refusal :=
  .next (s.regWrite p (Reg.CHN_AGC n) t v)

/-- CHN_SYNC_ARM (R120). -/
def execChnSyncArm (p : Fin 4) (n : Fin 256) (v : Word) (t : Nat) (s : State) : Host.Outcome State Fault Refusal :=
  .next (s.regWrite p (Reg.CHN_SYNC_HI n) t v)

/-- COEF_WRITE (R123): word `i` of bank `b`. -/
def execCoefWrite (p : Fin 4) (n : Fin 256) (b : Fin 2) (i : Fin 256) (v : Word) (t : Nat) (s : State) : Host.Outcome State Fault Refusal :=
  .next (s.regWrite p (0x100F000 + 0x10000 * n + 0x400 * b + 4 * i) t v)

/-- CTX_DOORBELL (R186). -/
def execCtxDoorbell (p : Fin 4) (n : Fin 256) (v : Word) (t : Nat) (s : State) : Host.Outcome State Fault Refusal :=
  .next (s.regWrite p (Reg.CTX_DOORBELL n) t v)

/-- CTX_RUN_WRITE (R248). -/
def execCtxRunWrite (p : Fin 4) (n : Fin 256) (v : Word) (t : Nat) (s : State) : Host.Outcome State Fault Refusal :=
  .next (s.regWrite p (Reg.CTX_RUN n) t v)

/-- CTX_IMAGE_WRITE (R202). -/
def execCtxImageWrite (p : Fin 4) (n : Fin 256) (v : Word) (t : Nat) (s : State) : Host.Outcome State Fault Refusal :=
  .next (s.regWrite p (Reg.CTX_IMAGE n) t v)

/-- BRS_CAPTURE_WRITE (R309). -/
def execBrsCaptureWrite (p : Fin 4) (n : Fin 256) (v : Word) (t : Nat) (s : State) : Host.Outcome State Fault Refusal :=
  .next (s.regWrite p (Reg.BRS_CAPTURE_REG n) t v)

/-- CAL_START (R154): CAL_CTRL written with START. -/
def execCalStart (p : Fin 4) (t : Nat) (s : State) : Host.Outcome State Fault Refusal :=
  .next (s.regWrite p Reg.CAL_CTRL t (s.withBits Reg.CAL_CTRL 0x80000000))

/-- CAL_SAVE (R158): CAL_CTRL written with SAVE. -/
def execCalSave (p : Fin 4) (t : Nat) (s : State) : Host.Outcome State Fault Refusal :=
  .next (s.regWrite p Reg.CAL_CTRL t (s.withBits Reg.CAL_CTRL 0x40000000))

/-- CAL_FACTORY (R161): CAL_CTRL written with FACTORY. -/
def execCalFactory (p : Fin 4) (t : Nat) (s : State) : Host.Outcome State Fault Refusal :=
  .next (s.regWrite p Reg.CAL_CTRL t (s.withBits Reg.CAL_CTRL 0x20000000))

/-- UNQ (R263): SEQ_CTRL written with UNQ and the two masks. -/
def execSeqUnq (p : Fin 4) (eng : BitVec 8) (acc : BitVec 10) (t : Nat) (s : State) : Host.Outcome State Fault Refusal :=
  .next (s.regWrite p Reg.SEQ_CTRL t
    (putField (putField (putField (s.rget Reg.SEQ_CTRL) 31 31 1) 25 16 acc.toNat) 7 0 eng.toNat))

/-- ENROL (R330). -/
def execKeyEnrol (p : Fin 4) (t : Nat) (s : State) : Host.Outcome State Fault Refusal := .next (s.regWrite p Reg.KEY_CTRL t 0x80000000)

/-- ROLL (R331). -/
def execKeyRoll (p : Fin 4) (t : Nat) (s : State) : Host.Outcome State Fault Refusal := .next (s.regWrite p Reg.KEY_CTRL t 0x40000000)

/-- RELEASE (R331). -/
def execKeyRelease (p : Fin 4) (t : Nat) (s : State) : Host.Outcome State Fault Refusal := .next (s.regWrite p Reg.KEY_CTRL t 0x20000000)

/-- FIRE (R458): SNP_CTRL written with FIRE. -/
def execSnpFire (p : Fin 4) (t : Nat) (s : State) : Host.Outcome State Fault Refusal :=
  .next (s.regWrite p Reg.SNP_CTRL t (withBit (s.rget Reg.SNP_CTRL) 31 true))

/-- RAWEN_WRITE (R466): SNP_CTRL written with RAWEN set or cleared. -/
def execRawenWrite (p : Fin 4) (en : Bool) (t : Nat) (s : State) : Host.Outcome State Fault Refusal :=
  .next (s.regWrite p Reg.SNP_CTRL t (withBit (s.rget Reg.SNP_CTRL) 8 en))

/-- FAILOVER (R481). -/
def execFltFailover (p : Fin 4) (t : Nat) (s : State) : Host.Outcome State Fault Refusal := .next (s.regWrite p Reg.FLT_CTRL t 0x20000000)

/-- UNQW (R484). -/
def execFltUnqw (p : Fin 4) (t : Nat) (s : State) : Host.Outcome State Fault Refusal := .next (s.regWrite p Reg.FLT_CTRL t 0x10000000)

/-- RESTART (R486). -/
def execFltRestart (p : Fin 4) (t : Nat) (s : State) : Host.Outcome State Fault Refusal := .next (s.regWrite p Reg.FLT_CTRL t 0x40000000)

/-- DEVRESET (R491). -/
def execFltDevreset (p : Fin 4) (t : Nat) (s : State) : Host.Outcome State Fault Refusal := .next (s.regWrite p Reg.FLT_CTRL t 0x80000000)

/-- AVCLR (R493). -/
def execFltAvclr (p : Fin 4) (t : Nat) (s : State) : Host.Outcome State Fault Refusal := .next (s.regWrite p Reg.FLT_CTRL t 0x8000000)

/-- LOGCLR (R479). -/
def execFltLogclr (p : Fin 4) (t : Nat) (s : State) : Host.Outcome State Fault Refusal := .next (s.regWrite p Reg.FLT_CTRL t 0x4000000)

/-- FORMAT (R377): FST_CTRL written with FORMAT, its other fields as they stand. -/
def execFstFormat (p : Fin 4) (t : Nat) (s : State) : Host.Outcome State Fault Refusal :=
  .next (s.regWrite p Reg.FST_CTRL t (s.withBits Reg.FST_CTRL 0x80000000))

/-- SCRUBNOW (R381). -/
def execFstScrubnow (p : Fin 4) (t : Nat) (s : State) : Host.Outcome State Fault Refusal :=
  .next (s.regWrite p Reg.FST_CTRL t (s.withBits Reg.FST_CTRL 0x40000000))

/-- HIBER (R510): LDG_CTRL written with HIBER. -/
def execLdgHiber (p : Fin 4) (t : Nat) (s : State) : Host.Outcome State Fault Refusal :=
  .next (s.regWrite p Reg.LDG_CTRL t (s.withBits Reg.LDG_CTRL 0x80000000))

/-- RING_EN (R404): HST_CTRL written with RING_EN. -/
def execRingEn (p : Fin 4) (on : Bool) (t : Nat) (s : State) : Host.Outcome State Fault Refusal :=
  .next (s.regWrite p 0xD0000 t (BitVec.ofNat 32 (0x40000000 * b2n on)))

/-- TRESET (R417): HST_CTRL written with TRESET, RING_EN as it stands. -/
def execHstTreset (p : Fin 4) (t : Nat) (s : State) : Host.Outcome State Fault Refusal :=
  .next (
    let s1 := s.at t
    if s1.portServes p then s1.access p 0xD0000 (fun k x => x.request k (.treset k)) else s1)

/-- CQ_TAIL_WRITE (R405). -/
def execCqTailWrite (p : Fin 4) (i : BitVec 8) (t : Nat) (s : State) : Host.Outcome State Fault Refusal :=
  .next (s.regWrite p 0xD0030 t (BitVec.ofNat 32 i.toNat))

/-- CPL_HEAD_WRITE (R405). -/
def execCplHeadWrite (p : Fin 4) (i : BitVec 8) (t : Nat) (s : State) : Host.Outcome State Fault Refusal :=
  .next (s.regWrite p 0xD0038 t (BitVec.ofNat 32 i.toNat))

/-- SRD_WRITE (R414). -/
def execSrdWrite (p : Fin 4) (k : Fin 32) (v : Word) (t : Nat) (s : State) : Host.Outcome State Fault Refusal :=
  .next (s.regWrite p (0xD0100 + 8 * k) t v)

/-- CLEAR (R435): TW_CTRL.CLEAR written by the owner; `freed` says whether the attempt frees the bus. -/
def execTwClear (p : Fin 4) (b : Fin 2) (freed : Bool) (t : Nat) (s : State) : Host.Outcome State Fault Refusal :=
  .next (s.ownerWrite p (Reg.TW_CTRL b) t (fun x => x.clearOnce b freed))

/-- A write of BKP_CTRL or BKP_PWRON that takes effect at raw pulse `raw`, after every write issued before it (R442). -/
def State.bkpCommand (s : State) (p t raw a : Nat) (v : Word) : State :=
  (s.ownerWrite p a t (fun x => (x.bkpIssue (.reg a v)).bkpDrain raw)).osc raw

/-- CAPTURE (R444). -/
def execBkpCapture (p : Fin 4) (t raw : Nat) (s : State) : Host.Outcome State Fault Refusal :=
  .next (s.bkpCommand p t raw Reg.BKP_CTRL (s.withBits Reg.BKP_CTRL 0x80000000))

/-- LOAD (R445). -/
def execBkpLoad (p : Fin 4) (t raw : Nat) (s : State) : Host.Outcome State Fault Refusal :=
  .next (s.bkpCommand p t raw Reg.BKP_CTRL (s.withBits Reg.BKP_CTRL 0x40000000))

/-- LOADCAL (R445, R448). -/
def execBkpLoadcal (p : Fin 4) (t raw : Nat) (s : State) : Host.Outcome State Fault Refusal :=
  .next (s.bkpCommand p t raw Reg.BKP_CTRL (s.withBits Reg.BKP_CTRL 0x20000000))

/-- PWRON_CLR (R455). -/
def execPwronClr (p : Fin 4) (t raw : Nat) (s : State) : Host.Outcome State Fault Refusal :=
  .next (s.bkpCommand p t raw Reg.BKP_PWRON (s.withBits Reg.BKP_PWRON 0x80000000))

/-- BOOT_LOAD (R505). -/
def execBootLoad (p : Fin 4) (n : BitVec 16) (last : Bool) (t : Nat) (s : State) : Host.Outcome State Fault Refusal :=
  .next (s.regWrite p Reg.BOOT_LOAD_REG t (BitVec.ofNat 32 (n.toNat + 2147483648 * b2n last)))

/-- GO (R505): BOOT_CTRL written with GO alone. -/
def execBootGo (p : Fin 4) (t : Nat) (s : State) : Host.Outcome State Fault Refusal := .next (s.regWrite p Reg.BOOT_CTRL t 0x80000000)

/-- STORE (R505): BOOT_CTRL written with GO and STORE. -/
def execBootStore (p : Fin 4) (t : Nat) (s : State) : Host.Outcome State Fault Refusal := .next (s.regWrite p Reg.BOOT_CTRL t 0xC0000000)

/-! ## SPI (R393, R506, R79) -/

/-- The words of a read from `a` on, each at its own stu. -/
def State.readWords (s : State) (p a : Nat) : List Nat → List Word → State
  | [], ws => s.drive ws
  | t :: ts, ws =>
    let (w, s1) := (if within 0xF0000 0x100000 a then (s.at t).oscGo else s.at t).portRead p a
    s1.readWords p ((a + 4) % 4294967296) ts (ws ++ [w])

/-- The words of a write from `a` on, each at the stu its fourth byte arrives. -/
def State.writeWords (s : State) (p a : Nat) : List (Nat × Word) → State
  | [] => s
  | (t, v) :: l => (s.regWrite p a t v).writeWords p ((a + 4) % 4294967296) l

/-- An SPI read of words at the stus `ts`: 0xFF while the port is not served or traffic is paused. -/
def State.spiRead (s : State) (a : Nat) (ts : List Nat) (t raw : Nat) : State :=
  let s1 := (s.at t).osc raw
  if !s1.portServes 2 then s1.drive (ts.map (fun _ => 0xFFFFFFFF))
  else if a % 4 ≠ 0 then s1.portErr 2
  else s1.readWords 2 a ts []

/-- An SPI write frame. -/
def State.spiWrite (s : State) (a : Nat) (l : List (Nat × Word)) (t raw : Nat) : State :=
  let s1 := (s.at t).osc raw
  if !s1.portServes 2 then s1
  else if a % 4 ≠ 0 then s1.portErr 2
  else s1.writeWords 2 a l

/-- SPI_READ (R393): opcode 0x0B; the address arrives at `t`, the words are read at `ts`. -/
def execSpiRead (a : Word) (ts : List Nat) (t raw : Nat) (s : State) : Host.Outcome State Fault Refusal :=
  .next (s.spiRead a.toNat ts t raw)

/-- SPI_QUAD_READ (R393): opcode 0xEB. -/
def execSpiQuadRead (a : Word) (ts : List Nat) (t raw : Nat) (s : State) : Host.Outcome State Fault Refusal :=
  .next (s.spiRead a.toNat ts t raw)

/-- SPI_WRITE (R393): opcode 0x02; each whole word with its stu; the bytes of an incomplete word have no effect. -/
def execSpiWrite (a : Word) (l : List (Nat × Word)) (t raw : Nat) (s : State) : Host.Outcome State Fault Refusal :=
  .next (s.spiWrite a.toNat l t raw)

/-- SPI_QUAD_WRITE (R393): opcode 0x38. -/
def execSpiQuadWrite (a : Word) (l : List (Nat × Word)) (t raw : Nat) (s : State) : Host.Outcome State Fault Refusal :=
  .next (s.spiWrite a.toNat l t raw)

/-- The status byte (R393). -/
def State.spiStatus (s : State) : Nat :=
  let low := b2n (s.flag Reg.ICS_STAT_PAUSED)
  match s.portTenant 2 with
  | none => 0xF0 + low
  | some t => 16 * t + 2 * b2n ((s.rget (Reg.HST_ICAUSE t) &&& s.rget (Reg.HST_IMASK t)) != 0) + low

/-- The bytes a port drives out. -/
def State.driveBytes (s : State) (l : List Byte) : State :=
  { s with host := { s.host with out := { s.host.out with bytes := l } } }

/-- SPI_STATUS (R393): opcode 0x05. -/
def execSpiStatus (t : Nat) (s : State) : Host.Outcome State Fault Refusal :=
  .next (
    let s1 := s.at t
    s1.driveBytes [if s1.served then BitVec.ofNat 8 s1.spiStatus else 0xFF])

/-- SPI_UNKNOWN_OPCODE (R393): the frame is discarded and counted. -/
def execSpiUnknownOpcode (t : Nat) (s : State) : Host.Outcome State Fault Refusal :=
  .next (
    let s1 := s.at t
    if s1.portServes 2 then s1.portErr 2 else s1)

/-! ## TWA as a target (R394, R421) -/

/-- TWA_WRITE_TRANSFER (R394): the bytes after the device's address with the stu each is acknowledged at: four of address, least significant first,
then words; a part of an address or of a word has no effect. A misaligned address takes the word that holds it. -/
def execTwaWriteTransfer (l : List (Nat × Byte)) (t raw : Nat) (s : State) : Host.Outcome State Fault Refusal :=
  .next (
    let s1 := ((s.at t).osc raw).startSeen 0
    if !s1.portServes 3 || decide (l.length < 4) then s1 else
    let a := ofLe ((l.take 4).map (·.2))
    let d := l.drop 4
    let ws := (List.range (d.length / 4)).map (fun i =>
      let w := (d.drop (4 * i)).take 4
      ((w.getLast?.map (·.1)).getD 0, wordOf (w.map (·.2))))
    (s1.busMod 0 (fun b => { b with addr := a - a % 4 })).writeWords 3 (a - a % 4) ws)

/-- TWA_READ_TRANSFER (R394): words from the address last set, each at its stu. -/
def execTwaReadTransfer (ts : List Nat) (t raw : Nat) (s : State) : Host.Outcome State Fault Refusal :=
  .next (
    let s1 := ((s.at t).osc raw).startSeen 0
    if s1.portServes 3 then s1.readWords 3 (s1.bus 0).addr ts [] else s1)

end Sys2Proof.Machine
end

