-- ==== Sys2Proof/Machine/Jtag.lean ====
section
/-!
DEFINITION. The JTAG port (R400, R535): boundary-scan instructions, the TAP's proof and the debug instructions.
-/

namespace Sys2Proof.Machine

/-- The TAP's number among the ports: 0xFF in the bytes a proof signs. -/
def tap : Nat := 4

/-- The JTAG port changed. -/
def State.jtagMod (s : State) (f : JtagS → JtagS) : State := { s with jtag := f s.jtag }

/-- A register that has captured `c` and shifts `d` in: the bits that come out. -/
def shiftOut (c d : List Bool) : List Bool := (c ++ d).take d.length

/-- BYPASS as any instruction that selects it: one 0 and then the bits that go in, one late. -/
def State.bypass (s : State) (d : List Bool) : State :=
  s.jtagMod (fun j => { j with extest := false, out := shiftOut [false] d })

/-- The IDCODE, its least significant bit first. -/
def idcode : List Bool := (List.range 32).map (fun i => bitOf 0x1825655F i)

/-- JTAG_BYPASS (R535): `d` is shifted in. -/
def execJtagBypass (d : List Bool) (s : State) : Host.Outcome State Fault Refusal := .next (s.bypass d)

/-- JTAG_IDCODE (R535). -/
def execJtagIdcode (d : List Bool) (s : State) : Host.Outcome State Fault Refusal :=
  .next (s.jtagMod (fun j => { j with extest := false, out := shiftOut idcode d }))

/-- SAMPLE/PRELOAD: the cells capture the balls and take what is shifted in. -/
def State.sample (s : State) (pins d : List Bool) (drive : Bool) : State :=
  s.jtagMod (fun _ => { cells := (pins ++ d).drop d.length, extest := drive, out := shiftOut pins d })

/-- JTAG_SAMPLE_PRELOAD (R535): `pins` are the levels at the balls. -/
def execJtagSamplePreload (pins d : List Bool) (s : State) : Host.Outcome State Fault Refusal := .next (s.sample pins d false)

/-- The balls that EXTEST drives: the cells, only while the device is in reset (R535). -/
def State.driven (s : State) : Option (List Bool) := if s.jtag.extest && !s.up then some s.jtag.cells else none

/-- JTAG_EXTEST (R535): outside reset as SAMPLE/PRELOAD. -/
def execJtagExtest (pins d : List Bool) (s : State) : Host.Outcome State Fault Refusal := .next (s.sample pins d (!s.up))

/-- The debug port is unlocked: the device is unowned, or a proof is in force on the TAP (R535). -/
def State.unlocked (s : State) : Bool := s.host.anchor.isNone || s.proofOn tap

/-- JTAG_UNLOCK (R400, R535): nothing shifted in reads a fresh nonce; a certificate and its signature are a proof. -/
def execJtagUnlock (b : List Byte) (t : Nat) (s : State) : Host.Outcome State Fault Refusal :=
  .next (
    let s1 := (s.at t).jtagMod (fun j => { j with extest := false })
    if !s1.up then s1
    else if b.isEmpty then
      let (n, s2) := s1.drbg 32
      (s2.portHost tap (fun x => { x with nonce := some n })).driveBytes n
    else if !s1.mounted then s1
    else
      let s2 := s1.portHost tap (fun x => { x with nonce := none })
      match (s1.host.ports.getD tap {}).nonce with
      | none => s2
      | some n => match s1.proofCert 255 n b with
        | none => s2
        | some (cert, k) => s2.proofMade tap cert k)

/-- JTAG_DEBUG (R535): locked, as BYPASS; unlocked, a read of a word of the owner's view, or a write of SE_DBG. -/
def execJtagDebug (d : List Bool) (acc : Option (Word × Option Word)) (t raw : Nat) (s : State) : Host.Outcome State Fault Refusal :=
  .next (
    let s1 := (s.at t).osc raw
    if !s1.up || !s1.unlocked then s1.bypass d
    else
      let s2 := s1.jtagMod (fun j => { j with extest := false })
      match acc with
      | none => s2
      | some (a, none) =>
        let w := a.toNat - a.toNat % 4
        if s2.sees 0 w then ((s2.refresh w).latchAt 0 w).drive [(s2.refresh w).wordAt tap 0 w] else s2.drive [0]
      | some (a, some v) =>
        let w := a.toNat - a.toNat % 4
        match instOf 0x120000 8 0x1000 w with
        | some e => if w = Reg.SE_DBG e then s2.wr w v else s2
        | none => s2)

/-- JTAG_TRST (R535): JTAG_TRST_N goes low; the TAP is reset and its proof ends. -/
def execJtagTrst (s : State) : Host.Outcome State Fault Refusal :=
  .next ((s.endProofOn tap).jtagMod (fun j => { j with extest := false }))

end Sys2Proof.Machine
end

