-- ==== Sys2Proof/Machine/Scalar.lean ====
section
/-!
DEFINITION. The S class: scalar, f32, predicate and scalar memory instructions (R210, R212 to R214). `e` names the engine and `pr` the pair flag (R206).
-/

namespace Sys2Proof.Machine

/-! ## Shared forms -/

/-- d = f a b on scalars. -/
def State.sss (s : State) (e : Nat) (pr : Bool) (cost d a b : Nat) (f : Word → Word → Word) : State :=
  s.instr e pr cost 1 (fun v r => r.regsTo (fun g => g.setS d (f (v.regs.rs a) (v.regs.rs b))))

/-- d = f a on scalars. -/
def State.ss (s : State) (e : Nat) (pr : Bool) (cost d a : Nat) (f : Word → Word) : State :=
  s.instr e pr cost 1 (fun v r => r.regsTo (fun g => g.setS d (f (v.regs.rs a))))

/-- d = f a b on predicates. -/
def State.ppp (s : State) (e : Nat) (pr : Bool) (d a b : Nat) (f : Word → Word → Word) : State :=
  s.instr e pr 1 1 (fun v r => r.regsTo (fun g => g.setP d (f (v.regs.rp a) (v.regs.rp b))))

/-- 1 or 0 as a word. -/
def bit1 (b : Bool) : Word := if b then 1 else 0

/-- All ones or all zeros. -/
def ones (b : Bool) : Word := if b then 0xFFFFFFFF else 0

/-- Signed division, truncated; R210 gives its edges. -/
def divS (a b : Word) : Word :=
  if b = 0 then 0xFFFFFFFF
  else if a = 0x80000000 ∧ b = 0xFFFFFFFF then 0x80000000
  else BitVec.ofInt 32 (a.toInt.tdiv b.toInt)

/-- Unsigned division. -/
def divU (a b : Word) : Word := if b = 0 then 0xFFFFFFFF else BitVec.ofNat 32 (a.toNat / b.toNat)

/-- Signed remainder, with the sign of a. -/
def remS (a b : Word) : Word :=
  if b = 0 then a
  else if a = 0x80000000 ∧ b = 0xFFFFFFFF then 0
  else BitVec.ofInt 32 (a.toInt.tmod b.toInt)

/-- Unsigned remainder. -/
def remU (a b : Word) : Word := if b = 0 then a else BitVec.ofNat 32 (a.toNat % b.toNat)

/-- Leading zeros; 32 for 0. -/
def clz (a : Word) : Word := if a = 0 then 32 else BitVec.ofNat 32 (31 - Nat.log2 a.toNat)

/-- Ones. -/
def popc (a : Word) : Word := BitVec.ofNat 32 ((List.range 32).filter (fun i => bitOf a.toNat i)).length

/-- The lowest set bit, or 32. -/
def firstBit (a : Word) : Word := BitVec.ofNat 32 (((List.range 32).find? (fun i => bitOf a.toNat i)).getD 32)

/-- sat(abs(a)) (R210). -/
def absSat (a : Word) : Word := if a = 0x80000000 then 0x7FFFFFFF else if a.toInt < 0 then -a else a

/-- The low `k` bits sign-extended. -/
def sextLow (k : Nat) (a : Word) : Word := BitVec.ofInt 32 (sgn k a.toNat)

/-- A 15-bit immediate sign-extended. -/
def imm15s (i : BitVec 15) : Word := i.signExtend 32

/-- A 15-bit immediate zero-extended. -/
def imm15u (i : BitVec 15) : Word := i.zeroExtend 32

/-! ## Scalar ALU (R212) -/

/-- ADD (R212): d = a + b. -/
def execAdd (e : Fin 8) (pr : Bool) (d a b : Fin 32) (s : State) : Host.Outcome State Fault Refusal :=
  .next (s.sss e pr 1 d a b (fun x y => x + y))

/-- SUB (R212): d = a − b. -/
def execSub (e : Fin 8) (pr : Bool) (d a b : Fin 32) (s : State) : Host.Outcome State Fault Refusal :=
  .next (s.sss e pr 1 d a b (fun x y => x - y))

/-- AND (R212): bitwise. -/
def execAndI (e : Fin 8) (pr : Bool) (d a b : Fin 32) (s : State) : Host.Outcome State Fault Refusal :=
  .next (s.sss e pr 1 d a b (fun x y => x &&& y))

/-- OR (R212): bitwise. -/
def execOrI (e : Fin 8) (pr : Bool) (d a b : Fin 32) (s : State) : Host.Outcome State Fault Refusal :=
  .next (s.sss e pr 1 d a b (fun x y => x ||| y))

/-- XOR (R212): bitwise. -/
def execXorI (e : Fin 8) (pr : Bool) (d a b : Fin 32) (s : State) : Host.Outcome State Fault Refusal :=
  .next (s.sss e pr 1 d a b (fun x y => x ^^^ y))

/-- SLL (R212): d = a << b, the amount modulo 32 (R210). -/
def execSll (e : Fin 8) (pr : Bool) (d a b : Fin 32) (s : State) : Host.Outcome State Fault Refusal :=
  .next (s.sss e pr 1 d a b (fun x y => x <<< (y.toNat % 32)))

/-- SRL (R212): logical shift right. -/
def execSrl (e : Fin 8) (pr : Bool) (d a b : Fin 32) (s : State) : Host.Outcome State Fault Refusal :=
  .next (s.sss e pr 1 d a b (fun x y => x >>> (y.toNat % 32)))

/-- SRA (R212): arithmetic shift right. -/
def execSra (e : Fin 8) (pr : Bool) (d a b : Fin 32) (s : State) : Host.Outcome State Fault Refusal :=
  .next (s.sss e pr 1 d a b (fun x y => x.sshiftRight (y.toNat % 32)))

/-- SLT (R212): signed comparison. -/
def execSlt (e : Fin 8) (pr : Bool) (d a b : Fin 32) (s : State) : Host.Outcome State Fault Refusal :=
  .next (s.sss e pr 1 d a b (fun x y => bit1 (decide (x.toInt < y.toInt))))

/-- SLTU (R212): unsigned comparison. -/
def execSltu (e : Fin 8) (pr : Bool) (d a b : Fin 32) (s : State) : Host.Outcome State Fault Refusal :=
  .next (s.sss e pr 1 d a b (fun x y => bit1 (decide (x.toNat < y.toNat))))

/-- SEQ (R212): equality. -/
def execSeqI (e : Fin 8) (pr : Bool) (d a b : Fin 32) (s : State) : Host.Outcome State Fault Refusal :=
  .next (s.sss e pr 1 d a b (fun x y => bit1 (x == y)))

/-- MIN (R212): signed minimum. -/
def execMinI (e : Fin 8) (pr : Bool) (d a b : Fin 32) (s : State) : Host.Outcome State Fault Refusal :=
  .next (s.sss e pr 1 d a b (fun x y => if x.toInt < y.toInt then x else y))

/-- MAX (R212): signed maximum. -/
def execMaxI (e : Fin 8) (pr : Bool) (d a b : Fin 32) (s : State) : Host.Outcome State Fault Refusal :=
  .next (s.sss e pr 1 d a b (fun x y => if x.toInt < y.toInt then y else x))

/-- MINU (R212): unsigned minimum. -/
def execMinu (e : Fin 8) (pr : Bool) (d a b : Fin 32) (s : State) : Host.Outcome State Fault Refusal :=
  .next (s.sss e pr 1 d a b (fun x y => if x.toNat < y.toNat then x else y))

/-- MAXU (R212): unsigned maximum. -/
def execMaxu (e : Fin 8) (pr : Bool) (d a b : Fin 32) (s : State) : Host.Outcome State Fault Refusal :=
  .next (s.sss e pr 1 d a b (fun x y => if x.toNat < y.toNat then y else x))

/-- MUL (R212): low 32 bits of the product. -/
def execMul (e : Fin 8) (pr : Bool) (d a b : Fin 32) (s : State) : Host.Outcome State Fault Refusal :=
  .next (s.sss e pr 1 d a b (fun x y => x * y))

/-- MULH (R212): high 32 bits of the signed product. -/
def execMulh (e : Fin 8) (pr : Bool) (d a b : Fin 32) (s : State) : Host.Outcome State Fault Refusal :=
  .next (s.sss e pr 1 d a b (fun x y => BitVec.ofInt 32 (x.toInt * y.toInt / 4294967296)))

/-- MULHU (R212): high 32 bits of the unsigned product. -/
def execMulhu (e : Fin 8) (pr : Bool) (d a b : Fin 32) (s : State) : Host.Outcome State Fault Refusal :=
  .next (s.sss e pr 1 d a b (fun x y => BitVec.ofNat 32 (x.toNat * y.toNat / 4294967296)))

/-- DIV (R212): quotient truncated toward zero. -/
def execDivI (e : Fin 8) (pr : Bool) (d a b : Fin 32) (s : State) : Host.Outcome State Fault Refusal :=
  .next (s.sss e pr 12 d a b (divS))

/-- DIVU (R212): unsigned quotient. -/
def execDivu (e : Fin 8) (pr : Bool) (d a b : Fin 32) (s : State) : Host.Outcome State Fault Refusal :=
  .next (s.sss e pr 12 d a b (divU))

/-- REM (R212): remainder with the sign of a. -/
def execRem (e : Fin 8) (pr : Bool) (d a b : Fin 32) (s : State) : Host.Outcome State Fault Refusal :=
  .next (s.sss e pr 12 d a b (remS))

/-- REMU (R212): unsigned remainder. -/
def execRemu (e : Fin 8) (pr : Bool) (d a b : Fin 32) (s : State) : Host.Outcome State Fault Refusal :=
  .next (s.sss e pr 12 d a b (remU))

/-- CLZ (R212): leading zeros. -/
def execClz (e : Fin 8) (pr : Bool) (d a : Fin 32) (s : State) : Host.Outcome State Fault Refusal :=
  .next (s.ss e pr 1 d a (clz))

/-- POPC (R212): count of ones. -/
def execPopc (e : Fin 8) (pr : Bool) (d a : Fin 32) (s : State) : Host.Outcome State Fault Refusal :=
  .next (s.ss e pr 1 d a (popc))

/-- SEXTB (R212): bits [7:0] sign-extended. -/
def execSextb (e : Fin 8) (pr : Bool) (d a : Fin 32) (s : State) : Host.Outcome State Fault Refusal :=
  .next (s.ss e pr 1 d a (sextLow 8))

/-- SEXTH (R212): bits [15:0] sign-extended. -/
def execSexth (e : Fin 8) (pr : Bool) (d a : Fin 32) (s : State) : Host.Outcome State Fault Refusal :=
  .next (s.ss e pr 1 d a (sextLow 16))

/-- ABS (R212): sat(abs(a)). -/
def execAbs (e : Fin 8) (pr : Bool) (d a : Fin 32) (s : State) : Host.Outcome State Fault Refusal :=
  .next (s.ss e pr 1 d a (absSat))

/-- ADDI (R212): d = a plus the immediate, sign-extended. -/
def execAddi (e : Fin 8) (pr : Bool) (d a : Fin 32) (i : BitVec 15) (s : State) : Host.Outcome State Fault Refusal :=
  .next (s.ss e pr 1 d a (fun x => x + imm15s i))

/-- SLTI (R212): signed comparison with the immediate. -/
def execSlti (e : Fin 8) (pr : Bool) (d a : Fin 32) (i : BitVec 15) (s : State) : Host.Outcome State Fault Refusal :=
  .next (s.ss e pr 1 d a (fun x => bit1 (decide (x.toInt < (imm15s i).toInt))))

/-- SLTIU (R212): unsigned comparison with the sign-extended immediate. -/
def execSltiu (e : Fin 8) (pr : Bool) (d a : Fin 32) (i : BitVec 15) (s : State) : Host.Outcome State Fault Refusal :=
  .next (s.ss e pr 1 d a (fun x => bit1 (decide (x.toNat < (imm15s i).toNat))))

/-- ANDI (R212): AND with the immediate, zero-extended. -/
def execAndi (e : Fin 8) (pr : Bool) (d a : Fin 32) (i : BitVec 15) (s : State) : Host.Outcome State Fault Refusal :=
  .next (s.ss e pr 1 d a (fun x => x &&& imm15u i))

/-- ORI (R212): OR with the immediate, zero-extended. -/
def execOri (e : Fin 8) (pr : Bool) (d a : Fin 32) (i : BitVec 15) (s : State) : Host.Outcome State Fault Refusal :=
  .next (s.ss e pr 1 d a (fun x => x ||| imm15u i))

/-- XORI (R212): XOR with the immediate, zero-extended. -/
def execXori (e : Fin 8) (pr : Bool) (d a : Fin 32) (i : BitVec 15) (s : State) : Host.Outcome State Fault Refusal :=
  .next (s.ss e pr 1 d a (fun x => x ^^^ imm15u i))

/-- SLLI (R212): shift left by n. -/
def execSlli (e : Fin 8) (pr : Bool) (d a n : Fin 32) (s : State) : Host.Outcome State Fault Refusal :=
  .next (s.ss e pr 1 d a (fun x => x <<< n.val))

/-- SRLI (R212): logical shift right by n. -/
def execSrli (e : Fin 8) (pr : Bool) (d a n : Fin 32) (s : State) : Host.Outcome State Fault Refusal :=
  .next (s.ss e pr 1 d a (fun x => x >>> n.val))

/-- SRAI (R212): arithmetic shift right by n. -/
def execSrai (e : Fin 8) (pr : Bool) (d a n : Fin 32) (s : State) : Host.Outcome State Fault Refusal :=
  .next (s.ss e pr 1 d a (fun x => x.sshiftRight n.val))

/-! ## Long forms (R207, R212): two words, never paired -/

/-- LI (R212): d = imm32. -/
def execLi (e : Fin 8) (d : Fin 32) (i : Word) (s : State) : Host.Outcome State Fault Refusal :=
  .next (s.instr e false 1 2 (fun _ r => r.regsTo (fun g => g.setS d i)))

/-- ADDIL (R212): d = a + imm32. -/
def execAddil (e : Fin 8) (d a : Fin 32) (i : Word) (s : State) : Host.Outcome State Fault Refusal :=
  .next (s.instr e false 1 2 (fun v r => r.regsTo (fun g => g.setS d (v.regs.rs a + i))))

/-- SLTIL (R212): signed comparison with imm32. -/
def execSltil (e : Fin 8) (d a : Fin 32) (i : Word) (s : State) : Host.Outcome State Fault Refusal :=
  .next (s.instr e false 1 2 (fun v r => r.regsTo (fun g => g.setS d (bit1 (decide ((v.regs.rs a).toInt < i.toInt))))))

/-! ## Scalar loads and stores (R213) -/

/-- The address sA + OFF12 × size (R213), in 32 bits. -/
def scalarAddr (base : Word) (off : BitVec 12) (size : Nat) : Nat := (base + BitVec.ofInt 32 (off.toInt * (size : Int))).toNat

/-- A scalar load of `size` bytes: `f` widens what it reads. -/
def State.loadS (s : State) (e : Nat) (pr : Bool) (d a : Nat) (off : BitVec 12) (size : Nat) (f : Nat → Word) : State :=
  s.instrF e pr 1 1 (fun im v r =>
    let x := scalarAddr (v.regs.rs a) off size
    match im.check x size size false with
    | some c => .error c
    | none => .ok (r.regsTo (fun g => g.setS d (f (ofLe (memRead v.lmem x size))))))

/-- A scalar store of the low `size` bytes of sD. -/
def State.storeS (s : State) (e : Nat) (pr : Bool) (d a : Nat) (off : BitVec 12) (size : Nat) : State :=
  s.instrF e pr 1 1 (fun im v r =>
    let x := scalarAddr (v.regs.rs a) off size
    match im.check x size size true with
    | some c => .error c
    | none => .ok { r with lmem := memWrite r.lmem x (leBytes (v.regs.rs d).toNat size) })

/-- LB (R213): loads a byte, sign-extended. -/
def execLb (e : Fin 8) (pr : Bool) (d a : Fin 32) (off : BitVec 12) (s : State) : Host.Outcome State Fault Refusal :=
  .next (s.loadS e pr d a off 1 (fun n => BitVec.ofInt 32 (sgn 8 n)))

/-- LBU (R213): loads a byte, zero-extended. -/
def execLbu (e : Fin 8) (pr : Bool) (d a : Fin 32) (off : BitVec 12) (s : State) : Host.Outcome State Fault Refusal :=
  .next (s.loadS e pr d a off 1 (BitVec.ofNat 32))

/-- LH (R213): loads a halfword, sign-extended. -/
def execLh (e : Fin 8) (pr : Bool) (d a : Fin 32) (off : BitVec 12) (s : State) : Host.Outcome State Fault Refusal :=
  .next (s.loadS e pr d a off 2 (fun n => BitVec.ofInt 32 (sgn 16 n)))

/-- LHU (R213): loads a halfword, zero-extended. -/
def execLhu (e : Fin 8) (pr : Bool) (d a : Fin 32) (off : BitVec 12) (s : State) : Host.Outcome State Fault Refusal :=
  .next (s.loadS e pr d a off 2 (BitVec.ofNat 32))

/-- LW (R213): loads a word. -/
def execLw (e : Fin 8) (pr : Bool) (d a : Fin 32) (off : BitVec 12) (s : State) : Host.Outcome State Fault Refusal :=
  .next (s.loadS e pr d a off 4 (BitVec.ofNat 32))

/-- SB (R213): stores the low 8 bits of sD. -/
def execSb (e : Fin 8) (pr : Bool) (d a : Fin 32) (off : BitVec 12) (s : State) : Host.Outcome State Fault Refusal :=
  .next (s.storeS e pr d a off 1)

/-- SH (R213): stores the low 16 bits of sD. -/
def execSh (e : Fin 8) (pr : Bool) (d a : Fin 32) (off : BitVec 12) (s : State) : Host.Outcome State Fault Refusal :=
  .next (s.storeS e pr d a off 2)

/-- SW (R213): stores the low 32 bits of sD. -/
def execSw (e : Fin 8) (pr : Bool) (d a : Fin 32) (off : BitVec 12) (s : State) : Host.Outcome State Fault Refusal :=
  .next (s.storeS e pr d a off 4)

/-! ## f32 (R210, R214) -/

/-- A binary32 operation on words. -/
def f32Op (f : F32 → F32 → F32) (a b : Word) : Word := f32Word (f (f32Of a) (f32Of b))

/-- The square root: a negative input gives NaN (R214); a negative zero is itself. -/
def f32Sqrt (a : Word) : Word :=
  match f32Of a with
  | .nan => f32NaN
  | .inf n => if n then f32NaN else 0x7F800000
  | .zero n => if n then 0x80000000 else 0
  | .fin q => if q < 0 then f32NaN else fsqrtWord q

/-- FADD (R214): binary32 sum. -/
def execFadd (e : Fin 8) (pr : Bool) (d a b : Fin 32) (s : State) : Host.Outcome State Fault Refusal :=
  .next (s.sss e pr 1 d a b (f32Op fadd))

/-- FSUB (R214): binary32 difference. -/
def execFsub (e : Fin 8) (pr : Bool) (d a b : Fin 32) (s : State) : Host.Outcome State Fault Refusal :=
  .next (s.sss e pr 1 d a b (f32Op (fun x y => fadd x (fneg y))))

/-- FMUL (R214): binary32 product. -/
def execFmul (e : Fin 8) (pr : Bool) (d a b : Fin 32) (s : State) : Host.Outcome State Fault Refusal :=
  .next (s.sss e pr 1 d a b (f32Op fmul))

/-- FDIV (R214): binary32 quotient. -/
def execFdiv (e : Fin 8) (pr : Bool) (d a b : Fin 32) (s : State) : Host.Outcome State Fault Refusal :=
  .next (s.sss e pr 12 d a b (f32Op fdiv))

/-- FSQRT (R214): square root. -/
def execFsqrt (e : Fin 8) (pr : Bool) (d a : Fin 32) (s : State) : Host.Outcome State Fault Refusal :=
  .next (s.ss e pr 12 d a (f32Sqrt))

/-- FMIN (R214): minimum; with one NaN operand the other. -/
def execFmin (e : Fin 8) (pr : Bool) (d a b : Fin 32) (s : State) : Host.Outcome State Fault Refusal :=
  .next (s.sss e pr 1 d a b (f32Op fmin))

/-- FMAX (R214): maximum; with one NaN operand the other. -/
def execFmax (e : Fin 8) (pr : Bool) (d a b : Fin 32) (s : State) : Host.Outcome State Fault Refusal :=
  .next (s.sss e pr 1 d a b (f32Op fmax))

/-- FCVTFI (R214): f32 from i32. -/
def execFcvtfi (e : Fin 8) (pr : Bool) (d a : Fin 32) (s : State) : Host.Outcome State Fault Refusal :=
  .next (s.ss e pr 1 d a (fcvtfi))

/-- FCVTIF (R214): i32 from f32, rounded to nearest even. -/
def execFcvtif (e : Fin 8) (pr : Bool) (d a : Fin 32) (s : State) : Host.Outcome State Fault Refusal :=
  .next (s.ss e pr 1 d a (fun x => fcvtif (f32Of x)))

/-- FLT (R214): 1 if a < b. -/
def execFltI (e : Fin 8) (pr : Bool) (d a b : Fin 32) (s : State) : Host.Outcome State Fault Refusal :=
  .next (s.sss e pr 1 d a b (fun x y => bit1 (flt (f32Of x) (f32Of y))))

/-- FEQ (R214): 1 if a == b. -/
def execFeq (e : Fin 8) (pr : Bool) (d a b : Fin 32) (s : State) : Host.Outcome State Fault Refusal :=
  .next (s.sss e pr 1 d a b (fun x y => bit1 (feq (f32Of x) (f32Of y))))

/-- FABS (R214): the sign bit cleared. -/
def execFabs (e : Fin 8) (pr : Bool) (d a : Fin 32) (s : State) : Host.Outcome State Fault Refusal :=
  .next (s.ss e pr 1 d a (fun x => x &&& 0x7FFFFFFF))

/-- FNEG (R214): the sign bit flipped. -/
def execFneg (e : Fin 8) (pr : Bool) (d a : Fin 32) (s : State) : Host.Outcome State Fault Refusal :=
  .next (s.ss e pr 1 d a (fun x => x ^^^ 0x80000000))

/-! ## Predicates (R214) -/

/-- PAND (R214): bitwise. -/
def execPand (e : Fin 8) (pr : Bool) (d a b : Fin 8) (s : State) : Host.Outcome State Fault Refusal :=
  .next (s.ppp e pr d a b (fun x y => x &&& y))

/-- POR (R214): bitwise. -/
def execPor (e : Fin 8) (pr : Bool) (d a b : Fin 8) (s : State) : Host.Outcome State Fault Refusal :=
  .next (s.ppp e pr d a b (fun x y => x ||| y))

/-- PXOR (R214): bitwise. -/
def execPxor (e : Fin 8) (pr : Bool) (d a b : Fin 8) (s : State) : Host.Outcome State Fault Refusal :=
  .next (s.ppp e pr d a b (fun x y => x ^^^ y))

/-- PANDN (R214): bitwise. -/
def execPandn (e : Fin 8) (pr : Bool) (d a b : Fin 8) (s : State) : Host.Outcome State Fault Refusal :=
  .next (s.ppp e pr d a b (fun x y => x &&& ~~~y))

/-- PNOT (R214): d = ~a. -/
def execPnot (e : Fin 8) (pr : Bool) (d a : Fin 8) (s : State) : Host.Outcome State Fault Refusal :=
  .next (s.instr e pr 1 1 (fun v r => r.regsTo (fun g => g.setP d (~~~(v.regs.rp a)))))

/-- PFROMS (R214): a scalar copied into a predicate. -/
def execPfroms (e : Fin 8) (pr : Bool) (d : Fin 8) (a : Fin 32) (s : State) : Host.Outcome State Fault Refusal :=
  .next (s.instr e pr 1 1 (fun v r => r.regsTo (fun g => g.setP d (v.regs.rs a))))

/-- PTOS (R214): a predicate copied into a scalar. -/
def execPtos (e : Fin 8) (pr : Bool) (d : Fin 32) (a : Fin 8) (s : State) : Host.Outcome State Fault Refusal :=
  .next (s.instr e pr 1 1 (fun v r => r.regsTo (fun g => g.setS d (v.regs.rp a))))

/-- PSETS (R214): all ones if a is not 0. -/
def execPsets (e : Fin 8) (pr : Bool) (d : Fin 8) (a : Fin 32) (s : State) : Host.Outcome State Fault Refusal :=
  .next (s.instr e pr 1 1 (fun v r => r.regsTo (fun g => g.setP d (ones (v.regs.rs a != 0)))))

/-- PCNT (R214): count of set bits. -/
def execPcnt (e : Fin 8) (pr : Bool) (d : Fin 32) (a : Fin 8) (s : State) : Host.Outcome State Fault Refusal :=
  .next (s.instr e pr 1 1 (fun v r => r.regsTo (fun g => g.setS d (popc (v.regs.rp a)))))

/-- PFIRST (R214): index of the lowest set bit, or 32. -/
def execPfirst (e : Fin 8) (pr : Bool) (d : Fin 32) (a : Fin 8) (s : State) : Host.Outcome State Fault Refusal :=
  .next (s.instr e pr 1 1 (fun v r => r.regsTo (fun g => g.setS d (firstBit (v.regs.rp a)))))

end Sys2Proof.Machine
end

