-- ==== Sys2Proof/Machine/Tick.lean ====
section
/-!
DEFINITION. The tick (R13, R15, R17, R19, R20): what the plan cut-off closes, everything a tick boundary brings about, in one order, and the commands
that end a failover, a restart and a boot.
-/

namespace Sys2Proof.Machine

/-! ## The end of the tick -/

/-- The metrics of the tick that ends, for each powered converter (R138). -/
def State.gatherAll (s : State) (l : List (Option (Nat × Nat × Nat × Nat))) : State :=
  (List.range 3).foldl (fun (x : State) c => if (x.conv c).powered then x.gather c (l.getD c none) else x) s

/-- The tick ends at the present stu: its jobs complete, its availability is counted, its runs are cut or, at the first boundary of a restart,
undone, and its account is set aside (R138, R265, R270, R487, R496). -/
def State.tickEnds (s : State) (o : TickObs) : State :=
  let s1 := (((s.jobsDue (s.time.tick + 1)).at ((s.time.tick + 1) * tickStu)).gatherAll o.meas).lnaGather o.lna
  let s2 := s1.countTick o.out
  (if s2.flt.restart.isSome ∧ s2.flt.restartStep = 0 then s2.restartBoundary else s2.cutRuns).accountTick

/-! ## Requests at the boundary (R15, R20) -/

/-- The requests that a repeated plan or a restart leaves waiting (R19, R482, R512). -/
def ReqKind.waits : ReqKind → Bool
  | .reg a _ => a == Reg.LDG_CTRL
  | _ => true

/-- The requests due at the present tick of the kinds `f` are taken out of the list of those that wait. -/
def State.takeReqs (s : State) (f : ReqKind → Bool) : List Req × State :=
  let mine := fun (q : Req) => decide (q.due ≤ s.time.tick) && f q.kind
  (s.reqs.filter mine, { s with reqs := s.reqs.filter (fun q => !mine q) })

/-- A close at its boundary: an open context closes, an open still waiting ends with "context closed", and the CLOSE completes (R20, R408). -/
def State.closeDue (s : State) (q : Req) : State :=
  match q.kind with
  | .closeCtx n tag => (if s.isOpen n then s.closeEffect n else s.cancelOpen n 0x15).complete q.tenant tag 3 0 q.accept []
  | _ => s

/-- A table, a clear or a tenant reset at its boundary (R398, R401, R417). -/
def State.tenancyDue (s : State) (q : Req) : State :=
  match q.kind with
  | .table l _ tag => s.tableEffect q.accept tag l
  | .clear _ tag time => s.clearEffect q.accept tag time
  | .treset t => s.tresetEffect t
  | _ => s

/-- A change of STRIDE or priority at its boundary (R246, R409); a new home that it brings is a move (R259). -/
def State.runDue (s : State) (q : Req) : State :=
  match q.kind with
  | .run n v home phase units =>
    let s1 := (s.wr (Reg.CTX_RUN n) v).ctxMod n (fun x => { x with
      stride := strideOf (fieldOf v 11 0), prio := fieldOf v 13 12, home := home, phase := phase, units := units })
    let s2 := if (s.ctx n).home = home then s1 else s1.bump (whole Reg.SEQ_MOVES)
    (s2.showCtx n).postReq q.tenant 0 q.accept n (Reg.CTX_RUN n)
  | _ => s

/-- An open at its boundary (R104, R106, R198). -/
def State.openDue (s : State) (q : Req) : State :=
  match q.kind with
  | .openCtx n tag =>
    if (s.ctx n).opening then
      match s.openRefused n with
      | some e => s.cancelOpen n e
      | none => s.openEffect n tag
    else s
  | _ => s

/-- The context and the offset of a CHN or BRS register. -/
def Req.place (q : Req) : Option (Nat × Nat × Word) :=
  match q.kind, q.ctxOf with
  | .reg _ v, some (n, a) =>
    if a < Reg.BRS_CFG 0 then some (n, a - Reg.CHN_SRC n, v) else some (n, 0x100 + (a - Reg.BRS_CFG n), v)
  | _, _ => none

/-- The NCO words of a context come into force together, with one marker (R108). -/
def State.ncoDue (s : State) (l : List Req) (n : Nat) : State :=
  let mine := l.filterMap (fun q => match q.place with
    | some (m, o, v) => if m = n ∧ (o = 0x14 ∨ o = 0x18) then some (o, v) else none
    | none => none)
  if mine.isEmpty then s else
  let c := (s.ctx n).chain
  let (f, p) := mine.foldl (fun (w : Nat × Nat) (e : Nat × Word) =>
    if e.1 = 0x14 then (e.2.toNat, w.2) else (w.1, fieldOf e.2 15 0)) (c.ftw, c.ph)
  s.setNco n s.now f p

/-- A chain's AGC word comes into force (R129, R562). An AGC whose EN goes from 0 back to 1 with no reset between goes on with the gain it had (DESIGN CHOICE
beside R127, which gives the gain after a reset and after a group only; log entry 83). -/
def State.agcDue (s : State) (n : Nat) (v : Word) : State :=
  s.chnMod n (fun c => { c with agc := v, hasAgc := c.hasAgc || bitOf v.toNat 31 })

/-- A register request of a context takes effect, and its completion is written (R120, R309, R409): an arming of a chain that is stopped at this boundary, shed or pending
the grade, reads "context shed". NCO words are in force already. -/
def State.ctxRegDue (s : State) (q : Req) : State :=
  match q.place, q.kind with
  | some (n, o, v), .reg a _ =>
    if o = 0x28 then
      if (s.ctx n).chain.on then (s.chnReset n s.now (s.zOf n s.now false) true false).postReq q.tenant 0 q.accept n a
      else s.postReq q.tenant 0x33 q.accept n a
    else if 0x100 ≤ o then (s.wr a v).postReq q.tenant 0 q.accept n a
    else if a = Reg.CHN_AGC n then (s.agcDue n v).postReq q.tenant 0 q.accept n a
    else s.postReq q.tenant 0 q.accept n a
  | _, _ => s

/-- A register request of the device takes effect (R66, R161, R466, R497, R510). -/
def State.regDue (s : State) (q : Req) : State :=
  match q.kind with
  | .reg a v =>
    let n := v.toNat
    if a = Reg.CCS_CTRL then s.ccsMod (fun c => { c with ssc := fieldOf v 21 19, fmax := fmaxOf (fieldOf v 18 0) })
    else if a = Reg.CAL_CTRL then s.calFactory
    else if a = Reg.SNP_CTRL then s.rawBoundary (bitOf n 8)
    else if a = Reg.FLT_CTRL then s.fltBoundary v
    else if a = Reg.LDG_CTRL then s.hiberStart
    else s
  | _ => s

/-- Contexts of a list of requests, in the order of their cascade levels. -/
def State.orderReqs (s : State) (l : List Req) (f : Req → Option Nat) : List Req :=
  (s.byLevel (distinct (l.filterMap f))).flatMap (fun n => l.filter (fun q => f q == some n))

/-- The context of an open. -/
def Req.opens (q : Req) : Option Nat :=
  match q.kind with
  | .openCtx n _ => some n
  | _ => none

/-- Closes, tenancy, strides and the plan: the changes that decide which contexts there are (R20); none of them with a repeated plan. -/
def State.structureDue (s : State) (p : Option PlanS) : State :=
  let (cl, s1) := s.takeReqs (fun k => match k with
    | .closeCtx .. => true
    | _ => false)
  let s2 := cl.foldl (fun (x : State) q => x.closeDue q) s1
  let (te, s3) := s2.takeReqs (fun k => match k with
    | .table .. => true
    | .clear .. => true
    | .treset .. => true
    | _ => false)
  let s4 := te.foldl (fun (x : State) q => x.tenancyDue q) s3
  let (ru, s5) := s4.takeReqs (fun k => match k with
    | .run .. => true
    | _ => false)
  let s6 := ru.foldl (fun (x : State) q => x.runDue q) s5
  match p with
  | some p => s6.applyPlan p
  | none => s6

/-- A request that sets a level of the front end: ROUTE, or the EN of a port's bias (R83, R86). -/
def ReqKind.level : ReqKind → Bool
  | .reg a _ => a == Reg.FE_CTRL 0 || a == Reg.FE_BIAS 0 || a == Reg.FE_BIAS 1 || a == Reg.FE_BIAS 2
  | _ => false

/-- Of several requests for one level due at one boundary the last is in force (R15): the others make no change of their own. -/
def lastOf (a : Nat) (l : List Req) : Option Word :=
  ((l.filterMap (fun q => match q.kind with
    | .reg b v => if b = a then some v else none
    | _ => none)).getLast?)

/-- The routing and then the bias outputs follow the requests due (R83, R86); a change of routing discards the ticks gathered (R137). -/
def State.levelsDue (s : State) : State :=
  let (l, s1) := s.takeReqs ReqKind.level
  let s2 := match lastOf (Reg.FE_CTRL 0) l with
    | some v =>
      let y := s1.routeTo (fieldOf v 8 8)
      if y.fe.route = s1.fe.route then y else (y.calDiscard 0).calDiscard 1
    | none => s1
  (List.range 3).foldl (fun (x : State) p => match lastOf (Reg.FE_BIAS p) l with
    | some v => x.biasEn p (bitOf v.toNat 31)
    | none => x) s2

/-- The register requests of the device due (R13). -/
def State.devRegsDue (s : State) (hold : Bool) : State :=
  let (l, s1) := s.takeReqs (fun k => match k with
    | .reg a _ => !(hold && a == Reg.LDG_CTRL) && !k.level && (ctxOfReg a).isNone
    | _ => false)
  l.foldl (fun (x : State) q => x.regDue q) s1

/-- The register requests of contexts due (R13), chains of sources first; those of a context whose OPEN still waits wait with it (R19, R132). -/
def State.ctxRegsDue (s : State) : State :=
  let (l, s1) := s.takeReqs (fun k => match k with
    | .reg a _ => match ctxOfReg a with
      | some n => !(s.ctx n).opening
      | none => false
    | _ => false)
  let place := fun (q : Req) => q.place.map (·.1)
  let s2 := (s1.byLevel (distinct (l.filterMap place))).foldl (fun (x : State) n => x.ncoDue l n) s1
  (s2.orderReqs l place).foldl (fun (x : State) q => x.ctxRegDue q) s2

/-- The opens due, chains of sources first (R198). -/
def State.opensDue (s : State) : State :=
  let (l, s1) := s.takeReqs (fun k => match k with
    | .openCtx .. => true
    | _ => false)
  (s1.orderReqs l Req.opens).foldl (fun (x : State) q => x.openDue q) s1

/-! ## The grade at the boundary -/

/-- The tick's grade comes into force; the entry to G5 journals telemetry, saves calibration, stamps the clock and ends the estimates of the wideband
converters (R155, R158, R276, R277, R386, R474). -/
def State.gradeDue (s : State) (hold : Bool) : State :=
  let was := s.fget Reg.TOP_DOMAIN_GRADE
  if s.flt.restart.isSome ∨ (hold ∧ was < s.fget Reg.LDG_STAT_NEXT) then s else
  let s1 := s.gradeBoundary
  let s2 := if hold then s1 else s1.ctxs.foldl (fun (x : State) p =>
    x.ctxMod p.1 (fun c => { c with shedGrade := s1.ldg.shed.contains p.1 })) s1
  if was = 5 ∨ s2.fget Reg.TOP_DOMAIN_GRADE ≠ 5 then s2 else
  let s3 := ((List.range 13).filter (fun i => s2.calConv i != 2)).foldl (fun (x : State) i =>
    x.estMod i (fun e => { e with due := none, esc := false, passing := 0, tsum := 0 })) s2
  let s4 := s3.showDef
  if !s4.journal then s4 else
  let s5 := s4.telJournal
  s5.calEntrySave.clockStamp 1

/-! ## The front end and the chains at the boundary -/

/-- Power, calibration, routing and bias, gain steps and shorts at the boundary, in the order R20 and R115 give: the markers carry the ratios of the
boundary (R150). -/
def State.feDue (s : State) : State :=
  let s1 := ((s.convPower (s.fget Reg.TOP_DOMAIN_GRADE)).calBoundary s.time.tick).levelsDue
  let s2 := (List.range 2).foldl (fun (x : State) p => x.stepAt p) s1
  (List.range 3).foldl (fun (x : State) p => x.biasShort p) s2

/-- The masks of the preselectors follow the chains that run (R88); a PRESEL marker discards the ticks gathered (R137). -/
def State.preselDue (s : State) : State :=
  (List.range 2).foldl (fun (x : State) p =>
    let y := x.preselAt p
    if y.fget (Reg.FE_STAT_PSNOW p) = x.fget (Reg.FE_STAT_PSNOW p) then y else y.calDiscard (x.crossed p)) s

/-- The swaps of every open context (R125, R126), and CHN_COST as in force (R562). -/
def State.swapsDue (s : State) : State :=
  s.openCtxs.foldl (fun (x : State) n =>
    let y := x.swapsAt (x.ctx n).tenant n x.now x.time.tick
    y.rsetN (Reg.CHN_COST n) (y.ctx n).costNow) s

/-! ## The sensors -/

/-- A sensor's conversion (R273): outside −50 to 150 °C, or failing its check, it is invalid and logged. -/
def State.sensor (s : State) (i : Nat) (t : Option Int) : State :=
  match t with
  | some q =>
    if -800 ≤ q ∧ q ≤ 2400 then (s.fset (Reg.LDG_TEMP_TEMP i) (code 16 q)).fsetB (Reg.LDG_TEMP_VALID i) true
    else ((s.fset (Reg.LDG_TEMP_TEMP i) (code 16 q)).fsetB (Reg.LDG_TEMP_VALID i) false).fault 0x0008 255 255 0
  | none => (s.fsetB (Reg.LDG_TEMP_VALID i) false).fault 0x0008 255 255 0

/-- The eight sensors. -/
def State.sensors (s : State) (l : List (Option Int)) : State :=
  (List.range 8).foldl (fun (x : State) i => x.sensor i (l.getD i none)) s

/-! ## TICK_BOUNDARY -/

/-- The plan handed over for the tick that begins is taken; without one the plan before is repeated, which is logged unless the device restarts
(R19, R487). -/
def State.takePlan (s : State) : Option PlanS × State :=
  let p := if s.boot.planned && s.flt.restart.isNone then s.seq.plan.filter (fun p => p.tick == s.time.tick) else none
  let again := s.boot.planned && s.flt.restart.isNone && p.isNone
  let items := fun (q : SeqS) => match p with
    | some p => { q with now := p.items, nowSafe := p.safe }
    | none => q
  let s1 := (s.seqMod (fun q => { items q with plan := none, repeated := again })).fsetB Reg.SEQ_STAT_REPEAT again
  (p, if again then ((s1.evt Reg.SEQ_EVT_REPEAT).bump (whole Reg.SEQ_REPEAT)).fault 0x0003 255 255 0 else s1)

/-- The new tick's core clock, safe plan and budget (R62, R74, R267). A repeated plan starts the profile planned for it all the same (DESIGN CHOICE, log entry
22). -/
def State.coreDue (s : State) (hold : Bool) : State :=
  let safe := s.coreSafe && s.boot.planned && (!s.seq.wasSafe || (hold && s.flag Reg.SEQ_STAT_SAFEPLAN))
  let s0 := s.coreOpen
  let s1 := s0.seqMod (fun q => { q with wasSafe := s0.coreSafe })
  ((s1.fsetB Reg.SEQ_STAT_SAFEPLAN (safe && s1.coreSafe)).safeSpare).rsetN Reg.SEQ_BUDGET (commit (s1.rget Reg.CCS_TICKCYC).toNat)

/-- The changes that make up the tick that begins, with the plan `p` or none (R13, R20). NEXT events of the tick before may run from now on; one that the boundary
itself raises belongs to the tick that begins (R188). Chains stop and return before contexts open and before their requests take effect: a chain reset at the boundary finds its
source as the boundary leaves it (R121), and a request the chain as it is (R409). -/
def State.changes (s : State) (p : Option PlanS) : State :=
  let hold := s.boot.planned && p.isNone
  let s1 := ((s.joinCues.coreClose.fences p).gradeDue hold)
  let s2 := ((if hold then s1 else s1.structureDue p).devRegsDue hold).eccTrips.tripStops
  let s3 := s2.feDue
  let s4 := if hold then s3 else s3.allowPass.opensDue
  (s4.ctxRegsDue.preselDue.swapsDue.coreDue hold).placeSlots

/-- TICK_BOUNDARY (R17): the boundary of the next tick, with what the environment shows of the tick that ends. -/
def execTickBoundary (o : TickObs) (s : State) : Host.Outcome State Fault Refusal :=
  .next (
    if !s.up then s else
    let s1 := (s.tickEnds o).timeMod (fun t => { t with tick := s.time.tick + 1 })
    let s2 := { s1 with host := { s1.host with
      out := { s1.host.out with dma := [] }, tenants := s1.host.tenants.map (fun (t : TenantS) => { t with taken := 0 }) } }
    let (p, s3) := s2.takePlan
    let s4 := ((s3.changes p).rsetN Reg.CCS_SAFE (o.safe % 1048576)).showSeq
    let s5 := ((s4.foldUnc.sensors o.temps).tickOutRise.applyClaims).trackClass.escalate.hiberDone.keepRef.fillMirror
    if s5.boot.planned && s5.time.tick == s5.boot.firstTick + 1 then s5.sweepStart else s5)

/-! ## PLAN_CUTOFF -/

/-- PLAN_CUTOFF (R15, R18, R85, R90, R124): the plan for the next tick closes. -/
def execPlanCutoff (o : CutObs) (s : State) : Host.Outcome State Fault Refusal :=
  .next (
    if !s.up then s else
    let s1 := (s.at (s.time.tick * tickStu + cutoff)).feCutoff o
    if !s1.wardenUp then s1 else
    let s2 := (s1.planSwaps (s1.time.tick + 1)).planProfile
    (s2.rsetN Reg.CCS_NEXTCYC s2.nextCycles).replan [] [])

/-! ## The end of a failover and of a restart -/

/-- FAILOVER_COMPLETE (R483): the new warden posts its first heartbeat at `t`, by the boundary that R483 bounds it by, and its first plan is for the tick that begins there. -/
def execFailoverComplete (t : Nat) (s : State) : Host.Outcome State Fault Refusal :=
  .next (
    match s.flt.failover with
    | none => s
    | some most =>
    if !s.up then s else
    let s2 := ((s.at (Nat.min t most)).fault s.flt.failCode s.flt.failUnit 255 0).fltMod (fun x => { x with failover := none, newMiss := 0 })
    let s3 := (s2.fset Reg.TOP_DOMAIN_SUPERVISOR s2.activeWd).fset Reg.FLT_STAT_HBMISS 0
    let (p, s4) := s3.buildPlan (s3.time.tick + 1)
    s4.seqMod (fun q => { q with plan := some p }))

/-- The end of a Tin Soldier restart triggered at stu `u` (R487, R489): a warden is active, the island runs, and the burst receivers of running contexts
rearm at the next boundary (R308). -/
def State.restartEnd (s : State) (u : Nat) : State :=
  let a := if s.flt.wdaQuar then 1 else 0
  let s2 := s.setWarden a 0
  let s3 := if s2.warden (1 - a) = 3 then s2 else s2.setWarden (1 - a) 2
  let s4 := ((s3.fset Reg.TOP_DOMAIN_SUPERVISOR a).fset Reg.TOP_DOMAIN_COMPUTE 1).fsetB Reg.FLT_STAT_TSRUN false
  let s5 := ((s4.evt Reg.FLT_EVT_RESTARTED).rsetN Reg.FLT_TSLAST ((s4.now - u) / 6144)).fset Reg.FLT_STAT_HBMISS 0
  let s6 := s5.fltMod (fun x => { x with restart := none, restartStep := 0 })
  (s6.openCtxs.filter (fun n => (s6.ctx n).mode == .running)).foldl (fun (x : State) n => x.brsRearm n ((x.time.tick + 1) * tickStu)) s6

/-- TS_RESTART_COMPLETE (R487 to R490): the started warden posts its first heartbeat at `t`, no later than 250 ms after the trigger: past that the restart has failed (R488). Its first plan
returns no stopped context yet. -/
def execTsRestartComplete (t : Nat) (s : State) : Host.Outcome State Fault Refusal :=
  .next (
    match s.flt.restart with
    | none => s
    | some u =>
      let last := u + 250 * (secStu / 1000)
      if s.flt.restartStep ≠ 3 ∨ !s.up then s
      else if last < s.now then s.deviceReset 0x5001 else
      let s1 := (s.at (Nat.min t last)).restartEnd u
      let r := s1.buildPlan (s1.time.tick + 1)
      r.2.seqMod (fun q => { q with plan := some { r.1 with back := [] } }))

/-! ## The end of a boot -/

/-- FIRST_PLANNED_TICK (R42, R151, R506, R509): given at its boundary; the capture of the backup time takes effect at the oscillator edge of raw pulse `raw`,
stu `edge`. -/
def execFirstPlannedTick (edge raw : Nat) (s : State) : Host.Outcome State Fault Refusal :=
  .next (
    if !s.up || s.boot.rom || s.boot.planned || s.time.tick != s.boot.firstTick then s else
    let s1 := s.bootMod (fun b => { b with planned := true })
    let s2 := s1.rtcStart edge raw
    let s3 := s2.bootMod (fun b => { b with firstTime := some (s2.witTime (b.firstTick * tickStu)) })
    ((s3.calStart).obsBegin).bootRecord)

/-- READY (R153, R506): the boundary 810 ticks after the first planned tick. -/
def execReadyEvt (s : State) : Host.Outcome State Fault Refusal :=
  .next (
    if s.up && s.boot.planned && decide (s.boot.firstTick + 810 ≤ s.time.tick) then s.fsetB Reg.TOP_DOMAIN_READY true else s)

end Sys2Proof.Machine
end

