-- ==== Sys2Proof/Machine/Vector.lean ====
section
/-!
DEFINITION. The V class (R208 to R210, R215, R216): vector arithmetic, accumulators, permutes, reductions, moves and vector memory. A type that an
instruction does not list is not a defined encoding: the loader refuses it, an engine never meets it, and its command does nothing.
-/

namespace Sys2Proof.Machine

/-! ## Shared forms -/

/-- An instruction of element type `ty`: nothing where the type is not one of `tys`. -/
def State.typed (s : State) (tys : List VTy) (ty : VTy) (f : State → State) : State := if tys.contains ty then f s else s

/-- Every type, the integer types, the lane types of single components. -/
def allTys : List VTy := [.i8, .i16, .q15, .i32, .c16, .c32]
def realTys : List VTy := [.i8, .i16, .q15, .i32]
def intTys : List VTy := [.i8, .i16, .i32]
def halfTys : List VTy := [.i16, .q15]

/-- vD component by component from two vectors, signed; ungoverned lanes keep. -/
def State.vcomp (s : State) (e : Nat) (pr : Bool) (cost g : Nat) (ty : VTy) (d a b : Nat) (f : Nat → Int → Int → Int) : State :=
  s.instr e pr cost 1 (fun v r =>
    let w := compW ty
    let x := v.regs.rv a
    let y := v.regs.rv b
    let o := vmap ty (v.regs.rp g) (v.regs.rv d) (fun c => f c (compS w x c) (compS w y c))
    r.regsTo (fun k => k.setV d o))

/-- vD from a function of the component number alone, signed. -/
def State.vgen (s : State) (e : Nat) (pr : Bool) (cost g : Nat) (ty : VTy) (d : Nat) (f : PairS → Nat → Int) : State :=
  s.instr e pr cost 1 (fun v r => r.regsTo (fun k => k.setV d (vmap ty (v.regs.rp g) (v.regs.rv d) (f v))))

/-- sD from a vector and the governing predicate. -/
def State.vred (s : State) (e : Nat) (pr : Bool) (cost g d a : Nat) (f : Word → Vec → Word) : State :=
  s.instr e pr cost 1 (fun v r => r.regsTo (fun k => k.setS d (f (v.regs.rp g) (v.regs.rv a))))

/-- An accumulator lane by lane: lane `j` takes `f` where predicate bit `j` governs it. -/
def State.vacc (s : State) (e : Nat) (pr : Bool) (cost g k : Nat) (f : PairS → Nat → Int → Int) : State :=
  s.instr e pr cost 1 (fun v r =>
    let old := v.regs.ra k
    let gp := v.regs.rp g
    r.regsTo (fun q => q.setA k ((List.range 32).map (fun j =>
      let o := old.getD j 0
      if bitOf gp.toNat j then satAcc (f v j o) else o))))

/-- A saturated value of a component of a type. -/
def satTy (ty : VTy) (x : Int) : Int := satS (compW ty) x

/-- The product of VMUL (R209, R215) for component `c` of complex or real vectors; `conj` takes the conjugate of b. -/
def mulComp (ty : VTy) (x y : Vec) (conj : Bool) (c : Nat) : Int :=
  let w := compW ty
  match ty with
  | .q15 => satS 16 (rshRound (compS w x c * compS w y c) 15)
  | .c16 => cpart w 15 c
  | .c32 => cpart w 31 c
  | _ => compS w x c * compS w y c
where
  cpart (w k c : Nat) : Int :=
    let j := c / 2 * 2
    let bi := compS w y (j + 1)
    let p := cmul (compS w x j) (compS w x (j + 1)) (compS w y j) (if conj then -bi else bi)
    satS w (rshRound (if c % 2 = 0 then p.1 else p.2) k)

/-! ## Arithmetic and logic (R215) -/

/-- VADD (R215): a + b; Q15 saturates, the others wrap. -/
def execVadd (e : Fin 8) (pr : Bool) (g : Fin 8) (ty : VTy) (d a b : Fin 32) (s : State) : Host.Outcome State Fault Refusal :=
  .next (s.typed allTys ty (fun s => s.vcomp e pr 1 g ty d a b (fun _ x y => narrowAdd ty (x + y))))

/-- VSUB (R215): a − b; Q15 saturates, the others wrap. -/
def execVsub (e : Fin 8) (pr : Bool) (g : Fin 8) (ty : VTy) (d a b : Fin 32) (s : State) : Host.Outcome State Fault Refusal :=
  .next (s.typed allTys ty (fun s => s.vcomp e pr 1 g ty d a b (fun _ x y => narrowAdd ty (x - y))))

/-- VADDS (R215): sat(a + b). -/
def execVadds (e : Fin 8) (pr : Bool) (g : Fin 8) (ty : VTy) (d a b : Fin 32) (s : State) : Host.Outcome State Fault Refusal :=
  .next (s.typed allTys ty (fun s => s.vcomp e pr 1 g ty d a b (fun _ x y => satTy ty (x + y))))

/-- VSUBS (R215): sat(a − b). -/
def execVsubs (e : Fin 8) (pr : Bool) (g : Fin 8) (ty : VTy) (d a b : Fin 32) (s : State) : Host.Outcome State Fault Refusal :=
  .next (s.typed allTys ty (fun s => s.vcomp e pr 1 g ty d a b (fun _ x y => satTy ty (x - y))))

/-- VMIN (R215): signed minimum. -/
def execVmin (e : Fin 8) (pr : Bool) (g : Fin 8) (ty : VTy) (d a b : Fin 32) (s : State) : Host.Outcome State Fault Refusal :=
  .next (s.typed realTys ty (fun s => s.vcomp e pr 1 g ty d a b (fun _ x y => if x < y then x else y)))

/-- VMAX (R215): signed maximum. -/
def execVmax (e : Fin 8) (pr : Bool) (g : Fin 8) (ty : VTy) (d a b : Fin 32) (s : State) : Host.Outcome State Fault Refusal :=
  .next (s.typed realTys ty (fun s => s.vcomp e pr 1 g ty d a b (fun _ x y => if x < y then y else x)))

/-- VABS (R215): sat(abs(a)), per component. -/
def execVabs (e : Fin 8) (pr : Bool) (g : Fin 8) (ty : VTy) (d a : Fin 32) (s : State) : Host.Outcome State Fault Refusal :=
  .next (s.typed allTys ty (fun s => s.vcomp e pr 1 g ty d a a (fun _ x _ => satTy ty (if x < 0 then -x else x))))

/-- VNEG (R215): sat(−a), per component. -/
def execVneg (e : Fin 8) (pr : Bool) (g : Fin 8) (ty : VTy) (d a : Fin 32) (s : State) : Host.Outcome State Fault Refusal :=
  .next (s.typed allTys ty (fun s => s.vcomp e pr 1 g ty d a a (fun _ x _ => satTy ty (-x))))

/-- VAVG (R215): (a + b + 1) >> 1, exact. -/
def execVavg (e : Fin 8) (pr : Bool) (g : Fin 8) (ty : VTy) (d a b : Fin 32) (s : State) : Host.Outcome State Fault Refusal :=
  .next (s.typed realTys ty (fun s => s.vcomp e pr 1 g ty d a b (fun _ x y => (x + y + 1) / 2)))

/-- VCONJ (R215): (I, sat(−Q)). -/
def execVconj (e : Fin 8) (pr : Bool) (g : Fin 8) (ty : VTy) (d a : Fin 32) (s : State) : Host.Outcome State Fault Refusal :=
  .next (s.typed [.c16, .c32] ty (fun s => s.vcomp e pr 1 g ty d a a (fun c x _ => if c % 2 = 0 then x else satTy ty (-x))))

/-- VSEL (R215): d = G ? a : b; every lane is written. -/
def execVsel (e : Fin 8) (pr : Bool) (g : Fin 8) (ty : VTy) (d a b : Fin 32) (s : State) : Host.Outcome State Fault Refusal :=
  .next (s.instr e pr 1 1 (fun v r =>
    let w := compW ty
    let o := vmap ty (v.regs.rp g) (v.regs.rv b) (fun c => compS w (v.regs.rv a) c)
    r.regsTo (fun k => k.setV d o)))

/-- VMOVV (R215): d = a. -/
def execVmovv (e : Fin 8) (pr : Bool) (g : Fin 8) (ty : VTy) (d a : Fin 32) (s : State) : Host.Outcome State Fault Refusal :=
  .next (s.typed allTys ty (fun s => s.vcomp e pr 1 g ty d a a (fun _ x _ => x)))

/-- VMUL (R215): the product, scaled by its type. -/
def execVmul (e : Fin 8) (pr : Bool) (g : Fin 8) (ty : VTy) (d a b : Fin 32) (s : State) : Host.Outcome State Fault Refusal :=
  .next (s.typed allTys ty (fun s => s.vgen e pr 1 g ty d (fun v => mulComp ty (v.regs.rv a) (v.regs.rv b) false)))

/-- VCMULC (R215): a × conj(b), scaled as VMUL. -/
def execVcmulc (e : Fin 8) (pr : Bool) (g : Fin 8) (ty : VTy) (d a b : Fin 32) (s : State) : Host.Outcome State Fault Refusal :=
  .next (s.typed [.c16, .c32] ty (fun s => s.vgen e pr 2 g ty d (fun v => mulComp ty (v.regs.rv a) (v.regs.rv b) true)))

/-- The exact product that lane `j` of an accumulator takes (R215). -/
def macProd (ty : VTy) (x y : Vec) (j : Nat) : Int :=
  match ty with
  | .i8 => compS 8 x (2 * j) * compS 8 y (2 * j) + compS 8 x (2 * j + 1) * compS 8 y (2 * j + 1)
  | _ => compS 16 x j * compS 16 y j

/-- The part of a complex product that lane `j` of an accumulator takes: Re in even lanes, Im in odd ones. -/
def cmacProd (x y : Vec) (conj : Bool) (j : Nat) : Int :=
  let i := j / 2 * 2
  let bi := compS 16 y (i + 1)
  let p := cmul (compS 16 x i) (compS 16 x (i + 1)) (compS 16 y i) (if conj then -bi else bi)
  if j % 2 = 0 then p.1 else p.2

/-- A complex accumulate: both accumulator lanes of a c16 lane are governed by that lane's bit. -/
def State.vcacc (s : State) (e : Nat) (pr : Bool) (cost g k a b : Nat) (conj : Bool) : State :=
  s.instr e pr cost 1 (fun v r =>
    let old := v.regs.ra k
    let gp := v.regs.rp g
    r.regsTo (fun q => q.setA k ((List.range 32).map (fun j =>
      let o := old.getD j 0
      if bitOf gp.toNat (j / 2 * 2) then satAcc (o + cmacProd (v.regs.rv a) (v.regs.rv b) conj j) else o))))

/-- VMAC (R215): ak[j] plus exact products; i8 lanes in pairs. -/
def execVmac (e : Fin 8) (pr : Bool) (g : Fin 8) (ty : VTy) (k : Fin 4) (a b : Fin 32) (s : State) : Host.Outcome State Fault Refusal :=
  .next (s.typed [.i8, .i16, .q15] ty (fun s => s.vacc e pr 1 g k (fun v j o => o + macProd ty (v.regs.rv a) (v.regs.rv b) j)))

/-- VMSU (R215): ak[j] minus exact products; i8 lanes in pairs. -/
def execVmsu (e : Fin 8) (pr : Bool) (g : Fin 8) (ty : VTy) (k : Fin 4) (a b : Fin 32) (s : State) : Host.Outcome State Fault Refusal :=
  .next (s.typed [.i8, .i16, .q15] ty (fun s => s.vacc e pr 1 g k (fun v j o => o - macProd ty (v.regs.rv a) (v.regs.rv b) j)))

/-- VCMAC (R215), c16: ak[2j] += Re(a × b), ak[2j+1] += Im(a × b). -/
def execVcmac (e : Fin 8) (pr : Bool) (g : Fin 8) (k : Fin 4) (a b : Fin 32) (s : State) : Host.Outcome State Fault Refusal :=
  .next (s.vcacc e pr 1 g k a b false)

/-- VCMACC (R215), c16: as VCMAC with a × conj(b). -/
def execVcmacc (e : Fin 8) (pr : Bool) (g : Fin 8) (k : Fin 4) (a b : Fin 32) (s : State) : Host.Outcome State Fault Refusal :=
  .next (s.vcacc e pr 2 g k a b true)

/-- VMULH (R215): high half of the signed product. -/
def execVmulh (e : Fin 8) (pr : Bool) (g : Fin 8) (ty : VTy) (d a b : Fin 32) (s : State) : Host.Outcome State Fault Refusal :=
  .next (s.typed [.i16, .i32] ty (fun s => s.vcomp e pr 1 g ty d a b (fun _ x y => x * y / 2 ^ compW ty)))

/-- VAND (R215): bitwise. -/
def execVand (e : Fin 8) (pr : Bool) (g : Fin 8) (ty : VTy) (d a b : Fin 32) (s : State) : Host.Outcome State Fault Refusal :=
  .next (s.vgen e pr 1 g ty d (fun v c => (compU (compW ty) (v.regs.rv a &&& v.regs.rv b) c : Nat)))

/-- VOR (R215): bitwise. -/
def execVor (e : Fin 8) (pr : Bool) (g : Fin 8) (ty : VTy) (d a b : Fin 32) (s : State) : Host.Outcome State Fault Refusal :=
  .next (s.vgen e pr 1 g ty d (fun v c => (compU (compW ty) (v.regs.rv a ||| v.regs.rv b) c : Nat)))

/-- VXOR (R215): bitwise. -/
def execVxor (e : Fin 8) (pr : Bool) (g : Fin 8) (ty : VTy) (d a b : Fin 32) (s : State) : Host.Outcome State Fault Refusal :=
  .next (s.vgen e pr 1 g ty d (fun v c => (compU (compW ty) (v.regs.rv a ^^^ v.regs.rv b) c : Nat)))

/-- VNOT (R215): bitwise. -/
def execVnot (e : Fin 8) (pr : Bool) (g : Fin 8) (ty : VTy) (d a : Fin 32) (s : State) : Host.Outcome State Fault Refusal :=
  .next (s.vgen e pr 1 g ty d (fun v c => (compU (compW ty) (~~~(v.regs.rv a)) c : Nat)))

/-- A shift amount: a component of vB modulo its width (R210). -/
def shAmt (ty : VTy) (y : Int) : Nat := (y % ((compW ty : Nat) : Int)).toNat

/-- VSLL (R215): each lane or component shifted left by the matching one of b. -/
def execVsll (e : Fin 8) (pr : Bool) (g : Fin 8) (ty : VTy) (d a b : Fin 32) (s : State) : Host.Outcome State Fault Refusal :=
  .next (s.typed [.i8, .i16, .i32, .c16] ty (fun s => s.vcomp e pr 1 g ty d a b (fun _ x y => x * 2 ^ shAmt ty y)))

/-- VSRL (R215): logical shift right. -/
def execVsrl (e : Fin 8) (pr : Bool) (g : Fin 8) (ty : VTy) (d a b : Fin 32) (s : State) : Host.Outcome State Fault Refusal :=
  .next (s.typed [.i8, .i16, .i32, .c16] ty (fun s => s.vcomp e pr 1 g ty d a b (fun _ x y => ((code (compW ty) x / 2 ^ shAmt ty y : Nat) : Int))))

/-- VSRA (R215): arithmetic shift right. -/
def execVsra (e : Fin 8) (pr : Bool) (g : Fin 8) (ty : VTy) (d a b : Fin 32) (s : State) : Host.Outcome State Fault Refusal :=
  .next (s.typed [.i8, .i16, .i32, .c16] ty (fun s => s.vcomp e pr 1 g ty d a b (fun _ x y => x / 2 ^ shAmt ty y)))

/-- VSRAR (R215): round(a / 2^b). -/
def execVsrar (e : Fin 8) (pr : Bool) (g : Fin 8) (ty : VTy) (d a b : Fin 32) (s : State) : Host.Outcome State Fault Refusal :=
  .next (s.typed [.i8, .i16, .i32, .c16] ty (fun s => s.vcomp e pr 1 g ty d a b (fun _ x y => rshRound x (shAmt ty y))))

/-- A condition of VCMP on one lane (R215): EQ and NE of complex lanes compare both components. -/
def vcmpLane (cc : VCc) (ty : VTy) (x y : Vec) (j : Nat) : Bool :=
  let w := laneW ty
  let a := compS w x j
  let b := compS w y j
  let u := compU w x j
  let t := compU w y j
  match cc with
  | .eq => u == t
  | .ne => u != t
  | .lt => decide (a < b)
  | .le => decide (a ≤ b)
  | .ltu => decide (u < t)
  | .leu => decide (u ≤ t)

/-- VCMP (R215): every predicate bit of a lane takes the result; 0 for ungoverned lanes. Of the complex type EQ and NE alone exist. -/
def execVcmp (e : Fin 8) (pr : Bool) (g : Fin 8) (ty : VTy) (cc : VCc) (d : Fin 8) (a b : Fin 32) (s : State) : Host.Outcome State Fault Refusal :=
  .next (s.typed (if cc = .eq ∨ cc = .ne then [.i16, .q15, .i32, .c16] else [.i16, .q15, .i32]) ty (fun s =>
    s.instr e pr 1 1 (fun v r =>
      let gp := v.regs.rp g
      let k := laneW ty / 16
      let bits := (List.range 32).foldl (fun acc i =>
        if govLane ty gp (i / k) && vcmpLane cc ty (v.regs.rv a) (v.regs.rv b) (i / k) then acc + 2 ^ i else acc) 0
      r.regsTo (fun q => q.setP d (BitVec.ofNat 32 bits)))))

/-! ## Permutes (R216) -/

/-- vD lane by lane from a function that names the source lane: true for va, false for vb. -/
def State.vperm (s : State) (e : Nat) (pr : Bool) (g : Nat) (ty : VTy) (d a b : Nat) (f : Vec → Nat → Bool × Nat) : State :=
  s.vgen e pr 2 g ty d (fun v c =>
    let (fromA, j) := f (v.regs.rv b) c
    compS (compW ty) (if fromA then v.regs.rv a else v.regs.rv b) j)

/-- VPERM (R216): d[j] = a[b[j] mod lanes]. -/
def execVperm (e : Fin 8) (pr : Bool) (g : Fin 8) (ty : VTy) (d a b : Fin 32) (s : State) : Host.Outcome State Fault Refusal :=
  .next (s.typed intTys ty (fun s => s.vperm e pr g ty d a b (fun y c => (true, compU (compW ty) y c % lanes ty))))

/-- VZIPL (R216): the low halves of a and b interleaved, a first. -/
def execVzipl (e : Fin 8) (pr : Bool) (g : Fin 8) (ty : VTy) (d a b : Fin 32) (s : State) : Host.Outcome State Fault Refusal :=
  .next (s.typed intTys ty (fun s => s.vperm e pr g ty d a b (fun _ c => (c % 2 == 0, c / 2))))

/-- VZIPH (R216): the high halves interleaved. -/
def execVziph (e : Fin 8) (pr : Bool) (g : Fin 8) (ty : VTy) (d a b : Fin 32) (s : State) : Host.Outcome State Fault Refusal :=
  .next (s.typed intTys ty (fun s => s.vperm e pr g ty d a b (fun _ c => (c % 2 == 0, lanes ty / 2 + c / 2))))

/-- VUZPE (R216): even lanes of a, then those of b. -/
def execVuzpe (e : Fin 8) (pr : Bool) (g : Fin 8) (ty : VTy) (d a b : Fin 32) (s : State) : Host.Outcome State Fault Refusal :=
  .next (s.typed intTys ty (fun s => s.vperm e pr g ty d a b (fun _ c => (decide (c < lanes ty / 2), 2 * (c % (lanes ty / 2))))))

/-- VUZPO (R216): odd lanes of a, then those of b. -/
def execVuzpo (e : Fin 8) (pr : Bool) (g : Fin 8) (ty : VTy) (d a b : Fin 32) (s : State) : Host.Outcome State Fault Refusal :=
  .next (s.typed intTys ty (fun s => s.vperm e pr g ty d a b (fun _ c => (decide (c < lanes ty / 2), 2 * (c % (lanes ty / 2)) + 1))))

/-- VREV (R216): d[j] = a[lanes − 1 − j]. -/
def execVrev (e : Fin 8) (pr : Bool) (g : Fin 8) (ty : VTy) (d a : Fin 32) (s : State) : Host.Outcome State Fault Refusal :=
  .next (s.typed intTys ty (fun s => s.vperm e pr g ty d a a (fun _ c => (true, lanes ty - 1 - c))))

/-- VSLD (R216): i16 lane j of d is lane j + n of a followed by b. -/
def execVsld (e : Fin 8) (pr : Bool) (d a b n : Fin 32) (s : State) : Host.Outcome State Fault Refusal :=
  .next (s.vgen e pr 2 0 .i16 d (fun v c =>
    let i := c + n.val
    if i < 32 then compS 16 (v.regs.rv a) i else compS 16 (v.regs.rv b) (i - 32)))

/-! ## Reductions (R216) -/

/-- The governed components of a vector, signed. -/
def govComps (ty : VTy) (g : Word) (x : Vec) : List Int :=
  ((List.range (512 / compW ty)).filter (fun c => govComp ty g c)).map (fun c => compS (compW ty) x c)

/-- The largest of a list, `z` for none; the smallest. -/
def maxI (z : Int) (l : List Int) : Int := l.foldl (fun a b => if a < b then b else a) z
def minI (z : Int) (l : List Int) : Int := l.foldl (fun a b => if b < a then b else a) z

/-- The sum of a list of integers. -/
def sumI (l : List Int) : Int := l.foldl (· + ·) 0

/-- VRSUM (R216): sum of the governed lanes, wrapping at 32 bits. -/
def execVrsum (e : Fin 8) (pr : Bool) (g : Fin 8) (ty : VTy) (d a : Fin 32) (s : State) : Host.Outcome State Fault Refusal :=
  .next (s.typed realTys ty (fun s => s.vred e pr 4 g d a (fun p x => BitVec.ofInt 32 (sumI (govComps ty p x)))))

/-- VRMAX (R216): maximum of the governed lanes; the type's minimum if none. -/
def execVrmax (e : Fin 8) (pr : Bool) (g : Fin 8) (ty : VTy) (d a : Fin 32) (s : State) : Host.Outcome State Fault Refusal :=
  .next (s.typed realTys ty (fun s => s.vred e pr 4 g d a (fun p x => BitVec.ofInt 32 (maxI (-((2 ^ (compW ty - 1) : Nat) : Int)) (govComps ty p x)))))

/-- VRMIN (R216): minimum of the governed lanes; the type's maximum if none. -/
def execVrmin (e : Fin 8) (pr : Bool) (g : Fin 8) (ty : VTy) (d a : Fin 32) (s : State) : Host.Outcome State Fault Refusal :=
  .next (s.typed realTys ty (fun s => s.vred e pr 4 g d a (fun p x => BitVec.ofInt 32 (minI (((2 ^ (compW ty - 1) : Nat) : Int) - 1) (govComps ty p x)))))

/-- VRAMAX (R216): largest sat(abs(x)); 0 if none. -/
def execVramax (e : Fin 8) (pr : Bool) (g : Fin 8) (ty : VTy) (d a : Fin 32) (s : State) : Host.Outcome State Fault Refusal :=
  .next (s.typed [.i16, .q15, .i32, .c16] ty (fun s => s.vred e pr 4 g d a (fun p x => BitVec.ofInt 32 (maxI 0 ((govComps ty p x).map (fun c => satTy ty (if c < 0 then -c else c)))))))

/-- VRSUMA (R216): sat32(round(Σ ak[j] / 2^sh)) over the governed lanes. -/
def execVrsuma (e : Fin 8) (pr : Bool) (g : Fin 8) (d : Fin 32) (k : Fin 4) (sh : Fin 32) (s : State) : Host.Outcome State Fault Refusal :=
  .next (s.instr e pr 4 1 (fun v r =>
    let p := v.regs.rp g
    let sum := sumI ((List.range 32).map (fun j => if bitOf p.toNat j then (v.regs.ra k).getD j 0 else 0))
    r.regsTo (fun q => q.setS d (BitVec.ofInt 32 (satS 32 (rshRound sum sh.val))))))

/-- VRPWR (R216), c16: sat32(Σ (I² + Q²) / 2^15), truncated. -/
def execVrpwr (e : Fin 8) (pr : Bool) (g : Fin 8) (d a : Fin 32) (s : State) : Host.Outcome State Fault Refusal :=
  .next (s.vred e pr 4 g d a (fun p x =>
    BitVec.ofInt 32 (satS 32 (sumI ((govComps .c16 p x).map (fun c => c * c)) / 32768))))

/-! ## Accumulators (R216) -/

/-- VACLR (R216): the governed lanes become 0. -/
def execVaclr (e : Fin 8) (pr : Bool) (g : Fin 8) (k : Fin 4) (s : State) : Host.Outcome State Fault Refusal :=
  .next (s.vacc e pr 1 g k (fun _ _ _ => 0))

/-- VAMOV (R216): d[j] = sat(round(ak[j] / 2^sh)); c16 takes I from ak[2j] and Q from ak[2j+1]. -/
def execVamov (e : Fin 8) (pr : Bool) (g : Fin 8) (ty : VTy) (d : Fin 32) (k : Fin 4) (sh : Fin 32) (s : State) : Host.Outcome State Fault Refusal :=
  .next (s.typed [.i16, .q15, .c16] ty (fun s =>
    s.vgen e pr 1 g ty d (fun v c => satS 16 (rshRound ((v.regs.ra k).getD c 0) sh.val))))

/-- VAIN (R216): ak[j] = a[j], sign-extended. -/
def execVain (e : Fin 8) (pr : Bool) (g : Fin 8) (ty : VTy) (k : Fin 4) (a : Fin 32) (s : State) : Host.Outcome State Fault Refusal :=
  .next (s.typed halfTys ty (fun s => s.vacc e pr 1 g k (fun v j _ => compS 16 (v.regs.rv a) j)))

/-! ## Moves (R216) -/

/-- VBCAST (R216): every governed lane takes the low lane bits of sA; c16 takes I from [15:0] and Q from [31:16]. -/
def execVbcast (e : Fin 8) (pr : Bool) (g : Fin 8) (ty : VTy) (d a : Fin 32) (s : State) : Host.Outcome State Fault Refusal :=
  .next (s.typed [.i8, .i16, .q15, .i32, .c16] ty (fun s => s.vgen e pr 1 g ty d (fun v c =>
    let x := (v.regs.rs a).toNat
    if isComplex ty && c % 2 == 1 then ((x / 65536 : Nat) : Int) else (x : Int))))

/-- VEXT (R216): sD = lane n, sign-extended; 0 beyond the lanes. -/
def execVext (e : Fin 8) (pr : Bool) (ty : VTy) (d a n : Fin 32) (s : State) : Host.Outcome State Fault Refusal :=
  .next (s.typed [.i8, .i16, .i32, .c16] ty (fun s => s.vred e pr 2 0 d a (fun _ x =>
    if lanes ty ≤ n.val then 0 else BitVec.ofInt 32 (compS (laneW ty) x n.val))))

/-- VINS (R216): lane n takes sA where G governs it; other lanes keep. -/
def execVins (e : Fin 8) (pr : Bool) (g : Fin 8) (ty : VTy) (d a n : Fin 32) (s : State) : Host.Outcome State Fault Refusal :=
  .next (s.typed [.i8, .i16, .i32, .c16] ty (fun s => s.instr e pr 2 1 (fun v r =>
    let w := laneW ty
    let o := comps w (v.regs.rv d)
    let x := (v.regs.rs a).toNat
    let l := (List.range (512 / w)).map (fun j => if j = n.val ∧ govLane ty (v.regs.rp g) j then x % 2 ^ w else o.getD j 0)
    r.regsTo (fun k => k.setV d (ofComps w l)))))

/-- VIDX (R216): d[j] = j. -/
def execVidx (e : Fin 8) (pr : Bool) (g : Fin 8) (ty : VTy) (d : Fin 32) (s : State) : Host.Outcome State Fault Refusal :=
  .next (s.typed intTys ty (fun s => s.vgen e pr 1 g ty d (fun _ c => (c : Int))))

/-- VDUPI (R207, R216): every i32 lane = imm32; two words. -/
def execVdupi (e : Fin 8) (d : Fin 32) (i : Word) (s : State) : Host.Outcome State Fault Refusal :=
  .next (s.instr e false 1 2 (fun _ r => r.regsTo (fun k => k.setV d (ofComps 32 (List.replicate 16 i.toNat)))))

/-! ## Vector memory (R167, R216) -/

/-- VLD (R216): 64 bytes at sA + 64 × OFF12; governed lanes take them. -/
def execVld (e : Fin 8) (pr : Bool) (g : Fin 8) (d a : Fin 32) (off : BitVec 12) (s : State) : Host.Outcome State Fault Refusal :=
  .next (s.instrF e pr 1 1 (fun im v r =>
    let x := scalarAddr (v.regs.rs a) off 64
    match im.check x 64 64 false with
    | some c => .error c
    | none =>
      let m := memRead v.lmem x 64
      .ok (r.regsTo (fun k => k.setV d (vmap .i8 (v.regs.rp g) (v.regs.rv d) (fun c => ((m.getD c 0).toNat : Int)))))))

/-- VST (R216): the governed lanes of vD are written; the whole 64 bytes are checked. -/
def execVst (e : Fin 8) (pr : Bool) (g : Fin 8) (d a : Fin 32) (off : BitVec 12) (s : State) : Host.Outcome State Fault Refusal :=
  .next (s.instrF e pr 1 1 (fun im v r =>
    let x := scalarAddr (v.regs.rs a) off 64
    match im.check x 64 64 true with
    | some c => .error c
    | none =>
      let o := comps 8 (v.regs.rv d)
      let l := (List.range 64).map (fun c => if govComp .i8 (v.regs.rp g) c then BitVec.ofNat 8 (o.getD c 0) else memGet r.lmem (x + c))
      .ok { r with lmem := memWrite r.lmem x l }))

end Sys2Proof.Machine
end

