-- ==== Sys2Proof/Machine/Dispatch.lean ====
section
/-!
DEFINITION. One arm per command: each calls its own meaning.
-/

namespace Sys2Proof.Machine

/-- The effect of a command on everything but the queue. -/
def exec (i : Instr) (s : State) : Host.Outcome State Fault Refusal :=
  match i with
  | .tickBoundary obs => Sys2Proof.Machine.execTickBoundary obs s
  | .tickOutFall => Sys2Proof.Machine.execTickOutFall s
  | .ledgerAccountClose => Sys2Proof.Machine.execLedgerAccountClose s
  | .gradeDecision => Sys2Proof.Machine.execGradeDecision s
  | .heartbeatDeadline posted => Sys2Proof.Machine.execHeartbeatDeadline posted s
  | .planCutoff obs => Sys2Proof.Machine.execPlanCutoff obs s
  | .planReady t => Sys2Proof.Machine.execPlanReady t s
  | .tbLatchRead p t => Sys2Proof.Machine.execTbLatchRead p t s
  | .hostLoad p t => Sys2Proof.Machine.execHostLoad p t s
  | .disciplineEvaluation => Sys2Proof.Machine.execDisciplineEvaluation s
  | .leapChange => Sys2Proof.Machine.execLeapChange s
  | .ppsEdge falling t => Sys2Proof.Machine.execPpsEdge falling t s
  | .ppsWindowEnd => Sys2Proof.Machine.execPpsWindowEnd s
  | .ppsOutRise => Sys2Proof.Machine.execPpsOutRise s
  | .ppsOutFall => Sys2Proof.Machine.execPpsOutFall s
  | .refMonitorWindow t edges => Sys2Proof.Machine.execRefMonitorWindow t edges s
  | .refQualWindow t span => Sys2Proof.Machine.execRefQualWindow t span s
  | .realignEdge t => Sys2Proof.Machine.execRealignEdge t s
  | .walkEnd => Sys2Proof.Machine.execWalkEnd s
  | .bandSearchStep l count => Sys2Proof.Machine.execBandSearchStep l count s
  | .lockWindow l count => Sys2Proof.Machine.execLockWindow l count s
  | .slipDetect l t => Sys2Proof.Machine.execSlipDetect l t s
  | .scsRetry => Sys2Proof.Machine.execScsRetry s
  | .ccsNoEdge t => Sys2Proof.Machine.execCcsNoEdge t s
  | .ccsRetry => Sys2Proof.Machine.execCcsRetry s
  | .rampTargetReached => Sys2Proof.Machine.execRampTargetReached s
  | .readingDue t => Sys2Proof.Machine.execReadingDue t s
  | .raiseTimeout => Sys2Proof.Machine.execRaiseTimeout s
  | .voutCommand t r => Sys2Proof.Machine.execVoutCommand t r s
  | .operation t r => Sys2Proof.Machine.execOperation t r s
  | .readVout t r => Sys2Proof.Machine.execReadVout t r s
  | .statusWord t r => Sys2Proof.Machine.execStatusWord t r s
  | .readIout t r => Sys2Proof.Machine.execReadIout t r s
  | .icsPrechargeEnd node => Sys2Proof.Machine.execIcsPrechargeEnd node s
  | .lkfReleaseCheck node => Sys2Proof.Machine.execLkfReleaseCheck node s
  | .icsLock t => Sys2Proof.Machine.execIcsLock t s
  | .icsLockLost t => Sys2Proof.Machine.execIcsLockLost t s
  | .lkfFaultTimeout => Sys2Proof.Machine.execLkfFaultTimeout s
  | .icsTimedLock => Sys2Proof.Machine.execIcsTimedLock s
  | .biasRetry p => Sys2Proof.Machine.execBiasRetry p s
  | .emergencyTrip c clips => Sys2Proof.Machine.execEmergencyTrip c clips s
  | .emergencyStep c => Sys2Proof.Machine.execEmergencyStep c s
  | .converterVoidEnd c => Sys2Proof.Machine.execConverterVoidEnd c s
  | .chnConfigWrite p n k v t => Sys2Proof.Machine.execChnConfigWrite p n k v t s
  | .chnNcoWrite p n ph v t => Sys2Proof.Machine.execChnNcoWrite p n ph v t s
  | .chnBankReq p n v t => Sys2Proof.Machine.execChnBankReq p n v t s
  | .chnAgcWrite p n v t => Sys2Proof.Machine.execChnAgcWrite p n v t s
  | .chnSyncArm p n v t => Sys2Proof.Machine.execChnSyncArm p n v t s
  | .coefWrite p n b ix v t => Sys2Proof.Machine.execCoefWrite p n b ix v t s
  | .fadeEnd n => Sys2Proof.Machine.execFadeEnd n s
  | .agcGroupEnd n => Sys2Proof.Machine.execAgcGroupEnd n s
  | .agcHoldExpire n => Sys2Proof.Machine.execAgcHoldExpire n s
  | .chainRingResume n => Sys2Proof.Machine.execChainRingResume n s
  | .ringSpaceReturn n q => Sys2Proof.Machine.execRingSpaceReturn n q s
  | .calEstimateDue g u => Sys2Proof.Machine.execCalEstimateDue g u s
  | .calEstimateDone g u pair v se => Sys2Proof.Machine.execCalEstimateDone g u pair v se s
  | .calAbandon g u => Sys2Proof.Machine.execCalAbandon g u s
  | .calReevaluate => Sys2Proof.Machine.execCalReevaluate s
  | .calAutosave ok => Sys2Proof.Machine.execCalAutosave ok s
  | .calStart p t => Sys2Proof.Machine.execCalStart p t s
  | .calSave p t => Sys2Proof.Machine.execCalSave p t s
  | .calFactory p t => Sys2Proof.Machine.execCalFactory p t s
  | .calSweepHoldEnd p clip peak obs => Sys2Proof.Machine.execCalSweepHoldEnd p clip peak obs s
  | .calGainSet p => Sys2Proof.Machine.execCalGainSet p s
  | .calPwrupEnd => Sys2Proof.Machine.execCalPwrupEnd s
  | .runStart n slot t => Sys2Proof.Machine.execRunStart n slot t s
  | .runPublish e t => Sys2Proof.Machine.execRunPublish e t s
  | .engineRunTimeout e t => Sys2Proof.Machine.execEngineRunTimeout e t s
  | .engineMemoryError e t => Sys2Proof.Machine.execEngineMemoryError e t s
  | .jobComplete n ix t => Sys2Proof.Machine.execJobComplete n ix t s
  | .accJobTimeout run n ix t => Sys2Proof.Machine.execAccJobTimeout run n ix t s
  | .timerCue n => Sys2Proof.Machine.execTimerCue n s
  | .ctxDoorbell p n v t => Sys2Proof.Machine.execCtxDoorbell p n v t s
  | .ctxRunWrite p n v t => Sys2Proof.Machine.execCtxRunWrite p n v t s
  | .ctxImageWrite p n v t => Sys2Proof.Machine.execCtxImageWrite p n v t s
  | .add e pr d a b => Sys2Proof.Machine.execAdd e pr d a b s
  | .sub e pr d a b => Sys2Proof.Machine.execSub e pr d a b s
  | .andI e pr d a b => Sys2Proof.Machine.execAndI e pr d a b s
  | .orI e pr d a b => Sys2Proof.Machine.execOrI e pr d a b s
  | .xorI e pr d a b => Sys2Proof.Machine.execXorI e pr d a b s
  | .sll e pr d a b => Sys2Proof.Machine.execSll e pr d a b s
  | .srl e pr d a b => Sys2Proof.Machine.execSrl e pr d a b s
  | .sra e pr d a b => Sys2Proof.Machine.execSra e pr d a b s
  | .slt e pr d a b => Sys2Proof.Machine.execSlt e pr d a b s
  | .sltu e pr d a b => Sys2Proof.Machine.execSltu e pr d a b s
  | .seqI e pr d a b => Sys2Proof.Machine.execSeqI e pr d a b s
  | .minI e pr d a b => Sys2Proof.Machine.execMinI e pr d a b s
  | .maxI e pr d a b => Sys2Proof.Machine.execMaxI e pr d a b s
  | .minu e pr d a b => Sys2Proof.Machine.execMinu e pr d a b s
  | .maxu e pr d a b => Sys2Proof.Machine.execMaxu e pr d a b s
  | .mul e pr d a b => Sys2Proof.Machine.execMul e pr d a b s
  | .mulh e pr d a b => Sys2Proof.Machine.execMulh e pr d a b s
  | .mulhu e pr d a b => Sys2Proof.Machine.execMulhu e pr d a b s
  | .divI e pr d a b => Sys2Proof.Machine.execDivI e pr d a b s
  | .divu e pr d a b => Sys2Proof.Machine.execDivu e pr d a b s
  | .rem e pr d a b => Sys2Proof.Machine.execRem e pr d a b s
  | .remu e pr d a b => Sys2Proof.Machine.execRemu e pr d a b s
  | .clz e pr d a => Sys2Proof.Machine.execClz e pr d a s
  | .popc e pr d a => Sys2Proof.Machine.execPopc e pr d a s
  | .sextb e pr d a => Sys2Proof.Machine.execSextb e pr d a s
  | .sexth e pr d a => Sys2Proof.Machine.execSexth e pr d a s
  | .abs e pr d a => Sys2Proof.Machine.execAbs e pr d a s
  | .addi e pr d a ix => Sys2Proof.Machine.execAddi e pr d a ix s
  | .slti e pr d a ix => Sys2Proof.Machine.execSlti e pr d a ix s
  | .sltiu e pr d a ix => Sys2Proof.Machine.execSltiu e pr d a ix s
  | .andi e pr d a ix => Sys2Proof.Machine.execAndi e pr d a ix s
  | .ori e pr d a ix => Sys2Proof.Machine.execOri e pr d a ix s
  | .xori e pr d a ix => Sys2Proof.Machine.execXori e pr d a ix s
  | .slli e pr d a n => Sys2Proof.Machine.execSlli e pr d a n s
  | .srli e pr d a n => Sys2Proof.Machine.execSrli e pr d a n s
  | .srai e pr d a n => Sys2Proof.Machine.execSrai e pr d a n s
  | .li e d ix => Sys2Proof.Machine.execLi e d ix s
  | .addil e d a ix => Sys2Proof.Machine.execAddil e d a ix s
  | .sltil e d a ix => Sys2Proof.Machine.execSltil e d a ix s
  | .lb e pr d a off => Sys2Proof.Machine.execLb e pr d a off s
  | .lbu e pr d a off => Sys2Proof.Machine.execLbu e pr d a off s
  | .lh e pr d a off => Sys2Proof.Machine.execLh e pr d a off s
  | .lhu e pr d a off => Sys2Proof.Machine.execLhu e pr d a off s
  | .lw e pr d a off => Sys2Proof.Machine.execLw e pr d a off s
  | .sb e pr d a off => Sys2Proof.Machine.execSb e pr d a off s
  | .sh e pr d a off => Sys2Proof.Machine.execSh e pr d a off s
  | .sw e pr d a off => Sys2Proof.Machine.execSw e pr d a off s
  | .fadd e pr d a b => Sys2Proof.Machine.execFadd e pr d a b s
  | .fsub e pr d a b => Sys2Proof.Machine.execFsub e pr d a b s
  | .fmul e pr d a b => Sys2Proof.Machine.execFmul e pr d a b s
  | .fdiv e pr d a b => Sys2Proof.Machine.execFdiv e pr d a b s
  | .fsqrt e pr d a => Sys2Proof.Machine.execFsqrt e pr d a s
  | .fmin e pr d a b => Sys2Proof.Machine.execFmin e pr d a b s
  | .fmax e pr d a b => Sys2Proof.Machine.execFmax e pr d a b s
  | .fcvtfi e pr d a => Sys2Proof.Machine.execFcvtfi e pr d a s
  | .fcvtif e pr d a => Sys2Proof.Machine.execFcvtif e pr d a s
  | .fltI e pr d a b => Sys2Proof.Machine.execFltI e pr d a b s
  | .feq e pr d a b => Sys2Proof.Machine.execFeq e pr d a b s
  | .fabs e pr d a => Sys2Proof.Machine.execFabs e pr d a s
  | .fneg e pr d a => Sys2Proof.Machine.execFneg e pr d a s
  | .pand e pr d a b => Sys2Proof.Machine.execPand e pr d a b s
  | .por e pr d a b => Sys2Proof.Machine.execPor e pr d a b s
  | .pxor e pr d a b => Sys2Proof.Machine.execPxor e pr d a b s
  | .pandn e pr d a b => Sys2Proof.Machine.execPandn e pr d a b s
  | .pnot e pr d a => Sys2Proof.Machine.execPnot e pr d a s
  | .pfroms e pr d a => Sys2Proof.Machine.execPfroms e pr d a s
  | .ptos e pr d a => Sys2Proof.Machine.execPtos e pr d a s
  | .psets e pr d a => Sys2Proof.Machine.execPsets e pr d a s
  | .pcnt e pr d a => Sys2Proof.Machine.execPcnt e pr d a s
  | .pfirst e pr d a => Sys2Proof.Machine.execPfirst e pr d a s
  | .vadd e pr g ty d a b => Sys2Proof.Machine.execVadd e pr g ty d a b s
  | .vsub e pr g ty d a b => Sys2Proof.Machine.execVsub e pr g ty d a b s
  | .vadds e pr g ty d a b => Sys2Proof.Machine.execVadds e pr g ty d a b s
  | .vsubs e pr g ty d a b => Sys2Proof.Machine.execVsubs e pr g ty d a b s
  | .vmin e pr g ty d a b => Sys2Proof.Machine.execVmin e pr g ty d a b s
  | .vmax e pr g ty d a b => Sys2Proof.Machine.execVmax e pr g ty d a b s
  | .vabs e pr g ty d a => Sys2Proof.Machine.execVabs e pr g ty d a s
  | .vneg e pr g ty d a => Sys2Proof.Machine.execVneg e pr g ty d a s
  | .vavg e pr g ty d a b => Sys2Proof.Machine.execVavg e pr g ty d a b s
  | .vconj e pr g ty d a => Sys2Proof.Machine.execVconj e pr g ty d a s
  | .vsel e pr g ty d a b => Sys2Proof.Machine.execVsel e pr g ty d a b s
  | .vmovv e pr g ty d a => Sys2Proof.Machine.execVmovv e pr g ty d a s
  | .vmul e pr g ty d a b => Sys2Proof.Machine.execVmul e pr g ty d a b s
  | .vcmulc e pr g ty d a b => Sys2Proof.Machine.execVcmulc e pr g ty d a b s
  | .vmac e pr g ty k a b => Sys2Proof.Machine.execVmac e pr g ty k a b s
  | .vmsu e pr g ty k a b => Sys2Proof.Machine.execVmsu e pr g ty k a b s
  | .vcmac e pr g k a b => Sys2Proof.Machine.execVcmac e pr g k a b s
  | .vcmacc e pr g k a b => Sys2Proof.Machine.execVcmacc e pr g k a b s
  | .vmulh e pr g ty d a b => Sys2Proof.Machine.execVmulh e pr g ty d a b s
  | .vand e pr g ty d a b => Sys2Proof.Machine.execVand e pr g ty d a b s
  | .vor e pr g ty d a b => Sys2Proof.Machine.execVor e pr g ty d a b s
  | .vxor e pr g ty d a b => Sys2Proof.Machine.execVxor e pr g ty d a b s
  | .vnot e pr g ty d a => Sys2Proof.Machine.execVnot e pr g ty d a s
  | .vsll e pr g ty d a b => Sys2Proof.Machine.execVsll e pr g ty d a b s
  | .vsrl e pr g ty d a b => Sys2Proof.Machine.execVsrl e pr g ty d a b s
  | .vsra e pr g ty d a b => Sys2Proof.Machine.execVsra e pr g ty d a b s
  | .vsrar e pr g ty d a b => Sys2Proof.Machine.execVsrar e pr g ty d a b s
  | .vcmp e pr g ty cc d a b => Sys2Proof.Machine.execVcmp e pr g ty cc d a b s
  | .vperm e pr g ty d a b => Sys2Proof.Machine.execVperm e pr g ty d a b s
  | .vzipl e pr g ty d a b => Sys2Proof.Machine.execVzipl e pr g ty d a b s
  | .vziph e pr g ty d a b => Sys2Proof.Machine.execVziph e pr g ty d a b s
  | .vuzpe e pr g ty d a b => Sys2Proof.Machine.execVuzpe e pr g ty d a b s
  | .vuzpo e pr g ty d a b => Sys2Proof.Machine.execVuzpo e pr g ty d a b s
  | .vrev e pr g ty d a => Sys2Proof.Machine.execVrev e pr g ty d a s
  | .vsld e pr d a b n => Sys2Proof.Machine.execVsld e pr d a b n s
  | .vrsum e pr g ty d a => Sys2Proof.Machine.execVrsum e pr g ty d a s
  | .vrmax e pr g ty d a => Sys2Proof.Machine.execVrmax e pr g ty d a s
  | .vrmin e pr g ty d a => Sys2Proof.Machine.execVrmin e pr g ty d a s
  | .vramax e pr g ty d a => Sys2Proof.Machine.execVramax e pr g ty d a s
  | .vrsuma e pr g d k sh => Sys2Proof.Machine.execVrsuma e pr g d k sh s
  | .vrpwr e pr g d a => Sys2Proof.Machine.execVrpwr e pr g d a s
  | .vaclr e pr g k => Sys2Proof.Machine.execVaclr e pr g k s
  | .vamov e pr g ty d k sh => Sys2Proof.Machine.execVamov e pr g ty d k sh s
  | .vain e pr g ty k a => Sys2Proof.Machine.execVain e pr g ty k a s
  | .vbcast e pr g ty d a => Sys2Proof.Machine.execVbcast e pr g ty d a s
  | .vext e pr ty d a n => Sys2Proof.Machine.execVext e pr ty d a n s
  | .vins e pr g ty d a n => Sys2Proof.Machine.execVins e pr g ty d a n s
  | .vidx e pr g ty d => Sys2Proof.Machine.execVidx e pr g ty d s
  | .vdupi e d ix => Sys2Proof.Machine.execVdupi e d ix s
  | .vld e pr g d a off => Sys2Proof.Machine.execVld e pr g d a off s
  | .vst e pr g d a off => Sys2Proof.Machine.execVst e pr g d a off s
  | .beqz e a off => Sys2Proof.Machine.execBeqz e a off s
  | .bnez e a off => Sys2Proof.Machine.execBnez e a off s
  | .bltz e a off => Sys2Proof.Machine.execBltz e a off s
  | .bgez e a off => Sys2Proof.Machine.execBgez e a off s
  | .bgtz e a off => Sys2Proof.Machine.execBgtz e a off s
  | .blez e a off => Sys2Proof.Machine.execBlez e a off s
  | .bany e a off => Sys2Proof.Machine.execBany e a off s
  | .bnone e a off => Sys2Proof.Machine.execBnone e a off s
  | .jmp e off => Sys2Proof.Machine.execJmp e off s
  | .callI e off => Sys2Proof.Machine.execCallI e off s
  | .retI e => Sys2Proof.Machine.execRetI e s
  | .loopI e a n => Sys2Proof.Machine.execLoopI e a n s
  | .lend e off => Sys2Proof.Machine.execLend e off s
  | .hin e a b c n10 => Sys2Proof.Machine.execHin e a b c n10 s
  | .hout e a b c n10 => Sys2Proof.Machine.execHout e a b c n10 s
  | .qrdc e d q a b c => Sys2Proof.Machine.execQrdc e d q a b c s
  | .qrd e d q a => Sys2Proof.Machine.execQrd e d q a s
  | .qwr e d q a b c => Sys2Proof.Machine.execQwr e d q a b c s
  | .jobI e t kind cls span a => Sys2Proof.Machine.execJobI e t kind cls span a s
  | .jwait e t => Sys2Proof.Machine.execJwait e t s
  | .cuerd e d k a => Sys2Proof.Machine.execCuerd e d k a s
  | .cueclr e k => Sys2Proof.Machine.execCueclr e k s
  | .cuepend e d => Sys2Proof.Machine.execCuepend e d s
  | .timerI e a => Sys2Proof.Machine.execTimerI e a s
  | .agcrel e => Sys2Proof.Machine.execAgcrel e s
  | .rinf e d sel => Sys2Proof.Machine.execRinf e d sel s
  | .lcnt e d k => Sys2Proof.Machine.execLcnt e d k s
  | .brkI e => Sys2Proof.Machine.execBrkI e s
  | .endRun e => Sys2Proof.Machine.execEndRun e s
  | .peakDecision n c k raw => Sys2Proof.Machine.execPeakDecision n c k raw s
  | .startCondition n c t raw => Sys2Proof.Machine.execStartCondition n c t raw s
  | .startDeadline n c raw => Sys2Proof.Machine.execStartDeadline n c raw s
  | .endCondition n c raw => Sys2Proof.Machine.execEndCondition n c raw s
  | .endDeadline n c raw => Sys2Proof.Machine.execEndDeadline n c raw s
  | .burstGapInterrupt n c t raw => Sys2Proof.Machine.execBurstGapInterrupt n c t raw s
  | .pairTimeout n => Sys2Proof.Machine.execPairTimeout n s
  | .brsCaptureWrite p n v t => Sys2Proof.Machine.execBrsCaptureWrite p n v t s
  | .obsReference => Sys2Proof.Machine.execObsReference s
  | .obsIntervalClose => Sys2Proof.Machine.execObsIntervalClose s
  | .evtCoalesceClose => Sys2Proof.Machine.execEvtCoalesceClose s
  | .recordCommit t => Sys2Proof.Machine.execRecordCommit t s
  | .witnessCheckpoint t => Sys2Proof.Machine.execWitnessCheckpoint t s
  | .keyEnrol p t => Sys2Proof.Machine.execKeyEnrol p t s
  | .keyRoll p t => Sys2Proof.Machine.execKeyRoll p t s
  | .keyRelease p t => Sys2Proof.Machine.execKeyRelease p t s
  | .mountComplete bad fwd again t => Sys2Proof.Machine.execMountComplete bad fwd again t s
  | .fstFormat p t => Sys2Proof.Machine.execFstFormat p t s
  | .fstScrubnow p t => Sys2Proof.Machine.execFstScrubnow p t s
  | .ingotCommit t => Sys2Proof.Machine.execIngotCommit t s
  | .ingotDurable seq t => Sys2Proof.Machine.execIngotDurable seq t s
  | .padTimeout seq => Sys2Proof.Machine.execPadTimeout seq s
  | .ingotFlush ctx q => Sys2Proof.Machine.execIngotFlush ctx q s
  | .nandOpFail b t => Sys2Proof.Machine.execNandOpFail b t s
  | .nandReadDone seq t o => Sys2Proof.Machine.execNandReadDone seq t o s
  | .xtempDeferTimeout => Sys2Proof.Machine.execXtempDeferTimeout s
  | .scrubRead b t ps => Sys2Proof.Machine.execScrubRead b t ps s
  | .fstRefresh b back t => Sys2Proof.Machine.execFstRefresh b back t s
  | .wearLevelMove native t => Sys2Proof.Machine.execWearLevelMove native t s
  | .retentionAccumulate => Sys2Proof.Machine.execRetentionAccumulate s
  | .clockStamp t => Sys2Proof.Machine.execClockStamp t s
  | .snapEdge t => Sys2Proof.Machine.execSnapEdge t s
  | .snpFire p t => Sys2Proof.Machine.execSnpFire p t s
  | .rawenWrite p en t => Sys2Proof.Machine.execRawenWrite p en t s
  | .rawDone wa wb clipsA clipsB => Sys2Proof.Machine.execRawDone wa wb clipsA clipsB s
  | .telemetryRecord => Sys2Proof.Machine.execTelemetryRecord s
  | .storeScrub n t => Sys2Proof.Machine.execStoreScrub n t s
  | .knownAnswerTest u pass t => Sys2Proof.Machine.execKnownAnswerTest u pass t s
  | .ledgerSecond => Sys2Proof.Machine.execLedgerSecond s
  | .resvStale => Sys2Proof.Machine.execResvStale s
  | .ldgHiber p t => Sys2Proof.Machine.execLdgHiber p t s
  | .hiberTimeout => Sys2Proof.Machine.execHiberTimeout s
  | .hiberWake ix => Sys2Proof.Machine.execHiberWake ix s
  | .seqUnq p eng acc t => Sys2Proof.Machine.execSeqUnq p eng acc t s
  | .storeEccError o t => Sys2Proof.Machine.execStoreEccError o t s
  | .fltFailover p t => Sys2Proof.Machine.execFltFailover p t s
  | .failoverComplete t => Sys2Proof.Machine.execFailoverComplete t s
  | .wardenSelftestDone w pass t => Sys2Proof.Machine.execWardenSelftestDone w pass t s
  | .fltUnqw p t => Sys2Proof.Machine.execFltUnqw p t s
  | .fltRestart p t => Sys2Proof.Machine.execFltRestart p t s
  | .fltDevreset p t => Sys2Proof.Machine.execFltDevreset p t s
  | .fltAvclr p t => Sys2Proof.Machine.execFltAvclr p t s
  | .fltLogclr p t => Sys2Proof.Machine.execFltLogclr p t s
  | .tsVoteStep a b c t => Sys2Proof.Machine.execTsVoteStep a b c t s
  | .tsResetRelease t => Sys2Proof.Machine.execTsResetRelease t s
  | .tsFirmwareRead t => Sys2Proof.Machine.execTsFirmwareRead t s
  | .tsRestartComplete t => Sys2Proof.Machine.execTsRestartComplete t s
  | .tsRestartTimeout => Sys2Proof.Machine.execTsRestartTimeout s
  | .resetNAssert t => Sys2Proof.Machine.execResetNAssert t s
  | .resetRelease ix => Sys2Proof.Machine.execResetRelease ix s
  | .supplyMonitorTrip t => Sys2Proof.Machine.execSupplyMonitorTrip t s
  | .tmode level ix t => Sys2Proof.Machine.execTmode level ix t s
  | .bootLoad p n last t => Sys2Proof.Machine.execBootLoad p n last t s
  | .bootGo p t => Sys2Proof.Machine.execBootGo p t s
  | .bootStore p t => Sys2Proof.Machine.execBootStore p t s
  | .firmwareVerified t => Sys2Proof.Machine.execFirmwareVerified t s
  | .firstPlannedTick edge raw => Sys2Proof.Machine.execFirstPlannedTick edge raw s
  | .readyEvt => Sys2Proof.Machine.execReadyEvt s
  | .imageLoad t tag b u => Sys2Proof.Machine.execImageLoad t tag b u s
  | .imagePart t tag off b u => Sys2Proof.Machine.execImagePart t tag off b u s
  | .imageLastPart t tag off b u => Sys2Proof.Machine.execImageLastPart t tag off b u s
  | .imageUnload t tag h u => Sys2Proof.Machine.execImageUnload t tag h u s
  | .imageVerifyDone t u => Sys2Proof.Machine.execImageVerifyDone t u s
  | .openCtx t tag n u => Sys2Proof.Machine.execOpenCtx t tag n u s
  | .closeCtx t tag n u => Sys2Proof.Machine.execCloseCtx t tag n u s
  | .budget t tag mask pcap level fmax u => Sys2Proof.Machine.execBudget t tag mask pcap level fmax u s
  | .bindPort t tag n q target a b u => Sys2Proof.Machine.execBindPort t tag n q target a b u s
  | .streamSetup t tag k mode base size wb u => Sys2Proof.Machine.execStreamSetup t tag k mode base size wb u s
  | .readStream t tag k daddr dlen u => Sys2Proof.Machine.execReadStream t tag k daddr dlen u s
  | .readPassage t tag first daddr dlen u => Sys2Proof.Machine.execReadPassage t tag first daddr dlen u s
  | .witnessObs t tag u => Sys2Proof.Machine.execWitnessObs t tag u s
  | .witnessEvent t tag code data u => Sys2Proof.Machine.execWitnessEvent t tag code data u s
  | .snapRelease t tag u => Sys2Proof.Machine.execSnapRelease t tag u s
  | .challenge t tag u => Sys2Proof.Machine.execChallenge t tag u s
  | .proveOwner t tag b u => Sys2Proof.Machine.execProveOwner t tag b u s
  | .writeTable t tag b u => Sys2Proof.Machine.execWriteTable t tag b u s
  | .readTable t tag daddr dlen u => Sys2Proof.Machine.execReadTable t tag daddr dlen u s
  | .tenancyClear t tag u => Sys2Proof.Machine.execTenancyClear t tag u s
  | .endProof t tag u => Sys2Proof.Machine.execEndProof t tag u s
  | .proofExpire p => Sys2Proof.Machine.execProofExpire p s
  | .cqTailWrite p ix t => Sys2Proof.Machine.execCqTailWrite p ix t s
  | .commandTake t entry data u => Sys2Proof.Machine.execCommandTake t entry data u s
  | .cplHeadWrite p ix t => Sys2Proof.Machine.execCplHeadWrite p ix t s
  | .ringEn p on t => Sys2Proof.Machine.execRingEn p on t s
  | .hstTreset p t => Sys2Proof.Machine.execHstTreset p t s
  | .srdWrite p k v t => Sys2Proof.Machine.execSrdWrite p k v t s
  | .cplCoalesceTimeout t => Sys2Proof.Machine.execCplCoalesceTimeout t s
  | .portReset p u => Sys2Proof.Machine.execPortReset p u s
  | .busMasterClear p on u => Sys2Proof.Machine.execBusMasterClear p on u s
  | .spiRead a ts t raw => Sys2Proof.Machine.execSpiRead a ts t raw s
  | .spiQuadRead a ts t raw => Sys2Proof.Machine.execSpiQuadRead a ts t raw s
  | .spiWrite a l t raw => Sys2Proof.Machine.execSpiWrite a l t raw s
  | .spiQuadWrite a l t raw => Sys2Proof.Machine.execSpiQuadWrite a l t raw s
  | .spiStatus t => Sys2Proof.Machine.execSpiStatus t s
  | .twaWriteTransfer l t raw => Sys2Proof.Machine.execTwaWriteTransfer l t raw s
  | .twaReadTransfer ts t raw => Sys2Proof.Machine.execTwaReadTransfer ts t raw s
  | .hostNotify r t => Sys2Proof.Machine.execHostNotify r t s
  | .araRead won t => Sys2Proof.Machine.execAraRead won t s
  | .busFree b t => Sys2Proof.Machine.execBusFree b t s
  | .twControllerTimeout b t => Sys2Proof.Machine.execTwControllerTimeout b t s
  | .twTargetTimeout t => Sys2Proof.Machine.execTwTargetTimeout t s
  | .twStuckDetect b scl freed t => Sys2Proof.Machine.execTwStuckDetect b scl freed t s
  | .twStuckRetry b freed => Sys2Proof.Machine.execTwStuckRetry b freed s
  | .twClear p b freed t => Sys2Proof.Machine.execTwClear p b freed t s
  | .rstartAbort b ctl t => Sys2Proof.Machine.execRstartAbort b ctl t s
  | .riseMonitorJudge b rise low t => Sys2Proof.Machine.execRiseMonitorJudge b rise low t s
  | .supplySwitch t raw aon vbat => Sys2Proof.Machine.execSupplySwitch t raw aon vbat s
  | .backupPowerUp vbat => Sys2Proof.Machine.execBackupPowerUp vbat s
  | .oscFail t raw => Sys2Proof.Machine.execOscFail t raw s
  | .oscResume t => Sys2Proof.Machine.execOscResume t s
  | .bkpWriteEffect t raw => Sys2Proof.Machine.execBkpWriteEffect t raw s
  | .bkpSecLatchRead p t raw => Sys2Proof.Machine.execBkpSecLatchRead p t raw s
  | .bkpCalLatchRead p t raw => Sys2Proof.Machine.execBkpCalLatchRead p t raw s
  | .bkpCapture p t raw => Sys2Proof.Machine.execBkpCapture p t raw s
  | .bkpLoad p t raw => Sys2Proof.Machine.execBkpLoad p t raw s
  | .bkpLoadcal p t raw => Sys2Proof.Machine.execBkpLoadcal p t raw s
  | .trimWindow t => Sys2Proof.Machine.execTrimWindow t s
  | .wakeFire ix t raw => Sys2Proof.Machine.execWakeFire ix t raw s
  | .alarmFire t raw => Sys2Proof.Machine.execAlarmFire t raw s
  | .tamperActive ix t raw high => Sys2Proof.Machine.execTamperActive ix t raw high s
  | .tamperEvent ix t raw => Sys2Proof.Machine.execTamperEvent ix t raw s
  | .wakeInEvent t raw => Sys2Proof.Machine.execWakeInEvent t raw s
  | .pwronClr p t raw => Sys2Proof.Machine.execPwronClr p t raw s
  | .seStatLatchRead p e t => Sys2Proof.Machine.execSeStatLatchRead p e t s
  | .jtagBypass d => Sys2Proof.Machine.execJtagBypass d s
  | .jtagIdcode d => Sys2Proof.Machine.execJtagIdcode d s
  | .jtagSamplePreload pins d => Sys2Proof.Machine.execJtagSamplePreload pins d s
  | .jtagExtest pins d => Sys2Proof.Machine.execJtagExtest pins d s
  | .jtagUnlock b t => Sys2Proof.Machine.execJtagUnlock b t s
  | .jtagDebug d acc t raw => Sys2Proof.Machine.execJtagDebug d acc t raw s
  | .jtagTrst => Sys2Proof.Machine.execJtagTrst s
  | .registerWrite p a v be t raw => Sys2Proof.Machine.execRegisterWrite p a v be t raw s
  | .chainOutputWrite n => Sys2Proof.Machine.execChainOutputWrite n s
  | .lfClip t => Sys2Proof.Machine.execLfClip t s
  | .wardenMemoryError t => Sys2Proof.Machine.execWardenMemoryError t s
  | .standbySelftest pass t => Sys2Proof.Machine.execStandbySelftest pass t s
  | .powerOnResetEnd ix => Sys2Proof.Machine.execPowerOnResetEnd ix s
  | .backupStateLoss t mv => Sys2Proof.Machine.execBackupStateLoss t mv s
  | .twStartSeen b t => Sys2Proof.Machine.execTwStartSeen b t s
  | .spiUnknownOpcode t => Sys2Proof.Machine.execSpiUnknownOpcode t s

end Sys2Proof.Machine
end

