-- ==== Sys2Proof/Safety.lean ====
section
/-!
DEFINITION. What counts as a safe run: it never stops; and the forms that the state's data keep.
-/

namespace Sys2Proof

open Sys2Proof.Machine

/-- A step of the state answers a next state: the block is never stuck. -/
def Machine.State.live (s : State) : Prop := ∃ t, step s = .next t

/-- A run of `k` steps never stops. -/
def Machine.State.safe (s : State) (k : Nat) : Prop := ∃ t, core.run k s = .next t

/-- The register file is in its canonical form: addresses strictly rising, no entry equal to its reset value. -/
def Machine.State.regsOk (s : State) : Prop := regsWf s.regs = true

/-- Every command that waits is well-formed. -/
def Machine.State.queueOk (s : State) : Prop := ∀ c ∈ s.pending, c.wf = true

/-- Every byte memory of the contexts and of the runs is in its canonical form: addresses strictly rising, no byte 0 listed. -/
def Machine.State.memsOk (s : State) : Prop :=
  (∀ p ∈ s.ctxs, memWf p.2.state = true ∧ memWf p.2.ext = true) ∧
  (∀ r ∈ s.runs.filterMap id, memWf r.lmem = true ∧ ∀ q, r.pair = some q → memWf q.lmem = true)

/-- The register set of a run has its sizes (R164): 32 scalars, 32 vectors, 8 predicates, 4 accumulators. -/
def Machine.RegSet.sized (g : RegSet) : Prop := g.s.length = 32 ∧ g.v.length = 32 ∧ g.p.length = 8 ∧ g.a.length = 4

/-- A run's registers, and those a pair reads, have their sizes. -/
def Machine.Run.sized (r : Run) : Prop := r.regs.sized ∧ ∀ q, r.pair = some q → q.regs.sized

/-- The state's fixed tables have their sizes: eight engines, two two-wire buses, four tenants, five ports with the TAP, and four latches of the
timebase (R11, R31, R32, R390, R535). -/
structure Machine.State.shaped (s : State) : Prop where
  runs : s.runs.length = 8
  run : ∀ e r, s.run e = some r → r.sized
  buses : s.buses.length = 2
  tenants : s.host.tenants.length = 4
  ports : s.host.ports.length = 5
  latches : s.time.latches.length = 4

/-! ## What one engine instruction may change -/

/-- Engine `e` runs `r`, which has not ended, in a state whose tables have their sizes. -/
structure Machine.State.Issues (s : State) (e : Nat) (r : Run) : Prop where
  shaped : s.shaped
  engine : e < 8
  run : s.run e = some r
  live : r.ended = false

/-- From `s` to `t` nothing changed but the run on engine `e` and TB_STU, which did not go back. -/
structure Machine.State.OnlyEngine (s t : State) (e : Nat) : Prop where
  others : ∀ k, k ≠ e → t.run k = s.run k
  time : s.now ≤ t.now
  rest : { t with runs := s.runs, time := { t.time with stu := s.time.stu } } = s

/-- From `s` to `t` nothing changed but the run on engine `e`, context `n` and TB_STU, which did not go back. -/
structure Machine.State.OnlyEngineCtx (s t : State) (e n : Nat) : Prop where
  others : ∀ k, k ≠ e → t.run k = s.run k
  ctxs : ∀ m, m ≠ n → t.ctx m = s.ctx m
  time : s.now ≤ t.now
  rest : { t with runs := s.runs, ctxs := s.ctxs, time := { t.time with stu := s.time.stu } } = s

/-- Command `i` answers a next state in which engine `e` runs `r1`, and nothing else changed. -/
def Machine.State.Goes (s : State) (i : Instr) (e : Nat) (r1 : Run) : Prop :=
  ∃ t, exec i s = .next t ∧ t.run e = some r1 ∧ s.OnlyEngine t e

/-- Command `i` answers a next state in which engine `e` runs `r1` and context `n` is `x`, and nothing else changed. -/
def Machine.State.GoesCtx (s : State) (i : Instr) (e : Nat) (r1 : Run) (n : Nat) (x : ContextS) : Prop :=
  ∃ t, exec i s = .next t ∧ t.run e = some r1 ∧ t.ctx n = x ∧ s.OnlyEngineCtx t e n

/-- `r1` is `r` after an instruction of `len` words and `cost` cycles has issued, its registers and its memory apart (R165, R206): a first word of a pair
keeps what the second is to read, and the second adds only what it costs beyond the first. -/
structure Machine.Run.Issued (r r1 : Run) (pr : Bool) (cost len : Nat) : Prop where
  word : r1.word = r.word + len
  alone : r.pair = none → r1.cycles = r.cycles + cost ∧ r1.pair = (if pr then some { regs := r.regs, lmem := r.lmem, cost := cost } else none)
  second : ∀ q, r.pair = some q → r1.cycles = r.cycles + (cost - q.cost) ∧ r1.pair = none
  rest : { r1 with word := r.word, cycles := r.cycles, pair := r.pair, regs := r.regs, lmem := r.lmem } = r

/-- `r1`'s scalars are `r`'s but for `d`, which holds `v`; a write to s0 is discarded (R164, R212). -/
def Machine.RegSet.ScalarSet (g g1 : RegSet) (d : Fin 32) (v : Word) : Prop :=
  (∀ j : Fin 32, g1.rs j = if j = d ∧ d ≠ 0 then v else g.rs j) ∧ g1.v = g.v ∧ g1.p = g.p ∧ g1.a = g.a

/-- Only vector `d` changed, and holds `v`. -/
def Machine.RegSet.VectorSet (g g1 : RegSet) (d : Fin 32) (v : Vec) : Prop :=
  (∀ j : Fin 32, g1.rv j = if j = d then v else g.rv j) ∧ g1.s = g.s ∧ g1.p = g.p ∧ g1.a = g.a

/-- Only predicate `d` changed, and holds `v`; a write to p0 is discarded (R214). -/
def Machine.RegSet.PredSet (g g1 : RegSet) (d : Fin 8) (v : Word) : Prop :=
  (∀ j : Fin 8, g1.rp j = if j = d ∧ d ≠ 0 then v else g.rp j) ∧ g1.s = g.s ∧ g1.v = g.v ∧ g1.a = g.a

/-- Only accumulator `k` changed, and holds the lanes `v`. -/
def Machine.RegSet.AccSet (g g1 : RegSet) (k : Fin 4) (v : List Int) : Prop :=
  (∀ j : Fin 4, g1.ra j = if j = k then v else g.ra j) ∧ g1.s = g.s ∧ g1.v = g.v ∧ g1.p = g.p

/-- Command `i` answers a next state in which engine `e` has issued one instruction of `len` words and `cost` cycles, whose registers and memory
stand in the relation `w` to those before; nothing else changed. -/
def Machine.State.Does (s : State) (i : Instr) (e : Nat) (r : Run) (pr : Bool) (cost len : Nat) (w : Run → Run → Prop) : Prop :=
  ∃ t r1, exec i s = .next t ∧ t.run e = some r1 ∧ s.OnlyEngine t e ∧ r.Issued r1 pr cost len ∧ w r r1

/-- The instruction writes scalar `d` and nothing else. -/
def Machine.State.Scalar (s : State) (i : Instr) (e : Nat) (r : Run) (pr : Bool) (cost len : Nat) (d : Fin 32) (v : Word) : Prop :=
  s.Does i e r pr cost len (fun r r1 => r.regs.ScalarSet r1.regs d v ∧ r1.lmem = r.lmem)

/-- The instruction writes vector `d` and nothing else. -/
def Machine.State.Vector (s : State) (i : Instr) (e : Nat) (r : Run) (pr : Bool) (cost len : Nat) (d : Fin 32) (v : Vec) : Prop :=
  s.Does i e r pr cost len (fun r r1 => r.regs.VectorSet r1.regs d v ∧ r1.lmem = r.lmem)

/-- The instruction writes predicate `d` and nothing else. -/
def Machine.State.Pred (s : State) (i : Instr) (e : Nat) (r : Run) (pr : Bool) (cost : Nat) (d : Fin 8) (v : Word) : Prop :=
  s.Does i e r pr cost 1 (fun r r1 => r.regs.PredSet r1.regs d v ∧ r1.lmem = r.lmem)

/-- The instruction writes accumulator `k` and nothing else. -/
def Machine.State.Acc (s : State) (i : Instr) (e : Nat) (r : Run) (pr : Bool) (cost : Nat) (k : Fin 4) (v : List Int) : Prop :=
  s.Does i e r pr cost 1 (fun r r1 => r.regs.AccSet r1.regs k v ∧ r1.lmem = r.lmem)

/-- The instruction writes the bytes `l` from lmem address `a` on, and nothing else. -/
def Machine.State.Stores (s : State) (i : Instr) (e : Nat) (r : Run) (pr : Bool) (a : Nat) (l : List Byte) : Prop :=
  s.Does i e r pr 1 1 (fun r r1 => r1.regs = r.regs ∧
    (∀ k, k < l.length → memGet r1.lmem (a + k) = l.getD k 0) ∧ (∀ b, b < a ∨ a + l.length ≤ b → memGet r1.lmem b = memGet r.lmem b))

/-- Command `i` answers a next state in which the run `r` of engine `e` has tripped its context with fault `f` at its present instruction (R199): the engine
runs nothing, the other engines run on, the context is TRIPPED, with no cue and no timer, its state copy is the one before, and CTX_FAULT and
CTX_FAULT_STU hold the code, the section, the word and the stu. -/
def Machine.State.Trips (s : State) (i : Instr) (e : Nat) (r : Run) (f : Nat) : Prop :=
  ∃ t, exec i s = .next t ∧ t.run e = none ∧ (∀ k, k ≠ e → t.run k = s.run k) ∧
    (t.ctx r.ctx).mode = .tripped ∧ (t.ctx r.ctx).timer = none ∧ (t.ctx r.ctx).state = (s.ctx r.ctx).state ∧
    (∀ j, ((t.ctx r.ctx).cues.getD j {}).count = 0) ∧
    fieldOf (t.rget (Reg.CTX_FAULT r.ctx)) 31 24 = f ∧ fieldOf (t.rget (Reg.CTX_FAULT r.ctx)) 12 0 = r.word % 8192 ∧
    fieldOf (t.rget (Reg.CTX_FAULT r.ctx)) 23 23 = (if r.handler.isSome then 1 else 0) ∧
    (∀ k, r.handler = some k → k < 8 → fieldOf (t.rget (Reg.CTX_FAULT r.ctx)) 22 20 = k) ∧
    t.rget64 (Reg.CTX_FAULT_STU_LO r.ctx) = s.issueStu r % 2 ^ 64

/-- The numbers that name contexts and tenants are in range. -/
def Machine.State.numbered (s : State) : Prop := ∀ p ∈ s.ctxs, p.1 < 256 ∧ p.2.tenant < 4

/-! ## Accesses of ports -/

/-- Port `p`, whose tenant is `k`, is served at stu `t` and the word at `a` lies in that tenant's view (R394, R403, R506, R516). -/
structure Machine.State.Serves (s : State) (p : Fin 4) (k a t : Nat) : Prop where
  serves : (s.at t).portServes p = true
  bound : s.host.bound = true
  tenant : s.portTenant p = some k
  view : s.sees k a = true

/-! ## The fault log -/

/-- The newest entry of the fault log holds this code, unit, context and detail (R479). -/
def Machine.State.Logged (s : State) (fc unit ctx detail : Nat) : Prop :=
  let i := (s.rget Reg.FLT_LOGHEAD).toNat
  s.rget (Reg.FLT_LOG i 0 + 8) = BitVec.ofNat 32 (fc + 2 ^ 16 * unit + 2 ^ 24 * ctx) ∧ s.rget (Reg.FLT_LOG i 0 + 12) = BitVec.ofNat 32 detail

/-! ## Commands of the rings -/

/-- Tenant `k`'s command can be taken at stu `t` (R405), at which no later-numbered tenant's has been (R249), and its completion finds the rings as they were
enabled (R417). -/
structure Machine.State.Ready (s : State) (k : Fin 4) (t : Nat) : Prop where
  shaped : s.shaped
  take : s.canTake k = true
  fresh : (s.ten k).ringAt ≤ (s.at t).stamp
  turn : (s.at t).inTurn k = s.at t

/-- From `s` to `u` one command of tenant `k` has been taken at stu `t` (R405). -/
def Machine.State.Took (s u : State) (k : Fin 4) (t : Nat) : Prop :=
  u.now = (s.at t).now ∧ u.rget (Reg.HST_CQ_HEAD k) = BitVec.ofNat 32 (((s.rget (Reg.HST_CQ_HEAD k)).toNat + 1) % 256) ∧ (u.ten k).taken = (s.ten k).taken + 1

/-- From `s` to `u` tenant `k`'s ring has gained a completion with this tag, opcode, status, acceptance and result, at its tail (R404, R407, R408). -/
def Machine.State.Completed (s u : State) (k : Fin 4) (tag op status accept : Nat) (result : List Byte) : Prop :=
  let i := (s.rget (Reg.HST_CPL_TAIL k)).toNat % 256
  (∃ c, getIdx (u.ten k).ring i = some c ∧ c.tag = tag ∧ c.opcode = op ∧ c.status = status ∧ c.accept = accept ∧ c.result = result) ∧
  u.rget (Reg.HST_CPL_TAIL k) = BitVec.ofNat 32 ((i + 1) % 256)

/-- The bytes have gone to a data reference of tenant `k`: by DMA where its rings lie on PCIe, else into its data window (R406). -/
def Machine.State.Put (s u : State) (k : Fin 4) (a : Nat) (l : List Byte) : Prop :=
  if s.onPcie k then (a, l) ∈ u.host.out.dma else memRead (u.ten k).window (0x4000 + a) l.length = l

/-! ## The flash store -/

/-- A block of the request's zone and class is open with room for its pages (R365, R378), and no ingot is numbered past the last (R367). -/
def Machine.State.Room (s : State) (r : IngotReq) : Prop :=
  (∀ z ∈ s.fst.ingots, z.seq ≤ s.fst.lastSeq) ∧ ∃ b, b < s.fst.blocks.length ∧ (s.fst.blk b).st = 2 ∧ (s.fst.blk b).zone = r.zone ∧ (s.fst.blk b).part = r.part ∧ (s.fst.blk b).cold = coldType r.type ∧
    (s.fst.blk b).next + s.needFor r ≤ s.blkPages (nativeZone r.zone)

/-! ## Reset and boot -/

/-- From `s` to `u` the device has booted as from a release of reset (R502, R506, R511): TB_STU and every island start anew, the straps are taken,
BOOT_CAUSE tells what ended, the boot ROM runs, and discovery has found the targets that answer with a page whose CRC checks (R357, R358). -/
def Machine.State.Booted (s u : State) (i : BootIn) : Prop :=
  u.up = true ∧ u.boot.rom = true ∧ u.boot.onB = !i.wdaOk ∧ u.now = 0 ∧ u.ctxs = [] ∧ u.host.bound = false ∧ u.fget Reg.BOOT_STAT_BOOTSEL = i.bootsel ∧
  u.fget Reg.BOOT_STAT_TWADDR = i.twaddr ∧ u.fget Reg.BOOT_STAT_STAGE = (if i.bootsel = 0 then 0 else if i.bootsel = 3 then 4 else 1) ∧
  u.flag Reg.BOOT_CAUSE_HIBWAKE = s.bkp.hib ∧ u.flag Reg.BOOT_CAUSE_SUPMON = s.boot.supmon ∧ u.flag Reg.BOOT_CAUSE_F5 = s.boot.f5 ∧
  u.fst.found = i.tgts.map TgtObs.found ∧ u.fget Reg.FST_STAT_STATE = (if supported (i.tgts.map TgtObs.found) = true then 1 else 5)

/-- Every island but the backup domain is as reset leaves it (R23, R501); the queue, the medium and the key store keep. -/
def Machine.State.Islands (s u : State) : Prop :=
  u.time = State.reset.time ∧ u.ctxs = [] ∧ (∀ e, u.run e = none) ∧ u.reqs = [] ∧ u.host = State.reset.host ∧ u.boot.rom = true ∧ u.fst.ingots = s.fst.ingots ∧
  u.wit.owk = s.wit.owk ∧ u.pending = s.pending ∧ ∀ a, a < 0xF0000 → u.rget a = Reg.resetOf a

/-! ## Vectors lane by lane -/

/-- The predicate bit that governs component `c` of a vector of a type (R208): a lane of 16 bits or more takes bit (w / 16) j, two i8 lanes share a bit,
and both components of a complex lane take that lane's bit. -/
def govBit (ty : VTy) (c : Nat) : Nat := match ty with
  | .i8 => c / 2
  | .i16 => c
  | .q15 => c
  | .i32 => 2 * c
  | .c16 => 2 * (c / 2)
  | .c32 => 4 * (c / 2)

/-- Component `c` of width `w` of a vector. -/
def comp (w : Nat) (v : Machine.Vec) (c : Nat) : BitVec w := v.extractLsb' (w * c) w

/-- sat: a value held to the range of a signed type of `w` bits (R209). -/
def satB (w : Nat) (x : Int) : BitVec w := BitVec.ofInt w (max (-(2 ^ (w - 1))) (min (2 ^ (w - 1) - 1) x))

/-- round(x / 2^k) with ties away from zero (R111, R209). -/
def roundShift (x : Int) (k : Nat) : Int := x.sign * (((2 * x.natAbs + 2 ^ k) / 2 ^ (k + 1) : Nat) : Int)

/-- The components of `v`: the governed ones hold `f`, the others what `old` held. -/
def LanesAre (ty : VTy) (g : Word) (old v : Machine.Vec) (f : Nat → BitVec (Machine.compW ty)) : Prop :=
  ∀ c, c < 512 / Machine.compW ty → comp _ v c = if g.getLsbD (govBit ty c) then f c else comp _ old c

/-- The instruction writes vector `d` lane by lane, as predicate `g` governs, and nothing else. -/
def Machine.State.Lanewise (s : State) (i : Instr) (e : Nat) (r : Run) (pr : Bool) (cost len : Nat) (g : Fin 8) (ty : VTy) (d : Fin 32)
    (f : Nat → BitVec (compW ty)) : Prop :=
  ∃ v, s.Vector i e r pr cost len d v ∧ LanesAre ty (r.view.regs.rp g) (r.view.regs.rv d) v f

/-- The instruction writes the lanes of accumulator `k` that predicate `g` governs with `f`, saturated at 48 bits (R209), and nothing else; `b` names the
bit that governs a lane. -/
def Machine.State.Accumulates (s : State) (i : Instr) (e : Nat) (r : Run) (pr : Bool) (cost : Nat) (g : Fin 8) (k : Fin 4) (b : Nat → Nat)
    (f : Nat → Int → Int) : Prop :=
  s.Acc i e r pr cost k ((List.range 32).map (fun j =>
    let o := (r.view.regs.ra k).getD j 0
    if (r.view.regs.rp g).getLsbD (b j) then max (-(2 ^ 47)) (min (2 ^ 47 - 1) (f j o)) else o))

end Sys2Proof
end

