-- ==== Sys2Proof/Certificates/Slice0/Obligations.lean ====
section
/-!
DEFINITION. The statements about the model: what the numbered rules of the spec say that its commands do.
-/

open Sys2Proof

open Sys2Proof.Machine

/-! ## Engine instructions (chapters 7 and 8) -/

/-- R212, with the edge cases of R210 and the shift amounts modulo 32: every scalar ALU instruction writes its value, in its cycles, and nothing else.
`x` and `y` are what sa and sb held before the instruction, or before the pair that holds it. -/
def Obligations.ScalarAluTable : Prop :=
  ∀ (s : State) (e : Fin 8) (r : Run) (pr : Bool) (d a b n : Fin 32) (i : BitVec 15) (w x y : Word),
    s.Issues e r → r.view.regs.rs a = x → r.view.regs.rs b = y →
    s.Scalar (.add e pr d a b) e r pr 1 1 d (x + y) ∧
    s.Scalar (.sub e pr d a b) e r pr 1 1 d (x - y) ∧
    s.Scalar (.andI e pr d a b) e r pr 1 1 d (x &&& y) ∧
    s.Scalar (.orI e pr d a b) e r pr 1 1 d (x ||| y) ∧
    s.Scalar (.xorI e pr d a b) e r pr 1 1 d (x ^^^ y) ∧
    s.Scalar (.sll e pr d a b) e r pr 1 1 d (x <<< (y % 32)) ∧
    s.Scalar (.srl e pr d a b) e r pr 1 1 d (x >>> (y % 32)) ∧
    s.Scalar (.sra e pr d a b) e r pr 1 1 d (x.sshiftRight' (y % 32)) ∧
    s.Scalar (.slt e pr d a b) e r pr 1 1 d (if x.slt y then 1 else 0) ∧
    s.Scalar (.sltu e pr d a b) e r pr 1 1 d (if x.ult y then 1 else 0) ∧
    s.Scalar (.seqI e pr d a b) e r pr 1 1 d (if x = y then 1 else 0) ∧
    s.Scalar (.minI e pr d a b) e r pr 1 1 d (if x.sle y then x else y) ∧
    s.Scalar (.maxI e pr d a b) e r pr 1 1 d (if x.sle y then y else x) ∧
    s.Scalar (.minu e pr d a b) e r pr 1 1 d (if x.ule y then x else y) ∧
    s.Scalar (.maxu e pr d a b) e r pr 1 1 d (if x.ule y then y else x) ∧
    s.Scalar (.mul e pr d a b) e r pr 1 1 d (x * y) ∧
    s.Scalar (.mulh e pr d a b) e r pr 1 1 d ((x.signExtend 64 * y.signExtend 64).extractLsb' 32 32) ∧
    s.Scalar (.mulhu e pr d a b) e r pr 1 1 d ((x.zeroExtend 64 * y.zeroExtend 64).extractLsb' 32 32) ∧
    s.Scalar (.divI e pr d a b) e r pr 12 1 d (if y = 0 then 0xFFFFFFFF else x.sdiv y) ∧
    s.Scalar (.divu e pr d a b) e r pr 12 1 d (if y = 0 then 0xFFFFFFFF else x / y) ∧
    s.Scalar (.rem e pr d a b) e r pr 12 1 d (if y = 0 then x else x.srem y) ∧
    s.Scalar (.remu e pr d a b) e r pr 12 1 d (if y = 0 then x else x % y) ∧
    (∃ k : Nat, k ≤ 32 ∧ x.toNat < 2 ^ (32 - k) ∧ (k < 32 → 2 ^ (31 - k) ≤ x.toNat) ∧
      s.Scalar (.clz e pr d a) e r pr 1 1 d (BitVec.ofNat 32 k)) ∧
    s.Scalar (.popc e pr d a) e r pr 1 1 d (BitVec.ofNat 32 ((List.range 32).countP (fun k => x.getLsbD k))) ∧
    s.Scalar (.sextb e pr d a) e r pr 1 1 d ((x.extractLsb' 0 8).signExtend 32) ∧
    s.Scalar (.sexth e pr d a) e r pr 1 1 d ((x.extractLsb' 0 16).signExtend 32) ∧
    s.Scalar (.abs e pr d a) e r pr 1 1 d (if x = 0x80000000 then 0x7FFFFFFF else BitVec.ofNat 32 x.toInt.natAbs) ∧
    s.Scalar (.addi e pr d a i) e r pr 1 1 d (x + i.signExtend 32) ∧
    s.Scalar (.slti e pr d a i) e r pr 1 1 d (if x.slt (i.signExtend 32) then 1 else 0) ∧
    s.Scalar (.sltiu e pr d a i) e r pr 1 1 d (if x.ult (i.signExtend 32) then 1 else 0) ∧
    s.Scalar (.andi e pr d a i) e r pr 1 1 d (x &&& i.zeroExtend 32) ∧
    s.Scalar (.ori e pr d a i) e r pr 1 1 d (x ||| i.zeroExtend 32) ∧
    s.Scalar (.xori e pr d a i) e r pr 1 1 d (x ^^^ i.zeroExtend 32) ∧
    s.Scalar (.slli e pr d a n) e r pr 1 1 d (x <<< n.val) ∧
    s.Scalar (.srli e pr d a n) e r pr 1 1 d (x >>> n.val) ∧
    s.Scalar (.srai e pr d a n) e r pr 1 1 d (x.sshiftRight n.val) ∧
    s.Scalar (.li e d w) e r false 1 2 d w ∧
    s.Scalar (.addil e d a w) e r false 1 2 d (x + w) ∧
    s.Scalar (.sltil e d a w) e r false 1 2 d (if x.slt w then 1 else 0)

/-- R213: a scalar load from an address that R167 lets through writes sd with the bytes there, first byte lowest, as the access widens them; the address
is sa + OFF12 × size in 32 bits, and memory is read as it stood before the instruction, or before the pair that holds it. -/
def Obligations.ScalarLoads : Prop :=
  ∀ (s : State) (e : Fin 8) (r : Run) (pr : Bool) (d a : Fin 32) (off : BitVec 12) (x : Word) (b : Nat → Byte),
    s.Issues e r → r.view.regs.rs a = x →
    let im := (s.ctx r.ctx).img
    let at1 := (x + off.signExtend 32).toNat
    let at2 := (x + off.signExtend 32 * 2).toNat
    let at4 := (x + off.signExtend 32 * 4).toNat
    (im.check at1 1 1 false = none → (∀ k, b k = memGet r.view.lmem (at1 + k)) →
      s.Scalar (.lb e pr d a off) e r pr 1 1 d ((b 0).signExtend 32) ∧ s.Scalar (.lbu e pr d a off) e r pr 1 1 d ((b 0).zeroExtend 32)) ∧
    (im.check at2 2 2 false = none → (∀ k, b k = memGet r.view.lmem (at2 + k)) →
      s.Scalar (.lh e pr d a off) e r pr 1 1 d ((b 1 ++ b 0).signExtend 32) ∧
      s.Scalar (.lhu e pr d a off) e r pr 1 1 d ((b 1 ++ b 0).zeroExtend 32)) ∧
    (im.check at4 4 4 false = none → (∀ k, b k = memGet r.view.lmem (at4 + k)) →
      s.Scalar (.lw e pr d a off) e r pr 1 1 d (b 3 ++ b 2 ++ b 1 ++ b 0))

/-- R213: a scalar store to an address that R167 lets through writes the low bytes of sd there, lowest first, and no other byte and no register; VST
likewise, the bytes of ungoverned lanes keeping theirs (R208, R216). -/
def Obligations.ScalarStores : Prop :=
  ∀ (s : State) (e : Fin 8) (r : Run) (pr : Bool) (g : Fin 8) (d a : Fin 32) (off : BitVec 12) (x y : Word),
    s.Issues e r → r.view.regs.rs a = x → r.view.regs.rs d = y →
    let im := (s.ctx r.ctx).img
    let at1 := (x + off.signExtend 32).toNat
    let at2 := (x + off.signExtend 32 * 2).toNat
    let at4 := (x + off.signExtend 32 * 4).toNat
    let at64 := (x + off.signExtend 32 * 64).toNat
    (im.check at1 1 1 true = none → s.Stores (.sb e pr d a off) e r pr at1 [y.extractLsb' 0 8]) ∧
    (im.check at2 2 2 true = none → s.Stores (.sh e pr d a off) e r pr at2 [y.extractLsb' 0 8, y.extractLsb' 8 8]) ∧
    (im.check at4 4 4 true = none → s.Stores (.sw e pr d a off) e r pr at4
      [y.extractLsb' 0 8, y.extractLsb' 8 8, y.extractLsb' 16 8, y.extractLsb' 24 8]) ∧
    (im.check at64 64 64 true = none → s.Stores (.vst e pr g d a off) e r pr at64 ((List.range 64).map (fun k =>
      if (r.view.regs.rp g).getLsbD (k / 2) then (r.view.regs.rv d).extractLsb' (8 * k) 8 else memGet r.lmem (at64 + k))))

/-- R214: the f32 and predicate instructions, in their cycles; the values of f32 are those of R210, decoded, computed exactly and rounded. -/
def Obligations.FloatAndPredicateTable : Prop :=
  ∀ (s : State) (e : Fin 8) (r : Run) (pr : Bool) (d a b : Fin 32) (pd pa pb : Fin 8) (x y p q : Word),
    s.Issues e r → r.view.regs.rs a = x → r.view.regs.rs b = y → r.view.regs.rp pa = p → r.view.regs.rp pb = q →
    s.Scalar (.fadd e pr d a b) e r pr 1 1 d (f32Word (fadd (f32Of x) (f32Of y))) ∧
    s.Scalar (.fsub e pr d a b) e r pr 1 1 d (f32Word (fadd (f32Of x) (fneg (f32Of y)))) ∧
    s.Scalar (.fmul e pr d a b) e r pr 1 1 d (f32Word (fmul (f32Of x) (f32Of y))) ∧
    s.Scalar (.fdiv e pr d a b) e r pr 12 1 d (f32Word (fdiv (f32Of x) (f32Of y))) ∧
    (∃ v, s.Scalar (.fsqrt e pr d a) e r pr 12 1 d v ∧
      (∀ n, f32Of x = .zero n → f32Of v = .zero n) ∧ (f32Of x = .inf false → f32Of v = .inf false) ∧
      (f32Of x = .nan ∨ f32Of x = .inf true ∨ (∃ k : Rat, k < 0 ∧ f32Of x = .fin k) → v = 0x7FC00000) ∧
      (∀ k : Rat, 0 < k → f32Of x = .fin k → v = fsqrtWord k)) ∧
    s.Scalar (.fmin e pr d a b) e r pr 1 1 d (f32Word (fmin (f32Of x) (f32Of y))) ∧
    s.Scalar (.fmax e pr d a b) e r pr 1 1 d (f32Word (fmax (f32Of x) (f32Of y))) ∧
    s.Scalar (.fcvtfi e pr d a) e r pr 1 1 d (if x = 0 then 0 else f32Word (.fin (x.toInt : Rat))) ∧
    (∃ v, s.Scalar (.fcvtif e pr d a) e r pr 1 1 d v ∧ (f32Of x = .nan → v = 0) ∧
      (∀ n, f32Of x = .inf n → v = if n then 0x80000000 else 0x7FFFFFFF) ∧ (∀ n, f32Of x = .zero n → v = 0) ∧
      (∀ k : Rat, f32Of x = .fin k → ∃ n : Int, absQ (k - n) ≤ 1 / 2 ∧ (absQ (k - n) = 1 / 2 → n % 2 = 0) ∧ v = satB 32 n)) ∧
    s.Scalar (.fltI e pr d a b) e r pr 1 1 d (if flt (f32Of x) (f32Of y) then 1 else 0) ∧
    s.Scalar (.feq e pr d a b) e r pr 1 1 d (if feq (f32Of x) (f32Of y) then 1 else 0) ∧
    s.Scalar (.fabs e pr d a) e r pr 1 1 d (x &&& 0x7FFFFFFF) ∧
    s.Scalar (.fneg e pr d a) e r pr 1 1 d (x ^^^ 0x80000000) ∧
    s.Pred (.pand e pr pd pa pb) e r pr 1 pd (p &&& q) ∧
    s.Pred (.por e pr pd pa pb) e r pr 1 pd (p ||| q) ∧
    s.Pred (.pxor e pr pd pa pb) e r pr 1 pd (p ^^^ q) ∧
    s.Pred (.pandn e pr pd pa pb) e r pr 1 pd (p &&& ~~~q) ∧
    s.Pred (.pnot e pr pd pa) e r pr 1 pd (~~~p) ∧
    s.Pred (.pfroms e pr pd a) e r pr 1 pd x ∧
    s.Scalar (.ptos e pr d pa) e r pr 1 1 d p ∧
    s.Pred (.psets e pr pd a) e r pr 1 pd (if x = 0 then 0 else 0xFFFFFFFF) ∧
    s.Scalar (.pcnt e pr d pa) e r pr 1 1 d (BitVec.ofNat 32 ((List.range 32).countP (fun k => p.getLsbD k))) ∧
    (∃ k : Nat, k ≤ 32 ∧ (∀ j, j < k → p.getLsbD j = false) ∧ (k < 32 → p.getLsbD k = true) ∧
      s.Scalar (.pfirst e pr d pa) e r pr 1 1 d (BitVec.ofNat 32 k))

/-- R210, the f32 rows: a NaN operand gives 0x7FC00000, comparisons with it 0, FMIN and FMAX the other operand, FCVTIF 0; a subnormal operand acts as the
zero of its sign; x / 0 with x finite and not 0 is an infinity with the sign of x. -/
def Obligations.FloatEdgeCases : Prop :=
  ∀ (s : State) (e : Fin 8) (r : Run) (pr : Bool) (d a b : Fin 32) (x y : Word),
    s.Issues e r → r.view.regs.rs a = x → r.view.regs.rs b = y →
    let nan : Word → Prop := fun z => z.extractLsb' 23 8 = 255 ∧ z.extractLsb' 0 23 ≠ 0
    let small : Word → Prop := fun z => z.extractLsb' 23 8 = 0
    let finite : Word → Prop := fun z => z.extractLsb' 23 8 ≠ 255
    (nan x ∨ nan y →
      s.Scalar (.fadd e pr d a b) e r pr 1 1 d 0x7FC00000 ∧ s.Scalar (.fsub e pr d a b) e r pr 1 1 d 0x7FC00000 ∧
      s.Scalar (.fmul e pr d a b) e r pr 1 1 d 0x7FC00000 ∧ s.Scalar (.fdiv e pr d a b) e r pr 12 1 d 0x7FC00000 ∧
      s.Scalar (.fltI e pr d a b) e r pr 1 1 d 0 ∧ s.Scalar (.feq e pr d a b) e r pr 1 1 d 0) ∧
    (nan x → s.Scalar (.fsqrt e pr d a) e r pr 12 1 d 0x7FC00000 ∧ s.Scalar (.fcvtif e pr d a) e r pr 1 1 d 0) ∧
    (nan x → ¬ nan y → ¬ small y → s.Scalar (.fmin e pr d a b) e r pr 1 1 d y ∧ s.Scalar (.fmax e pr d a b) e r pr 1 1 d y) ∧
    (nan y → ¬ nan x → ¬ small x → s.Scalar (.fmin e pr d a b) e r pr 1 1 d x ∧ s.Scalar (.fmax e pr d a b) e r pr 1 1 d x) ∧
    (finite x → ¬ small x → small y → s.Scalar (.fdiv e pr d a b) e r pr 12 1 d (if x.msb then 0xFF800000 else 0x7F800000)) ∧
    (small x → small y → s.Scalar (.fadd e pr d a b) e r pr 1 1 d (if x.msb && y.msb then 0x80000000 else 0) ∧
      s.Scalar (.fmul e pr d a b) e r pr 1 1 d (if x.msb == y.msb then 0 else 0x80000000)) ∧
    (small x → s.Scalar (.fsqrt e pr d a) e r pr 12 1 d (x &&& 0x80000000))

/-- R210: a result that is finite and in the range of normal numbers is the nearest value binary32 has, for every exact value `q`; a value too large in
magnitude to round to a finite number is an infinity of its sign. -/
def Obligations.FloatRoundsToNearest : Prop :=
  ∀ q : Rat,
    (pow2 (-126) ≤ absQ q → absQ q ≤ pow2 128 - pow2 104 →
      ∃ v : Rat, f32Of (f32Word (.fin q)) = .fin v ∧ ∀ (w : Word) (u : Rat), f32Of w = .fin u → absQ (v - q) ≤ absQ (u - q)) ∧
    (pow2 128 - pow2 103 ≤ absQ q → f32Of (f32Word (.fin q)) = .inf (decide (q < 0)))

/-- R215: the vector arithmetic, multiply, logic and shift instructions write each governed lane, or each component of it, with its value of the listed
types (R208 to R210); the other lanes keep. -/
def Obligations.VectorArithmeticTable : Prop :=
  ∀ (s : State) (e : Fin 8) (r : Run) (pr : Bool) (g : Fin 8) (ty : VTy) (d a b : Fin 32) (va vb : Vec),
    s.Issues e r → r.view.regs.rv a = va → r.view.regs.rv b = vb →
    let w := compW ty
    let x : Nat → BitVec (compW ty) := fun c => comp _ va c
    let y : Nat → BitVec (compW ty) := fun c => comp _ vb c
    let real := ty ∈ [VTy.i8, .i16, .q15, .i32]
    let cplx := ty ∈ [VTy.c16, .c32]
    let mul : Bool → Nat → BitVec (compW ty) := fun conj c =>
      let (ar, ai) := ((x (c / 2 * 2)).toInt, (x (c / 2 * 2 + 1)).toInt)
      let (br, bi) := ((y (c / 2 * 2)).toInt, (if conj then -1 else 1) * (y (c / 2 * 2 + 1)).toInt)
      satB w (roundShift (if c % 2 = 0 then ar * br - ai * bi else ar * bi + ai * br) (w - 1))
    s.Lanewise (.vadd e pr g ty d a b) e r pr 1 1 g ty d (fun c => if ty = .q15 then satB w ((x c).toInt + (y c).toInt) else x c + y c) ∧
    s.Lanewise (.vsub e pr g ty d a b) e r pr 1 1 g ty d (fun c => if ty = .q15 then satB w ((x c).toInt - (y c).toInt) else x c - y c) ∧
    s.Lanewise (.vadds e pr g ty d a b) e r pr 1 1 g ty d (fun c => satB w ((x c).toInt + (y c).toInt)) ∧
    s.Lanewise (.vsubs e pr g ty d a b) e r pr 1 1 g ty d (fun c => satB w ((x c).toInt - (y c).toInt)) ∧
    (real → s.Lanewise (.vmin e pr g ty d a b) e r pr 1 1 g ty d (fun c => if (x c).sle (y c) then x c else y c)) ∧
    (real → s.Lanewise (.vmax e pr g ty d a b) e r pr 1 1 g ty d (fun c => if (x c).sle (y c) then y c else x c)) ∧
    s.Lanewise (.vabs e pr g ty d a) e r pr 1 1 g ty d (fun c => satB w (x c).toInt.natAbs) ∧
    s.Lanewise (.vneg e pr g ty d a) e r pr 1 1 g ty d (fun c => satB w (-(x c).toInt)) ∧
    (real → s.Lanewise (.vavg e pr g ty d a b) e r pr 1 1 g ty d (fun c => BitVec.ofInt w (((x c).toInt + (y c).toInt + 1) / 2))) ∧
    (cplx → s.Lanewise (.vconj e pr g ty d a) e r pr 1 1 g ty d (fun c => if c % 2 = 0 then x c else satB w (-(x c).toInt))) ∧
    (∃ v, s.Vector (.vsel e pr g ty d a b) e r pr 1 1 d v ∧ LanesAre ty (r.view.regs.rp g) vb v x) ∧
    s.Lanewise (.vmovv e pr g ty d a) e r pr 1 1 g ty d x ∧
    (real → ty ≠ .q15 → s.Lanewise (.vmul e pr g ty d a b) e r pr 1 1 g ty d (fun c => x c * y c)) ∧
    (ty = .q15 → s.Lanewise (.vmul e pr g ty d a b) e r pr 1 1 g ty d (fun c => satB w (roundShift ((x c).toInt * (y c).toInt) 15))) ∧
    (cplx → s.Lanewise (.vmul e pr g ty d a b) e r pr 1 1 g ty d (mul false)) ∧
    (cplx → s.Lanewise (.vcmulc e pr g ty d a b) e r pr 2 1 g ty d (mul true)) ∧
    (ty ∈ [VTy.i16, .i32] → s.Lanewise (.vmulh e pr g ty d a b) e r pr 1 1 g ty d (fun c => BitVec.ofInt w ((x c).toInt * (y c).toInt / 2 ^ w))) ∧
    s.Lanewise (.vand e pr g ty d a b) e r pr 1 1 g ty d (fun c => x c &&& y c) ∧
    s.Lanewise (.vor e pr g ty d a b) e r pr 1 1 g ty d (fun c => x c ||| y c) ∧
    s.Lanewise (.vxor e pr g ty d a b) e r pr 1 1 g ty d (fun c => x c ^^^ y c) ∧
    s.Lanewise (.vnot e pr g ty d a) e r pr 1 1 g ty d (fun c => ~~~ x c) ∧
    (ty ∈ [VTy.i8, .i16, .i32, .c16] →
      s.Lanewise (.vsll e pr g ty d a b) e r pr 1 1 g ty d (fun c => x c <<< ((y c).toNat % w)) ∧
      s.Lanewise (.vsrl e pr g ty d a b) e r pr 1 1 g ty d (fun c => x c >>> ((y c).toNat % w)) ∧
      s.Lanewise (.vsra e pr g ty d a b) e r pr 1 1 g ty d (fun c => (x c).sshiftRight ((y c).toNat % w)) ∧
      s.Lanewise (.vsrar e pr g ty d a b) e r pr 1 1 g ty d (fun c => BitVec.ofInt w (roundShift (x c).toInt ((y c).toNat % w))))

/-- R215, R216: the accumulator instructions: VMAC, VMSU, VCMAC, VCMACC, VACLR and VAIN write the governed lanes of their accumulator, saturated at 48
bits, and VAMOV and VRSUMA narrow an accumulator into a vector and a scalar. -/
def Obligations.AccumulatorTable : Prop :=
  ∀ (s : State) (e : Fin 8) (r : Run) (pr : Bool) (g : Fin 8) (ty : VTy) (d a b sh : Fin 32) (k : Fin 4) (va vb : Vec),
    s.Issues e r → r.view.regs.rv a = va → r.view.regs.rv b = vb →
    let x : Nat → Nat → Int := fun w c => (comp w va c).toInt
    let y : Nat → Nat → Int := fun w c => (comp w vb c).toInt
    let acc : Nat → Int := fun j => (r.view.regs.ra k).getD j 0
    let prod : Nat → Int := fun j => if ty = .i8 then x 8 (2 * j) * y 8 (2 * j) + x 8 (2 * j + 1) * y 8 (2 * j + 1) else x 16 j * y 16 j
    let cprod : Int → Nat → Int := fun sg j =>
      let (i, q) := (j / 2 * 2, j / 2 * 2 + 1)
      if j % 2 = 0 then x 16 i * y 16 i - x 16 q * (sg * y 16 q) else x 16 i * (sg * y 16 q) + x 16 q * y 16 i
    (ty ∈ [VTy.i8, .i16, .q15] →
      s.Accumulates (.vmac e pr g ty k a b) e r pr 1 g k id (fun j o => o + prod j) ∧
      s.Accumulates (.vmsu e pr g ty k a b) e r pr 1 g k id (fun j o => o - prod j)) ∧
    s.Accumulates (.vcmac e pr g k a b) e r pr 1 g k (fun j => j / 2 * 2) (fun j o => o + cprod 1 j) ∧
    s.Accumulates (.vcmacc e pr g k a b) e r pr 2 g k (fun j => j / 2 * 2) (fun j o => o + cprod (-1) j) ∧
    s.Accumulates (.vaclr e pr g k) e r pr 1 g k id (fun _ _ => 0) ∧
    (ty ∈ [VTy.i16, .q15] → s.Accumulates (.vain e pr g ty k a) e r pr 1 g k id (fun j _ => x 16 j)) ∧
    (ty ∈ [VTy.i16, .q15, .c16] →
      s.Lanewise (.vamov e pr g ty d k sh) e r pr 1 1 g ty d (fun c => satB _ (roundShift (acc c) sh))) ∧
    s.Scalar (.vrsuma e pr g d k sh) e r pr 4 1 d
      (satB 32 (roundShift ((List.range 32).map (fun j => if (r.view.regs.rp g).getLsbD j then acc j else 0)).sum sh))

/-- R215, R216: VCMP, the reductions of a vector into a scalar, and VEXT. -/
def Obligations.CompareAndReduceTable : Prop :=
  ∀ (s : State) (e : Fin 8) (r : Run) (pr : Bool) (g : Fin 8) (ty : VTy) (cc : VCc) (d a b n : Fin 32) (pd : Fin 8) (va vb : Vec) (p : Word),
    s.Issues e r → r.view.regs.rv a = va → r.view.regs.rv b = vb → r.view.regs.rp g = p →
    let lw := laneW ty
    let real := ty ∈ [VTy.i8, .i16, .q15, .i32]
    let x : Nat → Int := fun c => (comp (compW ty) va c).toInt
    let mag : Nat → Int := fun c => (satB (compW ty) (x c).natAbs).toInt
    let on : Nat → Prop := fun c => c < 512 / compW ty ∧ p.getLsbD (govBit ty c) = true
    let least : Int := -(2 ^ (compW ty - 1))
    let test : BitVec lw → BitVec lw → Bool := fun u v => match cc with
      | .eq => u == v
      | .ne => u != v
      | .lt => u.slt v
      | .le => u.sle v
      | .ltu => u.ult v
      | .leu => u.ule v
    (ty ∈ [VTy.i16, .q15, .i32] ∨ (ty = .c16 ∧ (cc = .eq ∨ cc = .ne)) →
      ∃ v : Word, s.Pred (.vcmp e pr g ty cc pd a b) e r pr 1 pd v ∧
        ∀ j k, j < 512 / lw → k < lw / 16 → v.getLsbD (lw / 16 * j + k) = (p.getLsbD (lw / 16 * j) && test (comp lw va j) (comp lw vb j))) ∧
    (real → s.Scalar (.vrsum e pr g ty d a) e r pr 4 1 d
      (BitVec.ofInt 32 ((List.range (512 / compW ty)).map (fun c => if p.getLsbD (govBit ty c) then x c else 0)).sum)) ∧
    (real → ∃ m, s.Scalar (.vrmax e pr g ty d a) e r pr 4 1 d (BitVec.ofInt 32 m) ∧ (∀ c, on c → x c ≤ m) ∧
      ((∃ c, on c ∧ x c = m) ∨ ((∀ c, ¬ on c) ∧ m = least))) ∧
    (real → ∃ m, s.Scalar (.vrmin e pr g ty d a) e r pr 4 1 d (BitVec.ofInt 32 m) ∧ (∀ c, on c → m ≤ x c) ∧
      ((∃ c, on c ∧ x c = m) ∨ ((∀ c, ¬ on c) ∧ m = -least - 1))) ∧
    (ty ∈ [VTy.i16, .q15, .i32, .c16] → ∃ m, s.Scalar (.vramax e pr g ty d a) e r pr 4 1 d (BitVec.ofInt 32 m) ∧ (∀ c, on c → mag c ≤ m) ∧
      ((∃ c, on c ∧ mag c = m) ∨ ((∀ c, ¬ on c) ∧ m = 0))) ∧
    s.Scalar (.vrpwr e pr g d a) e r pr 4 1 d (satB 32 (((List.range 32).map (fun c =>
      if p.getLsbD (c / 2 * 2) then (comp 16 va c).toInt * (comp 16 va c).toInt else 0)).sum / 32768)) ∧
    (ty ∈ [VTy.i8, .i16, .i32, .c16] → s.Scalar (.vext e pr ty d a n) e r pr 2 1 d
      (if n.val < 512 / lw then (comp lw va n).signExtend 32 else 0))

/-- R216: the permutes, the vector moves and the vector load; a VLD whose 64 bytes R167 lets through takes them lane by lane. -/
def Obligations.PermuteAndMoveTable : Prop :=
  ∀ (s : State) (e : Fin 8) (r : Run) (pr : Bool) (g : Fin 8) (ty : VTy) (d a b n : Fin 32) (off : BitVec 12) (va vb : Vec) (x i : Word),
    s.Issues e r → r.view.regs.rv a = va → r.view.regs.rv b = vb → r.view.regs.rs a = x →
    let w := compW ty
    let m := 512 / compW ty
    let p := r.view.regs.rp g
    let at64 := (x + off.signExtend 32 * 64).toNat
    (ty ∈ [VTy.i8, .i16, .i32] →
      s.Lanewise (.vperm e pr g ty d a b) e r pr 2 1 g ty d (fun c => comp _ va ((comp w vb c).toNat % m)) ∧
      s.Lanewise (.vzipl e pr g ty d a b) e r pr 2 1 g ty d (fun c => if c % 2 = 0 then comp _ va (c / 2) else comp _ vb (c / 2)) ∧
      s.Lanewise (.vziph e pr g ty d a b) e r pr 2 1 g ty d (fun c => if c % 2 = 0 then comp _ va (m / 2 + c / 2) else comp _ vb (m / 2 + c / 2)) ∧
      s.Lanewise (.vuzpe e pr g ty d a b) e r pr 2 1 g ty d (fun c => if c < m / 2 then comp _ va (2 * c) else comp _ vb (2 * (c - m / 2))) ∧
      s.Lanewise (.vuzpo e pr g ty d a b) e r pr 2 1 g ty d (fun c => if c < m / 2 then comp _ va (2 * c + 1) else comp _ vb (2 * (c - m / 2) + 1)) ∧
      s.Lanewise (.vrev e pr g ty d a) e r pr 2 1 g ty d (fun c => comp _ va (m - 1 - c)) ∧
      s.Lanewise (.vidx e pr g ty d) e r pr 1 1 g ty d (fun c => BitVec.ofNat _ c)) ∧
    s.Lanewise (.vsld e pr d a b n) e r pr 2 1 0 .i16 d (fun c => if c + n < 32 then comp _ va (c + n) else comp _ vb (c + n - 32)) ∧
    (ty ≠ .c32 → s.Lanewise (.vbcast e pr g ty d a) e r pr 1 1 g ty d (fun c => if ty = .c16 ∧ c % 2 = 1 then x.extractLsb' 16 _ else x.extractLsb' 0 _)) ∧
    (ty ∈ [VTy.i8, .i16, .i32, .c16] → ∃ v, s.Vector (.vins e pr g ty d a n) e r pr 2 1 d v ∧
      ∀ j, j < 512 / laneW ty → comp (laneW ty) v j =
        if j = n ∧ p.getLsbD (laneW ty * j / 16) then x.extractLsb' 0 _ else comp _ (r.view.regs.rv d) j) ∧
    s.Lanewise (.vdupi e d i) e r false 1 2 0 .i32 d (fun _ => i) ∧
    ((s.ctx r.ctx).img.check at64 64 64 false = none →
      s.Lanewise (.vld e pr g d a off) e r pr 1 1 g .i8 d (fun c => memGet r.view.lmem (at64 + c)))

/-- R167, R559: when an access to lmem is let through, and which fault it meets otherwise, in the order ALIGN (3), LMEM_RANGE (1), CONST_WRITE (2): the
declared regions of R166 are STATE, CONST, SCRATCH and CUEINFO, of which CONST and CUEINFO are read only. -/
def Obligations.LmemAccessFaults : Prop :=
  ∀ (im : ImageS) (a n align : Nat) (write : Bool), 0 < n → n ≤ 64 → im.stateSize ≤ 65536 → im.const.length ≤ 65536 → im.scratch ≤ 130816 →
    let inside : Nat → Prop := fun k => k < im.stateSize ∨ (0x10000 ≤ k ∧ k < 0x10000 + im.const.length) ∨
      (0x20000 ≤ k ∧ k < 0x20000 + im.scratch) ∨ (0x3FF00 ≤ k ∧ k < 0x40000)
    let fixed : Nat → Prop := fun k => (0x10000 ≤ k ∧ k < 0x10000 + im.const.length) ∨ (0x3FF00 ≤ k ∧ k < 0x40000)
    let bytes : (Nat → Prop) → Prop := fun p => ∀ k, a ≤ k → k < a + n → p k
    (im.check a n align write = some 3 ↔ a % align ≠ 0) ∧
    (im.check a n align write = some 1 ↔ a % align = 0 ∧ ¬ bytes inside) ∧
    (im.check a n align write = some 2 ↔ a % align = 0 ∧ bytes inside ∧ write = true ∧ ¬ bytes (fun k => ¬ fixed k)) ∧
    (im.check a n align write = none ↔ a % align = 0 ∧ bytes inside ∧ (write = true → bytes (fun k => ¬ fixed k)))

/-- R199: a load, a store, a VLD or a VST whose access meets a fault stops the run at it: the engine runs nothing, the context is TRIPPED, CTX_FAULT
holds the code, the handler and the word of the instruction, CTX_FAULT_STU its stu, and nothing is written to memory or registers. -/
def Obligations.AccessFaultTrips : Prop :=
  ∀ (s : State) (e : Fin 8) (r : Run) (pr : Bool) (g : Fin 8) (d a : Fin 32) (off : BitVec 12) (x : Word) (f : Nat),
    s.Issues e r → s.numbered → (s.ctx r.ctx).mode = .running → r.view.regs.rs a = x →
    let im := (s.ctx r.ctx).img
    let at1 := (x + off.signExtend 32).toNat
    let at2 := (x + off.signExtend 32 * 2).toNat
    let at4 := (x + off.signExtend 32 * 4).toNat
    let at64 := (x + off.signExtend 32 * 64).toNat
    (im.check at1 1 1 false = some f → s.Trips (.lb e pr d a off) e r f ∧ s.Trips (.lbu e pr d a off) e r f) ∧
    (im.check at2 2 2 false = some f → s.Trips (.lh e pr d a off) e r f ∧ s.Trips (.lhu e pr d a off) e r f) ∧
    (im.check at4 4 4 false = some f → s.Trips (.lw e pr d a off) e r f) ∧
    (im.check at64 64 64 false = some f → s.Trips (.vld e pr g d a off) e r f) ∧
    (im.check at1 1 1 true = some f → s.Trips (.sb e pr d a off) e r f) ∧
    (im.check at2 2 2 true = some f → s.Trips (.sh e pr d a off) e r f) ∧
    (im.check at4 4 4 true = some f → s.Trips (.sw e pr d a off) e r f) ∧
    (im.check at64 64 64 true = some f → s.Trips (.vst e pr g d a off) e r f)

/-- R206: the two instructions of a pair read their operands before either writes, and the pair costs the higher of its two: a DIV paired with a VBCAST of
its destination, in either order. -/
def Obligations.PairsReadBeforeEitherWrites : Prop :=
  ∀ (s : State) (e : Fin 8) (r : Run) (g : Fin 8) (d a b : Fin 32) (v : Fin 32),
    s.Issues e r → r.pair = none →
    (∃ t u r1 r2, exec (.divI e true d a b) s = .next t ∧ exec (.vbcast e false g .i32 v d) t = .next u ∧ t.run e = some r1 ∧ u.run e = some r2 ∧
      r2.word = r.word + 2 ∧ r2.cycles = r.cycles + 12 ∧ r2.pair = none ∧
      LanesAre .i32 (r.regs.rp g) (r.regs.rv v) (r2.regs.rv v) (fun _ => r.regs.rs d)) ∧
    (∃ t u r1 r2, exec (.vrsum e true g .i32 d v) s = .next t ∧ exec (.add e false a b d) t = .next u ∧ t.run e = some r1 ∧ u.run e = some r2 ∧
      r2.word = r.word + 2 ∧ r2.cycles = r.cycles + 4 ∧ r2.pair = none ∧
      (a ≠ 0 → r2.regs.rs a = r.regs.rs b + r.regs.rs d))

/-- R217, R218: the branches, JMP, CALL, RET, LOOP and LEND: where the run goes on, at what cost, and what becomes of the open loops and the return words. A
forward branch out of enclosing loops ends them, and a loop that the caller of a function left open goes on; a count of 0 goes on after the matching LEND; a larger sA clamps. -/
def Obligations.FlowTable : Prop :=
  ∀ (s : State) (e : Fin 8) (r : Run) (a : Fin 32) (pa : Fin 8) (off : BitVec 17) (n : BitVec 16) (x p : Word),
    s.Issues e r → r.regs.rs a = x → r.regs.rp pa = p →
    let target := ((r.word : Int) + off.toInt).toNat
    let go : Run := { r with
      word := target, cycles := r.cycles + 3, pair := none
      loops := r.loops.dropWhile (fun l => l.depth == r.calls.length && !(decide (l.first ≤ target) && decide (target ≤ l.lend))) }
    let stay : Run := { r with word := r.word + 1, cycles := r.cycles + 1, pair := none }
    let want := if a = 0 then n.toNat else x.toNat
    let lend := s.lendOf r
    s.Goes (.beqz e a off) e (if x = 0 then go else stay) ∧
    s.Goes (.bnez e a off) e (if x = 0 then stay else go) ∧
    s.Goes (.bltz e a off) e (if x.toInt < 0 then go else stay) ∧
    s.Goes (.bgez e a off) e (if x.toInt < 0 then stay else go) ∧
    s.Goes (.bgtz e a off) e (if 0 < x.toInt then go else stay) ∧
    s.Goes (.blez e a off) e (if 0 < x.toInt then stay else go) ∧
    s.Goes (.bany e pa off) e (if p = 0 then stay else go) ∧
    s.Goes (.bnone e pa off) e (if p = 0 then go else stay) ∧
    s.Goes (.jmp e off) e go ∧
    s.Goes (.callI e off) e { r with word := target, cycles := r.cycles + 3, pair := none, calls := (r.word + 1) :: r.calls } ∧
    (∀ w ws, r.calls = w :: ws → s.Goes (.retI e) e { r with word := w, cycles := r.cycles + 3, pair := none, calls := ws }) ∧
    s.Goes (.loopI e a n) e (if want = 0 ∨ n = 0 then { r with word := lend + 1, cycles := r.cycles + 2, pair := none, clamped := r.clamped || decide (n.toNat < want) }
      else { r with
        word := r.word + 1, cycles := r.cycles + 2, pair := none, clamped := r.clamped || decide (n.toNat < want)
        loops := { first := r.word + 1, lend := lend, left := min want n.toNat - 1, depth := r.calls.length } :: r.loops }) ∧
    (∀ l ls, r.loops = l :: ls → s.Goes (.lend e off) e (if l.left = 0 then { r with word := r.word + 1, pair := none, loops := ls }
      else { r with word := target, pair := none, loops := { l with left := l.left - 1, pass := l.pass + 1 } :: ls }))

/-- R235, R169, R187, R235: END ends the body, after which the run awaits its publish; the END of a handler consumes its cue record, in the run's copy and in
CUEINFO, and the next handler or the body starts at its first word with fresh registers. -/
def Obligations.EndOfSection : Prop :=
  ∀ (s : State) (e : Fin 8) (r : Run), s.Issues e r → r.cues.length = 7 →
    (r.handler = none → r.todo = [] → r.body = false → s.Goes (.endRun e) e { r with ended := true, cycles := r.cycles + 1, pair := none }) ∧
    (∀ k, r.handler = some k → k < 7 → ∃ r1, s.Goes (.endRun e) e r1 ∧ r1.cycles = r.cycles + 1 ∧ r1.pair = none ∧
      (r1.cues.getD k {}).count = 0 ∧ (∀ j, j ≠ k → r1.cues.getD j {} = r.cues.getD j {}) ∧
      (∀ b, memGet r1.lmem b = if 0x3FF00 + 32 * k ≤ b ∧ b < 0x3FF00 + 32 * k + 32 then 0 else memGet r.lmem b) ∧
      (r.todo = [] → r.body = true → r1.handler = none ∧ r1.body = false ∧ r1.word = 0 ∧ r1.loops = [] ∧ r1.calls = [] ∧ r1.ended = false ∧
        (∀ j : Fin 32, r1.regs.rs j = 0) ∧ (∀ j : Fin 32, r1.regs.rv j = 0)) ∧
      (∀ j js, r.todo = j :: js → j ≠ k → r1.handler = some j ∧ r1.todo = js ∧ r1.body = r.body ∧ r1.word = 0 ∧ r1.loops = [] ∧ r1.calls = [] ∧ r1.ended = false ∧
        r1.regs.rs 2 = BitVec.ofNat 32 (r.cues.getD j {}).count) ∧
      (r.todo = [] → r.body = false → r1.ended = true))

/-- R219: HIN and HOUT move n bytes between EXT and the run's STATE or SCRATCH: n is the declared maximum with C = s0, else sC held to the maximum and rounded
down to 64; the cost is that of the maximum. -/
def Obligations.Hauls : Prop :=
  ∀ (s : State) (e : Fin 8) (r : Run) (a b c : Fin 32) (n10 : Fin 1024) (la eb v : Nat),
    s.Issues e r → r.pair = none → (r.regs.rs a).toNat = la → (r.regs.rs b).toNat = eb → (r.regs.rs c).toNat = v →
    let x := s.ctx r.ctx
    let most := (n10.val + 1) * 64
    let n := if c = 0 ∨ most < v then most else v / 64 * 64
    let k := max n 64
    let clamped := r.clamped || decide (c ≠ 0 ∧ most < v)
    la % 64 = 0 → eb % 64 = 0 → eb + k ≤ x.img.ext → (la + k ≤ x.img.stateSize ∨ (0x20000 ≤ la ∧ la + k ≤ 0x20000 + x.img.scratch)) →
    let r1 : Run := { r with
      word := r.word + 1, cycles := r.cycles + 8 + most / 64, clamped := clamped, moved := modifyAt r.moved 16 (fun m => m + n) }
    s.Goes (.hin e a b c n10) e { r1 with lmem := memWrite r.lmem la (memRead x.ext eb n) } ∧
    s.GoesCtx (.hout e a b c n10) e r1 r.ctx { x with ext := memWrite x.ext eb (memRead r.lmem la n) }

/-- R234: CUERD copies a cue record of the run to memory and clears it, CUECLR clears one, CUEPEND shows which are pending, TIMER arms, replaces or disarms
the deadline, AGCREL ends a hold from the issue stu. -/
def Obligations.CueInstructions : Prop :=
  ∀ (s : State) (e d8 : Fin 8) (r : Run) (d a : Fin 32) (k : Fin 7) (sa : Nat),
    s.Issues e r → r.pair = none → r.cues.length = 7 → (r.regs.rs a).toNat = sa →
    let x := s.ctx r.ctx
    let q := r.cues.getD k {}
    let r1 : Run := { r with word := r.word + 1, cycles := r.cycles + 2 }
    let due := (r.regs.rs a).toNat + 2 ^ 32 * (r.regs.rs (a + 1 : Nat)).toNat
    (x.img.check sa 32 32 true = none → ∃ r2, s.Goes (.cuerd e d8 k a) e r2 ∧ r2.word = r.word + 1 ∧ r2.cycles = r.cycles + 2 ∧
      r.regs.PredSet r2.regs d8 (if q.count = 0 then 0 else 0xFFFFFFFF) ∧ (r2.cues.getD k {}).count = 0 ∧ (∀ j, j ≠ k.val → r2.cues.getD j {} = r.cues.getD j {}) ∧
      (∀ i, i < 32 → memGet r2.lmem (sa + i) = (cueBytes k q).getD i 0) ∧
      (∀ i, i < 32 → memGet r2.lmem (0x3FF00 + 32 * k + i) = 0) ∧
      (∀ b, (b < sa ∨ sa + 32 ≤ b) → (b < 0x3FF00 + 32 * k ∨ 0x3FF00 + 32 * k + 32 ≤ b) → memGet r2.lmem b = memGet r.lmem b)) ∧
    (∃ r2, s.Goes (.cueclr e k) e r2 ∧ r2.word = r.word + 1 ∧ r2.cycles = r.cycles + 2 ∧ r2.regs = r.regs ∧ (r2.cues.getD k {}).count = 0 ∧
      (∀ j, j ≠ k.val → r2.cues.getD j {} = r.cues.getD j {}) ∧
      (∀ b, memGet r2.lmem b = if 0x3FF00 + 32 * k ≤ b ∧ b < 0x3FF00 + 32 * k + 32 then 0 else memGet r.lmem b)) ∧
    (∃ v : Word, s.Scalar (.cuepend e d) e r false 2 1 d v ∧
      (∀ j, j < 7 → v.getLsbD j = decide ((r.cues.getD j {}).count ≠ 0)) ∧ (∀ j, 7 ≤ j → v.getLsbD j = false)) ∧
    (a = 0 → s.GoesCtx (.timerI e a) e r1 r.ctx { x with timer := none }) ∧
    (a ≠ 0 → (s.at (s.issueStu r)).now < due → s.GoesCtx (.timerI e a) e r1 r.ctx { x with timer := some due }) ∧
    (x.chain.held = true → s.GoesCtx (.agcrel e) e r1 r.ctx { x with chain := { x.chain with release := some (s.at (s.issueStu r)).now } }) ∧
    (x.chain.held = false → s.Goes (.agcrel e) e r1)

/-- R235: RINF writes the value its selection names, LCNT the pass number of an open loop or all ones, and BRK does nothing where SE debug is not enabled; where the
owner enabled it, it logs the context, the section, the word and the stu (R522). -/
def Obligations.SystemInstructions : Prop :=
  ∀ (s : State) (e : Fin 8) (r : Run) (d k : Fin 32), s.Issues e r → r.pair = none →
    let x := s.ctx r.ctx
    let fence := r.tick * 2048000
    let value : Nat → Nat := fun sel => match sel with
      | 0 => r.ctx
      | 1 => x.stride
      | 2 => x.phase
      | 3 => r.tick
      | 4 => r.tick / 2 ^ 32
      | 5 => fence
      | 6 => fence / 2 ^ 32
      | 7 => x.prio
      | 8 => s.fget Reg.LDG_STAT_GRADE
      | _ => (s.rget Reg.CCS_TICKCYC).toNat
    (∀ sel : Fin 32, sel.val < 10 → s.Scalar (.rinf e d sel) e r false 2 1 d (BitVec.ofNat 32 (value sel))) ∧
    (∀ l, r.loops[k.val]? = some l → s.Scalar (.lcnt e d k) e r false 2 1 d (BitVec.ofNat 32 l.pass)) ∧
    (r.loops.length ≤ k → s.Scalar (.lcnt e d k) e r false 2 1 d 0xFFFFFFFF) ∧
    (s.flag (Reg.SE_DBG_BRKEN e) = false → s.Goes (.brkI e) e { r with word := r.word + 1, cycles := r.cycles + 2 }) ∧
    (s.flag (Reg.SE_DBG_BRKEN e) = true → ∃ t, exec (.brkI e) s = .next t ∧ t.run e = some { r with word := r.word + 1, cycles := r.cycles + 2 } ∧
      (r.ctx < 256 → fieldOf (t.rget (Reg.SE_BRK e)) 31 24 = r.ctx) ∧ (r.word < 8192 → fieldOf (t.rget (Reg.SE_BRK e)) 12 0 = r.word) ∧
      fieldOf (t.rget (Reg.SE_BRK e)) 23 23 = (if r.handler.isSome then 1 else 0) ∧
      (t.now < 2 ^ 64 → t.rget64 (Reg.SE_BRKSTU_LO e) = t.now))

/-- R178, R179, R180, R220: QRDC takes from a CHAIN queue, and QRD from a CTXOUT or BURST queue, the oldest whole entries below the run's fence, as many as the port's
declared bytes leave room for: what is left begins with an entry at or past the fence, or one too large for the room. The counts go to the scalar pair.
Where a read gives a BURST ring that lost entries room again, their LOST entry goes in (R177, R307). -/
def Obligations.QueueReads : Prop :=
  ∀ (s : State) (e : Fin 8) (r : Run) (d : Fin 32) (q : Fin 16) (a b c : Fin 32) (sa sb sc : Nat),
    s.Issues e r → r.pair = none → (r.regs.rs a).toNat = sa → (r.regs.rs b).toNat = sb → (r.regs.rs c).toNat = sc →
    let x := s.ctx r.ctx
    let most := x.portMost q
    let cost := 4 + (most + 63) / 64
    let room := most - r.moved.getD q 0
    let fence := r.tick * 2048000
    (x.img.check sa (4 * (most / 4)) 16 true = none → x.img.check sb (most / 4) 1 true = none → x.img.check sc most 16 true = none →
      ∃ t r1 z rest taken, exec (.qrdc e d q a b c) s = .next t ∧ t.run e = some r1 ∧
        (if x.portKind q = 1 then ringRuns x.ring else []) = taken ++ rest ∧
        z = taken.foldl ReadS.entry { agcg := x.lastAgcg, mark := x.lastMark } ∧
        (∀ en ∈ taken, headStu en < fence) ∧ sumN (taken.map entryBytes) ≤ room ∧
        (∀ en tl, rest = en :: tl → fence ≤ headStu en ∨ room < sumN (taken.map entryBytes) + entryBytes en) ∧
        r1.word = r.word + 1 ∧ r1.cycles = r.cycles + cost ∧ r1.pair = none ∧
        r1.lmem = memWrite (memWrite (memWrite r.lmem sa z.samples) sb z.flags) sc z.entries ∧
        r1.regs = (r.regs.setS d (BitVec.ofNat 32 z.flags.length)).setS (d + 1) (BitVec.ofNat 32 (z.entries.length / 16)) ∧
        (x.portKind q = 1 → (t.ctx r.ctx).ring = rest.flatten ∧ (t.ctx r.ctx).lastAgcg = z.agcg ∧ (t.ctx r.ctx).lastMark = z.mark) ∧
        (∀ k, k ≠ e.val → t.run k = s.run k) ∧ (∀ m, m ≠ r.ctx → t.ctx m = s.ctx m) ∧
        (∀ g, g ≠ Reg.CTX_QSTAT r.ctx 0 → g ≠ Reg.CTX_QSTAT r.ctx 0 + 4 → t.rget g = s.rget g)) ∧
    (x.img.check sa most 16 true = none → (x.portKind q = 2 ∨ x.portKind q = 7) → q < x.ports.length →
      ∃ t r1 rest taken, exec (.qrd e d q a) s = .next t ∧ t.run e = some r1 ∧ s.OnlyEngineCtx t e r.ctx ∧
        (x.ports.getD q {}).queue = taken ++ rest ∧
        (∀ en ∈ taken, belowFence r.tick (x.portKind q) en = true) ∧ sumN (taken.map (fun en => en.2.bytes.length)) ≤ room ∧
        (∀ en tl, rest = en :: tl → belowFence r.tick (x.portKind q) en = false ∨ room < sumN (taken.map (fun en => en.2.bytes.length)) + en.2.bytes.length) ∧
        r1.word = r.word + 1 ∧ r1.cycles = r.cycles + cost ∧ r1.pair = none ∧
        r1.lmem = memWrite r.lmem sa (taken.map (fun en => en.2.bytes)).flatten ∧
        r1.regs = (r.regs.setS d (BitVec.ofNat 32 (taken.map (fun en => en.2.bytes)).flatten.length)).setS (d + 1) (BitVec.ofNat 32 taken.length) ∧
        (let back := x.portKind q = 7 ∧ (x.ports.getD q {}).lostNow ≠ 0 ∧ queueBytes rest + 16 ≤ 64 * s.burstMost r.ctx
         (back → ∃ u, ((t.ctx r.ctx).ports.getD q {}).queue =
             rest ++ [(s.time.tick, { stu := u, kind := 9, param := (x.ports.getD q {}).lostNow, qual := (s.at (s.issueStu r)).qualAt u })] ∧
           ((t.ctx r.ctx).ports.getD q {}).lostNow = 0) ∧
         (¬ back → ((t.ctx r.ctx).ports.getD q {}).queue = rest ∧ ((t.ctx r.ctx).ports.getD q {}).lostNow = (x.ports.getD q {}).lostNow)) ∧
        (∀ j, j ≠ q.val → (t.ctx r.ctx).ports.getD j {} = x.ports.getD j {}))

/-- R175, R177, R220: QWR appends one record, with the STU of the scalar pair or the fence for s0, and pd becomes all ones; where entries were discarded before, one LOST
record with their number goes first; each carries the quality words of its stu (R53). On a full ring the entry is discarded and counted, and pd becomes 0. -/
def Obligations.QueueWrites : Prop :=
  ∀ (s : State) (e d : Fin 8) (q : Fin 16) (r : Run) (a b c : Fin 32) (sa : Nat),
    s.Issues e r → r.pair = none → (r.regs.rs a).toNat = sa →
    let x := s.ctx r.ctx
    let len := (r.regs.rs b).toNat % 8192
    let size := 16 + (len + 15) / 16 * 16
    let port := x.ports.getD q {}
    let lost := port.lostNow
    let y := s.at (s.issueStu r)
    let stamp := if c = 0 then r.tick * 2048000 else (r.regs.rs c).toNat + 2 ^ 32 * (r.regs.rs (c + 1 : Nat)).toNat
    let record : Rec := { stu := stamp, qual := y.qualAt stamp
                          payload := memRead r.lmem sa len, param := (r.regs.rs b).toNat / 65536 }
    let cost := 4 + (x.portMost q + 63) / 64
    let room := s.ringFits r.ctx q (r.unpublished q + (if lost = 0 then 0 else 16) + size)
    x.img.check sa len 16 false = none → len ≤ 4096 → r.moved.getD q 0 + size ≤ x.portMost q → q < x.ports.length →
    (room = true → ∃ t r1, exec (.qwr e d q a b c) s = .next t ∧ t.run e = some r1 ∧ s.OnlyEngineCtx t e r.ctx ∧
      r1.word = r.word + 1 ∧ r1.cycles = r.cycles + cost ∧ r1.lmem = r.lmem ∧ r.regs.PredSet r1.regs d 0xFFFFFFFF ∧
      (lost = 0 → r1.out = r.out ++ [(q.val, record)]) ∧
      (lost ≠ 0 → r1.out = r.out ++ [(q.val, { stu := y.now, kind := 9, param := lost, qual := y.qualAt y.now }), (q.val, record)]) ∧
      ((t.ctx r.ctx).ports.getD q {}).lostNow = 0) ∧
    (room = false → ∃ t r1, exec (.qwr e d q a b c) s = .next t ∧ t.run e = some r1 ∧ s.OnlyEngineCtx t e r.ctx ∧
      r1.word = r.word + 1 ∧ r1.cycles = r.cycles + cost ∧ r1.lmem = r.lmem ∧ r.regs.PredSet r1.regs d 0 ∧ r1.out = r.out ∧
      ((t.ctx r.ctx).ports.getD q {}).lostNow = lost + 1)

/-- R184, R222, R224, R225: a JOB within its declared maximum, with a descriptor that passes R233, starts: a span-0 job is kept with its descriptor and its inputs as they stand;
a span-k job shows STATUS 0xFFFFFFFF in EXT and is kept with its context. JWAIT of a tag with a job outstanding costs the job's bound U + 64 and takes the job away; of a tag with none it
retires at once; of a tag whose job is lost with its unit (R264), the run is cut. -/
def Obligations.JobsAreIssuedAndAwaited : Prop :=
  ∀ (s : State) (e tag : Fin 8) (kind : Fin 6) (cls : Fin 16) (span : Fin 256) (r : Run) (a : Fin 32) (sa : Nat),
    s.Issues e r → r.pair = none → (r.regs.rs a).toNat = sa →
    let x := s.ctx r.ctx
    let d := memRead r.lmem sa 32
    let job : Job := { tag := tag, kind := kind, cls := cls, span := span, unit := x.unit kind, tick := r.tick, issue := (s.at (s.issueStu r)).now, desc := d
                       inputs := (jobPlan kind cls d).ins.map (jobRead r.lmem x.ext) }
    (r.issued.getD kind 0 < (x.img.jobs.getD kind (0, 0)).1 → sa % 32 = 0 → x.img.covers 4 sa 32 = true → x.img.jobOk kind cls span d = true →
      ∃ t, exec (.jobI e tag kind cls span a) s = .next t ∧ t.regs = s.regs ∧ (∀ k, k ≠ e.val → t.run k = s.run k) ∧ (∀ m, m ≠ r.ctx → t.ctx m = s.ctx m) ∧
        (span = 0 → t.run e = some { r with word := r.word + 1, cycles := r.cycles + 6, issued := modifyAt r.issued kind (· + 1), jobs := r.jobs ++ [job] } ∧
          t.ctxs = s.ctxs) ∧
        (span ≠ 0 → t.run e = some { r with word := r.word + 1, cycles := r.cycles + 6, issued := modifyAt r.issued kind (· + 1) } ∧
          t.ctx r.ctx = { x with jobs := x.jobs ++ [job], ext := memWrite x.ext (leAt d 12 4 % 2 ^ 31) [0xFF, 0xFF, 0xFF, 0xFF] })) ∧
    (r.jobs.find? (fun j => j.tag == tag.val) = none → s.Goes (.jwait e tag) e { r with word := r.word + 1 }) ∧
    (∀ j, r.jobs.find? (fun j => j.tag == tag.val) = some j → s.jobLost j = true → ∃ t, exec (.jwait e tag) s = .next t ∧ t.run e = none) ∧
    (∀ j, r.jobs.find? (fun j => j.tag == tag.val) = some j → s.jobLost j = false → ∃ t r1, exec (.jwait e tag) s = .next t ∧ t.run e = some r1 ∧
      r1.word = r.word + 1 ∧ r1.cycles = r.cycles + jobU j.kind j.cls + 64 ∧ r1.regs = r.regs ∧
      (∀ k ∈ r1.jobs, k.tag ≠ tag.val) ∧ (∀ k ∈ r.jobs, k.tag ≠ tag.val → k ∈ r1.jobs))

/-- R224, R225, R232: a SHA-256 job writes the digest of the bytes it saw at its issue to its output, and then its completion record: STATUS 0, RESULT 0 and the stu; a span-0 job at
the JWAIT of its tag, a span-k job in its context's EXT. -/
def Obligations.JobsWriteOutputThenRecord : Prop :=
  ∀ (s : State) (e tag : Fin 8) (r : Run) (n : Fin 256) (ix t0 : Nat) (j : Job),
    j.kind = 5 → leAt j.desc 1 1 = 0 →
    let out := leAt j.desc 8 4
    let status := leAt j.desc 12 4
    (s.Issues e r → r.pair = none → r.jobs.find? (fun j => j.tag == tag.val) = some j → s.jobLost j = false → out < 2 ^ 31 → status < 2 ^ 31 →
      ∃ t r1 u, exec (.jwait e tag) s = .next t ∧ t.run e = some r1 ∧
        r1.lmem = memWrite (memWrite r.lmem out (sha256 (j.inputs.headD []))) status (leBytes 0 4 ++ leBytes 0 4 ++ leBytes u 8) ∧ s.OnlyEngineCtx t e r.ctx ∧
        (t.ctx r.ctx).ext = (s.ctx r.ctx).ext) ∧
    ((s.ctx n).jobs[ix]? = some j → s.jobLost j = false → 2 ^ 31 ≤ out → out < 2 ^ 32 → 2 ^ 31 ≤ status → status < 2 ^ 32 →
      ∃ t, exec (.jobComplete n ix t0) s = .next t ∧ (t.ctx n).jobs = (s.ctx n).jobs.eraseIdx ix ∧
        (t.ctx n).ext = memWrite (memWrite (s.ctx n).ext (out - 2 ^ 31) (sha256 (j.inputs.headD []))) (status - 2 ^ 31)
          (leBytes 0 4 ++ leBytes 0 4 ++ leBytes t.now 8))

/-- R226: the unit times of the job kinds by their size classes; a JOB word of a class that is not listed is no defined encoding; a JWAIT of an outstanding job costs its
latency bound U + 64; packed bits have the first bit in bit 7 of byte 0; and a coded bit of 0 adds its log-likelihood ratio to a path, one of 1 takes it off. -/
def Obligations.JobUnitTimes : Prop :=
  (∀ cls, cls ≤ 9 → jobU 0 cls = 2 ^ (6 + cls) / 16 * (6 + cls) + 48) ∧
  (∀ cap : Fin 8, jobU 1 (2 * cap) = 16200 * [8, 12, 16, 20, 24, 32, 40, 50].getD cap 0 / 8 + 256 ∧
    jobU 1 (2 * cap + 1) = 64800 * [8, 12, 16, 20, 24, 32, 40, 50].getD cap 0 / 8 + 256) ∧
  (∀ cls, cls ≤ 7 → jobU 2 cls = 256 * 2 ^ cls + 96) ∧
  (∀ w : Fin 4, jobU 3 w = 4 ^ w.val * 320 + 64 ∧ jobU 3 (4 + w) = 4 ^ w.val * 1100 + 64 ∧ jobU 3 (8 + w) = 4 ^ w.val * 4200 + 64) ∧
  (∀ rl xl : Fin 4, jobU 4 (4 * rl + xl) = [4096, 16384, 32768, 65536].getD xl 0 / 16 * 2 ^ rl.val + 64) ∧
  (∀ z : Fin 4, let bytes := [256, 1024, 4096, 16384].getD z 0
    jobU 5 z = 64 * (bytes / 64) + 96 ∧ jobU 5 (4 + z) = 20 * (bytes / 64) + 160 ∧ jobU 5 (12 + z) = 48 * (bytes / 32) + 96) ∧ jobU 5 8 = 180000 ∧
  (∀ (i : Nat) (w : Word), fieldOf w 31 26 = 0x30 →
    let cls := fieldOf w 13 10
    let kind := fieldOf w 16 14
    (kind = 0 ∧ 10 ≤ cls) ∨ (kind = 2 ∧ 8 ≤ cls) ∨ (kind = 3 ∧ 12 ≤ cls) ∨ (kind = 5 ∧ 9 ≤ cls ∧ cls ≤ 11) ∨ 6 ≤ kind → decodeWord i w = none) ∧
  (∀ (s : State) (e tag : Fin 8) (r : Run) (j : Job), s.Issues e r → r.pair = none → r.jobs.find? (fun j => j.tag == tag.val) = some j →
    s.jobLost j = false → ∃ t r1, exec (.jwait e tag) s = .next t ∧ t.run e = some r1 ∧ r1.cycles = r.cycles + (jobU j.kind j.cls + 64)) ∧
  (∀ (l : List Bool) (j i : Nat), i < 8 → bitOf ((packBits l).getD j 0).toNat (7 - i) = l.getD (8 * j + i) false) ∧
  (∀ (g reg : Nat) (x : Int), branchGain [g] [x] reg = if parity7 (g &&& reg) then -x else x)

/-- R164, R169, R178, R187, R286: a run of tick N starts on its home engine (in grade G5 on the engine that is powered, log entry 81) with its state copy, the CONST region, the cue records taken in CUEINFO, zeroed registers and the fence of tick N; its
first section is the first pending handler, whose registers hold the cue record, or else the body, where the plan in force lists it (R237, R266); the cycles of its entry are charged (R193)
and its run cost is kept (R188, R260). The records of the context are then empty. -/
def Obligations.RunStarts : Prop :=
  ∀ (s : State) (n : Fin 256) (u : Nat) (slot : Option (Fin 7)), s.runs.length = 8 →
    let y := s.at u
    let x := s.ctx n
    y.mayStart n (slot.map (·.val)) = true →
    let h := s.engineOf n
    y.engHealthy h = true → h < 8 →
    let kinds := x.kindsDue (slot.map (·.val))
    let due := slot = none ∧ y.bodyListed n = true
    let fresh : Run := { ctx := n, tick := s.time.tick, slot := slot.map (·.val), start := y.now, body := false, cues := x.cues, before := (x.lastAgcg, x.lastMark)
                         cycles := 64 + ceilDiv x.img.code 64 + ceilDiv x.img.const.length 64 + ceilDiv x.img.stateSize 64 + ceilDiv x.img.scratch 64
                         lmem := x.state ++ memOf 0x10000 x.img.const ++ memOf 0x3FF00 (cueInfo x.cues) }
    (kinds = [] → due → ∃ t, exec (.runStart n slot u) s = .next t ∧ t.run h = some { fresh with most := x.runMost [] true } ∧ (t.ctx n).cues = List.replicate 7 {}) ∧
    (∀ k ks, kinds = k :: ks → ∃ t r, exec (.runStart n slot u) s = .next t ∧ t.run h = some r ∧ (t.ctx n).cues = List.replicate 7 {} ∧
      (due → r = { fresh with handler := some k, todo := ks, body := true, most := x.runMost kinds true, regs := handlerRegs k (x.cues.getD k {}) }) ∧
      (¬ due → r = { fresh with handler := some k, todo := ks, most := x.runMost kinds false, regs := handlerRegs k (x.cues.getD k {}) })) ∧
    (∀ t, exec (.runStart n slot u) s = .next t → (∀ e, e ≠ h → t.run e = s.run e) ∧ (∀ m, m ≠ n.val → t.ctx m = s.ctx m))

/-- R169, R171: a run that has ended publishes: the engine runs nothing, the context's state copy is the run's STATE, CTX_RUNS counts it, CTX_STAT shows whether it clamped, and cue
records it took and did not serve go back. The other engines run on. -/
def Obligations.RunsPublish : Prop :=
  ∀ (s : State) (e : Fin 8) (r : Run) (u : Nat), s.shaped → s.run e = some r → r.ended = true → r.ctx < 256 → r.out = [] →
    ∃ t, exec (.runPublish e u) s = .next t ∧ t.run e = none ∧ (∀ k, k ≠ e.val → t.run k = s.run k) ∧
      (t.ctx r.ctx).state = memPart r.lmem 0 (s.ctx r.ctx).img.stateSize ∧
      (∀ k, k < 7 → (t.ctx r.ctx).cues.getD k {} = (r.cues.getD k {}).join k ((s.ctx r.ctx).cues.getD k {})) ∧
      t.flag (Reg.CTX_STAT_CLAMPED r.ctx) = r.clamped ∧
      (t.rget (Reg.CTX_RUNS r.ctx)).toNat = min 0xFFFFFFFF ((s.rget (Reg.CTX_RUNS r.ctx)).toNat + 1) ∧
      (∀ m, m ≠ r.ctx → t.ctx m = s.ctx m)

/-- R260, R264: an engine whose run has not reached END within its cost and 1024 cycles, or that reports a memory error, fails: its run is cut and F2 code 0x2001 is logged with its number;
an accelerator unit that misses its bound fails with 0x2002 and the span-k jobs on it are lost; a run that waits for a lost job goes on to its JWAIT (which cuts it, JobsAreIssuedAndAwaited). The sequencer knows it from the next boundary that R15 allows. -/
def Obligations.UnitsFail : Prop :=
  ∀ (s : State) (e : Fin 8) (r : Run) (u : Nat) (tag : Nat) (j : Job), s.shaped → s.run e = some r → (s.seq.engs.getD e {}).failed = false → (s.seq.engs.getD e {}).st = 0 →
    s.seq.engs.length = 8 → s.numbered → r.ctx < 256 →
    let known := (s.at u).boundaryTick - 1
    let fails : Instr → Prop := fun i => ∃ t, exec i s = .next t ∧ t.run e = none ∧ (t.seq.engs.getD e {}).failed = true ∧ (t.seq.engs.getD e {}).knownTick = some known ∧
      t.Logged 0x2001 e 0xFF 0
    fails (.engineMemoryError e u) ∧
    (r.ended = false → (s.at u).coreSafe = s.seq.wasSafe →
      (s.at u).issueStu { r with pair := none, cycles := r.most + 1024 } ≤ (s.at u).now → fails (.engineRunTimeout e u)) ∧
    (r.jobs.find? (fun j => j.tag == tag) = some j → (s.at u).jobLate j = true →
      j.unit < s.seq.accs.length → (s.seq.accs.getD j.unit {}).failed = false → (s.seq.accs.getD j.unit {}).st = 0 →
      ∃ t, exec (.accJobTimeout (some e) 0 tag u) s = .next t ∧ (∀ k, t.run k = s.run k) ∧ t.Logged 0x2002 j.unit 0xFF 0 ∧ (t.seq.accs.getD j.unit {}).failed = true ∧
        (t.seq.accs.getD j.unit {}).knownTick = some known) ∧
    (∀ (n : Fin 256) (ix : Nat), (s.ctx n).jobs[ix]? = some j → (s.at u).jobLate j = true →
      j.unit < s.seq.accs.length → (s.seq.accs.getD j.unit {}).failed = false → (s.seq.accs.getD j.unit {}).st = 0 →
      ∃ t, exec (.accJobTimeout none n ix u) s = .next t ∧
        (∀ m ∈ s.openCtxs, (t.ctx m).jobs = (s.ctx m).jobs.filter (fun k => k.unit != j.unit)) ∧ (t.seq.accs.getD j.unit {}).failed = true ∧
        (t.seq.accs.getD j.unit {}).knownTick = some known ∧ t.Logged 0x2002 j.unit 0xFF 0)

/-- R186, R202: the cues that time and software raise: the armed deadline disarms and raises cue 4 at its stu; a doorbell raises cue 6 with its value as INFO. A record counts up, keeps its first
stu and takes the last; CTX_STAT.CUEPEND is 1. -/
def Obligations.CuesAreRaised : Prop :=
  ∀ (s : State) (n : Fin 256) (p : Fin 4) (v : Word) (u k d : Nat),
    let x := s.ctx n
    let added : Cue → Nat → Nat → Cue := fun q at1 info =>
      { count := min 65535 (q.count + 1), first := if q.count = 0 then at1 else q.first, last := at1, info := info, late := q.late }
    x.mode ≠ .closed → x.mode ≠ .tripped → x.cues.length = 7 →
    (x.timer = some d → x.handler 4 = none → ∃ t, exec (.timerCue n) s = .next t ∧ (t.ctx n).timer = none ∧
      (t.ctx n).cues.getD 4 {} = added (x.cues.getD 4 {}) (s.afterSkip d) 0 ∧ t.flag (Reg.CTX_STAT_CUEPEND n) = true ∧
      (∀ m, m ≠ n.val → t.ctx m = s.ctx m) ∧ t.runs = s.runs) ∧
    (s.Serves p k (Reg.CTX_DOORBELL n) u → x.handler 6 = none → ∃ t, exec (.ctxDoorbell p n v u) s = .next t ∧
      (t.ctx n).cues.getD 6 {} = added (x.cues.getD 6 {}) (s.at u).now v.toNat ∧ t.flag (Reg.CTX_STAT_CUEPEND n) = true ∧
      (∀ m, m ≠ n.val → t.ctx m = s.ctx m) ∧ t.runs = s.runs)

/-- R132, R202, R248: until the OPEN of a context is accepted its owner's writes of CTX_IMAGE, CTX_RUN and the CHN registers are plain; from the acceptance on CTX_IMAGE keeps its value, CHN_SRC to
CHN_FIR keep theirs and CFG_REFUSED is set. -/
def Obligations.SettingsFreezeAtTheOpen : Prop :=
  ∀ (s : State) (n : Fin 256) (p : Fin 4) (v : Word) (u k : Nat) (w : Fin 5) (b : Fin 2) (ix : Fin 256),
    let y := s.at u
    let chn := Reg.CHN_SRC n + 4 * w
    let coef := 0x100F000 + 0x10000 * n.val + 0x400 * b.val + 4 * ix.val
    (s.Serves p k (Reg.CTX_IMAGE n) u →
      exec (.ctxImageWrite p n v u) s = .next (if s.busyCtx n then y else y.wr (Reg.CTX_IMAGE n) v)) ∧
    (s.Serves p k (Reg.CTX_RUN n) u → s.busyCtx n = false → exec (.ctxRunWrite p n v u) s = .next (y.wr (Reg.CTX_RUN n) v)) ∧
    (s.Serves p k chn u →
      exec (.chnConfigWrite p n w v u) s = .next (if s.busyCtx n then y.evt (Reg.CHN_EVT_CFG_REFUSED n) else y.wr chn v)) ∧
    (s.Serves p k (coef) u → ix.val < 192 → s.busyCtx n = false →
      ∃ t, exec (.coefWrite p n b ix v u) s = .next t ∧ t.rdCoef n b ix = BitVec.signExtend 32 (v.truncate 18) ∧
        (∀ c : Fin 2, ∀ j : Fin 192, (c ≠ b ∨ j.val ≠ ix.val) → t.rdCoef n c j = s.rdCoef n c j) ∧ t.regs = s.regs) ∧
    (s.Serves p k (coef) u → 192 ≤ ix.val → exec (.coefWrite p n b ix v u) s = .next y)

/-- R108, R120, R123, R124, R129, R132, R562: the owner's writes of the request registers of an open chain become requests for the boundary of R15, and of a chain whose OPEN waits at the earliest for that of the open: NCO words, an AGC word the fabric can hold, an armed
SYNC, a bank swap (held as the pending swap where none runs or waits). A coefficient bank in use is not written and BANK_BUSY is set. -/
def Obligations.ChainRequests : Prop :=
  ∀ (s : State) (n : Fin 256) (p : Fin 4) (ph : Bool) (v : Word) (u k : Nat) (b : Fin 2) (ix : Fin 256), s.busyCtx n = true →
    let y := s.at u
    let c := (s.ctx n).chain
    let due := max (if y.now ≤ s.afterSkip (s.time.tick * 2048000 + 1792000) then s.time.tick + 1 else s.time.tick + 2) (s.openTick n)
    let nco := if ph then Reg.CHN_NCO_PH n else Reg.CHN_NCO_FTW n
    let coef := 0x100F000 + 0x10000 * n.val + 0x400 * b.val + 4 * ix.val
    let agc := s.chnMod n (fun c => { c with costAgc := c.costAgc || v.getLsbD 31 })
    let swap : SwapReq := { target := (v.toNat / 256) % 2, fade := v.getLsbD 4, k := max 3 (min 12 (v.toNat % 16)), accept := y.stamp, due := due }
    let bank := s.chnMod n (fun c => { c with pend := some swap })
    (s.Serves p k nco u → ∃ t, exec (.chnNcoWrite p n ph v u) s = .next t ∧ t.regs = (s.wr nco v).regs ∧ t.ctxs = s.ctxs ∧
      t.reqs = s.reqs ++ [{ due := due, accept := y.stamp, tenant := k, kind := .reg nco v }]) ∧
    (s.Serves p k (Reg.CHN_AGC n) u → (agc.ctx n).cost ≤ (s.ctx n).cost ∨ agc.fabricSum ≤ 131072000 →
      ∃ t, exec (.chnAgcWrite p n v u) s = .next t ∧ t.regs = (s.wr (Reg.CHN_AGC n) v).regs ∧ (t.ctx n).chain = { c with costAgc := c.costAgc || v.getLsbD 31 } ∧
        t.reqs = s.reqs ++ [{ due := due, accept := y.stamp, tenant := k, kind := .reg (Reg.CHN_AGC n) v }]) ∧
    (s.Serves p k (Reg.CHN_SYNC_HI n) u → v.getLsbD 31 = true →
      let tick := (v.toNat % 2 ^ 16) * 2 ^ 32 + (s.rget (Reg.CHN_SYNC_LO n)).toNat
      ∃ t, exec (.chnSyncArm p n v u) s = .next t ∧ (tick < due → t.flag (Reg.CHN_EVT_SYNC_LATE n) = true) ∧ (due ≤ tick → t.regs = (s.wr (Reg.CHN_SYNC_HI n) v).regs) ∧
        t.reqs = s.reqs ++ [{ due := max tick due, accept := y.stamp, tenant := k, kind := .reg (Reg.CHN_SYNC_HI n) v }] ∧ t.ctxs = s.ctxs) ∧
    (s.Serves p k (Reg.CHN_BANK n) u → v.getLsbD 31 = true → c.queued = none → c.pend = none → c.planned = none → c.fade = none →
      (bank.ctx n).cost ≤ (s.ctx n).cost ∨ bank.fabricSum ≤ 131072000 →
      ∃ t, exec (.chnBankReq p n v u) s = .next t ∧ t.reqs = s.reqs ∧
        (t.ctx n).chain = { c with pend := some swap }) ∧
    (s.Serves p k coef u → s.isOpen n = true → ix.val < 192 → (c.bank = b.val ∨ c.fade ≠ none) →
      exec (.coefWrite p n b ix v u) s = .next (y.evt (Reg.CHN_STAT_BANK_BUSY n)))

/-- R125, R127, R128: the end of a cross-fade puts the new bank in force with its event and CHN_FADE_END; a group's end sets the gain of the next group, and a held or disabled AGC keeps it; a hold
that has run out is released with its event. -/
def Obligations.ChainEventsAtOutputs : Prop :=
  ∀ (s : State) (n : Fin 256) (f : FadeS) (g : Nat),
    let c := (s.ctx n).chain
    (c.fade = some f → f.m ≤ f.done → c.lastOut < 2 ^ 64 → ∃ t, exec (.fadeEnd n) s = .next t ∧ (t.ctx n).chain = { c with fade := none, bank := f.target } ∧
      t.flag (Reg.CHN_EVT_FADE_DONE n) = true ∧ t.rget64 (Reg.CHN_FADE_END_LO n) = c.lastOut ∧ (∀ m, m ≠ n.val → t.ctx m = s.ctx m)) ∧
    (c.groupDue = true → ∃ t, exec (.agcGroupEnd n) s = .next t ∧
      (t.ctx n).chain = { c with groupDue := false, peak := 0, gain := if c.held = true ∨ c.agc.getLsbD 31 = false then c.gain else agcNext c.agc c.gain c.peak } ∧
      (∀ m, m ≠ n.val → t.ctx m = s.ctx m) ∧ t.time = s.time) ∧
    (c.held = true → c.expire = some g → g ≤ c.outs / 8 → ∃ t, exec (.agcHoldExpire n) s = .next t ∧ (t.ctx n).chain = { c with held := false, expire := none } ∧
      t.flag (Reg.CHN_EVT_AGC_RELEASE n) = true ∧ (∀ m, m ≠ n.val → t.ctx m = s.ctx m) ∧ t.now = s.now)

/-- R127: the gain of the next group, in sixteenths of a decibel: lowered by the fewest units that bring the group's peak to the target or below, else raised by REL; always held to −24 dB and
GMAX (at most 48) dB. -/
def Obligations.AgcGainRule : Prop :=
  ∀ (agc : Word) (g : Int) (peak : Nat),
    let top : Int := 16 * (min 48 (agc.toNat / 2 ^ 24 % 64) : Nat)
    let target : Rat := 32768 * dbGain (-(4 * (agc.toNat / 2 ^ 16 % 256 : Nat) : Int))
    let held : Int → Int := fun x => max (-384) (min top x)
    ((peak : Rat) ≤ target → agcNext agc g peak = held (g + (agc.toNat / 2 ^ 8 % 256 : Nat))) ∧
    (target < (peak : Rat) → ∃ k : Nat, agcNext agc g peak = held (g - k) ∧ (∀ j : Nat, j < k → target < (peak : Rat) * dbGain (-(j : Int))) ∧
      (k < 2048 → (peak : Rat) * dbGain (-(k : Int)) ≤ target))

/-- R110, R111, R112, R126, R127, R174: the next output of a running chain has the label that follows from its first one and its output count; with no fade and no marker due it is the FIR
output of the bank in force over what the CIC gave, times the gain of the group where the AGC is enabled, rounded with ties away from zero and saturated, 0 in a void, and goes to the ring with
SETTLE while the filters settle. The group's peak is taken before it saturates. The chains that draw on it take it in. An output that no longer fits its ring, or that a full ring meets, is counted lost.
A chain on another context's output runs once that has given the samples it takes in. -/
def Obligations.ChainOutputs : Prop :=
  ∀ (s : State) (n : Fin 256),
    let x := s.ctx n
    let c := x.chain
    let label := s.afterSkip (c.lab1 + (c.outs - c.outs0) * c.outPer)
    let z := if c.outs % 8 = 0 then (s.at label).groupStart n label else s.at label
    let now := (z.ctx n).chain
    let gain : Rat := if c.agc.getLsbD 31 then dbGain now.gain else 1
    let line := (s.chainStep c).line
    let taps := c.cfg.taps
    let coef : Nat → Rat := fun j => (((getIdx x.coefs (192 * c.bank + min j (taps - 1 - j))).getD 0 : Int) : Rat)
    let raw : (Rat × Rat → Rat) → Int := fun f =>
      if c.void then 0 else roundAway (((List.range taps).map (fun j => f (line.getD j (0, 0)) * coef j)).sum / 131072 * gain)
    let i := max (-32768) (min 32767 (raw (·.1)))
    let q := max (-32768) (min 32767 (raw (·.2)))
    let out : Item := .sample label i q (decide (0 < c.settle)) c.void (if c.agc.getLsbD 31 then now.gain else 0) (z.qualAt label)
    c.on = true → c.voidTo = none → c.inputsReady = true →
    (∃ t, exec (.chainOutputWrite n) s = .next t ∧ (t.ctx n).chain.outs = c.outs + 1 ∧ (t.ctx n).chain.lastOut = label ∧ (t.ctx n).chain.dsp.line = line ∧
      (t.ctx n).chain.settle = c.settle - 1 ∧ (t.ctx n).chain.groupDue = decide ((c.outs + 1) % 8 = 0) ∧
      (∀ m, m ≠ n.val → m ∉ s.drawing n → t.ctx m = s.ctx m) ∧
      (c.fade = none → (s.drawing n).Nodup → ∀ m ∈ s.drawing n, m ≠ n.val → (t.ctx m).chain.dsp.input = (s.ctx m).chain.dsp.input ++ [(label, i, q)])) ∧
    (c.ringFull = false → c.fade = none → c.marks = [] → ringBytes (x.ring ++ [out]) ≤ x.ringMost → ∃ t, exec (.chainOutputWrite n) s = .next t ∧
      (t.ctx n).ring = x.ring ++ [out] ∧
      (t.ctx n).chain.peak = max now.peak (max (raw (·.1)).natAbs (raw (·.2)).natAbs)) ∧
    ((c.ringFull = true ∧ x.ringMost < ringBytes x.ring + 64) ∨
        (c.ringFull = false ∧ c.fade = none ∧ c.marks = [] ∧ x.ringMost < ringBytes (x.ring ++ [out])) →
      ∃ t, exec (.chainOutputWrite n) s = .next t ∧ (t.ctx n).ring = x.ring ∧
      (t.ctx n).chain.ringFull = true ∧ (t.ctx n).chain.ringLost = c.ringLost + 1)

/-- R177, R181, R186, R202, R307: when space returns, a full CHAIN ring gets one LOST marker with the number of samples lost, which q0's LOST counts, and runs again; an output ring of which entries
were discarded gets one LOST record with their number and its count starts again: behind what a run of the context has written, with which it is published, or delivered like any record where
none runs; a BURST ring likewise, in its own queue. Each carries the quality words of its stu (R53). -/
def Obligations.LostEntries : Prop :=
  ∀ (s : State) (n : Fin 256) (q : Fin 16),
    let x := s.ctx n
    let lost := (x.ports.getD q {}).lostNow
    let entry : Rec := { stu := s.now, kind := 9, param := lost, qual := s.qualAt s.now }
    let clear : State → State := fun y => y.portMod n q (fun p => { p with lostNow := 0 })
    (x.chain.ringFull = true → ringBytes x.ring + 64 ≤ x.ringMost → ∃ t, exec (.chainRingResume n) s = .next t ∧
      (t.ctx n).ring = x.ring ++ [.mark { stu := s.now, kind := 9, param := x.chain.ringLost, qual := s.qualAt s.now }] ∧
      (t.ctx n).chain = { x.chain with ringFull := false, ringLost := 0 } ∧ (∀ m, m ≠ n.val → t.ctx m = s.ctx m) ∧
      (t.rget (Reg.CTX_QSTAT n 0)).toNat = (ringRuns (t.ctx n).ring).length % 2 ^ 32 ∧
      (t.rget (Reg.CTX_QSTAT n 0 + 8)).toNat = min 0xFFFFFFFF ((s.rget (Reg.CTX_QSTAT n 0 + 8)).toNat + x.chain.ringLost)) ∧
    (x.portKind q ≠ 7 → lost ≠ 0 → s.runOf n = none → s.ringFits n q 16 = true → exec (.ringSpaceReturn n q) s = .next (clear (s.deliver n q entry))) ∧
    (∀ e r, x.portKind q ≠ 7 → lost ≠ 0 → s.runOf n = some (e, r) → s.ringFits n q (r.unpublished q + 16) = true →
      exec (.ringSpaceReturn n q) s = .next (clear (s.setRun e (some { r with out := r.out ++ [(q.val, entry)] })))) ∧
    (x.portKind q = 7 → lost ≠ 0 → s.burstFits n q 16 = true → exec (.ringSpaceReturn n q) s =
      .next (s.portMod n q (fun p => { p with queue := p.queue ++ [(s.time.tick, entry)], lostNow := 0 }))) ∧
    (lost = 0 ∨ (x.portKind q ≠ 7 ∧ s.ringFits n q 16 = false) ∨ (x.portKind q = 7 ∧ s.burstFits n q 16 = false) ∨
        (∃ e r, x.portKind q ≠ 7 ∧ s.runOf n = some (e, r) ∧ s.ringFits n q (r.unpublished q + 16) = false) →
      exec (.ringSpaceReturn n q) s = .next s)

/-- R32, R36, R38, R40, R43, R45, R46: a read of TB_STU_LO latches the time for its tenant alone; HOST_LOAD makes an observation of the host class of the claim that TB_HSET holds, unless its stu lies ahead
or more than a second back; the evaluation at a whole second takes every waiting observation; a leap change adds or takes a second; PPS_IN edges of the polarity that TB_PPS_CTRL.EDGE selects are observations within the window in stu about the stu at which DTS reaches
their second and strays outside it, and the other edges do nothing; a window without an edge is missed; PPS_OUT and TICK_OUT rise and fall. -/
def Obligations.TimebaseInAndOut : Prop :=
  ∀ (s : State) (p : Fin 4) (falling : Bool) (k t : Nat),
    let y := s.at t
    let a := s.rget64 Reg.TB_HSET_STU_LO
    let edge := y.stamp
    let win := 61440 * max 1 (s.fget Reg.TB_PPS_CTRL_WIN)
    let n := (roundAway (y.dts edge)).toNat
    let top1 := y.secStuNear n edge
    let inside := top1 ≤ edge + win ∧ edge ≤ top1 + win
    let err : Rat := ((n : Rat) - y.dts edge) * 1000000000
    let leap := s.at (s.stuOfDts (s.leapSec : Rat))
    let sec := (s.dts s.now).floor.toNat + 1
    let top := s.at (s.stuOfDts (sec : Rat))
    (s.Serves p k Reg.TB_STU_LO t → s.time.latches.length = 4 → k < 4 → ∃ u, exec (.tbLatchRead p t) s = .next u ∧ u.host.out.words = [BitVec.ofNat 32 y.now] ∧ u.regs = s.regs ∧
      (∀ j, u.time.latches.getD j {} = if j = k then {
        stuHi := BitVec.ofNat 32 (y.now / 2 ^ 32), tickLo := BitVec.ofNat 32 s.time.tick, tickHi := BitVec.ofNat 32 (s.time.tick / 2 ^ 32)
        secLo := BitVec.ofNat 32 (dtsSec (y.dts y.now)), secHi := BitVec.ofNat 32 (dtsSec (y.dts y.now) / 2 ^ 32), frac := BitVec.ofNat 32 (dtsFrac (y.dts y.now))
        qLo := y.qualLoAt y.now, qHi := y.qualHiAt y.now } else s.time.latches.getD j {})) ∧
    (s.Serves p 0 Reg.TB_CTRL t → a ≤ y.now → y.now ≤ a + 6144000000 → ∃ u o, exec (.hostLoad p t) s = .next u ∧ u.time.obs = s.time.obs ++ [o] ∧ o.cls = .host ∧
      o.epoch = a ∧ o.bound = (s.rget Reg.TB_HSET_UNC).toNat ∧
      o.claim = ((s.rget64 Reg.TB_HSET_SEC_LO % 2 ^ 48 : Nat) : Rat) + (((s.rget Reg.TB_HSET_FRAC).toNat : Nat) : Rat) / 2 ^ 32) ∧
    (s.Serves p 0 Reg.TB_CTRL t → (y.now < a ∨ a + 6144000000 < y.now) → ∃ u, exec (.hostLoad p t) s = .next u ∧ u.flag Reg.TB_EVT_HOST_REJECT = true ∧ u.time.obs = s.time.obs ∧ u.now = y.now) ∧
    (s.time.tick % 3000 = 0 → s.time.lastEval ≠ s.time.tick → ∃ u, exec .disciplineEvaluation s = .next u ∧ u.time.obs = [] ∧ u.time.lastEval = s.time.tick) ∧
    (s.flag Reg.TB_UTC_PEND = true → s.fget Reg.TB_UTC_DELTA = 1 ∨ s.fget Reg.TB_UTC_DELTA = 3 → ∃ u, exec .leapChange s = .next u ∧ u.flag Reg.TB_UTC_PEND = false ∧
      u.flag Reg.TB_EVT_UTC_CHANGE = true ∧ u.time = leap.time.noteEvt Reg.TB_EVT_UTC_CHANGE ∧
      u.fget Reg.TB_UTC_OFS = (s.fget Reg.TB_UTC_OFS + if s.fget Reg.TB_UTC_DELTA = 1 then 1 else 65535) % 65536) ∧
    (s.flag Reg.TB_PPS_CTRL_EDGE = falling → s.flag Reg.TB_CTRL_PPS_XCHK = false → inside → y.now < 2 ^ 64 → ∃ u o, exec (.ppsEdge falling t) s = .next u ∧ u.rget64 Reg.TB_PPS_STU_LO = edge ∧
      u.rget Reg.TB_PPS_ERR = BitVec.ofInt 32 (max (-(2 ^ 31)) (min (2 ^ 31 - 1) (roundAway err))) ∧ u.time.obs = s.time.obs ++ [o] ∧ o.cls = .pps ∧ o.claim = (n : Rat) ∧ o.epoch = edge) ∧
    (s.flag Reg.TB_PPS_CTRL_EDGE = falling → ¬ inside → ∃ u, exec (.ppsEdge falling t) s = .next u ∧ u.flag Reg.TB_EVT_PPS_STRAY = true ∧ u.time.obs = s.time.obs ∧
      u.time.strays = s.time.strays + 1) ∧
    (s.flag Reg.TB_PPS_CTRL_EDGE ≠ falling → ∃ u, exec (.ppsEdge falling t) s = .next u ∧ u.regs = s.regs ∧ u.time.obs = s.time.obs ∧ u.time.strays = s.time.strays) ∧
    (∃ u, exec .ppsWindowEnd s = .next u ∧ u.flag Reg.TB_EVT_PPS_MISSED = true ∧ s.time.ppsSecond < u.time.ppsSecond) ∧
    (s.fget Reg.TB_PPSO_CTRL_MODE = 1 → s.time.stepped = false → ∃ u, exec .ppsOutRise s = .next u ∧ u.regs = s.regs ∧
      u.time = { top.time with ppsOutSecond := sec, ppsOut := true, ppsRise := some top.now, stepped := false }) ∧
    (∀ r, s.time.ppsOut = true → s.time.ppsRise = some r → ∃ u, exec .ppsOutFall s = .next u ∧ u.regs = s.regs ∧
      u.time = { (s.at (r + max 1 (min 200 (s.fget Reg.TB_PPSO_CTRL_WIDTH)) * 6144000)).time with ppsOut := false }) ∧
    (s.time.tickOut = true → ∃ u, exec .tickOutFall s = .next u ∧ u.regs = s.regs ∧
      u.time = { (s.at (s.time.tickOutRise + min (160 * max 1 (s.fget Reg.TB_TICKO_CTRL_WIDTH)) (max 1 (min 3000 (s.fget Reg.TB_TICKO_CTRL_DIV)) * 2048000 - 160))).time with tickOut := false })

/-! ## Time, clocks and the front end -/

/-- R47, R49 to R52, R56 to R61, R73, R75: a monitor window outside 24 to 56 edges declares REF_IN lost and the clocks coast; while they coast, four windows in a row within 8 stu of 163,840 bring it back for a realignment by STEP or WALK
as TB_CTRL.REALIGN says, eight outside make it a new reference; STEP skips TB_STU to the grid at once, WALK steers and ends at its residual's end. A band search halves its interval at each count and counts windows
after its sixth step; four good windows in a row declare lock and the sixteenth without it ends the attempt, the third failed one quarantining the loop, which then searches every 3000 ticks; a locked loop loses lock at a window more than 8 off or at a slip, SCS with its
samples void, CCS with the core on SAFE_OSC; and both search anew.
That a higher band number is the faster oscillator is the model's (log entry 7), as are LOCK_LOST where a locked CCS gives no edge and the rate of a walk read once (log entry 76). -/
def Obligations.ReferenceAndLockLoops : Prop :=
  (∀ (s : State) (t edges span : Nat) (w : Walk),
      let y := s.at t
      let here := max s.now t
      let skip := (160 - here % 160) % 160
      let phase : Int := if skip ≤ 79 then -(skip : Int) else 160 - (skip : Int)
      let coasting := s.flag Reg.TOP_DOMAIN_REF_OK = false ∧ s.flag Reg.TOP_DOMAIN_COAST = true
      let near := 163832 ≤ span ∧ span ≤ 163848
      (s.flag Reg.TOP_DOMAIN_REF_OK = true → 24 ≤ edges → edges ≤ 56 → exec (.refMonitorWindow t edges) s = .next y) ∧
      (s.flag Reg.TOP_DOMAIN_REF_OK = true → edges < 24 ∨ 56 < edges → ∃ u, exec (.refMonitorWindow t edges) s = .next u ∧ u.now = y.now ∧
        u.flag Reg.TOP_DOMAIN_REF_OK = false ∧ u.flag Reg.TOP_DOMAIN_COAST = true ∧ u.flag Reg.TB_QUAL_HI_COAST = true ∧ u.flag Reg.TB_EVT_REF_LOST = true ∧
        u.time.realign = none ∧ u.time.lockedAtLoss = s.scsLocked) ∧
      (coasting → s.time.lockedAtLoss = false → 24 ≤ edges → edges ≤ 56 → ∃ u, exec (.refMonitorWindow t edges) s = .next u ∧
        u.flag Reg.TOP_DOMAIN_REF_OK = true ∧ u.flag Reg.TOP_DOMAIN_COAST = false ∧ u.flag Reg.TB_EVT_REF_BACK = true) ∧
      (coasting → s.time.lockedAtLoss = true → exec (.refQualWindow t none) s = .next { y with time := { y.time with qualWins := 0, newRefWins := 0 } }) ∧
      (coasting → s.time.lockedAtLoss = true → near → s.time.qualWins < 3 →
        exec (.refQualWindow t (some span)) s = .next { y with time := { y.time with qualWins := s.time.qualWins + 1, newRefWins := 0 } }) ∧
      (coasting → s.time.lockedAtLoss = true → near → s.time.qualWins = 3 → ∃ u, exec (.refQualWindow t (some span)) s = .next u ∧
        u.flag Reg.TOP_DOMAIN_REF_OK = true ∧ u.flag Reg.TB_EVT_REF_BACK = true ∧ u.time.realign = some (decide (s.fget Reg.TB_CTRL_REALIGN = 1))) ∧
      (coasting → s.time.lockedAtLoss = true → ¬ near → s.time.newRefWins < 7 →
        exec (.refQualWindow t (some span)) s = .next { y with time := { y.time with qualWins := 0, newRefWins := s.time.newRefWins + 1 } }) ∧
      (coasting → s.time.lockedAtLoss = true → ¬ near → s.time.newRefWins = 7 → ∃ u, exec (.refQualWindow t (some span)) s = .next u ∧
        u.flag Reg.TOP_DOMAIN_REF_OK = true ∧ u.flag Reg.TOP_DOMAIN_COAST = false) ∧
      (s.time.realign = some false → ∃ u, exec (.realignEdge t) s = .next u ∧ u.now = here + skip ∧ u.time.realign = none ∧ u.time.walk = none ∧
        u.flag Reg.TOP_DOMAIN_COAST = false ∧ u.fget Reg.TB_JUMP_SKIP = skip ∧ u.flag Reg.TB_JUMP_MODE = false ∧ u.flag Reg.TB_EVT_REALIGNED = true ∧
        u.dts u.now = s.dts here) ∧
      (s.time.realign = some true → ∃ u, exec (.realignEdge t) s = .next u ∧ u.now = here ∧ u.time.realign = none ∧ u.flag Reg.TB_QUAL_HI_WALK = true ∧
        u.time.walk = some { e := phase, start := here, ppm := max 1 (min 100 (s.fget Reg.TB_CTRL_WALK_PPM)) } ∧ u.dts u.now = s.dts here) ∧
      (s.time.walk = some w → w.frozen = none → ∃ u, exec .walkEnd s = .next u ∧ u.now = (s.at w.endStu).now ∧ u.time.walk = none ∧ u.flag Reg.TOP_DOMAIN_COAST = false ∧
        u.flag Reg.TB_QUAL_HI_WALK = false ∧ u.flag Reg.TB_JUMP_MODE = true ∧ u.flag Reg.TB_EVT_REALIGNED = true)) ∧
  (∀ (s : State) (l : LoopId) (count t k lo hi win good : Nat),
      let x := s.loop l
      let mid := (lo + hi) / 2
      let lo' := if count ≤ 1024 then mid else lo
      let hi' := if count ≤ 1024 then hi else mid
      let band : Reg.Fld := match l with
        | .scs => Reg.SCS_STAT_BAND
        | .ccs => Reg.CCS_STAT_BAND
      let run := if count ≤ 1026 ∧ 1022 ≤ count then good + 1 else 0
      let counted := x.since + 163840
      let safe : State → Prop := fun u => u.flag Reg.TOP_DOMAIN_CORE_SAFE = true ∧ u.flag Reg.CCS_STAT_SAFE = true ∧ u.flag Reg.CCS_EVT_SAFE_ON = true ∧
        u.clk.ccs.loop.phase = .search 0 0 64 ∧ u.clk.ccs.base16 = 2048000
      let lost : State → Prop := fun u => match l with
        | .scs => u.flag Reg.TOP_DOMAIN_SCS_LOCK = false ∧ u.flag Reg.SCS_STAT_LOCK = false ∧ u.flag Reg.SCS_EVT_LOCK_LOST = true ∧ u.flag Reg.TB_QUAL_HI_COARSE = true ∧
          u.clk.scs.phase = .search 0 0 64 ∧ u.clk.scs.fails = 0
        | .ccs => u.flag Reg.CCS_STAT_LOCK = false ∧ u.flag Reg.CCS_EVT_LOCK_LOST = true ∧ safe u
      let locked : State → Prop := fun u => (u.loop l).phase = .locked ∧ (u.loop l).fails = 0 ∧ match l with
        | .scs => u.flag Reg.TOP_DOMAIN_SCS_LOCK = true ∧ u.flag Reg.SCS_STAT_LOCK = true ∧ u.flag Reg.SCS_EVT_LOCKED = true
        | .ccs => u.flag Reg.CCS_STAT_LOCK = true ∧ u.flag Reg.CCS_EVT_LOCKED = true ∧ u.clk.ccs.returnDue = true
      let dead : State → Prop := fun u => match l with
        | .scs => u.flag Reg.SCS_EVT_SEARCH_FAIL = true ∧ u.flag Reg.SCS_STAT_SEARCH = false
        | .ccs => u.flag Reg.CCS_EVT_DEAD = true ∧ u.flag Reg.CCS_STAT_DEAD = true
      s.flag Reg.TOP_DOMAIN_REF_OK = true →
      (x.phase = .search k lo hi → k < 5 → ∃ u, exec (.bandSearchStep l count) s = .next u ∧ u.now = (s.at (x.since + 184320)).now ∧
        u.loop l = { x with phase := .search (k + 1) lo' hi', since := x.since + 184320 } ∧ u.fget band = (lo' + hi') / 2 % 64) ∧
      (x.phase = .search k lo hi → 5 ≤ k → ∃ u, exec (.bandSearchStep l count) s = .next u ∧ u.now = (s.at (x.since + 184320)).now ∧
        u.loop l = { x with phase := .count 0 0, since := x.since + 225280 } ∧ u.fget band = lo' % 64) ∧
      (x.phase = .count win good → run ≠ 4 → win ≠ 15 → ∃ u, exec (.lockWindow l count) s = .next u ∧ u.now = (s.at counted).now ∧
        u.loop l = { x with counts := (count :: x.counts).take 17, since := counted, phase := .count (win + 1) run }) ∧
      (x.phase = .count win good → run = 4 → ∃ u, exec (.lockWindow l count) s = .next u ∧ u.now = (s.at counted).now ∧ locked u) ∧
      (x.phase = .count 15 good → run ≠ 4 → x.fails < 2 → ∃ u, exec (.lockWindow l count) s = .next u ∧ (u.loop l).phase = .search 0 0 64 ∧ (u.loop l).fails = x.fails + 1 ∧
        u.fget band = 32) ∧
      (x.phase = .count 15 good → run ≠ 4 → x.fails = 2 → ∃ u, exec (.lockWindow l count) s = .next u ∧ (u.loop l).phase = .failed ∧ (u.loop l).retry = s.time.tick + 3000 ∧ dead u) ∧
      (x.phase = .count 15 good → run ≠ 4 → 3 ≤ x.fails → x.retry ≤ s.time.tick → ∃ u, exec (.lockWindow l count) s = .next u ∧ (u.loop l).phase = .failed ∧
        s.time.tick < (u.loop l).retry ∧ (u.loop l).retry ≤ s.time.tick + 3000 ∧ ((u.loop l).retry - x.retry) % 3000 = 0) ∧
      (x.phase = .locked → 1016 ≤ count → count ≤ 1032 → ∃ u, exec (.lockWindow l count) s = .next u ∧ u.now = (s.at counted).now ∧
        u.loop l = { x with counts := (count :: x.counts).take 17, since := counted }) ∧
      (x.phase = .locked → count < 1016 ∨ 1032 < count → ∃ u, exec (.lockWindow l count) s = .next u ∧ u.now = (s.at counted).now ∧ lost u) ∧
      (x.phase = .locked → ∃ u, exec (.slipDetect l t) s = .next u ∧ u.now = (s.at t).now ∧ lost u ∧ (l = .scs → u.flag Reg.SCS_EVT_SLIP = true ∧
        u.rget64 Reg.SCS_LOST_STU_LO = u.now % 2 ^ 64)) ∧
      (s.clk.scs.phase = .failed → ∃ u, exec .scsRetry s = .next u ∧ u.now = (s.at (s.clk.scs.retry * 2048000)).now ∧ u.clk.scs.phase = .search 0 0 64 ∧
        u.flag Reg.SCS_STAT_SEARCH = true ∧ u.fget Reg.SCS_STAT_BAND = 32) ∧
      (s.clk.ccs.loop.phase = .failed → ∃ u, exec .ccsRetry s = .next u ∧ u.now = (s.at (s.clk.ccs.loop.retry * 2048000)).now ∧ u.clk.ccs.loop.phase = .search 0 0 64 ∧
        u.fget Reg.CCS_STAT_BAND = 32) ∧
      (s.flag Reg.TOP_DOMAIN_CORE_SAFE = false → ∃ u, exec (.ccsNoEdge t) s = .next u ∧ u.now = (s.at t).now ∧ safe u ∧ u.flag Reg.CCS_STAT_LOCK = false ∧
        (s.flag Reg.CCS_STAT_LOCK = true → u.flag Reg.CCS_EVT_LOCK_LOST = true)) ∧
      (s.flag Reg.TOP_DOMAIN_CORE_SAFE = true → exec (.ccsNoEdge t) s = .next (s.at t)))

/-- R64, R69 to R72, R77 to R79, R271, R425, R426: the reference cycles of a ramp, whose base holds to the boundary and whose fall lowers the voltage only where the fall asks for less; a reading, which starts by the stu it is due, of voltage, status and current in three transactions, each taking its word on a bus that no other holds (R429, R437), its PEC checked where TWB_CTRL.PEC asks for it (R426); VOUT_COMMAND and OPERATION written
to the regulator's address (R425), with PEC where it is on, once TWB is free; a raise confirmed by a clean reading, or given up after 30 ticks; the ICS lock sequence, its timed mode after an LKF fault, and the loss of its lock, which pauses traffic (a format that waits for the lock: FlashStore).
The rounding of a reading to mV (log entry 8) and TIMED at the timed lock (log entry 76) are the model's. -/
def Obligations.CoreVoltageAndInterfaceClock : Prop :=
  ∀ (s : State) (t w node b mv : Nat) (x : RaiseS),
    let y := s.at t
    let c := s.clk.ccs
    let ready := s.flag (Reg.TW_STAT_STUCK 1) = false ∧ s.flag (Reg.TW_STAT_BUSY 1) = false ∧ s.flag Reg.ICS_STAT_PAUSED = false
    let ramp := 160 * rampRc c.base16 c.target16 c.slope16
    let reads : Nat → Prop := fun lim => ∃ u, exec (.readingDue t) s = .next u ∧ u.now = (s.at (min t (max s.now lim))).now ∧
      u.clk.ccs = { c with readStage := 1, readStart := u.now, readTick := s.time.tick } ∧ u.flag (Reg.TW_STAT_BUSY 1) = true ∧ u.flag (Reg.TW_STAT_ACTIVE 1) = true
    let running := s.flag (Reg.TW_STAT_STUCK 1) = false ∧ s.flag Reg.ICS_STAT_PAUSED = false ∧
      (s.flag (Reg.TW_STAT_ACTIVE 1) = true ∨ s.flag (Reg.TW_STAT_BUSY 1) = false)
    let addr := s.fget Reg.CCS_VREG_ADDR
    let sent : Nat → List Byte → Option (Nat × Nat × List Byte) := fun code data =>
      some (addr, code, if s.flag (Reg.TW_CTRL_PEC 1) then data ++ [pecOf (leBytes (2 * addr) 1 ++ leBytes code 1 ++ data)] else data)
    let timed : State → Prop := fun u => u.clk.ics = .timed ∧ u.clk.icsSince = u.now ∧ u.flag Reg.ICS_EVT_LKF_FAULT = true ∧ u.flag Reg.ICS_STAT_LKF_FAULT = true
    let traffic : State → Prop := fun u => u.flag Reg.ICS_STAT_LOCK = true ∧ u.flag Reg.TOP_DOMAIN_ICS_LOCK = true ∧ u.flag Reg.ICS_EVT_LOCKED = true ∧ u.flag Reg.ICS_STAT_PAUSED = false
    s.buses.length = 2 →
    (c.segStart = some b → c.reached = false → 0 < c.slope16 → ∃ u, exec .rampTargetReached s = .next u ∧ u.now = (s.at (b + ramp)).now ∧
      u.clk.ccs.reached = true ∧ u.clk.ccs.base16 = c.base16 ∧ u.fget Reg.CCS_STAT_FREQ = c.target16 / 16 % 2 ^ 19 ∧ (c.segs = [] → u.flag Reg.CCS_STAT_RAMP = false) ∧
      (c.segs = [] → s.flag Reg.CCS_STAT_VFROZEN = false → c.lowerTo = some mv → u.clk.ccs.vcmd = if mv < c.mv then some mv else c.vcmd)) ∧
    (ready → c.operation = true → c.readStage = 0 →
      (c.raise = none → reads (c.readStart + 300 * 2048000)) ∧
      (c.raise = some x → x.confirmed = true → reads (c.readStart + 300 * 2048000)) ∧
      (c.raise = some x → x.confirmed = false → x.written = some w → c.readStart < w → reads (min (c.readStart + 300 * 2048000) (w + 500000))) ∧
      (c.raise = some x → x.confirmed = false → x.written = some w → w ≤ c.readStart → reads (c.readStart + 400000))) ∧
    (c.readStage = 1 → running → ∃ u, exec (.readVout t (.ok w)) s = .next u ∧ u.clk.ccs.readStage = 2 ∧ u.clk.ccs.pendMv = some (s.voutMv w) ∧
      u.fget Reg.CCS_VOUT_VOUT = s.voutMv w % 65536 ∧ (s.voutMv w < s.vreq y.freqNow → u.flag Reg.CCS_EVT_VLOW = true)) ∧
    (∀ r, ¬ running → exec (.readVout t r) s = .next y ∧ exec (.statusWord t r) s = .next y ∧ exec (.readIout t r) s = .next y) ∧
    (c.readStage = 1 → running → s.flag (Reg.TW_CTRL_PEC 1) = true → ∃ u, exec (.readVout t (.pecErr w)) s = .next u ∧ u.clk.ccs.readStage = 0 ∧
      u.flag (Reg.TW_EVT_PEC_ERR 1) = true ∧ u.fget Reg.CCS_VOUT_VOUT = s.fget Reg.CCS_VOUT_VOUT) ∧
    (s.flag (Reg.TW_CTRL_PEC 1) = false → exec (.readVout t (.pecErr w)) s = exec (.readVout t (.ok w)) s) ∧
    (c.readStage = 2 → running → ∃ u, exec (.statusWord t (.ok w)) s = .next u ∧ u.clk.ccs.readStage = 3 ∧ u.clk.ccs.readMv = c.pendMv.getD 0 ∧ u.clk.ccs.readStu = y.now ∧
      u.clk.ccs.readOk = (!(w.testBit 15 || w.testBit 5)) ∧
      (c.raise = some x → w.testBit 15 = false → w.testBit 5 = false → s.vreq x.target ≤ c.pendMv.getD 0 → c.vcmd = none →
        u.clk.ccs.raise = some { x with confirmed := true } ∧ u.flag Reg.CCS_STAT_VWAIT = false)) ∧
    (c.readStage = 3 → running → ∃ u, exec (.readIout t (.ok w)) s = .next u ∧ u.clk.ccs = { c with readStage := 0 } ∧
      u.ldg = { s.ldg with lastIout := linear11 w, readings := s.ldg.readings ++ [(c.readMv : Rat) * linear11 w] }) ∧
    (ready → c.vcmd = some mv → ∃ u, exec (.voutCommand t (.ok w)) s = .next u ∧ u.clk.ccs.mv = mv ∧ u.clk.ccs.vcmd = none ∧ u.clk.ccs.readSinceCmd = false ∧
      (u.bus 1).last = sent 0x21 (leBytes (s.voutWord mv) 2)) ∧
    (ready → c.operation = false → s.boot.verifiedAt ≠ none → ∃ u, exec (.operation t (.ok w)) s = .next u ∧ u.clk.ccs = { c with operation := true } ∧
      (u.bus 1).last = sent 0x01 [0x80]) ∧
    (c.raise = some x → x.confirmed = false → ∃ u, exec .raiseTimeout s = .next u ∧ u.now = (s.at (x.since + 30 * 2048000)).now ∧ u.clk.ccs.raise = none ∧
      u.clk.ccs.noRaise = s.time.tick + 3000 ∧ u.flag Reg.CCS_EVT_VFAIL = true ∧ u.flag Reg.CCS_STAT_VWAIT = false) ∧
    (s.clk.ics = .precharge → ∃ u, exec (.icsPrechargeEnd node) s = .next u ∧ u.now = (s.at (s.clk.icsSince + 1310720)).now ∧ u.flag Reg.ICS_STAT_PRECHARGE = false ∧
      (node < 800 → timed u) ∧ (800 ≤ node → u.clk.ics = .released ∧ u.clk.icsSince = u.now)) ∧
    (s.clk.ics = .released → ∃ u, exec (.lkfReleaseCheck node) s = .next u ∧ u.now = (s.at (s.clk.icsSince + 10240)).now ∧
      (node < 500 → timed u) ∧ (500 ≤ node → u = s.at (s.clk.icsSince + 10240))) ∧
    (s.clk.ics = .released → s.flag Reg.TOP_DOMAIN_REF_OK = true → s.fst.formatWait = none → ∃ u, exec (.icsLock t) s = .next u ∧ u.now = y.now ∧ u.clk.ics = .locked ∧ traffic u) ∧
    (s.clk.ics = .locked → s.flag Reg.TOP_DOMAIN_REF_OK = true → ∃ u, exec (.icsLockLost t) s = .next u ∧ u.now = y.now ∧ u.clk.ics = .precharge ∧ u.clk.icsSince = u.now ∧
      u.flag Reg.ICS_STAT_LOCK = false ∧ u.flag Reg.TOP_DOMAIN_ICS_LOCK = false ∧ u.flag Reg.ICS_EVT_LOCK_LOST = true ∧ u.flag Reg.ICS_STAT_PAUSED = true) ∧
    (s.clk.ics = .released → ∃ u, exec .lkfFaultTimeout s = .next u ∧ u.now = (s.at (s.clk.icsSince + 24576000)).now ∧ timed u) ∧
    (s.clk.ics = .timed → s.flag Reg.ICS_STAT_LOCK = false → s.flag Reg.TOP_DOMAIN_REF_OK = true → s.fst.formatWait = none → ∃ u, exec .icsTimedLock s = .next u ∧ u.now = (s.at (s.clk.icsSince + 24576000)).now ∧
      u.flag Reg.ICS_STAT_TIMED = true ∧ traffic u)

/-- R15, R17, R85, R86, R90, R93 to R95, R98: the bias of a port is retried after RETRY seconds; EM_N clips within the span trip a wideband converter once a tick, and 192 stu later its gain goes one step down with
EMERG; a trip again in a tick, or at the lowest step, only says so, as a step does whose marker meets the lowest step; a converter's void ends 64 ticks after its power-up; an LF clip is counted and shown; the plan cut-off takes every port's current and window, and a ready plan for the next tick is handed over, LDG_PLAN alone following it (R282).
The current cut to whole mA is the model's (log entry 58). -/
def Obligations.FrontEndAndPlan : Prop :=
  ∀ (s : State) (p : Fin 3) (c : Fin 2) (clips ms : List Nat) (o : CutObs) (t t0 d m pk cl : Nat),
    let y := s.at t
    let k := s.conv c
    let live := clips.filter (fun x => match k.lastTrip with
      | none => true
      | some l => decide (l < x))
    let port := s.crossed c
    let g := s.fget (Reg.FE_STAT_GNOW port)
    let next := s.fget (Reg.FE_STAT_GNEXT port)
    let ann := s.flag (Reg.FE_STAT_ANN port)
    let retry := s.fget (Reg.FE_BIAS_RETRY p)
    let again := k.emTick = some (d / 2048000)
    let floor := s.atFloor port (d + 192) k.emMarks = true
    s.fe.ports.length = 3 → s.fe.convs.length = 3 →
    ((s.portFe p).shutAt = some t0 → retry ≠ 0 → ∃ u, exec (.biasRetry p) s = .next u ∧ u.now = (s.at ((max (t0 + retry * 6144000000) s.now + 2047999) / 2048000 * 2048000)).now ∧
      u.fget (Reg.FE_BSTAT_STATE p) = 1 ∧ u.flag (Reg.FE_EVT_RETRY p) = true ∧ (u.portFe p).biasHigh = true ∧ (u.portFe p).shutAt = none) ∧
    (s.convVoid c = false → emDetect (s.emN c) (s.emSpan c) live = none → ∃ u, exec (.emergencyTrip c clips) s = .next u ∧ u.regs = s.regs ∧ u.now = s.now ∧
      u.conv c = { k with clips := k.clips + live.length }) ∧
    (s.convVoid c = false → emDetect (s.emN c) (s.emSpan c) live = some d → ∃ u, exec (.emergencyTrip c clips) s = .next u ∧ u.now = (s.at d).now ∧
      u.conv c = { k with
        lastTrip := some d, clips := k.clips + live.length, emTick := some (d / 2048000), emMarks := if again ∨ floor then k.emMarks else k.emMarks ++ [d + 192] } ∧
      (again → u.flag (Reg.FE_EVT_EM_AGAIN c) = true) ∧ (floor → u.flag (Reg.FE_EVT_MIN_CLIP c) = true) ∧ (¬ again → ¬ floor → u.regs = s.regs)) ∧
    (k.emMarks = m :: ms → g ≠ 0 → ∃ u, exec (.emergencyStep c) s = .next u ∧ u.now = (s.at m).now ∧ u.fget (Reg.FE_STAT_GNOW port) = g - 1 ∧
      u.flag (Reg.FE_STAT_EMERG port) = true ∧ u.flag (Reg.FE_EVT_EMERG port) = true ∧ u.rget64 (Reg.FE_EMSTU_LO port) = m % 2 ^ 64 ∧ (u.conv c).emMarks = ms ∧
      (u.conv c).clips = 0 ∧ (u.portFe port).quiet = 0 ∧ u.fget (Reg.FE_STAT_GNEXT port) = (if ann then next - 1 else g - 1) ∧
      (s.fget (Reg.FE_GAIN_GMODE port) ≠ 0 → u.flag (Reg.FE_STAT_EMHELD port) = true)) ∧
    (k.emMarks = m :: ms → g = 0 → ∃ u, exec (.emergencyStep c) s = .next u ∧ u.now = (s.at m).now ∧ u.flag (Reg.FE_EVT_MIN_CLIP c) = true ∧ u.conv c = { k with emMarks := ms, clips := 0 } ∧
      ∀ a, a ≠ Reg.FE_EVT c → u.rget a = s.rget a) ∧
    (k.voidUntil = some m → ∃ u, exec (.converterVoidEnd c) s = .next u ∧ u.now = (s.at m).now ∧ u.fe = { s.fe with
      convs := modifyAt s.fe.convs c (fun k => { k with voidUntil := none, since := if u.convVoid c then k.since else m }) }) ∧
    (s.convVoid 2 = false → ∃ u, exec (.lfClip t) s = .next u ∧ u.now = y.now ∧ (u.conv 2).clips = (s.conv 2).clips + 1 ∧ u.flag (Reg.FE_EVT_MIN_CLIP 2) = true) ∧
    (s.convVoid 2 = true → exec (.lfClip t) s = .next y) ∧
    (s.up = true → ∃ u, exec (.planCutoff o) s = .next u ∧ u.now = (s.at (s.time.tick * 2048000 + 1792000)).now ∧
      u.fget (Reg.FE_BSTAT_IMA p) = min 1023 (o.ima.getD p 0 / 1000) ∧
      (o.win.getD c none = some (pk, cl) → u.fget (Reg.FE_PEAK_PEAK c) = min 4095 pk ∧ u.fget (Reg.FE_PEAK_CLIPS c) = min 1048575 cl) ∧
      (o.win.getD c none = none → u.rget (Reg.FE_PEAK c) = 0) ∧ (u.conv c).clips = 0) ∧
    (s.wardenUp = true → s.time.tick * 2048000 + 1792000 < y.now → ∃ u q, exec (.planReady t) s = .next u ∧ u.now = y.now ∧ u.seq = { s.seq with plan := some q } ∧
      q.tick = s.time.tick + 1 ∧ (∀ a, a ≠ Reg.LDG_PLAN → u.rget a = s.rget a) ∧ u.ctxs = s.ctxs)

/-- R134, R138 to R142, R145 to R147, R151, R154, R156 to R158, R161: an estimate falls due by age or drift; solved within its limits it is accepted, its point updated and the other targets asked for, and outside them rejected
with its reason; a step pair's ratio is formed from four observations or more; one that gathers too little is abandoned; a due save is written to the slot that does not hold the newest set, and
the ingot it supersedes is gone and SAVED set once the new one is durable (R370); START, SAVE and FACTORY act as CAL_CTRL's bits; and the power-up sweep holds, sets the gain and ends.
How points merge and round (log entry 59), and that a rejection for another reason ends a run of change-limit ones (log entry 78), is the model's. -/
def Obligations.Calibration : Prop :=
  ∀ (s : State) (g : Fin 7) (u : Fin 2) (pair : Fin 6) (v se : List Rat) (p : Fin 4) (a : Fin 2) (k t d : Nat) (clip : Bool) (peak : Nat) (obs : Option Rat),
    let y := s.at t
    let i := calIdx g u
    let e := s.cal.ests.getD i {}
    let q : Rat := e.tsum / (e.passing : Rat)
    let due : State → EstS := fun x => x.cal.ests.getD i {}
    let forms := s.flag Reg.CAL_CTRL_TRACK = true ∨ s.flag Reg.CAL_STAT_PWRUP = true
    let ready := forms ∧ s.calPowered i = true ∧ g.val ≠ 4 ∧ e.due = some d ∧ max 1 (s.fget Reg.CAL_CFG0_EST_T) ≤ e.passing ∧ v.length = (interp i q s.cal.points).length
    let reason := calReason g (calNorm g v) (interp i q s.cal.points) se false
    let seen := s.cal.lnaObs.getD (6 * u.val + pair.val) []
    let ratios := modifyAt (interp i s.tcal s.cal.points) pair (fun _ => meanQ seen)
    let last := let w := d + max 1 (s.fget Reg.CAL_CFG0_WAIT)
      if s.flag Reg.CAL_STAT_PWRUP then min w (s.boot.firstTick + 721) else w
    let slot := if s.cal.newest = some 0 then 1 else 0
    let number := max (s.cal.seqOf 0) (s.cal.seqOf 1) + 1
    let set : IngotReq := { zone := 3, type := 0x30, fields := leBytes slot 4 ++ leBytes number 4, payload := calPage s.otp.devid number s.cal.points }
    let hold := s.cal.hold.getD a 0
    let sure := ∀ b, (s.fst.blk b).zone = 3 → s.pairs (s.fst.blk b).native = false
    let slow := ∀ b, (s.fst.blk b).zone = 3 → s.pairs (s.fst.blk b).native = true
    s.cal.ests.length = 13 →
    (s.flag Reg.CAL_CTRL_TRACK = true → s.flag Reg.CAL_STAT_PWRUP = false → s.calPowered i = true → e.due = none →
      s.drifted = true ∨ e.lastAccept + max 60 (s.fget Reg.CAL_CFG1_MAXAGE) * 3000 ≤ s.time.tick →
      ∃ x, exec (.calEstimateDue g u) s = .next x ∧ due x = { e with due := some s.time.tick, passing := 0, tsum := 0, esc := s.drifted }) ∧
    (ready → reason = 0 → ∃ x, exec (.calEstimateDone g u pair v se) s = .next x ∧ x.cal.points = updatePoints i q (calNorm g v) s.cal.points ∧ x.cal.changed = true ∧
      due x = { e with due := none, deferred := false, esc := false, passing := 0, tsum := 0, rejects := [], lastAccept := s.time.tick } ∧ x.flag Reg.CAL_EVT_ACCEPT = true ∧
      x.flag Reg.CAL_STAT_REJECT = false) ∧
    (ready → reason ≠ 0 → reason ≠ 8 → ∃ x, exec (.calEstimateDone g u pair v se) s = .next x ∧ x.cal.points = s.cal.points ∧ (due x).due = none ∧ (due x).passing = 0 ∧ (due x).rejects = [] ∧
      x.flag Reg.CAL_EVT_REJECT = true ∧ x.flag Reg.CAL_STAT_REJECT = true ∧ x.fget Reg.CAL_STAT_REASON = reason ∧ x.fget Reg.CAL_STAT_GROUP = g) ∧
    (forms → s.calPowered i = true → g.val = 4 → 4 ≤ seen.length → calReason 4 ratios (interp i s.tcal s.cal.points) (lnaSe seen) false = 0 → ∃ x, exec (.calEstimateDone g u pair v se) s = .next x ∧
      x.cal.points = updatePoints i s.tcal ratios s.cal.points ∧ x.flag Reg.CAL_EVT_ACCEPT = true ∧ x.cal.pairDef.getD (6 * u.val + pair.val) false = false) ∧
    (e.due = some d → s.calPowered i = true → last ≤ s.time.tick → e.passing < max 1 (s.fget Reg.CAL_CFG0_EST_T) → ∃ x, exec (.calAbandon g u) s = .next x ∧
      due x = { e with due := none, passing := 0, tsum := 0, esc := false, rejects := [] } ∧ x.flag Reg.CAL_EVT_ABANDON = true) ∧
    (s.time.tick % 3000 = 0 → s.cal.reeval ≠ s.time.tick → s.boot.planned = true → ∃ x, exec .calReevaluate s = .next x ∧ x.cal.reeval = s.time.tick ∧ x.cal.points = s.cal.points) ∧
    (s.saveDue = true → s.cal.saved.length = 2 → s.fstCanWrite = true → s.Room set →
      (sure → ∃ x, exec (.calAutosave true) s = .next x ∧ x.flag Reg.CAL_EVT_SAVED = true ∧ x.cal = { s.cal with
        saved := modifyAt s.cal.saved slot (fun _ => some (number, s.cal.points)), undur := none, changed := false, wanted := false, lastSave := s.time.tick } ∧
        (∃ z ∈ x.fst.ingots, z.seq = s.fst.lastSeq + 1 ∧ z.req = set) ∧ ∀ z ∈ x.fst.ingots, z.req.zone = 3 → z.calSlot slot = true → z.seq = s.fst.lastSeq + 1) ∧
      (slow → ∃ x, exec (.calAutosave true) s = .next x ∧ x.flag Reg.CAL_EVT_SAVED = s.flag Reg.CAL_EVT_SAVED ∧ x.cal = { s.cal with
        undur := some (s.fst.lastSeq + 1, slot, number, s.cal.points), changed := false, wanted := false, lastSave := s.time.tick } ∧
        ∃ z ∈ x.fst.ingots, z.seq = s.fst.lastSeq + 1 ∧ z.req = set)) ∧
    (s.saveDue = true → s.fstCanWrite = false → ∃ x, exec (.calAutosave true) s = .next x ∧ x.flag Reg.CAL_EVT_SAVE_FAIL = true ∧ x.cal = s.cal) ∧
    (s.saveDue = true → ∃ x, exec (.calAutosave false) s = .next x ∧ x.flag Reg.CAL_EVT_SAVE_FAIL = true ∧ x.cal = s.cal) ∧
    (s.Serves p k Reg.CAL_CTRL t → k = 0 → (∃ x, exec (.calStart p t) s = .next x ∧ (forms → s.calPowered i = true → (due x).due ≠ none ∧ (due x).esc = true) ∧
        (¬ forms → x.cal.ests = s.cal.ests)) ∧
      (∃ x, exec (.calSave p t) s = .next x ∧ x.cal.wanted = true) ∧
      (∃ x, exec (.calFactory p t) s = .next x ∧ ∃ w, x.reqs = s.reqs ++ [{ due := y.boundaryTick, accept := y.stamp, tenant := 0, kind := .reg Reg.CAL_CTRL w }] ∧ w.getLsbD 29 = true)) ∧
    (s.flag Reg.CAL_STAT_PWRUP = true → hold < 13 → s.cal.hold.length = 2 → s.cal.holds.length = 2 → ∃ x, exec (.calSweepHoldEnd a clip peak obs) s = .next x ∧
      x.now = (s.at ((s.boot.firstTick + 1 + 16 * (hold + 1)) * 2048000)).now ∧ x.cal.hold.getD a 0 = hold + 1 ∧
      x.cal.holds.getD a [] = s.cal.holds.getD a [] ++ [(clip || s.cal.holdEm.getD a false, peak)] ∧ x.fget (Reg.FE_STAT_GNOW a) = sweepStep (hold + 1)) ∧
    (s.flag Reg.CAL_STAT_PWRUP = true → hold = 13 → s.cal.hold.length = 2 → s.cal.holds.length = 2 → ∃ x, exec (.calSweepHoldEnd a clip peak obs) s = .next x ∧
      x.now = (s.at ((s.boot.firstTick + 225) * 2048000)).now ∧ x.cal.hold.getD a 0 = 14 ∧
      x.cal.holds.getD a [] = s.cal.holds.getD a [] ++ [(clip || s.cal.holdEm.getD a false, peak)] ∧ x.fget (Reg.FE_STAT_GNOW a) = s.fget (Reg.FE_STAT_GNOW a)) ∧
    (s.flag Reg.CAL_STAT_PWRUP = true → ∃ x, exec (.calGainSet a) s = .next x ∧ x.now = (s.at ((s.boot.firstTick + 225) * 2048000)).now ∧
      x.fget (Reg.FE_STAT_GNOW a) = s.sweepGain a % 8) ∧
    (s.flag Reg.CAL_STAT_PWRUP = true → ∃ x, exec .calPwrupEnd s = .next x ∧ x.now = (s.at ((s.boot.firstTick + 750) * 2048000)).now ∧ x.flag Reg.CAL_STAT_PWRUP = false ∧
      x.flag Reg.CAL_EVT_PWRUP_DONE = true ∧ due x = { e with due := none, passing := 0, tsum := 0, deferred := e.deferred || decide (e.lastAccept = 0) })

/-! ## Receivers, records and the flash store -/

/-- R293, R295, R297 to R305, R309: a peak at or above the threshold and above both its sides, heard on valid and settled samples, starts a reception on an armed channel, and ends one that awaits its start (NO_START past the deadline, FALSE_START for a better one) or that a
stronger burst captures (COLLIDED), else it is MISSED; a start condition met by its deadline begins the bits, at the deadline itself too, and one met where the peak is decided goes first; a reception ends GOOD or BAD_FRAME as its bits check, TOO_LONG or INTERRUPTED, each with its report; a paired
report waits for its partner and is given when its wait is over; a detection triggers a snapshot where SNP_BURST enables it (R458); each report carries the quality words of its stu; BRS_CAPTURE is a request while its context is open.
How the classes frame their bits beyond the spec's words is the model's (log entry 83). -/
def Obligations.BurstReceivers : Prop :=
  ∀ (s : State) (n : Fin 256) (c : Fin 2) (k : PeakIn) (cur : PeakS) (st since t q : Nat) (dx good : Bool) (raw : List Bool) (w : PairWait) (p : Fin 4) (own : Nat) (v : Word),
    let x := s.ctx n
    let y := s.at t
    let po := x.chain.outPer
    let d := k.p + 2 * po
    let pk : PeakS := { p := k.p, qual := k.qual, level := k.level, snr := k.snr, fine := k.fine, fofs := k.fofs }
    let port := x.ports.getD q {}
    let bit := s.bitOfCtx n
    let late := s.startDeadline n cur
    let last := s.endDeadline n st
    let fin := st + raw.length * bit
    let got := s.bitsBy n st last raw
    let had := s.bitsBy n cur.p late raw
    let capture := cur.level + (s.fget (Reg.BRS_CAPTURE_REG_CAPTURE n) : Int) ≤ k.level
    let better := cur.qual < k.qual ∨ cur.level + (s.fget (Reg.BRS_CAPTURE_REG_PREEMPT n) : Int) ≤ k.level
    let hears := x.brs.alloc = true ∧ x.chain.on = true ∧ x.chain.void = false ∧ (s.flt.restart = none ∨ s.flt.restartStep = 0) ∧ max 1 (s.fget (Reg.BRS_DET_THR n)) ≤ k.qual ∧ (∀ z ∈ k.sides, z < k.qual) ∧
      x.brs.rearm ≤ k.p - (s.brsRef n po - 1) * po ∧ x.chain.deaf < k.p - (s.brsRef n po - 1) * po
    let running := s.brsClass n = 2 ∨ d < last
    let meets := cur.p + raw.length * bit = d ∧ d ≤ late
    let waits := s.chan n c = .await cur ∧ (s.startMet n raw = none ∨ ¬ meets)
    let receives := s.chan n c = .recv cur st dx
    let ends := receives ∧ s.endMet n dx raw = some good ∧ fin ≤ last
    let started : State → Prop := fun u => u.now = (s.at d).now ∧ u.chan n c = .await pk ∧ u.flag (Reg.BRS_EVT_DETECT n) = true ∧
      (x.chain.agc.getLsbD 31 = true → s.laterDetect n c d = false → ∃ g, (u.ctx n).chain.setGain = some (d, g))
    let told : State → Rec → Prop := fun u r => x.burstPort = some q → q < x.ports.length → port.lostNow = 0 →
      queueBytes port.queue + r.bytes.length ≤ 64 * s.burstMost n → (s.time.tick, { r with qual := s.qualAt r.stu }) ∈ ((u.ctx n).ports.getD q {}).queue
    let report : Nat → Nat → PeakS → Nat → List Bool → Rec := fun u status at1 start l => reportRec u status c 0 at1 po start (s.payloadOf n l).1 (s.payloadOf n l).2
    x.brs.chans.length = 2 →
    (hears → s.chan n c = .armed since → since < d → ∃ u, exec (.peakDecision n c k raw) s = .next u ∧ started u) ∧
    (hears → s.chan n c = .armed since → d ≤ since → exec (.peakDecision n c k raw) s = .next (s.at d)) ∧
    (hears → waits → late ≤ d → ∃ u, exec (.peakDecision n c k raw) s = .next u ∧ started u ∧ told u (report late 4 cur 0 []) ∧
      u.flag (Reg.BRS_EVT_TIMEOUT n) = true) ∧
    (hears → waits → d < late → cur.p < k.p → better → ∃ u, exec (.peakDecision n c k raw) s = .next u ∧ started u ∧
      told u (report d 3 cur 0 []) ∧ u.flag (Reg.BRS_EVT_FALSESTART n) = true) ∧
    (hears → s.chan n c = .await cur → s.startMet n raw = some dx → meets → s.brsClass n = 2 ∨ d < s.endDeadline n d → k.p < cur.p + s.brsRef n po * po →
      ∃ u, exec (.peakDecision n c k raw) s = .next u ∧ u.now = (s.at d).now ∧ u.chan n c = .recv cur d dx) ∧
    (hears → receives → running → cur.p + s.brsRef n po * po ≤ k.p → s.flag (Reg.BRS_CAPTURE_REG_CAPEN n) = true → capture →
      ∃ u, exec (.peakDecision n c k raw) s = .next u ∧ started u ∧ told u (report d 5 cur st (s.bitsBy n st d raw)) ∧ u.flag (Reg.BRS_EVT_COLLIDED n) = true) ∧
    (hears → receives → running → cur.p + s.brsRef n po * po ≤ k.p → s.flag (Reg.BRS_CAPTURE_REG_CAPEN n) = false ∨ ¬ capture →
      ∃ u, exec (.peakDecision n c k raw) s = .next u ∧ u.chan n c = .recv cur st dx ∧ told u (report d 6 pk 0 []) ∧ u.flag (Reg.BRS_EVT_MISSED n) = true) ∧
    (hears → receives → s.brsClass n ≠ 2 → last ≤ d → s.endMet n dx got = none → ∃ u, exec (.peakDecision n c k raw) s = .next u ∧ (last < d → started u) ∧
      (last = d → u.chan n c = .armed d) ∧ told u (report last 7 cur st got) ∧ u.flag (Reg.BRS_EVT_TIMEOUT n) = true) ∧
    (s.chan n c = .await cur → s.startMet n raw = some dx → cur.p + 2 * po < t → t ≤ late → ∃ u, exec (.startCondition n c t raw) s = .next u ∧ u.now = y.now ∧ u.chan n c = .recv cur t dx) ∧
    (hears → s.chan n c = .armed since → since < d → s.flag Reg.SNP_STAT_HELD = false → d < 2 ^ 64 → (s.rget (Reg.SNP_BURST (n / 32))).toNat.testBit (n % 32) = true →
      ∃ u, exec (.peakDecision n c k raw) s = .next u ∧ u.flag Reg.SNP_STAT_HELD = true ∧ u.rget64 Reg.SNP_STU_LO = d ∧ u.fget Reg.SNP_CAUSE_SRC = 64 ∧ u.fget Reg.SNP_CAUSE_CTX = n) ∧
    (s.chan n c = .await cur → s.startMet n had = some dx → cur.p + had.length * bit = late → ∃ u, exec (.startDeadline n c raw) s = .next u ∧ u.now = (s.at late).now ∧
      u.chan n c = .recv cur late dx) ∧
    (s.chan n c = .await cur → s.startMet n had = none ∨ cur.p + had.length * bit ≠ late → ∃ u, exec (.startDeadline n c raw) s = .next u ∧ u.now = (s.at late).now ∧ u.chan n c = .armed 0 ∧ told u (report late 4 cur 0 []) ∧
      u.flag (Reg.BRS_EVT_TIMEOUT n) = true) ∧
    (ends → x.brs.gap ≠ some fin → good = true → s.paired n = none → ∃ u, exec (.endCondition n c raw) s = .next u ∧ u.now = (s.at fin).now ∧ u.chan n c = .armed fin ∧
      told u (report fin 1 cur st raw) ∧ u.flag (Reg.BRS_EVT_GOOD n) = true) ∧
    (ends → x.brs.gap ≠ some fin → good = true → ∀ m, s.paired n = some m → m ≠ n.val → (s.ctx m).brs.waits = [] → ∃ u, exec (.endCondition n c raw) s = .next u ∧
      (u.ctx n).brs.waits = x.brs.waits ++ [{ chan := c, start := st, snr := cur.snr, due := fin + 2 * bit, rep := report fin 1 cur st raw }]) ∧
    (ends → x.brs.gap ≠ some fin → good = false → ∃ u, exec (.endCondition n c raw) s = .next u ∧ u.now = (s.at fin).now ∧ u.chan n c = .armed fin ∧
      told u (report fin 2 cur st raw) ∧ u.flag (Reg.BRS_EVT_BADFRAME n) = true) ∧
    (ends → x.brs.gap = some fin → ∃ u, exec (.endCondition n c raw) s = .next u ∧ u.now = (s.at fin).now ∧ u.chan n c = .armed 0 ∧
      told u (report fin 8 cur st (s.bitsBy n st fin raw))) ∧
    (receives → s.brsClass n ≠ 2 → s.endMet n dx got = none → ∃ u, exec (.endDeadline n c raw) s = .next u ∧ u.now = (s.at last).now ∧ u.chan n c = .armed last ∧
      told u (report last 7 cur st got) ∧ u.flag (Reg.BRS_EVT_TIMEOUT n) = true) ∧
    (receives → s.brsClass n ≠ 2 → s.endMet n dx got = some true → st + got.length * bit = last → x.brs.gap ≠ some last → s.paired n = none → ∃ u, exec (.endDeadline n c raw) s = .next u ∧
      u.now = (s.at last).now ∧ u.chan n c = .armed last ∧ told u (report last 1 cur st got) ∧ u.flag (Reg.BRS_EVT_GOOD n) = true) ∧
    (receives → s.brsClass n ≠ 2 → s.endMet n dx got = some good → st + got.length * bit = last → x.brs.gap = some last → ∃ u, exec (.endDeadline n c raw) s = .next u ∧
      u.now = (s.at last).now ∧ u.chan n c = .armed 0 ∧ told u (report last 8 cur st (s.bitsBy n st last got))) ∧
    (receives → ∃ u, exec (.burstGapInterrupt n c t raw) s = .next u ∧ u.now = y.now ∧ u.chan n c = .armed 0 ∧ told u (report t 8 cur st (s.bitsBy n st t raw))) ∧
    (s.chan n c = .await cur → ∃ u, exec (.burstGapInterrupt n c t raw) s = .next u ∧ u.now = y.now ∧ u.chan n c = .armed 0 ∧ told u (report t 8 cur 0 [])) ∧
    (x.brs.waits.find? (fun z => !s.pairBusy n z) = some w → ∃ u, exec (.pairTimeout n) s = .next u ∧ u.now = (s.at w.due).now ∧ w ∉ (u.ctx n).brs.waits ∧ told u { w.rep with flags := 0 }) ∧
    (s.Serves p own (Reg.BRS_CAPTURE_REG n) t → s.busyCtx n = true → ∃ u, exec (.brsCaptureWrite p n v t) s = .next u ∧ u.regs = s.regs ∧
      u.reqs = s.reqs ++ [{ due := y.boundaryTick, accept := y.stamp, tenant := own, kind := .reg (Reg.BRS_CAPTURE_REG n) v }]) ∧
    (s.Serves p own (Reg.BRS_CAPTURE_REG n) t → s.busyCtx n = false → exec (.brsCaptureWrite p n v t) s = .next (y.wr (Reg.BRS_CAPTURE_REG n) v))

/-- R330, R331, R333, R340 to R344, R347, R353: an OBS reference opens an interval, whose close forms a record of its kept observations or counts a SKIP; an event's record is formed 1 s after its first event; the first
staged record, or one that comes before any other, commits with the next sequence and the chain's head, within 24 ticks of its close unless it has waited past them; a checkpoint names both once a minute; ENROL, ROLL and RELEASE stage KEY records under a proof; and a WITNESS command asks for a
reference at the boundary of R15 or posts an event.
A compute restart holds closes and commits (R354), and events wait for the journal (R351). When an OBS that was skipped is asked for again is the model's (log entry 50). -/
def Obligations.WitnessUnit : Prop :=
  ∀ (s : State) (t r : Nat) (v : WitIvl) (vs : List WitIvl) (ev : WitRec) (evs : List WitRec) (w1 : WitS) (p : Fin 4) (k : Fin 4) (tag : BitVec 16) (code : BitVec 8) (data : List Byte),
    let y := s.at t
    let w := s.wit
    let cert := (s.host.ports.getD p {}).cert
    let proved := s.Serves p 0 Reg.KEY_CTRL t ∧ (s.host.ports.getD p {}).proof ≠ none ∧ s.journal = true ∧ s.flag Reg.KEY_STAT_BUSY = false ∧ w.staged.length < 256
    let staged : State → Nat → Prop := fun u op => u.flag Reg.KEY_STAT_BUSY = true ∧ ∃ x ∈ u.wit.staged, x.ref = y.now ∧ x.asked = true ∧ match x.body with
      | .key o _ c why => o = op ∧ why = 0 ∧ c = (if op = 3 then [] else cert)
      | _ => False
    let epoch := min 255 s.otp.epochs
    let bytes := coseSign1 (s.signer ev.body) (ev.payload w.next w.head epoch s.otp.devid)
    let ingot : IngotReq := { zone := 1, type := 0x10, fields := leBytes w.next 8 ++ leBytes epoch 1, payload := bytes, refStu := ev.ref }
    let ckpt : IngotReq := { zone := 1, type := 0x11, fields := leBytes (w.next - 1) 8 ++ leBytes epoch 1
                             payload := leBytes (w.next - 1) 8 ++ w.head ++ leBytes epoch 1 ++ List.replicate 7 0 ++ leBytes w.headIngot 8 }
    let running := s.flt.restart = none
    let by24 := if ev.formed + 49152000 < s.now then t else min t (ev.formed + 49152000)
    let next := (w.first = some ev ∧ w1 = { w with first := none }) ∨ (w.first = none ∧ w.staged = ev :: evs ∧ w1 = { w with staged := evs })
    (s.boot.planned = true → s.dueRef = some r → ∃ u, exec .obsReference s = .next u ∧ u.now = (s.at r).now ∧ u.wit.lastRef = r ∧
      (∃ x, u.wit.ivls = w.ivls ++ [x] ∧ x.start = w.lastRef ∧ x.ref = r ∧ x.close = r + max 2 (min 3000 (s.fget Reg.WIT_CFG_LAG)) * 2048000 ∧
        x.reqs = (w.want.filter (fun z => z.1 == r)).map (·.2)) ∧
      ∀ n ∈ s.witCtxs, (s.ctx n).mode ≠ .closed → (s.ctx n).mode ≠ .tripped → u.flag (Reg.CTX_STAT_CUEPEND n) = true) ∧
    (running → w.ivls = v :: vs → s.journal = true → w.staged.length < 224 → ∃ u x l, exec .obsIntervalClose s = .next u ∧ u.now = (s.at v.close).now ∧ u.wit.ivls = vs ∧ u.wit.closed = v.ref ∧
      u.wit.obs = w.obs.filter (fun o => decide (v.ref ≤ o.stu)) ∧ x ∈ u.wit.staged ∧ x.ref = v.ref ∧ x.formed = v.close ∧ x.time = v.time ∧ x.reqs = v.reqs ∧ x.body = .obs l ∧
      l.length ≤ max 1 (min 128 (s.fget Reg.WIT_CFG_MAXOBS)) ∧ ∀ o ∈ l, o ∈ w.obs ∧ v.start ≤ o.stu ∧ o.stu < v.ref) ∧
    (running → w.ivls = v :: vs → s.journal = false ∨ 224 ≤ w.staged.length → ∃ u, exec .obsIntervalClose s = .next u ∧ u.flag Reg.WIT_EVT_SKIP = true ∧ u.wit.staged = w.staged ∧ u.wit.ivls = vs ∧
      u.wit.want = w.want ++ v.reqs.map (fun z => ((s.at v.close).boundaryTick * 2048000, z))) ∧
    (s.journal = true → w.evts = ev :: evs → ∃ u x, exec .evtCoalesceClose s = .next u ∧ u.now = (s.at ev.formed).now ∧ u.wit.evts = evs ∧ x ∈ u.wit.staged ∧ x.formed = ev.formed ∧ x.body = ev.body ∧
      x.reqs = ev.reqs ∧ x.ref = match ev.body with
        | .evt _ _ (some _) _ _ => (s.at ev.formed).now
        | _ => ev.ref) ∧
    (¬ running → exec .obsIntervalClose s = .next s ∧ exec (.recordCommit t) s = .next (s.at (s.commitBy t))) ∧ (s.journal = false → exec .evtCoalesceClose s = .next s) ∧
    (running → next → w.late = [] → s.fstCanWrite = true → s.Room ingot → ∃ u, exec (.recordCommit t) s = .next u ∧ u.now = (s.at by24).now ∧ u.wit.staged = w1.staged ∧ u.wit.first = w1.first ∧
      u.wit.next = w.next + 1 ∧ u.wit.head = sha256 bytes ∧ u.wit.headIngot = s.fst.lastSeq + 1 ∧ u.flag Reg.WIT_EVT_COMMIT = true ∧ u.rget64 Reg.WIT_SEQ_LO = w.next % 2 ^ 64 ∧
      ∃ i ∈ u.fst.ingots, i.seq = s.fst.lastSeq + 1 ∧ i.req = ingot) ∧
    (s.journal = true → w.next ≠ 0 → w.lastCkpt + 60 * 6144000000 ≤ y.now → s.dataPages ckpt ≤ s.dataMost false → ∃ u, exec (.witnessCheckpoint t) s = .next u ∧ u.now = y.now ∧
      u.wit = { w with lastCkpt := y.now } ∧ u.fst.queue = s.fst.queue ++ [ckpt]) ∧
    (proved → w.owk = none → ∃ u, exec (.keyEnrol p t) s = .next u ∧ staged u 1) ∧
    (proved → w.owk ≠ none → (∃ u, exec (.keyRoll p t) s = .next u ∧ staged u 2) ∧ (∃ u, exec (.keyRelease p t) s = .next u ∧ staged u 3)) ∧
    (s.Serves p 0 Reg.KEY_CTRL t → (s.host.ports.getD p {}).proof = none → ∃ u, exec (.keyEnrol p t) s = .next u ∧ u.fget Reg.KEY_STAT_RESULT = 1 ∧ u.wit = w) ∧
    (s.Ready k t → s.right k 1 = true → ∃ u, exec (.witnessObs k tag t) s = .next u ∧ s.Took u k t ∧
      u.wit = { w with want := w.want ++ [(y.boundaryTick * 2048000, { tenant := k, tag := tag.toNat, accept := y.stamp })] }) ∧
    (s.Ready k t → s.right k 1 = false → ∃ u, exec (.witnessObs k tag t) s = .next u ∧ s.Completed u k tag.toNat 7 0x17 y.stamp [] ∧ u.wit = w) ∧
    (s.Ready k t → s.right k 1 = true → 16 ≤ code.toNat → code.toNat ≤ 31 → data.length ≤ 32 → (∀ z ∈ w.evts, z.collects code.toNat y.now none = false) →
      w.staged.length + w.evts.length < 256 → (s.journal = true ∨ w.evts.length < 32) → ∃ u x, exec (.witnessEvent k tag code data t) s = .next u ∧ s.Took u k t ∧ u.wit.evts = w.evts ++ [x] ∧
      x.formed = y.now + 6144000000 ∧ x.ref = y.now ∧ x.body = .evt code.toNat 1 none data k ∧ x.reqs = [{ tenant := k, tag := tag.toNat, accept := y.stamp }])

/-- R8, R357, R362, R363, R365, R370 to R373, R375 to R377, R380 to R386: mount, which needs ICS lock, ends by what discovery found, and FORMAT makes a fresh medium where the zones staged at its acceptance fit, at once or with the next lock of ICS; the first ingot that need not wait, for its temperature or for room, commits under the next sequence,
is durable once PAIRDIST pages follow it, what it supersedes being gone then, and a pad makes up the count; a FLASH port's records close into an ingot, unless nothing may be retired for it; a failed block is emptied and retired, a failed label block once a root stands in the other, reads and scrubs are counted on their block and lose the ingots
they cannot decode, a due block is emptied and erased, cold data is levelled, and each whole second and minute the retention clock grows and is stamped; SCRUBNOW asks for every block that holds pages.
What a format drops and how the decodes of a read end are the model's (log entries 49 and 64). -/
def Obligations.FlashStore : Prop :=
  ∀ (s : State) (t b a f seq : Nat) (r : IngotReq) (i : IngotS) (o : CwObs) (ps : List (List CwObs)) (ctx : Fin 256) (q : Fin 16) (buf : PortBuf) (p : Fin 4) (g : Geom) (native : Bool)
    (bad : List Nat) (fwd : List (Nat × List (Option (List Byte)))) (again : List (Nat × List CwObs)),
    let y := s.at t
    let x := s.fst
    let osc := y.oscGo
    let page := (x.geom.map (·.page)).getD 4096
    let dist := s.fget Reg.FST_NATIVE_PAIRDIST
    let flush := max 1 (s.fget Reg.FST_NATIVE_FLUSH)
    let bits := max 1 (s.fget Reg.FST_SCRUB_REFRESH)
    let rd := readCw x.levels o
    let reads := ps.map x.geo.pageReads
    let all := pageRead (reads.map pageRead)
    let runs := s.nandRuns = true
    let data : Nat → Prop := fun z => z < x.blocks.length ∧ (x.blk z).native = native ∧ 2 ≤ (x.blk z).st ∧ (x.blk z).st < 5 ∧ x.inBlock z ≠ []
    let before := s.outOfTemp = false ∧ (∃ k ∈ x.blocks, k.xtemp = true ∧ k.st < 5) ∧ (x.blk b).xtemp = false
    let moved := x.lastMove.getD (if native then 1 else 0) 0
    let spread := max 1 (if native then s.fget Reg.FST_WL_NATIVE else s.fget Reg.FST_WL_PSLC)
    let mounting := s.up = true ∧ (s.fget Reg.FST_STAT_STATE = 1 ∨ s.fget Reg.FST_STAT_STATE = 2)
    let reads1 := s.flag Reg.TOP_DOMAIN_ICS_LOCK = true
    let roots := x.ingots.filter (fun z => z.req.type == 1)
    let newest := i.origin ≤ x.lastSeq ∧ i.seq ≤ x.lastSeq ∧ (∀ z ∈ x.ingots, z.seq ≤ x.lastSeq ∧ z.replaces i = false) ∧ (i.req.type ≠ 0x12 ∨ s.wit.undurKeys = [])
    let pad := max 1 (dist - x.after i - 1)
    let padFits := s.fstCanWrite = true ∧ x.geom = some g ∧ 0 < g.page ∧ (x.blk i.block).st < 4 ∧ i.page + i.pages + 1 ≤ (x.blk i.block).next ∧
      (x.blk i.block).next + pad + 1 ≤ s.blkPages (x.blk i.block).native
    let fits := buf.size ≤ s.dataMost buf.bulk * page
    let moves := x.inBlock b = [i] ∧ newest ∧ (x.blk b).zone = i.req.zone ∧ i.req.zone ≠ 0 ∧ s.flt.restart = none ∧ y.deferredMove i = false ∧ s.flag Reg.FST_STAT_READONLY = false ∧ (s.blkMod b (fun k => { k with st := 4 })).Room i.req
    let copied : State → Prop := fun u => ∃ j ∈ u.fst.ingots, j.req = { i.req with waits := none, forced := false } ∧ j.origin = i.origin ∧ j.seq = x.lastSeq + 1 ∧ j.block ≠ b
    let stamp : IngotReq := { zone := 1, type := 3, payload := (leBytes (s.rget64 Reg.FST_RETACC_LO) 8 ++ leBytes osc.bkp.sec 6 ++ leBytes osc.bkp.frac 2 ++
      leBytes (s.kelvin * 16).floor.toNat 2 ++ leBytes 0 1 ++ leBytes (s.fget Reg.BKP_STAT_DISC) 1 ++ List.replicate 12 0) }
    let blank := s.fget Reg.FST_STAT_STATE = 4 ∧ x.geom = some g
    let fresh : State → Prop := fun u => u.flag Reg.FST_EVT_FORMATTED = true ∧ u.fget Reg.FST_STAT_STATE = 3 ∧ u.fst.anchor = none ∧ u.host.anchor = none ∧ u.cal.saved = [none, none] ∧
      u.fst.formatWait = x.formatWait
    (s.fstRuns = true → s.flt.restart = none ∨ x.begun = true → x.queue.find? (fun r => !s.deferredReq r && !s.ingotHeld r) = some r → s.Room r → (∀ k ∈ x.blocks, k.drain = 0) →
      (∀ z ∈ x.ingots, z.req.waits = none) → ∃ u, exec (.ingotCommit t) s = .next u ∧ u.now = y.now ∧ u.fst.lastSeq = x.lastSeq + 1 ∧ u.fst.queue = x.queue.erase r ∧
      (s.overQuota r = false → ∀ j ∈ x.ingots, j ∉ u.fst.ingots → ∃ z, z.replaces j = true ∧ z.durable = true ∧ (z ∈ x.ingots ∨ z.seq = x.lastSeq + 1)) ∧
      (∃ j ∈ u.fst.ingots, j.seq = x.lastSeq + 1 ∧ j.req = { r with waits := none, forced := false } ∧ j.commit = y.now) ∧
      (r.type = 3 → u.fst.stamp = some { retacc := leAt r.payload 0 8, sec := leAt r.payload 8 6, frac := leAt r.payload 14 2, ts := leAt r.payload 16 2 })) ∧
    (s.fstRuns = false ∨ (s.flt.restart.isSome = true ∧ x.begun = false) ∨ x.queue.find? (fun r => !s.deferredReq r && !s.ingotHeld r) = none → exec (.ingotCommit t) s = .next y) ∧
    (i ∈ x.ingots → i.seq = seq → newest → ∃ u, exec (.ingotDurable seq t) s = .next u ∧ u.now = y.now ∧
      (if dist ≤ x.after i then { i with durable := true } else i) ∈ u.fst.ingots ∧ (dist ≤ x.after i → ∀ z ∈ u.fst.ingots, z.origin = i.origin → i.seq ≤ z.seq)) ∧
    (x.ingots.find? (fun j => j.seq == seq && !j.durable && j.req.type != 0x7F) = some i → newest → padFits ∨ dist ≤ x.after i →
      ∃ u, exec (.padTimeout seq) s = .next u ∧ u.now = (s.at (i.commit + flush * 2048000)).now ∧ { i with durable := true } ∈ u.fst.ingots) ∧
    (x.bufs.find? (fun z => z.ctx == ctx.val && z.port == q.val) = some buf → buf.entries ≠ [] → fits → s.dataPages buf.req ≤ s.dataMost buf.bulk → s.ingotHeld buf.req = false →
      ∃ u j, exec (.ingotFlush ctx q) s = .next u ∧
      u.now = (s.at (buf.since + flush * 2048000)).now ∧ buf ∉ u.fst.bufs ∧ u.fst.queue = x.queue ++ [j] ∧ j.type = 0x20 ∧ j.zone = (if buf.bulk then 2 else 1) ∧
      j.tenant = buf.tenant ∧ j.ctx = buf.ctx ∧ j.payload = buf.entries.flatten) ∧
    (x.bufs.find? (fun z => z.ctx == ctx.val && z.port == q.val) = some buf → fits → s.ingotHeld buf.req = true →
      exec (.ingotFlush ctx q) s = .next (s.at (buf.since + flush * 2048000))) ∧
    (x.queue.find? (fun r => s.deferredReq r) = some r → ∃ u, exec .xtempDeferTimeout s = .next u ∧
      u.now = (s.at (r.waits.getD s.now + s.fget Reg.FST_PLACE_TDEFER * 6144000000)).now ∧ { r with forced := true } ∈ u.fst.queue) ∧
    (x.queue.find? (fun r => s.deferredReq r) = none → x.ingots.find? (fun j => j.req.waits.isSome) = some i → ∃ u, exec .xtempDeferTimeout s = .next u ∧
      u.now = (s.at (i.req.waits.getD s.now + s.fget Reg.FST_PLACE_TDEFER * 6144000000)).now ∧
      (s.fstCanWrite = false → u = s.at (i.req.waits.getD s.now + s.fget Reg.FST_PLACE_TDEFER * 6144000000))) ∧
    (runs → b < x.blocks.length → (x.blk b).st < 5 → (x.inBlock b = [] → ∃ u, exec (.nandOpFail b t) s = .next u ∧ u.now = y.now ∧ (u.fst.blk b).st = 5 ∧
        u.flag Reg.FST_EVT_RETIRED = true) ∧
      (moves → ∃ u, exec (.nandOpFail b t) s = .next u ∧ u.now = y.now ∧ copied u) ∧
      ((x.blk b).zone = 0 → b < 2 → 1 < x.blocks.length → (x.blk (1 - b)).st = 2 → (x.blk (1 - b)).next + 2 ≤ s.blkPages false → (∀ z ∈ x.ingots, z.seq ≤ x.lastSeq) →
        ∃ u, exec (.nandOpFail b t) s = .next u ∧ (u.fst.blk b).st = 5 ∧ u.fst.labelBlk = 1 - b ∧
          ∃ z ∈ u.fst.ingots, z.req.type = 1 ∧ z.block = 1 - b ∧ z.seq = x.lastSeq + 1)) ∧
    (runs → x.ingots.find? (fun i => i.seq == seq) = some i → (∀ v ∈ x.verify, v.1 ≠ seq) → rd.ok = false → ∃ u, exec (.nandReadDone seq t o) s = .next u ∧ u.now = y.now ∧
      u.fst.ingots = x.ingots.filter (fun i => i.seq != seq) ∧ u.flag Reg.FST_EVT_LOST = true) ∧
    (runs → x.ingots.find? (fun i => i.seq == seq) = some i → (∀ v ∈ x.verify, v.1 ≠ seq) → rd.ok = true → i.block < x.blocks.length → ∃ u, exec (.nandReadDone seq t o) s = .next u ∧
      u.fst.ingots = x.ingots ∧ (u.fst.blk i.block).corr = max (x.blk i.block).corr rd.corr ∧
      ((u.fst.blk i.block).due = true ↔ (x.blk i.block).due = true ∨ 0 < rd.retry ∨ rd.soft = true ∨ bits ≤ rd.corr)) ∧
    (∀ k pre post, runs → x.ingots.find? (fun i => i.seq == seq) = some i → x.verify = pre ++ (seq, k) :: post → (∀ v ∈ pre, v.1 ≠ seq) →
      (rd.ok = true → ∃ u, exec (.nandReadDone seq t o) s = .next u ∧ u.fst.ingots = x.ingots ∧ u.fst.verify = pre ++ (if k ≤ 1 then post else (seq, k - 1) :: post)) ∧
      (rd.ok = false → s.dataPages i.req ≤ s.dataMost (nativeZone i.req.zone) → ∃ u, exec (.nandReadDone seq t o) s = .next u ∧
        (∀ v ∈ u.fst.verify, v.1 ≠ seq) ∧ (∀ j ∈ u.fst.ingots, j.seq ≠ seq) ∧ ∃ j, u.fst.queue = x.queue ++ [j] ∧ j.payload = i.req.payload)) ∧
    (¬ runs → exec (.nandOpFail b t) s = .next y ∧ exec (.nandReadDone seq t o) s = .next y ∧ exec (.scrubRead b t ps) s = .next osc) ∧
    (runs → b < x.blocks.length → (x.blk b).st < 5 → s.flag Reg.FST_CTRL_SCRUB = true → ¬ before → ∃ u, exec (.scrubRead b t ps) s = .next u ∧ u.now = y.now ∧
      u.fst.ingots = x.ingots.filter (fun z => !(x.unreadable b (reads.map pageRead)).any (fun j => j.seq == z.seq)) ∧
      (u.fst.blk b).corr = all.corr ∧ (u.fst.blk b).scrubbed = osc.bkp.sec ∧
      (bits ≤ all.corr ∨ 0 < all.retry ∨ all.soft = true → (u.fst.blk b).due = true ∧ (u.fst.blk b).worn = true)) ∧
    (before → exec (.scrubRead b t ps) s = .next osc) ∧
    (s.fstCanWrite = true → b < x.blocks.length → 2 ≤ (x.blk b).st → (x.blk b).st < 5 → (x.blk b).drain = 0 → (x.blk b).worn = true ∨ (s.flag Reg.FST_CTRL_SCRUB = true ∧ (x.blk b).due = true) →
      (x.inBlock b = [] → (x.blk b).erases + 1 < s.endur (x.blk b).native → ∃ u, exec (.fstRefresh b [] t) s = .next u ∧ u.now = y.now ∧ (u.fst.blk b).st = (if (x.blk b).zone = 0 then 2 else 0) ∧
        (u.fst.blk b).erases = (x.blk b).erases + 1 ∧ u.flag Reg.FST_EVT_REFRESH = true) ∧
      (moves → ∃ u, exec (.fstRefresh b [] t) s = .next u ∧ u.now = y.now ∧ copied u ∧ u.flag Reg.FST_EVT_REFRESH = true)) ∧
    (s.fstCanWrite = true → s.flag Reg.FST_CTRL_WL = true → data a → data b → (x.blk a).erases + spread < (x.blk b).erases → f < x.blocks.length → (x.blk f).native = native →
      (x.blk f).st < 2 → (x.blk f).low = false → moved = 0 ∨ moved + 60 * 6144000000 ≤ y.now → x.lastMove.length = 2 → ∃ u, exec (.wearLevelMove native t) s = .next u ∧ u.now = y.now ∧
      u.fst.lastMove.getD (if native then 1 else 0) 0 = y.now) ∧
    (s.time.tick % 3000 = 0 → x.retSec ≠ s.time.tick → ∃ u, exec .retentionAccumulate s = .next u ∧ u.fst = { x with retSec := s.time.tick } ∧
      u.rget64 Reg.FST_RETACC_LO = (s.rget64 Reg.FST_RETACC_LO + (retAf (s.fget Reg.FST_RET_EA) s.kelvin * 1024).floor.toNat) % 2 ^ 64) ∧
    (s.mounted = true → s.flag Reg.FST_STAT_READONLY = false → x.lastStamp = 0 ∨ x.lastStamp + 60 * 6144000000 ≤ y.now → s.dataPages stamp ≤ s.dataMost false →
      ∃ u, exec (.clockStamp t) s = .next u ∧ u.now = y.now ∧ u.fst = { x with queue := x.queue ++ [stamp], lastStamp := y.now }) ∧
    (s.Serves p 0 Reg.FST_CTRL t → blank → s.formatFits s.stagedZones g = true → s.flag Reg.TOP_DOMAIN_ICS_LOCK = true → ∃ u, exec (.fstFormat p t) s = .next u ∧ fresh u) ∧
    (s.Serves p 0 Reg.FST_CTRL t → blank → s.formatFits s.stagedZones g = false → s.flag Reg.TOP_DOMAIN_ICS_LOCK = true → ∃ u, exec (.fstFormat p t) s = .next u ∧
      u.flag Reg.FST_EVT_FMT_FAIL = true ∧ u.fget Reg.FST_STAT_STATE = 4 ∧ u.fst.blocks = x.blocks ∧ u.fst.ingots = x.ingots) ∧
    (s.Serves p 0 Reg.FST_CTRL t → blank → s.flag Reg.TOP_DOMAIN_ICS_LOCK = false → (s.rget Reg.FST_CTRL).getLsbD 30 = false → ∃ u, exec (.fstFormat p t) s = .next u ∧
      u.fst = { x with formatWait := some s.stagedZones } ∧ u.fget Reg.FST_STAT_STATE = 4) ∧
    (∀ zs, s.clk.ics = .released → s.flag Reg.TOP_DOMAIN_REF_OK = true → x.formatWait = some zs → blank → s.formatFits zs g = true → ∃ u, exec (.icsLock t) s = .next u ∧ u.clk.ics = .locked ∧
      u.fst.formatWait = none ∧ u.fst.zonesFmt = zs ∧ u.flag Reg.FST_EVT_FORMATTED = true ∧ u.fget Reg.FST_STAT_STATE = 3) ∧
    (s.Serves p 0 Reg.FST_CTRL t → (s.rget Reg.FST_CTRL).getLsbD 31 = false → ∃ u, exec (.fstScrubnow p t) s = .next u ∧
      (∀ z, z ∈ u.fst.scrubLeft ↔ z < x.blocks.length ∧ 2 ≤ (x.blk z).st ∧ (x.blk z).st < 5) ∧ (u.fst.fullScrub = true ↔ u.fst.scrubLeft ≠ [])) ∧
    (mounting → s.flag Reg.TOP_DOMAIN_ICS_LOCK = false → exec (.mountComplete bad fwd again t) s = .next y) ∧
    (s.up = true → s.fget Reg.FST_STAT_STATE = 5 → s.host.bound = false → ∃ u, exec (.mountComplete bad fwd again t) s = .next u ∧ u.fget Reg.FST_STAT_STATE = 5 ∧
      u.host.bound = true ∧ u.host.anchor = x.anchor ∧ u.host.table = x.table) ∧
    (mounting → reads1 → supported x.found = true → x.rooted = false ∨ x.otherGeom (geomOf x.found) = true ∨ (roots ≠ [] ∧ ∀ z ∈ roots, z.seq ∈ bad) →
      ∃ u, exec (.mountComplete bad fwd again t) s = .next u ∧ u.fget Reg.FST_STAT_STATE = 4 ∧
      u.fst.geom = some (geomOf x.found) ∧ u.host.bound = true ∧ u.host.anchor = x.anchor ∧ u.host.table = x.table) ∧
    (mounting → reads1 → supported x.found = true → x.rooted = true → x.otherGeom (geomOf x.found) = false → roots = [] ∨ (∃ z ∈ roots, z.seq ∉ bad) → s.host.bound = false →
      ∃ u, exec (.mountComplete bad fwd again t) s = .next u ∧ u.fget Reg.FST_STAT_STATE = 3 ∧ u.fst.geom = some (geomOf x.found) ∧
      u.host.bound = true ∧ u.host.anchor = x.anchor ∧ u.host.table = x.table ∧ u.flag Reg.FST_EVT_MOUNTED = true)

/-- R458 to R460, R463, R464, R466, R467, R472 to R474: an edge on SNAP with PINEN, and FIRE, latch a snapshot at their stu where none is held, and count a missed trigger where one is; RAWEN is a request; the end of
a capture shows what the converters wrote and carries out a release that waited; SNAP_RELEASE frees the latch, or waits for the capture; each second gathers a telemetry record; a pass over the store
ends with its stu, in G5 with the banks in retention left for a pass of their own; a self-test that the plan places ends with its stu, moves a unit under test on or back to quarantine, and fails a healthy unit.
That a RAWEN waiting for the buffer takes effect at its release, and that a stamp is rounded down while SCS is unlocked, are the model's (log entries 33 and 84). -/
def Obligations.Snapshots : Prop :=
  ∀ (s : State) (t n : Nat) (p : Fin 4) (en pass : Bool) (wa wb : List (Nat × BitVec 12)) (ca cb : List Nat) (k : Fin 4) (tag : BitVec 16) (v : Fin 18),
    let y := s.at t
    let x := s.snp
    let ctrl := s.Serves p 0 Reg.SNP_CTRL t
    let latched : State → Nat → Prop := fun u src => u.now = y.now ∧ u.flag Reg.SNP_STAT_HELD = true ∧ u.flag Reg.SNP_EVT_LATCHED = true ∧ u.fget Reg.SNP_CAUSE_SRC = src ∧
      u.fget Reg.SNP_CAUSE_CTX = 255 ∧ u.rget64 Reg.SNP_STU_LO = y.stamp % 2 ^ 64 ∧ u.rget64 Reg.SNP_TICK_LO = s.time.tick % 2 ^ 64 ∧
      (u.rget Reg.SNP_SEQ).toNat = min 0xFFFFFFFF ((s.rget Reg.SNP_SEQ).toNat + 1)
    let missed : State → Prop := fun u => u.flag Reg.SNP_STAT_HELD = true ∧ u.flag Reg.SNP_EVT_MISSED = true ∧ u.rget64 Reg.SNP_STU_LO = s.rget64 Reg.SNP_STU_LO ∧
      (u.rget Reg.SNP_MISSED).toNat = min 0xFFFFFFFF ((s.rget Reg.SNP_MISSED).toNat + 1)
    let held := s.flag Reg.SNP_STAT_HELD = true
    let recorded := s.rget64 Reg.SNP_RAWFIRST_LO + 6144000
    let sec := s.time.tick ≠ 0 ∧ s.time.tick % 3000 = 0 ∧ s.up = true ∧ ∀ r, x.telemetry.head? = some r → leAt r 0 8 ≠ s.time.tick * 2048000
    let ready := s.Ready k t ∧ (k = 0 ∨ s.right k 4 = true)
    let done := fun u st => s.Took u k t ∧ s.Completed u k tag.toNat 8 st y.stamp []
    let g5 := s.fget Reg.TOP_DOMAIN_GRADE = 5
    let tests := s.up = true ∧ y.testPlanned v = true ∧ (v.val < 8 → s.run v = none) ∧ x.lastDone.length = 6 ∧ x.lastTest.length = 19 ∧ s.seq.engs.length = 8 ∧ s.seq.accs.length = 10
    let tested : State → Prop := fun u => u.now = y.now ∧ u.testPlanned v = false ∧ (∀ j, u.snp.lastDone.getD j 0 = if j = 3 then y.now else x.lastDone.getD j 0) ∧
      ∀ j, u.snp.lastTest.getD j 0 = if j = v.val then y.now else x.lastTest.getD j 0
    (s.flag Reg.SNP_CTRL_PINEN = true → s.up = true → ¬ held → ∃ u, exec (.snapEdge t) s = .next u ∧ latched u 1 ∧ (∀ c, c < 3 → u.rget (Reg.SNP_FE c) = y.snapFe c) ∧
      ∀ c, c < 8 → u.rget (Reg.SNP_SE c) = y.snapSe c) ∧
    (s.flag Reg.SNP_CTRL_PINEN = true → s.up = true → held → s.rget64 Reg.SNP_STU_LO ≠ y.stamp → ∃ u, exec (.snapEdge t) s = .next u ∧ missed u) ∧
    (s.flag Reg.SNP_CTRL_PINEN = false → exec (.snapEdge t) s = .next y) ∧
    (ctrl → ¬ held → ∃ u, exec (.snpFire p t) s = .next u ∧ latched u 2 ∧ u.reqs = s.reqs) ∧
    (ctrl → held → s.rget64 Reg.SNP_STU_LO ≠ y.stamp → ∃ u, exec (.snpFire p t) s = .next u ∧ missed u ∧ u.reqs = s.reqs) ∧
    (ctrl → ∃ u, exec (.rawenWrite p en t) s = .next u ∧ u.now = y.now ∧ u.reqs = if en = s.flag Reg.SNP_CTRL_RAWEN then s.reqs else
      s.reqs ++ [{ due := y.boundaryTick, accept := y.stamp, tenant := 0, kind := .reg Reg.SNP_CTRL (putField (s.rget Reg.SNP_CTRL) 8 8 (b2n en)) }]) ∧
    (held → s.flag Reg.SNP_STAT_RAWON = true → ∃ u, exec (.rawDone wa wb ca cb) s = .next u ∧ u.now = (s.at recorded).now ∧ u.flag Reg.SNP_EVT_RAWDONE = true ∧
      (s.flag Reg.SNP_STAT_RELPEND = false → u.flag Reg.SNP_STAT_HELD = true ∧ u.flag Reg.SNP_STAT_RAWDONE = true ∧ u.flag Reg.SNP_STAT_RAWON = false ∧
        u.snp.rawCodes = [wa.map (fun z => (z.1, z.2.toNat)), wb.map (fun z => (z.1, z.2.toNat))] ∧ u.snp.rawClips = [ca, cb]) ∧
      (s.flag Reg.SNP_STAT_RELPEND = true → u.flag Reg.SNP_STAT_HELD = false ∧ u.flag Reg.SNP_STAT_RAWDONE = false ∧ u.snp.rawCodes = [[], []] ∧
        u.flag Reg.SNP_STAT_RAWON = x.rawHeld)) ∧
    (ready → ¬ held → ∃ u, exec (.snapRelease k tag t) s = .next u ∧ done u 0x53) ∧
    (ready → held → s.flag Reg.SNP_STAT_RAWON = false → ∃ u, exec (.snapRelease k tag t) s = .next u ∧ done u 0 ∧ u.flag Reg.SNP_STAT_HELD = false ∧
      u.flag Reg.SNP_STAT_RAWDONE = false ∧ u.snp.rawCodes = [[], []] ∧ u.flag Reg.SNP_STAT_RAWON = x.rawHeld) ∧
    (ready → held → s.flag Reg.SNP_STAT_RAWON = true → ∃ u, exec (.snapRelease k tag t) s = .next u ∧ done u 0 ∧ u.flag Reg.SNP_STAT_HELD = true ∧
      u.flag Reg.SNP_STAT_RELPEND = true ∧ u.snp = x) ∧
    (sec → ∃ u, exec .telemetryRecord s = .next u ∧ u.now = s.now ∧ u.snp.telemetry = (s.telRecord :: x.telemetry).take 16 ∧ u.snp.secondFaults = [0, 0, 0, 0, 0] ∧
      (s.mounted = false → u.flag Reg.SNP_EVT_TELDROP = true ∧ u.snp.unjournalled = x.unjournalled) ∧
      (s.mounted = true → x.unjournalled.length < 29 → u.snp.unjournalled = x.unjournalled ++ [s.telRecord] ∧ u.fst = s.fst) ∧
      (s.mounted = true → 29 ≤ x.unjournalled.length → s.dataPages { zone := 1, type := 0x13, payload := x.unjournalled.flatten ++ s.telRecord } ≤ s.dataMost false → u.snp.unjournalled = [] ∧ ∃ q, u.fst.queue = s.fst.queue ++ [q] ∧ q.type = 0x13 ∧
        q.payload = x.unjournalled.flatten ++ s.telRecord)) ∧
    (s.up = true → x.lastDone.length = 6 → ∃ u, exec (.storeScrub n t) s = .next u ∧ u.now = y.now ∧ u.flt.logged = s.flt.logged + n ∧
      (∀ j, u.snp.lastDone.getD j 0 = if j = 2 ∧ (g5 ∨ x.asleep = []) then y.now else x.lastDone.getD j 0) ∧
      (∀ b, b ∈ u.snp.asleep ↔ g5 ∧ b < 16 ∧ b ∉ y.activeBanks (y.admitted.filter (fun z => z.2.mode == .running))) ∧
      (0 < n → u.Logged 0x0001 0xFF 0xFF 0 ∧ u.flag Reg.FLT_EVT_F0 = true)) ∧
    (s.up = false → exec (.storeScrub n t) s = .next y ∧ exec (.knownAnswerTest v pass t) s = .next y) ∧
    (y.testPlanned v = false ∨ (v.val < 8 ∧ s.run v ≠ none) → exec (.knownAnswerTest v pass t) s = .next y) ∧
    (tests → (s.unitAt v).st = 3 → ∃ u, exec (.knownAnswerTest v pass t) s = .next u ∧ tested u ∧ (∀ j, j ≠ v.val → u.unitAt j = s.unitAt j) ∧
      (pass = true → u.unitAt v = { s.unitAt v with passes := (s.unitAt v).passes + 1 }) ∧
      (pass = false → u.unitAt v = { s.unitAt v with st := 2, passes := 0 } ∧ u.flag Reg.SEQ_EVT_UNQ_FAIL = true)) ∧
    (tests → (s.unitAt v).st ≠ 3 → pass = true → ∃ u, exec (.knownAnswerTest v pass t) s = .next u ∧ tested u ∧ u.seq.engs = s.seq.engs ∧ u.seq.accs = s.seq.accs) ∧
    (tests → (s.unitAt v).st = 0 → (s.unitAt v).failed = false → pass = false → ∃ u, exec (.knownAnswerTest v pass t) s = .next u ∧ tested u ∧ (u.unitAt v).failed = true ∧
      u.Logged (if v.val < 8 then 0x2001 else 0x2002) (if v.val < 8 then v.val else v.val - 8) 0xFF 0)

/-! ## Supervision, reset and boot -/

/-- R263, R270 to R275, R277, R280, R282, R284, R510, R511: the ledger closes the account of a tick; decides the next grade, no better than its floor, at most one grade better than the present one, and shows the
limit; shows the sums of a second with the correction and the tenants over their shares; and warns of a stale reserve. UNQ puts quarantined units to their tests; HIBER is a request, its time-out holds the device, and a
wake boots it.
That E_fix is not scaled by the correction is the model's (log entry 42). -/
def Obligations.LedgerAndHibernation : Prop :=
  ∀ (s : State) (t e j b fix : Nat) (cs : List (Nat × Nat)) (p : Fin 4) (em : BitVec 8) (am : BitVec 10) (i : BootIn),
    let y := s.at t
    let l := s.ldg
    let live := s.up = true ∧ s.flt.restart = none
    let cap := max 150 (min 1400 (s.fget Reg.LDG_PCAP_PCAP)) * 10000 / 3
    let v := s.fget Reg.LDG_RESV_LEVEL
    let floor := if s.flag Reg.LDG_CTRL_PARK = true ∨ v < s.fget Reg.LDG_RMAP_G5_AT then 5 else if v < s.fget Reg.LDG_RMAP_G4_AT then 4 else
      if v < s.fget Reg.LDG_RMAP_G3_AT then 3 else if v < s.fget Reg.LDG_RMAP_G2_AT then 2 else 0
    let decides := live ∧ s.boot.rom = false ∧ l.decided ≠ s.time.tick + 1
    let now := s.fget Reg.TOP_DOMAIN_GRADE
    let show1 : Nat → Nat := fun n => min 16777215 (n / 1000)
    let of : Nat → Nat := fun k => ((l.ctxSum.filter (fun z => s.owner z.1 == some k)).map (·.2)).sum
    let share : Nat → Nat := fun k => if (s.tenancy k).nrgShare = 0 then 256 else (s.tenancy k).nrgShare
    let test : UnitS → UnitS := fun u => if u.st = 2 then { u with st := 3, passes := 0 } else u
    (live → l.prev = some (e, cs, fix) → ∃ u wu, exec .ledgerAccountClose s = .next u ∧ u.now = s.now ∧ u.ldg.prev = none ∧ u.ldg.ctxSum = addSums l.ctxSum cs ∧
      u.ldg.devSum = l.devSum + fix ∧ u.ldg.allSum = l.allSum + e + fix + wu ∧ (u.rget Reg.LDG_TICKE).toNat = min 8388607 (e + fix + wu) ∧
      (u.rget Reg.LDG_FIXE).toNat = min 8388607 fix) ∧
    (decides → ∃ u, exec .gradeDecision s = .next u ∧ u.now = (s.at (s.time.tick * 2048000 + 512000)).now ∧ u.ldg.decided = s.time.tick + 1 ∧ u.fget Reg.TOP_DOMAIN_GRADE = now ∧
      (now ≤ 5 → u.fget Reg.LDG_STAT_NEXT ≤ 5 ∧ now ≤ u.fget Reg.LDG_STAT_NEXT + 1 ∧ u.fget Reg.LDG_STAT_FLOOR ≤ u.fget Reg.LDG_STAT_NEXT) ∧
      u.fget Reg.LDG_LIMIT_L = min 8388607 (min cap s.lTh) ∧ u.flag Reg.LDG_LIMIT_BIND = decide (s.lTh < cap) ∧
      (s.flag Reg.LDG_STAT_TPARK = false → s.tHot < 1680 → u.fget Reg.LDG_STAT_FLOOR = floor ∧ u.flag Reg.LDG_STAT_TPARK = false) ∧
      (s.flag Reg.LDG_STAT_TPARK = false → 1680 ≤ s.tHot → u.fget Reg.LDG_STAT_FLOOR = 5 ∧ u.flag Reg.LDG_STAT_TPARK = true ∧ u.flag Reg.LDG_EVT_TPARK = true ∧
        u.Logged 0x0009 0xFF 0xFF 0)) ∧
    (live → s.time.tick % 3000 = 0 → ∃ u, exec .ledgerSecond s = .next u ∧ u.now = s.now ∧ (u.rget Reg.LDG_DEVE).toNat = show1 l.devSum ∧
      (∀ n, n < 256 → (u.rget (Reg.LDG_CTXE n)).toNat = show1 ((getIdx l.ctxSum n).getD 0)) ∧ (∀ k, k < 6 → (u.rget (Reg.LDG_WUE k)).toNat = show1 (l.wuSum.getD k 0)) ∧
      (∀ k, k < 4 → u.fget (Reg.LDG_TENS_UJ k) = show1 (of k) ∧ u.flag (Reg.LDG_TENS_OVER k) = decide (share k * l.limSum < of k * 256)) ∧
      (l.readings = [] ∨ l.coreSum = 0 ∨ s.flag (Reg.TW_STAT_STUCK 1) = true → u.rget Reg.LDG_KCORR = s.rget Reg.LDG_KCORR) ∧
      (l.readings ≠ [] → l.coreSum ≠ 0 → s.flag (Reg.TW_STAT_STUCK 1) = false → 768 ≤ (u.rget Reg.LDG_KCORR).toNat ∧ (u.rget Reg.LDG_KCORR).toNat ≤ 1536) ∧
      u.ldg.tbase = (s.tHot : Rat) / 16 - (max 1 (s.fget Reg.LDG_THERM_RTH) : Nat) / 100 * ((l.allSum : Rat) / 1000000000) ∧
      u.ldg.ctxSum = [] ∧ u.ldg.devSum = 0 ∧ u.ldg.allSum = 0 ∧ u.ldg.coreSum = 0 ∧ u.ldg.limSum = 0) ∧
    (s.fget Reg.LDG_CFG_RES_TO ≠ 0 → exec .resvStale s = .next ((s.at (l.resvAt + s.fget Reg.LDG_CFG_RES_TO * 6144000000)).evt Reg.LDG_EVT_RSTALE)) ∧
    (s.Serves p 0 Reg.SEQ_CTRL t → ∃ u, exec (.seqUnq p em am t) s = .next u ∧ u.now = y.now ∧
      (∀ k, k < 8 → u.seq.engs.getD k {} = if em.getLsbD k then test (s.seq.engs.getD k {}) else s.seq.engs.getD k {}) ∧
      ∀ k, k < 10 → u.seq.accs.getD k {} = if am.getLsbD k then test (s.seq.accs.getD k {}) else s.seq.accs.getD k {}) ∧
    (s.Serves p 0 Reg.LDG_CTRL t → ∃ u, exec (.ldgHiber p t) s = .next u ∧ u.now = y.now ∧
      u.reqs = s.reqs ++ [{ due := y.boundaryTick, accept := y.stamp, tenant := 0, kind := .reg Reg.LDG_CTRL 0x80000000 }]) ∧
    (s.boot.hiber = some (b, j) → ∃ u, exec .hiberTimeout s = .next u ∧ s.Islands u ∧ u.boot.hold = true ∧ u.bkp.hib = true ∧ u.up = false ∧
      u.flag Reg.BKP_STAT_PWRON = false) ∧
    (s.boot.hold = true → s.flag Reg.BKP_STAT_PWRON = true → s.boot.resetLow = false → s.boot.tmode = false → s.boot.supplyLow = false →
      ∃ u, exec (.hiberWake i) s = .next u ∧ s.Booted u i)

/-- R479 to R481, R483, R484, R486 to R488, R491, R496, R497: missed heartbeats are counted and the third hands over to the standby, whose first heartbeat completes the failover and logs it; a warden passes three
tests or is quarantined; the requests of FLT_CTRL; the majority's action is taken and a channel that differs resynchronised, three that differ reset the device; the steps of a restart, its firmware's source, its end and its time-out, and the third
restart within 60 s a device reset; an uncorrectable word trips the run that met it, marks its context, reads 0 in the raw capture, or is logged.
The plan that a failover and a restart hand over, requests found without effect, the verdicts given as operands and which registers a restart resets are the model's (log entries 45, 46, 68 and 69). -/
def Obligations.FaultHandling : Prop :=
  ∀ (s : State) (t v1 v2 v3 u0 most : Nat) (ok : Bool) (p : Fin 4) (w : Fin 2) (n : Fin 256) (e : Fin 8) (r : Run), s.numbered →
    let y := s.at t
    let f := s.flt
    let act := s.activeWd
    let handed : State → Nat → Nat → Prop := fun u code most => u.warden act = 2 ∧ u.warden (1 - act) = 0 ∧ u.flt.failover = some most ∧ u.flt.failCode = code ∧ u.flt.failUnit = act ∧
      u.seq.plan = s.seq.plan ∧ u.flt.mirror = none ∧ u.flt.newMiss = 0
    let forced : State → Nat → Prop := fun u code => u.now = y.now ∧ handed u code (y.now + 28 * 2048000)
    let judges := s.up = true ∧ s.boot.planned = true ∧ f.restart = none ∧ f.judged ≠ s.time.tick
    let due := judges ∧ f.failover = none
    let live := s.up = true ∧ s.boot.rom = false ∧ f.restart = none
    let beat := (s.at (s.time.tick * 2048000 + 512000)).now
    let recent := f.f4s.filter (fun z => decide (beat ≤ z + 60 * 6144000000))
    let missed := min 3 (s.fget Reg.FLT_STAT_HBMISS + 1)
    let restarts : State → Prop := fun u => u.now = beat ∧ u.flt.restart = some beat ∧ u.flt.restartStep = 0 ∧ u.flt.failover = none ∧ u.flt.f4s = recent ++ [beat] ∧ u.seq.plan = none ∧
      u.flag Reg.FLT_STAT_TSRUN = true ∧ u.fget Reg.TOP_DOMAIN_SUPERVISOR = 2 ∧ u.fget Reg.TOP_DOMAIN_COMPUTE = 2 ∧ u.Logged 0x4001 0xFF 0xFF 0
    let ctrl := s.Serves p 0 Reg.FLT_CTRL t
    let asks : State → Word → Prop := fun u v => u.now = y.now ∧ u.reqs = s.reqs ++ [{ due := y.boundaryTick, accept := y.stamp, tenant := 0, kind := .reg Reg.FLT_CTRL v }]
    let reset : State → Nat → Nat → Prop := fun u code at1 => s.Islands u ∧ u.boot.f5 = true ∧ u.up = false ∧ u.fget Reg.FLT_RSTCAUSE_CODE = code ∧
      u.rget Reg.FLT_RSTSTU = BitVec.ofNat 32 at1
    let free := min (max t (f.resetAt + 6144000)) (max (f.resetAt + 6144000) (u0 + 2 * 6144000))
    let reads := min t (u0 + 60 * 6144000)
    let source := s.firmwareSources.find? (fun z => (s.firmwareErr z.2).isNone)
    (due → ∃ u, exec (.heartbeatDeadline true) s = .next u ∧ u.now = beat ∧ u.fget Reg.FLT_STAT_HBMISS = 0 ∧ u.flt = { f with judged := s.time.tick }) ∧
    (due → s.fget Reg.FLT_STAT_HBMISS < 2 → ∃ u, exec (.heartbeatDeadline false) s = .next u ∧ u.now = beat ∧ u.fget Reg.FLT_STAT_HBMISS = s.fget Reg.FLT_STAT_HBMISS + 1 ∧
      u.flt = { f with judged := s.time.tick }) ∧
    (due → s.fget Reg.FLT_STAT_HBMISS = 2 → s.standby = true → ∃ u, exec (.heartbeatDeadline false) s = .next u ∧ u.now = beat ∧
      handed u 0x3001 ((s.time.tick - 2 + 30) * 2048000)) ∧
    (due → s.fget Reg.FLT_STAT_HBMISS = 2 → s.standby = false → (2 ≤ recent.length → ∃ u, exec (.heartbeatDeadline false) s = .next u ∧ reset u 0x5002 beat) ∧
      (recent.length < 2 → ∃ u, exec (.heartbeatDeadline false) s = .next u ∧ restarts u)) ∧
    (judges → f.failover = some most → (∃ u, exec (.heartbeatDeadline true) s = .next u ∧ u.now = beat ∧ u.fget Reg.FLT_STAT_HBMISS = 0 ∧ u.flt = { f with judged := s.time.tick, newMiss := 0 }) ∧
      (s.time.tick * 2048000 + 512000 ≤ most → ∃ u, exec (.heartbeatDeadline false) s = .next u ∧ u.fget Reg.FLT_STAT_HBMISS = missed ∧ u.flt = { f with judged := s.time.tick }) ∧
      (most < s.time.tick * 2048000 + 512000 → f.newMiss ≠ 2 → ∃ u, exec (.heartbeatDeadline false) s = .next u ∧ u.fget Reg.FLT_STAT_HBMISS = missed ∧
        u.flt = { f with judged := s.time.tick, newMiss := f.newMiss + 1 }) ∧
      (most < s.time.tick * 2048000 + 512000 → f.newMiss = 2 → recent.length < 2 → ∃ u, exec (.heartbeatDeadline false) s = .next u ∧ restarts u)) ∧
    (live → s.standby = true → ∃ u, exec (.wardenMemoryError t) s = .next u ∧ forced u 0x3002) ∧
    (live → s.standby = true → ∃ u, exec (.storeEccError .warden t) s = .next u ∧ forced u 0x3003) ∧
    (f.failover = some most → s.up = true → ∃ u x, exec (.failoverComplete t) s = .next u ∧ u.now = (s.at (min t most)).now ∧ u.flt.failover = none ∧ u.fget Reg.FLT_STAT_HBMISS = 0 ∧
      u.fget Reg.TOP_DOMAIN_SUPERVISOR = act ∧ u.Logged f.failCode f.failUnit 255 0 ∧ u.seq.plan = some x ∧ x.tick = s.time.tick + 1) ∧
    (s.warden w = 2 → f.restart = none → (∃ u, exec (.wardenSelftestDone w false t) s = .next u ∧ u.now = y.now ∧ u.warden w = 3 ∧ u.Logged 0x2007 w 0xFF 0) ∧
      (f.passed.length = 2 → ∃ u, exec (.wardenSelftestDone w true t) s = .next u ∧ u.now = y.now ∧ u.flt.passed.getD w 0 = f.passed.getD w 0 + 1 ∧
        u.warden w = if f.passed.getD w 0 = 2 then 1 else 2)) ∧
    (s.standby = true → y.testPlanned 18 = true → exec (.standbySelftest true t) s = .next (y.testDone 18)) ∧
    (s.standby = false ∨ y.testPlanned 18 = false → exec (.standbySelftest ok t) s = .next y) ∧
    (s.warden w = 1 → s.warden (1 - w) ≠ 1 → y.testPlanned 18 = true → ∃ u, exec (.standbySelftest false t) s = .next u ∧ u.now = y.now ∧ u.warden w = 3 ∧ u.Logged 0x2007 w 0xFF 0) ∧
    (ctrl → (s.standby = true → ∃ u, exec (.fltFailover p t) s = .next u ∧ asks u 0x20000000) ∧
      (s.standby = false → exec (.fltFailover p t) s = .next (y.evt Reg.FLT_EVT_REFUSED)) ∧ (∃ u, exec (.fltRestart p t) s = .next u ∧ asks u 0x40000000) ∧
      (s.warden 0 ≠ 3 → s.warden 1 ≠ 3 → exec (.fltUnqw p t) s = .next (y.evt Reg.FLT_EVT_REFUSED)) ∧
      (s.warden w = 3 → f.passed.length = 2 → ∃ u, exec (.fltUnqw p t) s = .next u ∧ u.now = y.now ∧ u.warden w = 2 ∧ u.flt.passed.getD w 0 = 0) ∧
      (∃ u, exec (.fltDevreset p t) s = .next u ∧ reset u 0x5004 y.now) ∧
      (∃ u, exec (.fltAvclr p t) s = .next u ∧ u.now = y.now ∧ u.rget64 Reg.FLT_AVCNT_LO = 0 ∧ u.rget Reg.FLT_AVBAD = 0 ∧ u.rget64 Reg.FLT_AVEXCL_LO = 0) ∧
      (∃ u, exec (.fltLogclr p t) s = .next u ∧ u.now = y.now ∧ u.flt.logged = 0 ∧ u.rget Reg.FLT_LOGHEAD = 0 ∧
        ∀ a b, a < 64 → b < 4 → u.rget (Reg.FLT_LOG a b) = Reg.resetOf (Reg.FLT_LOG a b))) ∧
    (s.up = true → (v1 = v2 → v2 = v3 → exec (.tsVoteStep v1 v2 v3 t) s = .next { y with flt := { f with chans := [v1, v1, v1] } }) ∧
      ((v1 = v2 ∨ v2 = v3 ∨ v1 = v3) → ¬ (v1 = v2 ∧ v2 = v3) → ∃ u, exec (.tsVoteStep v1 v2 v3 t) s = .next u ∧ u.now = y.now ∧ u.Logged 0x000B 0xFF 0xFF 0 ∧
        u.flt.chans = List.replicate 3 (if v2 = v3 then v2 else v1)) ∧
      (v1 ≠ v2 → v2 ≠ v3 → v1 ≠ v3 → ∃ u, exec (.tsVoteStep v1 v2 v3 t) s = .next u ∧ reset u 0x5003 y.now)) ∧
    (f.restart = some u0 →
      (2 ≤ f.restartStep → exec (.tsResetRelease t) s = .next (s.at free)) ∧ (f.restartStep = 0 → exec (.tsResetRelease t) s = .next s) ∧
      (f.restartStep = 1 → ∃ u, exec (.tsResetRelease t) s = .next u ∧ u.now = (s.at free).now ∧ u.flt = { f with restartStep := 2 } ∧ u.ctxs = s.ctxs ∧
        (∀ a ∈ [Reg.SEQ_CTRL, Reg.SEQ_EVT, Reg.SEQ_OVRCNT, Reg.LDG_CTRL, Reg.LDG_EVT, Reg.LDG_PCAP, Reg.LDG_RESV, Reg.LDG_RMAP, Reg.LDG_THERM, Reg.LDG_CFG, Reg.LDG_PLAN, Reg.LDG_KCORR,
          Reg.WIT_CTRL, Reg.WIT_CFG, Reg.WIT_EVT], u.rget a = Reg.resetOf a) ∧ u.fget Reg.TOP_DOMAIN_GRADE = s.fget Reg.TOP_DOMAIN_GRADE) ∧
      (f.restartStep < 2 → exec (.tsFirmwareRead t) s = .next s) ∧
      (2 ≤ f.restartStep → source = none → exec (.tsFirmwareRead t) s = .next (s.at reads)) ∧
      (2 ≤ f.restartStep → ∀ c b, source = some (c, b) → ∃ u, exec (.tsFirmwareRead t) s = .next u ∧ u.now = (s.at reads).now ∧ u.flt = { f with source := some c, restartStep := max f.restartStep 3 } ∧
        u.rget Reg.BOOT_FWVER = BitVec.ofNat 32 (Config.firmwareVersion b)) ∧
      (f.restartStep = 3 → s.up = true → s.now ≤ u0 + 250 * 6144000 → ∃ u x, exec (.tsRestartComplete t) s = .next u ∧ u.now = (s.at (min t (u0 + 250 * 6144000))).now ∧ u.flt.restart = none ∧
        u.flag Reg.FLT_STAT_TSRUN = false ∧ u.fget Reg.TOP_DOMAIN_COMPUTE = 1 ∧ u.flag Reg.FLT_EVT_RESTARTED = true ∧ u.warden (if f.wdaQuar then 1 else 0) = 0 ∧ u.seq.plan = some x ∧
        x.tick = s.time.tick + 1 ∧ x.back = []) ∧
      (f.restartStep = 3 → s.up = true → u0 + 250 * 6144000 < s.now → ∃ u, exec (.tsRestartComplete t) s = .next u ∧ reset u 0x5001 s.now) ∧
      ∃ u, exec .tsRestartTimeout s = .next u ∧ reset u 0x5001 (s.at (u0 + 250 * 6144000)).now) ∧
    (s.Issues e r → (s.ctx r.ctx).mode = .running → s.up = true → ∃ u, exec (.storeEccError (.haul e) t) s = .next u ∧ u.run e = none ∧ (u.ctx r.ctx).mode = .tripped ∧
      fieldOf (u.rget (Reg.CTX_FAULT r.ctx)) 31 24 = 7) ∧
    (s.up = true → ((s.ctx n).mode ≠ .closed → ∃ u, exec (.storeEccError (.state n) t) s = .next u ∧ u.ctx n = { s.ctx n with ecc := true } ∧ ∀ m, m ≠ n.val → u.ctx m = s.ctx m) ∧
      (∃ u, exec (.storeEccError (.spare n) t) s = .next u ∧ u.now = y.now ∧ u.Logged 0x000C 0xFF n 0) ∧
      ∃ u, exec (.storeEccError (.raw v1) t) s = .next u ∧ u.now = y.now ∧ u.Logged 0x000C 0xFF 0xFF 0 ∧ ∀ o, o / 64 = v1 → u.rawByte o = 0)

/-- R42, R491, R500, R501, R503 to R506, R534: RESET_N, a supply below its threshold and TMODE reset every island but the backup domain, and the release of the last of them boots; chunks and GO in the boot window; verified firmware
starts the compute island and gives the first planned tick, and firmware that fails its check is refused with its code; the first planned tick takes DTS from the backup domain at an edge of its
oscillator; READY comes 810 ticks later.
The readings of firmware and how resets overlap are the model's (log entries 47 and 48). -/
def Obligations.ResetAndBoot : Prop :=
  ∀ (s : State) (t n : Nat) (p : Fin 4) (i : BootIn) (k : BitVec 16) (last store : Bool) (l : List (Nat × List Byte)) (c edge raw : Nat) (b b2 : List Byte),
    let y := s.at t
    let x := s.boot
    let down : State → Prop := fun u => s.Islands u ∧ u.boot.hold = false ∧ u.boot.f5 = false ∧ u.up = false
    let window := s.host.bound = false ∧ y.portServes p = true ∧ y.bootPort p = true ∧ s.bootWaits = true
    let size := k.toNat
    let fits := size ≠ 0 ∧ size ≤ 32768 ∧ x.loaded.length + size ≤ 1048576
    let err : State → Nat → Prop := fun u e => u.now = y.now ∧ u.fget Reg.BOOT_STAT_ERR = e ∧ u.boot.firmware = x.firmware ∧ u.boot.rom = x.rom
    let first := (y.now + 122880000 + 2047999) / 2048000
    let starts : State → List Byte → Nat → Nat → Prop := fun u w src f => u.now = y.now ∧ u.boot.rom = false ∧ u.boot.firmware = w ∧ u.boot.firstTick = f ∧ u.boot.going = none ∧
      u.fget Reg.BOOT_STAT_STAGE = 3 ∧ u.fget Reg.BOOT_STAT_SRC = src ∧ u.rget Reg.BOOT_FWVER = BitVec.ofNat 32 (Config.firmwareVersion w) ∧ u.fget Reg.TOP_DOMAIN_COMPUTE = 1 ∧
      u.fget Reg.TOP_DOMAIN_SUPERVISOR = s.activeWd
    let good : List Byte → Prop := fun w => Config.firmwareSigned w = true ∧ s.otp.fwFloor ≤ Config.firmwareVersion w
    let verifies := s.up = true ∧ x.rom = true ∧ x.going = some store
    let read := (s.osc raw).bkp
    let loads := s.up = true ∧ x.rom = true ∧ x.going = none ∧ x.recovery = false ∧ s.fget Reg.BOOT_STAT_BOOTSEL = 0
    (∃ u, exec (.resetNAssert t) s = .next u ∧ down u ∧ u.boot.resetLow = true ∧ u.boot.supplyLow = x.supplyLow ∧ u.boot.tmode = x.tmode) ∧
    (∃ u, exec (.supplyMonitorTrip t) s = .next u ∧ down u ∧ u.boot.supplyLow = true ∧ u.boot.supmon = true) ∧
    (∃ u, exec (.tmode true i t) s = .next u ∧ down u ∧ u.boot.tmode = true) ∧
    (x.hold = false → x.f5 = false →
      (x.resetLow = true → x.tmode = false → x.supplyLow = false → ∃ u, exec (.resetRelease i) s = .next u ∧ s.Booted u i ∧ u.rget Reg.FLT_RSTCAUSE = 0 ∧ u.rget Reg.FLT_RSTSTU = 0) ∧
      (x.resetLow = false → x.tmode = true → x.supplyLow = false → ∃ u, exec (.tmode false i t) s = .next u ∧ s.Booted u i ∧ u.rget Reg.FLT_RSTCAUSE = 0) ∧
      (x.resetLow = false → x.tmode = false → x.supplyLow = true → ∃ u, exec (.powerOnResetEnd i) s = .next u ∧ s.Booted u i)) ∧
    (x.hold = false → x.resetLow = false → x.tmode = false → x.supplyLow = false → x.f5 = true → ∃ u, exec (.resetRelease i) s = .next u ∧ s.Booted u i) ∧
    (window → fits → ∃ u, exec (.bootLoad p k last t) s = .next u ∧ u.now = y.now ∧ u.boot.loaded = x.loaded ++ s.windowBytes size ∧ u.boot.last = last ∧
      u.fget Reg.BOOT_STAT_STAGE = 1 ∧ (x.recovery = true → u.boot.windowPort = some p.val)) ∧
    (window → ¬ fits → ∃ u, exec (.bootLoad p k last t) s = .next u ∧ err u 5 ∧ u.boot.loaded = x.loaded) ∧
    (window → x.loaded ≠ [] → x.last = true → (∃ u, exec (.bootGo p t) s = .next u ∧ u.boot.going = some false ∧ u.boot.loaded = x.loaded ∧ u.fget Reg.BOOT_STAT_STAGE = 2) ∧
      (∃ u, exec (.bootStore p t) s = .next u ∧ u.boot.going = some true ∧ u.boot.loaded = x.loaded ∧ u.fget Reg.BOOT_STAT_STAGE = 2)) ∧
    (window → x.loaded = [] ∨ x.last = false → (∃ u, exec (.bootGo p t) s = .next u ∧ err u 5 ∧ u.boot.going = none) ∧
      (∃ u, exec (.bootStore p t) s = .next u ∧ err u 5 ∧ u.boot.going = none)) ∧
    (verifies → good x.loaded → ∃ u, exec (.firmwareVerified t) s = .next u ∧ starts u x.loaded 2 first) ∧
    (verifies → ¬ good x.loaded → ∃ u, exec (.firmwareVerified t) s = .next u ∧ err u (if Config.firmwareSigned x.loaded = true then 4 else 3) ∧ u.boot.loaded = [] ∧
      u.boot.going = none ∧ u.fget Reg.BOOT_STAT_STAGE = 1) ∧
    (loads → s.fget Reg.FST_STAT_STATE = 5 → ∃ u, exec (.firmwareVerified t) s = .next u ∧ err u 1 ∧ u.boot.recovery = true ∧ u.fget Reg.BOOT_STAT_STAGE = 4) ∧
    (loads → s.fget Reg.FST_STAT_STATE ≠ 5 →
      (s.firmwareCopies = [] → ∃ u, exec (.firmwareVerified t) s = .next u ∧ err u 2 ∧ u.boot.recovery = true ∧ u.fget Reg.BOOT_STAT_STAGE = 4) ∧
      (s.firmwareCopies = (c, b) :: l → good b → ∃ u, exec (.firmwareVerified t) s = .next u ∧ starts u b 0 (max 240 first)) ∧
      (s.firmwareCopies = (c, b) :: (n, b2) :: l → ¬ good b → good b2 → ∃ u, exec (.firmwareVerified t) s = .next u ∧ starts u b2 1 (max 240 first))) ∧
    (s.up = true → x.rom = false → x.planned = false → s.time.tick = x.firstTick → ∃ u, exec (.firstPlannedTick edge raw) s = .next u ∧ u.now = s.now ∧ u.boot.planned = true ∧
      u.time.a = (read.sec : Rat) + (read.frac : Rat) / 32768 + s.time.walked (max s.now edge) * s.time.k ∧ u.time.walk = s.time.walk ∧ u.time.s0 = max s.now edge ∧ u.wit.lastRef = s.now ∧ u.rget Reg.BKP_CFRAC = BitVec.ofNat 32 read.frac ∧
      u.rget64 Reg.BKP_CSTU_LO = s.stampOf (max s.now edge) % 2 ^ 64 ∧
      u.fget Reg.TB_QUAL_HI_SRC = if s.flag Reg.BKP_STAT_DISC then 4 else 0) ∧
    (s.up = true → x.planned = true → x.firstTick + 810 ≤ s.time.tick → exec .readyEvt s = .next (s.fsetB Reg.TOP_DOMAIN_READY true))

/-! ## The host's commands, ports and buses -/

/-- R191, R195, R256, R408, R410, R411: a taken IMAGE waits for its verification, whole or with its last part in place, and a part out of place drops the load; the verified image is loaded with its handle, or its status is
that of the first check it fails; UNLOAD takes a tenant's unused image; OPEN admits a context that passes its checks at one of its places, for its boundary; CLOSE asks for the boundary; each refusal has its status.
The statuses of parts on PCIe and of another's image are the model's (log entries 26 and 27). -/
def Obligations.ImagesAndContexts : Prop :=
  ∀ (s : State) (k : Fin 4) (tag h : BitVec 16) (off : BitVec 32) (b : List Byte) (n : Fin 256) (t : Nat) (v : ImgLoad) (vs : List ImgLoad) (im : ImageS) (e : Nat) (l : List ContextS),
    let y := s.at t
    let z := y.accept k
    let x := s.ten k
    let done : State → Nat → Nat → Prop := fun u op st => s.Took u k t ∧ s.Completed u k tag.toNat op st y.stamp []
    let bound : List Byte → Nat := fun w => y.now + ((1000000 * (1 + (w.length + 32767) / 32768) + if leAt w 12 4 = 1 then 500000 else 0) * 6144 + 999) / 1000
    let loaded : List Byte → ImgLoad := fun w => { bytes := w, tag := tag.toNat, accept := y.stamp, due := bound w }
    let so : List Byte := (x.load.map (·.bytes)).getD []
    let parts := s.onPcie k = false ∧ b.length ≤ 16384
    let verified := (s.at (min t (max s.now v.due))).now
    let open1 := s.isOpen n = true ∨ (s.ctx n).opening = true
    (s.Ready k t → ∃ u, exec (.imageLoad k tag b t) s = .next u ∧ s.Took u k t ∧ (u.ten k).verify = x.verify ++ [loaded b] ∧ u.images = s.images) ∧
    (s.Ready k t → s.onPcie k = true ∨ 16384 < b.length → (∃ u, exec (.imagePart k tag off b t) s = .next u ∧ done u 1 0x10) ∧
      (∃ u, exec (.imageLastPart k tag off b t) s = .next u ∧ done u 1 0x10)) ∧
    (s.Ready k t → parts → off.toNat ≠ so.length → (∃ u, exec (.imagePart k tag off b t) s = .next u ∧ done u 1 0x10 ∧ (u.ten k).load = none ∧ u.flag (Reg.HST_STAT_LOADING k) = false) ∧
      (∃ u, exec (.imageLastPart k tag off b t) s = .next u ∧ done u 1 0x10 ∧ (u.ten k).load = none ∧ u.flag (Reg.HST_STAT_LOADING k) = false)) ∧
    (s.Ready k t → parts → off.toNat = so.length → (∃ u, exec (.imagePart k tag off b t) s = .next u ∧ done u 1 0 ∧ (u.ten k).load = some { bytes := so ++ b } ∧
        u.flag (Reg.HST_STAT_LOADING k) = true ∧ (u.ten k).verify = x.verify) ∧
      (∃ u, exec (.imageLastPart k tag off b t) s = .next u ∧ s.Took u k t ∧ (u.ten k).load = none ∧ u.flag (Reg.HST_STAT_LOADING k) = false ∧
        (u.ten k).verify = x.verify ++ [loaded (so ++ b)])) ∧
    (s.Ready k t → (∀ i ∈ s.images, i.handle ≠ h.toNat) → ∃ u, exec (.imageUnload k tag h t) s = .next u ∧ done u 1 0x21) ∧
    (s.Ready k t → im ∈ s.images → im.handle = h.toNat → (∀ i ∈ s.images, i.handle = h.toNat → i.tenant ≠ k) → ∃ u, exec (.imageUnload k tag h t) s = .next u ∧ done u 1 0x13) ∧
    (s.Ready k t → im ∈ s.images → im.handle = h.toNat → im.tenant = k →
      ((∃ q ∈ s.ctxs, q.2.admitted = true ∧ q.2.image.map (·.handle) = some h.toNat) → ∃ u, exec (.imageUnload k tag h t) s = .next u ∧ done u 1 0x31 ∧ u.images = s.images) ∧
      ((∀ q ∈ s.ctxs, q.2.admitted = true → q.2.image.map (·.handle) ≠ some h.toNat) →
        ∃ u, exec (.imageUnload k tag h t) s = .next u ∧ done u 1 0 ∧ u.images = s.images.filter (fun i => i.handle != h.toNat))) ∧
    (s.shaped → s.rings k = true → 0 < x.inflight → x.ringAt ≤ v.accept → x.verify = v :: vs →
      (verifyImage v.bytes (s.right k 5) (s.tenancy k).signers = .error e →
        ∃ u, exec (.imageVerifyDone k t) s = .next u ∧ u.now = verified ∧ s.Completed u k v.tag 1 e v.accept [] ∧ (u.ten k).verify = vs ∧ u.images = s.images) ∧
      (verifyImage v.bytes (s.right k 5) (s.tenancy k).signers = .ok im → s.storeHolds [{ owner := 65536, part := 20, size := im.size }] = false →
        ∃ u, exec (.imageVerifyDone k t) s = .next u ∧ u.now = verified ∧ s.Completed u k v.tag 1 0x27 v.accept [] ∧ (u.ten k).verify = vs ∧ u.images = s.images) ∧
      (verifyImage v.bytes (s.right k 5) (s.tenancy k).signers = .ok im → s.storeHolds [{ owner := 65536, part := 20, size := im.size }] = true → (∃ g, g < 65536 ∧ ∀ i ∈ s.images, i.handle ≠ g) →
        ∃ u g, exec (.imageVerifyDone k t) s = .next u ∧ u.now = verified ∧ s.Completed u k v.tag 1 0 v.accept (leBytes g 4 ++ leBytes im.cost 4) ∧ (u.ten k).verify = vs ∧
          (∀ i ∈ s.images, i.handle ≠ g) ∧ u.images = s.images ++ [{ im with handle := g, tenant := k }])) ∧
    (s.Ready k t → (s.owner n ≠ some k.val → ∃ u, exec (.openCtx k tag n t) s = .next u ∧ done u 2 0x13) ∧
      (s.owner n = some k.val → open1 → ∃ u, exec (.openCtx k tag n t) s = .next u ∧ done u 2 0x14) ∧
      (z.openCheck k tag.toNat n = .error e → ∃ u, exec (.openCtx k tag n t) s = .next u ∧ done u 2 e ∧ u.ctxs = s.ctxs ∧ u.reqs = s.reqs) ∧
      (z.openCheck k tag.toNat n = .ok l → ∃ u, exec (.openCtx k tag n t) s = .next u ∧ s.Took u k t ∧ (∃ q ∈ l, ∃ ph, u.ctx n = { q with phase := ph, opening := true }) ∧
        (∀ m, m ≠ n.val → u.ctx m = s.ctx m) ∧ u.reqs = s.reqs ++ [{
          due := max y.boundaryTick (if s.flag Reg.TOP_DOMAIN_READY = true then 0 else s.boot.firstTick + 810), accept := y.stamp, tenant := k, kind := .openCtx n tag.toNat }])) ∧
    (s.Ready k t → (s.owner n ≠ some k.val → ∃ u, exec (.closeCtx k tag n t) s = .next u ∧ done u 3 0x13) ∧
      (s.owner n = some k.val → ¬ open1 → ∃ u, exec (.closeCtx k tag n t) s = .next u ∧ done u 3 0x15) ∧
      (s.owner n = some k.val → open1 → s.dependants n = true → ∃ u, exec (.closeCtx k tag n t) s = .next u ∧ done u 3 0x30 ∧ u.ctxs = s.ctxs ∧ u.reqs = s.reqs) ∧
      (s.owner n = some k.val → open1 → s.dependants n = false → ∃ u, exec (.closeCtx k tag n t) s = .next u ∧ s.Took u k t ∧ u.ctx n = { s.ctx n with closing := true } ∧
        (∀ m, m ≠ n.val → u.ctx m = s.ctx m) ∧ u.reqs = s.reqs ++ [{ due := y.boundaryTick, accept := y.stamp, tenant := k, kind := .closeCtx n tag.toNat }]))

/-- R172, R352, R408, R410, R413 to R415: BUDGET sets the selected fields where they count; BIND sets a closed context's port, or says what is wrong; a stream is set up PULL or PUSH; READ_STREAM takes a PULL stream's oldest whole
entries as the length allows, and READ_PASSAGE durable records from a sequence on, both to the data reference.
BUDGET fields that do not count, the right to set up stream 0, the indexes of a set-up and the statuses of a far end that a context may not have are the model's (log entries 26, 27, 28 and 79). -/
def Obligations.BudgetBindingsAndStreams : Prop :=
  ∀ (s : State) (k : Fin 4) (tag : BitVec 16) (mask level : BitVec 8) (pcap : BitVec 16) (fmax : BitVec 32) (n : Fin 256) (q tgt a b ks : BitVec 8) (daddr base wb first : BitVec 64)
    (dlen size : BitVec 32) (g : Target) (t : Nat), s.Ready k t →
    let y := s.at t
    let done : State → Nat → Nat → List Byte → Prop := fun u op st r => s.Took u k t ∧ s.Completed u k tag.toNat op st y.stamp r
    let x := s.ten k
    let str := x.streams.getD ks.toNat {}
    let es := str.entries
    let open1 := s.isOpen n = true ∨ (s.ctx n).opening = true
    let canRef := s.refOk k daddr.toNat dlen.toNat = true
    (∃ u, exec (.budget k tag mask pcap level fmax t) s = .next u ∧ done u 4 0 [] ∧
      u.fget Reg.LDG_PCAP_PCAP = (if mask.getLsbD 0 ∧ k = 0 then pcap.toNat % 2048 else s.fget Reg.LDG_PCAP_PCAP) ∧
      u.fget Reg.LDG_RESV_LEVEL = (if mask.getLsbD 1 ∧ (k = 0 ∨ s.right k 3 = true) then level.toNat else s.fget Reg.LDG_RESV_LEVEL) ∧
      u.ldg.resvAt = (if mask.getLsbD 1 ∧ (k = 0 ∨ s.right k 3 = true) then y.now else s.ldg.resvAt) ∧
      u.fget Reg.CCS_CTRL_FMAX = (if mask.getLsbD 2 ∧ k = 0 then fmax.toNat % 2 ^ 19 else s.fget Reg.CCS_CTRL_FMAX) ∧
      u.reqs = (if mask.getLsbD 2 ∧ k = 0 then s.reqs ++ [{ due := y.boundaryTick, accept := y.stamp, tenant := 0, kind := .reg Reg.CCS_CTRL (u.rget Reg.CCS_CTRL) }] else s.reqs)) ∧
    (bindTarget tgt.toNat a.toNat b.toNat = none ∨ 15 < q.toNat → ∃ u, exec (.bindPort k tag n q tgt a b t) s = .next u ∧ done u 5 0x10 []) ∧
    (bindTarget tgt.toNat a.toNat b.toNat = some g → q.toNat ≤ 15 →
      (s.owner n ≠ some k.val → ∃ u, exec (.bindPort k tag n q tgt a b t) s = .next u ∧ done u 5 0x13 []) ∧
      (s.owner n = some k.val → open1 → ∃ u, exec (.bindPort k tag n q tgt a b t) s = .next u ∧ done u 5 0x14 []) ∧
      (s.owner n = some k.val → ¬ open1 → (∀ o, g = .ctxOut n o → ∃ u, exec (.bindPort k tag n q tgt a b t) s = .next u ∧ done u 5 0x10 []) ∧
        ∀ m o, g = .ctxOut m o → m ≠ n.val → s.owner m ≠ some k.val → ∃ u, exec (.bindPort k tag n q tgt a b t) s = .next u ∧ done u 5 0x13 []) ∧
      (s.owner n = some k.val → ¬ open1 → q.toNat < (s.ctx n).ports.length → (∀ m o, g = .ctxOut m o → m ≠ n.val ∧ s.owner m = some k.val) → ∃ u, exec (.bindPort k tag n q tgt a b t) s = .next u ∧ done u 5 0 [] ∧
        ((u.ctx n).ports.getD q.toNat {}).target = g ∧ (∀ j, j ≠ q.toNat → (u.ctx n).ports.getD j {} = (s.ctx n).ports.getD j {}) ∧ ∀ m, m ≠ n.val → u.ctx m = s.ctx m)) ∧
    (31 < ks.toNat ∨ 1 < tgt.toNat → ∃ u, exec (.streamSetup k tag ks tgt base size wb t) s = .next u ∧ done u 5 0x10 []) ∧
    (ks.toNat ≤ 31 → ks.toNat < x.streams.length → (ks = 0 → s.right k 2 = true) →
      (∃ u, exec (.streamSetup k tag ks 0 base size wb t) s = .next u ∧ done u 5 0 [] ∧ (u.ten k).streams.getD ks.toNat {} = { str with push := false }) ∧
      (s.onPcie k = false → ∃ u, exec (.streamSetup k tag ks 1 base size wb t) s = .next u ∧ done u 5 0x19 []) ∧
      (s.onPcie k = true → ∀ j, j ≤ 8 → size.toNat = 65536 * 2 ^ j → base.toNat % size.toNat = 0 → ∃ u r, exec (.streamSetup k tag ks 1 base size wb t) s = .next u ∧ done u 5 0 [] ∧
        (u.ten k).streams.getD ks.toNat {} = { push := true, base := base.toNat, size := size.toNat, writeBack := wb.toNat, entries := r } ∧ u.rget (Reg.HST_SRD k ks.toNat) = 0)) ∧
    (31 < ks.toNat ∨ ¬ canRef → ∃ u, exec (.readStream k tag ks daddr dlen t) s = .next u ∧ done u 6 0x10 []) ∧
    (0 < ks.toNat → ks.toNat ≤ 31 → canRef → str.push = true → ∃ u, exec (.readStream k tag ks daddr dlen t) s = .next u ∧ done u 6 0x19 []) ∧
    (0 < ks.toNat → ks.toNat ≤ 31 → ks.toNat < x.streams.length → canRef → str.push = false → (∀ z ∈ es, 16 ≤ z.2.length) →
      ∃ u taken rest, exec (.readStream k tag ks daddr dlen t) s = .next u ∧ es = taken ++ rest ∧ (u.ten k).streams.getD ks.toNat {} = { str with entries := rest } ∧
        (taken.map (fun z => z.2.length)).sum ≤ dlen.toNat ∧ (∀ z zs, rest = z :: zs → dlen.toNat < (taken.map (fun z => z.2.length)).sum + z.2.length) ∧
        s.Put u k daddr.toNat (taken.map (·.2)).flatten ∧ done u 6 0 (leBytes (taken.map (·.2)).flatten.length 4 ++ leBytes taken.length 4)) ∧
    (¬ canRef → ∃ u, exec (.readPassage k tag first daddr dlen t) s = .next u ∧ done u 6 0x10 []) ∧
    (canRef → s.right k 2 = false → ∃ u, exec (.readPassage k tag first daddr dlen t) s = .next u ∧ done u 6 0x17 []) ∧
    (canRef → s.right k 2 = true → ∃ u l c, exec (.readPassage k tag first daddr dlen t) s = .next u ∧ (l, c) = s.passageRead (s.fst.ingots.length + 1) first.toNat dlen.toNat ∧
      s.Put u k daddr.toNat l ∧ done u 6 0 (leBytes l.length 4 ++ leBytes c 4) ∧ l.length ≤ dlen.toNat)

/-- R396 to R401: CHALLENGE gives T0 a nonce of 32 bytes; PROVE uses it up, and a certificate and signature that hold put a proof in force on the port for 600 s and claim a device without an owner; a table that passes its checks and a
clear are requests; the table in force is read back; END_PROOF and the end of the 600 s take the proof away. Each needs a proof in force, and only T0 may send them.
The status for tenants other than T0 is the model's (log entry 27). -/
def Obligations.Tenancy : Prop :=
  ∀ (s : State) (k : Fin 4) (tag : BitVec 16) (b : List Byte) (daddr : BitVec 64) (dlen : BitVec 32) (t e : Nat) (q : Fin 5) (nonce key : List Byte),
    let y := s.at t
    let done : State → Nat → List Byte → Prop := fun u st r => s.Took u k t ∧ s.Completed u k tag.toNat 9 st y.stamp r
    let p := s.rport k
    let port := s.host.ports.getD p {}
    let at1 : State → PortS := fun u => u.host.ports.getD p {}
    let asks : State → ReqKind → Prop := fun u r => s.Took u k t ∧ u.reqs = s.reqs ++ [{ due := y.boundaryTick, accept := y.stamp, tenant := 0, kind := r }]
    let cert := b.take (b.length - 64)
    let holds := Config.certPoint cert = some key ∧ (match s.host.anchor with
      | none => Config.certSignedBy cert key = true
      | some a => Config.certSignedBy cert a = true ∨ a = key) ∧
      Config.verify key (nonce ++ beBytes s.otp.devid 8 ++ leBytes p 1) (b.drop (b.length - 64)) = true
    let all : (State → Nat → Prop) → Prop := fun f =>
      (∃ u, exec (.writeTable k tag b t) s = .next u ∧ (b.length = 256 → f u 0)) ∧ (∃ u, exec (.tenancyClear k tag t) s = .next u ∧ f u 0) ∧
      (∃ u, exec (.endProof k tag t) s = .next u ∧ f u 0) ∧
      (∃ u, exec (.readTable k tag daddr dlen t) s = .next u ∧ (dlen.toNat = 256 → s.refOk k daddr.toNat 256 = true → f u 0))
    (s.Ready k t → k ≠ 0 → (∃ u, exec (.challenge k tag t) s = .next u ∧ done u 0x11 []) ∧
      (b.length ≤ 2048 → ∃ u, exec (.proveOwner k tag b t) s = .next u ∧ done u 0x11 []) ∧ all (fun u _ => done u 0x11 [] ∧ u.reqs = s.reqs)) ∧
    (s.Ready k t → k = 0 → port.proof = none → all (fun u _ => done u 0x12 [] ∧ u.reqs = s.reqs)) ∧
    (s.Ready k t → k = 0 → ∃ u n, exec (.challenge k tag t) s = .next u ∧ done u 0 n ∧ n.length = 32 ∧ (at1 u).nonce = some n ∧ (at1 u).proof = port.proof) ∧
    (s.Ready k t → 2048 < b.length → ∃ u, exec (.proveOwner k tag b t) s = .next u ∧ done u 0x10 []) ∧
    (s.Ready k t → k = 0 → b.length ≤ 2048 → s.mounted = false → ∃ u, exec (.proveOwner k tag b t) s = .next u ∧ done u 0x51 []) ∧
    (s.Ready k t → k = 0 → b.length ≤ 2048 → s.mounted = true → port.nonce = none → ∃ u, exec (.proveOwner k tag b t) s = .next u ∧ done u 0x50 [] ∧ u.host.anchor = s.host.anchor) ∧
    (s.Ready k t → k = 0 → b.length ≤ 2048 → s.mounted = true → port.nonce = some nonce → holds → ∃ u, exec (.proveOwner k tag b t) s = .next u ∧ done u 0 [] ∧
      at1 u = { port with nonce := none, proof := some (y.now + 600 * 6144000000), cert := sha256 cert } ∧
      u.host.anchor = some (s.host.anchor.getD key) ∧ (s.host.anchor ≠ none → u.host.table = s.host.table)) ∧
    (s.Ready k t → k = 0 → b.length ≤ 2048 → s.mounted = true → port.nonce = some nonce → (∀ key', Config.certPoint cert = some key' → key = key' ∧ ¬ holds) →
      ∃ u, exec (.proveOwner k tag b t) s = .next u ∧ done u 0x50 [] ∧ at1 u = { port with nonce := none } ∧ u.host.anchor = s.host.anchor) ∧
    (s.Ready k t → k = 0 → b.length ≠ 256 → ∃ u, exec (.writeTable k tag b t) s = .next u ∧ done u 0x10 []) ∧
    (s.Ready k t → k = 0 → port.proof ≠ none →
      (b.length = 256 → tableBad (tableOf b) = true → ∃ u, exec (.writeTable k tag b t) s = .next u ∧ done u 0x52 [] ∧ u.reqs = s.reqs) ∧
      (b.length = 256 → tableBad (tableOf b) = false → ∃ u, exec (.writeTable k tag b t) s = .next u ∧ asks u (.table (tableOf b) p tag.toNat)) ∧
      (dlen.toNat = 256 → s.refOk k daddr.toNat 256 = true → ∃ u, exec (.readTable k tag daddr dlen t) s = .next u ∧ done u 0 [] ∧
        s.Put u k daddr.toNat ((s.tenancy 0).bytes ++ (s.tenancy 1).bytes ++ (s.tenancy 2).bytes ++ (s.tenancy 3).bytes)) ∧
      (∃ u, exec (.tenancyClear k tag t) s = .next u ∧ asks u (.clear p tag.toNat (y.witTime y.now))) ∧
      (∃ u, exec (.endProof k tag t) s = .next u ∧ done u 0 [] ∧ at1 u = { port with nonce := none, proof := none })) ∧
    ((s.host.ports.getD q {}).proof = some e → ∃ u, exec (.proofExpire q) s = .next u ∧ u.now = (s.at e).now ∧
      u.host.ports.getD q {} = { s.host.ports.getD q {} with nonce := none, proof := none } ∧ ∀ j, j ≠ q.val → u.host.ports.getD j {} = s.host.ports.getD j {})

/-- R6, R7, R9, R392, R403 to R406, R408, R414, R416, R417: a served write inside the tenant's view writes the writable bits and clears W1C bits,
but for those set at its stu, one outside it is reported, one with part of its bytes on PCIe is a port error, one to a port not
served does nothing; the ring indexes, their enable, the coalescing time-out, Bus Master Enable, port resets and tenant resets; and a taken command entry does what its opcode says, or is refused.
RING_EN of 0 as a ring reset is the model's (log entry 28). -/
def Obligations.PortsAndRings : Prop :=
  ∀ (s : State) (p k : Fin 4) (d : Fin 2) (a v : Word) (be : BitVec 4) (i : BitVec 8) (j : Fin 32) (tag : BitVec 16) (n : Fin 256) (t raw f : Nat) (on : Bool) (w : WaitEvent) (entry data : List Byte),
    let y := s.at t
    let z := y.osc raw
    let x := s.ten k
    let plain := (p.val < 2 → be = 15) ∧ a.toNat % 4 = 0
    let others : State → Nat → Prop := fun u b => u.now = y.now ∧ ∀ c, c ≠ b → u.rget c = s.rget c
    let tail := (s.rget (Reg.HST_CPL_TAIL k)).toNat
    let op := leAt entry 0 1
    let one : Nat → List Byte := fun o => leBytes o 1 ++ [0] ++ leBytes tag.toNat 2 ++ List.replicate 4 0 ++ leBytes n 1 ++ List.replicate 55 0
    (plain → s.Serves p 0 a.toNat t →
      (a.toNat = Reg.LDG_CFG → ∃ u, exec (.registerWrite p a v be t raw) s = .next u ∧ others u a.toNat ∧ u.rget a.toNat = v) ∧
      (a.toNat = Reg.LDG_EVT → ∃ u, exec (.registerWrite p a v be t raw) s = .next u ∧ others u a.toNat ∧ (s.time.evtStu ≠ y.now → u.rget a.toNat = s.rget a.toNat &&& ~~~(v &&& 0xFF)) ∧
        ∀ e, e < 8 → s.time.evtStu = y.now → (Reg.LDG_EVT, e) ∈ s.time.evtBits → (s.rget a.toNat).getLsbD e = true → (u.rget a.toNat).getLsbD e = true) ∧
      (a.toNat = Reg.LDG_STAT → ∃ u, exec (.registerWrite p a v be t raw) s = .next u ∧ others u a.toNat ∧ u.rget a.toNat = s.rget a.toNat)) ∧
    (plain → y.portServes p = true → s.host.bound = true → s.portTenant p = some k.val → s.sees k a.toNat = false → s.shaped →
      ∃ u, exec (.registerWrite p a v be t raw) s = .next u ∧ u.now = y.now ∧ u.rget (Reg.HST_ERR k) = a ∧ u.flag (Reg.HST_ICAUSE_VIEW k) = true ∧
        u.fget (Reg.HST_ERRCNT_VIEW k) = min 65535 (s.fget (Reg.HST_ERRCNT_VIEW k) + 1)) ∧
    (p.val < 2 → be ≠ 15 → y.served = true → s.portTenant p = some k.val → ∃ u, exec (.registerWrite p a v be t raw) s = .next u ∧ u.now = y.now ∧
      u.flag (Reg.HST_ICAUSE_PORTERR k) = true ∧ u.fget (Reg.HST_ERRCNT_PORT k) = min 65535 (s.fget (Reg.HST_ERRCNT_PORT k) + 1)) ∧
    (plain → y.portServes p = false → exec (.registerWrite p a v be t raw) s = .next z) ∧
    (s.Serves p k 0xD0030 t → exec (.cqTailWrite p i t) s = .next (y.rsetN (Reg.HST_CQ_TAIL k) i.toNat)) ∧
    (s.Serves p k 0xD0038 t → x.waitEvents = [] → x.waitReqs = [] → ∃ u, exec (.cplHeadWrite p i t) s = .next u ∧ u.now = y.now ∧
      u.rget (Reg.HST_CPL_HEAD k) = BitVec.ofNat 32 i.toNat ∧ u.rget (Reg.HST_CPL_TAIL k) = s.rget (Reg.HST_CPL_TAIL k) ∧ (u.ten k).ring = x.ring) ∧
    (s.Serves p k 0xD0038 t → s.shaped → s.rings k = true → x.waitEvents = [w] → x.waitReqs = [] → s.rget (Reg.HST_CPL_HEAD k) ≠ BitVec.ofNat 32 i.toNat →
      (tail + 256 - i.toNat) % 256 + x.inflight < 256 → ∃ u, exec (.cplHeadWrite p i t) s = .next u ∧ u.now = y.now ∧ u.rget (Reg.HST_CPL_HEAD k) = BitVec.ofNat 32 i.toNat ∧
        (u.ten k).waitEvents = [] ∧ s.Completed u k w.cpl.tag w.cpl.opcode w.cpl.status w.cpl.accept w.cpl.result) ∧
    (s.Serves p k 0xD0000 t → s.shaped →
      (∃ u, exec (.ringEn p true t) s = .next u ∧ u.now = y.now ∧ u.rings k = true ∧ u.fget (Reg.HST_STAT_RPORT k) = p ∧ u.flag (Reg.HST_CTRL_RING_EN k) = true ∧
        u.rget (Reg.HST_CQ_TAIL k) = 0 ∧ u.rget (Reg.HST_CQ_HEAD k) = 0 ∧ u.rget (Reg.HST_CPL_HEAD k) = 0 ∧ u.rget (Reg.HST_CPL_TAIL k) = 0 ∧ (u.ten k).phase = true ∧
        (u.ten k).ring = [] ∧ (s.rings k = false → (u.ten k).inflight = 0 ∧ (u.ten k).ringAt = y.stamp)) ∧
      (s.rings k = true → ∃ u, exec (.ringEn p false t) s = .next u ∧ u.now = y.now ∧ u.rings k = false ∧ u.rget (Reg.HST_CQ_HEAD k) = s.rget (Reg.HST_CQ_TAIL k) ∧
        (u.ten k).inflight = 0 ∧ (u.ten k).ring = [] ∧ (u.ten k).waitEvents = [] ∧ (u.ten k).waitReqs = [] ∧
        (u.rget (Reg.HST_LOSTCPL k)).toNat = min 0xFFFFFFFF ((s.rget (Reg.HST_LOSTCPL k)).toNat + (x.waitEvents.length + x.waitReqs.length))) ∧
      exec (.hstTreset p t) s = .next { y with reqs := s.reqs ++ [{ due := y.boundaryTick, accept := y.stamp, tenant := k, kind := .treset k }] }) ∧
    (s.Serves p k (0xD0100 + 8 * j.val) t → (∃ u, exec (.srdWrite p j v t) s = .next u ∧ u.rget (Reg.HST_SRD k j) = v) ∧
      ((x.streams.getD j {}).push = false → exec (.srdWrite p j v t) s = .next (y.rset (Reg.HST_SRD k j) v))) ∧
    (s.shaped → x.firstUnread = some f → ∃ u, exec (.cplCoalesceTimeout k) s = .next u ∧
      u.now = (s.at (f + (1000 * max 1 (s.fget (Reg.HST_ICOAL_TMO k)) * 6144 + 999) / 1000)).now ∧ u.flag (Reg.HST_ICAUSE_CPL k) = true ∧ (u.ten k).firstUnread = none) ∧
    (s.shaped → ∃ u, exec (.portReset d t) s = .next u ∧ u.now = y.now ∧ (u.host.ports.getD d {}).busMaster = false ∧ (u.host.ports.getD d {}).proof = none ∧
      (u.host.ports.getD d {}).nonce = none ∧ (u.rings k = (s.rings k && decide (s.rport k ≠ d))) ∧
      (s.rings k = true → s.rport k = d → (u.ten k).ring = [] ∧ (u.ten k).load = none ∧ ∀ q ∈ (u.ten k).streams, q.push = false)) ∧
    (s.shaped → ∃ u, exec (.busMasterClear d on t) s = .next u ∧ u.now = y.now ∧ (u.host.ports.getD d {}).busMaster = on ∧
      (on = true → s.rings k = true → s.rport k = d → (u.ten k).held = [] ∧ ∀ b ∈ x.held, b ∈ u.host.out.dma)) ∧
    (s.Ready k t → s.onPcie k = true → entry.length = 64 →
      (op = 0 ∨ 9 < op → ∃ u, exec (.commandTake k entry data t) s = .next u ∧ s.Took u k t ∧ s.Completed u k (leAt entry 2 2) op 0x10 y.stamp []) ∧
      (entry = one 2 → exec (.commandTake k entry data t) s = exec (.openCtx k tag n t) s) ∧ (entry = one 3 → exec (.commandTake k entry data t) s = exec (.closeCtx k tag n t) s))

/-- R79, R393, R394, R421, R423, R424: SPI reads drive a word a time, 0xFF where the port is not served, and writes take whole words; the status byte; a TWA transfer sets the address and then writes or reads words from it;
Host Notify is sent on a free bus until its third refusal; the alert response releases TWA_ALERT_N for the device that wins.
The stu of each word and misaligned frames are the model's (log entry 54). -/
def Obligations.SerialPorts : Prop :=
  ∀ (s : State) (a v v2 : Word) (ts : List Nat) (l : List (Nat × Word)) (m : List (Nat × Byte)) (t raw t1 t2 w : Nat) (k : Fin 4) (won : Bool),
    let y := s.at t
    let z := y.osc raw
    let open2 := y.portServes 2 = true
    let open3 := y.portServes 3 = true
    let paused := s.flag Reg.ICS_STAT_PAUSED
    let timing := [s.rget (Reg.TW_TIM0 0), s.rget (Reg.TW_TIM1 0), s.rget (Reg.TW_TIM2 0)]
    let started : State → Prop := fun u => u.flag (Reg.TW_STAT_BUSY 0) = true ∧ (u.bus 0).tim = timing
    let wants := s.rget (Reg.HST_ICAUSE k) &&& s.rget (Reg.HST_IMASK k) ≠ 0
    let reads : Instr → Prop := fun i =>
      (¬ open2 → ∃ u, exec i s = .next u ∧ u.host.out.words = ts.map (fun _ => 0xFFFFFFFF) ∧ u.regs = s.regs) ∧
      (open2 → a.toNat % 4 = 0 → ∃ u, exec i s = .next u ∧ u.host.out.words.length = ts.length) ∧
      (s.Serves 2 0 a.toNat t → a.toNat = Reg.LDG_CFG → ts = [t1] → ∃ u, exec i s = .next u ∧ u.now = (y.at t1).now ∧ u.host.out.words = [s.rget Reg.LDG_CFG] ∧ u.regs = s.regs)
    let writes : Instr → Prop := fun i =>
      (¬ open2 → exec i s = .next z) ∧ (open2 → a.toNat % 4 = 0 → l = [] → exec i s = .next z) ∧
      (open2 → a.toNat % 4 ≠ 0 → s.portTenant 2 = some k.val → ∃ u, exec i s = .next u ∧ u.flag (Reg.HST_ICAUSE_PORTERR k) = true ∧
        u.fget (Reg.HST_ERRCNT_PORT k) = min 65535 (s.fget (Reg.HST_ERRCNT_PORT k) + 1)) ∧
      (s.Serves 2 0 a.toNat t → a.toNat = Reg.LDG_CFG - 4 → l = [(t1, v), (t2, v2)] → ∃ u, exec i s = .next u ∧ u.now = ((y.at t1).at t2).now ∧
        u.rget (Reg.LDG_CFG - 4) = v ∧ u.rget Reg.LDG_CFG = v2 ∧ ∀ c, c ≠ Reg.LDG_CFG - 4 → c ≠ Reg.LDG_CFG → u.rget c = s.rget c)
    let ready := s.buses.length = 2 ∧ (s.bus 0).notify = true ∧ s.twFree 0 = true
    reads (.spiRead a ts t raw) ∧ reads (.spiQuadRead a ts t raw) ∧ writes (.spiWrite a l t raw) ∧ writes (.spiQuadWrite a l t raw) ∧
    (∃ u, exec (.spiStatus t) s = .next u ∧ u.now = y.now ∧ u.regs = s.regs ∧ (y.served = false → u.host.out.bytes = [0xFF]) ∧
      (y.served = true → s.portTenant 2 = none → u.host.out.bytes = [if paused then 0xF1 else 0xF0]) ∧
      (y.served = true → s.portTenant 2 = some k.val → ∃ b, u.host.out.bytes = [b] ∧ b.toNat / 16 = k ∧ b.getLsbD 0 = paused ∧ b.getLsbD 1 = decide wants ∧ b.getLsbD 2 = false ∧
        b.getLsbD 3 = false)) ∧
    (open2 → s.portTenant 2 = some k.val → ∃ u, exec (.spiUnknownOpcode t) s = .next u ∧ u.now = y.now ∧ u.flag (Reg.HST_ICAUSE_PORTERR k) = true ∧
      u.fget (Reg.HST_ERRCNT_PORT k) = min 65535 (s.fget (Reg.HST_ERRCNT_PORT k) + 1)) ∧
    (¬ open3 ∨ m.length < 4 → exec (.twaWriteTransfer m t raw) s = .next (z.startSeen 0)) ∧
    (open3 → s.buses.length = 2 → m.map (·.2) = leBytes a.toNat 4 → ∃ u, exec (.twaWriteTransfer m t raw) s = .next u ∧ (u.bus 0).addr = a.toNat - a.toNat % 4 ∧ started u ∧ ∀ c, c ≠ Reg.TW_STAT 0 → u.rget c = s.rget c) ∧
    (s.Serves 3 0 Reg.LDG_CFG t → s.buses.length = 2 → m.map (·.2) = leBytes Reg.LDG_CFG 4 ++ leBytes v.toNat 4 → ∃ u, exec (.twaWriteTransfer m t raw) s = .next u ∧
      (u.bus 0).addr = Reg.LDG_CFG ∧ started u ∧ u.rget Reg.LDG_CFG = v ∧ ∀ c, c ≠ Reg.LDG_CFG → c ≠ Reg.TW_STAT 0 → u.rget c = s.rget c) ∧
    (open3 → ∃ u, exec (.twaReadTransfer ts t raw) s = .next u ∧ u.host.out.words.length = ts.length) ∧
    (s.Serves 3 0 Reg.LDG_CFG t → s.buses.length = 2 → (s.bus 0).addr = Reg.LDG_CFG → ∃ u, exec (.twaReadTransfer [t1] t raw) s = .next u ∧ u.host.out.words = [s.rget Reg.LDG_CFG] ∧ started u ∧
      ∀ c, c ≠ Reg.TW_STAT 0 → u.rget c = s.rget c) ∧
    (ready →
      (∃ u, exec (.hostNotify (.ok w) t) s = .next u ∧ (u.bus 0).notify = false ∧ (u.bus 0).last = some (0x08, 2 * s.twaAddr, s.notifyBytes) ∧ (u.bus 0).tim = timing ∧ u.flag (Reg.TW_STAT_BUSY 0) = true) ∧
      ((s.bus 0).refusals < 2 → ∃ u, exec (.hostNotify .nack t) s = .next u ∧ (u.bus 0).notify = true ∧ (u.bus 0).refusals = (s.bus 0).refusals + 1 ∧ (u.bus 0).retry = true) ∧
      (2 ≤ (s.bus 0).refusals → ∃ u, exec (.hostNotify .nack t) s = .next u ∧ (u.bus 0).notify = false ∧ u.flag (Reg.TW_EVT_HN_FAIL 0) = true) ∧
      (∃ u, exec (.hostNotify .arbLost t) s = .next u ∧ (u.bus 0).notify = true ∧ (u.bus 0).retry = true ∧ u.flag (Reg.TW_EVT_ARB_LOST 0) = true)) ∧
    (y.served = true → s.flag (Reg.TW_CTRL_ARAEN 0) = true → paused = false → s.buses.length = 2 → ∃ u, exec (.araRead won t) s = .next u ∧ u.now = y.now ∧
      u.host.out.bytes = leBytes (2 * s.twaAddr) 1 ∧ started u ∧ (u.bus 0).alert = ((s.bus 0).alert && !won))

/-- R71, R429, R431 to R436: a START makes a bus busy and takes its timing, bus-free ends it, and on TWB a reading in hand goes on with its next transaction or its retry; the time-outs of a controller and of a target; a line stuck after three attempts, at once where it is SCL, with the core voltage frozen where it is TWB's, the further attempts and CLEAR;
an arbitration lost or a START in an acknowledge slot; and the rise-time monitor's figures.
SCL stuck without attempts and CLEAR where nothing is stuck are the model's (log entry 53). -/
def Obligations.TwoWireBuses : Prop :=
  ∀ (s : State) (b : Fin 2) (p : Fin 4) (k : Fin 3) (freed : Bool) (o : Option (Fin 3)) (t rise low : Nat), s.buses.length = 2 → s.up = true →
    let y := s.at t
    let clears : State → Nat → Prop := fun u n => u.fget (Reg.TW_CNT_CLEARS b) = min 65535 (s.fget (Reg.TW_CNT_CLEARS b) + n)
    let stuck : State → Prop := fun u => u.flag (Reg.TW_STAT_STUCK b) = true ∧ u.flag (Reg.TW_EVT_STUCK b) = true ∧ u.Logged 0x0005 0xFF 0xFF 0 ∧ (b = 1 → u.flag Reg.CCS_STAT_VFROZEN = true)
    let tried : State → Prop := fun u => clears u 1 ∧ u.flag (Reg.TW_STAT_STUCK b) = (s.flag (Reg.TW_STAT_STUCK b) && !freed) ∧
      (s.flag (Reg.TW_STAT_STUCK b) = true → freed = true → u.flag (Reg.TW_EVT_UNSTUCK b) = true ∧ (b = 1 → u.flag Reg.CCS_STAT_VFROZEN = false))
    let most := if s.fget (Reg.TW_CTRL_MODE b) = 0 then 1000 else if s.fget (Reg.TW_CTRL_MODE b) = 1 then 300 else 120
    let timing := [s.rget (Reg.TW_TIM0 b), s.rget (Reg.TW_TIM1 b), s.rget (Reg.TW_TIM2 b)]
    (∃ u, exec (.twStartSeen b t) s = .next u ∧ u.now = y.now ∧ u.flag (Reg.TW_STAT_BUSY b) = true ∧ u.bus b = { s.bus b with tim := timing }) ∧
    (b = 0 ∨ s.clk.ccs.readStage = 0 ∨ s.flag (Reg.TW_STAT_STUCK 1) = true ∨ s.flag Reg.ICS_STAT_PAUSED = true → ∃ u, exec (.busFree b t) s = .next u ∧ u.now = y.now ∧
      u.flag (Reg.TW_STAT_BUSY b) = false ∧ u.flag (Reg.TW_STAT_ACTIVE b) = false ∧ u.bus b = { s.bus b with retry := false }) ∧
    (b = 1 → s.clk.ccs.readStage ≠ 0 → s.flag (Reg.TW_STAT_STUCK 1) = false → s.flag Reg.ICS_STAT_PAUSED = false → ∃ u, exec (.busFree b t) s = .next u ∧ u.now = y.now ∧
      u.flag (Reg.TW_STAT_BUSY 1) = true ∧ u.flag (Reg.TW_STAT_ACTIVE 1) = true ∧ u.bus 1 = { s.bus 1 with retry := false, tim := timing } ∧ u.clk = s.clk) ∧
    (∃ u, exec (.twControllerTimeout b t) s = .next u ∧ u.now = y.now ∧ u.flag (Reg.TW_STAT_ACTIVE b) = false ∧ u.flag (Reg.TW_EVT_TIMEOUT b) = true ∧
      u.bus b = { s.bus b with retry := true }) ∧
    exec (.twTargetTimeout t) s = .next (y.evt (Reg.TW_EVT_TIMEOUT 0)) ∧
    (s.flag (Reg.TW_STAT_STUCK b) = false →
      (∃ u, exec (.twStuckDetect b true o t) s = .next u ∧ u.now = y.now ∧ stuck u ∧ clears u 0) ∧
      (∃ u, exec (.twStuckDetect b false none t) s = .next u ∧ u.now = y.now ∧ stuck u ∧ clears u 3) ∧
      (∃ u, exec (.twStuckDetect b false (some k) t) s = .next u ∧ u.now = y.now ∧ u.flag (Reg.TW_STAT_STUCK b) = false ∧ clears u (k + 1))) ∧
    (s.flag (Reg.TW_STAT_STUCK b) = true → s.time.tick % 3000 = 0 → ∃ u, exec (.twStuckRetry b freed) s = .next u ∧ u.now = s.now ∧ tried u) ∧
    (s.Serves p 0 (Reg.TW_CTRL b) t → ∃ u, exec (.twClear p b freed t) s = .next u ∧ u.now = y.now ∧ tried u) ∧
    (∃ u, exec (.rstartAbort b true t) s = .next u ∧ u.now = y.now ∧ u.flag (Reg.TW_EVT_ARB_LOST b) = true ∧ u.flag (Reg.TW_STAT_ACTIVE b) = false ∧
      u.fget (Reg.TW_CNT_ARB b) = min 65535 (s.fget (Reg.TW_CNT_ARB b) + 1) ∧ u.bus b = { s.bus b with retry := true }) ∧
    (∃ u, exec (.rstartAbort b false t) s = .next u ∧ u.now = y.now ∧ u.flag (Reg.TW_STAT_BUSY b) = true ∧ u.bus b = { s.bus b with tim := timing } ∧
      (b = 0 → u.flag (Reg.TW_EVT_RSTART_ABORT 0) = true)) ∧
    (∃ u, exec (.riseMonitorJudge b rise low t) s = .next u ∧ u.now = y.now ∧ u.fget (Reg.TW_RISE_MAXRISE b) = min 65535 rise ∧ u.fget (Reg.TW_RISE_MINLOW b) = min 65535 low ∧
      u.flag (Reg.TW_STAT_TR_MAX b) = decide (most < rise) ∧ u.flag (Reg.TW_STAT_MARGIN b) = s.riseMargin b rise low ∧ (most < rise → u.flag (Reg.TW_EVT_TR_MAX b) = true) ∧
      (s.riseMargin b rise low = true → u.flag (Reg.TW_EVT_MARGIN b) = true))

/-- R439 to R445, R449, R450, R452, R454, R455: the backup domain switches its supply with 50 mV and 10 mV of difference, loses its state below 1.45 V and powers up anew; the crystal's failure and return; writes take effect in order; reads latch; CAPTURE,
LOAD and LOADCAL at the edge of their write; the end of a trim window; wake channels, the alarm, tamper inputs and WAKE_IN, sampled at the polarity set for them, with the PWRON they raise, and its clear.
The pulses that pass where no command shows them, and an input that is not watched, are the model's (log entry 85). -/
def Obligations.BackupDomain : Prop :=
  ∀ (s : State) (p k : Fin 4) (i : Fin 8) (j : Fin 16) (c : Fin 2) (h : Fin 3) (t raw aon vbat mv n g : Nat) (v : Word) (ws : List (BkpW × Nat)) (d : TampEdge) (on : Bool),
    let y := s.at t
    let z := y.osc raw
    let b := z.bkp
    let powered := s.bkp.powered = true
    let captures : State → Nat → Nat → Nat → Prop := fun u a q f => u.rget a = BitVec.ofNat 32 q ∧ (u.rget (a + 4)).toNat = 2 ^ 31 + f % 32768 * 65536 + q / 2 ^ 32 % 65536
    let raises : State → Nat → Prop := fun u src => bitOf (s.fget Reg.BKP_PWRON_SRC) src = true → s.flag Reg.BKP_STAT_PWRON = false →
      u.flag Reg.BKP_STAT_PWRON = true ∧ u.fget Reg.BKP_PWRON_CAUSE = src ∧ captures u Reg.BKP_PWCAP_LO b.sec b.frac
    let runs := powered ∧ s.flag Reg.BKP_STAT_OSCFAIL = false
    let ctrl := s.Serves p 0 Reg.BKP_CTRL t ∧ runs ∧ s.bkp.inflight = [] ∧ (s.rget Reg.BKP_CTRL).toNat < 4
    let edge : Nat → Nat := fun k => min (k + 2) (max (k + 1) raw)
    let e := y.oscGo.osc (edge y.oscGo.bkp.raw)
    let set := ((s.rget Reg.BKP_SET_SEC_LO).toNat + 2 ^ 32 * (s.rget Reg.BKP_SET_SEC_HI).toNat) % 2 ^ 48
    let cal := calLoad (s.rget Reg.BKP_SET_DATE) (s.rget Reg.BKP_SET_TIME)
    let loads : State → Nat → Nat → Bool → Prop := fun u q f nc => u.now = y.now ∧
      (let a := (({ e with bkp := { e.bkp with sec := q, frac := f } } : State).osc raw).bkp; u.bkp.sec = a.sec ∧ u.bkp.frac = a.frac) ∧ u.flag Reg.BKP_STAT_TLOST = false ∧ u.flag Reg.BKP_STAT_DISC = false ∧
      u.flag Reg.BKP_STAT_NONCANON = nc
    let refused : State → Prop := fun u => u.flag Reg.BKP_EVT_LOADREF = true ∧ u.bkp.sec = (e.osc raw).bkp.sec ∧ u.bkp.frac = (e.osc raw).bkp.frac
    let w := s.rget Reg.BKP_TRIM
    let q := (s.at t).osc (s.bkp.winStart + trimWin w)
    let due := (s.rget64 Reg.BKP_ALM_SEC_LO % 2 ^ 48) * 32768 + s.fget Reg.BKP_ALM_CTRL_FRAC
    let tamper := s.bkp.inputs.length = 3 ∧ powered
    let x := s.bkp.inputs.getD h {}
    let finds : TampS → Prop := fun w => ∃ u, exec (.tamperActive h t raw on) s = .next u ∧ u.bkp.inputs.getD h {} = w ∧ u.regs = s.regs
    let here : TampEdge := { raw := b.raw, sec := b.sec, frac := b.frac, stu := y.stamp, time := y.witTime y.stamp }
    let filtered : Nat → Prop := fun x => (s.bkp.inputs.getD x {}).start = some d ∧ (s.bkp.inputs.getD x {}).taken = false ∧ d.raw + s.tampFilt x ≤ b.raw
    let late := b.loadEdge = some b.raw ∨ (b.armEdge = some b.raw ∧ due < b.sec * 32768 + b.frac ∧ due + b.step ≤ b.sec * 32768 + b.frac)
    let count := if c = 0 then Reg.BKP_TCNT_T0 else Reg.BKP_TCNT_T1
    (powered → s.flag Reg.BKP_STAT_ONVBAT = false → aon + 50 < vbat ∨ aon < 1550 → ∃ u, exec (.supplySwitch t raw aon vbat) s = .next u ∧ u.flag Reg.BKP_STAT_ONVBAT = true ∧
      u.flag Reg.TOP_DOMAIN_BKP_ON_VBAT = true ∧ u.flag Reg.BKP_EVT_TOVBAT = true ∧ captures u Reg.BKP_SWCAP_LO b.sec b.frac) ∧
    (powered → s.flag Reg.BKP_STAT_ONVBAT = true → vbat + 10 ≤ aon → 1610 ≤ aon → ∃ u, exec (.supplySwitch t raw aon vbat) s = .next u ∧ u.flag Reg.BKP_STAT_ONVBAT = false ∧
      u.flag Reg.TOP_DOMAIN_BKP_ON_VBAT = false ∧ u.flag Reg.BKP_EVT_TOAON = true ∧ captures u Reg.BKP_SWCAP_LO b.sec b.frac) ∧
    (mv < 1450 → exec (.backupStateLoss t mv) s = .next { y with bkp := { ({} : BkpS) with powered := false }, fst := { y.fst with lostAt := s.fst.lastSeq } }) ∧ (1450 ≤ mv → exec (.backupStateLoss t mv) s = .next y) ∧
    (s.bkp.powered = false → ∃ u, exec (.backupPowerUp on) s = .next u ∧ u.bkp = {} ∧ u.flag Reg.BKP_STAT_ONVBAT = on ∧ u.flag Reg.TOP_DOMAIN_BKP_ON_VBAT = on ∧
      ∀ a, 0xF0000 ≤ a → a < 0xF1000 → a ≠ Reg.BKP_STAT → u.rget a = Reg.resetOf a) ∧
    (powered → s.flag Reg.BKP_STAT_OSCFAIL = false → ∃ u, exec (.oscFail t raw) s = .next u ∧ u.bkp = b ∧ u.flag Reg.BKP_STAT_OSCFAIL = true ∧ u.flag Reg.BKP_EVT_OSCFAIL = true ∧
      u.flag Reg.BKP_STAT_TLOST = true ∧ u.flag Reg.BKP_STAT_DISC = false) ∧
    exec (.oscResume t) s = .next (({ y with bkp := { y.bkp with seen := y.now } } : State).fsetB Reg.BKP_STAT_OSCFAIL false) ∧
    (¬ runs → exec (.bkpWriteEffect t raw) s = .next y) ∧
    (runs → s.bkp.inflight = (.reg (Reg.BKP_SCR j) v, g) :: ws → ∃ u, exec (.bkpWriteEffect t raw) s = .next u ∧ u.rget (Reg.BKP_SCR j) = v ∧ u.bkp = { (y.osc (edge g)).bkp with inflight := ws } ∧
      u.flag Reg.BKP_STAT_SYNC = !ws.isEmpty) ∧
    (s.Serves p k Reg.BKP_SEC_LO t → s.bkp.latches.length = 4 → ∃ u, exec (.bkpSecLatchRead p t raw) s = .next u ∧ u.host.out.words = [BitVec.ofNat 32 b.sec] ∧ u.regs = s.regs ∧
      u.bkp.latches.getD k {} = { s.bkp.latches.getD k {} with secHi := BitVec.ofNat 32 (b.sec / 2 ^ 32), frac := BitVec.ofNat 32 b.frac }) ∧
    (s.Serves p k Reg.BKP_CAL_DATE t → s.bkp.latches.length = 4 → ∃ u, exec (.bkpCalLatchRead p t raw) s = .next u ∧ u.host.out.words = [(calWords b.sec).1] ∧ u.regs = s.regs ∧
      u.bkp.latches.getD k {} = { s.bkp.latches.getD k {} with cal := (calWords b.sec).2 }) ∧
    (ctrl → (∃ u, exec (.bkpCapture p t raw) s = .next u ∧ u.rget64 Reg.BKP_CSEC_LO = e.bkp.sec % 2 ^ 64 ∧ u.rget Reg.BKP_CFRAC = BitVec.ofNat 32 e.bkp.frac ∧
        u.rget64 Reg.BKP_CSTU_LO = (if s.up = true then y.stamp % 2 ^ 64 else 0)) ∧
      (y.rtcKept = false → (∃ u, exec (.bkpLoad p t raw) s = .next u ∧ loads u set ((s.rget Reg.BKP_SET_FRAC).toNat % 32768) false) ∧
        (∃ u, exec (.bkpLoadcal p t raw) s = .next u ∧ loads u (cal.1 % 2 ^ 48) 0 (!cal.2))) ∧
      (y.rtcKept = true → (∃ u, exec (.bkpLoad p t raw) s = .next u ∧ refused u) ∧ (∃ u, exec (.bkpLoadcal p t raw) s = .next u ∧ refused u))) ∧
    (powered → s.flag Reg.BKP_STAT_OSCFAIL = false → y.rtcKept = false → ∃ u, exec (.trimWindow t) s = .next u ∧ u.bkp.winStart = s.bkp.winStart + trimWin w ∧ u.bkp.winNext = none ∧
      u.bkp.sec = q.bkp.sec ∧ u.bkp.frac = q.bkp.frac ∧ (s.bkp.winNext = none → u.rget Reg.BKP_TRIM = w) ∧
      (s.bkp.winNext = some v → u.rget Reg.BKP_TRIM &&& 0xF00007FF = v &&& 0xF00007FF)) ∧
    (s.bkp.wakes.length = 8 → s.bkp.wakes.getD i none = some n → n ≤ b.trim → ∃ u, exec (.wakeFire i t raw) s = .next u ∧
      u.bkp.wakes.getD i none = some (n + (max 127 (s.fget (Reg.BKP_WAKE_PM1 i)) + 1)) ∧ (u.rget Reg.BKP_EVT).getLsbD (8 + i) = true ∧ raises u i) ∧
    (powered → s.flag Reg.BKP_ALM_CTRL_ARM = true → due ≤ b.sec * 32768 + b.frac → ∃ u, exec (.alarmFire t raw) s = .next u ∧ u.flag Reg.BKP_ALM_CTRL_ARM = false ∧
      u.flag Reg.BKP_STAT_ARMED = false ∧ u.flag Reg.BKP_EVT_ALARM = true ∧ raises u 8 ∧ (late → u.flag Reg.BKP_STAT_ALM_LATE = true) ∧
      (¬ late → u.flag Reg.BKP_STAT_ALM_LATE = s.flag Reg.BKP_STAT_ALM_LATE)) ∧
    (tamper → s.tampEn h = false → finds { high := on, quiet := b.raw }) ∧
    (tamper → s.tampEn h = true → on = s.tampPol h →
      (x.act = true → finds { x with high := on }) ∧
      (x.act = false → x.taken = false ∨ x.quiet + s.tampFilt h ≤ b.raw → finds { x with high := on, act := true, start := some here, taken := false }) ∧
      (x.act = false → x.taken = true → b.raw < x.quiet + s.tampFilt h → finds { x with high := on, act := true })) ∧
    (tamper → s.tampEn h = true → on ≠ s.tampPol h → finds { x with high := on, act := false, start := if x.act = true then none else x.start, quiet := if x.act = true then b.raw else x.quiet }) ∧
    (tamper → filtered c → ∃ u, exec (.tamperEvent c t raw) s = .next u ∧ (u.bkp.inputs.getD c {}).taken = true ∧ u.fget count = min 65535 (s.fget count + 1) ∧
      u.flag (if c = 0 then Reg.BKP_EVT_TAMP0 else Reg.BKP_EVT_TAMP1) = true ∧ (s.flag (Reg.BKP_TCAP_HI_VALID c) = false → captures u (Reg.BKP_TCAP_LO c) d.sec d.frac) ∧
      (s.flag (if c = 0 then Reg.BKP_TAMP_T0ERASE else Reg.BKP_TAMP_T1ERASE) = true → ∀ x, x < 16 → u.rget (Reg.BKP_SCR x) = 0) ∧ raises u (9 + c)) ∧
    (tamper → filtered 2 → ∃ u, exec (.wakeInEvent t raw) s = .next u ∧ (u.bkp.inputs.getD 2 {}).taken = true ∧ u.flag Reg.BKP_EVT_WAKEIN = true ∧ raises u 11) ∧
    (s.Serves p 0 Reg.BKP_PWRON t → runs → s.bkp.inflight = [] → ∃ u, exec (.pwronClr p t raw) s = .next u ∧ u.now = y.now ∧ u.flag Reg.BKP_STAT_PWRON = false)

/-- R400, R521, R535: the JTAG port: BYPASS is one bit long, IDCODE shifts out 0x1825655F, SAMPLE/PRELOAD and EXTEST capture the balls and take the cells, which EXTEST drives in reset alone; the TAP's nonce, proof and reset; DEBUG is BYPASS while locked,
and reads a word or writes SE_DBG once unlocked. A read of SE_STAT shows the running section and latches SE_PC.
The shift layout, UNLOCK's two forms and the latch of SE_PC are the model's (log entries 55 and 74). -/
def Obligations.DebugAccess : Prop :=
  ∀ (s : State) (p : Fin 4) (e : Fin 8) (d pins : List Bool) (b : List Byte) (a v : Word) (acc : Option (Word × Option Word)) (t raw : Nat) (r : Run) (nonce key : List Byte),
    let y := s.at t
    let cert := b.take (b.length - 64)
    let holds := Config.certPoint cert = some key ∧ (match s.host.anchor with
      | none => Config.certSignedBy cert key = true
      | some o => Config.certSignedBy cert o = true ∨ o = key) ∧
      Config.verify key (nonce ++ beBytes s.otp.devid 8 ++ leBytes 255 1) (b.drop (b.length - 64)) = true
    let port := s.host.ports.getD 4 {}
    let unlocked := s.up = true ∧ (s.host.anchor = none ∨ port.proof ≠ none)
    exec (.jtagBypass d) s = .next { s with jtag := { s.jtag with extest := false, out := (false :: d).take d.length } } ∧
    (d.length = 32 → ∃ u, exec (.jtagIdcode d) s = .next u ∧ u.jtag.extest = false ∧ u.jtag.out.length = 32 ∧ (∀ i, i < 32 → u.jtag.out.getD i false = (0x1825655F : Word).getLsbD i) ∧
      { u with jtag := s.jtag } = s) ∧
    exec (.jtagSamplePreload pins d) s = .next { s with jtag := { cells := (pins ++ d).drop d.length, extest := false, out := (pins ++ d).take d.length } } ∧
    exec (.jtagExtest pins d) s = .next { s with jtag := { cells := (pins ++ d).drop d.length, extest := !s.up, out := (pins ++ d).take d.length } } ∧
    (s.up = true → s.shaped → ∃ u n, exec (.jtagUnlock [] t) s = .next u ∧ u.now = y.now ∧ n.length = 32 ∧ u.host.out.bytes = n ∧ u.host.ports.getD 4 {} = { port with nonce := some n }) ∧
    (s.up = true → s.shaped → s.mounted = true → b ≠ [] → port.nonce = some nonce → holds → ∃ u, exec (.jtagUnlock b t) s = .next u ∧ u.now = y.now ∧
      u.host.ports.getD 4 {} = { port with nonce := none, proof := some (y.now + 600 * 6144000000), cert := sha256 cert } ∧ u.host.anchor = some (s.host.anchor.getD key)) ∧
    (s.up = true → s.shaped → s.mounted = true → b ≠ [] → port.nonce = none → ∃ u, exec (.jtagUnlock b t) s = .next u ∧ u.now = y.now ∧ u.host.ports.getD 4 {} = port ∧
      u.host.anchor = s.host.anchor) ∧
    (¬ unlocked → ∃ u, exec (.jtagDebug d acc t raw) s = .next u ∧ u.jtag.out = (false :: d).take d.length ∧ u.regs = s.regs ∧ u.host = s.host) ∧
    (unlocked → a.toNat = Reg.LDG_CFG → ∃ u, exec (.jtagDebug d (some (a, none)) t raw) s = .next u ∧ u.host.out.words = [s.rget Reg.LDG_CFG] ∧ u.regs = s.regs) ∧
    (unlocked → a.toNat = Reg.SE_DBG e → ∃ u, exec (.jtagDebug d (some (a, some v)) t raw) s = .next u ∧ u.flag (Reg.SE_DBG_BRKEN e) = v.msb ∧ ∀ g, g ≠ Reg.SE_DBG e → u.rget g = s.rget g) ∧
    (s.shaped → ∃ u, exec .jtagTrst s = .next u ∧ u.host.ports.getD 4 {} = { port with nonce := none, proof := none } ∧ u.jtag = { s.jtag with extest := false } ∧ u.regs = s.regs) ∧
    (s.Serves p 0 (Reg.SE_STAT e) t → s.run e = some r → r.ended = false → r.ctx < 256 → ∃ u w, exec (.seStatLatchRead p e t) s = .next u ∧ u.host.out.words = [w] ∧
      w.getLsbD 29 = true ∧ fieldOf w 23 16 = r.ctx ∧ w.getLsbD 28 = r.handler.isSome ∧ u.rget (Reg.SE_PC e) = BitVec.ofNat 32 r.word) ∧
    (s.Serves p 0 (Reg.SE_STAT e) t → s.run e = none → ∃ u w, exec (.seStatLatchRead p e t) s = .next u ∧ u.host.out.words = [w] ∧ w.getLsbD 29 = false ∧ u.rget (Reg.SE_PC e) = 0)

/-! ## The machine as a whole -/

/-- The model's choice (log entry 2), not the spec's: a step takes the command at the front of the queue and carries it out on the state with the queue's rest; with an empty queue it leaves the state as it is. -/
def Obligations.StepRunsTheFrontCommand : Prop :=
  ∀ (s : State) (c : Instr) (rest : List Instr), 
    step { s with pending := c :: rest } = exec c { s with pending := rest } ∧ step { s with pending := [] } = .next { s with pending := [] }

/-- R9, R10, R30 and the register tables: what reset leaves in a few registers of different blocks, no run and no context, an empty queue and an empty register file; and the forms the data have: the file and every memory canonical, the tables of their sizes; log entries 3 and 4 name the values the
spec does not give. -/
def Obligations.ResetLeaves : Prop :=
  State.reset.pending = [] ∧ State.reset.regs = [] ∧ State.reset.time.stu = 0 ∧ State.reset.time.tick = 0 ∧ (∀ e, State.reset.run e = none) ∧ State.reset.ctxs = [] ∧
  (∀ n, (State.reset.ctx n).mode = .closed) ∧ (∀ a, State.reset.rget a = Reg.resetOf a) ∧ State.reset.flag Reg.TOP_DOMAIN_SCS_LOCK = false ∧ State.reset.up = false ∧
  State.reset.regsOk ∧ State.reset.memsOk ∧ State.reset.shaped ∧ State.reset.queueOk

/-- No command stops the block, and none touches the queue: from every state every command answers a next state whose queue is the state's own. -/
def Obligations.EveryCommandAnswers : Prop := ∀ (c : Instr) (s : State), ∃ t, exec c s = .next t ∧ t.pending = s.pending

/-- Every step keeps the register file in its canonical form (addresses rising, no entry at its reset value), so that equal files are equal data. -/
def Obligations.StepsKeepTheRegisterFile : Prop := ∀ s t : State, s.regsOk → step s = .next t → t.regsOk

/-- R11, R31, R32, R164, R390, R535: every step keeps the sizes of the fixed tables: eight engines, each with 32 scalars, 32 vectors, 8 predicates and 4 accumulators in a run and its pair, two two-wire buses,
four tenants, five ports, four latches of the timebase. -/
def Obligations.StepsKeepTheShape : Prop := ∀ s t : State, s.shaped → step s = .next t → t.shaped

/-- The queue is first in, first out: a step takes one command off its front and adds none, so that well-formed commands stay well-formed. -/
def Obligations.StepsKeepTheQueue : Prop := ∀ s t : State, step s = .next t → t.pending = s.pending.drop 1 ∧ (s.queueOk → t.queueOk)

/-- R13, R17, R30: while the device is not in reset, whatever the command, TB_STU does not go back, and the number of the tick changes at a tick boundary alone, by one; and TICK_BOUNDARY answers a state in
which, unless the device has been reset at the boundary, the next tick has begun. -/
def Obligations.TimeGoesForward : Prop :=
  (∀ (c : Instr) (s t : State), exec c s = .next t → s.up = true → t.up = true →
    s.now ≤ t.now ∧ ((∃ o, c = .tickBoundary o) → t.time.tick = s.time.tick + 1) ∧ ((∀ o, c ≠ .tickBoundary o) → t.time.tick = s.time.tick)) ∧
  ∀ (s : State) (o : TickObs), s.up = true → ∃ t, exec (.tickBoundary o) s = .next t ∧ (t.up = true → t.time.tick = s.time.tick + 1 ∧ s.now ≤ t.now)
end

