-- ==== Sys2Proof/Laws/Regs.lean ====
section
/-!
SUPPORT. The register file: a read after a write, and the canonical form.
-/

namespace Sys2Proof.Laws

open Sys2Proof.Machine

/-! ## A read after a write -/

theorem regsGet_put (f : RegFile) (a b : Nat) (v : Word) :
    regsGet (regsPut f a v) b = if a = b then v else regsGet f b := by
  induction f with
  | nil => simp [regsPut, regsGet]
  | cons p t ih =>
    obtain ⟨c, w⟩ := p
    simp only [regsPut]
    by_cases h1 : a < c
    · simp [h1, regsGet]
    · by_cases h2 : a = c
      · subst h2; simp only [Nat.lt_irrefl, if_false, if_true, regsGet]; split <;> simp_all
      · simp only [h1, h2, if_false, regsGet, ih]
        by_cases h3 : c = b
        · subst h3; simp [h2]
        · simp [h3]

theorem regsGet_drop (f : RegFile) (a b : Nat) :
    regsGet (regsDrop f a) b = if a = b then Reg.resetOf b else regsGet f b := by
  induction f with
  | nil => simp [regsDrop, regsGet]
  | cons p t ih =>
    obtain ⟨c, w⟩ := p
    simp only [regsDrop] at ih ⊢
    by_cases h : c = a
    · subst h
      have : List.filter (fun p : Nat × Word => p.1 != c) ((c, w) :: t) = List.filter (fun p => p.1 != c) t := by simp
      rw [this, ih]; by_cases hb : c = b <;> simp [regsGet, hb]
    · have : List.filter (fun p : Nat × Word => p.1 != a) ((c, w) :: t) = (c, w) :: List.filter (fun p => p.1 != a) t := by simp [h]
      rw [this]; simp only [regsGet, ih]
      by_cases hb : c = b
      · subst hb; simp [Ne.symm h]
      · simp [hb]

/-- The register file answers what was last written. -/
theorem regsGet_set (f : RegFile) (a b : Nat) (v : Word) :
    regsGet (regsSet f a v) b = if a = b then v else regsGet f b := by
  unfold regsSet
  split
  · rename_i h; rw [regsGet_drop]; split <;> simp_all
  · exact regsGet_put f a b v

/-! ## The canonical form -/

/-- The canonical form as two plain facts. -/
def Canon (f : RegFile) : Prop := f.Pairwise (fun p q => p.1 < q.1) ∧ ∀ p ∈ f, p.2 ≠ Reg.resetOf p.1

theorem regsWf_iff (f : RegFile) : regsWf f = true ↔ Canon f := by
  induction f with
  | nil => simp [regsWf, Canon]
  | cons p t ih =>
    obtain ⟨a, v⟩ := p
    cases t with
    | nil => simp [regsWf, Canon]
    | cons q t =>
      obtain ⟨b, w⟩ := q
      simp only [regsWf, Bool.and_eq_true, decide_eq_true_eq, ih, Canon, List.pairwise_cons, List.mem_cons, forall_eq_or_imp]
      constructor
      · rintro ⟨⟨h1, h2⟩, ⟨h3, h4⟩, h5, h6⟩
        exact ⟨⟨⟨h2, fun r hr => Nat.lt_trans h2 (h3 r hr)⟩, h3, h4⟩, h1, h5, h6⟩
      · rintro ⟨⟨⟨h2, -⟩, h3, h4⟩, h1, h5, h6⟩
        exact ⟨⟨h1, h2⟩, ⟨h3, h4⟩, h5, h6⟩

theorem mem_regsPut {f : RegFile} {a : Nat} {v : Word} {p : Nat × Word} (h : p ∈ regsPut f a v) : p = (a, v) ∨ p ∈ f := by
  induction f with
  | nil => simpa [regsPut] using h
  | cons q t ih =>
    obtain ⟨c, w⟩ := q
    simp only [regsPut] at h
    split at h
    · simpa using h
    · split at h
      · rcases List.mem_cons.mp h with h | h
        · exact .inl h
        · exact .inr (List.mem_cons_of_mem _ h)
      · rcases List.mem_cons.mp h with h | h
        · exact .inr (h ▸ List.mem_cons_self)
        · exact (ih h).imp_right (List.mem_cons_of_mem _)

theorem canon_put {f : RegFile} {a : Nat} {v : Word} (hv : v ≠ Reg.resetOf a) (h : Canon f) : Canon (regsPut f a v) := by
  refine ⟨?_, fun p hp => ?_⟩
  · induction f with
    | nil => simp [regsPut]
    | cons q t ih =>
      obtain ⟨c, w⟩ := q
      obtain ⟨h1, h2⟩ := h
      have h1' := List.pairwise_cons.mp h1
      simp only [regsPut]
      split
      · rename_i hlt
        refine List.pairwise_cons.mpr ⟨fun p hp => ?_, h1⟩
        rcases List.mem_cons.mp hp with rfl | hp
        · exact hlt
        · exact Nat.lt_trans hlt (h1'.1 p hp)
      · split
        · rename_i hlt heq; subst heq
          exact List.pairwise_cons.mpr ⟨fun p hp => h1'.1 p hp, h1'.2⟩
        · rename_i hlt hne
          refine List.pairwise_cons.mpr ⟨fun p hp => ?_, ih ⟨h1'.2, fun p hp => h2 p (List.mem_cons_of_mem _ hp)⟩⟩
          rcases mem_regsPut hp with rfl | hp
          · simp only; omega
          · exact h1'.1 p hp
  · rcases mem_regsPut hp with rfl | hp
    · exact hv
    · exact h.2 p hp

theorem canon_filter {f : RegFile} (c : Nat × Word → Bool) (h : Canon f) : Canon (f.filter c) :=
  ⟨h.1.filter c, fun p hp => h.2 p (List.mem_filter.mp hp).1⟩

/-- A write keeps the canonical form. -/
theorem regsSet_wf {f : RegFile} (a : Nat) (v : Word) (h : regsWf f = true) : regsWf (regsSet f a v) = true := by
  rw [regsWf_iff] at h ⊢
  unfold regsSet
  split
  · exact canon_filter _ h
  · rename_i hv; exact canon_put hv h

/-- Taking entries out keeps the canonical form. -/
theorem regsFilter_wf {f : RegFile} (c : Nat × Word → Bool) (h : regsWf f = true) : regsWf (f.filter c) = true := by
  rw [regsWf_iff] at h ⊢; exact canon_filter c h

end Sys2Proof.Laws
end

