-- ==== Sys2Proof/Laws/Kept.lean ====
section
/-!
SUPPORT. What every operation keeps: the queue, the register file's canonical form, the sizes of the state's fixed tables, and, while the device is
not reset, time: TB_STU does not go back and the tick stays. `Kept s t` says it of a state `t` reached from `s`, and every operation of the model has one
lemma about it.
-/

namespace Sys2Proof.Laws

open Sys2Proof.Machine


@[simp] theorem modifyAt_length {α : Type} (l : List α) (i : Nat) (f : α → α) : (modifyAt l i f).length = l.length := by
  induction l generalizing i with
  | nil => rfl
  | cons x t ih => cases i <;> simp [modifyAt, ih]

/-- The element of a changed list. -/
theorem modifyAt_getD {α : Type} (l : List α) (i j : Nat) (f : α → α) (d : α) :
    (modifyAt l i f).getD j d = if i = j ∧ i < l.length then f (l.getD j d) else l.getD j d := by
  induction l generalizing i j with
  | nil => simp [modifyAt]
  | cons x t ih =>
    cases i with
    | zero => cases j <;> simp [modifyAt]
    | succ i => cases j with
      | zero => simp [modifyAt]
      | succ j =>
        have := ih i j
        simp only [modifyAt, List.getD_cons_succ, this, List.length_cons, Nat.add_lt_add_iff_right, Nat.add_right_cancel_iff]

/-- Nothing holds the device in reset, by its boot state. -/
def upB (b : BootS) : Bool := !(b.resetLow || b.tmode || b.supplyLow || b.hold || b.f5)

/-- What `t`, reached from `s`, keeps. -/
structure Kept (s t : State) : Prop where
  pending : t.pending = s.pending
  regs : s.regsOk → t.regsOk
  shape : s.shaped → t.shaped
  clock : upB s.boot = true → upB t.boot = true → s.time.stu ≤ t.time.stu ∧ t.time.tick = s.time.tick

theorem Kept.refl (s : State) : Kept s s := ⟨rfl, id, id, fun _ _ => ⟨Nat.le_refl _, rfl⟩⟩

variable {s0 : State}

/-! ## Shapes of terms -/

/-- A fact about a state that holds of every kept one. -/
theorem kept_cut {p : State → Prop} (x : State) (hx : Kept s0 x) (hp : ∀ y, Kept s0 y → p y) : p x := hp x hx

theorem kept_ite {c : Prop} [Decidable c] {a b : State} (ha : Kept s0 a) (hb : Kept s0 b) : Kept s0 (if c then a else b) := by
  split <;> assumption

theorem kept_ite1 {α : Type} {c : Prop} [Decidable c] {a b : State × α} (ha : Kept s0 a.1) (hb : Kept s0 b.1) : Kept s0 (if c then a else b).1 := by
  split <;> assumption

theorem kept_ite2 {α : Type} {c : Prop} [Decidable c] {a b : α × State} (ha : Kept s0 a.2) (hb : Kept s0 b.2) : Kept s0 (if c then a else b).2 := by
  split <;> assumption

theorem kept_foldl {α : Type} {f : State → α → State} (l : List α) (hf : ∀ x a, Kept s0 x → Kept s0 (f x a)) {s : State} (h : Kept s0 s) :
    Kept s0 (l.foldl f s) := by
  induction l generalizing s with
  | nil => exact h
  | cons a t ih => exact ih (hf s a h)

theorem kept_foldl2 {α β : Type} {f : β × State → α → β × State} (l : List α) (hf : ∀ x a, Kept s0 x.2 → Kept s0 (f x a).2) {p : β × State}
    (h : Kept s0 p.2) : Kept s0 (l.foldl f p).2 := by
  induction l generalizing p with
  | nil => exact h
  | cons a t ih => exact ih (hf p a h)

theorem kept_snd {α : Type} {e : α × State} {a : α} {b : State} (h : e = (a, b)) (k : Kept s0 e.2) : Kept s0 b := by
  subst h; exact k

theorem kept_fst {α : Type} {e : State × α} {a : α} {b : State} (h : e = (b, a)) (k : Kept s0 e.1) : Kept s0 b := by
  subst h; exact k

theorem kept_some {e : Option State} {b : State} (h : e = some b) (k : ∀ t, e = some t → Kept s0 t) : Kept s0 b := k b h

/-- A state built from another that leaves the queue, the registers and the runs alone. -/
theorem Kept.upd {t : State} (h : Kept s0 t) {free : Nat} {time : TimeS} {clk : ClockS} {buses : List BusS} {host : HostS} {snp : SnapS} {flt : FaultS}
    {boot : BootS} {fe : FeS} {cal : CalS} {fst : FstS} {otp : OtpS} {wit : WitS} {ldg : LdgS} {seq : SeqS} {bkp : BkpS} {jtag : JtagS}
    {reqs : List Req} {images : List ImageS} {ctxs : List (Nat × ContextS)} {taps : List ((Nat × Nat) × TapS)}
    (hb : buses.length = t.buses.length) (ht : host.tenants.length = t.host.tenants.length) (hp : host.ports.length = t.host.ports.length)
    (hl : time.latches.length = t.time.latches.length) (hu : upB boot = true → upB t.boot = true) (hs : t.time.stu ≤ time.stu)
    (hk : time.tick = t.time.tick) :
    Kept s0 ⟨t.pending, free, t.regs, time, clk, buses, host, snp, flt, boot, fe, cal, fst, otp, wit, ldg, seq, bkp, jtag, reqs, images, ctxs, taps, t.runs⟩ :=
  ⟨h.pending, h.regs, fun k =>
    let w := h.shape k
    { runs := w.runs, run := w.run, buses := hb.trans w.buses, tenants := ht.trans w.tenants, ports := hp.trans w.ports, latches := hl.trans w.latches },
    fun h0 h1 => let c := h.clock h0 (hu h1); ⟨Nat.le_trans c.1 hs, hk.trans c.2⟩⟩

/-! ## The register file -/

theorem State.rset_kept {s : State} (h : Kept s0 s) (a : Nat) (v : Word) : Kept s0 (s.rset a v) :=
  ⟨h.pending, fun k => regsSet_wf a v (h.regs k), fun k =>
    let w := h.shape k
    { runs := w.runs, run := w.run, buses := w.buses, tenants := w.tenants, ports := w.ports, latches := w.latches }, h.clock⟩

theorem kept_filter {s : State} (h : Kept s0 s) (c : Nat × Word → Bool) : Kept s0 { s with regs := s.regs.filter c } :=
  ⟨h.pending, fun k => regsFilter_wf c (h.regs k), fun k =>
    let w := h.shape k
    { runs := w.runs, run := w.run, buses := w.buses, tenants := w.tenants, ports := w.ports, latches := w.latches }, h.clock⟩

/-! ## Runs -/

theorem State.setRun_kept {s : State} (h : Kept s0 s) (e : Nat) (r : Option Run) (hr : s0.shaped → ∀ q, r = some q → q.sized) :
    Kept s0 (s.setRun e r) :=
  ⟨h.pending, h.regs, fun k =>
    let w := h.shape k
    { runs := (modifyAt_length _ _ _).trans w.runs
      run := fun j q hq => by
        unfold State.run State.setRun at hq
        simp only [modifyAt_getD] at hq
        split at hq
        · exact hr k q hq
        · exact w.run j q hq
      buses := w.buses, tenants := w.tenants, ports := w.ports, latches := w.latches }, h.clock⟩

theorem setRun_none_kept {s : State} (h : Kept s0 s) (e : Nat) : Kept s0 (s.setRun e none) :=
  State.setRun_kept h e none (fun _ q hq => by cases hq)

end Sys2Proof.Laws
end

