-- ==== Sys2Proof/Laws/State.lean ====
section
/-!
SUPPORT. What each update of the state leaves in each field: one lemma per field per update, true by rfl.
-/

namespace Sys2Proof.Laws

open Sys2Proof.Machine

variable (s : State)

/-! ## State.rset -/

@[simp] theorem rset_pending (a : Nat) (v : Word) : (s.rset a v).pending = s.pending := rfl
@[simp] theorem rset_free (a : Nat) (v : Word) : (s.rset a v).free = s.free := rfl
@[simp] theorem rset_regs (a : Nat) (v : Word) : (s.rset a v).regs = regsSet s.regs a v := rfl
@[simp] theorem rset_time (a : Nat) (v : Word) : (s.rset a v).time = s.time := rfl
@[simp] theorem rset_clk (a : Nat) (v : Word) : (s.rset a v).clk = s.clk := rfl
@[simp] theorem rset_buses (a : Nat) (v : Word) : (s.rset a v).buses = s.buses := rfl
@[simp] theorem rset_host (a : Nat) (v : Word) : (s.rset a v).host = s.host := rfl
@[simp] theorem rset_snp (a : Nat) (v : Word) : (s.rset a v).snp = s.snp := rfl
@[simp] theorem rset_flt (a : Nat) (v : Word) : (s.rset a v).flt = s.flt := rfl
@[simp] theorem rset_boot (a : Nat) (v : Word) : (s.rset a v).boot = s.boot := rfl
@[simp] theorem rset_fe (a : Nat) (v : Word) : (s.rset a v).fe = s.fe := rfl
@[simp] theorem rset_cal (a : Nat) (v : Word) : (s.rset a v).cal = s.cal := rfl
@[simp] theorem rset_fst (a : Nat) (v : Word) : (s.rset a v).fst = s.fst := rfl
@[simp] theorem rset_otp (a : Nat) (v : Word) : (s.rset a v).otp = s.otp := rfl
@[simp] theorem rset_wit (a : Nat) (v : Word) : (s.rset a v).wit = s.wit := rfl
@[simp] theorem rset_ldg (a : Nat) (v : Word) : (s.rset a v).ldg = s.ldg := rfl
@[simp] theorem rset_seq (a : Nat) (v : Word) : (s.rset a v).seq = s.seq := rfl
@[simp] theorem rset_bkp (a : Nat) (v : Word) : (s.rset a v).bkp = s.bkp := rfl
@[simp] theorem rset_jtag (a : Nat) (v : Word) : (s.rset a v).jtag = s.jtag := rfl
@[simp] theorem rset_reqs (a : Nat) (v : Word) : (s.rset a v).reqs = s.reqs := rfl
@[simp] theorem rset_images (a : Nat) (v : Word) : (s.rset a v).images = s.images := rfl
@[simp] theorem rset_ctxs (a : Nat) (v : Word) : (s.rset a v).ctxs = s.ctxs := rfl
@[simp] theorem rset_taps (a : Nat) (v : Word) : (s.rset a v).taps = s.taps := rfl
@[simp] theorem rset_runs (a : Nat) (v : Word) : (s.rset a v).runs = s.runs := rfl

/-! ## State.rsetN -/

@[simp] theorem rsetN_pending (a n : Nat) : (s.rsetN a n).pending = s.pending := rfl
@[simp] theorem rsetN_free (a n : Nat) : (s.rsetN a n).free = s.free := rfl
@[simp] theorem rsetN_regs (a n : Nat) : (s.rsetN a n).regs = regsSet s.regs a (BitVec.ofNat 32 n) := rfl
@[simp] theorem rsetN_time (a n : Nat) : (s.rsetN a n).time = s.time := rfl
@[simp] theorem rsetN_clk (a n : Nat) : (s.rsetN a n).clk = s.clk := rfl
@[simp] theorem rsetN_buses (a n : Nat) : (s.rsetN a n).buses = s.buses := rfl
@[simp] theorem rsetN_host (a n : Nat) : (s.rsetN a n).host = s.host := rfl
@[simp] theorem rsetN_snp (a n : Nat) : (s.rsetN a n).snp = s.snp := rfl
@[simp] theorem rsetN_flt (a n : Nat) : (s.rsetN a n).flt = s.flt := rfl
@[simp] theorem rsetN_boot (a n : Nat) : (s.rsetN a n).boot = s.boot := rfl
@[simp] theorem rsetN_fe (a n : Nat) : (s.rsetN a n).fe = s.fe := rfl
@[simp] theorem rsetN_cal (a n : Nat) : (s.rsetN a n).cal = s.cal := rfl
@[simp] theorem rsetN_fst (a n : Nat) : (s.rsetN a n).fst = s.fst := rfl
@[simp] theorem rsetN_otp (a n : Nat) : (s.rsetN a n).otp = s.otp := rfl
@[simp] theorem rsetN_wit (a n : Nat) : (s.rsetN a n).wit = s.wit := rfl
@[simp] theorem rsetN_ldg (a n : Nat) : (s.rsetN a n).ldg = s.ldg := rfl
@[simp] theorem rsetN_seq (a n : Nat) : (s.rsetN a n).seq = s.seq := rfl
@[simp] theorem rsetN_bkp (a n : Nat) : (s.rsetN a n).bkp = s.bkp := rfl
@[simp] theorem rsetN_jtag (a n : Nat) : (s.rsetN a n).jtag = s.jtag := rfl
@[simp] theorem rsetN_reqs (a n : Nat) : (s.rsetN a n).reqs = s.reqs := rfl
@[simp] theorem rsetN_images (a n : Nat) : (s.rsetN a n).images = s.images := rfl
@[simp] theorem rsetN_ctxs (a n : Nat) : (s.rsetN a n).ctxs = s.ctxs := rfl
@[simp] theorem rsetN_taps (a n : Nat) : (s.rsetN a n).taps = s.taps := rfl
@[simp] theorem rsetN_runs (a n : Nat) : (s.rsetN a n).runs = s.runs := rfl

/-! ## State.rset64 -/

@[simp] theorem rset64_pending (a n : Nat) : (s.rset64 a n).pending = s.pending := rfl
@[simp] theorem rset64_free (a n : Nat) : (s.rset64 a n).free = s.free := rfl
@[simp] theorem rset64_time (a n : Nat) : (s.rset64 a n).time = s.time := rfl
@[simp] theorem rset64_clk (a n : Nat) : (s.rset64 a n).clk = s.clk := rfl
@[simp] theorem rset64_buses (a n : Nat) : (s.rset64 a n).buses = s.buses := rfl
@[simp] theorem rset64_host (a n : Nat) : (s.rset64 a n).host = s.host := rfl
@[simp] theorem rset64_snp (a n : Nat) : (s.rset64 a n).snp = s.snp := rfl
@[simp] theorem rset64_flt (a n : Nat) : (s.rset64 a n).flt = s.flt := rfl
@[simp] theorem rset64_boot (a n : Nat) : (s.rset64 a n).boot = s.boot := rfl
@[simp] theorem rset64_fe (a n : Nat) : (s.rset64 a n).fe = s.fe := rfl
@[simp] theorem rset64_cal (a n : Nat) : (s.rset64 a n).cal = s.cal := rfl
@[simp] theorem rset64_fst (a n : Nat) : (s.rset64 a n).fst = s.fst := rfl
@[simp] theorem rset64_otp (a n : Nat) : (s.rset64 a n).otp = s.otp := rfl
@[simp] theorem rset64_wit (a n : Nat) : (s.rset64 a n).wit = s.wit := rfl
@[simp] theorem rset64_ldg (a n : Nat) : (s.rset64 a n).ldg = s.ldg := rfl
@[simp] theorem rset64_seq (a n : Nat) : (s.rset64 a n).seq = s.seq := rfl
@[simp] theorem rset64_bkp (a n : Nat) : (s.rset64 a n).bkp = s.bkp := rfl
@[simp] theorem rset64_jtag (a n : Nat) : (s.rset64 a n).jtag = s.jtag := rfl
@[simp] theorem rset64_reqs (a n : Nat) : (s.rset64 a n).reqs = s.reqs := rfl
@[simp] theorem rset64_images (a n : Nat) : (s.rset64 a n).images = s.images := rfl
@[simp] theorem rset64_ctxs (a n : Nat) : (s.rset64 a n).ctxs = s.ctxs := rfl
@[simp] theorem rset64_taps (a n : Nat) : (s.rset64 a n).taps = s.taps := rfl
@[simp] theorem rset64_runs (a n : Nat) : (s.rset64 a n).runs = s.runs := rfl

/-! ## State.fset -/

@[simp] theorem fset_pending (f : Reg.Fld) (n : Nat) : (s.fset f n).pending = s.pending := rfl
@[simp] theorem fset_free (f : Reg.Fld) (n : Nat) : (s.fset f n).free = s.free := rfl
@[simp] theorem fset_time (f : Reg.Fld) (n : Nat) : (s.fset f n).time = s.time := rfl
@[simp] theorem fset_clk (f : Reg.Fld) (n : Nat) : (s.fset f n).clk = s.clk := rfl
@[simp] theorem fset_buses (f : Reg.Fld) (n : Nat) : (s.fset f n).buses = s.buses := rfl
@[simp] theorem fset_host (f : Reg.Fld) (n : Nat) : (s.fset f n).host = s.host := rfl
@[simp] theorem fset_snp (f : Reg.Fld) (n : Nat) : (s.fset f n).snp = s.snp := rfl
@[simp] theorem fset_flt (f : Reg.Fld) (n : Nat) : (s.fset f n).flt = s.flt := rfl
@[simp] theorem fset_boot (f : Reg.Fld) (n : Nat) : (s.fset f n).boot = s.boot := rfl
@[simp] theorem fset_fe (f : Reg.Fld) (n : Nat) : (s.fset f n).fe = s.fe := rfl
@[simp] theorem fset_cal (f : Reg.Fld) (n : Nat) : (s.fset f n).cal = s.cal := rfl
@[simp] theorem fset_fst (f : Reg.Fld) (n : Nat) : (s.fset f n).fst = s.fst := rfl
@[simp] theorem fset_otp (f : Reg.Fld) (n : Nat) : (s.fset f n).otp = s.otp := rfl
@[simp] theorem fset_wit (f : Reg.Fld) (n : Nat) : (s.fset f n).wit = s.wit := rfl
@[simp] theorem fset_ldg (f : Reg.Fld) (n : Nat) : (s.fset f n).ldg = s.ldg := rfl
@[simp] theorem fset_seq (f : Reg.Fld) (n : Nat) : (s.fset f n).seq = s.seq := rfl
@[simp] theorem fset_bkp (f : Reg.Fld) (n : Nat) : (s.fset f n).bkp = s.bkp := rfl
@[simp] theorem fset_jtag (f : Reg.Fld) (n : Nat) : (s.fset f n).jtag = s.jtag := rfl
@[simp] theorem fset_reqs (f : Reg.Fld) (n : Nat) : (s.fset f n).reqs = s.reqs := rfl
@[simp] theorem fset_images (f : Reg.Fld) (n : Nat) : (s.fset f n).images = s.images := rfl
@[simp] theorem fset_ctxs (f : Reg.Fld) (n : Nat) : (s.fset f n).ctxs = s.ctxs := rfl
@[simp] theorem fset_taps (f : Reg.Fld) (n : Nat) : (s.fset f n).taps = s.taps := rfl
@[simp] theorem fset_runs (f : Reg.Fld) (n : Nat) : (s.fset f n).runs = s.runs := rfl

/-! ## State.fsetB -/

@[simp] theorem fsetB_pending (f : Reg.Fld) (b : Bool) : (s.fsetB f b).pending = s.pending := rfl
@[simp] theorem fsetB_free (f : Reg.Fld) (b : Bool) : (s.fsetB f b).free = s.free := rfl
@[simp] theorem fsetB_time (f : Reg.Fld) (b : Bool) : (s.fsetB f b).time = s.time := rfl
@[simp] theorem fsetB_clk (f : Reg.Fld) (b : Bool) : (s.fsetB f b).clk = s.clk := rfl
@[simp] theorem fsetB_buses (f : Reg.Fld) (b : Bool) : (s.fsetB f b).buses = s.buses := rfl
@[simp] theorem fsetB_host (f : Reg.Fld) (b : Bool) : (s.fsetB f b).host = s.host := rfl
@[simp] theorem fsetB_snp (f : Reg.Fld) (b : Bool) : (s.fsetB f b).snp = s.snp := rfl
@[simp] theorem fsetB_flt (f : Reg.Fld) (b : Bool) : (s.fsetB f b).flt = s.flt := rfl
@[simp] theorem fsetB_boot (f : Reg.Fld) (b : Bool) : (s.fsetB f b).boot = s.boot := rfl
@[simp] theorem fsetB_fe (f : Reg.Fld) (b : Bool) : (s.fsetB f b).fe = s.fe := rfl
@[simp] theorem fsetB_cal (f : Reg.Fld) (b : Bool) : (s.fsetB f b).cal = s.cal := rfl
@[simp] theorem fsetB_fst (f : Reg.Fld) (b : Bool) : (s.fsetB f b).fst = s.fst := rfl
@[simp] theorem fsetB_otp (f : Reg.Fld) (b : Bool) : (s.fsetB f b).otp = s.otp := rfl
@[simp] theorem fsetB_wit (f : Reg.Fld) (b : Bool) : (s.fsetB f b).wit = s.wit := rfl
@[simp] theorem fsetB_ldg (f : Reg.Fld) (b : Bool) : (s.fsetB f b).ldg = s.ldg := rfl
@[simp] theorem fsetB_seq (f : Reg.Fld) (b : Bool) : (s.fsetB f b).seq = s.seq := rfl
@[simp] theorem fsetB_bkp (f : Reg.Fld) (b : Bool) : (s.fsetB f b).bkp = s.bkp := rfl
@[simp] theorem fsetB_jtag (f : Reg.Fld) (b : Bool) : (s.fsetB f b).jtag = s.jtag := rfl
@[simp] theorem fsetB_reqs (f : Reg.Fld) (b : Bool) : (s.fsetB f b).reqs = s.reqs := rfl
@[simp] theorem fsetB_images (f : Reg.Fld) (b : Bool) : (s.fsetB f b).images = s.images := rfl
@[simp] theorem fsetB_ctxs (f : Reg.Fld) (b : Bool) : (s.fsetB f b).ctxs = s.ctxs := rfl
@[simp] theorem fsetB_taps (f : Reg.Fld) (b : Bool) : (s.fsetB f b).taps = s.taps := rfl
@[simp] theorem fsetB_runs (f : Reg.Fld) (b : Bool) : (s.fsetB f b).runs = s.runs := rfl

/-! ## State.evt -/

@[simp] theorem evt_pending (f : Reg.Fld) : (s.evt f).pending = s.pending := rfl
@[simp] theorem evt_free (f : Reg.Fld) : (s.evt f).free = s.free := rfl
@[simp] theorem evt_time (f : Reg.Fld) : (s.evt f).time = s.time.noteEvt f := rfl
@[simp] theorem evt_clk (f : Reg.Fld) : (s.evt f).clk = s.clk := rfl
@[simp] theorem evt_buses (f : Reg.Fld) : (s.evt f).buses = s.buses := rfl
@[simp] theorem evt_host (f : Reg.Fld) : (s.evt f).host = s.host := rfl
@[simp] theorem evt_snp (f : Reg.Fld) : (s.evt f).snp = s.snp := rfl
@[simp] theorem evt_flt (f : Reg.Fld) : (s.evt f).flt = s.flt := rfl
@[simp] theorem evt_boot (f : Reg.Fld) : (s.evt f).boot = s.boot := rfl
@[simp] theorem evt_fe (f : Reg.Fld) : (s.evt f).fe = s.fe := rfl
@[simp] theorem evt_cal (f : Reg.Fld) : (s.evt f).cal = s.cal := rfl
@[simp] theorem evt_fst (f : Reg.Fld) : (s.evt f).fst = s.fst := rfl
@[simp] theorem evt_otp (f : Reg.Fld) : (s.evt f).otp = s.otp := rfl
@[simp] theorem evt_wit (f : Reg.Fld) : (s.evt f).wit = s.wit := rfl
@[simp] theorem evt_ldg (f : Reg.Fld) : (s.evt f).ldg = s.ldg := rfl
@[simp] theorem evt_seq (f : Reg.Fld) : (s.evt f).seq = s.seq := rfl
@[simp] theorem evt_bkp (f : Reg.Fld) : (s.evt f).bkp = s.bkp := rfl
@[simp] theorem evt_jtag (f : Reg.Fld) : (s.evt f).jtag = s.jtag := rfl
@[simp] theorem evt_reqs (f : Reg.Fld) : (s.evt f).reqs = s.reqs := rfl
@[simp] theorem evt_images (f : Reg.Fld) : (s.evt f).images = s.images := rfl
@[simp] theorem evt_ctxs (f : Reg.Fld) : (s.evt f).ctxs = s.ctxs := rfl
@[simp] theorem evt_taps (f : Reg.Fld) : (s.evt f).taps = s.taps := rfl
@[simp] theorem evt_runs (f : Reg.Fld) : (s.evt f).runs = s.runs := rfl

/-! ## TimeS.noteEvt -/

@[simp] theorem noteEvt_stu (t : TimeS) (f : Reg.Fld) : (t.noteEvt f).stu = t.stu := rfl
@[simp] theorem noteEvt_tick (t : TimeS) (f : Reg.Fld) : (t.noteEvt f).tick = t.tick := rfl
@[simp] theorem noteEvt_latches (t : TimeS) (f : Reg.Fld) : (t.noteEvt f).latches = t.latches := rfl
@[simp] theorem noteEvt_a (t : TimeS) (f : Reg.Fld) : (t.noteEvt f).a = t.a := rfl
@[simp] theorem noteEvt_s0 (t : TimeS) (f : Reg.Fld) : (t.noteEvt f).s0 = t.s0 := rfl
@[simp] theorem noteEvt_k (t : TimeS) (f : Reg.Fld) : (t.noteEvt f).k = t.k := rfl
@[simp] theorem noteEvt_slew (t : TimeS) (f : Reg.Fld) : (t.noteEvt f).slew = t.slew := rfl
@[simp] theorem noteEvt_slewRate (t : TimeS) (f : Reg.Fld) : (t.noteEvt f).slewRate = t.slewRate := rfl
@[simp] theorem noteEvt_unc (t : TimeS) (f : Reg.Fld) : (t.noteEvt f).unc = t.unc := rfl
@[simp] theorem noteEvt_uncAt (t : TimeS) (f : Reg.Fld) : (t.noteEvt f).uncAt = t.uncAt := rfl
@[simp] theorem noteEvt_obs (t : TimeS) (f : Reg.Fld) : (t.noteEvt f).obs = t.obs := rfl
@[simp] theorem noteEvt_bcastHist (t : TimeS) (f : Reg.Fld) : (t.noteEvt f).bcastHist = t.bcastHist := rfl
@[simp] theorem noteEvt_ppsHist (t : TimeS) (f : Reg.Fld) : (t.noteEvt f).ppsHist = t.ppsHist := rfl
@[simp] theorem noteEvt_claims (t : TimeS) (f : Reg.Fld) : (t.noteEvt f).claims = t.claims := rfl
@[simp] theorem noteEvt_hostValid (t : TimeS) (f : Reg.Fld) : (t.noteEvt f).hostValid = t.hostValid := rfl
@[simp] theorem noteEvt_rejRun (t : TimeS) (f : Reg.Fld) : (t.noteEvt f).rejRun = t.rejRun := rfl
@[simp] theorem noteEvt_rejCls (t : TimeS) (f : Reg.Fld) : (t.noteEvt f).rejCls = t.rejCls := rfl
@[simp] theorem noteEvt_prev (t : TimeS) (f : Reg.Fld) : (t.noteEvt f).prev = t.prev := rfl
@[simp] theorem noteEvt_spoofBad (t : TimeS) (f : Reg.Fld) : (t.noteEvt f).spoofBad = t.spoofBad := rfl
@[simp] theorem noteEvt_spoofGood (t : TimeS) (f : Reg.Fld) : (t.noteEvt f).spoofGood = t.spoofGood := rfl
@[simp] theorem noteEvt_ppsSecond (t : TimeS) (f : Reg.Fld) : (t.noteEvt f).ppsSecond = t.ppsSecond := rfl
@[simp] theorem noteEvt_ppsOut (t : TimeS) (f : Reg.Fld) : (t.noteEvt f).ppsOut = t.ppsOut := rfl
@[simp] theorem noteEvt_ppsRise (t : TimeS) (f : Reg.Fld) : (t.noteEvt f).ppsRise = t.ppsRise := rfl
@[simp] theorem noteEvt_ppsOutSecond (t : TimeS) (f : Reg.Fld) : (t.noteEvt f).ppsOutSecond = t.ppsOutSecond := rfl
@[simp] theorem noteEvt_stepped (t : TimeS) (f : Reg.Fld) : (t.noteEvt f).stepped = t.stepped := rfl
@[simp] theorem noteEvt_tickOut (t : TimeS) (f : Reg.Fld) : (t.noteEvt f).tickOut = t.tickOut := rfl
@[simp] theorem noteEvt_tickOutRise (t : TimeS) (f : Reg.Fld) : (t.noteEvt f).tickOutRise = t.tickOutRise := rfl
@[simp] theorem noteEvt_lastEval (t : TimeS) (f : Reg.Fld) : (t.noteEvt f).lastEval = t.lastEval := rfl
@[simp] theorem noteEvt_pendSet (t : TimeS) (f : Reg.Fld) : (t.noteEvt f).pendSet = t.pendSet := rfl
@[simp] theorem noteEvt_qualWins (t : TimeS) (f : Reg.Fld) : (t.noteEvt f).qualWins = t.qualWins := rfl
@[simp] theorem noteEvt_newRefWins (t : TimeS) (f : Reg.Fld) : (t.noteEvt f).newRefWins = t.newRefWins := rfl
@[simp] theorem noteEvt_realign (t : TimeS) (f : Reg.Fld) : (t.noteEvt f).realign = t.realign := rfl
@[simp] theorem noteEvt_walk (t : TimeS) (f : Reg.Fld) : (t.noteEvt f).walk = t.walk := rfl
@[simp] theorem noteEvt_lockedAtLoss (t : TimeS) (f : Reg.Fld) : (t.noteEvt f).lockedAtLoss = t.lockedAtLoss := rfl
@[simp] theorem noteEvt_lossTemp (t : TimeS) (f : Reg.Fld) : (t.noteEvt f).lossTemp = t.lossTemp := rfl
@[simp] theorem noteEvt_leapSet (t : TimeS) (f : Reg.Fld) : (t.noteEvt f).leapSet = t.leapSet := rfl
@[simp] theorem noteEvt_rejCount (t : TimeS) (f : Reg.Fld) : (t.noteEvt f).rejCount = t.rejCount := rfl
@[simp] theorem noteEvt_strays (t : TimeS) (f : Reg.Fld) : (t.noteEvt f).strays = t.strays := rfl
@[simp] theorem noteEvt_evtStu (t : TimeS) (f : Reg.Fld) : (t.noteEvt f).evtStu = t.stu := rfl

/-! ## State.bumpBy -/

@[simp] theorem bumpBy_pending (f : Reg.Fld) (n : Nat) : (s.bumpBy f n).pending = s.pending := rfl
@[simp] theorem bumpBy_free (f : Reg.Fld) (n : Nat) : (s.bumpBy f n).free = s.free := rfl
@[simp] theorem bumpBy_time (f : Reg.Fld) (n : Nat) : (s.bumpBy f n).time = s.time := rfl
@[simp] theorem bumpBy_clk (f : Reg.Fld) (n : Nat) : (s.bumpBy f n).clk = s.clk := rfl
@[simp] theorem bumpBy_buses (f : Reg.Fld) (n : Nat) : (s.bumpBy f n).buses = s.buses := rfl
@[simp] theorem bumpBy_host (f : Reg.Fld) (n : Nat) : (s.bumpBy f n).host = s.host := rfl
@[simp] theorem bumpBy_snp (f : Reg.Fld) (n : Nat) : (s.bumpBy f n).snp = s.snp := rfl
@[simp] theorem bumpBy_flt (f : Reg.Fld) (n : Nat) : (s.bumpBy f n).flt = s.flt := rfl
@[simp] theorem bumpBy_boot (f : Reg.Fld) (n : Nat) : (s.bumpBy f n).boot = s.boot := rfl
@[simp] theorem bumpBy_fe (f : Reg.Fld) (n : Nat) : (s.bumpBy f n).fe = s.fe := rfl
@[simp] theorem bumpBy_cal (f : Reg.Fld) (n : Nat) : (s.bumpBy f n).cal = s.cal := rfl
@[simp] theorem bumpBy_fst (f : Reg.Fld) (n : Nat) : (s.bumpBy f n).fst = s.fst := rfl
@[simp] theorem bumpBy_otp (f : Reg.Fld) (n : Nat) : (s.bumpBy f n).otp = s.otp := rfl
@[simp] theorem bumpBy_wit (f : Reg.Fld) (n : Nat) : (s.bumpBy f n).wit = s.wit := rfl
@[simp] theorem bumpBy_ldg (f : Reg.Fld) (n : Nat) : (s.bumpBy f n).ldg = s.ldg := rfl
@[simp] theorem bumpBy_seq (f : Reg.Fld) (n : Nat) : (s.bumpBy f n).seq = s.seq := rfl
@[simp] theorem bumpBy_bkp (f : Reg.Fld) (n : Nat) : (s.bumpBy f n).bkp = s.bkp := rfl
@[simp] theorem bumpBy_jtag (f : Reg.Fld) (n : Nat) : (s.bumpBy f n).jtag = s.jtag := rfl
@[simp] theorem bumpBy_reqs (f : Reg.Fld) (n : Nat) : (s.bumpBy f n).reqs = s.reqs := rfl
@[simp] theorem bumpBy_images (f : Reg.Fld) (n : Nat) : (s.bumpBy f n).images = s.images := rfl
@[simp] theorem bumpBy_ctxs (f : Reg.Fld) (n : Nat) : (s.bumpBy f n).ctxs = s.ctxs := rfl
@[simp] theorem bumpBy_taps (f : Reg.Fld) (n : Nat) : (s.bumpBy f n).taps = s.taps := rfl
@[simp] theorem bumpBy_runs (f : Reg.Fld) (n : Nat) : (s.bumpBy f n).runs = s.runs := rfl

/-! ## State.bump -/

@[simp] theorem bump_pending (f : Reg.Fld) : (s.bump f).pending = s.pending := rfl
@[simp] theorem bump_free (f : Reg.Fld) : (s.bump f).free = s.free := rfl
@[simp] theorem bump_time (f : Reg.Fld) : (s.bump f).time = s.time := rfl
@[simp] theorem bump_clk (f : Reg.Fld) : (s.bump f).clk = s.clk := rfl
@[simp] theorem bump_buses (f : Reg.Fld) : (s.bump f).buses = s.buses := rfl
@[simp] theorem bump_host (f : Reg.Fld) : (s.bump f).host = s.host := rfl
@[simp] theorem bump_snp (f : Reg.Fld) : (s.bump f).snp = s.snp := rfl
@[simp] theorem bump_flt (f : Reg.Fld) : (s.bump f).flt = s.flt := rfl
@[simp] theorem bump_boot (f : Reg.Fld) : (s.bump f).boot = s.boot := rfl
@[simp] theorem bump_fe (f : Reg.Fld) : (s.bump f).fe = s.fe := rfl
@[simp] theorem bump_cal (f : Reg.Fld) : (s.bump f).cal = s.cal := rfl
@[simp] theorem bump_fst (f : Reg.Fld) : (s.bump f).fst = s.fst := rfl
@[simp] theorem bump_otp (f : Reg.Fld) : (s.bump f).otp = s.otp := rfl
@[simp] theorem bump_wit (f : Reg.Fld) : (s.bump f).wit = s.wit := rfl
@[simp] theorem bump_ldg (f : Reg.Fld) : (s.bump f).ldg = s.ldg := rfl
@[simp] theorem bump_seq (f : Reg.Fld) : (s.bump f).seq = s.seq := rfl
@[simp] theorem bump_bkp (f : Reg.Fld) : (s.bump f).bkp = s.bkp := rfl
@[simp] theorem bump_jtag (f : Reg.Fld) : (s.bump f).jtag = s.jtag := rfl
@[simp] theorem bump_reqs (f : Reg.Fld) : (s.bump f).reqs = s.reqs := rfl
@[simp] theorem bump_images (f : Reg.Fld) : (s.bump f).images = s.images := rfl
@[simp] theorem bump_ctxs (f : Reg.Fld) : (s.bump f).ctxs = s.ctxs := rfl
@[simp] theorem bump_taps (f : Reg.Fld) : (s.bump f).taps = s.taps := rfl
@[simp] theorem bump_runs (f : Reg.Fld) : (s.bump f).runs = s.runs := rfl

/-! ## State.tenMod -/

@[simp] theorem tenMod_pending (t : Nat) (f : TenantS → TenantS) : (s.tenMod t f).pending = s.pending := rfl
@[simp] theorem tenMod_free (t : Nat) (f : TenantS → TenantS) : (s.tenMod t f).free = s.free := rfl
@[simp] theorem tenMod_regs (t : Nat) (f : TenantS → TenantS) : (s.tenMod t f).regs = s.regs := rfl
@[simp] theorem tenMod_time (t : Nat) (f : TenantS → TenantS) : (s.tenMod t f).time = s.time := rfl
@[simp] theorem tenMod_clk (t : Nat) (f : TenantS → TenantS) : (s.tenMod t f).clk = s.clk := rfl
@[simp] theorem tenMod_buses (t : Nat) (f : TenantS → TenantS) : (s.tenMod t f).buses = s.buses := rfl
@[simp] theorem tenMod_host (t : Nat) (f : TenantS → TenantS) : (s.tenMod t f).host = { s.host with tenants := modifyAt s.host.tenants t f } := rfl
@[simp] theorem tenMod_snp (t : Nat) (f : TenantS → TenantS) : (s.tenMod t f).snp = s.snp := rfl
@[simp] theorem tenMod_flt (t : Nat) (f : TenantS → TenantS) : (s.tenMod t f).flt = s.flt := rfl
@[simp] theorem tenMod_boot (t : Nat) (f : TenantS → TenantS) : (s.tenMod t f).boot = s.boot := rfl
@[simp] theorem tenMod_fe (t : Nat) (f : TenantS → TenantS) : (s.tenMod t f).fe = s.fe := rfl
@[simp] theorem tenMod_cal (t : Nat) (f : TenantS → TenantS) : (s.tenMod t f).cal = s.cal := rfl
@[simp] theorem tenMod_fst (t : Nat) (f : TenantS → TenantS) : (s.tenMod t f).fst = s.fst := rfl
@[simp] theorem tenMod_otp (t : Nat) (f : TenantS → TenantS) : (s.tenMod t f).otp = s.otp := rfl
@[simp] theorem tenMod_wit (t : Nat) (f : TenantS → TenantS) : (s.tenMod t f).wit = s.wit := rfl
@[simp] theorem tenMod_ldg (t : Nat) (f : TenantS → TenantS) : (s.tenMod t f).ldg = s.ldg := rfl
@[simp] theorem tenMod_seq (t : Nat) (f : TenantS → TenantS) : (s.tenMod t f).seq = s.seq := rfl
@[simp] theorem tenMod_bkp (t : Nat) (f : TenantS → TenantS) : (s.tenMod t f).bkp = s.bkp := rfl
@[simp] theorem tenMod_jtag (t : Nat) (f : TenantS → TenantS) : (s.tenMod t f).jtag = s.jtag := rfl
@[simp] theorem tenMod_reqs (t : Nat) (f : TenantS → TenantS) : (s.tenMod t f).reqs = s.reqs := rfl
@[simp] theorem tenMod_images (t : Nat) (f : TenantS → TenantS) : (s.tenMod t f).images = s.images := rfl
@[simp] theorem tenMod_ctxs (t : Nat) (f : TenantS → TenantS) : (s.tenMod t f).ctxs = s.ctxs := rfl
@[simp] theorem tenMod_taps (t : Nat) (f : TenantS → TenantS) : (s.tenMod t f).taps = s.taps := rfl
@[simp] theorem tenMod_runs (t : Nat) (f : TenantS → TenantS) : (s.tenMod t f).runs = s.runs := rfl

/-! ## State.ctxMod -/

@[simp] theorem ctxMod_pending (n : Nat) (f : ContextS → ContextS) : (s.ctxMod n f).pending = s.pending := rfl
@[simp] theorem ctxMod_free (n : Nat) (f : ContextS → ContextS) : (s.ctxMod n f).free = s.free := rfl
@[simp] theorem ctxMod_regs (n : Nat) (f : ContextS → ContextS) : (s.ctxMod n f).regs = s.regs := rfl
@[simp] theorem ctxMod_time (n : Nat) (f : ContextS → ContextS) : (s.ctxMod n f).time = s.time := rfl
@[simp] theorem ctxMod_clk (n : Nat) (f : ContextS → ContextS) : (s.ctxMod n f).clk = s.clk := rfl
@[simp] theorem ctxMod_buses (n : Nat) (f : ContextS → ContextS) : (s.ctxMod n f).buses = s.buses := rfl
@[simp] theorem ctxMod_host (n : Nat) (f : ContextS → ContextS) : (s.ctxMod n f).host = s.host := rfl
@[simp] theorem ctxMod_snp (n : Nat) (f : ContextS → ContextS) : (s.ctxMod n f).snp = s.snp := rfl
@[simp] theorem ctxMod_flt (n : Nat) (f : ContextS → ContextS) : (s.ctxMod n f).flt = s.flt := rfl
@[simp] theorem ctxMod_boot (n : Nat) (f : ContextS → ContextS) : (s.ctxMod n f).boot = s.boot := rfl
@[simp] theorem ctxMod_fe (n : Nat) (f : ContextS → ContextS) : (s.ctxMod n f).fe = s.fe := rfl
@[simp] theorem ctxMod_cal (n : Nat) (f : ContextS → ContextS) : (s.ctxMod n f).cal = s.cal := rfl
@[simp] theorem ctxMod_fst (n : Nat) (f : ContextS → ContextS) : (s.ctxMod n f).fst = s.fst := rfl
@[simp] theorem ctxMod_otp (n : Nat) (f : ContextS → ContextS) : (s.ctxMod n f).otp = s.otp := rfl
@[simp] theorem ctxMod_wit (n : Nat) (f : ContextS → ContextS) : (s.ctxMod n f).wit = s.wit := rfl
@[simp] theorem ctxMod_ldg (n : Nat) (f : ContextS → ContextS) : (s.ctxMod n f).ldg = s.ldg := rfl
@[simp] theorem ctxMod_seq (n : Nat) (f : ContextS → ContextS) : (s.ctxMod n f).seq = s.seq := rfl
@[simp] theorem ctxMod_bkp (n : Nat) (f : ContextS → ContextS) : (s.ctxMod n f).bkp = s.bkp := rfl
@[simp] theorem ctxMod_jtag (n : Nat) (f : ContextS → ContextS) : (s.ctxMod n f).jtag = s.jtag := rfl
@[simp] theorem ctxMod_reqs (n : Nat) (f : ContextS → ContextS) : (s.ctxMod n f).reqs = s.reqs := rfl
@[simp] theorem ctxMod_images (n : Nat) (f : ContextS → ContextS) : (s.ctxMod n f).images = s.images := rfl
@[simp] theorem ctxMod_ctxs (n : Nat) (f : ContextS → ContextS) : (s.ctxMod n f).ctxs = putIdx s.ctxs n (f (s.ctx n)) := rfl
@[simp] theorem ctxMod_taps (n : Nat) (f : ContextS → ContextS) : (s.ctxMod n f).taps = s.taps := rfl
@[simp] theorem ctxMod_runs (n : Nat) (f : ContextS → ContextS) : (s.ctxMod n f).runs = s.runs := rfl

/-! ## State.chnMod -/

@[simp] theorem chnMod_pending (n : Nat) (f : ChainS → ChainS) : (s.chnMod n f).pending = s.pending := rfl
@[simp] theorem chnMod_free (n : Nat) (f : ChainS → ChainS) : (s.chnMod n f).free = s.free := rfl
@[simp] theorem chnMod_regs (n : Nat) (f : ChainS → ChainS) : (s.chnMod n f).regs = s.regs := rfl
@[simp] theorem chnMod_time (n : Nat) (f : ChainS → ChainS) : (s.chnMod n f).time = s.time := rfl
@[simp] theorem chnMod_clk (n : Nat) (f : ChainS → ChainS) : (s.chnMod n f).clk = s.clk := rfl
@[simp] theorem chnMod_buses (n : Nat) (f : ChainS → ChainS) : (s.chnMod n f).buses = s.buses := rfl
@[simp] theorem chnMod_host (n : Nat) (f : ChainS → ChainS) : (s.chnMod n f).host = s.host := rfl
@[simp] theorem chnMod_snp (n : Nat) (f : ChainS → ChainS) : (s.chnMod n f).snp = s.snp := rfl
@[simp] theorem chnMod_flt (n : Nat) (f : ChainS → ChainS) : (s.chnMod n f).flt = s.flt := rfl
@[simp] theorem chnMod_boot (n : Nat) (f : ChainS → ChainS) : (s.chnMod n f).boot = s.boot := rfl
@[simp] theorem chnMod_fe (n : Nat) (f : ChainS → ChainS) : (s.chnMod n f).fe = s.fe := rfl
@[simp] theorem chnMod_cal (n : Nat) (f : ChainS → ChainS) : (s.chnMod n f).cal = s.cal := rfl
@[simp] theorem chnMod_fst (n : Nat) (f : ChainS → ChainS) : (s.chnMod n f).fst = s.fst := rfl
@[simp] theorem chnMod_otp (n : Nat) (f : ChainS → ChainS) : (s.chnMod n f).otp = s.otp := rfl
@[simp] theorem chnMod_wit (n : Nat) (f : ChainS → ChainS) : (s.chnMod n f).wit = s.wit := rfl
@[simp] theorem chnMod_ldg (n : Nat) (f : ChainS → ChainS) : (s.chnMod n f).ldg = s.ldg := rfl
@[simp] theorem chnMod_seq (n : Nat) (f : ChainS → ChainS) : (s.chnMod n f).seq = s.seq := rfl
@[simp] theorem chnMod_bkp (n : Nat) (f : ChainS → ChainS) : (s.chnMod n f).bkp = s.bkp := rfl
@[simp] theorem chnMod_jtag (n : Nat) (f : ChainS → ChainS) : (s.chnMod n f).jtag = s.jtag := rfl
@[simp] theorem chnMod_reqs (n : Nat) (f : ChainS → ChainS) : (s.chnMod n f).reqs = s.reqs := rfl
@[simp] theorem chnMod_images (n : Nat) (f : ChainS → ChainS) : (s.chnMod n f).images = s.images := rfl
@[simp] theorem chnMod_taps (n : Nat) (f : ChainS → ChainS) : (s.chnMod n f).taps = s.taps := rfl
@[simp] theorem chnMod_runs (n : Nat) (f : ChainS → ChainS) : (s.chnMod n f).runs = s.runs := rfl

/-! ## State.setRun -/

@[simp] theorem setRun_pending (e : Nat) (r : Option Run) : (s.setRun e r).pending = s.pending := rfl
@[simp] theorem setRun_free (e : Nat) (r : Option Run) : (s.setRun e r).free = s.free := rfl
@[simp] theorem setRun_regs (e : Nat) (r : Option Run) : (s.setRun e r).regs = s.regs := rfl
@[simp] theorem setRun_time (e : Nat) (r : Option Run) : (s.setRun e r).time = s.time := rfl
@[simp] theorem setRun_clk (e : Nat) (r : Option Run) : (s.setRun e r).clk = s.clk := rfl
@[simp] theorem setRun_buses (e : Nat) (r : Option Run) : (s.setRun e r).buses = s.buses := rfl
@[simp] theorem setRun_host (e : Nat) (r : Option Run) : (s.setRun e r).host = s.host := rfl
@[simp] theorem setRun_snp (e : Nat) (r : Option Run) : (s.setRun e r).snp = s.snp := rfl
@[simp] theorem setRun_flt (e : Nat) (r : Option Run) : (s.setRun e r).flt = s.flt := rfl
@[simp] theorem setRun_boot (e : Nat) (r : Option Run) : (s.setRun e r).boot = s.boot := rfl
@[simp] theorem setRun_fe (e : Nat) (r : Option Run) : (s.setRun e r).fe = s.fe := rfl
@[simp] theorem setRun_cal (e : Nat) (r : Option Run) : (s.setRun e r).cal = s.cal := rfl
@[simp] theorem setRun_fst (e : Nat) (r : Option Run) : (s.setRun e r).fst = s.fst := rfl
@[simp] theorem setRun_otp (e : Nat) (r : Option Run) : (s.setRun e r).otp = s.otp := rfl
@[simp] theorem setRun_wit (e : Nat) (r : Option Run) : (s.setRun e r).wit = s.wit := rfl
@[simp] theorem setRun_ldg (e : Nat) (r : Option Run) : (s.setRun e r).ldg = s.ldg := rfl
@[simp] theorem setRun_seq (e : Nat) (r : Option Run) : (s.setRun e r).seq = s.seq := rfl
@[simp] theorem setRun_bkp (e : Nat) (r : Option Run) : (s.setRun e r).bkp = s.bkp := rfl
@[simp] theorem setRun_jtag (e : Nat) (r : Option Run) : (s.setRun e r).jtag = s.jtag := rfl
@[simp] theorem setRun_reqs (e : Nat) (r : Option Run) : (s.setRun e r).reqs = s.reqs := rfl
@[simp] theorem setRun_images (e : Nat) (r : Option Run) : (s.setRun e r).images = s.images := rfl
@[simp] theorem setRun_ctxs (e : Nat) (r : Option Run) : (s.setRun e r).ctxs = s.ctxs := rfl
@[simp] theorem setRun_taps (e : Nat) (r : Option Run) : (s.setRun e r).taps = s.taps := rfl
@[simp] theorem setRun_runs (e : Nat) (r : Option Run) : (s.setRun e r).runs = modifyAt s.runs e (fun _ => r) := rfl

/-! ## State.busMod -/

@[simp] theorem busMod_pending (b : Nat) (f : BusS → BusS) : (s.busMod b f).pending = s.pending := rfl
@[simp] theorem busMod_free (b : Nat) (f : BusS → BusS) : (s.busMod b f).free = s.free := rfl
@[simp] theorem busMod_regs (b : Nat) (f : BusS → BusS) : (s.busMod b f).regs = s.regs := rfl
@[simp] theorem busMod_time (b : Nat) (f : BusS → BusS) : (s.busMod b f).time = s.time := rfl
@[simp] theorem busMod_clk (b : Nat) (f : BusS → BusS) : (s.busMod b f).clk = s.clk := rfl
@[simp] theorem busMod_buses (b : Nat) (f : BusS → BusS) : (s.busMod b f).buses = modifyAt s.buses b f := rfl
@[simp] theorem busMod_host (b : Nat) (f : BusS → BusS) : (s.busMod b f).host = s.host := rfl
@[simp] theorem busMod_snp (b : Nat) (f : BusS → BusS) : (s.busMod b f).snp = s.snp := rfl
@[simp] theorem busMod_flt (b : Nat) (f : BusS → BusS) : (s.busMod b f).flt = s.flt := rfl
@[simp] theorem busMod_boot (b : Nat) (f : BusS → BusS) : (s.busMod b f).boot = s.boot := rfl
@[simp] theorem busMod_fe (b : Nat) (f : BusS → BusS) : (s.busMod b f).fe = s.fe := rfl
@[simp] theorem busMod_cal (b : Nat) (f : BusS → BusS) : (s.busMod b f).cal = s.cal := rfl
@[simp] theorem busMod_fst (b : Nat) (f : BusS → BusS) : (s.busMod b f).fst = s.fst := rfl
@[simp] theorem busMod_otp (b : Nat) (f : BusS → BusS) : (s.busMod b f).otp = s.otp := rfl
@[simp] theorem busMod_wit (b : Nat) (f : BusS → BusS) : (s.busMod b f).wit = s.wit := rfl
@[simp] theorem busMod_ldg (b : Nat) (f : BusS → BusS) : (s.busMod b f).ldg = s.ldg := rfl
@[simp] theorem busMod_seq (b : Nat) (f : BusS → BusS) : (s.busMod b f).seq = s.seq := rfl
@[simp] theorem busMod_bkp (b : Nat) (f : BusS → BusS) : (s.busMod b f).bkp = s.bkp := rfl
@[simp] theorem busMod_jtag (b : Nat) (f : BusS → BusS) : (s.busMod b f).jtag = s.jtag := rfl
@[simp] theorem busMod_reqs (b : Nat) (f : BusS → BusS) : (s.busMod b f).reqs = s.reqs := rfl
@[simp] theorem busMod_images (b : Nat) (f : BusS → BusS) : (s.busMod b f).images = s.images := rfl
@[simp] theorem busMod_ctxs (b : Nat) (f : BusS → BusS) : (s.busMod b f).ctxs = s.ctxs := rfl
@[simp] theorem busMod_taps (b : Nat) (f : BusS → BusS) : (s.busMod b f).taps = s.taps := rfl
@[simp] theorem busMod_runs (b : Nat) (f : BusS → BusS) : (s.busMod b f).runs = s.runs := rfl

/-! ## State.exclude -/

@[simp] theorem exclude_pending : (s.exclude).pending = s.pending := rfl
@[simp] theorem exclude_free : (s.exclude).free = s.free := rfl
@[simp] theorem exclude_regs : (s.exclude).regs = s.regs := rfl
@[simp] theorem exclude_time : (s.exclude).time = s.time := rfl
@[simp] theorem exclude_clk : (s.exclude).clk = s.clk := rfl
@[simp] theorem exclude_buses : (s.exclude).buses = s.buses := rfl
@[simp] theorem exclude_host : (s.exclude).host = s.host := rfl
@[simp] theorem exclude_snp : (s.exclude).snp = s.snp := rfl
@[simp] theorem exclude_flt : (s.exclude).flt = { s.flt with excluded := true } := rfl
@[simp] theorem exclude_boot : (s.exclude).boot = s.boot := rfl
@[simp] theorem exclude_fe : (s.exclude).fe = s.fe := rfl
@[simp] theorem exclude_cal : (s.exclude).cal = s.cal := rfl
@[simp] theorem exclude_fst : (s.exclude).fst = s.fst := rfl
@[simp] theorem exclude_otp : (s.exclude).otp = s.otp := rfl
@[simp] theorem exclude_wit : (s.exclude).wit = s.wit := rfl
@[simp] theorem exclude_ldg : (s.exclude).ldg = s.ldg := rfl
@[simp] theorem exclude_seq : (s.exclude).seq = s.seq := rfl
@[simp] theorem exclude_bkp : (s.exclude).bkp = s.bkp := rfl
@[simp] theorem exclude_jtag : (s.exclude).jtag = s.jtag := rfl
@[simp] theorem exclude_reqs : (s.exclude).reqs = s.reqs := rfl
@[simp] theorem exclude_images : (s.exclude).images = s.images := rfl
@[simp] theorem exclude_ctxs : (s.exclude).ctxs = s.ctxs := rfl
@[simp] theorem exclude_taps : (s.exclude).taps = s.taps := rfl
@[simp] theorem exclude_runs : (s.exclude).runs = s.runs := rfl

/-! ## State.timeMod -/

@[simp] theorem timeMod_pending (f : TimeS → TimeS) : (s.timeMod f).pending = s.pending := rfl
@[simp] theorem timeMod_free (f : TimeS → TimeS) : (s.timeMod f).free = s.free := rfl
@[simp] theorem timeMod_regs (f : TimeS → TimeS) : (s.timeMod f).regs = s.regs := rfl
@[simp] theorem timeMod_time (f : TimeS → TimeS) : (s.timeMod f).time = f s.time := rfl
@[simp] theorem timeMod_clk (f : TimeS → TimeS) : (s.timeMod f).clk = s.clk := rfl
@[simp] theorem timeMod_buses (f : TimeS → TimeS) : (s.timeMod f).buses = s.buses := rfl
@[simp] theorem timeMod_host (f : TimeS → TimeS) : (s.timeMod f).host = s.host := rfl
@[simp] theorem timeMod_snp (f : TimeS → TimeS) : (s.timeMod f).snp = s.snp := rfl
@[simp] theorem timeMod_flt (f : TimeS → TimeS) : (s.timeMod f).flt = s.flt := rfl
@[simp] theorem timeMod_boot (f : TimeS → TimeS) : (s.timeMod f).boot = s.boot := rfl
@[simp] theorem timeMod_fe (f : TimeS → TimeS) : (s.timeMod f).fe = s.fe := rfl
@[simp] theorem timeMod_cal (f : TimeS → TimeS) : (s.timeMod f).cal = s.cal := rfl
@[simp] theorem timeMod_fst (f : TimeS → TimeS) : (s.timeMod f).fst = s.fst := rfl
@[simp] theorem timeMod_otp (f : TimeS → TimeS) : (s.timeMod f).otp = s.otp := rfl
@[simp] theorem timeMod_wit (f : TimeS → TimeS) : (s.timeMod f).wit = s.wit := rfl
@[simp] theorem timeMod_ldg (f : TimeS → TimeS) : (s.timeMod f).ldg = s.ldg := rfl
@[simp] theorem timeMod_seq (f : TimeS → TimeS) : (s.timeMod f).seq = s.seq := rfl
@[simp] theorem timeMod_bkp (f : TimeS → TimeS) : (s.timeMod f).bkp = s.bkp := rfl
@[simp] theorem timeMod_jtag (f : TimeS → TimeS) : (s.timeMod f).jtag = s.jtag := rfl
@[simp] theorem timeMod_reqs (f : TimeS → TimeS) : (s.timeMod f).reqs = s.reqs := rfl
@[simp] theorem timeMod_images (f : TimeS → TimeS) : (s.timeMod f).images = s.images := rfl
@[simp] theorem timeMod_ctxs (f : TimeS → TimeS) : (s.timeMod f).ctxs = s.ctxs := rfl
@[simp] theorem timeMod_taps (f : TimeS → TimeS) : (s.timeMod f).taps = s.taps := rfl
@[simp] theorem timeMod_runs (f : TimeS → TimeS) : (s.timeMod f).runs = s.runs := rfl

/-! ## State.hostMod -/

@[simp] theorem hostMod_pending (f : HostS → HostS) : (s.hostMod f).pending = s.pending := rfl
@[simp] theorem hostMod_free (f : HostS → HostS) : (s.hostMod f).free = s.free := rfl
@[simp] theorem hostMod_regs (f : HostS → HostS) : (s.hostMod f).regs = s.regs := rfl
@[simp] theorem hostMod_time (f : HostS → HostS) : (s.hostMod f).time = s.time := rfl
@[simp] theorem hostMod_clk (f : HostS → HostS) : (s.hostMod f).clk = s.clk := rfl
@[simp] theorem hostMod_buses (f : HostS → HostS) : (s.hostMod f).buses = s.buses := rfl
@[simp] theorem hostMod_host (f : HostS → HostS) : (s.hostMod f).host = f s.host := rfl
@[simp] theorem hostMod_snp (f : HostS → HostS) : (s.hostMod f).snp = s.snp := rfl
@[simp] theorem hostMod_flt (f : HostS → HostS) : (s.hostMod f).flt = s.flt := rfl
@[simp] theorem hostMod_boot (f : HostS → HostS) : (s.hostMod f).boot = s.boot := rfl
@[simp] theorem hostMod_fe (f : HostS → HostS) : (s.hostMod f).fe = s.fe := rfl
@[simp] theorem hostMod_cal (f : HostS → HostS) : (s.hostMod f).cal = s.cal := rfl
@[simp] theorem hostMod_fst (f : HostS → HostS) : (s.hostMod f).fst = s.fst := rfl
@[simp] theorem hostMod_otp (f : HostS → HostS) : (s.hostMod f).otp = s.otp := rfl
@[simp] theorem hostMod_wit (f : HostS → HostS) : (s.hostMod f).wit = s.wit := rfl
@[simp] theorem hostMod_ldg (f : HostS → HostS) : (s.hostMod f).ldg = s.ldg := rfl
@[simp] theorem hostMod_seq (f : HostS → HostS) : (s.hostMod f).seq = s.seq := rfl
@[simp] theorem hostMod_bkp (f : HostS → HostS) : (s.hostMod f).bkp = s.bkp := rfl
@[simp] theorem hostMod_jtag (f : HostS → HostS) : (s.hostMod f).jtag = s.jtag := rfl
@[simp] theorem hostMod_reqs (f : HostS → HostS) : (s.hostMod f).reqs = s.reqs := rfl
@[simp] theorem hostMod_images (f : HostS → HostS) : (s.hostMod f).images = s.images := rfl
@[simp] theorem hostMod_ctxs (f : HostS → HostS) : (s.hostMod f).ctxs = s.ctxs := rfl
@[simp] theorem hostMod_taps (f : HostS → HostS) : (s.hostMod f).taps = s.taps := rfl
@[simp] theorem hostMod_runs (f : HostS → HostS) : (s.hostMod f).runs = s.runs := rfl

/-! ## State.snpMod -/

@[simp] theorem snpMod_pending (f : SnapS → SnapS) : (s.snpMod f).pending = s.pending := rfl
@[simp] theorem snpMod_free (f : SnapS → SnapS) : (s.snpMod f).free = s.free := rfl
@[simp] theorem snpMod_regs (f : SnapS → SnapS) : (s.snpMod f).regs = s.regs := rfl
@[simp] theorem snpMod_time (f : SnapS → SnapS) : (s.snpMod f).time = s.time := rfl
@[simp] theorem snpMod_clk (f : SnapS → SnapS) : (s.snpMod f).clk = s.clk := rfl
@[simp] theorem snpMod_buses (f : SnapS → SnapS) : (s.snpMod f).buses = s.buses := rfl
@[simp] theorem snpMod_host (f : SnapS → SnapS) : (s.snpMod f).host = s.host := rfl
@[simp] theorem snpMod_snp (f : SnapS → SnapS) : (s.snpMod f).snp = f s.snp := rfl
@[simp] theorem snpMod_flt (f : SnapS → SnapS) : (s.snpMod f).flt = s.flt := rfl
@[simp] theorem snpMod_boot (f : SnapS → SnapS) : (s.snpMod f).boot = s.boot := rfl
@[simp] theorem snpMod_fe (f : SnapS → SnapS) : (s.snpMod f).fe = s.fe := rfl
@[simp] theorem snpMod_cal (f : SnapS → SnapS) : (s.snpMod f).cal = s.cal := rfl
@[simp] theorem snpMod_fst (f : SnapS → SnapS) : (s.snpMod f).fst = s.fst := rfl
@[simp] theorem snpMod_otp (f : SnapS → SnapS) : (s.snpMod f).otp = s.otp := rfl
@[simp] theorem snpMod_wit (f : SnapS → SnapS) : (s.snpMod f).wit = s.wit := rfl
@[simp] theorem snpMod_ldg (f : SnapS → SnapS) : (s.snpMod f).ldg = s.ldg := rfl
@[simp] theorem snpMod_seq (f : SnapS → SnapS) : (s.snpMod f).seq = s.seq := rfl
@[simp] theorem snpMod_bkp (f : SnapS → SnapS) : (s.snpMod f).bkp = s.bkp := rfl
@[simp] theorem snpMod_jtag (f : SnapS → SnapS) : (s.snpMod f).jtag = s.jtag := rfl
@[simp] theorem snpMod_reqs (f : SnapS → SnapS) : (s.snpMod f).reqs = s.reqs := rfl
@[simp] theorem snpMod_images (f : SnapS → SnapS) : (s.snpMod f).images = s.images := rfl
@[simp] theorem snpMod_ctxs (f : SnapS → SnapS) : (s.snpMod f).ctxs = s.ctxs := rfl
@[simp] theorem snpMod_taps (f : SnapS → SnapS) : (s.snpMod f).taps = s.taps := rfl
@[simp] theorem snpMod_runs (f : SnapS → SnapS) : (s.snpMod f).runs = s.runs := rfl

/-! ## State.fltMod -/

@[simp] theorem fltMod_pending (f : FaultS → FaultS) : (s.fltMod f).pending = s.pending := rfl
@[simp] theorem fltMod_free (f : FaultS → FaultS) : (s.fltMod f).free = s.free := rfl
@[simp] theorem fltMod_regs (f : FaultS → FaultS) : (s.fltMod f).regs = s.regs := rfl
@[simp] theorem fltMod_time (f : FaultS → FaultS) : (s.fltMod f).time = s.time := rfl
@[simp] theorem fltMod_clk (f : FaultS → FaultS) : (s.fltMod f).clk = s.clk := rfl
@[simp] theorem fltMod_buses (f : FaultS → FaultS) : (s.fltMod f).buses = s.buses := rfl
@[simp] theorem fltMod_host (f : FaultS → FaultS) : (s.fltMod f).host = s.host := rfl
@[simp] theorem fltMod_snp (f : FaultS → FaultS) : (s.fltMod f).snp = s.snp := rfl
@[simp] theorem fltMod_flt (f : FaultS → FaultS) : (s.fltMod f).flt = f s.flt := rfl
@[simp] theorem fltMod_boot (f : FaultS → FaultS) : (s.fltMod f).boot = s.boot := rfl
@[simp] theorem fltMod_fe (f : FaultS → FaultS) : (s.fltMod f).fe = s.fe := rfl
@[simp] theorem fltMod_cal (f : FaultS → FaultS) : (s.fltMod f).cal = s.cal := rfl
@[simp] theorem fltMod_fst (f : FaultS → FaultS) : (s.fltMod f).fst = s.fst := rfl
@[simp] theorem fltMod_otp (f : FaultS → FaultS) : (s.fltMod f).otp = s.otp := rfl
@[simp] theorem fltMod_wit (f : FaultS → FaultS) : (s.fltMod f).wit = s.wit := rfl
@[simp] theorem fltMod_ldg (f : FaultS → FaultS) : (s.fltMod f).ldg = s.ldg := rfl
@[simp] theorem fltMod_seq (f : FaultS → FaultS) : (s.fltMod f).seq = s.seq := rfl
@[simp] theorem fltMod_bkp (f : FaultS → FaultS) : (s.fltMod f).bkp = s.bkp := rfl
@[simp] theorem fltMod_jtag (f : FaultS → FaultS) : (s.fltMod f).jtag = s.jtag := rfl
@[simp] theorem fltMod_reqs (f : FaultS → FaultS) : (s.fltMod f).reqs = s.reqs := rfl
@[simp] theorem fltMod_images (f : FaultS → FaultS) : (s.fltMod f).images = s.images := rfl
@[simp] theorem fltMod_ctxs (f : FaultS → FaultS) : (s.fltMod f).ctxs = s.ctxs := rfl
@[simp] theorem fltMod_taps (f : FaultS → FaultS) : (s.fltMod f).taps = s.taps := rfl
@[simp] theorem fltMod_runs (f : FaultS → FaultS) : (s.fltMod f).runs = s.runs := rfl

/-! ## State.bootMod -/

@[simp] theorem bootMod_pending (f : BootS → BootS) : (s.bootMod f).pending = s.pending := rfl
@[simp] theorem bootMod_free (f : BootS → BootS) : (s.bootMod f).free = s.free := rfl
@[simp] theorem bootMod_regs (f : BootS → BootS) : (s.bootMod f).regs = s.regs := rfl
@[simp] theorem bootMod_time (f : BootS → BootS) : (s.bootMod f).time = s.time := rfl
@[simp] theorem bootMod_clk (f : BootS → BootS) : (s.bootMod f).clk = s.clk := rfl
@[simp] theorem bootMod_buses (f : BootS → BootS) : (s.bootMod f).buses = s.buses := rfl
@[simp] theorem bootMod_host (f : BootS → BootS) : (s.bootMod f).host = s.host := rfl
@[simp] theorem bootMod_snp (f : BootS → BootS) : (s.bootMod f).snp = s.snp := rfl
@[simp] theorem bootMod_flt (f : BootS → BootS) : (s.bootMod f).flt = s.flt := rfl
@[simp] theorem bootMod_boot (f : BootS → BootS) : (s.bootMod f).boot = f s.boot := rfl
@[simp] theorem bootMod_fe (f : BootS → BootS) : (s.bootMod f).fe = s.fe := rfl
@[simp] theorem bootMod_cal (f : BootS → BootS) : (s.bootMod f).cal = s.cal := rfl
@[simp] theorem bootMod_fst (f : BootS → BootS) : (s.bootMod f).fst = s.fst := rfl
@[simp] theorem bootMod_otp (f : BootS → BootS) : (s.bootMod f).otp = s.otp := rfl
@[simp] theorem bootMod_wit (f : BootS → BootS) : (s.bootMod f).wit = s.wit := rfl
@[simp] theorem bootMod_ldg (f : BootS → BootS) : (s.bootMod f).ldg = s.ldg := rfl
@[simp] theorem bootMod_seq (f : BootS → BootS) : (s.bootMod f).seq = s.seq := rfl
@[simp] theorem bootMod_bkp (f : BootS → BootS) : (s.bootMod f).bkp = s.bkp := rfl
@[simp] theorem bootMod_jtag (f : BootS → BootS) : (s.bootMod f).jtag = s.jtag := rfl
@[simp] theorem bootMod_reqs (f : BootS → BootS) : (s.bootMod f).reqs = s.reqs := rfl
@[simp] theorem bootMod_images (f : BootS → BootS) : (s.bootMod f).images = s.images := rfl
@[simp] theorem bootMod_ctxs (f : BootS → BootS) : (s.bootMod f).ctxs = s.ctxs := rfl
@[simp] theorem bootMod_taps (f : BootS → BootS) : (s.bootMod f).taps = s.taps := rfl
@[simp] theorem bootMod_runs (f : BootS → BootS) : (s.bootMod f).runs = s.runs := rfl

/-! ## State.calMod -/

@[simp] theorem calMod_pending (f : CalS → CalS) : (s.calMod f).pending = s.pending := rfl
@[simp] theorem calMod_free (f : CalS → CalS) : (s.calMod f).free = s.free := rfl
@[simp] theorem calMod_regs (f : CalS → CalS) : (s.calMod f).regs = s.regs := rfl
@[simp] theorem calMod_time (f : CalS → CalS) : (s.calMod f).time = s.time := rfl
@[simp] theorem calMod_clk (f : CalS → CalS) : (s.calMod f).clk = s.clk := rfl
@[simp] theorem calMod_buses (f : CalS → CalS) : (s.calMod f).buses = s.buses := rfl
@[simp] theorem calMod_host (f : CalS → CalS) : (s.calMod f).host = s.host := rfl
@[simp] theorem calMod_snp (f : CalS → CalS) : (s.calMod f).snp = s.snp := rfl
@[simp] theorem calMod_flt (f : CalS → CalS) : (s.calMod f).flt = s.flt := rfl
@[simp] theorem calMod_boot (f : CalS → CalS) : (s.calMod f).boot = s.boot := rfl
@[simp] theorem calMod_fe (f : CalS → CalS) : (s.calMod f).fe = s.fe := rfl
@[simp] theorem calMod_cal (f : CalS → CalS) : (s.calMod f).cal = f s.cal := rfl
@[simp] theorem calMod_fst (f : CalS → CalS) : (s.calMod f).fst = s.fst := rfl
@[simp] theorem calMod_otp (f : CalS → CalS) : (s.calMod f).otp = s.otp := rfl
@[simp] theorem calMod_wit (f : CalS → CalS) : (s.calMod f).wit = s.wit := rfl
@[simp] theorem calMod_ldg (f : CalS → CalS) : (s.calMod f).ldg = s.ldg := rfl
@[simp] theorem calMod_seq (f : CalS → CalS) : (s.calMod f).seq = s.seq := rfl
@[simp] theorem calMod_bkp (f : CalS → CalS) : (s.calMod f).bkp = s.bkp := rfl
@[simp] theorem calMod_jtag (f : CalS → CalS) : (s.calMod f).jtag = s.jtag := rfl
@[simp] theorem calMod_reqs (f : CalS → CalS) : (s.calMod f).reqs = s.reqs := rfl
@[simp] theorem calMod_images (f : CalS → CalS) : (s.calMod f).images = s.images := rfl
@[simp] theorem calMod_ctxs (f : CalS → CalS) : (s.calMod f).ctxs = s.ctxs := rfl
@[simp] theorem calMod_taps (f : CalS → CalS) : (s.calMod f).taps = s.taps := rfl
@[simp] theorem calMod_runs (f : CalS → CalS) : (s.calMod f).runs = s.runs := rfl

/-! ## State.fstMod -/

@[simp] theorem fstMod_pending (f : FstS → FstS) : (s.fstMod f).pending = s.pending := rfl
@[simp] theorem fstMod_free (f : FstS → FstS) : (s.fstMod f).free = s.free := rfl
@[simp] theorem fstMod_regs (f : FstS → FstS) : (s.fstMod f).regs = s.regs := rfl
@[simp] theorem fstMod_time (f : FstS → FstS) : (s.fstMod f).time = s.time := rfl
@[simp] theorem fstMod_clk (f : FstS → FstS) : (s.fstMod f).clk = s.clk := rfl
@[simp] theorem fstMod_buses (f : FstS → FstS) : (s.fstMod f).buses = s.buses := rfl
@[simp] theorem fstMod_host (f : FstS → FstS) : (s.fstMod f).host = s.host := rfl
@[simp] theorem fstMod_snp (f : FstS → FstS) : (s.fstMod f).snp = s.snp := rfl
@[simp] theorem fstMod_flt (f : FstS → FstS) : (s.fstMod f).flt = s.flt := rfl
@[simp] theorem fstMod_boot (f : FstS → FstS) : (s.fstMod f).boot = s.boot := rfl
@[simp] theorem fstMod_fe (f : FstS → FstS) : (s.fstMod f).fe = s.fe := rfl
@[simp] theorem fstMod_cal (f : FstS → FstS) : (s.fstMod f).cal = s.cal := rfl
@[simp] theorem fstMod_fst (f : FstS → FstS) : (s.fstMod f).fst = f s.fst := rfl
@[simp] theorem fstMod_otp (f : FstS → FstS) : (s.fstMod f).otp = s.otp := rfl
@[simp] theorem fstMod_wit (f : FstS → FstS) : (s.fstMod f).wit = s.wit := rfl
@[simp] theorem fstMod_ldg (f : FstS → FstS) : (s.fstMod f).ldg = s.ldg := rfl
@[simp] theorem fstMod_seq (f : FstS → FstS) : (s.fstMod f).seq = s.seq := rfl
@[simp] theorem fstMod_bkp (f : FstS → FstS) : (s.fstMod f).bkp = s.bkp := rfl
@[simp] theorem fstMod_jtag (f : FstS → FstS) : (s.fstMod f).jtag = s.jtag := rfl
@[simp] theorem fstMod_reqs (f : FstS → FstS) : (s.fstMod f).reqs = s.reqs := rfl
@[simp] theorem fstMod_images (f : FstS → FstS) : (s.fstMod f).images = s.images := rfl
@[simp] theorem fstMod_ctxs (f : FstS → FstS) : (s.fstMod f).ctxs = s.ctxs := rfl
@[simp] theorem fstMod_taps (f : FstS → FstS) : (s.fstMod f).taps = s.taps := rfl
@[simp] theorem fstMod_runs (f : FstS → FstS) : (s.fstMod f).runs = s.runs := rfl

/-! ## State.witMod -/

@[simp] theorem witMod_pending (f : WitS → WitS) : (s.witMod f).pending = s.pending := rfl
@[simp] theorem witMod_free (f : WitS → WitS) : (s.witMod f).free = s.free := rfl
@[simp] theorem witMod_regs (f : WitS → WitS) : (s.witMod f).regs = s.regs := rfl
@[simp] theorem witMod_time (f : WitS → WitS) : (s.witMod f).time = s.time := rfl
@[simp] theorem witMod_clk (f : WitS → WitS) : (s.witMod f).clk = s.clk := rfl
@[simp] theorem witMod_buses (f : WitS → WitS) : (s.witMod f).buses = s.buses := rfl
@[simp] theorem witMod_host (f : WitS → WitS) : (s.witMod f).host = s.host := rfl
@[simp] theorem witMod_snp (f : WitS → WitS) : (s.witMod f).snp = s.snp := rfl
@[simp] theorem witMod_flt (f : WitS → WitS) : (s.witMod f).flt = s.flt := rfl
@[simp] theorem witMod_boot (f : WitS → WitS) : (s.witMod f).boot = s.boot := rfl
@[simp] theorem witMod_fe (f : WitS → WitS) : (s.witMod f).fe = s.fe := rfl
@[simp] theorem witMod_cal (f : WitS → WitS) : (s.witMod f).cal = s.cal := rfl
@[simp] theorem witMod_fst (f : WitS → WitS) : (s.witMod f).fst = s.fst := rfl
@[simp] theorem witMod_otp (f : WitS → WitS) : (s.witMod f).otp = s.otp := rfl
@[simp] theorem witMod_wit (f : WitS → WitS) : (s.witMod f).wit = f s.wit := rfl
@[simp] theorem witMod_ldg (f : WitS → WitS) : (s.witMod f).ldg = s.ldg := rfl
@[simp] theorem witMod_seq (f : WitS → WitS) : (s.witMod f).seq = s.seq := rfl
@[simp] theorem witMod_bkp (f : WitS → WitS) : (s.witMod f).bkp = s.bkp := rfl
@[simp] theorem witMod_jtag (f : WitS → WitS) : (s.witMod f).jtag = s.jtag := rfl
@[simp] theorem witMod_reqs (f : WitS → WitS) : (s.witMod f).reqs = s.reqs := rfl
@[simp] theorem witMod_images (f : WitS → WitS) : (s.witMod f).images = s.images := rfl
@[simp] theorem witMod_ctxs (f : WitS → WitS) : (s.witMod f).ctxs = s.ctxs := rfl
@[simp] theorem witMod_taps (f : WitS → WitS) : (s.witMod f).taps = s.taps := rfl
@[simp] theorem witMod_runs (f : WitS → WitS) : (s.witMod f).runs = s.runs := rfl

/-! ## State.ldgMod -/

@[simp] theorem ldgMod_pending (f : LdgS → LdgS) : (s.ldgMod f).pending = s.pending := rfl
@[simp] theorem ldgMod_free (f : LdgS → LdgS) : (s.ldgMod f).free = s.free := rfl
@[simp] theorem ldgMod_regs (f : LdgS → LdgS) : (s.ldgMod f).regs = s.regs := rfl
@[simp] theorem ldgMod_time (f : LdgS → LdgS) : (s.ldgMod f).time = s.time := rfl
@[simp] theorem ldgMod_clk (f : LdgS → LdgS) : (s.ldgMod f).clk = s.clk := rfl
@[simp] theorem ldgMod_buses (f : LdgS → LdgS) : (s.ldgMod f).buses = s.buses := rfl
@[simp] theorem ldgMod_host (f : LdgS → LdgS) : (s.ldgMod f).host = s.host := rfl
@[simp] theorem ldgMod_snp (f : LdgS → LdgS) : (s.ldgMod f).snp = s.snp := rfl
@[simp] theorem ldgMod_flt (f : LdgS → LdgS) : (s.ldgMod f).flt = s.flt := rfl
@[simp] theorem ldgMod_boot (f : LdgS → LdgS) : (s.ldgMod f).boot = s.boot := rfl
@[simp] theorem ldgMod_fe (f : LdgS → LdgS) : (s.ldgMod f).fe = s.fe := rfl
@[simp] theorem ldgMod_cal (f : LdgS → LdgS) : (s.ldgMod f).cal = s.cal := rfl
@[simp] theorem ldgMod_fst (f : LdgS → LdgS) : (s.ldgMod f).fst = s.fst := rfl
@[simp] theorem ldgMod_otp (f : LdgS → LdgS) : (s.ldgMod f).otp = s.otp := rfl
@[simp] theorem ldgMod_wit (f : LdgS → LdgS) : (s.ldgMod f).wit = s.wit := rfl
@[simp] theorem ldgMod_ldg (f : LdgS → LdgS) : (s.ldgMod f).ldg = f s.ldg := rfl
@[simp] theorem ldgMod_seq (f : LdgS → LdgS) : (s.ldgMod f).seq = s.seq := rfl
@[simp] theorem ldgMod_bkp (f : LdgS → LdgS) : (s.ldgMod f).bkp = s.bkp := rfl
@[simp] theorem ldgMod_jtag (f : LdgS → LdgS) : (s.ldgMod f).jtag = s.jtag := rfl
@[simp] theorem ldgMod_reqs (f : LdgS → LdgS) : (s.ldgMod f).reqs = s.reqs := rfl
@[simp] theorem ldgMod_images (f : LdgS → LdgS) : (s.ldgMod f).images = s.images := rfl
@[simp] theorem ldgMod_ctxs (f : LdgS → LdgS) : (s.ldgMod f).ctxs = s.ctxs := rfl
@[simp] theorem ldgMod_taps (f : LdgS → LdgS) : (s.ldgMod f).taps = s.taps := rfl
@[simp] theorem ldgMod_runs (f : LdgS → LdgS) : (s.ldgMod f).runs = s.runs := rfl

/-! ## State.seqMod -/

@[simp] theorem seqMod_pending (f : SeqS → SeqS) : (s.seqMod f).pending = s.pending := rfl
@[simp] theorem seqMod_free (f : SeqS → SeqS) : (s.seqMod f).free = s.free := rfl
@[simp] theorem seqMod_regs (f : SeqS → SeqS) : (s.seqMod f).regs = s.regs := rfl
@[simp] theorem seqMod_time (f : SeqS → SeqS) : (s.seqMod f).time = s.time := rfl
@[simp] theorem seqMod_clk (f : SeqS → SeqS) : (s.seqMod f).clk = s.clk := rfl
@[simp] theorem seqMod_buses (f : SeqS → SeqS) : (s.seqMod f).buses = s.buses := rfl
@[simp] theorem seqMod_host (f : SeqS → SeqS) : (s.seqMod f).host = s.host := rfl
@[simp] theorem seqMod_snp (f : SeqS → SeqS) : (s.seqMod f).snp = s.snp := rfl
@[simp] theorem seqMod_flt (f : SeqS → SeqS) : (s.seqMod f).flt = s.flt := rfl
@[simp] theorem seqMod_boot (f : SeqS → SeqS) : (s.seqMod f).boot = s.boot := rfl
@[simp] theorem seqMod_fe (f : SeqS → SeqS) : (s.seqMod f).fe = s.fe := rfl
@[simp] theorem seqMod_cal (f : SeqS → SeqS) : (s.seqMod f).cal = s.cal := rfl
@[simp] theorem seqMod_fst (f : SeqS → SeqS) : (s.seqMod f).fst = s.fst := rfl
@[simp] theorem seqMod_otp (f : SeqS → SeqS) : (s.seqMod f).otp = s.otp := rfl
@[simp] theorem seqMod_wit (f : SeqS → SeqS) : (s.seqMod f).wit = s.wit := rfl
@[simp] theorem seqMod_ldg (f : SeqS → SeqS) : (s.seqMod f).ldg = s.ldg := rfl
@[simp] theorem seqMod_seq (f : SeqS → SeqS) : (s.seqMod f).seq = f s.seq := rfl
@[simp] theorem seqMod_bkp (f : SeqS → SeqS) : (s.seqMod f).bkp = s.bkp := rfl
@[simp] theorem seqMod_jtag (f : SeqS → SeqS) : (s.seqMod f).jtag = s.jtag := rfl
@[simp] theorem seqMod_reqs (f : SeqS → SeqS) : (s.seqMod f).reqs = s.reqs := rfl
@[simp] theorem seqMod_images (f : SeqS → SeqS) : (s.seqMod f).images = s.images := rfl
@[simp] theorem seqMod_ctxs (f : SeqS → SeqS) : (s.seqMod f).ctxs = s.ctxs := rfl
@[simp] theorem seqMod_taps (f : SeqS → SeqS) : (s.seqMod f).taps = s.taps := rfl
@[simp] theorem seqMod_runs (f : SeqS → SeqS) : (s.seqMod f).runs = s.runs := rfl

/-! ## State.bkpMod -/

@[simp] theorem bkpMod_pending (f : BkpS → BkpS) : (s.bkpMod f).pending = s.pending := rfl
@[simp] theorem bkpMod_free (f : BkpS → BkpS) : (s.bkpMod f).free = s.free := rfl
@[simp] theorem bkpMod_regs (f : BkpS → BkpS) : (s.bkpMod f).regs = s.regs := rfl
@[simp] theorem bkpMod_time (f : BkpS → BkpS) : (s.bkpMod f).time = s.time := rfl
@[simp] theorem bkpMod_clk (f : BkpS → BkpS) : (s.bkpMod f).clk = s.clk := rfl
@[simp] theorem bkpMod_buses (f : BkpS → BkpS) : (s.bkpMod f).buses = s.buses := rfl
@[simp] theorem bkpMod_host (f : BkpS → BkpS) : (s.bkpMod f).host = s.host := rfl
@[simp] theorem bkpMod_snp (f : BkpS → BkpS) : (s.bkpMod f).snp = s.snp := rfl
@[simp] theorem bkpMod_flt (f : BkpS → BkpS) : (s.bkpMod f).flt = s.flt := rfl
@[simp] theorem bkpMod_boot (f : BkpS → BkpS) : (s.bkpMod f).boot = s.boot := rfl
@[simp] theorem bkpMod_fe (f : BkpS → BkpS) : (s.bkpMod f).fe = s.fe := rfl
@[simp] theorem bkpMod_cal (f : BkpS → BkpS) : (s.bkpMod f).cal = s.cal := rfl
@[simp] theorem bkpMod_fst (f : BkpS → BkpS) : (s.bkpMod f).fst = s.fst := rfl
@[simp] theorem bkpMod_otp (f : BkpS → BkpS) : (s.bkpMod f).otp = s.otp := rfl
@[simp] theorem bkpMod_wit (f : BkpS → BkpS) : (s.bkpMod f).wit = s.wit := rfl
@[simp] theorem bkpMod_ldg (f : BkpS → BkpS) : (s.bkpMod f).ldg = s.ldg := rfl
@[simp] theorem bkpMod_seq (f : BkpS → BkpS) : (s.bkpMod f).seq = s.seq := rfl
@[simp] theorem bkpMod_bkp (f : BkpS → BkpS) : (s.bkpMod f).bkp = f s.bkp := rfl
@[simp] theorem bkpMod_jtag (f : BkpS → BkpS) : (s.bkpMod f).jtag = s.jtag := rfl
@[simp] theorem bkpMod_reqs (f : BkpS → BkpS) : (s.bkpMod f).reqs = s.reqs := rfl
@[simp] theorem bkpMod_images (f : BkpS → BkpS) : (s.bkpMod f).images = s.images := rfl
@[simp] theorem bkpMod_ctxs (f : BkpS → BkpS) : (s.bkpMod f).ctxs = s.ctxs := rfl
@[simp] theorem bkpMod_taps (f : BkpS → BkpS) : (s.bkpMod f).taps = s.taps := rfl
@[simp] theorem bkpMod_runs (f : BkpS → BkpS) : (s.bkpMod f).runs = s.runs := rfl

/-! ## State.jtagMod -/

@[simp] theorem jtagMod_pending (f : JtagS → JtagS) : (s.jtagMod f).pending = s.pending := rfl
@[simp] theorem jtagMod_free (f : JtagS → JtagS) : (s.jtagMod f).free = s.free := rfl
@[simp] theorem jtagMod_regs (f : JtagS → JtagS) : (s.jtagMod f).regs = s.regs := rfl
@[simp] theorem jtagMod_time (f : JtagS → JtagS) : (s.jtagMod f).time = s.time := rfl
@[simp] theorem jtagMod_clk (f : JtagS → JtagS) : (s.jtagMod f).clk = s.clk := rfl
@[simp] theorem jtagMod_buses (f : JtagS → JtagS) : (s.jtagMod f).buses = s.buses := rfl
@[simp] theorem jtagMod_host (f : JtagS → JtagS) : (s.jtagMod f).host = s.host := rfl
@[simp] theorem jtagMod_snp (f : JtagS → JtagS) : (s.jtagMod f).snp = s.snp := rfl
@[simp] theorem jtagMod_flt (f : JtagS → JtagS) : (s.jtagMod f).flt = s.flt := rfl
@[simp] theorem jtagMod_boot (f : JtagS → JtagS) : (s.jtagMod f).boot = s.boot := rfl
@[simp] theorem jtagMod_fe (f : JtagS → JtagS) : (s.jtagMod f).fe = s.fe := rfl
@[simp] theorem jtagMod_cal (f : JtagS → JtagS) : (s.jtagMod f).cal = s.cal := rfl
@[simp] theorem jtagMod_fst (f : JtagS → JtagS) : (s.jtagMod f).fst = s.fst := rfl
@[simp] theorem jtagMod_otp (f : JtagS → JtagS) : (s.jtagMod f).otp = s.otp := rfl
@[simp] theorem jtagMod_wit (f : JtagS → JtagS) : (s.jtagMod f).wit = s.wit := rfl
@[simp] theorem jtagMod_ldg (f : JtagS → JtagS) : (s.jtagMod f).ldg = s.ldg := rfl
@[simp] theorem jtagMod_seq (f : JtagS → JtagS) : (s.jtagMod f).seq = s.seq := rfl
@[simp] theorem jtagMod_bkp (f : JtagS → JtagS) : (s.jtagMod f).bkp = s.bkp := rfl
@[simp] theorem jtagMod_jtag (f : JtagS → JtagS) : (s.jtagMod f).jtag = f s.jtag := rfl
@[simp] theorem jtagMod_reqs (f : JtagS → JtagS) : (s.jtagMod f).reqs = s.reqs := rfl
@[simp] theorem jtagMod_images (f : JtagS → JtagS) : (s.jtagMod f).images = s.images := rfl
@[simp] theorem jtagMod_ctxs (f : JtagS → JtagS) : (s.jtagMod f).ctxs = s.ctxs := rfl
@[simp] theorem jtagMod_taps (f : JtagS → JtagS) : (s.jtagMod f).taps = s.taps := rfl
@[simp] theorem jtagMod_runs (f : JtagS → JtagS) : (s.jtagMod f).runs = s.runs := rfl

end Sys2Proof.Laws
end

