-- ==== Sys2Proof/Laws/Fields.lean ====
section
/-!
SUPPORT. Registers and their fields: a read after a write of the same register, of another, of the same field and of a field apart from it; and what
moving TB_STU on changes.
-/

namespace Sys2Proof.Laws

open Sys2Proof.Machine

/-! ## Registers -/

/-- The register file answers what was last written. -/
theorem rget_rset (s : State) (a b : Nat) (v : Word) : (s.rset a v).rget b = if a = b then v else s.rget b :=
  regsGet_set s.regs a b v

@[simp] theorem rget_rset_same (s : State) (a : Nat) (v : Word) : (s.rset a v).rget a = v := by simp [rget_rset]

theorem rget_rset_ne (s : State) {a b : Nat} (h : a ≠ b) (v : Word) : (s.rset a v).rget b = s.rget b := by simp [rget_rset, h]

theorem rget_rsetN (s : State) (a b n : Nat) : (s.rsetN a n).rget b = if a = b then BitVec.ofNat 32 n else s.rget b := rget_rset s a b _

/-- A read depends on the register file alone. -/
theorem rget_of_regs {s t : State} (h : t.regs = s.regs) (a : Nat) : t.rget a = s.rget a := by unfold State.rget; rw [h]

theorem fget_of_regs {s t : State} (h : t.regs = s.regs) (f : Reg.Fld) : t.fget f = s.fget f := by unfold State.fget; rw [rget_of_regs h]

theorem flag_of_regs {s t : State} (h : t.regs = s.regs) (f : Reg.Fld) : t.flag f = s.flag f := by unfold State.flag; rw [fget_of_regs h]

theorem fget_rset_ne (s : State) {a : Nat} {f : Reg.Fld} (h : a ≠ f.addr) (v : Word) : (s.rset a v).fget f = s.fget f := by
  unfold State.fget; rw [rget_rset_ne s h]

/-- A value of two registers reads as written (R3). -/
theorem rget64_rset64 (s : State) (a n : Nat) (h : n < 2 ^ 64) : (s.rset64 a n).rget64 a = n := by
  have h0 : ¬ (a + 4 = a) := by omega
  have h1 : n / 4294967296 % 4294967296 = n / 4294967296 := Nat.mod_eq_of_lt (by omega)
  simp only [State.rget64, State.rset64, rget_rsetN, h0, if_false, if_true, BitVec.toNat_ofNat, h1]
  omega

theorem rget_rset64_ne (s : State) (a b n : Nat) (h0 : a ≠ b) (h1 : a + 4 ≠ b) : (s.rset64 a n).rget b = s.rget b := by
  simp [State.rset64, rget_rsetN, h0, h1]

/-! ## Fields -/

theorem putField_toNat (v : Word) (hi lo n : Nat) (hl : lo ≤ hi) (hh : hi < 32) :
    (putField v hi lo n).toNat = v.toNat % 2 ^ lo + (n % 2 ^ (hi + 1 - lo)) * 2 ^ lo + v.toNat / 2 ^ (hi + 1) * 2 ^ (hi + 1) := by
  have hv := v.isLt
  simp only [putField, BitVec.toNat_ofNat]
  apply Nat.mod_eq_of_lt
  have e1 : (2 : Nat) ^ (hi + 1) = 2 ^ (hi + 1 - lo) * 2 ^ lo := by rw [← Nat.pow_add]; congr 1; omega
  have e2 : (2 : Nat) ^ 32 = 2 ^ (32 - (hi + 1)) * 2 ^ (hi + 1) := by rw [← Nat.pow_add]; congr 1; omega
  have a1 : v.toNat % 2 ^ lo < 2 ^ lo := Nat.mod_lt _ (Nat.two_pow_pos _)
  have a2 : n % 2 ^ (hi + 1 - lo) < 2 ^ (hi + 1 - lo) := Nat.mod_lt _ (Nat.two_pow_pos _)
  have a3 : v.toNat / 2 ^ (hi + 1) < 2 ^ (32 - (hi + 1)) := by
    rw [Nat.div_lt_iff_lt_mul (Nat.two_pow_pos _), ← e2]; exact hv
  have b1 : (n % 2 ^ (hi + 1 - lo) + 1) * 2 ^ lo ≤ 2 ^ (hi + 1 - lo) * 2 ^ lo := Nat.mul_le_mul_right _ a2
  have b2 : (v.toNat / 2 ^ (hi + 1) + 1) * 2 ^ (hi + 1) ≤ 2 ^ (32 - (hi + 1)) * 2 ^ (hi + 1) := Nat.mul_le_mul_right _ a3
  rw [Nat.add_mul, Nat.one_mul] at b1 b2
  rw [e2]; omega

/-- The field read back from the word it was put into. -/
theorem fieldOf_putField (v : Word) (hi lo n : Nat) (hl : lo ≤ hi) (hh : hi < 32) :
    fieldOf (putField v hi lo n) hi lo = n % 2 ^ (hi + 1 - lo) := by
  unfold fieldOf
  rw [putField_toNat v hi lo n hl hh]
  have e1 : (2 : Nat) ^ (hi + 1) = 2 ^ (hi + 1 - lo) * 2 ^ lo := by rw [← Nat.pow_add]; congr 1; omega
  have a1 : v.toNat % 2 ^ lo < 2 ^ lo := Nat.mod_lt _ (Nat.two_pow_pos _)
  have h : v.toNat % 2 ^ lo + n % 2 ^ (hi + 1 - lo) * 2 ^ lo + v.toNat / 2 ^ (hi + 1) * 2 ^ (hi + 1) =
      v.toNat % 2 ^ lo + (n % 2 ^ (hi + 1 - lo) + 2 ^ (hi + 1 - lo) * (v.toNat / 2 ^ (hi + 1))) * 2 ^ lo := by
    rw [e1, Nat.add_mul, Nat.mul_comm (2 ^ (hi + 1 - lo)) (v.toNat / _), Nat.mul_assoc, Nat.add_assoc]
  rw [h, Nat.add_mul_div_right _ _ (Nat.two_pow_pos _), Nat.div_eq_of_lt a1, Nat.zero_add, Nat.add_mul_mod_self_left, Nat.mod_mod]

/-- A field that lies above the one written. -/
theorem fieldOf_putField_above (v : Word) (hi lo n hi' lo' : Nat) (hl : lo ≤ hi) (hh : hi < 32) (h : hi < lo') :
    fieldOf (putField v hi lo n) hi' lo' = fieldOf v hi' lo' := by
  unfold fieldOf
  rw [putField_toNat v hi lo n hl hh]
  congr 1
  have e1 : (2 : Nat) ^ (hi + 1) = 2 ^ (hi + 1 - lo) * 2 ^ lo := by rw [← Nat.pow_add]; congr 1; omega
  have e2 : (2 : Nat) ^ lo' = 2 ^ (hi + 1) * 2 ^ (lo' - (hi + 1)) := by rw [← Nat.pow_add]; congr 1; omega
  have a1 : v.toNat % 2 ^ lo < 2 ^ lo := Nat.mod_lt _ (Nat.two_pow_pos _)
  have a2 : n % 2 ^ (hi + 1 - lo) < 2 ^ (hi + 1 - lo) := Nat.mod_lt _ (Nat.two_pow_pos _)
  have b1 : (n % 2 ^ (hi + 1 - lo) + 1) * 2 ^ lo ≤ 2 ^ (hi + 1 - lo) * 2 ^ lo := Nat.mul_le_mul_right _ a2
  rw [Nat.add_mul, Nat.one_mul, ← e1] at b1
  have b0 := Nat.two_pow_pos lo
  have b2 : v.toNat % 2 ^ lo + n % 2 ^ (hi + 1 - lo) * 2 ^ lo < 2 ^ (hi + 1) := by omega
  rw [e2, ← Nat.div_div_eq_div_mul, ← Nat.div_div_eq_div_mul, Nat.add_mul_div_right _ _ (Nat.two_pow_pos _), Nat.div_eq_of_lt b2, Nat.zero_add]

/-- A field that lies below the one written. -/
theorem fieldOf_putField_below (v : Word) (hi lo n hi' lo' : Nat) (hl : lo ≤ hi) (hh : hi < 32) (hl' : lo' ≤ hi') (h : hi' < lo) :
    fieldOf (putField v hi lo n) hi' lo' = fieldOf v hi' lo' := by
  unfold fieldOf
  rw [putField_toNat v hi lo n hl hh]
  have e0 : (2 : Nat) ^ (hi + 1) = 2 ^ (hi + 1 - lo) * 2 ^ lo := by rw [← Nat.pow_add]; congr 1; omega
  have e1 : (2 : Nat) ^ lo = 2 ^ (lo - lo') * 2 ^ lo' := by rw [← Nat.pow_add]; congr 1; omega
  have e2 : (2 : Nat) ^ (lo - lo') = 2 ^ (hi' + 1 - lo') * 2 ^ (lo - (hi' + 1)) := by rw [← Nat.pow_add]; congr 1; omega
  obtain ⟨k, hk⟩ : ∃ k, v.toNat % 2 ^ lo + n % 2 ^ (hi + 1 - lo) * 2 ^ lo + v.toNat / 2 ^ (hi + 1) * 2 ^ (hi + 1) = v.toNat % 2 ^ lo + k * 2 ^ lo :=
    ⟨n % 2 ^ (hi + 1 - lo) + v.toNat / 2 ^ (hi + 1) * 2 ^ (hi + 1 - lo), by rw [e0, Nat.add_mul, Nat.mul_assoc, Nat.add_assoc]⟩
  have hm : v.toNat % 2 ^ lo + 2 ^ lo * (v.toNat / 2 ^ lo) = v.toNat := Nat.mod_add_div _ _
  have key : ∀ k, (v.toNat % 2 ^ lo + k * 2 ^ lo) / 2 ^ lo' % 2 ^ (hi' + 1 - lo') = v.toNat % 2 ^ lo / 2 ^ lo' % 2 ^ (hi' + 1 - lo') := by
    intro k
    have : k * 2 ^ lo = (k * 2 ^ (lo - lo')) * 2 ^ lo' := by rw [e1, Nat.mul_assoc]
    rw [this, Nat.add_mul_div_right _ _ (Nat.two_pow_pos _)]
    have : k * 2 ^ (lo - lo') = 2 ^ (hi' + 1 - lo') * (k * 2 ^ (lo - (hi' + 1))) := by rw [e2, Nat.mul_left_comm]
    rw [this, Nat.add_mul_mod_self_left]
  rw [hk, key]
  conv => rhs; rw [← hm, Nat.mul_comm]
  rw [key]

/-- A register field answers what was last put into it. -/
theorem fget_fset (s : State) (f : Reg.Fld) (n : Nat) (hl : f.lo ≤ f.hi) (hh : f.hi < 32) :
    (s.fset f n).fget f = n % 2 ^ (f.hi + 1 - f.lo) := by
  simp only [State.fget, State.fset, rget_rset_same]
  exact fieldOf_putField _ _ _ _ hl hh

/-- A field of another register. -/
theorem fget_fset_addr (s : State) (f k : Reg.Fld) (n : Nat) (h : f.addr ≠ k.addr) : (s.fset f n).fget k = s.fget k :=
  fget_rset_ne s h _

/-- A field of the same register apart from the one written. -/
theorem fget_fset_apart (s : State) (f k : Reg.Fld) (n : Nat) (hl : f.lo ≤ f.hi) (hh : f.hi < 32) (hk : k.lo ≤ k.hi) (h : f.hi < k.lo ∨ k.hi < f.lo) :
    (s.fset f n).fget k = s.fget k := by
  by_cases ha : f.addr = k.addr
  · simp only [State.fget, State.fset, rget_rset, ha, if_true]
    rcases h with h | h
    · exact fieldOf_putField_above _ _ _ _ _ _ hl hh h
    · exact fieldOf_putField_below _ _ _ _ _ _ hl hh hk h
  · exact fget_fset_addr s f k n ha

theorem rget_fset_ne (s : State) (f : Reg.Fld) (n : Nat) {b : Nat} (h : f.addr ≠ b) : (s.fset f n).rget b = s.rget b := rget_rset_ne s h _

/-! ## Time -/

/-- Moving TB_STU on changes TB_STU alone. -/
theorem at_eq (s : State) (t : Nat) : ∃ u, s.at t = { s with time := { s.time with stu := u } } ∧ s.now ≤ u ∧
    u = (if s.now < (if s.onGrid then roundUp t 160 else t) then (if s.onGrid then roundUp t 160 else t) else s.now) := by
  unfold State.at
  by_cases h : s.now < (if s.onGrid then roundUp t 160 else t)
  · exact ⟨_, by simp only [h, if_true], Nat.le_of_lt h, by simp only [h, if_true]⟩
  · exact ⟨s.now, by simp only [h, if_false]; rfl, Nat.le_refl _, by simp only [h, if_false]⟩

theorem at_now (s : State) (t : Nat) : (s.at t).now = (if s.now < (if s.onGrid then roundUp t 160 else t) then (if s.onGrid then roundUp t 160 else t) else s.now) := by
  obtain ⟨u, h, -, hu⟩ := at_eq s t
  rw [h]; exact hu

/-- TB_STU never decreases (R30). -/
theorem at_le (s : State) (t : Nat) : s.now ≤ (s.at t).now := by
  obtain ⟨u, h, hu, -⟩ := at_eq s t
  rw [h]; exact hu

/-- Off the reference grid the time reached is the later of the two. -/
theorem at_now_fine (s : State) (t : Nat) (h : s.onGrid = false) : (s.at t).now = max s.now t := by
  rw [at_now]; simp only [h, Bool.false_eq_true, if_false]
  split <;> omega

@[simp] theorem at_pending (s : State) (t : Nat) : (s.at t).pending = s.pending := by
  obtain ⟨u, h, -⟩ := at_eq s t; rw [h]
@[simp] theorem at_free (s : State) (t : Nat) : (s.at t).free = s.free := by
  obtain ⟨u, h, -⟩ := at_eq s t; rw [h]
@[simp] theorem at_regs (s : State) (t : Nat) : (s.at t).regs = s.regs := by
  obtain ⟨u, h, -⟩ := at_eq s t; rw [h]
@[simp] theorem at_clk (s : State) (t : Nat) : (s.at t).clk = s.clk := by
  obtain ⟨u, h, -⟩ := at_eq s t; rw [h]
@[simp] theorem at_buses (s : State) (t : Nat) : (s.at t).buses = s.buses := by
  obtain ⟨u, h, -⟩ := at_eq s t; rw [h]
@[simp] theorem at_host (s : State) (t : Nat) : (s.at t).host = s.host := by
  obtain ⟨u, h, -⟩ := at_eq s t; rw [h]
@[simp] theorem at_snp (s : State) (t : Nat) : (s.at t).snp = s.snp := by
  obtain ⟨u, h, -⟩ := at_eq s t; rw [h]
@[simp] theorem at_flt (s : State) (t : Nat) : (s.at t).flt = s.flt := by
  obtain ⟨u, h, -⟩ := at_eq s t; rw [h]
@[simp] theorem at_boot (s : State) (t : Nat) : (s.at t).boot = s.boot := by
  obtain ⟨u, h, -⟩ := at_eq s t; rw [h]
@[simp] theorem at_fe (s : State) (t : Nat) : (s.at t).fe = s.fe := by
  obtain ⟨u, h, -⟩ := at_eq s t; rw [h]
@[simp] theorem at_cal (s : State) (t : Nat) : (s.at t).cal = s.cal := by
  obtain ⟨u, h, -⟩ := at_eq s t; rw [h]
@[simp] theorem at_fst (s : State) (t : Nat) : (s.at t).fst = s.fst := by
  obtain ⟨u, h, -⟩ := at_eq s t; rw [h]
@[simp] theorem at_otp (s : State) (t : Nat) : (s.at t).otp = s.otp := by
  obtain ⟨u, h, -⟩ := at_eq s t; rw [h]
@[simp] theorem at_wit (s : State) (t : Nat) : (s.at t).wit = s.wit := by
  obtain ⟨u, h, -⟩ := at_eq s t; rw [h]
@[simp] theorem at_ldg (s : State) (t : Nat) : (s.at t).ldg = s.ldg := by
  obtain ⟨u, h, -⟩ := at_eq s t; rw [h]
@[simp] theorem at_seq (s : State) (t : Nat) : (s.at t).seq = s.seq := by
  obtain ⟨u, h, -⟩ := at_eq s t; rw [h]
@[simp] theorem at_bkp (s : State) (t : Nat) : (s.at t).bkp = s.bkp := by
  obtain ⟨u, h, -⟩ := at_eq s t; rw [h]
@[simp] theorem at_jtag (s : State) (t : Nat) : (s.at t).jtag = s.jtag := by
  obtain ⟨u, h, -⟩ := at_eq s t; rw [h]
@[simp] theorem at_reqs (s : State) (t : Nat) : (s.at t).reqs = s.reqs := by
  obtain ⟨u, h, -⟩ := at_eq s t; rw [h]
@[simp] theorem at_images (s : State) (t : Nat) : (s.at t).images = s.images := by
  obtain ⟨u, h, -⟩ := at_eq s t; rw [h]
@[simp] theorem at_ctxs (s : State) (t : Nat) : (s.at t).ctxs = s.ctxs := by
  obtain ⟨u, h, -⟩ := at_eq s t; rw [h]
@[simp] theorem at_taps (s : State) (t : Nat) : (s.at t).taps = s.taps := by
  obtain ⟨u, h, -⟩ := at_eq s t; rw [h]
@[simp] theorem at_runs (s : State) (t : Nat) : (s.at t).runs = s.runs := by
  obtain ⟨u, h, -⟩ := at_eq s t; rw [h]

@[simp] theorem at_rget (s : State) (t a : Nat) : (s.at t).rget a = s.rget a := rget_of_regs (at_regs s t) a
@[simp] theorem at_fget (s : State) (t : Nat) (f : Reg.Fld) : (s.at t).fget f = s.fget f := fget_of_regs (at_regs s t) f
@[simp] theorem at_flag (s : State) (t : Nat) (f : Reg.Fld) : (s.at t).flag f = s.flag f := flag_of_regs (at_regs s t) f
@[simp] theorem at_run (s : State) (t e : Nat) : (s.at t).run e = s.run e := by unfold State.run; rw [at_runs]
@[simp] theorem at_ctx (s : State) (t n : Nat) : (s.at t).ctx n = s.ctx n := by unfold State.ctx; rw [at_ctxs]

end Sys2Proof.Laws
end

