-- ==== Sys2Proof/Laws/Access.lean ====
section
/-!
SUPPORT. Accesses of a served port to a word of its tenant's view, flags after updates, and the contexts held by number.
-/

namespace Sys2Proof.Laws

open Sys2Proof.Machine

/-! ## Flags -/

theorem flag_fset_same (s : State) (f : Reg.Fld) (n : Nat) (hl : f.lo ≤ f.hi) (hh : f.hi < 32) :
    (s.fset f n).flag f = decide (n % 2 ^ (f.hi + 1 - f.lo) ≠ 0) := by
  unfold State.flag
  rw [fget_fset s f n hl hh]
  simp [decide_not, bne]
  rfl

theorem flag_fsetB_same (s : State) (f : Reg.Fld) (b : Bool) (h : f.lo = f.hi) (hh : f.hi < 32) : (s.fsetB f b).flag f = b := by
  unfold State.fsetB
  rw [flag_fset_same s f _ (Nat.le_of_eq h) hh, h]
  cases b <;> simp [b2n]

theorem flag_evt_same (s : State) (f : Reg.Fld) (h : f.lo = f.hi) (hh : f.hi < 32) : (s.evt f).flag f = true := flag_fsetB_same s f true h hh

theorem flag_fset_addr (s : State) (f k : Reg.Fld) (n : Nat) (h : f.addr ≠ k.addr) : (s.fset f n).flag k = s.flag k := by
  unfold State.flag; rw [fget_fset_addr s f k n h]

theorem flag_fset_apart (s : State) (f k : Reg.Fld) (n : Nat) (hl : f.lo ≤ f.hi) (hh : f.hi < 32) (hk : k.lo ≤ k.hi) (h : f.hi < k.lo ∨ k.hi < f.lo) :
    (s.fset f n).flag k = s.flag k := by
  unfold State.flag; rw [fget_fset_apart s f k n hl hh hk h]

theorem flag_rset_ne (s : State) (a : Nat) (v : Word) (k : Reg.Fld) (h : a ≠ k.addr) : (s.rset a v).flag k = s.flag k := by
  unfold State.flag; rw [fget_rset_ne s h]

/-! ## Ports -/

theorem at_portTenant (s : State) (p t : Nat) : (s.at t).portTenant p = s.portTenant p := by unfold State.portTenant; rw [at_host]

theorem at_sees (s : State) (k a t : Nat) : (s.at t).sees k a = s.sees k a := by
  unfold State.sees State.owns State.owner State.seesShared State.tenancy State.right State.owns State.owner State.tenancy
  simp only [at_host, at_boot]

/-- What a served port does to a word of its tenant's view. -/
theorem serves_access {s : State} {p : Fin 4} {k a t : Nat} (h : s.Serves p k a t) (f : Nat → State → State) : (s.at t).access p a f = f k (s.at t) := by
  simp [State.access, at_portTenant, at_sees, h.tenant, h.view]

/-- A served port's write of a word of its tenant's view is the tenant's write (R403). -/
theorem serves_write {s : State} {p : Fin 4} {k a t : Nat} (h : s.Serves p k a t) (v : Word) : s.regWrite p a t v = (s.at t).wrWord p k a v := by
  simp [State.regWrite, State.portWrite, State.access, h.serves, at_portTenant, at_sees, h.tenant, h.view, h.bound]

/-- Only FST_OP and SNP_WUSTAT are brought up to date by a read (R389, R470). -/
theorem refresh_eq (s : State) {a : Nat} (h : a ≠ Reg.FST_OP) (h' : a ≠ Reg.SNP_WUSTAT) : s.refresh a = s := by simp [State.refresh, h, h']

/-- A served port's read of a word of its tenant's view (R403). -/
theorem serves_read {s : State} {p : Fin 4} {k a t : Nat} (h : s.Serves p k a t) :
    (s.at t).portRead p a = (((s.at t).refresh a).wordAt p k a, ((s.at t).refresh a).latchAt k a) := by
  simp [State.portRead, at_portTenant, at_sees, h.tenant, h.view]

/-- What an owner's command does through a served port. -/
theorem serves_owner {s : State} {p : Fin 4} {a t : Nat} (h : s.Serves p 0 a t) (f : State → State) : s.ownerWrite p a t f = f (s.at t) := by
  simp [State.ownerWrite, State.access, h.serves, at_portTenant, at_sees, h.tenant, h.view]

/-! ## Contexts by number -/

theorem getIdx_putIdx {α : Type} (l : List (Nat × α)) (i j : Nat) (x : α) : getIdx (putIdx l i x) j = if i = j then some x else getIdx l j := by
  induction l with
  | nil => simp [putIdx, getIdx, eq_comm]
  | cons p t ih =>
    obtain ⟨k, y⟩ := p
    unfold putIdx
    split
    · simp [getIdx, eq_comm]
    · split
      · subst_vars; simp only [getIdx]; split <;> simp_all [eq_comm]
      · simp only [getIdx, ih]; split <;> simp_all [eq_comm]

theorem ctx_ctxMod (s : State) (n m : Nat) (f : ContextS → ContextS) : (s.ctxMod n f).ctx m = if n = m then f (s.ctx n) else s.ctx m := by
  unfold State.ctx State.ctxMod
  simp only [getIdx_putIdx]
  split <;> rfl

end Sys2Proof.Laws
end

