-- ==== Sys2Proof/Laws/Memory.lean ====
section
/-!
SUPPORT. The sparse byte memories: a read after a write, bytes outside a write, and the canonical form that every operation keeps.
-/

namespace Sys2Proof.Laws

open Sys2Proof.Machine

/-! ## Reads after writes -/

theorem memGet_put (m : Mem) (a b : Nat) (v : Byte) : memGet (memPut m a v) b = if a = b then v else memGet m b := by
  induction m with
  | nil => simp [memPut, memGet]
  | cons p t ih =>
    obtain ⟨c, w⟩ := p
    unfold memPut
    by_cases h1 : a < c
    · simp only [h1, if_true, memGet]
    · by_cases h2 : a = c
      · subst h2; simp only [Nat.lt_irrefl, if_false, if_true, memGet]
        by_cases h3 : a = b <;> simp only [h3, if_true, if_false]
      · simp only [h1, h2, if_false, memGet, ih]
        by_cases h3 : c = b
        · subst h3; simp only [h2, if_true, if_false]
        · simp only [h3, if_false]

/-- A memory filtered: an entry taken out reads 0, provided the filter looks at the address alone. -/
theorem memGet_filter (m : Mem) (c : Nat → Bool) (b : Nat) :
    memGet (m.filter (fun p => c p.1)) b = if c b then memGet m b else 0 := by
  induction m with
  | nil => simp only [List.filter_nil, memGet, ite_self]
  | cons p t ih =>
    obtain ⟨d, w⟩ := p
    by_cases h : c d = true
    · simp only [List.filter_cons, h, if_true, memGet, ih]
      by_cases hb : d = b
      · subst hb; simp only [h, if_true]
      · simp only [hb, if_false]
    · rw [List.filter_cons, if_neg h, ih]
      by_cases hb : d = b
      · subst hb; rw [if_neg h, if_neg h]
      · simp only [memGet, hb, if_false]

/-- A byte answers what was last written. -/
theorem memGet_set (m : Mem) (a b : Nat) (v : Byte) : memGet (memSet m a v) b = if a = b then v else memGet m b := by
  unfold memSet
  split
  · rename_i h; subst h
    rw [memGet_filter m (fun x => x != a) b]
    by_cases hb : a = b
    · subst hb; simp
    · simp [hb, Ne.symm hb]
  · exact memGet_put m a b v

/-- Bytes written from `a` on: each reads back, every other stays. -/
theorem memGet_write (m : Mem) (a : Nat) (l : List Byte) (b : Nat) :
    memGet (memWrite m a l) b = if a ≤ b ∧ b < a + l.length then l.getD (b - a) 0 else memGet m b := by
  induction l generalizing m a with
  | nil => simp only [memWrite, List.length_nil, Nat.add_zero]; rw [if_neg (by omega)]
  | cons x t ih =>
    simp only [memWrite, ih, memGet_set, List.length_cons]
    by_cases h1 : a = b
    · subst h1; rw [if_neg (by omega), if_pos rfl, if_pos (by omega), Nat.sub_self, List.getD_cons_zero]
    · by_cases h2 : a + 1 ≤ b ∧ b < a + 1 + t.length
      · rw [if_pos h2, if_pos (by omega)]
        obtain ⟨k, hk⟩ : ∃ k, b - a = k + 1 := ⟨b - a - 1, by omega⟩
        rw [hk, List.getD_cons_succ]; congr 1; omega
      · rw [if_neg h2, if_neg h1, if_neg (by omega)]

/-- Bytes outside a write keep. -/
theorem memGet_write_out (m : Mem) (a : Nat) (l : List Byte) (b : Nat) (h : b < a ∨ a + l.length ≤ b) : memGet (memWrite m a l) b = memGet m b := by
  rw [memGet_write, if_neg (by omega)]

/-- Bytes inside a write read back. -/
theorem memGet_write_in (m : Mem) (a : Nat) (l : List Byte) (i : Nat) (h : i < l.length) : memGet (memWrite m a l) (a + i) = l.getD i 0 := by
  rw [memGet_write, if_pos (by omega), Nat.add_sub_cancel_left]

theorem memGet_of (a : Nat) (l : List Byte) (b : Nat) : memGet (memOf a l) b = if a ≤ b ∧ b < a + l.length then l.getD (b - a) 0 else 0 := by
  induction l generalizing a with
  | nil => simp [memOf, memGet]
  | cons x t ih =>
    simp only [memOf, List.length_cons]
    by_cases h1 : a = b
    · subst h1
      by_cases hx : x = 0
      · rw [if_pos hx, ih, if_neg (by omega), if_pos (by omega), Nat.sub_self, List.getD_cons_zero, hx]
      · rw [if_neg hx]; simp [memGet]
    · have hs : memGet (if x = 0 then memOf (a + 1) t else (a, x) :: memOf (a + 1) t) b = memGet (memOf (a + 1) t) b := by
        split
        · rfl
        · simp [memGet, h1]
      rw [hs, ih]
      by_cases h2 : a + 1 ≤ b ∧ b < a + 1 + t.length
      · rw [if_pos h2, if_pos (by omega)]
        obtain ⟨k, hk⟩ : ∃ k, b - a = k + 1 := ⟨b - a - 1, by omega⟩
        rw [hk, List.getD_cons_succ]; congr 1; omega
      · rw [if_neg h2, if_neg (by omega)]

theorem memGet_part (m : Mem) (lo hi b : Nat) : memGet (memPart m lo hi) b = if lo ≤ b ∧ b < hi then memGet m b else 0 := by
  unfold memPart
  rw [memGet_filter m (fun x => decide (lo ≤ x) && decide (x < hi)) b]
  simp

@[simp] theorem memRead_length (m : Mem) (a n : Nat) : (memRead m a n).length = n := by simp [memRead]

theorem memRead_getD (m : Mem) (a n i : Nat) (h : i < n) : (memRead m a n).getD i 0 = memGet m (a + i) := by
  simp [memRead, List.getD_eq_getElem?_getD, h]

@[simp] theorem leBytes_length (n k : Nat) : (leBytes n k).length = k := by simp [leBytes]

/-! ## The canonical form -/

/-- The canonical form as two plain facts. -/
def MemCanon (m : Mem) : Prop := m.Pairwise (fun p q => p.1 < q.1) ∧ ∀ p ∈ m, p.2 ≠ 0

theorem memWf_iff (m : Mem) : memWf m = true ↔ MemCanon m := by
  induction m with
  | nil => simp [memWf, MemCanon]
  | cons p t ih =>
    obtain ⟨a, v⟩ := p
    cases t with
    | nil => simp [memWf, MemCanon]
    | cons q t =>
      obtain ⟨b, w⟩ := q
      rw [MemCanon, List.pairwise_cons]
      simp only [memWf, Bool.and_eq_true, decide_eq_true_eq, ih, MemCanon, List.mem_cons, forall_eq_or_imp]
      constructor
      · rintro ⟨⟨hv, hlt⟩, hp, hz⟩
        refine ⟨⟨⟨hlt, fun r hr => ?_⟩, hp⟩, hv, hz⟩
        exact Nat.lt_trans hlt ((List.pairwise_cons.mp hp).1 r hr)
      · rintro ⟨⟨⟨hlt, -⟩, hp⟩, hv, hz⟩
        exact ⟨⟨hv, hlt⟩, hp, hz⟩

theorem mem_memPut {m : Mem} {a : Nat} {v : Byte} {p : Nat × Byte} (h : p ∈ memPut m a v) : p = (a, v) ∨ p ∈ m := by
  induction m with
  | nil => exact .inl (List.mem_singleton.mp h)
  | cons q t ih =>
    obtain ⟨c, w⟩ := q
    unfold memPut at h
    split at h
    · exact List.mem_cons.mp h
    · split at h
      · exact (List.mem_cons.mp h).imp_right (List.mem_cons_of_mem _)
      · rcases List.mem_cons.mp h with rfl | h
        · exact .inr List.mem_cons_self
        · exact (ih h).imp_right (List.mem_cons_of_mem _)

theorem rising_memPut {m : Mem} (a : Nat) (v : Byte) (h : m.Pairwise (fun p q => p.1 < q.1)) :
    (memPut m a v).Pairwise (fun p q => p.1 < q.1) := by
  induction m with
  | nil => exact List.pairwise_singleton _ _
  | cons q t ih =>
    obtain ⟨c, w⟩ := q
    obtain ⟨hc, ht⟩ := List.pairwise_cons.mp h
    unfold memPut
    split
    · rename_i hlt
      refine List.pairwise_cons.mpr ⟨fun p hp => ?_, h⟩
      rcases List.mem_cons.mp hp with rfl | hp
      · exact hlt
      · exact Nat.lt_trans hlt (hc p hp)
    · split
      · rename_i heq; subst heq
        exact List.pairwise_cons.mpr ⟨hc, ht⟩
      · rename_i hlt hne
        refine List.pairwise_cons.mpr ⟨fun p hp => ?_, ih ht⟩
        rcases mem_memPut hp with rfl | hp
        · exact Nat.lt_of_le_of_ne (Nat.le_of_not_lt hlt) (Ne.symm hne)
        · exact hc p hp

/-- A byte written keeps the canonical form. -/
theorem memSet_wf {m : Mem} (a : Nat) (v : Byte) (h : memWf m = true) : memWf (memSet m a v) = true := by
  rw [memWf_iff] at h ⊢
  unfold memSet
  split
  · exact ⟨h.1.filter _, fun p hp => h.2 p (List.mem_filter.mp hp).1⟩
  · rename_i hv
    refine ⟨rising_memPut a v h.1, fun p hp => ?_⟩
    rcases mem_memPut hp with rfl | hp
    · exact hv
    · exact h.2 p hp

/-- Bytes written keep the canonical form. -/
theorem memWrite_wf {m : Mem} (a : Nat) (l : List Byte) (h : memWf m = true) : memWf (memWrite m a l) = true := by
  induction l generalizing m a with
  | nil => exact h
  | cons b t ih => exact ih (a + 1) (memSet_wf a b h)

/-- A part of a memory has the canonical form. -/
theorem memPart_wf {m : Mem} (lo hi : Nat) (h : memWf m = true) : memWf (memPart m lo hi) = true := by
  rw [memWf_iff] at h ⊢
  exact ⟨h.1.filter _, fun p hp => h.2 p (List.mem_filter.mp hp).1⟩

theorem mem_memOf {a : Nat} {l : List Byte} {p : Nat × Byte} (h : p ∈ memOf a l) : a ≤ p.1 ∧ p.2 ≠ 0 := by
  induction l generalizing a with
  | nil => cases h
  | cons b t ih =>
    unfold memOf at h
    split at h
    · exact (ih h).imp_left Nat.le_of_succ_le
    · rename_i hb
      rcases List.mem_cons.mp h with rfl | h
      · exact ⟨Nat.le_refl _, hb⟩
      · exact (ih h).imp_left Nat.le_of_succ_le

/-- A memory built from bytes has the canonical form. -/
theorem memOf_wf (a : Nat) (l : List Byte) : memWf (memOf a l) = true := by
  rw [memWf_iff]
  refine ⟨?_, fun p hp => (mem_memOf hp).2⟩
  induction l generalizing a with
  | nil => exact List.Pairwise.nil
  | cons b t ih =>
    unfold memOf
    split
    · exact ih (a + 1)
    · exact List.pairwise_cons.mpr ⟨fun p hp => (mem_memOf hp).1, ih (a + 1)⟩

end Sys2Proof.Laws
end

