-- ==== Sys2Proof/Laws/Sized.lean ====
section
/-!
SUPPORT. The sizes of a run's registers (R164): every write of a register keeps them.
-/

namespace Sys2Proof.Laws

open Sys2Proof.Machine


@[simp] theorem setS_sized {g : RegSet} (h : g.sized) (i : Nat) (v : Word) : (g.setS i v).sized := by
  unfold RegSet.setS
  split
  · exact h
  · exact ⟨(modifyAt_length _ _ _).trans h.1, h.2⟩

@[simp] theorem setV_sized {g : RegSet} (h : g.sized) (i : Nat) (v : Vec) : (g.setV i v).sized :=
  ⟨h.1, (modifyAt_length _ _ _).trans h.2.1, h.2.2⟩

@[simp] theorem setP_sized {g : RegSet} (h : g.sized) (i : Nat) (v : Word) : (g.setP i v).sized := by
  unfold RegSet.setP
  split
  · exact h
  · exact ⟨h.1, h.2.1, (modifyAt_length _ _ _).trans h.2.2.1, h.2.2.2⟩

@[simp] theorem setA_sized {g : RegSet} (h : g.sized) (i : Nat) (v : List Int) : (g.setA i v).sized :=
  ⟨h.1, h.2.1, h.2.2.1, (modifyAt_length _ _ _).trans h.2.2.2⟩

@[simp] theorem setPair_sized {g : RegSet} (h : g.sized) (i a b : Nat) : (g.setPair i a b).sized :=
  setS_sized (setS_sized h _ _) _ _

@[simp] theorem fresh_sized : ({} : RegSet).sized := ⟨rfl, rfl, rfl, rfl⟩

theorem handlerRegs_sized (k : Nat) (c : Cue) : (handlerRegs k c).sized := ⟨rfl, rfl, rfl, rfl⟩

/-- What a run's instruction reads has its sizes. -/
theorem view_sized {r : Run} (h : r.sized) : r.view.regs.sized := by
  unfold Run.view
  cases hp : r.pair with
  | none => exact h.1
  | some q => exact h.2 q hp

theorem regsTo_sized {r : Run} {f : RegSet → RegSet} (h : (f r.regs).sized) (hp : r.sized) : (r.regsTo f).sized := ⟨h, hp.2⟩

theorem advance_sized {r old : Run} (h : r.sized) (ho : old.sized) (pr : Bool) (cost len : Nat) : (r.advance old pr cost len).sized := by
  unfold Run.advance
  split
  · exact ⟨h.1, fun q hq => by simp at hq⟩
  · refine ⟨h.1, fun q hq => ?_⟩
    simp only at hq
    split at hq
    · cases hq; exact ho.1
    · cases hq

/-- A run of the same registers and pair is as sized. -/
theorem sized_of {r q : Run} (h : r.sized) (hr : q.regs = r.regs) (hp : q.pair = r.pair) : q.sized :=
  ⟨hr ▸ h.1, fun p hq => h.2 p (hp ▸ hq)⟩

variable {s0 : State}

theorem run_sized {s : State} (h : Kept s0 s) (k : s0.shaped) {e : Nat} {r : Run} (hr : s.run e = some r) : r.sized :=
  (h.shape k).run e r hr

/-- What an instruction that acts on more than its run may answer: a kept state and a sized run. -/
def OkS (s0 : State) (r : Run) : Except Nat (Run × State) → Prop
  | .error _ => True
  | .ok p => Kept s0 p.2 ∧ (r.sized → p.1.sized)

theorem okS_err {r : Run} (c : Nat) : OkS s0 r (.error c) := trivial

theorem okS_ok {r q : Run} {y : State} (hy : Kept s0 y) (h : r.sized → q.sized) : OkS s0 r (.ok (q, y)) := ⟨hy, h⟩

/-- What an instruction that acts on its run may answer. -/
def OkF (r : Run) : Except Nat Run → Prop
  | .error _ => True
  | .ok q => r.sized → q.sized

theorem okF_err {r : Run} (c : Nat) : OkF r (.error c) := trivial

theorem okF_ok {r q : Run} (h : r.sized → q.sized) : OkF r (.ok q) := h

@[simp] theorem clearCue_regs (r : Run) (k : Nat) : (r.clearCue k).regs = r.regs := by simp only [Run.clearCue]

@[simp] theorem clearCue_pair (r : Run) (k : Nat) : (r.clearCue k).pair = r.pair := by simp only [Run.clearCue]

theorem clearCue_sized {r : Run} (h : r.sized) (k : Nat) : (r.clearCue k).sized := sized_of h (clearCue_regs r k) (clearCue_pair r k)

theorem next_sized {r : Run} (h : r.sized) : r.next.sized := by
  unfold Run.next
  split
  · exact ⟨handlerRegs_sized _ _, fun q hq => by cases hq⟩
  · split
    · exact ⟨fresh_sized, fun q hq => by cases hq⟩
    · exact sized_of h rfl rfl

end Sys2Proof.Laws
end

