-- ==== Sys2Proof/Laws/Issue.lean ====
section
/-!
SUPPORT. The shared operations of the engines: each has one lemma that says all it does on an engine that runs, and one for each kind of result it writes.
-/

namespace Sys2Proof.Laws

open Sys2Proof.Machine

/-! ## Register sets -/

theorem setS_set {g : RegSet} (h : g.sized) (d : Fin 32) (v : Word) : g.ScalarSet (g.setS d v) d v := by
  have hz : (d = 0) ↔ d.val = 0 := ⟨fun h => by rw [h]; rfl, fun h => Fin.ext h⟩
  unfold RegSet.ScalarSet RegSet.setS
  by_cases h0 : d.val = 0
  · simp [hz.mpr h0]
  · simp only [h0, if_false, and_true]
    intro j
    unfold RegSet.rs
    have hd : d ≠ 0 := fun k => h0 (hz.mp k)
    simp only [modifyAt_getD, h.1, d.isLt, and_true, hd, ne_eq, not_false_eq_true]
    by_cases hj : j = d
    · subst hj; simp [h0]
    · simp [hj, Ne.symm (Fin.val_ne_of_ne hj)]

theorem setV_set {g : RegSet} (h : g.sized) (d : Fin 32) (v : Vec) : g.VectorSet (g.setV d v) d v := by
  refine ⟨fun j => ?_, rfl, rfl, rfl⟩
  unfold RegSet.rv RegSet.setV
  simp only [modifyAt_getD, h.2.1, d.isLt, and_true]
  by_cases hj : j = d
  · subst hj; simp
  · simp [hj, Ne.symm (Fin.val_ne_of_ne hj)]

theorem setP_set {g : RegSet} (h : g.sized) (d : Fin 8) (v : Word) : g.PredSet (g.setP d v) d v := by
  have hz : (d = 0) ↔ d.val = 0 := ⟨fun h => by rw [h]; rfl, fun h => Fin.ext h⟩
  unfold RegSet.PredSet RegSet.setP
  by_cases h0 : d.val = 0
  · simp [hz.mpr h0]
  · simp only [h0, if_false, and_true]
    intro j
    unfold RegSet.rp
    have hd : d ≠ 0 := fun k => h0 (hz.mp k)
    simp only [modifyAt_getD, h.2.2.1, d.isLt, and_true, hd, ne_eq, not_false_eq_true]
    by_cases hj : j = d
    · subst hj; simp [h0]
    · simp [hj, Ne.symm (Fin.val_ne_of_ne hj)]

theorem setA_set {g : RegSet} (h : g.sized) (k : Fin 4) (v : List Int) : g.AccSet (g.setA k v) k v := by
  refine ⟨fun j => ?_, rfl, rfl, rfl⟩
  unfold RegSet.ra RegSet.setA
  simp only [modifyAt_getD, h.2.2.2, k.isLt, and_true]
  by_cases hj : j = k
  · subst hj; simp
  · simp [hj, Ne.symm (Fin.val_ne_of_ne hj)]

/-! ## Runs -/

theorem run_setRun (s : State) (e k : Nat) (q : Option Run) (h : e < s.runs.length) : (s.setRun e q).run k = if k = e then q else s.run k := by
  unfold State.run State.setRun
  simp only [modifyAt_getD, h, and_true]
  by_cases hk : k = e
  · subst hk; simp
  · simp [hk, Ne.symm hk]

theorem run_lt {s : State} {e : Nat} {r : Run} (h : s.run e = some r) : e < s.runs.length := by
  unfold State.run at h
  rcases Nat.lt_or_ge e s.runs.length with k | k
  · exact k
  · rw [List.getD_eq_getElem?_getD, List.getElem?_eq_none k] at h; cases h

/-- An engine's run replaced after time has passed. -/
theorem setRun_only (s : State) (e u : Nat) (q : Option Run) (h : e < s.runs.length) :
    ((s.at u).setRun e q).run e = q ∧ s.OnlyEngine ((s.at u).setRun e q) e := by
  obtain ⟨v, hv, hle, -⟩ := at_eq s u
  have hl : e < (s.at u).runs.length := by rw [at_runs]; exact h
  refine ⟨by rw [run_setRun _ _ _ _ hl, if_pos rfl], fun k hk => by rw [run_setRun _ _ _ _ hl, if_neg hk, at_run], ?_, ?_⟩
  · exact at_le s u
  · rw [hv]; rfl

theorem advance_issued (r r1 : Run) (pr : Bool) (cost len : Nat) (hr : { r1 with regs := r.regs, lmem := r.lmem } = r) :
    r.Issued (r1.advance r pr cost len) pr cost len := by
  unfold Run.advance
  cases hp : r.pair with
  | none =>
    refine ⟨rfl, fun _ => ⟨rfl, rfl⟩, fun q hq => (by rw [hp] at hq; cases hq), ?_⟩
    rw [← hr]
  | some p =>
    refine ⟨rfl, fun h => (by rw [hp] at h; cases h), fun q hq => ?_, ?_⟩
    · rw [hp] at hq; cases hq; exact ⟨rfl, rfl⟩
    · rw [← hr]

@[simp] theorem advance_regs (r old : Run) (pr : Bool) (cost len : Nat) : (r.advance old pr cost len).regs = r.regs := by
  unfold Run.advance; split <;> rfl

@[simp] theorem advance_lmem (r old : Run) (pr : Bool) (cost len : Nat) : (r.advance old pr cost len).lmem = r.lmem := by
  unfold Run.advance; split <;> rfl

variable {s : State} {e : Nat} {r : Run}

/-! ## The shared operations on an engine that runs -/

theorem instr_eq (h : s.Issues e r) (pr : Bool) (cost len : Nat) (f : PairS → Run → Run) :
    s.instr e pr cost len f = (s.at (s.issueStu r)).setRun e (some ((f r.view r).advance r pr cost len)) := by
  simp [State.instr, h.run, h.live]

theorem instrF_ok (h : s.Issues e r) (pr : Bool) (cost len : Nat) (f : ImageS → PairS → Run → Except Nat Run) {r1 : Run}
    (hf : f (s.ctx r.ctx).img r.view r = .ok r1) :
    s.instrF e pr cost len f = (s.at (s.issueStu r)).setRun e (some (r1.advance r pr cost len)) := by
  simp [State.instrF, h.run, h.live, hf]

theorem instrF_err (h : s.Issues e r) (pr : Bool) (cost len : Nat) (f : ImageS → PairS → Run → Except Nat Run) {c : Nat}
    (hf : f (s.ctx r.ctx).img r.view r = .error c) : s.instrF e pr cost len f = (s.at (s.issueStu r)).trip e c := by
  simp [State.instrF, h.run, h.live, hf]

theorem instrS_ok (h : s.Issues e r) (cost : Run → Nat) (f : Run → State → Except Nat (Run × State)) {r1 : Run} {y : State}
    (hf : f r (s.at (s.issueStu r)) = .ok (r1, y)) : s.instrS e cost f = y.setRun e (some (r1.advance r false (cost r) 1)) := by
  simp [State.instrS, h.run, h.live, hf]

theorem instrS_err (h : s.Issues e r) (cost : Run → Nat) (f : Run → State → Except Nat (Run × State)) {c : Nat}
    (hf : f r (s.at (s.issueStu r)) = .error c) : s.instrS e cost f = (s.at (s.issueStu r)).trip e c := by
  simp [State.instrS, h.run, h.live, hf]

theorem flow_eq (h : s.Issues e r) (f : State → Run → Run × Nat) :
    s.flow e f = (s.at (s.issueStu r)).setRun e
      (some { (f (s.at (s.issueStu r)) r).1 with cycles := (f (s.at (s.issueStu r)) r).1.cycles + (f (s.at (s.issueStu r)) r).2, pair := none }) := by
  simp [State.flow, h.run, h.live]

/-! ## What an instruction does, by the kind of its result -/

/-- An instruction that changes registers and memory alone. -/
theorem does_of {i : Instr} (h : s.Issues e r) (pr : Bool) (cost len : Nat) {r1 : Run} {w : Run → Run → Prop}
    (hx : exec i s = .next ((s.at (s.issueStu r)).setRun e (some (r1.advance r pr cost len))))
    (hr : { r1 with regs := r.regs, lmem := r.lmem } = r) (hw : w r (r1.advance r pr cost len)) : s.Does i e r pr cost len w :=
  have k := setRun_only s e (s.issueStu r) (some (r1.advance r pr cost len)) (run_lt h.run)
  ⟨_, _, hx, k.1, k.2, advance_issued _ _ _ _ _ hr, hw⟩

theorem scalar_of {i : Instr} (h : s.Issues e r) (pr : Bool) (cost len : Nat) (d : Fin 32) (f : PairS → Run → Word)
    (hx : exec i s = .next (s.instr e pr cost len (fun v r => r.regsTo (fun g => g.setS d (f v r))))) :
    s.Scalar i e r pr cost len d (f r.view r) :=
  does_of (r1 := r.regsTo (fun g => g.setS d (f r.view r))) h pr cost len (hx.trans (congrArg _ (instr_eq h _ _ _ _))) rfl
    ⟨by rw [advance_regs]; exact setS_set (h.shaped.run e r h.run).1 d _, by rw [advance_lmem]; rfl⟩

theorem vector_of {i : Instr} (h : s.Issues e r) (pr : Bool) (cost len : Nat) (d : Fin 32) (f : PairS → Run → Vec)
    (hx : exec i s = .next (s.instr e pr cost len (fun v r => r.regsTo (fun g => g.setV d (f v r))))) :
    s.Vector i e r pr cost len d (f r.view r) :=
  does_of (r1 := r.regsTo (fun g => g.setV d (f r.view r))) h pr cost len (hx.trans (congrArg _ (instr_eq h _ _ _ _))) rfl
    ⟨by rw [advance_regs]; exact setV_set (h.shaped.run e r h.run).1 d _, by rw [advance_lmem]; rfl⟩

theorem pred_of {i : Instr} (h : s.Issues e r) (pr : Bool) (cost : Nat) (d : Fin 8) (f : PairS → Run → Word)
    (hx : exec i s = .next (s.instr e pr cost 1 (fun v r => r.regsTo (fun g => g.setP d (f v r))))) :
    s.Pred i e r pr cost d (f r.view r) :=
  does_of (r1 := r.regsTo (fun g => g.setP d (f r.view r))) h pr cost 1 (hx.trans (congrArg _ (instr_eq h _ _ _ _))) rfl
    ⟨by rw [advance_regs]; exact setP_set (h.shaped.run e r h.run).1 d _, by rw [advance_lmem]; rfl⟩

theorem acc_of {i : Instr} (h : s.Issues e r) (pr : Bool) (cost : Nat) (k : Fin 4) (f : PairS → Run → List Int)
    (hx : exec i s = .next (s.instr e pr cost 1 (fun v r => r.regsTo (fun g => g.setA k (f v r))))) :
    s.Acc i e r pr cost k (f r.view r) :=
  does_of (r1 := r.regsTo (fun g => g.setA k (f r.view r))) h pr cost 1 (hx.trans (congrArg _ (instr_eq h _ _ _ _))) rfl
    ⟨by rw [advance_regs]; exact setA_set (h.shaped.run e r h.run).1 k _, by rw [advance_lmem]; rfl⟩

/-- A scalar load that R167 lets through. -/
theorem load_of {i : Instr} (h : s.Issues e r) (pr : Bool) (d : Fin 32) (a : Fin 32) (off : BitVec 12) (size : Nat) (f : Nat → Word)
    (hx : exec i s = .next (s.loadS e pr d a off size f))
    (hc : (s.ctx r.ctx).img.check (scalarAddr (r.view.regs.rs a) off size) size size false = none) :
    s.Scalar i e r pr 1 1 d (f (ofLe (memRead r.view.lmem (scalarAddr (r.view.regs.rs a) off size) size))) := by
  refine does_of (r1 := r.regsTo (fun g => g.setS d _)) h pr 1 1 (hx.trans (congrArg _ (instrF_ok h _ _ _ _ ?_))) rfl
    ⟨by rw [advance_regs]; exact setS_set (h.shaped.run e r h.run).1 d _, by rw [advance_lmem]; rfl⟩
  simp only [hc]

theorem store_of {i : Instr} (h : s.Issues e r) (pr : Bool) (a : Nat) (l : List Byte) (f : ImageS → PairS → Run → Except Nat Run)
    (hx : exec i s = .next (s.instrF e pr 1 1 f))
    (hf : f (s.ctx r.ctx).img r.view r = .ok { r with lmem := memWrite r.lmem a l }) : s.Stores i e r pr a l :=
  does_of (r1 := { r with lmem := memWrite r.lmem a l }) h pr 1 1 (hx.trans (congrArg _ (instrF_ok h _ _ _ _ hf))) rfl
    ⟨by rw [advance_regs], fun k hk => by rw [advance_lmem]; exact memGet_write_in _ _ _ _ hk,
      fun b hb => by rw [advance_lmem]; exact memGet_write_out _ _ _ _ hb⟩

end Sys2Proof.Laws
end

