-- ==== Sys2Proof/Laws/KeptOps.lean ====
section
/-!
SUPPORT. What the operations of Machine/Ops.lean keep.
-/

set_option linter.all false

namespace Sys2Proof.Laws

open Sys2Proof.Machine


variable {s0 : State}

theorem State.fset_kept {s : State} (h : Kept s0 s) (f : Reg.Fld) (n : Nat) : Kept s0 (State.fset s f n) := by
  unfold State.fset
  repeat' (first
    | with_reducible assumption | with_reducible exact Kept.refl _ | with_reducible apply State.rset_kept)

theorem State.fsetB_kept {s : State} (h : Kept s0 s) (f : Reg.Fld) (b : Bool) : Kept s0 (State.fsetB s f b) := by
  unfold State.fsetB
  repeat' (first
    | with_reducible assumption | with_reducible exact Kept.refl _ | with_reducible apply State.fset_kept)

theorem State.evt_kept {s : State} (h : Kept s0 s) (f : Reg.Fld) : Kept s0 (State.evt s f) := by
  have k : Kept s0 (s.fset f 1) := State.fset_kept h f 1
  exact Kept.upd k rfl rfl rfl rfl id (Nat.le_refl _) rfl

theorem State.bumpBy_kept {s : State} (h : Kept s0 s) (f : Reg.Fld) (n : Nat) : Kept s0 (State.bumpBy s f n) := by
  unfold State.bumpBy
  repeat' (first
    | with_reducible assumption | with_reducible exact Kept.refl _ | with_reducible apply State.fset_kept)

theorem State.bump_kept {s : State} (h : Kept s0 s) (f : Reg.Fld) : Kept s0 (State.bump s f) := by
  unfold State.bump
  repeat' (first
    | with_reducible assumption | with_reducible exact Kept.refl _ | with_reducible apply State.bumpBy_kept)

theorem State.rsetN_kept {s : State} (h : Kept s0 s) (a n : Nat) : Kept s0 (State.rsetN s a n) := by
  unfold State.rsetN
  repeat' (first
    | with_reducible assumption | with_reducible exact Kept.refl _ | with_reducible apply State.rset_kept)

theorem State.rset64_kept {s : State} (h : Kept s0 s) (a n : Nat) : Kept s0 (State.rset64 s a n) := by
  unfold State.rset64
  repeat' (first
    | with_reducible assumption | with_reducible exact Kept.refl _ | with_reducible apply State.rsetN_kept)

theorem State.wr_kept {s : State} (h : Kept s0 s) (a : Nat) (v : Word) : Kept s0 (State.wr s a v) := by
  unfold State.wr
  repeat' (first
    | with_reducible assumption | with_reducible exact Kept.refl _ | with_reducible apply State.rset_kept
    | with_reducible apply kept_ite | with_reducible apply kept_ite1 | with_reducible apply kept_ite2 | split
    | with_reducible exact kept_snd ‹_ = _› (by assumption) | (with_reducible refine kept_snd ‹_ = (_, _)› ?_)
    | (with_reducible refine kept_fst ‹_ = (_, _)› ?_)
    | (lift_lets; intro x; first | (refine (fun (hx : Kept s0 x) => ?_) ?_; clear_value x) | clear_value x)
    | (intro x; refine (fun (hx : Kept s0 x) => ?_) ?_; clear_value x) | (intro x; clear_value x) | dsimp only)

theorem State.free1_kept {s : State} (h : Kept s0 s)  : Kept s0 (State.free1 s).2 := by
  unfold State.free1
  repeat' (first
    | with_reducible assumption | with_reducible exact Kept.refl _ | with_reducible exact kept_snd ‹_ = _› (by assumption)
    | (with_reducible refine kept_snd ‹_ = (_, _)› ?_) | (with_reducible refine kept_fst ‹_ = (_, _)› ?_) | dsimp only | exact id
    | with_reducible exact rfl | with_reducible exact Nat.le_refl _ | with_reducible exact modifyAt_length _ _ _
    | with_reducible exact List.length_map _ | ((with_reducible refine (id ?_ : (_ : Nat) = _)); exact rfl)
    | with_reducible refine Kept.upd ?_ ?_ ?_ ?_ ?_ ?_ ?_ ?_)

theorem State.at_kept {s : State} (h : Kept s0 s) (t : Nat) : Kept s0 (State.at s t) := by
  unfold State.at
  generalize (if s.onGrid then roundUp t 160 else t) = u
  dsimp only
  split
  · rename_i hlt
    exact h.upd rfl rfl rfl rfl id (Nat.le_of_lt hlt) rfl
  · exact h

theorem State.pins_kept {s : State} (h : Kept s0 s)  : Kept s0 (State.pins s) := by
  unfold State.pins
  repeat' (first
    | with_reducible assumption | with_reducible exact Kept.refl _ | with_reducible apply kept_ite | split
    | (lift_lets; intro x; first | (refine (fun (hx : Kept s0 x) => ?_) ?_; clear_value x) | skip)
    | (intro x; refine (fun (hx : Kept s0 x) => ?_) ?_; clear_value x) | (intro x; skip) | exact id | with_reducible exact rfl
    | with_reducible exact Nat.le_refl _ | with_reducible exact modifyAt_length _ _ _ | with_reducible exact List.length_map _
    | ((with_reducible refine (id ?_ : (_ : Nat) = _)); exact rfl) | with_reducible refine Kept.upd ?_ ?_ ?_ ?_ ?_ ?_ ?_ ?_)

theorem State.tenMod_kept {s : State} (h : Kept s0 s) (t : Nat) (f : TenantS → TenantS) : Kept s0 (State.tenMod s t f) := by
  unfold State.tenMod
  repeat' (first
    | with_reducible assumption | with_reducible exact Kept.refl _ | exact id | with_reducible exact rfl
    | with_reducible exact Nat.le_refl _ | with_reducible exact modifyAt_length _ _ _ | with_reducible exact List.length_map _
    | ((with_reducible refine (id ?_ : (_ : Nat) = _)); exact rfl) | with_reducible refine Kept.upd ?_ ?_ ?_ ?_ ?_ ?_ ?_ ?_)

theorem State.cause_kept {s : State} (h : Kept s0 s) (t : Nat) (f : Reg.Fld) : Kept s0 (State.cause s t f) := by
  unfold State.cause
  repeat' (first
    | with_reducible assumption | with_reducible exact Kept.refl _ | with_reducible apply State.evt_kept
    | with_reducible apply State.pins_kept | with_reducible apply State.tenMod_kept | with_reducible apply kept_ite | split
    | (lift_lets; intro x; first | (refine (fun (hx : Kept s0 x) => ?_) ?_; clear_value x) | skip)
    | (intro x; refine (fun (hx : Kept s0 x) => ?_) ?_; clear_value x) | (intro x; skip) | exact id | with_reducible exact rfl
    | with_reducible exact Nat.le_refl _ | with_reducible exact modifyAt_length _ _ _ | with_reducible exact List.length_map _
    | ((with_reducible refine (id ?_ : (_ : Nat) = _)); exact rfl) | with_reducible refine Kept.upd ?_ ?_ ?_ ?_ ?_ ?_ ?_ ?_)

theorem State.causes_kept {s : State} (h : Kept s0 s) (ts : List Nat) (f : Nat → Reg.Fld) : Kept s0 (State.causes s ts f) := by
  unfold State.causes
  repeat' (first
    | with_reducible assumption | with_reducible exact Kept.refl _ | with_reducible apply State.cause_kept
    | with_reducible refine kept_foldl _ (fun x a hx => ?_) ?_ | with_reducible exact kept_snd ‹_ = _› (by assumption)
    | (with_reducible refine kept_snd ‹_ = (_, _)› ?_) | (with_reducible refine kept_fst ‹_ = (_, _)› ?_))

theorem State.inTurn_kept {s : State} (h : Kept s0 s) (t : Nat) : Kept s0 (State.inTurn s t) := by
  unfold State.inTurn
  repeat' (first
    | with_reducible assumption | with_reducible exact Kept.refl _ | with_reducible apply State.at_kept
    | with_reducible apply kept_ite | with_reducible apply kept_ite1 | with_reducible apply kept_ite2 | split
    | with_reducible exact kept_snd ‹_ = _› (by assumption) | (with_reducible refine kept_snd ‹_ = (_, _)› ?_)
    | (with_reducible refine kept_fst ‹_ = (_, _)› ?_)
    | (lift_lets; intro x; first | (refine (fun (hx : Kept s0 x) => ?_) ?_; clear_value x) | clear_value x)
    | (intro x; refine (fun (hx : Kept s0 x) => ?_) ?_; clear_value x) | (intro x; clear_value x) | dsimp only)

theorem State.took_kept {s : State} (h : Kept s0 s) (t : Nat) : Kept s0 (State.took s t) := by
  unfold State.took
  repeat' (first
    | with_reducible assumption | with_reducible exact Kept.refl _ | with_reducible apply State.tenMod_kept
    | with_reducible apply kept_ite | with_reducible apply kept_ite1 | with_reducible apply kept_ite2 | split
    | with_reducible exact kept_snd ‹_ = _› (by assumption) | (with_reducible refine kept_snd ‹_ = (_, _)› ?_)
    | (with_reducible refine kept_fst ‹_ = (_, _)› ?_)
    | (lift_lets; intro x; first | (refine (fun (hx : Kept s0 x) => ?_) ?_; clear_value x) | clear_value x)
    | (intro x; refine (fun (hx : Kept s0 x) => ?_) ?_; clear_value x) | (intro x; clear_value x) | dsimp only)

theorem State.cplCause_kept {s : State} (h : Kept s0 s) (t : Nat) : Kept s0 (State.cplCause s t) := by
  unfold State.cplCause
  repeat' (first
    | with_reducible assumption | with_reducible exact Kept.refl _ | with_reducible apply State.cause_kept
    | with_reducible apply State.tenMod_kept | with_reducible apply kept_ite | split)

theorem State.dma_kept {s : State} (h : Kept s0 s) (t a : Nat) (l : List Byte) : Kept s0 (State.dma s t a l) := by
  unfold State.dma
  repeat' (first
    | with_reducible assumption | with_reducible exact Kept.refl _ | with_reducible apply State.tenMod_kept
    | with_reducible apply kept_ite | split | exact id | with_reducible exact rfl | with_reducible exact Nat.le_refl _
    | with_reducible exact modifyAt_length _ _ _ | with_reducible exact List.length_map _
    | ((with_reducible refine (id ?_ : (_ : Nat) = _)); exact rfl) | with_reducible refine Kept.upd ?_ ?_ ?_ ?_ ?_ ?_ ?_ ?_)

theorem State.writeCpl_kept {s : State} (h : Kept s0 s) (t : Nat) (c : Cpl) : Kept s0 (State.writeCpl s t c) := by
  unfold State.writeCpl
  repeat' (first
    | with_reducible assumption | with_reducible exact Kept.refl _ | with_reducible apply State.cplCause_kept
    | with_reducible apply State.dma_kept | with_reducible apply State.fsetB_kept | with_reducible apply State.rsetN_kept
    | with_reducible apply State.tenMod_kept | with_reducible apply kept_ite | split
    | (lift_lets; intro x; first | (refine (fun (hx : Kept s0 x) => ?_) ?_; clear_value x) | clear_value x)
    | (intro x; refine (fun (hx : Kept s0 x) => ?_) ?_; clear_value x) | (intro x; clear_value x))

theorem State.complete_kept {s : State} (h : Kept s0 s) (t tag op status accept : Nat) (result : List Byte) : Kept s0 (State.complete s t tag op status accept result) := by
  unfold State.complete
  repeat' (first
    | with_reducible assumption | with_reducible exact Kept.refl _ | with_reducible apply State.bump_kept
    | with_reducible apply State.tenMod_kept | with_reducible apply State.writeCpl_kept | with_reducible apply kept_ite | split)

theorem State.evPend_kept {s : State} (h : Kept s0 s) (t : Nat) : Kept s0 (State.evPend s t) := by
  unfold State.evPend
  repeat' (first
    | with_reducible assumption | with_reducible exact Kept.refl _ | with_reducible apply State.fsetB_kept)

theorem State.postEvent_kept {s : State} (h : Kept s0 s) (t ctx kind : Nat) (c : Cpl) : Kept s0 (State.postEvent s t ctx kind c) := by
  unfold State.postEvent
  repeat' (first
    | with_reducible assumption | with_reducible exact Kept.refl _ | with_reducible apply State.evPend_kept
    | with_reducible apply State.tenMod_kept | with_reducible apply State.writeCpl_kept | with_reducible apply kept_ite | split)

theorem State.postReq_kept {s : State} (h : Kept s0 s) (t status accept ctx addr : Nat) : Kept s0 (State.postReq s t status accept ctx addr) := by
  unfold State.postReq
  repeat' (first
    | with_reducible assumption | with_reducible exact Kept.refl _ | with_reducible apply State.bump_kept
    | with_reducible apply State.evPend_kept | with_reducible apply State.tenMod_kept | with_reducible apply State.writeCpl_kept
    | with_reducible apply kept_ite | split
    | (lift_lets; intro x; first | (refine (fun (hx : Kept s0 x) => ?_) ?_; clear_value x) | clear_value x)
    | (intro x; refine (fun (hx : Kept s0 x) => ?_) ?_; clear_value x) | (intro x; clear_value x))

theorem drainEvents_kept {s : State} (h : Kept s0 s) (t n : Nat) : Kept s0 (drainEvents t n s) := by
  induction n generalizing s with
  | zero => exact State.evPend_kept h t
  | succ n ih =>
    unfold drainEvents
    split
    · exact State.evPend_kept h t
    · split
      · exact ih (State.writeCpl_kept (State.tenMod_kept h t _) t _)
      · exact ih (State.writeCpl_kept (State.tenMod_kept h t _) t _)
      · exact State.evPend_kept h t

theorem State.showShares_kept {s : State} (h : Kept s0 s)  : Kept s0 (State.showShares s) := by
  unfold State.showShares
  repeat' (first
    | with_reducible assumption | with_reducible exact Kept.refl _ | with_reducible apply State.rsetN_kept
    | with_reducible refine kept_foldl _ (fun x a hx => ?_) ?_ | with_reducible exact kept_snd ‹_ = _› (by assumption)
    | (with_reducible refine kept_snd ‹_ = (_, _)› ?_) | (with_reducible refine kept_fst ‹_ = (_, _)› ?_))

theorem State.ctxMod_kept {s : State} (h : Kept s0 s) (n : Nat) (f : ContextS → ContextS) : Kept s0 (State.ctxMod s n f) := by
  unfold State.ctxMod
  repeat' (first
    | with_reducible assumption | with_reducible exact Kept.refl _ | exact id | with_reducible exact rfl
    | with_reducible exact Nat.le_refl _ | with_reducible exact modifyAt_length _ _ _ | with_reducible exact List.length_map _
    | ((with_reducible refine (id ?_ : (_ : Nat) = _)); exact rfl) | with_reducible refine Kept.upd ?_ ?_ ?_ ?_ ?_ ?_ ?_ ?_)

theorem State.chnMod_kept {s : State} (h : Kept s0 s) (n : Nat) (f : ChainS → ChainS) : Kept s0 (State.chnMod s n f) := by
  unfold State.chnMod
  repeat' (first
    | with_reducible assumption | with_reducible exact Kept.refl _ | with_reducible apply State.ctxMod_kept)

theorem State.trouble_kept {s : State} (h : Kept s0 s) (n : Nat) : Kept s0 (State.trouble s n) := by
  unfold State.trouble
  repeat' (first
    | with_reducible assumption | with_reducible exact Kept.refl _ | with_reducible apply kept_ite | split | exact id
    | with_reducible exact rfl | with_reducible exact Nat.le_refl _ | with_reducible exact modifyAt_length _ _ _
    | with_reducible exact List.length_map _ | ((with_reducible refine (id ?_ : (_ : Nat) = _)); exact rfl)
    | with_reducible refine Kept.upd ?_ ?_ ?_ ?_ ?_ ?_ ?_ ?_)

theorem State.exclude_kept {s : State} (h : Kept s0 s)  : Kept s0 (State.exclude s) := by
  unfold State.exclude
  repeat' (first
    | with_reducible assumption | with_reducible exact Kept.refl _ | exact id | with_reducible exact rfl
    | with_reducible exact Nat.le_refl _ | with_reducible exact modifyAt_length _ _ _ | with_reducible exact List.length_map _
    | ((with_reducible refine (id ?_ : (_ : Nat) = _)); exact rfl) | with_reducible refine Kept.upd ?_ ?_ ?_ ?_ ?_ ?_ ?_ ?_)

theorem State.wuDone_kept {s : State} (h : Kept s0 s) (k : Nat) : Kept s0 (State.wuDone s k) := by
  unfold State.wuDone
  repeat' (first
    | with_reducible assumption | with_reducible exact Kept.refl _ | with_reducible apply kept_ite | split
    | with_reducible exact kept_snd ‹_ = _› (by assumption) | (with_reducible refine kept_snd ‹_ = (_, _)› ?_)
    | (with_reducible refine kept_fst ‹_ = (_, _)› ?_)
    | (lift_lets; intro x; first | (refine (fun (hx : Kept s0 x) => ?_) ?_; clear_value x) | clear_value x)
    | (intro x; refine (fun (hx : Kept s0 x) => ?_) ?_; clear_value x) | (intro x; clear_value x) | exact id
    | with_reducible exact rfl | with_reducible exact Nat.le_refl _ | with_reducible exact modifyAt_length _ _ _
    | with_reducible exact List.length_map _ | ((with_reducible refine (id ?_ : (_ : Nat) = _)); exact rfl)
    | with_reducible refine Kept.upd ?_ ?_ ?_ ?_ ?_ ?_ ?_ ?_)

theorem State.busMod_kept {s : State} (h : Kept s0 s) (b : Nat) (f : BusS → BusS) : Kept s0 (State.busMod s b f) := by
  unfold State.busMod
  repeat' (first
    | with_reducible assumption | with_reducible exact Kept.refl _ | exact id | with_reducible exact rfl
    | with_reducible exact Nat.le_refl _ | with_reducible exact modifyAt_length _ _ _ | with_reducible exact List.length_map _
    | ((with_reducible refine (id ?_ : (_ : Nat) = _)); exact rfl) | with_reducible refine Kept.upd ?_ ?_ ?_ ?_ ?_ ?_ ?_ ?_)

end Sys2Proof.Laws
end

