-- ==== Sys2Proof/Laws/KeptTimeOps.lean ====
section
/-!
SUPPORT. What the operations of Machine/TimeOps.lean keep.
-/

set_option linter.all false

namespace Sys2Proof.Laws

open Sys2Proof.Machine


variable {s0 : State}

theorem State.foldUnc_kept {s : State} (h : Kept s0 s)  : Kept s0 (State.foldUnc s) := by
  unfold State.foldUnc
  repeat' (first
    | with_reducible assumption | with_reducible exact Kept.refl _ | exact id | with_reducible exact rfl
    | with_reducible exact Nat.le_refl _ | with_reducible exact modifyAt_length _ _ _ | with_reducible exact List.length_map _
    | ((with_reducible refine (id ?_ : (_ : Nat) = _)); exact rfl) | with_reducible refine Kept.upd ?_ ?_ ?_ ?_ ?_ ?_ ?_ ?_)

theorem State.bkpMod_kept {s : State} (h : Kept s0 s) (f : BkpS → BkpS) : Kept s0 (State.bkpMod s f) := by
  unfold State.bkpMod
  repeat' (first
    | with_reducible assumption | with_reducible exact Kept.refl _ | with_reducible apply kept_ite
    | with_reducible apply kept_ite1 | with_reducible apply kept_ite2 | split
    | with_reducible exact kept_snd ‹_ = _› (by assumption) | (with_reducible refine kept_snd ‹_ = (_, _)› ?_)
    | (with_reducible refine kept_fst ‹_ = (_, _)› ?_)
    | (lift_lets; intro x; first | (refine (fun (hx : Kept s0 x) => ?_) ?_; clear_value x) | clear_value x)
    | (intro x; refine (fun (hx : Kept s0 x) => ?_) ?_; clear_value x) | (intro x; clear_value x) | dsimp only | exact id
    | exact ⟨rfl, Nat.le_refl _, rfl⟩ | with_reducible exact rfl | with_reducible exact Nat.le_refl _
    | with_reducible exact modifyAt_length _ _ _ | with_reducible exact List.length_map _
    | ((with_reducible refine (id ?_ : (_ : Nat) = _)); exact rfl) | with_reducible refine Kept.upd ?_ ?_ ?_ ?_ ?_ ?_ ?_ ?_)

theorem State.osc_kept {s : State} (h : Kept s0 s) (r : Nat) : Kept s0 (State.osc s r) := by
  unfold State.osc
  repeat' (first
    | with_reducible assumption | with_reducible exact Kept.refl _ | with_reducible apply State.bkpMod_kept
    | with_reducible apply kept_ite | with_reducible apply kept_ite1 | with_reducible apply kept_ite2 | split
    | with_reducible exact kept_snd ‹_ = _› (by assumption) | (with_reducible refine kept_snd ‹_ = (_, _)› ?_)
    | (with_reducible refine kept_fst ‹_ = (_, _)› ?_)
    | (lift_lets; intro x; first | (refine (fun (hx : Kept s0 x) => ?_) ?_; clear_value x) | clear_value x)
    | (intro x; refine (fun (hx : Kept s0 x) => ?_) ?_; clear_value x) | (intro x; clear_value x) | dsimp only)

theorem State.pulses_kept {s : State} (h : Kept s0 s)  : Kept s0 (State.pulses s).2 := by
  unfold State.pulses
  repeat' (first
    | with_reducible assumption | with_reducible exact Kept.refl _ | with_reducible apply State.free1_kept
    | with_reducible apply kept_ite | with_reducible apply kept_ite1 | with_reducible apply kept_ite2 | split
    | with_reducible exact kept_snd ‹_ = _› (by assumption) | (with_reducible refine kept_snd ‹_ = (_, _)› ?_)
    | (with_reducible refine kept_fst ‹_ = (_, _)› ?_)
    | (lift_lets; intro x; first | (refine (fun (hx : Kept s0 x) => ?_) ?_; clear_value x) | clear_value x)
    | (intro x; refine (fun (hx : Kept s0 x) => ?_) ?_; clear_value x) | (intro x; clear_value x) | dsimp only)

theorem State.oscGo_kept {s : State} (h : Kept s0 s)  : Kept s0 (State.oscGo s) := by
  unfold State.oscGo
  repeat' (first
    | with_reducible assumption | with_reducible exact Kept.refl _ | with_reducible apply State.osc_kept
    | with_reducible apply State.pulses_kept | with_reducible apply kept_ite | with_reducible apply kept_ite1
    | with_reducible apply kept_ite2 | split | with_reducible exact kept_snd ‹_ = _› (by assumption)
    | (with_reducible refine kept_snd ‹_ = (_, _)› ?_) | (with_reducible refine kept_fst ‹_ = (_, _)› ?_)
    | (lift_lets; intro x; first | (refine (fun (hx : Kept s0 x) => ?_) ?_; clear_value x) | clear_value x)
    | (intro x; refine (fun (hx : Kept s0 x) => ?_) ?_; clear_value x) | (intro x; clear_value x) | dsimp only)

end Sys2Proof.Laws
end

