-- ==== Sys2Proof/Laws/KeptReport.lean ====
section
/-!
SUPPORT. What the operations of Machine/Report.lean keep.
-/

set_option linter.all false

namespace Sys2Proof.Laws

open Sys2Proof.Machine


variable {s0 : State}

theorem State.showOp_kept {s : State} (h : Kept s0 s)  : Kept s0 (State.showOp s) := by
  unfold State.showOp
  repeat' (first
    | with_reducible assumption | with_reducible exact Kept.refl _ | with_reducible apply State.free1_kept
    | with_reducible apply State.rsetN_kept | with_reducible apply kept_ite | with_reducible apply kept_ite1
    | with_reducible apply kept_ite2 | split | with_reducible exact kept_snd ‹_ = _› (by assumption)
    | (with_reducible refine kept_snd ‹_ = (_, _)› ?_) | (with_reducible refine kept_fst ‹_ = (_, _)› ?_)
    | (lift_lets; intro x; first | (refine (fun (hx : Kept s0 x) => ?_) ?_; clear_value x) | clear_value x)
    | (intro x; refine (fun (hx : Kept s0 x) => ?_) ?_; clear_value x) | (intro x; clear_value x) | dsimp only)

theorem State.snapCopies_kept {s : State} (h : Kept s0 s)  : Kept s0 (State.snapCopies s) := by
  unfold State.snapCopies
  repeat' (first
    | with_reducible assumption | with_reducible exact Kept.refl _ | with_reducible apply State.rset_kept
    | with_reducible apply State.rset64_kept | with_reducible apply kept_ite | with_reducible refine kept_foldl _ (fun x a hx => ?_) ?_
    | split | with_reducible exact kept_snd ‹_ = _› (by assumption) | (with_reducible refine kept_snd ‹_ = (_, _)› ?_)
    | (with_reducible refine kept_fst ‹_ = (_, _)› ?_)
    | (lift_lets; intro x; first | (refine (fun (hx : Kept s0 x) => ?_) ?_; clear_value x) | clear_value x)
    | (intro x; refine (fun (hx : Kept s0 x) => ?_) ?_; clear_value x) | (intro x; clear_value x))

theorem State.energySoFar_kept {s : State} (h : Kept s0 s)  : Kept s0 (State.energySoFar s).2 := by
  unfold State.energySoFar
  repeat' (first
    | with_reducible assumption | with_reducible exact Kept.refl _ | with_reducible apply State.free1_kept
    | with_reducible apply kept_ite | with_reducible apply kept_ite1 | with_reducible apply kept_ite2 | split
    | with_reducible exact kept_snd ‹_ = _› (by assumption) | (with_reducible refine kept_snd ‹_ = (_, _)› ?_)
    | (with_reducible refine kept_fst ‹_ = (_, _)› ?_)
    | (lift_lets; intro x; first | (refine (fun (hx : Kept s0 x) => ?_) ?_; clear_value x) | clear_value x)
    | (intro x; refine (fun (hx : Kept s0 x) => ?_) ?_; clear_value x) | (intro x; clear_value x) | dsimp only)

theorem State.seAsWas_kept {s t : State} (h : Kept s0 t) (e : Nat) : Kept s0 (State.seAsWas s e t) := by
  unfold State.seAsWas
  split
  · exact State.rset_kept h _ _
  · exact h

theorem State.snapLatch_kept {s : State} (h : Kept s0 s) (src ctx t : Nat) : Kept s0 (State.snapLatch s src ctx t) := by
  unfold State.snapLatch
  repeat' (first
    | with_reducible assumption | with_reducible exact Kept.refl _ | with_reducible apply State.bump_kept
    | with_reducible apply State.causes_kept | with_reducible apply State.energySoFar_kept
    | with_reducible apply State.evt_kept | with_reducible apply State.free1_kept | with_reducible apply State.fset_kept
    | with_reducible apply State.fsetB_kept | with_reducible apply State.oscGo_kept | with_reducible apply State.rset_kept
    | with_reducible apply State.rset64_kept | with_reducible apply State.rsetN_kept | with_reducible apply State.showOp_kept
    | with_reducible apply State.snapCopies_kept | with_reducible apply kept_ite | with_reducible apply kept_ite1
    | with_reducible apply kept_ite2 | split | with_reducible exact kept_snd ‹_ = _› (by assumption)
    | (with_reducible refine kept_snd ‹_ = (_, _)› ?_) | (with_reducible refine kept_fst ‹_ = (_, _)› ?_)
    | (lift_lets; intro x; first | (refine (fun (hx : Kept s0 x) => ?_) ?_; clear_value x) | clear_value x)
    | (intro x; refine (fun (hx : Kept s0 x) => ?_) ?_; clear_value x) | (intro x; clear_value x) | dsimp only)

theorem State.snapTrigger_kept {s : State} (h : Kept s0 s) (src ctx t : Nat) : Kept s0 (State.snapTrigger s src ctx t) := by
  unfold State.snapTrigger
  repeat' (first
    | with_reducible assumption | with_reducible exact Kept.refl _ | with_reducible apply State.bump_kept
    | with_reducible apply State.evt_kept | with_reducible apply State.fset_kept | with_reducible apply State.snapLatch_kept
    | with_reducible apply kept_ite | split
    | (lift_lets; intro x; first | (refine (fun (hx : Kept s0 x) => ?_) ?_; clear_value x) | clear_value x)
    | (intro x; refine (fun (hx : Kept s0 x) => ?_) ?_; clear_value x) | (intro x; clear_value x))

theorem State.rawNote_kept {s : State} (h : Kept s0 s) (n : RawNote) : Kept s0 (State.rawNote s n) := by
  unfold State.rawNote
  repeat' (first
    | with_reducible assumption | with_reducible exact Kept.refl _ | exact id | with_reducible exact rfl
    | with_reducible exact Nat.le_refl _ | with_reducible exact modifyAt_length _ _ _ | with_reducible exact List.length_map _
    | ((with_reducible refine (id ?_ : (_ : Nat) = _)); exact rfl) | with_reducible refine Kept.upd ?_ ?_ ?_ ?_ ?_ ?_ ?_ ?_)

theorem State.skipNote_kept {s : State} (h : Kept s0 s) (u len : Nat) : Kept s0 (State.skipNote s u len) := by
  unfold State.skipNote
  repeat' (first
    | with_reducible assumption | with_reducible exact Kept.refl _ | with_reducible apply State.rawNote_kept
    | with_reducible apply kept_ite | with_reducible apply kept_ite1 | with_reducible apply kept_ite2 | split
    | with_reducible exact kept_snd ‹_ = _› (by assumption) | (with_reducible refine kept_snd ‹_ = (_, _)› ?_)
    | (with_reducible refine kept_fst ‹_ = (_, _)› ?_)
    | (lift_lets; intro x; first | (refine (fun (hx : Kept s0 x) => ?_) ?_; clear_value x) | clear_value x)
    | (intro x; refine (fun (hx : Kept s0 x) => ?_) ?_; clear_value x) | (intro x; clear_value x) | dsimp only)

theorem State.rawTrack_kept {s : State} (h : Kept s0 s) (u : Nat) (f : State → State) (hf : ∀ x0, Kept s0 x0 → Kept s0 (f x0)) : Kept s0 (State.rawTrack s u f) := by
  unfold State.rawTrack
  repeat' (first
    | with_reducible assumption | with_reducible exact Kept.refl _ | with_reducible apply hf | with_reducible apply State.rawNote_kept
    | with_reducible apply kept_ite | with_reducible refine kept_foldl _ (fun x a hx => ?_) ?_ | split
    | with_reducible exact kept_snd ‹_ = _› (by assumption) | (with_reducible refine kept_snd ‹_ = (_, _)› ?_)
    | (with_reducible refine kept_fst ‹_ = (_, _)› ?_)
    | (lift_lets; intro x; first | (refine (fun (hx : Kept s0 x) => ?_) ?_; clear_value x) | clear_value x)
    | (intro x; refine (fun (hx : Kept s0 x) => ?_) ?_; clear_value x) | (intro x; clear_value x))

theorem State.faultAt_kept {s : State} (h : Kept s0 s) (t fc unit ctx detail : Nat) : Kept s0 (State.faultAt s t fc unit ctx detail) := by
  unfold State.faultAt
  repeat' (first
    | with_reducible assumption | with_reducible exact Kept.refl _ | with_reducible apply State.bump_kept
    | with_reducible apply State.evt_kept | with_reducible apply State.rset64_kept | with_reducible apply State.rsetN_kept
    | with_reducible apply State.snapTrigger_kept | with_reducible apply kept_ite | split
    | (lift_lets; intro x; first | (refine (fun (hx : Kept s0 x) => ?_) ?_; clear_value x) | skip)
    | (intro x; refine (fun (hx : Kept s0 x) => ?_) ?_; clear_value x) | (intro x; skip) | exact id | with_reducible exact rfl
    | with_reducible exact Nat.le_refl _ | with_reducible exact modifyAt_length _ _ _ | with_reducible exact List.length_map _
    | ((with_reducible refine (id ?_ : (_ : Nat) = _)); exact rfl) | with_reducible refine Kept.upd ?_ ?_ ?_ ?_ ?_ ?_ ?_ ?_)

theorem State.fault_kept {s : State} (h : Kept s0 s) (fc unit ctx detail : Nat) : Kept s0 (State.fault s fc unit ctx detail) := by
  unfold State.fault
  repeat' (first
    | with_reducible assumption | with_reducible exact Kept.refl _ | with_reducible apply State.faultAt_kept)

end Sys2Proof.Laws
end

