-- ==== Sys2Proof/Laws/KeptChains.lean ====
section
/-!
SUPPORT. What the operations of Machine/Chains.lean keep.
-/

set_option linter.all false

namespace Sys2Proof.Laws

open Sys2Proof.Machine


variable {s0 : State}

theorem State.convMod_kept {s : State} (h : Kept s0 s) (c : Nat) (f : ConvS → ConvS) : Kept s0 (State.convMod s c f) := by
  unfold State.convMod
  repeat' (first
    | with_reducible assumption | with_reducible exact Kept.refl _ | with_reducible apply kept_ite
    | with_reducible apply kept_ite1 | with_reducible apply kept_ite2 | split
    | with_reducible exact kept_snd ‹_ = _› (by assumption) | (with_reducible refine kept_snd ‹_ = (_, _)› ?_)
    | (with_reducible refine kept_fst ‹_ = (_, _)› ?_)
    | (lift_lets; intro x; first | (refine (fun (hx : Kept s0 x) => ?_) ?_; clear_value x) | clear_value x)
    | (intro x; refine (fun (hx : Kept s0 x) => ?_) ?_; clear_value x) | (intro x; clear_value x) | dsimp only | exact id
    | exact ⟨rfl, Nat.le_refl _, rfl⟩ | with_reducible exact rfl | with_reducible exact Nat.le_refl _
    | with_reducible exact modifyAt_length _ _ _ | with_reducible exact List.length_map _
    | ((with_reducible refine (id ?_ : (_ : Nat) = _)); exact rfl) | with_reducible refine Kept.upd ?_ ?_ ?_ ?_ ?_ ?_ ?_ ?_)

theorem State.raiseCueSpan_kept {s : State} (h : Kept s0 s) (n kind first last info : Nat) : Kept s0 (State.raiseCueSpan s n kind first last info) := by
  unfold State.raiseCueSpan
  repeat' (first
    | with_reducible assumption | with_reducible exact Kept.refl _ | with_reducible apply State.bump_kept
    | with_reducible apply State.ctxMod_kept | with_reducible apply State.fsetB_kept | with_reducible apply kept_ite | split
    | (lift_lets; intro x; first | (refine (fun (hx : Kept s0 x) => ?_) ?_; clear_value x) | clear_value x)
    | (intro x; refine (fun (hx : Kept s0 x) => ?_) ?_; clear_value x) | (intro x; clear_value x) | dsimp only)

theorem State.raiseCue_kept {s : State} (h : Kept s0 s) (n kind stu info : Nat) : Kept s0 (State.raiseCue s n kind stu info) := by
  unfold State.raiseCue
  repeat' (first
    | with_reducible assumption | with_reducible exact Kept.refl _ | with_reducible apply State.raiseCueSpan_kept)

theorem State.showChn_kept {s : State} (h : Kept s0 s) (n : Nat) : Kept s0 (State.showChn s n) := by
  unfold State.showChn
  repeat' (first
    | with_reducible assumption | with_reducible exact Kept.refl _ | with_reducible apply State.fset_kept
    | with_reducible apply State.fsetB_kept | with_reducible apply kept_ite | with_reducible apply kept_ite1
    | with_reducible apply kept_ite2 | split | with_reducible exact kept_snd ‹_ = _› (by assumption)
    | (with_reducible refine kept_snd ‹_ = (_, _)› ?_) | (with_reducible refine kept_fst ‹_ = (_, _)› ?_)
    | (lift_lets; intro x; first | (refine (fun (hx : Kept s0 x) => ?_) ?_; clear_value x) | clear_value x)
    | (intro x; refine (fun (hx : Kept s0 x) => ?_) ?_; clear_value x) | (intro x; clear_value x) | dsimp only)

theorem State.sendMark_kept {s : State} (h : Kept s0 s) (n : Nat) (m : Marker) (d : Nat) : Kept s0 (State.sendMark s n m d) := by
  unfold State.sendMark
  repeat' (first
    | with_reducible assumption | with_reducible exact Kept.refl _ | with_reducible apply State.chnMod_kept
    | with_reducible apply kept_ite | split
    | (lift_lets; intro x; first | (refine (fun (hx : Kept s0 x) => ?_) ?_; clear_value x) | clear_value x)
    | (intro x; refine (fun (hx : Kept s0 x) => ?_) ?_; clear_value x) | (intro x; clear_value x))

theorem State.convMark_kept {s : State} (h : Kept s0 s) (conv : Nat) (m : Marker) : Kept s0 (State.convMark s conv m) := by
  unfold State.convMark
  repeat' (first
    | with_reducible assumption | with_reducible exact Kept.refl _ | with_reducible apply State.convMod_kept
    | with_reducible apply State.sendMark_kept | with_reducible apply kept_ite | with_reducible apply kept_ite1
    | with_reducible apply kept_ite2 | with_reducible refine kept_foldl _ (fun x a hx => ?_) ?_ | split
    | with_reducible exact kept_snd ‹_ = _› (by assumption) | (with_reducible refine kept_snd ‹_ = (_, _)› ?_)
    | (with_reducible refine kept_fst ‹_ = (_, _)› ?_)
    | (lift_lets; intro x; first | (refine (fun (hx : Kept s0 x) => ?_) ?_; clear_value x) | clear_value x)
    | (intro x; refine (fun (hx : Kept s0 x) => ?_) ?_; clear_value x) | (intro x; clear_value x) | dsimp only)

theorem State.ncoMark_kept {s : State} (h : Kept s0 s) (m : Nat) (mk : Marker) : Kept s0 (State.ncoMark s m mk) := by
  unfold State.ncoMark
  repeat' (first
    | with_reducible assumption | with_reducible exact Kept.refl _ | with_reducible apply State.sendMark_kept
    | with_reducible refine kept_foldl _ (fun x a hx => ?_) ?_ | split | with_reducible exact kept_snd ‹_ = _› (by assumption)
    | (with_reducible refine kept_snd ‹_ = (_, _)› ?_) | (with_reducible refine kept_fst ‹_ = (_, _)› ?_))

theorem State.showQ0_kept {s : State} (h : Kept s0 s) (n : Nat) : Kept s0 (State.showQ0 s n) := by
  unfold State.showQ0
  repeat' (first
    | with_reducible assumption | with_reducible exact Kept.refl _ | with_reducible apply State.rsetN_kept
    | (lift_lets; intro x; first | (refine (fun (hx : Kept s0 x) => ?_) ?_; clear_value x) | clear_value x)
    | (intro x; refine (fun (hx : Kept s0 x) => ?_) ?_; clear_value x) | (intro x; clear_value x))

theorem State.pushItem_kept {s : State} (h : Kept s0 s) (n : Nat) (i : Item) : Kept s0 (State.pushItem s n i) := by
  unfold State.pushItem
  repeat' (first
    | with_reducible assumption | with_reducible exact Kept.refl _ | with_reducible apply State.ctxMod_kept)

theorem State.pushMark_kept {s : State} (h : Kept s0 s) (n : Nat) (m : Marker) : Kept s0 (State.pushMark s n m) := by
  unfold State.pushMark
  repeat' (first
    | with_reducible assumption | with_reducible exact Kept.refl _ | with_reducible apply State.pushItem_kept
    | with_reducible apply State.raiseCue_kept | with_reducible apply kept_ite | split
    | (lift_lets; intro x; first | (refine (fun (hx : Kept s0 x) => ?_) ?_; clear_value x) | clear_value x)
    | (intro x; refine (fun (hx : Kept s0 x) => ?_) ?_; clear_value x) | (intro x; clear_value x))

theorem State.stopMark_kept {s : State} (h : Kept s0 s) (n reason : Nat) : Kept s0 (State.stopMark s n reason) := by
  unfold State.stopMark
  repeat' (first
    | with_reducible assumption | with_reducible exact Kept.refl _ | with_reducible apply State.pushMark_kept
    | with_reducible apply State.showQ0_kept)

theorem State.ringResume_kept {s : State} (h : Kept s0 s) (n : Nat) : Kept s0 (State.ringResume s n) := by
  unfold State.ringResume
  repeat' (first
    | with_reducible assumption | with_reducible exact Kept.refl _ | with_reducible apply State.bumpBy_kept
    | with_reducible apply State.chnMod_kept | with_reducible apply State.pushItem_kept | with_reducible apply State.raiseCue_kept
    | with_reducible apply State.showQ0_kept | with_reducible apply State.trouble_kept | with_reducible apply kept_ite | split
    | (lift_lets; intro x; first | (refine (fun (hx : Kept s0 x) => ?_) ?_; clear_value x) | clear_value x)
    | (intro x; refine (fun (hx : Kept s0 x) => ?_) ?_; clear_value x) | (intro x; clear_value x))

theorem State.groupEnd_kept {s : State} (h : Kept s0 s) (n : Nat) : Kept s0 (State.groupEnd s n) := by
  unfold State.groupEnd
  repeat' (first
    | with_reducible assumption | with_reducible exact Kept.refl _ | with_reducible apply State.chnMod_kept
    | with_reducible apply State.showChn_kept | with_reducible apply kept_ite | split
    | (lift_lets; intro x; first | (refine (fun (hx : Kept s0 x) => ?_) ?_; clear_value x) | clear_value x)
    | (intro x; refine (fun (hx : Kept s0 x) => ?_) ?_; clear_value x) | (intro x; clear_value x))

theorem State.holdExpire_kept {s : State} (h : Kept s0 s) (n : Nat) : Kept s0 (State.holdExpire s n) := by
  unfold State.holdExpire
  repeat' (first
    | with_reducible assumption | with_reducible exact Kept.refl _ | with_reducible apply State.chnMod_kept
    | with_reducible apply State.evt_kept | with_reducible apply State.showChn_kept | with_reducible apply kept_ite | split
    | (lift_lets; intro x; first | (refine (fun (hx : Kept s0 x) => ?_) ?_; clear_value x) | clear_value x)
    | (intro x; refine (fun (hx : Kept s0 x) => ?_) ?_; clear_value x) | (intro x; clear_value x) | dsimp only)

theorem State.groupStart_kept {s : State} (h : Kept s0 s) (n l : Nat) : Kept s0 (State.groupStart s n l) := by
  unfold State.groupStart
  repeat' (first
    | with_reducible assumption | with_reducible exact Kept.refl _ | with_reducible apply State.chnMod_kept
    | with_reducible apply State.groupEnd_kept | with_reducible apply State.holdExpire_kept | with_reducible apply kept_ite | split
    | (lift_lets; intro x; first | (refine (fun (hx : Kept s0 x) => ?_) ?_; clear_value x) | clear_value x)
    | (intro x; refine (fun (hx : Kept s0 x) => ?_) ?_; clear_value x) | (intro x; clear_value x) | dsimp only)

theorem State.fadeEnd_kept {s : State} (h : Kept s0 s) (n stu : Nat) : Kept s0 (State.fadeEnd s n stu) := by
  unfold State.fadeEnd
  repeat' (first
    | with_reducible assumption | with_reducible exact Kept.refl _ | with_reducible apply State.chnMod_kept
    | with_reducible apply State.evt_kept | with_reducible apply State.raiseCue_kept | with_reducible apply State.rset64_kept
    | with_reducible apply State.showChn_kept | split
    | (lift_lets; intro x; first | (refine (fun (hx : Kept s0 x) => ?_) ?_; clear_value x) | clear_value x)
    | (intro x; refine (fun (hx : Kept s0 x) => ?_) ?_; clear_value x) | (intro x; clear_value x) | dsimp only)

theorem State.attach_kept {s : State} (h : Kept s0 s) (n l : Nat) : Kept s0 (State.attach s n l) := by
  unfold State.attach
  repeat' (first
    | with_reducible assumption | with_reducible exact Kept.refl _ | with_reducible apply State.chnMod_kept
    | with_reducible apply State.ctxMod_kept | with_reducible apply State.pushMark_kept | with_reducible apply kept_ite
    | with_reducible apply kept_ite1 | with_reducible apply kept_ite2
    | with_reducible refine kept_foldl _ (fun x a hx => ?_) ?_ | split
    | with_reducible exact kept_snd ‹_ = _› (by assumption) | (with_reducible refine kept_snd ‹_ = (_, _)› ?_)
    | (with_reducible refine kept_fst ‹_ = (_, _)› ?_)
    | (lift_lets; intro x; first | (refine (fun (hx : Kept s0 x) => ?_) ?_; clear_value x) | clear_value x)
    | (intro x; refine (fun (hx : Kept s0 x) => ?_) ?_; clear_value x) | (intro x; clear_value x) | dsimp only)

theorem execFadeEnd_kept (n : Fin 256) (s : State) : ∃ out, execFadeEnd n s = .next out ∧ Kept s out := by
  refine ⟨_, rfl, ?_⟩
  have h : Kept s s := Kept.refl s
  repeat' (first
    | with_reducible assumption | with_reducible exact Kept.refl _ | with_reducible apply State.at_kept
    | with_reducible apply State.fadeEnd_kept | with_reducible apply kept_ite | split
    | (lift_lets; intro x; first | (refine (fun (hx : Kept s x) => ?_) ?_; clear_value x) | clear_value x)
    | (intro x; refine (fun (hx : Kept s x) => ?_) ?_; clear_value x) | (intro x; clear_value x) | dsimp only)

theorem execAgcGroupEnd_kept (n : Fin 256) (s : State) : ∃ out, execAgcGroupEnd n s = .next out ∧ Kept s out := by
  refine ⟨_, rfl, ?_⟩
  have h : Kept s s := Kept.refl s
  repeat' (first
    | with_reducible assumption | with_reducible exact Kept.refl _ | with_reducible apply State.groupEnd_kept)

theorem execAgcHoldExpire_kept (n : Fin 256) (s : State) : ∃ out, execAgcHoldExpire n s = .next out ∧ Kept s out := by
  refine ⟨_, rfl, ?_⟩
  have h : Kept s s := Kept.refl s
  repeat' (first
    | with_reducible assumption | with_reducible exact Kept.refl _ | with_reducible apply State.holdExpire_kept)

theorem execChainRingResume_kept (n : Fin 256) (s : State) : ∃ out, execChainRingResume n s = .next out ∧ Kept s out := by
  refine ⟨_, rfl, ?_⟩
  have h : Kept s s := Kept.refl s
  repeat' (first
    | with_reducible assumption | with_reducible exact Kept.refl _ | with_reducible apply State.ringResume_kept)

theorem State.regrid_kept {s : State} (h : Kept s0 s) (k n : Nat) : Kept s0 (State.regrid k s n) := by
  induction k generalizing s n with
  | zero => exact h
  | succ k ih =>
    unfold State.regrid
    exact kept_foldl _ (fun x a hx => ih (State.chnMod_kept hx a _) a) h

theorem State.chnReset_kept {s : State} (h : Kept s0 s) (n b z : Nat) (endFade going : Bool) : Kept s0 (State.chnReset s n b z endFade going) := by
  unfold State.chnReset
  repeat' (first
    | with_reducible assumption | with_reducible exact Kept.refl _ | with_reducible apply State.chnMod_kept
    | with_reducible apply State.fadeEnd_kept | with_reducible apply State.fset_kept | with_reducible apply State.regrid_kept
    | with_reducible apply State.showChn_kept | with_reducible apply kept_ite | with_reducible apply kept_ite1
    | with_reducible apply kept_ite2 | split | with_reducible exact kept_snd ‹_ = _› (by assumption)
    | (with_reducible refine kept_snd ‹_ = (_, _)› ?_) | (with_reducible refine kept_fst ‹_ = (_, _)› ?_)
    | (lift_lets; intro x; first | (refine (fun (hx : Kept s0 x) => ?_) ?_; clear_value x) | clear_value x)
    | (intro x; refine (fun (hx : Kept s0 x) => ?_) ?_; clear_value x) | (intro x; clear_value x))

theorem State.showTap_kept {s : State} (h : Kept s0 s) (u w : Nat) : Kept s0 (State.showTap s u w) := by
  unfold State.showTap
  repeat' (first
    | with_reducible assumption | with_reducible exact Kept.refl _ | with_reducible apply State.fset_kept
    | with_reducible apply State.fsetB_kept | with_reducible apply State.rsetN_kept | with_reducible apply kept_ite | split
    | (lift_lets; intro x; first | (refine (fun (hx : Kept s0 x) => ?_) ?_; clear_value x) | clear_value x)
    | (intro x; refine (fun (hx : Kept s0 x) => ?_) ?_; clear_value x) | (intro x; clear_value x))

theorem State.takeTap_kept {s : State} (h : Kept s0 s) (n b : Nat) : Kept s0 (State.takeTap s n b) := by
  unfold State.takeTap
  repeat' (first
    | with_reducible assumption | with_reducible exact Kept.refl _ | with_reducible apply State.chnMod_kept
    | with_reducible apply State.showTap_kept | with_reducible apply kept_ite | with_reducible apply kept_ite1
    | with_reducible apply kept_ite2 | split | with_reducible exact kept_snd ‹_ = _› (by assumption)
    | (with_reducible refine kept_snd ‹_ = (_, _)› ?_) | (with_reducible refine kept_fst ‹_ = (_, _)› ?_)
    | (lift_lets; intro x; first | (refine (fun (hx : Kept s0 x) => ?_) ?_; clear_value x) | clear_value x)
    | (intro x; refine (fun (hx : Kept s0 x) => ?_) ?_; clear_value x) | (intro x; clear_value x) | dsimp only | exact id
    | exact ⟨rfl, Nat.le_refl _, rfl⟩ | with_reducible exact rfl | with_reducible exact Nat.le_refl _
    | with_reducible exact modifyAt_length _ _ _ | with_reducible exact List.length_map _
    | ((with_reducible refine (id ?_ : (_ : Nat) = _)); exact rfl) | with_reducible refine Kept.upd ?_ ?_ ?_ ?_ ?_ ?_ ?_ ?_)

theorem State.leaveTap_kept {s : State} (h : Kept s0 s) (n : Nat) : Kept s0 (State.leaveTap s n) := by
  unfold State.leaveTap
  repeat' (first
    | with_reducible assumption | with_reducible exact Kept.refl _ | with_reducible apply State.chnMod_kept
    | with_reducible apply State.showTap_kept | with_reducible apply kept_ite | with_reducible apply kept_ite1
    | with_reducible apply kept_ite2 | split | with_reducible exact kept_snd ‹_ = _› (by assumption)
    | (with_reducible refine kept_snd ‹_ = (_, _)› ?_) | (with_reducible refine kept_fst ‹_ = (_, _)› ?_)
    | (lift_lets; intro x; first | (refine (fun (hx : Kept s0 x) => ?_) ?_; clear_value x) | skip)
    | (intro x; refine (fun (hx : Kept s0 x) => ?_) ?_; clear_value x) | (intro x; skip) | dsimp only | exact id
    | with_reducible exact rfl | with_reducible exact Nat.le_refl _ | with_reducible exact modifyAt_length _ _ _
    | with_reducible exact List.length_map _ | ((with_reducible refine (id ?_ : (_ : Nat) = _)); exact rfl)
    | with_reducible refine Kept.upd ?_ ?_ ?_ ?_ ?_ ?_ ?_ ?_)

theorem State.openChain_kept {s : State} (h : Kept s0 s) (n b : Nat) : Kept s0 (State.openChain s n b) := by
  unfold State.openChain
  repeat' (first
    | with_reducible assumption | with_reducible exact Kept.refl _ | with_reducible apply State.chnMod_kept
    | with_reducible apply State.chnReset_kept | with_reducible apply State.rset64_kept
    | with_reducible apply State.rsetN_kept | with_reducible apply State.takeTap_kept | with_reducible apply kept_ite
    | with_reducible apply kept_ite1 | with_reducible apply kept_ite2 | split
    | with_reducible exact kept_snd ‹_ = _› (by assumption) | (with_reducible refine kept_snd ‹_ = (_, _)› ?_)
    | (with_reducible refine kept_fst ‹_ = (_, _)› ?_)
    | (lift_lets; intro x; first | (refine (fun (hx : Kept s0 x) => ?_) ?_; clear_value x) | clear_value x)
    | (intro x; refine (fun (hx : Kept s0 x) => ?_) ?_; clear_value x) | (intro x; clear_value x) | dsimp only)

theorem State.stopChain_kept {s : State} (h : Kept s0 s) (n : Nat) : Kept s0 (State.stopChain s n) := by
  unfold State.stopChain
  repeat' (first
    | with_reducible assumption | with_reducible exact Kept.refl _ | with_reducible apply State.chnMod_kept
    | with_reducible apply State.showChn_kept | with_reducible apply kept_ite | split
    | with_reducible exact kept_snd ‹_ = _› (by assumption) | (with_reducible refine kept_snd ‹_ = (_, _)› ?_)
    | (with_reducible refine kept_fst ‹_ = (_, _)› ?_)
    | (lift_lets; intro x; first | (refine (fun (hx : Kept s0 x) => ?_) ?_; clear_value x) | clear_value x)
    | (intro x; refine (fun (hx : Kept s0 x) => ?_) ?_; clear_value x) | (intro x; clear_value x))

theorem State.restartChain_kept {s : State} (h : Kept s0 s) (n b : Nat) : Kept s0 (State.restartChain s n b) := by
  unfold State.restartChain
  repeat' (first
    | with_reducible assumption | with_reducible exact Kept.refl _ | with_reducible apply State.chnMod_kept
    | with_reducible apply State.chnReset_kept | with_reducible apply kept_ite | split
    | with_reducible exact kept_snd ‹_ = _› (by assumption) | (with_reducible refine kept_snd ‹_ = (_, _)› ?_)
    | (with_reducible refine kept_fst ‹_ = (_, _)› ?_)
    | (lift_lets; intro x; first | (refine (fun (hx : Kept s0 x) => ?_) ?_; clear_value x) | clear_value x)
    | (intro x; refine (fun (hx : Kept s0 x) => ?_) ?_; clear_value x) | (intro x; clear_value x))

theorem State.convVoidBegin_kept {s : State} (h : Kept s0 s) (c : Nat) : Kept s0 (State.convVoidBegin s c) := by
  unfold State.convVoidBegin
  repeat' (first
    | with_reducible assumption | with_reducible exact Kept.refl _ | with_reducible apply State.chnMod_kept
    | with_reducible apply State.convMark_kept | with_reducible apply State.evt_kept | with_reducible apply State.showChn_kept
    | with_reducible refine kept_foldl _ (fun x a hx => ?_) ?_ | with_reducible exact kept_snd ‹_ = _› (by assumption)
    | (with_reducible refine kept_snd ‹_ = (_, _)› ?_) | (with_reducible refine kept_fst ‹_ = (_, _)› ?_)
    | (lift_lets; intro x; first | (refine (fun (hx : Kept s0 x) => ?_) ?_; clear_value x) | clear_value x)
    | (intro x; refine (fun (hx : Kept s0 x) => ?_) ?_; clear_value x) | (intro x; clear_value x))

theorem State.convVoidEnd_kept {s : State} (h : Kept s0 s) (c b : Nat) : Kept s0 (State.convVoidEnd s c b) := by
  unfold State.convVoidEnd
  repeat' (first
    | with_reducible assumption | with_reducible exact Kept.refl _ | with_reducible apply State.chnMod_kept
    | with_reducible apply State.chnReset_kept | with_reducible apply State.convMod_kept | with_reducible apply kept_ite
    | with_reducible apply kept_ite1 | with_reducible apply kept_ite2
    | with_reducible refine kept_foldl _ (fun x a hx => ?_) ?_ | split
    | with_reducible exact kept_snd ‹_ = _› (by assumption) | (with_reducible refine kept_snd ‹_ = (_, _)› ?_)
    | (with_reducible refine kept_fst ‹_ = (_, _)› ?_)
    | (lift_lets; intro x; first | (refine (fun (hx : Kept s0 x) => ?_) ?_; clear_value x) | clear_value x)
    | (intro x; refine (fun (hx : Kept s0 x) => ?_) ?_; clear_value x) | (intro x; clear_value x) | dsimp only | exact id
    | exact ⟨rfl, Nat.le_refl _, rfl⟩ | with_reducible exact rfl | with_reducible exact Nat.le_refl _
    | with_reducible exact modifyAt_length _ _ _ | with_reducible exact List.length_map _
    | ((with_reducible refine (id ?_ : (_ : Nat) = _)); exact rfl) | with_reducible refine Kept.upd ?_ ?_ ?_ ?_ ?_ ?_ ?_ ?_)

theorem State.voidBegin_kept {s : State} (h : Kept s0 s)  : Kept s0 (State.voidBegin s) := by
  unfold State.voidBegin
  repeat' (first
    | with_reducible assumption | with_reducible exact Kept.refl _ | with_reducible apply State.convVoidBegin_kept
    | with_reducible apply kept_ite | with_reducible refine kept_foldl _ (fun x a hx => ?_) ?_ | split
    | with_reducible exact kept_snd ‹_ = _› (by assumption) | (with_reducible refine kept_snd ‹_ = (_, _)› ?_)
    | (with_reducible refine kept_fst ‹_ = (_, _)› ?_)
    | (lift_lets; intro x; first | (refine (fun (hx : Kept s0 x) => ?_) ?_; clear_value x) | clear_value x)
    | (intro x; refine (fun (hx : Kept s0 x) => ?_) ?_; clear_value x) | (intro x; clear_value x))

theorem State.voidEnd_kept {s : State} (h : Kept s0 s)  : Kept s0 (State.voidEnd s) := by
  unfold State.voidEnd
  repeat' (first
    | with_reducible assumption | with_reducible exact Kept.refl _ | with_reducible apply State.convVoidEnd_kept
    | with_reducible apply kept_ite | with_reducible refine kept_foldl _ (fun x a hx => ?_) ?_ | split
    | with_reducible exact kept_snd ‹_ = _› (by assumption) | (with_reducible refine kept_snd ‹_ = (_, _)› ?_)
    | (with_reducible refine kept_fst ‹_ = (_, _)› ?_))

theorem State.tapVoidEnd_kept {s : State} (h : Kept s0 s) (n : Nat) : Kept s0 (State.tapVoidEnd s n) := by
  unfold State.tapVoidEnd
  repeat' (first
    | with_reducible assumption | with_reducible exact Kept.refl _ | with_reducible apply State.chnMod_kept
    | with_reducible apply State.chnReset_kept | with_reducible apply kept_ite | with_reducible apply kept_ite1
    | with_reducible apply kept_ite2 | split | with_reducible exact kept_snd ‹_ = _› (by assumption)
    | (with_reducible refine kept_snd ‹_ = (_, _)› ?_) | (with_reducible refine kept_fst ‹_ = (_, _)› ?_)
    | (lift_lets; intro x; first | (refine (fun (hx : Kept s0 x) => ?_) ?_; clear_value x) | clear_value x)
    | (intro x; refine (fun (hx : Kept s0 x) => ?_) ?_; clear_value x) | (intro x; clear_value x) | dsimp only)

theorem State.feedDown_kept {s : State} (h : Kept s0 s) (n l : Nat) (i q : Int) : Kept s0 (State.feedDown s n l i q) := by
  unfold State.feedDown
  repeat' (first
    | with_reducible assumption | with_reducible exact Kept.refl _ | with_reducible apply State.chnMod_kept
    | with_reducible apply kept_ite | with_reducible apply kept_ite1 | with_reducible apply kept_ite2
    | with_reducible refine kept_foldl _ (fun x a hx => ?_) ?_ | split | with_reducible exact kept_snd ‹_ = _› (by assumption)
    | (with_reducible refine kept_snd ‹_ = (_, _)› ?_) | (with_reducible refine kept_fst ‹_ = (_, _)› ?_)
    | (lift_lets; intro x; first | (refine (fun (hx : Kept s0 x) => ?_) ?_; clear_value x) | clear_value x)
    | (intro x; refine (fun (hx : Kept s0 x) => ?_) ?_; clear_value x) | (intro x; clear_value x) | dsimp only)

theorem execChainOutputWrite_kept (n : Fin 256) (s : State) : ∃ out, execChainOutputWrite n s = .next out ∧ Kept s out := by
  refine ⟨_, rfl, ?_⟩
  have h : Kept s s := Kept.refl s
  repeat' (first
    | with_reducible assumption | with_reducible exact Kept.refl _ | with_reducible apply State.at_kept
    | with_reducible apply State.attach_kept | with_reducible apply State.bumpBy_kept
    | with_reducible apply State.chnMod_kept | with_reducible apply State.done_kept | with_reducible apply State.evt_kept
    | with_reducible apply State.feedDown_kept | with_reducible apply State.groupStart_kept
    | with_reducible apply State.pushItem_kept | with_reducible apply State.ringResume_kept
    | with_reducible apply State.sample_kept | with_reducible apply State.showChn_kept
    | with_reducible apply State.showQ0_kept | with_reducible apply State.tapVoidEnd_kept
    | with_reducible apply State.trouble_kept | with_reducible apply kept_ite | with_reducible apply kept_ite1
    | with_reducible apply kept_ite2 | split | with_reducible exact kept_snd ‹_ = _› (by assumption)
    | (with_reducible refine kept_snd ‹_ = (_, _)› ?_) | (with_reducible refine kept_fst ‹_ = (_, _)› ?_)
    | (lift_lets; intro x; first | (refine (fun (hx : Kept s x) => ?_) ?_; clear_value x) | clear_value x)
    | (intro x; refine (fun (hx : Kept s x) => ?_) ?_; clear_value x) | (intro x; clear_value x) | dsimp only)

theorem State.request_kept {s : State} (h : Kept s0 s) (tenant : Nat) (k : ReqKind) : Kept s0 (State.request s tenant k) := by
  unfold State.request
  repeat' (first
    | with_reducible assumption | with_reducible exact Kept.refl _ | exact id | with_reducible exact rfl
    | with_reducible exact Nat.le_refl _ | with_reducible exact modifyAt_length _ _ _ | with_reducible exact List.length_map _
    | ((with_reducible refine (id ?_ : (_ : Nat) = _)); exact rfl) | with_reducible refine Kept.upd ?_ ?_ ?_ ?_ ?_ ?_ ?_ ?_)

theorem State.chainRequest_kept {s : State} (h : Kept s0 s) (tenant n : Nat) (k : ReqKind) : Kept s0 (State.chainRequest s tenant n k) := by
  unfold State.chainRequest
  repeat' (first
    | with_reducible assumption | with_reducible exact Kept.refl _ | with_reducible apply kept_ite | split
    | with_reducible exact kept_snd ‹_ = _› (by assumption) | (with_reducible refine kept_snd ‹_ = (_, _)› ?_)
    | (with_reducible refine kept_fst ‹_ = (_, _)› ?_)
    | (lift_lets; intro x; first | (refine (fun (hx : Kept s0 x) => ?_) ?_; clear_value x) | clear_value x)
    | (intro x; refine (fun (hx : Kept s0 x) => ?_) ?_; clear_value x) | (intro x; clear_value x) | exact id
    | with_reducible exact rfl | with_reducible exact Nat.le_refl _ | with_reducible exact modifyAt_length _ _ _
    | with_reducible exact List.length_map _ | ((with_reducible refine (id ?_ : (_ : Nat) = _)); exact rfl)
    | with_reducible refine Kept.upd ?_ ?_ ?_ ?_ ?_ ?_ ?_ ?_)

theorem State.wrChnConfig_kept {s : State} (h : Kept s0 s) (n a : Nat) (v : Word) : Kept s0 (State.wrChnConfig s n a v) := by
  unfold State.wrChnConfig
  repeat' (first
    | with_reducible assumption | with_reducible exact Kept.refl _ | with_reducible apply State.evt_kept
    | with_reducible apply State.wr_kept | with_reducible apply kept_ite | split)

theorem State.wrChnNco_kept {s : State} (h : Kept s0 s) (tenant n a : Nat) (v : Word) : Kept s0 (State.wrChnNco s tenant n a v) := by
  unfold State.wrChnNco
  repeat' (first
    | with_reducible assumption | with_reducible exact Kept.refl _ | with_reducible apply State.chainRequest_kept
    | with_reducible apply State.wr_kept | with_reducible apply kept_ite | split
    | with_reducible exact kept_snd ‹_ = _› (by assumption) | (with_reducible refine kept_snd ‹_ = (_, _)› ?_)
    | (with_reducible refine kept_fst ‹_ = (_, _)› ?_)
    | (lift_lets; intro x; first | (refine (fun (hx : Kept s0 x) => ?_) ?_; clear_value x) | clear_value x)
    | (intro x; refine (fun (hx : Kept s0 x) => ?_) ?_; clear_value x) | (intro x; clear_value x))

theorem State.raiseCost_kept {s t : State} {n : Nat} {f : ChainS → ChainS} (h : Kept s0 s) (ht : State.raiseCost s n f = some t) : Kept s0 t := by
  unfold State.raiseCost at ht
  dsimp only at ht
  split at ht
  · cases ht; exact State.chnMod_kept h n _
  · cases ht

theorem State.wrChnAgc_kept {s : State} (h : Kept s0 s) (tenant n : Nat) (v : Word) : Kept s0 (State.wrChnAgc s tenant n v) := by
  unfold State.wrChnAgc
  repeat' (first
    | with_reducible assumption | with_reducible exact Kept.refl _ | with_reducible apply State.chainRequest_kept
    | with_reducible apply State.postReq_kept | with_reducible refine State.raiseCost_kept ?_ ‹_›
    | with_reducible apply State.wr_kept | with_reducible apply kept_ite | with_reducible apply kept_ite1
    | with_reducible apply kept_ite2 | split | with_reducible exact kept_snd ‹_ = _› (by assumption)
    | (with_reducible refine kept_snd ‹_ = (_, _)› ?_) | (with_reducible refine kept_fst ‹_ = (_, _)› ?_)
    | (lift_lets; intro x; first | (refine (fun (hx : Kept s0 x) => ?_) ?_; clear_value x) | clear_value x)
    | (intro x; refine (fun (hx : Kept s0 x) => ?_) ?_; clear_value x) | (intro x; clear_value x) | dsimp only)

theorem State.superseded_kept {s : State} (h : Kept s0 s) (tenant n : Nat) (old : Option SwapReq) : Kept s0 (State.superseded s tenant n old) := by
  unfold State.superseded
  repeat' (first
    | with_reducible assumption | with_reducible exact Kept.refl _ | with_reducible apply State.evt_kept
    | with_reducible apply State.postReq_kept | split)

theorem State.wrChnBank_kept {s : State} (h : Kept s0 s) (tenant n : Nat) (v : Word) : Kept s0 (State.wrChnBank s tenant n v) := by
  unfold State.wrChnBank
  repeat' (first
    | with_reducible assumption | with_reducible exact Kept.refl _ | with_reducible apply State.postReq_kept
    | with_reducible refine State.raiseCost_kept ?_ ‹_› | with_reducible apply State.showChn_kept
    | with_reducible apply State.superseded_kept | with_reducible apply State.wr_kept | with_reducible apply kept_ite
    | with_reducible apply kept_ite1 | with_reducible apply kept_ite2 | split
    | with_reducible exact kept_snd ‹_ = _› (by assumption) | (with_reducible refine kept_snd ‹_ = (_, _)› ?_)
    | (with_reducible refine kept_fst ‹_ = (_, _)› ?_)
    | (lift_lets; intro x; first | (refine (fun (hx : Kept s0 x) => ?_) ?_; clear_value x) | clear_value x)
    | (intro x; refine (fun (hx : Kept s0 x) => ?_) ?_; clear_value x) | (intro x; clear_value x) | dsimp only)

theorem State.wrChnSync_kept {s : State} (h : Kept s0 s) (tenant n : Nat) (v : Word) : Kept s0 (State.wrChnSync s tenant n v) := by
  unfold State.wrChnSync
  repeat' (first
    | with_reducible assumption | with_reducible exact Kept.refl _ | with_reducible apply State.evt_kept
    | with_reducible apply State.wr_kept | with_reducible apply kept_ite | split
    | with_reducible exact kept_snd ‹_ = _› (by assumption) | (with_reducible refine kept_snd ‹_ = (_, _)› ?_)
    | (with_reducible refine kept_fst ‹_ = (_, _)› ?_)
    | (lift_lets; intro x; first | (refine (fun (hx : Kept s0 x) => ?_) ?_; clear_value x) | clear_value x)
    | (intro x; refine (fun (hx : Kept s0 x) => ?_) ?_; clear_value x) | (intro x; clear_value x) | exact id
    | with_reducible exact rfl | with_reducible exact Nat.le_refl _ | with_reducible exact modifyAt_length _ _ _
    | with_reducible exact List.length_map _ | ((with_reducible refine (id ?_ : (_ : Nat) = _)); exact rfl)
    | with_reducible refine Kept.upd ?_ ?_ ?_ ?_ ?_ ?_ ?_ ?_)

theorem State.wrCoef_kept {s : State} (h : Kept s0 s) (n bank i : Nat) (v : Word) : Kept s0 (State.wrCoef s n bank i v) := by
  unfold State.wrCoef
  repeat' (first
    | with_reducible assumption | with_reducible exact Kept.refl _ | with_reducible apply State.ctxMod_kept
    | with_reducible apply State.evt_kept | with_reducible apply kept_ite | with_reducible apply kept_ite1
    | with_reducible apply kept_ite2 | split | with_reducible exact kept_snd ‹_ = _› (by assumption)
    | (with_reducible refine kept_snd ‹_ = (_, _)› ?_) | (with_reducible refine kept_fst ‹_ = (_, _)› ?_)
    | (lift_lets; intro x; first | (refine (fun (hx : Kept s0 x) => ?_) ?_; clear_value x) | clear_value x)
    | (intro x; refine (fun (hx : Kept s0 x) => ?_) ?_; clear_value x) | (intro x; clear_value x) | dsimp only)

theorem State.planSwaps_kept {s : State} (h : Kept s0 s) (tick : Nat) : Kept s0 (State.planSwaps s tick) := by
  unfold State.planSwaps
  repeat' (first
    | with_reducible assumption | with_reducible exact Kept.refl _ | with_reducible apply State.chnMod_kept
    | with_reducible apply State.showChn_kept | with_reducible apply kept_ite | with_reducible apply kept_ite1
    | with_reducible apply kept_ite2 | with_reducible refine kept_foldl _ (fun x a hx => ?_) ?_ | split
    | with_reducible exact kept_snd ‹_ = _› (by assumption) | (with_reducible refine kept_snd ‹_ = (_, _)› ?_)
    | (with_reducible refine kept_fst ‹_ = (_, _)› ?_)
    | (lift_lets; intro x; first | (refine (fun (hx : Kept s0 x) => ?_) ?_; clear_value x) | clear_value x)
    | (intro x; refine (fun (hx : Kept s0 x) => ?_) ?_; clear_value x) | (intro x; clear_value x) | dsimp only)

theorem State.startSwap_kept {s : State} (h : Kept s0 s) (n b : Nat) (q : SwapReq) : Kept s0 (State.startSwap s n b q) := by
  unfold State.startSwap
  repeat' (first
    | with_reducible assumption | with_reducible exact Kept.refl _ | with_reducible apply State.chnMod_kept
    | with_reducible apply State.evt_kept | with_reducible apply kept_ite | with_reducible apply kept_ite1
    | with_reducible apply kept_ite2 | split | with_reducible exact kept_snd ‹_ = _› (by assumption)
    | (with_reducible refine kept_snd ‹_ = (_, _)› ?_) | (with_reducible refine kept_fst ‹_ = (_, _)› ?_)
    | (lift_lets; intro x; first | (refine (fun (hx : Kept s0 x) => ?_) ?_; clear_value x) | clear_value x)
    | (intro x; refine (fun (hx : Kept s0 x) => ?_) ?_; clear_value x) | (intro x; clear_value x))

theorem State.swapsAt_kept {s : State} (h : Kept s0 s) (tenant n b tick : Nat) : Kept s0 (State.swapsAt s tenant n b tick) := by
  unfold State.swapsAt
  repeat' (first
    | with_reducible assumption | with_reducible exact Kept.refl _ | with_reducible apply State.chnMod_kept
    | with_reducible apply State.evt_kept | with_reducible apply State.postReq_kept | with_reducible apply State.showChn_kept
    | with_reducible apply State.startSwap_kept | with_reducible apply kept_ite | split
    | (lift_lets; intro x; first | (refine (fun (hx : Kept s0 x) => ?_) ?_; clear_value x) | clear_value x)
    | (intro x; refine (fun (hx : Kept s0 x) => ?_) ?_; clear_value x) | (intro x; clear_value x) | dsimp only)

theorem State.setNco_kept {s : State} (h : Kept s0 s) (n b ftw ph : Nat) : Kept s0 (State.setNco s n b ftw ph) := by
  unfold State.setNco
  repeat' (first
    | with_reducible assumption | with_reducible exact Kept.refl _ | with_reducible apply State.chnMod_kept
    | with_reducible apply State.ncoMark_kept | with_reducible apply kept_ite | split
    | with_reducible exact kept_snd ‹_ = _› (by assumption) | (with_reducible refine kept_snd ‹_ = (_, _)› ?_)
    | (with_reducible refine kept_fst ‹_ = (_, _)› ?_)
    | (lift_lets; intro x; first | (refine (fun (hx : Kept s0 x) => ?_) ?_; clear_value x) | clear_value x)
    | (intro x; refine (fun (hx : Kept s0 x) => ?_) ?_; clear_value x) | (intro x; clear_value x))

end Sys2Proof.Laws
end

