-- ==== Sys2Proof/Laws/KeptFe.lean ====
section
/-!
SUPPORT. What the operations of Machine/Fe.lean keep.
-/

set_option linter.all false

namespace Sys2Proof.Laws

open Sys2Proof.Machine


variable {s0 : State}

theorem State.portFeMod_kept {s : State} (h : Kept s0 s) (p : Nat) (f : PortFE → PortFE) : Kept s0 (State.portFeMod s p f) := by
  unfold State.portFeMod
  repeat' (first
    | with_reducible assumption | with_reducible exact Kept.refl _ | exact id | with_reducible exact rfl
    | with_reducible exact Nat.le_refl _ | with_reducible exact modifyAt_length _ _ _ | with_reducible exact List.length_map _
    | ((with_reducible refine (id ?_ : (_ : Nat) = _)); exact rfl) | with_reducible refine Kept.upd ?_ ?_ ?_ ?_ ?_ ?_ ?_ ?_)

theorem State.stepSeen_kept {s : State} (h : Kept s0 s) (p : Nat) (k : Option Nat) : Kept s0 (State.stepSeen s p k) := by
  unfold State.stepSeen
  repeat' (first
    | with_reducible assumption | with_reducible exact Kept.refl _ | with_reducible apply kept_ite | split
    | with_reducible exact kept_snd ‹_ = _› (by assumption) | (with_reducible refine kept_snd ‹_ = (_, _)› ?_)
    | (with_reducible refine kept_fst ‹_ = (_, _)› ?_)
    | (lift_lets; intro x; first | (refine (fun (hx : Kept s0 x) => ?_) ?_; clear_value x) | clear_value x)
    | (intro x; refine (fun (hx : Kept s0 x) => ?_) ?_; clear_value x) | (intro x; clear_value x) | exact id
    | with_reducible exact rfl | with_reducible exact Nat.le_refl _ | with_reducible exact modifyAt_length _ _ _
    | with_reducible exact List.length_map _ | ((with_reducible refine (id ?_ : (_ : Nat) = _)); exact rfl)
    | with_reducible refine Kept.upd ?_ ?_ ?_ ?_ ?_ ?_ ?_ ?_)

theorem State.stepGain_kept {s : State} (h : Kept s0 s) (p g flags : Nat) : Kept s0 (State.stepGain s p g flags) := by
  unfold State.stepGain
  repeat' (first
    | with_reducible assumption | with_reducible exact Kept.refl _ | with_reducible apply State.convMark_kept
    | with_reducible apply State.fset_kept | with_reducible apply State.stepSeen_kept | with_reducible apply kept_ite
    | with_reducible refine State.rawTrack_kept ?_ _ _ (fun x0 k0 => ?_) | split
    | with_reducible exact kept_snd ‹_ = _› (by assumption) | (with_reducible refine kept_snd ‹_ = (_, _)› ?_)
    | (with_reducible refine kept_fst ‹_ = (_, _)› ?_)
    | (lift_lets; intro x; first | (refine (fun (hx : Kept s0 x) => ?_) ?_; clear_value x) | clear_value x)
    | (intro x; refine (fun (hx : Kept s0 x) => ?_) ?_; clear_value x) | (intro x; clear_value x))

theorem State.noStep_kept {s : State} (h : Kept s0 s) (p : Nat) : Kept s0 (State.noStep s p) := by
  unfold State.noStep
  repeat' (first
    | with_reducible assumption | with_reducible exact Kept.refl _ | with_reducible apply State.fset_kept
    | with_reducible apply State.fsetB_kept)

theorem State.announce_kept {s : State} (h : Kept s0 s) (p g : Nat) : Kept s0 (State.announce s p g) := by
  unfold State.announce
  repeat' (first
    | with_reducible assumption | with_reducible exact Kept.refl _ | with_reducible apply State.fset_kept
    | with_reducible apply State.fsetB_kept | with_reducible apply State.noStep_kept | with_reducible apply kept_ite | split)

theorem State.judgeBias_kept {s : State} (h : Kept s0 s) (p ua : Nat) : Kept s0 (State.judgeBias s p ua) := by
  unfold State.judgeBias
  repeat' (first
    | with_reducible assumption | with_reducible exact Kept.refl _ | with_reducible apply State.evt_kept
    | with_reducible apply State.fset_kept | with_reducible apply State.portFeMod_kept | with_reducible apply kept_ite | split
    | with_reducible exact kept_snd ‹_ = _› (by assumption) | (with_reducible refine kept_snd ‹_ = (_, _)› ?_)
    | (with_reducible refine kept_fst ‹_ = (_, _)› ?_)
    | (lift_lets; intro x; first | (refine (fun (hx : Kept s0 x) => ?_) ?_; clear_value x) | clear_value x)
    | (intro x; refine (fun (hx : Kept s0 x) => ?_) ?_; clear_value x) | (intro x; clear_value x))

theorem State.judgeGain_kept {s : State} (h : Kept s0 s) (p : Nat) (w : Option (Nat × Nat)) : Kept s0 (State.judgeGain s p w) := by
  unfold State.judgeGain
  repeat' (first
    | with_reducible assumption | with_reducible exact Kept.refl _ | with_reducible apply State.announce_kept
    | with_reducible apply State.convMod_kept | with_reducible apply State.fset_kept | with_reducible apply State.noStep_kept
    | with_reducible apply State.portFeMod_kept | with_reducible apply State.rsetN_kept | with_reducible apply kept_ite
    | with_reducible apply kept_ite1 | with_reducible apply kept_ite2 | split
    | with_reducible exact kept_snd ‹_ = _› (by assumption) | (with_reducible refine kept_snd ‹_ = (_, _)› ?_)
    | (with_reducible refine kept_fst ‹_ = (_, _)› ?_)
    | (lift_lets; intro x; first | (refine (fun (hx : Kept s0 x) => ?_) ?_; clear_value x) | clear_value x)
    | (intro x; refine (fun (hx : Kept s0 x) => ?_) ?_; clear_value x) | (intro x; clear_value x) | dsimp only)

theorem State.feCutoff_kept {s : State} (h : Kept s0 s) (o : CutObs) : Kept s0 (State.feCutoff s o) := by
  unfold State.feCutoff
  repeat' (first
    | with_reducible assumption | with_reducible exact Kept.refl _ | with_reducible apply State.convMod_kept
    | with_reducible apply State.judgeBias_kept | with_reducible apply State.judgeGain_kept | with_reducible apply State.rsetN_kept
    | with_reducible refine kept_foldl _ (fun x a hx => ?_) ?_ | with_reducible exact kept_snd ‹_ = _› (by assumption)
    | (with_reducible refine kept_snd ‹_ = (_, _)› ?_) | (with_reducible refine kept_fst ‹_ = (_, _)› ?_)
    | (lift_lets; intro x; first | (refine (fun (hx : Kept s0 x) => ?_) ?_; clear_value x) | clear_value x)
    | (intro x; refine (fun (hx : Kept s0 x) => ?_) ?_; clear_value x) | (intro x; clear_value x))

theorem State.biasTo_kept {s : State} (h : Kept s0 s) (p : Nat) (high : Bool) (st : Nat) : Kept s0 (State.biasTo s p high st) := by
  unfold State.biasTo
  repeat' (first
    | with_reducible assumption | with_reducible exact Kept.refl _ | with_reducible apply State.convMark_kept
    | with_reducible apply State.fset_kept | with_reducible apply State.portFeMod_kept | with_reducible apply kept_ite | split
    | (lift_lets; intro x; first | (refine (fun (hx : Kept s0 x) => ?_) ?_; clear_value x) | clear_value x)
    | (intro x; refine (fun (hx : Kept s0 x) => ?_) ?_; clear_value x) | (intro x; clear_value x))

theorem State.biasShort_kept {s : State} (h : Kept s0 s) (p : Nat) : Kept s0 (State.biasShort s p) := by
  unfold State.biasShort
  repeat' (first
    | with_reducible assumption | with_reducible exact Kept.refl _ | with_reducible apply State.biasTo_kept
    | with_reducible apply State.evt_kept | with_reducible apply State.portFeMod_kept | with_reducible apply kept_ite | split
    | with_reducible exact kept_snd ‹_ = _› (by assumption) | (with_reducible refine kept_snd ‹_ = (_, _)› ?_)
    | (with_reducible refine kept_fst ‹_ = (_, _)› ?_)
    | (lift_lets; intro x; first | (refine (fun (hx : Kept s0 x) => ?_) ?_; clear_value x) | clear_value x)
    | (intro x; refine (fun (hx : Kept s0 x) => ?_) ?_; clear_value x) | (intro x; clear_value x))

theorem State.biasEn_kept {s : State} (h : Kept s0 s) (p : Nat) (en : Bool) : Kept s0 (State.biasEn s p en) := by
  unfold State.biasEn
  repeat' (first
    | with_reducible assumption | with_reducible exact Kept.refl _ | with_reducible apply State.biasShort_kept
    | with_reducible apply State.biasTo_kept | with_reducible apply State.portFeMod_kept | with_reducible apply kept_ite
    | with_reducible apply kept_ite1 | with_reducible apply kept_ite2 | split
    | with_reducible exact kept_snd ‹_ = _› (by assumption) | (with_reducible refine kept_snd ‹_ = (_, _)› ?_)
    | (with_reducible refine kept_fst ‹_ = (_, _)› ?_)
    | (lift_lets; intro x; first | (refine (fun (hx : Kept s0 x) => ?_) ?_; clear_value x) | clear_value x)
    | (intro x; refine (fun (hx : Kept s0 x) => ?_) ?_; clear_value x) | (intro x; clear_value x) | dsimp only)

theorem execBiasRetry_kept (p : Fin 3) (s : State) : ∃ out, execBiasRetry p s = .next out ∧ Kept s out := by
  refine ⟨_, rfl, ?_⟩
  have h : Kept s s := Kept.refl s
  repeat' (first
    | with_reducible assumption | with_reducible exact Kept.refl _ | with_reducible apply State.at_kept
    | with_reducible apply State.biasTo_kept | with_reducible apply State.evt_kept | with_reducible apply State.portFeMod_kept | split
    | (lift_lets; intro x; first | (refine (fun (hx : Kept s x) => ?_) ?_; clear_value x) | clear_value x)
    | (intro x; refine (fun (hx : Kept s x) => ?_) ?_; clear_value x) | (intro x; clear_value x) | dsimp only)

theorem State.stepDone_kept {s : State} (h : Kept s0 s) (p : Nat) : Kept s0 (State.stepDone s p) := by
  unfold State.stepDone
  repeat' (first
    | with_reducible assumption | with_reducible exact Kept.refl _ | with_reducible apply State.evt_kept
    | with_reducible apply State.noStep_kept | with_reducible apply kept_ite | split
    | with_reducible exact kept_snd ‹_ = _› (by assumption) | (with_reducible refine kept_snd ‹_ = (_, _)› ?_)
    | (with_reducible refine kept_fst ‹_ = (_, _)› ?_)
    | (lift_lets; intro x; first | (refine (fun (hx : Kept s0 x) => ?_) ?_; clear_value x) | clear_value x)
    | (intro x; refine (fun (hx : Kept s0 x) => ?_) ?_; clear_value x) | (intro x; clear_value x))

theorem State.routeTo_kept {s : State} (h : Kept s0 s) (r : Nat) : Kept s0 (State.routeTo s r) := by
  unfold State.routeTo
  repeat' (first
    | with_reducible assumption | with_reducible exact Kept.refl _ | with_reducible apply State.convMark_kept
    | with_reducible apply State.fset_kept | with_reducible apply State.stepDone_kept | with_reducible apply State.stepSeen_kept
    | with_reducible apply kept_ite | with_reducible apply kept_ite1 | with_reducible apply kept_ite2
    | with_reducible refine kept_foldl _ (fun x a hx => ?_) ?_
    | with_reducible refine State.rawTrack_kept ?_ _ _ (fun x0 k0 => ?_) | split
    | with_reducible exact kept_snd ‹_ = _› (by assumption) | (with_reducible refine kept_snd ‹_ = (_, _)› ?_)
    | (with_reducible refine kept_fst ‹_ = (_, _)› ?_)
    | (lift_lets; intro x; first | (refine (fun (hx : Kept s0 x) => ?_) ?_; clear_value x) | clear_value x)
    | (intro x; refine (fun (hx : Kept s0 x) => ?_) ?_; clear_value x) | (intro x; clear_value x) | dsimp only | exact id
    | with_reducible exact rfl | with_reducible exact Nat.le_refl _ | with_reducible exact modifyAt_length _ _ _
    | with_reducible exact List.length_map _ | ((with_reducible refine (id ?_ : (_ : Nat) = _)); exact rfl)
    | with_reducible refine Kept.upd ?_ ?_ ?_ ?_ ?_ ?_ ?_ ?_)

theorem State.preselAt_kept {s : State} (h : Kept s0 s) (p : Nat) : Kept s0 (State.preselAt s p) := by
  unfold State.preselAt
  repeat' (first
    | with_reducible assumption | with_reducible exact Kept.refl _ | with_reducible apply State.convMark_kept
    | with_reducible apply State.evt_kept | with_reducible apply State.fset_kept | with_reducible apply kept_ite | split
    | (lift_lets; intro x; first | (refine (fun (hx : Kept s0 x) => ?_) ?_; clear_value x) | clear_value x)
    | (intro x; refine (fun (hx : Kept s0 x) => ?_) ?_; clear_value x) | (intro x; clear_value x))

theorem State.stepAt_kept {s : State} (h : Kept s0 s) (p : Nat) : Kept s0 (State.stepAt s p) := by
  unfold State.stepAt
  repeat' (first
    | with_reducible assumption | with_reducible exact Kept.refl _ | with_reducible apply State.fsetB_kept
    | with_reducible apply State.stepDone_kept | with_reducible apply State.stepGain_kept | with_reducible apply kept_ite | split
    | with_reducible exact kept_snd ‹_ = _› (by assumption) | (with_reducible refine kept_snd ‹_ = (_, _)› ?_)
    | (with_reducible refine kept_fst ‹_ = (_, _)› ?_)
    | (lift_lets; intro x; first | (refine (fun (hx : Kept s0 x) => ?_) ?_; clear_value x) | clear_value x)
    | (intro x; refine (fun (hx : Kept s0 x) => ?_) ?_; clear_value x) | (intro x; clear_value x))

theorem State.convPower_kept {s : State} (h : Kept s0 s) (grade : Nat) : Kept s0 (State.convPower s grade) := by
  unfold State.convPower
  repeat' (first
    | with_reducible assumption | with_reducible exact Kept.refl _ | with_reducible apply State.convMod_kept
    | with_reducible apply State.convVoidBegin_kept | with_reducible apply kept_ite | with_reducible apply kept_ite1
    | with_reducible apply kept_ite2 | with_reducible refine kept_foldl _ (fun x a hx => ?_) ?_
    | with_reducible refine State.rawTrack_kept ?_ _ _ (fun x0 k0 => ?_) | split
    | with_reducible exact kept_snd ‹_ = _› (by assumption) | (with_reducible refine kept_snd ‹_ = (_, _)› ?_)
    | (with_reducible refine kept_fst ‹_ = (_, _)› ?_)
    | (lift_lets; intro x; first | (refine (fun (hx : Kept s0 x) => ?_) ?_; clear_value x) | clear_value x)
    | (intro x; refine (fun (hx : Kept s0 x) => ?_) ?_; clear_value x) | (intro x; clear_value x) | dsimp only)

theorem execEmergencyTrip_kept (c : Fin 2) (clips : List Nat) (s : State) : ∃ out, execEmergencyTrip c clips s = .next out ∧ Kept s out := by
  refine ⟨_, rfl, ?_⟩
  have h : Kept s s := Kept.refl s
  repeat' (first
    | with_reducible assumption | with_reducible exact Kept.refl _ | with_reducible apply State.at_kept
    | with_reducible apply State.convMod_kept | with_reducible apply State.evt_kept | with_reducible apply kept_ite
    | with_reducible apply kept_ite1 | with_reducible apply kept_ite2 | split
    | with_reducible exact kept_snd ‹_ = _› (by assumption) | (with_reducible refine kept_snd ‹_ = (_, _)› ?_)
    | (with_reducible refine kept_fst ‹_ = (_, _)› ?_)
    | (lift_lets; intro x; first | (refine (fun (hx : Kept s x) => ?_) ?_; clear_value x) | clear_value x)
    | (intro x; refine (fun (hx : Kept s x) => ?_) ?_; clear_value x) | (intro x; clear_value x) | dsimp only)

theorem execEmergencyStep_kept (c : Fin 2) (s : State) : ∃ out, execEmergencyStep c s = .next out ∧ Kept s out := by
  refine ⟨_, rfl, ?_⟩
  have h : Kept s s := Kept.refl s
  repeat' (first
    | with_reducible assumption | with_reducible exact Kept.refl _ | with_reducible apply State.announce_kept
    | with_reducible apply State.at_kept | with_reducible apply State.convMod_kept | with_reducible apply State.evt_kept
    | with_reducible apply State.fsetB_kept | with_reducible apply State.noStep_kept | with_reducible apply State.portFeMod_kept
    | with_reducible apply State.rset64_kept | with_reducible apply State.stepGain_kept | with_reducible apply kept_ite
    | with_reducible apply kept_ite1 | with_reducible apply kept_ite2 | split
    | with_reducible exact kept_snd ‹_ = _› (by assumption) | (with_reducible refine kept_snd ‹_ = (_, _)› ?_)
    | (with_reducible refine kept_fst ‹_ = (_, _)› ?_)
    | (lift_lets; intro x; first | (refine (fun (hx : Kept s x) => ?_) ?_; clear_value x) | clear_value x)
    | (intro x; refine (fun (hx : Kept s x) => ?_) ?_; clear_value x) | (intro x; clear_value x) | dsimp only | exact id
    | with_reducible exact rfl | with_reducible exact Nat.le_refl _ | with_reducible exact modifyAt_length _ _ _
    | with_reducible exact List.length_map _ | ((with_reducible refine (id ?_ : (_ : Nat) = _)); exact rfl)
    | with_reducible refine Kept.upd ?_ ?_ ?_ ?_ ?_ ?_ ?_ ?_)

theorem execLfClip_kept (t : Nat) (s : State) : ∃ out, execLfClip t s = .next out ∧ Kept s out := by
  refine ⟨_, rfl, ?_⟩
  have h : Kept s s := Kept.refl s
  repeat' (first
    | with_reducible assumption | with_reducible exact Kept.refl _ | with_reducible apply State.at_kept
    | with_reducible apply State.convMod_kept | with_reducible apply State.evt_kept | with_reducible apply kept_ite | split
    | (lift_lets; intro x; first | (refine (fun (hx : Kept s x) => ?_) ?_; clear_value x) | clear_value x)
    | (intro x; refine (fun (hx : Kept s x) => ?_) ?_; clear_value x) | (intro x; clear_value x))

theorem State.wrFeGain_kept {s : State} (h : Kept s0 s) (p : Nat) (v : Word) : Kept s0 (State.wrFeGain s p v) := by
  unfold State.wrFeGain
  repeat' (first
    | with_reducible assumption | with_reducible exact Kept.refl _ | with_reducible apply State.fsetB_kept
    | with_reducible apply State.portFeMod_kept | with_reducible apply State.wr_kept)

theorem State.wrFeCtrl_kept {s : State} (h : Kept s0 s) (p : Nat) (v : Word) : Kept s0 (State.wrFeCtrl s p v) := by
  unfold State.wrFeCtrl
  repeat' (first
    | with_reducible assumption | with_reducible exact Kept.refl _ | with_reducible apply State.request_kept
    | with_reducible apply State.wr_kept | with_reducible apply kept_ite | split
    | (lift_lets; intro x; first | (refine (fun (hx : Kept s0 x) => ?_) ?_; clear_value x) | clear_value x)
    | (intro x; refine (fun (hx : Kept s0 x) => ?_) ?_; clear_value x) | (intro x; clear_value x))

theorem State.wrFeBias_kept {s : State} (h : Kept s0 s) (p : Nat) (v : Word) : Kept s0 (State.wrFeBias s p v) := by
  unfold State.wrFeBias
  repeat' (first
    | with_reducible assumption | with_reducible exact Kept.refl _ | with_reducible apply State.request_kept
    | with_reducible apply State.wr_kept)

end Sys2Proof.Laws
end

