-- ==== Sys2Proof/Laws/KeptFst.lean ====
section
/-!
SUPPORT. What the operations of Machine/Fst.lean keep.
-/

set_option linter.all false

namespace Sys2Proof.Laws

open Sys2Proof.Machine


variable {s0 : State}

theorem State.fstMod_kept {s : State} (h : Kept s0 s) (f : FstS → FstS) : Kept s0 (State.fstMod s f) := by
  unfold State.fstMod
  repeat' (first
    | with_reducible assumption | with_reducible exact Kept.refl _ | exact id | with_reducible exact rfl
    | with_reducible exact Nat.le_refl _ | with_reducible exact modifyAt_length _ _ _ | with_reducible exact List.length_map _
    | ((with_reducible refine (id ?_ : (_ : Nat) = _)); exact rfl) | with_reducible refine Kept.upd ?_ ?_ ?_ ?_ ?_ ?_ ?_ ?_)

theorem State.nfWp_kept {s : State} (h : Kept s0 s)  : Kept s0 (State.nfWp s) := by
  unfold State.nfWp
  repeat' (first
    | with_reducible assumption | with_reducible exact Kept.refl _ | with_reducible apply State.fstMod_kept
    | with_reducible apply kept_ite | split | with_reducible exact kept_snd ‹_ = _› (by assumption)
    | (with_reducible refine kept_snd ‹_ = (_, _)› ?_) | (with_reducible refine kept_fst ‹_ = (_, _)› ?_)
    | (lift_lets; intro x; first | (refine (fun (hx : Kept s0 x) => ?_) ?_; clear_value x) | clear_value x)
    | (intro x; refine (fun (hx : Kept s0 x) => ?_) ?_; clear_value x) | (intro x; clear_value x))

theorem State.blkMod_kept {s : State} (h : Kept s0 s) (b : Nat) (f : BlockS → BlockS) : Kept s0 (State.blkMod s b f) := by
  unfold State.blkMod
  repeat' (first
    | with_reducible assumption | with_reducible exact Kept.refl _ | with_reducible apply State.fstMod_kept)

theorem execRetentionAccumulate_kept  (s : State) : ∃ out, execRetentionAccumulate s = .next out ∧ Kept s out := by
  refine ⟨_, rfl, ?_⟩
  have h : Kept s s := Kept.refl s
  repeat' (first
    | with_reducible assumption | with_reducible exact Kept.refl _ | with_reducible apply State.fstMod_kept
    | with_reducible apply State.rset64_kept | with_reducible apply kept_ite | split
    | (lift_lets; intro x; first | (refine (fun (hx : Kept s x) => ?_) ?_; clear_value x) | clear_value x)
    | (intro x; refine (fun (hx : Kept s x) => ?_) ?_; clear_value x) | (intro x; clear_value x))

theorem State.showOldest_kept {s : State} (h : Kept s0 s)  : Kept s0 (State.showOldest s) := by
  unfold State.showOldest
  repeat' (first
    | with_reducible assumption | with_reducible exact Kept.refl _ | with_reducible apply State.rset64_kept
    | with_reducible apply kept_ite | with_reducible apply kept_ite1 | with_reducible apply kept_ite2
    | with_reducible refine kept_foldl _ (fun x a hx => ?_) ?_ | split
    | with_reducible exact kept_snd ‹_ = _› (by assumption) | (with_reducible refine kept_snd ‹_ = (_, _)› ?_)
    | (with_reducible refine kept_fst ‹_ = (_, _)› ?_)
    | (lift_lets; intro x; first | (refine (fun (hx : Kept s0 x) => ?_) ?_; clear_value x) | clear_value x)
    | (intro x; refine (fun (hx : Kept s0 x) => ?_) ?_; clear_value x) | (intro x; clear_value x) | dsimp only)

theorem State.showFst_kept {x : State} (h : Kept s0 x)  : Kept s0 (State.showFst x) := by
  unfold State.showFst
  repeat' (first
    | with_reducible assumption | with_reducible exact Kept.refl _ | with_reducible apply State.rsetN_kept
    | with_reducible apply State.showOldest_kept | with_reducible apply kept_ite | with_reducible apply kept_ite1
    | with_reducible apply kept_ite2 | with_reducible refine kept_foldl _ (fun x a hx => ?_) ?_ | split
    | with_reducible exact kept_snd ‹_ = _› (by assumption) | (with_reducible refine kept_snd ‹_ = (_, _)› ?_)
    | (with_reducible refine kept_fst ‹_ = (_, _)› ?_)
    | (lift_lets; intro x; first | (refine (fun (hx : Kept s0 x) => ?_) ?_; clear_value x) | clear_value x)
    | (intro x; refine (fun (hx : Kept s0 x) => ?_) ?_; clear_value x) | (intro x; clear_value x) | dsimp only)

theorem State.takeBlock_kept {s : State} (h : Kept s0 s) (r : IngotReq) (cold : Bool) (cap : Nat) : Kept s0 (State.takeBlock s r cold cap).1 := by
  unfold State.takeBlock
  repeat' (first
    | with_reducible assumption | with_reducible exact Kept.refl _ | with_reducible apply State.fstMod_kept
    | with_reducible apply State.oscGo_kept | with_reducible apply kept_ite | with_reducible apply kept_ite1
    | with_reducible apply kept_ite2 | split | with_reducible exact kept_snd ‹_ = _› (by assumption)
    | (with_reducible refine kept_snd ‹_ = (_, _)› ?_) | (with_reducible refine kept_fst ‹_ = (_, _)› ?_)
    | (lift_lets; intro x; first | (refine (fun (hx : Kept s0 x) => ?_) ?_; clear_value x) | clear_value x)
    | (intro x; refine (fun (hx : Kept s0 x) => ?_) ?_; clear_value x) | (intro x; clear_value x) | dsimp only)

theorem State.putAt_kept {s : State} (h : Kept s0 s) (b : Nat) (r : IngotReq) (origin : Option Nat) : Kept s0 (State.putAt s b r origin).1 :=
  State.showFst_kept (State.blkMod_kept (State.fstMod_kept h _) _ _)

theorem State.putIngot_kept {s : State} (h : Kept s0 s) (r : IngotReq) (origin : Option Nat) : Kept s0 (State.putIngot s r origin).1 := by
  unfold State.putIngot
  repeat' (first
    | with_reducible assumption | with_reducible exact Kept.refl _ | with_reducible apply State.putAt_kept
    | with_reducible apply State.takeBlock_kept | with_reducible apply kept_ite | with_reducible apply kept_ite1
    | with_reducible apply kept_ite2 | split | with_reducible exact kept_snd ‹_ = _› (by assumption)
    | (with_reducible refine kept_snd ‹_ = (_, _)› ?_) | (with_reducible refine kept_fst ‹_ = (_, _)› ?_)
    | (lift_lets; intro x; first | (refine (fun (hx : Kept s0 x) => ?_) ?_; clear_value x) | clear_value x)
    | (intro x; refine (fun (hx : Kept s0 x) => ?_) ?_; clear_value x) | (intro x; clear_value x) | dsimp only)

theorem State.eraseBlock_kept {s : State} (h : Kept s0 s) (b : Nat) : Kept s0 (State.eraseBlock s b) := by
  unfold State.eraseBlock
  repeat' (first
    | with_reducible assumption | with_reducible exact Kept.refl _ | with_reducible apply State.blkMod_kept
    | with_reducible apply State.fstMod_kept)

theorem State.checkSpares_kept {s : State} (h : Kept s0 s) (native : Bool) : Kept s0 (State.checkSpares s native) := by
  unfold State.checkSpares
  repeat' (first
    | with_reducible assumption | with_reducible exact Kept.refl _ | with_reducible apply State.evt_kept
    | with_reducible apply State.fsetB_kept | with_reducible apply kept_ite | split
    | with_reducible exact kept_snd ‹_ = _› (by assumption) | (with_reducible refine kept_snd ‹_ = (_, _)› ?_)
    | (with_reducible refine kept_fst ‹_ = (_, _)› ?_)
    | (lift_lets; intro x; first | (refine (fun (hx : Kept s0 x) => ?_) ?_; clear_value x) | clear_value x)
    | (intro x; refine (fun (hx : Kept s0 x) => ?_) ?_; clear_value x) | (intro x; clear_value x))

theorem State.retireNow_kept {s : State} (h : Kept s0 s) (b : Nat) : Kept s0 (State.retireNow s b) := by
  unfold State.retireNow
  repeat' (first
    | with_reducible assumption | with_reducible exact Kept.refl _ | with_reducible apply State.blkMod_kept
    | with_reducible apply State.bump_kept | with_reducible apply State.checkSpares_kept
    | with_reducible apply State.evt_kept | with_reducible apply State.fault_kept | with_reducible apply State.showFst_kept
    | with_reducible apply kept_ite | with_reducible apply kept_ite1 | with_reducible apply kept_ite2 | split
    | with_reducible exact kept_snd ‹_ = _› (by assumption) | (with_reducible refine kept_snd ‹_ = (_, _)› ?_)
    | (with_reducible refine kept_fst ‹_ = (_, _)› ?_)
    | (lift_lets; intro x; first | (refine (fun (hx : Kept s0 x) => ?_) ?_; clear_value x) | clear_value x)
    | (intro x; refine (fun (hx : Kept s0 x) => ?_) ?_; clear_value x) | (intro x; clear_value x) | dsimp only)

theorem State.freeUp_kept {s : State} (h : Kept s0 s) (b : Nat) : Kept s0 (State.freeUp s b) := by
  unfold State.freeUp
  repeat' (first
    | with_reducible assumption | with_reducible exact Kept.refl _ | with_reducible apply State.eraseBlock_kept
    | with_reducible apply State.retireNow_kept | with_reducible apply kept_ite | with_reducible apply kept_ite1
    | with_reducible apply kept_ite2 | split | with_reducible exact kept_snd ‹_ = _› (by assumption)
    | (with_reducible refine kept_snd ‹_ = (_, _)› ?_) | (with_reducible refine kept_fst ‹_ = (_, _)› ?_)
    | (lift_lets; intro x; first | (refine (fun (hx : Kept s0 x) => ?_) ?_; clear_value x) | clear_value x)
    | (intro x; refine (fun (hx : Kept s0 x) => ?_) ?_; clear_value x) | (intro x; clear_value x) | dsimp only)

theorem State.dropStale_kept {s : State} (h : Kept s0 s)  : Kept s0 (State.dropStale s) := by
  unfold State.dropStale
  repeat' (first
    | with_reducible assumption | with_reducible exact Kept.refl _ | with_reducible apply State.fstMod_kept
    | with_reducible apply kept_ite | with_reducible apply kept_ite1 | with_reducible apply kept_ite2 | split
    | with_reducible exact kept_snd ‹_ = _› (by assumption) | (with_reducible refine kept_snd ‹_ = (_, _)› ?_)
    | (with_reducible refine kept_fst ‹_ = (_, _)› ?_)
    | (lift_lets; intro x; first | (refine (fun (hx : Kept s0 x) => ?_) ?_; clear_value x) | clear_value x)
    | (intro x; refine (fun (hx : Kept s0 x) => ?_) ?_; clear_value x) | (intro x; clear_value x) | dsimp only)

theorem State.settle_kept {s : State} (h : Kept s0 s)  : Kept s0 (State.settle s) := by
  unfold State.settle
  repeat' (first
    | with_reducible assumption | with_reducible exact Kept.refl _ | with_reducible apply State.dropStale_kept
    | with_reducible apply State.freeUp_kept | with_reducible apply State.retireNow_kept | with_reducible apply kept_ite
    | with_reducible apply kept_ite1 | with_reducible apply kept_ite2
    | with_reducible refine kept_foldl _ (fun x a hx => ?_) ?_ | split
    | with_reducible exact kept_snd ‹_ = _› (by assumption) | (with_reducible refine kept_snd ‹_ = (_, _)› ?_)
    | (with_reducible refine kept_fst ‹_ = (_, _)› ?_)
    | (lift_lets; intro x; first | (refine (fun (hx : Kept s0 x) => ?_) ?_; clear_value x) | clear_value x)
    | (intro x; refine (fun (hx : Kept s0 x) => ?_) ?_; clear_value x) | (intro x; clear_value x) | dsimp only)

theorem State.rootOwner_kept {s : State} (h : Kept s0 s)  : Kept s0 (State.rootOwner s) := by
  unfold State.rootOwner
  repeat' (first
    | with_reducible assumption | with_reducible exact Kept.refl _ | with_reducible apply State.fstMod_kept
    | with_reducible apply kept_ite | split | with_reducible exact kept_snd ‹_ = _› (by assumption)
    | (with_reducible refine kept_snd ‹_ = (_, _)› ?_) | (with_reducible refine kept_fst ‹_ = (_, _)› ?_)
    | (lift_lets; intro x; first | (refine (fun (hx : Kept s0 x) => ?_) ?_; clear_value x) | clear_value x)
    | (intro x; refine (fun (hx : Kept s0 x) => ?_) ?_; clear_value x) | (intro x; clear_value x))

theorem State.labelRoom_kept {s : State} (h : Kept s0 s) (b : Nat) : Kept s0 (State.labelRoom s b) := by
  unfold State.labelRoom
  repeat' (first
    | with_reducible assumption | with_reducible exact Kept.refl _ | with_reducible apply State.freeUp_kept
    | with_reducible apply kept_ite | with_reducible apply kept_ite1 | with_reducible apply kept_ite2 | split
    | with_reducible exact kept_snd ‹_ = _› (by assumption) | (with_reducible refine kept_snd ‹_ = (_, _)› ?_)
    | (with_reducible refine kept_fst ‹_ = (_, _)› ?_)
    | (lift_lets; intro x; first | (refine (fun (hx : Kept s0 x) => ?_) ?_; clear_value x) | clear_value x)
    | (intro x; refine (fun (hx : Kept s0 x) => ?_) ?_; clear_value x) | (intro x; clear_value x) | dsimp only)

theorem State.putRoot_kept {s : State} (h : Kept s0 s) (b : Nat) : Kept s0 (State.putRoot s b) := by
  unfold State.putRoot
  repeat' (first
    | with_reducible assumption | with_reducible exact Kept.refl _ | with_reducible apply State.blkMod_kept
    | with_reducible apply State.fstMod_kept | with_reducible apply kept_ite | with_reducible apply kept_ite1
    | with_reducible apply kept_ite2 | split | with_reducible exact kept_snd ‹_ = _› (by assumption)
    | (with_reducible refine kept_snd ‹_ = (_, _)› ?_) | (with_reducible refine kept_fst ‹_ = (_, _)› ?_)
    | (lift_lets; intro x; first | (refine (fun (hx : Kept s0 x) => ?_) ?_; clear_value x) | clear_value x)
    | (intro x; refine (fun (hx : Kept s0 x) => ?_) ?_; clear_value x) | (intro x; clear_value x) | dsimp only)

theorem State.writeRoot_kept {x : State} (h : Kept s0 x)  : Kept s0 (State.writeRoot x) := by
  unfold State.writeRoot
  repeat' (first
    | with_reducible assumption | with_reducible exact Kept.refl _ | with_reducible apply State.labelRoom_kept
    | with_reducible apply State.putRoot_kept | with_reducible apply State.rootOwner_kept | with_reducible apply kept_ite
    | with_reducible apply kept_ite1 | with_reducible apply kept_ite2 | split
    | with_reducible exact kept_snd ‹_ = _› (by assumption) | (with_reducible refine kept_snd ‹_ = (_, _)› ?_)
    | (with_reducible refine kept_fst ‹_ = (_, _)› ?_)
    | (lift_lets; intro x; first | (refine (fun (hx : Kept s0 x) => ?_) ?_; clear_value x) | clear_value x)
    | (intro x; refine (fun (hx : Kept s0 x) => ?_) ?_; clear_value x) | (intro x; clear_value x) | dsimp only)

theorem State.noSpares_kept {s : State} (h : Kept s0 s)  : Kept s0 (State.noSpares s) := by
  unfold State.noSpares
  repeat' (first
    | with_reducible assumption | with_reducible exact Kept.refl _ | with_reducible apply State.fsetB_kept
    | with_reducible apply State.nfWp_kept | with_reducible apply kept_ite | split
    | with_reducible exact kept_snd ‹_ = _› (by assumption) | (with_reducible refine kept_snd ‹_ = (_, _)› ?_)
    | (with_reducible refine kept_fst ‹_ = (_, _)› ?_)
    | (lift_lets; intro x; first | (refine (fun (hx : Kept s0 x) => ?_) ?_; clear_value x) | clear_value x)
    | (intro x; refine (fun (hx : Kept s0 x) => ?_) ?_; clear_value x) | (intro x; clear_value x))

theorem State.writeMap_kept {s : State} (h : Kept s0 s)  : Kept s0 (State.writeMap s) := by
  unfold State.writeMap
  refine kept_ite h ?_
  lift_lets
  intro lists s1
  refine (fun (h1 : Kept s0 s1) => ?_) (State.fstMod_kept h _)
  clear_value s1
  intro pg parts s2
  refine (fun (h2 : Kept s0 s2) => ?_) (kept_foldl _ (fun x a hx => State.putIngot_kept hx _ _) h1)
  clear_value s2
  exact State.noSpares_kept (State.writeRoot_kept h2)

theorem State.placeIngot_kept {s : State} (h : Kept s0 s) (r : IngotReq) (origin : Option Nat) : Kept s0 (State.placeIngot s r origin).1 := by
  unfold State.placeIngot
  repeat' (first
    | with_reducible assumption | with_reducible exact Kept.refl _ | with_reducible apply State.putIngot_kept
    | with_reducible apply State.writeMap_kept | with_reducible apply kept_ite | with_reducible apply kept_ite1
    | with_reducible apply kept_ite2 | split | with_reducible exact kept_snd ‹_ = _› (by assumption)
    | (with_reducible refine kept_snd ‹_ = (_, _)› ?_) | (with_reducible refine kept_fst ‹_ = (_, _)› ?_)
    | (lift_lets; intro x; first | (refine (fun (hx : Kept s0 x) => ?_) ?_; clear_value x) | clear_value x)
    | (intro x; refine (fun (hx : Kept s0 x) => ?_) ?_; clear_value x) | (intro x; clear_value x) | dsimp only)

theorem State.relocateOne_kept {s : State} (h : Kept s0 s) (i : IngotS) : Kept s0 (State.relocateOne s i) := by
  unfold State.relocateOne
  repeat' (first
    | with_reducible assumption | with_reducible exact Kept.refl _ | with_reducible apply State.dropStale_kept
    | with_reducible apply State.fstMod_kept | with_reducible apply State.placeIngot_kept | with_reducible apply kept_ite
    | with_reducible apply kept_ite1 | with_reducible apply kept_ite2 | split
    | with_reducible exact kept_snd ‹_ = _› (by assumption) | (with_reducible refine kept_snd ‹_ = (_, _)› ?_)
    | (with_reducible refine kept_fst ‹_ = (_, _)› ?_)
    | (lift_lets; intro x; first | (refine (fun (hx : Kept s0 x) => ?_) ?_; clear_value x) | clear_value x)
    | (intro x; refine (fun (hx : Kept s0 x) => ?_) ?_; clear_value x) | (intro x; clear_value x) | dsimp only)

theorem State.relocate_kept {s : State} (h : Kept s0 s) (b : Nat) : Kept s0 (State.relocate s b) := by
  unfold State.relocate
  repeat' (first
    | with_reducible assumption | with_reducible exact Kept.refl _ | with_reducible apply State.relocateOne_kept
    | with_reducible refine kept_foldl _ (fun x a hx => ?_) ?_ | with_reducible exact kept_snd ‹_ = _› (by assumption)
    | (with_reducible refine kept_snd ‹_ = (_, _)› ?_) | (with_reducible refine kept_fst ‹_ = (_, _)› ?_))

theorem State.moveOut_kept {s : State} (h : Kept s0 s) (b : Nat) : Kept s0 (State.moveOut s b) := by
  unfold State.moveOut
  repeat' (first
    | with_reducible assumption | with_reducible exact Kept.refl _ | with_reducible apply State.fstMod_kept
    | with_reducible apply State.relocate_kept | with_reducible apply State.writeRoot_kept | with_reducible apply kept_ite
    | with_reducible apply kept_ite1 | with_reducible apply kept_ite2 | split
    | with_reducible exact kept_snd ‹_ = _› (by assumption) | (with_reducible refine kept_snd ‹_ = (_, _)› ?_)
    | (with_reducible refine kept_fst ‹_ = (_, _)› ?_)
    | (lift_lets; intro x; first | (refine (fun (hx : Kept s0 x) => ?_) ?_; clear_value x) | clear_value x)
    | (intro x; refine (fun (hx : Kept s0 x) => ?_) ?_; clear_value x) | (intro x; clear_value x) | dsimp only)

theorem State.emptyBlock_kept {s : State} (h : Kept s0 s) (b how : Nat) : Kept s0 (State.emptyBlock s b how) := by
  unfold State.emptyBlock
  repeat' (first
    | with_reducible assumption | with_reducible exact Kept.refl _ | with_reducible apply State.blkMod_kept
    | with_reducible apply State.moveOut_kept | with_reducible apply State.settle_kept | with_reducible apply kept_ite
    | with_reducible apply kept_ite1 | with_reducible apply kept_ite2 | split
    | with_reducible exact kept_snd ‹_ = _› (by assumption) | (with_reducible refine kept_snd ‹_ = (_, _)› ?_)
    | (with_reducible refine kept_fst ‹_ = (_, _)› ?_)
    | (lift_lets; intro x; first | (refine (fun (hx : Kept s0 x) => ?_) ?_; clear_value x) | clear_value x)
    | (intro x; refine (fun (hx : Kept s0 x) => ?_) ?_; clear_value x) | (intro x; clear_value x) | dsimp only)

theorem State.emptyMore_kept {s : State} (h : Kept s0 s)  : Kept s0 (State.emptyMore s) := by
  unfold State.emptyMore
  repeat' (first
    | with_reducible assumption | with_reducible exact Kept.refl _ | with_reducible apply State.moveOut_kept
    | with_reducible apply State.relocateOne_kept | with_reducible apply State.settle_kept | with_reducible apply kept_ite
    | with_reducible apply kept_ite1 | with_reducible apply kept_ite2
    | with_reducible refine kept_foldl _ (fun x a hx => ?_) ?_ | split
    | with_reducible exact kept_snd ‹_ = _› (by assumption) | (with_reducible refine kept_snd ‹_ = (_, _)› ?_)
    | (with_reducible refine kept_fst ‹_ = (_, _)› ?_)
    | (lift_lets; intro x; first | (refine (fun (hx : Kept s0 x) => ?_) ?_; clear_value x) | clear_value x)
    | (intro x; refine (fun (hx : Kept s0 x) => ?_) ?_; clear_value x) | (intro x; clear_value x) | dsimp only)

theorem State.relocateLast_kept {s : State} (h : Kept s0 s) (b : Nat) : Kept s0 (State.relocateLast s b) := by
  unfold State.relocateLast
  repeat' (first
    | with_reducible assumption | with_reducible exact Kept.refl _ | with_reducible apply State.relocateOne_kept | split)

theorem State.freeBlock_kept {s : State} (h : Kept s0 s) (z : Nat) : Kept s0 (State.freeBlock s z) := by
  unfold State.freeBlock
  repeat' (first
    | with_reducible assumption | with_reducible exact Kept.refl _ | with_reducible apply State.emptyBlock_kept
    | with_reducible apply State.fstMod_kept | with_reducible apply State.writeMap_kept | with_reducible apply kept_ite
    | with_reducible apply kept_ite1 | with_reducible apply kept_ite2 | split
    | with_reducible exact kept_snd ‹_ = _› (by assumption) | (with_reducible refine kept_snd ‹_ = (_, _)› ?_)
    | (with_reducible refine kept_fst ‹_ = (_, _)› ?_)
    | (lift_lets; intro x; first | (refine (fun (hx : Kept s0 x) => ?_) ?_; clear_value x) | clear_value x)
    | (intro x; refine (fun (hx : Kept s0 x) => ?_) ?_; clear_value x) | (intro x; clear_value x) | dsimp only)

theorem State.dropOldest_kept {s : State} (h : Kept s0 s) (t : Nat) : Kept s0 (State.dropOldest s t) := by
  unfold State.dropOldest
  repeat' (first
    | with_reducible assumption | with_reducible exact Kept.refl _ | with_reducible apply State.freeUp_kept
    | with_reducible apply State.fstMod_kept | with_reducible apply kept_ite | with_reducible apply kept_ite1
    | with_reducible apply kept_ite2 | split | with_reducible exact kept_snd ‹_ = _› (by assumption)
    | (with_reducible refine kept_snd ‹_ = (_, _)› ?_) | (with_reducible refine kept_fst ‹_ = (_, _)› ?_)
    | (lift_lets; intro x; first | (refine (fun (hx : Kept s0 x) => ?_) ?_; clear_value x) | clear_value x)
    | (intro x; refine (fun (hx : Kept s0 x) => ?_) ?_; clear_value x) | (intro x; clear_value x) | dsimp only)

theorem State.reclaim_kept {s : State} (h : Kept s0 s) (r : IngotReq) : Kept s0 (State.reclaim s r) := by
  unfold State.reclaim
  repeat' (first
    | with_reducible assumption | with_reducible exact Kept.refl _ | with_reducible apply State.freeUp_kept
    | with_reducible apply kept_ite | with_reducible apply kept_ite1 | with_reducible apply kept_ite2
    | with_reducible refine kept_foldl _ (fun x a hx => ?_) ?_ | split
    | with_reducible exact kept_snd ‹_ = _› (by assumption) | (with_reducible refine kept_snd ‹_ = (_, _)› ?_)
    | (with_reducible refine kept_fst ‹_ = (_, _)› ?_)
    | (lift_lets; intro x; first | (refine (fun (hx : Kept s0 x) => ?_) ?_; clear_value x) | clear_value x)
    | (intro x; refine (fun (hx : Kept s0 x) => ?_) ?_; clear_value x) | (intro x; clear_value x) | dsimp only)

theorem State.makeRoom_kept {s : State} (h : Kept s0 s) (r : IngotReq) : Kept s0 (State.makeRoom s r) := by
  unfold State.makeRoom
  repeat' (first
    | with_reducible assumption | with_reducible exact Kept.refl _ | with_reducible apply State.dropOldest_kept
    | with_reducible apply State.freeBlock_kept | with_reducible apply State.reclaim_kept | with_reducible apply kept_ite
    | with_reducible apply kept_ite1 | with_reducible apply kept_ite2
    | with_reducible refine kept_foldl _ (fun x a hx => ?_) ?_ | split
    | with_reducible exact kept_snd ‹_ = _› (by assumption) | (with_reducible refine kept_snd ‹_ = (_, _)› ?_)
    | (with_reducible refine kept_fst ‹_ = (_, _)› ?_)
    | (lift_lets; intro x; first | (refine (fun (hx : Kept s0 x) => ?_) ?_; clear_value x) | clear_value x)
    | (intro x; refine (fun (hx : Kept s0 x) => ?_) ?_; clear_value x) | (intro x; clear_value x) | dsimp only)

theorem State.writeIngot_kept {s : State} (h : Kept s0 s) (r : IngotReq) (origin : Option Nat) : Kept s0 (State.writeIngot s r origin).1 := by
  unfold State.writeIngot
  repeat' (first
    | with_reducible assumption | with_reducible exact Kept.refl _ | with_reducible apply State.makeRoom_kept
    | with_reducible apply State.placeIngot_kept | with_reducible apply kept_ite | with_reducible apply kept_ite1
    | with_reducible apply kept_ite2 | split | with_reducible exact kept_snd ‹_ = _› (by assumption)
    | (with_reducible refine kept_snd ‹_ = (_, _)› ?_) | (with_reducible refine kept_fst ‹_ = (_, _)› ?_)
    | (lift_lets; intro x; first | (refine (fun (hx : Kept s0 x) => ?_) ?_; clear_value x) | clear_value x)
    | (intro x; refine (fun (hx : Kept s0 x) => ?_) ?_; clear_value x) | (intro x; clear_value x) | dsimp only)

theorem State.askIngot_kept {s : State} (h : Kept s0 s) (r : IngotReq) : Kept s0 (State.askIngot s r) := by
  unfold State.askIngot
  repeat' (first
    | with_reducible assumption | with_reducible exact Kept.refl _ | with_reducible apply State.fstMod_kept
    | with_reducible apply kept_ite | split
    | (lift_lets; intro x; first | (refine (fun (hx : Kept s0 x) => ?_) ?_; clear_value x) | clear_value x)
    | (intro x; refine (fun (hx : Kept s0 x) => ?_) ?_; clear_value x) | (intro x; clear_value x))

theorem State.noteStamp_kept {s : State} (h : Kept s0 s) (r : IngotReq) : Kept s0 (State.noteStamp s r) := by
  unfold State.noteStamp
  repeat' (first
    | with_reducible assumption | with_reducible exact Kept.refl _ | with_reducible apply State.fstMod_kept
    | with_reducible apply kept_ite | split | with_reducible exact kept_snd ‹_ = _› (by assumption)
    | (with_reducible refine kept_snd ‹_ = (_, _)› ?_) | (with_reducible refine kept_fst ‹_ = (_, _)› ?_)
    | (lift_lets; intro x; first | (refine (fun (hx : Kept s0 x) => ?_) ?_; clear_value x) | clear_value x)
    | (intro x; refine (fun (hx : Kept s0 x) => ?_) ?_; clear_value x) | (intro x; clear_value x))

theorem execIngotCommit_kept (t : Nat) (s : State) : ∃ out, execIngotCommit t s = .next out ∧ Kept s out := by
  refine ⟨_, rfl, ?_⟩
  have h : Kept s s := Kept.refl s
  repeat' (first
    | with_reducible assumption | with_reducible exact Kept.refl _ | with_reducible apply State.at_kept
    | with_reducible apply State.dropStale_kept | with_reducible apply State.emptyMore_kept
    | with_reducible apply State.fstMod_kept | with_reducible apply State.noteStamp_kept
    | with_reducible apply State.writeIngot_kept | with_reducible apply kept_ite | with_reducible apply kept_ite1
    | with_reducible apply kept_ite2 | split | with_reducible exact kept_snd ‹_ = _› (by assumption)
    | (with_reducible refine kept_snd ‹_ = (_, _)› ?_) | (with_reducible refine kept_fst ‹_ = (_, _)› ?_)
    | (lift_lets; intro x; first | (refine (fun (hx : Kept s x) => ?_) ?_; clear_value x) | clear_value x)
    | (intro x; refine (fun (hx : Kept s x) => ?_) ?_; clear_value x) | (intro x; clear_value x) | dsimp only)

theorem State.ingotDurable_kept {s : State} (h : Kept s0 s) (seq : Nat) : Kept s0 (State.ingotDurable s seq) := by
  unfold State.ingotDurable
  repeat' (first
    | with_reducible assumption | with_reducible exact Kept.refl _ | with_reducible apply State.fstMod_kept
    | with_reducible apply State.settle_kept | with_reducible apply kept_ite | with_reducible apply kept_ite1
    | with_reducible apply kept_ite2 | split | with_reducible exact kept_snd ‹_ = _› (by assumption)
    | (with_reducible refine kept_snd ‹_ = (_, _)› ?_) | (with_reducible refine kept_fst ‹_ = (_, _)› ?_)
    | (lift_lets; intro x; first | (refine (fun (hx : Kept s0 x) => ?_) ?_; clear_value x) | clear_value x)
    | (intro x; refine (fun (hx : Kept s0 x) => ?_) ?_; clear_value x) | (intro x; clear_value x) | dsimp only)

theorem State.padNow_kept {s1 : State} (h : Kept s0 s1) (i : IngotS) : Kept s0 (State.padNow s1 i) := by
  unfold State.padNow
  repeat' (first
    | with_reducible assumption | with_reducible exact Kept.refl _ | with_reducible apply State.blkMod_kept
    | with_reducible apply State.fstMod_kept | with_reducible apply State.ingotDurable_kept
    | with_reducible apply State.putAt_kept | with_reducible apply State.relocateOne_kept
    | with_reducible apply State.settle_kept | with_reducible apply kept_ite | with_reducible apply kept_ite1
    | with_reducible apply kept_ite2 | split | with_reducible exact kept_snd ‹_ = _› (by assumption)
    | (with_reducible refine kept_snd ‹_ = (_, _)› ?_) | (with_reducible refine kept_fst ‹_ = (_, _)› ?_)
    | (lift_lets; intro x; first | (refine (fun (hx : Kept s0 x) => ?_) ?_; clear_value x) | clear_value x)
    | (intro x; refine (fun (hx : Kept s0 x) => ?_) ?_; clear_value x) | (intro x; clear_value x) | dsimp only)

theorem State.padIngot_kept {s : State} (h : Kept s0 s) (i : IngotS) : Kept s0 (State.padIngot s i) := by
  unfold State.padIngot
  repeat' (first
    | with_reducible assumption | with_reducible exact Kept.refl _ | with_reducible apply State.at_kept
    | with_reducible apply State.padNow_kept | with_reducible apply kept_ite | with_reducible apply kept_ite1
    | with_reducible apply kept_ite2 | split | with_reducible exact kept_snd ‹_ = _› (by assumption)
    | (with_reducible refine kept_snd ‹_ = (_, _)› ?_) | (with_reducible refine kept_fst ‹_ = (_, _)› ?_)
    | (lift_lets; intro x; first | (refine (fun (hx : Kept s0 x) => ?_) ?_; clear_value x) | clear_value x)
    | (intro x; refine (fun (hx : Kept s0 x) => ?_) ?_; clear_value x) | (intro x; clear_value x) | dsimp only)

theorem State.closeBuf_kept {s : State} (h : Kept s0 s) (b : PortBuf) : Kept s0 (State.closeBuf s b) := by
  unfold State.closeBuf
  repeat' (first
    | with_reducible assumption | with_reducible exact Kept.refl _ | with_reducible apply State.askIngot_kept
    | with_reducible apply State.fstMod_kept | with_reducible apply kept_ite | split
    | with_reducible exact kept_snd ‹_ = _› (by assumption) | (with_reducible refine kept_snd ‹_ = (_, _)› ?_)
    | (with_reducible refine kept_fst ‹_ = (_, _)› ?_)
    | (lift_lets; intro x; first | (refine (fun (hx : Kept s0 x) => ?_) ?_; clear_value x) | clear_value x)
    | (intro x; refine (fun (hx : Kept s0 x) => ?_) ?_; clear_value x) | (intro x; clear_value x))

theorem State.flashRec_kept {s : State} (h : Kept s0 s) (ctx port tenant : Nat) (bulk : Bool) (r : Rec) : Kept s0 (State.flashRec s ctx port tenant bulk r) := by
  unfold State.flashRec
  repeat' (first
    | with_reducible assumption | with_reducible exact Kept.refl _ | with_reducible apply State.closeBuf_kept
    | with_reducible apply State.fstMod_kept | with_reducible apply kept_ite | with_reducible apply kept_ite1
    | with_reducible apply kept_ite2 | split | with_reducible exact kept_snd ‹_ = _› (by assumption)
    | (with_reducible refine kept_snd ‹_ = (_, _)› ?_) | (with_reducible refine kept_fst ‹_ = (_, _)› ?_)
    | (lift_lets; intro x; first | (refine (fun (hx : Kept s0 x) => ?_) ?_; clear_value x) | clear_value x)
    | (intro x; refine (fun (hx : Kept s0 x) => ?_) ?_; clear_value x) | (intro x; clear_value x) | dsimp only)

theorem execIngotFlush_kept (ctx : Fin 256) (q : Fin 16) (s : State) : ∃ out, execIngotFlush ctx q s = .next out ∧ Kept s out := by
  refine ⟨_, rfl, ?_⟩
  have h : Kept s s := Kept.refl s
  repeat' (first
    | with_reducible assumption | with_reducible exact Kept.refl _ | with_reducible apply State.at_kept
    | with_reducible apply State.closeBuf_kept | with_reducible apply kept_ite | with_reducible apply kept_ite1
    | with_reducible apply kept_ite2 | split | with_reducible exact kept_snd ‹_ = _› (by assumption)
    | (with_reducible refine kept_snd ‹_ = (_, _)› ?_) | (with_reducible refine kept_fst ‹_ = (_, _)› ?_)
    | (lift_lets; intro x; first | (refine (fun (hx : Kept s x) => ?_) ?_; clear_value x) | clear_value x)
    | (intro x; refine (fun (hx : Kept s x) => ?_) ?_; clear_value x) | (intro x; clear_value x) | dsimp only)

theorem execXtempDeferTimeout_kept  (s : State) : ∃ out, execXtempDeferTimeout s = .next out ∧ Kept s out := by
  refine ⟨_, rfl, ?_⟩
  have h : Kept s s := Kept.refl s
  repeat' (first
    | with_reducible assumption | with_reducible exact Kept.refl _ | with_reducible apply State.at_kept
    | with_reducible apply State.emptyMore_kept | with_reducible apply State.fstMod_kept | with_reducible apply kept_ite
    | with_reducible apply kept_ite1 | with_reducible apply kept_ite2 | split
    | with_reducible exact kept_snd ‹_ = _› (by assumption) | (with_reducible refine kept_snd ‹_ = (_, _)› ?_)
    | (with_reducible refine kept_fst ‹_ = (_, _)› ?_)
    | (lift_lets; intro x; first | (refine (fun (hx : Kept s x) => ?_) ?_; clear_value x) | clear_value x)
    | (intro x; refine (fun (hx : Kept s x) => ?_) ?_; clear_value x) | (intro x; clear_value x) | dsimp only)

theorem execNandOpFail_kept (b : Nat) (t : Nat) (s : State) : ∃ out, execNandOpFail b t s = .next out ∧ Kept s out := by
  refine ⟨_, rfl, ?_⟩
  have h : Kept s s := Kept.refl s
  repeat' (first
    | with_reducible assumption | with_reducible exact Kept.refl _ | with_reducible apply State.at_kept
    | with_reducible apply State.emptyBlock_kept | with_reducible apply kept_ite | with_reducible apply kept_ite1
    | with_reducible apply kept_ite2 | split | with_reducible exact kept_snd ‹_ = _› (by assumption)
    | (with_reducible refine kept_snd ‹_ = (_, _)› ?_) | (with_reducible refine kept_fst ‹_ = (_, _)› ?_)
    | (lift_lets; intro x; first | (refine (fun (hx : Kept s x) => ?_) ?_; clear_value x) | clear_value x)
    | (intro x; refine (fun (hx : Kept s x) => ?_) ?_; clear_value x) | (intro x; clear_value x) | dsimp only)

theorem State.loseSet_kept {s : State} (h : Kept s0 s) (i : IngotS) : Kept s0 (State.loseSet s i) := by
  unfold State.loseSet
  repeat' (first
    | with_reducible assumption | with_reducible exact Kept.refl _ | with_reducible apply kept_ite
    | with_reducible apply kept_ite1 | with_reducible apply kept_ite2 | split
    | with_reducible exact kept_snd ‹_ = _› (by assumption) | (with_reducible refine kept_snd ‹_ = (_, _)› ?_)
    | (with_reducible refine kept_fst ‹_ = (_, _)› ?_)
    | (lift_lets; intro x; first | (refine (fun (hx : Kept s0 x) => ?_) ?_; clear_value x) | clear_value x)
    | (intro x; refine (fun (hx : Kept s0 x) => ?_) ?_; clear_value x) | (intro x; clear_value x) | dsimp only | exact id
    | exact ⟨rfl, Nat.le_refl _, rfl⟩ | with_reducible exact rfl | with_reducible exact Nat.le_refl _
    | with_reducible exact modifyAt_length _ _ _ | with_reducible exact List.length_map _
    | ((with_reducible refine (id ?_ : (_ : Nat) = _)); exact rfl) | with_reducible refine Kept.upd ?_ ?_ ?_ ?_ ?_ ?_ ?_ ?_)

theorem State.loseIngot_kept {x : State} (h : Kept s0 x) (seq : Nat) : Kept s0 (State.loseIngot x seq) := by
  unfold State.loseIngot
  repeat' (first
    | with_reducible assumption | with_reducible exact Kept.refl _ | with_reducible apply State.bump_kept
    | with_reducible apply State.evt_kept | with_reducible apply State.fault_kept | with_reducible apply State.fstMod_kept
    | with_reducible apply State.loseSet_kept | with_reducible apply kept_ite | with_reducible apply kept_ite1
    | with_reducible apply kept_ite2 | with_reducible refine kept_foldl _ (fun x a hx => ?_) ?_ | split
    | with_reducible exact kept_snd ‹_ = _› (by assumption) | (with_reducible refine kept_snd ‹_ = (_, _)› ?_)
    | (with_reducible refine kept_fst ‹_ = (_, _)› ?_)
    | (lift_lets; intro x; first | (refine (fun (hx : Kept s0 x) => ?_) ?_; clear_value x) | clear_value x)
    | (intro x; refine (fun (hx : Kept s0 x) => ?_) ?_; clear_value x) | (intro x; clear_value x) | dsimp only)

theorem State.countRead_kept {s : State} (h : Kept s0 s) (r : ReadObs) : Kept s0 (State.countRead s r) := by
  unfold State.countRead
  repeat' (first
    | with_reducible assumption | with_reducible exact Kept.refl _ | with_reducible apply State.bump_kept
    | with_reducible apply kept_ite | split
    | (lift_lets; intro x; first | (refine (fun (hx : Kept s0 x) => ?_) ?_; clear_value x) | clear_value x)
    | (intro x; refine (fun (hx : Kept s0 x) => ?_) ?_; clear_value x) | (intro x; clear_value x))

theorem State.icsPause_kept {s : State} (h : Kept s0 s)  : Kept s0 (State.icsPause s) := by
  unfold State.icsPause
  repeat' (first
    | with_reducible assumption | with_reducible exact Kept.refl _ | with_reducible apply State.fstMod_kept
    | with_reducible apply kept_ite | split | with_reducible exact kept_snd ‹_ = _› (by assumption)
    | (with_reducible refine kept_snd ‹_ = (_, _)› ?_) | (with_reducible refine kept_fst ‹_ = (_, _)› ?_)
    | (lift_lets; intro x; first | (refine (fun (hx : Kept s0 x) => ?_) ?_; clear_value x) | clear_value x)
    | (intro x; refine (fun (hx : Kept s0 x) => ?_) ?_; clear_value x) | (intro x; clear_value x))

theorem execNandReadDone_kept (seq : Nat) (t : Nat) (o : CwObs) (s : State) : ∃ out, execNandReadDone seq t o s = .next out ∧ Kept s out := by
  refine ⟨_, rfl, ?_⟩
  have h : Kept s s := Kept.refl s
  repeat' (first
    | with_reducible assumption | with_reducible exact Kept.refl _ | with_reducible apply State.askIngot_kept
    | with_reducible apply State.at_kept | with_reducible apply State.blkMod_kept | with_reducible apply State.countRead_kept
    | with_reducible apply State.fstMod_kept | with_reducible apply State.loseIngot_kept
    | with_reducible apply State.showFst_kept | with_reducible apply kept_ite | with_reducible apply kept_ite1
    | with_reducible apply kept_ite2 | split | with_reducible exact kept_snd ‹_ = _› (by assumption)
    | (with_reducible refine kept_snd ‹_ = (_, _)› ?_) | (with_reducible refine kept_fst ‹_ = (_, _)› ?_)
    | (lift_lets; intro x; first | (refine (fun (hx : Kept s x) => ?_) ?_; clear_value x) | clear_value x)
    | (intro x; refine (fun (hx : Kept s x) => ?_) ?_; clear_value x) | (intro x; clear_value x) | dsimp only)

theorem State.scrubAll_kept {s : State} (h : Kept s0 s)  : Kept s0 (State.scrubAll s) := by
  unfold State.scrubAll
  repeat' (first
    | with_reducible assumption | with_reducible exact Kept.refl _ | with_reducible apply State.fstMod_kept
    | with_reducible apply kept_ite | split | with_reducible exact kept_snd ‹_ = _› (by assumption)
    | (with_reducible refine kept_snd ‹_ = (_, _)› ?_) | (with_reducible refine kept_fst ‹_ = (_, _)› ?_)
    | (lift_lets; intro x; first | (refine (fun (hx : Kept s0 x) => ?_) ?_; clear_value x) | clear_value x)
    | (intro x; refine (fun (hx : Kept s0 x) => ?_) ?_; clear_value x) | (intro x; clear_value x))

theorem execScrubRead_kept (b : Nat) (t : Nat) (ps : List (List CwObs)) (s : State) : ∃ out, execScrubRead b t ps s = .next out ∧ Kept s out := by
  refine ⟨_, rfl, ?_⟩
  have h : Kept s s := Kept.refl s
  repeat' (first
    | with_reducible assumption | with_reducible exact Kept.refl _ | with_reducible apply State.at_kept
    | with_reducible apply State.blkMod_kept | with_reducible apply State.countRead_kept
    | with_reducible apply State.fstMod_kept | with_reducible apply State.loseIngot_kept
    | with_reducible apply State.oscGo_kept | with_reducible apply State.showFst_kept
    | with_reducible apply State.wuDone_kept | with_reducible apply kept_ite | with_reducible apply kept_ite1
    | with_reducible apply kept_ite2 | with_reducible refine kept_foldl _ (fun x a hx => ?_) ?_ | split
    | with_reducible exact kept_snd ‹_ = _› (by assumption) | (with_reducible refine kept_snd ‹_ = (_, _)› ?_)
    | (with_reducible refine kept_fst ‹_ = (_, _)› ?_)
    | (lift_lets; intro x; first | (refine (fun (hx : Kept s x) => ?_) ?_; clear_value x) | clear_value x)
    | (intro x; refine (fun (hx : Kept s x) => ?_) ?_; clear_value x) | (intro x; clear_value x) | dsimp only)

theorem execFstRefresh_kept (b : Nat) (back : List Nat) (t : Nat) (s : State) : ∃ out, execFstRefresh b back t s = .next out ∧ Kept s out := by
  refine ⟨_, rfl, ?_⟩
  have h : Kept s s := Kept.refl s
  repeat' (first
    | with_reducible assumption | with_reducible exact Kept.refl _ | with_reducible apply State.at_kept
    | with_reducible apply State.blkMod_kept | with_reducible apply State.bump_kept
    | with_reducible apply State.emptyBlock_kept | with_reducible apply State.evt_kept
    | with_reducible apply State.showFst_kept | with_reducible apply kept_ite | with_reducible apply kept_ite1
    | with_reducible apply kept_ite2 | with_reducible refine kept_foldl _ (fun x a hx => ?_) ?_ | split
    | with_reducible exact kept_snd ‹_ = _› (by assumption) | (with_reducible refine kept_snd ‹_ = (_, _)› ?_)
    | (with_reducible refine kept_fst ‹_ = (_, _)› ?_)
    | (lift_lets; intro x; first | (refine (fun (hx : Kept s x) => ?_) ?_; clear_value x) | clear_value x)
    | (intro x; refine (fun (hx : Kept s x) => ?_) ?_; clear_value x) | (intro x; clear_value x) | dsimp only)

theorem execWearLevelMove_kept (native : Bool) (t : Nat) (s : State) : ∃ out, execWearLevelMove native t s = .next out ∧ Kept s out := by
  refine ⟨_, rfl, ?_⟩
  have h : Kept s s := Kept.refl s
  repeat' (first
    | with_reducible assumption | with_reducible exact Kept.refl _ | with_reducible apply State.at_kept
    | with_reducible apply State.emptyBlock_kept | with_reducible apply State.fstMod_kept
    | with_reducible apply State.relocateOne_kept | with_reducible apply State.showFst_kept | with_reducible apply kept_ite
    | with_reducible apply kept_ite1 | with_reducible apply kept_ite2
    | with_reducible refine kept_foldl _ (fun x a hx => ?_) ?_ | split
    | with_reducible exact kept_snd ‹_ = _› (by assumption) | (with_reducible refine kept_snd ‹_ = (_, _)› ?_)
    | (with_reducible refine kept_fst ‹_ = (_, _)› ?_)
    | (lift_lets; intro x; first | (refine (fun (hx : Kept s x) => ?_) ?_; clear_value x) | clear_value x)
    | (intro x; refine (fun (hx : Kept s x) => ?_) ?_; clear_value x) | (intro x; clear_value x) | dsimp only)

theorem State.clockStamp_kept {x : State} (h : Kept s0 x) (reason : Nat) : Kept s0 (State.clockStamp x reason) := by
  unfold State.clockStamp
  repeat' (first
    | with_reducible assumption | with_reducible exact Kept.refl _ | with_reducible apply State.askIngot_kept
    | with_reducible apply State.fstMod_kept | with_reducible apply State.oscGo_kept | with_reducible apply kept_ite
    | with_reducible apply kept_ite1 | with_reducible apply kept_ite2 | split
    | with_reducible exact kept_snd ‹_ = _› (by assumption) | (with_reducible refine kept_snd ‹_ = (_, _)› ?_)
    | (with_reducible refine kept_fst ‹_ = (_, _)› ?_)
    | (lift_lets; intro x; first | (refine (fun (hx : Kept s0 x) => ?_) ?_; clear_value x) | clear_value x)
    | (intro x; refine (fun (hx : Kept s0 x) => ?_) ?_; clear_value x) | (intro x; clear_value x) | dsimp only)

theorem execClockStamp_kept (t : Nat) (s : State) : ∃ out, execClockStamp t s = .next out ∧ Kept s out := by
  refine ⟨_, rfl, ?_⟩
  have h : Kept s s := Kept.refl s
  repeat' (first
    | with_reducible assumption | with_reducible exact Kept.refl _ | with_reducible apply State.at_kept
    | with_reducible apply State.clockStamp_kept | with_reducible apply kept_ite | split
    | (lift_lets; intro x; first | (refine (fun (hx : Kept s x) => ?_) ?_; clear_value x) | clear_value x)
    | (intro x; refine (fun (hx : Kept s x) => ?_) ?_; clear_value x) | (intro x; clear_value x))

theorem State.discover_kept {s : State} (h : Kept s0 s) (os : List TgtObs) : Kept s0 (State.discover s os) := by
  unfold State.discover
  repeat' (first
    | with_reducible assumption | with_reducible exact Kept.refl _ | with_reducible apply State.fault_kept
    | with_reducible apply State.fset_kept | with_reducible apply State.fstMod_kept | with_reducible apply State.rsetN_kept
    | with_reducible apply kept_ite | with_reducible apply kept_ite1 | with_reducible apply kept_ite2
    | with_reducible refine kept_foldl _ (fun x a hx => ?_) ?_ | split
    | with_reducible exact kept_snd ‹_ = _› (by assumption) | (with_reducible refine kept_snd ‹_ = (_, _)› ?_)
    | (with_reducible refine kept_fst ‹_ = (_, _)› ?_)
    | (lift_lets; intro x; first | (refine (fun (hx : Kept s0 x) => ?_) ?_; clear_value x) | clear_value x)
    | (intro x; refine (fun (hx : Kept s0 x) => ?_) ?_; clear_value x) | (intro x; clear_value x) | dsimp only)

theorem State.mountRetacc_kept {x : State} (h : Kept s0 x)  : Kept s0 (State.mountRetacc x) := by
  unfold State.mountRetacc
  repeat' (first
    | with_reducible assumption | with_reducible exact Kept.refl _ | with_reducible apply State.evt_kept
    | with_reducible apply State.fsetB_kept | with_reducible apply State.fstMod_kept | with_reducible apply State.oscGo_kept
    | with_reducible apply State.rset64_kept | with_reducible apply State.scrubAll_kept | with_reducible apply kept_ite
    | with_reducible apply kept_ite1 | with_reducible apply kept_ite2 | split
    | with_reducible exact kept_snd ‹_ = _› (by assumption) | (with_reducible refine kept_snd ‹_ = (_, _)› ?_)
    | (with_reducible refine kept_fst ‹_ = (_, _)› ?_)
    | (lift_lets; intro x; first | (refine (fun (hx : Kept s0 x) => ?_) ?_; clear_value x) | clear_value x)
    | (intro x; refine (fun (hx : Kept s0 x) => ?_) ?_; clear_value x) | (intro x; clear_value x) | dsimp only)

theorem State.fromMap_kept {s : State} (h : Kept s0 s)  : Kept s0 (State.fromMap s) := by
  unfold State.fromMap
  repeat' (first
    | with_reducible assumption | with_reducible exact Kept.refl _ | with_reducible apply State.fstMod_kept
    | with_reducible apply kept_ite | with_reducible apply kept_ite1 | with_reducible apply kept_ite2 | split
    | with_reducible exact kept_snd ‹_ = _› (by assumption) | (with_reducible refine kept_snd ‹_ = (_, _)› ?_)
    | (with_reducible refine kept_fst ‹_ = (_, _)› ?_)
    | (lift_lets; intro x; first | (refine (fun (hx : Kept s0 x) => ?_) ?_; clear_value x) | clear_value x)
    | (intro x; refine (fun (hx : Kept s0 x) => ?_) ?_; clear_value x) | (intro x; clear_value x) | dsimp only)

theorem State.forward_kept {s : State} (h : Kept s0 s) (b : Nat) (ps : List (Option (List Byte))) : Kept s0 (State.forward s b ps) := by
  unfold State.forward
  repeat' (first
    | with_reducible assumption | with_reducible exact Kept.refl _ | with_reducible apply State.blkMod_kept
    | with_reducible apply State.evt_kept | with_reducible apply State.freeUp_kept | with_reducible apply State.fstMod_kept
    | with_reducible apply kept_ite | with_reducible apply kept_ite1 | with_reducible apply kept_ite2 | split
    | with_reducible exact kept_snd ‹_ = _› (by assumption) | (with_reducible refine kept_snd ‹_ = (_, _)› ?_)
    | (with_reducible refine kept_fst ‹_ = (_, _)› ?_)
    | (lift_lets; intro x; first | (refine (fun (hx : Kept s0 x) => ?_) ?_; clear_value x) | clear_value x)
    | (intro x; refine (fun (hx : Kept s0 x) => ?_) ?_; clear_value x) | (intro x; clear_value x) | dsimp only)

theorem State.readAgain_kept {s : State} (h : Kept s0 s) (b : Nat) (l : List CwObs) : Kept s0 (State.readAgain s b l) := by
  unfold State.readAgain
  repeat' (first
    | with_reducible assumption | with_reducible exact Kept.refl _ | with_reducible apply State.blkMod_kept
    | with_reducible apply State.countRead_kept | with_reducible apply State.loseIngot_kept
    | with_reducible apply State.relocateLast_kept | with_reducible apply kept_ite | with_reducible apply kept_ite1
    | with_reducible apply kept_ite2 | with_reducible refine kept_foldl _ (fun x a hx => ?_) ?_ | split
    | with_reducible exact kept_snd ‹_ = _› (by assumption) | (with_reducible refine kept_snd ‹_ = (_, _)› ?_)
    | (with_reducible refine kept_fst ‹_ = (_, _)› ?_)
    | (lift_lets; intro x; first | (refine (fun (hx : Kept s0 x) => ?_) ?_; clear_value x) | clear_value x)
    | (intro x; refine (fun (hx : Kept s0 x) => ?_) ?_; clear_value x) | (intro x; clear_value x) | dsimp only)

theorem State.badIngots_kept {s : State} (h : Kept s0 s) (bad : List Nat) (top : Nat) : Kept s0 (State.badIngots s bad top) := by
  unfold State.badIngots
  repeat' (first
    | with_reducible assumption | with_reducible exact Kept.refl _ | with_reducible apply State.blkMod_kept
    | with_reducible apply State.evt_kept | with_reducible apply State.fstMod_kept
    | with_reducible apply State.loseIngot_kept | with_reducible apply kept_ite | with_reducible apply kept_ite1
    | with_reducible apply kept_ite2 | with_reducible refine kept_foldl _ (fun x a hx => ?_) ?_ | split
    | with_reducible exact kept_snd ‹_ = _› (by assumption) | (with_reducible refine kept_snd ‹_ = (_, _)› ?_)
    | (with_reducible refine kept_fst ‹_ = (_, _)› ?_)
    | (lift_lets; intro x; first | (refine (fun (hx : Kept s0 x) => ?_) ?_; clear_value x) | clear_value x)
    | (intro x; refine (fun (hx : Kept s0 x) => ?_) ?_; clear_value x) | (intro x; clear_value x) | dsimp only)

theorem State.countBad_kept {s : State} (h : Kept s0 s)  : Kept s0 (State.countBad s) := by
  unfold State.countBad
  repeat' (first
    | with_reducible assumption | with_reducible exact Kept.refl _ | with_reducible apply State.fset_kept
    | with_reducible apply kept_ite | with_reducible apply kept_ite1 | with_reducible apply kept_ite2 | split
    | with_reducible exact kept_snd ‹_ = _› (by assumption) | (with_reducible refine kept_snd ‹_ = (_, _)› ?_)
    | (with_reducible refine kept_fst ‹_ = (_, _)› ?_)
    | (lift_lets; intro x; first | (refine (fun (hx : Kept s0 x) => ?_) ?_; clear_value x) | clear_value x)
    | (intro x; refine (fun (hx : Kept s0 x) => ?_) ?_; clear_value x) | (intro x; clear_value x) | dsimp only)

theorem State.mount_kept {s : State} (h : Kept s0 s) (bad : List Nat) (fwd : List (Nat × List (Option (List Byte)))) (again : List (Nat × List CwObs)) : Kept s0 (State.mount s bad fwd again) := by
  unfold State.mount
  repeat' (first
    | with_reducible assumption | with_reducible exact Kept.refl _ | with_reducible apply State.badIngots_kept
    | with_reducible apply State.checkSpares_kept | with_reducible apply State.countBad_kept
    | with_reducible apply State.dropStale_kept | with_reducible apply State.evt_kept
    | with_reducible apply State.forward_kept | with_reducible apply State.fromMap_kept
    | with_reducible apply State.fset_kept | with_reducible apply State.fsetB_kept | with_reducible apply State.fstMod_kept
    | with_reducible apply State.mountRetacc_kept | with_reducible apply State.nfWp_kept
    | with_reducible apply State.noSpares_kept | with_reducible apply State.readAgain_kept
    | with_reducible apply State.showFst_kept | with_reducible apply State.writeMap_kept | with_reducible apply kept_ite
    | with_reducible apply kept_ite1 | with_reducible apply kept_ite2
    | with_reducible refine kept_foldl _ (fun x a hx => ?_) ?_ | split
    | with_reducible exact kept_snd ‹_ = _› (by assumption) | (with_reducible refine kept_snd ‹_ = (_, _)› ?_)
    | (with_reducible refine kept_fst ‹_ = (_, _)› ?_)
    | (lift_lets; intro x; first | (refine (fun (hx : Kept s0 x) => ?_) ?_; clear_value x) | clear_value x)
    | (intro x; refine (fun (hx : Kept s0 x) => ?_) ?_; clear_value x) | (intro x; clear_value x) | dsimp only)

theorem State.unbind_kept {s : State} (h : Kept s0 s) : Kept s0 (State.unbind s) :=
  Kept.upd h rfl rfl rfl rfl id (Nat.le_refl _) rfl

theorem State.retireSpent_kept {s : State} (h : Kept s0 s)  : Kept s0 (State.retireSpent s) := by
  unfold State.retireSpent
  repeat' (first
    | with_reducible assumption | with_reducible exact Kept.refl _ | with_reducible apply State.retireNow_kept
    | with_reducible apply kept_ite | with_reducible apply kept_ite1 | with_reducible apply kept_ite2
    | with_reducible refine kept_foldl _ (fun x a hx => ?_) ?_ | split
    | with_reducible exact kept_snd ‹_ = _› (by assumption) | (with_reducible refine kept_snd ‹_ = (_, _)› ?_)
    | (with_reducible refine kept_fst ‹_ = (_, _)› ?_)
    | (lift_lets; intro x; first | (refine (fun (hx : Kept s0 x) => ?_) ?_; clear_value x) | clear_value x)
    | (intro x; refine (fun (hx : Kept s0 x) => ?_) ?_; clear_value x) | (intro x; clear_value x) | dsimp only)

theorem State.format_kept {s : State} (h : Kept s0 s) (zs : List Nat) : Kept s0 (State.format s zs) := by
  unfold State.format
  repeat' (first
    | with_reducible assumption | with_reducible exact Kept.refl _ | with_reducible apply State.checkSpares_kept
    | with_reducible apply State.evt_kept | with_reducible apply State.fset_kept | with_reducible apply State.fsetB_kept
    | with_reducible apply State.fstMod_kept | with_reducible apply State.nfWp_kept
    | with_reducible apply State.retireSpent_kept | with_reducible apply State.showFst_kept
    | with_reducible apply State.unbind_kept | with_reducible apply State.writeMap_kept | with_reducible apply kept_ite
    | with_reducible apply kept_ite1 | with_reducible apply kept_ite2 | split
    | with_reducible exact kept_snd ‹_ = _› (by assumption) | (with_reducible refine kept_snd ‹_ = (_, _)› ?_)
    | (with_reducible refine kept_fst ‹_ = (_, _)› ?_)
    | (lift_lets; intro x; first | (refine (fun (hx : Kept s0 x) => ?_) ?_; clear_value x) | clear_value x)
    | (intro x; refine (fun (hx : Kept s0 x) => ?_) ?_; clear_value x) | (intro x; clear_value x) | dsimp only)

end Sys2Proof.Laws
end

