-- ==== Sys2Proof/Laws/KeptCal.lean ====
section
/-!
SUPPORT. What the operations of Machine/Cal.lean keep.
-/

set_option linter.all false

namespace Sys2Proof.Laws

open Sys2Proof.Machine


variable {s0 : State}

theorem State.calMod_kept {s : State} (h : Kept s0 s) (f : CalS → CalS) : Kept s0 (State.calMod s f) := by
  unfold State.calMod
  repeat' (first
    | with_reducible assumption | with_reducible exact Kept.refl _ | exact id | with_reducible exact rfl
    | with_reducible exact Nat.le_refl _ | with_reducible exact modifyAt_length _ _ _ | with_reducible exact List.length_map _
    | ((with_reducible refine (id ?_ : (_ : Nat) = _)); exact rfl) | with_reducible refine Kept.upd ?_ ?_ ?_ ?_ ?_ ?_ ?_ ?_)

theorem State.estMod_kept {s : State} (h : Kept s0 s) (i : Nat) (f : EstS → EstS) : Kept s0 (State.estMod s i f) := by
  unfold State.estMod
  repeat' (first
    | with_reducible assumption | with_reducible exact Kept.refl _ | with_reducible apply State.calMod_kept)

theorem State.showCal_kept {s : State} (h : Kept s0 s)  : Kept s0 (State.showCal s) := by
  unfold State.showCal
  repeat' (first
    | with_reducible assumption | with_reducible exact Kept.refl _ | with_reducible apply State.fset_kept
    | with_reducible apply State.fsetB_kept | with_reducible apply State.rsetN_kept
    | with_reducible refine kept_foldl _ (fun x a hx => ?_) ?_ | split | with_reducible exact kept_snd ‹_ = _› (by assumption)
    | (with_reducible refine kept_snd ‹_ = (_, _)› ?_) | (with_reducible refine kept_fst ‹_ = (_, _)› ?_)
    | (lift_lets; intro x; first | (refine (fun (hx : Kept s0 x) => ?_) ?_; clear_value x) | clear_value x)
    | (intro x; refine (fun (hx : Kept s0 x) => ?_) ?_; clear_value x) | (intro x; clear_value x) | dsimp only)

theorem State.showDef_kept {s : State} (h : Kept s0 s)  : Kept s0 (State.showDef s) := by
  unfold State.showDef
  repeat' (first
    | with_reducible assumption | with_reducible exact Kept.refl _ | with_reducible apply State.fset_kept
    | with_reducible apply State.fsetB_kept | with_reducible apply kept_ite | split
    | with_reducible exact kept_snd ‹_ = _› (by assumption) | (with_reducible refine kept_snd ‹_ = (_, _)› ?_)
    | (with_reducible refine kept_fst ‹_ = (_, _)› ?_)
    | (lift_lets; intro x; first | (refine (fun (hx : Kept s0 x) => ?_) ?_; clear_value x) | clear_value x)
    | (intro x; refine (fun (hx : Kept s0 x) => ?_) ?_; clear_value x) | (intro x; clear_value x))

theorem State.takeTarget_kept {s : State} (h : Kept s0 s) (i : Nat) (t : List Rat) (byStep : Bool) : Kept s0 (State.takeTarget s i t byStep) := by
  unfold State.takeTarget
  repeat' (first
    | with_reducible assumption | with_reducible exact Kept.refl _ | with_reducible apply State.calMod_kept
    | with_reducible apply kept_ite | split
    | (lift_lets; intro x; first | (refine (fun (hx : Kept s0 x) => ?_) ?_; clear_value x) | clear_value x)
    | (intro x; refine (fun (hx : Kept s0 x) => ?_) ?_; clear_value x) | (intro x; clear_value x))

theorem State.retarget_kept {s : State} (h : Kept s0 s) (byStep : Bool) (but : List Nat) : Kept s0 (State.retarget s byStep but) := by
  unfold State.retarget
  repeat' (first
    | with_reducible assumption | with_reducible exact Kept.refl _ | with_reducible apply State.takeTarget_kept
    | with_reducible apply kept_ite | with_reducible apply kept_ite1 | with_reducible apply kept_ite2
    | with_reducible refine kept_foldl _ (fun x a hx => ?_) ?_ | split | with_reducible exact kept_snd ‹_ = _› (by assumption)
    | (with_reducible refine kept_snd ‹_ = (_, _)› ?_) | (with_reducible refine kept_fst ‹_ = (_, _)› ?_)
    | (lift_lets; intro x; first | (refine (fun (hx : Kept s0 x) => ?_) ?_; clear_value x) | clear_value x)
    | (intro x; refine (fun (hx : Kept s0 x) => ?_) ?_; clear_value x) | (intro x; clear_value x) | dsimp only)

theorem execConverterVoidEnd_kept (c : Fin 2) (s : State) : ∃ out, execConverterVoidEnd c s = .next out ∧ Kept s out := by
  refine ⟨_, rfl, ?_⟩
  have h : Kept s s := Kept.refl s
  repeat' (first
    | with_reducible assumption | with_reducible exact Kept.refl _ | with_reducible apply State.at_kept
    | with_reducible apply State.convMod_kept | with_reducible apply State.convVoidEnd_kept
    | with_reducible refine State.rawTrack_kept ?_ _ _ (fun x0 k0 => ?_) | with_reducible apply State.showCal_kept
    | with_reducible apply State.takeTarget_kept | with_reducible apply kept_ite
    | with_reducible refine kept_foldl _ (fun x a hx => ?_) ?_ | split | with_reducible exact kept_snd ‹_ = _› (by assumption)
    | (with_reducible refine kept_snd ‹_ = (_, _)› ?_) | (with_reducible refine kept_fst ‹_ = (_, _)› ?_)
    | (lift_lets; intro x; first | (refine (fun (hx : Kept s x) => ?_) ?_; clear_value x) | clear_value x)
    | (intro x; refine (fun (hx : Kept s x) => ?_) ?_; clear_value x) | (intro x; clear_value x) | dsimp only)

theorem State.slewStep_kept {s : State} (h : Kept s0 s)  : Kept s0 (State.slewStep s) := by
  unfold State.slewStep
  repeat' (first
    | with_reducible assumption | with_reducible exact Kept.refl _ | with_reducible apply State.calMod_kept
    | with_reducible apply kept_ite | with_reducible refine kept_foldl _ (fun x a hx => ?_) ?_ | split
    | with_reducible exact kept_snd ‹_ = _› (by assumption) | (with_reducible refine kept_snd ‹_ = (_, _)› ?_)
    | (with_reducible refine kept_fst ‹_ = (_, _)› ?_)
    | (lift_lets; intro x; first | (refine (fun (hx : Kept s0 x) => ?_) ?_; clear_value x) | clear_value x)
    | (intro x; refine (fun (hx : Kept s0 x) => ?_) ?_; clear_value x) | (intro x; clear_value x) | dsimp only)

theorem State.reevaluate_kept {s : State} (h : Kept s0 s) (but : List Nat) : Kept s0 (State.reevaluate s but) := by
  unfold State.reevaluate
  repeat' (first
    | with_reducible assumption | with_reducible exact Kept.refl _ | with_reducible apply State.calMod_kept
    | with_reducible apply State.retarget_kept | with_reducible apply kept_ite | split
    | with_reducible exact kept_snd ‹_ = _› (by assumption) | (with_reducible refine kept_snd ‹_ = (_, _)› ?_)
    | (with_reducible refine kept_fst ‹_ = (_, _)› ?_)
    | (lift_lets; intro x; first | (refine (fun (hx : Kept s0 x) => ?_) ?_; clear_value x) | clear_value x)
    | (intro x; refine (fun (hx : Kept s0 x) => ?_) ?_; clear_value x) | (intro x; clear_value x))

theorem State.calBoundary_kept {s : State} (h : Kept s0 s) (tick : Nat) : Kept s0 (State.calBoundary s tick) := by
  unfold State.calBoundary
  repeat' (first
    | with_reducible assumption | with_reducible exact Kept.refl _ | with_reducible apply State.calMod_kept
    | with_reducible apply State.reevaluate_kept | with_reducible apply State.showCal_kept
    | with_reducible apply State.slewStep_kept | with_reducible apply State.takeTarget_kept | with_reducible apply kept_ite
    | with_reducible apply kept_ite1 | with_reducible apply kept_ite2 | with_reducible refine kept_foldl _ (fun x a hx => ?_) ?_
    | split | with_reducible exact kept_snd ‹_ = _› (by assumption) | (with_reducible refine kept_snd ‹_ = (_, _)› ?_)
    | (with_reducible refine kept_fst ‹_ = (_, _)› ?_)
    | (lift_lets; intro x; first | (refine (fun (hx : Kept s0 x) => ?_) ?_; clear_value x) | clear_value x)
    | (intro x; refine (fun (hx : Kept s0 x) => ?_) ?_; clear_value x) | (intro x; clear_value x) | dsimp only)

theorem State.gather_kept {s : State} (h : Kept s0 s) (c : Nat) (m : Option (Nat × Nat × Nat × Nat)) : Kept s0 (State.gather s c m) := by
  unfold State.gather
  repeat' (first
    | with_reducible assumption | with_reducible exact Kept.refl _ | with_reducible apply State.estMod_kept
    | with_reducible apply State.evt_kept | with_reducible apply State.rsetN_kept | with_reducible apply State.showDef_kept
    | with_reducible apply kept_ite | with_reducible apply kept_ite1 | with_reducible apply kept_ite2
    | with_reducible refine kept_foldl _ (fun x a hx => ?_) ?_ | split | with_reducible exact kept_snd ‹_ = _› (by assumption)
    | (with_reducible refine kept_snd ‹_ = (_, _)› ?_) | (with_reducible refine kept_fst ‹_ = (_, _)› ?_)
    | (lift_lets; intro x; first | (refine (fun (hx : Kept s0 x) => ?_) ?_; clear_value x) | clear_value x)
    | (intro x; refine (fun (hx : Kept s0 x) => ?_) ?_; clear_value x) | (intro x; clear_value x) | dsimp only)

theorem State.lnaSeen_kept {s : State} (h : Kept s0 s) (p k : Nat) (r : Rat) : Kept s0 (State.lnaSeen s p k r) := by
  unfold State.lnaSeen
  repeat' (first
    | with_reducible assumption | with_reducible exact Kept.refl _ | with_reducible apply State.calMod_kept
    | with_reducible apply kept_ite | split | with_reducible exact kept_snd ‹_ = _› (by assumption)
    | (with_reducible refine kept_snd ‹_ = (_, _)› ?_) | (with_reducible refine kept_fst ‹_ = (_, _)› ?_)
    | (lift_lets; intro x; first | (refine (fun (hx : Kept s0 x) => ?_) ?_; clear_value x) | clear_value x)
    | (intro x; refine (fun (hx : Kept s0 x) => ?_) ?_; clear_value x) | (intro x; clear_value x))

theorem State.lnaGather_kept {s : State} (h : Kept s0 s) (l : List (Option Rat)) : Kept s0 (State.lnaGather s l) := by
  unfold State.lnaGather
  repeat' (first
    | with_reducible assumption | with_reducible exact Kept.refl _ | with_reducible apply State.lnaSeen_kept
    | with_reducible apply State.stepSeen_kept | with_reducible apply kept_ite | with_reducible apply kept_ite1
    | with_reducible apply kept_ite2 | with_reducible refine kept_foldl _ (fun x a hx => ?_) ?_ | split
    | with_reducible exact kept_snd ‹_ = _› (by assumption) | (with_reducible refine kept_snd ‹_ = (_, _)› ?_)
    | (with_reducible refine kept_fst ‹_ = (_, _)› ?_)
    | (lift_lets; intro x; first | (refine (fun (hx : Kept s0 x) => ?_) ?_; clear_value x) | clear_value x)
    | (intro x; refine (fun (hx : Kept s0 x) => ?_) ?_; clear_value x) | (intro x; clear_value x) | dsimp only)

theorem State.calDiscard_kept {s : State} (h : Kept s0 s) (c : Nat) : Kept s0 (State.calDiscard s c) := by
  unfold State.calDiscard
  repeat' (first
    | with_reducible assumption | with_reducible exact Kept.refl _ | with_reducible apply State.estMod_kept
    | with_reducible refine kept_foldl _ (fun x a hx => ?_) ?_ | with_reducible exact kept_snd ‹_ = _› (by assumption)
    | (with_reducible refine kept_snd ‹_ = (_, _)› ?_) | (with_reducible refine kept_fst ‹_ = (_, _)› ?_))

theorem State.estDue_kept {s : State} (h : Kept s0 s) (i : Nat) (esc : Bool) : Kept s0 (State.estDue s i esc) := by
  unfold State.estDue
  repeat' (first
    | with_reducible assumption | with_reducible exact Kept.refl _ | with_reducible apply State.estMod_kept
    | with_reducible apply State.showDef_kept | with_reducible apply kept_ite | split)

theorem execCalEstimateDue_kept (g : Fin 7) (u : Fin 2) (s : State) : ∃ out, execCalEstimateDue g u s = .next out ∧ Kept s out := by
  refine ⟨_, rfl, ?_⟩
  have h : Kept s s := Kept.refl s
  repeat' (first
    | with_reducible assumption | with_reducible exact Kept.refl _ | with_reducible apply State.estDue_kept
    | with_reducible apply kept_ite | split
    | (lift_lets; intro x; first | (refine (fun (hx : Kept s x) => ?_) ?_; clear_value x) | clear_value x)
    | (intro x; refine (fun (hx : Kept s x) => ?_) ?_; clear_value x) | (intro x; clear_value x))

theorem State.calAccept_kept {s : State} (h : Kept s0 s) (i : Nat) (t : Rat) (v : List Rat) : Kept s0 (State.calAccept s i t v) := by
  unfold State.calAccept
  repeat' (first
    | with_reducible assumption | with_reducible exact Kept.refl _ | with_reducible apply State.calMod_kept
    | with_reducible apply State.estMod_kept | with_reducible apply State.evt_kept | with_reducible apply State.fsetB_kept
    | with_reducible apply State.showCal_kept | with_reducible apply State.showDef_kept | with_reducible apply State.wuDone_kept
    | with_reducible apply kept_ite | with_reducible apply kept_ite1 | with_reducible apply kept_ite2 | split
    | with_reducible exact kept_snd ‹_ = _› (by assumption) | (with_reducible refine kept_snd ‹_ = (_, _)› ?_)
    | (with_reducible refine kept_fst ‹_ = (_, _)› ?_)
    | (lift_lets; intro x; first | (refine (fun (hx : Kept s0 x) => ?_) ?_; clear_value x) | clear_value x)
    | (intro x; refine (fun (hx : Kept s0 x) => ?_) ?_; clear_value x) | (intro x; clear_value x))

theorem State.calReject_kept {s : State} (h : Kept s0 s) (i reason : Nat) : Kept s0 (State.calReject s i reason) := by
  unfold State.calReject
  repeat' (first
    | with_reducible assumption | with_reducible exact Kept.refl _ | with_reducible apply State.bump_kept
    | with_reducible apply State.estMod_kept | with_reducible apply State.evt_kept | with_reducible apply State.fault_kept
    | with_reducible apply State.fset_kept | with_reducible apply State.fsetB_kept | with_reducible apply State.showDef_kept
    | (lift_lets; intro x; first | (refine (fun (hx : Kept s0 x) => ?_) ?_; clear_value x) | clear_value x)
    | (intro x; refine (fun (hx : Kept s0 x) => ?_) ?_; clear_value x) | (intro x; clear_value x))

theorem State.calJudge_kept {s : State} (h : Kept s0 s) (i : Nat) (t : Rat) (v se : List Rat) (single : Bool) : Kept s0 (State.calJudge s i t v se single) := by
  unfold State.calJudge
  repeat' (first
    | with_reducible assumption | with_reducible exact Kept.refl _ | with_reducible apply State.calAccept_kept
    | with_reducible apply State.calReject_kept | with_reducible apply State.estMod_kept | with_reducible apply State.evt_kept
    | with_reducible apply kept_ite | with_reducible apply kept_ite1 | with_reducible apply kept_ite2 | split
    | with_reducible exact kept_snd ‹_ = _› (by assumption) | (with_reducible refine kept_snd ‹_ = (_, _)› ?_)
    | (with_reducible refine kept_fst ‹_ = (_, _)› ?_)
    | (lift_lets; intro x; first | (refine (fun (hx : Kept s0 x) => ?_) ?_; clear_value x) | clear_value x)
    | (intro x; refine (fun (hx : Kept s0 x) => ?_) ?_; clear_value x) | (intro x; clear_value x) | dsimp only)

theorem State.lnaJudge_kept {s : State} (h : Kept s0 s) (p k : Nat) (t : Rat) : Kept s0 (State.lnaJudge s p k t) := by
  unfold State.lnaJudge
  repeat' (first
    | with_reducible assumption | with_reducible exact Kept.refl _ | with_reducible apply State.calJudge_kept
    | with_reducible apply State.calMod_kept | with_reducible apply State.showDef_kept | with_reducible apply kept_ite | split
    | with_reducible exact kept_snd ‹_ = _› (by assumption) | (with_reducible refine kept_snd ‹_ = (_, _)› ?_)
    | (with_reducible refine kept_fst ‹_ = (_, _)› ?_)
    | (lift_lets; intro x; first | (refine (fun (hx : Kept s0 x) => ?_) ?_; clear_value x) | clear_value x)
    | (intro x; refine (fun (hx : Kept s0 x) => ?_) ?_; clear_value x) | (intro x; clear_value x))

theorem execCalEstimateDone_kept (g : Fin 7) (u : Fin 2) (pair : Fin 6) (v se : List Rat) (s : State) : ∃ out, execCalEstimateDone g u pair v se s = .next out ∧ Kept s out := by
  refine ⟨_, rfl, ?_⟩
  have h : Kept s s := Kept.refl s
  repeat' (first
    | with_reducible assumption | with_reducible exact Kept.refl _ | with_reducible apply State.calJudge_kept
    | with_reducible apply State.lnaJudge_kept | with_reducible apply kept_ite | with_reducible apply kept_ite1
    | with_reducible apply kept_ite2 | split | with_reducible exact kept_snd ‹_ = _› (by assumption)
    | (with_reducible refine kept_snd ‹_ = (_, _)› ?_) | (with_reducible refine kept_fst ‹_ = (_, _)› ?_)
    | (lift_lets; intro x; first | (refine (fun (hx : Kept s x) => ?_) ?_; clear_value x) | clear_value x)
    | (intro x; refine (fun (hx : Kept s x) => ?_) ?_; clear_value x) | (intro x; clear_value x) | dsimp only)

theorem execCalAbandon_kept (g : Fin 7) (u : Fin 2) (s : State) : ∃ out, execCalAbandon g u s = .next out ∧ Kept s out := by
  refine ⟨_, rfl, ?_⟩
  have h : Kept s s := Kept.refl s
  repeat' (first
    | with_reducible assumption | with_reducible exact Kept.refl _ | with_reducible apply State.bump_kept
    | with_reducible apply State.estMod_kept | with_reducible apply State.evt_kept | with_reducible apply State.showDef_kept
    | with_reducible apply kept_ite | with_reducible apply kept_ite1 | with_reducible apply kept_ite2 | split
    | with_reducible exact kept_snd ‹_ = _› (by assumption) | (with_reducible refine kept_snd ‹_ = (_, _)› ?_)
    | (with_reducible refine kept_fst ‹_ = (_, _)› ?_)
    | (lift_lets; intro x; first | (refine (fun (hx : Kept s x) => ?_) ?_; clear_value x) | clear_value x)
    | (intro x; refine (fun (hx : Kept s x) => ?_) ?_; clear_value x) | (intro x; clear_value x) | dsimp only)

theorem execCalReevaluate_kept (s : State) : ∃ out, execCalReevaluate s = .next out ∧ Kept s out := by
  refine ⟨_, rfl, ?_⟩
  have h : Kept s s := Kept.refl s
  repeat' (first
    | with_reducible assumption | with_reducible exact Kept.refl _ | with_reducible apply State.reevaluate_kept
    | with_reducible apply State.showCal_kept | with_reducible apply kept_ite | split
    | with_reducible exact kept_snd ‹_ = _› (by assumption) | (with_reducible refine kept_snd ‹_ = (_, _)› ?_)
    | (with_reducible refine kept_fst ‹_ = (_, _)› ?_)
    | (lift_lets; intro x; first | (refine (fun (hx : Kept s x) => ?_) ?_; clear_value x) | clear_value x)
    | (intro x; refine (fun (hx : Kept s x) => ?_) ?_; clear_value x) | (intro x; clear_value x))

theorem State.calIndex_kept {s : State} (h : Kept s0 s)  : Kept s0 (State.calIndex s) := by
  unfold State.calIndex
  repeat' (first
    | with_reducible assumption | with_reducible exact Kept.refl _ | with_reducible apply State.calMod_kept
    | with_reducible apply kept_ite | with_reducible apply kept_ite1 | with_reducible apply kept_ite2
    | with_reducible refine kept_foldl _ (fun x a hx => ?_) ?_ | split | with_reducible exact kept_snd ‹_ = _› (by assumption)
    | (with_reducible refine kept_snd ‹_ = (_, _)› ?_) | (with_reducible refine kept_fst ‹_ = (_, _)› ?_)
    | (lift_lets; intro x; first | (refine (fun (hx : Kept s0 x) => ?_) ?_; clear_value x) | clear_value x)
    | (intro x; refine (fun (hx : Kept s0 x) => ?_) ?_; clear_value x) | (intro x; clear_value x) | dsimp only)

theorem State.calPut_kept {s : State} (h : Kept s0 s) (ok : Bool) (k q : Nat) : Kept s0 (State.calPut s ok k q).1 := by
  unfold State.calPut
  repeat' (first
    | with_reducible assumption | with_reducible exact Kept.refl _ | with_reducible apply State.writeIngot_kept
    | with_reducible apply kept_ite | with_reducible apply kept_ite1 | with_reducible apply kept_ite2 | split
    | with_reducible exact kept_snd ‹_ = _› (by assumption) | (with_reducible refine kept_snd ‹_ = (_, _)› ?_)
    | (with_reducible refine kept_fst ‹_ = (_, _)› ?_)
    | (lift_lets; intro x; first | (refine (fun (hx : Kept s0 x) => ?_) ?_; clear_value x) | clear_value x)
    | (intro x; refine (fun (hx : Kept s0 x) => ?_) ?_; clear_value x) | (intro x; clear_value x))

theorem State.calSettle_kept {s : State} (h : Kept s0 s)  : Kept s0 (State.calSettle s) := by
  unfold State.calSettle
  repeat' (first
    | with_reducible assumption | with_reducible exact Kept.refl _ | with_reducible apply State.calMod_kept
    | with_reducible apply State.evt_kept | with_reducible apply kept_ite | with_reducible apply kept_ite1
    | with_reducible apply kept_ite2 | split | with_reducible exact kept_snd ‹_ = _› (by assumption)
    | (with_reducible refine kept_snd ‹_ = (_, _)› ?_) | (with_reducible refine kept_fst ‹_ = (_, _)› ?_)
    | (lift_lets; intro x; first | (refine (fun (hx : Kept s0 x) => ?_) ?_; clear_value x) | clear_value x)
    | (intro x; refine (fun (hx : Kept s0 x) => ?_) ?_; clear_value x) | (intro x; clear_value x) | dsimp only)

theorem State.calSaved_kept {s : State} (h : Kept s0 s) (ok : Bool) : Kept s0 (State.calSaved s ok) := by
  unfold State.calSaved
  repeat' (first
    | with_reducible assumption | with_reducible exact Kept.refl _ | with_reducible apply State.calMod_kept
    | with_reducible apply State.calPut_kept | with_reducible apply State.calSettle_kept
    | with_reducible apply State.dropStale_kept | with_reducible apply State.evt_kept | with_reducible apply State.fault_kept
    | with_reducible apply kept_ite | with_reducible apply kept_ite1 | with_reducible apply kept_ite2 | split
    | with_reducible exact kept_snd ‹_ = _› (by assumption) | (with_reducible refine kept_snd ‹_ = (_, _)› ?_)
    | (with_reducible refine kept_fst ‹_ = (_, _)› ?_)
    | (lift_lets; intro x; first | (refine (fun (hx : Kept s0 x) => ?_) ?_; clear_value x) | clear_value x)
    | (intro x; refine (fun (hx : Kept s0 x) => ?_) ?_; clear_value x) | (intro x; clear_value x) | dsimp only)

theorem State.calEntrySave_kept {s : State} (h : Kept s0 s)  : Kept s0 (State.calEntrySave s) := by
  unfold State.calEntrySave
  repeat' (first
    | with_reducible assumption | with_reducible exact Kept.refl _ | with_reducible apply State.calSaved_kept
    | with_reducible apply State.free1_kept | with_reducible apply kept_ite | with_reducible apply kept_ite1
    | with_reducible apply kept_ite2 | split | with_reducible exact kept_snd ‹_ = _› (by assumption)
    | (with_reducible refine kept_snd ‹_ = (_, _)› ?_) | (with_reducible refine kept_fst ‹_ = (_, _)› ?_)
    | (lift_lets; intro x; first | (refine (fun (hx : Kept s0 x) => ?_) ?_; clear_value x) | clear_value x)
    | (intro x; refine (fun (hx : Kept s0 x) => ?_) ?_; clear_value x) | (intro x; clear_value x) | dsimp only)

theorem execCalAutosave_kept (ok : Bool) (s : State) : ∃ out, execCalAutosave ok s = .next out ∧ Kept s out := by
  refine ⟨_, rfl, ?_⟩
  have h : Kept s s := Kept.refl s
  repeat' (first
    | with_reducible assumption | with_reducible exact Kept.refl _ | with_reducible apply State.calSaved_kept
    | with_reducible apply kept_ite | split)

theorem State.wrCalCtrl_kept {s : State} (h : Kept s0 s) (v : Word) : Kept s0 (State.wrCalCtrl s v) := by
  unfold State.wrCalCtrl
  repeat' (first
    | with_reducible assumption | with_reducible exact Kept.refl _ | with_reducible apply State.calMod_kept
    | with_reducible apply State.estDue_kept | with_reducible apply State.request_kept | with_reducible apply State.wr_kept
    | with_reducible apply kept_ite | with_reducible apply kept_ite1 | with_reducible apply kept_ite2
    | with_reducible refine kept_foldl _ (fun x a hx => ?_) ?_ | split | with_reducible exact kept_snd ‹_ = _› (by assumption)
    | (with_reducible refine kept_snd ‹_ = (_, _)› ?_) | (with_reducible refine kept_fst ‹_ = (_, _)› ?_)
    | (lift_lets; intro x; first | (refine (fun (hx : Kept s0 x) => ?_) ?_; clear_value x) | clear_value x)
    | (intro x; refine (fun (hx : Kept s0 x) => ?_) ?_; clear_value x) | (intro x; clear_value x) | dsimp only)

theorem State.calFactory_kept {s : State} (h : Kept s0 s)  : Kept s0 (State.calFactory s) := by
  unfold State.calFactory
  repeat' (first
    | with_reducible assumption | with_reducible exact Kept.refl _ | with_reducible apply State.calMod_kept
    | with_reducible apply State.retarget_kept | with_reducible apply State.showCal_kept
    | (lift_lets; intro x; first | (refine (fun (hx : Kept s0 x) => ?_) ?_; clear_value x) | clear_value x)
    | (intro x; refine (fun (hx : Kept s0 x) => ?_) ?_; clear_value x) | (intro x; clear_value x))

theorem State.sweepStart_kept {s : State} (h : Kept s0 s)  : Kept s0 (State.sweepStart s) := by
  unfold State.sweepStart
  repeat' (first
    | with_reducible assumption | with_reducible exact Kept.refl _ | with_reducible apply State.noStep_kept
    | with_reducible apply State.stepGain_kept | with_reducible apply kept_ite
    | with_reducible refine kept_foldl _ (fun x a hx => ?_) ?_ | split | with_reducible exact kept_snd ‹_ = _› (by assumption)
    | (with_reducible refine kept_snd ‹_ = (_, _)› ?_) | (with_reducible refine kept_fst ‹_ = (_, _)› ?_)
    | (lift_lets; intro x; first | (refine (fun (hx : Kept s0 x) => ?_) ?_; clear_value x) | skip)
    | (intro x; refine (fun (hx : Kept s0 x) => ?_) ?_; clear_value x) | (intro x; skip) | exact id | with_reducible exact rfl
    | with_reducible exact Nat.le_refl _ | with_reducible exact modifyAt_length _ _ _ | with_reducible exact List.length_map _
    | ((with_reducible refine (id ?_ : (_ : Nat) = _)); exact rfl) | with_reducible refine Kept.upd ?_ ?_ ?_ ?_ ?_ ?_ ?_ ?_)

theorem execCalSweepHoldEnd_kept (p : Fin 2) (clip : Bool) (peak : Nat) (obs : Option Rat) (s : State) : ∃ out, execCalSweepHoldEnd p clip peak obs s = .next out ∧ Kept s out := by
  refine ⟨_, rfl, ?_⟩
  have h : Kept s s := Kept.refl s
  repeat' (first
    | with_reducible assumption | with_reducible exact Kept.refl _ | with_reducible apply State.at_kept
    | with_reducible apply State.calMod_kept | with_reducible apply State.lnaJudge_kept | with_reducible apply State.lnaSeen_kept
    | with_reducible apply State.noStep_kept | with_reducible apply State.showDef_kept | with_reducible apply State.stepGain_kept
    | with_reducible apply State.stepSeen_kept | with_reducible apply kept_ite | with_reducible apply kept_ite1
    | with_reducible apply kept_ite2 | with_reducible refine kept_foldl _ (fun x a hx => ?_) ?_ | split
    | with_reducible exact kept_snd ‹_ = _› (by assumption) | (with_reducible refine kept_snd ‹_ = (_, _)› ?_)
    | (with_reducible refine kept_fst ‹_ = (_, _)› ?_)
    | (lift_lets; intro x; first | (refine (fun (hx : Kept s x) => ?_) ?_; clear_value x) | clear_value x)
    | (intro x; refine (fun (hx : Kept s x) => ?_) ?_; clear_value x) | (intro x; clear_value x) | dsimp only)

theorem execCalGainSet_kept (p : Fin 2) (s : State) : ∃ out, execCalGainSet p s = .next out ∧ Kept s out := by
  refine ⟨_, rfl, ?_⟩
  have h : Kept s s := Kept.refl s
  repeat' (first
    | with_reducible assumption | with_reducible exact Kept.refl _ | with_reducible apply State.at_kept
    | with_reducible apply State.noStep_kept | with_reducible apply State.stepGain_kept | with_reducible apply kept_ite | split
    | (lift_lets; intro x; first | (refine (fun (hx : Kept s x) => ?_) ?_; clear_value x) | clear_value x)
    | (intro x; refine (fun (hx : Kept s x) => ?_) ?_; clear_value x) | (intro x; clear_value x))

theorem execCalPwrupEnd_kept  (s : State) : ∃ out, execCalPwrupEnd s = .next out ∧ Kept s out := by
  refine ⟨_, rfl, ?_⟩
  have h : Kept s s := Kept.refl s
  repeat' (first
    | with_reducible assumption | with_reducible exact Kept.refl _ | with_reducible apply State.at_kept
    | with_reducible apply State.estMod_kept | with_reducible apply State.evt_kept | with_reducible apply State.fsetB_kept
    | with_reducible apply State.showDef_kept | with_reducible apply kept_ite | with_reducible refine kept_foldl _ (fun x a hx => ?_) ?_
    | split | with_reducible exact kept_snd ‹_ = _› (by assumption) | (with_reducible refine kept_snd ‹_ = (_, _)› ?_)
    | (with_reducible refine kept_fst ‹_ = (_, _)› ?_)
    | (lift_lets; intro x; first | (refine (fun (hx : Kept s x) => ?_) ?_; clear_value x) | clear_value x)
    | (intro x; refine (fun (hx : Kept s x) => ?_) ?_; clear_value x) | (intro x; clear_value x))

theorem State.calStart_kept {s : State} (h : Kept s0 s)  : Kept s0 (State.calStart s) := by
  unfold State.calStart
  repeat' (first
    | with_reducible assumption | with_reducible exact Kept.refl _ | with_reducible apply State.calIndex_kept
    | with_reducible apply State.calMod_kept | with_reducible apply State.estDue_kept | with_reducible apply State.fset_kept
    | with_reducible apply State.fsetB_kept | with_reducible apply State.retarget_kept | with_reducible apply State.showCal_kept
    | with_reducible apply kept_ite | with_reducible apply kept_ite1 | with_reducible apply kept_ite2
    | with_reducible refine kept_foldl _ (fun x a hx => ?_) ?_ | split | with_reducible exact kept_snd ‹_ = _› (by assumption)
    | (with_reducible refine kept_snd ‹_ = (_, _)› ?_) | (with_reducible refine kept_fst ‹_ = (_, _)› ?_)
    | (lift_lets; intro x; first | (refine (fun (hx : Kept s0 x) => ?_) ?_; clear_value x) | clear_value x)
    | (intro x; refine (fun (hx : Kept s0 x) => ?_) ?_; clear_value x) | (intro x; clear_value x) | dsimp only)

end Sys2Proof.Laws
end

