-- ==== Sys2Proof/Laws/KeptStreams.lean ====
section
/-!
SUPPORT. What the operations of Machine/Streams.lean keep.
-/

set_option linter.all false

namespace Sys2Proof.Laws

open Sys2Proof.Machine


variable {s0 : State}

theorem pushGo_kept {r : State × Nat} (h : Kept s0 r.1) (t k n : Nat) : Kept s0 (pushGo t k n r).1 := by
  induction n generalizing r with
  | zero => exact h
  | succ n ih =>
    obtain ⟨s, m⟩ := r
    unfold pushGo
    split
    · exact h
    · refine kept_ite1 h (ih (State.rsetN_kept (kept_ite ?_ ?_) _ _))
      · exact State.dma_kept (State.tenMod_kept h _ _) _ _ _
      · exact State.dma_kept (State.dma_kept (State.tenMod_kept h _ _) _ _ _) _ _ _

theorem State.pump_kept {s : State} (h : Kept s0 s) (t k : Nat) : Kept s0 (State.pump s t k) := by
  unfold State.pump
  repeat' (first
    | with_reducible assumption | with_reducible exact Kept.refl _ | with_reducible apply State.cause_kept
    | with_reducible apply State.dma_kept | with_reducible apply State.tenMod_kept | with_reducible apply pushGo_kept
    | with_reducible apply kept_ite | with_reducible apply kept_ite1 | with_reducible apply kept_ite2 | split
    | with_reducible exact kept_snd ‹_ = _› (by assumption) | (with_reducible refine kept_snd ‹_ = (_, _)› ?_)
    | (with_reducible refine kept_fst ‹_ = (_, _)› ?_)
    | (lift_lets; intro x; first | (refine (fun (hx : Kept s0 x) => ?_) ?_; clear_value x) | clear_value x)
    | (intro x; refine (fun (hx : Kept s0 x) => ?_) ?_; clear_value x) | (intro x; clear_value x) | dsimp only)

theorem State.pumpPassage_kept {s : State} (h : Kept s0 s)  : Kept s0 (State.pumpPassage s) := by
  unfold State.pumpPassage
  repeat' (first
    | with_reducible assumption | with_reducible exact Kept.refl _ | with_reducible apply State.pump_kept
    | with_reducible refine kept_foldl _ (fun x a hx => ?_) ?_ | with_reducible exact kept_snd ‹_ = _› (by assumption)
    | (with_reducible refine kept_snd ‹_ = (_, _)› ?_) | (with_reducible refine kept_fst ‹_ = (_, _)› ?_))

theorem State.streamAdd_kept {s : State} (h : Kept s0 s) (t k : Nat) (src : Nat × Nat) (b : List Byte) : Kept s0 (State.streamAdd s t k src b) := by
  unfold State.streamAdd
  repeat' (first
    | with_reducible assumption | with_reducible exact Kept.refl _ | with_reducible apply State.pump_kept
    | with_reducible apply State.tenMod_kept)

theorem takeEntries_kept {s : State} (h : Kept s0 s) (t k n most : Nat) : Kept s0 (takeEntries t k n most s).2.2 := by
  induction n generalizing s most with
  | zero => exact h
  | succ n ih =>
    unfold takeEntries
    split
    · exact h
    · split
      · exact h
      · exact ih (State.tenMod_kept h _ _) _

end Sys2Proof.Laws
end

