-- ==== Sys2Proof/Laws/KeptWit.lean ====
section
/-!
SUPPORT. What the operations of Machine/Wit.lean keep.
-/

set_option linter.all false

namespace Sys2Proof.Laws

open Sys2Proof.Machine


variable {s0 : State}

theorem State.witMod_kept {s : State} (h : Kept s0 s) (f : WitS → WitS) : Kept s0 (State.witMod s f) := by
  unfold State.witMod
  repeat' (first
    | with_reducible assumption | with_reducible exact Kept.refl _ | exact id | with_reducible exact rfl
    | with_reducible exact Nat.le_refl _ | with_reducible exact modifyAt_length _ _ _ | with_reducible exact List.length_map _
    | ((with_reducible refine (id ?_ : (_ : Nat) = _)); exact rfl) | with_reducible refine Kept.upd ?_ ?_ ?_ ?_ ?_ ?_ ?_ ?_)

theorem State.showWit_kept {s : State} (h : Kept s0 s)  : Kept s0 (State.showWit s) := by
  unfold State.showWit
  repeat' (first
    | with_reducible assumption | with_reducible exact Kept.refl _ | with_reducible apply State.fset_kept
    | with_reducible apply State.fsetB_kept
    | (lift_lets; intro x; first | (refine (fun (hx : Kept s0 x) => ?_) ?_; clear_value x) | clear_value x)
    | (intro x; refine (fun (hx : Kept s0 x) => ?_) ?_; clear_value x) | (intro x; clear_value x))

theorem State.stage_kept {s : State} (h : Kept s0 s) (r : WitRec) : Kept s0 (State.stage s r) := by
  unfold State.stage
  repeat' (first
    | with_reducible assumption | with_reducible exact Kept.refl _ | with_reducible apply State.showWit_kept
    | with_reducible apply State.witMod_kept)

theorem State.witSubmit_kept {s : State} (h : Kept s0 s) (r : Rec) : Kept s0 (State.witSubmit s r) := by
  unfold State.witSubmit
  repeat' (first
    | with_reducible assumption | with_reducible exact Kept.refl _ | with_reducible apply State.bump_kept
    | with_reducible apply State.evt_kept | with_reducible apply State.witMod_kept | with_reducible apply kept_ite | split
    | (lift_lets; intro x; first | (refine (fun (hx : Kept s0 x) => ?_) ?_; clear_value x) | clear_value x)
    | (intro x; refine (fun (hx : Kept s0 x) => ?_) ?_; clear_value x) | (intro x; clear_value x))

theorem State.setNextRef_kept {s : State} (h : Kept s0 s) (n : Nat) : Kept s0 (State.setNextRef s n) := by
  unfold State.setNextRef
  repeat' (first
    | with_reducible assumption | with_reducible exact Kept.refl _ | with_reducible apply State.rset64_kept)

theorem State.freshRef_kept {s : State} (h : Kept s0 s)  : Kept s0 (State.freshRef s) := by
  unfold State.freshRef
  repeat' (first
    | with_reducible assumption | with_reducible exact Kept.refl _ | with_reducible apply State.setNextRef_kept
    | with_reducible apply kept_ite | with_reducible apply kept_ite1 | with_reducible apply kept_ite2 | split
    | with_reducible exact kept_snd ‹_ = _› (by assumption) | (with_reducible refine kept_snd ‹_ = (_, _)› ?_)
    | (with_reducible refine kept_fst ‹_ = (_, _)› ?_)
    | (lift_lets; intro x; first | (refine (fun (hx : Kept s0 x) => ?_) ?_; clear_value x) | clear_value x)
    | (intro x; refine (fun (hx : Kept s0 x) => ?_) ?_; clear_value x) | (intro x; clear_value x) | dsimp only)

theorem State.keepRef_kept {s : State} (h : Kept s0 s)  : Kept s0 (State.keepRef s) := by
  unfold State.keepRef
  repeat' (first
    | with_reducible assumption | with_reducible exact Kept.refl _ | with_reducible apply State.freshRef_kept
    | with_reducible apply kept_ite | with_reducible apply kept_ite1 | with_reducible apply kept_ite2 | split
    | with_reducible exact kept_snd ‹_ = _› (by assumption) | (with_reducible refine kept_snd ‹_ = (_, _)› ?_)
    | (with_reducible refine kept_fst ‹_ = (_, _)› ?_)
    | (lift_lets; intro x; first | (refine (fun (hx : Kept s0 x) => ?_) ?_; clear_value x) | clear_value x)
    | (intro x; refine (fun (hx : Kept s0 x) => ?_) ?_; clear_value x) | (intro x; clear_value x) | dsimp only)

theorem State.wrWitCtrl_kept {s : State} (h : Kept s0 s) (v : Word) : Kept s0 (State.wrWitCtrl s v) := by
  unfold State.wrWitCtrl
  repeat' (first
    | with_reducible assumption | with_reducible exact Kept.refl _ | with_reducible apply State.freshRef_kept
    | with_reducible apply State.wr_kept | with_reducible apply kept_ite | with_reducible apply kept_ite1
    | with_reducible apply kept_ite2 | split | with_reducible exact kept_snd ‹_ = _› (by assumption)
    | (with_reducible refine kept_snd ‹_ = (_, _)› ?_) | (with_reducible refine kept_fst ‹_ = (_, _)› ?_)
    | (lift_lets; intro x; first | (refine (fun (hx : Kept s0 x) => ?_) ?_; clear_value x) | clear_value x)
    | (intro x; refine (fun (hx : Kept s0 x) => ?_) ?_; clear_value x) | (intro x; clear_value x) | dsimp only)

theorem State.obsBegin_kept {s : State} (h : Kept s0 s)  : Kept s0 (State.obsBegin s) := by
  unfold State.obsBegin
  repeat' (first
    | with_reducible assumption | with_reducible exact Kept.refl _ | with_reducible apply State.setNextRef_kept
    | with_reducible apply State.witMod_kept)

theorem execObsReference_kept  (s : State) : ∃ out, execObsReference s = .next out ∧ Kept s out := by
  refine ⟨_, rfl, ?_⟩
  have h : Kept s s := Kept.refl s
  repeat' (first
    | with_reducible assumption | with_reducible exact Kept.refl _ | with_reducible apply State.at_kept
    | with_reducible apply State.raiseCue_kept | with_reducible apply State.setNextRef_kept | with_reducible apply State.witMod_kept
    | with_reducible apply kept_ite | with_reducible refine kept_foldl _ (fun x a hx => ?_) ?_ | split
    | with_reducible exact kept_snd ‹_ = _› (by assumption) | (with_reducible refine kept_snd ‹_ = (_, _)› ?_)
    | (with_reducible refine kept_fst ‹_ = (_, _)› ?_)
    | (lift_lets; intro x; first | (refine (fun (hx : Kept s x) => ?_) ?_; clear_value x) | clear_value x)
    | (intro x; refine (fun (hx : Kept s x) => ?_) ?_; clear_value x) | (intro x; clear_value x) | dsimp only)

theorem execObsIntervalClose_kept  (s : State) : ∃ out, execObsIntervalClose s = .next out ∧ Kept s out := by
  refine ⟨_, rfl, ?_⟩
  have h : Kept s s := Kept.refl s
  repeat' (first
    | with_reducible assumption | with_reducible exact Kept.refl _ | with_reducible apply State.at_kept
    | with_reducible apply State.bump_kept | with_reducible apply State.bumpBy_kept | with_reducible apply State.evt_kept
    | with_reducible apply State.stage_kept | with_reducible apply State.witMod_kept | with_reducible apply kept_ite
    | with_reducible refine kept_foldl _ (fun x a hx => ?_) ?_ | split | with_reducible exact kept_snd ‹_ = _› (by assumption)
    | (with_reducible refine kept_snd ‹_ = (_, _)› ?_) | (with_reducible refine kept_fst ‹_ = (_, _)› ?_)
    | (lift_lets; intro x; first | (refine (fun (hx : Kept s x) => ?_) ?_; clear_value x) | skip)
    | (intro x; refine (fun (hx : Kept s x) => ?_) ?_; clear_value x) | (intro x; skip) | dsimp only | exact id
    | with_reducible exact rfl | with_reducible exact Nat.le_refl _ | with_reducible exact modifyAt_length _ _ _
    | with_reducible exact List.length_map _ | ((with_reducible refine (id ?_ : (_ : Nat) = _)); exact rfl)
    | with_reducible refine Kept.upd ?_ ?_ ?_ ?_ ?_ ?_ ?_ ?_)

theorem State.witEventAt_kept {s : State} (h : Kept s0 s) (code u : Nat) (time : WitTime) (bkp : Option (Nat × Nat)) (data : List Byte) (tenant : Nat) (q : Option WitReq) : Kept s0 (State.witEventAt s code u time bkp data tenant q) := by
  unfold State.witEventAt
  repeat' (first
    | with_reducible assumption | with_reducible exact Kept.refl _ | with_reducible apply State.evt_kept
    | with_reducible apply State.witMod_kept | with_reducible apply kept_ite | with_reducible apply kept_ite1
    | with_reducible apply kept_ite2 | split | with_reducible exact kept_snd ‹_ = _› (by assumption)
    | (with_reducible refine kept_snd ‹_ = (_, _)› ?_) | (with_reducible refine kept_fst ‹_ = (_, _)› ?_)
    | (lift_lets; intro x; first | (refine (fun (hx : Kept s0 x) => ?_) ?_; clear_value x) | clear_value x)
    | (intro x; refine (fun (hx : Kept s0 x) => ?_) ?_; clear_value x) | (intro x; clear_value x) | dsimp only)

theorem State.witEvent_kept {s : State} (h : Kept s0 s) (code u : Nat) (bkp : Option (Nat × Nat)) (data : List Byte) (tenant : Nat) (q : Option WitReq) : Kept s0 (State.witEvent s code u bkp data tenant q) := by
  unfold State.witEvent
  repeat' (first
    | with_reducible assumption | with_reducible exact Kept.refl _ | with_reducible apply State.witEventAt_kept
    | with_reducible apply kept_ite | with_reducible apply kept_ite1 | with_reducible apply kept_ite2 | split
    | with_reducible exact kept_snd ‹_ = _› (by assumption) | (with_reducible refine kept_snd ‹_ = (_, _)› ?_)
    | (with_reducible refine kept_fst ‹_ = (_, _)› ?_)
    | (lift_lets; intro x; first | (refine (fun (hx : Kept s0 x) => ?_) ?_; clear_value x) | clear_value x)
    | (intro x; refine (fun (hx : Kept s0 x) => ?_) ?_; clear_value x) | (intro x; clear_value x) | dsimp only)

theorem State.witEvt_kept {s : State} (h : Kept s0 s) (code u : Nat) : Kept s0 (State.witEvt s code u) := by
  unfold State.witEvt
  repeat' (first
    | with_reducible assumption | with_reducible exact Kept.refl _ | with_reducible apply State.witEvent_kept)

theorem State.stageEvt_kept {s : State} (h : Kept s0 s) (r : WitRec) (u : Nat) : Kept s0 (State.stageEvt s r u) := by
  unfold State.stageEvt
  repeat' (first
    | with_reducible assumption | with_reducible exact Kept.refl _ | with_reducible apply State.evt_kept
    | with_reducible apply State.stage_kept | with_reducible apply kept_ite | with_reducible apply kept_ite1
    | with_reducible apply kept_ite2 | split | with_reducible exact kept_snd ‹_ = _› (by assumption)
    | (with_reducible refine kept_snd ‹_ = (_, _)› ?_) | (with_reducible refine kept_fst ‹_ = (_, _)› ?_)
    | (lift_lets; intro x; first | (refine (fun (hx : Kept s0 x) => ?_) ?_; clear_value x) | clear_value x)
    | (intro x; refine (fun (hx : Kept s0 x) => ?_) ?_; clear_value x) | (intro x; clear_value x) | dsimp only)

theorem execEvtCoalesceClose_kept  (s : State) : ∃ out, execEvtCoalesceClose s = .next out ∧ Kept s out := by
  refine ⟨_, rfl, ?_⟩
  have h : Kept s s := Kept.refl s
  repeat' (first
    | with_reducible assumption | with_reducible exact Kept.refl _ | with_reducible apply State.at_kept
    | with_reducible apply State.stageEvt_kept | with_reducible apply State.witMod_kept | with_reducible apply kept_ite
    | with_reducible apply kept_ite1 | with_reducible apply kept_ite2 | split
    | with_reducible exact kept_snd ‹_ = _› (by assumption) | (with_reducible refine kept_snd ‹_ = (_, _)› ?_)
    | (with_reducible refine kept_fst ‹_ = (_, _)› ?_)
    | (lift_lets; intro x; first | (refine (fun (hx : Kept s x) => ?_) ?_; clear_value x) | clear_value x)
    | (intro x; refine (fun (hx : Kept s x) => ?_) ?_; clear_value x) | (intro x; clear_value x) | dsimp only)

theorem State.witStep_kept {s : State} (h : Kept s0 s) (step : Rat) (src used : Nat) : Kept s0 (State.witStep s step src used) := by
  unfold State.witStep
  repeat' (first
    | with_reducible assumption | with_reducible exact Kept.refl _ | with_reducible apply State.stage_kept
    | with_reducible apply kept_ite | split)

theorem State.showBytes_kept {s : State} (h : Kept s0 s) (a : Nat → Nat) (l : List Byte) (n : Nat) : Kept s0 (State.showBytes s a l n) := by
  unfold State.showBytes
  repeat' (first
    | with_reducible assumption | with_reducible exact Kept.refl _ | with_reducible apply State.rsetN_kept
    | with_reducible refine kept_foldl _ (fun x a hx => ?_) ?_ | with_reducible exact kept_snd ‹_ = _› (by assumption)
    | (with_reducible refine kept_snd ‹_ = (_, _)› ?_) | (with_reducible refine kept_fst ‹_ = (_, _)› ?_))

theorem State.showKeys_kept {s : State} (h : Kept s0 s)  : Kept s0 (State.showKeys s) := by
  unfold State.showKeys
  repeat' (first
    | with_reducible assumption | with_reducible exact Kept.refl _ | with_reducible apply State.fsetB_kept
    | with_reducible apply State.rset64_kept | with_reducible apply State.rsetN_kept | with_reducible apply State.showBytes_kept
    | with_reducible refine kept_foldl _ (fun x a hx => ?_) ?_ | split | with_reducible exact kept_snd ‹_ = _› (by assumption)
    | (with_reducible refine kept_snd ‹_ = (_, _)› ?_) | (with_reducible refine kept_fst ‹_ = (_, _)› ?_)
    | (lift_lets; intro x; first | (refine (fun (hx : Kept s0 x) => ?_) ?_; clear_value x) | clear_value x)
    | (intro x; refine (fun (hx : Kept s0 x) => ?_) ?_; clear_value x) | (intro x; clear_value x) | dsimp only)

theorem State.newPub_kept {s : State} (h : Kept s0 s)  : Kept s0 (State.newPub s).2 := by
  unfold State.newPub
  repeat' (first
    | with_reducible assumption | with_reducible exact Kept.refl _ | with_reducible apply State.free1_kept | split
    | with_reducible exact kept_snd ‹_ = _› (by assumption) | (with_reducible refine kept_snd ‹_ = (_, _)› ?_)
    | (with_reducible refine kept_fst ‹_ = (_, _)› ?_)
    | (lift_lets; intro x; first | (refine (fun (hx : Kept s0 x) => ?_) ?_; clear_value x) | clear_value x)
    | (intro x; refine (fun (hx : Kept s0 x) => ?_) ?_; clear_value x) | (intro x; clear_value x) | dsimp only)

theorem State.stageKey_kept {s : State} (h : Kept s0 s) (op : Nat) (pub cert : List Byte) (reason u : Nat) (time : WitTime) (asked : Bool) : Kept s0 (State.stageKey s op pub cert reason u time asked) := by
  unfold State.stageKey
  repeat' (first
    | with_reducible assumption | with_reducible exact Kept.refl _ | with_reducible apply State.stage_kept
    | with_reducible apply State.witMod_kept | with_reducible apply kept_ite | with_reducible apply kept_ite1
    | with_reducible apply kept_ite2 | split | with_reducible exact kept_snd ‹_ = _› (by assumption)
    | (with_reducible refine kept_snd ‹_ = (_, _)› ?_) | (with_reducible refine kept_fst ‹_ = (_, _)› ?_)
    | (lift_lets; intro x; first | (refine (fun (hx : Kept s0 x) => ?_) ?_; clear_value x) | clear_value x)
    | (intro x; refine (fun (hx : Kept s0 x) => ?_) ?_; clear_value x) | (intro x; clear_value x) | dsimp only)

theorem State.stageLate_kept {s : State} (h : Kept s0 s)  : Kept s0 (State.stageLate s) := by
  unfold State.stageLate
  repeat' (first
    | with_reducible assumption | with_reducible exact Kept.refl _ | with_reducible apply State.stage_kept
    | with_reducible apply State.witMod_kept | with_reducible apply kept_ite | with_reducible apply kept_ite1
    | with_reducible apply kept_ite2 | split | with_reducible exact kept_snd ‹_ = _› (by assumption)
    | (with_reducible refine kept_snd ‹_ = (_, _)› ?_) | (with_reducible refine kept_fst ‹_ = (_, _)› ?_)
    | (lift_lets; intro x; first | (refine (fun (hx : Kept s0 x) => ?_) ?_; clear_value x) | clear_value x)
    | (intro x; refine (fun (hx : Kept s0 x) => ?_) ?_; clear_value x) | (intro x; clear_value x) | dsimp only)

theorem State.wrKeyCtrl_kept {s : State} (h : Kept s0 s) (p : Nat) (v : Word) : Kept s0 (State.wrKeyCtrl s p v) := by
  unfold State.wrKeyCtrl
  repeat' (first
    | with_reducible assumption | with_reducible exact Kept.refl _ | with_reducible apply State.fset_kept
    | with_reducible apply State.fsetB_kept | with_reducible apply State.newPub_kept
    | with_reducible apply State.stageKey_kept | with_reducible apply kept_ite | with_reducible apply kept_ite1
    | with_reducible apply kept_ite2 | split | with_reducible exact kept_snd ‹_ = _› (by assumption)
    | (with_reducible refine kept_snd ‹_ = (_, _)› ?_) | (with_reducible refine kept_fst ‹_ = (_, _)› ?_)
    | (lift_lets; intro x; first | (refine (fun (hx : Kept s0 x) => ?_) ?_; clear_value x) | clear_value x)
    | (intro x; refine (fun (hx : Kept s0 x) => ?_) ?_; clear_value x) | (intro x; clear_value x) | dsimp only)

theorem State.releaseOwk_kept {s : State} (h : Kept s0 s) (reason u : Nat) (time : WitTime) : Kept s0 (State.releaseOwk s reason u time) := by
  unfold State.releaseOwk
  repeat' (first
    | with_reducible assumption | with_reducible exact Kept.refl _ | with_reducible apply State.stageKey_kept
    | with_reducible apply kept_ite | with_reducible apply kept_ite1 | with_reducible apply kept_ite2 | split
    | with_reducible exact kept_snd ‹_ = _› (by assumption) | (with_reducible refine kept_snd ‹_ = (_, _)› ?_)
    | (with_reducible refine kept_fst ‹_ = (_, _)› ?_)
    | (lift_lets; intro x; first | (refine (fun (hx : Kept s0 x) => ?_) ?_; clear_value x) | clear_value x)
    | (intro x; refine (fun (hx : Kept s0 x) => ?_) ?_; clear_value x) | (intro x; clear_value x) | dsimp only)

theorem State.storeOwk_kept {s : State} (h : Kept s0 s) (pub : List Byte) : Kept s0 (State.storeOwk s pub) := by
  unfold State.storeOwk
  repeat' (first
    | with_reducible assumption | with_reducible exact Kept.refl _ | with_reducible apply State.askIngot_kept
    | with_reducible apply kept_ite | with_reducible apply kept_ite1 | with_reducible apply kept_ite2
    | with_reducible refine kept_foldl _ (fun x a hx => ?_) ?_ | split | with_reducible exact kept_snd ‹_ = _› (by assumption)
    | (with_reducible refine kept_snd ‹_ = (_, _)› ?_) | (with_reducible refine kept_fst ‹_ = (_, _)› ?_)
    | (lift_lets; intro x; first | (refine (fun (hx : Kept s0 x) => ?_) ?_; clear_value x) | clear_value x)
    | (intro x; refine (fun (hx : Kept s0 x) => ?_) ?_; clear_value x) | (intro x; clear_value x) | dsimp only)

theorem State.keyDone_kept {s : State} (h : Kept s0 s) (result : Nat) : Kept s0 (State.keyDone s result) := by
  unfold State.keyDone
  repeat' (first
    | with_reducible assumption | with_reducible exact Kept.refl _ | with_reducible apply State.evt_kept
    | with_reducible apply State.fset_kept | with_reducible apply State.fsetB_kept | with_reducible apply kept_ite
    | with_reducible apply kept_ite1 | with_reducible apply kept_ite2 | split
    | with_reducible exact kept_snd ‹_ = _› (by assumption) | (with_reducible refine kept_snd ‹_ = (_, _)› ?_)
    | (with_reducible refine kept_fst ‹_ = (_, _)› ?_)
    | (lift_lets; intro x; first | (refine (fun (hx : Kept s0 x) => ?_) ?_; clear_value x) | clear_value x)
    | (intro x; refine (fun (hx : Kept s0 x) => ?_) ?_; clear_value x) | (intro x; clear_value x) | dsimp only)

theorem State.keyCommitted_kept {s : State} (h : Kept s0 s) (q op : Nat) (pub : List Byte) (asked : Bool) : Kept s0 (State.keyCommitted s q op pub asked) := by
  unfold State.keyCommitted
  repeat' (first
    | with_reducible assumption | with_reducible exact Kept.refl _ | with_reducible apply State.fstMod_kept
    | with_reducible apply State.showKeys_kept | with_reducible apply State.storeOwk_kept
    | with_reducible apply State.witMod_kept | with_reducible apply kept_ite | with_reducible apply kept_ite1
    | with_reducible apply kept_ite2 | split | with_reducible exact kept_snd ‹_ = _› (by assumption)
    | (with_reducible refine kept_snd ‹_ = (_, _)› ?_) | (with_reducible refine kept_fst ‹_ = (_, _)› ?_)
    | (lift_lets; intro x; first | (refine (fun (hx : Kept s0 x) => ?_) ?_; clear_value x) | clear_value x)
    | (intro x; refine (fun (hx : Kept s0 x) => ?_) ?_; clear_value x) | (intro x; clear_value x) | dsimp only)

theorem State.keySettle_kept {s : State} (h : Kept s0 s)  : Kept s0 (State.keySettle s) := by
  unfold State.keySettle
  repeat' (first
    | with_reducible assumption | with_reducible exact Kept.refl _ | with_reducible apply State.fstMod_kept
    | with_reducible apply State.keyDone_kept | with_reducible apply State.witMod_kept | with_reducible apply kept_ite
    | with_reducible apply kept_ite1 | with_reducible apply kept_ite2
    | with_reducible refine kept_foldl _ (fun x a hx => ?_) ?_ | split
    | with_reducible exact kept_snd ‹_ = _› (by assumption) | (with_reducible refine kept_snd ‹_ = (_, _)› ?_)
    | (with_reducible refine kept_fst ‹_ = (_, _)› ?_)
    | (lift_lets; intro x; first | (refine (fun (hx : Kept s0 x) => ?_) ?_; clear_value x) | clear_value x)
    | (intro x; refine (fun (hx : Kept s0 x) => ?_) ?_; clear_value x) | (intro x; clear_value x) | dsimp only)

theorem State.showChain_kept {s : State} (h : Kept s0 s)  : Kept s0 (State.showChain s) := by
  unfold State.showChain
  repeat' (first
    | with_reducible assumption | with_reducible exact Kept.refl _ | with_reducible apply State.rset64_kept
    | with_reducible apply State.showBytes_kept | with_reducible apply State.showOldest_kept
    | with_reducible apply State.showWit_kept | with_reducible apply kept_ite | with_reducible apply kept_ite1
    | with_reducible apply kept_ite2 | split | with_reducible exact kept_snd ‹_ = _› (by assumption)
    | (with_reducible refine kept_snd ‹_ = (_, _)› ?_) | (with_reducible refine kept_fst ‹_ = (_, _)› ?_)
    | (lift_lets; intro x; first | (refine (fun (hx : Kept s0 x) => ?_) ?_; clear_value x) | clear_value x)
    | (intro x; refine (fun (hx : Kept s0 x) => ?_) ?_; clear_value x) | (intro x; clear_value x) | dsimp only)

theorem State.witDone_kept {s : State} (h : Kept s0 s) (seq : Nat) (q : WitReq) : Kept s0 (State.witDone s seq q) := by
  unfold State.witDone
  repeat' (first
    | with_reducible assumption | with_reducible exact Kept.refl _ | with_reducible apply State.complete_kept)

theorem State.witSettle_kept {s : State} (h : Kept s0 s)  : Kept s0 (State.witSettle s) := by
  unfold State.witSettle
  repeat' (first
    | with_reducible assumption | with_reducible exact Kept.refl _ | with_reducible apply State.keySettle_kept
    | with_reducible apply State.pumpPassage_kept | with_reducible apply State.witDone_kept
    | with_reducible apply State.witMod_kept | with_reducible apply kept_ite | with_reducible apply kept_ite1
    | with_reducible apply kept_ite2 | with_reducible refine kept_foldl _ (fun x a hx => ?_) ?_ | split
    | with_reducible exact kept_snd ‹_ = _› (by assumption) | (with_reducible refine kept_snd ‹_ = (_, _)› ?_)
    | (with_reducible refine kept_fst ‹_ = (_, _)› ?_)
    | (lift_lets; intro x; first | (refine (fun (hx : Kept s0 x) => ?_) ?_; clear_value x) | clear_value x)
    | (intro x; refine (fun (hx : Kept s0 x) => ?_) ?_; clear_value x) | (intro x; clear_value x) | dsimp only)

theorem execRecordCommit_kept (t : Nat) (s : State) : ∃ out, execRecordCommit t s = .next out ∧ Kept s out := by
  refine ⟨_, rfl, ?_⟩
  have h : Kept s s := Kept.refl s
  repeat' (first
    | with_reducible assumption | with_reducible exact Kept.refl _ | with_reducible apply State.at_kept
    | with_reducible apply State.evt_kept | with_reducible apply State.keyCommitted_kept
    | with_reducible apply State.showChain_kept | with_reducible apply State.stageLate_kept
    | with_reducible apply State.witMod_kept | with_reducible apply State.witSettle_kept
    | with_reducible apply State.writeIngot_kept | with_reducible apply kept_ite | with_reducible apply kept_ite1
    | with_reducible apply kept_ite2 | split | with_reducible exact kept_snd ‹_ = _› (by assumption)
    | (with_reducible refine kept_snd ‹_ = (_, _)› ?_) | (with_reducible refine kept_fst ‹_ = (_, _)› ?_)
    | (lift_lets; intro x; first | (refine (fun (hx : Kept s x) => ?_) ?_; clear_value x) | clear_value x)
    | (intro x; refine (fun (hx : Kept s x) => ?_) ?_; clear_value x) | (intro x; clear_value x) | dsimp only)

theorem State.genesis_kept {s : State} (h : Kept s0 s)  : Kept s0 (State.genesis s) := by
  unfold State.genesis
  repeat' (first
    | with_reducible assumption | with_reducible exact Kept.refl _ | with_reducible apply State.evt_kept
    | with_reducible apply State.showChain_kept | with_reducible apply State.showKeys_kept
    | with_reducible apply State.tenMod_kept | with_reducible apply State.witMod_kept | with_reducible apply kept_ite
    | with_reducible apply kept_ite1 | with_reducible apply kept_ite2
    | with_reducible refine kept_foldl _ (fun x a hx => ?_) ?_ | split
    | with_reducible exact kept_snd ‹_ = _› (by assumption) | (with_reducible refine kept_snd ‹_ = (_, _)› ?_)
    | (with_reducible refine kept_fst ‹_ = (_, _)› ?_)
    | (lift_lets; intro x; first | (refine (fun (hx : Kept s0 x) => ?_) ?_; clear_value x) | clear_value x)
    | (intro x; refine (fun (hx : Kept s0 x) => ?_) ?_; clear_value x) | (intro x; clear_value x) | dsimp only | exact id
    | exact ⟨rfl, Nat.le_refl _, rfl⟩ | with_reducible exact rfl | with_reducible exact Nat.le_refl _
    | with_reducible exact modifyAt_length _ _ _ | with_reducible exact List.length_map _
    | ((with_reducible refine (id ?_ : (_ : Nat) = _)); exact rfl) | with_reducible refine Kept.upd ?_ ?_ ?_ ?_ ?_ ?_ ?_ ?_)

theorem State.witMount_kept {s : State} (h : Kept s0 s)  : Kept s0 (State.witMount s) := by
  unfold State.witMount
  repeat' (first
    | with_reducible assumption | with_reducible exact Kept.refl _ | with_reducible apply State.evt_kept
    | with_reducible apply State.genesis_kept | with_reducible apply State.showChain_kept
    | with_reducible apply State.showKeys_kept | with_reducible apply State.tenMod_kept
    | with_reducible apply State.witMod_kept | with_reducible apply kept_ite | with_reducible apply kept_ite1
    | with_reducible apply kept_ite2 | with_reducible refine kept_foldl _ (fun x a hx => ?_) ?_ | split
    | with_reducible exact kept_snd ‹_ = _› (by assumption) | (with_reducible refine kept_snd ‹_ = (_, _)› ?_)
    | (with_reducible refine kept_fst ‹_ = (_, _)› ?_)
    | (lift_lets; intro x; first | (refine (fun (hx : Kept s0 x) => ?_) ?_; clear_value x) | clear_value x)
    | (intro x; refine (fun (hx : Kept s0 x) => ?_) ?_; clear_value x) | (intro x; clear_value x) | dsimp only)

theorem execWitnessCheckpoint_kept (t : Nat) (s : State) : ∃ out, execWitnessCheckpoint t s = .next out ∧ Kept s out := by
  refine ⟨_, rfl, ?_⟩
  have h : Kept s s := Kept.refl s
  repeat' (first
    | with_reducible assumption | with_reducible exact Kept.refl _ | with_reducible apply State.askIngot_kept
    | with_reducible apply State.at_kept | with_reducible apply State.witMod_kept | with_reducible apply State.wuDone_kept
    | with_reducible apply kept_ite | split | with_reducible exact kept_snd ‹_ = _› (by assumption)
    | (with_reducible refine kept_snd ‹_ = (_, _)› ?_) | (with_reducible refine kept_fst ‹_ = (_, _)› ?_)
    | (lift_lets; intro x; first | (refine (fun (hx : Kept s x) => ?_) ?_; clear_value x) | clear_value x)
    | (intro x; refine (fun (hx : Kept s x) => ?_) ?_; clear_value x) | (intro x; clear_value x))

end Sys2Proof.Laws
end

