-- ==== Sys2Proof/Laws/KeptBkp.lean ====
section
/-!
SUPPORT. What the operations of Machine/Bkp.lean keep.
-/

set_option linter.all false

namespace Sys2Proof.Laws

open Sys2Proof.Machine


variable {s0 : State}

theorem State.capture_kept {s : State} (h : Kept s0 s) (lo sec frac : Nat) : Kept s0 (State.capture s lo sec frac) := by
  unfold State.capture
  repeat' (first
    | with_reducible assumption | with_reducible exact Kept.refl _ | with_reducible apply State.rsetN_kept)

theorem State.bkpEvtAt_kept {s : State} (h : Kept s0 s) (code u : Nat) (time : WitTime) (sec frac : Nat) : Kept s0 (State.bkpEvtAt s code u time sec frac) := by
  unfold State.bkpEvtAt
  repeat' (first
    | with_reducible assumption | with_reducible exact Kept.refl _ | with_reducible apply State.bkpMod_kept
    | with_reducible apply State.witEventAt_kept | with_reducible apply kept_ite | with_reducible apply kept_ite1
    | with_reducible apply kept_ite2 | split | with_reducible exact kept_snd ‹_ = _› (by assumption)
    | (with_reducible refine kept_snd ‹_ = (_, _)› ?_) | (with_reducible refine kept_fst ‹_ = (_, _)› ?_)
    | (lift_lets; intro x; first | (refine (fun (hx : Kept s0 x) => ?_) ?_; clear_value x) | clear_value x)
    | (intro x; refine (fun (hx : Kept s0 x) => ?_) ?_; clear_value x) | (intro x; clear_value x) | dsimp only)

theorem State.bkpEvt_kept {s : State} (h : Kept s0 s) (code u sec frac : Nat) : Kept s0 (State.bkpEvt s code u sec frac) := by
  unfold State.bkpEvt
  repeat' (first
    | with_reducible assumption | with_reducible exact Kept.refl _ | with_reducible apply State.bkpEvtAt_kept
    | with_reducible apply kept_ite | with_reducible apply kept_ite1 | with_reducible apply kept_ite2 | split
    | with_reducible exact kept_snd ‹_ = _› (by assumption) | (with_reducible refine kept_snd ‹_ = (_, _)› ?_)
    | (with_reducible refine kept_fst ‹_ = (_, _)› ?_)
    | (lift_lets; intro x; first | (refine (fun (hx : Kept s0 x) => ?_) ?_; clear_value x) | clear_value x)
    | (intro x; refine (fun (hx : Kept s0 x) => ?_) ?_; clear_value x) | (intro x; clear_value x) | dsimp only)

theorem State.assertPwr_kept {s : State} (h : Kept s0 s) (src u : Nat) : Kept s0 (State.assertPwr s src u) := by
  unfold State.assertPwr
  repeat' (first
    | with_reducible assumption | with_reducible exact Kept.refl _ | with_reducible apply State.bkpEvt_kept
    | with_reducible apply State.bkpMod_kept | with_reducible apply State.capture_kept | with_reducible apply State.fset_kept
    | with_reducible apply State.fsetB_kept | with_reducible apply kept_ite | split
    | (lift_lets; intro x; first | (refine (fun (hx : Kept s0 x) => ?_) ?_; clear_value x) | clear_value x)
    | (intro x; refine (fun (hx : Kept s0 x) => ?_) ?_; clear_value x) | (intro x; clear_value x))

theorem State.pwrLow_kept {s : State} (h : Kept s0 s)  : Kept s0 (State.pwrLow s) := by
  unfold State.pwrLow
  repeat' (first
    | with_reducible assumption | with_reducible exact Kept.refl _ | with_reducible apply State.fsetB_kept)

theorem State.showCapture_kept {s : State} (h : Kept s0 s)  : Kept s0 (State.showCapture s) := by
  unfold State.showCapture
  repeat' (first
    | with_reducible assumption | with_reducible exact Kept.refl _ | with_reducible apply State.rset64_kept
    | with_reducible apply State.rsetN_kept | with_reducible apply kept_ite | with_reducible apply kept_ite1
    | with_reducible apply kept_ite2 | split | with_reducible exact kept_snd ‹_ = _› (by assumption)
    | (with_reducible refine kept_snd ‹_ = (_, _)› ?_) | (with_reducible refine kept_fst ‹_ = (_, _)› ?_)
    | (lift_lets; intro x; first | (refine (fun (hx : Kept s0 x) => ?_) ?_; clear_value x) | clear_value x)
    | (intro x; refine (fun (hx : Kept s0 x) => ?_) ?_; clear_value x) | (intro x; clear_value x) | dsimp only)

theorem State.bkpLoad_kept {s : State} (h : Kept s0 s) (sec frac : Nat) : Kept s0 (State.bkpLoad s sec frac) := by
  unfold State.bkpLoad
  repeat' (first
    | with_reducible assumption | with_reducible exact Kept.refl _ | with_reducible apply State.bkpMod_kept
    | with_reducible apply State.fsetB_kept | with_reducible apply State.showCapture_kept | with_reducible apply kept_ite
    | with_reducible apply kept_ite1 | with_reducible apply kept_ite2 | split
    | with_reducible exact kept_snd ‹_ = _› (by assumption) | (with_reducible refine kept_snd ‹_ = (_, _)› ?_)
    | (with_reducible refine kept_fst ‹_ = (_, _)› ?_)
    | (lift_lets; intro x; first | (refine (fun (hx : Kept s0 x) => ?_) ?_; clear_value x) | clear_value x)
    | (intro x; refine (fun (hx : Kept s0 x) => ?_) ?_; clear_value x) | (intro x; clear_value x) | dsimp only)

theorem State.captureAt_kept {s : State} (h : Kept s0 s) (e : Nat) : Kept s0 (State.captureAt s e) := by
  unfold State.captureAt
  repeat' (first
    | with_reducible assumption | with_reducible exact Kept.refl _ | with_reducible apply State.bkpMod_kept
    | with_reducible apply State.rset64_kept | with_reducible apply State.showCapture_kept | with_reducible apply kept_ite
    | with_reducible apply kept_ite1 | with_reducible apply kept_ite2 | split
    | with_reducible exact kept_snd ‹_ = _› (by assumption) | (with_reducible refine kept_snd ‹_ = (_, _)› ?_)
    | (with_reducible refine kept_fst ‹_ = (_, _)› ?_)
    | (lift_lets; intro x; first | (refine (fun (hx : Kept s0 x) => ?_) ?_; clear_value x) | clear_value x)
    | (intro x; refine (fun (hx : Kept s0 x) => ?_) ?_; clear_value x) | (intro x; clear_value x) | dsimp only)

theorem State.bkpCapture_kept {s : State} (h : Kept s0 s)  : Kept s0 (State.bkpCapture s) := by
  unfold State.bkpCapture
  repeat' (first
    | with_reducible assumption | with_reducible exact Kept.refl _ | with_reducible apply State.captureAt_kept
    | with_reducible apply kept_ite | split | with_reducible exact kept_snd ‹_ = _› (by assumption)
    | (with_reducible refine kept_snd ‹_ = (_, _)› ?_) | (with_reducible refine kept_fst ‹_ = (_, _)› ?_)
    | (lift_lets; intro x; first | (refine (fun (hx : Kept s0 x) => ?_) ?_; clear_value x) | clear_value x)
    | (intro x; refine (fun (hx : Kept s0 x) => ?_) ?_; clear_value x) | (intro x; clear_value x))

theorem State.bkpCtrl_kept {s : State} (h : Kept s0 s) (v : Word) : Kept s0 (State.bkpCtrl s v) := by
  unfold State.bkpCtrl
  repeat' (first
    | with_reducible assumption | with_reducible exact Kept.refl _ | with_reducible apply State.bkpCapture_kept
    | with_reducible apply State.bkpLoad_kept | with_reducible apply State.bkpMod_kept | with_reducible apply State.evt_kept
    | with_reducible apply State.fsetB_kept | with_reducible apply State.wr_kept | with_reducible apply kept_ite
    | with_reducible apply kept_ite1 | with_reducible apply kept_ite2 | split | with_reducible exact kept_snd ‹_ = _› (by assumption)
    | (with_reducible refine kept_snd ‹_ = (_, _)› ?_) | (with_reducible refine kept_fst ‹_ = (_, _)› ?_)
    | (lift_lets; intro x; first | (refine (fun (hx : Kept s0 x) => ?_) ?_; clear_value x) | clear_value x)
    | (intro x; refine (fun (hx : Kept s0 x) => ?_) ?_; clear_value x) | (intro x; clear_value x) | dsimp only)

theorem State.tampSample_kept {s : State} (h : Kept s0 s) (i : Nat) (high : Bool) : Kept s0 (State.tampSample s i high) := by
  unfold State.tampSample
  repeat' (first
    | with_reducible assumption | with_reducible exact Kept.refl _ | with_reducible apply State.bkpMod_kept
    | with_reducible apply kept_ite | with_reducible apply kept_ite1 | with_reducible apply kept_ite2 | split
    | with_reducible exact kept_snd ‹_ = _› (by assumption) | (with_reducible refine kept_snd ‹_ = (_, _)› ?_)
    | (with_reducible refine kept_fst ‹_ = (_, _)› ?_)
    | (lift_lets; intro x; first | (refine (fun (hx : Kept s0 x) => ?_) ?_; clear_value x) | clear_value x)
    | (intro x; refine (fun (hx : Kept s0 x) => ?_) ?_; clear_value x) | (intro x; clear_value x) | dsimp only)

theorem State.tampAll_kept {s : State} (h : Kept s0 s)  : Kept s0 (State.tampAll s) := by
  unfold State.tampAll
  repeat' (first
    | with_reducible assumption | with_reducible exact Kept.refl _ | with_reducible apply State.tampSample_kept
    | with_reducible apply kept_ite | with_reducible apply kept_ite1 | with_reducible apply kept_ite2
    | with_reducible refine kept_foldl _ (fun x a hx => ?_) ?_ | split
    | with_reducible exact kept_snd ‹_ = _› (by assumption) | (with_reducible refine kept_snd ‹_ = (_, _)› ?_)
    | (with_reducible refine kept_fst ‹_ = (_, _)› ?_)
    | (lift_lets; intro x; first | (refine (fun (hx : Kept s0 x) => ?_) ?_; clear_value x) | clear_value x)
    | (intro x; refine (fun (hx : Kept s0 x) => ?_) ?_; clear_value x) | (intro x; clear_value x) | dsimp only)

theorem State.bkpReg_kept {s : State} (h : Kept s0 s) (a : Nat) (v : Word) : Kept s0 (State.bkpReg s a v) := by
  unfold State.bkpReg
  repeat' (first
    | with_reducible assumption | with_reducible exact Kept.refl _ | with_reducible apply State.bkpCtrl_kept
    | with_reducible apply State.bkpMod_kept | with_reducible apply State.evt_kept | with_reducible apply State.fsetB_kept
    | with_reducible apply State.pwrLow_kept | with_reducible apply State.tampAll_kept | with_reducible apply State.wr_kept
    | with_reducible apply kept_ite | with_reducible apply kept_ite1 | with_reducible apply kept_ite2 | split
    | with_reducible exact kept_snd ‹_ = _› (by assumption) | (with_reducible refine kept_snd ‹_ = (_, _)› ?_)
    | (with_reducible refine kept_fst ‹_ = (_, _)› ?_)
    | (lift_lets; intro x; first | (refine (fun (hx : Kept s0 x) => ?_) ?_; clear_value x) | clear_value x)
    | (intro x; refine (fun (hx : Kept s0 x) => ?_) ?_; clear_value x) | (intro x; clear_value x) | dsimp only)

theorem State.bkpDisc_kept {s : State} (h : Kept s0 s)  : Kept s0 (State.bkpDisc s) := by
  unfold State.bkpDisc
  repeat' (first
    | with_reducible assumption | with_reducible exact Kept.refl _ | with_reducible apply State.bkpLoad_kept
    | with_reducible apply State.fsetB_kept | with_reducible apply State.rset64_kept
    | (lift_lets; intro x; first | (refine (fun (hx : Kept s0 x) => ?_) ?_; clear_value x) | clear_value x)
    | (intro x; refine (fun (hx : Kept s0 x) => ?_) ?_; clear_value x) | (intro x; clear_value x))

theorem State.bkpEffect_kept {s : State} (h : Kept s0 s) (w : BkpW) : Kept s0 (State.bkpEffect s w) := by
  cases w
  · exact State.bkpReg_kept h _ _
  · exact State.bkpDisc_kept h

theorem State.bkpDrain_kept {s : State} (h : Kept s0 s) (raw : Nat) : Kept s0 (State.bkpDrain s raw) := by
  unfold State.bkpDrain
  repeat' (first
    | with_reducible assumption | with_reducible exact Kept.refl _ | with_reducible apply State.bkpEffect_kept
    | with_reducible apply State.bkpMod_kept | with_reducible apply State.fsetB_kept | with_reducible apply State.osc_kept
    | with_reducible apply kept_ite | with_reducible apply kept_ite1 | with_reducible apply kept_ite2
    | with_reducible refine kept_foldl _ (fun x a hx => ?_) ?_ | split
    | with_reducible exact kept_snd ‹_ = _› (by assumption) | (with_reducible refine kept_snd ‹_ = (_, _)› ?_)
    | (with_reducible refine kept_fst ‹_ = (_, _)› ?_)
    | (lift_lets; intro x; first | (refine (fun (hx : Kept s0 x) => ?_) ?_; clear_value x) | clear_value x)
    | (intro x; refine (fun (hx : Kept s0 x) => ?_) ?_; clear_value x) | (intro x; clear_value x) | dsimp only)

theorem State.bkpIssue_kept {s : State} (h : Kept s0 s) (w : BkpW) : Kept s0 (State.bkpIssue s w) := by
  unfold State.bkpIssue
  repeat' (first
    | with_reducible assumption | with_reducible exact Kept.refl _ | with_reducible apply State.bkpMod_kept
    | with_reducible apply State.fsetB_kept | with_reducible apply State.oscGo_kept | with_reducible apply kept_ite
    | with_reducible apply kept_ite1 | with_reducible apply kept_ite2 | split
    | with_reducible exact kept_snd ‹_ = _› (by assumption) | (with_reducible refine kept_snd ‹_ = (_, _)› ?_)
    | (with_reducible refine kept_fst ‹_ = (_, _)› ?_)
    | (lift_lets; intro x; first | (refine (fun (hx : Kept s0 x) => ?_) ?_; clear_value x) | clear_value x)
    | (intro x; refine (fun (hx : Kept s0 x) => ?_) ?_; clear_value x) | (intro x; clear_value x) | dsimp only)

theorem State.bkpWantDisc_kept {s : State} (h : Kept s0 s)  : Kept s0 (State.bkpWantDisc s) := by
  unfold State.bkpWantDisc
  repeat' (first
    | with_reducible assumption | with_reducible exact Kept.refl _ | with_reducible apply State.bkpIssue_kept
    | with_reducible apply kept_ite | split)

theorem execBkpWriteEffect_kept (t raw : Nat) (s : State) : ∃ out, execBkpWriteEffect t raw s = .next out ∧ Kept s out := by
  refine ⟨_, rfl, ?_⟩
  have h : Kept s s := Kept.refl s
  repeat' (first
    | with_reducible assumption | with_reducible exact Kept.refl _ | with_reducible apply State.at_kept
    | with_reducible apply State.bkpEffect_kept | with_reducible apply State.bkpMod_kept | with_reducible apply State.fsetB_kept
    | with_reducible apply State.osc_kept | split
    | (lift_lets; intro x; first | (refine (fun (hx : Kept s x) => ?_) ?_; clear_value x) | clear_value x)
    | (intro x; refine (fun (hx : Kept s x) => ?_) ?_; clear_value x) | (intro x; clear_value x) | dsimp only)

theorem execSupplySwitch_kept (t raw aon vbat : Nat) (s : State) : ∃ out, execSupplySwitch t raw aon vbat s = .next out ∧ Kept s out := by
  refine ⟨_, rfl, ?_⟩
  have h : Kept s s := Kept.refl s
  repeat' (first
    | with_reducible assumption | with_reducible exact Kept.refl _ | with_reducible apply State.at_kept
    | with_reducible apply State.bkpEvt_kept | with_reducible apply State.capture_kept | with_reducible apply State.evt_kept
    | with_reducible apply State.fsetB_kept | with_reducible apply State.osc_kept | with_reducible apply kept_ite | split
    | (lift_lets; intro x; first | (refine (fun (hx : Kept s x) => ?_) ?_; clear_value x) | clear_value x)
    | (intro x; refine (fun (hx : Kept s x) => ?_) ?_; clear_value x) | (intro x; clear_value x))

theorem execBackupStateLoss_kept (t mv : Nat) (s : State) : ∃ out, execBackupStateLoss t mv s = .next out ∧ Kept s out := by
  refine ⟨_, rfl, ?_⟩
  have h : Kept s s := Kept.refl s
  repeat' (first
    | with_reducible assumption | with_reducible exact Kept.refl _ | with_reducible apply State.at_kept
    | with_reducible apply kept_ite | split | with_reducible exact kept_snd ‹_ = _› (by assumption)
    | (with_reducible refine kept_snd ‹_ = (_, _)› ?_) | (with_reducible refine kept_fst ‹_ = (_, _)› ?_)
    | (lift_lets; intro x; first | (refine (fun (hx : Kept s x) => ?_) ?_; clear_value x) | clear_value x)
    | (intro x; refine (fun (hx : Kept s x) => ?_) ?_; clear_value x) | (intro x; clear_value x) | exact id
    | with_reducible exact rfl | with_reducible exact Nat.le_refl _ | with_reducible exact modifyAt_length _ _ _
    | with_reducible exact List.length_map _ | ((with_reducible refine (id ?_ : (_ : Nat) = _)); exact rfl)
    | with_reducible refine Kept.upd ?_ ?_ ?_ ?_ ?_ ?_ ?_ ?_)

theorem execBackupPowerUp_kept (vbat : Bool) (s : State) : ∃ out, execBackupPowerUp vbat s = .next out ∧ Kept s out := by
  refine ⟨_, rfl, ?_⟩
  have k : Kept s { s with regs := bkpCleared s.regs, bkp := {} } := (kept_filter (Kept.refl s) _).upd rfl rfl rfl rfl id (Nat.le_refl _) rfl
  exact kept_ite (Kept.refl s) (State.fsetB_kept (State.fsetB_kept k _ _) _ _)

theorem execOscFail_kept (t raw : Nat) (s : State) : ∃ out, execOscFail t raw s = .next out ∧ Kept s out := by
  refine ⟨_, rfl, ?_⟩
  have h : Kept s s := Kept.refl s
  repeat' (first
    | with_reducible assumption | with_reducible exact Kept.refl _ | with_reducible apply State.at_kept
    | with_reducible apply State.evt_kept | with_reducible apply State.fsetB_kept | with_reducible apply State.osc_kept
    | with_reducible apply kept_ite | split
    | (lift_lets; intro x; first | (refine (fun (hx : Kept s x) => ?_) ?_; clear_value x) | clear_value x)
    | (intro x; refine (fun (hx : Kept s x) => ?_) ?_; clear_value x) | (intro x; clear_value x))

theorem execOscResume_kept (t : Nat) (s : State) : ∃ out, execOscResume t s = .next out ∧ Kept s out := by
  refine ⟨_, rfl, ?_⟩
  have h : Kept s s := Kept.refl s
  repeat' (first
    | with_reducible assumption | with_reducible exact Kept.refl _ | with_reducible apply State.at_kept
    | with_reducible apply State.bkpMod_kept | with_reducible apply State.fsetB_kept | with_reducible apply kept_ite
    | with_reducible apply kept_ite1 | with_reducible apply kept_ite2 | split
    | with_reducible exact kept_snd ‹_ = _› (by assumption) | (with_reducible refine kept_snd ‹_ = (_, _)› ?_)
    | (with_reducible refine kept_fst ‹_ = (_, _)› ?_)
    | (lift_lets; intro x; first | (refine (fun (hx : Kept s x) => ?_) ?_; clear_value x) | clear_value x)
    | (intro x; refine (fun (hx : Kept s x) => ?_) ?_; clear_value x) | (intro x; clear_value x) | dsimp only)

theorem State.rdBkpSec_kept {s : State} (h : Kept s0 s) (t : Nat) : Kept s0 (State.rdBkpSec s t) := by
  unfold State.rdBkpSec
  repeat' (first
    | with_reducible assumption | with_reducible exact Kept.refl _ | with_reducible apply State.bkpMod_kept)

theorem State.rdBkpCal_kept {s : State} (h : Kept s0 s) (t : Nat) : Kept s0 (State.rdBkpCal s t) := by
  unfold State.rdBkpCal
  repeat' (first
    | with_reducible assumption | with_reducible exact Kept.refl _ | with_reducible apply State.bkpMod_kept | exact id
    | with_reducible exact rfl | with_reducible exact Nat.le_refl _ | with_reducible exact modifyAt_length _ _ _
    | with_reducible exact List.length_map _ | ((with_reducible refine (id ?_ : (_ : Nat) = _)); exact rfl)
    | with_reducible refine Kept.upd ?_ ?_ ?_ ?_ ?_ ?_ ?_ ?_)

theorem State.drive_kept {s : State} (h : Kept s0 s) (ws : List Word) : Kept s0 (State.drive s ws) := by
  unfold State.drive
  repeat' (first
    | with_reducible assumption | with_reducible exact Kept.refl _ | exact id | with_reducible exact rfl
    | with_reducible exact Nat.le_refl _ | with_reducible exact modifyAt_length _ _ _ | with_reducible exact List.length_map _
    | ((with_reducible refine (id ?_ : (_ : Nat) = _)); exact rfl) | with_reducible refine Kept.upd ?_ ?_ ?_ ?_ ?_ ?_ ?_ ?_)

theorem execTrimWindow_kept (t : Nat) (s : State) : ∃ out, execTrimWindow t s = .next out ∧ Kept s out := by
  refine ⟨_, rfl, ?_⟩
  have h : Kept s s := Kept.refl s
  repeat' (first
    | with_reducible assumption | with_reducible exact Kept.refl _ | with_reducible apply State.at_kept
    | with_reducible apply State.bkpMod_kept | with_reducible apply State.osc_kept | with_reducible apply State.wr_kept
    | with_reducible apply kept_ite | split
    | (lift_lets; intro x; first | (refine (fun (hx : Kept s x) => ?_) ?_; clear_value x) | clear_value x)
    | (intro x; refine (fun (hx : Kept s x) => ?_) ?_; clear_value x) | (intro x; clear_value x) | dsimp only)

theorem execWakeFire_kept (i : Fin 8) (t raw : Nat) (s : State) : ∃ out, execWakeFire i t raw s = .next out ∧ Kept s out := by
  refine ⟨_, rfl, ?_⟩
  have h : Kept s s := Kept.refl s
  repeat' (first
    | with_reducible assumption | with_reducible exact Kept.refl _ | with_reducible apply State.assertPwr_kept
    | with_reducible apply State.at_kept | with_reducible apply State.bkpMod_kept | with_reducible apply State.evt_kept
    | with_reducible apply State.osc_kept | with_reducible apply kept_ite | with_reducible apply kept_ite1
    | with_reducible apply kept_ite2 | split | with_reducible exact kept_snd ‹_ = _› (by assumption)
    | (with_reducible refine kept_snd ‹_ = (_, _)› ?_) | (with_reducible refine kept_fst ‹_ = (_, _)› ?_)
    | (lift_lets; intro x; first | (refine (fun (hx : Kept s x) => ?_) ?_; clear_value x) | clear_value x)
    | (intro x; refine (fun (hx : Kept s x) => ?_) ?_; clear_value x) | (intro x; clear_value x) | dsimp only)

theorem execAlarmFire_kept (t raw : Nat) (s : State) : ∃ out, execAlarmFire t raw s = .next out ∧ Kept s out := by
  refine ⟨_, rfl, ?_⟩
  have h : Kept s s := Kept.refl s
  repeat' (first
    | with_reducible assumption | with_reducible exact Kept.refl _ | with_reducible apply State.assertPwr_kept
    | with_reducible apply State.at_kept | with_reducible apply State.evt_kept | with_reducible apply State.fsetB_kept
    | with_reducible apply State.osc_kept | with_reducible apply kept_ite | split
    | (lift_lets; intro x; first | (refine (fun (hx : Kept s x) => ?_) ?_; clear_value x) | clear_value x)
    | (intro x; refine (fun (hx : Kept s x) => ?_) ?_; clear_value x) | (intro x; clear_value x))

theorem execTamperActive_kept (i : Fin 3) (t raw : Nat) (high : Bool) (s : State) : ∃ out, execTamperActive i t raw high s = .next out ∧ Kept s out := by
  refine ⟨_, rfl, ?_⟩
  have h : Kept s s := Kept.refl s
  repeat' (first
    | with_reducible assumption | with_reducible exact Kept.refl _ | with_reducible apply State.at_kept
    | with_reducible apply State.osc_kept | with_reducible apply State.tampSample_kept | with_reducible apply kept_ite
    | with_reducible apply kept_ite1 | with_reducible apply kept_ite2 | split
    | with_reducible exact kept_snd ‹_ = _› (by assumption) | (with_reducible refine kept_snd ‹_ = (_, _)› ?_)
    | (with_reducible refine kept_fst ‹_ = (_, _)› ?_)
    | (lift_lets; intro x; first | (refine (fun (hx : Kept s x) => ?_) ?_; clear_value x) | clear_value x)
    | (intro x; refine (fun (hx : Kept s x) => ?_) ?_; clear_value x) | (intro x; clear_value x) | dsimp only)

theorem execTamperEvent_kept (i : Fin 2) (t raw : Nat) (s : State) : ∃ out, execTamperEvent i t raw s = .next out ∧ Kept s out := by
  refine ⟨_, rfl, ?_⟩
  have h : Kept s s := Kept.refl s
  repeat' (first
    | with_reducible assumption | with_reducible exact Kept.refl _ | with_reducible apply State.assertPwr_kept
    | with_reducible apply State.at_kept | with_reducible apply State.bkpEvtAt_kept | with_reducible apply State.bkpMod_kept
    | with_reducible apply State.bump_kept | with_reducible apply State.capture_kept | with_reducible apply State.evt_kept
    | with_reducible apply State.osc_kept | with_reducible apply State.rset_kept | with_reducible apply kept_ite
    | with_reducible apply kept_ite1 | with_reducible apply kept_ite2
    | with_reducible refine kept_foldl _ (fun x a hx => ?_) ?_ | split
    | with_reducible exact kept_snd ‹_ = _› (by assumption) | (with_reducible refine kept_snd ‹_ = (_, _)› ?_)
    | (with_reducible refine kept_fst ‹_ = (_, _)› ?_)
    | (lift_lets; intro x; first | (refine (fun (hx : Kept s x) => ?_) ?_; clear_value x) | clear_value x)
    | (intro x; refine (fun (hx : Kept s x) => ?_) ?_; clear_value x) | (intro x; clear_value x) | dsimp only)

theorem execWakeInEvent_kept (t raw : Nat) (s : State) : ∃ out, execWakeInEvent t raw s = .next out ∧ Kept s out := by
  refine ⟨_, rfl, ?_⟩
  have h : Kept s s := Kept.refl s
  repeat' (first
    | with_reducible assumption | with_reducible exact Kept.refl _ | with_reducible apply State.assertPwr_kept
    | with_reducible apply State.at_kept | with_reducible apply State.bkpMod_kept | with_reducible apply State.evt_kept
    | with_reducible apply State.osc_kept | split
    | (lift_lets; intro x; first | (refine (fun (hx : Kept s x) => ?_) ?_; clear_value x) | clear_value x)
    | (intro x; refine (fun (hx : Kept s x) => ?_) ?_; clear_value x) | (intro x; clear_value x) | dsimp only)

theorem State.bkpFlush_kept {s : State} (h : Kept s0 s)  : Kept s0 (State.bkpFlush s) := by
  unfold State.bkpFlush
  repeat' (first
    | with_reducible assumption | with_reducible exact Kept.refl _ | with_reducible apply State.bkpMod_kept
    | with_reducible apply State.witEvent_kept | with_reducible refine kept_foldl _ (fun x a hx => ?_) ?_
    | with_reducible exact kept_snd ‹_ = _› (by assumption) | (with_reducible refine kept_snd ‹_ = (_, _)› ?_)
    | (with_reducible refine kept_fst ‹_ = (_, _)› ?_) | dsimp only)

end Sys2Proof.Laws
end

