-- ==== Sys2Proof/Laws/KeptClocks.lean ====
section
/-!
SUPPORT. What the operations of Machine/Clocks.lean keep.
-/

set_option linter.all false

namespace Sys2Proof.Laws

open Sys2Proof.Machine


variable {s0 : State}

theorem State.setLoop_kept {s : State} (h : Kept s0 s) (l : LoopId) (x : LoopS) : Kept s0 (State.setLoop s l x) := by
  unfold State.setLoop
  repeat' (first
    | with_reducible assumption | with_reducible exact Kept.refl _ | split | exact id | with_reducible exact rfl
    | with_reducible exact Nat.le_refl _ | with_reducible exact modifyAt_length _ _ _ | with_reducible exact List.length_map _
    | ((with_reducible refine (id ?_ : (_ : Nat) = _)); exact rfl) | with_reducible refine Kept.upd ?_ ?_ ?_ ?_ ?_ ?_ ?_ ?_)

theorem State.ccsMod_kept {s : State} (h : Kept s0 s) (f : CcsS → CcsS) : Kept s0 (State.ccsMod s f) := by
  unfold State.ccsMod
  repeat' (first
    | with_reducible assumption | with_reducible exact Kept.refl _ | exact id | with_reducible exact rfl
    | with_reducible exact Nat.le_refl _ | with_reducible exact modifyAt_length _ _ _ | with_reducible exact List.length_map _
    | ((with_reducible refine (id ?_ : (_ : Nat) = _)); exact rfl) | with_reducible refine Kept.upd ?_ ?_ ?_ ?_ ?_ ?_ ?_ ?_)

theorem State.showBand_kept {s : State} (h : Kept s0 s) (l : LoopId) (band : Nat) (searching : Bool) : Kept s0 (State.showBand s l band searching) := by
  unfold State.showBand
  repeat' (first
    | with_reducible assumption | with_reducible exact Kept.refl _ | with_reducible apply State.fset_kept
    | with_reducible apply State.fsetB_kept | split)

theorem State.startSearch_kept {s : State} (h : Kept s0 s) (l : LoopId) (t : Nat) : Kept s0 (State.startSearch s l t) := by
  unfold State.startSearch
  repeat' (first
    | with_reducible assumption | with_reducible exact Kept.refl _ | with_reducible apply State.setLoop_kept
    | with_reducible apply State.showBand_kept | with_reducible apply kept_ite | split)

theorem State.showFreq_kept {s : State} (h : Kept s0 s)  : Kept s0 (State.showFreq s) := by
  unfold State.showFreq
  repeat' (first
    | with_reducible assumption | with_reducible exact Kept.refl _ | with_reducible apply State.fset_kept
    | (lift_lets; intro x; first | (refine (fun (hx : Kept s0 x) => ?_) ?_; clear_value x) | clear_value x)
    | (intro x; refine (fun (hx : Kept s0 x) => ?_) ?_; clear_value x) | (intro x; clear_value x))

theorem State.abandonProfile_kept {s : State} (h : Kept s0 s)  : Kept s0 (State.abandonProfile s) := by
  unfold State.abandonProfile
  repeat' (first
    | with_reducible assumption | with_reducible exact Kept.refl _ | with_reducible apply State.ccsMod_kept
    | with_reducible apply State.fsetB_kept | with_reducible apply State.showFreq_kept | with_reducible apply kept_ite
    | with_reducible apply kept_ite1 | with_reducible apply kept_ite2 | split
    | with_reducible exact kept_snd ‹_ = _› (by assumption) | (with_reducible refine kept_snd ‹_ = (_, _)› ?_)
    | (with_reducible refine kept_fst ‹_ = (_, _)› ?_)
    | (lift_lets; intro x; first | (refine (fun (hx : Kept s0 x) => ?_) ?_; clear_value x) | clear_value x)
    | (intro x; refine (fun (hx : Kept s0 x) => ?_) ?_; clear_value x) | (intro x; clear_value x) | dsimp only)

theorem State.safeSwitch_kept {s : State} (h : Kept s0 s)  : Kept s0 (State.safeSwitch s) := by
  unfold State.safeSwitch
  repeat' (first
    | with_reducible assumption | with_reducible exact Kept.refl _ | with_reducible apply State.abandonProfile_kept
    | with_reducible apply State.ccsMod_kept | with_reducible apply State.evt_kept | with_reducible apply State.fsetB_kept
    | with_reducible apply State.showFreq_kept | with_reducible apply State.startSearch_kept | with_reducible apply kept_ite | split
    | (lift_lets; intro x; first | (refine (fun (hx : Kept s0 x) => ?_) ?_; clear_value x) | clear_value x)
    | (intro x; refine (fun (hx : Kept s0 x) => ?_) ?_; clear_value x) | (intro x; clear_value x))

theorem State.scsLose_kept {s : State} (h : Kept s0 s) (slip : Bool) : Kept s0 (State.scsLose s slip) := by
  unfold State.scsLose
  repeat' (first
    | with_reducible assumption | with_reducible exact Kept.refl _ | with_reducible apply State.evt_kept
    | with_reducible apply State.fsetB_kept | with_reducible apply State.rset64_kept | with_reducible apply State.setLoop_kept
    | with_reducible apply State.startSearch_kept | with_reducible apply State.voidBegin_kept | with_reducible apply kept_ite
    | with_reducible refine State.rawTrack_kept ?_ _ _ (fun x0 k0 => ?_) | split
    | with_reducible exact kept_snd ‹_ = _› (by assumption) | (with_reducible refine kept_snd ‹_ = (_, _)› ?_)
    | (with_reducible refine kept_fst ‹_ = (_, _)› ?_)
    | (lift_lets; intro x; first | (refine (fun (hx : Kept s0 x) => ?_) ?_; clear_value x) | clear_value x)
    | (intro x; refine (fun (hx : Kept s0 x) => ?_) ?_; clear_value x) | (intro x; clear_value x) | exact id
    | with_reducible exact rfl | with_reducible exact Nat.le_refl _ | with_reducible exact modifyAt_length _ _ _
    | with_reducible exact List.length_map _ | ((with_reducible refine (id ?_ : (_ : Nat) = _)); exact rfl)
    | with_reducible refine Kept.upd ?_ ?_ ?_ ?_ ?_ ?_ ?_ ?_)

theorem State.ccsLose_kept {s : State} (h : Kept s0 s)  : Kept s0 (State.ccsLose s) := by
  unfold State.ccsLose
  repeat' (first
    | with_reducible assumption | with_reducible exact Kept.refl _ | with_reducible apply State.evt_kept
    | with_reducible apply State.safeSwitch_kept)

theorem State.loopLose_kept {s : State} (h : Kept s0 s) (l : LoopId) (slip : Bool) : Kept s0 (State.loopLose s l slip) := by
  unfold State.loopLose
  repeat' (first
    | with_reducible assumption | with_reducible exact Kept.refl _ | with_reducible apply State.ccsLose_kept
    | with_reducible apply State.scsLose_kept | split)

theorem State.loopLock_kept {s : State} (h : Kept s0 s) (l : LoopId) : Kept s0 (State.loopLock s l) := by
  unfold State.loopLock
  split
  · exact State.voidEnd_kept (State.fsetB_kept (State.evt_kept (State.rawTrack_kept (State.fsetB_kept (State.setLoop_kept h _ _) _ _) _ _
      (fun x hx => State.fsetB_kept hx _ _)) _) _ _)
  · repeat' (first
      | with_reducible assumption | with_reducible apply State.ccsMod_kept | with_reducible apply State.fsetB_kept
      | with_reducible apply State.evt_kept | with_reducible apply State.setLoop_kept | dsimp only)

theorem State.loopFail_kept {s : State} (h : Kept s0 s) (l : LoopId) : Kept s0 (State.loopFail s l) := by
  unfold State.loopFail
  repeat' (first
    | with_reducible assumption | with_reducible exact Kept.refl _ | with_reducible apply State.evt_kept
    | with_reducible apply State.fault_kept | with_reducible apply State.fsetB_kept | with_reducible apply State.setLoop_kept
    | with_reducible apply State.startSearch_kept | with_reducible apply kept_ite | with_reducible apply kept_ite1
    | with_reducible apply kept_ite2 | split | with_reducible exact kept_snd ‹_ = _› (by assumption)
    | (with_reducible refine kept_snd ‹_ = (_, _)› ?_) | (with_reducible refine kept_fst ‹_ = (_, _)› ?_)
    | (lift_lets; intro x; first | (refine (fun (hx : Kept s0 x) => ?_) ?_; clear_value x) | clear_value x)
    | (intro x; refine (fun (hx : Kept s0 x) => ?_) ?_; clear_value x) | (intro x; clear_value x) | dsimp only)

theorem State.showCount_kept {s : State} (h : Kept s0 s) (l : LoopId) (n : Nat) : Kept s0 (State.showCount s l n) := by
  unfold State.showCount
  repeat' (first
    | with_reducible assumption | with_reducible exact Kept.refl _ | with_reducible apply State.fset_kept | split)

theorem execBandSearchStep_kept (l : LoopId) (count : Nat) (s : State) : ∃ out, execBandSearchStep l count s = .next out ∧ Kept s out := by
  refine ⟨_, rfl, ?_⟩
  have h : Kept s s := Kept.refl s
  repeat' (first
    | with_reducible assumption | with_reducible exact Kept.refl _ | with_reducible apply State.at_kept
    | with_reducible apply State.setLoop_kept | with_reducible apply State.showBand_kept | with_reducible apply kept_ite | split
    | (lift_lets; intro x; first | (refine (fun (hx : Kept s x) => ?_) ?_; clear_value x) | clear_value x)
    | (intro x; refine (fun (hx : Kept s x) => ?_) ?_; clear_value x) | (intro x; clear_value x) | dsimp only)

theorem execLockWindow_kept (l : LoopId) (count : Nat) (s : State) : ∃ out, execLockWindow l count s = .next out ∧ Kept s out := by
  refine ⟨_, rfl, ?_⟩
  have h : Kept s s := Kept.refl s
  repeat' (first
    | with_reducible assumption | with_reducible exact Kept.refl _ | with_reducible apply State.at_kept
    | with_reducible apply State.loopFail_kept | with_reducible apply State.loopLock_kept | with_reducible apply State.loopLose_kept
    | with_reducible apply State.setLoop_kept | with_reducible apply State.showCount_kept | with_reducible apply kept_ite | split
    | (lift_lets; intro x; first | (refine (fun (hx : Kept s x) => ?_) ?_; clear_value x) | clear_value x)
    | (intro x; refine (fun (hx : Kept s x) => ?_) ?_; clear_value x) | (intro x; clear_value x) | dsimp only)

theorem execSlipDetect_kept (l : LoopId) (t : Nat) (s : State) : ∃ out, execSlipDetect l t s = .next out ∧ Kept s out := by
  refine ⟨_, rfl, ?_⟩
  have h : Kept s s := Kept.refl s
  repeat' (first
    | with_reducible assumption | with_reducible exact Kept.refl _ | with_reducible apply State.at_kept
    | with_reducible apply State.loopLose_kept | with_reducible apply kept_ite | split)

theorem execScsRetry_kept  (s : State) : ∃ out, execScsRetry s = .next out ∧ Kept s out := by
  refine ⟨_, rfl, ?_⟩
  have h : Kept s s := Kept.refl s
  repeat' (first
    | with_reducible assumption | with_reducible exact Kept.refl _ | with_reducible apply State.at_kept
    | with_reducible apply State.startSearch_kept | split)

theorem execCcsNoEdge_kept (t : Nat) (s : State) : ∃ out, execCcsNoEdge t s = .next out ∧ Kept s out := by
  refine ⟨_, rfl, ?_⟩
  have h : Kept s s := Kept.refl s
  repeat' (first
    | with_reducible assumption | with_reducible exact Kept.refl _ | with_reducible apply State.at_kept
    | with_reducible apply State.ccsLose_kept | with_reducible apply State.safeSwitch_kept | with_reducible apply kept_ite
    | split | with_reducible exact kept_snd ‹_ = _› (by assumption) | (with_reducible refine kept_snd ‹_ = (_, _)› ?_)
    | (with_reducible refine kept_fst ‹_ = (_, _)› ?_)
    | (lift_lets; intro x; first | (refine (fun (hx : Kept s x) => ?_) ?_; clear_value x) | clear_value x)
    | (intro x; refine (fun (hx : Kept s x) => ?_) ?_; clear_value x) | (intro x; clear_value x))

theorem execCcsRetry_kept  (s : State) : ∃ out, execCcsRetry s = .next out ∧ Kept s out := by
  refine ⟨_, rfl, ?_⟩
  have h : Kept s s := Kept.refl s
  repeat' (first
    | with_reducible assumption | with_reducible exact Kept.refl _ | with_reducible apply State.at_kept
    | with_reducible apply State.startSearch_kept | split)

theorem State.profileEnd_kept {s : State} (h : Kept s0 s)  : Kept s0 (State.profileEnd s) := by
  unfold State.profileEnd
  repeat' (first
    | with_reducible assumption | with_reducible exact Kept.refl _ | with_reducible apply State.ccsMod_kept
    | with_reducible apply State.fsetB_kept | with_reducible apply kept_ite | with_reducible apply kept_ite1
    | with_reducible apply kept_ite2 | split | with_reducible exact kept_snd ‹_ = _› (by assumption)
    | (with_reducible refine kept_snd ‹_ = (_, _)› ?_) | (with_reducible refine kept_fst ‹_ = (_, _)› ?_)
    | (lift_lets; intro x; first | (refine (fun (hx : Kept s0 x) => ?_) ?_; clear_value x) | clear_value x)
    | (intro x; refine (fun (hx : Kept s0 x) => ?_) ?_; clear_value x) | (intro x; clear_value x) | dsimp only)

theorem execRampTargetReached_kept (s : State) : ∃ out, execRampTargetReached s = .next out ∧ Kept s out := by
  refine ⟨_, rfl, ?_⟩
  have h : Kept s s := Kept.refl s
  repeat' (first
    | with_reducible assumption | with_reducible exact Kept.refl _ | with_reducible apply State.at_kept
    | with_reducible apply State.ccsMod_kept | with_reducible apply State.profileEnd_kept
    | with_reducible apply State.showFreq_kept | with_reducible apply kept_ite | with_reducible apply kept_ite1
    | with_reducible apply kept_ite2 | split | with_reducible exact kept_snd ‹_ = _› (by assumption)
    | (with_reducible refine kept_snd ‹_ = (_, _)› ?_) | (with_reducible refine kept_fst ‹_ = (_, _)› ?_)
    | (lift_lets; intro x; first | (refine (fun (hx : Kept s x) => ?_) ?_; clear_value x) | clear_value x)
    | (intro x; refine (fun (hx : Kept s x) => ?_) ?_; clear_value x) | (intro x; clear_value x) | dsimp only)

theorem State.busStart_kept {s : State} (h : Kept s0 s) (b : Nat) : Kept s0 (State.busStart s b) := by
  unfold State.busStart
  repeat' (first
    | with_reducible assumption | with_reducible exact Kept.refl _ | with_reducible apply State.busMod_kept
    | with_reducible apply State.fsetB_kept
    | (lift_lets; intro x; first | (refine (fun (hx : Kept s0 x) => ?_) ?_; clear_value x) | clear_value x)
    | (intro x; refine (fun (hx : Kept s0 x) => ?_) ?_; clear_value x) | (intro x; clear_value x))

theorem State.twbFail_kept {s : State} (h : Kept s0 s) (r : TwbResult) : Kept s0 (State.twbFail s r).1 := by
  unfold State.twbFail
  repeat' (first
    | with_reducible assumption | with_reducible exact Kept.refl _ | with_reducible apply State.bump_kept
    | with_reducible apply State.busMod_kept | with_reducible apply State.evt_kept | with_reducible apply State.fsetB_kept
    | with_reducible apply kept_ite | with_reducible apply kept_ite1 | with_reducible apply kept_ite2 | split
    | with_reducible exact kept_snd ‹_ = _› (by assumption) | (with_reducible refine kept_snd ‹_ = (_, _)› ?_)
    | (with_reducible refine kept_fst ‹_ = (_, _)› ?_)
    | (lift_lets; intro x; first | (refine (fun (hx : Kept s0 x) => ?_) ?_; clear_value x) | clear_value x)
    | (intro x; refine (fun (hx : Kept s0 x) => ?_) ?_; clear_value x) | (intro x; clear_value x) | dsimp only)

theorem State.drove_kept {s : State} (h : Kept s0 s) (cmd : Nat) (data : List Byte) : Kept s0 (State.drove s cmd data) := by
  unfold State.drove
  repeat' (first
    | with_reducible assumption | with_reducible exact Kept.refl _ | with_reducible apply State.busMod_kept)

theorem State.readOn_kept {s x : State} (h : Kept s0 s) (hx : s.readOn = some x) : Kept s0 x := by
  unfold State.readOn at hx
  split at hx
  · cases hx
  · split at hx
    · cases hx; exact h
    · split at hx
      · cases hx
      · cases hx; exact State.busStart_kept h 1

theorem execReadingDue_kept (t : Nat) (s : State) : ∃ out, execReadingDue t s = .next out ∧ Kept s out := by
  refine ⟨_, rfl, ?_⟩
  have h : Kept s s := Kept.refl s
  repeat' (first
    | with_reducible assumption | with_reducible exact Kept.refl _ | with_reducible apply State.at_kept
    | with_reducible apply State.busStart_kept | with_reducible apply State.ccsMod_kept | with_reducible apply kept_ite | split
    | with_reducible exact kept_snd ‹_ = _› (by assumption) | (with_reducible refine kept_snd ‹_ = (_, _)› ?_)
    | (with_reducible refine kept_fst ‹_ = (_, _)› ?_)
    | (lift_lets; intro x; first | (refine (fun (hx : Kept s x) => ?_) ?_; clear_value x) | clear_value x)
    | (intro x; refine (fun (hx : Kept s x) => ?_) ?_; clear_value x) | (intro x; clear_value x))

theorem execVoutCommand_kept (t : Nat) (r : TwbResult) (s : State) : ∃ out, execVoutCommand t r s = .next out ∧ Kept s out := by
  refine ⟨_, rfl, ?_⟩
  have h : Kept s s := Kept.refl s
  repeat' (first
    | with_reducible assumption | with_reducible exact Kept.refl _ | with_reducible apply State.at_kept
    | with_reducible apply State.busStart_kept | with_reducible apply State.ccsMod_kept | with_reducible apply State.drove_kept
    | with_reducible apply State.twbFail_kept | with_reducible apply kept_ite | with_reducible apply kept_ite1
    | with_reducible apply kept_ite2 | split | with_reducible exact kept_snd ‹_ = _› (by assumption)
    | (with_reducible refine kept_snd ‹_ = (_, _)› ?_) | (with_reducible refine kept_fst ‹_ = (_, _)› ?_)
    | (lift_lets; intro x; first | (refine (fun (hx : Kept s x) => ?_) ?_; clear_value x) | clear_value x)
    | (intro x; refine (fun (hx : Kept s x) => ?_) ?_; clear_value x) | (intro x; clear_value x) | dsimp only)

theorem execOperation_kept (t : Nat) (r : TwbResult) (s : State) : ∃ out, execOperation t r s = .next out ∧ Kept s out := by
  refine ⟨_, rfl, ?_⟩
  have h : Kept s s := Kept.refl s
  repeat' (first
    | with_reducible assumption | with_reducible exact Kept.refl _ | with_reducible apply State.at_kept
    | with_reducible apply State.busStart_kept | with_reducible apply State.ccsMod_kept | with_reducible apply State.drove_kept
    | with_reducible apply State.twbFail_kept | with_reducible apply kept_ite | with_reducible apply kept_ite1
    | with_reducible apply kept_ite2 | split | with_reducible exact kept_snd ‹_ = _› (by assumption)
    | (with_reducible refine kept_snd ‹_ = (_, _)› ?_) | (with_reducible refine kept_fst ‹_ = (_, _)› ?_)
    | (lift_lets; intro x; first | (refine (fun (hx : Kept s x) => ?_) ?_; clear_value x) | clear_value x)
    | (intro x; refine (fun (hx : Kept s x) => ?_) ?_; clear_value x) | (intro x; clear_value x) | dsimp only)

theorem State.vlow_kept {s : State} (h : Kept s0 s) (mv : Nat) : Kept s0 (State.vlow s mv) := by
  unfold State.vlow
  repeat' (first
    | with_reducible assumption | with_reducible exact Kept.refl _ | with_reducible apply State.ccsMod_kept
    | with_reducible apply State.evt_kept | with_reducible apply State.fault_kept | with_reducible apply State.safeSwitch_kept
    | with_reducible apply kept_ite | split | with_reducible exact kept_snd ‹_ = _› (by assumption)
    | (with_reducible refine kept_snd ‹_ = (_, _)› ?_) | (with_reducible refine kept_fst ‹_ = (_, _)› ?_)
    | (lift_lets; intro x; first | (refine (fun (hx : Kept s0 x) => ?_) ?_; clear_value x) | clear_value x)
    | (intro x; refine (fun (hx : Kept s0 x) => ?_) ?_; clear_value x) | (intro x; clear_value x))

theorem State.readFail_kept {s : State} (h : Kept s0 s) (r : TwbResult) : Kept s0 (State.readFail s r) := by
  unfold State.readFail
  repeat' (first
    | with_reducible assumption | with_reducible exact Kept.refl _ | with_reducible apply State.ccsMod_kept
    | with_reducible apply State.twbFail_kept | with_reducible apply kept_ite | with_reducible apply kept_ite1
    | with_reducible apply kept_ite2 | split | with_reducible exact kept_snd ‹_ = _› (by assumption)
    | (with_reducible refine kept_snd ‹_ = (_, _)› ?_) | (with_reducible refine kept_fst ‹_ = (_, _)› ?_)
    | (lift_lets; intro x; first | (refine (fun (hx : Kept s0 x) => ?_) ?_; clear_value x) | clear_value x)
    | (intro x; refine (fun (hx : Kept s0 x) => ?_) ?_; clear_value x) | (intro x; clear_value x) | dsimp only)

theorem execReadVout_kept (t : Nat) (r : TwbResult) (s : State) : ∃ out, execReadVout t r s = .next out ∧ Kept s out := by
  refine ⟨_, rfl, ?_⟩
  have h : Kept s s := Kept.refl s
  repeat' (first
    | with_reducible assumption | with_reducible exact Kept.refl _ | with_reducible apply State.at_kept
    | with_reducible apply State.ccsMod_kept | with_reducible apply State.drove_kept | with_reducible apply State.fset_kept
    | with_reducible apply State.readFail_kept | with_reducible refine State.readOn_kept ?_ ‹_ = some _›
    | with_reducible apply State.twbFail_kept | with_reducible apply State.vlow_kept | with_reducible apply kept_ite
    | with_reducible apply kept_ite1 | with_reducible apply kept_ite2 | split
    | with_reducible exact kept_snd ‹_ = _› (by assumption) | (with_reducible refine kept_snd ‹_ = (_, _)› ?_)
    | (with_reducible refine kept_fst ‹_ = (_, _)› ?_)
    | (lift_lets; intro x; first | (refine (fun (hx : Kept s x) => ?_) ?_; clear_value x) | clear_value x)
    | (intro x; refine (fun (hx : Kept s x) => ?_) ?_; clear_value x) | (intro x; clear_value x) | dsimp only)

theorem State.confirm_kept {s : State} (h : Kept s0 s)  : Kept s0 (State.confirm s) := by
  unfold State.confirm
  repeat' (first
    | with_reducible assumption | with_reducible exact Kept.refl _ | with_reducible apply State.ccsMod_kept
    | with_reducible apply State.fsetB_kept | with_reducible apply kept_ite | split)

theorem execStatusWord_kept (t : Nat) (r : TwbResult) (s : State) : ∃ out, execStatusWord t r s = .next out ∧ Kept s out := by
  refine ⟨_, rfl, ?_⟩
  have h : Kept s s := Kept.refl s
  repeat' (first
    | with_reducible assumption | with_reducible exact Kept.refl _ | with_reducible apply State.at_kept
    | with_reducible apply State.ccsMod_kept | with_reducible apply State.confirm_kept
    | with_reducible apply State.drove_kept | with_reducible apply State.readFail_kept
    | with_reducible refine State.readOn_kept ?_ ‹_ = some _› | with_reducible apply State.twbFail_kept
    | with_reducible apply kept_ite | with_reducible apply kept_ite1 | with_reducible apply kept_ite2 | split
    | with_reducible exact kept_snd ‹_ = _› (by assumption) | (with_reducible refine kept_snd ‹_ = (_, _)› ?_)
    | (with_reducible refine kept_fst ‹_ = (_, _)› ?_)
    | (lift_lets; intro x; first | (refine (fun (hx : Kept s x) => ?_) ?_; clear_value x) | clear_value x)
    | (intro x; refine (fun (hx : Kept s x) => ?_) ?_; clear_value x) | (intro x; clear_value x) | dsimp only)

theorem execReadIout_kept (t : Nat) (r : TwbResult) (s : State) : ∃ out, execReadIout t r s = .next out ∧ Kept s out := by
  refine ⟨_, rfl, ?_⟩
  have h : Kept s s := Kept.refl s
  repeat' (first
    | with_reducible assumption | with_reducible exact Kept.refl _ | with_reducible apply State.at_kept
    | with_reducible apply State.ccsMod_kept | with_reducible apply State.drove_kept
    | with_reducible apply State.readFail_kept | with_reducible refine State.readOn_kept ?_ ‹_ = some _›
    | with_reducible apply State.twbFail_kept | with_reducible apply kept_ite | with_reducible apply kept_ite1
    | with_reducible apply kept_ite2 | split | with_reducible exact kept_snd ‹_ = _› (by assumption)
    | (with_reducible refine kept_snd ‹_ = (_, _)› ?_) | (with_reducible refine kept_fst ‹_ = (_, _)› ?_)
    | (lift_lets; intro x; first | (refine (fun (hx : Kept s x) => ?_) ?_; clear_value x) | clear_value x)
    | (intro x; refine (fun (hx : Kept s x) => ?_) ?_; clear_value x) | (intro x; clear_value x) | dsimp only | exact id
    | exact ⟨rfl, Nat.le_refl _, rfl⟩ | with_reducible exact rfl | with_reducible exact Nat.le_refl _
    | with_reducible exact modifyAt_length _ _ _ | with_reducible exact List.length_map _
    | ((with_reducible refine (id ?_ : (_ : Nat) = _)); exact rfl) | with_reducible refine Kept.upd ?_ ?_ ?_ ?_ ?_ ?_ ?_ ?_)

theorem execRaiseTimeout_kept  (s : State) : ∃ out, execRaiseTimeout s = .next out ∧ Kept s out := by
  refine ⟨_, rfl, ?_⟩
  have h : Kept s s := Kept.refl s
  repeat' (first
    | with_reducible assumption | with_reducible exact Kept.refl _ | with_reducible apply State.at_kept
    | with_reducible apply State.ccsMod_kept | with_reducible apply State.evt_kept | with_reducible apply State.fsetB_kept
    | with_reducible apply kept_ite | split
    | (lift_lets; intro x; first | (refine (fun (hx : Kept s x) => ?_) ?_; clear_value x) | clear_value x)
    | (intro x; refine (fun (hx : Kept s x) => ?_) ?_; clear_value x) | (intro x; clear_value x) | dsimp only)

theorem State.decideRaise_kept {s : State} (h : Kept s0 s) (f : Nat) : Kept s0 (State.decideRaise s f) := by
  unfold State.decideRaise
  repeat' (first
    | with_reducible assumption | with_reducible exact Kept.refl _ | with_reducible apply State.ccsMod_kept
    | with_reducible apply State.confirm_kept | with_reducible apply State.fsetB_kept | with_reducible apply kept_ite | split
    | (lift_lets; intro x; first | (refine (fun (hx : Kept s0 x) => ?_) ?_; clear_value x) | clear_value x)
    | (intro x; refine (fun (hx : Kept s0 x) => ?_) ?_; clear_value x) | (intro x; clear_value x))

theorem State.planProfile_kept {s : State} (h : Kept s0 s)  : Kept s0 (State.planProfile s) := by
  unfold State.planProfile
  repeat' (first
    | with_reducible assumption | with_reducible exact Kept.refl _ | with_reducible apply State.ccsMod_kept
    | with_reducible apply State.fsetB_kept | with_reducible apply State.vlow_kept | with_reducible apply kept_ite
    | with_reducible apply kept_ite1 | with_reducible apply kept_ite2 | split
    | with_reducible exact kept_snd ‹_ = _› (by assumption) | (with_reducible refine kept_snd ‹_ = (_, _)› ?_)
    | (with_reducible refine kept_fst ‹_ = (_, _)› ?_)
    | (lift_lets; intro x; first | (refine (fun (hx : Kept s0 x) => ?_) ?_; clear_value x) | clear_value x)
    | (intro x; refine (fun (hx : Kept s0 x) => ?_) ?_; clear_value x) | (intro x; clear_value x) | dsimp only)

theorem State.writeSegs_kept {s : State} (h : Kept s0 s) (l : List Seg) (n : Nat) : Kept s0 (State.writeSegs s l n) := by
  induction l generalizing s n with
  | nil => exact h
  | cons g gs ih =>
    unfold State.writeSegs
    refine ih ?_ _
    have k := State.fset_kept (State.fsetB_kept (State.fset_kept h (Reg.CCS_SEG_TGT_TARGET n) (Nat.min g.target s.ceiling))
      (Reg.CCS_SEG_TGT_LAST n) g.last) (Reg.CCS_SEG_SLP_SLOPE n) g.slope
    exact kept_ite (State.fsetB_kept k _ _) k

theorem State.startSeg_kept {s : State} (h : Kept s0 s) (g : Seg) (rest : List Seg) : Kept s0 (State.startSeg s g rest) := by
  unfold State.startSeg
  repeat' (first
    | with_reducible assumption | with_reducible exact Kept.refl _ | with_reducible apply State.ccsMod_kept
    | with_reducible apply State.fsetB_kept | with_reducible apply kept_ite | split
    | with_reducible exact kept_snd ‹_ = _› (by assumption) | (with_reducible refine kept_snd ‹_ = (_, _)› ?_)
    | (with_reducible refine kept_fst ‹_ = (_, _)› ?_)
    | (lift_lets; intro x; first | (refine (fun (hx : Kept s0 x) => ?_) ?_; clear_value x) | clear_value x)
    | (intro x; refine (fun (hx : Kept s0 x) => ?_) ?_; clear_value x) | (intro x; clear_value x))

theorem State.coreClose_kept {s : State} (h : Kept s0 s)  : Kept s0 (State.coreClose s) := by
  unfold State.coreClose
  repeat' (first
    | with_reducible assumption | with_reducible exact Kept.refl _ | with_reducible apply State.ccsMod_kept
    | with_reducible apply State.profileEnd_kept | with_reducible apply kept_ite | with_reducible apply kept_ite1
    | with_reducible apply kept_ite2 | split | with_reducible exact kept_snd ‹_ = _› (by assumption)
    | (with_reducible refine kept_snd ‹_ = (_, _)› ?_) | (with_reducible refine kept_fst ‹_ = (_, _)› ?_)
    | (lift_lets; intro x; first | (refine (fun (hx : Kept s0 x) => ?_) ?_; clear_value x) | clear_value x)
    | (intro x; refine (fun (hx : Kept s0 x) => ?_) ?_; clear_value x) | (intro x; clear_value x) | dsimp only)

theorem State.coreOpen_kept {s : State} (h : Kept s0 s)  : Kept s0 (State.coreOpen s) := by
  unfold State.coreOpen
  repeat' (first
    | with_reducible assumption | with_reducible exact Kept.refl _ | with_reducible apply State.ccsMod_kept
    | with_reducible apply State.evt_kept | with_reducible apply State.fsetB_kept | with_reducible apply State.rsetN_kept
    | with_reducible apply State.showFreq_kept | with_reducible apply State.startSeg_kept
    | with_reducible apply State.writeSegs_kept | with_reducible apply kept_ite | with_reducible apply kept_ite1
    | with_reducible apply kept_ite2 | split | with_reducible exact kept_snd ‹_ = _› (by assumption)
    | (with_reducible refine kept_snd ‹_ = (_, _)› ?_) | (with_reducible refine kept_fst ‹_ = (_, _)› ?_)
    | (lift_lets; intro x; first | (refine (fun (hx : Kept s0 x) => ?_) ?_; clear_value x) | clear_value x)
    | (intro x; refine (fun (hx : Kept s0 x) => ?_) ?_; clear_value x) | (intro x; clear_value x) | dsimp only)

theorem State.icsStart_kept {s : State} (h : Kept s0 s) (t : Nat) : Kept s0 (State.icsStart s t) := by
  unfold State.icsStart
  repeat' (first
    | with_reducible assumption | with_reducible exact Kept.refl _ | with_reducible apply State.fsetB_kept
    | with_reducible apply kept_ite | split | with_reducible exact kept_snd ‹_ = _› (by assumption)
    | (with_reducible refine kept_snd ‹_ = (_, _)› ?_) | (with_reducible refine kept_fst ‹_ = (_, _)› ?_)
    | (lift_lets; intro x; first | (refine (fun (hx : Kept s0 x) => ?_) ?_; clear_value x) | clear_value x)
    | (intro x; refine (fun (hx : Kept s0 x) => ?_) ?_; clear_value x) | (intro x; clear_value x) | exact id
    | with_reducible exact rfl | with_reducible exact Nat.le_refl _ | with_reducible exact modifyAt_length _ _ _
    | with_reducible exact List.length_map _ | ((with_reducible refine (id ?_ : (_ : Nat) = _)); exact rfl)
    | with_reducible refine Kept.upd ?_ ?_ ?_ ?_ ?_ ?_ ?_ ?_)

theorem State.lkfFault_kept {s : State} (h : Kept s0 s)  : Kept s0 (State.lkfFault s) := by
  unfold State.lkfFault
  repeat' (first
    | with_reducible assumption | with_reducible exact Kept.refl _ | with_reducible apply State.evt_kept
    | with_reducible apply State.fault_kept | with_reducible apply State.fsetB_kept
    | (lift_lets; intro x; first | (refine (fun (hx : Kept s0 x) => ?_) ?_; clear_value x) | skip)
    | (intro x; refine (fun (hx : Kept s0 x) => ?_) ?_; clear_value x) | (intro x; skip) | exact id | with_reducible exact rfl
    | with_reducible exact Nat.le_refl _ | with_reducible exact modifyAt_length _ _ _ | with_reducible exact List.length_map _
    | ((with_reducible refine (id ?_ : (_ : Nat) = _)); exact rfl) | with_reducible refine Kept.upd ?_ ?_ ?_ ?_ ?_ ?_ ?_ ?_)

theorem State.icsLocked_kept {s : State} (h : Kept s0 s)  : Kept s0 (State.icsLocked s) := by
  unfold State.icsLocked
  repeat' (first
    | with_reducible assumption | with_reducible exact Kept.refl _ | with_reducible apply State.evt_kept
    | with_reducible apply State.fsetB_kept | with_reducible apply State.nfWp_kept | with_reducible apply kept_ite | split
    | with_reducible exact kept_snd ‹_ = _› (by assumption) | (with_reducible refine kept_snd ‹_ = (_, _)› ?_)
    | (with_reducible refine kept_fst ‹_ = (_, _)› ?_)
    | (lift_lets; intro x; first | (refine (fun (hx : Kept s0 x) => ?_) ?_; clear_value x) | clear_value x)
    | (intro x; refine (fun (hx : Kept s0 x) => ?_) ?_; clear_value x) | (intro x; clear_value x))

theorem execIcsPrechargeEnd_kept (node : Nat) (s : State) : ∃ out, execIcsPrechargeEnd node s = .next out ∧ Kept s out := by
  refine ⟨_, rfl, ?_⟩
  have h : Kept s s := Kept.refl s
  repeat' (first
    | with_reducible assumption | with_reducible exact Kept.refl _ | with_reducible apply State.at_kept
    | with_reducible apply State.fsetB_kept | with_reducible apply State.lkfFault_kept | with_reducible apply kept_ite | split
    | (lift_lets; intro x; first | (refine (fun (hx : Kept s x) => ?_) ?_; clear_value x) | skip)
    | (intro x; refine (fun (hx : Kept s x) => ?_) ?_; clear_value x) | (intro x; skip) | dsimp only | exact id
    | with_reducible exact rfl | with_reducible exact Nat.le_refl _ | with_reducible exact modifyAt_length _ _ _
    | with_reducible exact List.length_map _ | ((with_reducible refine (id ?_ : (_ : Nat) = _)); exact rfl)
    | with_reducible refine Kept.upd ?_ ?_ ?_ ?_ ?_ ?_ ?_ ?_)

theorem execLkfReleaseCheck_kept (node : Nat) (s : State) : ∃ out, execLkfReleaseCheck node s = .next out ∧ Kept s out := by
  refine ⟨_, rfl, ?_⟩
  have h : Kept s s := Kept.refl s
  repeat' (first
    | with_reducible assumption | with_reducible exact Kept.refl _ | with_reducible apply State.at_kept
    | with_reducible apply State.lkfFault_kept | with_reducible apply kept_ite | split
    | (lift_lets; intro x; first | (refine (fun (hx : Kept s x) => ?_) ?_; clear_value x) | clear_value x)
    | (intro x; refine (fun (hx : Kept s x) => ?_) ?_; clear_value x) | (intro x; clear_value x) | dsimp only)

theorem State.twAbandon_kept {s : State} (h : Kept s0 s) (b : Nat) : Kept s0 (State.twAbandon s b) := by
  unfold State.twAbandon
  repeat' (first
    | with_reducible assumption | with_reducible exact Kept.refl _ | with_reducible apply State.busMod_kept
    | with_reducible apply State.fsetB_kept | with_reducible apply kept_ite | split
    | with_reducible exact kept_snd ‹_ = _› (by assumption) | (with_reducible refine kept_snd ‹_ = (_, _)› ?_)
    | (with_reducible refine kept_fst ‹_ = (_, _)› ?_)
    | (lift_lets; intro x; first | (refine (fun (hx : Kept s0 x) => ?_) ?_; clear_value x) | clear_value x)
    | (intro x; refine (fun (hx : Kept s0 x) => ?_) ?_; clear_value x) | (intro x; clear_value x))

theorem execIcsLockLost_kept (t : Nat) (s : State) : ∃ out, execIcsLockLost t s = .next out ∧ Kept s out := by
  refine ⟨_, rfl, ?_⟩
  have h : Kept s s := Kept.refl s
  repeat' (first
    | with_reducible assumption | with_reducible exact Kept.refl _ | with_reducible apply State.at_kept
    | with_reducible apply State.evt_kept | with_reducible apply State.fsetB_kept | with_reducible apply State.icsPause_kept
    | with_reducible apply State.icsStart_kept | with_reducible apply State.nfWp_kept | with_reducible apply State.twAbandon_kept
    | with_reducible apply kept_ite | with_reducible apply kept_ite1 | with_reducible apply kept_ite2 | split
    | with_reducible exact kept_snd ‹_ = _› (by assumption) | (with_reducible refine kept_snd ‹_ = (_, _)› ?_)
    | (with_reducible refine kept_fst ‹_ = (_, _)› ?_)
    | (lift_lets; intro x; first | (refine (fun (hx : Kept s x) => ?_) ?_; clear_value x) | clear_value x)
    | (intro x; refine (fun (hx : Kept s x) => ?_) ?_; clear_value x) | (intro x; clear_value x) | dsimp only)

theorem execLkfFaultTimeout_kept  (s : State) : ∃ out, execLkfFaultTimeout s = .next out ∧ Kept s out := by
  refine ⟨_, rfl, ?_⟩
  have h : Kept s s := Kept.refl s
  repeat' (first
    | with_reducible assumption | with_reducible exact Kept.refl _ | with_reducible apply State.at_kept
    | with_reducible apply State.lkfFault_kept | split)

end Sys2Proof.Laws
end

