-- ==== Sys2Proof/Laws/KeptTimebase.lean ====
section
/-!
SUPPORT. What the operations of Machine/Timebase.lean keep.
-/

set_option linter.all false

namespace Sys2Proof.Laws

open Sys2Proof.Machine


variable {s0 : State}

theorem State.timeMod_kept {s : State} (h : Kept s0 s) (f : TimeS → TimeS)
    (hf : (f s.time).latches.length = s.time.latches.length ∧ s.time.stu ≤ (f s.time).stu ∧ (f s.time).tick = s.time.tick) :
    Kept s0 (State.timeMod s f) := h.upd rfl rfl rfl hf.1 id hf.2.1 hf.2.2

theorem State.rdStu_kept {s : State} (h : Kept s0 s) (k : Nat) : Kept s0 (State.rdStu s k) := by
  unfold State.rdStu
  repeat' (first
    | with_reducible assumption | with_reducible exact Kept.refl _ | with_reducible refine State.timeMod_kept ?_ _ ?_
    | (lift_lets; intro x; first | (refine (fun (hx : Kept s0 x) => ?_) ?_; clear_value x) | skip)
    | (intro x; refine (fun (hx : Kept s0 x) => ?_) ?_; clear_value x) | (intro x; skip)
    | exact ⟨modifyAt_length _ _ _, Nat.le_refl _, rfl⟩ | exact ⟨rfl, Nat.le_refl _, rfl⟩ | exact ⟨rfl, Nat.le_max_left _ _, rfl⟩
    | exact ⟨rfl, Nat.le_add_right _ _, rfl⟩ | with_reducible exact rfl | with_reducible exact Nat.le_refl _
    | with_reducible exact modifyAt_length _ _ _ | with_reducible exact List.length_map _
    | ((with_reducible refine (id ?_ : (_ : Nat) = _)); exact rfl) | with_reducible refine And.intro ?_ ?_)

theorem State.rejectObs_kept {s : State} (h : Kept s0 s) (n : Nat) : Kept s0 (State.rejectObs s n) := by
  unfold State.rejectObs
  repeat' (first
    | exact id | with_reducible assumption | with_reducible exact Kept.refl _ | with_reducible apply State.evt_kept
    | with_reducible refine State.timeMod_kept ?_ _ ?_ | with_reducible apply kept_ite | split
    | with_reducible exact kept_snd ‹_ = _› (by assumption) | (with_reducible refine kept_snd ‹_ = (_, _)› ?_)
    | (with_reducible refine kept_fst ‹_ = (_, _)› ?_)
    | (lift_lets; intro x; first | (refine (fun (hx : Kept s0 x) => ?_) ?_; clear_value x) | skip)
    | (intro x; refine (fun (hx : Kept s0 x) => ?_) ?_; clear_value x) | (intro x; skip)
    | exact ⟨modifyAt_length _ _ _, Nat.le_refl _, rfl⟩ | exact ⟨rfl, Nat.le_refl _, rfl⟩ | exact ⟨rfl, Nat.le_max_left _ _, rfl⟩
    | exact ⟨rfl, Nat.le_add_right _ _, rfl⟩ | exact ⟨modifyAt_length _ _ _, modifyAt_length _ _ _⟩
    | exact ⟨rfl, modifyAt_length _ _ _⟩ | exact ⟨modifyAt_length _ _ _, rfl⟩ | exact ⟨rfl, rfl⟩ | with_reducible exact rfl
    | with_reducible exact Nat.le_refl _ | with_reducible exact modifyAt_length _ _ _ | with_reducible exact List.length_map _
    | ((with_reducible refine (id ?_ : (_ : Nat) = _)); exact rfl) | with_reducible refine And.intro ?_ ?_)

theorem State.tobs_kept {s : State} (h : Kept s0 s) (r : Rec) : Kept s0 (State.tobs s r) := by
  unfold State.tobs
  repeat' (first
    | exact id | with_reducible assumption | with_reducible exact Kept.refl _ | with_reducible apply State.rejectObs_kept
    | with_reducible refine State.timeMod_kept ?_ _ ?_ | with_reducible apply kept_ite | split
    | with_reducible exact kept_snd ‹_ = _› (by assumption) | (with_reducible refine kept_snd ‹_ = (_, _)› ?_)
    | (with_reducible refine kept_fst ‹_ = (_, _)› ?_)
    | (lift_lets; intro x; first | (refine (fun (hx : Kept s0 x) => ?_) ?_; clear_value x) | skip)
    | (intro x; refine (fun (hx : Kept s0 x) => ?_) ?_; clear_value x) | (intro x; skip)
    | exact ⟨modifyAt_length _ _ _, Nat.le_refl _, rfl⟩ | exact ⟨rfl, Nat.le_refl _, rfl⟩ | exact ⟨rfl, Nat.le_max_left _ _, rfl⟩
    | exact ⟨rfl, Nat.le_add_right _ _, rfl⟩ | exact ⟨modifyAt_length _ _ _, modifyAt_length _ _ _⟩
    | exact ⟨rfl, modifyAt_length _ _ _⟩ | exact ⟨modifyAt_length _ _ _, rfl⟩ | exact ⟨rfl, rfl⟩ | with_reducible exact rfl
    | with_reducible exact Nat.le_refl _ | with_reducible exact modifyAt_length _ _ _ | with_reducible exact List.length_map _
    | ((with_reducible refine (id ?_ : (_ : Nat) = _)); exact rfl) | with_reducible refine And.intro ?_ ?_)

theorem State.trackClass_kept {s : State} (h : Kept s0 s)  : Kept s0 (State.trackClass s) := by
  unfold State.trackClass
  repeat' (first
    | exact id | with_reducible assumption | with_reducible exact Kept.refl _ | with_reducible refine State.timeMod_kept ?_ _ ?_
    | with_reducible apply kept_ite | split | with_reducible exact kept_snd ‹_ = _› (by assumption)
    | (with_reducible refine kept_snd ‹_ = (_, _)› ?_) | (with_reducible refine kept_fst ‹_ = (_, _)› ?_)
    | (lift_lets; intro x; first | (refine (fun (hx : Kept s0 x) => ?_) ?_; clear_value x) | skip)
    | (intro x; refine (fun (hx : Kept s0 x) => ?_) ?_; clear_value x) | (intro x; skip)
    | exact ⟨modifyAt_length _ _ _, Nat.le_refl _, rfl⟩ | exact ⟨rfl, Nat.le_refl _, rfl⟩ | exact ⟨rfl, Nat.le_max_left _ _, rfl⟩
    | exact ⟨rfl, Nat.le_add_right _ _, rfl⟩ | exact ⟨modifyAt_length _ _ _, modifyAt_length _ _ _⟩
    | exact ⟨rfl, modifyAt_length _ _ _⟩ | exact ⟨modifyAt_length _ _ _, rfl⟩ | exact ⟨rfl, rfl⟩ | with_reducible exact rfl
    | with_reducible exact Nat.le_refl _ | with_reducible exact modifyAt_length _ _ _ | with_reducible exact List.length_map _
    | ((with_reducible refine (id ?_ : (_ : Nat) = _)); exact rfl) | with_reducible refine And.intro ?_ ?_)

theorem State.ppsRejudge_kept {s : State} (h : Kept s0 s)  : Kept s0 (State.ppsRejudge s) := by
  unfold State.ppsRejudge
  repeat' (first
    | exact id | with_reducible assumption | with_reducible exact Kept.refl _ | with_reducible refine State.timeMod_kept ?_ _ ?_
    | with_reducible apply kept_ite | with_reducible apply kept_ite1 | with_reducible apply kept_ite2 | split
    | with_reducible exact kept_snd ‹_ = _› (by assumption) | (with_reducible refine kept_snd ‹_ = (_, _)› ?_)
    | (with_reducible refine kept_fst ‹_ = (_, _)› ?_)
    | (lift_lets; intro x; first | (refine (fun (hx : Kept s0 x) => ?_) ?_; clear_value x) | skip)
    | (intro x; refine (fun (hx : Kept s0 x) => ?_) ?_; clear_value x) | (intro x; skip) | dsimp only
    | exact ⟨modifyAt_length _ _ _, Nat.le_refl _, rfl⟩ | exact ⟨rfl, Nat.le_refl _, rfl⟩ | exact ⟨rfl, Nat.le_max_left _ _, rfl⟩
    | exact ⟨rfl, Nat.le_add_right _ _, rfl⟩ | exact ⟨modifyAt_length _ _ _, modifyAt_length _ _ _⟩
    | exact ⟨rfl, modifyAt_length _ _ _⟩ | exact ⟨modifyAt_length _ _ _, rfl⟩ | exact ⟨rfl, rfl⟩ | with_reducible exact rfl
    | with_reducible exact Nat.le_refl _ | with_reducible exact modifyAt_length _ _ _ | with_reducible exact List.length_map _
    | ((with_reducible refine (id ?_ : (_ : Nat) = _)); exact rfl) | with_reducible refine And.intro ?_ ?_)

theorem State.correct_kept {s : State} (h : Kept s0 s) (c : TimeClass) (l : List Obs) : Kept s0 (State.correct s c l) := by
  unfold State.correct
  dsimp only
  have k : ∀ (t1 : TimeS) (f : Reg.Fld) (n : Nat), t1.latches.length = s.time.latches.length → s.time.stu ≤ t1.stu → t1.tick = s.time.tick → Kept s0 (({ s with time := t1 } : State).fset f n) :=
    fun _ f n ht hs hk => State.fset_kept (h.upd rfl rfl rfl ht id hs hk) f n
  split
  · exact h
  · split
    · with_reducible apply State.bkpWantDisc_kept
      with_reducible apply State.witStep_kept
      with_reducible apply State.evt_kept
      with_reducible apply State.ppsRejudge_kept
      exact k _ _ _ rfl (Nat.le_refl _) rfl
    · exact k _ _ _ rfl (Nat.le_refl _) rfl

theorem State.takeUtc_kept {s : State} (h : Kept s0 s) (l : List Obs) : Kept s0 (State.takeUtc s l) := by
  unfold State.takeUtc
  extract_lets us
  clear_value us
  split
  · exact h
  · refine kept_ite ?_ h
    extract_lets ch same s1 s2
    have h1 : Kept s0 s1 := State.fsetB_kept (State.fset_kept (State.fset_kept (State.fset_kept h _ _) _ _) _ _) _ _
    clear_value s1
    have h2 : Kept s0 s2 := State.timeMod_kept (State.rsetN_kept h1 _ _) _ ⟨rfl, Nat.le_refl _, rfl⟩
    clear_value s2
    exact kept_ite h (kept_ite (State.evt_kept h2 _) h2)

theorem State.bcastSeen_kept {s : State} (h : Kept s0 s) (g : List Obs) : Kept s0 (State.bcastSeen s g) := by
  unfold State.bcastSeen
  repeat' (first
    | with_reducible assumption | with_reducible exact Kept.refl _ | with_reducible refine State.timeMod_kept ?_ _ ?_
    | exact ⟨modifyAt_length _ _ _, Nat.le_refl _, rfl⟩ | exact ⟨rfl, Nat.le_refl _, rfl⟩ | exact ⟨rfl, Nat.le_max_left _ _, rfl⟩
    | exact ⟨rfl, Nat.le_add_right _ _, rfl⟩ | with_reducible exact rfl | with_reducible exact Nat.le_refl _
    | with_reducible exact modifyAt_length _ _ _ | with_reducible exact List.length_map _
    | ((with_reducible refine (id ?_ : (_ : Nat) = _)); exact rfl) | with_reducible refine And.intro ?_ ?_)

theorem State.evaluate_kept {s : State} (h : Kept s0 s)  : Kept s0 (State.evaluate s) := by
  unfold State.evaluate
  repeat' (first
    | with_reducible assumption | with_reducible exact Kept.refl _ | with_reducible apply State.bcastSeen_kept
    | with_reducible apply State.bkpWantDisc_kept | with_reducible apply State.correct_kept
    | with_reducible apply State.oscGo_kept | with_reducible apply State.rejectObs_kept
    | with_reducible apply State.takeUtc_kept | with_reducible refine State.timeMod_kept ?_ _ ?_
    | with_reducible apply kept_ite | with_reducible apply kept_ite1 | with_reducible apply kept_ite2 | split
    | with_reducible exact kept_snd ‹_ = _› (by assumption) | (with_reducible refine kept_snd ‹_ = (_, _)› ?_)
    | (with_reducible refine kept_fst ‹_ = (_, _)› ?_)
    | (lift_lets; intro x; first | (refine (fun (hx : Kept s0 x) => ?_) ?_; clear_value x) | clear_value x)
    | (intro x; refine (fun (hx : Kept s0 x) => ?_) ?_; clear_value x) | (intro x; clear_value x) | dsimp only | exact id
    | exact ⟨rfl, Nat.le_refl _, rfl⟩ | with_reducible exact rfl | with_reducible exact Nat.le_refl _
    | with_reducible exact modifyAt_length _ _ _ | with_reducible exact List.length_map _
    | ((with_reducible refine (id ?_ : (_ : Nat) = _)); exact rfl) | with_reducible refine Kept.upd ?_ ?_ ?_ ?_ ?_ ?_ ?_ ?_)

theorem execDisciplineEvaluation_kept  (s : State) : ∃ out, execDisciplineEvaluation s = .next out ∧ Kept s out := by
  refine ⟨_, rfl, ?_⟩
  have h : Kept s s := Kept.refl s
  repeat' (first
    | with_reducible assumption | with_reducible exact Kept.refl _ | with_reducible apply State.at_kept
    | with_reducible apply State.evaluate_kept | with_reducible apply kept_ite | split)

theorem State.applyClaims_kept {s : State} (h : Kept s0 s)  : Kept s0 (State.applyClaims s) := by
  unfold State.applyClaims
  repeat' (first
    | with_reducible assumption | with_reducible exact Kept.refl _ | with_reducible apply State.correct_kept
    | with_reducible refine State.timeMod_kept ?_ _ ?_ | with_reducible apply kept_ite | split
    | (lift_lets; intro x; first | (refine (fun (hx : Kept s0 x) => ?_) ?_; clear_value x) | skip)
    | (intro x; refine (fun (hx : Kept s0 x) => ?_) ?_; clear_value x) | (intro x; skip)
    | exact ⟨modifyAt_length _ _ _, Nat.le_refl _, rfl⟩ | exact ⟨rfl, Nat.le_refl _, rfl⟩ | exact ⟨rfl, Nat.le_max_left _ _, rfl⟩
    | exact ⟨rfl, Nat.le_add_right _ _, rfl⟩ | with_reducible exact rfl | with_reducible exact Nat.le_refl _
    | with_reducible exact modifyAt_length _ _ _ | with_reducible exact List.length_map _
    | ((with_reducible refine (id ?_ : (_ : Nat) = _)); exact rfl) | with_reducible refine And.intro ?_ ?_)

theorem State.hostLoad_kept {s : State} (h : Kept s0 s)  : Kept s0 (State.hostLoad s) := by
  unfold State.hostLoad
  repeat' (first
    | with_reducible assumption | with_reducible exact Kept.refl _ | with_reducible apply State.evt_kept
    | with_reducible refine State.timeMod_kept ?_ _ ?_ | with_reducible apply kept_ite | split
    | (lift_lets; intro x; first | (refine (fun (hx : Kept s0 x) => ?_) ?_; clear_value x) | skip)
    | (intro x; refine (fun (hx : Kept s0 x) => ?_) ?_; clear_value x) | (intro x; skip)
    | exact ⟨modifyAt_length _ _ _, Nat.le_refl _, rfl⟩ | exact ⟨rfl, Nat.le_refl _, rfl⟩ | exact ⟨rfl, Nat.le_max_left _ _, rfl⟩
    | exact ⟨rfl, Nat.le_add_right _ _, rfl⟩ | with_reducible exact rfl | with_reducible exact Nat.le_refl _
    | with_reducible exact modifyAt_length _ _ _ | with_reducible exact List.length_map _
    | ((with_reducible refine (id ?_ : (_ : Nat) = _)); exact rfl) | with_reducible refine And.intro ?_ ?_)

theorem State.rtcStart_kept {s : State} (h : Kept s0 s) (edge raw : Nat) : Kept s0 (State.rtcStart s edge raw) := by
  unfold State.rtcStart
  repeat' (first
    | exact id | with_reducible assumption | with_reducible exact Kept.refl _ | with_reducible apply State.captureAt_kept
    | with_reducible apply State.fset_kept | with_reducible apply State.osc_kept
    | with_reducible refine State.timeMod_kept ?_ _ ?_ | with_reducible apply kept_ite | split
    | with_reducible exact kept_snd ‹_ = _› (by assumption) | (with_reducible refine kept_snd ‹_ = (_, _)› ?_)
    | (with_reducible refine kept_fst ‹_ = (_, _)› ?_)
    | (lift_lets; intro x; first | (refine (fun (hx : Kept s0 x) => ?_) ?_; clear_value x) | skip)
    | (intro x; refine (fun (hx : Kept s0 x) => ?_) ?_; clear_value x) | (intro x; skip)
    | exact ⟨modifyAt_length _ _ _, Nat.le_refl _, rfl⟩ | exact ⟨rfl, Nat.le_refl _, rfl⟩ | exact ⟨rfl, Nat.le_max_left _ _, rfl⟩
    | exact ⟨rfl, Nat.le_add_right _ _, rfl⟩ | exact ⟨modifyAt_length _ _ _, modifyAt_length _ _ _⟩
    | exact ⟨rfl, modifyAt_length _ _ _⟩ | exact ⟨modifyAt_length _ _ _, rfl⟩ | exact ⟨rfl, rfl⟩ | with_reducible exact rfl
    | with_reducible exact Nat.le_refl _ | with_reducible exact modifyAt_length _ _ _ | with_reducible exact List.length_map _
    | ((with_reducible refine (id ?_ : (_ : Nat) = _)); exact rfl) | with_reducible refine And.intro ?_ ?_)

theorem execLeapChange_kept  (s : State) : ∃ out, execLeapChange s = .next out ∧ Kept s out := by
  refine ⟨_, rfl, ?_⟩
  have h : Kept s s := Kept.refl s
  repeat' (first
    | with_reducible assumption | with_reducible exact Kept.refl _ | with_reducible apply State.at_kept
    | with_reducible apply State.evt_kept | with_reducible apply State.fset_kept | with_reducible apply State.fsetB_kept
    | with_reducible apply kept_ite | split
    | (lift_lets; intro x; first | (refine (fun (hx : Kept s x) => ?_) ?_; clear_value x) | clear_value x)
    | (intro x; refine (fun (hx : Kept s x) => ?_) ?_; clear_value x) | (intro x; clear_value x))

theorem State.wrUtc_kept {s : State} (h : Kept s0 s) (v : Word) : Kept s0 (State.wrUtc s v) := by
  unfold State.wrUtc
  repeat' (first
    | with_reducible assumption | with_reducible exact Kept.refl _ | with_reducible apply State.evt_kept
    | with_reducible refine State.timeMod_kept ?_ _ ?_ | with_reducible apply State.wr_kept | with_reducible apply kept_ite | split
    | (lift_lets; intro x; first | (refine (fun (hx : Kept s0 x) => ?_) ?_; clear_value x) | skip)
    | (intro x; refine (fun (hx : Kept s0 x) => ?_) ?_; clear_value x) | (intro x; skip)
    | exact ⟨modifyAt_length _ _ _, Nat.le_refl _, rfl⟩ | exact ⟨rfl, Nat.le_refl _, rfl⟩ | exact ⟨rfl, Nat.le_max_left _ _, rfl⟩
    | exact ⟨rfl, Nat.le_add_right _ _, rfl⟩ | with_reducible exact rfl | with_reducible exact Nat.le_refl _
    | with_reducible exact modifyAt_length _ _ _ | with_reducible exact List.length_map _
    | ((with_reducible refine (id ?_ : (_ : Nat) = _)); exact rfl) | with_reducible refine And.intro ?_ ?_)

theorem State.wrLeapAt_kept {s : State} (h : Kept s0 s) (v : Word) : Kept s0 (State.wrLeapAt s v) := by
  unfold State.wrLeapAt
  repeat' (first
    | exact id | with_reducible assumption | with_reducible exact Kept.refl _ | with_reducible refine State.timeMod_kept ?_ _ ?_
    | with_reducible apply State.wr_kept | with_reducible apply kept_ite | split
    | with_reducible exact kept_snd ‹_ = _› (by assumption) | (with_reducible refine kept_snd ‹_ = (_, _)› ?_)
    | (with_reducible refine kept_fst ‹_ = (_, _)› ?_)
    | (lift_lets; intro x; first | (refine (fun (hx : Kept s0 x) => ?_) ?_; clear_value x) | skip)
    | (intro x; refine (fun (hx : Kept s0 x) => ?_) ?_; clear_value x) | (intro x; skip)
    | exact ⟨modifyAt_length _ _ _, Nat.le_refl _, rfl⟩ | exact ⟨rfl, Nat.le_refl _, rfl⟩ | exact ⟨rfl, Nat.le_max_left _ _, rfl⟩
    | exact ⟨rfl, Nat.le_add_right _ _, rfl⟩ | exact ⟨modifyAt_length _ _ _, modifyAt_length _ _ _⟩
    | exact ⟨rfl, modifyAt_length _ _ _⟩ | exact ⟨modifyAt_length _ _ _, rfl⟩ | exact ⟨rfl, rfl⟩ | with_reducible exact rfl
    | with_reducible exact Nat.le_refl _ | with_reducible exact modifyAt_length _ _ _ | with_reducible exact List.length_map _
    | ((with_reducible refine (id ?_ : (_ : Nat) = _)); exact rfl) | with_reducible refine And.intro ?_ ?_)

theorem State.wrTbCtrl_kept {s : State} (h : Kept s0 s) (v : Word) : Kept s0 (State.wrTbCtrl s v) := by
  unfold State.wrTbCtrl
  repeat' (first
    | with_reducible assumption | with_reducible exact Kept.refl _ | with_reducible apply State.hostLoad_kept
    | with_reducible apply State.trackClass_kept | with_reducible apply State.wr_kept | with_reducible apply kept_ite | split
    | with_reducible exact kept_snd ‹_ = _› (by assumption) | (with_reducible refine kept_snd ‹_ = (_, _)› ?_)
    | (with_reducible refine kept_fst ‹_ = (_, _)› ?_)
    | (lift_lets; intro x; first | (refine (fun (hx : Kept s0 x) => ?_) ?_; clear_value x) | clear_value x)
    | (intro x; refine (fun (hx : Kept s0 x) => ?_) ?_; clear_value x) | (intro x; clear_value x))

theorem State.wrDisc_kept {s : State} (h : Kept s0 s) (v : Word) : Kept s0 (State.wrDisc s v) := by
  unfold State.wrDisc
  repeat' (first
    | with_reducible assumption | with_reducible exact Kept.refl _ | with_reducible apply State.trackClass_kept
    | with_reducible apply State.wr_kept | with_reducible apply kept_ite | split
    | with_reducible exact kept_snd ‹_ = _› (by assumption) | (with_reducible refine kept_snd ‹_ = (_, _)› ?_)
    | (with_reducible refine kept_fst ‹_ = (_, _)› ?_)
    | (lift_lets; intro x; first | (refine (fun (hx : Kept s0 x) => ?_) ?_; clear_value x) | clear_value x)
    | (intro x; refine (fun (hx : Kept s0 x) => ?_) ?_; clear_value x) | (intro x; clear_value x))

theorem State.wrCoast_kept {s : State} (h : Kept s0 s) (v : Word) : Kept s0 (State.wrCoast s v) := by
  unfold State.wrCoast
  repeat' (first
    | with_reducible assumption | with_reducible exact Kept.refl _ | with_reducible apply State.foldUnc_kept
    | with_reducible apply State.wr_kept | with_reducible apply kept_ite | split
    | with_reducible exact kept_snd ‹_ = _› (by assumption) | (with_reducible refine kept_snd ‹_ = (_, _)› ?_)
    | (with_reducible refine kept_fst ‹_ = (_, _)› ?_)
    | (lift_lets; intro x; first | (refine (fun (hx : Kept s0 x) => ?_) ?_; clear_value x) | clear_value x)
    | (intro x; refine (fun (hx : Kept s0 x) => ?_) ?_; clear_value x) | (intro x; clear_value x))

theorem State.wrPpso_kept {s : State} (h : Kept s0 s) (v : Word) : Kept s0 (State.wrPpso s v) := by
  unfold State.wrPpso
  repeat' (first
    | exact id | with_reducible assumption | with_reducible exact Kept.refl _ | with_reducible refine State.timeMod_kept ?_ _ ?_
    | with_reducible apply State.wr_kept | with_reducible apply kept_ite | split
    | with_reducible exact kept_snd ‹_ = _› (by assumption) | (with_reducible refine kept_snd ‹_ = (_, _)› ?_)
    | (with_reducible refine kept_fst ‹_ = (_, _)› ?_)
    | (lift_lets; intro x; first | (refine (fun (hx : Kept s0 x) => ?_) ?_; clear_value x) | skip)
    | (intro x; refine (fun (hx : Kept s0 x) => ?_) ?_; clear_value x) | (intro x; skip)
    | exact ⟨modifyAt_length _ _ _, Nat.le_refl _, rfl⟩ | exact ⟨rfl, Nat.le_refl _, rfl⟩ | exact ⟨rfl, Nat.le_max_left _ _, rfl⟩
    | exact ⟨rfl, Nat.le_add_right _ _, rfl⟩ | exact ⟨modifyAt_length _ _ _, modifyAt_length _ _ _⟩
    | exact ⟨rfl, modifyAt_length _ _ _⟩ | exact ⟨modifyAt_length _ _ _, rfl⟩ | exact ⟨rfl, rfl⟩ | with_reducible exact rfl
    | with_reducible exact Nat.le_refl _ | with_reducible exact modifyAt_length _ _ _ | with_reducible exact List.length_map _
    | ((with_reducible refine (id ?_ : (_ : Nat) = _)); exact rfl) | with_reducible refine And.intro ?_ ?_)

theorem State.spoofCheck_kept {s : State} (h : Kept s0 s) (err : Int) : Kept s0 (State.spoofCheck s err) := by
  unfold State.spoofCheck
  repeat' (first
    | with_reducible assumption | with_reducible exact Kept.refl _ | with_reducible apply State.evt_kept
    | with_reducible apply State.fsetB_kept | with_reducible refine State.timeMod_kept ?_ _ ?_ | with_reducible apply kept_ite | split
    | (lift_lets; intro x; first | (refine (fun (hx : Kept s0 x) => ?_) ?_; clear_value x) | skip)
    | (intro x; refine (fun (hx : Kept s0 x) => ?_) ?_; clear_value x) | (intro x; skip)
    | exact ⟨modifyAt_length _ _ _, Nat.le_refl _, rfl⟩ | exact ⟨rfl, Nat.le_refl _, rfl⟩ | exact ⟨rfl, Nat.le_max_left _ _, rfl⟩
    | exact ⟨rfl, Nat.le_add_right _ _, rfl⟩ | with_reducible exact rfl | with_reducible exact Nat.le_refl _
    | with_reducible exact modifyAt_length _ _ _ | with_reducible exact List.length_map _
    | ((with_reducible refine (id ?_ : (_ : Nat) = _)); exact rfl) | with_reducible refine And.intro ?_ ?_)

theorem execPpsEdge_kept (falling : Bool) (t : Nat) (s : State) : ∃ out, execPpsEdge falling t s = .next out ∧ Kept s out := by
  refine ⟨_, rfl, ?_⟩
  have h : Kept s s := Kept.refl s
  repeat' (first
    | exact id | with_reducible assumption | with_reducible exact Kept.refl _ | with_reducible apply State.at_kept
    | with_reducible apply State.evt_kept | with_reducible apply State.rset64_kept | with_reducible apply State.rsetN_kept
    | with_reducible apply State.spoofCheck_kept | with_reducible refine State.timeMod_kept ?_ _ ?_
    | with_reducible apply State.trackClass_kept | with_reducible apply kept_ite | split
    | with_reducible exact kept_snd ‹_ = _› (by assumption) | (with_reducible refine kept_snd ‹_ = (_, _)› ?_)
    | (with_reducible refine kept_fst ‹_ = (_, _)› ?_)
    | (lift_lets; intro x; first | (refine (fun (hx : Kept s x) => ?_) ?_; clear_value x) | skip)
    | (intro x; refine (fun (hx : Kept s x) => ?_) ?_; clear_value x) | (intro x; skip)
    | exact ⟨modifyAt_length _ _ _, Nat.le_refl _, rfl⟩ | exact ⟨rfl, Nat.le_refl _, rfl⟩ | exact ⟨rfl, Nat.le_max_left _ _, rfl⟩
    | exact ⟨rfl, Nat.le_add_right _ _, rfl⟩ | exact ⟨modifyAt_length _ _ _, modifyAt_length _ _ _⟩
    | exact ⟨rfl, modifyAt_length _ _ _⟩ | exact ⟨modifyAt_length _ _ _, rfl⟩ | exact ⟨rfl, rfl⟩ | with_reducible exact rfl
    | with_reducible exact Nat.le_refl _ | with_reducible exact modifyAt_length _ _ _ | with_reducible exact List.length_map _
    | ((with_reducible refine (id ?_ : (_ : Nat) = _)); exact rfl) | with_reducible refine And.intro ?_ ?_)

theorem execPpsWindowEnd_kept  (s : State) : ∃ out, execPpsWindowEnd s = .next out ∧ Kept s out := by
  refine ⟨_, rfl, ?_⟩
  have h : Kept s s := Kept.refl s
  repeat' (first
    | with_reducible assumption | with_reducible exact Kept.refl _ | with_reducible apply State.at_kept
    | with_reducible apply State.evt_kept | with_reducible refine State.timeMod_kept ?_ _ ?_
    | (lift_lets; intro x; first | (refine (fun (hx : Kept s x) => ?_) ?_; clear_value x) | skip)
    | (intro x; refine (fun (hx : Kept s x) => ?_) ?_; clear_value x) | (intro x; skip)
    | exact ⟨modifyAt_length _ _ _, Nat.le_refl _, rfl⟩ | exact ⟨rfl, Nat.le_refl _, rfl⟩ | exact ⟨rfl, Nat.le_max_left _ _, rfl⟩
    | exact ⟨rfl, Nat.le_add_right _ _, rfl⟩ | with_reducible exact rfl | with_reducible exact Nat.le_refl _
    | with_reducible exact modifyAt_length _ _ _ | with_reducible exact List.length_map _
    | ((with_reducible refine (id ?_ : (_ : Nat) = _)); exact rfl) | with_reducible refine And.intro ?_ ?_)

theorem execPpsOutRise_kept  (s : State) : ∃ out, execPpsOutRise s = .next out ∧ Kept s out := by
  refine ⟨_, rfl, ?_⟩
  have h : Kept s s := Kept.refl s
  repeat' (first
    | with_reducible assumption | with_reducible exact Kept.refl _ | with_reducible apply State.at_kept
    | with_reducible refine State.timeMod_kept ?_ _ ?_ | with_reducible apply kept_ite | with_reducible apply kept_ite1
    | with_reducible apply kept_ite2 | split | with_reducible exact kept_snd ‹_ = _› (by assumption)
    | (with_reducible refine kept_snd ‹_ = (_, _)› ?_) | (with_reducible refine kept_fst ‹_ = (_, _)› ?_)
    | (lift_lets; intro x; first | (refine (fun (hx : Kept s x) => ?_) ?_; clear_value x) | skip)
    | (intro x; refine (fun (hx : Kept s x) => ?_) ?_; clear_value x) | (intro x; skip) | dsimp only
    | exact ⟨modifyAt_length _ _ _, Nat.le_refl _, rfl⟩ | exact ⟨rfl, Nat.le_refl _, rfl⟩ | exact ⟨rfl, Nat.le_max_left _ _, rfl⟩
    | exact ⟨rfl, Nat.le_add_right _ _, rfl⟩ | with_reducible exact rfl | with_reducible exact Nat.le_refl _
    | with_reducible exact modifyAt_length _ _ _ | with_reducible exact List.length_map _
    | ((with_reducible refine (id ?_ : (_ : Nat) = _)); exact rfl) | with_reducible refine And.intro ?_ ?_)

theorem execPpsOutFall_kept  (s : State) : ∃ out, execPpsOutFall s = .next out ∧ Kept s out := by
  refine ⟨_, rfl, ?_⟩
  have h : Kept s s := Kept.refl s
  repeat' (first
    | with_reducible assumption | with_reducible exact Kept.refl _ | with_reducible apply State.at_kept
    | with_reducible refine State.timeMod_kept ?_ _ ?_ | split | exact ⟨modifyAt_length _ _ _, Nat.le_refl _, rfl⟩
    | exact ⟨rfl, Nat.le_refl _, rfl⟩ | exact ⟨rfl, Nat.le_max_left _ _, rfl⟩ | exact ⟨rfl, Nat.le_add_right _ _, rfl⟩
    | with_reducible exact rfl | with_reducible exact Nat.le_refl _ | with_reducible exact modifyAt_length _ _ _
    | with_reducible exact List.length_map _ | ((with_reducible refine (id ?_ : (_ : Nat) = _)); exact rfl)
    | with_reducible refine And.intro ?_ ?_)

theorem State.tickOutRise_kept {s : State} (h : Kept s0 s)  : Kept s0 (State.tickOutRise s) := by
  unfold State.tickOutRise
  repeat' (first
    | with_reducible assumption | with_reducible exact Kept.refl _ | with_reducible refine State.timeMod_kept ?_ _ ?_
    | with_reducible apply kept_ite | split | exact ⟨modifyAt_length _ _ _, Nat.le_refl _, rfl⟩ | exact ⟨rfl, Nat.le_refl _, rfl⟩
    | exact ⟨rfl, Nat.le_max_left _ _, rfl⟩ | exact ⟨rfl, Nat.le_add_right _ _, rfl⟩ | with_reducible exact rfl
    | with_reducible exact Nat.le_refl _ | with_reducible exact modifyAt_length _ _ _ | with_reducible exact List.length_map _
    | ((with_reducible refine (id ?_ : (_ : Nat) = _)); exact rfl) | with_reducible refine And.intro ?_ ?_)

theorem execTickOutFall_kept  (s : State) : ∃ out, execTickOutFall s = .next out ∧ Kept s out := by
  refine ⟨_, rfl, ?_⟩
  have h : Kept s s := Kept.refl s
  repeat' (first
    | with_reducible assumption | with_reducible exact Kept.refl _ | with_reducible apply State.at_kept
    | with_reducible apply State.tickOutRise_kept | with_reducible refine State.timeMod_kept ?_ _ ?_ | with_reducible apply kept_ite
    | split | (lift_lets; intro x; first | (refine (fun (hx : Kept s x) => ?_) ?_; clear_value x) | skip)
    | (intro x; refine (fun (hx : Kept s x) => ?_) ?_; clear_value x) | (intro x; skip)
    | exact ⟨modifyAt_length _ _ _, Nat.le_refl _, rfl⟩ | exact ⟨rfl, Nat.le_refl _, rfl⟩ | exact ⟨rfl, Nat.le_max_left _ _, rfl⟩
    | exact ⟨rfl, Nat.le_add_right _ _, rfl⟩ | with_reducible exact rfl | with_reducible exact Nat.le_refl _
    | with_reducible exact modifyAt_length _ _ _ | with_reducible exact List.length_map _
    | ((with_reducible refine (id ?_ : (_ : Nat) = _)); exact rfl) | with_reducible refine And.intro ?_ ?_)

theorem State.holdBase_kept {s : State} (h : Kept s0 s)  : Kept s0 (State.holdBase s) := by
  unfold State.holdBase
  repeat' (first
    | with_reducible assumption | with_reducible exact Kept.refl _ | with_reducible apply State.abandonProfile_kept
    | with_reducible apply State.rsetN_kept | with_reducible apply kept_ite | split
    | with_reducible exact kept_snd ‹_ = _› (by assumption) | (with_reducible refine kept_snd ‹_ = (_, _)› ?_)
    | (with_reducible refine kept_fst ‹_ = (_, _)› ?_)
    | (lift_lets; intro x; first | (refine (fun (hx : Kept s0 x) => ?_) ?_; clear_value x) | clear_value x)
    | (intro x; refine (fun (hx : Kept s0 x) => ?_) ?_; clear_value x) | (intro x; clear_value x))

theorem State.icsLost_kept {s : State} (h : Kept s0 s) (walk : Bool) : Kept s0 (State.icsLost s walk) := by
  unfold State.icsLost
  repeat' (first
    | with_reducible assumption | with_reducible exact Kept.refl _ | with_reducible apply State.free1_kept
    | with_reducible apply State.fsetB_kept | with_reducible apply kept_ite | with_reducible apply kept_ite1
    | with_reducible apply kept_ite2 | split | with_reducible exact kept_snd ‹_ = _› (by assumption)
    | (with_reducible refine kept_snd ‹_ = (_, _)› ?_) | (with_reducible refine kept_fst ‹_ = (_, _)› ?_)
    | (lift_lets; intro x; first | (refine (fun (hx : Kept s0 x) => ?_) ?_; clear_value x) | clear_value x)
    | (intro x; refine (fun (hx : Kept s0 x) => ?_) ?_; clear_value x) | (intro x; clear_value x) | dsimp only | exact id
    | exact ⟨rfl, Nat.le_refl _, rfl⟩ | with_reducible exact rfl | with_reducible exact Nat.le_refl _
    | with_reducible exact modifyAt_length _ _ _ | with_reducible exact List.length_map _
    | ((with_reducible refine (id ?_ : (_ : Nat) = _)); exact rfl) | with_reducible refine Kept.upd ?_ ?_ ?_ ?_ ?_ ?_ ?_ ?_)

theorem State.refLost_kept {s : State} (h : Kept s0 s)  : Kept s0 (State.refLost s) := by
  unfold State.refLost
  extract_lets s1 s2 ramp s3 walk u s4
  have h2 : Kept s0 s2 := State.exclude_kept (State.evt_kept (State.fsetB_kept (State.fsetB_kept (State.fsetB_kept
    (State.fsetB_kept (State.foldUnc_kept h) _ _) _ _) _ _) _ _) _)
  have h3 : Kept s0 s3 := kept_ite (State.holdBase_kept h2) h2
  have h4 : Kept s0 s4 := State.icsLost_kept (State.fsetB_kept (State.setLoop_kept (State.setLoop_kept h3 _ _) _ _) _ _) walk
  clear_value s4
  exact State.timeMod_kept h4 _ ⟨rfl, Nat.le_refl _, rfl⟩

theorem State.loopsResume_kept {s : State} (h : Kept s0 s)  : Kept s0 (State.loopsResume s) := by
  unfold State.loopsResume
  extract_lets go x0 xc x1
  have hgo : ∀ (x : State) (l : LoopId), Kept s0 x → Kept s0 (go x l) := by
    intro x l hx
    dsimp only [go]
    split
    · exact State.startSearch_kept hx _ _
    · exact State.setLoop_kept hx _ _
    · exact hx
  have h0 : Kept s0 x0 := hgo _ _ (hgo _ _ h)
  clear_value x0
  have h1 : Kept s0 x1 := h0.upd rfl rfl rfl rfl id (Nat.le_refl _) rfl
  clear_value x1
  split
  · exact State.icsStart_kept h1 _
  · exact h1

theorem State.newRef_kept {s : State} (h : Kept s0 s)  : Kept s0 (State.newRef s) := by
  unfold State.newRef
  repeat' (first
    | with_reducible assumption | with_reducible exact Kept.refl _ | with_reducible apply State.foldUnc_kept
    | with_reducible apply State.fsetB_kept | with_reducible apply State.loopsResume_kept | with_reducible apply State.scsLose_kept
    | with_reducible refine State.timeMod_kept ?_ _ ?_ | with_reducible apply kept_ite | split
    | (lift_lets; intro x; first | (refine (fun (hx : Kept s0 x) => ?_) ?_; clear_value x) | skip)
    | (intro x; refine (fun (hx : Kept s0 x) => ?_) ?_; clear_value x) | (intro x; skip)
    | exact ⟨modifyAt_length _ _ _, Nat.le_refl _, rfl⟩ | exact ⟨rfl, Nat.le_refl _, rfl⟩ | exact ⟨rfl, Nat.le_max_left _ _, rfl⟩
    | exact ⟨rfl, Nat.le_add_right _ _, rfl⟩ | with_reducible exact rfl | with_reducible exact Nat.le_refl _
    | with_reducible exact modifyAt_length _ _ _ | with_reducible exact List.length_map _
    | ((with_reducible refine (id ?_ : (_ : Nat) = _)); exact rfl) | with_reducible refine And.intro ?_ ?_)

theorem execRefMonitorWindow_kept (t edges : Nat) (s : State) : ∃ out, execRefMonitorWindow t edges s = .next out ∧ Kept s out := by
  refine ⟨_, rfl, ?_⟩
  have h : Kept s s := Kept.refl s
  repeat' (first
    | with_reducible assumption | with_reducible exact Kept.refl _ | with_reducible apply State.at_kept
    | with_reducible apply State.evt_kept | with_reducible apply State.newRef_kept | with_reducible apply State.refLost_kept
    | with_reducible apply kept_ite | split
    | (lift_lets; intro x; first | (refine (fun (hx : Kept s x) => ?_) ?_; clear_value x) | clear_value x)
    | (intro x; refine (fun (hx : Kept s x) => ?_) ?_; clear_value x) | (intro x; clear_value x))

theorem execRefQualWindow_kept (t : Nat) (span : Option Nat) (s : State) : ∃ out, execRefQualWindow t span s = .next out ∧ Kept s out := by
  refine ⟨_, rfl, ?_⟩
  have h : Kept s s := Kept.refl s
  repeat' (first
    | with_reducible assumption | with_reducible exact Kept.refl _ | with_reducible apply State.at_kept
    | with_reducible apply State.evt_kept | with_reducible apply State.fsetB_kept | with_reducible apply State.loopsResume_kept
    | with_reducible apply State.newRef_kept | with_reducible refine State.timeMod_kept ?_ _ ?_ | with_reducible apply kept_ite | split
    | (lift_lets; intro x; first | (refine (fun (hx : Kept s x) => ?_) ?_; clear_value x) | skip)
    | (intro x; refine (fun (hx : Kept s x) => ?_) ?_; clear_value x) | (intro x; skip) | dsimp only
    | exact ⟨modifyAt_length _ _ _, Nat.le_refl _, rfl⟩ | exact ⟨rfl, Nat.le_refl _, rfl⟩ | exact ⟨rfl, Nat.le_max_left _ _, rfl⟩
    | exact ⟨rfl, Nat.le_add_right _ _, rfl⟩ | with_reducible exact rfl | with_reducible exact Nat.le_refl _
    | with_reducible exact modifyAt_length _ _ _ | with_reducible exact List.length_map _
    | ((with_reducible refine (id ?_ : (_ : Nat) = _)); exact rfl) | with_reducible refine And.intro ?_ ?_)

theorem State.coastEnd_kept {s : State} (h : Kept s0 s)  : Kept s0 (State.coastEnd s) := by
  unfold State.coastEnd
  repeat' (first
    | with_reducible assumption | with_reducible exact Kept.refl _ | with_reducible apply State.foldUnc_kept
    | with_reducible apply State.fsetB_kept)

theorem State.showJump_kept {s : State} (h : Kept s0 s) (walk : Bool) (skip : Nat) (e : Int) (u : Nat) : Kept s0 (State.showJump s walk skip e u) := by
  unfold State.showJump
  repeat' (first
    | with_reducible assumption | with_reducible exact Kept.refl _ | with_reducible apply State.evt_kept
    | with_reducible apply State.fset_kept | with_reducible apply State.fsetB_kept | with_reducible apply State.rset64_kept)

theorem State.stepRealign_kept {s : State} (h : Kept s0 s) (skip : Nat) (e : Int) : Kept s0 (State.stepRealign s skip e) := by
  unfold State.stepRealign
  repeat' (first
    | exact id | with_reducible assumption | with_reducible exact Kept.refl _ | with_reducible apply State.ccsMod_kept
    | with_reducible apply State.coastEnd_kept | with_reducible apply State.convMark_kept
    | with_reducible apply State.exclude_kept | with_reducible apply State.fsetB_kept | with_reducible apply State.skipNote_kept
    | with_reducible apply State.rsetN_kept | with_reducible apply State.showJump_kept
    | with_reducible refine State.timeMod_kept ?_ _ ?_ | with_reducible apply kept_ite | with_reducible apply kept_ite1
    | with_reducible apply kept_ite2 | with_reducible refine kept_foldl _ (fun x a hx => ?_) ?_ | split
    | with_reducible exact kept_snd ‹_ = _› (by assumption) | (with_reducible refine kept_snd ‹_ = (_, _)› ?_)
    | (with_reducible refine kept_fst ‹_ = (_, _)› ?_)
    | (lift_lets; intro x; first | (refine (fun (hx : Kept s0 x) => ?_) ?_; clear_value x) | skip)
    | (intro x; refine (fun (hx : Kept s0 x) => ?_) ?_; clear_value x) | (intro x; skip) | dsimp only
    | exact ⟨modifyAt_length _ _ _, Nat.le_refl _, rfl⟩ | exact ⟨rfl, Nat.le_refl _, rfl⟩ | exact ⟨rfl, Nat.le_max_left _ _, rfl⟩
    | exact ⟨rfl, Nat.le_add_right _ _, rfl⟩ | exact ⟨modifyAt_length _ _ _, modifyAt_length _ _ _⟩
    | exact ⟨rfl, modifyAt_length _ _ _⟩ | exact ⟨modifyAt_length _ _ _, rfl⟩ | exact ⟨rfl, rfl⟩ | with_reducible exact rfl
    | with_reducible exact Nat.le_refl _ | with_reducible exact modifyAt_length _ _ _ | with_reducible exact List.length_map _
    | ((with_reducible refine (id ?_ : (_ : Nat) = _)); exact rfl) | with_reducible refine And.intro ?_ ?_)

theorem State.walkStart_kept {s : State} (h : Kept s0 s) (e : Int) : Kept s0 (State.walkStart s e) := by
  unfold State.walkStart
  repeat' (first
    | with_reducible assumption | with_reducible exact Kept.refl _ | with_reducible apply State.fsetB_kept
    | with_reducible refine State.timeMod_kept ?_ _ ?_
    | (lift_lets; intro x; first | (refine (fun (hx : Kept s0 x) => ?_) ?_; clear_value x) | skip)
    | (intro x; refine (fun (hx : Kept s0 x) => ?_) ?_; clear_value x) | (intro x; skip)
    | exact ⟨modifyAt_length _ _ _, Nat.le_refl _, rfl⟩ | exact ⟨rfl, Nat.le_refl _, rfl⟩ | exact ⟨rfl, Nat.le_max_left _ _, rfl⟩
    | exact ⟨rfl, Nat.le_add_right _ _, rfl⟩ | with_reducible exact rfl | with_reducible exact Nat.le_refl _
    | with_reducible exact modifyAt_length _ _ _ | with_reducible exact List.length_map _
    | ((with_reducible refine (id ?_ : (_ : Nat) = _)); exact rfl) | with_reducible refine And.intro ?_ ?_)

theorem execRealignEdge_kept (t : Nat) (s : State) : ∃ out, execRealignEdge t s = .next out ∧ Kept s out := by
  refine ⟨_, rfl, ?_⟩
  have h : Kept s s := Kept.refl s
  repeat' (first
    | with_reducible assumption | with_reducible exact Kept.refl _ | with_reducible apply State.at_kept
    | with_reducible apply State.stepRealign_kept | with_reducible refine State.timeMod_kept ?_ _ ?_
    | with_reducible apply State.walkStart_kept | with_reducible apply kept_ite | split
    | (lift_lets; intro x; first | (refine (fun (hx : Kept s x) => ?_) ?_; clear_value x) | skip)
    | (intro x; refine (fun (hx : Kept s x) => ?_) ?_; clear_value x) | (intro x; skip) | dsimp only
    | exact ⟨modifyAt_length _ _ _, Nat.le_refl _, rfl⟩ | exact ⟨rfl, Nat.le_refl _, rfl⟩ | exact ⟨rfl, Nat.le_max_left _ _, rfl⟩
    | exact ⟨rfl, Nat.le_add_right _ _, rfl⟩ | with_reducible exact rfl | with_reducible exact Nat.le_refl _
    | with_reducible exact modifyAt_length _ _ _ | with_reducible exact List.length_map _
    | ((with_reducible refine (id ?_ : (_ : Nat) = _)); exact rfl) | with_reducible refine And.intro ?_ ?_)

theorem execWalkEnd_kept  (s : State) : ∃ out, execWalkEnd s = .next out ∧ Kept s out := by
  refine ⟨_, rfl, ?_⟩
  have h : Kept s s := Kept.refl s
  repeat' (first
    | with_reducible assumption | with_reducible exact Kept.refl _ | with_reducible apply State.at_kept
    | with_reducible apply State.coastEnd_kept | with_reducible apply State.fsetB_kept | with_reducible apply State.showJump_kept
    | with_reducible refine State.timeMod_kept ?_ _ ?_ | with_reducible apply kept_ite | split
    | (lift_lets; intro x; first | (refine (fun (hx : Kept s x) => ?_) ?_; clear_value x) | skip)
    | (intro x; refine (fun (hx : Kept s x) => ?_) ?_; clear_value x) | (intro x; skip) | dsimp only
    | exact ⟨modifyAt_length _ _ _, Nat.le_refl _, rfl⟩ | exact ⟨rfl, Nat.le_refl _, rfl⟩ | exact ⟨rfl, Nat.le_max_left _ _, rfl⟩
    | exact ⟨rfl, Nat.le_add_right _ _, rfl⟩ | with_reducible exact rfl | with_reducible exact Nat.le_refl _
    | with_reducible exact modifyAt_length _ _ _ | with_reducible exact List.length_map _
    | ((with_reducible refine (id ?_ : (_ : Nat) = _)); exact rfl) | with_reducible refine And.intro ?_ ?_)

end Sys2Proof.Laws
end

