-- ==== Sys2Proof/Laws/KeptPorts.lean ====
section
/-!
SUPPORT. What the operations of Machine/Ports.lean keep.
-/

set_option linter.all false

namespace Sys2Proof.Laws

open Sys2Proof.Machine


variable {s0 : State}

theorem State.portMod_kept {s : State} (h : Kept s0 s) (n q : Nat) (f : PortQ → PortQ) : Kept s0 (State.portMod s n q f) := by
  unfold State.portMod
  repeat' (first
    | with_reducible assumption | with_reducible exact Kept.refl _ | with_reducible apply State.ctxMod_kept)

theorem State.dropEntry_kept {s : State} (h : Kept s0 s) (n q : Nat) : Kept s0 (State.dropEntry s n q) := by
  unfold State.dropEntry
  repeat' (first
    | with_reducible assumption | with_reducible exact Kept.refl _ | with_reducible apply State.portMod_kept)

theorem State.deliver_kept {s : State} (h : Kept s0 s) (n q : Nat) (r : Rec) : Kept s0 (State.deliver s n q r) := by
  unfold State.deliver
  repeat' (first
    | with_reducible assumption | with_reducible exact Kept.refl _ | with_reducible apply State.flashRec_kept
    | with_reducible apply State.portMod_kept | with_reducible apply State.streamAdd_kept | with_reducible apply State.tobs_kept
    | with_reducible apply State.witSubmit_kept | with_reducible apply kept_ite
    | with_reducible refine kept_foldl _ (fun x a hx => ?_) ?_ | split | with_reducible exact kept_snd ‹_ = _› (by assumption)
    | (with_reducible refine kept_snd ‹_ = (_, _)› ?_) | (with_reducible refine kept_fst ‹_ = (_, _)› ?_)
    | (lift_lets; intro x; first | (refine (fun (hx : Kept s0 x) => ?_) ?_; clear_value x) | clear_value x)
    | (intro x; refine (fun (hx : Kept s0 x) => ?_) ?_; clear_value x) | (intro x; clear_value x) | dsimp only)

/-- The run of a context keeps its sizes. -/
theorem runOf_sized {s : State} (h : Kept s0 s) (k : s0.shaped) {n i : Nat} {r : Run} (hr : s.runOf n = some (i, r)) : r.sized := by
  unfold State.runOf at hr
  obtain ⟨e, _, he⟩ := List.exists_of_findSome?_eq_some hr
  split at he
  · rename_i r' hr'
    split at he
    · cases he; exact (h.shape k).run _ _ hr'
    · cases he
  · cases he

theorem State.lostEntry_kept {s : State} (h : Kept s0 s) (n q : Nat) : Kept s0 (State.lostEntry s n q) := by
  unfold State.lostEntry
  extract_lets k e
  split
  · exact h
  · split
    · rename_i i r hr
      split
      · exact State.portMod_kept (State.setRun_kept h _ _ (fun hs y hy => by cases hy; exact ⟨(runOf_sized h hs hr).1, (runOf_sized h hs hr).2⟩)) _ _ _
      · exact h
    · split
      · exact State.portMod_kept (State.deliver_kept h _ _ _) _ _ _
      · exact h

theorem State.writeEntry_kept {s : State} (h : Kept s0 s) (n q : Nat) (r : Rec) : Kept s0 (State.writeEntry s n q r) := by
  unfold State.writeEntry
  repeat' (first
    | with_reducible assumption | with_reducible exact Kept.refl _ | with_reducible apply State.deliver_kept
    | with_reducible apply State.dropEntry_kept | with_reducible apply State.lostEntry_kept | with_reducible apply kept_ite | split
    | (lift_lets; intro x; first | (refine (fun (hx : Kept s0 x) => ?_) ?_; clear_value x) | clear_value x)
    | (intro x; refine (fun (hx : Kept s0 x) => ?_) ?_; clear_value x) | (intro x; clear_value x))

theorem State.stopOutputs_kept {s : State} (h : Kept s0 s) (n reason : Nat) : Kept s0 (State.stopOutputs s n reason) := by
  unfold State.stopOutputs
  repeat' (first
    | with_reducible assumption | with_reducible exact Kept.refl _ | with_reducible apply State.writeEntry_kept
    | with_reducible apply kept_ite | with_reducible refine kept_foldl _ (fun x a hx => ?_) ?_ | split
    | with_reducible exact kept_snd ‹_ = _› (by assumption) | (with_reducible refine kept_snd ‹_ = (_, _)› ?_)
    | (with_reducible refine kept_fst ‹_ = (_, _)› ?_))

end Sys2Proof.Laws
end

