-- ==== Sys2Proof/Laws/KeptEngine.lean ====
section
/-!
SUPPORT. What the operations of Machine/Engine.lean keep.
-/

set_option linter.all false

namespace Sys2Proof.Laws

open Sys2Proof.Machine


variable {s0 : State}

theorem State.instr_kept {s : State} (h : Kept s0 s) (e : Nat) (pr : Bool) (cost len : Nat) (f : PairS → Run → Run)
    (hf : ∀ v r, v.regs.sized → r.sized → (f v r).sized) : Kept s0 (State.instr s e pr cost len f) := by
  unfold State.instr
  split
  · exact h
  · rename_i r hr
    refine kept_ite h (State.setRun_kept (State.at_kept h _) _ _ (fun k q hq => ?_))
    cases hq
    have hs := run_sized h k hr
    exact advance_sized (hf _ _ (view_sized hs) hs) hs _ _ _

theorem State.instrF_kept {s : State} (h : Kept s0 s) (e : Nat) (pr : Bool) (cost len : Nat) (f : ImageS → PairS → Run → Except Nat Run)
    (hf : ∀ im v r, OkF r (f im v r)) : Kept s0 (State.instrF s e pr cost len f) := by
  unfold State.instrF
  split
  · exact h
  · rename_i r hr
    refine kept_ite h ?_
    dsimp only
    split
    · exact State.trip_kept (State.at_kept h _) _ _
    · rename_i r1 h1
      refine State.setRun_kept (State.at_kept h _) _ _ (fun k q hq => ?_)
      cases hq
      have hs := run_sized h k hr
      have g := hf (s.ctx r.ctx).img r.view r
      rw [h1] at g
      exact advance_sized (g hs) hs _ _ _

theorem State.instrS_kept {s : State} (h : Kept s0 s) (e : Nat) (cost : Run → Nat) (f : Run → State → Except Nat (Run × State))
    (hf : ∀ r y, Kept s0 y → OkS s0 r (f r y)) : Kept s0 (State.instrS s e cost f) := by
  unfold State.instrS
  split
  · exact h
  · rename_i r hr
    refine kept_ite h ?_
    dsimp only
    have g := hf r (s.at (s.issueStu r)) (State.at_kept h _)
    split
    · exact State.trip_kept (State.at_kept h _) _ _
    · rename_i r1 y1 h1
      rw [h1] at g
      refine State.setRun_kept g.1 _ _ (fun k q hq => ?_)
      cases hq
      have hs := run_sized h k hr
      exact advance_sized (g.2 hs) hs _ _ _

theorem State.startRun_kept {s : State} (h : Kept s0 s) (n : Nat) (slot : Option Nat) (body : Bool) : Kept s0 (State.startRun s n slot body) := by
  unfold State.startRun
  dsimp only
  split
  · exact h
  · split
    · exact State.ctxMod_kept (State.trouble_kept (State.bump_kept (State.gapNext_kept h _ _ _ _) _) _) _ _
    · refine State.showCtx_kept (State.setRun_kept (State.ctxMod_kept h _ _) _ _ (fun _ q hq => ?_)) _
      cases hq
      exact next_sized ⟨fresh_sized, fun q hq => by cases hq⟩

theorem execRunPublish_kept (e : Fin 8) (t : Nat) (s : State) : ∃ out, execRunPublish e t s = .next out ∧ Kept s out := by
  refine ⟨_, rfl, ?_⟩
  have h : Kept s s := Kept.refl s
  repeat' (first
    | with_reducible assumption | with_reducible exact Kept.refl _ | with_reducible apply State.at_kept
    | with_reducible apply State.bump_kept | with_reducible apply State.ctxMod_kept
    | with_reducible apply State.giveBack_kept | with_reducible apply State.publishOut_kept
    | with_reducible apply setRun_none_kept | with_reducible apply State.setRun_kept
    | with_reducible apply State.showRun_kept | with_reducible apply State.spendRun_kept | with_reducible apply kept_ite
    | with_reducible apply kept_ite1 | with_reducible apply kept_ite2 | split
    | with_reducible exact kept_snd ‹_ = _› (by assumption) | (with_reducible refine kept_snd ‹_ = (_, _)› ?_)
    | (with_reducible refine kept_fst ‹_ = (_, _)› ?_)
    | (lift_lets; intro x; first | (refine (fun (hx : Kept s x) => ?_) ?_; clear_value x) | clear_value x)
    | (intro x; refine (fun (hx : Kept s x) => ?_) ?_; clear_value x) | (intro x; clear_value x) | dsimp only | exact id
    | exact ⟨rfl, Nat.le_refl _, rfl⟩ | with_reducible exact rfl | with_reducible exact Nat.le_refl _
    | with_reducible exact modifyAt_length _ _ _ | with_reducible exact List.length_map _
    | ((with_reducible refine (id ?_ : (_ : Nat) = _)); exact rfl) | with_reducible refine Kept.upd ?_ ?_ ?_ ?_ ?_ ?_ ?_ ?_)

theorem execTimerCue_kept (n : Fin 256) (s : State) : ∃ out, execTimerCue n s = .next out ∧ Kept s out := by
  refine ⟨_, rfl, ?_⟩
  have h : Kept s s := Kept.refl s
  repeat' (first
    | with_reducible assumption | with_reducible exact Kept.refl _ | with_reducible apply State.at_kept
    | with_reducible apply State.ctxMod_kept | with_reducible apply State.raiseCue_kept | split
    | (lift_lets; intro x; first | (refine (fun (hx : Kept s x) => ?_) ?_; clear_value x) | clear_value x)
    | (intro x; refine (fun (hx : Kept s x) => ?_) ?_; clear_value x) | (intro x; clear_value x) | dsimp only)

end Sys2Proof.Laws
end

