-- ==== Sys2Proof/Laws/KeptJobs.lean ====
section
/-!
SUPPORT. What the operations of Machine/Jobs.lean keep.
-/

set_option linter.all false

namespace Sys2Proof.Laws

open Sys2Proof.Machine


variable {s0 : State}

theorem State.jobDone_kept {s : State} (h : Kept s0 s) (j : Job) : Kept s0 (State.jobDone s j).2.2.2 := by
  unfold State.jobDone
  dsimp only
  split <;> first | exact h | skip
  split
  · exact freeBytes_kept h _
  · exact h

theorem execJobI_kept (e t : Fin 8) (kind : Fin 6) (cls : Fin 16) (span : Fin 256) (a : Fin 32) (s : State) : ∃ out, execJobI e t kind cls span a s = .next out ∧ Kept s out := by
  refine ⟨_, rfl, ?_⟩
  have h : Kept s s := Kept.refl s
  repeat' (first
    | with_reducible assumption | with_reducible exact Kept.refl _ | with_reducible apply State.ctxMod_kept
    | with_reducible refine State.instrS_kept ?_ _ _ _ (fun r y hy => ?_) | with_reducible apply State.spend_kept
    | with_reducible apply kept_ite | with_reducible exact okS_err _ | with_reducible exact okF_err _
    | with_reducible refine okS_ok ?_ (fun hr => ?_) | with_reducible refine okF_ok (fun hr => ?_)
    | with_reducible exact setS_sized hr.1 _ _ | split
    | (lift_lets; intro x; first | (refine (fun (hx : Kept s x) => ?_) ?_; clear_value x) | clear_value x)
    | (intro x; refine (fun (hx : Kept s x) => ?_) ?_; clear_value x) | (intro x; clear_value x) | dsimp only | exact hr.1 | exact hr
    | exact ⟨hr.1, hr.2⟩ | exact ⟨setS_sized hr.1 _ _, hr.2⟩ | exact ⟨setP_sized hr.1 _ _, hr.2⟩
    | exact ⟨setPair_sized hr.1 _ _ _, hr.2⟩ | exact ⟨setV_sized hr.1 _ _, hr.2⟩ | exact ⟨setA_sized hr.1 _ _, hr.2⟩)

theorem State.cutWait_kept {s : State} (h : Kept s0 s) (e : Nat) : Kept s0 (State.cutWait s e) := by
  unfold State.cutWait
  repeat' (first
    | with_reducible assumption | with_reducible exact Kept.refl _ | with_reducible apply State.at_kept
    | with_reducible apply State.cutRun_kept | with_reducible apply kept_ite | with_reducible apply kept_ite1
    | with_reducible apply kept_ite2 | split | with_reducible exact kept_snd ‹_ = _› (by assumption)
    | (with_reducible refine kept_snd ‹_ = (_, _)› ?_) | (with_reducible refine kept_fst ‹_ = (_, _)› ?_)
    | (lift_lets; intro x; first | (refine (fun (hx : Kept s0 x) => ?_) ?_; clear_value x) | clear_value x)
    | (intro x; refine (fun (hx : Kept s0 x) => ?_) ?_; clear_value x) | (intro x; clear_value x) | dsimp only)

theorem execJwait_kept (e t : Fin 8) (s : State) : ∃ out, execJwait e t s = .next out ∧ Kept s out := by
  refine ⟨_, rfl, ?_⟩
  have h : Kept s s := Kept.refl s
  repeat' (first
    | with_reducible apply State.cutWait_kept | with_reducible apply kept_ite
    | with_reducible assumption | with_reducible exact Kept.refl _ | with_reducible apply State.ctxMod_kept
    | with_reducible refine State.instrS_kept ?_ _ _ _ (fun r y hy => ?_) | with_reducible apply State.jobDone_kept
    | with_reducible exact okS_err _ | with_reducible exact okF_err _ | with_reducible refine okS_ok ?_ (fun hr => ?_)
    | with_reducible refine okF_ok (fun hr => ?_) | with_reducible exact setS_sized hr.1 _ _ | split
    | with_reducible exact kept_snd ‹_ = _› (by assumption) | (with_reducible refine kept_snd ‹_ = (_, _)› ?_)
    | (with_reducible refine kept_fst ‹_ = (_, _)› ?_)
    | (lift_lets; intro x; first | (refine (fun (hx : Kept s x) => ?_) ?_; clear_value x) | clear_value x)
    | (intro x; refine (fun (hx : Kept s x) => ?_) ?_; clear_value x) | (intro x; clear_value x) | dsimp only | exact hr.1 | exact hr
    | exact ⟨hr.1, hr.2⟩ | exact ⟨setS_sized hr.1 _ _, hr.2⟩ | exact ⟨setP_sized hr.1 _ _, hr.2⟩
    | exact ⟨setPair_sized hr.1 _ _ _, hr.2⟩ | exact ⟨setV_sized hr.1 _ _, hr.2⟩ | exact ⟨setA_sized hr.1 _ _, hr.2⟩)

theorem State.completeJob_kept {s : State} (h : Kept s0 s) (n i u : Nat) : Kept s0 (State.completeJob s n i u) := by
  unfold State.completeJob
  repeat' (first
    | with_reducible assumption | with_reducible exact Kept.refl _ | with_reducible apply State.ctxMod_kept
    | with_reducible apply State.jobDone_kept | with_reducible exact okS_err _ | with_reducible exact okF_err _
    | with_reducible refine okS_ok ?_ (fun hr => ?_) | with_reducible refine okF_ok (fun hr => ?_)
    | with_reducible exact setS_sized hr.1 _ _ | split | with_reducible exact kept_snd ‹_ = _› (by assumption)
    | (with_reducible refine kept_snd ‹_ = (_, _)› ?_) | (with_reducible refine kept_fst ‹_ = (_, _)› ?_)
    | (lift_lets; intro x; first | (refine (fun (hx : Kept s0 x) => ?_) ?_; clear_value x) | clear_value x)
    | (intro x; refine (fun (hx : Kept s0 x) => ?_) ?_; clear_value x) | (intro x; clear_value x) | dsimp only | exact hr.1 | exact hr
    | exact ⟨hr.1, hr.2⟩ | exact ⟨setS_sized hr.1 _ _, hr.2⟩ | exact ⟨setP_sized hr.1 _ _, hr.2⟩
    | exact ⟨setPair_sized hr.1 _ _ _, hr.2⟩ | exact ⟨setV_sized hr.1 _ _, hr.2⟩ | exact ⟨setA_sized hr.1 _ _, hr.2⟩)

theorem State.loseJob_kept {s : State} (h : Kept s0 s) (n i : Nat) : Kept s0 (State.loseJob s n i) := by
  unfold State.loseJob
  repeat' (first
    | with_reducible assumption | with_reducible exact Kept.refl _ | with_reducible apply State.ctxMod_kept
    | with_reducible apply State.gapNext_kept | with_reducible apply kept_ite | split
    | with_reducible exact kept_snd ‹_ = _› (by assumption) | (with_reducible refine kept_snd ‹_ = (_, _)› ?_)
    | (with_reducible refine kept_fst ‹_ = (_, _)› ?_)
    | (lift_lets; intro x; first | (refine (fun (hx : Kept s0 x) => ?_) ?_; clear_value x) | clear_value x)
    | (intro x; refine (fun (hx : Kept s0 x) => ?_) ?_; clear_value x) | (intro x; clear_value x))

theorem execJobComplete_kept (n : Fin 256) (i t : Nat) (s : State) : ∃ out, execJobComplete n i t s = .next out ∧ Kept s out := by
  refine ⟨_, rfl, ?_⟩
  have h : Kept s s := Kept.refl s
  repeat' (first
    | with_reducible assumption | with_reducible exact Kept.refl _ | with_reducible apply State.at_kept
    | with_reducible apply State.completeJob_kept | with_reducible apply kept_ite | with_reducible apply kept_ite1
    | with_reducible apply kept_ite2 | split | with_reducible exact kept_snd ‹_ = _› (by assumption)
    | (with_reducible refine kept_snd ‹_ = (_, _)› ?_) | (with_reducible refine kept_fst ‹_ = (_, _)› ?_)
    | (lift_lets; intro x; first | (refine (fun (hx : Kept s x) => ?_) ?_; clear_value x) | clear_value x)
    | (intro x; refine (fun (hx : Kept s x) => ?_) ?_; clear_value x) | (intro x; clear_value x) | dsimp only)

theorem State.jobsDue_kept {s : State} (h : Kept s0 s) (k : Nat) : Kept s0 (State.jobsDue s k) := by
  unfold State.jobsDue
  repeat' (first
    | with_reducible assumption | with_reducible exact Kept.refl _ | with_reducible apply State.completeJob_kept
    | with_reducible apply State.free1_kept | with_reducible apply State.loseJob_kept | with_reducible apply kept_ite
    | with_reducible apply kept_ite1 | with_reducible apply kept_ite2 | with_reducible refine kept_foldl _ (fun x a hx => ?_) ?_
    | split | with_reducible exact kept_snd ‹_ = _› (by assumption) | (with_reducible refine kept_snd ‹_ = (_, _)› ?_)
    | (with_reducible refine kept_fst ‹_ = (_, _)› ?_)
    | (lift_lets; intro x; first | (refine (fun (hx : Kept s0 x) => ?_) ?_; clear_value x) | clear_value x)
    | (intro x; refine (fun (hx : Kept s0 x) => ?_) ?_; clear_value x) | (intro x; clear_value x) | dsimp only)

theorem State.engineFail_kept {s : State} (h : Kept s0 s) (e : Nat) : Kept s0 (State.engineFail s e) := by
  unfold State.engineFail
  repeat' (first
    | with_reducible assumption | with_reducible exact Kept.refl _ | with_reducible apply State.cutRun_kept
    | with_reducible apply State.fault_kept | with_reducible apply State.seAsWas_kept | with_reducible apply kept_ite
    | with_reducible apply kept_ite1 | with_reducible apply kept_ite2 | split
    | with_reducible exact kept_snd ‹_ = _› (by assumption) | (with_reducible refine kept_snd ‹_ = (_, _)› ?_)
    | (with_reducible refine kept_fst ‹_ = (_, _)› ?_)
    | (lift_lets; intro x; first | (refine (fun (hx : Kept s0 x) => ?_) ?_; clear_value x) | clear_value x)
    | (intro x; refine (fun (hx : Kept s0 x) => ?_) ?_; clear_value x) | (intro x; clear_value x) | dsimp only | exact id
    | exact ⟨rfl, Nat.le_refl _, rfl⟩ | with_reducible exact rfl | with_reducible exact Nat.le_refl _
    | with_reducible exact modifyAt_length _ _ _ | with_reducible exact List.length_map _
    | ((with_reducible refine (id ?_ : (_ : Nat) = _)); exact rfl) | with_reducible refine Kept.upd ?_ ?_ ?_ ?_ ?_ ?_ ?_ ?_)

theorem execEngineRunTimeout_kept (e : Fin 8) (t : Nat) (s : State) : ∃ out, execEngineRunTimeout e t s = .next out ∧ Kept s out := by
  refine ⟨_, rfl, ?_⟩
  have h : Kept s s := Kept.refl s
  repeat' (first
    | with_reducible assumption | with_reducible exact Kept.refl _ | with_reducible apply State.at_kept
    | with_reducible apply State.engineFail_kept | with_reducible apply kept_ite | with_reducible exact okS_err _
    | with_reducible exact okF_err _ | with_reducible refine okS_ok ?_ (fun hr => ?_) | with_reducible refine okF_ok (fun hr => ?_)
    | with_reducible exact setS_sized hr.1 _ _ | split
    | (lift_lets; intro x; first | (refine (fun (hx : Kept s x) => ?_) ?_; clear_value x) | clear_value x)
    | (intro x; refine (fun (hx : Kept s x) => ?_) ?_; clear_value x) | (intro x; clear_value x) | dsimp only | exact hr.1 | exact hr
    | exact ⟨hr.1, hr.2⟩ | exact ⟨setS_sized hr.1 _ _, hr.2⟩ | exact ⟨setP_sized hr.1 _ _, hr.2⟩
    | exact ⟨setPair_sized hr.1 _ _ _, hr.2⟩ | exact ⟨setV_sized hr.1 _ _, hr.2⟩ | exact ⟨setA_sized hr.1 _ _, hr.2⟩)

theorem execEngineMemoryError_kept (e : Fin 8) (t : Nat) (s : State) : ∃ out, execEngineMemoryError e t s = .next out ∧ Kept s out := by
  refine ⟨_, rfl, ?_⟩
  have h : Kept s s := Kept.refl s
  repeat' (first
    | with_reducible assumption | with_reducible exact Kept.refl _ | with_reducible apply State.at_kept
    | with_reducible apply State.engineFail_kept | with_reducible exact okS_err _ | with_reducible exact okF_err _
    | with_reducible refine okS_ok ?_ (fun hr => ?_) | with_reducible refine okF_ok (fun hr => ?_)
    | with_reducible exact setS_sized hr.1 _ _ | split | exact hr.1 | exact hr | exact ⟨hr.1, hr.2⟩ | exact ⟨setS_sized hr.1 _ _, hr.2⟩
    | exact ⟨setP_sized hr.1 _ _, hr.2⟩ | exact ⟨setPair_sized hr.1 _ _ _, hr.2⟩ | exact ⟨setV_sized hr.1 _ _, hr.2⟩
    | exact ⟨setA_sized hr.1 _ _, hr.2⟩)

theorem State.loseJobs_kept {s : State} (h : Kept s0 s) (u n : Nat) : Kept s0 (State.loseJobs s u n) := by
  unfold State.loseJobs
  repeat' (first
    | with_reducible assumption | with_reducible exact Kept.refl _ | with_reducible apply State.loseJob_kept
    | with_reducible apply kept_ite | with_reducible apply kept_ite1 | with_reducible apply kept_ite2
    | with_reducible refine kept_foldl _ (fun x a hx => ?_) ?_ | split | with_reducible exact kept_snd ‹_ = _› (by assumption)
    | (with_reducible refine kept_snd ‹_ = (_, _)› ?_) | (with_reducible refine kept_fst ‹_ = (_, _)› ?_)
    | (lift_lets; intro x; first | (refine (fun (hx : Kept s0 x) => ?_) ?_; clear_value x) | clear_value x)
    | (intro x; refine (fun (hx : Kept s0 x) => ?_) ?_; clear_value x) | (intro x; clear_value x) | dsimp only)

theorem State.unitFail_kept {s : State} (h : Kept s0 s) (u : Nat) : Kept s0 (State.unitFail s u) := by
  unfold State.unitFail
  repeat' (first
    | with_reducible assumption | with_reducible exact Kept.refl _ | with_reducible apply State.fault_kept
    | with_reducible apply State.loseJobs_kept | with_reducible apply kept_ite | with_reducible apply kept_ite1
    | with_reducible apply kept_ite2 | with_reducible refine kept_foldl _ (fun x a hx => ?_) ?_ | split
    | with_reducible exact kept_snd ‹_ = _› (by assumption) | (with_reducible refine kept_snd ‹_ = (_, _)› ?_)
    | (with_reducible refine kept_fst ‹_ = (_, _)› ?_)
    | (lift_lets; intro x; first | (refine (fun (hx : Kept s0 x) => ?_) ?_; clear_value x) | clear_value x)
    | (intro x; refine (fun (hx : Kept s0 x) => ?_) ?_; clear_value x) | (intro x; clear_value x) | dsimp only | exact id
    | with_reducible exact rfl | with_reducible exact Nat.le_refl _ | with_reducible exact modifyAt_length _ _ _
    | with_reducible exact List.length_map _ | ((with_reducible refine (id ?_ : (_ : Nat) = _)); exact rfl)
    | with_reducible refine Kept.upd ?_ ?_ ?_ ?_ ?_ ?_ ?_ ?_)

theorem execAccJobTimeout_kept (run : Option (Fin 8)) (n : Fin 256) (i t : Nat) (s : State) : ∃ out, execAccJobTimeout run n i t s = .next out ∧ Kept s out := by
  refine ⟨_, rfl, ?_⟩
  have h : Kept s s := Kept.refl s
  repeat' (first
    | with_reducible assumption | with_reducible exact Kept.refl _ | with_reducible apply State.at_kept
    | with_reducible apply State.cutRun_kept | with_reducible apply State.unitFail_kept | with_reducible apply kept_ite
    | with_reducible apply kept_ite1 | with_reducible apply kept_ite2 | split
    | with_reducible exact kept_snd ‹_ = _› (by assumption) | (with_reducible refine kept_snd ‹_ = (_, _)› ?_)
    | (with_reducible refine kept_fst ‹_ = (_, _)› ?_)
    | (lift_lets; intro x; first | (refine (fun (hx : Kept s x) => ?_) ?_; clear_value x) | clear_value x)
    | (intro x; refine (fun (hx : Kept s x) => ?_) ?_; clear_value x) | (intro x; clear_value x) | dsimp only)

end Sys2Proof.Laws
end

