-- ==== Sys2Proof/Laws/KeptLoader.lean ====
section
/-!
SUPPORT. What the operations of Machine/Loader.lean keep.
-/

set_option linter.all false

namespace Sys2Proof.Laws

open Sys2Proof.Machine


variable {s0 : State}

theorem State.imageArrived_kept {s : State} (h : Kept s0 s) (t tag : Nat) (b : List Byte) : Kept s0 (State.imageArrived s t tag b) := by
  unfold State.imageArrived
  repeat' (first
    | with_reducible assumption | with_reducible exact Kept.refl _ | with_reducible apply State.tenMod_kept)

theorem State.imagePart_kept {s : State} (h : Kept s0 s) (t tag off : Nat) (b : List Byte) (last : Bool) : Kept s0 (State.imagePart s t tag off b last) := by
  unfold State.imagePart
  repeat' (first
    | with_reducible assumption | with_reducible exact Kept.refl _ | with_reducible apply State.complete_kept
    | with_reducible apply State.fsetB_kept | with_reducible apply State.imageArrived_kept | with_reducible apply State.tenMod_kept
    | with_reducible apply kept_ite | split
    | (lift_lets; intro x; first | (refine (fun (hx : Kept s0 x) => ?_) ?_; clear_value x) | clear_value x)
    | (intro x; refine (fun (hx : Kept s0 x) => ?_) ?_; clear_value x) | (intro x; clear_value x))

theorem State.freeHandle_kept {s : State} (h : Kept s0 s)  : Kept s0 (State.freeHandle s).2 := by
  unfold State.freeHandle
  repeat' (first
    | with_reducible assumption | with_reducible exact Kept.refl _ | with_reducible apply State.free1_kept | split
    | with_reducible exact kept_snd ‹_ = _› (by assumption) | (with_reducible refine kept_snd ‹_ = (_, _)› ?_)
    | (with_reducible refine kept_fst ‹_ = (_, _)› ?_)
    | (lift_lets; intro x; first | (refine (fun (hx : Kept s0 x) => ?_) ?_; clear_value x) | clear_value x)
    | (intro x; refine (fun (hx : Kept s0 x) => ?_) ?_; clear_value x) | (intro x; clear_value x) | dsimp only)

theorem State.verifyDone_kept {s : State} (h : Kept s0 s) (t : Nat) : Kept s0 (State.verifyDone s t) := by
  unfold State.verifyDone
  repeat' (first
    | with_reducible assumption | with_reducible exact Kept.refl _ | with_reducible apply State.accept_kept
    | with_reducible apply State.complete_kept | with_reducible apply State.freeHandle_kept
    | with_reducible apply State.showSeq_kept | with_reducible apply State.tenMod_kept | with_reducible apply kept_ite
    | with_reducible apply kept_ite1 | with_reducible apply kept_ite2 | split
    | with_reducible exact kept_snd ‹_ = _› (by assumption) | (with_reducible refine kept_snd ‹_ = (_, _)› ?_)
    | (with_reducible refine kept_fst ‹_ = (_, _)› ?_)
    | (lift_lets; intro x; first | (refine (fun (hx : Kept s0 x) => ?_) ?_; clear_value x) | clear_value x)
    | (intro x; refine (fun (hx : Kept s0 x) => ?_) ?_; clear_value x) | (intro x; clear_value x) | dsimp only | exact id
    | exact ⟨rfl, Nat.le_refl _, rfl⟩ | with_reducible exact rfl | with_reducible exact Nat.le_refl _
    | with_reducible exact modifyAt_length _ _ _ | with_reducible exact List.length_map _
    | ((with_reducible refine (id ?_ : (_ : Nat) = _)); exact rfl) | with_reducible refine Kept.upd ?_ ?_ ?_ ?_ ?_ ?_ ?_ ?_)

theorem execImageVerifyDone_kept (t : Fin 4) (u : Nat) (s : State) : ∃ out, execImageVerifyDone t u s = .next out ∧ Kept s out := by
  refine ⟨_, rfl, ?_⟩
  have h : Kept s s := Kept.refl s
  repeat' (first
    | with_reducible assumption | with_reducible exact Kept.refl _ | with_reducible apply State.at_kept
    | with_reducible apply State.verifyDone_kept | split)

theorem State.unloadCmd_kept {s : State} (h : Kept s0 s) (t tag h : Nat) : Kept s0 (State.unloadCmd s t tag h) := by
  unfold State.unloadCmd
  repeat' (first
    | with_reducible assumption | with_reducible exact Kept.refl _ | with_reducible apply State.complete_kept
    | with_reducible apply State.showSeq_kept | with_reducible apply kept_ite | split | exact id | with_reducible exact rfl
    | with_reducible exact Nat.le_refl _ | with_reducible exact modifyAt_length _ _ _ | with_reducible exact List.length_map _
    | ((with_reducible refine (id ?_ : (_ : Nat) = _)); exact rfl) | with_reducible refine Kept.upd ?_ ?_ ?_ ?_ ?_ ?_ ?_ ?_)

end Sys2Proof.Laws
end

