-- ==== Sys2Proof/Laws/KeptFlow.lean ====
section
/-!
SUPPORT. What the operations of Machine/Flow.lean keep.
-/

set_option linter.all false

namespace Sys2Proof.Laws

open Sys2Proof.Machine


variable {s0 : State}

theorem State.flow_kept {s : State} (h : Kept s0 s) (e : Nat) (f : State → Run → Run × Nat)
    (hf : ∀ x r, r.sized → (f x r).1.regs.sized) : Kept s0 (State.flow s e f) := by
  unfold State.flow
  split
  · exact h
  · rename_i r hr
    refine kept_ite h (State.setRun_kept (State.at_kept h _) _ _ (fun k q hq => ?_))
    cases hq
    exact ⟨hf _ _ (run_sized h k hr), fun p hp => by cases hp⟩

theorem State.branch_kept {s : State} (h : Kept s0 s) (e : Nat) (off : BitVec 17) (c : RegSet → Bool) : Kept s0 (State.branch s e off c) := by
  refine State.flow_kept h _ _ (fun x r hr => ?_)
  split
  · exact hr.1
  · exact hr.1

theorem execBeqz_kept (e : Fin 8) (a : Fin 32) (off : BitVec 17) (s : State) : ∃ out, execBeqz e a off s = .next out ∧ Kept s out := by
  refine ⟨_, rfl, ?_⟩
  have h : Kept s s := Kept.refl s
  repeat' (first
    | with_reducible assumption | with_reducible exact Kept.refl _ | with_reducible apply State.branch_kept
    | with_reducible exact okS_err _ | with_reducible exact okF_err _ | with_reducible refine okS_ok ?_ (fun hr => ?_)
    | with_reducible refine okF_ok (fun hr => ?_) | with_reducible exact setS_sized hr.1 _ _ | split | exact hr.1 | exact hr
    | exact ⟨hr.1, hr.2⟩ | exact ⟨setS_sized hr.1 _ _, hr.2⟩ | exact ⟨setP_sized hr.1 _ _, hr.2⟩
    | exact ⟨setPair_sized hr.1 _ _ _, hr.2⟩ | exact ⟨setV_sized hr.1 _ _, hr.2⟩ | exact ⟨setA_sized hr.1 _ _, hr.2⟩)

theorem execBnez_kept (e : Fin 8) (a : Fin 32) (off : BitVec 17) (s : State) : ∃ out, execBnez e a off s = .next out ∧ Kept s out := by
  refine ⟨_, rfl, ?_⟩
  have h : Kept s s := Kept.refl s
  repeat' (first
    | with_reducible assumption | with_reducible exact Kept.refl _ | with_reducible apply State.branch_kept
    | with_reducible exact okS_err _ | with_reducible exact okF_err _ | with_reducible refine okS_ok ?_ (fun hr => ?_)
    | with_reducible refine okF_ok (fun hr => ?_) | with_reducible exact setS_sized hr.1 _ _ | split | exact hr.1 | exact hr
    | exact ⟨hr.1, hr.2⟩ | exact ⟨setS_sized hr.1 _ _, hr.2⟩ | exact ⟨setP_sized hr.1 _ _, hr.2⟩
    | exact ⟨setPair_sized hr.1 _ _ _, hr.2⟩ | exact ⟨setV_sized hr.1 _ _, hr.2⟩ | exact ⟨setA_sized hr.1 _ _, hr.2⟩)

theorem execBltz_kept (e : Fin 8) (a : Fin 32) (off : BitVec 17) (s : State) : ∃ out, execBltz e a off s = .next out ∧ Kept s out := by
  refine ⟨_, rfl, ?_⟩
  have h : Kept s s := Kept.refl s
  repeat' (first
    | with_reducible assumption | with_reducible exact Kept.refl _ | with_reducible apply State.branch_kept
    | with_reducible exact okS_err _ | with_reducible exact okF_err _ | with_reducible refine okS_ok ?_ (fun hr => ?_)
    | with_reducible refine okF_ok (fun hr => ?_) | with_reducible exact setS_sized hr.1 _ _ | split | exact hr.1 | exact hr
    | exact ⟨hr.1, hr.2⟩ | exact ⟨setS_sized hr.1 _ _, hr.2⟩ | exact ⟨setP_sized hr.1 _ _, hr.2⟩
    | exact ⟨setPair_sized hr.1 _ _ _, hr.2⟩ | exact ⟨setV_sized hr.1 _ _, hr.2⟩ | exact ⟨setA_sized hr.1 _ _, hr.2⟩)

theorem execBgez_kept (e : Fin 8) (a : Fin 32) (off : BitVec 17) (s : State) : ∃ out, execBgez e a off s = .next out ∧ Kept s out := by
  refine ⟨_, rfl, ?_⟩
  have h : Kept s s := Kept.refl s
  repeat' (first
    | with_reducible assumption | with_reducible exact Kept.refl _ | with_reducible apply State.branch_kept
    | with_reducible exact okS_err _ | with_reducible exact okF_err _ | with_reducible refine okS_ok ?_ (fun hr => ?_)
    | with_reducible refine okF_ok (fun hr => ?_) | with_reducible exact setS_sized hr.1 _ _ | split | exact hr.1 | exact hr
    | exact ⟨hr.1, hr.2⟩ | exact ⟨setS_sized hr.1 _ _, hr.2⟩ | exact ⟨setP_sized hr.1 _ _, hr.2⟩
    | exact ⟨setPair_sized hr.1 _ _ _, hr.2⟩ | exact ⟨setV_sized hr.1 _ _, hr.2⟩ | exact ⟨setA_sized hr.1 _ _, hr.2⟩)

theorem execBgtz_kept (e : Fin 8) (a : Fin 32) (off : BitVec 17) (s : State) : ∃ out, execBgtz e a off s = .next out ∧ Kept s out := by
  refine ⟨_, rfl, ?_⟩
  have h : Kept s s := Kept.refl s
  repeat' (first
    | with_reducible assumption | with_reducible exact Kept.refl _ | with_reducible apply State.branch_kept
    | with_reducible exact okS_err _ | with_reducible exact okF_err _ | with_reducible refine okS_ok ?_ (fun hr => ?_)
    | with_reducible refine okF_ok (fun hr => ?_) | with_reducible exact setS_sized hr.1 _ _ | split | exact hr.1 | exact hr
    | exact ⟨hr.1, hr.2⟩ | exact ⟨setS_sized hr.1 _ _, hr.2⟩ | exact ⟨setP_sized hr.1 _ _, hr.2⟩
    | exact ⟨setPair_sized hr.1 _ _ _, hr.2⟩ | exact ⟨setV_sized hr.1 _ _, hr.2⟩ | exact ⟨setA_sized hr.1 _ _, hr.2⟩)

theorem execBlez_kept (e : Fin 8) (a : Fin 32) (off : BitVec 17) (s : State) : ∃ out, execBlez e a off s = .next out ∧ Kept s out := by
  refine ⟨_, rfl, ?_⟩
  have h : Kept s s := Kept.refl s
  repeat' (first
    | with_reducible assumption | with_reducible exact Kept.refl _ | with_reducible apply State.branch_kept
    | with_reducible exact okS_err _ | with_reducible exact okF_err _ | with_reducible refine okS_ok ?_ (fun hr => ?_)
    | with_reducible refine okF_ok (fun hr => ?_) | with_reducible exact setS_sized hr.1 _ _ | split | exact hr.1 | exact hr
    | exact ⟨hr.1, hr.2⟩ | exact ⟨setS_sized hr.1 _ _, hr.2⟩ | exact ⟨setP_sized hr.1 _ _, hr.2⟩
    | exact ⟨setPair_sized hr.1 _ _ _, hr.2⟩ | exact ⟨setV_sized hr.1 _ _, hr.2⟩ | exact ⟨setA_sized hr.1 _ _, hr.2⟩)

theorem execBany_kept (e a : Fin 8) (off : BitVec 17) (s : State) : ∃ out, execBany e a off s = .next out ∧ Kept s out := by
  refine ⟨_, rfl, ?_⟩
  have h : Kept s s := Kept.refl s
  repeat' (first
    | with_reducible assumption | with_reducible exact Kept.refl _ | with_reducible apply State.branch_kept
    | with_reducible exact okS_err _ | with_reducible exact okF_err _ | with_reducible refine okS_ok ?_ (fun hr => ?_)
    | with_reducible refine okF_ok (fun hr => ?_) | with_reducible exact setS_sized hr.1 _ _ | split | exact hr.1 | exact hr
    | exact ⟨hr.1, hr.2⟩ | exact ⟨setS_sized hr.1 _ _, hr.2⟩ | exact ⟨setP_sized hr.1 _ _, hr.2⟩
    | exact ⟨setPair_sized hr.1 _ _ _, hr.2⟩ | exact ⟨setV_sized hr.1 _ _, hr.2⟩ | exact ⟨setA_sized hr.1 _ _, hr.2⟩)

theorem execBnone_kept (e a : Fin 8) (off : BitVec 17) (s : State) : ∃ out, execBnone e a off s = .next out ∧ Kept s out := by
  refine ⟨_, rfl, ?_⟩
  have h : Kept s s := Kept.refl s
  repeat' (first
    | with_reducible assumption | with_reducible exact Kept.refl _ | with_reducible apply State.branch_kept
    | with_reducible exact okS_err _ | with_reducible exact okF_err _ | with_reducible refine okS_ok ?_ (fun hr => ?_)
    | with_reducible refine okF_ok (fun hr => ?_) | with_reducible exact setS_sized hr.1 _ _ | split | exact hr.1 | exact hr
    | exact ⟨hr.1, hr.2⟩ | exact ⟨setS_sized hr.1 _ _, hr.2⟩ | exact ⟨setP_sized hr.1 _ _, hr.2⟩
    | exact ⟨setPair_sized hr.1 _ _ _, hr.2⟩ | exact ⟨setV_sized hr.1 _ _, hr.2⟩ | exact ⟨setA_sized hr.1 _ _, hr.2⟩)

theorem execJmp_kept (e : Fin 8) (off : BitVec 17) (s : State) : ∃ out, execJmp e off s = .next out ∧ Kept s out := by
  refine ⟨_, rfl, ?_⟩
  have h : Kept s s := Kept.refl s
  repeat' (first
    | with_reducible assumption | with_reducible exact Kept.refl _ | with_reducible refine State.flow_kept ?_ _ _ (fun y r hr => ?_)
    | with_reducible exact okS_err _ | with_reducible exact okF_err _ | with_reducible refine okS_ok ?_ (fun hr => ?_)
    | with_reducible refine okF_ok (fun hr => ?_) | with_reducible exact setS_sized hr.1 _ _ | split | exact hr.1 | exact hr
    | exact ⟨hr.1, hr.2⟩ | exact ⟨setS_sized hr.1 _ _, hr.2⟩ | exact ⟨setP_sized hr.1 _ _, hr.2⟩
    | exact ⟨setPair_sized hr.1 _ _ _, hr.2⟩ | exact ⟨setV_sized hr.1 _ _, hr.2⟩ | exact ⟨setA_sized hr.1 _ _, hr.2⟩)

theorem execCallI_kept (e : Fin 8) (off : BitVec 17) (s : State) : ∃ out, execCallI e off s = .next out ∧ Kept s out := by
  refine ⟨_, rfl, ?_⟩
  have h : Kept s s := Kept.refl s
  repeat' (first
    | with_reducible assumption | with_reducible exact Kept.refl _ | with_reducible refine State.flow_kept ?_ _ _ (fun y r hr => ?_)
    | with_reducible exact okS_err _ | with_reducible exact okF_err _ | with_reducible refine okS_ok ?_ (fun hr => ?_)
    | with_reducible refine okF_ok (fun hr => ?_) | with_reducible exact setS_sized hr.1 _ _ | split | exact hr.1 | exact hr
    | exact ⟨hr.1, hr.2⟩ | exact ⟨setS_sized hr.1 _ _, hr.2⟩ | exact ⟨setP_sized hr.1 _ _, hr.2⟩
    | exact ⟨setPair_sized hr.1 _ _ _, hr.2⟩ | exact ⟨setV_sized hr.1 _ _, hr.2⟩ | exact ⟨setA_sized hr.1 _ _, hr.2⟩)

theorem execRetI_kept (e : Fin 8) (s : State) : ∃ out, execRetI e s = .next out ∧ Kept s out := by
  refine ⟨_, rfl, ?_⟩
  have h : Kept s s := Kept.refl s
  repeat' (first
    | with_reducible assumption | with_reducible exact Kept.refl _ | with_reducible refine State.flow_kept ?_ _ _ (fun y r hr => ?_)
    | with_reducible exact okS_err _ | with_reducible exact okF_err _ | with_reducible refine okS_ok ?_ (fun hr => ?_)
    | with_reducible refine okF_ok (fun hr => ?_) | with_reducible exact setS_sized hr.1 _ _ | split | exact hr.1 | exact hr
    | exact ⟨hr.1, hr.2⟩ | exact ⟨setS_sized hr.1 _ _, hr.2⟩ | exact ⟨setP_sized hr.1 _ _, hr.2⟩
    | exact ⟨setPair_sized hr.1 _ _ _, hr.2⟩ | exact ⟨setV_sized hr.1 _ _, hr.2⟩ | exact ⟨setA_sized hr.1 _ _, hr.2⟩)

theorem execLoopI_kept (e : Fin 8) (a : Fin 32) (n : BitVec 16) (s : State) : ∃ out, execLoopI e a n s = .next out ∧ Kept s out := by
  refine ⟨_, rfl, ?_⟩
  have h : Kept s s := Kept.refl s
  refine State.flow_kept h _ _ (fun y r hr => ?_)
  dsimp only
  repeat' split
  all_goals exact hr.1

theorem execLend_kept (e : Fin 8) (off : BitVec 17) (s : State) : ∃ out, execLend e off s = .next out ∧ Kept s out := by
  refine ⟨_, rfl, ?_⟩
  have h : Kept s s := Kept.refl s
  repeat' (first
    | with_reducible assumption | with_reducible exact Kept.refl _ | with_reducible refine State.flow_kept ?_ _ _ (fun y r hr => ?_)
    | with_reducible apply kept_ite | with_reducible exact okS_err _ | with_reducible exact okF_err _
    | with_reducible refine okS_ok ?_ (fun hr => ?_) | with_reducible refine okF_ok (fun hr => ?_)
    | with_reducible exact setS_sized hr.1 _ _ | split | exact hr.1 | exact hr | exact ⟨hr.1, hr.2⟩ | exact ⟨setS_sized hr.1 _ _, hr.2⟩
    | exact ⟨setP_sized hr.1 _ _, hr.2⟩ | exact ⟨setPair_sized hr.1 _ _ _, hr.2⟩ | exact ⟨setV_sized hr.1 _ _, hr.2⟩
    | exact ⟨setA_sized hr.1 _ _, hr.2⟩)

theorem execEndRun_kept (e : Fin 8) (s : State) : ∃ out, execEndRun e s = .next out ∧ Kept s out := by
  refine ⟨_, rfl, ?_⟩
  have h : Kept s s := Kept.refl s
  refine State.flow_kept h _ _ (fun y r hr => ?_)
  dsimp only
  split
  · exact (next_sized (clearCue_sized hr _)).1
  · exact (next_sized hr).1

end Sys2Proof.Laws
end

