-- ==== Sys2Proof/Laws/KeptPlan.lean ====
section
/-!
SUPPORT. What the operations of Machine/Plan.lean keep.
-/

set_option linter.all false

namespace Sys2Proof.Laws

open Sys2Proof.Machine


variable {s0 : State}

theorem State.shuffle_kept {s : State} (h : Kept s0 s) (l : List PlanRun) : Kept s0 (State.shuffle s l).2 := by
  induction l with
  | nil => exact h
  | cons r t ih => exact State.free1_kept ih

theorem State.setStarts_kept {s : State} (h : Kept s0 s) (m : List (StoreObj × Nat)) (img : Nat → ImageS) (used : List BankUse) (c pos slack : Nat)
    (l : List PlanRun) : Kept s0 (State.setStarts s m img used c pos slack l).2 := by
  induction l generalizing s pos slack with
  | nil => exact h
  | cons r t ih =>
    simp only [State.setStarts]
    by_cases hc : (if (r.settle m (img r.ctx) used (6 * used.length + 1) (pos + s.free1.1 % (slack + 1))).start + r.cost ≤ c then
        r.settle m (img r.ctx) used (6 * used.length + 1) (pos + s.free1.1 % (slack + 1))
      else r.settle m (img r.ctx) used (6 * used.length + 1) pos).start + r.cost ≤ c
    · rw [if_pos hc]; exact ih (State.free1_kept h) _ _
    · rw [if_neg hc]; exact ih (State.free1_kept h) _ _

theorem State.engineRuns_kept {s : State} (h : Kept s0 s) (m : List (StoreObj × Nat)) (used : List BankUse) (l : List (Nat × ContextS)) (k c e : Nat) :
    Kept s0 (State.engineRuns s m used l k c e).2 :=
  State.setStarts_kept (State.shuffle_kept h _) _ _ _ _ _ _ _

theorem State.classTasks_kept {s : State} (h : Kept s0 s) (l : List (Nat × ContextS)) (k cls : Nat) : Kept s0 (State.classTasks s l k cls).2 := by
  unfold State.classTasks
  split
  · exact h
  · split
    · refine kept_foldl2 _ (fun x e hx => ?_) h
      exact State.free1_kept (State.free1_kept hx)
    · exact h

theorem State.planItems_kept {s : State} (h : Kept s0 s) (l : List (Nat × ContextS)) (chains : List Nat) (k c : Nat) (ramp : Bool) : Kept s0 (State.planItems s l chains k c ramp).2 := by
  unfold State.planItems
  dsimp only
  refine kept_foldl2 _ (fun x e hx => ?_) ?_
  · exact State.classTasks_kept hx _ _ _
  · refine kept_foldl2 (List.range 8) (fun x e hx => ?_) h
    exact State.engineRuns_kept hx _ _ _ _ _ _

theorem State.placeSlots_kept {s : State} (h : Kept s0 s)  : Kept s0 (State.placeSlots s) := by
  unfold State.placeSlots
  repeat' (first
    | with_reducible assumption | with_reducible exact Kept.refl _ | with_reducible apply State.rsetN_kept
    | with_reducible apply kept_ite | with_reducible apply kept_ite1 | with_reducible apply kept_ite2
    | with_reducible refine kept_foldl _ (fun x a hx => ?_) ?_ | split | with_reducible exact kept_snd ‹_ = _› (by assumption)
    | (with_reducible refine kept_snd ‹_ = (_, _)› ?_) | (with_reducible refine kept_fst ‹_ = (_, _)› ?_)
    | (lift_lets; intro x; first | (refine (fun (hx : Kept s0 x) => ?_) ?_; clear_value x) | clear_value x)
    | (intro x; refine (fun (hx : Kept s0 x) => ?_) ?_; clear_value x) | (intro x; clear_value x) | dsimp only)

theorem execRunStart_kept (n : Fin 256) (slot : Option (Fin 7)) (t : Nat) (s : State) : ∃ out, execRunStart n slot t s = .next out ∧ Kept s out := by
  refine ⟨_, rfl, ?_⟩
  have h : Kept s s := Kept.refl s
  repeat' (first
    | with_reducible assumption | with_reducible exact Kept.refl _ | with_reducible apply State.at_kept
    | with_reducible apply State.startRun_kept | with_reducible apply kept_ite | with_reducible apply kept_ite1
    | with_reducible apply kept_ite2 | with_reducible refine kept_foldl _ (fun x a hx => ?_) ?_ | split
    | with_reducible exact kept_snd ‹_ = _› (by assumption) | (with_reducible refine kept_snd ‹_ = (_, _)› ?_)
    | (with_reducible refine kept_fst ‹_ = (_, _)› ?_)
    | (lift_lets; intro x; first | (refine (fun (hx : Kept s x) => ?_) ?_; clear_value x) | clear_value x)
    | (intro x; refine (fun (hx : Kept s x) => ?_) ?_; clear_value x) | (intro x; clear_value x) | dsimp only | exact id
    | with_reducible exact rfl | with_reducible exact Nat.le_refl _ | with_reducible exact modifyAt_length _ _ _
    | with_reducible exact List.length_map _ | ((with_reducible refine (id ?_ : (_ : Nat) = _)); exact rfl)
    | with_reducible refine Kept.upd ?_ ?_ ?_ ?_ ?_ ?_ ?_ ?_)

end Sys2Proof.Laws
end

