-- ==== Sys2Proof/Laws/KeptQueue.lean ====
section
/-!
SUPPORT. What the operations of Machine/Queue.lean keep.
-/

set_option linter.all false

namespace Sys2Proof.Laws

open Sys2Proof.Machine


variable {s0 : State}

theorem State.haul_kept {s : State} (h : Kept s0 s) (e a b c n10 : Nat) (into : Bool) : Kept s0 (State.haul s e a b c n10 into) := by
  unfold State.haul
  repeat' (first
    | with_reducible assumption | with_reducible exact Kept.refl _ | with_reducible apply State.ctxMod_kept
    | with_reducible refine State.instrS_kept ?_ _ _ _ (fun r y hy => ?_) | with_reducible apply kept_ite
    | with_reducible apply kept_ite1 | with_reducible apply kept_ite2 | with_reducible exact okS_err _ | with_reducible exact okF_err _
    | with_reducible refine okS_ok ?_ (fun hr => ?_) | with_reducible refine okF_ok (fun hr => ?_)
    | with_reducible exact setS_sized hr.1 _ _ | split | with_reducible exact kept_snd ‹_ = _› (by assumption)
    | (with_reducible refine kept_snd ‹_ = (_, _)› ?_) | (with_reducible refine kept_fst ‹_ = (_, _)› ?_)
    | (lift_lets; intro x; first | (refine (fun (hx : Kept s0 x) => ?_) ?_; clear_value x) | clear_value x)
    | (intro x; refine (fun (hx : Kept s0 x) => ?_) ?_; clear_value x) | (intro x; clear_value x) | dsimp only | exact hr.1 | exact hr
    | exact ⟨hr.1, hr.2⟩ | exact ⟨setS_sized hr.1 _ _, hr.2⟩ | exact ⟨setP_sized hr.1 _ _, hr.2⟩
    | exact ⟨setPair_sized hr.1 _ _ _, hr.2⟩ | exact ⟨setV_sized hr.1 _ _, hr.2⟩ | exact ⟨setA_sized hr.1 _ _, hr.2⟩)

theorem execHin_kept (e : Fin 8) (a b c : Fin 32) (n10 : Fin 1024) (s : State) : ∃ out, execHin e a b c n10 s = .next out ∧ Kept s out := by
  refine ⟨_, rfl, ?_⟩
  have h : Kept s s := Kept.refl s
  repeat' (first
    | with_reducible assumption | with_reducible exact Kept.refl _ | with_reducible apply State.haul_kept
    | with_reducible exact okS_err _ | with_reducible exact okF_err _ | with_reducible refine okS_ok ?_ (fun hr => ?_)
    | with_reducible refine okF_ok (fun hr => ?_) | with_reducible exact setS_sized hr.1 _ _ | split | exact hr.1 | exact hr
    | exact ⟨hr.1, hr.2⟩ | exact ⟨setS_sized hr.1 _ _, hr.2⟩ | exact ⟨setP_sized hr.1 _ _, hr.2⟩
    | exact ⟨setPair_sized hr.1 _ _ _, hr.2⟩ | exact ⟨setV_sized hr.1 _ _, hr.2⟩ | exact ⟨setA_sized hr.1 _ _, hr.2⟩)

theorem execHout_kept (e : Fin 8) (a b c : Fin 32) (n10 : Fin 1024) (s : State) : ∃ out, execHout e a b c n10 s = .next out ∧ Kept s out := by
  refine ⟨_, rfl, ?_⟩
  have h : Kept s s := Kept.refl s
  repeat' (first
    | with_reducible assumption | with_reducible exact Kept.refl _ | with_reducible apply State.haul_kept
    | with_reducible exact okS_err _ | with_reducible exact okF_err _ | with_reducible refine okS_ok ?_ (fun hr => ?_)
    | with_reducible refine okF_ok (fun hr => ?_) | with_reducible exact setS_sized hr.1 _ _ | split | exact hr.1 | exact hr
    | exact ⟨hr.1, hr.2⟩ | exact ⟨setS_sized hr.1 _ _, hr.2⟩ | exact ⟨setP_sized hr.1 _ _, hr.2⟩
    | exact ⟨setPair_sized hr.1 _ _ _, hr.2⟩ | exact ⟨setV_sized hr.1 _ _, hr.2⟩ | exact ⟨setA_sized hr.1 _ _, hr.2⟩)

theorem execQrdc_kept (e : Fin 8) (d : Fin 32) (q : Fin 16) (a b c : Fin 32) (s : State) : ∃ out, execQrdc e d q a b c s = .next out ∧ Kept s out := by
  refine ⟨_, rfl, ?_⟩
  have h : Kept s s := Kept.refl s
  repeat' (first
    | with_reducible assumption | with_reducible exact Kept.refl _ | with_reducible apply State.ctxMod_kept
    | with_reducible refine State.instrS_kept ?_ _ _ _ (fun r y hy => ?_) | with_reducible apply State.showQ0_kept
    | with_reducible apply kept_ite | with_reducible apply kept_ite1 | with_reducible apply kept_ite2 | with_reducible exact okS_err _
    | with_reducible exact okF_err _ | with_reducible refine okS_ok ?_ (fun hr => ?_) | with_reducible refine okF_ok (fun hr => ?_)
    | with_reducible exact setS_sized hr.1 _ _ | split | with_reducible exact kept_snd ‹_ = _› (by assumption)
    | (with_reducible refine kept_snd ‹_ = (_, _)› ?_) | (with_reducible refine kept_fst ‹_ = (_, _)› ?_)
    | (lift_lets; intro x; first | (refine (fun (hx : Kept s x) => ?_) ?_; clear_value x) | clear_value x)
    | (intro x; refine (fun (hx : Kept s x) => ?_) ?_; clear_value x) | (intro x; clear_value x) | dsimp only | exact hr.1 | exact hr
    | exact ⟨hr.1, hr.2⟩ | exact ⟨setS_sized hr.1 _ _, hr.2⟩ | exact ⟨setP_sized hr.1 _ _, hr.2⟩
    | exact ⟨setPair_sized hr.1 _ _ _, hr.2⟩ | exact ⟨setV_sized hr.1 _ _, hr.2⟩ | exact ⟨setA_sized hr.1 _ _, hr.2⟩)

theorem execQrd_kept (e : Fin 8) (d : Fin 32) (q : Fin 16) (a : Fin 32) (s : State) : ∃ out, execQrd e d q a s = .next out ∧ Kept s out := by
  refine ⟨_, rfl, ?_⟩
  have h : Kept s s := Kept.refl s
  repeat' (first
    | with_reducible assumption | with_reducible exact Kept.refl _ | with_reducible refine State.instrS_kept ?_ _ _ _ (fun r y hy => ?_)
    | with_reducible apply State.portMod_kept | with_reducible apply State.spaceBack_kept | with_reducible apply kept_ite | with_reducible apply kept_ite1
    | with_reducible apply kept_ite2 | with_reducible exact okS_err _ | with_reducible exact okF_err _
    | with_reducible refine okS_ok ?_ (fun hr => ?_) | with_reducible refine okF_ok (fun hr => ?_)
    | with_reducible exact setS_sized hr.1 _ _ | split | with_reducible exact kept_snd ‹_ = _› (by assumption)
    | (with_reducible refine kept_snd ‹_ = (_, _)› ?_) | (with_reducible refine kept_fst ‹_ = (_, _)› ?_)
    | (lift_lets; intro x; first | (refine (fun (hx : Kept s x) => ?_) ?_; clear_value x) | clear_value x)
    | (intro x; refine (fun (hx : Kept s x) => ?_) ?_; clear_value x) | (intro x; clear_value x) | dsimp only | exact hr.1 | exact hr
    | exact ⟨hr.1, hr.2⟩ | exact ⟨setS_sized hr.1 _ _, hr.2⟩ | exact ⟨setP_sized hr.1 _ _, hr.2⟩
    | exact ⟨setPair_sized hr.1 _ _ _, hr.2⟩ | exact ⟨setV_sized hr.1 _ _, hr.2⟩ | exact ⟨setA_sized hr.1 _ _, hr.2⟩)

theorem execQwr_kept (e d : Fin 8) (q : Fin 16) (a b c : Fin 32) (s : State) : ∃ out, execQwr e d q a b c s = .next out ∧ Kept s out := by
  refine ⟨_, rfl, ?_⟩
  have h : Kept s s := Kept.refl s
  repeat' (first
    | with_reducible assumption | with_reducible exact Kept.refl _ | with_reducible apply State.dropEntry_kept
    | with_reducible refine State.instrS_kept ?_ _ _ _ (fun r y hy => ?_) | with_reducible apply State.portMod_kept
    | with_reducible apply kept_ite | with_reducible apply kept_ite1 | with_reducible apply kept_ite2 | with_reducible exact okS_err _
    | with_reducible exact okF_err _ | with_reducible refine okS_ok ?_ (fun hr => ?_) | with_reducible refine okF_ok (fun hr => ?_)
    | with_reducible exact setS_sized hr.1 _ _ | split | with_reducible exact kept_snd ‹_ = _› (by assumption)
    | (with_reducible refine kept_snd ‹_ = (_, _)› ?_) | (with_reducible refine kept_fst ‹_ = (_, _)› ?_)
    | (lift_lets; intro x; first | (refine (fun (hx : Kept s x) => ?_) ?_; clear_value x) | skip)
    | (intro x; refine (fun (hx : Kept s x) => ?_) ?_; clear_value x) | (intro x; skip) | dsimp only | exact id
    | with_reducible exact rfl | with_reducible exact Nat.le_refl _ | with_reducible exact modifyAt_length _ _ _
    | with_reducible exact List.length_map _ | ((with_reducible refine (id ?_ : (_ : Nat) = _)); exact rfl)
    | with_reducible refine Kept.upd ?_ ?_ ?_ ?_ ?_ ?_ ?_ ?_ | exact hr.1 | exact hr | exact ⟨hr.1, hr.2⟩
    | exact ⟨setS_sized hr.1 _ _, hr.2⟩ | exact ⟨setP_sized hr.1 _ _, hr.2⟩ | exact ⟨setPair_sized hr.1 _ _ _, hr.2⟩
    | exact ⟨setV_sized hr.1 _ _, hr.2⟩ | exact ⟨setA_sized hr.1 _ _, hr.2⟩)

theorem State.two_kept {s : State} (h : Kept s0 s) (e : Nat) (f : Run → State → Run × State)
    (hf : ∀ r y, Kept s0 y → Kept s0 (f r y).2 ∧ (r.sized → (f r y).1.sized)) : Kept s0 (State.two s e f) :=
  State.instrS_kept h _ _ _ (fun r y hy => hf r y hy)

theorem execCuerd_kept (e d : Fin 8) (k : Fin 7) (a : Fin 32) (s : State) : ∃ out, execCuerd e d k a s = .next out ∧ Kept s out := by
  refine ⟨_, rfl, ?_⟩
  have h : Kept s s := Kept.refl s
  refine State.instrS_kept h _ _ _ (fun r y hy => ?_)
  dsimp only
  split
  · exact okS_err _
  · refine okS_ok hy (fun hr => ⟨setP_sized hr.1 _ _, ?_⟩)
    simpa using hr.2

theorem execCueclr_kept (e : Fin 8) (k : Fin 7) (s : State) : ∃ out, execCueclr e k s = .next out ∧ Kept s out := by
  refine ⟨_, rfl, ?_⟩
  have h : Kept s s := Kept.refl s
  exact State.two_kept h _ _ (fun r y hy => ⟨hy, fun hr => clearCue_sized hr k⟩)

theorem execCuepend_kept (e : Fin 8) (d : Fin 32) (s : State) : ∃ out, execCuepend e d s = .next out ∧ Kept s out := by
  refine ⟨_, rfl, ?_⟩
  have h : Kept s s := Kept.refl s
  repeat' (first
    | with_reducible assumption | with_reducible exact Kept.refl _
    | with_reducible refine State.two_kept ?_ _ _ (fun r y hy => ⟨?_, fun hr => ?_⟩) | with_reducible exact okS_err _
    | with_reducible exact okF_err _ | with_reducible refine okS_ok ?_ (fun hr => ?_) | with_reducible refine okF_ok (fun hr => ?_)
    | with_reducible exact setS_sized hr.1 _ _ | split | exact hr.1 | exact hr | exact ⟨hr.1, hr.2⟩ | exact ⟨setS_sized hr.1 _ _, hr.2⟩
    | exact ⟨setP_sized hr.1 _ _, hr.2⟩ | exact ⟨setPair_sized hr.1 _ _ _, hr.2⟩ | exact ⟨setV_sized hr.1 _ _, hr.2⟩
    | exact ⟨setA_sized hr.1 _ _, hr.2⟩)

theorem execTimerI_kept (e : Fin 8) (a : Fin 32) (s : State) : ∃ out, execTimerI e a s = .next out ∧ Kept s out := by
  refine ⟨_, rfl, ?_⟩
  have h : Kept s s := Kept.refl s
  refine State.two_kept h _ _ (fun r y hy => ⟨?_, id⟩)
  dsimp only
  split
  · exact State.ctxMod_kept hy _ _
  · split
    · exact State.raiseCue_kept (State.ctxMod_kept hy _ _) _ _ _ _
    · exact State.ctxMod_kept hy _ _

theorem execAgcrel_kept (e : Fin 8) (s : State) : ∃ out, execAgcrel e s = .next out ∧ Kept s out := by
  refine ⟨_, rfl, ?_⟩
  have h : Kept s s := Kept.refl s
  repeat' (first
    | with_reducible assumption | with_reducible exact Kept.refl _ | with_reducible apply State.chnMod_kept
    | with_reducible refine State.two_kept ?_ _ _ (fun r y hy => ⟨?_, fun hr => ?_⟩) | with_reducible apply kept_ite
    | with_reducible exact okS_err _ | with_reducible exact okF_err _ | with_reducible refine okS_ok ?_ (fun hr => ?_)
    | with_reducible refine okF_ok (fun hr => ?_) | with_reducible exact setS_sized hr.1 _ _ | split | exact hr.1 | exact hr
    | exact ⟨hr.1, hr.2⟩ | exact ⟨setS_sized hr.1 _ _, hr.2⟩ | exact ⟨setP_sized hr.1 _ _, hr.2⟩
    | exact ⟨setPair_sized hr.1 _ _ _, hr.2⟩ | exact ⟨setV_sized hr.1 _ _, hr.2⟩ | exact ⟨setA_sized hr.1 _ _, hr.2⟩)

theorem execRinf_kept (e : Fin 8) (d sel : Fin 32) (s : State) : ∃ out, execRinf e d sel s = .next out ∧ Kept s out := by
  refine ⟨_, rfl, ?_⟩
  have h : Kept s s := Kept.refl s
  repeat' (first
    | with_reducible assumption | with_reducible exact Kept.refl _
    | with_reducible refine State.two_kept ?_ _ _ (fun r y hy => ⟨?_, fun hr => ?_⟩) | with_reducible exact okS_err _
    | with_reducible exact okF_err _ | with_reducible refine okS_ok ?_ (fun hr => ?_) | with_reducible refine okF_ok (fun hr => ?_)
    | with_reducible exact setS_sized hr.1 _ _ | split | exact hr.1 | exact hr | exact ⟨hr.1, hr.2⟩ | exact ⟨setS_sized hr.1 _ _, hr.2⟩
    | exact ⟨setP_sized hr.1 _ _, hr.2⟩ | exact ⟨setPair_sized hr.1 _ _ _, hr.2⟩ | exact ⟨setV_sized hr.1 _ _, hr.2⟩
    | exact ⟨setA_sized hr.1 _ _, hr.2⟩)

theorem execLcnt_kept (e : Fin 8) (d k : Fin 32) (s : State) : ∃ out, execLcnt e d k s = .next out ∧ Kept s out := by
  refine ⟨_, rfl, ?_⟩
  have h : Kept s s := Kept.refl s
  repeat' (first
    | with_reducible assumption | with_reducible exact Kept.refl _
    | with_reducible refine State.two_kept ?_ _ _ (fun r y hy => ⟨?_, fun hr => ?_⟩) | with_reducible exact okS_err _
    | with_reducible exact okF_err _ | with_reducible refine okS_ok ?_ (fun hr => ?_) | with_reducible refine okF_ok (fun hr => ?_)
    | with_reducible exact setS_sized hr.1 _ _ | split | exact hr.1 | exact hr | exact ⟨hr.1, hr.2⟩ | exact ⟨setS_sized hr.1 _ _, hr.2⟩
    | exact ⟨setP_sized hr.1 _ _, hr.2⟩ | exact ⟨setPair_sized hr.1 _ _ _, hr.2⟩ | exact ⟨setV_sized hr.1 _ _, hr.2⟩
    | exact ⟨setA_sized hr.1 _ _, hr.2⟩)

theorem execBrkI_kept (e : Fin 8) (s : State) : ∃ out, execBrkI e s = .next out ∧ Kept s out := by
  refine ⟨_, rfl, ?_⟩
  have h : Kept s s := Kept.refl s
  refine State.two_kept h _ _ (fun r y hy => ⟨?_, id⟩)
  exact kept_ite (State.bump_kept (State.rset64_kept (State.rset_kept hy _ _) _ _) _) hy

end Sys2Proof.Laws
end

