-- ==== Sys2Proof/Laws/KeptFaults.lean ====
section
/-!
SUPPORT. What the operations of Machine/Faults.lean keep.
-/

set_option linter.all false

namespace Sys2Proof.Laws

open Sys2Proof.Machine


variable {s0 : State}

theorem State.fltMod_kept {s : State} (h : Kept s0 s) (f : FaultS → FaultS) : Kept s0 (State.fltMod s f) := by
  unfold State.fltMod
  repeat' (first
    | with_reducible assumption | with_reducible exact Kept.refl _ | exact id | with_reducible exact rfl
    | with_reducible exact Nat.le_refl _ | with_reducible exact modifyAt_length _ _ _ | with_reducible exact List.length_map _
    | ((with_reducible refine (id ?_ : (_ : Nat) = _)); exact rfl) | with_reducible refine Kept.upd ?_ ?_ ?_ ?_ ?_ ?_ ?_ ?_)

theorem State.showStby_kept {s : State} (h : Kept s0 s)  : Kept s0 (State.showStby s) := by
  unfold State.showStby
  repeat' (first
    | with_reducible assumption | with_reducible exact Kept.refl _ | with_reducible apply State.fsetB_kept)

theorem State.setWarden_kept {s : State} (h : Kept s0 s) (w v : Nat) : Kept s0 (State.setWarden s w v) := by
  unfold State.setWarden
  repeat' (first
    | with_reducible assumption | with_reducible exact Kept.refl _ | with_reducible apply State.fset_kept
    | with_reducible apply State.showStby_kept)

/-- The state after reset has the sizes of its fixed tables. -/

theorem reset_shaped : State.reset.shaped where
  runs := rfl
  run := fun e r hr => by
    have h : State.reset.run e = none := by
      show (List.replicate 8 (none : Option Run)).getD e none = none
      rw [List.getD_eq_getElem?_getD, List.getElem?_replicate]
      split <;> rfl
    rw [h] at hr; cases hr
  buses := rfl
  tenants := rfl
  ports := rfl
  latches := rfl

/-- A reset of the islands, from a state that a reset holds: nothing is said of its time. -/

theorem State.islands_kept {s : State} (h : Kept s0 s) (hd : upB s0.boot = false) : Kept s0 (State.islands s) :=
  ⟨h.pending, fun k => regsFilter_wf _ (h.regs k), fun _ =>
    { runs := reset_shaped.runs, run := reset_shaped.run, buses := reset_shaped.buses, tenants := reset_shaped.tenants
      ports := reset_shaped.ports, latches := reset_shaped.latches }, fun h0 => by rw [hd] at h0; cases h0⟩

/-- A reset of the islands that ends with the device held in reset. -/

theorem islands_down_kept {s : State} (h : Kept s0 s) {b : BootS} (hb : upB b = false) : Kept s0 { State.islands s with boot := b } :=
  ⟨h.pending, fun k => regsFilter_wf _ (h.regs k), fun _ =>
    { runs := reset_shaped.runs, run := reset_shaped.run, buses := reset_shaped.buses, tenants := reset_shaped.tenants
      ports := reset_shaped.ports, latches := reset_shaped.latches }, fun _ h1 => by rw [hb] at h1; cases h1⟩

theorem State.deviceReset_kept {s : State} (h : Kept s0 s) (code : Nat) : Kept s0 (State.deviceReset s code) :=
  islands_down_kept (State.rsetN_kept (State.fset_kept h _ _) _ _) (by simp [upB])

theorem State.startRestart_kept {s : State} (h : Kept s0 s) (code : Nat) : Kept s0 (State.startRestart s code) := by
  unfold State.startRestart
  repeat' (first
    | with_reducible assumption | with_reducible exact Kept.refl _ | with_reducible apply State.deviceReset_kept
    | with_reducible apply State.fault_kept | with_reducible apply State.fltMod_kept | with_reducible apply State.fset_kept
    | with_reducible apply State.fsetB_kept | with_reducible apply State.fstMod_kept | with_reducible apply State.seqMod_kept
    | with_reducible apply State.setWarden_kept | with_reducible apply kept_ite | with_reducible apply kept_ite1
    | with_reducible apply kept_ite2 | split | with_reducible exact kept_snd ‹_ = _› (by assumption)
    | (with_reducible refine kept_snd ‹_ = (_, _)› ?_) | (with_reducible refine kept_fst ‹_ = (_, _)› ?_)
    | (lift_lets; intro x; first | (refine (fun (hx : Kept s0 x) => ?_) ?_; clear_value x) | clear_value x)
    | (intro x; refine (fun (hx : Kept s0 x) => ?_) ?_; clear_value x) | (intro x; clear_value x) | dsimp only)

theorem State.undoRun_kept {s : State} (h : Kept s0 s) (e : Nat) : Kept s0 (State.undoRun s e) := by
  unfold State.undoRun
  repeat' (first
    | with_reducible assumption | with_reducible exact Kept.refl _ | with_reducible apply State.ctxMod_kept
    | with_reducible apply State.giveBack_kept | with_reducible apply setRun_none_kept | with_reducible apply State.showQ0_kept
    | with_reducible apply State.spendRun_kept | with_reducible apply State.trouble_kept | split
    | (lift_lets; intro x; first | (refine (fun (hx : Kept s0 x) => ?_) ?_; clear_value x) | clear_value x)
    | (intro x; refine (fun (hx : Kept s0 x) => ?_) ?_; clear_value x) | (intro x; clear_value x) | dsimp only)

theorem State.restartBoundary_kept {s : State} (h : Kept s0 s)  : Kept s0 (State.restartBoundary s) := by
  unfold State.restartBoundary
  repeat' (first
    | with_reducible assumption | with_reducible exact Kept.refl _ | with_reducible apply State.brsStop_kept
    | with_reducible apply State.calMod_kept | with_reducible apply State.ctxMod_kept
    | with_reducible apply State.fltMod_kept | with_reducible apply State.fset_kept | with_reducible apply State.ldgMod_kept
    | with_reducible apply State.showCtx_kept | with_reducible apply State.stopChain_kept
    | with_reducible apply State.stopMark_kept | with_reducible apply State.undoRun_kept | with_reducible apply kept_ite
    | with_reducible apply kept_ite1 | with_reducible apply kept_ite2
    | with_reducible refine kept_foldl _ (fun x a hx => ?_) ?_ | split
    | with_reducible exact kept_snd ‹_ = _› (by assumption) | (with_reducible refine kept_snd ‹_ = (_, _)› ?_)
    | (with_reducible refine kept_fst ‹_ = (_, _)› ?_)
    | (lift_lets; intro x; first | (refine (fun (hx : Kept s0 x) => ?_) ?_; clear_value x) | clear_value x)
    | (intro x; refine (fun (hx : Kept s0 x) => ?_) ?_; clear_value x) | (intro x; clear_value x) | dsimp only)

theorem State.restartTo_kept {s : State} (h : Kept s0 s) (k : Nat) : Kept s0 (State.restartTo s k) := by
  unfold State.restartTo
  repeat' (first
    | with_reducible assumption | with_reducible exact Kept.refl _ | with_reducible apply State.fltMod_kept)

theorem State.islandReset_kept {s : State} (h : Kept s0 s)  : Kept s0 (State.islandReset s) :=
  State.setNextRef_kept (State.ldgMod_kept (State.fsetB_kept (State.fsetB_kept (State.fsetB_kept (State.fset_kept
    (kept_filter h _) _ _) _ _) _ _) _ _) _) _

theorem execTsResetRelease_kept (t : Nat) (s : State) : ∃ out, execTsResetRelease t s = .next out ∧ Kept s out := by
  refine ⟨_, rfl, ?_⟩
  have h : Kept s s := Kept.refl s
  repeat' (first
    | with_reducible assumption | with_reducible exact Kept.refl _ | with_reducible apply State.at_kept
    | with_reducible apply State.islandReset_kept | with_reducible apply State.restartTo_kept | with_reducible apply kept_ite
    | with_reducible apply kept_ite1 | with_reducible apply kept_ite2 | split
    | with_reducible exact kept_snd ‹_ = _› (by assumption) | (with_reducible refine kept_snd ‹_ = (_, _)› ?_)
    | (with_reducible refine kept_fst ‹_ = (_, _)› ?_)
    | (lift_lets; intro x; first | (refine (fun (hx : Kept s x) => ?_) ?_; clear_value x) | clear_value x)
    | (intro x; refine (fun (hx : Kept s x) => ?_) ?_; clear_value x) | (intro x; clear_value x) | dsimp only)

theorem execTsRestartTimeout_kept  (s : State) : ∃ out, execTsRestartTimeout s = .next out ∧ Kept s out := by
  refine ⟨_, rfl, ?_⟩
  have h : Kept s s := Kept.refl s
  repeat' (first
    | with_reducible assumption | with_reducible exact Kept.refl _ | with_reducible apply State.at_kept
    | with_reducible apply State.deviceReset_kept | split)

theorem execTsVoteStep_kept (a b c : Nat) (t : Nat) (s : State) : ∃ out, execTsVoteStep a b c t s = .next out ∧ Kept s out := by
  refine ⟨_, rfl, ?_⟩
  have h : Kept s s := Kept.refl s
  repeat' (first
    | with_reducible assumption | with_reducible exact Kept.refl _ | with_reducible apply State.at_kept
    | with_reducible apply State.deviceReset_kept | with_reducible apply State.fault_kept
    | with_reducible apply State.fltMod_kept | with_reducible apply kept_ite | with_reducible apply kept_ite1
    | with_reducible apply kept_ite2 | split | with_reducible exact kept_snd ‹_ = _› (by assumption)
    | (with_reducible refine kept_snd ‹_ = (_, _)› ?_) | (with_reducible refine kept_fst ‹_ = (_, _)› ?_)
    | (lift_lets; intro x; first | (refine (fun (hx : Kept s x) => ?_) ?_; clear_value x) | clear_value x)
    | (intro x; refine (fun (hx : Kept s x) => ?_) ?_; clear_value x) | (intro x; clear_value x) | dsimp only)

theorem State.startFailover_kept {s : State} (h : Kept s0 s) (code most : Nat) : Kept s0 (State.startFailover s code most) := by
  unfold State.startFailover
  repeat' (first
    | with_reducible assumption | with_reducible exact Kept.refl _ | with_reducible apply State.fault_kept
    | with_reducible apply State.fltMod_kept | with_reducible apply State.seqMod_kept | with_reducible apply State.setWarden_kept
    | with_reducible apply State.startRestart_kept | with_reducible apply kept_ite | split
    | (lift_lets; intro x; first | (refine (fun (hx : Kept s0 x) => ?_) ?_; clear_value x) | clear_value x)
    | (intro x; refine (fun (hx : Kept s0 x) => ?_) ?_; clear_value x) | (intro x; clear_value x))

theorem State.forceFailover_kept {s : State} (h : Kept s0 s) (code : Nat) : Kept s0 (State.forceFailover s code) := by
  unfold State.forceFailover
  repeat' (first
    | with_reducible assumption | with_reducible exact Kept.refl _ | with_reducible apply State.startFailover_kept)

theorem execHeartbeatDeadline_kept (posted : Bool) (s : State) : ∃ out, execHeartbeatDeadline posted s = .next out ∧ Kept s out := by
  refine ⟨_, rfl, ?_⟩
  have h : Kept s s := Kept.refl s
  repeat' (first
    | with_reducible assumption | with_reducible exact Kept.refl _ | with_reducible apply State.at_kept
    | with_reducible apply State.fltMod_kept | with_reducible apply State.fset_kept | with_reducible apply State.startFailover_kept
    | with_reducible apply State.startRestart_kept | with_reducible apply kept_ite | split
    | (lift_lets; intro x; first | (refine (fun (hx : Kept s x) => ?_) ?_; clear_value x) | clear_value x)
    | (intro x; refine (fun (hx : Kept s x) => ?_) ?_; clear_value x) | (intro x; clear_value x) | dsimp only)

theorem State.fillMirror_kept {s : State} (h : Kept s0 s)  : Kept s0 (State.fillMirror s) := by
  unfold State.fillMirror
  repeat' (first
    | with_reducible assumption | with_reducible exact Kept.refl _ | with_reducible apply State.fltMod_kept
    | with_reducible apply kept_ite | with_reducible apply kept_ite1 | with_reducible apply kept_ite2 | split
    | with_reducible exact kept_snd ‹_ = _› (by assumption) | (with_reducible refine kept_snd ‹_ = (_, _)› ?_)
    | (with_reducible refine kept_fst ‹_ = (_, _)› ?_)
    | (lift_lets; intro x; first | (refine (fun (hx : Kept s0 x) => ?_) ?_; clear_value x) | clear_value x)
    | (intro x; refine (fun (hx : Kept s0 x) => ?_) ?_; clear_value x) | (intro x; clear_value x) | dsimp only)

theorem execWardenMemoryError_kept (t : Nat) (s : State) : ∃ out, execWardenMemoryError t s = .next out ∧ Kept s out := by
  refine ⟨_, rfl, ?_⟩
  have h : Kept s s := Kept.refl s
  repeat' (first
    | with_reducible assumption | with_reducible exact Kept.refl _ | with_reducible apply State.at_kept
    | with_reducible apply State.forceFailover_kept | with_reducible apply kept_ite | split
    | (lift_lets; intro x; first | (refine (fun (hx : Kept s x) => ?_) ?_; clear_value x) | clear_value x)
    | (intro x; refine (fun (hx : Kept s x) => ?_) ?_; clear_value x) | (intro x; clear_value x))

theorem execWardenSelftestDone_kept (w : Fin 2) (pass : Bool) (t : Nat) (s : State) : ∃ out, execWardenSelftestDone w pass t s = .next out ∧ Kept s out := by
  refine ⟨_, rfl, ?_⟩
  have h : Kept s s := Kept.refl s
  repeat' (first
    | with_reducible assumption | with_reducible exact Kept.refl _ | with_reducible apply State.at_kept
    | with_reducible apply State.fault_kept | with_reducible apply State.fltMod_kept | with_reducible apply State.setWarden_kept
    | with_reducible apply kept_ite | split
    | (lift_lets; intro x; first | (refine (fun (hx : Kept s x) => ?_) ?_; clear_value x) | clear_value x)
    | (intro x; refine (fun (hx : Kept s x) => ?_) ?_; clear_value x) | (intro x; clear_value x))

theorem execStandbySelftest_kept (pass : Bool) (t : Nat) (s : State) : ∃ out, execStandbySelftest pass t s = .next out ∧ Kept s out := by
  refine ⟨_, rfl, ?_⟩
  have h : Kept s s := Kept.refl s
  repeat' (first
    | with_reducible assumption | with_reducible exact Kept.refl _ | with_reducible apply State.at_kept
    | with_reducible apply State.fault_kept | with_reducible apply State.setWarden_kept
    | with_reducible apply State.testDone_kept | with_reducible apply kept_ite | with_reducible apply kept_ite1
    | with_reducible apply kept_ite2 | split | with_reducible exact kept_snd ‹_ = _› (by assumption)
    | (with_reducible refine kept_snd ‹_ = (_, _)› ?_) | (with_reducible refine kept_fst ‹_ = (_, _)› ?_)
    | (lift_lets; intro x; first | (refine (fun (hx : Kept s x) => ?_) ?_; clear_value x) | clear_value x)
    | (intro x; refine (fun (hx : Kept s x) => ?_) ?_; clear_value x) | (intro x; clear_value x) | dsimp only)

theorem State.unqw_kept {s : State} (h : Kept s0 s)  : Kept s0 (State.unqw s) := by
  unfold State.unqw
  repeat' (first
    | with_reducible assumption | with_reducible exact Kept.refl _ | with_reducible apply State.evt_kept
    | with_reducible apply State.fltMod_kept | with_reducible apply State.setWarden_kept | with_reducible apply kept_ite
    | with_reducible refine kept_foldl _ (fun x a hx => ?_) ?_ | split | with_reducible exact kept_snd ‹_ = _› (by assumption)
    | (with_reducible refine kept_snd ‹_ = (_, _)› ?_) | (with_reducible refine kept_fst ‹_ = (_, _)› ?_)
    | (lift_lets; intro x; first | (refine (fun (hx : Kept s0 x) => ?_) ?_; clear_value x) | clear_value x)
    | (intro x; refine (fun (hx : Kept s0 x) => ?_) ?_; clear_value x) | (intro x; clear_value x))

theorem State.avClear_kept {s : State} (h : Kept s0 s)  : Kept s0 (State.avClear s) := by
  unfold State.avClear
  repeat' (first
    | with_reducible assumption | with_reducible exact Kept.refl _ | with_reducible apply State.rset64_kept
    | with_reducible apply State.rsetN_kept)

theorem State.logClear_kept {s : State} (h : Kept s0 s) : Kept s0 (State.logClear s) :=
  State.fltMod_kept (State.rsetN_kept (kept_filter h _) _ _) _

theorem State.wrFltCtrl_kept {s : State} (h : Kept s0 s) (v : Word) : Kept s0 (State.wrFltCtrl s v) := by
  unfold State.wrFltCtrl
  repeat' (first
    | with_reducible assumption | with_reducible exact Kept.refl _ | with_reducible apply State.avClear_kept
    | with_reducible apply State.deviceReset_kept | with_reducible apply State.evt_kept | with_reducible apply State.logClear_kept
    | with_reducible apply State.request_kept | with_reducible apply State.unqw_kept | with_reducible apply kept_ite | split
    | (lift_lets; intro x; first | (refine (fun (hx : Kept s0 x) => ?_) ?_; clear_value x) | clear_value x)
    | (intro x; refine (fun (hx : Kept s0 x) => ?_) ?_; clear_value x) | (intro x; clear_value x))

theorem State.fltBoundary_kept {s : State} (h : Kept s0 s) (v : Word) : Kept s0 (State.fltBoundary s v) := by
  unfold State.fltBoundary
  repeat' (first
    | with_reducible assumption | with_reducible exact Kept.refl _ | with_reducible apply State.evt_kept
    | with_reducible apply State.forceFailover_kept | with_reducible apply State.startRestart_kept | with_reducible apply kept_ite
    | split)

theorem State.loseChain_kept {s : State} (h : Kept s0 s) (n m : Nat) : Kept s0 (State.loseChain s n m) := by
  unfold State.loseChain
  repeat' (first
    | with_reducible assumption | with_reducible exact Kept.refl _ | with_reducible apply State.bumpBy_kept
    | with_reducible apply State.ctxMod_kept | with_reducible apply State.pushItem_kept
    | with_reducible apply State.raiseCue_kept | with_reducible apply State.showQ0_kept
    | with_reducible apply State.trouble_kept | with_reducible apply kept_ite | with_reducible apply kept_ite1
    | with_reducible apply kept_ite2 | split | with_reducible exact kept_snd ‹_ = _› (by assumption)
    | (with_reducible refine kept_snd ‹_ = (_, _)› ?_) | (with_reducible refine kept_fst ‹_ = (_, _)› ?_)
    | (lift_lets; intro x; first | (refine (fun (hx : Kept s0 x) => ?_) ?_; clear_value x) | clear_value x)
    | (intro x; refine (fun (hx : Kept s0 x) => ?_) ?_; clear_value x) | (intro x; clear_value x) | dsimp only)

theorem State.loseOut_kept {s : State} (h : Kept s0 s) (n q m : Nat) : Kept s0 (State.loseOut s n q m) := by
  unfold State.loseOut
  repeat' (first
    | with_reducible assumption | with_reducible exact Kept.refl _ | with_reducible apply State.fstMod_kept
    | with_reducible apply State.lostNext_kept | with_reducible apply State.portMod_kept
    | with_reducible apply State.tenMod_kept | with_reducible apply kept_ite | with_reducible apply kept_ite1
    | with_reducible apply kept_ite2 | with_reducible refine kept_foldl _ (fun x a hx => ?_) ?_ | split
    | with_reducible exact kept_snd ‹_ = _› (by assumption) | (with_reducible refine kept_snd ‹_ = (_, _)› ?_)
    | (with_reducible refine kept_fst ‹_ = (_, _)› ?_)
    | (lift_lets; intro x; first | (refine (fun (hx : Kept s0 x) => ?_) ?_; clear_value x) | clear_value x)
    | (intro x; refine (fun (hx : Kept s0 x) => ?_) ?_; clear_value x) | (intro x; clear_value x) | dsimp only)

theorem State.loseStaged_kept {s : State} (h : Kept s0 s) (i : Nat) : Kept s0 (State.loseStaged s i) := by
  unfold State.loseStaged
  repeat' (first
    | with_reducible assumption | with_reducible exact Kept.refl _ | with_reducible apply State.accept_kept
    | with_reducible apply State.bump_kept | with_reducible apply State.complete_kept | with_reducible apply State.evt_kept
    | with_reducible apply State.free1_kept | with_reducible apply State.keyDone_kept
    | with_reducible apply State.showWit_kept | with_reducible apply State.witMod_kept | with_reducible apply kept_ite
    | with_reducible apply kept_ite1 | with_reducible apply kept_ite2
    | with_reducible refine kept_foldl _ (fun x a hx => ?_) ?_ | split
    | with_reducible exact kept_snd ‹_ = _› (by assumption) | (with_reducible refine kept_snd ‹_ = (_, _)› ?_)
    | (with_reducible refine kept_fst ‹_ = (_, _)› ?_)
    | (lift_lets; intro x; first | (refine (fun (hx : Kept s0 x) => ?_) ?_; clear_value x) | clear_value x)
    | (intro x; refine (fun (hx : Kept s0 x) => ?_) ?_; clear_value x) | (intro x; clear_value x) | dsimp only)

theorem execStoreEccError_kept (o : EccObj) (t : Nat) (s : State) : ∃ out, execStoreEccError o t s = .next out ∧ Kept s out := by
  refine ⟨_, rfl, ?_⟩
  have h : Kept s s := Kept.refl s
  repeat' (first
    | with_reducible assumption | with_reducible exact Kept.refl _ | with_reducible apply State.at_kept
    | with_reducible apply State.chnMod_kept | with_reducible apply State.ctxMod_kept | with_reducible apply State.fault_kept
    | with_reducible apply State.forceFailover_kept | with_reducible apply State.haul_kept
    | with_reducible apply State.loseChain_kept | with_reducible apply State.loseOut_kept
    | with_reducible apply State.loseStaged_kept | with_reducible apply State.sendMark_kept
    | with_reducible apply State.snpMod_kept | with_reducible apply State.trip_kept | with_reducible apply kept_ite
    | with_reducible apply kept_ite1 | with_reducible apply kept_ite2
    | with_reducible refine kept_foldl _ (fun x a hx => ?_) ?_ | split
    | with_reducible exact kept_snd ‹_ = _› (by assumption) | (with_reducible refine kept_snd ‹_ = (_, _)› ?_)
    | (with_reducible refine kept_fst ‹_ = (_, _)› ?_)
    | (lift_lets; intro x; first | (refine (fun (hx : Kept s x) => ?_) ?_; clear_value x) | clear_value x)
    | (intro x; refine (fun (hx : Kept s x) => ?_) ?_; clear_value x) | (intro x; clear_value x) | dsimp only | exact id
    | exact ⟨rfl, Nat.le_refl _, rfl⟩ | with_reducible exact rfl | with_reducible exact Nat.le_refl _
    | with_reducible exact modifyAt_length _ _ _ | with_reducible exact List.length_map _
    | ((with_reducible refine (id ?_ : (_ : Nat) = _)); exact rfl) | with_reducible refine Kept.upd ?_ ?_ ?_ ?_ ?_ ?_ ?_ ?_)

theorem State.eccTrips_kept {s : State} (h : Kept s0 s)  : Kept s0 (State.eccTrips s) := by
  unfold State.eccTrips
  repeat' (first
    | with_reducible assumption | with_reducible exact Kept.refl _ | with_reducible apply State.ctxMod_kept
    | with_reducible apply State.stopRuns_kept | with_reducible apply State.tripCtx_kept | with_reducible apply kept_ite
    | with_reducible refine kept_foldl _ (fun x a hx => ?_) ?_ | split | with_reducible exact kept_snd ‹_ = _› (by assumption)
    | (with_reducible refine kept_snd ‹_ = (_, _)› ?_) | (with_reducible refine kept_fst ‹_ = (_, _)› ?_))

theorem State.countTick_kept {s : State} (h : Kept s0 s) (out : Bool) : Kept s0 (State.countTick s out) := by
  unfold State.countTick
  repeat' (first
    | with_reducible assumption | with_reducible exact Kept.refl _ | with_reducible apply State.bump_kept
    | with_reducible apply State.fltMod_kept | with_reducible apply State.rset64_kept | with_reducible apply kept_ite | split
    | (lift_lets; intro x; first | (refine (fun (hx : Kept s0 x) => ?_) ?_; clear_value x) | clear_value x)
    | (intro x; refine (fun (hx : Kept s0 x) => ?_) ?_; clear_value x) | (intro x; clear_value x))

end Sys2Proof.Laws
end

