-- ==== Sys2Proof/Laws/KeptBoot.lean ====
section
/-!
SUPPORT. What the operations of Machine/Boot.lean keep.
-/

set_option linter.all false

namespace Sys2Proof.Laws

open Sys2Proof.Machine


variable {s0 : State}

theorem State.bootMod_kept {s : State} (h : Kept s0 s) (f : BootS → BootS) (hf : ∀ b, upB (f b) = true → upB b = true) :
    Kept s0 (State.bootMod s f) := h.upd rfl rfl rfl rfl (hf _) (Nat.le_refl _) rfl

theorem State.durables_kept {s : State} (h : Kept s0 s)  : Kept s0 (State.durables s) := by
  unfold State.durables
  repeat' (first
    | with_reducible assumption | with_reducible exact Kept.refl _ | with_reducible apply State.calSettle_kept
    | with_reducible apply State.witSettle_kept | with_reducible apply kept_ite | with_reducible apply kept_ite1
    | with_reducible apply kept_ite2 | split | with_reducible exact kept_snd ‹_ = _› (by assumption)
    | (with_reducible refine kept_snd ‹_ = (_, _)› ?_) | (with_reducible refine kept_fst ‹_ = (_, _)› ?_)
    | (lift_lets; intro x; first | (refine (fun (hx : Kept s0 x) => ?_) ?_; clear_value x) | clear_value x)
    | (intro x; refine (fun (hx : Kept s0 x) => ?_) ?_; clear_value x) | (intro x; clear_value x) | dsimp only)

theorem execIngotDurable_kept (seq : Nat) (t : Nat) (s : State) : ∃ out, execIngotDurable seq t s = .next out ∧ Kept s out := by
  refine ⟨_, rfl, ?_⟩
  have h : Kept s s := Kept.refl s
  repeat' (first
    | with_reducible assumption | with_reducible exact Kept.refl _ | with_reducible apply State.at_kept
    | with_reducible apply State.durables_kept | with_reducible apply State.ingotDurable_kept | with_reducible apply kept_ite
    | with_reducible apply kept_ite1 | with_reducible apply kept_ite2 | split
    | with_reducible exact kept_snd ‹_ = _› (by assumption) | (with_reducible refine kept_snd ‹_ = (_, _)› ?_)
    | (with_reducible refine kept_fst ‹_ = (_, _)› ?_)
    | (lift_lets; intro x; first | (refine (fun (hx : Kept s x) => ?_) ?_; clear_value x) | clear_value x)
    | (intro x; refine (fun (hx : Kept s x) => ?_) ?_; clear_value x) | (intro x; clear_value x) | dsimp only)

theorem execPadTimeout_kept (seq : Nat) (s : State) : ∃ out, execPadTimeout seq s = .next out ∧ Kept s out := by
  refine ⟨_, rfl, ?_⟩
  have h : Kept s s := Kept.refl s
  repeat' (first
    | with_reducible assumption | with_reducible exact Kept.refl _ | with_reducible apply State.durables_kept
    | with_reducible apply State.padIngot_kept | with_reducible apply kept_ite | with_reducible apply kept_ite1
    | with_reducible apply kept_ite2 | split | with_reducible exact kept_snd ‹_ = _› (by assumption)
    | (with_reducible refine kept_snd ‹_ = (_, _)› ?_) | (with_reducible refine kept_fst ‹_ = (_, _)› ?_)
    | (lift_lets; intro x; first | (refine (fun (hx : Kept s x) => ?_) ?_; clear_value x) | clear_value x)
    | (intro x; refine (fun (hx : Kept s x) => ?_) ?_; clear_value x) | (intro x; clear_value x) | dsimp only)

theorem State.bootStart_kept {s : State} (h : Kept s0 s) (hd : upB s0.boot = false) (i : BootIn) : Kept s0 (State.bootStart s i) := by
  have k : ∀ t, Kept s0 t → ∀ bkp boot, Kept s0 { t with bkp := bkp, boot := boot } := fun t ht bkp boot =>
    ⟨ht.pending, ht.regs, fun z => let w := ht.shape z
      { runs := w.runs, run := w.run, buses := w.buses, tenants := w.tenants, ports := w.ports, latches := w.latches }, fun h0 => by rw [hd] at h0; cases h0⟩
  unfold State.bootStart
  dsimp only
  repeat' (first
    | with_reducible assumption | with_reducible apply State.fset_kept | with_reducible apply State.fsetB_kept | with_reducible apply State.icsStart_kept
    | with_reducible apply State.setWarden_kept | with_reducible apply State.startSearch_kept | with_reducible apply State.discover_kept | with_reducible apply kept_ite
    | with_reducible exact k _ (State.islands_kept h hd) _ _)

theorem State.bootIfUp_kept {s : State} (h : Kept s0 s) (hd : upB s0.boot = false) (i : BootIn) : Kept s0 (State.bootIfUp s i) :=
  kept_ite (State.bootStart_kept h hd i) h

/-- A change of the boot state while the device is held in reset. -/

theorem bootMod_down_kept {s : State} (h : Kept s0 s) (hd : upB s0.boot = false) (f : BootS → BootS) : Kept s0 (State.bootMod s f) :=
  ⟨h.pending, h.regs, fun k =>
    let w := h.shape k
    { runs := w.runs, run := w.run, buses := w.buses, tenants := w.tenants, ports := w.ports, latches := w.latches }, fun h0 => by rw [hd] at h0; cases h0⟩

theorem State.resetBy_kept {s : State} (h : Kept s0 s) (t : Nat) (f : BootS → BootS) (hf : ∀ b, upB (f b) = false) : Kept s0 (State.resetBy s t f) :=
  islands_down_kept (State.at_kept h _) (hf _)

theorem State.clearCause_kept {s : State} (h : Kept s0 s)  : Kept s0 (State.clearCause s) := by
  unfold State.clearCause
  repeat' (first
    | with_reducible assumption | with_reducible exact Kept.refl _ | with_reducible apply State.rsetN_kept)

theorem execResetNAssert_kept (t : Nat) (s : State) : ∃ out, execResetNAssert t s = .next out ∧ Kept s out := by
  refine ⟨_, rfl, ?_⟩
  have h : Kept s s := Kept.refl s
  exact State.resetBy_kept h _ _ (fun b => by simp [upB])

theorem execResetRelease_kept (i : BootIn) (s : State) : ∃ out, execResetRelease i s = .next out ∧ Kept s out := by
  refine ⟨_, rfl, ?_⟩
  have h : Kept s s := Kept.refl s
  split
  · rename_i hr
    have hd : upB s.boot = false := by simp [upB, hr]
    exact State.bootIfUp_kept (State.clearCause_kept (bootMod_down_kept h hd _)) hd i
  · split
    · rename_i hr
      have hd : upB s.boot = false := by simp [upB, hr]
      exact kept_ite (State.bootStart_kept h hd i) (bootMod_down_kept h hd _)
    · exact h

theorem execSupplyMonitorTrip_kept (t : Nat) (s : State) : ∃ out, execSupplyMonitorTrip t s = .next out ∧ Kept s out := by
  refine ⟨_, rfl, ?_⟩
  have h : Kept s s := Kept.refl s
  exact State.resetBy_kept h _ _ (fun b => by simp [upB])

theorem execPowerOnResetEnd_kept (i : BootIn) (s : State) : ∃ out, execPowerOnResetEnd i s = .next out ∧ Kept s out := by
  refine ⟨_, rfl, ?_⟩
  have h : Kept s s := Kept.refl s
  split
  · rename_i hr
    have hd : upB s.boot = false := by simp [upB, hr]
    exact State.bootIfUp_kept (bootMod_down_kept h hd _) hd i
  · exact h

theorem execTmode_kept (level : Bool) (i : BootIn) (t : Nat) (s : State) : ∃ out, execTmode level i t s = .next out ∧ Kept s out := by
  refine ⟨_, rfl, ?_⟩
  have h : Kept s s := Kept.refl s
  split
  · exact State.resetBy_kept h _ _ (fun b => by simp [upB])
  · split
    · rename_i hr
      have hd : upB s.boot = false := by simp [upB, hr]
      exact State.bootIfUp_kept (State.clearCause_kept (bootMod_down_kept h hd _)) hd i
    · exact h

theorem State.bootErr_kept {s : State} (h : Kept s0 s) (e : Nat) : Kept s0 (State.bootErr s e) := by
  unfold State.bootErr
  repeat' (first
    | with_reducible assumption | with_reducible exact Kept.refl _ | with_reducible apply State.fset_kept)

theorem State.wrBootLoad_kept {s : State} (h : Kept s0 s) (p : Nat) (v : Word) : Kept s0 (State.wrBootLoad s p v) := by
  unfold State.wrBootLoad
  repeat' (first
    | exact id | with_reducible assumption | with_reducible exact Kept.refl _ | with_reducible apply State.bootErr_kept
    | with_reducible refine State.bootMod_kept ?_ _ (fun z => ?_) | with_reducible apply State.fset_kept | with_reducible apply kept_ite
    | split | (lift_lets; intro x; first | (refine (fun (hx : Kept s0 x) => ?_) ?_; clear_value x) | skip)
    | (intro x; refine (fun (hx : Kept s0 x) => ?_) ?_; clear_value x) | (intro x; skip) | with_reducible exact rfl
    | with_reducible exact Nat.le_refl _ | with_reducible exact modifyAt_length _ _ _ | with_reducible exact List.length_map _
    | ((with_reducible refine (id ?_ : (_ : Nat) = _)); exact rfl) | with_reducible refine And.intro ?_ ?_)

theorem State.wrBootCtrl_kept {s : State} (h : Kept s0 s) (p : Nat) (v : Word) : Kept s0 (State.wrBootCtrl s p v) := by
  unfold State.wrBootCtrl
  repeat' (first
    | exact id | with_reducible assumption | with_reducible exact Kept.refl _ | with_reducible apply State.bootErr_kept
    | with_reducible refine State.bootMod_kept ?_ _ (fun z => ?_) | with_reducible apply State.fset_kept | with_reducible apply kept_ite
    | split | with_reducible exact rfl | with_reducible exact Nat.le_refl _ | with_reducible exact modifyAt_length _ _ _
    | with_reducible exact List.length_map _ | ((with_reducible refine (id ?_ : (_ : Nat) = _)); exact rfl)
    | with_reducible refine And.intro ?_ ?_)

theorem State.startFirmware_kept {s : State} (h : Kept s0 s) (b : List Byte) (src first : Nat) : Kept s0 (State.startFirmware s b src first) := by
  unfold State.startFirmware
  repeat' (first
    | exact id | with_reducible assumption | with_reducible exact Kept.refl _
    | with_reducible refine State.bootMod_kept ?_ _ (fun z => ?_) | with_reducible apply State.fset_kept
    | with_reducible apply State.rsetN_kept | with_reducible apply State.startSearch_kept | with_reducible apply kept_ite | split
    | (lift_lets; intro x; first | (refine (fun (hx : Kept s0 x) => ?_) ?_; clear_value x) | skip)
    | (intro x; refine (fun (hx : Kept s0 x) => ?_) ?_; clear_value x) | (intro x; skip) | with_reducible exact rfl
    | with_reducible exact Nat.le_refl _ | with_reducible exact modifyAt_length _ _ _ | with_reducible exact List.length_map _
    | ((with_reducible refine (id ?_ : (_ : Nat) = _)); exact rfl) | with_reducible refine And.intro ?_ ?_)

theorem execFirmwareVerified_kept (t : Nat) (s : State) : ∃ out, execFirmwareVerified t s = .next out ∧ Kept s out := by
  refine ⟨_, rfl, ?_⟩
  have h : Kept s s := Kept.refl s
  repeat' (first
    | exact id | with_reducible assumption | with_reducible exact Kept.refl _ | with_reducible apply State.askIngot_kept
    | with_reducible apply State.at_kept | with_reducible apply State.bootErr_kept
    | with_reducible refine State.bootMod_kept ?_ _ (fun z => ?_) | with_reducible apply State.fset_kept
    | with_reducible apply State.startFirmware_kept | with_reducible apply kept_ite | with_reducible apply kept_ite1
    | with_reducible apply kept_ite2 | split | with_reducible exact kept_snd ‹_ = _› (by assumption)
    | (with_reducible refine kept_snd ‹_ = (_, _)› ?_) | (with_reducible refine kept_fst ‹_ = (_, _)› ?_)
    | (lift_lets; intro x; first | (refine (fun (hx : Kept s x) => ?_) ?_; clear_value x) | clear_value x)
    | (intro x; refine (fun (hx : Kept s x) => ?_) ?_; clear_value x) | (intro x; clear_value x) | dsimp only)

theorem execTsFirmwareRead_kept (t : Nat) (s : State) : ∃ out, execTsFirmwareRead t s = .next out ∧ Kept s out := by
  refine ⟨_, rfl, ?_⟩
  have h : Kept s s := Kept.refl s
  repeat' (first
    | with_reducible assumption | with_reducible exact Kept.refl _ | with_reducible apply State.at_kept
    | with_reducible apply State.fltMod_kept | with_reducible apply State.restartTo_kept
    | with_reducible apply State.rsetN_kept | with_reducible apply kept_ite | with_reducible apply kept_ite1
    | with_reducible apply kept_ite2 | split | with_reducible exact kept_snd ‹_ = _› (by assumption)
    | (with_reducible refine kept_snd ‹_ = (_, _)› ?_) | (with_reducible refine kept_fst ‹_ = (_, _)› ?_)
    | (lift_lets; intro x; first | (refine (fun (hx : Kept s x) => ?_) ?_; clear_value x) | clear_value x)
    | (intro x; refine (fun (hx : Kept s x) => ?_) ?_; clear_value x) | (intro x; clear_value x) | dsimp only)

theorem State.bootRecord_kept {s : State} (h : Kept s0 s)  : Kept s0 (State.bootRecord s) := by
  unfold State.bootRecord
  repeat' (first
    | exact id | with_reducible assumption | with_reducible exact Kept.refl _ | with_reducible apply State.bkpFlush_kept
    | with_reducible refine State.bootMod_kept ?_ _ (fun z => ?_) | with_reducible apply State.witEventAt_kept
    | with_reducible apply kept_ite | with_reducible apply kept_ite1 | with_reducible apply kept_ite2 | split
    | with_reducible exact kept_snd ‹_ = _› (by assumption) | (with_reducible refine kept_snd ‹_ = (_, _)› ?_)
    | (with_reducible refine kept_fst ‹_ = (_, _)› ?_)
    | (lift_lets; intro x; first | (refine (fun (hx : Kept s0 x) => ?_) ?_; clear_value x) | clear_value x)
    | (intro x; refine (fun (hx : Kept s0 x) => ?_) ?_; clear_value x) | (intro x; clear_value x) | dsimp only | exact id
    | exact ⟨rfl, Nat.le_refl _, rfl⟩ | with_reducible exact rfl | with_reducible exact Nat.le_refl _
    | with_reducible exact modifyAt_length _ _ _ | with_reducible exact List.length_map _
    | ((with_reducible refine (id ?_ : (_ : Nat) = _)); exact rfl) | with_reducible refine Kept.upd ?_ ?_ ?_ ?_ ?_ ?_ ?_ ?_)

theorem State.bindPorts_kept {s : State} (h : Kept s0 s)  : Kept s0 (State.bindPorts s) := by
  unfold State.bindPorts
  repeat' (first
    | with_reducible assumption | with_reducible exact Kept.refl _ | with_reducible apply State.showShares_kept | exact id
    | with_reducible exact rfl | with_reducible exact Nat.le_refl _ | with_reducible exact modifyAt_length _ _ _
    | with_reducible exact List.length_map _ | ((with_reducible refine (id ?_ : (_ : Nat) = _)); exact rfl)
    | with_reducible refine Kept.upd ?_ ?_ ?_ ?_ ?_ ?_ ?_ ?_)

theorem execMountComplete_kept (bad : List Nat) (fwd : List (Nat × List (Option (List Byte)))) (again : List (Nat × List CwObs)) (t : Nat) (s : State) : ∃ out, execMountComplete bad fwd again t s = .next out ∧ Kept s out := by
  refine ⟨_, rfl, ?_⟩
  have h : Kept s s := Kept.refl s
  repeat' (first
    | with_reducible assumption | with_reducible exact Kept.refl _ | with_reducible apply State.at_kept
    | with_reducible apply State.bindPorts_kept | with_reducible apply State.bootRecord_kept
    | with_reducible apply State.fsetB_kept | with_reducible apply State.mount_kept
    | with_reducible apply State.showKeys_kept | with_reducible apply State.witMount_kept | with_reducible apply kept_ite
    | with_reducible apply kept_ite1 | with_reducible apply kept_ite2 | split
    | with_reducible exact kept_snd ‹_ = _› (by assumption) | (with_reducible refine kept_snd ‹_ = (_, _)› ?_)
    | (with_reducible refine kept_fst ‹_ = (_, _)› ?_)
    | (lift_lets; intro x; first | (refine (fun (hx : Kept s x) => ?_) ?_; clear_value x) | clear_value x)
    | (intro x; refine (fun (hx : Kept s x) => ?_) ?_; clear_value x) | (intro x; clear_value x) | dsimp only)

theorem State.formatNow_kept {s : State} (h : Kept s0 s) (zs : List Nat) : Kept s0 (State.formatNow s zs) := by
  unfold State.formatNow
  repeat' (first
    | with_reducible assumption | with_reducible exact Kept.refl _ | with_reducible apply State.bindPorts_kept
    | with_reducible apply State.bootRecord_kept | with_reducible apply State.calMod_kept
    | with_reducible apply State.format_kept | with_reducible apply State.fsetB_kept
    | with_reducible apply State.genesis_kept | with_reducible apply State.showWit_kept | with_reducible apply kept_ite
    | with_reducible apply kept_ite1 | with_reducible apply kept_ite2 | split
    | with_reducible exact kept_snd ‹_ = _› (by assumption) | (with_reducible refine kept_snd ‹_ = (_, _)› ?_)
    | (with_reducible refine kept_fst ‹_ = (_, _)› ?_)
    | (lift_lets; intro x; first | (refine (fun (hx : Kept s0 x) => ?_) ?_; clear_value x) | clear_value x)
    | (intro x; refine (fun (hx : Kept s0 x) => ?_) ?_; clear_value x) | (intro x; clear_value x) | dsimp only)

theorem State.formatAll_kept {s : State} (h : Kept s0 s)  : Kept s0 (State.formatAll s) := by
  unfold State.formatAll
  repeat' (first
    | with_reducible assumption | with_reducible exact Kept.refl _ | with_reducible apply State.formatNow_kept
    | with_reducible apply State.fstMod_kept | with_reducible apply kept_ite | with_reducible apply kept_ite1
    | with_reducible apply kept_ite2 | split | with_reducible exact kept_snd ‹_ = _› (by assumption)
    | (with_reducible refine kept_snd ‹_ = (_, _)› ?_) | (with_reducible refine kept_fst ‹_ = (_, _)› ?_)
    | (lift_lets; intro x; first | (refine (fun (hx : Kept s0 x) => ?_) ?_; clear_value x) | clear_value x)
    | (intro x; refine (fun (hx : Kept s0 x) => ?_) ?_; clear_value x) | (intro x; clear_value x) | dsimp only)

theorem State.formatWaiting_kept {s : State} (h : Kept s0 s)  : Kept s0 (State.formatWaiting s) := by
  unfold State.formatWaiting
  repeat' (first
    | with_reducible assumption | with_reducible exact Kept.refl _ | with_reducible apply State.formatNow_kept
    | with_reducible apply State.fstMod_kept | with_reducible apply kept_ite | with_reducible apply kept_ite1
    | with_reducible apply kept_ite2 | split | with_reducible exact kept_snd ‹_ = _› (by assumption)
    | (with_reducible refine kept_snd ‹_ = (_, _)› ?_) | (with_reducible refine kept_fst ‹_ = (_, _)› ?_)
    | (lift_lets; intro x; first | (refine (fun (hx : Kept s0 x) => ?_) ?_; clear_value x) | clear_value x)
    | (intro x; refine (fun (hx : Kept s0 x) => ?_) ?_; clear_value x) | (intro x; clear_value x) | dsimp only)

theorem execIcsLock_kept (t : Nat) (s : State) : ∃ out, execIcsLock t s = .next out ∧ Kept s out := by
  refine ⟨_, rfl, ?_⟩
  have h : Kept s s := Kept.refl s
  repeat' (first
    | with_reducible assumption | with_reducible exact Kept.refl _ | with_reducible apply State.at_kept
    | with_reducible apply State.formatWaiting_kept | with_reducible apply State.icsLocked_kept
    | with_reducible apply kept_ite | with_reducible apply kept_ite1 | with_reducible apply kept_ite2 | split
    | with_reducible exact kept_snd ‹_ = _› (by assumption) | (with_reducible refine kept_snd ‹_ = (_, _)› ?_)
    | (with_reducible refine kept_fst ‹_ = (_, _)› ?_)
    | (lift_lets; intro x; first | (refine (fun (hx : Kept s x) => ?_) ?_; clear_value x) | clear_value x)
    | (intro x; refine (fun (hx : Kept s x) => ?_) ?_; clear_value x) | (intro x; clear_value x) | dsimp only | exact id
    | exact ⟨rfl, Nat.le_refl _, rfl⟩ | with_reducible exact rfl | with_reducible exact Nat.le_refl _
    | with_reducible exact modifyAt_length _ _ _ | with_reducible exact List.length_map _
    | ((with_reducible refine (id ?_ : (_ : Nat) = _)); exact rfl) | with_reducible refine Kept.upd ?_ ?_ ?_ ?_ ?_ ?_ ?_ ?_)

theorem execIcsTimedLock_kept  (s : State) : ∃ out, execIcsTimedLock s = .next out ∧ Kept s out := by
  refine ⟨_, rfl, ?_⟩
  have h : Kept s s := Kept.refl s
  repeat' (first
    | with_reducible assumption | with_reducible exact Kept.refl _ | with_reducible apply State.at_kept
    | with_reducible apply State.formatWaiting_kept | with_reducible apply State.fsetB_kept
    | with_reducible apply State.icsLocked_kept | with_reducible apply kept_ite | with_reducible apply kept_ite1
    | with_reducible apply kept_ite2 | split | with_reducible exact kept_snd ‹_ = _› (by assumption)
    | (with_reducible refine kept_snd ‹_ = (_, _)› ?_) | (with_reducible refine kept_fst ‹_ = (_, _)› ?_)
    | (lift_lets; intro x; first | (refine (fun (hx : Kept s x) => ?_) ?_; clear_value x) | clear_value x)
    | (intro x; refine (fun (hx : Kept s x) => ?_) ?_; clear_value x) | (intro x; clear_value x) | dsimp only)

theorem State.wrFstCtrl_kept {s : State} (h : Kept s0 s) (v : Word) : Kept s0 (State.wrFstCtrl s v) := by
  unfold State.wrFstCtrl
  repeat' (first
    | with_reducible assumption | with_reducible exact Kept.refl _ | with_reducible apply State.formatAll_kept
    | with_reducible apply State.scrubAll_kept | with_reducible apply State.wr_kept | with_reducible apply kept_ite | split
    | with_reducible exact kept_snd ‹_ = _› (by assumption) | (with_reducible refine kept_snd ‹_ = (_, _)› ?_)
    | (with_reducible refine kept_fst ‹_ = (_, _)› ?_)
    | (lift_lets; intro x; first | (refine (fun (hx : Kept s0 x) => ?_) ?_; clear_value x) | clear_value x)
    | (intro x; refine (fun (hx : Kept s0 x) => ?_) ?_; clear_value x) | (intro x; clear_value x))

theorem State.wrHiber_kept {s : State} (h : Kept s0 s)  : Kept s0 (State.wrHiber s) := by
  unfold State.wrHiber
  repeat' (first
    | with_reducible assumption | with_reducible exact Kept.refl _ | with_reducible apply State.request_kept)

theorem State.closeEvts_kept {s : State} (h : Kept s0 s)  : Kept s0 (State.closeEvts s) := by
  unfold State.closeEvts
  repeat' (first
    | with_reducible assumption | with_reducible exact Kept.refl _ | with_reducible apply State.stageEvt_kept
    | with_reducible apply State.witMod_kept | with_reducible apply kept_ite | with_reducible apply kept_ite1
    | with_reducible apply kept_ite2 | with_reducible refine kept_foldl _ (fun x a hx => ?_) ?_ | split
    | with_reducible exact kept_snd ‹_ = _› (by assumption) | (with_reducible refine kept_snd ‹_ = (_, _)› ?_)
    | (with_reducible refine kept_fst ‹_ = (_, _)› ?_)
    | (lift_lets; intro x; first | (refine (fun (hx : Kept s0 x) => ?_) ?_; clear_value x) | clear_value x)
    | (intro x; refine (fun (hx : Kept s0 x) => ?_) ?_; clear_value x) | (intro x; clear_value x) | dsimp only)

theorem State.hiberStart_kept {s : State} (h : Kept s0 s)  : Kept s0 (State.hiberStart s) := by
  unfold State.hiberStart
  repeat' (first
    | exact id | with_reducible assumption | with_reducible exact Kept.refl _
    | with_reducible refine State.bootMod_kept ?_ _ (fun z => ?_) | with_reducible apply State.calEntrySave_kept
    | with_reducible apply State.cancelOpen_kept | with_reducible apply State.closeBuf_kept
    | with_reducible apply State.closeEffect_kept | with_reducible apply State.closeEvts_kept
    | with_reducible apply State.telJournal_kept | with_reducible apply State.witEvt_kept | with_reducible apply kept_ite
    | with_reducible apply kept_ite1 | with_reducible apply kept_ite2 | with_reducible refine kept_foldl _ (fun x a hx => ?_) ?_
    | split | with_reducible exact kept_snd ‹_ = _› (by assumption) | (with_reducible refine kept_snd ‹_ = (_, _)› ?_)
    | (with_reducible refine kept_fst ‹_ = (_, _)› ?_)
    | (lift_lets; intro x; first | (refine (fun (hx : Kept s0 x) => ?_) ?_; clear_value x) | skip)
    | (intro x; refine (fun (hx : Kept s0 x) => ?_) ?_; clear_value x) | (intro x; skip) | dsimp only
    | exact ⟨modifyAt_length _ _ _, Nat.le_refl _, rfl⟩ | exact ⟨rfl, Nat.le_refl _, rfl⟩ | exact ⟨rfl, Nat.le_max_left _ _, rfl⟩
    | exact ⟨rfl, Nat.le_add_right _ _, rfl⟩ | exact ⟨modifyAt_length _ _ _, modifyAt_length _ _ _⟩
    | exact ⟨rfl, modifyAt_length _ _ _⟩ | exact ⟨modifyAt_length _ _ _, rfl⟩ | exact ⟨rfl, rfl⟩ | with_reducible exact rfl
    | with_reducible exact Nat.le_refl _ | with_reducible exact modifyAt_length _ _ _ | with_reducible exact List.length_map _
    | ((with_reducible refine (id ?_ : (_ : Nat) = _)); exact rfl) | with_reducible refine And.intro ?_ ?_)

theorem State.hiberHold_kept {s : State} (h : Kept s0 s) : Kept s0 (State.hiberHold s) :=
  islands_down_kept (State.pwrLow_kept (State.bkpMod_kept h _)) (by simp [upB])

theorem State.hiberDone_kept {s : State} (h : Kept s0 s)  : Kept s0 (State.hiberDone s) := by
  unfold State.hiberDone
  repeat' (first
    | exact id | with_reducible assumption | with_reducible exact Kept.refl _
    | with_reducible refine State.bootMod_kept ?_ _ (fun z => ?_) | with_reducible apply State.clockStamp_kept
    | with_reducible apply State.durables_kept | with_reducible apply State.hiberHold_kept
    | with_reducible apply State.padNow_kept | with_reducible apply State.writeMap_kept | with_reducible apply kept_ite
    | with_reducible apply kept_ite1 | with_reducible apply kept_ite2
    | with_reducible refine kept_foldl _ (fun x a hx => ?_) ?_ | split
    | with_reducible exact kept_snd ‹_ = _› (by assumption) | (with_reducible refine kept_snd ‹_ = (_, _)› ?_)
    | (with_reducible refine kept_fst ‹_ = (_, _)› ?_)
    | (lift_lets; intro x; first | (refine (fun (hx : Kept s0 x) => ?_) ?_; clear_value x) | clear_value x)
    | (intro x; refine (fun (hx : Kept s0 x) => ?_) ?_; clear_value x) | (intro x; clear_value x) | dsimp only)

theorem execHiberTimeout_kept  (s : State) : ∃ out, execHiberTimeout s = .next out ∧ Kept s out := by
  refine ⟨_, rfl, ?_⟩
  have h : Kept s s := Kept.refl s
  repeat' (first
    | with_reducible assumption | with_reducible exact Kept.refl _ | with_reducible apply State.at_kept
    | with_reducible apply State.hiberHold_kept | split)

theorem execHiberWake_kept (i : BootIn) (s : State) : ∃ out, execHiberWake i s = .next out ∧ Kept s out := by
  refine ⟨_, rfl, ?_⟩
  have h : Kept s s := Kept.refl s
  split
  · rename_i hr
    have hd : upB s.boot = false := by simp only [Bool.and_eq_true] at hr; simp [upB, hr.1.1]
    exact State.bootStart_kept h hd i
  · exact h

end Sys2Proof.Laws
end

