-- ==== Sys2Proof/Laws/KeptHst.lean ====
section
/-!
SUPPORT. What the operations of Machine/Hst.lean keep.
-/

set_option linter.all false

namespace Sys2Proof.Laws

open Sys2Proof.Machine


variable {s0 : State}

theorem State.hostMod_kept {s : State} (h : Kept s0 s) (f : HostS → HostS)
    (hf : ∀ x, (f x).tenants.length = x.tenants.length ∧ (f x).ports.length = x.ports.length) :
    Kept s0 (State.hostMod s f) := h.upd rfl (hf _).1 (hf _).2 rfl id (Nat.le_refl _) rfl

theorem State.portHost_kept {s : State} (h : Kept s0 s) (p : Nat) (f : PortS → PortS) : Kept s0 (State.portHost s p f) := by
  unfold State.portHost
  repeat' (first
    | with_reducible assumption | with_reducible exact Kept.refl _ | with_reducible refine State.hostMod_kept ?_ _ (fun z => ?_)
    | with_reducible exact rfl | with_reducible exact Nat.le_refl _ | with_reducible exact modifyAt_length _ _ _
    | with_reducible exact List.length_map _ | ((with_reducible refine (id ?_ : (_ : Nat) = _)); exact rfl)
    | with_reducible refine And.intro ?_ ?_)

theorem State.accept_kept {s : State} (h : Kept s0 s) (t : Nat) : Kept s0 (State.accept s t) := by
  unfold State.accept
  repeat' (first
    | with_reducible assumption | with_reducible exact Kept.refl _ | with_reducible apply State.rsetN_kept
    | with_reducible apply State.tenMod_kept)

theorem State.hostCmd_kept {s : State} (h : Kept s0 s) (t u : Nat) (f : State → State) (hf : ∀ x0, Kept s0 x0 → Kept s0 (f x0)) : Kept s0 (State.hostCmd s t u f) := by
  unfold State.hostCmd
  repeat' (first
    | with_reducible assumption | with_reducible exact Kept.refl _ | with_reducible apply hf | with_reducible apply State.accept_kept
    | with_reducible apply State.inTurn_kept | with_reducible apply State.at_kept | with_reducible apply kept_ite | split
    | (lift_lets; intro x; first | (refine (fun (hx : Kept s0 x) => ?_) ?_; clear_value x) | clear_value x)
    | (intro x; refine (fun (hx : Kept s0 x) => ?_) ?_; clear_value x) | (intro x; clear_value x))

theorem State.done_kept {s : State} (h : Kept s0 s) (t tag op status : Nat) (result : List Byte := []) : Kept s0 (State.done s t tag op status result) := by
  unfold State.done
  repeat' (first
    | with_reducible assumption | with_reducible exact Kept.refl _ | with_reducible apply State.complete_kept)

theorem State.putData_kept {s : State} (h : Kept s0 s) (t daddr : Nat) (l : List Byte) : Kept s0 (State.putData s t daddr l) := by
  unfold State.putData
  repeat' (first
    | with_reducible assumption | with_reducible exact Kept.refl _ | with_reducible apply State.dma_kept
    | with_reducible apply State.tenMod_kept | with_reducible apply kept_ite | split)

theorem State.imageLoad_kept {s : State} (h : Kept s0 s) (t tag : Nat) (b : List Byte) : Kept s0 (State.imageLoad s t tag b) := by
  unfold State.imageLoad
  repeat' (first
    | with_reducible assumption | with_reducible exact Kept.refl _ | with_reducible apply State.imageArrived_kept)

theorem State.imageParts_kept {s : State} (h : Kept s0 s) (t tag off : Nat) (b : List Byte) (last : Bool) : Kept s0 (State.imageParts s t tag off b last) := by
  unfold State.imageParts
  repeat' (first
    | with_reducible assumption | with_reducible exact Kept.refl _ | with_reducible apply State.done_kept
    | with_reducible apply State.imagePart_kept | with_reducible apply kept_ite | split)

theorem execImageLoad_kept (t : Fin 4) (tag : BitVec 16) (b : List Byte) (u : Nat) (s : State) : ∃ out, execImageLoad t tag b u s = .next out ∧ Kept s out := by
  refine ⟨_, rfl, ?_⟩
  have h : Kept s s := Kept.refl s
  repeat' (first
    | with_reducible assumption | with_reducible exact Kept.refl _ | with_reducible refine State.hostCmd_kept ?_ _ _ _ (fun x0 k0 => ?_)
    | with_reducible apply State.imageLoad_kept)

theorem execImagePart_kept (t : Fin 4) (tag : BitVec 16) (off : BitVec 32) (b : List Byte) (u : Nat) (s : State) : ∃ out, execImagePart t tag off b u s = .next out ∧ Kept s out := by
  refine ⟨_, rfl, ?_⟩
  have h : Kept s s := Kept.refl s
  repeat' (first
    | with_reducible assumption | with_reducible exact Kept.refl _ | with_reducible refine State.hostCmd_kept ?_ _ _ _ (fun x0 k0 => ?_)
    | with_reducible apply State.imageParts_kept)

theorem execImageLastPart_kept (t : Fin 4) (tag : BitVec 16) (off : BitVec 32) (b : List Byte) (u : Nat) (s : State) : ∃ out, execImageLastPart t tag off b u s = .next out ∧ Kept s out := by
  refine ⟨_, rfl, ?_⟩
  have h : Kept s s := Kept.refl s
  repeat' (first
    | with_reducible assumption | with_reducible exact Kept.refl _ | with_reducible refine State.hostCmd_kept ?_ _ _ _ (fun x0 k0 => ?_)
    | with_reducible apply State.imageParts_kept)

theorem execImageUnload_kept (t : Fin 4) (tag h : BitVec 16) (u : Nat) (s : State) : ∃ out, execImageUnload t tag h u s = .next out ∧ Kept s out := by
  refine ⟨_, rfl, ?_⟩
  have h : Kept s s := Kept.refl s
  repeat' (first
    | with_reducible assumption | with_reducible exact Kept.refl _ | with_reducible refine State.hostCmd_kept ?_ _ _ _ (fun x0 k0 => ?_)
    | with_reducible apply State.unloadCmd_kept)

theorem execOpenCtx_kept (t : Fin 4) (tag : BitVec 16) (n : Fin 256) (u : Nat) (s : State) : ∃ out, execOpenCtx t tag n u s = .next out ∧ Kept s out := by
  refine ⟨_, rfl, ?_⟩
  have h : Kept s s := Kept.refl s
  repeat' (first
    | with_reducible assumption | with_reducible exact Kept.refl _ | with_reducible refine State.hostCmd_kept ?_ _ _ _ (fun x0 k0 => ?_)
    | with_reducible apply State.openCtx_kept)

theorem execCloseCtx_kept (t : Fin 4) (tag : BitVec 16) (n : Fin 256) (u : Nat) (s : State) : ∃ out, execCloseCtx t tag n u s = .next out ∧ Kept s out := by
  refine ⟨_, rfl, ?_⟩
  have h : Kept s s := Kept.refl s
  repeat' (first
    | with_reducible assumption | with_reducible exact Kept.refl _ | with_reducible apply State.closeCmd_kept
    | with_reducible refine State.hostCmd_kept ?_ _ _ _ (fun x0 k0 => ?_))

theorem State.wrCcsCtrl_kept {s : State} (h : Kept s0 s) (v : Word) : Kept s0 (State.wrCcsCtrl s v) := by
  unfold State.wrCcsCtrl
  repeat' (first
    | with_reducible assumption | with_reducible exact Kept.refl _ | with_reducible apply State.request_kept
    | with_reducible apply State.wr_kept
    | (lift_lets; intro x; first | (refine (fun (hx : Kept s0 x) => ?_) ?_; clear_value x) | clear_value x)
    | (intro x; refine (fun (hx : Kept s0 x) => ?_) ?_; clear_value x) | (intro x; clear_value x))

theorem State.wrResv_kept {s : State} (h : Kept s0 s) (v : Word) : Kept s0 (State.wrResv s v) := by
  unfold State.wrResv
  repeat' (first
    | with_reducible assumption | with_reducible exact Kept.refl _ | with_reducible apply State.ldgMod_kept
    | with_reducible apply State.wr_kept)

theorem State.budget_kept {s : State} (h : Kept s0 s) (t tag : Nat) (mask : Nat) (pcap level fmax : Nat) : Kept s0 (State.budget s t tag mask pcap level fmax) := by
  unfold State.budget
  repeat' (first
    | with_reducible assumption | with_reducible exact Kept.refl _ | with_reducible apply State.done_kept
    | with_reducible apply State.wr_kept | with_reducible apply State.wrCcsCtrl_kept | with_reducible apply State.wrResv_kept
    | with_reducible apply kept_ite | split
    | (lift_lets; intro x; first | (refine (fun (hx : Kept s0 x) => ?_) ?_; clear_value x) | clear_value x)
    | (intro x; refine (fun (hx : Kept s0 x) => ?_) ?_; clear_value x) | (intro x; clear_value x))

theorem execBudget_kept (t : Fin 4) (tag : BitVec 16) (mask : BitVec 8) (pcap : BitVec 16) (level : BitVec 8) (fmax : BitVec 32) (u : Nat) (s : State) : ∃ out, execBudget t tag mask pcap level fmax u s = .next out ∧ Kept s out := by
  refine ⟨_, rfl, ?_⟩
  have h : Kept s s := Kept.refl s
  repeat' (first
    | with_reducible assumption | with_reducible exact Kept.refl _ | with_reducible apply State.budget_kept
    | with_reducible refine State.hostCmd_kept ?_ _ _ _ (fun x0 k0 => ?_))

theorem State.bindCmd_kept {s : State} (h : Kept s0 s) (t tag n q target a b : Nat) : Kept s0 (State.bindCmd s t tag n q target a b) := by
  unfold State.bindCmd
  repeat' (first
    | with_reducible assumption | with_reducible exact Kept.refl _ | with_reducible apply State.done_kept
    | with_reducible apply State.portMod_kept | with_reducible apply kept_ite | with_reducible apply kept_ite1
    | with_reducible apply kept_ite2 | split | with_reducible exact kept_snd ‹_ = _› (by assumption)
    | (with_reducible refine kept_snd ‹_ = (_, _)› ?_) | (with_reducible refine kept_fst ‹_ = (_, _)› ?_)
    | (lift_lets; intro x; first | (refine (fun (hx : Kept s0 x) => ?_) ?_; clear_value x) | clear_value x)
    | (intro x; refine (fun (hx : Kept s0 x) => ?_) ?_; clear_value x) | (intro x; clear_value x) | dsimp only)

theorem execBindPort_kept (t : Fin 4) (tag : BitVec 16) (n : Fin 256) (q target a b : BitVec 8) (u : Nat) (s : State) : ∃ out, execBindPort t tag n q target a b u s = .next out ∧ Kept s out := by
  refine ⟨_, rfl, ?_⟩
  have h : Kept s s := Kept.refl s
  repeat' (first
    | with_reducible assumption | with_reducible exact Kept.refl _ | with_reducible apply State.bindCmd_kept
    | with_reducible refine State.hostCmd_kept ?_ _ _ _ (fun x0 k0 => ?_))

theorem State.streamSetup_kept {s : State} (h : Kept s0 s) (t tag k mode base size wb : Nat) : Kept s0 (State.streamSetup s t tag k mode base size wb) := by
  unfold State.streamSetup
  repeat' (first
    | with_reducible assumption | with_reducible exact Kept.refl _ | with_reducible apply State.done_kept
    | with_reducible apply State.pump_kept | with_reducible apply State.rsetN_kept | with_reducible apply State.tenMod_kept
    | with_reducible apply kept_ite | split
    | (lift_lets; intro x; first | (refine (fun (hx : Kept s0 x) => ?_) ?_; clear_value x) | clear_value x)
    | (intro x; refine (fun (hx : Kept s0 x) => ?_) ?_; clear_value x) | (intro x; clear_value x))

theorem execStreamSetup_kept (t : Fin 4) (tag : BitVec 16) (k mode : BitVec 8) (base : BitVec 64) (size : BitVec 32) (wb : BitVec 64) (u : Nat) (s : State) : ∃ out, execStreamSetup t tag k mode base size wb u s = .next out ∧ Kept s out := by
  refine ⟨_, rfl, ?_⟩
  have h : Kept s s := Kept.refl s
  repeat' (first
    | with_reducible assumption | with_reducible exact Kept.refl _ | with_reducible refine State.hostCmd_kept ?_ _ _ _ (fun x0 k0 => ?_)
    | with_reducible apply State.streamSetup_kept)

theorem State.readStream_kept {s : State} (h : Kept s0 s) (t tag k daddr dlen : Nat) : Kept s0 (State.readStream s t tag k daddr dlen) := by
  unfold State.readStream
  repeat' (first
    | with_reducible assumption | with_reducible exact Kept.refl _ | with_reducible apply State.done_kept
    | with_reducible apply State.putData_kept | with_reducible apply takeEntries_kept | with_reducible apply kept_ite
    | with_reducible apply kept_ite1 | with_reducible apply kept_ite2 | split | with_reducible exact kept_snd ‹_ = _› (by assumption)
    | (with_reducible refine kept_snd ‹_ = (_, _)› ?_) | (with_reducible refine kept_fst ‹_ = (_, _)› ?_)
    | (lift_lets; intro x; first | (refine (fun (hx : Kept s0 x) => ?_) ?_; clear_value x) | clear_value x)
    | (intro x; refine (fun (hx : Kept s0 x) => ?_) ?_; clear_value x) | (intro x; clear_value x) | dsimp only)

theorem execReadStream_kept (t : Fin 4) (tag : BitVec 16) (k : BitVec 8) (daddr : BitVec 64) (dlen : BitVec 32) (u : Nat) (s : State) : ∃ out, execReadStream t tag k daddr dlen u s = .next out ∧ Kept s out := by
  refine ⟨_, rfl, ?_⟩
  have h : Kept s s := Kept.refl s
  repeat' (first
    | with_reducible assumption | with_reducible exact Kept.refl _ | with_reducible refine State.hostCmd_kept ?_ _ _ _ (fun x0 k0 => ?_)
    | with_reducible apply State.readStream_kept)

theorem State.readPassage_kept {s : State} (h : Kept s0 s) (t tag first daddr dlen : Nat) : Kept s0 (State.readPassage s t tag first daddr dlen) := by
  unfold State.readPassage
  repeat' (first
    | with_reducible assumption | with_reducible exact Kept.refl _ | with_reducible apply State.done_kept
    | with_reducible apply State.putData_kept | with_reducible apply kept_ite | with_reducible apply kept_ite1
    | with_reducible apply kept_ite2 | split | with_reducible exact kept_snd ‹_ = _› (by assumption)
    | (with_reducible refine kept_snd ‹_ = (_, _)› ?_) | (with_reducible refine kept_fst ‹_ = (_, _)› ?_)
    | (lift_lets; intro x; first | (refine (fun (hx : Kept s0 x) => ?_) ?_; clear_value x) | clear_value x)
    | (intro x; refine (fun (hx : Kept s0 x) => ?_) ?_; clear_value x) | (intro x; clear_value x) | dsimp only)

theorem execReadPassage_kept (t : Fin 4) (tag : BitVec 16) (first daddr : BitVec 64) (dlen : BitVec 32) (u : Nat) (s : State) : ∃ out, execReadPassage t tag first daddr dlen u s = .next out ∧ Kept s out := by
  refine ⟨_, rfl, ?_⟩
  have h : Kept s s := Kept.refl s
  repeat' (first
    | with_reducible assumption | with_reducible exact Kept.refl _ | with_reducible refine State.hostCmd_kept ?_ _ _ _ (fun x0 k0 => ?_)
    | with_reducible apply State.readPassage_kept)

theorem State.obsCmd_kept {s : State} (h : Kept s0 s) (t tag : Nat) : Kept s0 (State.obsCmd s t tag) := by
  unfold State.obsCmd
  repeat' (first
    | with_reducible assumption | with_reducible exact Kept.refl _ | with_reducible apply State.accept_kept
    | with_reducible apply State.done_kept | with_reducible apply State.witMod_kept | with_reducible apply kept_ite | split)

theorem execWitnessObs_kept (t : Fin 4) (tag : BitVec 16) (u : Nat) (s : State) : ∃ out, execWitnessObs t tag u s = .next out ∧ Kept s out := by
  refine ⟨_, rfl, ?_⟩
  have h : Kept s s := Kept.refl s
  repeat' (first
    | with_reducible assumption | with_reducible exact Kept.refl _ | with_reducible refine State.hostCmd_kept ?_ _ _ _ (fun x0 k0 => ?_)
    | with_reducible apply State.obsCmd_kept)

theorem State.eventCmd_kept {s : State} (h : Kept s0 s) (t tag code : Nat) (data : List Byte) : Kept s0 (State.eventCmd s t tag code data) := by
  unfold State.eventCmd
  repeat' (first
    | with_reducible assumption | with_reducible exact Kept.refl _ | with_reducible apply State.accept_kept
    | with_reducible apply State.done_kept | with_reducible apply State.witEvent_kept | with_reducible apply kept_ite | split)

theorem execWitnessEvent_kept (t : Fin 4) (tag : BitVec 16) (code : BitVec 8) (data : List Byte) (u : Nat) (s : State) : ∃ out, execWitnessEvent t tag code data u s = .next out ∧ Kept s out := by
  refine ⟨_, rfl, ?_⟩
  have h : Kept s s := Kept.refl s
  repeat' (first
    | with_reducible assumption | with_reducible exact Kept.refl _ | with_reducible apply State.eventCmd_kept
    | with_reducible refine State.hostCmd_kept ?_ _ _ _ (fun x0 k0 => ?_))

theorem State.releaseCmd_kept {s : State} (h : Kept s0 s) (t tag : Nat) : Kept s0 (State.releaseCmd s t tag) := by
  unfold State.releaseCmd
  repeat' (first
    | with_reducible assumption | with_reducible exact Kept.refl _ | with_reducible apply State.done_kept
    | with_reducible apply State.fsetB_kept | with_reducible apply State.snapRelease_kept | with_reducible apply kept_ite | split)

theorem execSnapRelease_kept (t : Fin 4) (tag : BitVec 16) (u : Nat) (s : State) : ∃ out, execSnapRelease t tag u s = .next out ∧ Kept s out := by
  refine ⟨_, rfl, ?_⟩
  have h : Kept s s := Kept.refl s
  repeat' (first
    | with_reducible assumption | with_reducible exact Kept.refl _ | with_reducible refine State.hostCmd_kept ?_ _ _ _ (fun x0 k0 => ?_)
    | with_reducible apply State.releaseCmd_kept)

theorem State.drbg_kept {s : State} (h : Kept s0 s) (n : Nat) : Kept s0 (State.drbg s n).2 := by
  unfold State.drbg
  repeat' (first
    | with_reducible assumption | with_reducible exact Kept.refl _ | with_reducible apply State.free1_kept | split
    | with_reducible exact kept_snd ‹_ = _› (by assumption) | (with_reducible refine kept_snd ‹_ = (_, _)› ?_)
    | (with_reducible refine kept_fst ‹_ = (_, _)› ?_)
    | (lift_lets; intro x; first | (refine (fun (hx : Kept s0 x) => ?_) ?_; clear_value x) | clear_value x)
    | (intro x; refine (fun (hx : Kept s0 x) => ?_) ?_; clear_value x) | (intro x; clear_value x) | dsimp only)

theorem State.endProofOn_kept {s : State} (h : Kept s0 s) (p : Nat) : Kept s0 (State.endProofOn s p) := by
  unfold State.endProofOn
  repeat' (first
    | with_reducible assumption | with_reducible exact Kept.refl _ | with_reducible apply State.portHost_kept)

theorem State.withProof_kept {s : State} (h : Kept s0 s) (t tag : Nat) (f : State → State) (hf : ∀ x0, Kept s0 x0 → Kept s0 (f x0)) : Kept s0 (State.withProof s t tag f) := by
  unfold State.withProof
  repeat' (first
    | with_reducible assumption | with_reducible exact Kept.refl _ | with_reducible apply hf | with_reducible apply State.done_kept
    | with_reducible apply kept_ite | split)

theorem State.challengeCmd_kept {s : State} (h : Kept s0 s) (t tag : Nat) : Kept s0 (State.challengeCmd s t tag) := by
  unfold State.challengeCmd
  repeat' (first
    | with_reducible assumption | with_reducible exact Kept.refl _ | with_reducible apply State.done_kept
    | with_reducible apply State.drbg_kept | with_reducible apply State.portHost_kept | with_reducible apply kept_ite
    | with_reducible apply kept_ite1 | with_reducible apply kept_ite2 | split | with_reducible exact kept_snd ‹_ = _› (by assumption)
    | (with_reducible refine kept_snd ‹_ = (_, _)› ?_) | (with_reducible refine kept_fst ‹_ = (_, _)› ?_)
    | (lift_lets; intro x; first | (refine (fun (hx : Kept s0 x) => ?_) ?_; clear_value x) | clear_value x)
    | (intro x; refine (fun (hx : Kept s0 x) => ?_) ?_; clear_value x) | (intro x; clear_value x) | dsimp only)

theorem execChallenge_kept (t : Fin 4) (tag : BitVec 16) (u : Nat) (s : State) : ∃ out, execChallenge t tag u s = .next out ∧ Kept s out := by
  refine ⟨_, rfl, ?_⟩
  have h : Kept s s := Kept.refl s
  repeat' (first
    | with_reducible assumption | with_reducible exact Kept.refl _ | with_reducible apply State.challengeCmd_kept
    | with_reducible refine State.hostCmd_kept ?_ _ _ _ (fun x0 k0 => ?_))

theorem State.rootNow_kept {s : State} (h : Kept s0 s)  : Kept s0 (State.rootNow s) := by
  unfold State.rootNow
  repeat' (first
    | with_reducible assumption | with_reducible exact Kept.refl _ | with_reducible apply State.writeRoot_kept
    | with_reducible apply kept_ite | split | with_reducible exact kept_snd ‹_ = _› (by assumption)
    | (with_reducible refine kept_snd ‹_ = (_, _)› ?_) | (with_reducible refine kept_fst ‹_ = (_, _)› ?_)
    | (lift_lets; intro x; first | (refine (fun (hx : Kept s0 x) => ?_) ?_; clear_value x) | clear_value x)
    | (intro x; refine (fun (hx : Kept s0 x) => ?_) ?_; clear_value x) | (intro x; clear_value x))

theorem State.proofMade_kept {s : State} (h : Kept s0 s) (p : Nat) (cert k : List Byte) : Kept s0 (State.proofMade s p cert k) := by
  unfold State.proofMade
  repeat' (first
    | with_reducible assumption | with_reducible exact Kept.refl _ | with_reducible refine State.hostMod_kept ?_ _ (fun z => ?_)
    | with_reducible apply State.portHost_kept | with_reducible apply State.rootNow_kept | with_reducible apply State.showShares_kept
    | with_reducible apply kept_ite | split
    | (lift_lets; intro x; first | (refine (fun (hx : Kept s0 x) => ?_) ?_; clear_value x) | skip)
    | (intro x; refine (fun (hx : Kept s0 x) => ?_) ?_; clear_value x) | (intro x; skip) | with_reducible exact rfl
    | with_reducible exact Nat.le_refl _ | with_reducible exact modifyAt_length _ _ _ | with_reducible exact List.length_map _
    | ((with_reducible refine (id ?_ : (_ : Nat) = _)); exact rfl) | with_reducible refine And.intro ?_ ?_)

theorem State.proveCmd_kept {s : State} (h : Kept s0 s) (t tag : Nat) (b : List Byte) : Kept s0 (State.proveCmd s t tag b) := by
  unfold State.proveCmd
  repeat' (first
    | with_reducible assumption | with_reducible exact Kept.refl _ | with_reducible apply State.done_kept
    | with_reducible apply State.portHost_kept | with_reducible apply State.proofMade_kept | with_reducible apply kept_ite | split
    | (lift_lets; intro x; first | (refine (fun (hx : Kept s0 x) => ?_) ?_; clear_value x) | clear_value x)
    | (intro x; refine (fun (hx : Kept s0 x) => ?_) ?_; clear_value x) | (intro x; clear_value x) | dsimp only)

theorem execProveOwner_kept (t : Fin 4) (tag : BitVec 16) (b : List Byte) (u : Nat) (s : State) : ∃ out, execProveOwner t tag b u s = .next out ∧ Kept s out := by
  refine ⟨_, rfl, ?_⟩
  have h : Kept s s := Kept.refl s
  repeat' (first
    | with_reducible assumption | with_reducible exact Kept.refl _ | with_reducible refine State.hostCmd_kept ?_ _ _ _ (fun x0 k0 => ?_)
    | with_reducible apply State.proveCmd_kept)

theorem State.writeTableCmd_kept {s : State} (h : Kept s0 s) (t tag : Nat) (b : List Byte) : Kept s0 (State.writeTableCmd s t tag b) := by
  unfold State.writeTableCmd
  repeat' (first
    | with_reducible assumption | with_reducible exact Kept.refl _ | with_reducible apply State.done_kept
    | with_reducible apply State.request_kept | with_reducible refine State.withProof_kept ?_ _ _ _ (fun x0 k0 => ?_)
    | with_reducible apply kept_ite | split)

theorem execWriteTable_kept (t : Fin 4) (tag : BitVec 16) (b : List Byte) (u : Nat) (s : State) : ∃ out, execWriteTable t tag b u s = .next out ∧ Kept s out := by
  refine ⟨_, rfl, ?_⟩
  have h : Kept s s := Kept.refl s
  repeat' (first
    | with_reducible assumption | with_reducible exact Kept.refl _ | with_reducible refine State.hostCmd_kept ?_ _ _ _ (fun x0 k0 => ?_)
    | with_reducible apply State.writeTableCmd_kept)

theorem State.readTableCmd_kept {s : State} (h : Kept s0 s) (t tag daddr dlen : Nat) : Kept s0 (State.readTableCmd s t tag daddr dlen) := by
  unfold State.readTableCmd
  repeat' (first
    | with_reducible assumption | with_reducible exact Kept.refl _ | with_reducible apply State.done_kept
    | with_reducible apply State.putData_kept | with_reducible refine State.withProof_kept ?_ _ _ _ (fun x0 k0 => ?_)
    | with_reducible apply kept_ite | split)

theorem execReadTable_kept (t : Fin 4) (tag : BitVec 16) (daddr : BitVec 64) (dlen : BitVec 32) (u : Nat) (s : State) : ∃ out, execReadTable t tag daddr dlen u s = .next out ∧ Kept s out := by
  refine ⟨_, rfl, ?_⟩
  have h : Kept s s := Kept.refl s
  repeat' (first
    | with_reducible assumption | with_reducible exact Kept.refl _ | with_reducible refine State.hostCmd_kept ?_ _ _ _ (fun x0 k0 => ?_)
    | with_reducible apply State.readTableCmd_kept)

theorem execTenancyClear_kept (t : Fin 4) (tag : BitVec 16) (u : Nat) (s : State) : ∃ out, execTenancyClear t tag u s = .next out ∧ Kept s out := by
  refine ⟨_, rfl, ?_⟩
  have h : Kept s s := Kept.refl s
  repeat' (first
    | with_reducible assumption | with_reducible exact Kept.refl _ | with_reducible refine State.hostCmd_kept ?_ _ _ _ (fun x0 k0 => ?_)
    | with_reducible apply State.request_kept | with_reducible refine State.withProof_kept ?_ _ _ _ (fun x0 k0 => ?_))

theorem execEndProof_kept (t : Fin 4) (tag : BitVec 16) (u : Nat) (s : State) : ∃ out, execEndProof t tag u s = .next out ∧ Kept s out := by
  refine ⟨_, rfl, ?_⟩
  have h : Kept s s := Kept.refl s
  repeat' (first
    | with_reducible assumption | with_reducible exact Kept.refl _ | with_reducible apply State.done_kept
    | with_reducible apply State.endProofOn_kept | with_reducible refine State.hostCmd_kept ?_ _ _ _ (fun x0 k0 => ?_)
    | with_reducible refine State.withProof_kept ?_ _ _ _ (fun x0 k0 => ?_))

theorem execProofExpire_kept (p : Fin 5) (s : State) : ∃ out, execProofExpire p s = .next out ∧ Kept s out := by
  refine ⟨_, rfl, ?_⟩
  have h : Kept s s := Kept.refl s
  repeat' (first
    | with_reducible assumption | with_reducible exact Kept.refl _ | with_reducible apply State.at_kept
    | with_reducible apply State.endProofOn_kept | split)

theorem State.ringsOff_kept {s : State} (h : Kept s0 s) (t : Nat) : Kept s0 (State.ringsOff s t) := by
  unfold State.ringsOff
  repeat' (first
    | with_reducible assumption | with_reducible exact Kept.refl _ | with_reducible apply State.bumpBy_kept
    | with_reducible apply State.evPend_kept | with_reducible apply State.fsetB_kept | with_reducible apply State.pins_kept
    | with_reducible apply State.rset_kept | with_reducible apply State.tenMod_kept
    | (lift_lets; intro x; first | (refine (fun (hx : Kept s0 x) => ?_) ?_; clear_value x) | clear_value x)
    | (intro x; refine (fun (hx : Kept s0 x) => ?_) ?_; clear_value x) | (intro x; clear_value x))

theorem State.dropLoad_kept {s : State} (h : Kept s0 s) (t : Nat) : Kept s0 (State.dropLoad s t) := by
  unfold State.dropLoad
  repeat' (first
    | with_reducible assumption | with_reducible exact Kept.refl _ | with_reducible apply State.fsetB_kept
    | with_reducible apply State.tenMod_kept)

theorem State.pullAll_kept {s : State} (h : Kept s0 s) (t : Nat) : Kept s0 (State.pullAll s t) := by
  unfold State.pullAll
  repeat' (first
    | with_reducible assumption | with_reducible exact Kept.refl _ | with_reducible apply State.tenMod_kept)

theorem State.resetRings_kept {s : State} (h : Kept s0 s) (t p : Nat) : Kept s0 (State.resetRings s t p) := by
  unfold State.resetRings
  repeat' (first
    | with_reducible assumption | with_reducible exact Kept.refl _ | with_reducible apply State.dropLoad_kept
    | with_reducible apply State.pullAll_kept | with_reducible apply State.ringsOff_kept | with_reducible apply kept_ite | split)

theorem State.portReset_kept {s : State} (h : Kept s0 s) (p : Nat) : Kept s0 (State.portReset s p) := by
  unfold State.portReset
  repeat' (first
    | with_reducible assumption | with_reducible exact Kept.refl _ | with_reducible apply State.endProofOn_kept
    | with_reducible apply State.resetRings_kept | with_reducible refine kept_foldl _ (fun x a hx => ?_) ?_
    | with_reducible exact kept_snd ‹_ = _› (by assumption) | (with_reducible refine kept_snd ‹_ = (_, _)› ?_)
    | (with_reducible refine kept_fst ‹_ = (_, _)› ?_))

theorem execPortReset_kept (p : Fin 2) (u : Nat) (s : State) : ∃ out, execPortReset p u s = .next out ∧ Kept s out := by
  refine ⟨_, rfl, ?_⟩
  have h : Kept s s := Kept.refl s
  repeat' (first
    | with_reducible assumption | with_reducible exact Kept.refl _ | with_reducible apply State.at_kept
    | with_reducible apply State.portHost_kept | with_reducible apply State.portReset_kept)

theorem State.busMaster_kept {s : State} (h : Kept s0 s) (p : Nat) (on : Bool) : Kept s0 (State.busMaster s p on) := by
  unfold State.busMaster
  repeat' (first
    | with_reducible assumption | with_reducible exact Kept.refl _ | with_reducible apply State.dma_kept
    | with_reducible apply State.portHost_kept | with_reducible apply State.pump_kept | with_reducible apply State.tenMod_kept
    | with_reducible apply kept_ite | with_reducible refine kept_foldl _ (fun x a hx => ?_) ?_ | split
    | with_reducible exact kept_snd ‹_ = _› (by assumption) | (with_reducible refine kept_snd ‹_ = (_, _)› ?_)
    | (with_reducible refine kept_fst ‹_ = (_, _)› ?_)
    | (lift_lets; intro x; first | (refine (fun (hx : Kept s0 x) => ?_) ?_; clear_value x) | clear_value x)
    | (intro x; refine (fun (hx : Kept s0 x) => ?_) ?_; clear_value x) | (intro x; clear_value x))

theorem execBusMasterClear_kept (p : Fin 2) (on : Bool) (u : Nat) (s : State) : ∃ out, execBusMasterClear p on u s = .next out ∧ Kept s out := by
  refine ⟨_, rfl, ?_⟩
  have h : Kept s s := Kept.refl s
  repeat' (first
    | with_reducible assumption | with_reducible exact Kept.refl _ | with_reducible apply State.at_kept
    | with_reducible apply State.busMaster_kept)

theorem State.wrHstCtrl_kept {s : State} (h : Kept s0 s) (t p : Nat) (v : Word) : Kept s0 (State.wrHstCtrl s t p v) := by
  unfold State.wrHstCtrl
  repeat' (first
    | with_reducible assumption | with_reducible exact Kept.refl _ | with_reducible apply State.fset_kept
    | with_reducible apply State.fsetB_kept | with_reducible apply State.pins_kept | with_reducible apply State.request_kept
    | with_reducible apply State.ringsOff_kept | with_reducible apply State.rsetN_kept | with_reducible apply State.tenMod_kept
    | with_reducible apply kept_ite | split
    | (lift_lets; intro x; first | (refine (fun (hx : Kept s0 x) => ?_) ?_; clear_value x) | clear_value x)
    | (intro x; refine (fun (hx : Kept s0 x) => ?_) ?_; clear_value x) | (intro x; clear_value x))

theorem State.wrCqTail_kept {s : State} (h : Kept s0 s) (t : Nat) (v : Word) : Kept s0 (State.wrCqTail s t v) := by
  unfold State.wrCqTail
  repeat' (first
    | with_reducible assumption | with_reducible exact Kept.refl _ | with_reducible apply State.rsetN_kept)

theorem State.wrCplHead_kept {s : State} (h : Kept s0 s) (t : Nat) (v : Word) : Kept s0 (State.wrCplHead s t v) := by
  unfold State.wrCplHead
  repeat' (first
    | with_reducible assumption | with_reducible exact Kept.refl _ | with_reducible apply State.fsetB_kept
    | with_reducible apply State.rsetN_kept | with_reducible apply State.tenMod_kept | with_reducible apply drainEvents_kept
    | with_reducible apply kept_ite | split
    | (lift_lets; intro x; first | (refine (fun (hx : Kept s0 x) => ?_) ?_; clear_value x) | clear_value x)
    | (intro x; refine (fun (hx : Kept s0 x) => ?_) ?_; clear_value x) | (intro x; clear_value x))

theorem State.wrSrd_kept {s : State} (h : Kept s0 s) (t k : Nat) (v : Word) : Kept s0 (State.wrSrd s t k v) := by
  unfold State.wrSrd
  repeat' (first
    | with_reducible assumption | with_reducible exact Kept.refl _ | with_reducible apply State.pump_kept
    | with_reducible apply State.rset_kept)

theorem execCplCoalesceTimeout_kept (t : Fin 4) (s : State) : ∃ out, execCplCoalesceTimeout t s = .next out ∧ Kept s out := by
  refine ⟨_, rfl, ?_⟩
  have h : Kept s s := Kept.refl s
  repeat' (first
    | with_reducible assumption | with_reducible exact Kept.refl _ | with_reducible apply State.at_kept
    | with_reducible apply State.cause_kept | with_reducible apply State.tenMod_kept | split
    | (lift_lets; intro x; first | (refine (fun (hx : Kept s x) => ?_) ?_; clear_value x) | clear_value x)
    | (intro x; refine (fun (hx : Kept s x) => ?_) ?_; clear_value x) | (intro x; clear_value x) | dsimp only)

theorem State.enforce_kept {s : State} (h : Kept s0 s)  : Kept s0 (State.enforce s) := by
  unfold State.enforce
  repeat' (first
    | with_reducible assumption | with_reducible exact Kept.refl _ | with_reducible apply State.cancelOpen_kept
    | with_reducible apply State.closeEffect_kept | with_reducible refine kept_foldl _ (fun x a hx => ?_) ?_
    | with_reducible exact kept_snd ‹_ = _› (by assumption) | (with_reducible refine kept_snd ‹_ = (_, _)› ?_)
    | (with_reducible refine kept_fst ‹_ = (_, _)› ?_)
    | (lift_lets; intro x; first | (refine (fun (hx : Kept s0 x) => ?_) ?_; clear_value x) | skip)
    | (intro x; refine (fun (hx : Kept s0 x) => ?_) ?_; clear_value x) | (intro x; skip) | exact id | with_reducible exact rfl
    | with_reducible exact Nat.le_refl _ | with_reducible exact modifyAt_length _ _ _ | with_reducible exact List.length_map _
    | ((with_reducible refine (id ?_ : (_ : Nat) = _)); exact rfl) | with_reducible refine Kept.upd ?_ ?_ ?_ ?_ ?_ ?_ ?_ ?_)

theorem State.retable_kept {s : State} (h : Kept s0 s) (anchor : Option (List Byte)) (l : List TenEntry) : Kept s0 (State.retable s anchor l) := by
  unfold State.retable
  repeat' (first
    | with_reducible assumption | with_reducible exact Kept.refl _ | with_reducible apply State.causes_kept
    | with_reducible apply State.endProofOn_kept | with_reducible apply State.enforce_kept
    | with_reducible refine State.hostMod_kept ?_ _ (fun z => ?_) | with_reducible apply State.resetRings_kept
    | with_reducible apply State.rootNow_kept | with_reducible apply State.showShares_kept | with_reducible apply kept_ite
    | with_reducible refine kept_foldl _ (fun x a hx => ?_) ?_ | split | with_reducible exact kept_snd ‹_ = _› (by assumption)
    | (with_reducible refine kept_snd ‹_ = (_, _)› ?_) | (with_reducible refine kept_fst ‹_ = (_, _)› ?_)
    | (lift_lets; intro x; first | (refine (fun (hx : Kept s0 x) => ?_) ?_; clear_value x) | skip)
    | (intro x; refine (fun (hx : Kept s0 x) => ?_) ?_; clear_value x) | (intro x; skip) | dsimp only | with_reducible exact rfl
    | with_reducible exact Nat.le_refl _ | with_reducible exact modifyAt_length _ _ _ | with_reducible exact List.length_map _
    | ((with_reducible refine (id ?_ : (_ : Nat) = _)); exact rfl) | with_reducible refine And.intro ?_ ?_)

theorem State.tableEffect_kept {s : State} (h : Kept s0 s) (accept tag : Nat) (l : List TenEntry) : Kept s0 (State.tableEffect s accept tag l) := by
  unfold State.tableEffect
  repeat' (first
    | with_reducible assumption | with_reducible exact Kept.refl _ | with_reducible apply State.accept_kept
    | with_reducible apply State.complete_kept | with_reducible apply State.retable_kept)

theorem State.clearEffect_kept {s : State} (h : Kept s0 s) (accept tag : Nat) (time : WitTime) : Kept s0 (State.clearEffect s accept tag time) := by
  unfold State.clearEffect
  repeat' (first
    | with_reducible assumption | with_reducible exact Kept.refl _ | with_reducible apply State.accept_kept
    | with_reducible apply State.complete_kept | with_reducible apply State.releaseOwk_kept
    | with_reducible apply State.retable_kept | with_reducible apply kept_ite | with_reducible apply kept_ite1
    | with_reducible apply kept_ite2 | split | with_reducible exact kept_snd ‹_ = _› (by assumption)
    | (with_reducible refine kept_snd ‹_ = (_, _)› ?_) | (with_reducible refine kept_fst ‹_ = (_, _)› ?_)
    | (lift_lets; intro x; first | (refine (fun (hx : Kept s0 x) => ?_) ?_; clear_value x) | clear_value x)
    | (intro x; refine (fun (hx : Kept s0 x) => ?_) ?_; clear_value x) | (intro x; clear_value x) | dsimp only)

theorem State.tresetEffect_kept {s : State} (h : Kept s0 s) (t : Nat) : Kept s0 (State.tresetEffect s t) := by
  unfold State.tresetEffect
  repeat' (first
    | with_reducible assumption | with_reducible exact Kept.refl _ | with_reducible apply State.bumpBy_kept
    | with_reducible apply State.cancelOpen_kept | with_reducible apply State.closeEffect_kept
    | with_reducible apply State.ctxMod_kept | with_reducible apply State.dropLoad_kept
    | with_reducible apply State.ringsOff_kept | with_reducible apply State.showSeq_kept
    | with_reducible apply State.tenMod_kept | with_reducible apply kept_ite | with_reducible apply kept_ite1
    | with_reducible apply kept_ite2 | with_reducible refine kept_foldl _ (fun x a hx => ?_) ?_ | split
    | with_reducible exact kept_snd ‹_ = _› (by assumption) | (with_reducible refine kept_snd ‹_ = (_, _)› ?_)
    | (with_reducible refine kept_fst ‹_ = (_, _)› ?_)
    | (lift_lets; intro x; first | (refine (fun (hx : Kept s0 x) => ?_) ?_; clear_value x) | clear_value x)
    | (intro x; refine (fun (hx : Kept s0 x) => ?_) ?_; clear_value x) | (intro x; clear_value x) | dsimp only | exact id
    | exact ⟨rfl, Nat.le_refl _, rfl⟩ | with_reducible exact rfl | with_reducible exact Nat.le_refl _
    | with_reducible exact modifyAt_length _ _ _ | with_reducible exact List.length_map _
    | ((with_reducible refine (id ?_ : (_ : Nat) = _)); exact rfl) | with_reducible refine Kept.upd ?_ ?_ ?_ ?_ ?_ ?_ ?_ ?_)

theorem State.runEntry_kept {s : State} (h : Kept s0 s) (t : Nat) (e data : List Byte) : Kept s0 (State.runEntry s t e data) := by
  unfold State.runEntry
  repeat' (first
    | with_reducible assumption | with_reducible exact Kept.refl _ | with_reducible apply State.bindCmd_kept
    | with_reducible apply State.budget_kept | with_reducible apply State.challengeCmd_kept | with_reducible apply State.closeCmd_kept
    | with_reducible apply State.done_kept | with_reducible apply State.endProofOn_kept | with_reducible apply State.eventCmd_kept
    | with_reducible apply State.imageLoad_kept | with_reducible apply State.imageParts_kept | with_reducible apply State.obsCmd_kept
    | with_reducible apply State.openCtx_kept | with_reducible apply State.proveCmd_kept | with_reducible apply State.readPassage_kept
    | with_reducible apply State.readStream_kept | with_reducible apply State.readTableCmd_kept
    | with_reducible apply State.releaseCmd_kept | with_reducible apply State.request_kept | with_reducible apply State.streamSetup_kept
    | with_reducible apply State.unloadCmd_kept | with_reducible refine State.withProof_kept ?_ _ _ _ (fun x0 k0 => ?_)
    | with_reducible apply State.writeTableCmd_kept | with_reducible apply kept_ite | with_reducible apply kept_ite1
    | with_reducible apply kept_ite2 | split | with_reducible exact kept_snd ‹_ = _› (by assumption)
    | (with_reducible refine kept_snd ‹_ = (_, _)› ?_) | (with_reducible refine kept_fst ‹_ = (_, _)› ?_)
    | (lift_lets; intro x; first | (refine (fun (hx : Kept s0 x) => ?_) ?_; clear_value x) | clear_value x)
    | (intro x; refine (fun (hx : Kept s0 x) => ?_) ?_; clear_value x) | (intro x; clear_value x) | dsimp only)

theorem execCommandTake_kept (t : Fin 4) (entry data : List Byte) (u : Nat) (s : State) : ∃ out, execCommandTake t entry data u s = .next out ∧ Kept s out := by
  refine ⟨_, rfl, ?_⟩
  have h : Kept s s := Kept.refl s
  repeat' (first
    | with_reducible assumption | with_reducible exact Kept.refl _ | with_reducible apply State.at_kept
    | with_reducible refine State.hostCmd_kept ?_ _ _ _ (fun x0 k0 => ?_) | with_reducible apply State.runEntry_kept
    | with_reducible apply kept_ite | split
    | (lift_lets; intro x; first | (refine (fun (hx : Kept s x) => ?_) ?_; clear_value x) | clear_value x)
    | (intro x; refine (fun (hx : Kept s x) => ?_) ?_; clear_value x) | (intro x; clear_value x))

end Sys2Proof.Laws
end

