-- ==== Sys2Proof/Laws/KeptAccess.lean ====
section
/-!
SUPPORT. What the operations of Machine/Access.lean keep.
-/

set_option linter.all false

namespace Sys2Proof.Laws

open Sys2Proof.Machine


variable {s0 : State}

theorem State.latchAt_kept {s : State} (h : Kept s0 s) (t a : Nat) : Kept s0 (State.latchAt s t a) := by
  unfold State.latchAt
  repeat' (first
    | with_reducible assumption | with_reducible exact Kept.refl _ | with_reducible apply State.rdBkpCal_kept
    | with_reducible apply State.rdBkpSec_kept | with_reducible apply State.rdStu_kept | with_reducible apply State.rsetN_kept
    | with_reducible apply kept_ite | split)

theorem State.viewErr_kept {s : State} (h : Kept s0 s) (t a : Nat) : Kept s0 (State.viewErr s t a) := by
  unfold State.viewErr
  repeat' (first
    | with_reducible assumption | with_reducible exact Kept.refl _ | with_reducible apply State.bump_kept
    | with_reducible apply State.cause_kept | with_reducible apply State.rsetN_kept)

theorem State.portErr_kept {s : State} (h : Kept s0 s) (p : Nat) : Kept s0 (State.portErr s p) := by
  unfold State.portErr
  repeat' (first
    | with_reducible assumption | with_reducible exact Kept.refl _ | with_reducible apply State.bump_kept
    | with_reducible apply State.cause_kept | split)

theorem State.refresh_kept {s : State} (h : Kept s0 s) (a : Nat) : Kept s0 (State.refresh s a) := by
  unfold State.refresh
  repeat' (first
    | with_reducible assumption | with_reducible exact Kept.refl _ | with_reducible apply State.escalate_kept
    | with_reducible apply State.showOp_kept | with_reducible apply kept_ite | with_reducible apply kept_ite1
    | with_reducible apply kept_ite2 | split | with_reducible exact kept_snd ‹_ = _› (by assumption)
    | (with_reducible refine kept_snd ‹_ = (_, _)› ?_) | (with_reducible refine kept_fst ‹_ = (_, _)› ?_)
    | (lift_lets; intro x; first | (refine (fun (hx : Kept s0 x) => ?_) ?_; clear_value x) | clear_value x)
    | (intro x; refine (fun (hx : Kept s0 x) => ?_) ?_; clear_value x) | (intro x; clear_value x) | dsimp only)

theorem State.portRead_kept {s : State} (h : Kept s0 s) (p a : Nat) : Kept s0 (State.portRead s p a).2 := by
  unfold State.portRead
  repeat' (first
    | with_reducible assumption | with_reducible exact Kept.refl _ | with_reducible apply State.latchAt_kept
    | with_reducible apply State.refresh_kept | with_reducible apply State.viewErr_kept | with_reducible apply kept_ite
    | with_reducible apply kept_ite1 | with_reducible apply kept_ite2 | split
    | with_reducible exact kept_snd ‹_ = _› (by assumption) | (with_reducible refine kept_snd ‹_ = (_, _)› ?_)
    | (with_reducible refine kept_fst ‹_ = (_, _)› ?_)
    | (lift_lets; intro x; first | (refine (fun (hx : Kept s0 x) => ?_) ?_; clear_value x) | clear_value x)
    | (intro x; refine (fun (hx : Kept s0 x) => ?_) ?_; clear_value x) | (intro x; clear_value x) | dsimp only)

theorem State.wrDoorbell_kept {s : State} (h : Kept s0 s) (n : Nat) (v : Word) : Kept s0 (State.wrDoorbell s n v) := by
  unfold State.wrDoorbell
  repeat' (first
    | with_reducible assumption | with_reducible exact Kept.refl _ | with_reducible apply State.ctxMod_kept
    | with_reducible apply State.raiseCue_kept | with_reducible apply kept_ite | split)

theorem State.wrCtxImage_kept {s : State} (h : Kept s0 s) (n : Nat) (v : Word) : Kept s0 (State.wrCtxImage s n v) := by
  unfold State.wrCtxImage
  repeat' (first
    | with_reducible assumption | with_reducible exact Kept.refl _ | with_reducible apply State.wr_kept | with_reducible apply kept_ite
    | split)

theorem State.wrCtxWord_kept {s : State} (h : Kept s0 s) (t n a : Nat) (v : Word) : Kept s0 (State.wrCtxWord s t n a v) := by
  unfold State.wrCtxWord
  repeat' (first
    | with_reducible assumption | with_reducible exact Kept.refl _ | with_reducible apply State.wr_kept
    | with_reducible apply State.wrBrsCapture_kept | with_reducible apply State.wrBrsCfg_kept | with_reducible apply State.wrChnAgc_kept
    | with_reducible apply State.wrChnBank_kept | with_reducible apply State.wrChnConfig_kept | with_reducible apply State.wrChnNco_kept
    | with_reducible apply State.wrChnSync_kept | with_reducible apply State.wrCoef_kept | with_reducible apply State.wrCtxImage_kept
    | with_reducible apply State.wrCtxRun_kept | with_reducible apply State.wrDoorbell_kept | with_reducible apply kept_ite | split
    | (lift_lets; intro x; first | (refine (fun (hx : Kept s0 x) => ?_) ?_; clear_value x) | clear_value x)
    | (intro x; refine (fun (hx : Kept s0 x) => ?_) ?_; clear_value x) | (intro x; clear_value x))

theorem State.wrMask_kept {s : State} (h : Kept s0 s) (t : Nat) (v : Word) : Kept s0 (State.wrMask s t v) := by
  unfold State.wrMask
  repeat' (first
    | with_reducible assumption | with_reducible exact Kept.refl _ | with_reducible apply State.pins_kept
    | with_reducible apply State.wr_kept)

theorem State.wrHst_kept {s : State} (h : Kept s0 s) (p t o : Nat) (v : Word) : Kept s0 (State.wrHst s p t o v) := by
  unfold State.wrHst
  repeat' (first
    | with_reducible assumption | with_reducible exact Kept.refl _ | with_reducible apply State.pins_kept
    | with_reducible apply State.tenMod_kept | with_reducible apply State.wr_kept | with_reducible apply State.wrCplHead_kept
    | with_reducible apply State.wrCqTail_kept | with_reducible apply State.wrHstCtrl_kept | with_reducible apply State.wrMask_kept
    | with_reducible apply State.wrSrd_kept | with_reducible apply kept_ite | split)

theorem State.wrBoot_kept {s : State} (h : Kept s0 s) (p a : Nat) (v : Word) : Kept s0 (State.wrBoot s p a v) := by
  unfold State.wrBoot
  repeat' (first
    | with_reducible assumption | with_reducible exact Kept.refl _ | with_reducible apply State.rset_kept
    | with_reducible apply State.wrBootCtrl_kept | with_reducible apply State.wrBootLoad_kept | with_reducible apply kept_ite | split)

theorem State.wrShared_kept {s : State} (h : Kept s0 s) (p a : Nat) (v : Word) : Kept s0 (State.wrShared s p a v) := by
  unfold State.wrShared
  repeat' (first
    | with_reducible assumption | with_reducible exact Kept.refl _ | with_reducible apply State.bkpIssue_kept
    | with_reducible apply State.showPower_kept | with_reducible apply State.unq_kept | with_reducible apply State.wr_kept
    | with_reducible apply State.wrCalCtrl_kept | with_reducible apply State.wrCcsCtrl_kept
    | with_reducible apply State.wrCoast_kept | with_reducible apply State.wrDisc_kept
    | with_reducible apply State.wrFeBias_kept | with_reducible apply State.wrFeCtrl_kept
    | with_reducible apply State.wrFeGain_kept | with_reducible apply State.wrFltCtrl_kept
    | with_reducible apply State.wrFstCtrl_kept | with_reducible apply State.wrHiber_kept
    | with_reducible apply State.wrKeyCtrl_kept | with_reducible apply State.wrLeapAt_kept
    | with_reducible apply State.wrPpso_kept | with_reducible apply State.wrResv_kept
    | with_reducible apply State.wrSnpCtrl_kept | with_reducible apply State.wrTbCtrl_kept
    | with_reducible apply State.wrTwCtrl_kept | with_reducible apply State.wrUtc_kept
    | with_reducible apply State.wrWitCtrl_kept | with_reducible apply kept_ite | with_reducible apply kept_ite1
    | with_reducible apply kept_ite2 | split | with_reducible exact kept_snd ‹_ = _› (by assumption)
    | (with_reducible refine kept_snd ‹_ = (_, _)› ?_) | (with_reducible refine kept_fst ‹_ = (_, _)› ?_)
    | (lift_lets; intro x; first | (refine (fun (hx : Kept s0 x) => ?_) ?_; clear_value x) | clear_value x)
    | (intro x; refine (fun (hx : Kept s0 x) => ?_) ?_; clear_value x) | (intro x; clear_value x) | dsimp only)

theorem State.wrWord_kept {s : State} (h : Kept s0 s) (p t a : Nat) (v : Word) : Kept s0 (State.wrWord s p t a v) := by
  unfold State.wrWord
  repeat' (first
    | with_reducible assumption | with_reducible exact Kept.refl _ | with_reducible apply State.wrBoot_kept
    | with_reducible apply State.wrCtxWord_kept | with_reducible apply State.wrHst_kept | with_reducible apply State.wrShared_kept
    | with_reducible apply kept_ite | split)

theorem State.access_kept {s : State} (h : Kept s0 s) (p a : Nat) (f : Nat → State → State) (hf : ∀ x0 x1, Kept s0 x1 → Kept s0 (f x0 x1)) : Kept s0 (State.access s p a f) := by
  unfold State.access
  repeat' (first
    | with_reducible assumption | with_reducible exact Kept.refl _ | with_reducible apply hf | with_reducible apply State.viewErr_kept
    | with_reducible apply kept_ite | split)

theorem State.portWrite_kept {s : State} (h : Kept s0 s) (p a : Nat) (v : Word) : Kept s0 (State.portWrite s p a v) := by
  unfold State.portWrite
  repeat' (first
    | with_reducible assumption | with_reducible exact Kept.refl _
    | with_reducible refine State.access_kept ?_ _ _ _ (fun x0 x1 k1 => ?_) | with_reducible apply State.wrBoot_kept
    | with_reducible apply State.wrWord_kept | with_reducible apply kept_ite | split)

theorem State.regWrite_kept {s : State} (h : Kept s0 s) (p a t : Nat) (v : Word) : Kept s0 (State.regWrite s p a t v) := by
  unfold State.regWrite
  repeat' (first
    | with_reducible assumption | with_reducible exact Kept.refl _ | with_reducible apply State.at_kept
    | with_reducible apply State.portWrite_kept)

theorem State.ownerWrite_kept {s : State} (h : Kept s0 s) (p a t : Nat) (f : State → State) (hf : ∀ x0, Kept s0 x0 → Kept s0 (f x0)) : Kept s0 (State.ownerWrite s p a t f) := by
  unfold State.ownerWrite
  repeat' (first
    | with_reducible assumption | with_reducible exact Kept.refl _ | with_reducible apply hf
    | with_reducible refine State.access_kept ?_ _ _ _ (fun x0 x1 k1 => ?_) | with_reducible apply State.at_kept
    | with_reducible apply kept_ite | split
    | (lift_lets; intro x; first | (refine (fun (hx : Kept s0 x) => ?_) ?_; clear_value x) | clear_value x)
    | (intro x; refine (fun (hx : Kept s0 x) => ?_) ?_; clear_value x) | (intro x; clear_value x))

theorem execRegisterWrite_kept (p : Fin 4) (a v : Word) (be : BitVec 4) (t raw : Nat) (s : State) : ∃ out, execRegisterWrite p a v be t raw s = .next out ∧ Kept s out := by
  refine ⟨_, rfl, ?_⟩
  have h : Kept s s := Kept.refl s
  repeat' (first
    | with_reducible assumption | with_reducible exact Kept.refl _ | with_reducible apply State.at_kept
    | with_reducible apply State.osc_kept | with_reducible apply State.portErr_kept | with_reducible apply State.portWrite_kept
    | with_reducible apply kept_ite | split
    | (lift_lets; intro x; first | (refine (fun (hx : Kept s x) => ?_) ?_; clear_value x) | clear_value x)
    | (intro x; refine (fun (hx : Kept s x) => ?_) ?_; clear_value x) | (intro x; clear_value x))

theorem execTbLatchRead_kept (p : Fin 4) (t : Nat) (s : State) : ∃ out, execTbLatchRead p t s = .next out ∧ Kept s out := by
  refine ⟨_, rfl, ?_⟩
  have h : Kept s s := Kept.refl s
  repeat' (first
    | with_reducible assumption | with_reducible exact Kept.refl _ | with_reducible apply State.at_kept
    | with_reducible apply State.drive_kept | with_reducible apply State.portRead_kept | with_reducible apply kept_ite
    | with_reducible apply kept_ite1 | with_reducible apply kept_ite2 | split | with_reducible exact kept_snd ‹_ = _› (by assumption)
    | (with_reducible refine kept_snd ‹_ = (_, _)› ?_) | (with_reducible refine kept_fst ‹_ = (_, _)› ?_)
    | (lift_lets; intro x; first | (refine (fun (hx : Kept s x) => ?_) ?_; clear_value x) | clear_value x)
    | (intro x; refine (fun (hx : Kept s x) => ?_) ?_; clear_value x) | (intro x; clear_value x) | dsimp only)

theorem execBkpSecLatchRead_kept (p : Fin 4) (t raw : Nat) (s : State) : ∃ out, execBkpSecLatchRead p t raw s = .next out ∧ Kept s out := by
  refine ⟨_, rfl, ?_⟩
  have h : Kept s s := Kept.refl s
  repeat' (first
    | with_reducible assumption | with_reducible exact Kept.refl _ | with_reducible apply State.at_kept
    | with_reducible apply State.drive_kept | with_reducible apply State.osc_kept | with_reducible apply State.portRead_kept
    | with_reducible apply kept_ite | with_reducible apply kept_ite1 | with_reducible apply kept_ite2 | split
    | with_reducible exact kept_snd ‹_ = _› (by assumption) | (with_reducible refine kept_snd ‹_ = (_, _)› ?_)
    | (with_reducible refine kept_fst ‹_ = (_, _)› ?_)
    | (lift_lets; intro x; first | (refine (fun (hx : Kept s x) => ?_) ?_; clear_value x) | clear_value x)
    | (intro x; refine (fun (hx : Kept s x) => ?_) ?_; clear_value x) | (intro x; clear_value x) | dsimp only)

theorem execBkpCalLatchRead_kept (p : Fin 4) (t raw : Nat) (s : State) : ∃ out, execBkpCalLatchRead p t raw s = .next out ∧ Kept s out := by
  refine ⟨_, rfl, ?_⟩
  have h : Kept s s := Kept.refl s
  repeat' (first
    | with_reducible assumption | with_reducible exact Kept.refl _ | with_reducible apply State.at_kept
    | with_reducible apply State.drive_kept | with_reducible apply State.osc_kept | with_reducible apply State.portRead_kept
    | with_reducible apply kept_ite | with_reducible apply kept_ite1 | with_reducible apply kept_ite2 | split
    | with_reducible exact kept_snd ‹_ = _› (by assumption) | (with_reducible refine kept_snd ‹_ = (_, _)› ?_)
    | (with_reducible refine kept_fst ‹_ = (_, _)› ?_)
    | (lift_lets; intro x; first | (refine (fun (hx : Kept s x) => ?_) ?_; clear_value x) | clear_value x)
    | (intro x; refine (fun (hx : Kept s x) => ?_) ?_; clear_value x) | (intro x; clear_value x) | dsimp only)

theorem execSeStatLatchRead_kept (p : Fin 4) (e : Fin 8) (t : Nat) (s : State) : ∃ out, execSeStatLatchRead p e t s = .next out ∧ Kept s out := by
  refine ⟨_, rfl, ?_⟩
  have h : Kept s s := Kept.refl s
  repeat' (first
    | with_reducible assumption | with_reducible exact Kept.refl _ | with_reducible apply State.at_kept
    | with_reducible apply State.drive_kept | with_reducible apply State.portRead_kept | with_reducible apply kept_ite
    | with_reducible apply kept_ite1 | with_reducible apply kept_ite2 | split | with_reducible exact kept_snd ‹_ = _› (by assumption)
    | (with_reducible refine kept_snd ‹_ = (_, _)› ?_) | (with_reducible refine kept_fst ‹_ = (_, _)› ?_)
    | (lift_lets; intro x; first | (refine (fun (hx : Kept s x) => ?_) ?_; clear_value x) | clear_value x)
    | (intro x; refine (fun (hx : Kept s x) => ?_) ?_; clear_value x) | (intro x; clear_value x) | dsimp only)

theorem execHostLoad_kept (p : Fin 4) (t : Nat) (s : State) : ∃ out, execHostLoad p t s = .next out ∧ Kept s out := by
  refine ⟨_, rfl, ?_⟩
  have h : Kept s s := Kept.refl s
  repeat' (first
    | with_reducible assumption | with_reducible exact Kept.refl _ | with_reducible apply State.regWrite_kept)

theorem execChnConfigWrite_kept (p : Fin 4) (n : Fin 256) (k : Fin 5) (v : Word) (t : Nat) (s : State) : ∃ out, execChnConfigWrite p n k v t s = .next out ∧ Kept s out := by
  refine ⟨_, rfl, ?_⟩
  have h : Kept s s := Kept.refl s
  repeat' (first
    | with_reducible assumption | with_reducible exact Kept.refl _ | with_reducible apply State.regWrite_kept)

theorem execChnNcoWrite_kept (p : Fin 4) (n : Fin 256) (ph : Bool) (v : Word) (t : Nat) (s : State) : ∃ out, execChnNcoWrite p n ph v t s = .next out ∧ Kept s out := by
  refine ⟨_, rfl, ?_⟩
  have h : Kept s s := Kept.refl s
  repeat' (first
    | with_reducible assumption | with_reducible exact Kept.refl _ | with_reducible apply State.regWrite_kept
    | with_reducible apply kept_ite | split)

theorem execChnBankReq_kept (p : Fin 4) (n : Fin 256) (v : Word) (t : Nat) (s : State) : ∃ out, execChnBankReq p n v t s = .next out ∧ Kept s out := by
  refine ⟨_, rfl, ?_⟩
  have h : Kept s s := Kept.refl s
  repeat' (first
    | with_reducible assumption | with_reducible exact Kept.refl _ | with_reducible apply State.regWrite_kept)

theorem execChnAgcWrite_kept (p : Fin 4) (n : Fin 256) (v : Word) (t : Nat) (s : State) : ∃ out, execChnAgcWrite p n v t s = .next out ∧ Kept s out := by
  refine ⟨_, rfl, ?_⟩
  have h : Kept s s := Kept.refl s
  repeat' (first
    | with_reducible assumption | with_reducible exact Kept.refl _ | with_reducible apply State.regWrite_kept)

theorem execChnSyncArm_kept (p : Fin 4) (n : Fin 256) (v : Word) (t : Nat) (s : State) : ∃ out, execChnSyncArm p n v t s = .next out ∧ Kept s out := by
  refine ⟨_, rfl, ?_⟩
  have h : Kept s s := Kept.refl s
  repeat' (first
    | with_reducible assumption | with_reducible exact Kept.refl _ | with_reducible apply State.regWrite_kept)

theorem execCoefWrite_kept (p : Fin 4) (n : Fin 256) (b : Fin 2) (i : Fin 256) (v : Word) (t : Nat) (s : State) : ∃ out, execCoefWrite p n b i v t s = .next out ∧ Kept s out := by
  refine ⟨_, rfl, ?_⟩
  have h : Kept s s := Kept.refl s
  repeat' (first
    | with_reducible assumption | with_reducible exact Kept.refl _ | with_reducible apply State.regWrite_kept)

theorem execCtxDoorbell_kept (p : Fin 4) (n : Fin 256) (v : Word) (t : Nat) (s : State) : ∃ out, execCtxDoorbell p n v t s = .next out ∧ Kept s out := by
  refine ⟨_, rfl, ?_⟩
  have h : Kept s s := Kept.refl s
  repeat' (first
    | with_reducible assumption | with_reducible exact Kept.refl _ | with_reducible apply State.regWrite_kept)

theorem execCtxRunWrite_kept (p : Fin 4) (n : Fin 256) (v : Word) (t : Nat) (s : State) : ∃ out, execCtxRunWrite p n v t s = .next out ∧ Kept s out := by
  refine ⟨_, rfl, ?_⟩
  have h : Kept s s := Kept.refl s
  repeat' (first
    | with_reducible assumption | with_reducible exact Kept.refl _ | with_reducible apply State.regWrite_kept)

theorem execCtxImageWrite_kept (p : Fin 4) (n : Fin 256) (v : Word) (t : Nat) (s : State) : ∃ out, execCtxImageWrite p n v t s = .next out ∧ Kept s out := by
  refine ⟨_, rfl, ?_⟩
  have h : Kept s s := Kept.refl s
  repeat' (first
    | with_reducible assumption | with_reducible exact Kept.refl _ | with_reducible apply State.regWrite_kept)

theorem execBrsCaptureWrite_kept (p : Fin 4) (n : Fin 256) (v : Word) (t : Nat) (s : State) : ∃ out, execBrsCaptureWrite p n v t s = .next out ∧ Kept s out := by
  refine ⟨_, rfl, ?_⟩
  have h : Kept s s := Kept.refl s
  repeat' (first
    | with_reducible assumption | with_reducible exact Kept.refl _ | with_reducible apply State.regWrite_kept)

theorem execCalStart_kept (p : Fin 4) (t : Nat) (s : State) : ∃ out, execCalStart p t s = .next out ∧ Kept s out := by
  refine ⟨_, rfl, ?_⟩
  have h : Kept s s := Kept.refl s
  repeat' (first
    | with_reducible assumption | with_reducible exact Kept.refl _ | with_reducible apply State.regWrite_kept)

theorem execCalSave_kept (p : Fin 4) (t : Nat) (s : State) : ∃ out, execCalSave p t s = .next out ∧ Kept s out := by
  refine ⟨_, rfl, ?_⟩
  have h : Kept s s := Kept.refl s
  repeat' (first
    | with_reducible assumption | with_reducible exact Kept.refl _ | with_reducible apply State.regWrite_kept)

theorem execCalFactory_kept (p : Fin 4) (t : Nat) (s : State) : ∃ out, execCalFactory p t s = .next out ∧ Kept s out := by
  refine ⟨_, rfl, ?_⟩
  have h : Kept s s := Kept.refl s
  repeat' (first
    | with_reducible assumption | with_reducible exact Kept.refl _ | with_reducible apply State.regWrite_kept)

theorem execSeqUnq_kept (p : Fin 4) (eng : BitVec 8) (acc : BitVec 10) (t : Nat) (s : State) : ∃ out, execSeqUnq p eng acc t s = .next out ∧ Kept s out := by
  refine ⟨_, rfl, ?_⟩
  have h : Kept s s := Kept.refl s
  repeat' (first
    | with_reducible assumption | with_reducible exact Kept.refl _ | with_reducible apply State.regWrite_kept)

theorem execKeyEnrol_kept (p : Fin 4) (t : Nat) (s : State) : ∃ out, execKeyEnrol p t s = .next out ∧ Kept s out := by
  refine ⟨_, rfl, ?_⟩
  have h : Kept s s := Kept.refl s
  repeat' (first
    | with_reducible assumption | with_reducible exact Kept.refl _ | with_reducible apply State.regWrite_kept)

theorem execKeyRoll_kept (p : Fin 4) (t : Nat) (s : State) : ∃ out, execKeyRoll p t s = .next out ∧ Kept s out := by
  refine ⟨_, rfl, ?_⟩
  have h : Kept s s := Kept.refl s
  repeat' (first
    | with_reducible assumption | with_reducible exact Kept.refl _ | with_reducible apply State.regWrite_kept)

theorem execKeyRelease_kept (p : Fin 4) (t : Nat) (s : State) : ∃ out, execKeyRelease p t s = .next out ∧ Kept s out := by
  refine ⟨_, rfl, ?_⟩
  have h : Kept s s := Kept.refl s
  repeat' (first
    | with_reducible assumption | with_reducible exact Kept.refl _ | with_reducible apply State.regWrite_kept)

theorem execSnpFire_kept (p : Fin 4) (t : Nat) (s : State) : ∃ out, execSnpFire p t s = .next out ∧ Kept s out := by
  refine ⟨_, rfl, ?_⟩
  have h : Kept s s := Kept.refl s
  repeat' (first
    | with_reducible assumption | with_reducible exact Kept.refl _ | with_reducible apply State.regWrite_kept)

theorem execRawenWrite_kept (p : Fin 4) (en : Bool) (t : Nat) (s : State) : ∃ out, execRawenWrite p en t s = .next out ∧ Kept s out := by
  refine ⟨_, rfl, ?_⟩
  have h : Kept s s := Kept.refl s
  repeat' (first
    | with_reducible assumption | with_reducible exact Kept.refl _ | with_reducible apply State.regWrite_kept)

theorem execFltFailover_kept (p : Fin 4) (t : Nat) (s : State) : ∃ out, execFltFailover p t s = .next out ∧ Kept s out := by
  refine ⟨_, rfl, ?_⟩
  have h : Kept s s := Kept.refl s
  repeat' (first
    | with_reducible assumption | with_reducible exact Kept.refl _ | with_reducible apply State.regWrite_kept)

theorem execFltUnqw_kept (p : Fin 4) (t : Nat) (s : State) : ∃ out, execFltUnqw p t s = .next out ∧ Kept s out := by
  refine ⟨_, rfl, ?_⟩
  have h : Kept s s := Kept.refl s
  repeat' (first
    | with_reducible assumption | with_reducible exact Kept.refl _ | with_reducible apply State.regWrite_kept)

theorem execFltRestart_kept (p : Fin 4) (t : Nat) (s : State) : ∃ out, execFltRestart p t s = .next out ∧ Kept s out := by
  refine ⟨_, rfl, ?_⟩
  have h : Kept s s := Kept.refl s
  repeat' (first
    | with_reducible assumption | with_reducible exact Kept.refl _ | with_reducible apply State.regWrite_kept)

theorem execFltDevreset_kept (p : Fin 4) (t : Nat) (s : State) : ∃ out, execFltDevreset p t s = .next out ∧ Kept s out := by
  refine ⟨_, rfl, ?_⟩
  have h : Kept s s := Kept.refl s
  repeat' (first
    | with_reducible assumption | with_reducible exact Kept.refl _ | with_reducible apply State.regWrite_kept)

theorem execFltAvclr_kept (p : Fin 4) (t : Nat) (s : State) : ∃ out, execFltAvclr p t s = .next out ∧ Kept s out := by
  refine ⟨_, rfl, ?_⟩
  have h : Kept s s := Kept.refl s
  repeat' (first
    | with_reducible assumption | with_reducible exact Kept.refl _ | with_reducible apply State.regWrite_kept)

theorem execFltLogclr_kept (p : Fin 4) (t : Nat) (s : State) : ∃ out, execFltLogclr p t s = .next out ∧ Kept s out := by
  refine ⟨_, rfl, ?_⟩
  have h : Kept s s := Kept.refl s
  repeat' (first
    | with_reducible assumption | with_reducible exact Kept.refl _ | with_reducible apply State.regWrite_kept)

theorem execFstFormat_kept (p : Fin 4) (t : Nat) (s : State) : ∃ out, execFstFormat p t s = .next out ∧ Kept s out := by
  refine ⟨_, rfl, ?_⟩
  have h : Kept s s := Kept.refl s
  repeat' (first
    | with_reducible assumption | with_reducible exact Kept.refl _ | with_reducible apply State.regWrite_kept)

theorem execFstScrubnow_kept (p : Fin 4) (t : Nat) (s : State) : ∃ out, execFstScrubnow p t s = .next out ∧ Kept s out := by
  refine ⟨_, rfl, ?_⟩
  have h : Kept s s := Kept.refl s
  repeat' (first
    | with_reducible assumption | with_reducible exact Kept.refl _ | with_reducible apply State.regWrite_kept)

theorem execLdgHiber_kept (p : Fin 4) (t : Nat) (s : State) : ∃ out, execLdgHiber p t s = .next out ∧ Kept s out := by
  refine ⟨_, rfl, ?_⟩
  have h : Kept s s := Kept.refl s
  repeat' (first
    | with_reducible assumption | with_reducible exact Kept.refl _ | with_reducible apply State.regWrite_kept)

theorem execRingEn_kept (p : Fin 4) (on : Bool) (t : Nat) (s : State) : ∃ out, execRingEn p on t s = .next out ∧ Kept s out := by
  refine ⟨_, rfl, ?_⟩
  have h : Kept s s := Kept.refl s
  repeat' (first
    | with_reducible assumption | with_reducible exact Kept.refl _ | with_reducible apply State.regWrite_kept)

theorem execHstTreset_kept (p : Fin 4) (t : Nat) (s : State) : ∃ out, execHstTreset p t s = .next out ∧ Kept s out := by
  refine ⟨_, rfl, ?_⟩
  have h : Kept s s := Kept.refl s
  repeat' (first
    | with_reducible assumption | with_reducible exact Kept.refl _
    | with_reducible refine State.access_kept ?_ _ _ _ (fun x0 x1 k1 => ?_) | with_reducible apply State.at_kept
    | with_reducible apply State.request_kept | with_reducible apply kept_ite | split
    | (lift_lets; intro x; first | (refine (fun (hx : Kept s x) => ?_) ?_; clear_value x) | clear_value x)
    | (intro x; refine (fun (hx : Kept s x) => ?_) ?_; clear_value x) | (intro x; clear_value x))

theorem execCqTailWrite_kept (p : Fin 4) (i : BitVec 8) (t : Nat) (s : State) : ∃ out, execCqTailWrite p i t s = .next out ∧ Kept s out := by
  refine ⟨_, rfl, ?_⟩
  have h : Kept s s := Kept.refl s
  repeat' (first
    | with_reducible assumption | with_reducible exact Kept.refl _ | with_reducible apply State.regWrite_kept)

theorem execCplHeadWrite_kept (p : Fin 4) (i : BitVec 8) (t : Nat) (s : State) : ∃ out, execCplHeadWrite p i t s = .next out ∧ Kept s out := by
  refine ⟨_, rfl, ?_⟩
  have h : Kept s s := Kept.refl s
  repeat' (first
    | with_reducible assumption | with_reducible exact Kept.refl _ | with_reducible apply State.regWrite_kept)

theorem execSrdWrite_kept (p : Fin 4) (k : Fin 32) (v : Word) (t : Nat) (s : State) : ∃ out, execSrdWrite p k v t s = .next out ∧ Kept s out := by
  refine ⟨_, rfl, ?_⟩
  have h : Kept s s := Kept.refl s
  repeat' (first
    | with_reducible assumption | with_reducible exact Kept.refl _ | with_reducible apply State.regWrite_kept)

theorem execTwClear_kept (p : Fin 4) (b : Fin 2) (freed : Bool) (t : Nat) (s : State) : ∃ out, execTwClear p b freed t s = .next out ∧ Kept s out := by
  refine ⟨_, rfl, ?_⟩
  have h : Kept s s := Kept.refl s
  repeat' (first
    | with_reducible assumption | with_reducible exact Kept.refl _ | with_reducible apply State.clearOnce_kept
    | with_reducible refine State.ownerWrite_kept ?_ _ _ _ _ (fun x0 k0 => ?_))

theorem State.bkpCommand_kept {s : State} (h : Kept s0 s) (p t raw a : Nat) (v : Word) : Kept s0 (State.bkpCommand s p t raw a v) := by
  unfold State.bkpCommand
  repeat' (first
    | with_reducible assumption | with_reducible exact Kept.refl _ | with_reducible apply State.bkpDrain_kept
    | with_reducible apply State.bkpIssue_kept | with_reducible apply State.osc_kept
    | with_reducible refine State.ownerWrite_kept ?_ _ _ _ _ (fun x0 k0 => ?_))

theorem execBkpCapture_kept (p : Fin 4) (t raw : Nat) (s : State) : ∃ out, execBkpCapture p t raw s = .next out ∧ Kept s out := by
  refine ⟨_, rfl, ?_⟩
  have h : Kept s s := Kept.refl s
  repeat' (first
    | with_reducible assumption | with_reducible exact Kept.refl _ | with_reducible apply State.bkpCommand_kept)

theorem execBkpLoad_kept (p : Fin 4) (t raw : Nat) (s : State) : ∃ out, execBkpLoad p t raw s = .next out ∧ Kept s out := by
  refine ⟨_, rfl, ?_⟩
  have h : Kept s s := Kept.refl s
  repeat' (first
    | with_reducible assumption | with_reducible exact Kept.refl _ | with_reducible apply State.bkpCommand_kept)

theorem execBkpLoadcal_kept (p : Fin 4) (t raw : Nat) (s : State) : ∃ out, execBkpLoadcal p t raw s = .next out ∧ Kept s out := by
  refine ⟨_, rfl, ?_⟩
  have h : Kept s s := Kept.refl s
  repeat' (first
    | with_reducible assumption | with_reducible exact Kept.refl _ | with_reducible apply State.bkpCommand_kept)

theorem execPwronClr_kept (p : Fin 4) (t raw : Nat) (s : State) : ∃ out, execPwronClr p t raw s = .next out ∧ Kept s out := by
  refine ⟨_, rfl, ?_⟩
  have h : Kept s s := Kept.refl s
  repeat' (first
    | with_reducible assumption | with_reducible exact Kept.refl _ | with_reducible apply State.bkpCommand_kept)

theorem execBootLoad_kept (p : Fin 4) (n : BitVec 16) (last : Bool) (t : Nat) (s : State) : ∃ out, execBootLoad p n last t s = .next out ∧ Kept s out := by
  refine ⟨_, rfl, ?_⟩
  have h : Kept s s := Kept.refl s
  repeat' (first
    | with_reducible assumption | with_reducible exact Kept.refl _ | with_reducible apply State.regWrite_kept)

theorem execBootGo_kept (p : Fin 4) (t : Nat) (s : State) : ∃ out, execBootGo p t s = .next out ∧ Kept s out := by
  refine ⟨_, rfl, ?_⟩
  have h : Kept s s := Kept.refl s
  repeat' (first
    | with_reducible assumption | with_reducible exact Kept.refl _ | with_reducible apply State.regWrite_kept)

theorem execBootStore_kept (p : Fin 4) (t : Nat) (s : State) : ∃ out, execBootStore p t s = .next out ∧ Kept s out := by
  refine ⟨_, rfl, ?_⟩
  have h : Kept s s := Kept.refl s
  repeat' (first
    | with_reducible assumption | with_reducible exact Kept.refl _ | with_reducible apply State.regWrite_kept)

theorem State.readWords_kept {s : State} (h : Kept s0 s) (p a : Nat) (ts : List Nat) (ws : List Word) : Kept s0 (State.readWords s p a ts ws) := by
  induction ts generalizing s a ws with
  | nil => exact State.drive_kept h _
  | cons t l ih =>
    unfold State.readWords
    dsimp only
    exact ih (State.portRead_kept (kept_ite (State.oscGo_kept (State.at_kept h _)) (State.at_kept h _)) _ _) _ _

theorem State.writeWords_kept {s : State} (h : Kept s0 s) (p a : Nat) (l : List (Nat × Word)) : Kept s0 (State.writeWords s p a l) := by
  induction l generalizing s a with
  | nil => exact h
  | cons q l ih =>
    unfold State.writeWords
    exact ih (State.regWrite_kept h _ _ _ _) _

theorem State.spiRead_kept {s : State} (h : Kept s0 s) (a : Nat) (ts : List Nat) (t raw : Nat) : Kept s0 (State.spiRead s a ts t raw) := by
  unfold State.spiRead
  repeat' (first
    | with_reducible assumption | with_reducible exact Kept.refl _ | with_reducible apply State.at_kept
    | with_reducible apply State.drive_kept | with_reducible apply State.osc_kept | with_reducible apply State.portErr_kept
    | with_reducible apply State.readWords_kept | with_reducible apply kept_ite | with_reducible apply kept_ite1
    | with_reducible apply kept_ite2 | split | with_reducible exact kept_snd ‹_ = _› (by assumption)
    | (with_reducible refine kept_snd ‹_ = (_, _)› ?_) | (with_reducible refine kept_fst ‹_ = (_, _)› ?_)
    | (lift_lets; intro x; first | (refine (fun (hx : Kept s0 x) => ?_) ?_; clear_value x) | clear_value x)
    | (intro x; refine (fun (hx : Kept s0 x) => ?_) ?_; clear_value x) | (intro x; clear_value x) | dsimp only)

theorem State.spiWrite_kept {s : State} (h : Kept s0 s) (a : Nat) (l : List (Nat × Word)) (t raw : Nat) : Kept s0 (State.spiWrite s a l t raw) := by
  unfold State.spiWrite
  repeat' (first
    | with_reducible assumption | with_reducible exact Kept.refl _ | with_reducible apply State.at_kept
    | with_reducible apply State.osc_kept | with_reducible apply State.portErr_kept | with_reducible apply State.writeWords_kept
    | with_reducible apply kept_ite | split
    | (lift_lets; intro x; first | (refine (fun (hx : Kept s0 x) => ?_) ?_; clear_value x) | clear_value x)
    | (intro x; refine (fun (hx : Kept s0 x) => ?_) ?_; clear_value x) | (intro x; clear_value x))

theorem execSpiRead_kept (a : Word) (ts : List Nat) (t raw : Nat) (s : State) : ∃ out, execSpiRead a ts t raw s = .next out ∧ Kept s out := by
  refine ⟨_, rfl, ?_⟩
  have h : Kept s s := Kept.refl s
  repeat' (first
    | with_reducible assumption | with_reducible exact Kept.refl _ | with_reducible apply State.spiRead_kept)

theorem execSpiQuadRead_kept (a : Word) (ts : List Nat) (t raw : Nat) (s : State) : ∃ out, execSpiQuadRead a ts t raw s = .next out ∧ Kept s out := by
  refine ⟨_, rfl, ?_⟩
  have h : Kept s s := Kept.refl s
  repeat' (first
    | with_reducible assumption | with_reducible exact Kept.refl _ | with_reducible apply State.spiRead_kept)

theorem execSpiWrite_kept (a : Word) (l : List (Nat × Word)) (t raw : Nat) (s : State) : ∃ out, execSpiWrite a l t raw s = .next out ∧ Kept s out := by
  refine ⟨_, rfl, ?_⟩
  have h : Kept s s := Kept.refl s
  repeat' (first
    | with_reducible assumption | with_reducible exact Kept.refl _ | with_reducible apply State.spiWrite_kept)

theorem execSpiQuadWrite_kept (a : Word) (l : List (Nat × Word)) (t raw : Nat) (s : State) : ∃ out, execSpiQuadWrite a l t raw s = .next out ∧ Kept s out := by
  refine ⟨_, rfl, ?_⟩
  have h : Kept s s := Kept.refl s
  repeat' (first
    | with_reducible assumption | with_reducible exact Kept.refl _ | with_reducible apply State.spiWrite_kept)

theorem State.driveBytes_kept {s : State} (h : Kept s0 s) (l : List Byte) : Kept s0 (State.driveBytes s l) := by
  unfold State.driveBytes
  repeat' (first
    | with_reducible assumption | with_reducible exact Kept.refl _ | exact id | with_reducible exact rfl
    | with_reducible exact Nat.le_refl _ | with_reducible exact modifyAt_length _ _ _ | with_reducible exact List.length_map _
    | ((with_reducible refine (id ?_ : (_ : Nat) = _)); exact rfl) | with_reducible refine Kept.upd ?_ ?_ ?_ ?_ ?_ ?_ ?_ ?_)

theorem execSpiStatus_kept (t : Nat) (s : State) : ∃ out, execSpiStatus t s = .next out ∧ Kept s out := by
  refine ⟨_, rfl, ?_⟩
  have h : Kept s s := Kept.refl s
  repeat' (first
    | with_reducible assumption | with_reducible exact Kept.refl _ | with_reducible apply State.at_kept
    | with_reducible apply State.driveBytes_kept | with_reducible apply kept_ite | split
    | (lift_lets; intro x; first | (refine (fun (hx : Kept s x) => ?_) ?_; clear_value x) | clear_value x)
    | (intro x; refine (fun (hx : Kept s x) => ?_) ?_; clear_value x) | (intro x; clear_value x))

theorem execSpiUnknownOpcode_kept (t : Nat) (s : State) : ∃ out, execSpiUnknownOpcode t s = .next out ∧ Kept s out := by
  refine ⟨_, rfl, ?_⟩
  have h : Kept s s := Kept.refl s
  repeat' (first
    | with_reducible assumption | with_reducible exact Kept.refl _ | with_reducible apply State.at_kept
    | with_reducible apply State.portErr_kept | with_reducible apply kept_ite | split
    | (lift_lets; intro x; first | (refine (fun (hx : Kept s x) => ?_) ?_; clear_value x) | clear_value x)
    | (intro x; refine (fun (hx : Kept s x) => ?_) ?_; clear_value x) | (intro x; clear_value x))

theorem execTwaWriteTransfer_kept (l : List (Nat × Byte)) (t raw : Nat) (s : State) : ∃ out, execTwaWriteTransfer l t raw s = .next out ∧ Kept s out := by
  refine ⟨_, rfl, ?_⟩
  have h : Kept s s := Kept.refl s
  repeat' (first
    | with_reducible assumption | with_reducible exact Kept.refl _ | with_reducible apply State.at_kept
    | with_reducible apply State.busMod_kept | with_reducible apply State.osc_kept
    | with_reducible apply State.startSeen_kept | with_reducible apply State.writeWords_kept | with_reducible apply kept_ite
    | with_reducible apply kept_ite1 | with_reducible apply kept_ite2 | split
    | with_reducible exact kept_snd ‹_ = _› (by assumption) | (with_reducible refine kept_snd ‹_ = (_, _)› ?_)
    | (with_reducible refine kept_fst ‹_ = (_, _)› ?_)
    | (lift_lets; intro x; first | (refine (fun (hx : Kept s x) => ?_) ?_; clear_value x) | clear_value x)
    | (intro x; refine (fun (hx : Kept s x) => ?_) ?_; clear_value x) | (intro x; clear_value x) | dsimp only)

theorem execTwaReadTransfer_kept (ts : List Nat) (t raw : Nat) (s : State) : ∃ out, execTwaReadTransfer ts t raw s = .next out ∧ Kept s out := by
  refine ⟨_, rfl, ?_⟩
  have h : Kept s s := Kept.refl s
  repeat' (first
    | with_reducible assumption | with_reducible exact Kept.refl _ | with_reducible apply State.at_kept
    | with_reducible apply State.osc_kept | with_reducible apply State.readWords_kept
    | with_reducible apply State.startSeen_kept | with_reducible apply kept_ite | with_reducible apply kept_ite1
    | with_reducible apply kept_ite2 | split | with_reducible exact kept_snd ‹_ = _› (by assumption)
    | (with_reducible refine kept_snd ‹_ = (_, _)› ?_) | (with_reducible refine kept_fst ‹_ = (_, _)› ?_)
    | (lift_lets; intro x; first | (refine (fun (hx : Kept s x) => ?_) ?_; clear_value x) | clear_value x)
    | (intro x; refine (fun (hx : Kept s x) => ?_) ?_; clear_value x) | (intro x; clear_value x) | dsimp only)

end Sys2Proof.Laws
end

