-- ==== Sys2Proof/Laws/KeptCharges.lean ====
section
/-!
SUPPORT. What the operations of Machine/Charges.lean keep.
-/

namespace Sys2Proof.Laws

open Sys2Proof.Machine


variable {s0 : State}


end Sys2Proof.Laws
end

