-- ==== Sys2Proof/Laws/KeptJtag.lean ====
section
/-!
SUPPORT. What the operations of Machine/Jtag.lean keep.
-/

set_option linter.all false

namespace Sys2Proof.Laws

open Sys2Proof.Machine


variable {s0 : State}

theorem State.jtagMod_kept {s : State} (h : Kept s0 s) (f : JtagS → JtagS) : Kept s0 (State.jtagMod s f) := by
  unfold State.jtagMod
  repeat' (first
    | with_reducible assumption | with_reducible exact Kept.refl _ | exact id | with_reducible exact rfl
    | with_reducible exact Nat.le_refl _ | with_reducible exact modifyAt_length _ _ _ | with_reducible exact List.length_map _
    | ((with_reducible refine (id ?_ : (_ : Nat) = _)); exact rfl) | with_reducible refine Kept.upd ?_ ?_ ?_ ?_ ?_ ?_ ?_ ?_)

theorem State.bypass_kept {s : State} (h : Kept s0 s) (d : List Bool) : Kept s0 (State.bypass s d) := by
  unfold State.bypass
  repeat' (first
    | with_reducible assumption | with_reducible exact Kept.refl _ | with_reducible apply State.jtagMod_kept)

theorem execJtagBypass_kept (d : List Bool) (s : State) : ∃ out, execJtagBypass d s = .next out ∧ Kept s out := by
  refine ⟨_, rfl, ?_⟩
  have h : Kept s s := Kept.refl s
  repeat' (first
    | with_reducible assumption | with_reducible exact Kept.refl _ | with_reducible apply State.bypass_kept)

theorem execJtagIdcode_kept (d : List Bool) (s : State) : ∃ out, execJtagIdcode d s = .next out ∧ Kept s out := by
  refine ⟨_, rfl, ?_⟩
  have h : Kept s s := Kept.refl s
  repeat' (first
    | with_reducible assumption | with_reducible exact Kept.refl _ | with_reducible apply State.jtagMod_kept)

theorem State.sample_kept {s : State} (h : Kept s0 s) (pins d : List Bool) (drive : Bool) : Kept s0 (State.sample s pins d drive) := by
  unfold State.sample
  repeat' (first
    | with_reducible assumption | with_reducible exact Kept.refl _ | with_reducible apply State.drive_kept
    | with_reducible apply State.jtagMod_kept | with_reducible apply State.pins_kept)

theorem execJtagSamplePreload_kept (pins d : List Bool) (s : State) : ∃ out, execJtagSamplePreload pins d s = .next out ∧ Kept s out := by
  refine ⟨_, rfl, ?_⟩
  have h : Kept s s := Kept.refl s
  repeat' (first
    | with_reducible assumption | with_reducible exact Kept.refl _ | with_reducible apply State.pins_kept
    | with_reducible apply State.sample_kept)

theorem execJtagExtest_kept (pins d : List Bool) (s : State) : ∃ out, execJtagExtest pins d s = .next out ∧ Kept s out := by
  refine ⟨_, rfl, ?_⟩
  have h : Kept s s := Kept.refl s
  repeat' (first
    | with_reducible assumption | with_reducible exact Kept.refl _ | with_reducible apply State.pins_kept
    | with_reducible apply State.sample_kept)

theorem execJtagUnlock_kept (b : List Byte) (t : Nat) (s : State) : ∃ out, execJtagUnlock b t s = .next out ∧ Kept s out := by
  refine ⟨_, rfl, ?_⟩
  have h : Kept s s := Kept.refl s
  repeat' (first
    | with_reducible assumption | with_reducible exact Kept.refl _ | with_reducible apply State.at_kept
    | with_reducible apply State.drbg_kept | with_reducible apply State.driveBytes_kept | with_reducible apply State.jtagMod_kept
    | with_reducible apply State.portHost_kept | with_reducible apply State.proofMade_kept | with_reducible apply kept_ite
    | with_reducible apply kept_ite1 | with_reducible apply kept_ite2 | split | with_reducible exact kept_snd ‹_ = _› (by assumption)
    | (with_reducible refine kept_snd ‹_ = (_, _)› ?_) | (with_reducible refine kept_fst ‹_ = (_, _)› ?_)
    | (lift_lets; intro x; first | (refine (fun (hx : Kept s x) => ?_) ?_; clear_value x) | clear_value x)
    | (intro x; refine (fun (hx : Kept s x) => ?_) ?_; clear_value x) | (intro x; clear_value x) | dsimp only)

theorem execJtagDebug_kept (d : List Bool) (acc : Option (Word × Option Word)) (t raw : Nat) (s : State) : ∃ out, execJtagDebug d acc t raw s = .next out ∧ Kept s out := by
  refine ⟨_, rfl, ?_⟩
  have h : Kept s s := Kept.refl s
  repeat' (first
    | with_reducible assumption | with_reducible exact Kept.refl _ | with_reducible apply State.at_kept
    | with_reducible apply State.bypass_kept | with_reducible apply State.drive_kept | with_reducible apply State.jtagMod_kept
    | with_reducible apply State.latchAt_kept | with_reducible apply State.refresh_kept | with_reducible apply State.osc_kept
    | with_reducible apply State.wr_kept | with_reducible apply kept_ite | split
    | (lift_lets; intro x; first | (refine (fun (hx : Kept s x) => ?_) ?_; clear_value x) | clear_value x)
    | (intro x; refine (fun (hx : Kept s x) => ?_) ?_; clear_value x) | (intro x; clear_value x) | dsimp only)

theorem execJtagTrst_kept  (s : State) : ∃ out, execJtagTrst s = .next out ∧ Kept s out := by
  refine ⟨_, rfl, ?_⟩
  have h : Kept s s := Kept.refl s
  repeat' (first
    | with_reducible assumption | with_reducible exact Kept.refl _ | with_reducible apply State.endProofOn_kept
    | with_reducible apply State.jtagMod_kept)

end Sys2Proof.Laws
end

