-- ==== Sys2Proof/Laws/KeptScalar.lean ====
section
/-!
SUPPORT. What the operations of Machine/Scalar.lean keep.
-/

set_option linter.all false

namespace Sys2Proof.Laws

open Sys2Proof.Machine


variable {s0 : State}

theorem State.sss_kept {s : State} (h : Kept s0 s) (e : Nat) (pr : Bool) (cost d a b : Nat) (f : Word → Word → Word) : Kept s0 (State.sss s e pr cost d a b f) := by
  unfold State.sss
  repeat' (first
    | with_reducible assumption | with_reducible exact Kept.refl _
    | with_reducible refine State.instr_kept ?_ _ _ _ _ _ (fun v r hv hr => ?_) | with_reducible exact okS_err _
    | with_reducible exact okF_err _ | with_reducible refine okS_ok ?_ (fun hr => ?_) | with_reducible refine okF_ok (fun hr => ?_)
    | with_reducible exact setS_sized hr.1 _ _ | split | exact hr.1 | exact hr | exact ⟨hr.1, hr.2⟩ | exact ⟨setS_sized hr.1 _ _, hr.2⟩
    | exact ⟨setP_sized hr.1 _ _, hr.2⟩ | exact ⟨setPair_sized hr.1 _ _ _, hr.2⟩ | exact ⟨setV_sized hr.1 _ _, hr.2⟩
    | exact ⟨setA_sized hr.1 _ _, hr.2⟩)

theorem State.ss_kept {s : State} (h : Kept s0 s) (e : Nat) (pr : Bool) (cost d a : Nat) (f : Word → Word) : Kept s0 (State.ss s e pr cost d a f) := by
  unfold State.ss
  repeat' (first
    | with_reducible assumption | with_reducible exact Kept.refl _
    | with_reducible refine State.instr_kept ?_ _ _ _ _ _ (fun v r hv hr => ?_) | with_reducible exact okS_err _
    | with_reducible exact okF_err _ | with_reducible refine okS_ok ?_ (fun hr => ?_) | with_reducible refine okF_ok (fun hr => ?_)
    | with_reducible exact setS_sized hr.1 _ _ | split | exact hr.1 | exact hr | exact ⟨hr.1, hr.2⟩ | exact ⟨setS_sized hr.1 _ _, hr.2⟩
    | exact ⟨setP_sized hr.1 _ _, hr.2⟩ | exact ⟨setPair_sized hr.1 _ _ _, hr.2⟩ | exact ⟨setV_sized hr.1 _ _, hr.2⟩
    | exact ⟨setA_sized hr.1 _ _, hr.2⟩)

theorem State.ppp_kept {s : State} (h : Kept s0 s) (e : Nat) (pr : Bool) (d a b : Nat) (f : Word → Word → Word) : Kept s0 (State.ppp s e pr d a b f) := by
  unfold State.ppp
  repeat' (first
    | with_reducible assumption | with_reducible exact Kept.refl _
    | with_reducible refine State.instr_kept ?_ _ _ _ _ _ (fun v r hv hr => ?_) | with_reducible exact okS_err _
    | with_reducible exact okF_err _ | with_reducible refine okS_ok ?_ (fun hr => ?_) | with_reducible refine okF_ok (fun hr => ?_)
    | with_reducible exact setS_sized hr.1 _ _ | split | exact hr.1 | exact hr | exact ⟨hr.1, hr.2⟩ | exact ⟨setS_sized hr.1 _ _, hr.2⟩
    | exact ⟨setP_sized hr.1 _ _, hr.2⟩ | exact ⟨setPair_sized hr.1 _ _ _, hr.2⟩ | exact ⟨setV_sized hr.1 _ _, hr.2⟩
    | exact ⟨setA_sized hr.1 _ _, hr.2⟩)

theorem execAdd_kept (e : Fin 8) (pr : Bool) (d a b : Fin 32) (s : State) : ∃ out, execAdd e pr d a b s = .next out ∧ Kept s out := by
  refine ⟨_, rfl, ?_⟩
  have h : Kept s s := Kept.refl s
  repeat' (first
    | with_reducible assumption | with_reducible exact Kept.refl _ | with_reducible apply State.sss_kept
    | with_reducible exact okS_err _ | with_reducible exact okF_err _ | with_reducible refine okS_ok ?_ (fun hr => ?_)
    | with_reducible refine okF_ok (fun hr => ?_) | with_reducible exact setS_sized hr.1 _ _ | split | exact hr.1 | exact hr
    | exact ⟨hr.1, hr.2⟩ | exact ⟨setS_sized hr.1 _ _, hr.2⟩ | exact ⟨setP_sized hr.1 _ _, hr.2⟩
    | exact ⟨setPair_sized hr.1 _ _ _, hr.2⟩ | exact ⟨setV_sized hr.1 _ _, hr.2⟩ | exact ⟨setA_sized hr.1 _ _, hr.2⟩)

theorem execSub_kept (e : Fin 8) (pr : Bool) (d a b : Fin 32) (s : State) : ∃ out, execSub e pr d a b s = .next out ∧ Kept s out := by
  refine ⟨_, rfl, ?_⟩
  have h : Kept s s := Kept.refl s
  repeat' (first
    | with_reducible assumption | with_reducible exact Kept.refl _ | with_reducible apply State.sss_kept
    | with_reducible exact okS_err _ | with_reducible exact okF_err _ | with_reducible refine okS_ok ?_ (fun hr => ?_)
    | with_reducible refine okF_ok (fun hr => ?_) | with_reducible exact setS_sized hr.1 _ _ | split | exact hr.1 | exact hr
    | exact ⟨hr.1, hr.2⟩ | exact ⟨setS_sized hr.1 _ _, hr.2⟩ | exact ⟨setP_sized hr.1 _ _, hr.2⟩
    | exact ⟨setPair_sized hr.1 _ _ _, hr.2⟩ | exact ⟨setV_sized hr.1 _ _, hr.2⟩ | exact ⟨setA_sized hr.1 _ _, hr.2⟩)

theorem execAndI_kept (e : Fin 8) (pr : Bool) (d a b : Fin 32) (s : State) : ∃ out, execAndI e pr d a b s = .next out ∧ Kept s out := by
  refine ⟨_, rfl, ?_⟩
  have h : Kept s s := Kept.refl s
  repeat' (first
    | with_reducible assumption | with_reducible exact Kept.refl _ | with_reducible apply State.sss_kept
    | with_reducible exact okS_err _ | with_reducible exact okF_err _ | with_reducible refine okS_ok ?_ (fun hr => ?_)
    | with_reducible refine okF_ok (fun hr => ?_) | with_reducible exact setS_sized hr.1 _ _ | split | exact hr.1 | exact hr
    | exact ⟨hr.1, hr.2⟩ | exact ⟨setS_sized hr.1 _ _, hr.2⟩ | exact ⟨setP_sized hr.1 _ _, hr.2⟩
    | exact ⟨setPair_sized hr.1 _ _ _, hr.2⟩ | exact ⟨setV_sized hr.1 _ _, hr.2⟩ | exact ⟨setA_sized hr.1 _ _, hr.2⟩)

theorem execOrI_kept (e : Fin 8) (pr : Bool) (d a b : Fin 32) (s : State) : ∃ out, execOrI e pr d a b s = .next out ∧ Kept s out := by
  refine ⟨_, rfl, ?_⟩
  have h : Kept s s := Kept.refl s
  repeat' (first
    | with_reducible assumption | with_reducible exact Kept.refl _ | with_reducible apply State.sss_kept
    | with_reducible exact okS_err _ | with_reducible exact okF_err _ | with_reducible refine okS_ok ?_ (fun hr => ?_)
    | with_reducible refine okF_ok (fun hr => ?_) | with_reducible exact setS_sized hr.1 _ _ | split | exact hr.1 | exact hr
    | exact ⟨hr.1, hr.2⟩ | exact ⟨setS_sized hr.1 _ _, hr.2⟩ | exact ⟨setP_sized hr.1 _ _, hr.2⟩
    | exact ⟨setPair_sized hr.1 _ _ _, hr.2⟩ | exact ⟨setV_sized hr.1 _ _, hr.2⟩ | exact ⟨setA_sized hr.1 _ _, hr.2⟩)

theorem execXorI_kept (e : Fin 8) (pr : Bool) (d a b : Fin 32) (s : State) : ∃ out, execXorI e pr d a b s = .next out ∧ Kept s out := by
  refine ⟨_, rfl, ?_⟩
  have h : Kept s s := Kept.refl s
  repeat' (first
    | with_reducible assumption | with_reducible exact Kept.refl _ | with_reducible apply State.sss_kept
    | with_reducible exact okS_err _ | with_reducible exact okF_err _ | with_reducible refine okS_ok ?_ (fun hr => ?_)
    | with_reducible refine okF_ok (fun hr => ?_) | with_reducible exact setS_sized hr.1 _ _ | split | exact hr.1 | exact hr
    | exact ⟨hr.1, hr.2⟩ | exact ⟨setS_sized hr.1 _ _, hr.2⟩ | exact ⟨setP_sized hr.1 _ _, hr.2⟩
    | exact ⟨setPair_sized hr.1 _ _ _, hr.2⟩ | exact ⟨setV_sized hr.1 _ _, hr.2⟩ | exact ⟨setA_sized hr.1 _ _, hr.2⟩)

theorem execSll_kept (e : Fin 8) (pr : Bool) (d a b : Fin 32) (s : State) : ∃ out, execSll e pr d a b s = .next out ∧ Kept s out := by
  refine ⟨_, rfl, ?_⟩
  have h : Kept s s := Kept.refl s
  repeat' (first
    | with_reducible assumption | with_reducible exact Kept.refl _ | with_reducible apply State.sss_kept
    | with_reducible exact okS_err _ | with_reducible exact okF_err _ | with_reducible refine okS_ok ?_ (fun hr => ?_)
    | with_reducible refine okF_ok (fun hr => ?_) | with_reducible exact setS_sized hr.1 _ _ | split | exact hr.1 | exact hr
    | exact ⟨hr.1, hr.2⟩ | exact ⟨setS_sized hr.1 _ _, hr.2⟩ | exact ⟨setP_sized hr.1 _ _, hr.2⟩
    | exact ⟨setPair_sized hr.1 _ _ _, hr.2⟩ | exact ⟨setV_sized hr.1 _ _, hr.2⟩ | exact ⟨setA_sized hr.1 _ _, hr.2⟩)

theorem execSrl_kept (e : Fin 8) (pr : Bool) (d a b : Fin 32) (s : State) : ∃ out, execSrl e pr d a b s = .next out ∧ Kept s out := by
  refine ⟨_, rfl, ?_⟩
  have h : Kept s s := Kept.refl s
  repeat' (first
    | with_reducible assumption | with_reducible exact Kept.refl _ | with_reducible apply State.sss_kept
    | with_reducible exact okS_err _ | with_reducible exact okF_err _ | with_reducible refine okS_ok ?_ (fun hr => ?_)
    | with_reducible refine okF_ok (fun hr => ?_) | with_reducible exact setS_sized hr.1 _ _ | split | exact hr.1 | exact hr
    | exact ⟨hr.1, hr.2⟩ | exact ⟨setS_sized hr.1 _ _, hr.2⟩ | exact ⟨setP_sized hr.1 _ _, hr.2⟩
    | exact ⟨setPair_sized hr.1 _ _ _, hr.2⟩ | exact ⟨setV_sized hr.1 _ _, hr.2⟩ | exact ⟨setA_sized hr.1 _ _, hr.2⟩)

theorem execSra_kept (e : Fin 8) (pr : Bool) (d a b : Fin 32) (s : State) : ∃ out, execSra e pr d a b s = .next out ∧ Kept s out := by
  refine ⟨_, rfl, ?_⟩
  have h : Kept s s := Kept.refl s
  repeat' (first
    | with_reducible assumption | with_reducible exact Kept.refl _ | with_reducible apply State.sss_kept
    | with_reducible exact okS_err _ | with_reducible exact okF_err _ | with_reducible refine okS_ok ?_ (fun hr => ?_)
    | with_reducible refine okF_ok (fun hr => ?_) | with_reducible exact setS_sized hr.1 _ _ | split | exact hr.1 | exact hr
    | exact ⟨hr.1, hr.2⟩ | exact ⟨setS_sized hr.1 _ _, hr.2⟩ | exact ⟨setP_sized hr.1 _ _, hr.2⟩
    | exact ⟨setPair_sized hr.1 _ _ _, hr.2⟩ | exact ⟨setV_sized hr.1 _ _, hr.2⟩ | exact ⟨setA_sized hr.1 _ _, hr.2⟩)

theorem execSlt_kept (e : Fin 8) (pr : Bool) (d a b : Fin 32) (s : State) : ∃ out, execSlt e pr d a b s = .next out ∧ Kept s out := by
  refine ⟨_, rfl, ?_⟩
  have h : Kept s s := Kept.refl s
  repeat' (first
    | with_reducible assumption | with_reducible exact Kept.refl _ | with_reducible apply State.sss_kept
    | with_reducible exact okS_err _ | with_reducible exact okF_err _ | with_reducible refine okS_ok ?_ (fun hr => ?_)
    | with_reducible refine okF_ok (fun hr => ?_) | with_reducible exact setS_sized hr.1 _ _ | split | exact hr.1 | exact hr
    | exact ⟨hr.1, hr.2⟩ | exact ⟨setS_sized hr.1 _ _, hr.2⟩ | exact ⟨setP_sized hr.1 _ _, hr.2⟩
    | exact ⟨setPair_sized hr.1 _ _ _, hr.2⟩ | exact ⟨setV_sized hr.1 _ _, hr.2⟩ | exact ⟨setA_sized hr.1 _ _, hr.2⟩)

theorem execSltu_kept (e : Fin 8) (pr : Bool) (d a b : Fin 32) (s : State) : ∃ out, execSltu e pr d a b s = .next out ∧ Kept s out := by
  refine ⟨_, rfl, ?_⟩
  have h : Kept s s := Kept.refl s
  repeat' (first
    | with_reducible assumption | with_reducible exact Kept.refl _ | with_reducible apply State.sss_kept
    | with_reducible exact okS_err _ | with_reducible exact okF_err _ | with_reducible refine okS_ok ?_ (fun hr => ?_)
    | with_reducible refine okF_ok (fun hr => ?_) | with_reducible exact setS_sized hr.1 _ _ | split | exact hr.1 | exact hr
    | exact ⟨hr.1, hr.2⟩ | exact ⟨setS_sized hr.1 _ _, hr.2⟩ | exact ⟨setP_sized hr.1 _ _, hr.2⟩
    | exact ⟨setPair_sized hr.1 _ _ _, hr.2⟩ | exact ⟨setV_sized hr.1 _ _, hr.2⟩ | exact ⟨setA_sized hr.1 _ _, hr.2⟩)

theorem execSeqI_kept (e : Fin 8) (pr : Bool) (d a b : Fin 32) (s : State) : ∃ out, execSeqI e pr d a b s = .next out ∧ Kept s out := by
  refine ⟨_, rfl, ?_⟩
  have h : Kept s s := Kept.refl s
  repeat' (first
    | with_reducible assumption | with_reducible exact Kept.refl _ | with_reducible apply State.sss_kept
    | with_reducible exact okS_err _ | with_reducible exact okF_err _ | with_reducible refine okS_ok ?_ (fun hr => ?_)
    | with_reducible refine okF_ok (fun hr => ?_) | with_reducible exact setS_sized hr.1 _ _ | split | exact hr.1 | exact hr
    | exact ⟨hr.1, hr.2⟩ | exact ⟨setS_sized hr.1 _ _, hr.2⟩ | exact ⟨setP_sized hr.1 _ _, hr.2⟩
    | exact ⟨setPair_sized hr.1 _ _ _, hr.2⟩ | exact ⟨setV_sized hr.1 _ _, hr.2⟩ | exact ⟨setA_sized hr.1 _ _, hr.2⟩)

theorem execMinI_kept (e : Fin 8) (pr : Bool) (d a b : Fin 32) (s : State) : ∃ out, execMinI e pr d a b s = .next out ∧ Kept s out := by
  refine ⟨_, rfl, ?_⟩
  have h : Kept s s := Kept.refl s
  repeat' (first
    | with_reducible assumption | with_reducible exact Kept.refl _ | with_reducible apply State.sss_kept | with_reducible apply kept_ite
    | with_reducible exact okS_err _ | with_reducible exact okF_err _ | with_reducible refine okS_ok ?_ (fun hr => ?_)
    | with_reducible refine okF_ok (fun hr => ?_) | with_reducible exact setS_sized hr.1 _ _ | split | exact hr.1 | exact hr
    | exact ⟨hr.1, hr.2⟩ | exact ⟨setS_sized hr.1 _ _, hr.2⟩ | exact ⟨setP_sized hr.1 _ _, hr.2⟩
    | exact ⟨setPair_sized hr.1 _ _ _, hr.2⟩ | exact ⟨setV_sized hr.1 _ _, hr.2⟩ | exact ⟨setA_sized hr.1 _ _, hr.2⟩)

theorem execMaxI_kept (e : Fin 8) (pr : Bool) (d a b : Fin 32) (s : State) : ∃ out, execMaxI e pr d a b s = .next out ∧ Kept s out := by
  refine ⟨_, rfl, ?_⟩
  have h : Kept s s := Kept.refl s
  repeat' (first
    | with_reducible assumption | with_reducible exact Kept.refl _ | with_reducible apply State.sss_kept | with_reducible apply kept_ite
    | with_reducible exact okS_err _ | with_reducible exact okF_err _ | with_reducible refine okS_ok ?_ (fun hr => ?_)
    | with_reducible refine okF_ok (fun hr => ?_) | with_reducible exact setS_sized hr.1 _ _ | split | exact hr.1 | exact hr
    | exact ⟨hr.1, hr.2⟩ | exact ⟨setS_sized hr.1 _ _, hr.2⟩ | exact ⟨setP_sized hr.1 _ _, hr.2⟩
    | exact ⟨setPair_sized hr.1 _ _ _, hr.2⟩ | exact ⟨setV_sized hr.1 _ _, hr.2⟩ | exact ⟨setA_sized hr.1 _ _, hr.2⟩)

theorem execMinu_kept (e : Fin 8) (pr : Bool) (d a b : Fin 32) (s : State) : ∃ out, execMinu e pr d a b s = .next out ∧ Kept s out := by
  refine ⟨_, rfl, ?_⟩
  have h : Kept s s := Kept.refl s
  repeat' (first
    | with_reducible assumption | with_reducible exact Kept.refl _ | with_reducible apply State.sss_kept | with_reducible apply kept_ite
    | with_reducible exact okS_err _ | with_reducible exact okF_err _ | with_reducible refine okS_ok ?_ (fun hr => ?_)
    | with_reducible refine okF_ok (fun hr => ?_) | with_reducible exact setS_sized hr.1 _ _ | split | exact hr.1 | exact hr
    | exact ⟨hr.1, hr.2⟩ | exact ⟨setS_sized hr.1 _ _, hr.2⟩ | exact ⟨setP_sized hr.1 _ _, hr.2⟩
    | exact ⟨setPair_sized hr.1 _ _ _, hr.2⟩ | exact ⟨setV_sized hr.1 _ _, hr.2⟩ | exact ⟨setA_sized hr.1 _ _, hr.2⟩)

theorem execMaxu_kept (e : Fin 8) (pr : Bool) (d a b : Fin 32) (s : State) : ∃ out, execMaxu e pr d a b s = .next out ∧ Kept s out := by
  refine ⟨_, rfl, ?_⟩
  have h : Kept s s := Kept.refl s
  repeat' (first
    | with_reducible assumption | with_reducible exact Kept.refl _ | with_reducible apply State.sss_kept | with_reducible apply kept_ite
    | with_reducible exact okS_err _ | with_reducible exact okF_err _ | with_reducible refine okS_ok ?_ (fun hr => ?_)
    | with_reducible refine okF_ok (fun hr => ?_) | with_reducible exact setS_sized hr.1 _ _ | split | exact hr.1 | exact hr
    | exact ⟨hr.1, hr.2⟩ | exact ⟨setS_sized hr.1 _ _, hr.2⟩ | exact ⟨setP_sized hr.1 _ _, hr.2⟩
    | exact ⟨setPair_sized hr.1 _ _ _, hr.2⟩ | exact ⟨setV_sized hr.1 _ _, hr.2⟩ | exact ⟨setA_sized hr.1 _ _, hr.2⟩)

theorem execMul_kept (e : Fin 8) (pr : Bool) (d a b : Fin 32) (s : State) : ∃ out, execMul e pr d a b s = .next out ∧ Kept s out := by
  refine ⟨_, rfl, ?_⟩
  have h : Kept s s := Kept.refl s
  repeat' (first
    | with_reducible assumption | with_reducible exact Kept.refl _ | with_reducible apply State.sss_kept
    | with_reducible exact okS_err _ | with_reducible exact okF_err _ | with_reducible refine okS_ok ?_ (fun hr => ?_)
    | with_reducible refine okF_ok (fun hr => ?_) | with_reducible exact setS_sized hr.1 _ _ | split | exact hr.1 | exact hr
    | exact ⟨hr.1, hr.2⟩ | exact ⟨setS_sized hr.1 _ _, hr.2⟩ | exact ⟨setP_sized hr.1 _ _, hr.2⟩
    | exact ⟨setPair_sized hr.1 _ _ _, hr.2⟩ | exact ⟨setV_sized hr.1 _ _, hr.2⟩ | exact ⟨setA_sized hr.1 _ _, hr.2⟩)

theorem execMulh_kept (e : Fin 8) (pr : Bool) (d a b : Fin 32) (s : State) : ∃ out, execMulh e pr d a b s = .next out ∧ Kept s out := by
  refine ⟨_, rfl, ?_⟩
  have h : Kept s s := Kept.refl s
  repeat' (first
    | with_reducible assumption | with_reducible exact Kept.refl _ | with_reducible apply State.sss_kept
    | with_reducible exact okS_err _ | with_reducible exact okF_err _ | with_reducible refine okS_ok ?_ (fun hr => ?_)
    | with_reducible refine okF_ok (fun hr => ?_) | with_reducible exact setS_sized hr.1 _ _ | split | exact hr.1 | exact hr
    | exact ⟨hr.1, hr.2⟩ | exact ⟨setS_sized hr.1 _ _, hr.2⟩ | exact ⟨setP_sized hr.1 _ _, hr.2⟩
    | exact ⟨setPair_sized hr.1 _ _ _, hr.2⟩ | exact ⟨setV_sized hr.1 _ _, hr.2⟩ | exact ⟨setA_sized hr.1 _ _, hr.2⟩)

theorem execMulhu_kept (e : Fin 8) (pr : Bool) (d a b : Fin 32) (s : State) : ∃ out, execMulhu e pr d a b s = .next out ∧ Kept s out := by
  refine ⟨_, rfl, ?_⟩
  have h : Kept s s := Kept.refl s
  repeat' (first
    | with_reducible assumption | with_reducible exact Kept.refl _ | with_reducible apply State.sss_kept
    | with_reducible exact okS_err _ | with_reducible exact okF_err _ | with_reducible refine okS_ok ?_ (fun hr => ?_)
    | with_reducible refine okF_ok (fun hr => ?_) | with_reducible exact setS_sized hr.1 _ _ | split | exact hr.1 | exact hr
    | exact ⟨hr.1, hr.2⟩ | exact ⟨setS_sized hr.1 _ _, hr.2⟩ | exact ⟨setP_sized hr.1 _ _, hr.2⟩
    | exact ⟨setPair_sized hr.1 _ _ _, hr.2⟩ | exact ⟨setV_sized hr.1 _ _, hr.2⟩ | exact ⟨setA_sized hr.1 _ _, hr.2⟩)

theorem execDivI_kept (e : Fin 8) (pr : Bool) (d a b : Fin 32) (s : State) : ∃ out, execDivI e pr d a b s = .next out ∧ Kept s out := by
  refine ⟨_, rfl, ?_⟩
  have h : Kept s s := Kept.refl s
  repeat' (first
    | with_reducible assumption | with_reducible exact Kept.refl _ | with_reducible apply State.sss_kept
    | with_reducible exact okS_err _ | with_reducible exact okF_err _ | with_reducible refine okS_ok ?_ (fun hr => ?_)
    | with_reducible refine okF_ok (fun hr => ?_) | with_reducible exact setS_sized hr.1 _ _ | split | exact hr.1 | exact hr
    | exact ⟨hr.1, hr.2⟩ | exact ⟨setS_sized hr.1 _ _, hr.2⟩ | exact ⟨setP_sized hr.1 _ _, hr.2⟩
    | exact ⟨setPair_sized hr.1 _ _ _, hr.2⟩ | exact ⟨setV_sized hr.1 _ _, hr.2⟩ | exact ⟨setA_sized hr.1 _ _, hr.2⟩)

theorem execDivu_kept (e : Fin 8) (pr : Bool) (d a b : Fin 32) (s : State) : ∃ out, execDivu e pr d a b s = .next out ∧ Kept s out := by
  refine ⟨_, rfl, ?_⟩
  have h : Kept s s := Kept.refl s
  repeat' (first
    | with_reducible assumption | with_reducible exact Kept.refl _ | with_reducible apply State.sss_kept
    | with_reducible exact okS_err _ | with_reducible exact okF_err _ | with_reducible refine okS_ok ?_ (fun hr => ?_)
    | with_reducible refine okF_ok (fun hr => ?_) | with_reducible exact setS_sized hr.1 _ _ | split | exact hr.1 | exact hr
    | exact ⟨hr.1, hr.2⟩ | exact ⟨setS_sized hr.1 _ _, hr.2⟩ | exact ⟨setP_sized hr.1 _ _, hr.2⟩
    | exact ⟨setPair_sized hr.1 _ _ _, hr.2⟩ | exact ⟨setV_sized hr.1 _ _, hr.2⟩ | exact ⟨setA_sized hr.1 _ _, hr.2⟩)

theorem execRem_kept (e : Fin 8) (pr : Bool) (d a b : Fin 32) (s : State) : ∃ out, execRem e pr d a b s = .next out ∧ Kept s out := by
  refine ⟨_, rfl, ?_⟩
  have h : Kept s s := Kept.refl s
  repeat' (first
    | with_reducible assumption | with_reducible exact Kept.refl _ | with_reducible apply State.sss_kept
    | with_reducible exact okS_err _ | with_reducible exact okF_err _ | with_reducible refine okS_ok ?_ (fun hr => ?_)
    | with_reducible refine okF_ok (fun hr => ?_) | with_reducible exact setS_sized hr.1 _ _ | split | exact hr.1 | exact hr
    | exact ⟨hr.1, hr.2⟩ | exact ⟨setS_sized hr.1 _ _, hr.2⟩ | exact ⟨setP_sized hr.1 _ _, hr.2⟩
    | exact ⟨setPair_sized hr.1 _ _ _, hr.2⟩ | exact ⟨setV_sized hr.1 _ _, hr.2⟩ | exact ⟨setA_sized hr.1 _ _, hr.2⟩)

theorem execRemu_kept (e : Fin 8) (pr : Bool) (d a b : Fin 32) (s : State) : ∃ out, execRemu e pr d a b s = .next out ∧ Kept s out := by
  refine ⟨_, rfl, ?_⟩
  have h : Kept s s := Kept.refl s
  repeat' (first
    | with_reducible assumption | with_reducible exact Kept.refl _ | with_reducible apply State.sss_kept
    | with_reducible exact okS_err _ | with_reducible exact okF_err _ | with_reducible refine okS_ok ?_ (fun hr => ?_)
    | with_reducible refine okF_ok (fun hr => ?_) | with_reducible exact setS_sized hr.1 _ _ | split | exact hr.1 | exact hr
    | exact ⟨hr.1, hr.2⟩ | exact ⟨setS_sized hr.1 _ _, hr.2⟩ | exact ⟨setP_sized hr.1 _ _, hr.2⟩
    | exact ⟨setPair_sized hr.1 _ _ _, hr.2⟩ | exact ⟨setV_sized hr.1 _ _, hr.2⟩ | exact ⟨setA_sized hr.1 _ _, hr.2⟩)

theorem execClz_kept (e : Fin 8) (pr : Bool) (d a : Fin 32) (s : State) : ∃ out, execClz e pr d a s = .next out ∧ Kept s out := by
  refine ⟨_, rfl, ?_⟩
  have h : Kept s s := Kept.refl s
  repeat' (first
    | with_reducible assumption | with_reducible exact Kept.refl _ | with_reducible apply State.ss_kept | with_reducible exact okS_err _
    | with_reducible exact okF_err _ | with_reducible refine okS_ok ?_ (fun hr => ?_) | with_reducible refine okF_ok (fun hr => ?_)
    | with_reducible exact setS_sized hr.1 _ _ | split | exact hr.1 | exact hr | exact ⟨hr.1, hr.2⟩ | exact ⟨setS_sized hr.1 _ _, hr.2⟩
    | exact ⟨setP_sized hr.1 _ _, hr.2⟩ | exact ⟨setPair_sized hr.1 _ _ _, hr.2⟩ | exact ⟨setV_sized hr.1 _ _, hr.2⟩
    | exact ⟨setA_sized hr.1 _ _, hr.2⟩)

theorem execPopc_kept (e : Fin 8) (pr : Bool) (d a : Fin 32) (s : State) : ∃ out, execPopc e pr d a s = .next out ∧ Kept s out := by
  refine ⟨_, rfl, ?_⟩
  have h : Kept s s := Kept.refl s
  repeat' (first
    | with_reducible assumption | with_reducible exact Kept.refl _ | with_reducible apply State.ss_kept | with_reducible exact okS_err _
    | with_reducible exact okF_err _ | with_reducible refine okS_ok ?_ (fun hr => ?_) | with_reducible refine okF_ok (fun hr => ?_)
    | with_reducible exact setS_sized hr.1 _ _ | split | exact hr.1 | exact hr | exact ⟨hr.1, hr.2⟩ | exact ⟨setS_sized hr.1 _ _, hr.2⟩
    | exact ⟨setP_sized hr.1 _ _, hr.2⟩ | exact ⟨setPair_sized hr.1 _ _ _, hr.2⟩ | exact ⟨setV_sized hr.1 _ _, hr.2⟩
    | exact ⟨setA_sized hr.1 _ _, hr.2⟩)

theorem execSextb_kept (e : Fin 8) (pr : Bool) (d a : Fin 32) (s : State) : ∃ out, execSextb e pr d a s = .next out ∧ Kept s out := by
  refine ⟨_, rfl, ?_⟩
  have h : Kept s s := Kept.refl s
  repeat' (first
    | with_reducible assumption | with_reducible exact Kept.refl _ | with_reducible apply State.ss_kept | with_reducible exact okS_err _
    | with_reducible exact okF_err _ | with_reducible refine okS_ok ?_ (fun hr => ?_) | with_reducible refine okF_ok (fun hr => ?_)
    | with_reducible exact setS_sized hr.1 _ _ | split | exact hr.1 | exact hr | exact ⟨hr.1, hr.2⟩ | exact ⟨setS_sized hr.1 _ _, hr.2⟩
    | exact ⟨setP_sized hr.1 _ _, hr.2⟩ | exact ⟨setPair_sized hr.1 _ _ _, hr.2⟩ | exact ⟨setV_sized hr.1 _ _, hr.2⟩
    | exact ⟨setA_sized hr.1 _ _, hr.2⟩)

theorem execSexth_kept (e : Fin 8) (pr : Bool) (d a : Fin 32) (s : State) : ∃ out, execSexth e pr d a s = .next out ∧ Kept s out := by
  refine ⟨_, rfl, ?_⟩
  have h : Kept s s := Kept.refl s
  repeat' (first
    | with_reducible assumption | with_reducible exact Kept.refl _ | with_reducible apply State.ss_kept | with_reducible exact okS_err _
    | with_reducible exact okF_err _ | with_reducible refine okS_ok ?_ (fun hr => ?_) | with_reducible refine okF_ok (fun hr => ?_)
    | with_reducible exact setS_sized hr.1 _ _ | split | exact hr.1 | exact hr | exact ⟨hr.1, hr.2⟩ | exact ⟨setS_sized hr.1 _ _, hr.2⟩
    | exact ⟨setP_sized hr.1 _ _, hr.2⟩ | exact ⟨setPair_sized hr.1 _ _ _, hr.2⟩ | exact ⟨setV_sized hr.1 _ _, hr.2⟩
    | exact ⟨setA_sized hr.1 _ _, hr.2⟩)

theorem execAbs_kept (e : Fin 8) (pr : Bool) (d a : Fin 32) (s : State) : ∃ out, execAbs e pr d a s = .next out ∧ Kept s out := by
  refine ⟨_, rfl, ?_⟩
  have h : Kept s s := Kept.refl s
  repeat' (first
    | with_reducible assumption | with_reducible exact Kept.refl _ | with_reducible apply State.ss_kept | with_reducible exact okS_err _
    | with_reducible exact okF_err _ | with_reducible refine okS_ok ?_ (fun hr => ?_) | with_reducible refine okF_ok (fun hr => ?_)
    | with_reducible exact setS_sized hr.1 _ _ | split | exact hr.1 | exact hr | exact ⟨hr.1, hr.2⟩ | exact ⟨setS_sized hr.1 _ _, hr.2⟩
    | exact ⟨setP_sized hr.1 _ _, hr.2⟩ | exact ⟨setPair_sized hr.1 _ _ _, hr.2⟩ | exact ⟨setV_sized hr.1 _ _, hr.2⟩
    | exact ⟨setA_sized hr.1 _ _, hr.2⟩)

theorem execAddi_kept (e : Fin 8) (pr : Bool) (d a : Fin 32) (i : BitVec 15) (s : State) : ∃ out, execAddi e pr d a i s = .next out ∧ Kept s out := by
  refine ⟨_, rfl, ?_⟩
  have h : Kept s s := Kept.refl s
  repeat' (first
    | with_reducible assumption | with_reducible exact Kept.refl _ | with_reducible apply State.ss_kept | with_reducible exact okS_err _
    | with_reducible exact okF_err _ | with_reducible refine okS_ok ?_ (fun hr => ?_) | with_reducible refine okF_ok (fun hr => ?_)
    | with_reducible exact setS_sized hr.1 _ _ | split | exact hr.1 | exact hr | exact ⟨hr.1, hr.2⟩ | exact ⟨setS_sized hr.1 _ _, hr.2⟩
    | exact ⟨setP_sized hr.1 _ _, hr.2⟩ | exact ⟨setPair_sized hr.1 _ _ _, hr.2⟩ | exact ⟨setV_sized hr.1 _ _, hr.2⟩
    | exact ⟨setA_sized hr.1 _ _, hr.2⟩)

theorem execSlti_kept (e : Fin 8) (pr : Bool) (d a : Fin 32) (i : BitVec 15) (s : State) : ∃ out, execSlti e pr d a i s = .next out ∧ Kept s out := by
  refine ⟨_, rfl, ?_⟩
  have h : Kept s s := Kept.refl s
  repeat' (first
    | with_reducible assumption | with_reducible exact Kept.refl _ | with_reducible apply State.ss_kept | with_reducible exact okS_err _
    | with_reducible exact okF_err _ | with_reducible refine okS_ok ?_ (fun hr => ?_) | with_reducible refine okF_ok (fun hr => ?_)
    | with_reducible exact setS_sized hr.1 _ _ | split | exact hr.1 | exact hr | exact ⟨hr.1, hr.2⟩ | exact ⟨setS_sized hr.1 _ _, hr.2⟩
    | exact ⟨setP_sized hr.1 _ _, hr.2⟩ | exact ⟨setPair_sized hr.1 _ _ _, hr.2⟩ | exact ⟨setV_sized hr.1 _ _, hr.2⟩
    | exact ⟨setA_sized hr.1 _ _, hr.2⟩)

theorem execSltiu_kept (e : Fin 8) (pr : Bool) (d a : Fin 32) (i : BitVec 15) (s : State) : ∃ out, execSltiu e pr d a i s = .next out ∧ Kept s out := by
  refine ⟨_, rfl, ?_⟩
  have h : Kept s s := Kept.refl s
  repeat' (first
    | with_reducible assumption | with_reducible exact Kept.refl _ | with_reducible apply State.ss_kept | with_reducible exact okS_err _
    | with_reducible exact okF_err _ | with_reducible refine okS_ok ?_ (fun hr => ?_) | with_reducible refine okF_ok (fun hr => ?_)
    | with_reducible exact setS_sized hr.1 _ _ | split | exact hr.1 | exact hr | exact ⟨hr.1, hr.2⟩ | exact ⟨setS_sized hr.1 _ _, hr.2⟩
    | exact ⟨setP_sized hr.1 _ _, hr.2⟩ | exact ⟨setPair_sized hr.1 _ _ _, hr.2⟩ | exact ⟨setV_sized hr.1 _ _, hr.2⟩
    | exact ⟨setA_sized hr.1 _ _, hr.2⟩)

theorem execAndi_kept (e : Fin 8) (pr : Bool) (d a : Fin 32) (i : BitVec 15) (s : State) : ∃ out, execAndi e pr d a i s = .next out ∧ Kept s out := by
  refine ⟨_, rfl, ?_⟩
  have h : Kept s s := Kept.refl s
  repeat' (first
    | with_reducible assumption | with_reducible exact Kept.refl _ | with_reducible apply State.ss_kept | with_reducible exact okS_err _
    | with_reducible exact okF_err _ | with_reducible refine okS_ok ?_ (fun hr => ?_) | with_reducible refine okF_ok (fun hr => ?_)
    | with_reducible exact setS_sized hr.1 _ _ | split | exact hr.1 | exact hr | exact ⟨hr.1, hr.2⟩ | exact ⟨setS_sized hr.1 _ _, hr.2⟩
    | exact ⟨setP_sized hr.1 _ _, hr.2⟩ | exact ⟨setPair_sized hr.1 _ _ _, hr.2⟩ | exact ⟨setV_sized hr.1 _ _, hr.2⟩
    | exact ⟨setA_sized hr.1 _ _, hr.2⟩)

theorem execOri_kept (e : Fin 8) (pr : Bool) (d a : Fin 32) (i : BitVec 15) (s : State) : ∃ out, execOri e pr d a i s = .next out ∧ Kept s out := by
  refine ⟨_, rfl, ?_⟩
  have h : Kept s s := Kept.refl s
  repeat' (first
    | with_reducible assumption | with_reducible exact Kept.refl _ | with_reducible apply State.ss_kept | with_reducible exact okS_err _
    | with_reducible exact okF_err _ | with_reducible refine okS_ok ?_ (fun hr => ?_) | with_reducible refine okF_ok (fun hr => ?_)
    | with_reducible exact setS_sized hr.1 _ _ | split | exact hr.1 | exact hr | exact ⟨hr.1, hr.2⟩ | exact ⟨setS_sized hr.1 _ _, hr.2⟩
    | exact ⟨setP_sized hr.1 _ _, hr.2⟩ | exact ⟨setPair_sized hr.1 _ _ _, hr.2⟩ | exact ⟨setV_sized hr.1 _ _, hr.2⟩
    | exact ⟨setA_sized hr.1 _ _, hr.2⟩)

theorem execXori_kept (e : Fin 8) (pr : Bool) (d a : Fin 32) (i : BitVec 15) (s : State) : ∃ out, execXori e pr d a i s = .next out ∧ Kept s out := by
  refine ⟨_, rfl, ?_⟩
  have h : Kept s s := Kept.refl s
  repeat' (first
    | with_reducible assumption | with_reducible exact Kept.refl _ | with_reducible apply State.ss_kept | with_reducible exact okS_err _
    | with_reducible exact okF_err _ | with_reducible refine okS_ok ?_ (fun hr => ?_) | with_reducible refine okF_ok (fun hr => ?_)
    | with_reducible exact setS_sized hr.1 _ _ | split | exact hr.1 | exact hr | exact ⟨hr.1, hr.2⟩ | exact ⟨setS_sized hr.1 _ _, hr.2⟩
    | exact ⟨setP_sized hr.1 _ _, hr.2⟩ | exact ⟨setPair_sized hr.1 _ _ _, hr.2⟩ | exact ⟨setV_sized hr.1 _ _, hr.2⟩
    | exact ⟨setA_sized hr.1 _ _, hr.2⟩)

theorem execSlli_kept (e : Fin 8) (pr : Bool) (d a n : Fin 32) (s : State) : ∃ out, execSlli e pr d a n s = .next out ∧ Kept s out := by
  refine ⟨_, rfl, ?_⟩
  have h : Kept s s := Kept.refl s
  repeat' (first
    | with_reducible assumption | with_reducible exact Kept.refl _ | with_reducible apply State.ss_kept | with_reducible exact okS_err _
    | with_reducible exact okF_err _ | with_reducible refine okS_ok ?_ (fun hr => ?_) | with_reducible refine okF_ok (fun hr => ?_)
    | with_reducible exact setS_sized hr.1 _ _ | split | exact hr.1 | exact hr | exact ⟨hr.1, hr.2⟩ | exact ⟨setS_sized hr.1 _ _, hr.2⟩
    | exact ⟨setP_sized hr.1 _ _, hr.2⟩ | exact ⟨setPair_sized hr.1 _ _ _, hr.2⟩ | exact ⟨setV_sized hr.1 _ _, hr.2⟩
    | exact ⟨setA_sized hr.1 _ _, hr.2⟩)

theorem execSrli_kept (e : Fin 8) (pr : Bool) (d a n : Fin 32) (s : State) : ∃ out, execSrli e pr d a n s = .next out ∧ Kept s out := by
  refine ⟨_, rfl, ?_⟩
  have h : Kept s s := Kept.refl s
  repeat' (first
    | with_reducible assumption | with_reducible exact Kept.refl _ | with_reducible apply State.ss_kept | with_reducible exact okS_err _
    | with_reducible exact okF_err _ | with_reducible refine okS_ok ?_ (fun hr => ?_) | with_reducible refine okF_ok (fun hr => ?_)
    | with_reducible exact setS_sized hr.1 _ _ | split | exact hr.1 | exact hr | exact ⟨hr.1, hr.2⟩ | exact ⟨setS_sized hr.1 _ _, hr.2⟩
    | exact ⟨setP_sized hr.1 _ _, hr.2⟩ | exact ⟨setPair_sized hr.1 _ _ _, hr.2⟩ | exact ⟨setV_sized hr.1 _ _, hr.2⟩
    | exact ⟨setA_sized hr.1 _ _, hr.2⟩)

theorem execSrai_kept (e : Fin 8) (pr : Bool) (d a n : Fin 32) (s : State) : ∃ out, execSrai e pr d a n s = .next out ∧ Kept s out := by
  refine ⟨_, rfl, ?_⟩
  have h : Kept s s := Kept.refl s
  repeat' (first
    | with_reducible assumption | with_reducible exact Kept.refl _ | with_reducible apply State.ss_kept | with_reducible exact okS_err _
    | with_reducible exact okF_err _ | with_reducible refine okS_ok ?_ (fun hr => ?_) | with_reducible refine okF_ok (fun hr => ?_)
    | with_reducible exact setS_sized hr.1 _ _ | split | exact hr.1 | exact hr | exact ⟨hr.1, hr.2⟩ | exact ⟨setS_sized hr.1 _ _, hr.2⟩
    | exact ⟨setP_sized hr.1 _ _, hr.2⟩ | exact ⟨setPair_sized hr.1 _ _ _, hr.2⟩ | exact ⟨setV_sized hr.1 _ _, hr.2⟩
    | exact ⟨setA_sized hr.1 _ _, hr.2⟩)

theorem execLi_kept (e : Fin 8) (d : Fin 32) (i : Word) (s : State) : ∃ out, execLi e d i s = .next out ∧ Kept s out := by
  refine ⟨_, rfl, ?_⟩
  have h : Kept s s := Kept.refl s
  repeat' (first
    | with_reducible assumption | with_reducible exact Kept.refl _
    | with_reducible refine State.instr_kept ?_ _ _ _ _ _ (fun v r hv hr => ?_) | with_reducible exact okS_err _
    | with_reducible exact okF_err _ | with_reducible refine okS_ok ?_ (fun hr => ?_) | with_reducible refine okF_ok (fun hr => ?_)
    | with_reducible exact setS_sized hr.1 _ _ | split | exact hr.1 | exact hr | exact ⟨hr.1, hr.2⟩ | exact ⟨setS_sized hr.1 _ _, hr.2⟩
    | exact ⟨setP_sized hr.1 _ _, hr.2⟩ | exact ⟨setPair_sized hr.1 _ _ _, hr.2⟩ | exact ⟨setV_sized hr.1 _ _, hr.2⟩
    | exact ⟨setA_sized hr.1 _ _, hr.2⟩)

theorem execAddil_kept (e : Fin 8) (d a : Fin 32) (i : Word) (s : State) : ∃ out, execAddil e d a i s = .next out ∧ Kept s out := by
  refine ⟨_, rfl, ?_⟩
  have h : Kept s s := Kept.refl s
  repeat' (first
    | with_reducible assumption | with_reducible exact Kept.refl _
    | with_reducible refine State.instr_kept ?_ _ _ _ _ _ (fun v r hv hr => ?_) | with_reducible exact okS_err _
    | with_reducible exact okF_err _ | with_reducible refine okS_ok ?_ (fun hr => ?_) | with_reducible refine okF_ok (fun hr => ?_)
    | with_reducible exact setS_sized hr.1 _ _ | split | exact hr.1 | exact hr | exact ⟨hr.1, hr.2⟩ | exact ⟨setS_sized hr.1 _ _, hr.2⟩
    | exact ⟨setP_sized hr.1 _ _, hr.2⟩ | exact ⟨setPair_sized hr.1 _ _ _, hr.2⟩ | exact ⟨setV_sized hr.1 _ _, hr.2⟩
    | exact ⟨setA_sized hr.1 _ _, hr.2⟩)

theorem execSltil_kept (e : Fin 8) (d a : Fin 32) (i : Word) (s : State) : ∃ out, execSltil e d a i s = .next out ∧ Kept s out := by
  refine ⟨_, rfl, ?_⟩
  have h : Kept s s := Kept.refl s
  repeat' (first
    | with_reducible assumption | with_reducible exact Kept.refl _
    | with_reducible refine State.instr_kept ?_ _ _ _ _ _ (fun v r hv hr => ?_) | with_reducible exact okS_err _
    | with_reducible exact okF_err _ | with_reducible refine okS_ok ?_ (fun hr => ?_) | with_reducible refine okF_ok (fun hr => ?_)
    | with_reducible exact setS_sized hr.1 _ _ | split | exact hr.1 | exact hr | exact ⟨hr.1, hr.2⟩ | exact ⟨setS_sized hr.1 _ _, hr.2⟩
    | exact ⟨setP_sized hr.1 _ _, hr.2⟩ | exact ⟨setPair_sized hr.1 _ _ _, hr.2⟩ | exact ⟨setV_sized hr.1 _ _, hr.2⟩
    | exact ⟨setA_sized hr.1 _ _, hr.2⟩)

theorem State.loadS_kept {s : State} (h : Kept s0 s) (e : Nat) (pr : Bool) (d a : Nat) (off : BitVec 12) (size : Nat) (f : Nat → Word) : Kept s0 (State.loadS s e pr d a off size f) := by
  unfold State.loadS
  repeat' (first
    | with_reducible assumption | with_reducible exact Kept.refl _
    | with_reducible refine State.instrF_kept ?_ _ _ _ _ _ (fun im v r => ?_) | with_reducible exact okS_err _
    | with_reducible exact okF_err _ | with_reducible refine okS_ok ?_ (fun hr => ?_) | with_reducible refine okF_ok (fun hr => ?_)
    | with_reducible exact setS_sized hr.1 _ _ | split
    | (lift_lets; intro x; first | (refine (fun (hx : Kept s0 x) => ?_) ?_; clear_value x) | clear_value x)
    | (intro x; refine (fun (hx : Kept s0 x) => ?_) ?_; clear_value x) | (intro x; clear_value x) | dsimp only | exact hr.1 | exact hr
    | exact ⟨hr.1, hr.2⟩ | exact ⟨setS_sized hr.1 _ _, hr.2⟩ | exact ⟨setP_sized hr.1 _ _, hr.2⟩
    | exact ⟨setPair_sized hr.1 _ _ _, hr.2⟩ | exact ⟨setV_sized hr.1 _ _, hr.2⟩ | exact ⟨setA_sized hr.1 _ _, hr.2⟩)

theorem State.storeS_kept {s : State} (h : Kept s0 s) (e : Nat) (pr : Bool) (d a : Nat) (off : BitVec 12) (size : Nat) : Kept s0 (State.storeS s e pr d a off size) := by
  unfold State.storeS
  repeat' (first
    | with_reducible assumption | with_reducible exact Kept.refl _
    | with_reducible refine State.instrF_kept ?_ _ _ _ _ _ (fun im v r => ?_) | with_reducible exact okS_err _
    | with_reducible exact okF_err _ | with_reducible refine okS_ok ?_ (fun hr => ?_) | with_reducible refine okF_ok (fun hr => ?_)
    | with_reducible exact setS_sized hr.1 _ _ | split
    | (lift_lets; intro x; first | (refine (fun (hx : Kept s0 x) => ?_) ?_; clear_value x) | clear_value x)
    | (intro x; refine (fun (hx : Kept s0 x) => ?_) ?_; clear_value x) | (intro x; clear_value x) | dsimp only | exact hr.1 | exact hr
    | exact ⟨hr.1, hr.2⟩ | exact ⟨setS_sized hr.1 _ _, hr.2⟩ | exact ⟨setP_sized hr.1 _ _, hr.2⟩
    | exact ⟨setPair_sized hr.1 _ _ _, hr.2⟩ | exact ⟨setV_sized hr.1 _ _, hr.2⟩ | exact ⟨setA_sized hr.1 _ _, hr.2⟩)

theorem execLb_kept (e : Fin 8) (pr : Bool) (d a : Fin 32) (off : BitVec 12) (s : State) : ∃ out, execLb e pr d a off s = .next out ∧ Kept s out := by
  refine ⟨_, rfl, ?_⟩
  have h : Kept s s := Kept.refl s
  repeat' (first
    | with_reducible assumption | with_reducible exact Kept.refl _ | with_reducible apply State.loadS_kept
    | with_reducible exact okS_err _ | with_reducible exact okF_err _ | with_reducible refine okS_ok ?_ (fun hr => ?_)
    | with_reducible refine okF_ok (fun hr => ?_) | with_reducible exact setS_sized hr.1 _ _ | split | exact hr.1 | exact hr
    | exact ⟨hr.1, hr.2⟩ | exact ⟨setS_sized hr.1 _ _, hr.2⟩ | exact ⟨setP_sized hr.1 _ _, hr.2⟩
    | exact ⟨setPair_sized hr.1 _ _ _, hr.2⟩ | exact ⟨setV_sized hr.1 _ _, hr.2⟩ | exact ⟨setA_sized hr.1 _ _, hr.2⟩)

theorem execLbu_kept (e : Fin 8) (pr : Bool) (d a : Fin 32) (off : BitVec 12) (s : State) : ∃ out, execLbu e pr d a off s = .next out ∧ Kept s out := by
  refine ⟨_, rfl, ?_⟩
  have h : Kept s s := Kept.refl s
  repeat' (first
    | with_reducible assumption | with_reducible exact Kept.refl _ | with_reducible apply State.loadS_kept
    | with_reducible exact okS_err _ | with_reducible exact okF_err _ | with_reducible refine okS_ok ?_ (fun hr => ?_)
    | with_reducible refine okF_ok (fun hr => ?_) | with_reducible exact setS_sized hr.1 _ _ | split | exact hr.1 | exact hr
    | exact ⟨hr.1, hr.2⟩ | exact ⟨setS_sized hr.1 _ _, hr.2⟩ | exact ⟨setP_sized hr.1 _ _, hr.2⟩
    | exact ⟨setPair_sized hr.1 _ _ _, hr.2⟩ | exact ⟨setV_sized hr.1 _ _, hr.2⟩ | exact ⟨setA_sized hr.1 _ _, hr.2⟩)

theorem execLh_kept (e : Fin 8) (pr : Bool) (d a : Fin 32) (off : BitVec 12) (s : State) : ∃ out, execLh e pr d a off s = .next out ∧ Kept s out := by
  refine ⟨_, rfl, ?_⟩
  have h : Kept s s := Kept.refl s
  repeat' (first
    | with_reducible assumption | with_reducible exact Kept.refl _ | with_reducible apply State.loadS_kept
    | with_reducible exact okS_err _ | with_reducible exact okF_err _ | with_reducible refine okS_ok ?_ (fun hr => ?_)
    | with_reducible refine okF_ok (fun hr => ?_) | with_reducible exact setS_sized hr.1 _ _ | split | exact hr.1 | exact hr
    | exact ⟨hr.1, hr.2⟩ | exact ⟨setS_sized hr.1 _ _, hr.2⟩ | exact ⟨setP_sized hr.1 _ _, hr.2⟩
    | exact ⟨setPair_sized hr.1 _ _ _, hr.2⟩ | exact ⟨setV_sized hr.1 _ _, hr.2⟩ | exact ⟨setA_sized hr.1 _ _, hr.2⟩)

theorem execLhu_kept (e : Fin 8) (pr : Bool) (d a : Fin 32) (off : BitVec 12) (s : State) : ∃ out, execLhu e pr d a off s = .next out ∧ Kept s out := by
  refine ⟨_, rfl, ?_⟩
  have h : Kept s s := Kept.refl s
  repeat' (first
    | with_reducible assumption | with_reducible exact Kept.refl _ | with_reducible apply State.loadS_kept
    | with_reducible exact okS_err _ | with_reducible exact okF_err _ | with_reducible refine okS_ok ?_ (fun hr => ?_)
    | with_reducible refine okF_ok (fun hr => ?_) | with_reducible exact setS_sized hr.1 _ _ | split | exact hr.1 | exact hr
    | exact ⟨hr.1, hr.2⟩ | exact ⟨setS_sized hr.1 _ _, hr.2⟩ | exact ⟨setP_sized hr.1 _ _, hr.2⟩
    | exact ⟨setPair_sized hr.1 _ _ _, hr.2⟩ | exact ⟨setV_sized hr.1 _ _, hr.2⟩ | exact ⟨setA_sized hr.1 _ _, hr.2⟩)

theorem execLw_kept (e : Fin 8) (pr : Bool) (d a : Fin 32) (off : BitVec 12) (s : State) : ∃ out, execLw e pr d a off s = .next out ∧ Kept s out := by
  refine ⟨_, rfl, ?_⟩
  have h : Kept s s := Kept.refl s
  repeat' (first
    | with_reducible assumption | with_reducible exact Kept.refl _ | with_reducible apply State.loadS_kept
    | with_reducible exact okS_err _ | with_reducible exact okF_err _ | with_reducible refine okS_ok ?_ (fun hr => ?_)
    | with_reducible refine okF_ok (fun hr => ?_) | with_reducible exact setS_sized hr.1 _ _ | split | exact hr.1 | exact hr
    | exact ⟨hr.1, hr.2⟩ | exact ⟨setS_sized hr.1 _ _, hr.2⟩ | exact ⟨setP_sized hr.1 _ _, hr.2⟩
    | exact ⟨setPair_sized hr.1 _ _ _, hr.2⟩ | exact ⟨setV_sized hr.1 _ _, hr.2⟩ | exact ⟨setA_sized hr.1 _ _, hr.2⟩)

theorem execSb_kept (e : Fin 8) (pr : Bool) (d a : Fin 32) (off : BitVec 12) (s : State) : ∃ out, execSb e pr d a off s = .next out ∧ Kept s out := by
  refine ⟨_, rfl, ?_⟩
  have h : Kept s s := Kept.refl s
  repeat' (first
    | with_reducible assumption | with_reducible exact Kept.refl _ | with_reducible apply State.storeS_kept
    | with_reducible exact okS_err _ | with_reducible exact okF_err _ | with_reducible refine okS_ok ?_ (fun hr => ?_)
    | with_reducible refine okF_ok (fun hr => ?_) | with_reducible exact setS_sized hr.1 _ _ | split | exact hr.1 | exact hr
    | exact ⟨hr.1, hr.2⟩ | exact ⟨setS_sized hr.1 _ _, hr.2⟩ | exact ⟨setP_sized hr.1 _ _, hr.2⟩
    | exact ⟨setPair_sized hr.1 _ _ _, hr.2⟩ | exact ⟨setV_sized hr.1 _ _, hr.2⟩ | exact ⟨setA_sized hr.1 _ _, hr.2⟩)

theorem execSh_kept (e : Fin 8) (pr : Bool) (d a : Fin 32) (off : BitVec 12) (s : State) : ∃ out, execSh e pr d a off s = .next out ∧ Kept s out := by
  refine ⟨_, rfl, ?_⟩
  have h : Kept s s := Kept.refl s
  repeat' (first
    | with_reducible assumption | with_reducible exact Kept.refl _ | with_reducible apply State.storeS_kept
    | with_reducible exact okS_err _ | with_reducible exact okF_err _ | with_reducible refine okS_ok ?_ (fun hr => ?_)
    | with_reducible refine okF_ok (fun hr => ?_) | with_reducible exact setS_sized hr.1 _ _ | split | exact hr.1 | exact hr
    | exact ⟨hr.1, hr.2⟩ | exact ⟨setS_sized hr.1 _ _, hr.2⟩ | exact ⟨setP_sized hr.1 _ _, hr.2⟩
    | exact ⟨setPair_sized hr.1 _ _ _, hr.2⟩ | exact ⟨setV_sized hr.1 _ _, hr.2⟩ | exact ⟨setA_sized hr.1 _ _, hr.2⟩)

theorem execSw_kept (e : Fin 8) (pr : Bool) (d a : Fin 32) (off : BitVec 12) (s : State) : ∃ out, execSw e pr d a off s = .next out ∧ Kept s out := by
  refine ⟨_, rfl, ?_⟩
  have h : Kept s s := Kept.refl s
  repeat' (first
    | with_reducible assumption | with_reducible exact Kept.refl _ | with_reducible apply State.storeS_kept
    | with_reducible exact okS_err _ | with_reducible exact okF_err _ | with_reducible refine okS_ok ?_ (fun hr => ?_)
    | with_reducible refine okF_ok (fun hr => ?_) | with_reducible exact setS_sized hr.1 _ _ | split | exact hr.1 | exact hr
    | exact ⟨hr.1, hr.2⟩ | exact ⟨setS_sized hr.1 _ _, hr.2⟩ | exact ⟨setP_sized hr.1 _ _, hr.2⟩
    | exact ⟨setPair_sized hr.1 _ _ _, hr.2⟩ | exact ⟨setV_sized hr.1 _ _, hr.2⟩ | exact ⟨setA_sized hr.1 _ _, hr.2⟩)

theorem execFadd_kept (e : Fin 8) (pr : Bool) (d a b : Fin 32) (s : State) : ∃ out, execFadd e pr d a b s = .next out ∧ Kept s out := by
  refine ⟨_, rfl, ?_⟩
  have h : Kept s s := Kept.refl s
  repeat' (first
    | with_reducible assumption | with_reducible exact Kept.refl _ | with_reducible apply State.sss_kept
    | with_reducible exact okS_err _ | with_reducible exact okF_err _ | with_reducible refine okS_ok ?_ (fun hr => ?_)
    | with_reducible refine okF_ok (fun hr => ?_) | with_reducible exact setS_sized hr.1 _ _ | split | exact hr.1 | exact hr
    | exact ⟨hr.1, hr.2⟩ | exact ⟨setS_sized hr.1 _ _, hr.2⟩ | exact ⟨setP_sized hr.1 _ _, hr.2⟩
    | exact ⟨setPair_sized hr.1 _ _ _, hr.2⟩ | exact ⟨setV_sized hr.1 _ _, hr.2⟩ | exact ⟨setA_sized hr.1 _ _, hr.2⟩)

theorem execFsub_kept (e : Fin 8) (pr : Bool) (d a b : Fin 32) (s : State) : ∃ out, execFsub e pr d a b s = .next out ∧ Kept s out := by
  refine ⟨_, rfl, ?_⟩
  have h : Kept s s := Kept.refl s
  repeat' (first
    | with_reducible assumption | with_reducible exact Kept.refl _ | with_reducible apply State.sss_kept
    | with_reducible exact okS_err _ | with_reducible exact okF_err _ | with_reducible refine okS_ok ?_ (fun hr => ?_)
    | with_reducible refine okF_ok (fun hr => ?_) | with_reducible exact setS_sized hr.1 _ _ | split | exact hr.1 | exact hr
    | exact ⟨hr.1, hr.2⟩ | exact ⟨setS_sized hr.1 _ _, hr.2⟩ | exact ⟨setP_sized hr.1 _ _, hr.2⟩
    | exact ⟨setPair_sized hr.1 _ _ _, hr.2⟩ | exact ⟨setV_sized hr.1 _ _, hr.2⟩ | exact ⟨setA_sized hr.1 _ _, hr.2⟩)

theorem execFmul_kept (e : Fin 8) (pr : Bool) (d a b : Fin 32) (s : State) : ∃ out, execFmul e pr d a b s = .next out ∧ Kept s out := by
  refine ⟨_, rfl, ?_⟩
  have h : Kept s s := Kept.refl s
  repeat' (first
    | with_reducible assumption | with_reducible exact Kept.refl _ | with_reducible apply State.sss_kept
    | with_reducible exact okS_err _ | with_reducible exact okF_err _ | with_reducible refine okS_ok ?_ (fun hr => ?_)
    | with_reducible refine okF_ok (fun hr => ?_) | with_reducible exact setS_sized hr.1 _ _ | split | exact hr.1 | exact hr
    | exact ⟨hr.1, hr.2⟩ | exact ⟨setS_sized hr.1 _ _, hr.2⟩ | exact ⟨setP_sized hr.1 _ _, hr.2⟩
    | exact ⟨setPair_sized hr.1 _ _ _, hr.2⟩ | exact ⟨setV_sized hr.1 _ _, hr.2⟩ | exact ⟨setA_sized hr.1 _ _, hr.2⟩)

theorem execFdiv_kept (e : Fin 8) (pr : Bool) (d a b : Fin 32) (s : State) : ∃ out, execFdiv e pr d a b s = .next out ∧ Kept s out := by
  refine ⟨_, rfl, ?_⟩
  have h : Kept s s := Kept.refl s
  repeat' (first
    | with_reducible assumption | with_reducible exact Kept.refl _ | with_reducible apply State.sss_kept
    | with_reducible exact okS_err _ | with_reducible exact okF_err _ | with_reducible refine okS_ok ?_ (fun hr => ?_)
    | with_reducible refine okF_ok (fun hr => ?_) | with_reducible exact setS_sized hr.1 _ _ | split | exact hr.1 | exact hr
    | exact ⟨hr.1, hr.2⟩ | exact ⟨setS_sized hr.1 _ _, hr.2⟩ | exact ⟨setP_sized hr.1 _ _, hr.2⟩
    | exact ⟨setPair_sized hr.1 _ _ _, hr.2⟩ | exact ⟨setV_sized hr.1 _ _, hr.2⟩ | exact ⟨setA_sized hr.1 _ _, hr.2⟩)

theorem execFsqrt_kept (e : Fin 8) (pr : Bool) (d a : Fin 32) (s : State) : ∃ out, execFsqrt e pr d a s = .next out ∧ Kept s out := by
  refine ⟨_, rfl, ?_⟩
  have h : Kept s s := Kept.refl s
  repeat' (first
    | with_reducible assumption | with_reducible exact Kept.refl _ | with_reducible apply State.ss_kept | with_reducible exact okS_err _
    | with_reducible exact okF_err _ | with_reducible refine okS_ok ?_ (fun hr => ?_) | with_reducible refine okF_ok (fun hr => ?_)
    | with_reducible exact setS_sized hr.1 _ _ | split | exact hr.1 | exact hr | exact ⟨hr.1, hr.2⟩ | exact ⟨setS_sized hr.1 _ _, hr.2⟩
    | exact ⟨setP_sized hr.1 _ _, hr.2⟩ | exact ⟨setPair_sized hr.1 _ _ _, hr.2⟩ | exact ⟨setV_sized hr.1 _ _, hr.2⟩
    | exact ⟨setA_sized hr.1 _ _, hr.2⟩)

theorem execFmin_kept (e : Fin 8) (pr : Bool) (d a b : Fin 32) (s : State) : ∃ out, execFmin e pr d a b s = .next out ∧ Kept s out := by
  refine ⟨_, rfl, ?_⟩
  have h : Kept s s := Kept.refl s
  repeat' (first
    | with_reducible assumption | with_reducible exact Kept.refl _ | with_reducible apply State.sss_kept
    | with_reducible exact okS_err _ | with_reducible exact okF_err _ | with_reducible refine okS_ok ?_ (fun hr => ?_)
    | with_reducible refine okF_ok (fun hr => ?_) | with_reducible exact setS_sized hr.1 _ _ | split | exact hr.1 | exact hr
    | exact ⟨hr.1, hr.2⟩ | exact ⟨setS_sized hr.1 _ _, hr.2⟩ | exact ⟨setP_sized hr.1 _ _, hr.2⟩
    | exact ⟨setPair_sized hr.1 _ _ _, hr.2⟩ | exact ⟨setV_sized hr.1 _ _, hr.2⟩ | exact ⟨setA_sized hr.1 _ _, hr.2⟩)

theorem execFmax_kept (e : Fin 8) (pr : Bool) (d a b : Fin 32) (s : State) : ∃ out, execFmax e pr d a b s = .next out ∧ Kept s out := by
  refine ⟨_, rfl, ?_⟩
  have h : Kept s s := Kept.refl s
  repeat' (first
    | with_reducible assumption | with_reducible exact Kept.refl _ | with_reducible apply State.sss_kept
    | with_reducible exact okS_err _ | with_reducible exact okF_err _ | with_reducible refine okS_ok ?_ (fun hr => ?_)
    | with_reducible refine okF_ok (fun hr => ?_) | with_reducible exact setS_sized hr.1 _ _ | split | exact hr.1 | exact hr
    | exact ⟨hr.1, hr.2⟩ | exact ⟨setS_sized hr.1 _ _, hr.2⟩ | exact ⟨setP_sized hr.1 _ _, hr.2⟩
    | exact ⟨setPair_sized hr.1 _ _ _, hr.2⟩ | exact ⟨setV_sized hr.1 _ _, hr.2⟩ | exact ⟨setA_sized hr.1 _ _, hr.2⟩)

theorem execFcvtfi_kept (e : Fin 8) (pr : Bool) (d a : Fin 32) (s : State) : ∃ out, execFcvtfi e pr d a s = .next out ∧ Kept s out := by
  refine ⟨_, rfl, ?_⟩
  have h : Kept s s := Kept.refl s
  repeat' (first
    | with_reducible assumption | with_reducible exact Kept.refl _ | with_reducible apply State.ss_kept | with_reducible exact okS_err _
    | with_reducible exact okF_err _ | with_reducible refine okS_ok ?_ (fun hr => ?_) | with_reducible refine okF_ok (fun hr => ?_)
    | with_reducible exact setS_sized hr.1 _ _ | split | exact hr.1 | exact hr | exact ⟨hr.1, hr.2⟩ | exact ⟨setS_sized hr.1 _ _, hr.2⟩
    | exact ⟨setP_sized hr.1 _ _, hr.2⟩ | exact ⟨setPair_sized hr.1 _ _ _, hr.2⟩ | exact ⟨setV_sized hr.1 _ _, hr.2⟩
    | exact ⟨setA_sized hr.1 _ _, hr.2⟩)

theorem execFcvtif_kept (e : Fin 8) (pr : Bool) (d a : Fin 32) (s : State) : ∃ out, execFcvtif e pr d a s = .next out ∧ Kept s out := by
  refine ⟨_, rfl, ?_⟩
  have h : Kept s s := Kept.refl s
  repeat' (first
    | with_reducible assumption | with_reducible exact Kept.refl _ | with_reducible apply State.ss_kept | with_reducible exact okS_err _
    | with_reducible exact okF_err _ | with_reducible refine okS_ok ?_ (fun hr => ?_) | with_reducible refine okF_ok (fun hr => ?_)
    | with_reducible exact setS_sized hr.1 _ _ | split | exact hr.1 | exact hr | exact ⟨hr.1, hr.2⟩ | exact ⟨setS_sized hr.1 _ _, hr.2⟩
    | exact ⟨setP_sized hr.1 _ _, hr.2⟩ | exact ⟨setPair_sized hr.1 _ _ _, hr.2⟩ | exact ⟨setV_sized hr.1 _ _, hr.2⟩
    | exact ⟨setA_sized hr.1 _ _, hr.2⟩)

theorem execFltI_kept (e : Fin 8) (pr : Bool) (d a b : Fin 32) (s : State) : ∃ out, execFltI e pr d a b s = .next out ∧ Kept s out := by
  refine ⟨_, rfl, ?_⟩
  have h : Kept s s := Kept.refl s
  repeat' (first
    | with_reducible assumption | with_reducible exact Kept.refl _ | with_reducible apply State.sss_kept
    | with_reducible exact okS_err _ | with_reducible exact okF_err _ | with_reducible refine okS_ok ?_ (fun hr => ?_)
    | with_reducible refine okF_ok (fun hr => ?_) | with_reducible exact setS_sized hr.1 _ _ | split | exact hr.1 | exact hr
    | exact ⟨hr.1, hr.2⟩ | exact ⟨setS_sized hr.1 _ _, hr.2⟩ | exact ⟨setP_sized hr.1 _ _, hr.2⟩
    | exact ⟨setPair_sized hr.1 _ _ _, hr.2⟩ | exact ⟨setV_sized hr.1 _ _, hr.2⟩ | exact ⟨setA_sized hr.1 _ _, hr.2⟩)

theorem execFeq_kept (e : Fin 8) (pr : Bool) (d a b : Fin 32) (s : State) : ∃ out, execFeq e pr d a b s = .next out ∧ Kept s out := by
  refine ⟨_, rfl, ?_⟩
  have h : Kept s s := Kept.refl s
  repeat' (first
    | with_reducible assumption | with_reducible exact Kept.refl _ | with_reducible apply State.sss_kept
    | with_reducible exact okS_err _ | with_reducible exact okF_err _ | with_reducible refine okS_ok ?_ (fun hr => ?_)
    | with_reducible refine okF_ok (fun hr => ?_) | with_reducible exact setS_sized hr.1 _ _ | split | exact hr.1 | exact hr
    | exact ⟨hr.1, hr.2⟩ | exact ⟨setS_sized hr.1 _ _, hr.2⟩ | exact ⟨setP_sized hr.1 _ _, hr.2⟩
    | exact ⟨setPair_sized hr.1 _ _ _, hr.2⟩ | exact ⟨setV_sized hr.1 _ _, hr.2⟩ | exact ⟨setA_sized hr.1 _ _, hr.2⟩)

theorem execFabs_kept (e : Fin 8) (pr : Bool) (d a : Fin 32) (s : State) : ∃ out, execFabs e pr d a s = .next out ∧ Kept s out := by
  refine ⟨_, rfl, ?_⟩
  have h : Kept s s := Kept.refl s
  repeat' (first
    | with_reducible assumption | with_reducible exact Kept.refl _ | with_reducible apply State.ss_kept | with_reducible exact okS_err _
    | with_reducible exact okF_err _ | with_reducible refine okS_ok ?_ (fun hr => ?_) | with_reducible refine okF_ok (fun hr => ?_)
    | with_reducible exact setS_sized hr.1 _ _ | split | exact hr.1 | exact hr | exact ⟨hr.1, hr.2⟩ | exact ⟨setS_sized hr.1 _ _, hr.2⟩
    | exact ⟨setP_sized hr.1 _ _, hr.2⟩ | exact ⟨setPair_sized hr.1 _ _ _, hr.2⟩ | exact ⟨setV_sized hr.1 _ _, hr.2⟩
    | exact ⟨setA_sized hr.1 _ _, hr.2⟩)

theorem execFneg_kept (e : Fin 8) (pr : Bool) (d a : Fin 32) (s : State) : ∃ out, execFneg e pr d a s = .next out ∧ Kept s out := by
  refine ⟨_, rfl, ?_⟩
  have h : Kept s s := Kept.refl s
  repeat' (first
    | with_reducible assumption | with_reducible exact Kept.refl _ | with_reducible apply State.ss_kept | with_reducible exact okS_err _
    | with_reducible exact okF_err _ | with_reducible refine okS_ok ?_ (fun hr => ?_) | with_reducible refine okF_ok (fun hr => ?_)
    | with_reducible exact setS_sized hr.1 _ _ | split | exact hr.1 | exact hr | exact ⟨hr.1, hr.2⟩ | exact ⟨setS_sized hr.1 _ _, hr.2⟩
    | exact ⟨setP_sized hr.1 _ _, hr.2⟩ | exact ⟨setPair_sized hr.1 _ _ _, hr.2⟩ | exact ⟨setV_sized hr.1 _ _, hr.2⟩
    | exact ⟨setA_sized hr.1 _ _, hr.2⟩)

theorem execPand_kept (e : Fin 8) (pr : Bool) (d a b : Fin 8) (s : State) : ∃ out, execPand e pr d a b s = .next out ∧ Kept s out := by
  refine ⟨_, rfl, ?_⟩
  have h : Kept s s := Kept.refl s
  repeat' (first
    | with_reducible assumption | with_reducible exact Kept.refl _ | with_reducible apply State.ppp_kept
    | with_reducible exact okS_err _ | with_reducible exact okF_err _ | with_reducible refine okS_ok ?_ (fun hr => ?_)
    | with_reducible refine okF_ok (fun hr => ?_) | with_reducible exact setS_sized hr.1 _ _ | split | exact hr.1 | exact hr
    | exact ⟨hr.1, hr.2⟩ | exact ⟨setS_sized hr.1 _ _, hr.2⟩ | exact ⟨setP_sized hr.1 _ _, hr.2⟩
    | exact ⟨setPair_sized hr.1 _ _ _, hr.2⟩ | exact ⟨setV_sized hr.1 _ _, hr.2⟩ | exact ⟨setA_sized hr.1 _ _, hr.2⟩)

theorem execPor_kept (e : Fin 8) (pr : Bool) (d a b : Fin 8) (s : State) : ∃ out, execPor e pr d a b s = .next out ∧ Kept s out := by
  refine ⟨_, rfl, ?_⟩
  have h : Kept s s := Kept.refl s
  repeat' (first
    | with_reducible assumption | with_reducible exact Kept.refl _ | with_reducible apply State.ppp_kept
    | with_reducible exact okS_err _ | with_reducible exact okF_err _ | with_reducible refine okS_ok ?_ (fun hr => ?_)
    | with_reducible refine okF_ok (fun hr => ?_) | with_reducible exact setS_sized hr.1 _ _ | split | exact hr.1 | exact hr
    | exact ⟨hr.1, hr.2⟩ | exact ⟨setS_sized hr.1 _ _, hr.2⟩ | exact ⟨setP_sized hr.1 _ _, hr.2⟩
    | exact ⟨setPair_sized hr.1 _ _ _, hr.2⟩ | exact ⟨setV_sized hr.1 _ _, hr.2⟩ | exact ⟨setA_sized hr.1 _ _, hr.2⟩)

theorem execPxor_kept (e : Fin 8) (pr : Bool) (d a b : Fin 8) (s : State) : ∃ out, execPxor e pr d a b s = .next out ∧ Kept s out := by
  refine ⟨_, rfl, ?_⟩
  have h : Kept s s := Kept.refl s
  repeat' (first
    | with_reducible assumption | with_reducible exact Kept.refl _ | with_reducible apply State.ppp_kept
    | with_reducible exact okS_err _ | with_reducible exact okF_err _ | with_reducible refine okS_ok ?_ (fun hr => ?_)
    | with_reducible refine okF_ok (fun hr => ?_) | with_reducible exact setS_sized hr.1 _ _ | split | exact hr.1 | exact hr
    | exact ⟨hr.1, hr.2⟩ | exact ⟨setS_sized hr.1 _ _, hr.2⟩ | exact ⟨setP_sized hr.1 _ _, hr.2⟩
    | exact ⟨setPair_sized hr.1 _ _ _, hr.2⟩ | exact ⟨setV_sized hr.1 _ _, hr.2⟩ | exact ⟨setA_sized hr.1 _ _, hr.2⟩)

theorem execPandn_kept (e : Fin 8) (pr : Bool) (d a b : Fin 8) (s : State) : ∃ out, execPandn e pr d a b s = .next out ∧ Kept s out := by
  refine ⟨_, rfl, ?_⟩
  have h : Kept s s := Kept.refl s
  repeat' (first
    | with_reducible assumption | with_reducible exact Kept.refl _ | with_reducible apply State.ppp_kept
    | with_reducible exact okS_err _ | with_reducible exact okF_err _ | with_reducible refine okS_ok ?_ (fun hr => ?_)
    | with_reducible refine okF_ok (fun hr => ?_) | with_reducible exact setS_sized hr.1 _ _ | split | exact hr.1 | exact hr
    | exact ⟨hr.1, hr.2⟩ | exact ⟨setS_sized hr.1 _ _, hr.2⟩ | exact ⟨setP_sized hr.1 _ _, hr.2⟩
    | exact ⟨setPair_sized hr.1 _ _ _, hr.2⟩ | exact ⟨setV_sized hr.1 _ _, hr.2⟩ | exact ⟨setA_sized hr.1 _ _, hr.2⟩)

theorem execPnot_kept (e : Fin 8) (pr : Bool) (d a : Fin 8) (s : State) : ∃ out, execPnot e pr d a s = .next out ∧ Kept s out := by
  refine ⟨_, rfl, ?_⟩
  have h : Kept s s := Kept.refl s
  repeat' (first
    | with_reducible assumption | with_reducible exact Kept.refl _
    | with_reducible refine State.instr_kept ?_ _ _ _ _ _ (fun v r hv hr => ?_) | with_reducible exact okS_err _
    | with_reducible exact okF_err _ | with_reducible refine okS_ok ?_ (fun hr => ?_) | with_reducible refine okF_ok (fun hr => ?_)
    | with_reducible exact setS_sized hr.1 _ _ | split | exact hr.1 | exact hr | exact ⟨hr.1, hr.2⟩ | exact ⟨setS_sized hr.1 _ _, hr.2⟩
    | exact ⟨setP_sized hr.1 _ _, hr.2⟩ | exact ⟨setPair_sized hr.1 _ _ _, hr.2⟩ | exact ⟨setV_sized hr.1 _ _, hr.2⟩
    | exact ⟨setA_sized hr.1 _ _, hr.2⟩)

theorem execPfroms_kept (e : Fin 8) (pr : Bool) (d : Fin 8) (a : Fin 32) (s : State) : ∃ out, execPfroms e pr d a s = .next out ∧ Kept s out := by
  refine ⟨_, rfl, ?_⟩
  have h : Kept s s := Kept.refl s
  repeat' (first
    | with_reducible assumption | with_reducible exact Kept.refl _
    | with_reducible refine State.instr_kept ?_ _ _ _ _ _ (fun v r hv hr => ?_) | with_reducible exact okS_err _
    | with_reducible exact okF_err _ | with_reducible refine okS_ok ?_ (fun hr => ?_) | with_reducible refine okF_ok (fun hr => ?_)
    | with_reducible exact setS_sized hr.1 _ _ | split | exact hr.1 | exact hr | exact ⟨hr.1, hr.2⟩ | exact ⟨setS_sized hr.1 _ _, hr.2⟩
    | exact ⟨setP_sized hr.1 _ _, hr.2⟩ | exact ⟨setPair_sized hr.1 _ _ _, hr.2⟩ | exact ⟨setV_sized hr.1 _ _, hr.2⟩
    | exact ⟨setA_sized hr.1 _ _, hr.2⟩)

theorem execPtos_kept (e : Fin 8) (pr : Bool) (d : Fin 32) (a : Fin 8) (s : State) : ∃ out, execPtos e pr d a s = .next out ∧ Kept s out := by
  refine ⟨_, rfl, ?_⟩
  have h : Kept s s := Kept.refl s
  repeat' (first
    | with_reducible assumption | with_reducible exact Kept.refl _
    | with_reducible refine State.instr_kept ?_ _ _ _ _ _ (fun v r hv hr => ?_) | with_reducible exact okS_err _
    | with_reducible exact okF_err _ | with_reducible refine okS_ok ?_ (fun hr => ?_) | with_reducible refine okF_ok (fun hr => ?_)
    | with_reducible exact setS_sized hr.1 _ _ | split | exact hr.1 | exact hr | exact ⟨hr.1, hr.2⟩ | exact ⟨setS_sized hr.1 _ _, hr.2⟩
    | exact ⟨setP_sized hr.1 _ _, hr.2⟩ | exact ⟨setPair_sized hr.1 _ _ _, hr.2⟩ | exact ⟨setV_sized hr.1 _ _, hr.2⟩
    | exact ⟨setA_sized hr.1 _ _, hr.2⟩)

theorem execPsets_kept (e : Fin 8) (pr : Bool) (d : Fin 8) (a : Fin 32) (s : State) : ∃ out, execPsets e pr d a s = .next out ∧ Kept s out := by
  refine ⟨_, rfl, ?_⟩
  have h : Kept s s := Kept.refl s
  repeat' (first
    | with_reducible assumption | with_reducible exact Kept.refl _
    | with_reducible refine State.instr_kept ?_ _ _ _ _ _ (fun v r hv hr => ?_) | with_reducible exact okS_err _
    | with_reducible exact okF_err _ | with_reducible refine okS_ok ?_ (fun hr => ?_) | with_reducible refine okF_ok (fun hr => ?_)
    | with_reducible exact setS_sized hr.1 _ _ | split | exact hr.1 | exact hr | exact ⟨hr.1, hr.2⟩ | exact ⟨setS_sized hr.1 _ _, hr.2⟩
    | exact ⟨setP_sized hr.1 _ _, hr.2⟩ | exact ⟨setPair_sized hr.1 _ _ _, hr.2⟩ | exact ⟨setV_sized hr.1 _ _, hr.2⟩
    | exact ⟨setA_sized hr.1 _ _, hr.2⟩)

theorem execPcnt_kept (e : Fin 8) (pr : Bool) (d : Fin 32) (a : Fin 8) (s : State) : ∃ out, execPcnt e pr d a s = .next out ∧ Kept s out := by
  refine ⟨_, rfl, ?_⟩
  have h : Kept s s := Kept.refl s
  repeat' (first
    | with_reducible assumption | with_reducible exact Kept.refl _
    | with_reducible refine State.instr_kept ?_ _ _ _ _ _ (fun v r hv hr => ?_) | with_reducible exact okS_err _
    | with_reducible exact okF_err _ | with_reducible refine okS_ok ?_ (fun hr => ?_) | with_reducible refine okF_ok (fun hr => ?_)
    | with_reducible exact setS_sized hr.1 _ _ | split | exact hr.1 | exact hr | exact ⟨hr.1, hr.2⟩ | exact ⟨setS_sized hr.1 _ _, hr.2⟩
    | exact ⟨setP_sized hr.1 _ _, hr.2⟩ | exact ⟨setPair_sized hr.1 _ _ _, hr.2⟩ | exact ⟨setV_sized hr.1 _ _, hr.2⟩
    | exact ⟨setA_sized hr.1 _ _, hr.2⟩)

theorem execPfirst_kept (e : Fin 8) (pr : Bool) (d : Fin 32) (a : Fin 8) (s : State) : ∃ out, execPfirst e pr d a s = .next out ∧ Kept s out := by
  refine ⟨_, rfl, ?_⟩
  have h : Kept s s := Kept.refl s
  repeat' (first
    | with_reducible assumption | with_reducible exact Kept.refl _
    | with_reducible refine State.instr_kept ?_ _ _ _ _ _ (fun v r hv hr => ?_) | with_reducible exact okS_err _
    | with_reducible exact okF_err _ | with_reducible refine okS_ok ?_ (fun hr => ?_) | with_reducible refine okF_ok (fun hr => ?_)
    | with_reducible exact setS_sized hr.1 _ _ | split | exact hr.1 | exact hr | exact ⟨hr.1, hr.2⟩ | exact ⟨setS_sized hr.1 _ _, hr.2⟩
    | exact ⟨setP_sized hr.1 _ _, hr.2⟩ | exact ⟨setPair_sized hr.1 _ _ _, hr.2⟩ | exact ⟨setV_sized hr.1 _ _, hr.2⟩
    | exact ⟨setA_sized hr.1 _ _, hr.2⟩)

end Sys2Proof.Laws
end

