-- ==== Sys2Proof/Laws/KeptTick.lean ====
section
/-!
SUPPORT. What the operations of Machine/Tick.lean keep.
-/

set_option linter.all false

namespace Sys2Proof.Laws

open Sys2Proof.Machine


variable {s0 : State}

theorem State.gatherAll_kept {s : State} (h : Kept s0 s) (l : List (Option (Nat × Nat × Nat × Nat))) : Kept s0 (State.gatherAll s l) := by
  unfold State.gatherAll
  repeat' (first
    | with_reducible assumption | with_reducible exact Kept.refl _ | with_reducible apply State.gather_kept
    | with_reducible apply kept_ite | with_reducible refine kept_foldl _ (fun x a hx => ?_) ?_ | split
    | with_reducible exact kept_snd ‹_ = _› (by assumption) | (with_reducible refine kept_snd ‹_ = (_, _)› ?_)
    | (with_reducible refine kept_fst ‹_ = (_, _)› ?_))

theorem State.tickEnds_kept {s : State} (h : Kept s0 s) (o : TickObs) : Kept s0 (State.tickEnds s o) := by
  unfold State.tickEnds
  repeat' (first
    | with_reducible assumption | with_reducible exact Kept.refl _ | with_reducible apply State.accountTick_kept
    | with_reducible apply State.at_kept | with_reducible apply State.countTick_kept | with_reducible apply State.cutRuns_kept
    | with_reducible apply State.gatherAll_kept | with_reducible apply State.jobsDue_kept
    | with_reducible apply State.lnaGather_kept | with_reducible apply State.restartBoundary_kept | with_reducible apply kept_ite
    | split | with_reducible exact kept_snd ‹_ = _› (by assumption) | (with_reducible refine kept_snd ‹_ = (_, _)› ?_)
    | (with_reducible refine kept_fst ‹_ = (_, _)› ?_)
    | (lift_lets; intro x; first | (refine (fun (hx : Kept s0 x) => ?_) ?_; clear_value x) | clear_value x)
    | (intro x; refine (fun (hx : Kept s0 x) => ?_) ?_; clear_value x) | (intro x; clear_value x))

theorem State.takeReqs_kept {s : State} (h : Kept s0 s) (f : ReqKind → Bool) : Kept s0 (State.takeReqs s f).2 := by
  unfold State.takeReqs
  repeat' (first
    | with_reducible assumption | with_reducible exact Kept.refl _ | with_reducible exact kept_snd ‹_ = _› (by assumption)
    | (with_reducible refine kept_snd ‹_ = (_, _)› ?_) | (with_reducible refine kept_fst ‹_ = (_, _)› ?_)
    | (lift_lets; intro x; first | (refine (fun (hx : Kept s0 x) => ?_) ?_; clear_value x) | skip)
    | (intro x; refine (fun (hx : Kept s0 x) => ?_) ?_; clear_value x) | (intro x; skip) | dsimp only | exact id
    | with_reducible exact rfl | with_reducible exact Nat.le_refl _ | with_reducible exact modifyAt_length _ _ _
    | with_reducible exact List.length_map _ | ((with_reducible refine (id ?_ : (_ : Nat) = _)); exact rfl)
    | with_reducible refine Kept.upd ?_ ?_ ?_ ?_ ?_ ?_ ?_ ?_)

theorem State.closeDue_kept {s : State} (h : Kept s0 s) (q : Req) : Kept s0 (State.closeDue s q) := by
  unfold State.closeDue
  repeat' (first
    | with_reducible assumption | with_reducible exact Kept.refl _ | with_reducible apply State.accept_kept
    | with_reducible apply State.cancelOpen_kept | with_reducible apply State.closeEffect_kept
    | with_reducible apply State.complete_kept | with_reducible apply kept_ite | split)

theorem State.tenancyDue_kept {s : State} (h : Kept s0 s) (q : Req) : Kept s0 (State.tenancyDue s q) := by
  unfold State.tenancyDue
  repeat' (first
    | with_reducible assumption | with_reducible exact Kept.refl _ | with_reducible apply State.accept_kept
    | with_reducible apply State.clearEffect_kept | with_reducible apply State.tableEffect_kept
    | with_reducible apply State.tresetEffect_kept | split)

theorem State.runDue_kept {s : State} (h : Kept s0 s) (q : Req) : Kept s0 (State.runDue s q) := by
  unfold State.runDue
  repeat' (first
    | with_reducible assumption | with_reducible exact Kept.refl _ | with_reducible apply State.accept_kept
    | with_reducible apply State.bump_kept | with_reducible apply State.ctxMod_kept | with_reducible apply State.postReq_kept
    | with_reducible apply State.showCtx_kept | with_reducible apply State.wr_kept | with_reducible apply kept_ite
    | with_reducible apply kept_ite1 | with_reducible apply kept_ite2 | split
    | with_reducible exact kept_snd ‹_ = _› (by assumption) | (with_reducible refine kept_snd ‹_ = (_, _)› ?_)
    | (with_reducible refine kept_fst ‹_ = (_, _)› ?_)
    | (lift_lets; intro x; first | (refine (fun (hx : Kept s0 x) => ?_) ?_; clear_value x) | clear_value x)
    | (intro x; refine (fun (hx : Kept s0 x) => ?_) ?_; clear_value x) | (intro x; clear_value x) | dsimp only)

theorem State.openDue_kept {s : State} (h : Kept s0 s) (q : Req) : Kept s0 (State.openDue s q) := by
  unfold State.openDue
  repeat' (first
    | with_reducible assumption | with_reducible exact Kept.refl _ | with_reducible apply State.cancelOpen_kept
    | with_reducible apply State.openCtx_kept | with_reducible apply State.openEffect_kept | with_reducible apply kept_ite
    | with_reducible apply kept_ite1 | with_reducible apply kept_ite2 | split
    | with_reducible exact kept_snd ‹_ = _› (by assumption) | (with_reducible refine kept_snd ‹_ = (_, _)› ?_)
    | (with_reducible refine kept_fst ‹_ = (_, _)› ?_)
    | (lift_lets; intro x; first | (refine (fun (hx : Kept s0 x) => ?_) ?_; clear_value x) | clear_value x)
    | (intro x; refine (fun (hx : Kept s0 x) => ?_) ?_; clear_value x) | (intro x; clear_value x) | dsimp only)

theorem State.ncoDue_kept {s : State} (h : Kept s0 s) (l : List Req) (n : Nat) : Kept s0 (State.ncoDue s l n) := by
  unfold State.ncoDue
  repeat' (first
    | with_reducible assumption | with_reducible exact Kept.refl _ | with_reducible apply State.setNco_kept
    | with_reducible apply kept_ite | with_reducible apply kept_ite1 | with_reducible apply kept_ite2
    | with_reducible refine kept_foldl _ (fun x a hx => ?_) ?_ | split | with_reducible exact kept_snd ‹_ = _› (by assumption)
    | (with_reducible refine kept_snd ‹_ = (_, _)› ?_) | (with_reducible refine kept_fst ‹_ = (_, _)› ?_)
    | (lift_lets; intro x; first | (refine (fun (hx : Kept s0 x) => ?_) ?_; clear_value x) | clear_value x)
    | (intro x; refine (fun (hx : Kept s0 x) => ?_) ?_; clear_value x) | (intro x; clear_value x) | dsimp only)

theorem State.agcDue_kept {s : State} (h : Kept s0 s) (n : Nat) (v : Word) : Kept s0 (State.agcDue s n v) := by
  unfold State.agcDue
  repeat' (first
    | with_reducible assumption | with_reducible exact Kept.refl _ | with_reducible apply State.chnMod_kept)

theorem State.ctxRegDue_kept {s : State} (h : Kept s0 s) (q : Req) : Kept s0 (State.ctxRegDue s q) := by
  unfold State.ctxRegDue
  repeat' (first
    | with_reducible assumption | with_reducible exact Kept.refl _ | with_reducible apply State.accept_kept
    | with_reducible apply State.agcDue_kept | with_reducible apply State.chnReset_kept | with_reducible apply State.postReq_kept
    | with_reducible apply State.wr_kept | with_reducible apply kept_ite | with_reducible apply kept_ite1
    | with_reducible apply kept_ite2 | split | with_reducible exact kept_snd ‹_ = _› (by assumption)
    | (with_reducible refine kept_snd ‹_ = (_, _)› ?_) | (with_reducible refine kept_fst ‹_ = (_, _)› ?_)
    | (lift_lets; intro x; first | (refine (fun (hx : Kept s0 x) => ?_) ?_; clear_value x) | clear_value x)
    | (intro x; refine (fun (hx : Kept s0 x) => ?_) ?_; clear_value x) | (intro x; clear_value x) | dsimp only)

theorem State.regDue_kept {s : State} (h : Kept s0 s) (q : Req) : Kept s0 (State.regDue s q) := by
  unfold State.regDue
  repeat' (first
    | with_reducible assumption | with_reducible exact Kept.refl _ | with_reducible apply State.calFactory_kept
    | with_reducible apply State.ccsMod_kept | with_reducible apply State.fltBoundary_kept
    | with_reducible apply State.hiberStart_kept | with_reducible apply State.rawBoundary_kept | with_reducible apply kept_ite
    | with_reducible apply kept_ite1 | with_reducible apply kept_ite2 | split
    | with_reducible exact kept_snd ‹_ = _› (by assumption) | (with_reducible refine kept_snd ‹_ = (_, _)› ?_)
    | (with_reducible refine kept_fst ‹_ = (_, _)› ?_)
    | (lift_lets; intro x; first | (refine (fun (hx : Kept s0 x) => ?_) ?_; clear_value x) | clear_value x)
    | (intro x; refine (fun (hx : Kept s0 x) => ?_) ?_; clear_value x) | (intro x; clear_value x) | dsimp only)

theorem State.structureDue_kept {s : State} (h : Kept s0 s) (p : Option PlanS) : Kept s0 (State.structureDue s p) := by
  unfold State.structureDue
  repeat' (first
    | with_reducible assumption | with_reducible exact Kept.refl _ | with_reducible apply State.applyPlan_kept
    | with_reducible apply State.closeDue_kept | with_reducible apply State.runDue_kept | with_reducible apply State.takeReqs_kept
    | with_reducible apply State.tenancyDue_kept | with_reducible refine kept_foldl _ (fun x a hx => ?_) ?_ | split
    | with_reducible exact kept_snd ‹_ = _› (by assumption) | (with_reducible refine kept_snd ‹_ = (_, _)› ?_)
    | (with_reducible refine kept_fst ‹_ = (_, _)› ?_)
    | (lift_lets; intro x; first | (refine (fun (hx : Kept s0 x) => ?_) ?_; clear_value x) | clear_value x)
    | (intro x; refine (fun (hx : Kept s0 x) => ?_) ?_; clear_value x) | (intro x; clear_value x) | dsimp only)

theorem State.levelsDue_kept {s : State} (h : Kept s0 s)  : Kept s0 (State.levelsDue s) := by
  unfold State.levelsDue
  repeat' (first
    | with_reducible assumption | with_reducible exact Kept.refl _ | with_reducible apply State.biasEn_kept
    | with_reducible apply State.calDiscard_kept | with_reducible apply State.routeTo_kept
    | with_reducible apply State.takeReqs_kept | with_reducible apply kept_ite | with_reducible apply kept_ite1
    | with_reducible apply kept_ite2 | with_reducible refine kept_foldl _ (fun x a hx => ?_) ?_ | split
    | with_reducible exact kept_snd ‹_ = _› (by assumption) | (with_reducible refine kept_snd ‹_ = (_, _)› ?_)
    | (with_reducible refine kept_fst ‹_ = (_, _)› ?_)
    | (lift_lets; intro x; first | (refine (fun (hx : Kept s0 x) => ?_) ?_; clear_value x) | clear_value x)
    | (intro x; refine (fun (hx : Kept s0 x) => ?_) ?_; clear_value x) | (intro x; clear_value x) | dsimp only)

theorem State.devRegsDue_kept {s : State} (h : Kept s0 s) (hold : Bool) : Kept s0 (State.devRegsDue s hold) := by
  unfold State.devRegsDue
  repeat' (first
    | with_reducible assumption | with_reducible exact Kept.refl _ | with_reducible apply State.regDue_kept
    | with_reducible apply State.takeReqs_kept | with_reducible apply kept_ite | with_reducible apply kept_ite1
    | with_reducible apply kept_ite2 | with_reducible refine kept_foldl _ (fun x a hx => ?_) ?_ | split
    | with_reducible exact kept_snd ‹_ = _› (by assumption) | (with_reducible refine kept_snd ‹_ = (_, _)› ?_)
    | (with_reducible refine kept_fst ‹_ = (_, _)› ?_)
    | (lift_lets; intro x; first | (refine (fun (hx : Kept s0 x) => ?_) ?_; clear_value x) | clear_value x)
    | (intro x; refine (fun (hx : Kept s0 x) => ?_) ?_; clear_value x) | (intro x; clear_value x) | dsimp only)

theorem State.ctxRegsDue_kept {s : State} (h : Kept s0 s)  : Kept s0 (State.ctxRegsDue s) := by
  unfold State.ctxRegsDue
  repeat' (first
    | with_reducible assumption | with_reducible exact Kept.refl _ | with_reducible apply State.ctxRegDue_kept
    | with_reducible apply State.ncoDue_kept | with_reducible apply State.takeReqs_kept | with_reducible apply kept_ite
    | with_reducible apply kept_ite1 | with_reducible apply kept_ite2
    | with_reducible refine kept_foldl _ (fun x a hx => ?_) ?_ | split
    | with_reducible exact kept_snd ‹_ = _› (by assumption) | (with_reducible refine kept_snd ‹_ = (_, _)› ?_)
    | (with_reducible refine kept_fst ‹_ = (_, _)› ?_)
    | (lift_lets; intro x; first | (refine (fun (hx : Kept s0 x) => ?_) ?_; clear_value x) | clear_value x)
    | (intro x; refine (fun (hx : Kept s0 x) => ?_) ?_; clear_value x) | (intro x; clear_value x) | dsimp only)

theorem State.opensDue_kept {s : State} (h : Kept s0 s)  : Kept s0 (State.opensDue s) := by
  unfold State.opensDue
  repeat' (first
    | with_reducible assumption | with_reducible exact Kept.refl _ | with_reducible apply State.openCtx_kept
    | with_reducible apply State.openDue_kept | with_reducible apply State.takeReqs_kept
    | with_reducible refine kept_foldl _ (fun x a hx => ?_) ?_ | split | with_reducible exact kept_snd ‹_ = _› (by assumption)
    | (with_reducible refine kept_snd ‹_ = (_, _)› ?_) | (with_reducible refine kept_fst ‹_ = (_, _)› ?_)
    | (lift_lets; intro x; first | (refine (fun (hx : Kept s0 x) => ?_) ?_; clear_value x) | clear_value x)
    | (intro x; refine (fun (hx : Kept s0 x) => ?_) ?_; clear_value x) | (intro x; clear_value x) | dsimp only)

theorem State.gradeDue_kept {s : State} (h : Kept s0 s) (hold : Bool) : Kept s0 (State.gradeDue s hold) := by
  unfold State.gradeDue
  repeat' (first
    | with_reducible assumption | with_reducible exact Kept.refl _ | with_reducible apply State.calEntrySave_kept
    | with_reducible apply State.clockStamp_kept | with_reducible apply State.ctxMod_kept
    | with_reducible apply State.estMod_kept | with_reducible apply State.gradeBoundary_kept
    | with_reducible apply State.showDef_kept | with_reducible apply State.telJournal_kept | with_reducible apply kept_ite
    | with_reducible apply kept_ite1 | with_reducible apply kept_ite2 | with_reducible refine kept_foldl _ (fun x a hx => ?_) ?_
    | split | with_reducible exact kept_snd ‹_ = _› (by assumption) | (with_reducible refine kept_snd ‹_ = (_, _)› ?_)
    | (with_reducible refine kept_fst ‹_ = (_, _)› ?_)
    | (lift_lets; intro x; first | (refine (fun (hx : Kept s0 x) => ?_) ?_; clear_value x) | clear_value x)
    | (intro x; refine (fun (hx : Kept s0 x) => ?_) ?_; clear_value x) | (intro x; clear_value x) | dsimp only)

theorem State.feDue_kept {s : State} (h : Kept s0 s)  : Kept s0 (State.feDue s) := by
  unfold State.feDue
  repeat' (first
    | with_reducible assumption | with_reducible exact Kept.refl _ | with_reducible apply State.biasShort_kept
    | with_reducible apply State.calBoundary_kept | with_reducible apply State.convPower_kept
    | with_reducible apply State.levelsDue_kept | with_reducible apply State.stepAt_kept | with_reducible apply kept_ite
    | with_reducible apply kept_ite1 | with_reducible apply kept_ite2 | with_reducible refine kept_foldl _ (fun x a hx => ?_) ?_
    | split | with_reducible exact kept_snd ‹_ = _› (by assumption) | (with_reducible refine kept_snd ‹_ = (_, _)› ?_)
    | (with_reducible refine kept_fst ‹_ = (_, _)› ?_)
    | (lift_lets; intro x; first | (refine (fun (hx : Kept s0 x) => ?_) ?_; clear_value x) | clear_value x)
    | (intro x; refine (fun (hx : Kept s0 x) => ?_) ?_; clear_value x) | (intro x; clear_value x) | dsimp only)

theorem State.preselDue_kept {s : State} (h : Kept s0 s)  : Kept s0 (State.preselDue s) := by
  unfold State.preselDue
  repeat' (first
    | with_reducible assumption | with_reducible exact Kept.refl _ | with_reducible apply State.calDiscard_kept
    | with_reducible apply State.preselAt_kept | with_reducible apply kept_ite
    | with_reducible refine kept_foldl _ (fun x a hx => ?_) ?_ | split | with_reducible exact kept_snd ‹_ = _› (by assumption)
    | (with_reducible refine kept_snd ‹_ = (_, _)› ?_) | (with_reducible refine kept_fst ‹_ = (_, _)› ?_)
    | (lift_lets; intro x; first | (refine (fun (hx : Kept s0 x) => ?_) ?_; clear_value x) | clear_value x)
    | (intro x; refine (fun (hx : Kept s0 x) => ?_) ?_; clear_value x) | (intro x; clear_value x))

theorem State.swapsDue_kept {s : State} (h : Kept s0 s)  : Kept s0 (State.swapsDue s) := by
  unfold State.swapsDue
  repeat' (first
    | with_reducible assumption | with_reducible exact Kept.refl _ | with_reducible apply State.rsetN_kept
    | with_reducible apply State.swapsAt_kept | with_reducible refine kept_foldl _ (fun x a hx => ?_) ?_
    | with_reducible exact kept_snd ‹_ = _› (by assumption) | (with_reducible refine kept_snd ‹_ = (_, _)› ?_)
    | (with_reducible refine kept_fst ‹_ = (_, _)› ?_)
    | (lift_lets; intro x; first | (refine (fun (hx : Kept s0 x) => ?_) ?_; clear_value x) | clear_value x)
    | (intro x; refine (fun (hx : Kept s0 x) => ?_) ?_; clear_value x) | (intro x; clear_value x))

theorem State.sensor_kept {s : State} (h : Kept s0 s) (i : Nat) (t : Option Int) : Kept s0 (State.sensor s i t) := by
  unfold State.sensor
  repeat' (first
    | with_reducible assumption | with_reducible exact Kept.refl _ | with_reducible apply State.fault_kept
    | with_reducible apply State.fset_kept | with_reducible apply State.fsetB_kept | with_reducible apply kept_ite | split)

theorem State.sensors_kept {s : State} (h : Kept s0 s) (l : List (Option Int)) : Kept s0 (State.sensors s l) := by
  unfold State.sensors
  repeat' (first
    | with_reducible assumption | with_reducible exact Kept.refl _ | with_reducible apply State.sensor_kept
    | with_reducible refine kept_foldl _ (fun x a hx => ?_) ?_ | with_reducible exact kept_snd ‹_ = _› (by assumption)
    | (with_reducible refine kept_snd ‹_ = (_, _)› ?_) | (with_reducible refine kept_fst ‹_ = (_, _)› ?_))

theorem State.takePlan_kept {s : State} (h : Kept s0 s)  : Kept s0 (State.takePlan s).2 := by
  unfold State.takePlan
  repeat' (first
    | with_reducible assumption | with_reducible exact Kept.refl _ | with_reducible apply State.bump_kept
    | with_reducible apply State.evt_kept | with_reducible apply State.fault_kept | with_reducible apply State.fsetB_kept
    | with_reducible apply State.seqMod_kept | with_reducible apply kept_ite | with_reducible apply kept_ite1
    | with_reducible apply kept_ite2 | split | with_reducible exact kept_snd ‹_ = _› (by assumption)
    | (with_reducible refine kept_snd ‹_ = (_, _)› ?_) | (with_reducible refine kept_fst ‹_ = (_, _)› ?_)
    | (lift_lets; intro x; first | (refine (fun (hx : Kept s0 x) => ?_) ?_; clear_value x) | clear_value x)
    | (intro x; refine (fun (hx : Kept s0 x) => ?_) ?_; clear_value x) | (intro x; clear_value x) | dsimp only)

theorem State.coreDue_kept {s : State} (h : Kept s0 s) (hold : Bool) : Kept s0 (State.coreDue s hold) := by
  unfold State.coreDue
  repeat' (first
    | with_reducible assumption | with_reducible exact Kept.refl _ | with_reducible apply State.coreOpen_kept
    | with_reducible apply State.fsetB_kept | with_reducible apply State.rsetN_kept
    | with_reducible apply State.safeSpare_kept | with_reducible apply State.seqMod_kept | with_reducible apply kept_ite
    | with_reducible apply kept_ite1 | with_reducible apply kept_ite2 | split
    | with_reducible exact kept_snd ‹_ = _› (by assumption) | (with_reducible refine kept_snd ‹_ = (_, _)› ?_)
    | (with_reducible refine kept_fst ‹_ = (_, _)› ?_)
    | (lift_lets; intro x; first | (refine (fun (hx : Kept s0 x) => ?_) ?_; clear_value x) | clear_value x)
    | (intro x; refine (fun (hx : Kept s0 x) => ?_) ?_; clear_value x) | (intro x; clear_value x) | dsimp only)

theorem State.changes_kept {s : State} (h : Kept s0 s) (p : Option PlanS) : Kept s0 (State.changes s p) := by
  unfold State.changes
  repeat' (first
    | with_reducible assumption | with_reducible exact Kept.refl _ | with_reducible apply State.allowPass_kept
    | with_reducible apply State.coreClose_kept | with_reducible apply State.coreDue_kept
    | with_reducible apply State.ctxRegsDue_kept | with_reducible apply State.devRegsDue_kept
    | with_reducible apply State.eccTrips_kept | with_reducible apply State.feDue_kept
    | with_reducible apply State.fences_kept | with_reducible apply State.gradeDue_kept
    | with_reducible apply State.joinCues_kept | with_reducible apply State.opensDue_kept
    | with_reducible apply State.placeSlots_kept | with_reducible apply State.preselDue_kept
    | with_reducible apply State.structureDue_kept | with_reducible apply State.swapsDue_kept
    | with_reducible apply State.tripStops_kept | with_reducible apply kept_ite | with_reducible apply kept_ite1
    | with_reducible apply kept_ite2 | split | with_reducible exact kept_snd ‹_ = _› (by assumption)
    | (with_reducible refine kept_snd ‹_ = (_, _)› ?_) | (with_reducible refine kept_fst ‹_ = (_, _)› ?_)
    | (lift_lets; intro x; first | (refine (fun (hx : Kept s0 x) => ?_) ?_; clear_value x) | clear_value x)
    | (intro x; refine (fun (hx : Kept s0 x) => ?_) ?_; clear_value x) | (intro x; clear_value x) | dsimp only)

/-- What TICK_BOUNDARY keeps: all that the other commands keep, and the tick goes on by one. -/
structure Ticked (s t : State) : Prop where
  pending : t.pending = s.pending
  regs : s.regsOk → t.regsOk
  shape : s.shaped → t.shaped
  clock : upB s.boot = true → upB t.boot = true → s.time.stu ≤ t.time.stu ∧ t.time.tick = s.time.tick + 1

theorem execTickBoundary_kept (o : TickObs) (s : State) : ∃ out, execTickBoundary o s = .next out ∧ (s.up = true → Ticked s out) ∧ (s.up = false → out = s) := by
  by_cases hu : s.up = true
  · refine ⟨_, rfl, fun _ => ?_, fun h => by rw [hu] at h; cases h⟩
    rw [if_neg (by simp [hu])]
    let b : State := { s with time := { s.time with tick := s.time.tick + 1 } }
    have hb : ∀ t, Kept b t → Ticked s t := fun t k =>
      ⟨k.pending, k.regs, fun z => k.shape
        { runs := z.runs, run := z.run, buses := z.buses, tenants := z.tenants, ports := z.ports, latches := z.latches }, k.clock⟩
    apply hb
    have h0 : Kept s (s.tickEnds o) := State.tickEnds_kept (Kept.refl s) o
    have h : Kept b ((s.tickEnds o).timeMod (fun t => { t with tick := s.time.tick + 1 })) :=
      ⟨h0.pending, h0.regs, fun z =>
        let w := h0.shape { runs := z.runs, run := z.run, buses := z.buses, tenants := z.tenants, ports := z.ports, latches := z.latches }
        { runs := w.runs, run := w.run, buses := w.buses, tenants := w.tenants, ports := w.ports, latches := w.latches },
        fun u v => ⟨(h0.clock u v).1, rfl⟩⟩
    generalize (s.tickEnds o).timeMod (fun t => { t with tick := s.time.tick + 1 }) = x at h
    clear_value b
    clear hb h0
    generalize b = s0 at h ⊢
    repeat' (first
      | with_reducible assumption | with_reducible apply State.applyClaims_kept
      | with_reducible apply State.changes_kept | with_reducible apply State.escalate_kept | with_reducible apply State.keepRef_kept | with_reducible apply State.fillMirror_kept
      | with_reducible apply State.hiberDone_kept | with_reducible apply State.rsetN_kept | with_reducible apply State.sensors_kept
      | with_reducible apply State.showSeq_kept | with_reducible apply State.sweepStart_kept | with_reducible apply State.takePlan_kept
      | with_reducible apply State.tickOutRise_kept | with_reducible apply State.foldUnc_kept | with_reducible apply State.trackClass_kept | with_reducible apply kept_ite
      | exact h.upd rfl (List.length_map _) rfl rfl id (Nat.le_refl _) rfl
      | split | with_reducible exact kept_snd ‹_ = _› (by assumption)
      | (with_reducible refine kept_snd ‹_ = (_, _)› ?_)
      | (lift_lets; intro x; first | (refine (fun (hx : Kept s0 x) => ?_) ?_; clear_value x) | skip)
      | (intro x; refine (fun (hx : Kept s0 x) => ?_) ?_; clear_value x) | (intro x; skip) | dsimp only)
  · refine ⟨_, rfl, fun h => absurd h hu, fun h => ?_⟩
    rw [if_pos (by simpa using hu)]

theorem execPlanCutoff_kept (o : CutObs) (s : State) : ∃ out, execPlanCutoff o s = .next out ∧ Kept s out := by
  refine ⟨_, rfl, ?_⟩
  have h : Kept s s := Kept.refl s
  repeat' (first
    | with_reducible assumption | with_reducible exact Kept.refl _ | with_reducible apply State.at_kept
    | with_reducible apply State.feCutoff_kept | with_reducible apply State.planProfile_kept | with_reducible apply State.planSwaps_kept
    | with_reducible apply State.replan_kept | with_reducible apply State.rsetN_kept | with_reducible apply kept_ite | split
    | (lift_lets; intro x; first | (refine (fun (hx : Kept s x) => ?_) ?_; clear_value x) | clear_value x)
    | (intro x; refine (fun (hx : Kept s x) => ?_) ?_; clear_value x) | (intro x; clear_value x))

/-- Handing over a plan built now keeps what the plan's building keeps. -/

theorem handPlan_kept {s : State} (h : Kept s0 s) (k : Nat) : Kept s0 (
    let (p, x) := s.buildPlan k
    x.seqMod (fun q => { q with plan := some p })) := State.seqMod_kept (State.buildPlan_kept h k) _

/-- The spare warden takes over with a new plan. -/

theorem takeOver_kept {s : State} (h : Kept s0 s) : Kept s0 (
    let y := (s.fset Reg.TOP_DOMAIN_SUPERVISOR s.activeWd).fset Reg.FLT_STAT_HBMISS 0
    let (p, x) := y.buildPlan (y.time.tick + 1)
    x.seqMod (fun q => { q with plan := some p })) := handPlan_kept (State.fset_kept (State.fset_kept h _ _) _ _) _

theorem execFailoverComplete_kept (t : Nat) (s : State) : ∃ out, execFailoverComplete t s = .next out ∧ Kept s out := by
  refine ⟨_, rfl, ?_⟩
  have h : Kept s s := Kept.refl s
  repeat' (first
    | with_reducible assumption | with_reducible exact Kept.refl _ | with_reducible apply State.at_kept
    | with_reducible apply State.buildPlan_kept | with_reducible apply State.fault_kept
    | with_reducible apply State.fltMod_kept | with_reducible apply State.fset_kept | with_reducible apply State.seqMod_kept
    | with_reducible apply kept_ite | with_reducible apply kept_ite1 | with_reducible apply kept_ite2 | split
    | with_reducible exact kept_snd ‹_ = _› (by assumption) | (with_reducible refine kept_snd ‹_ = (_, _)› ?_)
    | (with_reducible refine kept_fst ‹_ = (_, _)› ?_)
    | (lift_lets; intro x; first | (refine (fun (hx : Kept s x) => ?_) ?_; clear_value x) | clear_value x)
    | (intro x; refine (fun (hx : Kept s x) => ?_) ?_; clear_value x) | (intro x; clear_value x) | dsimp only)

theorem State.restartEnd_kept {s : State} (h : Kept s0 s) (u : Nat) : Kept s0 (State.restartEnd s u) := by
  unfold State.restartEnd
  repeat' (first
    | with_reducible assumption | with_reducible exact Kept.refl _ | with_reducible apply State.brsRearm_kept
    | with_reducible apply State.evt_kept | with_reducible apply State.fltMod_kept | with_reducible apply State.fset_kept
    | with_reducible apply State.fsetB_kept | with_reducible apply State.rsetN_kept | with_reducible apply State.setWarden_kept
    | with_reducible apply kept_ite | with_reducible apply kept_ite1 | with_reducible apply kept_ite2
    | with_reducible refine kept_foldl _ (fun x a hx => ?_) ?_ | split | with_reducible exact kept_snd ‹_ = _› (by assumption)
    | (with_reducible refine kept_snd ‹_ = (_, _)› ?_) | (with_reducible refine kept_fst ‹_ = (_, _)› ?_)
    | (lift_lets; intro x; first | (refine (fun (hx : Kept s0 x) => ?_) ?_; clear_value x) | clear_value x)
    | (intro x; refine (fun (hx : Kept s0 x) => ?_) ?_; clear_value x) | (intro x; clear_value x) | dsimp only)

theorem execTsRestartComplete_kept (t : Nat) (s : State) : ∃ out, execTsRestartComplete t s = .next out ∧ Kept s out := by
  refine ⟨_, rfl, ?_⟩
  have h : Kept s s := Kept.refl s
  repeat' (first
    | with_reducible assumption | with_reducible exact Kept.refl _ | with_reducible apply State.at_kept
    | with_reducible apply State.buildPlan_kept | with_reducible apply State.deviceReset_kept
    | with_reducible apply State.restartEnd_kept | with_reducible apply State.seqMod_kept | with_reducible apply kept_ite
    | with_reducible apply kept_ite1 | with_reducible apply kept_ite2 | split
    | with_reducible exact kept_snd ‹_ = _› (by assumption) | (with_reducible refine kept_snd ‹_ = (_, _)› ?_)
    | (with_reducible refine kept_fst ‹_ = (_, _)› ?_)
    | (lift_lets; intro x; first | (refine (fun (hx : Kept s x) => ?_) ?_; clear_value x) | clear_value x)
    | (intro x; refine (fun (hx : Kept s x) => ?_) ?_; clear_value x) | (intro x; clear_value x) | dsimp only)

theorem execFirstPlannedTick_kept (edge raw : Nat) (s : State) : ∃ out, execFirstPlannedTick edge raw s = .next out ∧ Kept s out := by
  refine ⟨_, rfl, ?_⟩
  have h : Kept s s := Kept.refl s
  repeat' (first
    | exact id | with_reducible assumption | with_reducible exact Kept.refl _
    | with_reducible refine State.bootMod_kept ?_ _ (fun z => ?_) | with_reducible apply State.bootRecord_kept
    | with_reducible apply State.calStart_kept | with_reducible apply State.obsBegin_kept
    | with_reducible apply State.rtcStart_kept | with_reducible apply kept_ite | split
    | with_reducible exact kept_snd ‹_ = _› (by assumption) | (with_reducible refine kept_snd ‹_ = (_, _)› ?_)
    | (with_reducible refine kept_fst ‹_ = (_, _)› ?_)
    | (lift_lets; intro x; first | (refine (fun (hx : Kept s x) => ?_) ?_; clear_value x) | skip)
    | (intro x; refine (fun (hx : Kept s x) => ?_) ?_; clear_value x) | (intro x; skip)
    | exact ⟨modifyAt_length _ _ _, Nat.le_refl _, rfl⟩ | exact ⟨rfl, Nat.le_refl _, rfl⟩ | exact ⟨rfl, Nat.le_max_left _ _, rfl⟩
    | exact ⟨rfl, Nat.le_add_right _ _, rfl⟩ | exact ⟨modifyAt_length _ _ _, modifyAt_length _ _ _⟩
    | exact ⟨rfl, modifyAt_length _ _ _⟩ | exact ⟨modifyAt_length _ _ _, rfl⟩ | exact ⟨rfl, rfl⟩ | with_reducible exact rfl
    | with_reducible exact Nat.le_refl _ | with_reducible exact modifyAt_length _ _ _ | with_reducible exact List.length_map _
    | ((with_reducible refine (id ?_ : (_ : Nat) = _)); exact rfl) | with_reducible refine And.intro ?_ ?_)

theorem execReadyEvt_kept  (s : State) : ∃ out, execReadyEvt s = .next out ∧ Kept s out := by
  refine ⟨_, rfl, ?_⟩
  have h : Kept s s := Kept.refl s
  repeat' (first
    | with_reducible assumption | with_reducible exact Kept.refl _ | with_reducible apply State.fsetB_kept
    | with_reducible apply kept_ite | split)

end Sys2Proof.Laws
end

