-- ==== Sys2Proof/Laws/KeptVector.lean ====
section
/-!
SUPPORT. What the operations of Machine/Vector.lean keep.
-/

set_option linter.all false

namespace Sys2Proof.Laws

open Sys2Proof.Machine


variable {s0 : State}

theorem State.typed_kept {s : State} (h : Kept s0 s) (tys : List VTy) (ty : VTy) (f : State → State) (hf : ∀ x0, Kept s0 x0 → Kept s0 (f x0)) : Kept s0 (State.typed s tys ty f) := by
  unfold State.typed
  repeat' (first
    | with_reducible assumption | with_reducible exact Kept.refl _ | with_reducible apply hf | with_reducible apply kept_ite
    | with_reducible exact okS_err _ | with_reducible exact okF_err _ | with_reducible refine okS_ok ?_ (fun hr => ?_)
    | with_reducible refine okF_ok (fun hr => ?_) | with_reducible exact setS_sized hr.1 _ _ | split | exact hr.1 | exact hr
    | exact ⟨hr.1, hr.2⟩ | exact ⟨setS_sized hr.1 _ _, hr.2⟩ | exact ⟨setP_sized hr.1 _ _, hr.2⟩
    | exact ⟨setPair_sized hr.1 _ _ _, hr.2⟩ | exact ⟨setV_sized hr.1 _ _, hr.2⟩ | exact ⟨setA_sized hr.1 _ _, hr.2⟩)

theorem State.vcomp_kept {s : State} (h : Kept s0 s) (e : Nat) (pr : Bool) (cost g : Nat) (ty : VTy) (d a b : Nat) (f : Nat → Int → Int → Int) : Kept s0 (State.vcomp s e pr cost g ty d a b f) := by
  unfold State.vcomp
  repeat' (first
    | with_reducible assumption | with_reducible exact Kept.refl _
    | with_reducible refine State.instr_kept ?_ _ _ _ _ _ (fun v r hv hr => ?_)
    | (lift_lets; intro x; first | (refine (fun (hx : Kept s0 x) => ?_) ?_; clear_value x) | clear_value x)
    | (intro x; refine (fun (hx : Kept s0 x) => ?_) ?_; clear_value x) | (intro x; clear_value x) | with_reducible exact okS_err _
    | with_reducible exact okF_err _ | with_reducible refine okS_ok ?_ (fun hr => ?_) | with_reducible refine okF_ok (fun hr => ?_)
    | with_reducible exact setS_sized hr.1 _ _ | split | exact hr.1 | exact hr | exact ⟨hr.1, hr.2⟩ | exact ⟨setS_sized hr.1 _ _, hr.2⟩
    | exact ⟨setP_sized hr.1 _ _, hr.2⟩ | exact ⟨setPair_sized hr.1 _ _ _, hr.2⟩ | exact ⟨setV_sized hr.1 _ _, hr.2⟩
    | exact ⟨setA_sized hr.1 _ _, hr.2⟩)

theorem State.vgen_kept {s : State} (h : Kept s0 s) (e : Nat) (pr : Bool) (cost g : Nat) (ty : VTy) (d : Nat) (f : PairS → Nat → Int) : Kept s0 (State.vgen s e pr cost g ty d f) := by
  unfold State.vgen
  repeat' (first
    | with_reducible assumption | with_reducible exact Kept.refl _
    | with_reducible refine State.instr_kept ?_ _ _ _ _ _ (fun v r hv hr => ?_) | with_reducible exact okS_err _
    | with_reducible exact okF_err _ | with_reducible refine okS_ok ?_ (fun hr => ?_) | with_reducible refine okF_ok (fun hr => ?_)
    | with_reducible exact setS_sized hr.1 _ _ | split | exact hr.1 | exact hr | exact ⟨hr.1, hr.2⟩ | exact ⟨setS_sized hr.1 _ _, hr.2⟩
    | exact ⟨setP_sized hr.1 _ _, hr.2⟩ | exact ⟨setPair_sized hr.1 _ _ _, hr.2⟩ | exact ⟨setV_sized hr.1 _ _, hr.2⟩
    | exact ⟨setA_sized hr.1 _ _, hr.2⟩)

theorem State.vred_kept {s : State} (h : Kept s0 s) (e : Nat) (pr : Bool) (cost g d a : Nat) (f : Word → Vec → Word) : Kept s0 (State.vred s e pr cost g d a f) := by
  unfold State.vred
  repeat' (first
    | with_reducible assumption | with_reducible exact Kept.refl _
    | with_reducible refine State.instr_kept ?_ _ _ _ _ _ (fun v r hv hr => ?_) | with_reducible exact okS_err _
    | with_reducible exact okF_err _ | with_reducible refine okS_ok ?_ (fun hr => ?_) | with_reducible refine okF_ok (fun hr => ?_)
    | with_reducible exact setS_sized hr.1 _ _ | split | exact hr.1 | exact hr | exact ⟨hr.1, hr.2⟩ | exact ⟨setS_sized hr.1 _ _, hr.2⟩
    | exact ⟨setP_sized hr.1 _ _, hr.2⟩ | exact ⟨setPair_sized hr.1 _ _ _, hr.2⟩ | exact ⟨setV_sized hr.1 _ _, hr.2⟩
    | exact ⟨setA_sized hr.1 _ _, hr.2⟩)

theorem State.vacc_kept {s : State} (h : Kept s0 s) (e : Nat) (pr : Bool) (cost g k : Nat) (f : PairS → Nat → Int → Int) : Kept s0 (State.vacc s e pr cost g k f) := by
  unfold State.vacc
  repeat' (first
    | with_reducible assumption | with_reducible exact Kept.refl _
    | with_reducible refine State.instr_kept ?_ _ _ _ _ _ (fun v r hv hr => ?_) | with_reducible apply kept_ite
    | with_reducible exact okS_err _ | with_reducible exact okF_err _ | with_reducible refine okS_ok ?_ (fun hr => ?_)
    | with_reducible refine okF_ok (fun hr => ?_) | with_reducible exact setS_sized hr.1 _ _ | split
    | (lift_lets; intro x; first | (refine (fun (hx : Kept s0 x) => ?_) ?_; clear_value x) | clear_value x)
    | (intro x; refine (fun (hx : Kept s0 x) => ?_) ?_; clear_value x) | (intro x; clear_value x) | exact hr.1 | exact hr
    | exact ⟨hr.1, hr.2⟩ | exact ⟨setS_sized hr.1 _ _, hr.2⟩ | exact ⟨setP_sized hr.1 _ _, hr.2⟩
    | exact ⟨setPair_sized hr.1 _ _ _, hr.2⟩ | exact ⟨setV_sized hr.1 _ _, hr.2⟩ | exact ⟨setA_sized hr.1 _ _, hr.2⟩)

theorem execVadd_kept (e : Fin 8) (pr : Bool) (g : Fin 8) (ty : VTy) (d a b : Fin 32) (s : State) : ∃ out, execVadd e pr g ty d a b s = .next out ∧ Kept s out := by
  refine ⟨_, rfl, ?_⟩
  have h : Kept s s := Kept.refl s
  repeat' (first
    | with_reducible assumption | with_reducible exact Kept.refl _ | with_reducible refine State.typed_kept ?_ _ _ _ (fun x hx => ?_)
    | with_reducible apply State.vcomp_kept | with_reducible exact okS_err _ | with_reducible exact okF_err _
    | with_reducible refine okS_ok ?_ (fun hr => ?_) | with_reducible refine okF_ok (fun hr => ?_)
    | with_reducible exact setS_sized hr.1 _ _ | split | exact hr.1 | exact hr | exact ⟨hr.1, hr.2⟩ | exact ⟨setS_sized hr.1 _ _, hr.2⟩
    | exact ⟨setP_sized hr.1 _ _, hr.2⟩ | exact ⟨setPair_sized hr.1 _ _ _, hr.2⟩ | exact ⟨setV_sized hr.1 _ _, hr.2⟩
    | exact ⟨setA_sized hr.1 _ _, hr.2⟩)

theorem execVsub_kept (e : Fin 8) (pr : Bool) (g : Fin 8) (ty : VTy) (d a b : Fin 32) (s : State) : ∃ out, execVsub e pr g ty d a b s = .next out ∧ Kept s out := by
  refine ⟨_, rfl, ?_⟩
  have h : Kept s s := Kept.refl s
  repeat' (first
    | with_reducible assumption | with_reducible exact Kept.refl _ | with_reducible refine State.typed_kept ?_ _ _ _ (fun x hx => ?_)
    | with_reducible apply State.vcomp_kept | with_reducible exact okS_err _ | with_reducible exact okF_err _
    | with_reducible refine okS_ok ?_ (fun hr => ?_) | with_reducible refine okF_ok (fun hr => ?_)
    | with_reducible exact setS_sized hr.1 _ _ | split | exact hr.1 | exact hr | exact ⟨hr.1, hr.2⟩ | exact ⟨setS_sized hr.1 _ _, hr.2⟩
    | exact ⟨setP_sized hr.1 _ _, hr.2⟩ | exact ⟨setPair_sized hr.1 _ _ _, hr.2⟩ | exact ⟨setV_sized hr.1 _ _, hr.2⟩
    | exact ⟨setA_sized hr.1 _ _, hr.2⟩)

theorem execVadds_kept (e : Fin 8) (pr : Bool) (g : Fin 8) (ty : VTy) (d a b : Fin 32) (s : State) : ∃ out, execVadds e pr g ty d a b s = .next out ∧ Kept s out := by
  refine ⟨_, rfl, ?_⟩
  have h : Kept s s := Kept.refl s
  repeat' (first
    | with_reducible assumption | with_reducible exact Kept.refl _ | with_reducible refine State.typed_kept ?_ _ _ _ (fun x hx => ?_)
    | with_reducible apply State.vcomp_kept | with_reducible exact okS_err _ | with_reducible exact okF_err _
    | with_reducible refine okS_ok ?_ (fun hr => ?_) | with_reducible refine okF_ok (fun hr => ?_)
    | with_reducible exact setS_sized hr.1 _ _ | split | exact hr.1 | exact hr | exact ⟨hr.1, hr.2⟩ | exact ⟨setS_sized hr.1 _ _, hr.2⟩
    | exact ⟨setP_sized hr.1 _ _, hr.2⟩ | exact ⟨setPair_sized hr.1 _ _ _, hr.2⟩ | exact ⟨setV_sized hr.1 _ _, hr.2⟩
    | exact ⟨setA_sized hr.1 _ _, hr.2⟩)

theorem execVsubs_kept (e : Fin 8) (pr : Bool) (g : Fin 8) (ty : VTy) (d a b : Fin 32) (s : State) : ∃ out, execVsubs e pr g ty d a b s = .next out ∧ Kept s out := by
  refine ⟨_, rfl, ?_⟩
  have h : Kept s s := Kept.refl s
  repeat' (first
    | with_reducible assumption | with_reducible exact Kept.refl _ | with_reducible refine State.typed_kept ?_ _ _ _ (fun x hx => ?_)
    | with_reducible apply State.vcomp_kept | with_reducible exact okS_err _ | with_reducible exact okF_err _
    | with_reducible refine okS_ok ?_ (fun hr => ?_) | with_reducible refine okF_ok (fun hr => ?_)
    | with_reducible exact setS_sized hr.1 _ _ | split | exact hr.1 | exact hr | exact ⟨hr.1, hr.2⟩ | exact ⟨setS_sized hr.1 _ _, hr.2⟩
    | exact ⟨setP_sized hr.1 _ _, hr.2⟩ | exact ⟨setPair_sized hr.1 _ _ _, hr.2⟩ | exact ⟨setV_sized hr.1 _ _, hr.2⟩
    | exact ⟨setA_sized hr.1 _ _, hr.2⟩)

theorem execVmin_kept (e : Fin 8) (pr : Bool) (g : Fin 8) (ty : VTy) (d a b : Fin 32) (s : State) : ∃ out, execVmin e pr g ty d a b s = .next out ∧ Kept s out := by
  refine ⟨_, rfl, ?_⟩
  have h : Kept s s := Kept.refl s
  repeat' (first
    | with_reducible assumption | with_reducible exact Kept.refl _ | with_reducible refine State.typed_kept ?_ _ _ _ (fun x hx => ?_)
    | with_reducible apply State.vcomp_kept | with_reducible apply kept_ite | with_reducible exact okS_err _
    | with_reducible exact okF_err _ | with_reducible refine okS_ok ?_ (fun hr => ?_) | with_reducible refine okF_ok (fun hr => ?_)
    | with_reducible exact setS_sized hr.1 _ _ | split | exact hr.1 | exact hr | exact ⟨hr.1, hr.2⟩ | exact ⟨setS_sized hr.1 _ _, hr.2⟩
    | exact ⟨setP_sized hr.1 _ _, hr.2⟩ | exact ⟨setPair_sized hr.1 _ _ _, hr.2⟩ | exact ⟨setV_sized hr.1 _ _, hr.2⟩
    | exact ⟨setA_sized hr.1 _ _, hr.2⟩)

theorem execVmax_kept (e : Fin 8) (pr : Bool) (g : Fin 8) (ty : VTy) (d a b : Fin 32) (s : State) : ∃ out, execVmax e pr g ty d a b s = .next out ∧ Kept s out := by
  refine ⟨_, rfl, ?_⟩
  have h : Kept s s := Kept.refl s
  repeat' (first
    | with_reducible assumption | with_reducible exact Kept.refl _ | with_reducible refine State.typed_kept ?_ _ _ _ (fun x hx => ?_)
    | with_reducible apply State.vcomp_kept | with_reducible apply kept_ite | with_reducible exact okS_err _
    | with_reducible exact okF_err _ | with_reducible refine okS_ok ?_ (fun hr => ?_) | with_reducible refine okF_ok (fun hr => ?_)
    | with_reducible exact setS_sized hr.1 _ _ | split | exact hr.1 | exact hr | exact ⟨hr.1, hr.2⟩ | exact ⟨setS_sized hr.1 _ _, hr.2⟩
    | exact ⟨setP_sized hr.1 _ _, hr.2⟩ | exact ⟨setPair_sized hr.1 _ _ _, hr.2⟩ | exact ⟨setV_sized hr.1 _ _, hr.2⟩
    | exact ⟨setA_sized hr.1 _ _, hr.2⟩)

theorem execVabs_kept (e : Fin 8) (pr : Bool) (g : Fin 8) (ty : VTy) (d a : Fin 32) (s : State) : ∃ out, execVabs e pr g ty d a s = .next out ∧ Kept s out := by
  refine ⟨_, rfl, ?_⟩
  have h : Kept s s := Kept.refl s
  repeat' (first
    | with_reducible assumption | with_reducible exact Kept.refl _ | with_reducible refine State.typed_kept ?_ _ _ _ (fun x hx => ?_)
    | with_reducible apply State.vcomp_kept | with_reducible apply kept_ite | with_reducible exact okS_err _
    | with_reducible exact okF_err _ | with_reducible refine okS_ok ?_ (fun hr => ?_) | with_reducible refine okF_ok (fun hr => ?_)
    | with_reducible exact setS_sized hr.1 _ _ | split | exact hr.1 | exact hr | exact ⟨hr.1, hr.2⟩ | exact ⟨setS_sized hr.1 _ _, hr.2⟩
    | exact ⟨setP_sized hr.1 _ _, hr.2⟩ | exact ⟨setPair_sized hr.1 _ _ _, hr.2⟩ | exact ⟨setV_sized hr.1 _ _, hr.2⟩
    | exact ⟨setA_sized hr.1 _ _, hr.2⟩)

theorem execVneg_kept (e : Fin 8) (pr : Bool) (g : Fin 8) (ty : VTy) (d a : Fin 32) (s : State) : ∃ out, execVneg e pr g ty d a s = .next out ∧ Kept s out := by
  refine ⟨_, rfl, ?_⟩
  have h : Kept s s := Kept.refl s
  repeat' (first
    | with_reducible assumption | with_reducible exact Kept.refl _ | with_reducible refine State.typed_kept ?_ _ _ _ (fun x hx => ?_)
    | with_reducible apply State.vcomp_kept | with_reducible exact okS_err _ | with_reducible exact okF_err _
    | with_reducible refine okS_ok ?_ (fun hr => ?_) | with_reducible refine okF_ok (fun hr => ?_)
    | with_reducible exact setS_sized hr.1 _ _ | split | exact hr.1 | exact hr | exact ⟨hr.1, hr.2⟩ | exact ⟨setS_sized hr.1 _ _, hr.2⟩
    | exact ⟨setP_sized hr.1 _ _, hr.2⟩ | exact ⟨setPair_sized hr.1 _ _ _, hr.2⟩ | exact ⟨setV_sized hr.1 _ _, hr.2⟩
    | exact ⟨setA_sized hr.1 _ _, hr.2⟩)

theorem execVavg_kept (e : Fin 8) (pr : Bool) (g : Fin 8) (ty : VTy) (d a b : Fin 32) (s : State) : ∃ out, execVavg e pr g ty d a b s = .next out ∧ Kept s out := by
  refine ⟨_, rfl, ?_⟩
  have h : Kept s s := Kept.refl s
  repeat' (first
    | with_reducible assumption | with_reducible exact Kept.refl _ | with_reducible refine State.typed_kept ?_ _ _ _ (fun x hx => ?_)
    | with_reducible apply State.vcomp_kept | with_reducible exact okS_err _ | with_reducible exact okF_err _
    | with_reducible refine okS_ok ?_ (fun hr => ?_) | with_reducible refine okF_ok (fun hr => ?_)
    | with_reducible exact setS_sized hr.1 _ _ | split | exact hr.1 | exact hr | exact ⟨hr.1, hr.2⟩ | exact ⟨setS_sized hr.1 _ _, hr.2⟩
    | exact ⟨setP_sized hr.1 _ _, hr.2⟩ | exact ⟨setPair_sized hr.1 _ _ _, hr.2⟩ | exact ⟨setV_sized hr.1 _ _, hr.2⟩
    | exact ⟨setA_sized hr.1 _ _, hr.2⟩)

theorem execVconj_kept (e : Fin 8) (pr : Bool) (g : Fin 8) (ty : VTy) (d a : Fin 32) (s : State) : ∃ out, execVconj e pr g ty d a s = .next out ∧ Kept s out := by
  refine ⟨_, rfl, ?_⟩
  have h : Kept s s := Kept.refl s
  repeat' (first
    | with_reducible assumption | with_reducible exact Kept.refl _ | with_reducible refine State.typed_kept ?_ _ _ _ (fun x hx => ?_)
    | with_reducible apply State.vcomp_kept | with_reducible apply kept_ite | with_reducible exact okS_err _
    | with_reducible exact okF_err _ | with_reducible refine okS_ok ?_ (fun hr => ?_) | with_reducible refine okF_ok (fun hr => ?_)
    | with_reducible exact setS_sized hr.1 _ _ | split | exact hr.1 | exact hr | exact ⟨hr.1, hr.2⟩ | exact ⟨setS_sized hr.1 _ _, hr.2⟩
    | exact ⟨setP_sized hr.1 _ _, hr.2⟩ | exact ⟨setPair_sized hr.1 _ _ _, hr.2⟩ | exact ⟨setV_sized hr.1 _ _, hr.2⟩
    | exact ⟨setA_sized hr.1 _ _, hr.2⟩)

theorem execVsel_kept (e : Fin 8) (pr : Bool) (g : Fin 8) (ty : VTy) (d a b : Fin 32) (s : State) : ∃ out, execVsel e pr g ty d a b s = .next out ∧ Kept s out := by
  refine ⟨_, rfl, ?_⟩
  have h : Kept s s := Kept.refl s
  repeat' (first
    | with_reducible assumption | with_reducible exact Kept.refl _
    | with_reducible refine State.instr_kept ?_ _ _ _ _ _ (fun v r hv hr => ?_)
    | (lift_lets; intro x; first | (refine (fun (hx : Kept s x) => ?_) ?_; clear_value x) | clear_value x)
    | (intro x; refine (fun (hx : Kept s x) => ?_) ?_; clear_value x) | (intro x; clear_value x) | with_reducible exact okS_err _
    | with_reducible exact okF_err _ | with_reducible refine okS_ok ?_ (fun hr => ?_) | with_reducible refine okF_ok (fun hr => ?_)
    | with_reducible exact setS_sized hr.1 _ _ | split | exact hr.1 | exact hr | exact ⟨hr.1, hr.2⟩ | exact ⟨setS_sized hr.1 _ _, hr.2⟩
    | exact ⟨setP_sized hr.1 _ _, hr.2⟩ | exact ⟨setPair_sized hr.1 _ _ _, hr.2⟩ | exact ⟨setV_sized hr.1 _ _, hr.2⟩
    | exact ⟨setA_sized hr.1 _ _, hr.2⟩)

theorem execVmovv_kept (e : Fin 8) (pr : Bool) (g : Fin 8) (ty : VTy) (d a : Fin 32) (s : State) : ∃ out, execVmovv e pr g ty d a s = .next out ∧ Kept s out := by
  refine ⟨_, rfl, ?_⟩
  have h : Kept s s := Kept.refl s
  repeat' (first
    | with_reducible assumption | with_reducible exact Kept.refl _ | with_reducible refine State.typed_kept ?_ _ _ _ (fun x hx => ?_)
    | with_reducible apply State.vcomp_kept | with_reducible exact okS_err _ | with_reducible exact okF_err _
    | with_reducible refine okS_ok ?_ (fun hr => ?_) | with_reducible refine okF_ok (fun hr => ?_)
    | with_reducible exact setS_sized hr.1 _ _ | split | exact hr.1 | exact hr | exact ⟨hr.1, hr.2⟩ | exact ⟨setS_sized hr.1 _ _, hr.2⟩
    | exact ⟨setP_sized hr.1 _ _, hr.2⟩ | exact ⟨setPair_sized hr.1 _ _ _, hr.2⟩ | exact ⟨setV_sized hr.1 _ _, hr.2⟩
    | exact ⟨setA_sized hr.1 _ _, hr.2⟩)

theorem execVmul_kept (e : Fin 8) (pr : Bool) (g : Fin 8) (ty : VTy) (d a b : Fin 32) (s : State) : ∃ out, execVmul e pr g ty d a b s = .next out ∧ Kept s out := by
  refine ⟨_, rfl, ?_⟩
  have h : Kept s s := Kept.refl s
  repeat' (first
    | with_reducible assumption | with_reducible exact Kept.refl _ | with_reducible refine State.typed_kept ?_ _ _ _ (fun x hx => ?_)
    | with_reducible apply State.vgen_kept | with_reducible exact okS_err _ | with_reducible exact okF_err _
    | with_reducible refine okS_ok ?_ (fun hr => ?_) | with_reducible refine okF_ok (fun hr => ?_)
    | with_reducible exact setS_sized hr.1 _ _ | split | exact hr.1 | exact hr | exact ⟨hr.1, hr.2⟩ | exact ⟨setS_sized hr.1 _ _, hr.2⟩
    | exact ⟨setP_sized hr.1 _ _, hr.2⟩ | exact ⟨setPair_sized hr.1 _ _ _, hr.2⟩ | exact ⟨setV_sized hr.1 _ _, hr.2⟩
    | exact ⟨setA_sized hr.1 _ _, hr.2⟩)

theorem execVcmulc_kept (e : Fin 8) (pr : Bool) (g : Fin 8) (ty : VTy) (d a b : Fin 32) (s : State) : ∃ out, execVcmulc e pr g ty d a b s = .next out ∧ Kept s out := by
  refine ⟨_, rfl, ?_⟩
  have h : Kept s s := Kept.refl s
  repeat' (first
    | with_reducible assumption | with_reducible exact Kept.refl _ | with_reducible refine State.typed_kept ?_ _ _ _ (fun x hx => ?_)
    | with_reducible apply State.vgen_kept | with_reducible exact okS_err _ | with_reducible exact okF_err _
    | with_reducible refine okS_ok ?_ (fun hr => ?_) | with_reducible refine okF_ok (fun hr => ?_)
    | with_reducible exact setS_sized hr.1 _ _ | split | exact hr.1 | exact hr | exact ⟨hr.1, hr.2⟩ | exact ⟨setS_sized hr.1 _ _, hr.2⟩
    | exact ⟨setP_sized hr.1 _ _, hr.2⟩ | exact ⟨setPair_sized hr.1 _ _ _, hr.2⟩ | exact ⟨setV_sized hr.1 _ _, hr.2⟩
    | exact ⟨setA_sized hr.1 _ _, hr.2⟩)

theorem State.vcacc_kept {s : State} (h : Kept s0 s) (e : Nat) (pr : Bool) (cost g k a b : Nat) (conj : Bool) : Kept s0 (State.vcacc s e pr cost g k a b conj) := by
  unfold State.vcacc
  repeat' (first
    | with_reducible assumption | with_reducible exact Kept.refl _
    | with_reducible refine State.instr_kept ?_ _ _ _ _ _ (fun v r hv hr => ?_) | with_reducible apply kept_ite
    | with_reducible exact okS_err _ | with_reducible exact okF_err _ | with_reducible refine okS_ok ?_ (fun hr => ?_)
    | with_reducible refine okF_ok (fun hr => ?_) | with_reducible exact setS_sized hr.1 _ _ | split
    | (lift_lets; intro x; first | (refine (fun (hx : Kept s0 x) => ?_) ?_; clear_value x) | clear_value x)
    | (intro x; refine (fun (hx : Kept s0 x) => ?_) ?_; clear_value x) | (intro x; clear_value x) | exact hr.1 | exact hr
    | exact ⟨hr.1, hr.2⟩ | exact ⟨setS_sized hr.1 _ _, hr.2⟩ | exact ⟨setP_sized hr.1 _ _, hr.2⟩
    | exact ⟨setPair_sized hr.1 _ _ _, hr.2⟩ | exact ⟨setV_sized hr.1 _ _, hr.2⟩ | exact ⟨setA_sized hr.1 _ _, hr.2⟩)

theorem execVmac_kept (e : Fin 8) (pr : Bool) (g : Fin 8) (ty : VTy) (k : Fin 4) (a b : Fin 32) (s : State) : ∃ out, execVmac e pr g ty k a b s = .next out ∧ Kept s out := by
  refine ⟨_, rfl, ?_⟩
  have h : Kept s s := Kept.refl s
  repeat' (first
    | with_reducible assumption | with_reducible exact Kept.refl _ | with_reducible refine State.typed_kept ?_ _ _ _ (fun x hx => ?_)
    | with_reducible apply State.vacc_kept | with_reducible exact okS_err _ | with_reducible exact okF_err _
    | with_reducible refine okS_ok ?_ (fun hr => ?_) | with_reducible refine okF_ok (fun hr => ?_)
    | with_reducible exact setS_sized hr.1 _ _ | split | exact hr.1 | exact hr | exact ⟨hr.1, hr.2⟩ | exact ⟨setS_sized hr.1 _ _, hr.2⟩
    | exact ⟨setP_sized hr.1 _ _, hr.2⟩ | exact ⟨setPair_sized hr.1 _ _ _, hr.2⟩ | exact ⟨setV_sized hr.1 _ _, hr.2⟩
    | exact ⟨setA_sized hr.1 _ _, hr.2⟩)

theorem execVmsu_kept (e : Fin 8) (pr : Bool) (g : Fin 8) (ty : VTy) (k : Fin 4) (a b : Fin 32) (s : State) : ∃ out, execVmsu e pr g ty k a b s = .next out ∧ Kept s out := by
  refine ⟨_, rfl, ?_⟩
  have h : Kept s s := Kept.refl s
  repeat' (first
    | with_reducible assumption | with_reducible exact Kept.refl _ | with_reducible refine State.typed_kept ?_ _ _ _ (fun x hx => ?_)
    | with_reducible apply State.vacc_kept | with_reducible exact okS_err _ | with_reducible exact okF_err _
    | with_reducible refine okS_ok ?_ (fun hr => ?_) | with_reducible refine okF_ok (fun hr => ?_)
    | with_reducible exact setS_sized hr.1 _ _ | split | exact hr.1 | exact hr | exact ⟨hr.1, hr.2⟩ | exact ⟨setS_sized hr.1 _ _, hr.2⟩
    | exact ⟨setP_sized hr.1 _ _, hr.2⟩ | exact ⟨setPair_sized hr.1 _ _ _, hr.2⟩ | exact ⟨setV_sized hr.1 _ _, hr.2⟩
    | exact ⟨setA_sized hr.1 _ _, hr.2⟩)

theorem execVcmac_kept (e : Fin 8) (pr : Bool) (g : Fin 8) (k : Fin 4) (a b : Fin 32) (s : State) : ∃ out, execVcmac e pr g k a b s = .next out ∧ Kept s out := by
  refine ⟨_, rfl, ?_⟩
  have h : Kept s s := Kept.refl s
  repeat' (first
    | with_reducible assumption | with_reducible exact Kept.refl _ | with_reducible apply State.vcacc_kept
    | with_reducible exact okS_err _ | with_reducible exact okF_err _ | with_reducible refine okS_ok ?_ (fun hr => ?_)
    | with_reducible refine okF_ok (fun hr => ?_) | with_reducible exact setS_sized hr.1 _ _ | split | exact hr.1 | exact hr
    | exact ⟨hr.1, hr.2⟩ | exact ⟨setS_sized hr.1 _ _, hr.2⟩ | exact ⟨setP_sized hr.1 _ _, hr.2⟩
    | exact ⟨setPair_sized hr.1 _ _ _, hr.2⟩ | exact ⟨setV_sized hr.1 _ _, hr.2⟩ | exact ⟨setA_sized hr.1 _ _, hr.2⟩)

theorem execVcmacc_kept (e : Fin 8) (pr : Bool) (g : Fin 8) (k : Fin 4) (a b : Fin 32) (s : State) : ∃ out, execVcmacc e pr g k a b s = .next out ∧ Kept s out := by
  refine ⟨_, rfl, ?_⟩
  have h : Kept s s := Kept.refl s
  repeat' (first
    | with_reducible assumption | with_reducible exact Kept.refl _ | with_reducible apply State.vcacc_kept
    | with_reducible exact okS_err _ | with_reducible exact okF_err _ | with_reducible refine okS_ok ?_ (fun hr => ?_)
    | with_reducible refine okF_ok (fun hr => ?_) | with_reducible exact setS_sized hr.1 _ _ | split | exact hr.1 | exact hr
    | exact ⟨hr.1, hr.2⟩ | exact ⟨setS_sized hr.1 _ _, hr.2⟩ | exact ⟨setP_sized hr.1 _ _, hr.2⟩
    | exact ⟨setPair_sized hr.1 _ _ _, hr.2⟩ | exact ⟨setV_sized hr.1 _ _, hr.2⟩ | exact ⟨setA_sized hr.1 _ _, hr.2⟩)

theorem execVmulh_kept (e : Fin 8) (pr : Bool) (g : Fin 8) (ty : VTy) (d a b : Fin 32) (s : State) : ∃ out, execVmulh e pr g ty d a b s = .next out ∧ Kept s out := by
  refine ⟨_, rfl, ?_⟩
  have h : Kept s s := Kept.refl s
  repeat' (first
    | with_reducible assumption | with_reducible exact Kept.refl _ | with_reducible refine State.typed_kept ?_ _ _ _ (fun x hx => ?_)
    | with_reducible apply State.vcomp_kept | with_reducible exact okS_err _ | with_reducible exact okF_err _
    | with_reducible refine okS_ok ?_ (fun hr => ?_) | with_reducible refine okF_ok (fun hr => ?_)
    | with_reducible exact setS_sized hr.1 _ _ | split | exact hr.1 | exact hr | exact ⟨hr.1, hr.2⟩ | exact ⟨setS_sized hr.1 _ _, hr.2⟩
    | exact ⟨setP_sized hr.1 _ _, hr.2⟩ | exact ⟨setPair_sized hr.1 _ _ _, hr.2⟩ | exact ⟨setV_sized hr.1 _ _, hr.2⟩
    | exact ⟨setA_sized hr.1 _ _, hr.2⟩)

theorem execVand_kept (e : Fin 8) (pr : Bool) (g : Fin 8) (ty : VTy) (d a b : Fin 32) (s : State) : ∃ out, execVand e pr g ty d a b s = .next out ∧ Kept s out := by
  refine ⟨_, rfl, ?_⟩
  have h : Kept s s := Kept.refl s
  repeat' (first
    | with_reducible assumption | with_reducible exact Kept.refl _ | with_reducible apply State.vgen_kept
    | with_reducible exact okS_err _ | with_reducible exact okF_err _ | with_reducible refine okS_ok ?_ (fun hr => ?_)
    | with_reducible refine okF_ok (fun hr => ?_) | with_reducible exact setS_sized hr.1 _ _ | split | exact hr.1 | exact hr
    | exact ⟨hr.1, hr.2⟩ | exact ⟨setS_sized hr.1 _ _, hr.2⟩ | exact ⟨setP_sized hr.1 _ _, hr.2⟩
    | exact ⟨setPair_sized hr.1 _ _ _, hr.2⟩ | exact ⟨setV_sized hr.1 _ _, hr.2⟩ | exact ⟨setA_sized hr.1 _ _, hr.2⟩)

theorem execVor_kept (e : Fin 8) (pr : Bool) (g : Fin 8) (ty : VTy) (d a b : Fin 32) (s : State) : ∃ out, execVor e pr g ty d a b s = .next out ∧ Kept s out := by
  refine ⟨_, rfl, ?_⟩
  have h : Kept s s := Kept.refl s
  repeat' (first
    | with_reducible assumption | with_reducible exact Kept.refl _ | with_reducible apply State.vgen_kept
    | with_reducible exact okS_err _ | with_reducible exact okF_err _ | with_reducible refine okS_ok ?_ (fun hr => ?_)
    | with_reducible refine okF_ok (fun hr => ?_) | with_reducible exact setS_sized hr.1 _ _ | split | exact hr.1 | exact hr
    | exact ⟨hr.1, hr.2⟩ | exact ⟨setS_sized hr.1 _ _, hr.2⟩ | exact ⟨setP_sized hr.1 _ _, hr.2⟩
    | exact ⟨setPair_sized hr.1 _ _ _, hr.2⟩ | exact ⟨setV_sized hr.1 _ _, hr.2⟩ | exact ⟨setA_sized hr.1 _ _, hr.2⟩)

theorem execVxor_kept (e : Fin 8) (pr : Bool) (g : Fin 8) (ty : VTy) (d a b : Fin 32) (s : State) : ∃ out, execVxor e pr g ty d a b s = .next out ∧ Kept s out := by
  refine ⟨_, rfl, ?_⟩
  have h : Kept s s := Kept.refl s
  repeat' (first
    | with_reducible assumption | with_reducible exact Kept.refl _ | with_reducible apply State.vgen_kept
    | with_reducible exact okS_err _ | with_reducible exact okF_err _ | with_reducible refine okS_ok ?_ (fun hr => ?_)
    | with_reducible refine okF_ok (fun hr => ?_) | with_reducible exact setS_sized hr.1 _ _ | split | exact hr.1 | exact hr
    | exact ⟨hr.1, hr.2⟩ | exact ⟨setS_sized hr.1 _ _, hr.2⟩ | exact ⟨setP_sized hr.1 _ _, hr.2⟩
    | exact ⟨setPair_sized hr.1 _ _ _, hr.2⟩ | exact ⟨setV_sized hr.1 _ _, hr.2⟩ | exact ⟨setA_sized hr.1 _ _, hr.2⟩)

theorem execVnot_kept (e : Fin 8) (pr : Bool) (g : Fin 8) (ty : VTy) (d a : Fin 32) (s : State) : ∃ out, execVnot e pr g ty d a s = .next out ∧ Kept s out := by
  refine ⟨_, rfl, ?_⟩
  have h : Kept s s := Kept.refl s
  repeat' (first
    | with_reducible assumption | with_reducible exact Kept.refl _ | with_reducible apply State.vgen_kept
    | with_reducible exact okS_err _ | with_reducible exact okF_err _ | with_reducible refine okS_ok ?_ (fun hr => ?_)
    | with_reducible refine okF_ok (fun hr => ?_) | with_reducible exact setS_sized hr.1 _ _ | split | exact hr.1 | exact hr
    | exact ⟨hr.1, hr.2⟩ | exact ⟨setS_sized hr.1 _ _, hr.2⟩ | exact ⟨setP_sized hr.1 _ _, hr.2⟩
    | exact ⟨setPair_sized hr.1 _ _ _, hr.2⟩ | exact ⟨setV_sized hr.1 _ _, hr.2⟩ | exact ⟨setA_sized hr.1 _ _, hr.2⟩)

theorem execVsll_kept (e : Fin 8) (pr : Bool) (g : Fin 8) (ty : VTy) (d a b : Fin 32) (s : State) : ∃ out, execVsll e pr g ty d a b s = .next out ∧ Kept s out := by
  refine ⟨_, rfl, ?_⟩
  have h : Kept s s := Kept.refl s
  repeat' (first
    | with_reducible assumption | with_reducible exact Kept.refl _ | with_reducible refine State.typed_kept ?_ _ _ _ (fun x hx => ?_)
    | with_reducible apply State.vcomp_kept | with_reducible exact okS_err _ | with_reducible exact okF_err _
    | with_reducible refine okS_ok ?_ (fun hr => ?_) | with_reducible refine okF_ok (fun hr => ?_)
    | with_reducible exact setS_sized hr.1 _ _ | split | exact hr.1 | exact hr | exact ⟨hr.1, hr.2⟩ | exact ⟨setS_sized hr.1 _ _, hr.2⟩
    | exact ⟨setP_sized hr.1 _ _, hr.2⟩ | exact ⟨setPair_sized hr.1 _ _ _, hr.2⟩ | exact ⟨setV_sized hr.1 _ _, hr.2⟩
    | exact ⟨setA_sized hr.1 _ _, hr.2⟩)

theorem execVsrl_kept (e : Fin 8) (pr : Bool) (g : Fin 8) (ty : VTy) (d a b : Fin 32) (s : State) : ∃ out, execVsrl e pr g ty d a b s = .next out ∧ Kept s out := by
  refine ⟨_, rfl, ?_⟩
  have h : Kept s s := Kept.refl s
  repeat' (first
    | with_reducible assumption | with_reducible exact Kept.refl _ | with_reducible refine State.typed_kept ?_ _ _ _ (fun x hx => ?_)
    | with_reducible apply State.vcomp_kept | with_reducible exact okS_err _ | with_reducible exact okF_err _
    | with_reducible refine okS_ok ?_ (fun hr => ?_) | with_reducible refine okF_ok (fun hr => ?_)
    | with_reducible exact setS_sized hr.1 _ _ | split | exact hr.1 | exact hr | exact ⟨hr.1, hr.2⟩ | exact ⟨setS_sized hr.1 _ _, hr.2⟩
    | exact ⟨setP_sized hr.1 _ _, hr.2⟩ | exact ⟨setPair_sized hr.1 _ _ _, hr.2⟩ | exact ⟨setV_sized hr.1 _ _, hr.2⟩
    | exact ⟨setA_sized hr.1 _ _, hr.2⟩)

theorem execVsra_kept (e : Fin 8) (pr : Bool) (g : Fin 8) (ty : VTy) (d a b : Fin 32) (s : State) : ∃ out, execVsra e pr g ty d a b s = .next out ∧ Kept s out := by
  refine ⟨_, rfl, ?_⟩
  have h : Kept s s := Kept.refl s
  repeat' (first
    | with_reducible assumption | with_reducible exact Kept.refl _ | with_reducible refine State.typed_kept ?_ _ _ _ (fun x hx => ?_)
    | with_reducible apply State.vcomp_kept | with_reducible exact okS_err _ | with_reducible exact okF_err _
    | with_reducible refine okS_ok ?_ (fun hr => ?_) | with_reducible refine okF_ok (fun hr => ?_)
    | with_reducible exact setS_sized hr.1 _ _ | split | exact hr.1 | exact hr | exact ⟨hr.1, hr.2⟩ | exact ⟨setS_sized hr.1 _ _, hr.2⟩
    | exact ⟨setP_sized hr.1 _ _, hr.2⟩ | exact ⟨setPair_sized hr.1 _ _ _, hr.2⟩ | exact ⟨setV_sized hr.1 _ _, hr.2⟩
    | exact ⟨setA_sized hr.1 _ _, hr.2⟩)

theorem execVsrar_kept (e : Fin 8) (pr : Bool) (g : Fin 8) (ty : VTy) (d a b : Fin 32) (s : State) : ∃ out, execVsrar e pr g ty d a b s = .next out ∧ Kept s out := by
  refine ⟨_, rfl, ?_⟩
  have h : Kept s s := Kept.refl s
  repeat' (first
    | with_reducible assumption | with_reducible exact Kept.refl _ | with_reducible refine State.typed_kept ?_ _ _ _ (fun x hx => ?_)
    | with_reducible apply State.vcomp_kept | with_reducible exact okS_err _ | with_reducible exact okF_err _
    | with_reducible refine okS_ok ?_ (fun hr => ?_) | with_reducible refine okF_ok (fun hr => ?_)
    | with_reducible exact setS_sized hr.1 _ _ | split | exact hr.1 | exact hr | exact ⟨hr.1, hr.2⟩ | exact ⟨setS_sized hr.1 _ _, hr.2⟩
    | exact ⟨setP_sized hr.1 _ _, hr.2⟩ | exact ⟨setPair_sized hr.1 _ _ _, hr.2⟩ | exact ⟨setV_sized hr.1 _ _, hr.2⟩
    | exact ⟨setA_sized hr.1 _ _, hr.2⟩)

theorem execVcmp_kept (e : Fin 8) (pr : Bool) (g : Fin 8) (ty : VTy) (cc : VCc) (d : Fin 8) (a b : Fin 32) (s : State) : ∃ out, execVcmp e pr g ty cc d a b s = .next out ∧ Kept s out := by
  refine ⟨_, rfl, ?_⟩
  have h : Kept s s := Kept.refl s
  repeat' (first
    | with_reducible assumption | with_reducible exact Kept.refl _
    | with_reducible refine State.instr_kept ?_ _ _ _ _ _ (fun v r hv hr => ?_)
    | with_reducible refine State.typed_kept ?_ _ _ _ (fun x hx => ?_) | with_reducible apply kept_ite
    | with_reducible refine kept_foldl _ (fun x a hx => ?_) ?_ | with_reducible exact okS_err _ | with_reducible exact okF_err _
    | with_reducible refine okS_ok ?_ (fun hr => ?_) | with_reducible refine okF_ok (fun hr => ?_)
    | with_reducible exact setS_sized hr.1 _ _ | split | with_reducible exact kept_snd ‹_ = _› (by assumption)
    | (with_reducible refine kept_snd ‹_ = (_, _)› ?_) | (with_reducible refine kept_fst ‹_ = (_, _)› ?_)
    | (lift_lets; intro x; first | (refine (fun (hx : Kept s x) => ?_) ?_; clear_value x) | clear_value x)
    | (intro x; refine (fun (hx : Kept s x) => ?_) ?_; clear_value x) | (intro x; clear_value x) | exact hr.1 | exact hr
    | exact ⟨hr.1, hr.2⟩ | exact ⟨setS_sized hr.1 _ _, hr.2⟩ | exact ⟨setP_sized hr.1 _ _, hr.2⟩
    | exact ⟨setPair_sized hr.1 _ _ _, hr.2⟩ | exact ⟨setV_sized hr.1 _ _, hr.2⟩ | exact ⟨setA_sized hr.1 _ _, hr.2⟩)

theorem State.vperm_kept {s : State} (h : Kept s0 s) (e : Nat) (pr : Bool) (g : Nat) (ty : VTy) (d a b : Nat) (f : Vec → Nat → Bool × Nat) : Kept s0 (State.vperm s e pr g ty d a b f) := by
  unfold State.vperm
  repeat' (first
    | with_reducible assumption | with_reducible exact Kept.refl _ | with_reducible apply State.vgen_kept
    | with_reducible apply kept_ite | with_reducible apply kept_ite1 | with_reducible apply kept_ite2 | with_reducible exact okS_err _
    | with_reducible exact okF_err _ | with_reducible refine okS_ok ?_ (fun hr => ?_) | with_reducible refine okF_ok (fun hr => ?_)
    | with_reducible exact setS_sized hr.1 _ _ | split | with_reducible exact kept_snd ‹_ = _› (by assumption)
    | (with_reducible refine kept_snd ‹_ = (_, _)› ?_) | (with_reducible refine kept_fst ‹_ = (_, _)› ?_)
    | (lift_lets; intro x; first | (refine (fun (hx : Kept s0 x) => ?_) ?_; clear_value x) | clear_value x)
    | (intro x; refine (fun (hx : Kept s0 x) => ?_) ?_; clear_value x) | (intro x; clear_value x) | dsimp only | exact hr.1 | exact hr
    | exact ⟨hr.1, hr.2⟩ | exact ⟨setS_sized hr.1 _ _, hr.2⟩ | exact ⟨setP_sized hr.1 _ _, hr.2⟩
    | exact ⟨setPair_sized hr.1 _ _ _, hr.2⟩ | exact ⟨setV_sized hr.1 _ _, hr.2⟩ | exact ⟨setA_sized hr.1 _ _, hr.2⟩)

theorem execVperm_kept (e : Fin 8) (pr : Bool) (g : Fin 8) (ty : VTy) (d a b : Fin 32) (s : State) : ∃ out, execVperm e pr g ty d a b s = .next out ∧ Kept s out := by
  refine ⟨_, rfl, ?_⟩
  have h : Kept s s := Kept.refl s
  repeat' (first
    | with_reducible assumption | with_reducible exact Kept.refl _ | with_reducible refine State.typed_kept ?_ _ _ _ (fun x hx => ?_)
    | with_reducible apply State.vperm_kept | with_reducible exact okS_err _ | with_reducible exact okF_err _
    | with_reducible refine okS_ok ?_ (fun hr => ?_) | with_reducible refine okF_ok (fun hr => ?_)
    | with_reducible exact setS_sized hr.1 _ _ | split | exact hr.1 | exact hr | exact ⟨hr.1, hr.2⟩ | exact ⟨setS_sized hr.1 _ _, hr.2⟩
    | exact ⟨setP_sized hr.1 _ _, hr.2⟩ | exact ⟨setPair_sized hr.1 _ _ _, hr.2⟩ | exact ⟨setV_sized hr.1 _ _, hr.2⟩
    | exact ⟨setA_sized hr.1 _ _, hr.2⟩)

theorem execVzipl_kept (e : Fin 8) (pr : Bool) (g : Fin 8) (ty : VTy) (d a b : Fin 32) (s : State) : ∃ out, execVzipl e pr g ty d a b s = .next out ∧ Kept s out := by
  refine ⟨_, rfl, ?_⟩
  have h : Kept s s := Kept.refl s
  repeat' (first
    | with_reducible assumption | with_reducible exact Kept.refl _ | with_reducible refine State.typed_kept ?_ _ _ _ (fun x hx => ?_)
    | with_reducible apply State.vperm_kept | with_reducible exact okS_err _ | with_reducible exact okF_err _
    | with_reducible refine okS_ok ?_ (fun hr => ?_) | with_reducible refine okF_ok (fun hr => ?_)
    | with_reducible exact setS_sized hr.1 _ _ | split | exact hr.1 | exact hr | exact ⟨hr.1, hr.2⟩ | exact ⟨setS_sized hr.1 _ _, hr.2⟩
    | exact ⟨setP_sized hr.1 _ _, hr.2⟩ | exact ⟨setPair_sized hr.1 _ _ _, hr.2⟩ | exact ⟨setV_sized hr.1 _ _, hr.2⟩
    | exact ⟨setA_sized hr.1 _ _, hr.2⟩)

theorem execVziph_kept (e : Fin 8) (pr : Bool) (g : Fin 8) (ty : VTy) (d a b : Fin 32) (s : State) : ∃ out, execVziph e pr g ty d a b s = .next out ∧ Kept s out := by
  refine ⟨_, rfl, ?_⟩
  have h : Kept s s := Kept.refl s
  repeat' (first
    | with_reducible assumption | with_reducible exact Kept.refl _ | with_reducible refine State.typed_kept ?_ _ _ _ (fun x hx => ?_)
    | with_reducible apply State.vperm_kept | with_reducible exact okS_err _ | with_reducible exact okF_err _
    | with_reducible refine okS_ok ?_ (fun hr => ?_) | with_reducible refine okF_ok (fun hr => ?_)
    | with_reducible exact setS_sized hr.1 _ _ | split | exact hr.1 | exact hr | exact ⟨hr.1, hr.2⟩ | exact ⟨setS_sized hr.1 _ _, hr.2⟩
    | exact ⟨setP_sized hr.1 _ _, hr.2⟩ | exact ⟨setPair_sized hr.1 _ _ _, hr.2⟩ | exact ⟨setV_sized hr.1 _ _, hr.2⟩
    | exact ⟨setA_sized hr.1 _ _, hr.2⟩)

theorem execVuzpe_kept (e : Fin 8) (pr : Bool) (g : Fin 8) (ty : VTy) (d a b : Fin 32) (s : State) : ∃ out, execVuzpe e pr g ty d a b s = .next out ∧ Kept s out := by
  refine ⟨_, rfl, ?_⟩
  have h : Kept s s := Kept.refl s
  repeat' (first
    | with_reducible assumption | with_reducible exact Kept.refl _ | with_reducible refine State.typed_kept ?_ _ _ _ (fun x hx => ?_)
    | with_reducible apply State.vperm_kept | with_reducible exact okS_err _ | with_reducible exact okF_err _
    | with_reducible refine okS_ok ?_ (fun hr => ?_) | with_reducible refine okF_ok (fun hr => ?_)
    | with_reducible exact setS_sized hr.1 _ _ | split | exact hr.1 | exact hr | exact ⟨hr.1, hr.2⟩ | exact ⟨setS_sized hr.1 _ _, hr.2⟩
    | exact ⟨setP_sized hr.1 _ _, hr.2⟩ | exact ⟨setPair_sized hr.1 _ _ _, hr.2⟩ | exact ⟨setV_sized hr.1 _ _, hr.2⟩
    | exact ⟨setA_sized hr.1 _ _, hr.2⟩)

theorem execVuzpo_kept (e : Fin 8) (pr : Bool) (g : Fin 8) (ty : VTy) (d a b : Fin 32) (s : State) : ∃ out, execVuzpo e pr g ty d a b s = .next out ∧ Kept s out := by
  refine ⟨_, rfl, ?_⟩
  have h : Kept s s := Kept.refl s
  repeat' (first
    | with_reducible assumption | with_reducible exact Kept.refl _ | with_reducible refine State.typed_kept ?_ _ _ _ (fun x hx => ?_)
    | with_reducible apply State.vperm_kept | with_reducible exact okS_err _ | with_reducible exact okF_err _
    | with_reducible refine okS_ok ?_ (fun hr => ?_) | with_reducible refine okF_ok (fun hr => ?_)
    | with_reducible exact setS_sized hr.1 _ _ | split | exact hr.1 | exact hr | exact ⟨hr.1, hr.2⟩ | exact ⟨setS_sized hr.1 _ _, hr.2⟩
    | exact ⟨setP_sized hr.1 _ _, hr.2⟩ | exact ⟨setPair_sized hr.1 _ _ _, hr.2⟩ | exact ⟨setV_sized hr.1 _ _, hr.2⟩
    | exact ⟨setA_sized hr.1 _ _, hr.2⟩)

theorem execVrev_kept (e : Fin 8) (pr : Bool) (g : Fin 8) (ty : VTy) (d a : Fin 32) (s : State) : ∃ out, execVrev e pr g ty d a s = .next out ∧ Kept s out := by
  refine ⟨_, rfl, ?_⟩
  have h : Kept s s := Kept.refl s
  repeat' (first
    | with_reducible assumption | with_reducible exact Kept.refl _ | with_reducible refine State.typed_kept ?_ _ _ _ (fun x hx => ?_)
    | with_reducible apply State.vperm_kept | with_reducible exact okS_err _ | with_reducible exact okF_err _
    | with_reducible refine okS_ok ?_ (fun hr => ?_) | with_reducible refine okF_ok (fun hr => ?_)
    | with_reducible exact setS_sized hr.1 _ _ | split | exact hr.1 | exact hr | exact ⟨hr.1, hr.2⟩ | exact ⟨setS_sized hr.1 _ _, hr.2⟩
    | exact ⟨setP_sized hr.1 _ _, hr.2⟩ | exact ⟨setPair_sized hr.1 _ _ _, hr.2⟩ | exact ⟨setV_sized hr.1 _ _, hr.2⟩
    | exact ⟨setA_sized hr.1 _ _, hr.2⟩)

theorem execVsld_kept (e : Fin 8) (pr : Bool) (d a b n : Fin 32) (s : State) : ∃ out, execVsld e pr d a b n s = .next out ∧ Kept s out := by
  refine ⟨_, rfl, ?_⟩
  have h : Kept s s := Kept.refl s
  repeat' (first
    | with_reducible assumption | with_reducible exact Kept.refl _ | with_reducible apply State.vgen_kept
    | with_reducible apply kept_ite | with_reducible exact okS_err _ | with_reducible exact okF_err _
    | with_reducible refine okS_ok ?_ (fun hr => ?_) | with_reducible refine okF_ok (fun hr => ?_)
    | with_reducible exact setS_sized hr.1 _ _ | split
    | (lift_lets; intro x; first | (refine (fun (hx : Kept s x) => ?_) ?_; clear_value x) | clear_value x)
    | (intro x; refine (fun (hx : Kept s x) => ?_) ?_; clear_value x) | (intro x; clear_value x) | exact hr.1 | exact hr
    | exact ⟨hr.1, hr.2⟩ | exact ⟨setS_sized hr.1 _ _, hr.2⟩ | exact ⟨setP_sized hr.1 _ _, hr.2⟩
    | exact ⟨setPair_sized hr.1 _ _ _, hr.2⟩ | exact ⟨setV_sized hr.1 _ _, hr.2⟩ | exact ⟨setA_sized hr.1 _ _, hr.2⟩)

theorem execVrsum_kept (e : Fin 8) (pr : Bool) (g : Fin 8) (ty : VTy) (d a : Fin 32) (s : State) : ∃ out, execVrsum e pr g ty d a s = .next out ∧ Kept s out := by
  refine ⟨_, rfl, ?_⟩
  have h : Kept s s := Kept.refl s
  repeat' (first
    | with_reducible assumption | with_reducible exact Kept.refl _ | with_reducible refine State.typed_kept ?_ _ _ _ (fun x hx => ?_)
    | with_reducible apply State.vred_kept | with_reducible exact okS_err _ | with_reducible exact okF_err _
    | with_reducible refine okS_ok ?_ (fun hr => ?_) | with_reducible refine okF_ok (fun hr => ?_)
    | with_reducible exact setS_sized hr.1 _ _ | split | exact hr.1 | exact hr | exact ⟨hr.1, hr.2⟩ | exact ⟨setS_sized hr.1 _ _, hr.2⟩
    | exact ⟨setP_sized hr.1 _ _, hr.2⟩ | exact ⟨setPair_sized hr.1 _ _ _, hr.2⟩ | exact ⟨setV_sized hr.1 _ _, hr.2⟩
    | exact ⟨setA_sized hr.1 _ _, hr.2⟩)

theorem execVrmax_kept (e : Fin 8) (pr : Bool) (g : Fin 8) (ty : VTy) (d a : Fin 32) (s : State) : ∃ out, execVrmax e pr g ty d a s = .next out ∧ Kept s out := by
  refine ⟨_, rfl, ?_⟩
  have h : Kept s s := Kept.refl s
  repeat' (first
    | with_reducible assumption | with_reducible exact Kept.refl _ | with_reducible refine State.typed_kept ?_ _ _ _ (fun x hx => ?_)
    | with_reducible apply State.vred_kept | with_reducible exact okS_err _ | with_reducible exact okF_err _
    | with_reducible refine okS_ok ?_ (fun hr => ?_) | with_reducible refine okF_ok (fun hr => ?_)
    | with_reducible exact setS_sized hr.1 _ _ | split | exact hr.1 | exact hr | exact ⟨hr.1, hr.2⟩ | exact ⟨setS_sized hr.1 _ _, hr.2⟩
    | exact ⟨setP_sized hr.1 _ _, hr.2⟩ | exact ⟨setPair_sized hr.1 _ _ _, hr.2⟩ | exact ⟨setV_sized hr.1 _ _, hr.2⟩
    | exact ⟨setA_sized hr.1 _ _, hr.2⟩)

theorem execVrmin_kept (e : Fin 8) (pr : Bool) (g : Fin 8) (ty : VTy) (d a : Fin 32) (s : State) : ∃ out, execVrmin e pr g ty d a s = .next out ∧ Kept s out := by
  refine ⟨_, rfl, ?_⟩
  have h : Kept s s := Kept.refl s
  repeat' (first
    | with_reducible assumption | with_reducible exact Kept.refl _ | with_reducible refine State.typed_kept ?_ _ _ _ (fun x hx => ?_)
    | with_reducible apply State.vred_kept | with_reducible exact okS_err _ | with_reducible exact okF_err _
    | with_reducible refine okS_ok ?_ (fun hr => ?_) | with_reducible refine okF_ok (fun hr => ?_)
    | with_reducible exact setS_sized hr.1 _ _ | split | exact hr.1 | exact hr | exact ⟨hr.1, hr.2⟩ | exact ⟨setS_sized hr.1 _ _, hr.2⟩
    | exact ⟨setP_sized hr.1 _ _, hr.2⟩ | exact ⟨setPair_sized hr.1 _ _ _, hr.2⟩ | exact ⟨setV_sized hr.1 _ _, hr.2⟩
    | exact ⟨setA_sized hr.1 _ _, hr.2⟩)

theorem execVramax_kept (e : Fin 8) (pr : Bool) (g : Fin 8) (ty : VTy) (d a : Fin 32) (s : State) : ∃ out, execVramax e pr g ty d a s = .next out ∧ Kept s out := by
  refine ⟨_, rfl, ?_⟩
  have h : Kept s s := Kept.refl s
  repeat' (first
    | with_reducible assumption | with_reducible exact Kept.refl _ | with_reducible refine State.typed_kept ?_ _ _ _ (fun x hx => ?_)
    | with_reducible apply State.vred_kept | with_reducible apply kept_ite | with_reducible exact okS_err _
    | with_reducible exact okF_err _ | with_reducible refine okS_ok ?_ (fun hr => ?_) | with_reducible refine okF_ok (fun hr => ?_)
    | with_reducible exact setS_sized hr.1 _ _ | split | exact hr.1 | exact hr | exact ⟨hr.1, hr.2⟩ | exact ⟨setS_sized hr.1 _ _, hr.2⟩
    | exact ⟨setP_sized hr.1 _ _, hr.2⟩ | exact ⟨setPair_sized hr.1 _ _ _, hr.2⟩ | exact ⟨setV_sized hr.1 _ _, hr.2⟩
    | exact ⟨setA_sized hr.1 _ _, hr.2⟩)

theorem execVrsuma_kept (e : Fin 8) (pr : Bool) (g : Fin 8) (d : Fin 32) (k : Fin 4) (sh : Fin 32) (s : State) : ∃ out, execVrsuma e pr g d k sh s = .next out ∧ Kept s out := by
  refine ⟨_, rfl, ?_⟩
  have h : Kept s s := Kept.refl s
  repeat' (first
    | with_reducible assumption | with_reducible exact Kept.refl _
    | with_reducible refine State.instr_kept ?_ _ _ _ _ _ (fun v r hv hr => ?_) | with_reducible apply kept_ite
    | with_reducible exact okS_err _ | with_reducible exact okF_err _ | with_reducible refine okS_ok ?_ (fun hr => ?_)
    | with_reducible refine okF_ok (fun hr => ?_) | with_reducible exact setS_sized hr.1 _ _ | split
    | (lift_lets; intro x; first | (refine (fun (hx : Kept s x) => ?_) ?_; clear_value x) | clear_value x)
    | (intro x; refine (fun (hx : Kept s x) => ?_) ?_; clear_value x) | (intro x; clear_value x) | exact hr.1 | exact hr
    | exact ⟨hr.1, hr.2⟩ | exact ⟨setS_sized hr.1 _ _, hr.2⟩ | exact ⟨setP_sized hr.1 _ _, hr.2⟩
    | exact ⟨setPair_sized hr.1 _ _ _, hr.2⟩ | exact ⟨setV_sized hr.1 _ _, hr.2⟩ | exact ⟨setA_sized hr.1 _ _, hr.2⟩)

theorem execVrpwr_kept (e : Fin 8) (pr : Bool) (g : Fin 8) (d a : Fin 32) (s : State) : ∃ out, execVrpwr e pr g d a s = .next out ∧ Kept s out := by
  refine ⟨_, rfl, ?_⟩
  have h : Kept s s := Kept.refl s
  repeat' (first
    | with_reducible assumption | with_reducible exact Kept.refl _ | with_reducible apply State.vred_kept
    | with_reducible exact okS_err _ | with_reducible exact okF_err _ | with_reducible refine okS_ok ?_ (fun hr => ?_)
    | with_reducible refine okF_ok (fun hr => ?_) | with_reducible exact setS_sized hr.1 _ _ | split | exact hr.1 | exact hr
    | exact ⟨hr.1, hr.2⟩ | exact ⟨setS_sized hr.1 _ _, hr.2⟩ | exact ⟨setP_sized hr.1 _ _, hr.2⟩
    | exact ⟨setPair_sized hr.1 _ _ _, hr.2⟩ | exact ⟨setV_sized hr.1 _ _, hr.2⟩ | exact ⟨setA_sized hr.1 _ _, hr.2⟩)

theorem execVaclr_kept (e : Fin 8) (pr : Bool) (g : Fin 8) (k : Fin 4) (s : State) : ∃ out, execVaclr e pr g k s = .next out ∧ Kept s out := by
  refine ⟨_, rfl, ?_⟩
  have h : Kept s s := Kept.refl s
  repeat' (first
    | with_reducible assumption | with_reducible exact Kept.refl _ | with_reducible apply State.vacc_kept
    | with_reducible exact okS_err _ | with_reducible exact okF_err _ | with_reducible refine okS_ok ?_ (fun hr => ?_)
    | with_reducible refine okF_ok (fun hr => ?_) | with_reducible exact setS_sized hr.1 _ _ | split | exact hr.1 | exact hr
    | exact ⟨hr.1, hr.2⟩ | exact ⟨setS_sized hr.1 _ _, hr.2⟩ | exact ⟨setP_sized hr.1 _ _, hr.2⟩
    | exact ⟨setPair_sized hr.1 _ _ _, hr.2⟩ | exact ⟨setV_sized hr.1 _ _, hr.2⟩ | exact ⟨setA_sized hr.1 _ _, hr.2⟩)

theorem execVamov_kept (e : Fin 8) (pr : Bool) (g : Fin 8) (ty : VTy) (d : Fin 32) (k : Fin 4) (sh : Fin 32) (s : State) : ∃ out, execVamov e pr g ty d k sh s = .next out ∧ Kept s out := by
  refine ⟨_, rfl, ?_⟩
  have h : Kept s s := Kept.refl s
  repeat' (first
    | with_reducible assumption | with_reducible exact Kept.refl _ | with_reducible refine State.typed_kept ?_ _ _ _ (fun x hx => ?_)
    | with_reducible apply State.vgen_kept | with_reducible exact okS_err _ | with_reducible exact okF_err _
    | with_reducible refine okS_ok ?_ (fun hr => ?_) | with_reducible refine okF_ok (fun hr => ?_)
    | with_reducible exact setS_sized hr.1 _ _ | split | exact hr.1 | exact hr | exact ⟨hr.1, hr.2⟩ | exact ⟨setS_sized hr.1 _ _, hr.2⟩
    | exact ⟨setP_sized hr.1 _ _, hr.2⟩ | exact ⟨setPair_sized hr.1 _ _ _, hr.2⟩ | exact ⟨setV_sized hr.1 _ _, hr.2⟩
    | exact ⟨setA_sized hr.1 _ _, hr.2⟩)

theorem execVain_kept (e : Fin 8) (pr : Bool) (g : Fin 8) (ty : VTy) (k : Fin 4) (a : Fin 32) (s : State) : ∃ out, execVain e pr g ty k a s = .next out ∧ Kept s out := by
  refine ⟨_, rfl, ?_⟩
  have h : Kept s s := Kept.refl s
  repeat' (first
    | with_reducible assumption | with_reducible exact Kept.refl _ | with_reducible refine State.typed_kept ?_ _ _ _ (fun x hx => ?_)
    | with_reducible apply State.vacc_kept | with_reducible exact okS_err _ | with_reducible exact okF_err _
    | with_reducible refine okS_ok ?_ (fun hr => ?_) | with_reducible refine okF_ok (fun hr => ?_)
    | with_reducible exact setS_sized hr.1 _ _ | split | exact hr.1 | exact hr | exact ⟨hr.1, hr.2⟩ | exact ⟨setS_sized hr.1 _ _, hr.2⟩
    | exact ⟨setP_sized hr.1 _ _, hr.2⟩ | exact ⟨setPair_sized hr.1 _ _ _, hr.2⟩ | exact ⟨setV_sized hr.1 _ _, hr.2⟩
    | exact ⟨setA_sized hr.1 _ _, hr.2⟩)

theorem execVbcast_kept (e : Fin 8) (pr : Bool) (g : Fin 8) (ty : VTy) (d a : Fin 32) (s : State) : ∃ out, execVbcast e pr g ty d a s = .next out ∧ Kept s out := by
  refine ⟨_, rfl, ?_⟩
  have h : Kept s s := Kept.refl s
  repeat' (first
    | with_reducible assumption | with_reducible exact Kept.refl _ | with_reducible refine State.typed_kept ?_ _ _ _ (fun x hx => ?_)
    | with_reducible apply State.vgen_kept | with_reducible apply kept_ite | with_reducible exact okS_err _
    | with_reducible exact okF_err _ | with_reducible refine okS_ok ?_ (fun hr => ?_) | with_reducible refine okF_ok (fun hr => ?_)
    | with_reducible exact setS_sized hr.1 _ _ | split
    | (lift_lets; intro x; first | (refine (fun (hx : Kept s x) => ?_) ?_; clear_value x) | clear_value x)
    | (intro x; refine (fun (hx : Kept s x) => ?_) ?_; clear_value x) | (intro x; clear_value x) | exact hr.1 | exact hr
    | exact ⟨hr.1, hr.2⟩ | exact ⟨setS_sized hr.1 _ _, hr.2⟩ | exact ⟨setP_sized hr.1 _ _, hr.2⟩
    | exact ⟨setPair_sized hr.1 _ _ _, hr.2⟩ | exact ⟨setV_sized hr.1 _ _, hr.2⟩ | exact ⟨setA_sized hr.1 _ _, hr.2⟩)

theorem execVext_kept (e : Fin 8) (pr : Bool) (ty : VTy) (d a n : Fin 32) (s : State) : ∃ out, execVext e pr ty d a n s = .next out ∧ Kept s out := by
  refine ⟨_, rfl, ?_⟩
  have h : Kept s s := Kept.refl s
  repeat' (first
    | with_reducible assumption | with_reducible exact Kept.refl _ | with_reducible refine State.typed_kept ?_ _ _ _ (fun x hx => ?_)
    | with_reducible apply State.vred_kept | with_reducible apply kept_ite | with_reducible exact okS_err _
    | with_reducible exact okF_err _ | with_reducible refine okS_ok ?_ (fun hr => ?_) | with_reducible refine okF_ok (fun hr => ?_)
    | with_reducible exact setS_sized hr.1 _ _ | split | exact hr.1 | exact hr | exact ⟨hr.1, hr.2⟩ | exact ⟨setS_sized hr.1 _ _, hr.2⟩
    | exact ⟨setP_sized hr.1 _ _, hr.2⟩ | exact ⟨setPair_sized hr.1 _ _ _, hr.2⟩ | exact ⟨setV_sized hr.1 _ _, hr.2⟩
    | exact ⟨setA_sized hr.1 _ _, hr.2⟩)

theorem execVins_kept (e : Fin 8) (pr : Bool) (g : Fin 8) (ty : VTy) (d a n : Fin 32) (s : State) : ∃ out, execVins e pr g ty d a n s = .next out ∧ Kept s out := by
  refine ⟨_, rfl, ?_⟩
  have h : Kept s s := Kept.refl s
  repeat' (first
    | with_reducible assumption | with_reducible exact Kept.refl _
    | with_reducible refine State.instr_kept ?_ _ _ _ _ _ (fun v r hv hr => ?_)
    | with_reducible refine State.typed_kept ?_ _ _ _ (fun x hx => ?_) | with_reducible apply kept_ite | with_reducible exact okS_err _
    | with_reducible exact okF_err _ | with_reducible refine okS_ok ?_ (fun hr => ?_) | with_reducible refine okF_ok (fun hr => ?_)
    | with_reducible exact setS_sized hr.1 _ _ | split
    | (lift_lets; intro x; first | (refine (fun (hx : Kept s x) => ?_) ?_; clear_value x) | clear_value x)
    | (intro x; refine (fun (hx : Kept s x) => ?_) ?_; clear_value x) | (intro x; clear_value x) | exact hr.1 | exact hr
    | exact ⟨hr.1, hr.2⟩ | exact ⟨setS_sized hr.1 _ _, hr.2⟩ | exact ⟨setP_sized hr.1 _ _, hr.2⟩
    | exact ⟨setPair_sized hr.1 _ _ _, hr.2⟩ | exact ⟨setV_sized hr.1 _ _, hr.2⟩ | exact ⟨setA_sized hr.1 _ _, hr.2⟩)

theorem execVidx_kept (e : Fin 8) (pr : Bool) (g : Fin 8) (ty : VTy) (d : Fin 32) (s : State) : ∃ out, execVidx e pr g ty d s = .next out ∧ Kept s out := by
  refine ⟨_, rfl, ?_⟩
  have h : Kept s s := Kept.refl s
  repeat' (first
    | with_reducible assumption | with_reducible exact Kept.refl _ | with_reducible refine State.typed_kept ?_ _ _ _ (fun x hx => ?_)
    | with_reducible apply State.vgen_kept | with_reducible exact okS_err _ | with_reducible exact okF_err _
    | with_reducible refine okS_ok ?_ (fun hr => ?_) | with_reducible refine okF_ok (fun hr => ?_)
    | with_reducible exact setS_sized hr.1 _ _ | split | exact hr.1 | exact hr | exact ⟨hr.1, hr.2⟩ | exact ⟨setS_sized hr.1 _ _, hr.2⟩
    | exact ⟨setP_sized hr.1 _ _, hr.2⟩ | exact ⟨setPair_sized hr.1 _ _ _, hr.2⟩ | exact ⟨setV_sized hr.1 _ _, hr.2⟩
    | exact ⟨setA_sized hr.1 _ _, hr.2⟩)

theorem execVdupi_kept (e : Fin 8) (d : Fin 32) (i : Word) (s : State) : ∃ out, execVdupi e d i s = .next out ∧ Kept s out := by
  refine ⟨_, rfl, ?_⟩
  have h : Kept s s := Kept.refl s
  repeat' (first
    | with_reducible assumption | with_reducible exact Kept.refl _
    | with_reducible refine State.instr_kept ?_ _ _ _ _ _ (fun v r hv hr => ?_) | with_reducible exact okS_err _
    | with_reducible exact okF_err _ | with_reducible refine okS_ok ?_ (fun hr => ?_) | with_reducible refine okF_ok (fun hr => ?_)
    | with_reducible exact setS_sized hr.1 _ _ | split | exact hr.1 | exact hr | exact ⟨hr.1, hr.2⟩ | exact ⟨setS_sized hr.1 _ _, hr.2⟩
    | exact ⟨setP_sized hr.1 _ _, hr.2⟩ | exact ⟨setPair_sized hr.1 _ _ _, hr.2⟩ | exact ⟨setV_sized hr.1 _ _, hr.2⟩
    | exact ⟨setA_sized hr.1 _ _, hr.2⟩)

theorem execVld_kept (e : Fin 8) (pr : Bool) (g : Fin 8) (d a : Fin 32) (off : BitVec 12) (s : State) : ∃ out, execVld e pr g d a off s = .next out ∧ Kept s out := by
  refine ⟨_, rfl, ?_⟩
  have h : Kept s s := Kept.refl s
  repeat' (first
    | with_reducible assumption | with_reducible exact Kept.refl _
    | with_reducible refine State.instrF_kept ?_ _ _ _ _ _ (fun im v r => ?_) | with_reducible exact okS_err _
    | with_reducible exact okF_err _ | with_reducible refine okS_ok ?_ (fun hr => ?_) | with_reducible refine okF_ok (fun hr => ?_)
    | with_reducible exact setS_sized hr.1 _ _ | split
    | (lift_lets; intro x; first | (refine (fun (hx : Kept s x) => ?_) ?_; clear_value x) | clear_value x)
    | (intro x; refine (fun (hx : Kept s x) => ?_) ?_; clear_value x) | (intro x; clear_value x) | dsimp only | exact hr.1 | exact hr
    | exact ⟨hr.1, hr.2⟩ | exact ⟨setS_sized hr.1 _ _, hr.2⟩ | exact ⟨setP_sized hr.1 _ _, hr.2⟩
    | exact ⟨setPair_sized hr.1 _ _ _, hr.2⟩ | exact ⟨setV_sized hr.1 _ _, hr.2⟩ | exact ⟨setA_sized hr.1 _ _, hr.2⟩)

theorem execVst_kept (e : Fin 8) (pr : Bool) (g : Fin 8) (d a : Fin 32) (off : BitVec 12) (s : State) : ∃ out, execVst e pr g d a off s = .next out ∧ Kept s out := by
  refine ⟨_, rfl, ?_⟩
  have h : Kept s s := Kept.refl s
  repeat' (first
    | with_reducible assumption | with_reducible exact Kept.refl _
    | with_reducible refine State.instrF_kept ?_ _ _ _ _ _ (fun im v r => ?_) | with_reducible apply kept_ite
    | with_reducible exact okS_err _ | with_reducible exact okF_err _ | with_reducible refine okS_ok ?_ (fun hr => ?_)
    | with_reducible refine okF_ok (fun hr => ?_) | with_reducible exact setS_sized hr.1 _ _ | split
    | (lift_lets; intro x; first | (refine (fun (hx : Kept s x) => ?_) ?_; clear_value x) | clear_value x)
    | (intro x; refine (fun (hx : Kept s x) => ?_) ?_; clear_value x) | (intro x; clear_value x) | dsimp only | exact hr.1 | exact hr
    | exact ⟨hr.1, hr.2⟩ | exact ⟨setS_sized hr.1 _ _, hr.2⟩ | exact ⟨setP_sized hr.1 _ _, hr.2⟩
    | exact ⟨setPair_sized hr.1 _ _ _, hr.2⟩ | exact ⟨setV_sized hr.1 _ _, hr.2⟩ | exact ⟨setA_sized hr.1 _ _, hr.2⟩)

end Sys2Proof.Laws
end

