-- ==== Sys2Proof/Laws/Values.lean ====
section
/-!
SUPPORT. The values of instructions in the terms of plain bit vectors: what each operation of the engines computes.
-/

namespace Sys2Proof.Laws

open Sys2Proof.Machine

/-! ## Scalars -/

theorem shl_eq (x y : Word) : x <<< (y.toNat % 32) = x <<< (y % 32) := by
  simp [BitVec.shiftLeft_eq']

theorem shr_eq (x y : Word) : x >>> (y.toNat % 32) = x >>> (y % 32) := by simp [BitVec.ushiftRight_eq']

theorem sra_eq (x y : Word) : x.sshiftRight (y.toNat % 32) = x.sshiftRight' (y % 32) := by simp [BitVec.sshiftRight']

theorem slt_eq (x y : Word) : bit1 (decide (x.toInt < y.toInt)) = if x.slt y then 1 else 0 := by
  simp [bit1, BitVec.slt]

theorem ult_eq (x y : Word) : bit1 (decide (x.toNat < y.toNat)) = if x.ult y then 1 else 0 := by
  simp [bit1, BitVec.ult]

theorem seq_eq (x y : Word) : bit1 (x == y) = if x = y then 1 else 0 := by simp [bit1]

theorem min_eq (x y : Word) : (if x.toInt < y.toInt then x else y) = if x.sle y then x else y := by
  simp only [BitVec.sle, decide_eq_true_eq]
  by_cases h : x.toInt = y.toInt
  · have := BitVec.eq_of_toInt_eq h; subst this; simp
  · have : x.toInt < y.toInt ↔ x.toInt ≤ y.toInt := by omega
    simp only [this]

theorem max_eq (x y : Word) : (if x.toInt < y.toInt then y else x) = if x.sle y then y else x := by
  simp only [BitVec.sle, decide_eq_true_eq]
  by_cases h : x.toInt = y.toInt
  · have := BitVec.eq_of_toInt_eq h; subst this; simp
  · have : x.toInt < y.toInt ↔ x.toInt ≤ y.toInt := by omega
    simp only [this]

theorem minu_eq (x y : Word) : (if x.toNat < y.toNat then x else y) = if x.ule y then x else y := by
  simp only [BitVec.ule, decide_eq_true_eq]
  by_cases h : x.toNat = y.toNat
  · have := BitVec.eq_of_toNat_eq h; subst this; simp
  · have : x.toNat < y.toNat ↔ x.toNat ≤ y.toNat := by omega
    simp only [this]

theorem maxu_eq (x y : Word) : (if x.toNat < y.toNat then y else x) = if x.ule y then y else x := by
  simp only [BitVec.ule, decide_eq_true_eq]
  by_cases h : x.toNat = y.toNat
  · have := BitVec.eq_of_toNat_eq h; subst this; simp
  · have : x.toNat < y.toNat ↔ x.toNat ≤ y.toNat := by omega
    simp only [this]

theorem mulhu_eq (x y : Word) : BitVec.ofNat 32 (x.toNat * y.toNat / 4294967296) = (x.zeroExtend 64 * y.zeroExtend 64).extractLsb' 32 32 := by
  apply BitVec.eq_of_toNat_eq
  have hx := x.isLt
  have hy := y.isLt
  have h : x.toNat * y.toNat < 2 ^ 64 := by
    calc x.toNat * y.toNat < 2 ^ 32 * 2 ^ 32 := Nat.mul_lt_mul'' hx hy
      _ = 2 ^ 64 := by decide
  simp [BitVec.extractLsb'_toNat, BitVec.toNat_mul, Nat.shiftRight_eq_div_pow]
  rw [Nat.mod_eq_of_lt (a := x.toNat * y.toNat) (by omega)]

theorem mulh_eq (x y : Word) : BitVec.ofInt 32 (x.toInt * y.toInt / 4294967296) = (x.signExtend 64 * y.signExtend 64).extractLsb' 32 32 := by
  have key : (x.signExtend 64 * y.signExtend 64) = BitVec.ofInt 64 (x.toInt * y.toInt) := by
    apply BitVec.eq_of_toInt_eq
    rw [BitVec.toInt_mul, BitVec.toInt_signExtend, BitVec.toInt_signExtend, BitVec.toInt_ofInt]
    simp only [Nat.min_def]
    rw [show (if (64:Nat) ≤ 32 then 64 else 32) = 32 from rfl, BitVec.toInt_bmod_cancel, BitVec.toInt_bmod_cancel]
  rw [key]
  apply BitVec.eq_of_toNat_eq
  rw [BitVec.extractLsb'_toNat, BitVec.toNat_ofInt, BitVec.toNat_ofInt, Nat.shiftRight_eq_div_pow]
  generalize x.toInt * y.toInt = z
  omega

theorem sdiv_eq (x y : Word) : divS x y = if y = 0 then 0xFFFFFFFF else x.sdiv y := by
  unfold divS
  by_cases h0 : y = 0
  · simp [h0]
  · simp only [h0, if_false]
    split
    · rename_i h; obtain ⟨rfl, rfl⟩ := h; decide
    · rename_i h
      apply BitVec.eq_of_toInt_eq
      rw [BitVec.toInt_ofInt, BitVec.toInt_sdiv]

theorem udiv_eq (x y : Word) : divU x y = if y = 0 then 0xFFFFFFFF else x / y := by
  unfold divU; split
  · rfl
  · apply BitVec.eq_of_toNat_eq; simp; exact Nat.lt_of_le_of_lt (Nat.div_le_self _ _) x.isLt

theorem umod_eq (x y : Word) : remU x y = if y = 0 then x else x % y := by
  unfold remU; split
  · rfl
  · apply BitVec.eq_of_toNat_eq; simp; exact Nat.lt_of_le_of_lt (Nat.mod_le _ _) x.isLt

theorem srem_eq (x y : Word) : remS x y = if y = 0 then x else x.srem y := by
  unfold remS
  by_cases h0 : y = 0
  · simp [h0]
  · simp only [h0, if_false]
    split
    · rename_i h; obtain ⟨rfl, rfl⟩ := h; decide
    · apply BitVec.eq_of_toInt_eq
      have h1 := x.toInt_lt; have h2 := x.le_toInt; have h3 := y.toInt_lt; have h4 := y.le_toInt
      have k1 : (x.toInt.tmod y.toInt).natAbs ≤ x.toInt.natAbs := by rw [Int.natAbs_tmod]; exact Nat.mod_le _ _
      have k2 : (x.toInt.tmod y.toInt).natAbs < y.toInt.natAbs := by
        rw [Int.natAbs_tmod]; apply Nat.mod_lt
        have : y.toInt ≠ 0 := fun h => h0 (BitVec.eq_of_toInt_eq (by rw [h]; rfl))
        omega
      rw [BitVec.toInt_srem, BitVec.toInt_ofInt]
      apply Int.bmod_eq_of_le <;> omega

theorem testBit_eq (n k : Nat) : bitOf n k = n.testBit k := by
  unfold bitOf; rw [Nat.testBit_eq_decide_div_mod_eq]; rfl

theorem popc_eq (x : Word) : popc x = BitVec.ofNat 32 ((List.range 32).countP (fun k => x.getLsbD k)) := by
  unfold popc; rw [List.countP_eq_length_filter]; congr 3; funext k; exact testBit_eq _ _

theorem sgn_eq (k : Nat) (hk : 0 < k) (x : BitVec k) : sgn k x.toNat = x.toInt := by
  unfold sgn
  have h := x.isLt
  have e : 2 ^ k = 2 * 2 ^ (k - 1) := by rw [← Nat.pow_succ']; congr 1; omega
  simp only [Nat.mod_eq_of_lt h, BitVec.toInt_eq_toNat_cond]
  split <;> split <;> omega

theorem sgn_mod (k n : Nat) : sgn k n = sgn k (n % 2 ^ k) := by unfold sgn; simp

theorem sext_eq (k : Nat) (hk : 0 < k) (x : Word) : sextLow k x = (x.extractLsb' 0 k).signExtend 32 := by
  unfold sextLow
  rw [sgn_mod]
  have : x.toNat % 2 ^ k = (x.extractLsb' 0 k).toNat := by rw [BitVec.extractLsb'_toNat]; simp
  rw [this, sgn_eq k hk]
  rfl

theorem abs_eq (x : Word) : absSat x = if x = 0x80000000 then 0x7FFFFFFF else BitVec.ofNat 32 x.toInt.natAbs := by
  unfold absSat
  split
  · rfl
  · split
    · rename_i h
      apply BitVec.eq_of_toInt_eq
      rw [BitVec.toInt_neg, BitVec.toInt_ofNat']; congr 1; omega
    · rename_i h
      apply BitVec.eq_of_toInt_eq
      rw [BitVec.toInt_ofNat', show ((x.toInt.natAbs : Nat) : Int) = x.toInt by omega, BitVec.toInt_bmod_cancel]

theorem clz_eq (x : Word) : ∃ k : Nat, k ≤ 32 ∧ x.toNat < 2 ^ (32 - k) ∧ (k < 32 → 2 ^ (31 - k) ≤ x.toNat) ∧ clz x = BitVec.ofNat 32 k := by
  unfold clz
  by_cases h : x = 0
  · exact ⟨32, by omega, by simp [h], by omega, by rw [if_pos h]; rfl⟩
  · have hx : x.toNat ≠ 0 := fun k => h (BitVec.eq_of_toNat_eq (by rw [k]; rfl))
    have h1 : Nat.log2 x.toNat < 32 := (Nat.log2_lt hx).mpr x.isLt
    have h2 := Nat.log2_self_le hx
    have h3 := Nat.lt_log2_self (n := x.toNat)
    refine ⟨31 - Nat.log2 x.toNat, by omega, ?_, fun _ => ?_, by rw [if_neg h]⟩
    · rwa [show 32 - (31 - Nat.log2 x.toNat) = Nat.log2 x.toNat + 1 by omega]
    · rwa [show 31 - (31 - Nat.log2 x.toNat) = Nat.log2 x.toNat by omega]


/-! ## Memory -/

/-- A load or store address in 32 bits (R213). -/
theorem scalarAddr_eq (x : Word) (off : BitVec 12) (k : Nat) : scalarAddr x off k = (x + off.signExtend 32 * BitVec.ofNat 32 k).toNat := by
  unfold scalarAddr
  congr 2
  apply BitVec.eq_of_toInt_eq
  rw [BitVec.toInt_mul, BitVec.toInt_ofInt, BitVec.toInt_signExtend_of_le (by decide), BitVec.toInt_ofNat', Int.mul_bmod_bmod]

theorem append_toNat {n m : Nat} (x : BitVec n) (y : BitVec m) : (x ++ y).toNat = x.toNat * 2 ^ m + y.toNat := by
  rw [BitVec.toNat_append, ← Nat.shiftLeft_add_eq_or_of_lt y.isLt, Nat.shiftLeft_eq]

theorem ofLe_read1 (m : Mem) (x : Nat) : ofLe (memRead m x 1) = (memGet m x).toNat := by
  simp [memRead, List.range_succ, ofLe]

theorem ofLe_read2 (m : Mem) (x : Nat) : ofLe (memRead m x 2) = (memGet m (x + 1) ++ memGet m x).toNat := by
  have h : (memGet m (x + 1) ++ memGet m x).toNat = (memGet m (x + 1)).toNat * 2 ^ 8 + (memGet m x).toNat := append_toNat _ _
  simp [memRead, List.range_succ, ofLe]
  omega

theorem ofLe_read4 (m : Mem) (x : Nat) :
    BitVec.ofNat 32 (ofLe (memRead m x 4)) = memGet m (x + 3) ++ memGet m (x + 2) ++ memGet m (x + 1) ++ memGet m x := by
  apply BitVec.eq_of_toNat_eq
  have h0 := (memGet m x).isLt
  have h1 := (memGet m (x + 1)).isLt
  have h2 := (memGet m (x + 2)).isLt
  have h3 := (memGet m (x + 3)).isLt
  have k : (memGet m (x + 3) ++ memGet m (x + 2) ++ memGet m (x + 1) ++ memGet m x).toNat =
      (((memGet m (x + 3)).toNat * 2 ^ 8 + (memGet m (x + 2)).toNat) * 2 ^ 8 + (memGet m (x + 1)).toNat) * 2 ^ 8 + (memGet m x).toNat :=
    (append_toNat _ _).trans (by rw [append_toNat, append_toNat])
  simp [memRead, List.range_succ, ofLe]
  omega

theorem ofInt_sgn (k : Nat) (hk : 0 < k) (x : BitVec k) : BitVec.ofInt 32 (sgn k x.toNat) = x.signExtend 32 := by
  rw [sgn_eq k hk]; rfl

theorem ofNat_toNat (k : Nat) (x : BitVec k) : BitVec.ofNat 32 x.toNat = x.zeroExtend 32 := by
  apply BitVec.eq_of_toNat_eq; simp

theorem byteOf_eq (y : Word) (i : Nat) : byteOf y.toNat i = y.extractLsb' (8 * i) 8 := by
  apply BitVec.eq_of_toNat_eq
  simp [byteOf, BitVec.extractLsb'_toNat, Nat.shiftRight_eq_div_pow]

/-! ## Vectors -/

theorem foldr_comps (w : Nat) (l : List Nat) (k : Nat) :
    (l.foldr (fun c acc => c % 2 ^ w + 2 ^ w * acc) 0) / 2 ^ (w * k) % 2 ^ w = (l.getD k 0) % 2 ^ w := by
  induction l generalizing k with
  | nil => simp
  | cons c t ih =>
    have hw : 0 < 2 ^ w := Nat.two_pow_pos w
    cases k with
    | zero => simp [Nat.add_mul_mod_self_left]
    | succ k =>
      have e : 2 ^ (w * (k + 1)) = 2 ^ w * 2 ^ (w * k) := by rw [← Nat.pow_add]; congr 1; rw [Nat.mul_succ, Nat.add_comm]
      rw [List.foldr_cons, e, ← Nat.div_div_eq_div_mul, Nat.add_mul_div_left _ _ hw, Nat.div_eq_of_lt (Nat.mod_lt _ hw), Nat.zero_add, ih,
        List.getD_cons_succ]

theorem comps_getD (w : Nat) (v : Vec) (c : Nat) (h : c < 512 / w) : (comps w v).getD c 0 = (comp w v c).toNat := by
  simp [comps, List.getD_eq_getElem?_getD, h, comp, BitVec.extractLsb'_toNat, Nat.shiftRight_eq_div_pow]

/-- A component of a vector built from codes. -/
theorem comp_ofComps (w : Nat) (l : List Nat) (c : Nat) (h : c < 512 / w) (hd : w * (512 / w) = 512) :
    comp w (ofComps w l) c = BitVec.ofNat w (l.getD c 0) := by
  apply BitVec.eq_of_toNat_eq
  have hc : w * c + w ≤ 512 := by
    have : w * (c + 1) ≤ w * (512 / w) := Nat.mul_le_mul_left _ h
    rw [hd, Nat.mul_succ] at this; exact this
  simp only [comp, BitVec.extractLsb'_toNat, ofComps, BitVec.toNat_ofNat, Nat.shiftRight_eq_div_pow]
  rw [← foldr_comps w l c]
  generalize 512 = n at *
  have e : (2 : Nat) ^ n = 2 ^ (w * c) * 2 ^ (n - w * c) := by rw [← Nat.pow_add]; congr 1; omega
  have e2 : (2 : Nat) ^ (n - w * c) = 2 ^ w * 2 ^ (n - w * c - w) := by rw [← Nat.pow_add]; congr 1; omega
  rw [e, Nat.mod_mul_right_div_self, e2, Nat.mod_mul_right_mod]

theorem compW_dvd (ty : VTy) : compW ty * (512 / compW ty) = 512 := by cases ty <;> rfl

theorem compW_pos (ty : VTy) : 0 < compW ty := by cases ty <;> decide

theorem laneW_dvd (ty : VTy) : laneW ty * (512 / laneW ty) = 512 := by cases ty <;> rfl

theorem compS_eq {w : Nat} (hw : 0 < w) (v : Vec) (c : Nat) : compS w v c = (comp w v c).toInt := by
  rw [← sgn_eq w hw]
  unfold compS
  rw [sgn_mod]
  simp [comp, BitVec.extractLsb'_toNat, Nat.shiftRight_eq_div_pow]

theorem compU_eq (w : Nat) (v : Vec) (c : Nat) : compU w v c = (comp w v c).toNat := by
  simp [comp, compU, BitVec.extractLsb'_toNat, Nat.shiftRight_eq_div_pow]

theorem ofNat_code (w : Nat) (x : Int) : BitVec.ofNat w (code w x) = BitVec.ofInt w x := by
  apply BitVec.eq_of_toNat_eq
  have h : (0 : Int) < ((2 ^ w : Nat) : Int) := by exact_mod_cast Nat.two_pow_pos w
  have h1 := Int.emod_nonneg x (Int.ne_of_gt h)
  have h2 := Int.emod_lt_of_pos x h
  simp only [code, BitVec.toNat_ofNat, BitVec.toNat_ofInt]
  rw [Nat.mod_eq_of_lt]; omega

theorem govComp_eq (ty : VTy) (g : Word) (c : Nat) : govComp ty g c = g.getLsbD (govBit ty c) := by
  have k : ∀ n, bitOf g.toNat n = g.getLsbD n := fun n => testBit_eq _ _
  unfold govComp governed
  rw [k]
  congr 1
  cases ty <;> simp only [compLane, compW, laneW, govBit] <;> omega

theorem govLane_eq (ty : VTy) (g : Word) (j : Nat) : govLane ty g j = g.getLsbD (laneW ty * j / 16) := by
  have k : ∀ n, bitOf g.toNat n = g.getLsbD n := fun n => testBit_eq _ _
  unfold govLane governed
  rw [k, Nat.mul_comm]

/-- A vector written component by component. -/
theorem vmap_lanes (ty : VTy) (g : Word) (old : Vec) (f : Nat → Int) : LanesAre ty g old (vmap ty g old f) (fun c => BitVec.ofInt _ (f c)) := by
  intro c hc
  rw [vmap, comp_ofComps _ _ _ hc (compW_dvd ty)]
  simp only [List.getD_eq_getElem?_getD, List.getElem?_map, List.getElem?_range hc, Option.map_some, Option.getD_some, govComp_eq]
  split
  · exact ofNat_code _ _
  · rw [← List.getD_eq_getElem?_getD, comps_getD _ _ _ hc]; simp

theorem lanes_congr {ty : VTy} {g : Word} {old v : Vec} {f k : Nat → BitVec (compW ty)} (h : LanesAre ty g old v f)
    (e : ∀ c, c < 512 / compW ty → f c = k c) : LanesAre ty g old v k := fun c hc => by rw [h c hc, e c hc]

/-- Saturation as a minimum and a maximum. -/
theorem satS_eq (w : Nat) (x : Int) : satS w x = max (-(2 ^ (w - 1))) (min (2 ^ (w - 1) - 1) x) := by
  unfold satS
  have h : (0 : Int) < 2 ^ (w - 1) := Int.pow_pos (by decide)
  have e : (((2 ^ (w - 1) : Nat)) : Int) = 2 ^ (w - 1) := by simp
  rw [e]
  generalize (2 : Int) ^ (w - 1) = m at *
  dsimp only
  rw [Int.max_def, Int.min_def]
  split <;> split <;> split <;> (try split) <;> omega

/-! ## Vector instructions by their shared forms -/

variable {s : State} {e : Nat} {r : Run}

theorem typed_eq {tys : List VTy} {ty : VTy} (h : ty ∈ tys) (f : State → State) : s.typed tys ty f = f s := by
  unfold State.typed; rw [if_pos (by simpa using h)]

theorem vgen_lanes {i : Instr} (h : s.Issues e r) (pr : Bool) (cost : Nat) (g : Fin 8) (ty : VTy) (d : Fin 32) (f : PairS → Nat → Int)
    (hx : exec i s = .next (s.vgen e pr cost g ty d f)) : s.Lanewise i e r pr cost 1 g ty d (fun c => BitVec.ofInt _ (f r.view c)) :=
  ⟨_, vector_of h pr cost 1 d (fun v _ => vmap ty (v.regs.rp g) (v.regs.rv d) (f v)) hx, vmap_lanes _ _ _ _⟩

theorem vcomp_lanes {i : Instr} (h : s.Issues e r) (pr : Bool) (cost : Nat) (g : Fin 8) (ty : VTy) (d a b : Fin 32) (f : Nat → Int → Int → Int)
    (hx : exec i s = .next (s.vcomp e pr cost g ty d a b f)) :
    s.Lanewise i e r pr cost 1 g ty d (fun c => BitVec.ofInt _ (f c (comp (compW ty) (r.view.regs.rv a) c).toInt
      (comp (compW ty) (r.view.regs.rv b) c).toInt)) :=
  ⟨_, vector_of h pr cost 1 d (fun v _ => vmap ty (v.regs.rp g) (v.regs.rv d)
      (fun c => f c (compS (compW ty) (v.regs.rv a) c) (compS (compW ty) (v.regs.rv b) c))) hx,
    lanes_congr (vmap_lanes _ _ _ _) (fun c _ => by rw [compS_eq (compW_pos ty), compS_eq (compW_pos ty)])⟩

theorem vacc_lanes {i : Instr} (h : s.Issues e r) (pr : Bool) (cost : Nat) (g : Fin 8) (k : Fin 4) (f : PairS → Nat → Int → Int)
    (hx : exec i s = .next (s.vacc e pr cost g k f)) : s.Accumulates i e r pr cost g k id (f r.view) := by
  have := acc_of h pr cost k (fun v _ => (List.range 32).map (fun j =>
      let o := (v.regs.ra k).getD j 0
      if bitOf (v.regs.rp g).toNat j then satAcc (f v j o) else o)) hx
  have k : (fun j => if (r.view.regs.rp g).getLsbD j then max (-(2 ^ 47)) (min (2 ^ 47 - 1) (f r.view j ((r.view.regs.ra k).getD j 0)))
      else (r.view.regs.ra k).getD j 0) = fun j => if bitOf (r.view.regs.rp g).toNat j then satAcc (f r.view j ((r.view.regs.ra k).getD j 0))
      else (r.view.regs.ra k).getD j 0 := by
    funext j
    rw [show (r.view.regs.rp g).getLsbD j = bitOf (r.view.regs.rp g).toNat j from (testBit_eq _ _).symm, satAcc, satS_eq 48]
  unfold State.Accumulates
  dsimp only [id]
  rw [k]; exact this

theorem lanewise_congr {i : Instr} {pr : Bool} {cost len : Nat} {g : Fin 8} {ty : VTy} {d : Fin 32} {f k : Nat → BitVec (compW ty)}
    (h : s.Lanewise i e r pr cost len g ty d f) (hf : ∀ c, c < 512 / compW ty → f c = k c) : s.Lanewise i e r pr cost len g ty d k :=
  let ⟨v, h1, h2⟩ := h
  ⟨v, h1, lanes_congr h2 hf⟩

/-! ## Values of components -/

theorem ofInt_toInt {w : Nat} (x : BitVec w) : BitVec.ofInt w x.toInt = x := BitVec.ofInt_toInt

theorem ofInt_satS (w : Nat) (x : Int) : BitVec.ofInt w (satS w x) = satB w x := by rw [satS_eq]; rfl

theorem rshRound_eq (x : Int) (k : Nat) : rshRound x k = roundShift x k := by
  have two : ∀ (n k : Nat), (((2 * n + 2 ^ k) / 2 ^ (k + 1) : Nat) : Int) = if k = 0 then (n : Int) else ((n : Int) + 2 ^ (k - 1)) / 2 ^ k := by
    intro n k
    split
    · rename_i h; subst h; omega
    · obtain ⟨m, rfl⟩ : ∃ m, k = m + 1 := ⟨k - 1, by omega⟩
      have e : (2 * n + 2 ^ (m + 1)) / 2 ^ (m + 1 + 1) = (n + 2 ^ m) / 2 ^ (m + 1) := by
        rw [show 2 * n + 2 ^ (m + 1) = 2 * (n + 2 ^ m) by rw [Nat.pow_succ]; omega, show 2 ^ (m + 1 + 1) = 2 * 2 ^ (m + 1) by rw [Nat.pow_succ _ (m + 1)]; omega,
          Nat.mul_div_mul_left _ _ (by decide)]
      rw [e]; simp
  unfold rshRound roundShift
  rw [two]
  by_cases hk : k = 0
  · simp only [hk, if_true]; exact (Int.sign_mul_natAbs x).symm
  · simp only [hk, if_false]
    rcases Int.lt_trichotomy x 0 with h | h | h
    · rw [if_pos h, Int.sign_eq_neg_one_of_neg h, show ((x.natAbs : Nat) : Int) = -x by omega]; omega
    · subst h
      have : (2 : Int) ^ (k - 1) / 2 ^ k = 0 := by
        apply Int.ediv_eq_zero_of_lt (Int.le_of_lt (Int.pow_pos (by decide)))
        exact Int.pow_lt_pow_of_lt (by decide) (by omega)
      simpa using this
    · rw [if_neg (by omega), Int.sign_eq_one_of_pos h, show ((x.natAbs : Nat) : Int) = x by omega]; omega

theorem narrowAdd_eq (ty : VTy) (x : Int) : BitVec.ofInt (compW ty) (narrowAdd ty x) = if ty = .q15 then satB _ x else BitVec.ofInt _ x := by
  cases ty <;> simp [narrowAdd]
  exact ofInt_satS 16 x

theorem ofInt_narrowAdd (ty : VTy) (x y : BitVec (compW ty)) : BitVec.ofInt _ (narrowAdd ty (x.toInt + y.toInt)) = if ty = .q15 then satB _ (x.toInt + y.toInt) else x + y := by
  rw [narrowAdd_eq]; split
  · rfl
  · rw [BitVec.ofInt_add, ofInt_toInt, ofInt_toInt]

theorem ofInt_narrowSub (ty : VTy) (x y : BitVec (compW ty)) : BitVec.ofInt _ (narrowAdd ty (x.toInt - y.toInt)) = if ty = .q15 then satB _ (x.toInt - y.toInt) else x - y := by
  rw [narrowAdd_eq]; split
  · rfl
  · rw [BitVec.sub_eq_add_neg, Int.sub_eq_add_neg, BitVec.ofInt_add, BitVec.ofInt_neg, ofInt_toInt, ofInt_toInt]

theorem ofInt_min {w : Nat} (x y : BitVec w) : BitVec.ofInt w (if x.toInt < y.toInt then x.toInt else y.toInt) = if x.sle y then x else y := by
  simp only [BitVec.sle, decide_eq_true_eq]
  by_cases h : x.toInt = y.toInt
  · have := BitVec.eq_of_toInt_eq h; subst this; simp [BitVec.ofInt_toInt]
  · have : x.toInt < y.toInt ↔ x.toInt ≤ y.toInt := by omega
    simp only [this]; split <;> exact BitVec.ofInt_toInt

theorem ofInt_max {w : Nat} (x y : BitVec w) : BitVec.ofInt w (if x.toInt < y.toInt then y.toInt else x.toInt) = if x.sle y then y else x := by
  simp only [BitVec.sle, decide_eq_true_eq]
  by_cases h : x.toInt = y.toInt
  · have := BitVec.eq_of_toInt_eq h; subst this; simp [BitVec.ofInt_toInt]
  · have : x.toInt < y.toInt ↔ x.toInt ≤ y.toInt := by omega
    simp only [this]; split <;> exact BitVec.ofInt_toInt

theorem ofInt_abs {w : Nat} (x : Int) : BitVec.ofInt w (satS w (if x < 0 then -x else x)) = satB w x.natAbs := by
  rw [ofInt_satS]; congr 1; split <;> omega

theorem ofInt_natCast_toNat {w : Nat} (x : BitVec w) : BitVec.ofInt w ((x.toNat : Nat) : Int) = x := by
  apply BitVec.eq_of_toNat_eq; simp

theorem comp_and (w) (a b : Vec) (c) : comp w (a &&& b) c = comp w a c &&& comp w b c := by simp [comp, BitVec.extractLsb'_and]

theorem comp_or (w) (a b : Vec) (c) : comp w (a ||| b) c = comp w a c ||| comp w b c := by simp [comp, BitVec.extractLsb'_or]

theorem comp_xor (w) (a b : Vec) (c) : comp w (a ^^^ b) c = comp w a c ^^^ comp w b c := by simp [comp, BitVec.extractLsb'_xor]

theorem comp_not (w) (a : Vec) (c) (h : w * c + w ≤ 512) : comp w (~~~a) c = ~~~(comp w a c) := by
  apply BitVec.eq_of_getLsbD_eq; intro i hi
  simp only [comp, BitVec.getLsbD_extractLsb', BitVec.getLsbD_not, hi, decide_true, Bool.true_and, show w * c + i < 512 by omega]

theorem shAmt_eq (ty : VTy) (y : BitVec (compW ty)) : shAmt ty y.toInt = y.toNat % compW ty := by
  unfold shAmt
  have h := compW_pos ty
  have hd : (compW ty) ∣ 2 ^ compW ty := by cases ty <;> decide
  rw [BitVec.toInt_eq_toNat_bmod]
  have : ((y.toNat : Int).bmod (2 ^ compW ty)) % (compW ty : Nat) = (y.toNat : Int) % (compW ty : Nat) := by
    rw [Int.bmod_eq_emod]
    have : ∀ z : Int, (z % ((2 ^ compW ty : Nat) : Int)) % (compW ty : Nat) = z % (compW ty : Nat) := fun z => Int.emod_emod_of_dvd z (by exact_mod_cast hd)
    split
    · obtain ⟨k, hk⟩ := hd
      rw [Int.sub_emod, this, hk]; simp
    · rw [show ((0 : Nat) : Int) = 0 from rfl, Int.sub_zero, this]
  rw [this]; rw [show (y.toNat : Int) % (compW ty : Nat) = ((y.toNat % compW ty : Nat) : Int) from rfl, Int.toNat_natCast]

theorem ofInt_shl {w : Nat} (x : BitVec w) (k : Nat) : BitVec.ofInt w (x.toInt * 2 ^ k) = x <<< k := by
  rw [BitVec.shiftLeft_eq_mul_twoPow, BitVec.ofInt_mul, ofInt_toInt]; congr 1
  apply BitVec.eq_of_toNat_eq
  rw [BitVec.toNat_twoPow, show (2 : Int) ^ k = ((2 ^ k : Nat) : Int) by simp, BitVec.ofInt_natCast, BitVec.toNat_ofNat]

theorem code_toInt {w : Nat} (x : BitVec w) : code w x.toInt = x.toNat := by
  have := congrArg BitVec.toNat (ofNat_code w x.toInt)
  rw [BitVec.ofInt_toInt, BitVec.toNat_ofNat] at this
  rw [← this, Nat.mod_eq_of_lt]
  unfold code
  have h : (0 : Int) < ((2 ^ w : Nat) : Int) := by exact_mod_cast Nat.two_pow_pos w
  have h1 := Int.emod_nonneg x.toInt (Int.ne_of_gt h)
  have h2 := Int.emod_lt_of_pos x.toInt h
  omega

theorem ofInt_ushr {w : Nat} (x : BitVec w) (k : Nat) : BitVec.ofInt w ((code w x.toInt / 2 ^ k : Nat) : Int) = x >>> k := by
  rw [code_toInt]
  apply BitVec.eq_of_toNat_eq; simp [Nat.shiftRight_eq_div_pow]
  apply Nat.mod_eq_of_lt; exact Nat.lt_of_le_of_lt (Nat.div_le_self _ _) x.isLt

theorem ofInt_sshr {w : Nat} (x : BitVec w) (k : Nat) : BitVec.ofInt w (x.toInt / 2 ^ k) = x.sshiftRight k := by
  rw [BitVec.sshiftRight, Int.shiftRight_eq_div_pow]; rfl


theorem ofInt_mulComp (ty : VTy) (h : ty ∈ [VTy.c16, .c32]) (va vb : Vec) (conj : Bool) (c : Nat) :
    BitVec.ofInt (compW ty) (mulComp ty va vb conj c) =
    (let (ar, ai) := ((comp (compW ty) va (c / 2 * 2)).toInt, (comp (compW ty) va (c / 2 * 2 + 1)).toInt)
      let (br, bi) := ((comp (compW ty) vb (c / 2 * 2)).toInt, (if conj then -1 else 1) * (comp (compW ty) vb (c / 2 * 2 + 1)).toInt)
      satB (compW ty) (roundShift (if c % 2 = 0 then ar * br - ai * bi else ar * bi + ai * br) (compW ty - 1))) := by
  simp only [List.mem_cons, List.not_mem_nil, or_false] at h
  rcases h with rfl | rfl <;>
  · simp only [mulComp, mulComp.cpart, compW, compS_eq (w := 16) (by decide), compS_eq (w := 32) (by decide), cmul, ofInt_satS, rshRound_eq]
    cases conj <;> simp

end Sys2Proof.Laws
end

