-- ==== Sys2Proof/Tests/Slice0.lean ====
section
/-!
SUPPORT. The well-formedness checks refuse what they should, each statement's hypotheses are met together by a concrete state, and small runs give what
the spec's own tables and examples say.
-/

namespace Sys2Proof.Tests
-- One proof after another: the kernel evaluations side by side would need more memory than the check has.
set_option Elab.async false

open Sys2Proof Sys2Proof.Machine Sys2Proof.Laws

/-! ## Well-formed commands -/

theorem test_wf_refuses_seven_sensors : (Instr.tickBoundary { temps := List.replicate 7 none, meas := List.replicate 3 none }).wf = false := by decide
theorem test_wf_refuses_a_wide_sensor : (Instr.tickBoundary { temps := some 32768 :: List.replicate 7 none, meas := List.replicate 3 none }).wf = false := by decide
theorem test_wf_refuses_two_currents : (Instr.planCutoff { ima := [0, 0], win := [none, none] }).wf = false := by decide
theorem test_wf_refuses_a_large_peak : (Instr.planCutoff { ima := [0, 0, 0], win := [some (2049, 0), none] }).wf = false := by decide
theorem test_wf_refuses_three_targets : (Instr.resetRelease { tgts := [{}, {}, {}] }).wf = false := by decide
theorem test_wf_refuses_a_large_image (b : List Byte) (h : b.length = 196609) : (Instr.imageLoad 0 0 b 0).wf = false := by simp [Instr.wf, wfImage, h]
theorem test_wf_refuses_a_large_part (b : List Byte) (h : b.length = 16385) : (Instr.imagePart 0 0 0 b 0).wf = false ∧ (Instr.imageLastPart 0 0 0 b 0).wf = false := by
  simp [Instr.wf, wfImage, h]
theorem test_wf_refuses_a_late_raw_sample : (Instr.rawDone [(6144000, 0)] [] [] []).wf = false := by decide
theorem test_wf_refuses_a_short_entry : (Instr.commandTake 0 [0, 1] [] 0).wf = false := by decide
theorem test_wf_refuses_an_empty_read : (Instr.spiRead 0 [] 0 0).wf = false := by decide
theorem test_wf_refuses_an_empty_write : (Instr.spiWrite 0 [] 0 0).wf = false := by decide
theorem test_wf_takes_an_add : (Instr.add 0 false 1 2 3).wf = true := by decide

/-! ## A state in which context 3 runs on engine 0 -/

/-- An image with every region, two jobs of each kind, q0 a CHAIN port, q1 a CTXOUT port and q2 a HOST port. -/
def image : ImageS := { ({} : ContextS).img with
  stateSize := 256, const := List.replicate 64 1, scratch := 256, ext := 4096, jobs := List.replicate 6 (2, 4)
  binds := [{ kind := 1, most := 64 }, { kind := 2, most := 64 }, { kind := 3, most := 64 }] }

/-- Its context. -/
def context : ContextS := { mode := .running, image := some image, opened := some { tag := 1, accept := 0, tenant := 1 } }

/-- A run of it, in its body, whose scalars are all 0. -/
def body : Run := { ctx := 3, tick := 1, start := 2064384, body := false, cues := List.replicate 7 {} }

/-- The device up, TB_STU in tick 1, the ports bound to T0 and served. -/
def up : State := { State.reset with
  time := { stu := 40000000, tick := 19 }, boot := { ({} : BootS) with resetLow := false, rom := false, planned := true }
  host := { ({} : HostS) with bound := true } }

/-- The run on engine 0. -/
def running (c : ContextS) (r : Run) : State := { up with ctxs := [(3, c)], runs := some r :: List.replicate 7 none }

theorem up_shaped : up.shaped :=
  { runs := rfl, run := reset_shaped.run, buses := rfl, tenants := rfl, ports := rfl, latches := rfl }

theorem run_running (c : ContextS) (r q : Run) (e : Nat) (h : (running c r).run e = some q) : q = r := by
  cases e with
  | zero => exact (Option.some.inj h).symm
  | succ n =>
    have : (List.replicate 7 (none : Option Run)).getD n none = some q := h
    rw [List.getD_eq_getElem?_getD, List.getElem?_replicate] at this
    split at this <;> cases this

theorem running_shaped (c : ContextS) (r : Run) (hr : r.sized) : (running c r).shaped :=
  { runs := rfl, run := fun _ _ h => (run_running c r _ _ h) ▸ hr, buses := rfl, tenants := rfl, ports := rfl, latches := rfl }

theorem running_issues (c : ContextS) (r : Run) (hr : r.sized) (hl : r.ended = false) : (running c r).Issues 0 r :=
  { shaped := running_shaped c r hr, engine := by decide, run := rfl, live := hl }

theorem body_sized : body.sized := ⟨⟨rfl, rfl, rfl, rfl⟩, fun _ h => by cases h⟩

theorem test_issues : (running context body).Issues 0 body := running_issues _ _ body_sized rfl

theorem running_numbered (r : Run) : (running context r).numbered := by
  intro p hp
  rw [List.mem_singleton.1 (show p ∈ [(3, context)] from hp)]
  decide

/-! ## The statements' hypotheses are met -/

/-- A run ready to end its handler of cue kind 0, the body to follow. -/
def handling : Run := { body with handler := some 0, body := true, cues := [{ count := 1, first := 5, last := 5, info := 4 }] ++ List.replicate 6 {} }

theorem handling_sized : handling.sized := ⟨⟨rfl, rfl, rfl, rfl⟩, fun _ h => by cases h⟩

/-- A job of kind 5 under tag 2 whose output and record go to these addresses. -/
def job (out status : Nat) : Job :=
  { tag := 2, kind := 5, cls := 0, span := 0, unit := 5, tick := 19, issue := 39000000, desc := 5 :: List.replicate 7 0 ++ leBytes out 4 ++ leBytes status 4 ++ List.replicate 16 0
    inputs := [[1, 2, 3]] }

/-- A run in a loop and a call, with scalar 1 at 64. -/
def looping : Run := { body with
  regs := { ({} : RegSet) with s := [0, 64] ++ List.replicate 30 0 }, loops := [{ first := 0, lend := 9, left := 2 }], calls := [7], word := 9
  jobs := [job 0x40 0x80] }

theorem looping_sized : looping.sized := ⟨⟨rfl, rfl, rfl, rfl⟩, fun _ h => by cases h⟩

theorem looping_issues : (running context looping).Issues 0 looping := running_issues _ _ looping_sized rfl

theorem test_meets_ScalarAluTable : (running context body).Issues 0 body ∧ body.view.regs.rs 1 = 0 ∧ body.view.regs.rs 2 = 0 := ⟨test_issues, by decide, by decide⟩
theorem test_meets_ScalarLoads : (running context looping).Issues 0 looping ∧ looping.view.regs.rs 1 = 64 ∧ image.check 64 1 1 false = none ∧ image.check 64 2 2 false = none ∧
    image.check 64 4 4 false = none ∧ (∀ k, (0 : Byte) = memGet looping.view.lmem (64 + k)) := ⟨looping_issues, by decide, by decide, by decide, by decide, fun _ => rfl⟩
theorem test_meets_ScalarStores : (running context looping).Issues 0 looping ∧ looping.view.regs.rs 1 = 64 ∧ looping.view.regs.rs 2 = 0 ∧ image.check 64 1 1 true = none ∧
    image.check 64 2 2 true = none ∧ image.check 252 4 4 true = none ∧ image.check 192 64 64 true = none := ⟨looping_issues, by decide, by decide, by decide, by decide, by decide, by decide⟩
theorem test_meets_FloatAndPredicateTable : (running context body).Issues 0 body ∧ body.view.regs.rs 1 = 0 ∧ body.view.regs.rp 0 = 0xFFFFFFFF ∧ body.view.regs.rp 7 = 0 :=
  ⟨test_issues, by decide, by decide, by decide⟩
theorem test_meets_FloatEdgeCases : (running context looping).Issues 0 looping ∧ looping.view.regs.rs 1 = 64 ∧ looping.view.regs.rs 2 = 0 ∧ (64 : Word).extractLsb' 23 8 = 0 :=
  ⟨looping_issues, by decide, by decide, by decide⟩
theorem test_meets_FloatRoundsToNearest : pow2 (-126) ≤ absQ 1 ∧ absQ 1 ≤ pow2 128 - pow2 104 ∧ pow2 128 - pow2 103 ≤ absQ (pow2 128) := by
  refine ⟨?_, ?_, ?_⟩ <;> norm_num [pow2, absQ, show Int.toNat 126 = 126 from rfl, show Int.toNat 128 = 128 from rfl, show Int.toNat 104 = 104 from rfl, show Int.toNat 103 = 103 from rfl]
theorem test_meets_VectorArithmeticTable : (running context body).Issues 0 body ∧ body.view.regs.rv 1 = 0 ∧ body.view.regs.rv 2 = 0 := ⟨test_issues, rfl, rfl⟩
theorem test_meets_AccumulatorTable : (running context body).Issues 0 body ∧ body.view.regs.rv 31 = 0 ∧ body.view.regs.rv 0 = 0 := ⟨test_issues, rfl, rfl⟩
theorem test_meets_CompareAndReduceTable : (running context body).Issues 0 body ∧ body.view.regs.rv 3 = 0 ∧ body.view.regs.rp 0 = 0xFFFFFFFF := ⟨test_issues, rfl, by decide⟩
theorem test_meets_PermuteAndMoveTable : (running context body).Issues 0 body ∧ body.view.regs.rv 3 = 0 ∧ body.view.regs.rs 0 = 0 ∧ image.check 0 64 64 false = none :=
  ⟨test_issues, rfl, by decide, by decide⟩
theorem test_meets_LmemAccessFaults : 0 < 64 ∧ 64 ≤ 64 ∧ image.stateSize ≤ 65536 ∧ image.const.length ≤ 65536 ∧ image.scratch ≤ 130816 ∧
    image.check 1 2 2 false = some 3 ∧ image.check 256 4 4 false = some 1 ∧ image.check 0x10000 4 4 true = some 2 ∧ image.check 0x200FC 4 4 true = none := by decide
theorem test_meets_AccessFaultTrips : (running context looping).Issues 0 looping ∧ (running context looping).numbered ∧ context.mode = .running ∧ looping.view.regs.rs 1 = 64 ∧
    image.check 65 2 2 false = some 3 ∧ image.check 256 1 1 false = some 1 ∧ image.check 0x3FF00 64 64 true = some 2 :=
  ⟨looping_issues, running_numbered _, rfl, by decide, by decide, by decide, by decide⟩
theorem test_meets_PairsReadBeforeEitherWrites : (running context body).Issues 0 body ∧ body.pair = none := ⟨test_issues, rfl⟩
theorem test_meets_FlowTable : (running context looping).Issues 0 looping ∧ looping.regs.rs 1 = 64 ∧ looping.regs.rp 0 = 0xFFFFFFFF ∧ looping.calls = 7 :: [] ∧
    looping.loops = { first := 0, lend := 9, left := 2 } :: [] := ⟨looping_issues, by decide, by decide, rfl, rfl⟩
theorem test_meets_EndOfSection : (running context handling).Issues 0 handling ∧ handling.cues.length = 7 ∧ handling.handler = some 0 ∧ handling.todo = [] ∧ handling.body = true ∧
    body.handler = none ∧ body.todo = [] ∧ body.body = false ∧ body.cues.length = 7 := ⟨running_issues _ _ handling_sized rfl, rfl, rfl, rfl, rfl, rfl, rfl, rfl, rfl⟩
theorem test_meets_Hauls : (running context looping).Issues 0 looping ∧ looping.pair = none ∧ (looping.regs.rs 1).toNat = 64 ∧ 64 % 64 = 0 ∧ 64 + 64 ≤ image.ext ∧ 64 + 64 ≤ image.stateSize :=
  ⟨looping_issues, rfl, by decide, by decide, by decide, by decide⟩
theorem test_meets_CueInstructions : (running context looping).Issues 0 looping ∧ looping.pair = none ∧ looping.cues.length = 7 ∧ (looping.regs.rs 1).toNat = 64 ∧
    image.check 64 32 32 true = none ∧ context.chain.held = false ∧ ((running context looping).at ((running context looping).issueStu looping)).now < 2 ^ 32 * 64 :=
  ⟨looping_issues, rfl, rfl, by decide, by decide, rfl, by decide⟩
theorem test_meets_SystemInstructions : (running context looping).Issues 0 looping ∧ looping.pair = none ∧ looping.loops[0]? = some { first := 0, lend := 9, left := 2 } ∧
    looping.loops.length ≤ 31 ∧ (running context looping).flag (Reg.SE_DBG_BRKEN 0) = false := ⟨looping_issues, rfl, rfl, by decide, by decide⟩
theorem test_meets_QueueReads : (running context body).Issues 0 body ∧ body.pair = none ∧ context.portMost 0 = 64 ∧ image.check 0 64 16 true = none ∧ image.check 0 16 1 true = none ∧
    context.portKind 1 = 2 ∧ 1 < context.ports.length ∧
    (let x : ContextS := { context with image := some { image with binds := [{ kind := 7, most := 64 }] }, ports := [{ lostNow := 2 }] }
     x.portKind 0 = 7 ∧ (x.ports.getD 0 {}).lostNow ≠ 0 ∧ queueBytes [] + 16 ≤ 64 * (running x body).burstMost 3) :=
  ⟨test_issues, rfl, by decide, by decide, by decide, by decide, by decide, by decide⟩
theorem test_meets_QueueWrites : (running context body).Issues 0 body ∧ body.pair = none ∧ image.check 0 0 16 false = none ∧ body.moved.getD 2 0 + 16 ≤ context.portMost 2 ∧
    2 < context.ports.length ∧ (running context body).ringFits 3 2 (body.unpublished 2 + 0 + 16) = true ∧
    (let r := { body with out := List.replicate 2000 (2, { stu := 0 }) }; (running context r).ringFits 3 2 (r.unpublished 2 + 0 + 16) = false) :=
  ⟨test_issues, rfl, by decide, by decide, by decide, by decide, by decide +kernel⟩
theorem test_meets_JobsAreIssuedAndAwaited : (running context looping).Issues 0 looping ∧ looping.pair = none ∧ looping.issued.getD 5 0 < (image.jobs.getD 5 (0, 0)).1 ∧
    image.covers 4 64 32 = true ∧ looping.jobs.find? (fun j => j.tag == (3 : Fin 8).val) = none ∧ looping.jobs.find? (fun j => j.tag == (2 : Fin 8).val) = some (job 0x40 0x80) ∧
    (running context looping).jobLost (job 0x40 0x80) = false ∧
    (let s := { running context looping with seq := { up.seq with accs := List.replicate 10 { failed := true } } }; s.Issues 0 looping ∧ s.jobLost (job 0x40 0x80) = true) :=
  ⟨looping_issues, rfl, by decide, by decide, by decide, by decide, by decide, ⟨⟨rfl, looping_issues.shaped.run, rfl, rfl, rfl, rfl⟩, by decide, rfl, rfl⟩, by decide⟩
/-- JOB words at the edges of the classes that R226 lists: kind and class. -/
theorem test_meets_JobUnitTimes : [(0, 10), (2, 8), (3, 12), (5, 9), (5, 11), (6, 0)].all (fun (p : Nat × Nat) =>
    let w : Word := BitVec.ofNat 32 (0x30 * 2 ^ 26 + p.1 * 2 ^ 14 + p.2 * 2 ^ 10)
    fieldOf w 31 26 == 0x30 && fieldOf w 16 14 == p.1 && fieldOf w 13 10 == p.2) = true ∧
    (running context looping).Issues 0 looping ∧ (running context looping).jobLost (job 0x40 0x80) = false := ⟨by decide, looping_issues, by decide⟩
theorem test_meets_JobsWriteOutputThenRecord : (running context looping).Issues 0 looping ∧ looping.jobs.find? (fun j => j.tag == (2 : Fin 8).val) = some (job 0x40 0x80) ∧
    (running context looping).jobLost (job 0x40 0x80) = false ∧ leAt (job 0x40 0x80).desc 8 4 < 2 ^ 31 ∧ leAt (job 0x40 0x80).desc 12 4 < 2 ^ 31 ∧
    (let s := running { context with jobs := [job 0x80000040 0xFFFFFF80] } body; (s.ctx 3).jobs[0]? = some (job 0x80000040 0xFFFFFF80) ∧ s.jobLost (job 0x80000040 0xFFFFFF80) = false ∧
      2 ^ 31 ≤ leAt (job 0x80000040 0xFFFFFF80).desc 8 4 ∧ leAt (job 0x80000040 0xFFFFFF80).desc 8 4 < 2 ^ 32 ∧ 2 ^ 31 ≤ leAt (job 0x80000040 0xFFFFFF80).desc 12 4 ∧
      leAt (job 0x80000040 0xFFFFFF80).desc 12 4 < 2 ^ 32) := ⟨looping_issues, by decide +kernel⟩
theorem test_meets_RunStarts :
    let s : Bool → Nat → State := fun b k => { running { context with phase := 0 } body with
      ctxs := [(3, { context with phase := 0, image := some { image with handlers := [{ kind := 0, same := false, slots := 0, wcet := 8, full := 0 }] }, cues := { count := k } :: List.replicate 6 {} })]
      runs := List.replicate 8 none, seq := { up.seq with now := { runs := [[{ ctx := 3, start := 0, body := b }]] }, freed := 40000000 :: List.replicate 7 0 } }
    let q : State := { running { context with image := some { image with handlers := [{ kind := 2, same := true, slots := 1, wcet := 8, full := 0 }] }, cues := [{}, {}, { count := 1 }] ++ List.replicate 4 {} } body with
      runs := List.replicate 8 none, regs := (up.rset (Reg.CTX_CUESLOT 3 2 0) 1088000).regs }
    (s true 0).runs.length = 8 ∧ ((s true 0).at 40000000).mayStart 3 none = true ∧ (s true 0).engineOf 3 = 0 ∧ ((s true 0).at 40000000).engHealthy 0 = true ∧ ((s true 0).ctx 3).kindsDue none = [] ∧
    ((s true 0).at 40000000).bodyListed 3 = true ∧ ((s true 1).at 40000000).mayStart 3 none = true ∧ ((s true 1).ctx 3).kindsDue none = 0 :: [] ∧ ((s true 1).at 40000000).bodyListed 3 = true ∧
    ((s false 1).at 40000000).mayStart 3 none = true ∧ ((s false 1).ctx 3).kindsDue none = 0 :: [] ∧ ((s false 1).at 40000000).bodyListed 3 = false ∧
    (q.at 40000000).mayStart 3 (some 2) = true ∧ (q.ctx 3).kindsDue (some 2) = 2 :: [] ∧ (q.at 40000000).engHealthy (q.engineOf 3) = true := by decide +kernel
theorem test_meets_RunsPublish : (running context { body with ended := true }).shaped ∧ (running context { body with ended := true }).run 0 = some { body with ended := true } ∧
    body.ctx < 256 ∧ body.out = [] := ⟨running_shaped _ _ body_sized, rfl, by decide, rfl⟩
/-- The AES standard's own examples of a product and of the S-box. -/
theorem test_aes_bytes : aesMul 0x57 0x83 = 0xC1 ∧ aesSub 0x53 = 0xED := by decide +kernel

theorem test_meets_UnitsFail : (running context looping).shaped ∧ (running context looping).run 0 = some looping ∧ up.seq.engs.getD 0 {} = {} ∧ up.seq.engs.length = 8 ∧
    (running context looping).numbered ∧ looping.jobs.find? (fun j => j.tag == 2) = some (job 0x40 0x80) ∧ ({ running context looping with regs := (up.rsetN Reg.CCS_TICKCYC 128000).regs } : State).jobLate (job 0x40 0x80) = true ∧
    (job 0x40 0x80).unit < up.seq.accs.length ∧ up.seq.accs.getD 5 {} = {} ∧ ((running { context with jobs := [job 0x80000040 0x80000080] } looping).ctx (3 : Fin 256)).jobs[0]? = some (job 0x80000040 0x80000080) ∧
    ((running context looping).at 40000000).coreSafe = up.seq.wasSafe ∧
    looping.ended = false :=
  ⟨running_shaped _ _ looping_sized, rfl, rfl, rfl, running_numbered _, by decide +kernel⟩

/-- A port of T0 is served. -/
theorem up_serves (a : Nat) (h : (running context body).sees 0 a = true) : (running context body).Serves 0 0 a 40000000 :=
  { serves := by decide, bound := rfl, tenant := by decide, view := h }

theorem test_meets_CuesAreRaised : context.mode ≠ .closed ∧ context.mode ≠ .tripped ∧ context.cues.length = 7 ∧ ({ context with timer := some 5 } : ContextS).timer = some 5 ∧
    context.handler 4 = none ∧ context.handler 6 = none ∧ (running context body).Serves 0 0 (Reg.CTX_DOORBELL 3) 40000000 :=
  ⟨by decide, by decide, by decide, rfl, by decide, by decide, up_serves _ (by decide)⟩
theorem test_meets_SettingsFreezeAtTheOpen : up.busyCtx 255 = false ∧ (running context body).busyCtx 3 = true ∧ (running context body).Serves 0 0 (Reg.CTX_IMAGE 255) 40000000 ∧
    (running context body).Serves 0 0 (Reg.CTX_RUN 255) 40000000 ∧ (running context body).Serves 0 0 (Reg.CHN_SRC 255 + 16) 40000000 ∧
    (running context body).Serves 0 0 (0x100F000 + 0x10000 * 255 + 0x400 + 4 * 191) 40000000 :=
  ⟨by decide, by decide, up_serves _ (by decide), up_serves _ (by decide), up_serves _ (by decide), up_serves _ (by decide)⟩
theorem test_meets_ChainRequests : (running context body).busyCtx 3 = true ∧ (running context body).Serves 0 0 (Reg.CHN_NCO_PH 3) 40000000 ∧
    (running context body).Serves 0 0 (Reg.CHN_AGC 3) 40000000 ∧ (running context body).Serves 0 0 (Reg.CHN_SYNC_HI 3) 40000000 ∧
    (running context body).Serves 0 0 (Reg.CHN_BANK 3) 40000000 ∧ context.chain.queued = none ∧ context.chain.pend = none ∧ context.chain.planned = none ∧ context.chain.fade = none ∧
    ((running context body).chnMod 3 (fun c => { c with costAgc := true })).fabricSum ≤ 131072000 ∧
    ((running context body).chnMod 3 (fun c => { c with pend := some { target := 1, fade := true, k := 12, accept := 40000000, due := 20 } })).fabricSum ≤ 131072000 ∧ context.chain.bank = (0 : Fin 2).val ∧
    (running context body).isOpen 3 = true :=
  ⟨by decide, up_serves _ (by decide), up_serves _ (by decide), up_serves _ (by decide), up_serves _ (by decide), rfl, rfl, rfl, rfl, by decide, by decide, by decide, by decide⟩
theorem test_meets_ChainEventsAtOutputs : let c : ChainS := { context.chain with fade := some { target := 1, m := 8, start := 0, done := 8 }, groupDue := true, held := true, expire := some 0 }
    c.fade.isSome ∧ c.groupDue = true ∧ c.held = true ∧ c.expire = some 0 ∧ 0 ≤ c.outs / 8 ∧ c.lastOut < 2 ^ 64 := by decide
theorem test_meets_AgcGainRule : ((0 : Nat) : Rat) ≤ 32768 * dbGain (-(4 * (0 : Nat) : Int)) := by
  unfold dbGain
  dsimp only
  split <;> positivity
theorem test_meets_ChainOutputs : let x : ContextS := { context with chain := { context.chain with on := true, lab1 := 40000256, outPer := 512, outs := 1 } }
    let s := { running x body with ctxs := [(3, x), (4, { context with chain := { context.chain with on := true, cfg := { context.chain.cfg with kind := 3, index := 3 } } })] }
    x.chain.on = true ∧ x.chain.voidTo = none ∧ x.chain.inputsReady = true ∧ x.chain.ringFull = false ∧ x.chain.fade = none ∧ x.chain.marks = [] ∧
    ringBytes (x.ring ++ [.sample 40000768 0 0 false false 0 0]) ≤ x.ringMost ∧ s.drawing 3 = [4] ∧ (s.drawing 3).Nodup ∧
    (let z := { x with image := some { image with binds := [] } }; ringBytes z.ring ≤ z.ringMost ∧ z.ringMost < ringBytes (z.ring ++ [.sample 40000768 0 0 false false 0 0]) ∧ z.ringMost < ringBytes z.ring + 64) := by decide
theorem test_meets_LostEntries : let x : ContextS := { context with chain := { context.chain with ringFull := true, ringLost := 3 }, ports := List.replicate 16 { lostNow := 2 } }
    let idle := { running x body with runs := List.replicate 8 none }
    let full := { body with out := List.replicate 2000 (2, { stu := 0 }) }
    x.chain.ringFull = true ∧ ringBytes x.ring + 64 ≤ x.ringMost ∧ (x.ports.getD 2 {}).lostNow ≠ 0 ∧ x.portKind 2 ≠ 7 ∧ idle.runOf 3 = none ∧ idle.ringFits 3 2 16 = true ∧
    (running x body).runOf 3 = some (0, body) ∧ (running x body).ringFits 3 2 (body.unpublished 2 + 16) = true ∧
    (running x full).runOf 3 = some (0, full) ∧ (running x full).ringFits 3 2 (full.unpublished 2 + 16) = false ∧
    (let z := { x with image := some { image with binds := [{ kind := 7, most := 64 }] } }; z.portKind 0 = 7 ∧ (z.ports.getD 0 {}).lostNow ≠ 0 ∧ (running z body).burstFits 3 0 16 = true) := by decide +kernel
theorem test_meets_StepsKeepTheRegisterFile : up.regsOk ∧ up.queueOk ∧ up.shaped ∧ step up = .next up := ⟨rfl, (fun _ h => absurd h List.not_mem_nil), up_shaped, rfl⟩
theorem test_meets_TimeGoesForward : up.up = true ∧ ∃ t, exec .tickOutFall up = .next t ∧ t.up = true := ⟨by decide, _, rfl, by decide⟩

/-! ## States with some registers set -/

/-- The device up, with registers changed. -/
def upSet (f : State → State) : State := { up with regs := (f up).regs }

/-- The device up, with fields set. -/
def upWith (l : List (Reg.Fld × Nat)) : State := upSet (fun s => l.foldl (fun s x => s.fset x.1 x.2) s)

theorem upWith_shaped (l : List (Reg.Fld × Nat)) : (upWith l).shaped :=
  { runs := rfl, run := up_shaped.run, buses := rfl, tenants := rfl, ports := rfl, latches := rfl }

/-- Before any owner T0 is every port's tenant. -/
theorem serves_of (s : State) (p : Fin 4) (a t : Nat) (h : (s.at t).portServes p = true ∧ s.host.bound = true ∧ s.portTenant p = some 0 ∧ s.sees 0 a = true) : s.Serves p 0 a t :=
  { serves := h.1, bound := h.2.1, tenant := h.2.2.1, view := h.2.2.2 }

/-- The device up, in tick 0, at a stu. -/
def early (u : Nat) (l : List (Reg.Fld × Nat)) : State := { upWith l with time := { up.time with stu := u, tick := 0 } }

theorem test_meets_TimebaseInAndOut :
    up.Serves 0 0 Reg.TB_STU_LO 40000000 ∧ up.time.latches.length = 4 ∧ up.Serves 3 0 Reg.TB_CTRL 6144000000 ∧ up.rget64 Reg.TB_HSET_STU_LO = 0 ∧ (up.at 6144000000).now = 6144000000 ∧
    (upSet (fun s => s.rset64 Reg.TB_HSET_STU_LO 40000001)).rget64 Reg.TB_HSET_STU_LO = 40000001 ∧ (upSet (fun s => s.rset64 Reg.TB_HSET_STU_LO 40000001)).Serves 1 0 Reg.TB_CTRL 0 ∧
    (let s := { up with time := { up.time with tick := 3000 } }; s.time.tick % 3000 = 0 ∧ s.time.lastEval ≠ s.time.tick) ∧
    (let s := upWith [(Reg.TB_UTC_PEND, 1), (Reg.TB_UTC_DELTA, 3)]; s.flag Reg.TB_UTC_PEND = true ∧ s.fget Reg.TB_UTC_DELTA = 3) ∧
    (∀ u ∈ [320, 61440], let s := early u [(Reg.TB_PPS_CTRL_WIN, 0), (Reg.TB_CTRL_PPS_XCHK, 0)]
      s.stamp = u ∧ s.now < 2 ^ 64 ∧ s.flag Reg.TB_CTRL_PPS_XCHK = false ∧ s.secStuNear 0 u = 0 ∧ (roundAway (s.dts s.stamp)).toNat = 0 ∧ 61440 * max 1 (s.fget Reg.TB_PPS_CTRL_WIN) = 61440) ∧
    (let s := early 61600 [(Reg.TB_PPS_CTRL_WIN, 0)]; s.stamp = 61600 ∧ (roundAway (s.dts s.stamp)).toNat = 0 ∧ ¬ s.stamp ≤ s.secStuNear 0 s.stamp + 61440 * max 1 (s.fget Reg.TB_PPS_CTRL_WIN)) ∧
    (upWith [(Reg.TB_PPS_CTRL_EDGE, 1)]).flag Reg.TB_PPS_CTRL_EDGE = true ∧ (upWith [(Reg.TB_PPS_CTRL_EDGE, 0)]).flag Reg.TB_PPS_CTRL_EDGE = false ∧
    (let s := upWith [(Reg.TB_PPSO_CTRL_MODE, 1)]; s.fget Reg.TB_PPSO_CTRL_MODE = 1 ∧ s.time.stepped = false) ∧
    (let s := { up with time := { up.time with ppsOut := true, ppsRise := some 1, tickOut := true } }; s.time.ppsOut = true ∧ s.time.ppsRise = some 1 ∧ s.time.tickOut = true) :=
  ⟨serves_of _ _ _ _ (by decide), rfl, serves_of _ _ _ _ (by decide), by decide, by decide, by decide, serves_of _ _ _ _ (by decide), by decide, by decide,
    by decide +kernel, by decide +kernel, by decide, by decide, by decide, ⟨rfl, rfl, rfl⟩⟩

/-- The lock machine of SCS or CCS replaced. -/
def loopIn (l : LoopId) (ph : LoopPhase) (fails : Nat) : State := (upWith [(Reg.TOP_DOMAIN_REF_OK, 1)]).setLoop l { phase := ph, fails := fails }

theorem test_meets_ReferenceAndLockLoops :
    (let s := upWith [(Reg.TOP_DOMAIN_REF_OK, 1), (Reg.TOP_DOMAIN_COAST, 0)]; s.flag Reg.TOP_DOMAIN_REF_OK = true ∧ 24 ≤ 24 ∧ 56 ≤ 56 ∧ 23 < 24 ∧ 56 < 57) ∧
    (let s := upWith [(Reg.TOP_DOMAIN_REF_OK, 0), (Reg.TOP_DOMAIN_COAST, 1)]; s.flag Reg.TOP_DOMAIN_REF_OK = false ∧ s.flag Reg.TOP_DOMAIN_COAST = true ∧ s.time.lockedAtLoss = false ∧
      (let w := fun q n => { s.time with lockedAtLoss := true, qualWins := q, newRefWins := n }; (w 2 0).lockedAtLoss = true ∧ (w 2 0).qualWins < 3 ∧ (w 3 0).qualWins = 3 ∧ (w 0 6).newRefWins < 7 ∧
        (w 0 7).newRefWins = 7)) ∧
    163832 ≤ 163832 ∧ 163848 ≤ 163848 ∧ ¬ (163832 ≤ 163831 ∧ 163831 ≤ 163848) ∧ ¬ (163832 ≤ 163849 ∧ 163849 ≤ 163848) ∧
    (let s := { up with time := { up.time with realign := some false, walk := some { e := -1, start := 0, ppm := 100 } } }; s.time.realign = some false ∧
      s.time.walk = some { e := -1, start := 0, ppm := 100 } ∧ ({ e := -1, start := 0, ppm := 100 } : Walk).frozen = none) ∧
    ({ up.time with realign := some true } : TimeS).realign = some true ∧
    (∀ l, (loopIn l .locked 0).flag Reg.TOP_DOMAIN_REF_OK = true ∧ ((loopIn l (.search 4 0 64) 0).loop l).phase = .search 4 0 64 ∧ ((loopIn l (.search 5 0 2) 0).loop l).phase = .search 5 0 2 ∧
      ((loopIn l (.count 15 0) 1).loop l).phase = .count 15 0 ∧ ((loopIn l (.count 15 0) 1).loop l).fails < 2 ∧ ((loopIn l (.count 15 0) 2).loop l).fails = 2 ∧
      ((loopIn l (.count 15 0) 3).loop l).phase = .count 15 0 ∧ 3 ≤ ((loopIn l (.count 15 0) 3).loop l).fails ∧ ((loopIn l (.count 15 0) 3).loop l).retry ≤ (loopIn l (.count 15 0) 3).time.tick ∧
      ((loopIn l (.count 14 3) 0).loop l).phase = .count 14 3 ∧ ((loopIn l .locked 0).loop l).phase = .locked ∧ ((loopIn l .failed 0).loop l).phase = .failed) ∧
    (upWith [(Reg.TOP_DOMAIN_CORE_SAFE, 0)]).flag Reg.TOP_DOMAIN_CORE_SAFE = false ∧ (upWith [(Reg.TOP_DOMAIN_CORE_SAFE, 1)]).flag Reg.TOP_DOMAIN_CORE_SAFE = true := by
  refine ⟨by decide, by decide, by decide, by decide, by decide, by decide, by decide, by decide, fun l => ?_, by decide, by decide⟩
  cases l <;> decide

/-- CCS and ICS changed. -/
def core1 (c : CcsS) (i : IcsPhase) (l : List (Reg.Fld × Nat)) : State := { upWith l with clk := { up.clk with ccs := c, ics := i } }

theorem roundAway_zero : roundAway 0 = 0 := by decide +kernel

theorem voutMv_zero (s : State) : s.voutMv 0 = 0 := by
  simp [State.voutMv, roundAway_zero]

theorem test_meets_CoreVoltageAndInterfaceClock :
    (let s := core1 { up.clk.ccs with segStart := some 0, slope16 := 16, lowerTo := some 600, operation := true, vcmd := some 750 } .precharge [(Reg.ICS_STAT_PAUSED, 0)]
     s.buses.length = 2 ∧ s.clk.ccs.segStart = some 0 ∧ s.clk.ccs.segs = [] ∧ s.flag Reg.CCS_STAT_VFROZEN = false ∧ s.flag (Reg.TW_STAT_STUCK 1) = false ∧ s.flag (Reg.TW_STAT_BUSY 1) = false ∧
      s.flag Reg.ICS_STAT_PAUSED = false ∧ s.clk.ccs.reached = false ∧ 0 < s.clk.ccs.slope16 ∧ s.clk.ccs.operation = true ∧ s.clk.ccs.readStage = 0 ∧ s.clk.ccs.raise = none ∧ s.clk.ccs.vcmd = some 750 ∧ s.clk.ics = .precharge ∧ (799 : Nat) < 800) ∧
    (let c := fun x => ({ up.clk.ccs with operation := true, readStart := 5, raise := some { target := 512000, mv := 800, since := 0, written := some x } } : CcsS)
     (c 6).readStart < 6 ∧ 5 ≤ (c 5).readStart ∧ ({ target := 512000, mv := 800, since := 0, written := none, confirmed := true } : RaiseS).confirmed = true) ∧
    (∀ pec ∈ [0, 1], let s := core1 { up.clk.ccs with readStage := 1 } .released [(Reg.TOP_DOMAIN_REF_OK, 1), (Reg.ICS_STAT_PAUSED, 0), (Reg.TW_STAT_BUSY 1, 1), (Reg.TW_STAT_ACTIVE 1, 1), (Reg.TW_CTRL_PEC 1, pec)]
     s.clk.ccs.readStage = 1 ∧ s.clk.ics = .released ∧ s.flag Reg.TOP_DOMAIN_REF_OK = true ∧ s.voutMv 0 = 0 ∧ 0 < s.vreq (s.at 0).freqNow ∧ s.flag Reg.ICS_STAT_PAUSED = false ∧
      s.flag (Reg.TW_STAT_STUCK 1) = false ∧ s.flag (Reg.TW_STAT_ACTIVE 1) = true ∧ s.flag (Reg.TW_CTRL_PEC 1) = decide (pec = 1) ∧ s.fst.formatWait = none) ∧
    (let r := fun l => core1 { up.clk.ccs with readStage := 1 } .locked l
     (r [(Reg.TW_STAT_STUCK 1, 1)]).flag (Reg.TW_STAT_STUCK 1) = true ∧ (r [(Reg.ICS_STAT_PAUSED, 1)]).flag Reg.ICS_STAT_PAUSED = true ∧
      (r [(Reg.TW_STAT_BUSY 1, 1)]).flag (Reg.TW_STAT_ACTIVE 1) = false ∧ (r [(Reg.TW_STAT_BUSY 1, 1)]).flag (Reg.TW_STAT_BUSY 1) = true ∧
      (r [(Reg.TW_STAT_BUSY 1, 0)]).flag (Reg.TW_STAT_BUSY 1) = false ∧ (r [(Reg.ICS_STAT_PAUSED, 0)]).flag Reg.ICS_STAT_PAUSED = false) ∧
    (let s := core1 { up.clk.ccs with readStage := 2, pendMv := some 800, raise := some { target := 512000, mv := 800, since := 0, written := none } } .locked [(Reg.TOP_DOMAIN_REF_OK, 1), (Reg.ICS_STAT_PAUSED, 0)]
     s.clk.ccs.readStage = 2 ∧ s.clk.ccs.raise = some { target := 512000, mv := 800, since := 0, written := none } ∧ s.vreq 512000 ≤ s.clk.ccs.pendMv.getD 0 ∧ s.clk.ccs.vcmd = none ∧
      (0x0000 : Nat).testBit 15 = false ∧ (0x0000 : Nat).testBit 5 = false ∧ s.clk.ics = .locked ∧ s.flag Reg.ICS_STAT_PAUSED = false ∧ s.flag (Reg.TW_STAT_STUCK 1) = false ∧ s.flag (Reg.TW_STAT_BUSY 1) = false) ∧
    (let s := { core1 { up.clk.ccs with readStage := 3 } .timed [(Reg.ICS_STAT_LOCK, 0), (Reg.ICS_STAT_PAUSED, 0), (Reg.TOP_DOMAIN_REF_OK, 1)] with boot := { up.boot with verifiedAt := some 0 } }
     s.clk.ccs.readStage = 3 ∧ s.clk.ccs.operation = false ∧ s.boot.verifiedAt ≠ none ∧ s.flag Reg.ICS_STAT_PAUSED = false ∧ s.clk.ics = .timed ∧ s.flag Reg.ICS_STAT_LOCK = false ∧
      s.flag (Reg.TW_STAT_STUCK 1) = false ∧ s.flag (Reg.TW_STAT_BUSY 1) = false ∧ s.flag Reg.TOP_DOMAIN_REF_OK = true ∧ s.fst.formatWait = none) := by
  refine ⟨by decide, by decide, fun pec hp => ?_, by decide, by decide, by decide⟩
  have h := voutMv_zero (core1 { up.clk.ccs with readStage := 1 } .released [(Reg.TOP_DOMAIN_REF_OK, 1), (Reg.ICS_STAT_PAUSED, 0), (Reg.TW_STAT_BUSY 1, 1), (Reg.TW_STAT_ACTIVE 1, 1), (Reg.TW_CTRL_PEC 1, pec)])
  rcases List.mem_cons.1 hp with rfl | hp
  · exact ⟨by decide, by decide, by decide, h, by decide, by decide, by decide, by decide, by decide, rfl⟩
  · rw [List.mem_singleton.1 hp] at h ⊢
    exact ⟨by decide, by decide, by decide, h, by decide, by decide, by decide, by decide, by decide, rfl⟩

theorem test_meets_FrontEndAndPlan :
    let s := upWith [(Reg.TOP_DOMAIN_SCS_LOCK, 1), (Reg.FE_BIAS_RETRY 2, 255), (Reg.FE_STAT_GNOW 0, 7), (Reg.FE_CLIPCFG_EM_N 0, 1), (Reg.FE_STAT_ANN 0, 0)]
    let s1 := { s with fe := { s.fe with ports := [{}, {}, { shutAt := some 0 }], convs := [{ emTick := some 19, emMarks := [40000192] }, { voidUntil := some 0 }, { powered := false }] } }
    s1.fe.ports.length = 3 ∧ s1.fe.convs.length = 3 ∧ (s1.portFe 2).shutAt = some 0 ∧ s1.fget (Reg.FE_BIAS_RETRY 2) ≠ 0 ∧ s1.convVoid 0 = false ∧ emDetect (s1.emN 0) (s1.emSpan 0) [] = none ∧
    emDetect (s1.emN 0) (s1.emSpan 0) [40000000] = some 40000000 ∧ (s1.conv 0).emTick = some (40000000 / 2048000) ∧ (s.conv 0).emTick ≠ some (40000000 / 2048000) ∧ s.atFloor (s.crossed 0) (40000000 + 192) (s.conv 0).emMarks = false ∧
    (upWith [(Reg.FE_STAT_GNOW 0, 0)]).atFloor 0 (40000000 + 192) [] = true ∧ (upWith [(Reg.FE_STAT_GNOW 0, 0)]).fget (Reg.FE_STAT_GNOW 0) = 0 ∧ (s1.conv 0).emMarks = 40000192 :: [] ∧ s1.fget (Reg.FE_STAT_GNOW (s1.crossed 0)) ≠ 0 ∧ (s1.conv 1).voidUntil = some 0 ∧ s.convVoid 2 = false ∧
    s1.convVoid 2 = true ∧ s.up = true ∧ s.wardenUp = true ∧ s.time.tick * 2048000 + 1792000 < (s.at 40704001).now := by decide

theorem test_calibration_reasons :
    calReason 0 (List.replicate 16 0) (interp 0 0 up.cal.points) (List.replicate 16 0) false = 0 ∧ calReason 6 [1000000000] (interp 11 0 up.cal.points) [0] false = 7 ∧
    (interp 0 0 up.cal.points).length = 16 ∧ (interp 11 0 up.cal.points).length = 1 := by decide +kernel

theorem test_meets_CalibrationPort : up.Serves 0 0 Reg.CAL_CTRL 40000000 := serves_of _ _ _ _ (by decide)

/-- Two open contexts with AIS receivers; context 3's channel 0 as given, its second armed. -/
def receiver (m : ChanMode) (w : List PairWait) (gap : Option Nat) (l : List (Reg.Fld × Nat)) : State :=
  { upWith ([(Reg.BRS_CFG_CLASS 3, 0), (Reg.BRS_CFG_CLASS 4, 0), (Reg.BRS_DET_THR 3, 1)] ++ l) with ctxs := [(3, { context with
      image := some { image with binds := [{ kind := 7, most := 4096 }] }, chain := { context.chain with on := true }, brs := { alloc := true, chans := [m, .armed 0], waits := w, gap := gap } }),
    (4, { context with brs := { alloc := true, chans := [.armed 0, .off] } })] }

/-- The flag that begins and ends an AIS frame, and the shortest frame: the FCS of no bit, and the flag. -/
def aisFlag : List Bool := [false, true, true, true, true, true, true, false]
def aisEmpty : List Bool := List.replicate 16 false ++ aisFlag

/-- A peak that context 3's channels hear (R293). -/
def heard3 (s : State) (k : PeakIn) : Bool :=
  decide ((s.ctx 3).brs.alloc = true ∧ (s.ctx 3).chain.on = true ∧ (s.ctx 3).chain.void = false ∧ s.flt.restart = none ∧ max 1 (s.fget (Reg.BRS_DET_THR 3)) ≤ k.qual ∧
    (∀ z ∈ k.sides, z < k.qual) ∧ (s.ctx 3).brs.rearm ≤ k.p - (s.brsRef 3 512 - 1) * 512 ∧ (s.ctx 3).chain.deaf < k.p - (s.brsRef 3 512 - 1) * 512)

theorem test_meets_BurstReceivers :
    let cur : PeakS := { p := 100000000, qual := 1, level := -1000, snr := 0, fine := 0, fofs := 0 }
    let peak : Nat → PeakIn := fun p => { p := p, qual := 255, sides := [0, 1, 254, 3], level := 1000, snr := 0 }
    let d := fun k : PeakIn => k.p + 2 * 512
    let w : PairWait := { chan := 0, start := 0, snr := 0, due := 1, rep := { stu := 0 } }
    let x := receiver (.armed 0) [] none []
    let a := receiver (.await cur) [] none []
    let r := fun (c : Nat) g => receiver (.recv cur 200000000 false) [w] g [(Reg.BRS_CAPTURE_REG_CAPEN 3, c), (Reg.BRS_LIM_MAXBITS 3, 24)]
    let q := receiver (.recv cur 200000000 false) [] none [(Reg.BRS_CFG_PEN 3, 1), (Reg.BRS_CFG_PEN 4, 1), (Reg.BRS_CFG_PAIR 3, 4), (Reg.BRS_CFG_PAIR 4, 3)]
    let end1 := 200000000 + 24 * 640000
    (x.ctx 3).brs.chans.length = 2 ∧ (x.ctx 3).chain.outPer = 512 ∧ heard3 x (peak 100000000) = true ∧ x.chan 3 0 = .armed 0 ∧ (receiver (.armed 100001024) [] none []).chan 3 0 = .armed 100001024 ∧
    d (peak 100000000) = 100001024 ∧ a.chan 3 0 = .await cur ∧ a.startMet 3 [] = none ∧ a.startMet 3 aisFlag = some false ∧ heard3 a (peak 200000000) = true ∧ a.startDeadline 3 cur ≤ d (peak 200000000) ∧
    heard3 a (peak 105118976) = true ∧ d (peak 105118976) < a.startDeadline 3 cur ∧ cur.p < 105118976 ∧ cur.qual < (peak 0).qual ∧ cur.p + aisFlag.length * 640000 = d (peak 105118976) ∧
    d (peak 105118976) < a.endDeadline 3 (d (peak 105118976)) ∧ 105118976 < cur.p + a.brsRef 3 512 * 512 ∧ cur.p + aisFlag.length * 640000 ≠ d (peak 105118975) ∧
    cur.p + 2 * 512 < 105120000 ∧ 105120000 ≤ a.startDeadline 3 cur ∧
    (r 1 none).chan 3 0 = .recv cur 200000000 false ∧ heard3 (r 1 none) (peak 201000000) = true ∧ d (peak 201000000) < (r 1 none).endDeadline 3 200000000 ∧ cur.p + (r 1 none).brsRef 3 512 * 512 ≤ 201000000 ∧
    (r 1 none).flag (Reg.BRS_CAPTURE_REG_CAPEN 3) = true ∧ cur.level + ((r 1 none).fget (Reg.BRS_CAPTURE_REG_CAPTURE 3) : Int) ≤ (peak 0).level ∧ (r 0 none).flag (Reg.BRS_CAPTURE_REG_CAPEN 3) = false ∧
    (r 0 none).brsClass 3 ≠ 2 ∧ (r 0 none).endDeadline 3 200000000 = end1 ∧ (r 0 none).bitOfCtx 3 = 640000 ∧ end1 ≤ d (peak (end1 - 1024)) ∧ end1 < d (peak end1) ∧
    (r 0 none).endMet 3 false ((r 0 none).bitsBy 3 200000000 end1 (List.replicate 25 false)) = none ∧ (r 0 none).endMet 3 false aisEmpty = some true ∧
    (r 0 none).endMet 3 false (true :: aisEmpty.tail) = some false ∧ (r 0 none).bitsBy 3 200000000 end1 aisEmpty = aisEmpty ∧ aisEmpty.length = 24 ∧
    ((r 0 none).ctx 3).brs.gap ≠ some end1 ∧ ((r 0 (some end1)).ctx 3).brs.gap = some end1 ∧ (r 0 none).paired 3 = none ∧ ((r 0 none).ctx 3).brs.waits.find? (fun z => !(r 0 none).pairBusy 3 z) = some w ∧
    q.paired 3 = some 4 ∧ (q.ctx 4).brs.waits = [] ∧ (x.ctx 3).burstPort = some 0 ∧ ((x.ctx 3).ports.getD 0 {}).lostNow = 0 ∧ x.laterDetect 3 0 100001024 = false ∧
    x.busyCtx 3 = true ∧ x.busyCtx 255 = false := by decide +kernel

/-- A generic receiver with an output period of 32 stu, whose start deadline lies in a STEP skip and moves to its end, where a start condition falls; an end condition at the deadline, with and without a gap there; and the burst trigger of a
snapshot (R303, R458). -/
theorem test_meets_BurstDeadlines :
    let cur : PeakS := { p := 100000000, qual := 1, level := -1000, snr := 0, fine := 0, fofs := 0 }
    let g0 := receiver (.await cur) [] none [(Reg.BRS_CFG_CLASS 3, 2), (Reg.BRS_GEN_SPBM1 3, 3), (Reg.BRS_GEN_SYNCLEN 3, 8), (Reg.BRS_LIM_FLAG_TO 3, 7), (⟨Reg.TB_JUMP_STU_LO, 31, 0⟩, 100001024),
      (Reg.TB_JUMP_SKIP, 100), (Reg.TB_JUMP_VALID, 1), (Reg.TB_JUMP_MODE, 0)]
    let g := g0.chnMod 3 (fun c => { c with outPer := 32 })
    let r := fun gap => receiver (.recv cur 200000000 false) [] gap [(Reg.BRS_LIM_MAXBITS 3, 24)]
    let end1 := 200000000 + 24 * 640000
    let b := receiver (.armed 0) [] none [(⟨Reg.SNP_BURST 0, 3, 3⟩, 1), (Reg.SNP_STAT_HELD, 0)]
    let at0 := { b with flt := { b.flt with restart := some 0, restartStep := 0 } }
    let peak : PeakIn := { p := 100000000, qual := 255, sides := [0, 1, 254, 3], level := 1000, snr := 0 }
    g.chan 3 0 = .await cur ∧ g.startMet 3 (g.bitsBy 3 cur.p (g.startDeadline 3 cur) (List.replicate 9 false)) = some false ∧
    cur.p + (g.bitsBy 3 cur.p (g.startDeadline 3 cur) (List.replicate 9 false)).length * g.bitOfCtx 3 = g.startDeadline 3 cur ∧ g.startMet 3 (g.bitsBy 3 cur.p (g.startDeadline 3 cur) []) = none ∧
    (r none).endDeadline 3 200000000 = end1 ∧ (r none).endMet 3 false ((r none).bitsBy 3 200000000 end1 aisEmpty) = some true ∧ 200000000 + aisEmpty.length * (r none).bitOfCtx 3 = end1 ∧
    ((r none).ctx 3).brs.gap ≠ some end1 ∧ (r none).paired 3 = none ∧ ((r (some end1)).ctx 3).brs.gap = some end1 ∧
    b.flag Reg.SNP_STAT_HELD = false ∧ (b.rget (Reg.SNP_BURST (3 / 32))).toNat.testBit (3 % 32) = true ∧ peak.p + 2 * 512 < 2 ^ 64 ∧ at0.takesPeak 3 peak = true ∧ at0.flt.restart ≠ none := by decide +kernel

/-- CRC-16-CCITT of the ASCII digits 1 to 9 is 29B1, CRC-32 CBF43926 with the bits of each byte and of the result the other way round. -/
theorem test_generic_checks :
    let digits := (List.range 9).flatMap (fun i => (List.range 8).map (fun k => (0x31 + i).testBit (7 - k)))
    let turned := (List.range 9).flatMap (fun i => (List.range 8).map (fun k => (0x31 + i).testBit k))
    genCheck 1 (digits ++ (List.range 16).map (fun k => (0x29B1).testBit (15 - k))) = true ∧
    genCheck 2 (turned ++ (List.range 32).map (fun k => (0xCBF43926).testBit k)) = true ∧ genCheck 0 [] = true := by decide +kernel

/-- Zeros are stuffed after five ones; DSC's symbol 125 has one zero among its seven bits; its phasing starts with three symbols in their places. -/
theorem test_framing : (hdlc (List.replicate 5 true ++ [false, true])).out = List.replicate 6 true ∧ (hdlc (List.replicate 7 true)).abort = true ∧
    (let dx : List Bool := [true, false, true, true, true, true, true, false, false, true]
     let rx : List Bool := [true, true, true, true, false, true, true, false, false, true]
     symValid dx = true ∧ symValue dx = 125 ∧ symValue rx = 111 ∧ dscStart (dx ++ rx ++ dx) = some false ∧ dscStart (dx ++ dx) = none) := by decide +kernel

theorem test_meets_BurstPort : (upWith []).Serves 0 0 (Reg.BRS_CAPTURE_REG 3) 40000000 ∧ (upWith []).Serves 0 0 (Reg.BRS_CAPTURE_REG 255) 40000000 :=
  ⟨serves_of _ _ _ _ (by decide), serves_of _ _ _ _ (by decide)⟩

theorem ready_of (s : State) (k : Fin 4) (t : Nat) (hs : s.shaped) (h : s.canTake k = true ∧ (s.ten k).ringAt ≤ (s.at t).stamp ∧ ((List.range 4).any (fun j => decide (k.val < j) && ((s.at t).ten j).tookAt == (s.at t).now + 1)) = false) : s.Ready k t :=
  { shaped := hs, take := h.1, fresh := h.2.1, turn := if_neg (by rw [h.2.2]; exact Bool.false_ne_true) }

/-- Tenant `k`'s rings lie on SPI and hold one command. -/
def ringed (k : Nat) (l : List (Reg.Fld × Nat)) : State := upWith ([(Reg.HST_STAT_RINGS k, 1), (Reg.HST_STAT_RPORT k, 2), (⟨Reg.HST_CQ_TAIL k, 31, 0⟩, 1)] ++ l)

theorem ringed_ready : (∀ l, (ringed 0 l).shaped) ∧ (ringed 0 []).Ready 0 40000000 ∧ (ringed 1 []).Ready 1 40000000 :=
  ⟨fun _ => upWith_shaped _, ready_of _ _ _ (upWith_shaped _) (by decide), ready_of _ _ _ (upWith_shaped _) (by decide)⟩

/-- The store mounted, with a medium. -/
def store (x : FstS) (w : WitS) (l : List (Reg.Fld × Nat)) : State := { upWith ([(Reg.FST_STAT_STATE, 3), (Reg.TOP_DOMAIN_ICS_LOCK, 1)] ++ l) with fst := x, wit := w }

/-- A pair's observations all alike give its ratio, which lies within its limits. -/
theorem test_pair_ratio : meanQ (List.replicate 4 65536) = 65536 ∧ lnaSe (List.replicate 4 65536) = [] := by
  have h : meanQ (List.replicate 4 65536) = 65536 := by norm_num [meanQ, List.replicate]
  refine ⟨h, ?_⟩
  rw [lnaSe, h]
  norm_num [List.replicate, chgLim]

theorem test_meets_Calibration :
    let l : List (Reg.Fld × Nat) := [(Reg.CAL_CTRL_TRACK, 1), (Reg.CAL_STAT_PWRUP, 0), (Reg.CAL_STAT_NOSAVE, 0)]
    let s := { upWith l with time := { up.time with tick := 600000000 } }
    let e : EstS := { due := some 0, passing := 65536 }
    let d := { s with cal := { s.cal with ests := e :: List.replicate 12 {}, wanted := true } }
    let w := { upWith [(Reg.CAL_STAT_PWRUP, 1)] with cal := { up.cal with hold := [12, 13], lnaObs := List.replicate 4 65536 :: List.replicate 11 [] } }
    let f := { d with regs := (store {} {} l).regs }
    s.cal.ests.length = 13 ∧ s.flag Reg.CAL_CTRL_TRACK = true ∧ s.flag Reg.CAL_STAT_PWRUP = false ∧ s.calPowered (calIdx 0 0) = true ∧ (s.cal.ests.getD (calIdx 0 0) {}).due = none ∧
    (s.cal.ests.getD (calIdx 0 0) {}).lastAccept + max 60 (s.fget Reg.CAL_CFG1_MAXAGE) * 3000 ≤ s.time.tick ∧ d.cal.ests.length = 13 ∧ d.cal.ests.getD (calIdx 0 0) {} = e ∧
    max 1 (d.fget Reg.CAL_CFG0_EST_T) ≤ e.passing ∧ (0 : Fin 7).val ≠ 4 ∧ (7 : Nat) ≠ 0 ∧ (7 : Nat) ≠ 8 ∧ 0 + max 1 (d.fget Reg.CAL_CFG0_WAIT) ≤ d.time.tick ∧ (0 : Nat) < max 1 (d.fget Reg.CAL_CFG0_EST_T) ∧ (4 : Fin 7).val = 4 ∧ 4 ≤ (w.cal.lnaObs.getD (6 * (0 : Fin 2).val + 0) []).length ∧ s.time.tick % 3000 = 0 ∧ s.cal.reeval ≠ s.time.tick ∧
    s.boot.planned = true ∧ d.saveDue = true ∧ d.cal.saved.length = 2 ∧ d.fstCanWrite = false ∧ f.saveDue = true ∧ f.fstCanWrite = true ∧ w.flag Reg.CAL_STAT_PWRUP = true ∧ w.cal.hold.getD (0 : Fin 2) 0 < 13 ∧ w.cal.hold.getD (1 : Fin 2) 0 = 13 ∧ w.cal.hold.length = 2 ∧ w.cal.holds.length = 2 := by decide +kernel

/-- An event record that is due. -/
def event : WitRec := { formed := 0, ref := 0, time := {}, body := .evt 16 1 none [] 0 }

/-- An open cold block of zone 1. -/
def block : BlockS := { target := 0, num := 0, zone := 1, st := 2, cold := true }

theorem short (n m : Nat) (h : n < m) : (List.replicate n event).length < m := by
  rw [List.length_replicate]
  exact h

theorem long (n m : Nat) (h : m ≤ n) : m ≤ (List.replicate n event).length := by
  rw [List.length_replicate]
  exact h

theorem test_meets_WitnessUnit :
    (let s := store {} { ({} : WitS) with ivls := [{ start := 0, ref := 1, close := 2, time := {} }], evts := [event], next := 2, staged := List.replicate 224 event } [(Reg.WIT_CTRL_OBS_EN, 1)]
     let n := { s with wit := { s.wit with staged := List.replicate 223 event }, host := { s.host with ports := { proof := some 50000000 } :: List.replicate 4 {} } }
     s.boot.planned = true ∧ s.dueRef.isSome = true ∧ s.wit.ivls = [{ start := 0, ref := 1, close := 2, time := {} }] ∧ s.journal = true ∧ n.wit.staged.length < 224 ∧ 224 ≤ s.wit.staged.length ∧
      s.wit.evts = event :: [] ∧ s.wit.next ≠ 0 ∧ s.wit.lastCkpt + 60 * 6144000000 ≤ (s.at 368640000000).now ∧ n.Serves 0 0 Reg.KEY_CTRL 40000000 ∧ (n.host.ports.getD (0 : Fin 4) {}).proof ≠ none ∧
      n.journal = true ∧ n.flag Reg.KEY_STAT_BUSY = false ∧ n.wit.owk = none ∧ (s.host.ports.getD (0 : Fin 4) {}).proof = none ∧ s.Serves 0 0 Reg.KEY_CTRL 40000000) ∧
    ({ ({} : WitS) with owk := some [] }).owk ≠ none ∧ up.journal = false ∧ (ringed 0 []).right 0 1 = true ∧ (ringed 1 []).right 1 1 = false ∧ 16 ≤ (16 : BitVec 8).toNat ∧ (31 : BitVec 8).toNat ≤ 31 ∧
    (List.replicate 32 (0 : Byte)).length ≤ 32 ∧ (∀ z ∈ (ringed 0 []).wit.evts, z.collects (16 : BitVec 8).toNat ((ringed 0 []).at 40000000).now none = false) ∧ (ringed 0 []).wit.evts.length < 32 ∧ (ringed 0 []).wit.staged.length + (ringed 0 []).wit.evts.length < 256 := by
  refine ⟨⟨rfl, by decide, rfl, by decide, short _ _ (by decide), long _ _ (by decide), rfl, by decide, by decide, serves_of _ _ _ _ (by decide), by decide, by decide, by decide, rfl, rfl, serves_of _ _ _ _ (by decide)⟩,
    by decide, by decide, by decide, by decide, by decide, by decide, by decide, ?_, by decide, by decide⟩
  intro z hz
  cases hz

/-- A store whose one block, of a request's zone, part and class, has `n` pages, with a record staged; every zone pairs pages `pd` apart. -/
def staging (r : IngotReq) (n pd : Nat) : State :=
  store { geom := some { page := 16384, spare := 1024, ppb := n, bpl := 1, luns := 1, bits := 1, targets := 1 }, blocks := [{ block with zone := r.zone, part := r.part, cold := coldType r.type }] }
    { ({} : WitS) with staged := [event] } [(Reg.FST_STAT_PSLCNAT, 1), (Reg.FST_NATIVE_PAIRDIST, pd)]

theorem staging_flag (r : IngotReq) (n pd : Nat) (h : pd = 0 ∨ pd = 1) : (staging r n pd).flag Reg.FST_STAT_PSLCNAT = true := by
  rcases h with rfl | rfl
  · exact (by decide : (staging { zone := 0, type := 0 } 0 0).flag Reg.FST_STAT_PSLCNAT = true)
  · exact (by decide : (staging { zone := 0, type := 0 } 0 1).flag Reg.FST_STAT_PSLCNAT = true)

/-- Whatever an ingot's length, zone, part and class, some block has room for it. -/
theorem staging_room (r : IngotReq) (pd : Nat) (hp : pd = 0 ∨ pd = 1) : ∃ n, (staging r n pd).Room r := by
  refine ⟨(staging r 0 pd).needFor r, (fun z hz => nomatch hz), 0, Nat.one_pos, rfl, rfl, rfl, rfl, ?_⟩
  have h : (staging r ((staging r 0 pd).needFor r) pd).blkPages (nativeZone r.zone) = (staging r 0 pd).needFor r := by
    rw [State.blkPages]
    exact if_pos (by rw [staging_flag _ _ _ hp, Bool.or_true])
  rw [h]
  show 0 + _ ≤ _
  rw [Nat.zero_add]
  exact Nat.le_refl _

theorem test_meets_WitnessCommit (r : IngotReq) : ∃ n, (staging r n 0).wit.staged = event :: [] ∧ (staging r n 0).fstCanWrite = true ∧ (staging r n 0).Room r ∧ (staging r n 0).wit.late = [] ∧
    (staging r n 0).wit.first = none ∧ (staging r n 0).flt.restart = none ∧ ({ ({} : WitS) with first := some event } : WitS).first = some event :=
  (staging_room r 0 (.inl rfl)).imp (fun _ h => ⟨rfl, (by decide : (staging { zone := 0, type := 0 } 0 0).fstCanWrite = true), h, rfl, rfl, rfl, rfl⟩)

/-- The first set that this device saves. -/
def firstSet : IngotReq := { zone := 3, type := 0x30, fields := leBytes 0 4 ++ leBytes 1 4, payload := calPage up.otp.devid 1 up.cal.points }

/-- A device that is to save its calibration, with no set in the store. -/
def saving (n pd : Nat) : State := { staging firstSet n pd with cal := { up.cal with wanted := true } }

theorem saving_ready (n pd : Nat) (h : pd = 0 ∨ pd = 1) : (saving n pd).saveDue = true ∧ (saving n pd).fstCanWrite = true ∧ (saving n pd).cal.newest = none ∧
    (saving n pd).fget Reg.FST_NATIVE_PAIRDIST = pd := by
  rcases h with rfl | rfl
  · exact (by decide : (saving 0 0).saveDue = true ∧ (saving 0 0).fstCanWrite = true ∧ (saving 0 0).cal.newest = none ∧ (saving 0 0).fget Reg.FST_NATIVE_PAIRDIST = 0)
  · exact (by decide : (saving 0 1).saveDue = true ∧ (saving 0 1).fstCanWrite = true ∧ (saving 0 1).cal.newest = none ∧ (saving 0 1).fget Reg.FST_NATIVE_PAIRDIST = 1)

theorem test_meets_CalAutosave (pd : Nat) (hp : pd = 0 ∨ pd = 1) : ∃ n, (saving n pd).saveDue = true ∧ (saving n pd).cal.saved.length = 2 ∧ (saving n pd).fstCanWrite = true ∧ (saving n pd).cal.newest = none ∧
    (saving n pd).Room firstSet ∧ ∀ native, (saving n pd).pairs native = decide (pd = 1) := by
  obtain ⟨n, h⟩ := staging_room firstSet pd hp
  obtain ⟨h1, h2, h3, h4⟩ := saving_ready n pd hp
  refine ⟨n, h1, rfl, h2, h3, h, fun b => ?_⟩
  rw [State.pairs, h4, show (saving n pd).flag Reg.FST_STAT_PSLCNAT = true from staging_flag firstSet n _ hp, Bool.or_true, Bool.true_and]
  rcases hp with rfl | rfl <;> rfl

/-- A geometry of one target. -/
def geometry (ppb : Nat) : Geom := { page := 16384, spare := 1024, ppb := ppb, bpl := 16, luns := 1, bits := 1, targets := 1 }

/-- What discovery finds on one target: the first copy of its parameter page fails its CRC, the second holds. -/
def page : TgtPage := { page := 16384, spare := 1024, ppb := 768, bpl := 16, luns := 1, bits := 3, nv := true, mode := 5, clk := 100, levels := 2 }
def target : TgtObs := { ddr := true, copies := [(false, { page with page := 0 }), (true, page)] }

/-- An open block with room is room, where no number in use is past the last one. -/
theorem room_of_open (s : State) (r : IngotReq) (b : Nat) (hl : ∀ z ∈ s.fst.ingots, z.seq ≤ s.fst.lastSeq) (h : s.openBlock r (coldType r.type) = some b) : s.Room r := by
  rw [State.openBlock] at h
  have hb := List.mem_range.1 (List.mem_of_find?_eq_some h)
  have hp := List.find?_some h
  simp only [Bool.and_eq_true, beq_iff_eq, decide_eq_true_eq] at hp
  exact ⟨hl, b, hb, hp.1.1.1.1, hp.1.1.1.2, hp.1.1.2, hp.1.2, hp.2⟩

/-- Telemetry, an ingot of it in block 0 and one in block 1, a bulk port's records, and a bulk ingot that waits. -/
def tele : IngotReq := { zone := 1, type := 0x13 }
def inFirst : IngotS := { seq := 7, origin := 7, req := tele, block := 0, page := 0, pages := 1, retacc := 0, tprog := 0, durable := false }
def inSecond : IngotS := { inFirst with seq := 8, origin := 8, block := 1, durable := true }
def bulkBuf : PortBuf := { ctx := 3, port := 2, tenant := 0, bulk := true, entries := [[1]] }
def bulkReq : IngotReq := { zone := 2, type := 0x20, waits := some 0 }

/-- Five blocks: a due one, a worn cold one, one next up, an open one and an empty due one. -/
def fiveBlocks : List BlockS :=
  let hot : BlockS := { block with cold := false }
  [{ hot with next := 2, due := true }, { block with num := 1, erases := 4000 }, { block with num := 2, zone := 255, st := 1 }, { hot with num := 3 }, { hot with num := 4, st := 4, due := true }]
def medium : FstS :=
  { geom := some (geometry 64), blocks := fiveBlocks, queue := [tele], ingots := [inFirst, inSecond], bufs := [bulkBuf], verify := [(8, 2)], lastSeq := 8 }
def mounted : State := store medium {} [(Reg.FST_CTRL_WL, 1), (Reg.FST_CTRL_SCRUB, 1)]

theorem test_meets_FlashStore :
    mounted.fstRuns = true ∧ mounted.flt.restart = none ∧ medium.queue.find? (fun r => !mounted.deferredReq r && !mounted.ingotHeld r) = some tele ∧ mounted.overQuota tele = false ∧ (∀ k ∈ medium.blocks, k.drain = 0) ∧
    (∀ z ∈ medium.ingots, z.req.waits = none) ∧ mounted.openBlock tele (coldType tele.type) = some 0 ∧ (store medium {} [(Reg.FST_STAT_READONLY, 1)]).fstRuns = false ∧
    ({ mounted with flt := { mounted.flt with restart := some 0 } } : State).flt.restart.isSome = true ∧ medium.begun = false ∧
    inFirst ∈ medium.ingots ∧ inFirst.origin ≤ medium.lastSeq ∧ inFirst.seq ≤ medium.lastSeq ∧ (∀ z ∈ medium.ingots, z.seq ≤ medium.lastSeq ∧ z.replaces inFirst = false) ∧ inFirst.req.type ≠ 0x12 ∧
    ({ ({} : FstS) with begun := true } : FstS).begun = true ∧ medium.after inFirst < mounted.fget Reg.FST_NATIVE_PAIRDIST ∧ (store medium {} [(Reg.FST_NATIVE_PAIRDIST, 0)]).fget Reg.FST_NATIVE_PAIRDIST ≤ medium.after inFirst ∧
    medium.ingots.find? (fun j => j.seq == 7 && !j.durable && j.req.type != 0x7F) = some inFirst ∧ mounted.fstCanWrite = true ∧ 0 < (geometry 64).page ∧ (medium.blk 0).st < 4 ∧ inFirst.page + inFirst.pages + 1 ≤ (medium.blk 0).next ∧
    (medium.blk 0).next + max 1 (mounted.fget Reg.FST_NATIVE_PAIRDIST - medium.after inFirst - 1) + 1 ≤ mounted.blkPages (medium.blk 0).native := by decide +kernel

theorem test_meets_FlashPorts :
    let n : IngotReq := { zone := 2, type := 0x20 }
    let w := { medium with queue := [], ingots := [{ inFirst with req := bulkReq }] }
    medium.bufs.find? (fun z => z.ctx == (3 : Fin 256).val && z.port == (2 : Fin 16).val) = some bulkBuf ∧ bulkBuf.entries ≠ [] ∧ bulkBuf.size ≤ mounted.dataMost true * 16384 ∧ mounted.dataPages bulkBuf.req ≤ mounted.dataMost true ∧
    (store medium {} [(Reg.FST_CTRL_BULKWRAP, 1)]).ingotHeld bulkBuf.req = false ∧ (store medium {} [(Reg.FST_CTRL_BULKWRAP, 0)]).ingotHeld bulkBuf.req = true ∧
    (store { medium with queue := [n] } {} [(Reg.FST_PLACE_THI, 128)]).deferredReq n = true ∧ w.queue.find? (fun r => (store w {} []).deferredReq r) = none ∧
    w.ingots.find? (fun j => j.req.waits.isSome) = some { inFirst with req := bulkReq } ∧ (store w {} [(Reg.TOP_DOMAIN_ICS_LOCK, 0)]).fstCanWrite = false ∧
    (store medium {} [(Reg.FST_STAT_STATE, 5)]).nandRuns = false := by decide +kernel

theorem test_meets_FlashReads :
    let failed : CwObs := { hard := [none, none] }
    let fixed : CwObs := { hard := [none, none, none], soft := some 9 }
    let z := { medium with blocks := [{ block with xtemp := true }, block] }
    let labels := { medium with blocks := [{ block with zone := 0, next := 64 }, { block with zone := 0 }] }
    mounted.nandRuns = true ∧ (medium.blk 0).st < 5 ∧ medium.inBlock 4 = [] ∧ medium.inBlock 0 = [inFirst] ∧ (medium.blk 0).zone = inFirst.req.zone ∧ inFirst.req.zone ≠ 0 ∧ mounted.deferredMove inFirst = false ∧
    mounted.flag Reg.FST_STAT_READONLY = false ∧ (mounted.blkMod 0 (fun k => { k with st := 4 })).openBlock inFirst.req (coldType inFirst.req.type) = some 3 ∧
    (labels.blk 0).zone = 0 ∧ 1 < labels.blocks.length ∧ (labels.blk (1 - 0)).st = 2 ∧ (labels.blk (1 - 0)).next + 2 ≤ (store labels {} []).blkPages false ∧ (store labels {} []).nandRuns = true ∧
    medium.ingots.find? (fun i => i.seq == 7) = some inFirst ∧ (∀ v ∈ medium.verify, v.1 ≠ 7) ∧ medium.ingots.find? (fun i => i.seq == 8) = some inSecond ∧ medium.verify = [] ++ (8, 2) :: [] ∧
    mounted.dataPages inSecond.req ≤ mounted.dataMost (nativeZone inSecond.req.zone) ∧ (readCw medium.levels failed).ok = false ∧ (readCw medium.levels {}).ok = true ∧
    readCw 2 fixed = { retry := 2, soft := true, corr := 9 } ∧ inFirst.block < medium.blocks.length ∧ (∀ k ∈ medium.blocks, k.xtemp = false) ∧
    (∃ k ∈ z.blocks, k.xtemp = true ∧ k.st < 5) ∧ (z.blk 1).xtemp = false ∧ (store z {} ((List.range 8).map (fun i => (Reg.LDG_TEMP_VALID i, 1)) ++ (List.range 8).map (fun i => (Reg.LDG_TEMP_TEMP i, 400)))).outOfTemp = false ∧ (mounted.rget Reg.FST_CTRL).getLsbD 31 = false ∧ (mounted.rget Reg.FST_CTRL).getLsbD 30 = false := by decide +kernel

theorem test_meets_FlashUpkeep :
    let d := { medium with ingots := [inFirst, { inSecond with block := 0 }, { inSecond with block := 1 }] }
    mounted.flag Reg.FST_CTRL_SCRUB = true ∧ 2 ≤ (medium.blk 0).st ∧ (medium.blk 0).st < 5 ∧ (medium.blk 0).drain = 0 ∧ (medium.blk 0).due = true ∧ (medium.blk 4).due = true ∧ (medium.blk 4).drain = 0 ∧
    (medium.blk 4).erases + 1 < mounted.endur (medium.blk 4).native ∧ ({ block with worn := true } : BlockS).worn = true ∧ mounted.flag Reg.FST_CTRL_WL = true ∧
    (∀ z ∈ [0, 1], z < d.blocks.length ∧ (d.blk z).native = false ∧ 2 ≤ (d.blk z).st ∧ (d.blk z).st < 5 ∧ d.inBlock z ≠ []) ∧ (medium.blk 0).erases + max 1 (mounted.fget Reg.FST_WL_PSLC) < (medium.blk 1).erases ∧
    (medium.blk 2).st < 2 ∧ (medium.blk 2).native = false ∧ (medium.blk 2).low = false ∧ medium.lastMove.getD 0 0 = 0 ∧ medium.lastMove.length = 2 ∧
    (3000 : Nat) % 3000 = 0 ∧ medium.retSec ≠ 3000 ∧ medium.lastStamp = 0 ∧ mounted.mounted = true ∧ mounted.dataPages { tele with payload := List.replicate 32 0 } ≤ mounted.dataMost false ∧
    (let w := store medium { ({} : WitS) with next := 2 } []; w.journal = true ∧ w.wit.next ≠ 0 ∧ w.dataPages { tele with payload := List.replicate 24 0 ++ w.wit.head } ≤ w.dataMost false) := by decide +kernel

theorem test_meets_Telemetry : mounted.mounted = true ∧ mounted.dataPages { tele with payload := (List.replicate 29 []).flatten ++ mounted.telRecord } ≤ mounted.dataMost false := by decide +kernel

theorem test_meets_FlashMount :
    let found := [target].map TgtObs.found
    let root : IngotS := { inFirst with req := { tele with type := 1 } }
    let m : FstS := { found := found, rooted := true, ingots := [root] }
    (let z := upWith [(Reg.FST_STAT_STATE, 4), (⟨Reg.FST_ZONE 1, 31, 0⟩, 0)]; z.fget Reg.FST_STAT_STATE = 4 ∧ z.formatFits z.stagedZones (geometry 1048576) = true ∧ z.formatFits z.stagedZones (geometry 1) = false ∧
      z.flag Reg.TOP_DOMAIN_ICS_LOCK = false ∧ (z.rget Reg.FST_CTRL).getLsbD 30 = false) ∧ (upWith [(Reg.TOP_DOMAIN_ICS_LOCK, 1)]).flag Reg.TOP_DOMAIN_ICS_LOCK = true ∧
    (let z := { core1 {} .released [(Reg.TOP_DOMAIN_REF_OK, 1), (Reg.FST_STAT_STATE, 4)] with fst := { geom := some (geometry 1048576), formatWait := some [0, 0, 0, 0] } };
      z.clk.ics = .released ∧ z.flag Reg.TOP_DOMAIN_REF_OK = true ∧ z.fst.formatWait = some [0, 0, 0, 0] ∧ z.fget Reg.FST_STAT_STATE = 4 ∧ z.formatFits [0, 0, 0, 0] (geometry 1048576) = true) ∧
    (upWith [(Reg.FST_STAT_STATE, 1)]).fget Reg.FST_STAT_STATE = 1 ∧ (upWith [(Reg.FST_STAT_STATE, 5)]).fget Reg.FST_STAT_STATE = 5 ∧ up.up = true ∧ supported ([{}, target].map TgtObs.found) = false ∧
    supported ([target, {}].map TgtObs.found) = true ∧ supported m.found = true ∧ ({ m with rooted := false } : FstS).rooted = false ∧ m.otherGeom (geomOf m.found) = false ∧
    ({ m with geomFmt := some (geometry 1) } : FstS).otherGeom (geomOf m.found) = true ∧ m.ingots.filter (fun z => z.req.type == 1) = [root] ∧ root.seq ∈ [7] ∧ root.seq ∉ ([] : List Nat) ∧
    ({} : HostS).bound = false := by decide +kernel

theorem test_meets_FlashPort : ({ upWith [(Reg.FST_STAT_STATE, 4)] with fst := { geom := some (geometry 1), rooted := true } } : State).Serves 0 0 Reg.FST_CTRL 40000000 ∧
    ({ upWith [(Reg.FST_STAT_STATE, 4)] with fst := { geom := some (geometry 1), rooted := true } } : State).fst.geom = some (geometry 1) :=
  ⟨serves_of _ _ _ _ (by decide), rfl⟩

theorem test_meets_Snapshots :
    let s := ringed 0 [(Reg.SNP_CTRL_PINEN, 1)]
    let a := fun w r => ringed 0 [(Reg.SNP_CTRL_PINEN, 1), (Reg.SNP_STAT_HELD, 1), (Reg.SNP_STAT_RAWON, w), (Reg.SNP_STAT_RELPEND, r)]
    let c := fun m n => { upWith [(Reg.FST_STAT_STATE, m)] with time := { up.time with tick := 3000 }, snp := { up.snp with unjournalled := List.replicate n [] } }
    s.flag Reg.SNP_CTRL_PINEN = true ∧ s.up = true ∧ s.flag Reg.SNP_STAT_HELD = false ∧ (a 1 1).flag Reg.SNP_STAT_HELD = true ∧ (a 1 1).rget64 Reg.SNP_STU_LO ≠ ((a 1 1).at 0).stamp ∧
    (upWith [(Reg.SNP_CTRL_PINEN, 0)]).flag Reg.SNP_CTRL_PINEN = false ∧ (a 1 1).flag Reg.SNP_STAT_RAWON = true ∧ (a 1 0).flag Reg.SNP_STAT_RELPEND = false ∧ (a 1 1).flag Reg.SNP_STAT_RELPEND = true ∧
    (a 0 0).flag Reg.SNP_STAT_RAWON = false ∧ (c 3 28).time.tick ≠ 0 ∧ (c 3 28).time.tick % 3000 = 0 ∧ (c 3 28).up = true ∧ (c 3 28).snp.telemetry.head? = none ∧ (c 0 0).mounted = false ∧
    (c 3 28).mounted = true ∧ (c 3 28).snp.unjournalled.length < 29 ∧ 29 ≤ (c 3 29).snp.unjournalled.length ∧ up.snp.lastDone.length = 6 ∧ State.reset.up = false := by decide

/-- Tests of engine 7, which is under test itself, and of accelerator unit 0 are planned; engine 0, whose test is planned too, runs. -/
def testing : State :=
  { running context body with seq := { up.seq with engs := List.replicate 7 {} ++ [{ st := 3 }], now := { fill := [{ cls := 3, unit := some 7 }, { cls := 3, unit := some 8 }, { cls := 3, unit := some 0 }] } } }

theorem test_meets_UnitTests : testing.up = true ∧ (∀ v ∈ [7, 8], (testing.at 40000001).testPlanned v = true) ∧ testing.run (7 : Fin 18) = none ∧ ¬ (8 : Fin 18).val < 8 ∧ testing.snp.lastDone.length = 6 ∧
    testing.snp.lastTest.length = 19 ∧ testing.seq.engs.length = 8 ∧ testing.seq.accs.length = 10 ∧ (testing.unitAt 7).st = 3 ∧ (testing.unitAt 8).st = 0 ∧ (testing.unitAt 8).failed = false ∧
    (testing.at 40000001).testPlanned 1 = false ∧ (testing.at 40000001).testPlanned 0 = true ∧ testing.run (0 : Fin 18) ≠ none := by decide +kernel

theorem test_meets_SnapshotPort : up.Serves 3 0 Reg.SNP_CTRL 40000000 ∧ (ringed 0 [(Reg.SNP_STAT_HELD, 1)]).Ready 0 40000000 :=
  ⟨serves_of _ _ _ _ (by decide), ready_of _ _ _ (upWith_shaped _) (by decide)⟩

theorem test_meets_LedgerAndHibernation :
    let hot : List (Reg.Fld × Nat) := (List.range 8).map (fun i => (Reg.LDG_TEMP_VALID i, 1)) ++ (List.range 8).map (fun i => (Reg.LDG_TEMP_TEMP i, 1680))
    let s := { upWith [(Reg.TOP_DOMAIN_GRADE, 5), (Reg.LDG_CFG_RES_TO, 1)] with ldg := { up.ldg with prev := some (1, [(3, 1)], 1), readings := [1], coreSum := 1 }, boot := { up.boot with hiber := some (0, 0) } }
    s.up = true ∧ s.flt.restart = none ∧ s.ldg.prev = some (1, [(3, 1)], 1) ∧ s.boot.rom = false ∧ s.ldg.decided ≠ s.time.tick + 1 ∧ s.fget Reg.TOP_DOMAIN_GRADE ≤ 5 ∧ s.flag Reg.LDG_STAT_TPARK = false ∧
    (upWith ((List.range 8).map (fun i => (Reg.LDG_TEMP_VALID i, 1)))).tHot < 1680 ∧ 1680 ≤ (upWith hot).tHot ∧ (3000 : Nat) % 3000 = 0 ∧ s.ldg.readings ≠ [] ∧ s.ldg.coreSum ≠ 0 ∧ up.ldg.coreSum = 0 ∧
    s.fget Reg.LDG_CFG_RES_TO ≠ 0 ∧ s.boot.hiber = some (0, 0) ∧ s.flag (Reg.TW_STAT_STUCK 1) = false ∧ (upWith [(Reg.TW_STAT_STUCK 1, 1)]).flag (Reg.TW_STAT_STUCK 1) = true ∧
    (let h := { upWith [(Reg.BKP_STAT_PWRON, 1)] with boot := { up.boot with hold := true } }; h.boot.hold = true ∧ h.flag Reg.BKP_STAT_PWRON = true ∧ h.boot.resetLow = false ∧ h.boot.tmode = false ∧
      h.boot.supplyLow = false) := by decide +kernel

theorem test_meets_LedgerPort : up.Serves 0 0 Reg.SEQ_CTRL 40000000 ∧ up.Serves 0 0 Reg.LDG_CTRL 40000000 := ⟨serves_of _ _ _ _ (by decide), serves_of _ _ _ _ (by decide)⟩

theorem test_meets_FaultHandling :
    let w := fun a b n => upWith [(Reg.FLT_STAT_WDA, a), (Reg.FLT_STAT_WDB, b), (Reg.FLT_STAT_HBMISS, n)]
    let f := fun most n => { w 0 2 0 with flt := { up.flt with failover := some most, newMiss := n } }
    let r := fun k => { up with flt := { up.flt with restart := some 0, restartStep := k }, boot := { up.boot with firmware := [5] } }
    let recent : List Nat → List Nat := fun l => l.filter (fun z => decide ((up.at (up.time.tick * 2048000 + 512000)).now ≤ z + 60 * 6144000000))
    let planned := { w 0 1 0 with seq := { up.seq with now := { fill := [{ cls := 3, unit := some 18 }] } } }
    (∀ p ∈ up.ctxs, p.1 < 256) ∧ up.up = true ∧ up.boot.planned = true ∧ up.flt.restart = none ∧ up.flt.judged ≠ up.time.tick ∧ up.flt.failover = none ∧ (w 0 1 1).fget Reg.FLT_STAT_HBMISS < 2 ∧
    (w 0 1 2).fget Reg.FLT_STAT_HBMISS = 2 ∧ (w 0 1 2).standby = true ∧ (w 0 3 2).fget Reg.FLT_STAT_HBMISS = 2 ∧ (w 0 3 2).standby = false ∧ (recent [1]).length < 2 ∧ 2 ≤ (recent [1, 2]).length ∧
    (f 60000000 0).flt.failover = some 60000000 ∧ (f 60000000 0).flt.restart = none ∧ up.time.tick * 2048000 + 512000 ≤ 60000000 ∧ 1 < up.time.tick * 2048000 + 512000 ∧ (f 1 1).flt.newMiss ≠ 2 ∧ (f 1 2).flt.newMiss = 2 ∧
    up.boot.rom = false ∧ (w 0 2 0).warden (1 : Fin 2) = 2 ∧ up.flt.passed.length = 2 ∧
    (w 0 1 0).warden (1 : Fin 2) = 1 ∧ (w 0 1 0).warden (1 - (1 : Fin 2)) ≠ 1 ∧ (planned.at 0).testPlanned 18 = true ∧ planned.warden (1 : Fin 2) = 1 ∧ planned.standby = true ∧ ((w 0 1 0).at 0).testPlanned 18 = false ∧
    (w 0 1 0).warden 0 ≠ 3 ∧ (w 0 1 0).warden 1 ≠ 3 ∧ (w 3 0 0).warden (0 : Fin 2) = 3 ∧
    (r 1).flt.restart = some 0 ∧ (∀ k ∈ [0, 1, 2, 3], (r k).flt.restartStep = k) ∧ (r 3).up = true ∧ (r 3).now ≤ 0 + 250 * 6144000 ∧ 0 + 250 * 6144000 < ((r 3).at 1536000001).now ∧
    ((running context body).ctx body.ctx).mode = .running ∧ ((running context body).ctx (3 : Fin 256)).mode ≠ .closed ∧ (running context body).up = true := by decide +kernel

/-- The firmware that a restart starts is the one retained at boot where that passes its check and the store cannot be read; it may pass none. -/
theorem test_meets_RestartFirmware (b : List Byte) : let s : State := { up with boot := { up.boot with firmware := b } }
    (Config.firmwareSigned b = true → s.firmwareSources.find? (fun z => (s.firmwareErr z.2).isNone) = some (2, b)) ∧
    (Config.firmwareSigned b = false → s.firmwareSources.find? (fun z => (s.firmwareErr z.2).isNone) = none) := by
  intro s
  have h : s.firmwareSources = [(2, b)] := by
    rw [State.firmwareSources, show s.nandRuns = false from (by decide : up.nandRuns = false)]
    rfl
  rw [h]
  refine ⟨fun hb => ?_, fun hb => ?_⟩
  · have he : s.firmwareErr b = none := by
      simp only [State.firmwareErr, hb, Bool.not_true, Bool.false_eq_true, if_false]
      exact if_neg (Nat.not_lt_zero _)
    exact List.find?_cons_of_pos (by rw [he]; rfl)
  · have he : s.firmwareErr b = some 3 := by
      rw [State.firmwareErr, hb]
      rfl
    rw [List.find?_cons_of_neg (by rw [he]; exact Bool.false_ne_true), List.find?_nil]

theorem test_meets_FaultPort : up.Serves 0 0 Reg.FLT_CTRL 40000000 ∧ (running context body).Issues 0 body ∧ (running context body).numbered :=
  ⟨serves_of _ _ _ _ (by decide), test_issues, running_numbered _⟩

/-- The boot ROM runs, with bytes loaded. -/
def booting (l : List (Reg.Fld × Nat)) (x : BootS) : State := { upWith l with boot := x, host := {} }

theorem test_meets_ResetAndBoot :
    let rom : BootS := { ({} : BootS) with resetLow := false, loaded := [0], last := true }
    let s := booting [(Reg.BOOT_STAT_BOOTSEL, 1), (Reg.BOOT_STAT_STAGE, 1)] rom
    let z : BootS := { ({} : BootS) with resetLow := false }
    z.hold = false ∧ z.f5 = false ∧ z.tmode = false ∧ z.supplyLow = false ∧ { z with resetLow := true }.resetLow = true ∧ { z with tmode := true }.tmode = true ∧ { z with supplyLow := true }.supplyLow = true ∧
    { z with f5 := true }.f5 = true ∧ s.host.bound = false ∧ (s.at 0).portServes 2 = true ∧ (s.at 0).bootPort 2 = true ∧ s.bootWaits = true ∧ (32768 : BitVec 16).toNat ≠ 0 ∧
    (32768 : BitVec 16).toNat ≤ 32768 ∧ rom.loaded.length + 32768 ≤ 1048576 ∧ ¬ ((32769 : BitVec 16).toNat ≤ 32768) ∧ rom.loaded ≠ [] ∧ rom.last = true ∧ z.loaded = [] ∧ s.up = true ∧ rom.rom = true ∧
    { rom with going := some true }.going = some true ∧ rom.going = none ∧ rom.recovery = false ∧ (booting [(Reg.BOOT_STAT_BOOTSEL, 0)] rom).fget Reg.BOOT_STAT_BOOTSEL = 0 ∧ (booting [(Reg.FST_STAT_STATE, 5)] rom).fget Reg.FST_STAT_STATE = 5 ∧ (booting [] rom).fget Reg.FST_STAT_STATE ≠ 5 ∧
    (booting [] rom).firmwareCopies = [] ∧
    (let f := { up with boot := { up.boot with planned := false, firstTick := 19 } }; f.up = true ∧ f.boot.rom = false ∧ f.boot.planned = false ∧ f.time.tick = f.boot.firstTick ∧ (f.osc 5).bkp.raw = 5) ∧
    (let f := { up with time := { up.time with tick := 1050 } }; f.boot.planned = true ∧ f.boot.firstTick + 810 ≤ f.time.tick) := by decide

/-- A copy of firmware in the store. -/
def copy (seq c : Nat) (b : List Byte) : IngotS :=
  { seq := seq, origin := seq, req := { zone := 1, type := 0x40, fields := [BitVec.ofNat 8 c], payload := b }, block := 0, page := 0, pages := 1, retacc := 0, tprog := 0 }

/-- One image is good or not; where the first copy fails its check and the second holds, the version floor lets it in. -/
theorem test_meets_FirmwareChecks :
    (∀ b, Config.firmwareSigned b = true → Config.firmwareSigned b = true ∧ up.otp.fwFloor ≤ Config.firmwareVersion b) ∧
    (∀ b, ¬ (Config.firmwareSigned b = true ∧ ({ up.otp with fwFloor := Config.firmwareVersion b + 1 } : OtpS).fwFloor ≤ Config.firmwareVersion b)) ∧
    ({ up with fst := { ingots := [copy 1 0 [5]] } } : State).firmwareCopies = [(0, [5])] ∧
    ∀ b d, ¬ Config.firmwareVersion b < Config.firmwareVersion d → ({ up with fst := { ingots := [copy 1 0 b, copy 2 1 d] } } : State).firmwareCopies = [(0, b), (1, d)] := by
  refine ⟨fun b h => ⟨h, Nat.zero_le _⟩, fun b h => Nat.not_succ_le_self _ h.2, rfl, fun b d h => ?_⟩
  show (if Config.firmwareVersion b < Config.firmwareVersion d then [(1, d), (0, b)] else [(0, b), (1, d)]) = _
  rw [if_neg h]

/-- The smallest image: a body of one END, its run cost declared as `c` (R190, R191, R194). -/
def tiny (c : Nat) : List Byte := leBytes 0x31594E44 4 ++ leBytes 1 2 ++ leBytes 4 2 ++ leBytes 324 4 ++ List.replicate 52 0 ++
  leBytes 1 4 ++ leBytes 128 4 ++ leBytes 4 4 ++ leBytes 0 4 ++ leBytes 4 4 ++ leBytes 132 4 ++ leBytes 0 4 ++ leBytes 64 4 ++ leBytes 5 4 ++ leBytes 132 4 ++ leBytes 64 4 ++ leBytes 0 4 ++
  leBytes 6 4 ++ leBytes 196 4 ++ leBytes 128 4 ++ leBytes 0 4 ++ leBytes 0xDC000000 4 ++
  List.replicate 12 0 ++ leBytes c 4 ++ leBytes 1 2 ++ leBytes 1 2 ++ leBytes 1 1 ++ List.replicate 43 0 ++ leBytes 1 4 ++ leBytes 16 4 ++ List.replicate 120 0

/-- What the loader makes of it. -/
def tinyImage : ImageS := { partsOf (tiny 68) with wcet := 1 }

/-- 64 cycles, one beat of code, two of state and one cycle of END (R194, R195). -/
theorem test_loader_takes_the_smallest_image : verifyImage (tiny 68) false [] = .ok tinyImage := by decide +kernel
theorem test_loader_refuses_a_wrong_cost : verifyImage (tiny 67) false [] = .error 0x49 := by decide +kernel
theorem test_loader_refuses_no_image : verifyImage [] false [] = .error 0x21 := by decide +kernel

/-- T0's rings on SPI, the image loaded with handle 1, and what context 3 is. -/
def holding (x : ContextS) (l : List (Reg.Fld × Nat)) : State :=
  { ringed 0 ([(⟨Reg.CTX_IMAGE 3, 15, 0⟩, 1), (Reg.CHN_SRC_INDEX 3, 1)] ++ l) with images := [{ tinyImage with handle := 1 }], ctxs := [(3, x)] }

/-- A context that takes its samples from context 3. -/
def fed : ContextS := { ({} : ContextS) with mode := .running, chain := { ({} : ChainS) with cfg := { ({} : ChainCfg) with kind := 3, index := 3 } } }

theorem test_meets_ImagesAndContexts :
    let s := holding {} []
    let u := holding { ({} : ContextS) with mode := .running, image := some { tinyImage with handle := 1 } } []
    let f := { u with ctxs := u.ctxs ++ [(4, fed)] }
    let v : ImgLoad := { bytes := tiny 68, tag := 1, accept := 0, due := 0 }
    let w : State := { s with host := { s.host with tenants := [{ inflight := 1, verify := [v] }, {}, {}, {}] } }
    (ringed 1 []).onPcie 1 = false ∧ (upWith []).onPcie 0 = true ∧ ((0 : BitVec 32).toNat = ((((s.ten 0).load).map (·.bytes)).getD []).length) ∧ s.onPcie 0 = false ∧
    (∀ i ∈ s.images, i.handle ≠ (2 : BitVec 16).toNat) ∧ { tinyImage with handle := 1 } ∈ s.images ∧ (∀ q ∈ s.ctxs, q.2.admitted = true → q.2.image.map (·.handle) ≠ some (1 : BitVec 16).toNat) ∧
    (∃ q ∈ u.ctxs, q.2.admitted = true ∧ q.2.image.map (·.handle) = some (1 : BitVec 16).toNat) ∧ (∀ i ∈ s.images, i.handle = 1 → i.tenant ≠ (1 : Fin 4).val) ∧ w.rings 0 = true ∧ 0 < (w.ten 0).inflight ∧
    (w.ten 0).ringAt ≤ v.accept ∧ (w.ten 0).verify = v :: [] ∧ (s.right 0 5) = false ∧ (s.tenancy 0).signers = [] ∧ s.storeHolds [{ owner := 65536, part := 20, size := tinyImage.size }] = true ∧ s.storeHolds [{ owner := 65536, part := 20, size := 2097153 }] = false ∧
    (2 < 65536 ∧ ∀ i ∈ s.images, i.handle ≠ 2) ∧ (ringed 1 []).owner 3 ≠ some (1 : Fin 4).val ∧ s.owner (3 : Fin 256) = some (0 : Fin 4).val ∧ u.isOpen 3 = true ∧ s.isOpen 3 = false ∧ (s.ctx 3).opening = false ∧
    u.dependants 3 = false ∧ f.dependants 3 = true ∧ ((ringed 0 []).accept 0).openCheck 0 1 3 = .error 0x21 := by decide +kernel

theorem holding_shaped (x : ContextS) (l : List (Reg.Fld × Nat)) : (holding x l).shaped :=
  { runs := rfl, run := up_shaped.run, buses := rfl, tenants := rfl, ports := rfl, latches := rfl }

theorem test_meets_ImagesReady : (holding {} []).Ready 0 40000000 ∧ (holding { ({} : ContextS) with mode := .running, image := some { tinyImage with handle := 1 } } []).Ready 0 40000000 :=
  ⟨ready_of _ _ _ (holding_shaped _ _) (by decide +kernel), ready_of _ _ _ (holding_shaped _ _) (by decide +kernel)⟩

/-- Where checks 5 to 8 of R248 leave a place for a context of a priority other than P0, check 10, of energy, decides. -/
theorem places_left (s : State) (n : Nat) (x : ContextS)
    (h : (s.places n x (commit s.cAdm)).isEmpty = false ∧ ¬ fabricMax < sumN ((withCtx s.admitted n x).map (fun p => p.2.cost)) ∧
      (((s.places n x (commit s.cAdm)).map (fun y => s.unitPlaces n y (commit s.cAdm))).flatten).isEmpty = false ∧
      ((((s.places n x (commit s.cAdm)).map (fun y => s.unitPlaces n y (commit s.cAdm))).flatten).filter (fun y => storeFits (withCtx s.admitted n y) (commit s.cAdm))).isEmpty = false ∧
      x.prio ≠ 0) : (∃ l, s.placeCtx n x = .ok l) ∨ s.placeCtx n x = .error 0x2D := by
  obtain ⟨h5, h6, h7, h8, hp⟩ := h
  rw [State.placeCtx]
  dsimp only
  rw [h5, if_neg Bool.false_ne_true, if_neg h6, h7, if_neg Bool.false_ne_true, h8, if_neg Bool.false_ne_true, if_neg hp, h8, if_neg Bool.false_ne_true]
  split
  · exact .inr rfl
  · exact .inl ⟨_, rfl⟩

/-- The checks of R410 and R248 before placement. -/
theorem open_checks (s : State) (t tag n : Nat) (im : ImageS) (x : ContextS) (hx : s.candidate t tag n im = x)
    (h : s.owner n = some t ∧ (s.isOpen n || (s.ctx n).opening) = false ∧ s.imageOf t (s.fget ⟨Reg.CTX_IMAGE n, 15, 0⟩) = some im ∧ x.unbound = false ∧
      x.img.binds.any (fun b => b.kind == 5) = false ∧ s.quotaOk t n x = true ∧ ¬ (x.stride < x.img.strideMin ∨ x.img.strideMax < x.stride) ∧
      s.chainCheck t n x.chain.cfg x.chain.cfg.order (s.fget (Reg.CHN_FIR_TAPS n)) = none ∧ s.brsClass n = 3 ∧ s.badBurst n x.chain.outPer x.burstPort.isSome = false ∧
      s.storeHolds (s.ctxObjs n x) = true) : s.openCheck t tag n = s.placeCtx n x := by
  obtain ⟨ho, hc, hi, hu, hb, hq, hs, hch, hr, hd, hm⟩ := h
  simp only [State.openCheck, hi, Option.getD_some, hx, ho, hc, hu, hb, hq, if_neg hs, hch, hr, hd, hm, Option.isSome_some, Option.isNone_some, ne_eq, not_true_eq_false, false_and, if_false,
    Bool.and_false, Bool.false_and, Bool.not_true, Bool.false_eq_true]

/-- T0's OPEN of context 3 has been taken. -/
def taken : State := (holding {} []).accept 0

/-- An OPEN reaches the last check, of energy, whose idle energies the model leaves open; it is admitted where that one holds. -/
theorem test_open_reaches_the_energy_check : (∃ l, taken.openCheck 0 1 3 = .ok l) ∨ taken.openCheck 0 1 3 = .error 0x2D := by
  rw [open_checks taken 0 1 3 { tinyImage with handle := 1 } _ rfl (by decide +kernel)]
  exact places_left _ _ _ (by decide +kernel)

/-- T0's rings lie on PE0, which is bus master. -/
def bus0 (l : List (Reg.Fld × Nat)) : State :=
  { upWith ([(Reg.HST_STAT_RINGS 0, 1), (Reg.HST_STAT_RPORT 0, 0), (⟨Reg.HST_CQ_TAIL 0, 31, 0⟩, 1)] ++ l) with
    host := { up.host with ports := { busMaster := true } :: List.replicate 4 {} } }

/-- T0's rings lie on SPI; its port and its streams as given. -/
def onSpi (p : PortS) (x : TenantS) (l : List (Reg.Fld × Nat)) : State :=
  { ringed 0 l with host := { up.host with ports := [{}, {}, p, {}, {}], tenants := [x, {}, {}, {}] } }

theorem bus0_ready : (bus0 []).Ready 0 40000000 :=
  ready_of _ _ _ { runs := rfl, run := up_shaped.run, buses := rfl, tenants := rfl, ports := rfl, latches := rfl } (by decide +kernel)

theorem onSpi_shaped (p : PortS) (x : TenantS) (l : List (Reg.Fld × Nat)) : (onSpi p x l).shaped :=
  { runs := rfl, run := up_shaped.run, buses := rfl, tenants := rfl, ports := rfl, latches := rfl }

/-- A tenant whose stream 31 is PUSH and whose stream 30 holds an entry. -/
def streaming : TenantS := { ({} : TenantS) with streams := List.replicate 30 {} ++ [({ entries := [(none, List.replicate 16 0)] } : StreamS), ({ push := true } : StreamS)] }

theorem test_meets_BudgetBindingsAndStreams :
    let s := onSpi {} streaming []
    (onSpi {} streaming []).canTake 0 = true ∧ (onSpi {} streaming []).shaped ∧ bindTarget 0 0 0 = none ∧ bindTarget 4 3 15 = some (.ctxOut 3 15) ∧ (3 : Nat) = (3 : Fin 256).val ∧ (4 : Nat) ≠ (3 : Fin 256).val ∧ s.owner 4 = some (0 : Fin 4).val ∧
    ({ s with host := { s.host with anchor := some [], table := [{ ctxCount := 4, enabled := true }, {}, {}, {}] } } : State).owner 4 ≠ some (0 : Fin 4).val ∧ bindTarget 4 3 16 = none ∧ (15 : BitVec 8).toNat ≤ 15 ∧
    15 < (16 : BitVec 8).toNat ∧ (ringed 1 []).owner 3 ≠ some (1 : Fin 4).val ∧ s.owner (3 : Fin 256) = some (0 : Fin 4).val ∧ (running context body).isOpen 3 = true ∧ s.isOpen 3 = false ∧
    (s.ctx 3).opening = false ∧ (15 : BitVec 8).toNat < (s.ctx 3).ports.length ∧ 31 < (32 : BitVec 8).toNat ∧ 1 < (2 : BitVec 8).toNat ∧ (31 : BitVec 8).toNat ≤ 31 ∧ (31 : BitVec 8).toNat < streaming.streams.length ∧
    s.right 0 2 = true ∧ s.onPcie 0 = false ∧ (bus0 []).onPcie 0 = true ∧ (0x1000000 : BitVec 32).toNat = 65536 * 2 ^ 8 ∧ (0x1000000 : BitVec 64).toNat % (0x1000000 : BitVec 32).toNat = 0 ∧
    s.refOk 0 (0 : BitVec 64).toNat (16384 : BitVec 32).toNat = true ∧ s.refOk 0 (1 : BitVec 64).toNat (16384 : BitVec 32).toNat = false ∧ (streaming.streams.getD 31 {}).push = true ∧
    (streaming.streams.getD 30 {}).push = false ∧ (∀ z ∈ (streaming.streams.getD 30 {}).entries, 16 ≤ z.2.length) ∧ (ringed 1 []).right 1 2 = false ∧ (ringed 1 []).refOk 1 0 16384 = true :=
  ⟨by decide +kernel, onSpi_shaped _ _ _, by decide +kernel⟩

/-- Whatever a certificate says and whatever a signature proves, one clause of PROVE applies. -/
theorem test_meets_Prove (o : Option (List Byte)) (P : List Byte → Prop) : ∃ key, (o = some key ∧ P key) ∨ ∀ key', o = some key' → key = key' ∧ ¬ (o = some key ∧ P key) := by
  cases o with
  | none => exact ⟨[], .inr (fun _ h => nomatch h)⟩
  | some k =>
    by_cases h : P k
    · exact ⟨k, .inl ⟨rfl, h⟩⟩
    · exact ⟨k, .inr (fun _ e => ⟨Option.some.inj e, fun q => h q.2⟩)⟩

theorem test_meets_Tenancy :
    let table := (TenEntry.bytes { enabled := true, ports := 15, ctxCount := 256 }) ++ List.replicate 192 0
    let s := onSpi { nonce := some [], proof := some 50000000 } {} [(Reg.FST_STAT_STATE, 3)]
    s.canTake 0 = true ∧ s.shaped ∧ (0 : Fin 4) ≠ 1 ∧ (ringed 1 []).canTake 1 = true ∧ (ringed 0 []).mounted = false ∧ s.mounted = true ∧ s.rport 0 = 2 ∧ (s.host.ports.getD 2 {}).nonce = some [] ∧
    (s.host.ports.getD 2 {}).proof ≠ none ∧ ((ringed 0 []).host.ports.getD 2 {}).proof = none ∧ ((ringed 0 []).host.ports.getD 2 {}).nonce = none ∧ table.length = 256 ∧ tableBad (tableOf table) = false ∧
    tableBad (tableOf (List.replicate 256 0)) = true ∧ s.refOk 0 (16128 : BitVec 64).toNat 256 = true ∧ (List.replicate 2048 (0 : Byte)).length ≤ 2048 ∧ (s.host.ports.getD (2 : Fin 5) {}).proof = some 50000000 :=
  ⟨by decide +kernel, onSpi_shaped _ _ _, by decide +kernel⟩

/-- An event that waits for a place in the ring. -/
def waiting : WaitEvent := { ctx := 3, kind := 1, cpl := { tag := 0, opcode := 0, status := 0, accept := 40000000, written := 0 } }

theorem test_meets_PortsAndRings :
    let s := onSpi {} { ({} : TenantS) with waitEvents := [waiting], fresh := [0] } []
    s.portTenant 0 = some (0 : Fin 4).val ∧ (s.at 0).portServes 0 = true ∧ s.host.bound = true ∧ s.sees 0 (0xFFFFFFFC : Word).toNat = false ∧ s.shaped ∧ (7 : BitVec 4) ≠ 15 ∧ (s.at 0).served = true ∧
    ((State.reset.at 0).portServes 0 = false) ∧ (ringed 0 [(Reg.ICS_STAT_PAUSED, 1)]).portServes 2 = false ∧ (ringed 0 []).rings 0 = true ∧ ((ringed 0 []).ten 0).waitEvents = [] ∧
    (s.ten 0).waitEvents = [waiting] ∧ (s.ten 0).waitReqs = [] ∧ s.rget (Reg.HST_CPL_HEAD 0) ≠ BitVec.ofNat 32 (1 : BitVec 8).toNat ∧ ((s.rget (Reg.HST_CPL_TAIL 0)).toNat + 256 - 1) % 256 + (s.ten 0).inflight < 256 ∧
    ((s.ten 0).streams.getD (31 : Fin 32) {}).push = false ∧ (s.ten 0).firstUnread = some 0 ∧ (bus0 []).rings 0 = true ∧ (bus0 []).rport 0 = (0 : Fin 2) ∧ (bus0 []).onPcie 0 = true ∧
    leAt (10 :: List.replicate 63 0) 0 1 = 10 ∧ (10 :: List.replicate 63 (0 : Byte)).length = 64 :=
  ⟨by decide +kernel, by decide +kernel, rfl, by decide +kernel, onSpi_shaped _ _ _, by decide +kernel⟩

theorem test_meets_JustSet : let s := { up with time := { up.time with evtStu := 40000000, evtBits := [(Reg.LDG_EVT, 7)] } }
    s.time.evtStu = (s.at 0).now ∧ (Reg.LDG_EVT, 7) ∈ s.time.evtBits ∧ s.time.evtStu ≠ (s.at 40000001).now ∧ (upWith [(⟨Reg.LDG_EVT, 7, 7⟩, 1)]).rget Reg.LDG_EVT = 0x80 := by decide

theorem test_meets_PortsServed : up.Serves 0 0 Reg.LDG_CFG 40000000 ∧ up.Serves 0 0 Reg.LDG_EVT 40000000 ∧ up.Serves 0 0 Reg.LDG_STAT 40000000 ∧ up.Serves 3 0 0xD0030 40000000 ∧ up.Serves 3 0 0xD0038 40000000 ∧
    up.Serves 3 0 0xD0000 40000000 ∧ up.Serves 3 0 (0xD0100 + 8 * 31) 40000000 ∧ up.Serves 2 0 Reg.LDG_CFG 40000000 ∧ up.Serves 2 0 (Reg.LDG_CFG - 4) 40000000 ∧ up.Serves 3 0 Reg.LDG_CFG 40000000 := by
  refine ⟨?_, ?_, ?_, ?_, ?_, ?_, ?_, ?_, ?_, ?_⟩ <;> exact serves_of _ _ _ _ (by decide)

theorem test_meets_SerialPorts :
    let s := { upWith [(Reg.TW_CTRL_ARAEN 0, 1), (Reg.ICS_STAT_PAUSED, 0)] with buses := [{ ({} : BusS) with notify := true, refusals := 2, addr := Reg.LDG_CFG }, {}] }
    s.buses.length = 2 ∧ (s.at 0).portServes 2 = true ∧ (s.at 0).portServes 3 = true ∧ (State.reset.at 0).portServes 2 = false ∧ (State.reset.at 0).served = false ∧ (s.at 0).served = true ∧ s.portTenant 2 = some 0 ∧
    ({ s with host := {} } : State).portTenant 2 = none ∧ (s.bus 0).notify = true ∧ s.twFree 0 = true ∧ 2 ≤ (s.bus 0).refusals ∧ ((up.bus 0).refusals < 2) ∧ (s.bus 0).addr = Reg.LDG_CFG ∧
    (BitVec.ofNat 32 Reg.LDG_CFG).toNat % 4 = 0 ∧ (BitVec.ofNat 32 (Reg.LDG_CFG + 3)).toNat % 4 ≠ 0 ∧ s.flag (Reg.TW_CTRL_ARAEN 0) = true ∧ s.flag Reg.ICS_STAT_PAUSED = false := by decide +kernel

theorem test_meets_TwoWireBuses :
    let s := { upWith [(Reg.TW_STAT_STUCK 1, 1), (Reg.TW_STAT_STUCK 0, 0)] with time := { up.time with tick := 3000 } }
    let r := core1 { up.clk.ccs with readStage := 2 } .locked [(Reg.ICS_STAT_PAUSED, 0)]
    s.buses.length = 2 ∧ s.up = true ∧ s.flag (Reg.TW_STAT_STUCK (0 : Fin 2)) = false ∧ s.flag (Reg.TW_STAT_STUCK (1 : Fin 2)) = true ∧ s.time.tick % 3000 = 0 ∧ s.clk.ccs.readStage = 0 ∧
    r.buses.length = 2 ∧ r.up = true ∧ r.clk.ccs.readStage ≠ 0 ∧ r.flag (Reg.TW_STAT_STUCK 1) = false ∧ r.flag Reg.ICS_STAT_PAUSED = false := by decide +kernel

theorem test_meets_TwoWirePorts : up.Serves 0 0 (Reg.TW_CTRL 0) 40000000 ∧ up.Serves 0 0 (Reg.TW_CTRL 1) 40000000 := ⟨serves_of _ _ _ _ (by decide), serves_of _ _ _ _ (by decide)⟩

/-- The backup domain at raw pulse 100,000, with inputs, registers and the rest as given. -/
def tampering (x : List TampS) (l : List (Reg.Fld × Nat)) (f : BkpS → BkpS) : State := { upWith l with bkp := f { up.bkp with sec := 1000, raw := 100000, trim := 100, inputs := x } }

theorem test_meets_BackupDomain :
    let z := tampering [] [(Reg.BKP_STAT_ONVBAT, 1), (Reg.BKP_ALM_CTRL_ARM, 1)] (fun b => { b with
      wakes := some 100 :: List.replicate 7 none, inflight := [(.reg (Reg.BKP_SCR 15) 1, 0)] })
    let a := fun l m => tampering [] [(Reg.BKP_ALM_CTRL_ARM, 1)] (fun b => { b with loadEdge := l, armEdge := m })
    let s := upWith [(Reg.BKP_STAT_ONVBAT, 0), (⟨Reg.BKP_CTRL, 31, 0⟩, 0)]
    let due : State → Nat := fun u => (u.rget64 Reg.BKP_ALM_SEC_LO % 2 ^ 48) * 32768 + u.fget Reg.BKP_ALM_CTRL_FRAC
    s.bkp.powered = true ∧ s.flag Reg.BKP_STAT_ONVBAT = false ∧ (1549 < 1550) ∧ z.flag Reg.BKP_STAT_ONVBAT = true ∧ 1600 + 10 ≤ 1610 ∧ 1610 ≤ 1610 ∧ 1449 < 1450 ∧ s.flag Reg.BKP_STAT_OSCFAIL = false ∧
    (upWith [(Reg.BKP_STAT_OSCFAIL, 1)]).flag Reg.BKP_STAT_OSCFAIL = true ∧ z.flag Reg.BKP_STAT_OSCFAIL = false ∧
    z.bkp.inflight = (.reg (Reg.BKP_SCR (15 : Fin 16)) 1, 0) :: [] ∧ s.bkp.latches.length = 4 ∧ s.bkp.inflight = [] ∧ (s.rget Reg.BKP_CTRL).toNat < 4 ∧ (s.at 0).rtcKept = false ∧
    s.bkp.winNext = none ∧ z.bkp.wakes.length = 8 ∧ z.bkp.wakes.getD (0 : Fin 8) none = some 100 ∧ 100 ≤ ((z.at 0).osc 0).bkp.trim ∧ z.flag Reg.BKP_ALM_CTRL_ARM = true ∧
    due z ≤ ((z.at 0).osc 0).bkp.sec * 32768 + ((z.at 0).osc 0).bkp.frac ∧
    (((a (some 100000) none).at 0).osc 0).bkp.loadEdge = some (((a (some 100000) none).at 0).osc 0).bkp.raw ∧
    (let b := (((a none (some 100000)).at 0).osc 0).bkp; b.armEdge = some b.raw ∧ due z < b.sec * 32768 + b.frac ∧ due z + b.step ≤ b.sec * 32768 + b.frac) ∧
    (((a none none).at 0).osc 0).bkp.loadEdge ≠ some 100000 ∧ (((a none none).at 0).osc 0).bkp.armEdge ≠ some 100000 ∧
    ({ up.bkp with powered := false } : BkpS).powered = false := by decide +kernel

/-- An edge at raw pulse 0, and one input in each course: its filter run out; active; inactive since pulse 0 and since 99,999 after an event. -/
def pulse : TampEdge := { raw := 0, sec := 0, frac := 0, stu := 0, time := {} }
def courses : List (TampS × Bool × Bool) := [({ start := some pulse }, false, false), ({ act := true }, true, false), ({ taken := true }, false, true), ({ taken := true, quiet := 99999 }, false, true)]

theorem test_meets_TamperInputs :
    let z := fun x => tampering [x, x, x] [(Reg.BKP_TAMP_T0EN, 1), (Reg.BKP_TAMP_T0POL, 1), (Reg.BKP_TAMP_T0FILT, 15)] id
    (∀ x ∈ courses, (z x.1).bkp.inputs.length = 3 ∧ (z x.1).bkp.powered = true ∧ (z x.1).tampEn (0 : Fin 3) = true ∧ (z x.1).tampPol (0 : Fin 3) = true ∧ ((z x.1).bkp.inputs.getD (0 : Fin 3) {}).act = x.2.1 ∧
      ((z x.1).bkp.inputs.getD (0 : Fin 3) {}).taken = x.2.2) ∧ (z {}).tampEn (1 : Fin 3) = false ∧ (z {}).tampFilt (0 : Fin 3) = 120 ∧ (((z {}).at 0).osc 0).bkp.raw = 100000 ∧
    (let w := z { start := some pulse }; ∀ x ∈ [0, 2], (w.bkp.inputs.getD x {}).start = some pulse ∧ (w.bkp.inputs.getD x {}).taken = false ∧ pulse.raw + w.tampFilt x ≤ ((w.at 0).osc 0).bkp.raw) := by decide +kernel

theorem test_meets_DisciplinedClock : let s := { upWith [(Reg.TB_CTRL_RTC_SYNC, 1), (Reg.TB_QUAL_HI_SRC, 1)] with time := { up.time with unc := some 0, uncAt := 40000000 } }
    s.rtcKept = true ∧ ({ s.bkp with winNext := some 1 } : BkpS).winNext = some 1 := by decide +kernel

theorem test_meets_BackupPorts : up.Serves 0 0 Reg.BKP_SEC_LO 40000000 ∧ up.Serves 0 0 Reg.BKP_CAL_DATE 40000000 ∧ up.Serves 0 0 Reg.BKP_CTRL 40000000 ∧ up.Serves 0 0 Reg.BKP_PWRON 40000000 := by
  refine ⟨?_, ?_, ?_, ?_⟩ <;> exact serves_of _ _ _ _ (by decide)

theorem test_meets_DebugAccess :
    let s := { upWith [(Reg.FST_STAT_STATE, 3)] with host := { up.host with ports := [{}, {}, {}, {}, { nonce := some [], proof := some 50000000 }] } }
    let o := { s with host := { up.host with anchor := some [] } }
    s.up = true ∧ s.mounted = true ∧ (s.host.ports.getD 4 {}).nonce = some [] ∧ (up.host.ports.getD 4 {}).nonce = none ∧ ¬ (o.host.anchor = none ∨ (o.host.ports.getD 4 {}).proof ≠ none) ∧
    (s.host.anchor = none ∨ (s.host.ports.getD 4 {}).proof ≠ none) ∧ (BitVec.ofNat 32 Reg.LDG_CFG).toNat = Reg.LDG_CFG ∧ (BitVec.ofNat 32 (Reg.SE_DBG 7)).toNat = Reg.SE_DBG (7 : Fin 8) ∧
    (running context body).run (0 : Fin 8) = some body ∧ body.ended = false ∧ body.ctx < 256 ∧ (running context body).run (7 : Fin 8) = none := by decide +kernel

theorem test_meets_DebugPort : (running context body).Serves 0 0 (Reg.SE_STAT (0 : Fin 8)) 40000000 ∧ (running context body).Serves 0 0 (Reg.SE_STAT (7 : Fin 8)) 40000000 ∧ up.shaped :=
  ⟨up_serves _ (by decide), up_serves _ (by decide), up_shaped⟩

end Sys2Proof.Tests
end

section
/-!
The machine as a whole: one step of the queue, and the state after reset.
-/

namespace Sys2Proof.Proofs

open Sys2Proof Sys2Proof.Machine Sys2Proof.Laws

/-! ## A step and the queue -/

theorem step_of_pending_cons {s : State} {c : Instr} {rest : List Instr} (h : s.pending = c :: rest) :
    step s = exec c { s with pending := rest } := by
  rw [step, h]

theorem step_of_pending_nil {s : State} (h : s.pending = []) : step s = .next s := by
  rw [step, h]

/-- Settles O54: the two cases of the queue, a command at its front and none. -/
theorem stepRunsTheFrontCommand : Obligations.StepRunsTheFrontCommand :=
  fun _ _ _ => ⟨step_of_pending_cons rfl, step_of_pending_nil rfl⟩

/-! ## The state after reset -/

@[simp] theorem reset_run (e : Nat) : State.reset.run e = none := by
  change (List.replicate 8 none).getD e none = none
  rw [List.getD_eq_getElem?_getD, List.getElem?_replicate]
  split <;> rfl

@[simp] theorem reset_rget (a : Nat) : State.reset.rget a = Reg.resetOf a := rfl

@[simp] theorem reset_ctx (n : Nat) : State.reset.ctx n = {} := rfl

/-- RESET_N is still held at this instant (log entry 34). -/
@[simp] theorem reset_up : State.reset.up = false := rfl

/-- A one-bit field reads after reset as its bit of the register table does. -/
theorem reset_flag (f : Reg.Fld) : State.reset.flag f = (fieldOf (Reg.resetOf f.addr) f.hi f.lo != 0) := rfl

theorem reset_regsOk : State.reset.regsOk := rfl

theorem reset_queueOk : State.reset.queueOk := List.forall_mem_nil _

/-- No context has been touched and no engine has a run: there is no memory to list a byte. -/
theorem reset_memsOk : State.reset.memsOk := by
  have no_ctx : State.reset.ctxs = [] := rfl
  have no_run : State.reset.runs.filterMap id = [] := rfl
  refine ⟨?_, ?_⟩
  · rw [no_ctx]; exact List.forall_mem_nil _
  · rw [no_run]; exact List.forall_mem_nil _

/-- Settles O55: the lemmas above on what reset leaves; the fields they leave out hold what their declarations give. -/
theorem resetLeaves : Obligations.ResetLeaves := by
  have unlocked : State.reset.flag Reg.TOP_DOMAIN_SCS_LOCK = false := by rw [reset_flag]; decide
  have closed (n : Nat) : (State.reset.ctx n).mode = .closed := by rw [reset_ctx]
  exact ⟨rfl, rfl, rfl, rfl, reset_run, rfl, closed, reset_rget, unlocked, reset_up, reset_regsOk, reset_memsOk, reset_shaped, reset_queueOk⟩

end Sys2Proof.Proofs
end

section
/-!
What every command keeps, whichever it is: the sizes of the fixed tables, and the direction of time.
-/

namespace Sys2Proof.Proofs

open Sys2Proof Sys2Proof.Machine Sys2Proof.Laws

/-! ## Every command -/

/-- Every command but TICK_BOUNDARY, whose tick does not stay, keeps what `Kept` says: its meaning does. -/
theorem exec_kept (c : Instr) (s : State) (hc : ∀ o, c ≠ .tickBoundary o) : ∃ t, exec c s = .next t ∧ Kept s t :=
  match c with
  | .tickBoundary o => absurd rfl (hc o)
  | .tickOutFall => execTickOutFall_kept ..
  | .ledgerAccountClose => execLedgerAccountClose_kept ..
  | .gradeDecision => execGradeDecision_kept ..
  | .heartbeatDeadline .. => execHeartbeatDeadline_kept ..
  | .planCutoff .. => execPlanCutoff_kept ..
  | .planReady .. => execPlanReady_kept ..
  | .tbLatchRead .. => execTbLatchRead_kept ..
  | .hostLoad .. => execHostLoad_kept ..
  | .disciplineEvaluation => execDisciplineEvaluation_kept ..
  | .leapChange => execLeapChange_kept ..
  | .ppsEdge .. => execPpsEdge_kept ..
  | .ppsWindowEnd => execPpsWindowEnd_kept ..
  | .ppsOutRise => execPpsOutRise_kept ..
  | .ppsOutFall => execPpsOutFall_kept ..
  | .refMonitorWindow .. => execRefMonitorWindow_kept ..
  | .refQualWindow .. => execRefQualWindow_kept ..
  | .realignEdge .. => execRealignEdge_kept ..
  | .walkEnd => execWalkEnd_kept ..
  | .bandSearchStep .. => execBandSearchStep_kept ..
  | .lockWindow .. => execLockWindow_kept ..
  | .slipDetect .. => execSlipDetect_kept ..
  | .scsRetry => execScsRetry_kept ..
  | .ccsNoEdge .. => execCcsNoEdge_kept ..
  | .ccsRetry => execCcsRetry_kept ..
  | .rampTargetReached => execRampTargetReached_kept ..
  | .readingDue .. => execReadingDue_kept ..
  | .raiseTimeout => execRaiseTimeout_kept ..
  | .voutCommand .. => execVoutCommand_kept ..
  | .operation .. => execOperation_kept ..
  | .readVout .. => execReadVout_kept ..
  | .statusWord .. => execStatusWord_kept ..
  | .readIout .. => execReadIout_kept ..
  | .icsPrechargeEnd .. => execIcsPrechargeEnd_kept ..
  | .lkfReleaseCheck .. => execLkfReleaseCheck_kept ..
  | .icsLock .. => execIcsLock_kept ..
  | .icsLockLost .. => execIcsLockLost_kept ..
  | .lkfFaultTimeout => execLkfFaultTimeout_kept ..
  | .icsTimedLock => execIcsTimedLock_kept ..
  | .biasRetry .. => execBiasRetry_kept ..
  | .emergencyTrip .. => execEmergencyTrip_kept ..
  | .emergencyStep .. => execEmergencyStep_kept ..
  | .converterVoidEnd .. => execConverterVoidEnd_kept ..
  | .chnConfigWrite .. => execChnConfigWrite_kept ..
  | .chnNcoWrite .. => execChnNcoWrite_kept ..
  | .chnBankReq .. => execChnBankReq_kept ..
  | .chnAgcWrite .. => execChnAgcWrite_kept ..
  | .chnSyncArm .. => execChnSyncArm_kept ..
  | .coefWrite .. => execCoefWrite_kept ..
  | .fadeEnd .. => execFadeEnd_kept ..
  | .agcGroupEnd .. => execAgcGroupEnd_kept ..
  | .agcHoldExpire .. => execAgcHoldExpire_kept ..
  | .chainRingResume .. => execChainRingResume_kept ..
  | .ringSpaceReturn .. => execRingSpaceReturn_kept ..
  | .calEstimateDue .. => execCalEstimateDue_kept ..
  | .calEstimateDone .. => execCalEstimateDone_kept ..
  | .calAbandon .. => execCalAbandon_kept ..
  | .calReevaluate => execCalReevaluate_kept ..
  | .calAutosave .. => execCalAutosave_kept ..
  | .calStart .. => execCalStart_kept ..
  | .calSave .. => execCalSave_kept ..
  | .calFactory .. => execCalFactory_kept ..
  | .calSweepHoldEnd .. => execCalSweepHoldEnd_kept ..
  | .calGainSet .. => execCalGainSet_kept ..
  | .calPwrupEnd => execCalPwrupEnd_kept ..
  | .runStart .. => execRunStart_kept ..
  | .runPublish .. => execRunPublish_kept ..
  | .engineRunTimeout .. => execEngineRunTimeout_kept ..
  | .engineMemoryError .. => execEngineMemoryError_kept ..
  | .jobComplete .. => execJobComplete_kept ..
  | .accJobTimeout .. => execAccJobTimeout_kept ..
  | .timerCue .. => execTimerCue_kept ..
  | .ctxDoorbell .. => execCtxDoorbell_kept ..
  | .ctxRunWrite .. => execCtxRunWrite_kept ..
  | .ctxImageWrite .. => execCtxImageWrite_kept ..
  | .add .. => execAdd_kept ..
  | .sub .. => execSub_kept ..
  | .andI .. => execAndI_kept ..
  | .orI .. => execOrI_kept ..
  | .xorI .. => execXorI_kept ..
  | .sll .. => execSll_kept ..
  | .srl .. => execSrl_kept ..
  | .sra .. => execSra_kept ..
  | .slt .. => execSlt_kept ..
  | .sltu .. => execSltu_kept ..
  | .seqI .. => execSeqI_kept ..
  | .minI .. => execMinI_kept ..
  | .maxI .. => execMaxI_kept ..
  | .minu .. => execMinu_kept ..
  | .maxu .. => execMaxu_kept ..
  | .mul .. => execMul_kept ..
  | .mulh .. => execMulh_kept ..
  | .mulhu .. => execMulhu_kept ..
  | .divI .. => execDivI_kept ..
  | .divu .. => execDivu_kept ..
  | .rem .. => execRem_kept ..
  | .remu .. => execRemu_kept ..
  | .clz .. => execClz_kept ..
  | .popc .. => execPopc_kept ..
  | .sextb .. => execSextb_kept ..
  | .sexth .. => execSexth_kept ..
  | .abs .. => execAbs_kept ..
  | .addi .. => execAddi_kept ..
  | .slti .. => execSlti_kept ..
  | .sltiu .. => execSltiu_kept ..
  | .andi .. => execAndi_kept ..
  | .ori .. => execOri_kept ..
  | .xori .. => execXori_kept ..
  | .slli .. => execSlli_kept ..
  | .srli .. => execSrli_kept ..
  | .srai .. => execSrai_kept ..
  | .li .. => execLi_kept ..
  | .addil .. => execAddil_kept ..
  | .sltil .. => execSltil_kept ..
  | .lb .. => execLb_kept ..
  | .lbu .. => execLbu_kept ..
  | .lh .. => execLh_kept ..
  | .lhu .. => execLhu_kept ..
  | .lw .. => execLw_kept ..
  | .sb .. => execSb_kept ..
  | .sh .. => execSh_kept ..
  | .sw .. => execSw_kept ..
  | .fadd .. => execFadd_kept ..
  | .fsub .. => execFsub_kept ..
  | .fmul .. => execFmul_kept ..
  | .fdiv .. => execFdiv_kept ..
  | .fsqrt .. => execFsqrt_kept ..
  | .fmin .. => execFmin_kept ..
  | .fmax .. => execFmax_kept ..
  | .fcvtfi .. => execFcvtfi_kept ..
  | .fcvtif .. => execFcvtif_kept ..
  | .fltI .. => execFltI_kept ..
  | .feq .. => execFeq_kept ..
  | .fabs .. => execFabs_kept ..
  | .fneg .. => execFneg_kept ..
  | .pand .. => execPand_kept ..
  | .por .. => execPor_kept ..
  | .pxor .. => execPxor_kept ..
  | .pandn .. => execPandn_kept ..
  | .pnot .. => execPnot_kept ..
  | .pfroms .. => execPfroms_kept ..
  | .ptos .. => execPtos_kept ..
  | .psets .. => execPsets_kept ..
  | .pcnt .. => execPcnt_kept ..
  | .pfirst .. => execPfirst_kept ..
  | .vadd .. => execVadd_kept ..
  | .vsub .. => execVsub_kept ..
  | .vadds .. => execVadds_kept ..
  | .vsubs .. => execVsubs_kept ..
  | .vmin .. => execVmin_kept ..
  | .vmax .. => execVmax_kept ..
  | .vabs .. => execVabs_kept ..
  | .vneg .. => execVneg_kept ..
  | .vavg .. => execVavg_kept ..
  | .vconj .. => execVconj_kept ..
  | .vsel .. => execVsel_kept ..
  | .vmovv .. => execVmovv_kept ..
  | .vmul .. => execVmul_kept ..
  | .vcmulc .. => execVcmulc_kept ..
  | .vmac .. => execVmac_kept ..
  | .vmsu .. => execVmsu_kept ..
  | .vcmac .. => execVcmac_kept ..
  | .vcmacc .. => execVcmacc_kept ..
  | .vmulh .. => execVmulh_kept ..
  | .vand .. => execVand_kept ..
  | .vor .. => execVor_kept ..
  | .vxor .. => execVxor_kept ..
  | .vnot .. => execVnot_kept ..
  | .vsll .. => execVsll_kept ..
  | .vsrl .. => execVsrl_kept ..
  | .vsra .. => execVsra_kept ..
  | .vsrar .. => execVsrar_kept ..
  | .vcmp .. => execVcmp_kept ..
  | .vperm .. => execVperm_kept ..
  | .vzipl .. => execVzipl_kept ..
  | .vziph .. => execVziph_kept ..
  | .vuzpe .. => execVuzpe_kept ..
  | .vuzpo .. => execVuzpo_kept ..
  | .vrev .. => execVrev_kept ..
  | .vsld .. => execVsld_kept ..
  | .vrsum .. => execVrsum_kept ..
  | .vrmax .. => execVrmax_kept ..
  | .vrmin .. => execVrmin_kept ..
  | .vramax .. => execVramax_kept ..
  | .vrsuma .. => execVrsuma_kept ..
  | .vrpwr .. => execVrpwr_kept ..
  | .vaclr .. => execVaclr_kept ..
  | .vamov .. => execVamov_kept ..
  | .vain .. => execVain_kept ..
  | .vbcast .. => execVbcast_kept ..
  | .vext .. => execVext_kept ..
  | .vins .. => execVins_kept ..
  | .vidx .. => execVidx_kept ..
  | .vdupi .. => execVdupi_kept ..
  | .vld .. => execVld_kept ..
  | .vst .. => execVst_kept ..
  | .beqz .. => execBeqz_kept ..
  | .bnez .. => execBnez_kept ..
  | .bltz .. => execBltz_kept ..
  | .bgez .. => execBgez_kept ..
  | .bgtz .. => execBgtz_kept ..
  | .blez .. => execBlez_kept ..
  | .bany .. => execBany_kept ..
  | .bnone .. => execBnone_kept ..
  | .jmp .. => execJmp_kept ..
  | .callI .. => execCallI_kept ..
  | .retI .. => execRetI_kept ..
  | .loopI .. => execLoopI_kept ..
  | .lend .. => execLend_kept ..
  | .hin .. => execHin_kept ..
  | .hout .. => execHout_kept ..
  | .qrdc .. => execQrdc_kept ..
  | .qrd .. => execQrd_kept ..
  | .qwr .. => execQwr_kept ..
  | .jobI .. => execJobI_kept ..
  | .jwait .. => execJwait_kept ..
  | .cuerd .. => execCuerd_kept ..
  | .cueclr .. => execCueclr_kept ..
  | .cuepend .. => execCuepend_kept ..
  | .timerI .. => execTimerI_kept ..
  | .agcrel .. => execAgcrel_kept ..
  | .rinf .. => execRinf_kept ..
  | .lcnt .. => execLcnt_kept ..
  | .brkI .. => execBrkI_kept ..
  | .endRun .. => execEndRun_kept ..
  | .peakDecision .. => execPeakDecision_kept ..
  | .startCondition .. => execStartCondition_kept ..
  | .startDeadline .. => execStartDeadline_kept ..
  | .endCondition .. => execEndCondition_kept ..
  | .endDeadline .. => execEndDeadline_kept ..
  | .burstGapInterrupt .. => execBurstGapInterrupt_kept ..
  | .pairTimeout .. => execPairTimeout_kept ..
  | .brsCaptureWrite .. => execBrsCaptureWrite_kept ..
  | .obsReference => execObsReference_kept ..
  | .obsIntervalClose => execObsIntervalClose_kept ..
  | .evtCoalesceClose => execEvtCoalesceClose_kept ..
  | .recordCommit .. => execRecordCommit_kept ..
  | .witnessCheckpoint .. => execWitnessCheckpoint_kept ..
  | .keyEnrol .. => execKeyEnrol_kept ..
  | .keyRoll .. => execKeyRoll_kept ..
  | .keyRelease .. => execKeyRelease_kept ..
  | .mountComplete .. => execMountComplete_kept ..
  | .fstFormat .. => execFstFormat_kept ..
  | .fstScrubnow .. => execFstScrubnow_kept ..
  | .ingotCommit .. => execIngotCommit_kept ..
  | .ingotDurable .. => execIngotDurable_kept ..
  | .padTimeout .. => execPadTimeout_kept ..
  | .ingotFlush .. => execIngotFlush_kept ..
  | .nandOpFail .. => execNandOpFail_kept ..
  | .nandReadDone .. => execNandReadDone_kept ..
  | .xtempDeferTimeout => execXtempDeferTimeout_kept ..
  | .scrubRead .. => execScrubRead_kept ..
  | .fstRefresh .. => execFstRefresh_kept ..
  | .wearLevelMove .. => execWearLevelMove_kept ..
  | .retentionAccumulate => execRetentionAccumulate_kept ..
  | .clockStamp .. => execClockStamp_kept ..
  | .snapEdge .. => execSnapEdge_kept ..
  | .snpFire .. => execSnpFire_kept ..
  | .rawenWrite .. => execRawenWrite_kept ..
  | .rawDone .. => execRawDone_kept ..
  | .telemetryRecord => execTelemetryRecord_kept ..
  | .storeScrub .. => execStoreScrub_kept ..
  | .knownAnswerTest .. => execKnownAnswerTest_kept ..
  | .ledgerSecond => execLedgerSecond_kept ..
  | .resvStale => execResvStale_kept ..
  | .ldgHiber .. => execLdgHiber_kept ..
  | .hiberTimeout => execHiberTimeout_kept ..
  | .hiberWake .. => execHiberWake_kept ..
  | .seqUnq .. => execSeqUnq_kept ..
  | .storeEccError .. => execStoreEccError_kept ..
  | .fltFailover .. => execFltFailover_kept ..
  | .failoverComplete .. => execFailoverComplete_kept ..
  | .wardenSelftestDone .. => execWardenSelftestDone_kept ..
  | .fltUnqw .. => execFltUnqw_kept ..
  | .fltRestart .. => execFltRestart_kept ..
  | .fltDevreset .. => execFltDevreset_kept ..
  | .fltAvclr .. => execFltAvclr_kept ..
  | .fltLogclr .. => execFltLogclr_kept ..
  | .tsVoteStep .. => execTsVoteStep_kept ..
  | .tsResetRelease .. => execTsResetRelease_kept ..
  | .tsFirmwareRead .. => execTsFirmwareRead_kept ..
  | .tsRestartComplete .. => execTsRestartComplete_kept ..
  | .tsRestartTimeout => execTsRestartTimeout_kept ..
  | .resetNAssert .. => execResetNAssert_kept ..
  | .resetRelease .. => execResetRelease_kept ..
  | .supplyMonitorTrip .. => execSupplyMonitorTrip_kept ..
  | .tmode .. => execTmode_kept ..
  | .bootLoad .. => execBootLoad_kept ..
  | .bootGo .. => execBootGo_kept ..
  | .bootStore .. => execBootStore_kept ..
  | .firmwareVerified .. => execFirmwareVerified_kept ..
  | .firstPlannedTick .. => execFirstPlannedTick_kept ..
  | .readyEvt => execReadyEvt_kept ..
  | .imageLoad .. => execImageLoad_kept ..
  | .imagePart .. => execImagePart_kept ..
  | .imageLastPart .. => execImageLastPart_kept ..
  | .imageUnload .. => execImageUnload_kept ..
  | .imageVerifyDone .. => execImageVerifyDone_kept ..
  | .openCtx .. => execOpenCtx_kept ..
  | .closeCtx .. => execCloseCtx_kept ..
  | .budget .. => execBudget_kept ..
  | .bindPort .. => execBindPort_kept ..
  | .streamSetup .. => execStreamSetup_kept ..
  | .readStream .. => execReadStream_kept ..
  | .readPassage .. => execReadPassage_kept ..
  | .witnessObs .. => execWitnessObs_kept ..
  | .witnessEvent .. => execWitnessEvent_kept ..
  | .snapRelease .. => execSnapRelease_kept ..
  | .challenge .. => execChallenge_kept ..
  | .proveOwner .. => execProveOwner_kept ..
  | .writeTable .. => execWriteTable_kept ..
  | .readTable .. => execReadTable_kept ..
  | .tenancyClear .. => execTenancyClear_kept ..
  | .endProof .. => execEndProof_kept ..
  | .proofExpire .. => execProofExpire_kept ..
  | .cqTailWrite .. => execCqTailWrite_kept ..
  | .commandTake .. => execCommandTake_kept ..
  | .cplHeadWrite .. => execCplHeadWrite_kept ..
  | .ringEn .. => execRingEn_kept ..
  | .hstTreset .. => execHstTreset_kept ..
  | .srdWrite .. => execSrdWrite_kept ..
  | .cplCoalesceTimeout .. => execCplCoalesceTimeout_kept ..
  | .portReset .. => execPortReset_kept ..
  | .busMasterClear .. => execBusMasterClear_kept ..
  | .spiRead .. => execSpiRead_kept ..
  | .spiQuadRead .. => execSpiQuadRead_kept ..
  | .spiWrite .. => execSpiWrite_kept ..
  | .spiQuadWrite .. => execSpiQuadWrite_kept ..
  | .spiStatus .. => execSpiStatus_kept ..
  | .twaWriteTransfer .. => execTwaWriteTransfer_kept ..
  | .twaReadTransfer .. => execTwaReadTransfer_kept ..
  | .hostNotify .. => execHostNotify_kept ..
  | .araRead .. => execAraRead_kept ..
  | .busFree .. => execBusFree_kept ..
  | .twControllerTimeout .. => execTwControllerTimeout_kept ..
  | .twTargetTimeout .. => execTwTargetTimeout_kept ..
  | .twStuckDetect .. => execTwStuckDetect_kept ..
  | .twStuckRetry .. => execTwStuckRetry_kept ..
  | .twClear .. => execTwClear_kept ..
  | .rstartAbort .. => execRstartAbort_kept ..
  | .riseMonitorJudge .. => execRiseMonitorJudge_kept ..
  | .supplySwitch .. => execSupplySwitch_kept ..
  | .backupPowerUp .. => execBackupPowerUp_kept ..
  | .oscFail .. => execOscFail_kept ..
  | .oscResume .. => execOscResume_kept ..
  | .bkpWriteEffect .. => execBkpWriteEffect_kept ..
  | .bkpSecLatchRead .. => execBkpSecLatchRead_kept ..
  | .bkpCalLatchRead .. => execBkpCalLatchRead_kept ..
  | .bkpCapture .. => execBkpCapture_kept ..
  | .bkpLoad .. => execBkpLoad_kept ..
  | .bkpLoadcal .. => execBkpLoadcal_kept ..
  | .trimWindow .. => execTrimWindow_kept ..
  | .wakeFire .. => execWakeFire_kept ..
  | .alarmFire .. => execAlarmFire_kept ..
  | .tamperActive .. => execTamperActive_kept ..
  | .tamperEvent .. => execTamperEvent_kept ..
  | .wakeInEvent .. => execWakeInEvent_kept ..
  | .pwronClr .. => execPwronClr_kept ..
  | .seStatLatchRead .. => execSeStatLatchRead_kept ..
  | .jtagBypass .. => execJtagBypass_kept ..
  | .jtagIdcode .. => execJtagIdcode_kept ..
  | .jtagSamplePreload .. => execJtagSamplePreload_kept ..
  | .jtagExtest .. => execJtagExtest_kept ..
  | .jtagUnlock .. => execJtagUnlock_kept ..
  | .jtagDebug .. => execJtagDebug_kept ..
  | .jtagTrst => execJtagTrst_kept ..
  | .registerWrite .. => execRegisterWrite_kept ..
  | .chainOutputWrite .. => execChainOutputWrite_kept ..
  | .lfClip .. => execLfClip_kept ..
  | .wardenMemoryError .. => execWardenMemoryError_kept ..
  | .standbySelftest .. => execStandbySelftest_kept ..
  | .powerOnResetEnd .. => execPowerOnResetEnd_kept ..
  | .backupStateLoss .. => execBackupStateLoss_kept ..
  | .twStartSeen .. => execTwStartSeen_kept ..
  | .spiUnknownOpcode .. => execSpiUnknownOpcode_kept ..

/-- Out of reset TICK_BOUNDARY begins the next tick. -/
theorem tickBoundary_ticked (o : TickObs) {s : State} (hu : s.up = true) : ∃ t, exec (.tickBoundary o) s = .next t ∧ Ticked s t :=
  let ⟨t, ht, hk, _⟩ := execTickBoundary_kept o s
  ⟨t, ht, hk hu⟩

/-- In reset TICK_BOUNDARY finds no tick to end. -/
theorem tickBoundary_of_reset (o : TickObs) {s : State} (hu : s.up = false) : exec (.tickBoundary o) s = .next s :=
  let ⟨_, ht, _, hs⟩ := execTickBoundary_kept o s
  (hs hu) ▸ ht

/-- A command answers one state: what is known of some answer holds of any. -/
theorem of_exec {c : Instr} {s t : State} {P : State → Prop} (k : ∃ u, exec c s = .next u ∧ P u) (h : exec c s = .next t) : P t := by
  obtain ⟨u, hu, hp⟩ := k
  cases hu.symm.trans h
  exact hp

/-! ## The sizes of the fixed tables -/

theorem exec_shaped {c : Instr} {s t : State} (h : exec c s = .next t) (hs : s.shaped) : t.shaped := by
  by_cases hc : ∃ o, c = .tickBoundary o
  · obtain ⟨o, rfl⟩ := hc
    cases hu : s.up with
    | true => exact (of_exec (tickBoundary_ticked o hu) h).shape hs
    | false =>
      cases (tickBoundary_of_reset o hu).symm.trans h
      exact hs
  · exact (of_exec (exec_kept c s (not_exists.mp hc)) h).shape hs

/-- The queue is none of the tables. -/
theorem shaped_of_pending {s : State} (hs : s.shaped) (q : List Instr) : ({ s with pending := q } : State).shaped :=
  { runs := hs.runs, run := hs.run, buses := hs.buses, tenants := hs.tenants, ports := hs.ports, latches := hs.latches }

/-- Settles O58: a step is a command on the state with the queue's rest, or nothing, and every command keeps the sizes. -/
theorem stepsKeepTheShape : Obligations.StepsKeepTheShape := by
  unfold Obligations.StepsKeepTheShape
  intro s t hs h
  cases hq : s.pending with
  | nil =>
    cases (step_of_pending_nil hq).symm.trans h
    exact hs
  | cons c rest => exact exec_shaped ((step_of_pending_cons hq).symm.trans h) (shaped_of_pending hs rest)

/-! ## The direction of time -/

/-- Settles O60: `Kept` and `Ticked` hold the two cases of the clock. -/
theorem timeGoesForward : Obligations.TimeGoesForward := by
  unfold Obligations.TimeGoesForward
  refine ⟨fun c s t h hs ht => ?_, fun s o hs => ?_⟩
  · by_cases hc : ∃ o, c = .tickBoundary o
    · obtain ⟨o, rfl⟩ := hc
      obtain ⟨hstu, htick⟩ := (of_exec (tickBoundary_ticked o hs) h).clock hs ht
      exact ⟨hstu, fun _ => htick, fun hn => absurd rfl (hn o)⟩
    · obtain ⟨hstu, htick⟩ := (of_exec (exec_kept c s (not_exists.mp hc)) h).clock hs ht
      exact ⟨hstu, fun ho => absurd ho hc, fun _ => htick⟩
  · obtain ⟨t, ht, hk⟩ := tickBoundary_ticked o hs
    refine ⟨t, ht, fun hu => ?_⟩
    obtain ⟨hstu, htick⟩ := hk.clock hs hu
    exact ⟨htick, hstu⟩

end Sys2Proof.Proofs
end

section
/-!
What building a plan changes, the counter of the free values alone (R237 to R258), and the plan handed over.
-/

namespace Sys2Proof.Proofs

open Sys2Proof Sys2Proof.Machine Sys2Proof.Laws

/-! ## Free values -/

/-- From `s` to `t` free values were drawn and nothing else happened. -/
def Drawn (s t : State) : Prop := ∃ n, t = { s with free := n }

theorem Drawn.refl (s : State) : Drawn s s := ⟨s.free, rfl⟩

theorem Drawn.trans {s t u : State} (h : Drawn s t) (k : Drawn t u) : Drawn s u := by
  obtain ⟨n, rfl⟩ := h
  obtain ⟨m, rfl⟩ := k
  exact ⟨m, rfl⟩

theorem free1_drawn (s : State) : Drawn s s.free1.2 := ⟨s.free + 1, rfl⟩

theorem Drawn.foldl {α β : Type} {f : β × State → α → β × State} (hf : ∀ p a, Drawn p.2 (f p a).2) (l : List α) (p : β × State) :
    Drawn p.2 (l.foldl f p).2 := by
  induction l generalizing p with
  | nil => exact .refl _
  | cons a l ih => exact (hf p a).trans (ih _)

/-! ## The run lists and the fill -/

theorem shuffle_drawn (s : State) (l : List PlanRun) : Drawn s (s.shuffle l).2 := by
  induction l with
  | nil => exact .refl _
  | cons r l ih => exact ih.trans (free1_drawn _)

theorem setStarts_drawn (m : List (StoreObj × Nat)) (img : Nat → ImageS) (used : List BankUse) (c : Nat) (l : List PlanRun) (s : State) (pos slack : Nat) :
    Drawn s (s.setStarts m img used c pos slack l).2 := by
  induction l generalizing s pos slack with
  | nil => exact .refl _
  | cons r l ih =>
    rw [State.setStarts]
    dsimp only
    split
    · exact (free1_drawn s).trans (ih ..)
    · split <;> exact (free1_drawn s).trans (ih ..)

theorem engineRuns_drawn (s : State) (m : List (StoreObj × Nat)) (used : List BankUse) (l : List (Nat × ContextS)) (k c e : Nat) :
    Drawn s (s.engineRuns m used l k c e).2 :=
  (shuffle_drawn s _).trans (setStarts_drawn ..)

theorem classTasks_drawn (s : State) (l : List (Nat × ContextS)) (k cls : Nat) : Drawn s (s.classTasks l k cls).2 := by
  unfold State.classTasks
  split
  · exact .refl _
  · split
    · refine Drawn.foldl (fun p _ => ?_) _ ([], s)
      exact (free1_drawn p.2).trans (free1_drawn _)
    · exact .refl _

theorem planItems_drawn (s : State) (l : List (Nat × ContextS)) (chains : List Nat) (k c : Nat) (ramp : Bool) : Drawn s (s.planItems l chains k c ramp).2 := by
  unfold State.planItems
  dsimp only
  refine (Drawn.foldl (fun p e => ?_) (List.range 8) ([], s)).trans (Drawn.foldl (fun p cls => ?_) _ ([], _))
  · exact engineRuns_drawn ..
  · exact classTasks_drawn ..

/-! ## Homes and moves -/

theorem rehome_drawn (v : State) (e : Nat) (l : List (Nat × ContextS)) (s : State) (done : List (Nat × ContextS)) : Drawn s (s.rehome v e l done).2 := by
  induction l generalizing s done with
  | nil => exact .refl _
  | cons p l ih => exact (free1_drawn s).trans (ih ..)

theorem rebalance_drawn (s v : State) (e : Nat) (l : List (Nat × ContextS)) : Drawn s (s.rebalance v e l).2 := by
  unfold State.rebalance
  split
  · exact .refl _
  · refine (free1_drawn s).trans (Drawn.foldl (fun p _ => ?_) _ (l, s.free1.2))
    exact (free1_drawn p.2).trans (free1_drawn _)

/-! ## The plan -/

theorem buildPlan_drawn (s : State) (k : Nat) : Drawn s (s.buildPlan k).2 := by
  unfold State.buildPlan
  dsimp only
  exact (((rehome_drawn ..).trans (rebalance_drawn ..)).trans (planItems_drawn ..)).trans (planItems_drawn ..)

theorem buildPlan_tick (s : State) (k : Nat) : (s.buildPlan k).1.tick = k := rfl

/-! ## PLAN_READY -/

theorem at_wardenUp (s : State) (t : Nat) : (s.at t).wardenUp = s.wardenUp := by
  simp only [State.wardenUp, State.up, at_boot, at_flt]

theorem at_tick (s : State) (t : Nat) : (s.at t).time.tick = s.time.tick := by
  obtain ⟨u, h, -⟩ := at_eq s t
  rw [h]

/-- After the cut-off an active warden hands the plan for the next tick over (R17, R482). -/
theorem execPlanReady_eq {s : State} {t : Nat} (hw : s.wardenUp = true) (ht : s.time.tick * 2048000 + 1792000 < (s.at t).now) :
    execPlanReady t s = .next (
      let r := (s.at t).buildPlan (s.time.tick + 1)
      (r.2.seqMod (fun q => { q with plan := some r.1 })).replan (r.1.shed ++ r.1.p0shed) r.1.back) := by
  have hc : ¬ ((!(s.at t).wardenUp || decide ((s.at t).offset ≤ cutoff)) = true) := by
    simp only [at_wardenUp, hw, State.offset, at_tick, tickStu, cutoff, Bool.not_true, Bool.false_or, decide_eq_true_eq]
    omega
  unfold execPlanReady
  dsimp only
  rw [if_neg hc, at_tick]

/-- LDG_PLAN alone is recomputed (R282). -/
theorem rget_replan_ne (s : State) (shed back : List Nat) {a : Nat} (h : a ≠ Reg.LDG_PLAN) : (s.replan shed back).rget a = s.rget a :=
  rget_rset_ne s h.symm _

/-- A ready plan is for the next tick; of the registers LDG_PLAN alone follows it (R17, R282). -/
theorem execPlanReady_hands {s : State} {t : Nat} (hw : s.wardenUp = true) (ht : s.time.tick * 2048000 + 1792000 < (s.at t).now) :
    ∃ u q, execPlanReady t s = .next u ∧ u.now = (s.at t).now ∧ u.seq = { s.seq with plan := some q } ∧ q.tick = s.time.tick + 1 ∧
      (∀ a, a ≠ Reg.LDG_PLAN → u.rget a = s.rget a) ∧ u.ctxs = s.ctxs := by
  have he := execPlanReady_eq hw ht
  have hx := buildPlan_drawn (s.at t) (s.time.tick + 1)
  have hq := buildPlan_tick (s.at t) (s.time.tick + 1)
  generalize (s.at t).buildPlan (s.time.tick + 1) = r at he hx hq
  obtain ⟨q, x⟩ := r
  obtain ⟨n, rfl⟩ := hx
  refine ⟨_, q, he, rfl, ?_, hq, fun a ha => (rget_replan_ne _ _ _ ha).trans (at_rget s t a), at_ctxs s t⟩
  change ({ (s.at t).seq with plan := _ } : SeqS) = _
  rw [at_seq]

end Sys2Proof.Proofs
end

section
/-!
Reads after the updates of the front end, and what its shared operations leave unchanged (chapter 4).
-/

namespace Sys2Proof.Proofs

open Sys2Proof Sys2Proof.Machine Sys2Proof.Laws

/-! ## Reads after an update -/

theorem fget_lt (s : State) (f : Reg.Fld) : s.fget f < 2 ^ (f.hi + 1 - f.lo) := Nat.mod_lt _ (Nat.two_pow_pos _)

theorem fget_evt (s : State) (f k : Reg.Fld) : (s.evt f).fget k = (s.fset f 1).fget k := rfl

theorem flag_evt (s : State) (f k : Reg.Fld) : (s.evt f).flag k = (s.fset f 1).flag k := rfl

theorem rget_evt_ne (s : State) (f : Reg.Fld) {a : Nat} (h : f.addr ≠ a) : (s.evt f).rget a = s.rget a := rget_fset_ne s f 1 h

theorem fget_fsetB (s : State) (f : Reg.Fld) (b : Bool) (k : Reg.Fld) : (s.fsetB f b).fget k = (s.fset f (b2n b)).fget k := rfl

theorem fget_rset64_ne (s : State) {a : Nat} (n : Nat) {f : Reg.Fld} (h : a ≠ f.addr) (h4 : a + 4 ≠ f.addr) : (s.rset64 a n).fget f = s.fget f := by
  unfold State.fget
  rw [rget_rset64_ne s a _ n h h4]

/-- A value of two registers keeps 64 bits (R3). -/
theorem rget64_rset64_mod (s : State) (a n : Nat) : (s.rset64 a n).rget64 a = n % 2 ^ 64 := by
  simp only [State.rget64, State.rset64, rget_rsetN, Nat.add_eq_left, OfNat.ofNat_ne_zero, if_false, if_true, BitVec.toNat_ofNat]
  omega

theorem modifyAt_modifyAt {α : Type} (l : List α) (i : Nat) (f g : α → α) : modifyAt (modifyAt l i f) i g = modifyAt l i (fun x => g (f x)) := by
  induction l generalizing i with
  | nil => rfl
  | cons x l ih => cases i with
    | zero => rfl
    | succ i => exact congrArg (x :: ·) (ih i)

/-! ## Ports and converters -/

theorem portFe_portFeMod {s : State} {p : Nat} (hp : p < s.fe.ports.length) (q : Nat) (f : PortFE → PortFE) :
    (s.portFeMod p f).portFe q = if p = q then f (s.portFe q) else s.portFe q := by
  simp only [State.portFe, State.portFeMod, modifyAt_getD, hp, and_true]

theorem conv_convMod {s : State} {c : Nat} (hc : c < s.fe.convs.length) (d : Nat) (f : ConvS → ConvS) :
    (s.convMod c f).conv d = if c = d then f (s.conv d) else s.conv d := by
  simp only [State.conv, State.convMod, modifyAt_getD, hc, and_true]

theorem conv_of_fe {s t : State} (h : t.fe = s.fe) (c : Nat) : t.conv c = s.conv c := by
  rw [State.conv, h, State.conv]

theorem at_conv (s : State) (t c : Nat) : (s.at t).conv c = s.conv c := by simp only [State.conv, at_fe]

theorem at_crossed (s : State) (t c : Nat) : (s.at t).crossed c = s.crossed c := by simp only [State.crossed, at_fe]

theorem at_convVoid (s : State) (t c : Nat) : (s.at t).convVoid c = s.convVoid c := by
  simp only [State.convVoid, State.scsLocked, at_fe, at_flag]

theorem crossed_wide (s : State) {c : Nat} (hc : c < 2) : s.crossed c = if s.fe.route = 0 then c else 1 - c := if_neg (Nat.ne_of_lt hc)

/-- A wideband converter and a wideband port feed each other (R82). -/
theorem crossed_lt (s : State) {c : Nat} (hc : c < 2) : s.crossed c < 2 := by
  rw [crossed_wide s hc]
  split <;> omega

theorem crossed_crossed (s : State) {c : Nat} (hc : c < 2) : s.crossed (s.crossed c) = c := by
  rw [crossed_wide s (crossed_lt s hc), crossed_wide s hc]
  split <;> omega

theorem crossed_of_route {s t : State} (h : t.fe.route = s.fe.route) (c : Nat) : t.crossed c = s.crossed c := by
  unfold State.crossed
  rw [h]

/-! ## Markers and notes -/

theorem sendMark_eq (s : State) (n : Nat) (m : Marker) (d : Nat) : ∃ l, s.sendMark n m d = { s with ctxs := l } := by
  unfold State.sendMark
  dsimp only
  split
  · exact ⟨s.ctxs, rfl⟩
  · exact ⟨_, rfl⟩

theorem sendMarks_eq (f : State → Nat → State) (hf : ∀ x n, ∃ l, f x n = { x with ctxs := l }) (ns : List Nat) (s : State) :
    ∃ l, ns.foldl f s = { s with ctxs := l } := by
  induction ns generalizing s with
  | nil => exact ⟨s.ctxs, rfl⟩
  | cons n ns ih =>
    obtain ⟨l, hl⟩ := hf s n
    obtain ⟨k, hk⟩ := ih (f s n)
    exact ⟨k, by rw [List.foldl_cons, hk, hl]⟩

/-- A marker of an event is sent to chains; the factor of a gain marker stays with its converter too (R92, R115). -/
theorem convMark_eq (s : State) (c : Nat) (m : Marker) :
    ∃ l, s.convMark c m = { (if m.kind = 1 then s.convMod c (fun k => { k with gains := (m.stu, m.param) :: k.gains }) else s) with ctxs := l } :=
  sendMarks_eq _ (fun _ _ => sendMark_eq ..) _ _

@[simp] theorem convMark_regs (s : State) (c : Nat) (m : Marker) : (s.convMark c m).regs = s.regs := by
  obtain ⟨l, hl⟩ := convMark_eq s c m
  rw [hl]
  split <;> rfl

@[simp] theorem convMark_time (s : State) (c : Nat) (m : Marker) : (s.convMark c m).time = s.time := by
  obtain ⟨l, hl⟩ := convMark_eq s c m
  rw [hl]
  split <;> rfl

/-- A gain marker's factor is all that a marker changes of the front end (R92). -/
theorem convMark_fe (s : State) (c : Nat) (m : Marker) :
    (s.convMark c m).fe = if m.kind = 1 then { s.fe with convs := modifyAt s.fe.convs c (fun k => { k with gains := (m.stu, m.param) :: k.gains }) } else s.fe := by
  obtain ⟨l, hl⟩ := convMark_eq s c m
  rw [hl]
  split <;> rfl

@[simp] theorem convMark_fget (s : State) (c : Nat) (m : Marker) (f : Reg.Fld) : (s.convMark c m).fget f = s.fget f := fget_of_regs (convMark_regs s c m) f

@[simp] theorem convMark_now (s : State) (c : Nat) (m : Marker) : (s.convMark c m).now = s.now := congrArg TimeS.stu (convMark_time s c m)

@[simp] theorem convMark_ports (s : State) (c : Nat) (m : Marker) : (s.convMark c m).fe.ports = s.fe.ports := by
  rw [convMark_fe]
  split <;> rfl

@[simp] theorem convMark_portFe (s : State) (c : Nat) (m : Marker) (p : Nat) : (s.convMark c m).portFe p = s.portFe p := by
  simp only [State.portFe, convMark_ports]

/-- To a change that is followed for raw capture only the notes of it are added (R468). -/
theorem rawTrack_eq (s : State) (u : Nat) (f : State → State) : ∃ w, s.rawTrack u f = { f s with snp := w } := by
  unfold State.rawTrack
  dsimp only
  split
  · simp only [List.foldl_cons, List.foldl_nil]
    split <;> split <;> exact ⟨_, rfl⟩
  · exact ⟨(f s).snp, rfl⟩

/-! ## The present stu, the registers and the tables after an update -/

@[simp] theorem now_fset (s : State) (f : Reg.Fld) (n : Nat) : (s.fset f n).now = s.now := congrArg TimeS.stu (fset_time s f n)

@[simp] theorem now_fsetB (s : State) (f : Reg.Fld) (b : Bool) : (s.fsetB f b).now = s.now := congrArg TimeS.stu (fsetB_time s f b)

@[simp] theorem now_rset (s : State) (a : Nat) (v : Word) : (s.rset a v).now = s.now := congrArg TimeS.stu (rset_time s a v)

@[simp] theorem now_rsetN (s : State) (a n : Nat) : (s.rsetN a n).now = s.now := congrArg TimeS.stu (rsetN_time s a n)

@[simp] theorem now_rset64 (s : State) (a n : Nat) : (s.rset64 a n).now = s.now := congrArg TimeS.stu (rset64_time s a n)

@[simp] theorem now_evt (s : State) (f : Reg.Fld) : (s.evt f).now = s.now := (congrArg TimeS.stu (evt_time s f)).trans (noteEvt_stu ..)

@[simp] theorem portFeMod_fget (s : State) (p : Nat) (f : PortFE → PortFE) (k : Reg.Fld) : (s.portFeMod p f).fget k = s.fget k := rfl
@[simp] theorem portFeMod_flag (s : State) (p : Nat) (f : PortFE → PortFE) (k : Reg.Fld) : (s.portFeMod p f).flag k = s.flag k := rfl
@[simp] theorem portFeMod_rget (s : State) (p : Nat) (f : PortFE → PortFE) (a : Nat) : (s.portFeMod p f).rget a = s.rget a := rfl
@[simp] theorem portFeMod_now (s : State) (p : Nat) (f : PortFE → PortFE) : (s.portFeMod p f).now = s.now := rfl
@[simp] theorem portFeMod_length (s : State) (p : Nat) (f : PortFE → PortFE) : (s.portFeMod p f).fe.ports.length = s.fe.ports.length := modifyAt_length ..
@[simp] theorem convMod_fget (s : State) (c : Nat) (f : ConvS → ConvS) (k : Reg.Fld) : (s.convMod c f).fget k = s.fget k := rfl
@[simp] theorem convMod_flag (s : State) (c : Nat) (f : ConvS → ConvS) (k : Reg.Fld) : (s.convMod c f).flag k = s.flag k := rfl
@[simp] theorem convMod_rget (s : State) (c : Nat) (f : ConvS → ConvS) (a : Nat) : (s.convMod c f).rget a = s.rget a := rfl
@[simp] theorem convMod_now (s : State) (c : Nat) (f : ConvS → ConvS) : (s.convMod c f).now = s.now := rfl

@[simp] theorem convMod_length (s : State) (c : Nat) (f : ConvS → ConvS) : (s.convMod c f).fe.convs.length = s.fe.convs.length := modifyAt_length ..

@[simp] theorem portFe_fset (s : State) (f : Reg.Fld) (n p : Nat) : (s.fset f n).portFe p = s.portFe p := by rw [State.portFe, fset_fe, State.portFe]

end Sys2Proof.Proofs
end

section
/-!
The commands of the front end: bias, emergency trip and step, LF clips.
-/

namespace Sys2Proof.Proofs

open Sys2Proof Sys2Proof.Machine Sys2Proof.Laws

/-! ## The bias outputs -/

theorem biasTo_state (s : State) (p : Nat) (high : Bool) (st : Nat) : (s.biasTo p high st).fget (Reg.FE_BSTAT_STATE p) = st % 4 := by
  have h : (s.fset (Reg.FE_BSTAT_STATE p) st).fget (Reg.FE_BSTAT_STATE p) = st % 4 := by
    rw [fget_fset] <;> simp [Reg.FE_BSTAT_STATE]
  unfold State.biasTo
  dsimp only
  split
  · exact h
  · rw [convMark_fget, portFeMod_fget, h]

theorem biasTo_now (s : State) (p : Nat) (high : Bool) (st : Nat) : (s.biasTo p high st).now = s.now := by
  unfold State.biasTo
  dsimp only
  split
  · exact now_fset ..
  · rw [convMark_now, portFeMod_now, now_fset]

theorem biasTo_ports_length (s : State) (p : Nat) (high : Bool) (st : Nat) : (s.biasTo p high st).fe.ports.length = s.fe.ports.length := by
  unfold State.biasTo
  dsimp only
  split
  · rw [fset_fe]
  · rw [convMark_ports, portFeMod_length, fset_fe]

theorem biasTo_high {s : State} {p : Nat} (hp : p < s.fe.ports.length) (high : Bool) (st : Nat) : ((s.biasTo p high st).portFe p).biasHigh = high := by
  unfold State.biasTo
  dsimp only
  split
  next h => rw [portFe_fset, h]
  next h => rw [convMark_portFe, portFe_portFeMod (by rw [fset_fe]; exact hp), if_pos rfl]

theorem roundUp_tickStu (n : Nat) : roundUp n tickStu = (n + 2047999) / 2048000 * 2048000 := by
  rw [roundUp, ceilDiv, tickStu, if_neg (by decide)]

theorem retryAt_eq {s : State} {p t0 : Nat} (hs : (s.portFe p).shutAt = some t0) (hr : s.fget (Reg.FE_BIAS_RETRY p) ≠ 0) :
    s.retryAt p = some ((max (t0 + s.fget (Reg.FE_BIAS_RETRY p) * 6144000000) s.now + 2047999) / 2048000 * 2048000) := by
  rw [State.retryAt, hs]
  dsimp only
  rw [if_neg hr, roundUp_tickStu, secStu]

theorem execBiasRetry_eq {s : State} {p : Fin 3} {b : Nat} (h : s.retryAt p = some b) :
    execBiasRetry p s = .next ((((s.at b).biasTo p true 1).evt (Reg.FE_EVT_RETRY p)).portFeMod p (fun x => { x with shutAt := none })) := by
  unfold execBiasRetry
  rw [h]

/-- A port's bias is retried RETRY seconds after its shutdown (R86). -/
theorem execBiasRetry_raises {s : State} {p : Fin 3} {t0 : Nat} (hl : s.fe.ports.length = 3) (hs : (s.portFe p).shutAt = some t0)
    (hr : s.fget (Reg.FE_BIAS_RETRY p) ≠ 0) :
    ∃ u, execBiasRetry p s = .next u ∧ u.now = (s.at ((max (t0 + s.fget (Reg.FE_BIAS_RETRY p) * 6144000000) s.now + 2047999) / 2048000 * 2048000)).now ∧
      u.fget (Reg.FE_BSTAT_STATE p) = 1 ∧ u.flag (Reg.FE_EVT_RETRY p) = true ∧ (u.portFe p).biasHigh = true ∧ (u.portFe p).shutAt = none := by
  have ha := retryAt_eq hs hr
  generalize (max (t0 + s.fget (Reg.FE_BIAS_RETRY p) * 6144000000) s.now + 2047999) / 2048000 * 2048000 = b at ha ⊢
  have hp : p.val < ((s.at b).biasTo p true 1).fe.ports.length := by
    rw [biasTo_ports_length, at_fe, hl]
    exact p.isLt
  refine ⟨_, execBiasRetry_eq ha, ?_, ?_, ?_, ?_, ?_⟩
  · rw [portFeMod_now, now_evt, biasTo_now]
  · rw [portFeMod_fget, fget_evt, fget_fset_addr _ _ _ _ (by simp [Reg.FE_EVT_RETRY, Reg.FE_BSTAT_STATE, Reg.FE_EVT, Reg.FE_BSTAT]), biasTo_state]
  · rw [portFeMod_flag, flag_evt_same _ _ rfl (by simp [Reg.FE_EVT_RETRY])]
  · rw [portFe_portFeMod (by rw [evt_fe]; exact hp), if_pos rfl]
    exact biasTo_high (by rw [at_fe, hl]; exact p.isLt) true 1
  · rw [portFe_portFeMod (by rw [evt_fe]; exact hp), if_pos rfl]

/-! ## The emergency trip -/

/-- The clips later than the last trip count (R94). -/
def liveClips (last : Option Nat) (clips : List Nat) : List Nat :=
  clips.filter (fun x => match last with
    | none => true
    | some l => decide (l < x))

/-- What a trip shows: again in its tick, and at the lowest step (R95). -/
def showTrip (s : State) (c : Nat) (again floor : Bool) : State :=
  let y := if again then s.evt (Reg.FE_EVT_EM_AGAIN c) else s
  if floor then y.evt (Reg.FE_EVT_MIN_CLIP c) else y

theorem showTrip_now (s : State) (c : Nat) (again floor : Bool) : (showTrip s c again floor).now = s.now := by
  cases again <;> cases floor <;> simp [showTrip]

theorem showTrip_fe (s : State) (c : Nat) (again floor : Bool) : (showTrip s c again floor).fe = s.fe := by
  cases again <;> cases floor <;> simp [showTrip]

theorem showTrip_none (s : State) (c : Nat) : showTrip s c false false = s := by simp [showTrip]

theorem showTrip_again (s : State) (c : Nat) (floor : Bool) : (showTrip s c true floor).flag (Reg.FE_EVT_EM_AGAIN c) = true := by
  have h : (s.evt (Reg.FE_EVT_EM_AGAIN c)).flag (Reg.FE_EVT_EM_AGAIN c) = true := flag_evt_same _ _ rfl (by simp [Reg.FE_EVT_EM_AGAIN])
  cases floor
  · simpa [showTrip] using h
  · simp only [showTrip, if_true]
    rw [flag_evt, flag_fset_apart _ _ _ _ (by simp [Reg.FE_EVT_MIN_CLIP]) (by simp [Reg.FE_EVT_MIN_CLIP]) (by simp [Reg.FE_EVT_EM_AGAIN])
      (by simp [Reg.FE_EVT_MIN_CLIP, Reg.FE_EVT_EM_AGAIN]), h]

theorem showTrip_floor (s : State) (c : Nat) (again : Bool) : (showTrip s c again true).flag (Reg.FE_EVT_MIN_CLIP c) = true := by
  simp only [showTrip, if_true]
  exact flag_evt_same _ _ rfl (by simp [Reg.FE_EVT_MIN_CLIP])

theorem at_atFloor (s : State) (t p u : Nat) (marks : List Nat) : (s.at t).atFloor p u marks = s.atFloor p u marks := by
  unfold State.atFloor State.gnow
  rw [at_fget, at_tick]

theorem execEmergencyTrip_of_none {s : State} {c : Fin 2} {clips : List Nat} (hv : s.convVoid c = false)
    (hd : emDetect (s.emN c) (s.emSpan c) (liveClips (s.conv c).lastTrip clips) = none) :
    execEmergencyTrip c clips s = .next (s.convMod c (fun k => { k with clips := k.clips + (liveClips (s.conv c).lastTrip clips).length })) := by
  unfold execEmergencyTrip
  rw [hv, if_neg Bool.false_ne_true]
  dsimp only
  split
  next => rfl
  next d h => cases hd.symm.trans h

theorem execEmergencyTrip_of_some {s : State} {c : Fin 2} {clips : List Nat} {d : Nat} (hv : s.convVoid c = false)
    (hd : emDetect (s.emN c) (s.emSpan c) (liveClips (s.conv c).lastTrip clips) = some d) :
    let k := s.conv c
    let again := decide (k.emTick = some (d / 2048000))
    let floor := s.atFloor (s.crossed c) (d + 192) k.emMarks
    let y := (s.at d).convMod c (fun k => { k with lastTrip := some d, clips := k.clips + (liveClips (s.conv c).lastTrip clips).length })
    execEmergencyTrip c clips s = .next ((showTrip y c again floor).convMod c (fun q => { q with
      emTick := some (d / 2048000), emMarks := if again || floor then q.emMarks else q.emMarks ++ [d + 192] })) := by
  intro k again floor y
  have hp : y.crossed c = s.crossed c := at_crossed s d c
  have hf : y.atFloor (s.crossed c) (d + 192) k.emMarks = floor := at_atFloor ..
  unfold execEmergencyTrip
  rw [hv, if_neg Bool.false_ne_true]
  dsimp only
  split
  next h => cases hd.symm.trans h
  next x h =>
    cases hd.symm.trans h
    change Host.Outcome.next ((showTrip y c again (y.atFloor (y.crossed c) (d + 192) k.emMarks)).convMod c (fun q => { q with
      emTick := some (d / 2048000), emMarks := if again || y.atFloor (y.crossed c) (d + 192) k.emMarks then q.emMarks else q.emMarks ++ [d + 192] })) = _
    rw [hp, hf]

/-- What a converter and the registers hold after a trip (R94, R95). -/
theorem execEmergencyTrip_trips {s : State} {c : Fin 2} {clips : List Nat} {d : Nat} (hl : s.fe.convs.length = 3) (hv : s.convVoid c = false)
    (hd : emDetect (s.emN c) (s.emSpan c) (liveClips (s.conv c).lastTrip clips) = some d) :
    let k := s.conv c
    let again := k.emTick = some (d / 2048000)
    let floor := s.atFloor (s.crossed c) (d + 192) k.emMarks = true
    ∃ u, execEmergencyTrip c clips s = .next u ∧ u.now = (s.at d).now ∧
      u.conv c = { k with
        lastTrip := some d, clips := k.clips + (liveClips k.lastTrip clips).length, emTick := some (d / 2048000)
        emMarks := if again ∨ floor then k.emMarks else k.emMarks ++ [d + 192] } ∧
      (again → u.flag (Reg.FE_EVT_EM_AGAIN c) = true) ∧ (floor → u.flag (Reg.FE_EVT_MIN_CLIP c) = true) ∧ (¬ again → ¬ floor → u.regs = s.regs) := by
  intro k again floor
  have hc : c.val < 3 := Nat.lt_succ_of_lt c.isLt
  refine ⟨_, execEmergencyTrip_of_some hv hd, ?_, ?_, fun ha => ?_, fun hf => ?_, fun ha hf => ?_⟩
  · rw [convMod_now, showTrip_now, convMod_now]
  · rw [conv_convMod (by rw [showTrip_fe, convMod_length, at_fe, hl]; exact hc), if_pos rfl, conv_of_fe (showTrip_fe ..),
      conv_convMod (by rw [at_fe, hl]; exact hc), if_pos rfl, at_conv]
    simp only [Bool.or_eq_true, decide_eq_true_eq]
    rfl
  · rw [convMod_flag, decide_eq_true ha, showTrip_again]
  · rw [convMod_flag, hf, showTrip_floor]
  · rw [decide_eq_false ha, Bool.eq_false_of_not_eq_true hf, showTrip_none]
    exact at_regs s d

/-! ## LF clips -/

theorem execLfClip_of_void {s : State} (h : s.convVoid 2 = true) (t : Nat) : execLfClip t s = .next (s.at t) := by
  unfold execLfClip
  dsimp only
  rw [at_convVoid, h, if_pos rfl]

theorem execLfClip_counts {s : State} (hl : s.fe.convs.length = 3) (h : s.convVoid 2 = false) (t : Nat) :
    ∃ u, execLfClip t s = .next u ∧ u.now = (s.at t).now ∧ (u.conv 2).clips = (s.conv 2).clips + 1 ∧ u.flag (Reg.FE_EVT_MIN_CLIP 2) = true := by
  refine ⟨((s.at t).convMod 2 (fun k => { k with clips := k.clips + 1 })).evt (Reg.FE_EVT_MIN_CLIP 2), ?_, ?_, ?_, ?_⟩
  · unfold execLfClip
    dsimp only
    rw [at_convVoid, h, if_neg Bool.false_ne_true]
  · rw [now_evt, convMod_now]
  · rw [conv_of_fe (evt_fe ..), conv_convMod (by rw [at_fe, hl]; decide), if_pos rfl, at_conv]
  · exact flag_evt_same _ _ rfl (by simp [Reg.FE_EVT_MIN_CLIP])

/-! ## The emergency step -/

/-- Another field of FE_STAT than the step announced, or a field of another register. -/
def ApartFromNext (p : Nat) (f : Reg.Fld) : Prop := f.lo ≤ f.hi ∧ (f.addr ≠ Reg.FE_STAT p ∨ 5 < f.lo)

theorem fget_fset_gnext {s : State} {p n : Nat} {f : Reg.Fld} (h : ApartFromNext p f) : (s.fset (Reg.FE_STAT_GNEXT p) n).fget f = s.fget f := by
  obtain ⟨hf, ha | hb⟩ := h
  · exact fget_fset_addr _ _ _ _ ha.symm
  · exact fget_fset_apart _ _ _ _ (by simp [Reg.FE_STAT_GNEXT]) (by simp [Reg.FE_STAT_GNEXT]) hf (.inl (by simp [Reg.FE_STAT_GNEXT]; omega))

theorem fget_fset_ann {s : State} {p : Nat} {b : Bool} {f : Reg.Fld} (h : ApartFromNext p f) : (s.fsetB (Reg.FE_STAT_ANN p) b).fget f = s.fget f := by
  obtain ⟨hf, ha | hb⟩ := h
  · exact fget_fset_addr _ _ _ _ ha.symm
  · exact fget_fset_apart _ _ _ _ (by simp [Reg.FE_STAT_ANN]) (by simp [Reg.FE_STAT_ANN]) hf (.inl (by simp [Reg.FE_STAT_ANN]; omega))

theorem gnext_fset_ann (s : State) (p : Nat) (b : Bool) : (s.fsetB (Reg.FE_STAT_ANN p) b).fget (Reg.FE_STAT_GNEXT p) = s.fget (Reg.FE_STAT_GNEXT p) :=
  fget_fset_apart _ _ _ _ (by simp [Reg.FE_STAT_ANN]) (by simp [Reg.FE_STAT_ANN]) (by simp [Reg.FE_STAT_GNEXT]) (.inr (by simp [Reg.FE_STAT_ANN, Reg.FE_STAT_GNEXT]))

theorem gnext_fset (s : State) (p n : Nat) : (s.fset (Reg.FE_STAT_GNEXT p) n).fget (Reg.FE_STAT_GNEXT p) = n % 8 := by
  rw [fget_fset] <;> simp [Reg.FE_STAT_GNEXT]

/-- A gain step has three bits. -/
theorem gnow_lt (s : State) (p : Nat) : s.gnow p < 8 := by
  have h := fget_lt s (Reg.FE_STAT_GNOW p)
  simpa [State.gnow, Reg.FE_STAT_GNOW] using h

theorem gnext_lt (s : State) (p : Nat) : s.fget (Reg.FE_STAT_GNEXT p) < 8 := by
  have h := fget_lt s (Reg.FE_STAT_GNEXT p)
  simpa [Reg.FE_STAT_GNEXT] using h

theorem noStep_fget {s : State} {p : Nat} {f : Reg.Fld} (h : ApartFromNext p f) : (s.noStep p).fget f = s.fget f := by
  rw [State.noStep, fget_fset_ann h, fget_fset_gnext h]

theorem noStep_gnext (s : State) (p : Nat) : (s.noStep p).fget (Reg.FE_STAT_GNEXT p) = s.gnow p := by
  rw [State.noStep, gnext_fset_ann, gnext_fset, Nat.mod_eq_of_lt (gnow_lt s p)]

theorem announce_fget {s : State} {p g : Nat} {f : Reg.Fld} (h : ApartFromNext p f) : (s.announce p g).fget f = s.fget f := by
  unfold State.announce
  split
  · exact noStep_fget h
  · rw [fget_fset_ann h, fget_fset_gnext h]

theorem announce_gnext (s : State) (p : Nat) {g : Nat} (hg : g < 8) : (s.announce p g).fget (Reg.FE_STAT_GNEXT p) = g := by
  unfold State.announce
  split
  next h => rw [noStep_gnext, h]
  next => rw [gnext_fset_ann, gnext_fset, Nat.mod_eq_of_lt hg]

/-- From `s` to `t` the time and the registers but FE_STAT of port `p` stay, and so does the front end. -/
structure StatOnly (p : Nat) (s t : State) : Prop where
  now : t.now = s.now
  fe : t.fe = s.fe
  regs : ∀ a, a ≠ Reg.FE_STAT p → t.rget a = s.rget a

theorem noStep_stat (s : State) (p : Nat) : StatOnly p s (s.noStep p) where
  now := by rw [State.noStep, now_fsetB, now_fset]
  fe := by rw [State.noStep, fsetB_fe, fset_fe]
  regs a ha := by rw [State.noStep, State.fsetB, rget_fset_ne _ _ _ ha.symm, rget_fset_ne _ _ _ ha.symm]

theorem announce_stat (s : State) (p g : Nat) : StatOnly p s (s.announce p g) := by
  unfold State.announce
  split
  · exact noStep_stat s p
  · exact {
      now := by rw [now_fsetB, now_fset]
      fe := by rw [fsetB_fe, fset_fe]
      regs := fun a ha => by rw [State.fsetB, rget_fset_ne _ _ _ ha.symm, rget_fset_ne _ _ _ ha.symm] }

/-- The announcement after an emergency step: one step lower, or none where none was announced (R94). -/
def lowerNext (s : State) (p : Nat) : State := if s.flag (Reg.FE_STAT_ANN p) then s.announce p (s.fget (Reg.FE_STAT_GNEXT p) - 1) else s.noStep p

theorem lowerNext_stat (s : State) (p : Nat) : StatOnly p s (lowerNext s p) := by
  unfold lowerNext
  split
  · exact announce_stat ..
  · exact noStep_stat ..

theorem lowerNext_fget {s : State} {p : Nat} {f : Reg.Fld} (h : ApartFromNext p f) : (lowerNext s p).fget f = s.fget f := by
  unfold lowerNext
  split
  · exact announce_fget h
  · exact noStep_fget h

theorem lowerNext_gnext (s : State) (p : Nat) :
    (lowerNext s p).fget (Reg.FE_STAT_GNEXT p) = if s.flag (Reg.FE_STAT_ANN p) then s.fget (Reg.FE_STAT_GNEXT p) - 1 else s.gnow p := by
  unfold lowerNext
  split
  · exact announce_gnext _ _ (Nat.lt_of_le_of_lt (Nat.sub_le ..) (gnext_lt s p))
  · exact noStep_gnext ..

/-- The state with other notes of the raw capture and of the calibration. -/
def withNotes (s : State) (w : SnapS) (k : CalS) : State := { s with snp := w, cal := k }

theorem withNotes_fget (s : State) (w : SnapS) (k : CalS) (f : Reg.Fld) : (withNotes s w k).fget f = s.fget f := rfl

theorem withNotes_now (s : State) (w : SnapS) (k : CalS) : (withNotes s w k).now = s.now := rfl

theorem withNotes_fe (s : State) (w : SnapS) (k : CalS) : (withNotes s w k).fe = s.fe := rfl

/-- A step writes GNOW and sends a GAIN marker; besides, notes for raw capture and calibration are taken. -/
theorem stepGain_eq (s : State) (p g flags : Nat) : ∃ w k m, s.stepGain p g flags = (withNotes (s.fset (Reg.FE_STAT_GNOW p) g) w k).convMark (s.crossed p) m := by
  obtain ⟨w, hw⟩ := rawTrack_eq s s.now (fun x => x.fset (Reg.FE_STAT_GNOW p) g)
  unfold State.stepGain
  dsimp only
  rw [hw]
  split <;> exact ⟨_, _, _, rfl⟩

theorem stepGain_fget (s : State) (p g flags : Nat) (f : Reg.Fld) : (s.stepGain p g flags).fget f = (s.fset (Reg.FE_STAT_GNOW p) g).fget f := by
  obtain ⟨w, k, m, h⟩ := stepGain_eq s p g flags
  rw [h, convMark_fget, withNotes_fget]

theorem stepGain_now (s : State) (p g flags : Nat) : (s.stepGain p g flags).now = s.now := by
  obtain ⟨w, k, m, h⟩ := stepGain_eq s p g flags
  rw [h, convMark_now, withNotes_now, now_fset]

theorem stepGain_ports (s : State) (p g flags : Nat) : (s.stepGain p g flags).fe.ports = s.fe.ports := by
  obtain ⟨w, k, m, h⟩ := stepGain_eq s p g flags
  rw [h, convMark_ports, withNotes_fe, fset_fe]

/-- Of a converter a marker changes the list of its gains alone. -/
theorem convMark_conv (s : State) (c : Nat) (m : Marker) (d : Nat) : ∃ l, (s.convMark c m).conv d = { s.conv d with gains := l } := by
  rw [State.conv, convMark_fe]
  split
  · rw [modifyAt_getD]
    split
    · exact ⟨_, rfl⟩
    · exact ⟨(s.conv d).gains, rfl⟩
  · exact ⟨(s.conv d).gains, rfl⟩

theorem stepGain_conv (s : State) (p g flags c : Nat) : ∃ l, (s.stepGain p g flags).conv c = { s.conv c with gains := l } := by
  obtain ⟨w, k, m, h⟩ := stepGain_eq s p g flags
  obtain ⟨l, hl⟩ := convMark_conv (withNotes (s.fset (Reg.FE_STAT_GNOW p) g) w k) (s.crossed p) m c
  exact ⟨l, by rw [h, hl, conv_of_fe (withNotes_fe ..), conv_of_fe (fset_fe ..)]⟩

/-- The record of an emergency step (R94): EMSTU, EMERG and its event; the loop counts its windows anew. -/
def recordStep (s : State) (p m : Nat) : State :=
  (((s.rset64 (Reg.FE_EMSTU_LO p) m).fsetB (Reg.FE_STAT_EMERG p) true).evt (Reg.FE_EVT_EMERG p)).portFeMod p (fun x => { x with quiet := 0 })

/-- A gain that the loop does not set is held after an emergency step (R96), and the calibration of its port waits. -/
def holdStep (s : State) (p mode : Nat) : State :=
  let y := if mode = 0 then s else s.fsetB (Reg.FE_STAT_EMHELD p) true
  { y with cal := { y.cal with holdEm := modifyAt y.cal.holdEm p (fun _ => true) } }

theorem recordStep_now (s : State) (p m : Nat) : (recordStep s p m).now = s.now := by
  rw [recordStep, portFeMod_now, now_evt, now_fsetB, now_rset64]

theorem recordStep_ports (s : State) (p m : Nat) : (recordStep s p m).fe.ports = modifyAt s.fe.ports p (fun x => { x with quiet := 0 }) := by
  rw [recordStep, State.portFeMod, evt_fe, fsetB_fe, rset64_fe]

theorem recordStep_conv (s : State) (p m c : Nat) : (recordStep s p m).conv c = s.conv c := by
  rw [recordStep, State.conv, State.portFeMod, evt_fe, fsetB_fe, rset64_fe, State.conv]

/-- The fields of FE_STAT but EMERG stay. -/
theorem recordStep_stat {s : State} {p m : Nat} {f : Reg.Fld} (ha : f.addr = Reg.FE_STAT p) (hf : f.lo ≤ f.hi) (hb : 6 < f.lo ∨ f.hi < 6) :
    (recordStep s p m).fget f = s.fget f := by
  rw [recordStep, portFeMod_fget, fget_evt, fget_fset_addr _ _ _ _ (by rw [ha]; simp [Reg.FE_EVT_EMERG, Reg.FE_EVT, Reg.FE_STAT]), fget_fsetB,
    fget_fset_apart _ _ _ _ (by simp [Reg.FE_STAT_EMERG]) (by simp [Reg.FE_STAT_EMERG]) hf hb,
    fget_rset64_ne _ _ (by rw [ha]; simp [Reg.FE_EMSTU_LO, Reg.FE_STAT]) (by rw [ha, Reg.FE_EMSTU_LO, Reg.FE_STAT]; omega)]

theorem recordStep_emerg (s : State) (p m : Nat) : (recordStep s p m).flag (Reg.FE_STAT_EMERG p) = true := by
  rw [recordStep, portFeMod_flag, flag_evt, flag_fset_addr _ _ _ _ (by simp [Reg.FE_EVT_EMERG, Reg.FE_STAT_EMERG, Reg.FE_EVT, Reg.FE_STAT]),
    flag_fsetB_same _ _ _ rfl (by simp [Reg.FE_STAT_EMERG])]

theorem recordStep_event (s : State) (p m : Nat) : (recordStep s p m).flag (Reg.FE_EVT_EMERG p) = true := by
  rw [recordStep, portFeMod_flag, flag_evt_same _ _ rfl (by simp [Reg.FE_EVT_EMERG])]

theorem recordStep_emstu (s : State) (p m : Nat) : (recordStep s p m).rget64 (Reg.FE_EMSTU_LO p) = m % 2 ^ 64 := by
  have h (a : Nat) (h1 : Reg.FE_STAT p ≠ a) (h2 : Reg.FE_EVT p ≠ a) : (recordStep s p m).rget a = (s.rset64 (Reg.FE_EMSTU_LO p) m).rget a := by
    rw [recordStep, portFeMod_rget, rget_evt_ne _ _ h2, State.fsetB, rget_fset_ne _ _ _ h1]
  rw [State.rget64, h _ (by simp [Reg.FE_STAT, Reg.FE_EMSTU_LO]) (by simp [Reg.FE_EVT, Reg.FE_EMSTU_LO]),
    h _ (by rw [Reg.FE_STAT, Reg.FE_EMSTU_LO]; omega) (by rw [Reg.FE_EVT, Reg.FE_EMSTU_LO]; omega)]
  exact rget64_rset64_mod ..

theorem holdStep_fget {s : State} {p mode : Nat} {f : Reg.Fld} (hf : f.lo ≤ f.hi) (hb : f.addr ≠ Reg.FE_STAT p ∨ 7 < f.lo ∨ f.hi < 7) :
    (holdStep s p mode).fget f = s.fget f := by
  change (if mode = 0 then s else s.fsetB (Reg.FE_STAT_EMHELD p) true).fget f = s.fget f
  split
  · rfl
  · obtain ha | hb := hb
    · exact fget_fset_addr _ _ _ _ ha.symm
    · exact fget_fset_apart _ _ _ _ (by simp [Reg.FE_STAT_EMHELD]) (by simp [Reg.FE_STAT_EMHELD]) hf hb

theorem holdStep_rget {s : State} {p mode a : Nat} (ha : a ≠ Reg.FE_STAT p) : (holdStep s p mode).rget a = s.rget a := by
  change (if mode = 0 then s else s.fsetB (Reg.FE_STAT_EMHELD p) true).rget a = s.rget a
  split
  · rfl
  · exact rget_fset_ne _ _ _ ha.symm

theorem holdStep_held {s : State} {p mode : Nat} (h : mode ≠ 0) : (holdStep s p mode).flag (Reg.FE_STAT_EMHELD p) = true := by
  change (if mode = 0 then s else s.fsetB (Reg.FE_STAT_EMHELD p) true).flag _ = true
  rw [if_neg h]
  exact flag_fsetB_same _ _ _ rfl (by simp [Reg.FE_STAT_EMHELD])

theorem holdStep_now (s : State) (p mode : Nat) : (holdStep s p mode).now = s.now := by
  change (if mode = 0 then s else s.fsetB (Reg.FE_STAT_EMHELD p) true).now = s.now
  split
  · rfl
  · exact now_fsetB ..

theorem holdStep_fe (s : State) (p mode : Nat) : (holdStep s p mode).fe = s.fe := by
  change (if mode = 0 then s else s.fsetB (Reg.FE_STAT_EMHELD p) true).fe = s.fe
  split
  · rfl
  · exact fsetB_fe ..

/-- The marker of an emergency step is reached, and the clips are counted anew (R94). -/
def reachMark (s : State) (c m : Nat) (ms : List Nat) : State := (s.at m).convMod c (fun k => { k with emMarks := ms, clips := 0 })

theorem reachMark_crossed (s : State) (c m : Nat) (ms : List Nat) (d : Nat) : (reachMark s c m ms).crossed d = s.crossed d := at_crossed s m d

theorem reachMark_fget (s : State) (c m : Nat) (ms : List Nat) (f : Reg.Fld) : (reachMark s c m ms).fget f = s.fget f := at_fget s m f

theorem reachMark_flag (s : State) (c m : Nat) (ms : List Nat) (f : Reg.Fld) : (reachMark s c m ms).flag f = s.flag f := at_flag s m f

theorem reachMark_rget (s : State) (c m : Nat) (ms : List Nat) (a : Nat) : (reachMark s c m ms).rget a = s.rget a := at_rget s m a

theorem reachMark_now (s : State) (c m : Nat) (ms : List Nat) : (reachMark s c m ms).now = (s.at m).now := rfl

theorem reachMark_ports (s : State) (c m : Nat) (ms : List Nat) : (reachMark s c m ms).fe.ports = s.fe.ports := by
  rw [reachMark, State.convMod, at_fe]

theorem reachMark_conv {s : State} {c : Nat} (hc : c < s.fe.convs.length) (m : Nat) (ms : List Nat) :
    (reachMark s c m ms).conv c = { s.conv c with emMarks := ms, clips := 0 } := by
  rw [reachMark, conv_convMod (by rw [at_fe]; exact hc), if_pos rfl, at_conv]

/-- An emergency step on port `p` at marker stu `m`, from the state at the marker. -/
def stepDown (s : State) (p m mode : Nat) : State := holdStep (recordStep (s.stepGain p (s.gnow p - 1) 1) p m) p mode

theorem execEmergencyStep_eq {s : State} {c : Fin 2} {m : Nat} {ms : List Nat} (h : (s.conv c).emMarks = m :: ms) :
    execEmergencyStep c s = .next (
      let y := reachMark s c m ms
      let p := s.crossed c
      if s.gnow p = 0 then y.evt (Reg.FE_EVT_MIN_CLIP c) else lowerNext (stepDown y p m (s.fget (Reg.FE_GAIN_GMODE p))) p) := by
  have hp : (reachMark s c m ms).crossed c = s.crossed c := reachMark_crossed ..
  have hg : s.gnow (s.crossed c) = (reachMark s c m ms).gnow ((reachMark s c m ms).crossed c) := by rw [State.gnow, State.gnow, reachMark_fget, hp]
  dsimp only
  rw [hg, ← hp]
  unfold execEmergencyStep
  rw [h]
  rfl

/-- The fields of FE_STAT apart from those a step writes stay. -/
theorem stepDown_fget (s : State) {p : Nat} (m mode : Nat) {f : Reg.Fld} (ha : f.addr = Reg.FE_STAT p) (hf : f.lo ≤ f.hi) (hb : f.hi < 6) :
    (stepDown s p m mode).fget f = s.fget f := by
  rw [stepDown, holdStep_fget hf (.inr (.inr (Nat.lt_succ_of_lt hb))), recordStep_stat ha hf (.inr hb), stepGain_fget,
    fget_fset_apart _ _ _ _ (by simp [Reg.FE_STAT_GNOW]) (by simp [Reg.FE_STAT_GNOW]) hf (.inr (by simp [Reg.FE_STAT_GNOW]; omega))]

theorem stepDown_gnow (s : State) (p m mode : Nat) : (stepDown s p m mode).gnow p = s.gnow p - 1 := by
  have h := gnow_lt s p
  rw [State.gnow, stepDown, holdStep_fget (by simp [Reg.FE_STAT_GNOW]) (by simp [Reg.FE_STAT_GNOW]),
    recordStep_stat rfl (by simp [Reg.FE_STAT_GNOW]) (by simp [Reg.FE_STAT_GNOW]), stepGain_fget,
    fget_fset _ _ _ (by simp [Reg.FE_STAT_GNOW]) (by simp [Reg.FE_STAT_GNOW])]
  simp only [Reg.FE_STAT_GNOW]
  omega

theorem stepDown_ann (s : State) (p m mode : Nat) : (stepDown s p m mode).flag (Reg.FE_STAT_ANN p) = s.flag (Reg.FE_STAT_ANN p) := by
  rw [State.flag, stepDown_fget _ _ _ rfl (by simp [Reg.FE_STAT_ANN]) (by simp [Reg.FE_STAT_ANN]), State.flag]

theorem stepDown_gnext (s : State) (p m mode : Nat) : (stepDown s p m mode).fget (Reg.FE_STAT_GNEXT p) = s.fget (Reg.FE_STAT_GNEXT p) :=
  stepDown_fget _ _ _ rfl (by simp [Reg.FE_STAT_GNEXT]) (by simp [Reg.FE_STAT_GNEXT])

theorem stepDown_now (s : State) (p m mode : Nat) : (stepDown s p m mode).now = s.now := by
  rw [stepDown, holdStep_now, recordStep_now, stepGain_now]

theorem stepDown_conv (s : State) (p m mode c : Nat) : ∃ l, (stepDown s p m mode).conv c = { s.conv c with gains := l } := by
  obtain ⟨l, hl⟩ := stepGain_conv s p (s.gnow p - 1) 1 c
  exact ⟨l, by rw [stepDown, conv_of_fe (holdStep_fe ..), recordStep_conv, hl]⟩

theorem stepDown_quiet {s : State} {p : Nat} (hp : p < s.fe.ports.length) (m mode : Nat) : ((stepDown s p m mode).portFe p).quiet = 0 := by
  rw [State.portFe, stepDown, holdStep_fe, recordStep_ports, stepGain_ports, modifyAt_getD, if_pos ⟨rfl, hp⟩]

theorem flag_holdStep {s : State} {p mode : Nat} {f : Reg.Fld} (hf : f.lo ≤ f.hi) (hb : f.addr ≠ Reg.FE_STAT p ∨ 7 < f.lo ∨ f.hi < 7) :
    (holdStep s p mode).flag f = s.flag f := by
  rw [State.flag, holdStep_fget hf hb, State.flag]

theorem stepDown_emerg (s : State) (p m mode : Nat) : (stepDown s p m mode).flag (Reg.FE_STAT_EMERG p) = true := by
  rw [stepDown, flag_holdStep (by simp [Reg.FE_STAT_EMERG]) (by simp [Reg.FE_STAT_EMERG]), recordStep_emerg]

theorem stepDown_event (s : State) (p m mode : Nat) : (stepDown s p m mode).flag (Reg.FE_EVT_EMERG p) = true := by
  rw [stepDown, flag_holdStep (by simp [Reg.FE_EVT_EMERG]) (by simp [Reg.FE_EVT_EMERG, Reg.FE_EVT, Reg.FE_STAT]), recordStep_event]

theorem stepDown_held (s : State) (p m : Nat) {mode : Nat} (h : mode ≠ 0) : (stepDown s p m mode).flag (Reg.FE_STAT_EMHELD p) = true := holdStep_held h

/-- EMSTU is the stu of the marker, also once FE_STAT shows the next announcement. -/
theorem lowerNext_stepDown_emstu (s : State) (p m mode : Nat) : (lowerNext (stepDown s p m mode) p).rget64 (Reg.FE_EMSTU_LO p) = m % 2 ^ 64 := by
  have hlo : Reg.FE_EMSTU_LO p ≠ Reg.FE_STAT p := by simp [Reg.FE_EMSTU_LO, Reg.FE_STAT]
  have hhi : Reg.FE_EMSTU_LO p + 4 ≠ Reg.FE_STAT p := by rw [Reg.FE_EMSTU_LO, Reg.FE_STAT]; omega
  have hw := lowerNext_stat (stepDown s p m mode) p
  rw [State.rget64, hw.regs _ hlo, hw.regs _ hhi, stepDown, holdStep_rget hlo, holdStep_rget hhi]
  exact recordStep_emstu ..

theorem flag_lowerNext {s : State} {p : Nat} {f : Reg.Fld} (h : ApartFromNext p f) : (lowerNext s p).flag f = s.flag f := by
  rw [State.flag, lowerNext_fget h, State.flag]

theorem apart_gnow (p : Nat) : ApartFromNext p (Reg.FE_STAT_GNOW p) := by simp [ApartFromNext, Reg.FE_STAT_GNOW]
theorem apart_emerg (p : Nat) : ApartFromNext p (Reg.FE_STAT_EMERG p) := by simp [ApartFromNext, Reg.FE_STAT_EMERG]
theorem apart_emheld (p : Nat) : ApartFromNext p (Reg.FE_STAT_EMHELD p) := by simp [ApartFromNext, Reg.FE_STAT_EMHELD]
theorem apart_event (p : Nat) : ApartFromNext p (Reg.FE_EVT_EMERG p) := by simp [ApartFromNext, Reg.FE_EVT_EMERG, Reg.FE_EVT, Reg.FE_STAT]

/-- 192 stu after a detection the gain goes one step down, with EMERG, EMSTU and the step announced brought in line (R94, R96). -/
theorem execEmergencyStep_steps {s : State} {c : Fin 2} {m : Nat} {ms : List Nat} (hp3 : s.fe.ports.length = 3) (hc3 : s.fe.convs.length = 3)
    (h : (s.conv c).emMarks = m :: ms) (hg : s.gnow (s.crossed c) ≠ 0) :
    let p := s.crossed c
    ∃ u, execEmergencyStep c s = .next u ∧ u.now = (s.at m).now ∧ u.fget (Reg.FE_STAT_GNOW p) = s.gnow p - 1 ∧
      u.flag (Reg.FE_STAT_EMERG p) = true ∧ u.flag (Reg.FE_EVT_EMERG p) = true ∧ u.rget64 (Reg.FE_EMSTU_LO p) = m % 2 ^ 64 ∧ (u.conv c).emMarks = ms ∧
      (u.conv c).clips = 0 ∧ (u.portFe p).quiet = 0 ∧
      u.fget (Reg.FE_STAT_GNEXT p) = (if s.flag (Reg.FE_STAT_ANN p) then s.fget (Reg.FE_STAT_GNEXT p) - 1 else s.gnow p - 1) ∧
      (s.fget (Reg.FE_GAIN_GMODE p) ≠ 0 → u.flag (Reg.FE_STAT_EMHELD p) = true) := by
  intro p
  have hp : p < s.fe.ports.length := by rw [hp3]; exact Nat.lt_succ_of_lt (crossed_lt s c.isLt)
  have hc : c.val < s.fe.convs.length := by rw [hc3]; exact Nat.lt_succ_of_lt c.isLt
  let y := reachMark s c m ms
  let mode := s.fget (Reg.FE_GAIN_GMODE p)
  let w := stepDown y p m mode
  have hy : y.gnow p = s.gnow p := reachMark_fget ..
  have hw := lowerNext_stat w p
  have hconv : ∃ l, (lowerNext w p).conv c = { s.conv c with emMarks := ms, clips := 0, gains := l } := by
    obtain ⟨l, hl⟩ := stepDown_conv y p m mode c
    exact ⟨l, by rw [conv_of_fe hw.fe, hl, reachMark_conv hc]⟩
  obtain ⟨l, hl⟩ := hconv
  refine ⟨lowerNext w p, ?_, ?_, ?_, ?_, ?_, ?_, ?_, ?_, ?_, ?_, fun hm => ?_⟩
  · rw [execEmergencyStep_eq h]
    dsimp only
    rw [if_neg hg]
  · rw [hw.now, stepDown_now, reachMark_now]
  · rw [lowerNext_fget (apart_gnow p)]
    exact (stepDown_gnow ..).trans (by rw [hy])
  · exact (flag_lowerNext (apart_emerg p)).trans (stepDown_emerg ..)
  · exact (flag_lowerNext (apart_event p)).trans (stepDown_event ..)
  · exact lowerNext_stepDown_emstu ..
  · rw [hl]
  · rw [hl]
  · rw [State.portFe, hw.fe]
    exact stepDown_quiet (by rw [reachMark_ports]; exact hp) m mode
  · rw [lowerNext_gnext, stepDown_ann, stepDown_gnext, stepDown_gnow, hy]
    rw [reachMark_flag, reachMark_fget]
  · exact (flag_lowerNext (apart_emheld p)).trans (stepDown_held _ _ _ hm)

/-- A step whose marker meets the lowest gain changes no gain and says so (R95). -/
theorem execEmergencyStep_at_floor {s : State} {c : Fin 2} {m : Nat} {ms : List Nat} (hc3 : s.fe.convs.length = 3) (h : (s.conv c).emMarks = m :: ms)
    (hg : s.gnow (s.crossed c) = 0) :
    ∃ u, execEmergencyStep c s = .next u ∧ u.now = (s.at m).now ∧ u.flag (Reg.FE_EVT_MIN_CLIP c) = true ∧ u.conv c = { s.conv c with emMarks := ms, clips := 0 } ∧
      ∀ a, a ≠ Reg.FE_EVT c → u.rget a = s.rget a := by
  have hc : c.val < s.fe.convs.length := by rw [hc3]; exact Nat.lt_succ_of_lt c.isLt
  refine ⟨(reachMark s c m ms).evt (Reg.FE_EVT_MIN_CLIP c), ?_, ?_, ?_, ?_, fun a ha => ?_⟩
  · rw [execEmergencyStep_eq h]
    dsimp only
    rw [if_pos hg]
  · rw [now_evt, reachMark_now]
  · exact flag_evt_same _ _ rfl (by simp [Reg.FE_EVT_MIN_CLIP])
  · rw [conv_of_fe (evt_fe ..), reachMark_conv hc]
  · rw [rget_evt_ne _ _ (fun e => ha (e.symm.trans (by simp [Reg.FE_EVT_MIN_CLIP]))), reachMark_rget]

end Sys2Proof.Proofs
end

section
/-!
What leaves the front end alone: chains, calibration and the core clock.
-/

namespace Sys2Proof.Proofs

open Sys2Proof Sys2Proof.Machine Sys2Proof.Laws

/-! ## What leaves the front end alone -/

/-- The registers of the front end, and TOP_DOMAIN, where the lock of SCS is shown. -/
def FeReg (a : Nat) : Prop := a = Reg.TOP_DOMAIN ∨ 0x40000 ≤ a ∧ a < 0x60000

/-- From `s` to `t` the time, the front end and its registers stay. -/
structure FeKept (s t : State) : Prop where
  now : t.now = s.now
  fe : t.fe = s.fe
  regs : ∀ a, FeReg a → t.rget a = s.rget a

/-- The registers of chains, contexts and calibration lie above the front end's. -/
theorem not_feReg_of_le {a : Nat} (h : 0x60000 ≤ a) : ¬ FeReg a := by
  rintro (rfl | ⟨-, ha⟩)
  · exact absurd h (by decide)
  · omega

namespace FeKept

theorem refl (s : State) : FeKept s s := ⟨rfl, rfl, fun _ _ => rfl⟩

theorem trans {s t u : State} (h : FeKept s t) (k : FeKept t u) : FeKept s u :=
  ⟨k.now.trans h.now, k.fe.trans h.fe, fun a ha => (k.regs a ha).trans (h.regs a ha)⟩

theorem of_eq {s t u : State} (h : FeKept s t) (ht : u.time = t.time) (hf : u.fe = t.fe) (hr : u.regs = t.regs) : FeKept s u :=
  h.trans ⟨congrArg TimeS.stu ht, hf, fun a _ => rget_of_regs hr a⟩

theorem rset {s t : State} (h : FeKept s t) {a : Nat} (ha : ¬ FeReg a) (v : Word) : FeKept s (t.rset a v) :=
  h.trans ⟨now_rset .., rset_fe .., fun b hb => rget_rset_ne t (fun e : a = b => ha (e ▸ hb)) v⟩

theorem rsetN {s t : State} (h : FeKept s t) {a : Nat} (ha : ¬ FeReg a) (n : Nat) : FeKept s (t.rsetN a n) := h.rset ha _

theorem fset {s t : State} (h : FeKept s t) {f : Reg.Fld} (hf : ¬ FeReg f.addr) (n : Nat) : FeKept s (t.fset f n) := h.rset hf _

theorem fsetB {s t : State} (h : FeKept s t) {f : Reg.Fld} (hf : ¬ FeReg f.addr) (b : Bool) : FeKept s (t.fsetB f b) := h.fset hf _

theorem chnMod {s t : State} (h : FeKept s t) (n : Nat) (f : ChainS → ChainS) : FeKept s (t.chnMod n f) := h.of_eq rfl rfl rfl

theorem ccsMod {s t : State} (h : FeKept s t) (f : CcsS → CcsS) : FeKept s (t.ccsMod f) := h.of_eq rfl rfl rfl

theorem foldl {α : Type} {f : State → α → State} (l : List α) {s t : State} (h : FeKept s t) (hf : ∀ x a, FeKept x (f x a)) : FeKept s (l.foldl f t) := by
  induction l generalizing t with
  | nil => exact h
  | cons a l ih => exact ih (h.trans (hf t a))

end FeKept

/-! ### Chains -/

theorem showChn_feKept (s : State) (n : Nat) : FeKept s (s.showChn n) := by
  have hstat : ¬ FeReg (Reg.CHN_STAT n) := not_feReg_of_le (Nat.le_add_right_of_le (by decide))
  have hgain : ¬ FeReg (Reg.CHN_AGCG n) := not_feReg_of_le (Nat.le_add_right_of_le (by decide))
  unfold State.showChn
  exact ((((((((FeKept.refl s).fsetB hstat _).fset hstat _).fsetB hstat _).fsetB hstat _).fset hstat _).fsetB hstat _).fsetB hstat _).fsetB hstat _ |>.fset hgain _

/-- A reset after a void keeps the fade and the grid of labels (R117, R131). -/
theorem chnReset_going_feKept (s : State) (n b z : Nat) : FeKept s (s.chnReset n b z false true) := by
  have hsettle : ¬ FeReg (Reg.CHN_SETTLE n) := not_feReg_of_le (Nat.le_add_right_of_le (by decide))
  unfold State.chnReset
  dsimp only
  rw [if_neg Bool.false_ne_true, if_pos rfl]
  exact (((FeKept.refl s).chnMod n _).fset hsettle _).trans (showChn_feKept ..)

theorem planSwaps_feKept (s : State) (k : Nat) : FeKept s (s.planSwaps k) := by
  refine (FeKept.refl s).foldl _ (fun x n => ?_)
  split
  · split
    · exact ((FeKept.refl x).chnMod n _).trans (showChn_feKept ..)
    · exact .refl x
  · exact .refl x

/-- The end of a void resets chains, and its converter is valid from then on (R117). -/
theorem convVoidEnd_feKept (s : State) (c b : Nat) : FeKept (s.convMod c (fun k => { k with since := b })) (s.convVoidEnd c b) := by
  unfold State.convVoidEnd
  refine FeKept.foldl _ ((FeKept.refl _).of_eq rfl rfl rfl) (fun x n => ?_)
  exact ((FeKept.refl x).chnMod n _).trans (chnReset_going_feKept ..)

/-! ### Calibration -/

theorem takeTarget_feKept (s : State) (i : Nat) (t : List Rat) (byStep : Bool) : FeKept s (s.takeTarget i t byStep) := by
  unfold State.takeTarget
  dsimp only
  split <;> exact (FeKept.refl s).of_eq rfl rfl rfl

theorem showCal_feKept (s : State) : FeKept s s.showCal := by
  have hstat : ¬ FeReg Reg.CAL_STAT := not_feReg_of_le (by decide)
  have hlf : ¬ FeReg Reg.CAL_LFOFS := not_feReg_of_le (by decide)
  have htrim (c : Nat) : ¬ FeReg (Reg.CAL_TRIM c) := not_feReg_of_le (Nat.le_add_right_of_le (by decide))
  have hilv (c i : Nat) : ¬ FeReg (Reg.CAL_ILA c i) ∧ ¬ FeReg (Reg.CAL_ILB c i) :=
    ⟨not_feReg_of_le (by unfold Reg.CAL_ILA; omega), not_feReg_of_le (by unfold Reg.CAL_ILB; omega)⟩
  have hlna (p k : Nat) : ¬ FeReg (Reg.CAL_LNA p k) := not_feReg_of_le (by unfold Reg.CAL_LNA; omega)
  have htemp (p : Nat) : ¬ FeReg (Reg.CAL_TEMP p) := not_feReg_of_le (Nat.le_add_right_of_le (by decide))
  unfold State.showCal
  dsimp only
  refine (FeKept.foldl _ ((((FeKept.foldl _ (FeKept.foldl _ (.refl s) fun x c => ?_) fun x p => ?_).rsetN hlf _).rsetN (htrim 0) _).rsetN (htrim 1) _)
    fun x p => ?_).fset hstat _ |>.fsetB hstat _
  · exact (FeKept.refl x).foldl _ fun y i => ((FeKept.refl y).rsetN (hilv c i).1 _).rsetN (hilv c i).2 _
  · exact (FeKept.refl x).foldl _ fun y k => (FeKept.refl y).rsetN (hlna p k) _
  · split <;> exact (FeKept.refl x).rsetN (htemp p) _

/-! ### The core clock -/

theorem FeKept.ite {s t u : State} {c : Prop} [Decidable c] (h : FeKept s t) (k : FeKept s u) : FeKept s (if c then t else u) := by
  split <;> assumption

theorem planProfile_feKept (s : State) : FeKept s s.planProfile := by
  have hv : ¬ FeReg Reg.CCS_STAT := by rintro (h | h) <;> revert h <;> decide
  unfold State.planProfile
  extract_lets c
  split
  · exact .refl s
  · split
    next => exact ((FeKept.refl s).ccsMod _).fsetB hv _
    next g5 s0 s1 _ _ _ =>
      have h0 : FeKept s s0 := (FeKept.refl s).ccsMod _
      have h1 : FeKept s s1 := ((h0.ccsMod _).fsetB hv _).ite h0
      refine h1.ite ?_
      split
      · exact (h1.ccsMod _).ite h1
      · exact (h1.ccsMod _).ite h1

end Sys2Proof.Proofs
end

section
/-!
The end of a void and the plan cut-off.
-/

namespace Sys2Proof.Proofs

open Sys2Proof Sys2Proof.Machine Sys2Proof.Laws

/-! ## The end of a void -/

theorem rawTrack_fe (s : State) (u : Nat) (f : State → State) : (s.rawTrack u f).fe = (f s).fe := by
  obtain ⟨w, hw⟩ := rawTrack_eq s u f
  rw [hw]

theorem rawTrack_now (s : State) (u : Nat) (f : State → State) : (s.rawTrack u f).now = (f s).now := by
  obtain ⟨w, hw⟩ := rawTrack_eq s u f
  rw [hw]
  rfl

theorem FeKept.convVoid {s t : State} (h : FeKept s t) (c : Nat) : t.convVoid c = s.convVoid c := by
  have hr : t.rget Reg.TOP_DOMAIN_SCS_LOCK.addr = s.rget Reg.TOP_DOMAIN_SCS_LOCK.addr := h.regs _ (.inl rfl)
  have hl : t.scsLocked = s.scsLocked := by
    simp only [State.scsLocked, State.flag, State.fget, hr]
  rw [State.convVoid, State.convVoid, h.fe, hl]

/-- Since when a converter is valid does not tell whether it is. -/
theorem convVoid_since (s : State) (c b d : Nat) : (s.convMod c (fun k => { k with since := b })).convVoid d = s.convVoid d := by
  have h := modifyAt_getD s.fe.convs c d (fun k : ConvS => { k with since := b }) {}
  unfold State.convVoid State.convMod
  dsimp only
  rw [h]
  split <;> rfl

/-- The power-up's void of a converter is over at stu `m`; unless it is void for another reason its chains are reset (R98, R117). -/
def voidOver (s : State) (c m : Nat) : State :=
  let x := (s.at m).rawTrack m (fun x => x.convMod c (fun k => { k with voidUntil := none }))
  if x.convVoid c then x else x.convVoidEnd c m

theorem voidOver_now (s : State) (c m : Nat) : (voidOver s c m).now = (s.at m).now := by
  unfold voidOver
  dsimp only
  split
  · rw [rawTrack_now, convMod_now]
  · rw [(convVoidEnd_feKept ..).now, convMod_now, rawTrack_now, convMod_now]

theorem voidOver_fe (s : State) (c m : Nat) : (voidOver s c m).fe = { s.fe with
    convs := modifyAt s.fe.convs c (fun k => { k with voidUntil := none, since := if (voidOver s c m).convVoid c then k.since else m }) } := by
  unfold voidOver
  dsimp only
  split
  next => rw [rawTrack_fe, State.convMod, at_fe]
  next hv =>
    have k := convVoidEnd_feKept ((s.at m).rawTrack m (fun x => x.convMod c (fun k => { k with voidUntil := none }))) c m
    rw [k.convVoid, convVoid_since, Bool.eq_false_of_not_eq_true hv, k.fe, State.convMod, rawTrack_fe, State.convMod, at_fe]
    simp only [modifyAt_modifyAt, Bool.false_eq_true, if_false]

/-- The vectors of a converter take their values at T_cal (R155). -/
def calAnew (s : State) (c : Nat) : State :=
  (((List.range 13).filter (fun i => s.calConv i == c)).foldl (fun (x : State) i => x.takeTarget i (interp i x.tcal x.cal.points) true) s).showCal

theorem calAnew_feKept (s : State) (c : Nat) : FeKept s (calAnew s c) :=
  ((FeKept.refl s).foldl _ fun _ _ => takeTarget_feKept ..).trans (showCal_feKept _)

/-- A converter's void ends 64 ticks after its power-up; unless it is void for another reason it is valid from then on (R98). -/
theorem execConverterVoidEnd_ends {s : State} {c : Fin 2} {m : Nat} (h : (s.conv c).voidUntil = some m) :
    ∃ u, execConverterVoidEnd c s = .next u ∧ u.now = (s.at m).now ∧ u.fe = { s.fe with
      convs := modifyAt s.fe.convs c (fun k => { k with voidUntil := none, since := if u.convVoid c then k.since else m }) } := by
  have k := calAnew_feKept (voidOver s c m) c
  refine ⟨calAnew (voidOver s c m) c, ?_, k.now.trans (voidOver_now ..), ?_⟩
  · unfold execConverterVoidEnd
    rw [h]
    rfl
  · rw [k.convVoid, k.fe]
    exact voidOver_fe ..

/-! ## The plan cut-off -/

/-- From `s` to `t` the time, the converters, the routing and the registers outside `A` stay. -/
structure WindowKept (A : Nat → Prop) (s t : State) : Prop where
  now : t.now = s.now
  convs : t.fe.convs = s.fe.convs
  route : t.fe.route = s.fe.route
  regs : ∀ a, ¬ A a → t.rget a = s.rget a

namespace WindowKept

variable {A : Nat → Prop} {s t u : State}

theorem refl (s : State) : WindowKept A s s := ⟨rfl, rfl, rfl, fun _ _ => rfl⟩

theorem trans (h : WindowKept A s t) (k : WindowKept A t u) : WindowKept A s u :=
  ⟨k.now.trans h.now, k.convs.trans h.convs, k.route.trans h.route, fun a ha => (k.regs a ha).trans (h.regs a ha)⟩

theorem portFeMod (h : WindowKept A s t) (p : Nat) (f : PortFE → PortFE) : WindowKept A s (t.portFeMod p f) :=
  ⟨h.now, h.convs, h.route, h.regs⟩

theorem fset (h : WindowKept A s t) {f : Reg.Fld} (hf : A f.addr) (n : Nat) : WindowKept A s (t.fset f n) :=
  h.trans ⟨now_fset .., by rw [fset_fe], by rw [fset_fe], fun b hb => rget_fset_ne t f n (fun e : f.addr = b => hb (e ▸ hf))⟩

theorem evt (h : WindowKept A s t) {f : Reg.Fld} (hf : A f.addr) : WindowKept A s (t.evt f) :=
  h.trans ⟨now_evt .., by rw [evt_fe], by rw [evt_fe], fun b hb => rget_evt_ne t f (fun e : f.addr = b => hb (e ▸ hf))⟩

theorem fget (h : WindowKept A s t) {f : Reg.Fld} (hf : ¬ A f.addr) : t.fget f = s.fget f := by
  rw [State.fget, h.regs _ hf, State.fget]

theorem crossed (h : WindowKept A s t) (c : Nat) : t.crossed c = s.crossed c := crossed_of_route h.route c

end WindowKept

/-- The registers that a judged bias shows in (R85). -/
def BiasReg (p a : Nat) : Prop := a = Reg.FE_BSTAT p ∨ a = Reg.FE_EVT p

theorem satTo_eq_min (m n : Nat) : satTo m n = min m n := by
  unfold satTo
  split <;> omega

/-! ### The bias current -/

/-- What a judged bias changes beside the current it shows (R85). -/
theorem judgeBias_kept (s : State) (p ua : Nat) :
    WindowKept (BiasReg p) s (s.judgeBias p ua) ∧ (s.judgeBias p ua).fget (Reg.FE_BSTAT_IMA p) = min 1023 (ua / 1000) := by
  have hima : (s.fset (Reg.FE_BSTAT_IMA p) (satTo 1023 (ua / 1000))).fget (Reg.FE_BSTAT_IMA p) = min 1023 (ua / 1000) := by
    rw [fget_fset _ _ _ (by simp [Reg.FE_BSTAT_IMA]) (by simp [Reg.FE_BSTAT_IMA]), satTo_eq_min]
    simp only [Reg.FE_BSTAT_IMA]
    omega
  have hstate (x : State) (n : Nat) : (x.fset (Reg.FE_BSTAT_STATE p) n).fget (Reg.FE_BSTAT_IMA p) = x.fget (Reg.FE_BSTAT_IMA p) :=
    fget_fset_apart _ _ _ _ (by simp [Reg.FE_BSTAT_STATE]) (by simp [Reg.FE_BSTAT_STATE]) (by simp [Reg.FE_BSTAT_IMA])
      (by simp [Reg.FE_BSTAT_STATE, Reg.FE_BSTAT_IMA])
  have hopen (x : State) : (x.evt (Reg.FE_EVT_OPEN p)).fget (Reg.FE_BSTAT_IMA p) = x.fget (Reg.FE_BSTAT_IMA p) := by
    rw [fget_evt, fget_fset_addr _ _ _ _ (by simp [Reg.FE_EVT_OPEN, Reg.FE_BSTAT_IMA, Reg.FE_EVT, Reg.FE_BSTAT])]
  have h1 : WindowKept (BiasReg p) s (s.fset (Reg.FE_BSTAT_IMA p) (satTo 1023 (ua / 1000))) := (WindowKept.refl s).fset (.inl rfl) _
  unfold State.judgeBias
  dsimp only
  split
  · exact ⟨h1.portFeMod .., by rw [portFeMod_fget, hima]⟩
  · split
    · exact ⟨h1, hima⟩
    · split
      · split
        · exact ⟨((h1.portFeMod ..).fset (.inl rfl) _).evt (.inr rfl), by rw [hopen, hstate, portFeMod_fget, hima]⟩
        · exact ⟨h1.portFeMod .., by rw [portFeMod_fget, hima]⟩
      · split
        · exact ⟨(h1.portFeMod ..).fset (.inl rfl) _, by rw [hstate, portFeMod_fget, hima]⟩
        · exact ⟨h1.portFeMod .., by rw [portFeMod_fget, hima]⟩

/-- The three currents are judged. -/
def biasJudged (s : State) (o : CutObs) : State := (List.range 3).foldl (fun (x : State) p => x.judgeBias p (o.ima.getD p 0)) s

/-- A port's current is that of its own judgement. -/
theorem ima_judgeBias_ne (s : State) {p q : Nat} (h : p ≠ q) (ua : Nat) : (s.judgeBias p ua).fget (Reg.FE_BSTAT_IMA q) = s.fget (Reg.FE_BSTAT_IMA q) :=
  (judgeBias_kept s p ua).1.fget (by simp only [BiasReg, Reg.FE_BSTAT_IMA, Reg.FE_BSTAT, Reg.FE_EVT]; omega)

theorem biasJudged_ima (s : State) (o : CutObs) (p : Fin 3) : (biasJudged s o).fget (Reg.FE_BSTAT_IMA p) = min 1023 (o.ima.getD p 0 / 1000) := by
  change (((s.judgeBias 0 (o.ima.getD 0 0)).judgeBias 1 (o.ima.getD 1 0)).judgeBias 2 (o.ima.getD 2 0)).fget _ = _
  match p with
  | 0 =>
    rw [ima_judgeBias_ne _ (by decide), ima_judgeBias_ne _ (by decide)]
    exact (judgeBias_kept ..).2
  | 1 =>
    rw [ima_judgeBias_ne _ (by decide)]
    exact (judgeBias_kept ..).2
  | 2 => exact (judgeBias_kept ..).2

theorem biasJudged_kept (s : State) (o : CutObs) : WindowKept (fun a => ∃ p, BiasReg p a) s (biasJudged s o) := by
  have h (x : State) (p : Nat) (ua : Nat) : WindowKept (fun a => ∃ p, BiasReg p a) x (x.judgeBias p ua) :=
    let ⟨k, _⟩ := judgeBias_kept x p ua
    ⟨k.now, k.convs, k.route, fun a ha => k.regs a (fun hb => ha ⟨p, hb⟩)⟩
  exact ((h s 0 _).trans (h _ 1 _)).trans (h _ 2 _)

/-! ### The gain loop -/

/-- A port's window is shown at its converter, and a new one begins (R90). -/
def takeWindow (s : State) (p : Nat) (w : Option (Nat × Nat)) : State :=
  let c := s.crossed p
  (match w with
    | some (pk, cl) => (s.fset (Reg.FE_PEAK_PEAK c) (satTo 4095 pk)).fset (Reg.FE_PEAK_CLIPS c) (satTo 1048575 cl)
    | none => s.rsetN (Reg.FE_PEAK c) 0).convMod c (fun x => { x with clips := 0 })

theorem takeWindow_peak (s : State) (p pk cl : Nat) :
    (takeWindow s p (some (pk, cl))).fget (Reg.FE_PEAK_PEAK (s.crossed p)) = min 4095 pk ∧
      (takeWindow s p (some (pk, cl))).fget (Reg.FE_PEAK_CLIPS (s.crossed p)) = min 1048575 cl := by
  unfold takeWindow
  dsimp only
  constructor
  · rw [convMod_fget, fget_fset_apart _ _ _ _ (by simp [Reg.FE_PEAK_CLIPS]) (by simp [Reg.FE_PEAK_CLIPS]) (by simp [Reg.FE_PEAK_PEAK])
      (by simp [Reg.FE_PEAK_CLIPS, Reg.FE_PEAK_PEAK]), fget_fset _ _ _ (by simp [Reg.FE_PEAK_PEAK]) (by simp [Reg.FE_PEAK_PEAK]), satTo_eq_min]
    simp only [Reg.FE_PEAK_PEAK]
    omega
  · rw [convMod_fget, fget_fset _ _ _ (by simp [Reg.FE_PEAK_CLIPS]) (by simp [Reg.FE_PEAK_CLIPS]), satTo_eq_min]
    simp only [Reg.FE_PEAK_CLIPS]
    omega

theorem takeWindow_none (s : State) (p : Nat) : (takeWindow s p none).rget (Reg.FE_PEAK (s.crossed p)) = 0 := by
  unfold takeWindow
  dsimp only
  rw [convMod_rget, rget_rsetN, if_pos rfl]
  rfl

/-- Apart from its converter's clips and FE_PEAK nothing changes as a window is shown. -/
theorem takeWindow_else (s : State) (p : Nat) (w : Option (Nat × Nat)) :
    (takeWindow s p w).now = s.now ∧ (takeWindow s p w).fe = (s.convMod (s.crossed p) (fun x => { x with clips := 0 })).fe ∧
      ∀ a, a ≠ Reg.FE_PEAK (s.crossed p) → (takeWindow s p w).rget a = s.rget a := by
  unfold takeWindow
  dsimp only
  split
  · refine ⟨by rw [convMod_now, now_fset, now_fset], ?_, fun a ha => ?_⟩
    · rw [State.convMod, fset_fe, fset_fe, State.convMod]
    · rw [convMod_rget, rget_fset_ne _ _ _ ha.symm, rget_fset_ne _ _ _ ha.symm]
  · refine ⟨by rw [convMod_now, now_rsetN], ?_, fun a ha => ?_⟩
    · rw [State.convMod, rsetN_fe, State.convMod]
    · rw [convMod_rget, State.rsetN, rget_rset_ne _ ha.symm]

theorem StatOnly.window {p : Nat} {s t u : State} (h : WindowKept (· = Reg.FE_STAT p) s t) (k : StatOnly p t u) : WindowKept (· = Reg.FE_STAT p) s u :=
  h.trans ⟨k.now, by rw [k.fe], by rw [k.fe], k.regs⟩

/-- Judging a port's gain shows its window; beyond that it announces a step in FE_STAT (R90, R91). -/
theorem judgeGain_window (s : State) (p : Nat) (w : Option (Nat × Nat)) : WindowKept (· = Reg.FE_STAT p) (takeWindow s p w) (s.judgeGain p w) := by
  unfold State.judgeGain
  extract_lets c s0 q s1 mode
  have h1 : WindowKept (· = Reg.FE_STAT p) (takeWindow s p w) s1 := (WindowKept.refl (takeWindow s p w)).portFeMod p _
  have hn : WindowKept (· = Reg.FE_STAT p) (takeWindow s p w) (s1.noStep p) := (noStep_stat s1 p).window h1
  have ha (g : Nat) : WindowKept (· = Reg.FE_STAT p) (takeWindow s p w) (s1.announce p g) := (announce_stat s1 p g).window h1
  split
  · exact hn
  · split
    · split
      · exact (ha _).portFeMod p _
      · exact hn
    · split
      · split
        · exact hn
        · exact ha _
      · exact hn

/-- The wideband ports' windows are judged, each with the samples of the converter it feeds. -/
def gainsJudged (s : State) (o : CutObs) : State := (List.range 2).foldl (fun (x : State) p => x.judgeGain p (o.win.getD (x.crossed p) none)) s

theorem judgeGain_crossed (s : State) (p : Nat) (w : Option (Nat × Nat)) (c : Nat) : (s.judgeGain p w).crossed c = s.crossed c := by
  rw [(judgeGain_window s p w).crossed]
  obtain ⟨-, hfe, -⟩ := takeWindow_else s p w
  exact crossed_of_route (by rw [hfe]; rfl) c

theorem judgeGain_now (s : State) (p : Nat) (w : Option (Nat × Nat)) : (s.judgeGain p w).now = s.now := by
  obtain ⟨hnow, -, -⟩ := takeWindow_else s p w
  exact (judgeGain_window s p w).now.trans hnow

/-- A judged gain shows in FE_STAT of its port and FE_PEAK of its converter. -/
theorem judgeGain_rget (s : State) (p : Nat) (w : Option (Nat × Nat)) {a : Nat} (h1 : a ≠ Reg.FE_STAT p) (h2 : a ≠ Reg.FE_PEAK (s.crossed p)) :
    (s.judgeGain p w).rget a = s.rget a := by
  obtain ⟨-, -, hr⟩ := takeWindow_else s p w
  exact ((judgeGain_window s p w).regs a h1).trans (hr a h2)

theorem judgeGain_conv (s : State) (p : Nat) (w : Option (Nat × Nat)) (c : Nat) : (s.judgeGain p w).conv c = (s.convMod (s.crossed p) (fun x => { x with clips := 0 })).conv c := by
  obtain ⟨-, hfe, -⟩ := takeWindow_else s p w
  rw [State.conv, (judgeGain_window s p w).convs, hfe, State.conv]

/-- What the cut-off shows of the window of converter `c`: FE_PEAK, and clips counted anew. -/
structure WindowShown (c : Nat) (w : Option (Nat × Nat)) (t : State) : Prop where
  some : ∀ pk cl, w = some (pk, cl) → t.fget (Reg.FE_PEAK_PEAK c) = min 4095 pk ∧ t.fget (Reg.FE_PEAK_CLIPS c) = min 1048575 cl
  none : w = none → t.rget (Reg.FE_PEAK c) = 0
  clips : (t.conv c).clips = 0

/-- It stays shown while FE_PEAK and the converter's count stay. -/
theorem WindowShown.of_eq {c : Nat} {w : Option (Nat × Nat)} {t u : State} (h : WindowShown c w t) (hr : u.rget (Reg.FE_PEAK c) = t.rget (Reg.FE_PEAK c))
    (hc : (u.conv c).clips = (t.conv c).clips) : WindowShown c w u := by
  have hf (f : Reg.Fld) (hf : f.addr = Reg.FE_PEAK c) : u.fget f = t.fget f := by rw [State.fget, hf, hr, State.fget, hf]
  exact {
    some := fun pk cl e => by rw [hf _ rfl, hf _ rfl]; exact h.some pk cl e
    none := fun e => hr.trans (h.none e)
    clips := hc.trans h.clips }

theorem judgeGain_shown {s : State} {p : Nat} (w : Option (Nat × Nat)) (hc : s.crossed p < s.fe.convs.length) : WindowShown (s.crossed p) w (s.judgeGain p w) := by
  have hk := judgeGain_window s p w
  have hf (f : Reg.Fld) (hf : f.addr = Reg.FE_PEAK (s.crossed p)) : (s.judgeGain p w).fget f = (takeWindow s p w).fget f :=
    hk.fget (by rw [hf]; simp only [Reg.FE_PEAK, Reg.FE_STAT]; omega)
  refine { some := fun pk cl e => ?_, none := fun e => ?_, clips := ?_ }
  · rw [hf _ rfl, hf _ rfl, e]
    exact takeWindow_peak ..
  · rw [hk.regs _ (by simp only [Reg.FE_PEAK, Reg.FE_STAT]; omega), e]
    exact takeWindow_none ..
  · rw [judgeGain_conv, conv_convMod hc, if_pos rfl]

theorem judgeGain_convs_length (s : State) (p : Nat) (w : Option (Nat × Nat)) : (s.judgeGain p w).fe.convs.length = s.fe.convs.length := by
  obtain ⟨-, hfe, -⟩ := takeWindow_else s p w
  rw [(judgeGain_window s p w).convs, hfe, convMod_length]

/-- Each wideband converter's window is shown by the port that it is fed from. -/
theorem gainsJudged_shown {s : State} (hl : s.fe.convs.length = 3) (o : CutObs) (c : Fin 2) : WindowShown c (o.win.getD c none) (gainsJudged s o) := by
  let x := s.judgeGain 0 (o.win.getD (s.crossed 0) none)
  change WindowShown c (o.win.getD c none) (x.judgeGain 1 (o.win.getD (x.crossed 1) none))
  have hx : x.crossed 1 = s.crossed 1 := judgeGain_crossed ..
  have hlx : x.fe.convs.length = 3 := (judgeGain_convs_length ..).trans hl
  have hc1 : s.crossed 1 < 3 := Nat.lt_succ_of_lt (crossed_lt s (by decide))
  rw [hx]
  have hcc : s.crossed (s.crossed c) = c := crossed_crossed s c.isLt
  have hp : s.crossed c = 0 ∨ s.crossed c = 1 := by
    have := crossed_lt s c.isLt
    omega
  obtain h0 | h1 := hp
  · rw [h0] at hcc
    have hne : s.crossed 1 ≠ c := fun e => by
      have h := crossed_crossed s (c := 1) (by decide)
      rw [e, h0] at h
      exact absurd h (by decide)
    have h : WindowShown c (o.win.getD c none) x := by
      have k := judgeGain_shown (s := s) (p := 0) (o.win.getD (s.crossed 0) none) (by rw [hl, hcc]; exact Nat.lt_succ_of_lt c.isLt)
      rw [hcc] at k
      simpa only [x, hcc] using k
    refine h.of_eq (judgeGain_rget _ _ _ (by simp only [Reg.FE_PEAK, Reg.FE_STAT]; omega) ?_) ?_
    · rw [hx]
      simp only [Reg.FE_PEAK]
      omega
    · rw [judgeGain_conv, hx, conv_convMod (by rw [hlx]; exact hc1), if_neg hne]
  · rw [h1] at hcc
    have k := judgeGain_shown (s := x) (p := 1) (o.win.getD c none) (by rw [hx, hlx]; exact hc1)
    rw [hx, hcc] at k
    rwa [hcc]

theorem gainsJudged_now (s : State) (o : CutObs) : (gainsJudged s o).now = s.now :=
  (judgeGain_now ..).trans (judgeGain_now ..)

/-- No port's bias shows in the registers that a judged gain shows in. -/
theorem gainsJudged_ima (s : State) (o : CutObs) (p : Nat) : (gainsJudged s o).fget (Reg.FE_BSTAT_IMA p) = s.fget (Reg.FE_BSTAT_IMA p) := by
  have h (x : State) (q : Nat) (w : Option (Nat × Nat)) : (x.judgeGain q w).rget (Reg.FE_BSTAT_IMA p).addr = x.rget (Reg.FE_BSTAT_IMA p).addr :=
    judgeGain_rget _ _ _ (by simp only [Reg.FE_BSTAT_IMA, Reg.FE_BSTAT, Reg.FE_STAT]; omega) (by simp only [Reg.FE_BSTAT_IMA, Reg.FE_BSTAT, Reg.FE_PEAK]; omega)
  rw [State.fget, State.fget]
  exact congrArg (fieldOf · _ _) ((h _ 1 _).trans (h s 0 _))

theorem feCutoff_eq (s : State) (o : CutObs) : ∃ n,
    s.feCutoff o = ((gainsJudged (biasJudged s o) o).rsetN (Reg.FE_PEAK 2) n).convMod 2 (fun x => { x with clips := 0 }) := ⟨_, rfl⟩

theorem feCutoff_now (s : State) (o : CutObs) : (s.feCutoff o).now = s.now := by
  obtain ⟨n, hn⟩ := feCutoff_eq s o
  rw [hn, convMod_now, now_rsetN, gainsJudged_now, (biasJudged_kept s o).now]

theorem feCutoff_ima (s : State) (o : CutObs) (p : Fin 3) : (s.feCutoff o).fget (Reg.FE_BSTAT_IMA p) = min 1023 (o.ima.getD p 0 / 1000) := by
  obtain ⟨n, hn⟩ := feCutoff_eq s o
  rw [hn, convMod_fget, State.rsetN, fget_rset_ne _ (by simp only [Reg.FE_BSTAT_IMA, Reg.FE_BSTAT, Reg.FE_PEAK]; omega), gainsJudged_ima, biasJudged_ima]

theorem feCutoff_shown {s : State} (hl : s.fe.convs.length = 3) (o : CutObs) (c : Fin 2) : WindowShown c (o.win.getD c none) (s.feCutoff o) := by
  obtain ⟨n, hn⟩ := feCutoff_eq s o
  have hb := (biasJudged_kept s o).convs
  have h := gainsJudged_shown (s := biasJudged s o) (by rw [hb, hl]) o c
  rw [hn]
  refine h.of_eq ?_ ?_
  · rw [convMod_rget, State.rsetN, rget_rset_ne _ (by simp only [Reg.FE_PEAK]; omega)]
  · have hlen : (gainsJudged (biasJudged s o) o).fe.convs.length = 3 := by
      exact ((judgeGain_convs_length ..).trans (judgeGain_convs_length ..)).trans (by rw [hb, hl])
    rw [conv_convMod (by rw [rsetN_fe, hlen]; decide), if_neg (by omega), conv_of_fe (rsetN_fe ..)]

/-- The rest of the plan cut-off leaves the front end alone. -/
theorem execPlanCutoff_feKept {s : State} (hu : s.up = true) (o : CutObs) :
    ∃ u, execPlanCutoff o s = .next u ∧ FeKept ((s.at (s.time.tick * 2048000 + 1792000)).feCutoff o) u := by
  have hcyc : ¬ FeReg Reg.CCS_NEXTCYC := by rintro (h | h) <;> revert h <;> decide
  have hplan : ¬ FeReg Reg.LDG_PLAN := not_feReg_of_le (by decide)
  refine ⟨_, rfl, ?_⟩
  rw [hu, if_neg (by decide)]
  dsimp only
  refine FeKept.ite (.refl _) ?_
  exact (((planSwaps_feKept ..).trans (planProfile_feKept _)).rsetN hcyc _).rsetN hplan _

/-- The plan cut-off takes each port's current and each wideband converter's window (R15, R85, R90). -/
theorem execPlanCutoff_shows {s : State} (hl : s.fe.convs.length = 3) (hu : s.up = true) (o : CutObs) (p : Fin 3) (c : Fin 2) :
    ∃ u, execPlanCutoff o s = .next u ∧ u.now = (s.at (s.time.tick * 2048000 + 1792000)).now ∧
      u.fget (Reg.FE_BSTAT_IMA p) = min 1023 (o.ima.getD p 0 / 1000) ∧ WindowShown c (o.win.getD c none) u := by
  have hfe {a : Nat} (h1 : 0x40000 ≤ a) (h2 : a < 0x60000) : FeReg a := .inr ⟨h1, h2⟩
  obtain ⟨u, he, k⟩ := execPlanCutoff_feKept hu o
  refine ⟨u, he, k.now.trans (feCutoff_now ..), ?_, ?_⟩
  · rw [State.fget, k.regs _ (by apply hfe <;> simp only [Reg.FE_BSTAT_IMA, Reg.FE_BSTAT] <;> omega)]
    exact feCutoff_ima ..
  · refine (feCutoff_shown (by rw [at_fe]; exact hl) o c).of_eq (k.regs _ ?_) (by rw [conv_of_fe k.fe])
    apply hfe <;> simp only [Reg.FE_PEAK] <;> omega

/-- Settles O37: one lemma above for each command. -/
theorem frontEndAndPlan : Obligations.FrontEndAndPlan := by
  unfold Obligations.FrontEndAndPlan
  intro s p c clips ms o t t0 d m pk cl y k live port g next ann retry again floor hports hconvs
  refine ⟨execBiasRetry_raises hports, fun hv hd => ?_, execEmergencyTrip_trips hconvs, execEmergencyStep_steps hports hconvs,
    execEmergencyStep_at_floor hconvs, execConverterVoidEnd_ends, fun h => execLfClip_counts hconvs h t, fun h => execLfClip_of_void h t,
    fun hu => ?_, execPlanReady_hands⟩
  · refine ⟨_, execEmergencyTrip_of_none hv hd, rfl, rfl, ?_⟩
    rw [conv_convMod (by rw [hconvs]; exact Nat.lt_succ_of_lt c.isLt), if_pos rfl]
    rfl
  · obtain ⟨u, he, hnow, hima, hw⟩ := execPlanCutoff_shows hconvs hu o p c
    exact ⟨u, he, hnow, hima, hw.some pk cl, hw.none, hw.clips⟩

end Sys2Proof.Proofs
end

section
/-!
Reads of fields after an update, and what updates leave aside: the frame of chapters 2, 3 and 20.
-/

namespace Sys2Proof.Proofs

open Sys2Proof Sys2Proof.Machine Sys2Proof.Laws

/-! ## Fields apart -/

/-- Two fields without a bit in common: of different registers, or apart in one. -/
def fldApart (f k : Reg.Fld) : Bool :=
  decide (f.addr ≠ k.addr) || decide (f.lo ≤ f.hi ∧ f.hi < 32 ∧ k.lo ≤ k.hi ∧ (f.hi < k.lo ∨ k.hi < f.lo))

theorem fget_fset_fldApart (s : State) {f k : Reg.Fld} (n : Nat) (h : fldApart f k = true) : (s.fset f n).fget k = s.fget k := by
  rcases Bool.or_eq_true_iff.mp h with h | h
  · exact fget_fset_addr s f k n (of_decide_eq_true h)
  · obtain ⟨hf, hw, hk, ha⟩ := of_decide_eq_true h
    exact fget_fset_apart s f k n hf hw hk ha

theorem flag_fset_fldApart (s : State) {f k : Reg.Fld} (n : Nat) (h : fldApart f k = true) : (s.fset f n).flag k = s.flag k :=
  congrArg (· != 0) (fget_fset_fldApart s n h)

theorem fget_fsetB_fldApart (s : State) {f k : Reg.Fld} (b : Bool) (h : fldApart f k = true) : (s.fsetB f b).fget k = s.fget k := fget_fset_fldApart s _ h

theorem flag_fsetB_fldApart (s : State) {f k : Reg.Fld} (b : Bool) (h : fldApart f k = true) : (s.fsetB f b).flag k = s.flag k := flag_fset_fldApart s _ h

theorem fget_evt_fldApart (s : State) {f k : Reg.Fld} (h : fldApart f k = true) : (s.evt f).fget k = s.fget k := fget_fset_fldApart s 1 h

theorem flag_evt_fldApart (s : State) {f k : Reg.Fld} (h : fldApart f k = true) : (s.evt f).flag k = s.flag k := flag_fset_fldApart s 1 h

/-- A field takes the value put into it where the value fits. -/
theorem fget_fset_fits (s : State) {f : Reg.Fld} {n : Nat} (hf : f.lo ≤ f.hi ∧ f.hi < 32) (hn : n < 2 ^ (f.hi + 1 - f.lo)) : (s.fset f n).fget f = n := by
  rw [fget_fset s f n hf.1 hf.2, Nat.mod_eq_of_lt hn]

theorem fget_rsetN_ne (s : State) {a : Nat} (n : Nat) {f : Reg.Fld} (h : a ≠ f.addr) : (s.rsetN a n).fget f = s.fget f := fget_rset_ne s h _

theorem flag_rsetN_ne (s : State) {a : Nat} (n : Nat) {f : Reg.Fld} (h : a ≠ f.addr) : (s.rsetN a n).flag f = s.flag f := flag_rset_ne s a _ f h

theorem flag_rset64_ne (s : State) {a : Nat} (n : Nat) {f : Reg.Fld} (h : a ≠ f.addr) (h4 : a + 4 ≠ f.addr) : (s.rset64 a n).flag f = s.flag f :=
  congrArg (· != 0) (fget_rset64_ne s n h h4)

theorem rget64_of_rget {s t : State} {a : Nat} (h : t.rget a = s.rget a) (h4 : t.rget (a + 4) = s.rget (a + 4)) : t.rget64 a = s.rget64 a := by
  rw [State.rget64, h, h4, State.rget64]

/-! ## What an update leaves aside -/

/-- Only the note of the events set at the present stu has changed (R7). -/
def Noted (x y : TimeS) : Prop := ∃ u b, y = { x with evtStu := u, evtBits := b }

theorem Noted.refl (x : TimeS) : Noted x x := ⟨x.evtStu, x.evtBits, rfl⟩

theorem Noted.trans {x y z : TimeS} (h : Noted x y) (k : Noted y z) : Noted x z := by
  obtain ⟨_, _, rfl⟩ := h
  obtain ⟨u, b, rfl⟩ := k
  exact ⟨u, b, rfl⟩

theorem Noted.noteEvt (x : TimeS) (f : Reg.Fld) : Noted x (x.noteEvt f) := ⟨_, _, rfl⟩

/-- What the note of events does not show is kept. -/
theorem Noted.of {α : Type} {x y : TimeS} (h : Noted x y) (g : TimeS → α) (hg : ∀ u b, g { x with evtStu := u, evtBits := b } = g x) : g y = g x := by
  obtain ⟨u, b, rfl⟩ := h
  exact hg u b

/-- A part of the state that no write of a register and no note of an event changes. -/
structure View (α : Type) where
  part : State → α
  blind : ∀ s regs time, part { s with regs := regs, time := time } = part s

/-- From `s` to `t` what `p` shows, the time but for its note of events, and the registers outside `A` stay. -/
structure Aside {α : Type} (p : View α) (A : Nat → Prop) (s t : State) : Prop where
  time : Noted s.time t.time
  view : p.part t = p.part s
  regs : ∀ a, ¬ A a → t.rget a = s.rget a

namespace Aside

variable {α β : Type} {p : View α} {A B : Nat → Prop} {s t u : State}

theorem refl (s : State) : Aside p A s s := ⟨.refl _, rfl, fun _ _ => rfl⟩

theorem trans (h : Aside p A s t) (k : Aside p A t u) : Aside p A s u :=
  ⟨h.time.trans k.time, k.view.trans h.view, fun a ha => (k.regs a ha).trans (h.regs a ha)⟩

/-- Registers left aside may be counted among more of them, and less may be shown. -/
theorem mono {q : View β} (h : Aside p A s t) (hAB : ∀ a, A a → B a) (f : α → β) (hq : ∀ x, q.part x = f (p.part x)) : Aside q B s t :=
  ⟨h.time, by rw [hq, hq, h.view], fun a ha => h.regs a (fun hA => ha (hAB a hA))⟩

theorem of_eq (h : Aside p A s t) (hr : u.regs = t.regs) (ht : u.time = t.time) (hv : p.part u = p.part t) : Aside p A s u :=
  h.trans ⟨ht ▸ .refl _, hv, fun a _ => rget_of_regs hr a⟩

theorem rset (h : Aside p A s t) {a : Nat} (ha : A a) (v : Word) : Aside p A s (t.rset a v) :=
  h.trans ⟨.refl _, p.blind t _ _, fun b hb => rget_rset_ne t (fun e : a = b => hb (e ▸ ha)) v⟩

theorem rsetN (h : Aside p A s t) {a : Nat} (ha : A a) (n : Nat) : Aside p A s (t.rsetN a n) := h.rset ha _

theorem rset64 (h : Aside p A s t) {a : Nat} (ha : A a) (ha4 : A (a + 4)) (n : Nat) : Aside p A s (t.rset64 a n) := (h.rsetN ha _).rsetN ha4 _

theorem fset (h : Aside p A s t) {f : Reg.Fld} (hf : A f.addr) (n : Nat) : Aside p A s (t.fset f n) := h.rset hf _

theorem fsetB (h : Aside p A s t) {f : Reg.Fld} (hf : A f.addr) (b : Bool) : Aside p A s (t.fsetB f b) := h.fset hf _

theorem bump (h : Aside p A s t) {f : Reg.Fld} (hf : A f.addr) : Aside p A s (t.bump f) := h.fset hf _

theorem evt (h : Aside p A s t) {f : Reg.Fld} (hf : A f.addr) : Aside p A s (t.evt f) :=
  h.trans ⟨.noteEvt .., p.blind t _ _, fun b hb => rget_evt_ne t f (fun e : f.addr = b => hb (e ▸ hf))⟩

theorem ite {c : Prop} [Decidable c] (h : Aside p A s t) (k : Aside p A s u) : Aside p A s (if c then t else u) := by
  split <;> assumption

theorem foldl {γ : Type} {f : State → γ → State} (l : List γ) (h : Aside p A s t) (hf : ∀ x, Aside p A s x → ∀ a ∈ l, Aside p A s (f x a)) :
    Aside p A s (l.foldl f t) := by
  induction l generalizing t with
  | nil => exact h
  | cons a l ih => exact ih (hf t h a List.mem_cons_self) (fun x hx b hb => hf x hx b (List.mem_cons_of_mem _ hb))

theorem now (h : Aside p A s t) : t.now = s.now := h.time.of TimeS.stu (fun _ _ => rfl)

theorem tick (h : Aside p A s t) : t.time.tick = s.time.tick := h.time.of TimeS.tick (fun _ _ => rfl)

theorem fget (h : Aside p A s t) {f : Reg.Fld} (hf : ¬ A f.addr) : t.fget f = s.fget f := by
  rw [State.fget, h.regs _ hf, State.fget]

theorem flag (h : Aside p A s t) {f : Reg.Fld} (hf : ¬ A f.addr) : t.flag f = s.flag f := congrArg (· != 0) (h.fget hf)

theorem rget64 (h : Aside p A s t) {a : Nat} (ha : ¬ A a) (ha4 : ¬ A (a + 4)) : t.rget64 a = s.rget64 a := rget64_of_rget (h.regs _ ha) (h.regs _ ha4)

end Aside

end Sys2Proof.Proofs
end

section
/-!
What the report of a fault leaves alone: its entry in the log, its snapshot and the causes of both.
-/

namespace Sys2Proof.Proofs

open Sys2Proof Sys2Proof.Machine Sys2Proof.Laws

/-! ## The oscillator of the backup domain -/

theorem osc_eq (s : State) (r : Nat) : ∃ b, s.osc r = { s with bkp := b } := by
  unfold State.osc
  dsimp only
  split
  · exact ⟨s.bkp, rfl⟩
  · exact ⟨_, rfl⟩

theorem oscGo_eq (s : State) : ∃ b n, s.oscGo = { s with bkp := b, free := n } := by
  obtain ⟨b, hb⟩ := osc_eq s.pulses.2 (s.bkp.raw + s.pulses.1)
  exact ⟨b, s.free + 1, hb⟩

/-- The domain's oscillator moves its own count on and nothing else (R441). -/
theorem oscGo_aside {α : Type} {p : View α} {A : Nat → Prop} (s : State) (hp : ∀ (x : State) b n, p.part { x with bkp := b, free := n } = p.part x) :
    Aside p A s s.oscGo := by
  obtain ⟨b, n, h⟩ := oscGo_eq s
  rw [h]
  exact (Aside.refl s).of_eq rfl rfl (hp s b n)

/-! ## Causes of the hosts -/

/-- What the report of a fault leaves alone, beside registers. -/
def reportView : View (ClockS × BootS × FstS × List (Nat × ContextS) × WitS × Bool) := ⟨fun s => (s.clk, s.boot, s.fst, s.ctxs, s.wit, s.host.bound), fun _ _ _ => rfl⟩

/-- The registers that a fault's report shows in: FST_OP, the hosts' instances, the snapshot's, and those of the fault log. -/
def ReportReg (l : List (Nat × ContextS)) (a : Nat) : Prop :=
  a = Reg.FST_OP ∨ 0xD0000 ≤ a ∧ a < 0xE0000 ∨ 0x2000000 ≤ a ∨ 0x100000 ≤ a ∧ a < 0x120000 ∧ a ≠ Reg.FLT_RSTCAUSE ∧ a ≠ Reg.FLT_RSTSTU ∨
    ∃ p ∈ l, a = Reg.SNP_LASTOUT_LO p.1 ∨ a = Reg.SNP_LASTOUT_LO p.1 + 4

theorem reportReg_snp {l : List (Nat × ContextS)} {a : Nat} (h : 0x100000 ≤ a) (h' : a < 0x110000) : ReportReg l a := by
  simp only [ReportReg, Reg.FLT_RSTCAUSE, Reg.FLT_RSTSTU]
  omega

theorem reportReg_icause {l : List (Nat × ContextS)} (t : Nat) : ReportReg l (Reg.HST_ICAUSE t) := by
  simp only [ReportReg, Reg.HST_ICAUSE]
  omega

/-- The registers below the flash store's are not among them, nor are its own but FST_OP, nor those of the backup domain. -/
theorem not_reportReg {l : List (Nat × ContextS)} {a : Nat} (h : a < 0xD0000 ∨ 0xE0000 ≤ a ∧ a < 0x100000) (hop : a ≠ Reg.FST_OP) : ¬ ReportReg l a := by
  rintro (h1 | h1 | h1 | h1 | ⟨p, -, h1⟩)
  · exact hop h1
  · omega
  · omega
  · omega
  · simp only [Reg.SNP_LASTOUT_LO] at h1
    omega

section

variable {l : List (Nat × ContextS)} {s t : State}

theorem Aside.cause (h : Aside reportView (ReportReg l) s t) (k : Nat) {f : Reg.Fld} (hf : ReportReg l f.addr) : Aside reportView (ReportReg l) s (t.cause k f) := by
  unfold State.cause
  extract_lets was s1 en s2 s3
  have h1 : Aside reportView (ReportReg l) s s1 := h.evt hf
  have h2 : Aside reportView (ReportReg l) s s2 := .ite (h1.of_eq rfl rfl rfl) h1
  have h3 : Aside reportView (ReportReg l) s s3 := .ite (h2.of_eq rfl rfl rfl) h2
  exact h3.of_eq rfl rfl rfl

theorem Aside.causes (h : Aside reportView (ReportReg l) s t) (ks : List Nat) {f : Nat → Reg.Fld} (hf : ∀ k, ReportReg l (f k).addr) :
    Aside reportView (ReportReg l) s (t.causes ks f) :=
  h.foldl _ fun _ hx k _ => hx.cause k (hf k)

/-! ## Snapshots (R458 to R463) -/

theorem Aside.free1 {α : Type} {p : View α} {A : Nat → Prop} (h : Aside p A s t) (hp : ∀ (x : State) n, p.part { x with free := n } = p.part x) :
    Aside p A s t.free1.2 :=
  h.of_eq rfl rfl (hp t _)

theorem reportView_free (x : State) (n : Nat) : reportView.part { x with free := n } = reportView.part x := rfl

theorem Aside.showOp (h : Aside reportView (ReportReg l) s t) : Aside reportView (ReportReg l) s t.showOp := by
  unfold State.showOp
  dsimp only
  split
  · exact (h.free1 reportView_free).rsetN (.inl rfl) _
  · exact h.rsetN (.inl rfl) _

theorem snapCopies_aside (s : State) : Aside reportView (ReportReg s.ctxs) s s.snapCopies := by
  unfold State.snapCopies
  dsimp only
  have h1 : Aside reportView (ReportReg s.ctxs) s ((List.range 3).foldl (fun (x : State) c => x.rset (Reg.SNP_FE c) (s.snapFe c)) s) :=
    (Aside.refl s).foldl _ fun x hx c hc => hx.rset (by
      have := List.mem_range.mp hc
      exact reportReg_snp (by unfold Reg.SNP_FE; omega) (by unfold Reg.SNP_FE; omega)) _
  refine (h1.foldl _ fun x hx e he => hx.rset (by
      have := List.mem_range.mp he
      exact reportReg_snp (by unfold Reg.SNP_SE; omega) (by unfold Reg.SNP_SE; omega)) _).foldl _ fun x hx p hp => ?_
  have hlo : ReportReg s.ctxs (Reg.SNP_LASTOUT_LO p.1) := .inr (.inr (.inr (.inr ⟨p, hp, .inl rfl⟩)))
  have hhi : ReportReg s.ctxs (Reg.SNP_LASTOUT_LO p.1 + 4) := .inr (.inr (.inr (.inr ⟨p, hp, .inr rfl⟩)))
  exact hx.rset64 hlo hhi _

theorem snapLatch_aside (s : State) (src ctx u : Nat) : Aside reportView (ReportReg s.ctxs) s (s.snapLatch src ctx u) := by
  have snp {a : Nat} (h : 0x100000 ≤ a) (h' : a < 0x110000) : ReportReg s.ctxs a := reportReg_snp h h'
  unfold State.snapLatch
  extract_lets s1
  have h1 : Aside reportView (ReportReg s.ctxs) s s1 :=
    (((snapCopies_aside s).rset64 (snp (by decide) (by decide)) (snp (by decide) (by decide)) _).rset64
      (snp (by decide) (by decide)) (snp (by decide) (by decide)) _).rset64 (snp (by decide) (by decide)) (snp (by decide) (by decide)) _
  clear_value s1
  have h1b : Aside reportView (ReportReg s.ctxs) s s1.energySoFar.2 := h1.free1 reportView_free
  generalize s1.energySoFar = q at h1b ⊢
  obtain ⟨e, s1b⟩ := q
  dsimp -zeta only
  extract_lets s2 s2b s3 ambig s3b count s4 s5 s6 s7
  have h2 : Aside reportView (ReportReg s.ctxs) s s2 := (h1b.fset (snp (by decide) (by decide)) _).fset (snp (by decide) (by decide)) _
  clear_value s2
  have h2b : Aside reportView (ReportReg s.ctxs) s s2b := h2.showOp
  clear_value s2b
  have h3 : Aside reportView (ReportReg s.ctxs) s s3 := (h2b.rset (snp (by decide) (by decide)) _).rset (snp (by decide) (by decide)) _
  clear_value s3
  have hB : Aside reportView (ReportReg s.ctxs) s s3.free1.2.free1.2 := (h3.free1 reportView_free).free1 reportView_free
  have h3b : Aside reportView (ReportReg s.ctxs) s s3b := hB.trans (oscGo_aside _ fun _ _ _ => rfl)
  clear_value s3b
  have h4 : Aside reportView (ReportReg s.ctxs) s s4 :=
    ((h3b.rset64 (snp (by decide) (by decide)) (snp (by decide) (by decide)) _).fset (snp (by decide) (by decide)) _).fsetB
      (snp (by decide) (by decide)) _
  clear_value s4
  have h6 : Aside reportView (ReportReg s.ctxs) s s6 :=
    ((((h4.fsetB (snp (by decide) (by decide)) _).evt (snp (by decide) (by decide))).bump (snp (by decide) (by decide))).rsetN
      (snp (by decide) (by decide)) _).fset (snp (by decide) (by decide)) _
  clear_value s6
  have h7 : Aside reportView (ReportReg s.ctxs) s s7 := .ite (h6.rset64 (snp (by decide) (by decide)) (snp (by decide) (by decide)) _) h6
  clear_value s7
  exact h7.causes _ reportReg_icause

theorem snapTrigger_aside (s : State) (src ctx u : Nat) : Aside reportView (ReportReg s.ctxs) s (s.snapTrigger src ctx u) := by
  have snp {a : Nat} (h : 0x100000 ≤ a) (h' : a < 0x110000) : ReportReg s.ctxs a := reportReg_snp h h'
  unfold State.snapTrigger
  split
  · exact snapLatch_aside ..
  · split
    · exact (Aside.ite (.refl s) ((Aside.refl s).fset (snp (by decide) (by decide)) _)).fset (snp (by decide) (by decide)) _
    · exact ((Aside.refl s).bump (snp (by decide) (by decide))).evt (snp (by decide) (by decide))

end

/-! ## The fault log (R479) -/

theorem faultAt_aside (s : State) (u fc unit ctx detail : Nat) : Aside reportView (ReportReg s.ctxs) s (s.faultAt u fc unit ctx detail) := by
  have flt {a : Nat} (h : 0x110000 ≤ a) (h' : a < 0x110014) : ReportReg s.ctxs a := by
    simp only [ReportReg, Reg.FLT_RSTCAUSE, Reg.FLT_RSTSTU]
    omega
  have hhead : ReportReg s.ctxs Reg.FLT_LOGHEAD := by simp [ReportReg, Reg.FLT_LOGHEAD, Reg.FLT_RSTCAUSE, Reg.FLT_RSTSTU]
  have hevt (c : Nat) : ReportReg s.ctxs (fltEvt c).addr := by
    unfold fltEvt
    split <;> exact flt (by decide) (by decide)
  have hcnt (c : Nat) : ReportReg s.ctxs (fltCnt c).addr := by
    unfold fltCnt
    split <;> exact flt (by decide) (by decide)
  unfold State.faultAt
  extract_lets cls i a s1 s2 s2b sn fl s3
  have ha : 0x110400 ≤ a := Nat.le_add_right_of_le (Nat.le_add_right ..)
  have ha16 : a < 0x110800 := by
    have : i < 64 := Nat.mod_lt _ (by decide)
    change 0x110400 + 0x10 * i + 0x4 * 0 < 0x110800
    omega
  have log {b : Nat} (h : 0x110400 ≤ b) (h' : b < 0x120000) : ReportReg s.ctxs b := by
    simp only [ReportReg, Reg.FLT_RSTCAUSE, Reg.FLT_RSTSTU]
    omega
  clear_value a
  have h1 : Aside reportView (ReportReg s.ctxs) s s1 :=
    (((Aside.refl s).rset64 (log (by omega) (by omega)) (log (by omega) (by omega)) _).rsetN (log (by omega) (by omega)) _).rsetN (log (by omega) (by omega)) _
  have h2 : Aside reportView (ReportReg s.ctxs) s s2 := (h1.rsetN hhead _).evt (hevt cls)
  have h3 : Aside reportView (ReportReg s.ctxs) s s3 := (h2.bump (hcnt cls)).of_eq rfl rfl rfl
  clear_value s3
  have hc : s3.ctxs = s.ctxs := congrArg (·.2.2.2.1) h3.view
  split
  · have k := snapTrigger_aside s3 (cls + 1) (if cls = 1 then ctx else 255) u
    rw [hc] at k
    exact h3.trans k
  · exact h3

theorem fault_aside (s : State) (fc unit ctx detail : Nat) : Aside reportView (ReportReg s.ctxs) s (s.fault fc unit ctx detail) := faultAt_aside ..

end Sys2Proof.Proofs
end

section
/-!
What voids, markers, notes and faults leave to the clocks: the synthesizers' state and every register below the front end's.
-/

namespace Sys2Proof.Proofs

open Sys2Proof Sys2Proof.Machine Sys2Proof.Laws

/-- The state of the synthesizers. -/
def clkView : View ClockS := ⟨State.clk, fun _ _ _ => rfl⟩

/-- The registers of the front end and of the blocks above it. -/
def PastClocks (a : Nat) : Prop := 0x40000 ≤ a

/-- From `s` to `t` the synthesizers, the time but for its note of events, and the registers of TOP, BOOT, TB and the synthesizers stay. -/
abbrev ClocksKept (s t : State) : Prop := Aside clkView PastClocks s t

theorem fault_clocksKept (s : State) (fc unit ctx detail : Nat) : ClocksKept s (s.fault fc unit ctx detail) := by
  refine (fault_aside s fc unit ctx detail).mono ?_ (·.1) (fun _ => rfl)
  rintro a (rfl | h | h | h | ⟨p, -, rfl | rfl⟩)
  · exact show 0x40000 ≤ Reg.FST_OP by decide
  all_goals simp only [PastClocks, Reg.SNP_LASTOUT_LO]; omega

namespace Aside

variable {s t : State}

theorem convMark (h : ClocksKept s t) (c : Nat) (m : Marker) : ClocksKept s (t.convMark c m) := by
  refine h.of_eq (convMark_regs ..) (convMark_time ..) ?_
  obtain ⟨l, hl⟩ := convMark_eq t c m
  rw [hl]
  split <;> rfl

theorem skipNote (h : ClocksKept s t) (u len : Nat) : ClocksKept s (t.skipNote u len) := by
  unfold State.skipNote
  split
  · exact h.of_eq rfl rfl rfl
  · exact h

/-- A change followed for raw capture is the change itself, beside its notes (R468). -/
theorem rawTrack {f : State → State} (h : ClocksKept s (f t)) (u : Nat) : ClocksKept s (t.rawTrack u f) := by
  obtain ⟨w, hw⟩ := rawTrack_eq t u f
  rw [hw]
  exact h.of_eq rfl rfl rfl

theorem chnMod (h : ClocksKept s t) (n : Nat) (f : ChainS → ChainS) : ClocksKept s (t.chnMod n f) := h.of_eq rfl rfl rfl

theorem showChn (h : ClocksKept s t) (n : Nat) : ClocksKept s (t.showChn n) := by
  have hstat : PastClocks (Reg.CHN_STAT n) := Nat.le_add_right_of_le (by decide)
  have hgain : PastClocks (Reg.CHN_AGCG n) := Nat.le_add_right_of_le (by decide)
  unfold State.showChn
  exact ((((((((h.fsetB hstat _).fset hstat _).fsetB hstat _).fsetB hstat _).fset hstat _).fsetB hstat _).fsetB hstat _).fsetB hstat _).fset hgain _

/-- A reset after a void (R117). -/
theorem chnReset_going (h : ClocksKept s t) (n b z : Nat) : ClocksKept s (t.chnReset n b z false true) := by
  have hsettle : PastClocks (Reg.CHN_SETTLE n) := Nat.le_add_right_of_le (by decide)
  unfold State.chnReset
  dsimp only
  rw [if_neg Bool.false_ne_true, if_pos rfl]
  exact ((h.chnMod n _).fset hsettle _).showChn n

theorem convVoidBegin (h : ClocksKept s t) (c : Nat) : ClocksKept s (t.convVoidBegin c) := by
  have hevt : PastClocks (Reg.FE_EVT c) := Nat.le_add_right_of_le (by decide)
  unfold State.convVoidBegin
  exact ((h.evt hevt).convMark c _).foldl _ fun _ hx n _ => (hx.chnMod n _).showChn n

theorem convVoidEnd (h : ClocksKept s t) (c b : Nat) : ClocksKept s (t.convVoidEnd c b) := by
  unfold State.convVoidEnd
  exact Aside.foldl _ (h.of_eq rfl rfl rfl) fun _ hx n _ => chnReset_going (hx.chnMod n _) ..

theorem voidBegin (h : ClocksKept s t) : ClocksKept s t.voidBegin := by
  unfold State.voidBegin
  refine h.foldl _ fun x hx c _ => ?_
  dsimp only
  split
  · exact hx.convVoidBegin c
  · exact hx

theorem voidEnd (h : ClocksKept s t) : ClocksKept s t.voidEnd := by
  unfold State.voidEnd
  refine h.foldl _ fun x hx c _ => ?_
  split
  · exact hx
  · exact hx.convVoidEnd c _

end Aside

end Sys2Proof.Proofs
end

section
/-!
The timebase in and out (chapter 2): the latches of a read, host claims, the evaluation, leap changes, PPS_IN and the two outputs.
-/

namespace Sys2Proof.Proofs

open Sys2Proof Sys2Proof.Machine Sys2Proof.Laws

/-! ## Reads of TB_STU_LO (R32) -/

theorem wordAt_stu (s : State) (p k : Nat) : s.wordAt p k Reg.TB_STU_LO = BitVec.ofNat 32 s.now := by
  have hctx : ctxWord Reg.TB_STU_LO = none := by decide
  have hsnp : s.snpHidden k Reg.TB_STU_LO = false := by simp [State.snpHidden, within, Reg.TB_STU_LO]
  have hotp : s.otpWord Reg.TB_STU_LO = none := by
    simp [State.otpWord, instOf, Reg.TB_STU_LO, Reg.TOP_DEVID_LO, Reg.TOP_DEVID_HI, Reg.BOOT_FWFLOOR, Reg.FE_ADLY]
  rw [State.wordAt, hctx, hsnp, hotp]
  simp [within, State.tbWord, Reg.TB_STU_LO]

/-- A read of TB_STU_LO gives its value and latches its tenant's copies (R32). -/
theorem execTbLatchRead_eq {s : State} {p : Fin 4} {k t : Nat} (h : s.Serves p k Reg.TB_STU_LO t) :
    execTbLatchRead p t s = .next (((s.at t).rdStu k).drive [BitVec.ofNat 32 (s.at t).now]) := by
  unfold execTbLatchRead
  dsimp only
  rw [if_pos h.serves, serves_read h, refresh_eq _ (by decide) (by decide)]
  dsimp only
  rw [wordAt_stu]
  rfl

theorem rdStu_latches {s : State} (hl : s.time.latches.length = 4) {k : Nat} (hk : k < 4) (j : Nat) :
    (s.rdStu k).time.latches.getD j {} = if j = k then {
      stuHi := BitVec.ofNat 32 (s.now / 2 ^ 32), tickLo := BitVec.ofNat 32 s.time.tick, tickHi := BitVec.ofNat 32 (s.time.tick / 2 ^ 32)
      secLo := BitVec.ofNat 32 (dtsSec (s.dts s.now)), secHi := BitVec.ofNat 32 (dtsSec (s.dts s.now) / 2 ^ 32), frac := BitVec.ofNat 32 (dtsFrac (s.dts s.now))
      qLo := s.qualLoAt s.now, qHi := s.qualHiAt s.now } else s.time.latches.getD j {} := by
  unfold State.rdStu
  dsimp only
  rw [timeMod_time, modifyAt_getD, hl]
  simp only [hk, and_true, eq_comm, Nat.reducePow]

theorem at_latches (s : State) (t : Nat) : (s.at t).time.latches = s.time.latches := by
  obtain ⟨u, h, -⟩ := at_eq s t
  rw [h]

theorem at_obs (s : State) (t : Nat) : (s.at t).time.obs = s.time.obs := by
  obtain ⟨u, h, -⟩ := at_eq s t
  rw [h]

theorem at_strays (s : State) (t : Nat) : (s.at t).time.strays = s.time.strays := by
  obtain ⟨u, h, -⟩ := at_eq s t
  rw [h]

/-! ## Host claims (R40) -/

/-- A plain write of a register changes that register alone. -/
theorem wr_eq (s : State) (a : Nat) (v : Word) : ∃ r, s.wr a v = { s with regs := r } ∧ ∀ b, b ≠ a → (s.wr a v).rget b = s.rget b := by
  unfold State.wr
  split
  · exact ⟨s.regs, rfl, fun _ _ => rfl⟩
  · exact ⟨_, rfl, fun b hb => rget_rset_ne s hb.symm _⟩

/-- A change of the class in use ends the run of rejecting evaluations and nothing else (R38). -/
theorem trackClass_eq (s : State) : ∃ n c, s.trackClass = { s with time := { s.time with rejRun := n, rejCls := c } } := by
  unfold State.trackClass
  split
  · exact ⟨s.time.rejRun, s.time.rejCls, rfl⟩
  · exact ⟨_, _, rfl⟩

/-- The observation that a claim in TB_HSET makes (R40). -/
def hostClaim (s : State) : Obs := {
  cls := .host, claim := ((s.rget64 Reg.TB_HSET_SEC_LO % 2 ^ 48 : Nat) : Rat) + (((s.rget Reg.TB_HSET_FRAC).toNat : Nat) : Rat) / 2 ^ 32
  epoch := s.rget64 Reg.TB_HSET_STU_LO, bound := (s.rget Reg.TB_HSET_UNC).toNat }

theorem hostLoad_refuses {s : State} (h : s.now < s.rget64 Reg.TB_HSET_STU_LO ∨ s.rget64 Reg.TB_HSET_STU_LO + 6144000000 < s.now) :
    s.hostLoad = s.evt Reg.TB_EVT_HOST_REJECT := if_pos h

theorem hostLoad_takes {s : State} (h : s.rget64 Reg.TB_HSET_STU_LO ≤ s.now) (h' : s.now ≤ s.rget64 Reg.TB_HSET_STU_LO + 6144000000) :
    s.hostLoad.time.obs = s.time.obs ++ [hostClaim s] := by
  have hin : ¬ (s.now < s.rget64 Reg.TB_HSET_STU_LO ∨ s.rget64 Reg.TB_HSET_STU_LO + secStu < s.now) := by
    unfold secStu
    omega
  unfold State.hostLoad
  dsimp only
  rw [if_neg hin]
  split
  · norm_num [hostClaim]
  · split <;> norm_num [hostClaim]

/-- TB_CTRL is written with HOST_LOAD set (R40). -/
theorem bitOf_withBits_31 (s : State) (a : Nat) : bitOf (s.withBits a 0x80000000).toNat 31 = true := by
  have h : (s.withBits a 0x80000000).getLsbD 31 = true := by
    rw [State.withBits, BitVec.getLsbD_or]
    simp
  rwa [BitVec.getLsbD, Nat.testBit_eq_decide_div_mod_eq] at h

/-- T0's write of TB_CTRL with HOST_LOAD: the write, then the claim, from a state whose TB_STU, observations and other registers are those before. -/
theorem execHostLoad_eq {s : State} {p : Fin 4} {t : Nat} (h : s.Serves p 0 Reg.TB_CTRL t) :
    ∃ x : State, execHostLoad p t s = .next x.hostLoad.trackClass ∧ x.now = (s.at t).now ∧ x.time.obs = s.time.obs ∧ ∀ a, a ≠ Reg.TB_CTRL → x.rget a = s.rget a := by
  have hw (v : Word) : (s.at t).wrWord p 0 Reg.TB_CTRL v = (s.at t).wrTbCtrl v := by
    have hctx : ctxWord Reg.TB_CTRL = none := by decide
    rw [State.wrWord, hctx]
    simp [within, Reg.TB_CTRL, State.wrShared]
  have hb := bitOf_withBits_31 s Reg.TB_CTRL
  unfold execHostLoad
  rw [serves_write h, hw]
  unfold State.wrTbCtrl
  dsimp only
  rw [if_pos hb]
  set v := if bitOf (s.withBits Reg.TB_CTRL 0x80000000).toNat 29 then putField (s.withBits Reg.TB_CTRL 0x80000000) 29 28 0 else s.withBits Reg.TB_CTRL 0x80000000
  obtain ⟨r, hr, hrget⟩ := wr_eq (s.at t) Reg.TB_CTRL v
  obtain ⟨n, c, hc⟩ := trackClass_eq ((s.at t).wr Reg.TB_CTRL v)
  refine ⟨_, rfl, ?_, ?_, fun a ha => ?_⟩
  · rw [hc, hr]
    rfl
  · rw [hc, hr]
    exact at_obs s t
  · rw [hc]
    exact (hrget a ha).trans (at_rget s t a)

end Sys2Proof.Proofs
end

section
/-!
The evaluation of the observations, leap changes, PPS_IN, PPS_OUT and TICK_OUT (chapter 2).
-/

namespace Sys2Proof.Proofs

open Sys2Proof Sys2Proof.Machine Sys2Proof.Laws

/-! ## The evaluation (R38) -/

/-- From `s` to `t` the observations that wait and the tick of the last evaluation stay. -/
structure ObsKept (s t : State) : Prop where
  obs : t.time.obs = s.time.obs
  lastEval : t.time.lastEval = s.time.lastEval

namespace ObsKept

variable {s t u : State}

theorem refl (s : State) : ObsKept s s := ⟨rfl, rfl⟩

theorem trans (h : ObsKept s t) (k : ObsKept t u) : ObsKept s u := ⟨k.obs.trans h.obs, k.lastEval.trans h.lastEval⟩

theorem of_time (h : t.time = s.time) : ObsKept s t := ⟨congrArg _ h, congrArg _ h⟩

theorem evt (h : ObsKept s t) (f : Reg.Fld) : ObsKept s (t.evt f) := ⟨h.obs, h.lastEval⟩

theorem fset (h : ObsKept s t) (f : Reg.Fld) (n : Nat) : ObsKept s (t.fset f n) := ⟨h.obs, h.lastEval⟩

theorem fsetB (h : ObsKept s t) (f : Reg.Fld) (b : Bool) : ObsKept s (t.fsetB f b) := ⟨h.obs, h.lastEval⟩

theorem rsetN (h : ObsKept s t) (a n : Nat) : ObsKept s (t.rsetN a n) := ⟨h.obs, h.lastEval⟩

theorem timeMod (h : ObsKept s t) (f : TimeS → TimeS) (ho : ∀ x, (f x).obs = x.obs := by intro _; rfl)
    (hl : ∀ x, (f x).lastEval = x.lastEval := by intro _; rfl) : ObsKept s (t.timeMod f) :=
  ⟨(ho _).trans h.obs, (hl _).trans h.lastEval⟩

theorem ite {c : Prop} [Decidable c] (h : ObsKept s t) (k : ObsKept s u) : ObsKept s (if c then t else u) := by
  split <;> assumption

end ObsKept

theorem rejectObs_obsKept (s : State) (n : Nat) : ObsKept s (s.rejectObs n) :=
  .ite (.refl s) (((ObsKept.refl s).timeMod _).evt _)

theorem takeUtc_obsKept (s : State) (l : List Obs) : ObsKept s (s.takeUtc l) := by
  unfold State.takeUtc
  extract_lets us
  clear_value us
  split
  · exact .refl s
  next u _ _ =>
    extract_lets ch same s1 s2
    have h1 : ObsKept s s1 := ((((ObsKept.refl s).fset _ _).fset _ _).fset _ _).fsetB _ _
    have h2 : ObsKept s s2 := (h1.rsetN _ _).timeMod _
    exact .ite (.ite (.refl s) (.ite (h2.evt _) h2)) (.refl s)

theorem stage_obsKept (s : State) (r : WitRec) : ObsKept s (s.stage r) := by
  unfold State.stage State.showWit
  exact (((((ObsKept.of_time (witMod_time s _)).fset _ _).fsetB _ _).fsetB _ _).fset _ _).fsetB _ _

theorem witStep_obsKept (s : State) (d : Rat) (src used : Nat) : ObsKept s (s.witStep d src used) := .ite (.refl s) (stage_obsKept ..)

theorem oscGo_obsKept (s : State) : ObsKept s s.oscGo := by
  obtain ⟨b, n, h⟩ := oscGo_eq s
  rw [h]
  exact ⟨rfl, rfl⟩

theorem bkpWantDisc_obsKept (s : State) : ObsKept s s.bkpWantDisc :=
  .ite (.ite (.refl s) (((oscGo_obsKept s).trans (.of_time (bkpMod_time ..))).fsetB _ _)) (.refl s)

theorem correct_obsKept (s : State) (c : TimeClass) (l : List Obs) : ObsKept s (s.correct c l) := by
  unfold State.correct
  extract_lets w d t r here k step ppm base a t1 s1
  have h0 : ObsKept s { s with time := t1 } := ⟨rfl, rfl⟩
  have h1 : ObsKept s s1 := h0.fset _ _
  clear_value s1
  have hj : ObsKept s s1.ppsRejudge := by
    unfold State.ppsRejudge
    exact h1.timeMod _
  exact .ite (.refl s) (.ite (((hj.evt _).trans (witStep_obsKept ..)).trans (bkpWantDisc_obsKept _)) h1)

theorem correctBy_obsKept (s : State) (c : Option TimeClass) (l : TimeClass → List Obs) :
    ObsKept s (match c with | some c => s.correct c (l c) | none => s) := by
  split
  · exact correct_obsKept ..
  · exact .refl s

/-- The evaluation takes every observation that waits (R38). -/
theorem evaluate_takes (s : State) : s.evaluate.time.obs = [] ∧ s.evaluate.time.lastEval = s.time.tick := by
  unfold State.evaluate
  extract_lets l good bad s1 cls mine won same run take s2 good' rej s3 s4 s5 s6 s7 off
  have h2 : s2.time.obs = [] ∧ s2.time.lastEval = s.time.tick := ⟨rfl, rfl⟩
  clear_value s2
  have h4 : ObsKept s2 s4 := (rejectObs_obsKept ..).trans (takeUtc_obsKept ..)
  clear_value s4
  have h5 : ObsKept s2 s5 := h4.trans (correctBy_obsKept s4 cls (fun c => good'.filter (fun o => o.cls == c)))
  clear_value s5
  have h6 : ObsKept s2 s6 := .ite (h5.timeMod _) h5
  clear_value s6
  have h7 : ObsKept s2 s7 := h6.trans (oscGo_obsKept s6)
  clear_value s7
  have h := ObsKept.ite (c := (s7.rtcKept && decide (2 < absQ off) && !s7.bkp.inflight.any (fun w => w.1 == .disc)) = true)
    (h7.trans (bkpWantDisc_obsKept s7)) h7
  exact ⟨h.obs.trans h2.1, h.lastEval.trans h2.2⟩

theorem execDisciplineEvaluation_takes {s : State} (h : s.time.tick % 3000 = 0) (hne : s.time.lastEval ≠ s.time.tick) :
    ∃ u : State, execDisciplineEvaluation s = .next u ∧ u.time.obs = [] ∧ u.time.lastEval = s.time.tick := by
  obtain ⟨ho, he⟩ := evaluate_takes (s.at (s.time.tick * tickStu))
  refine ⟨_, rfl, ?_⟩
  rw [if_pos ⟨h, hne⟩]
  exact ⟨ho, he.trans (at_tick ..)⟩

/-! ## Leap changes (R36) -/

/-- The pending change adds a second where DELTA is 1 and takes one where it is 3. -/
theorem execLeapChange_changes {s : State} (hp : s.flag Reg.TB_UTC_PEND = true) (hd : s.fget Reg.TB_UTC_DELTA = 1 ∨ s.fget Reg.TB_UTC_DELTA = 3) :
    ∃ u : State, execLeapChange s = .next u ∧ u.flag Reg.TB_UTC_PEND = false ∧ u.flag Reg.TB_EVT_UTC_CHANGE = true ∧
      u.time = (s.at (s.stuOfDts (s.leapSec : Rat))).time.noteEvt Reg.TB_EVT_UTC_CHANGE ∧
      u.fget Reg.TB_UTC_OFS = (s.fget Reg.TB_UTC_OFS + if s.fget Reg.TB_UTC_DELTA = 1 then 1 else 65535) % 65536 := by
  obtain ⟨x, hx⟩ : ∃ x, x = (s.at (s.stuOfDts (s.leapSec : Rat))).fsetB Reg.TB_UTC_PEND false := ⟨_, rfl⟩
  have hdelta : x.fget Reg.TB_UTC_DELTA = s.fget Reg.TB_UTC_DELTA := by rw [hx, fget_fsetB_fldApart _ _ (by decide), at_fget]
  have hofs : x.fget Reg.TB_UTC_OFS = s.fget Reg.TB_UTC_OFS := by rw [hx, fget_fsetB_fldApart _ _ (by decide), at_fget]
  have hpend : x.flag Reg.TB_UTC_PEND = false := by rw [hx, flag_fsetB_same _ _ _ rfl (by decide)]
  have htime : x.time = (s.at (s.stuOfDts (s.leapSec : Rat))).time := by rw [hx, fsetB_time]
  have hexec : execLeapChange s = .next ((x.fset Reg.TB_UTC_OFS (s.fget Reg.TB_UTC_OFS + if s.fget Reg.TB_UTC_DELTA = 1 then 1 else 65535)).evt
      Reg.TB_EVT_UTC_CHANGE) := by
    unfold execLeapChange
    dsimp only
    rw [← hx, hdelta, hofs, hp]
    rcases hd with hd | hd <;> simp [hd]
  refine ⟨_, hexec, ?_, flag_evt_same _ _ rfl (by decide), ?_, ?_⟩
  · rw [flag_evt_fldApart _ (by decide), flag_fset_fldApart _ _ (by decide), hpend]
  · rw [evt_time, fset_time, htime]
  · rw [fget_evt_fldApart _ (by decide), fget_fset _ _ _ (by decide) (by decide)]
    rfl

/-! ## PPS_IN (R43) -/

/-- The search for a stu depends on DTS alone. -/
theorem firstStuFrom_congr {s t : State} (h : ∀ u, t.dts u = s.dts u) (q : Rat) (n lo : Nat) : t.firstStuFrom q n lo = s.firstStuFrom q n lo := by
  induction n generalizing lo with
  | zero => rfl
  | succ n ih => simp only [State.firstStuFrom, h, ih]

theorem ppsIn_congr {s t : State} (h : ∀ u, t.dts u = s.dts u) (hr : t.regs = s.regs) (u : Nat) : t.ppsIn u = s.ppsIn u := by
  have hsec (n : Nat) : t.secStuNear n u = s.secStuNear n u := firstStuFrom_congr h ..
  have hwin : t.ppsWin = s.ppsWin := by rw [State.ppsWin, fget_of_regs hr, State.ppsWin]
  unfold State.ppsIn
  dsimp only
  rw [h, hsec, hwin]

theorem zeroAs1_eq_max (n : Nat) : zeroAs1 n = max 1 n := by
  unfold zeroAs1
  split <;> omega

theorem clampN_eq {lo hi : Nat} (n : Nat) (h : lo ≤ hi) : clampN lo hi n = max lo (min hi n) := by
  unfold clampN
  split
  · omega
  · split <;> omega

theorem satS_eq (w : Nat) (i : Int) : satS w i = max (-((2 ^ (w - 1) : Nat) : Int)) (min (((2 ^ (w - 1) : Nat) : Int) - 1) i) := by
  have := Nat.two_pow_pos (w - 1)
  unfold satS
  dsimp only
  split
  · omega
  · split <;> omega

theorem ofNat_code (w : Nat) (i : Int) : BitVec.ofNat w (code w i) = BitVec.ofInt w i := by
  have h0 : ((2 ^ w : Nat) : Int) ≠ 0 := by positivity
  have h : code w i < 2 ^ w := by
    have := Int.emod_lt_of_pos i (by positivity : (0 : Int) < ((2 ^ w : Nat) : Int))
    have := Int.emod_nonneg i h0
    unfold code
    omega
  apply BitVec.eq_of_toNat_eq
  rw [BitVec.toNat_ofNat, BitVec.toNat_ofInt, Nat.mod_eq_of_lt h, code]

/-- The second of an edge and the stu at which DTS reaches it (R43). -/
def edgeSecond (s : State) (u : Nat) : Nat := (roundAway (s.dts u)).toNat

/-- The edge at `u` lies in its second's window. -/
def EdgeInside (s : State) (u : Nat) : Prop :=
  let top := s.secStuNear (edgeSecond s u) u
  top ≤ u + 61440 * max 1 (s.fget Reg.TB_PPS_CTRL_WIN) ∧ u ≤ top + 61440 * max 1 (s.fget Reg.TB_PPS_CTRL_WIN)

theorem ppsIn_inside {s : State} {u : Nat} (h : EdgeInside s u) : s.ppsIn u = some (edgeSecond s u) := by
  refine if_pos ?_
  rw [State.ppsWin, zeroAs1_eq_max]
  exact h

theorem ppsIn_outside {s : State} {u : Nat} (h : ¬ EdgeInside s u) : s.ppsIn u = none := by
  refine if_neg ?_
  rw [State.ppsWin, zeroAs1_eq_max]
  exact h

/-- What PPS_EDGE reads of the timebase the class in use does not change. -/
theorem trackClass_reads (s : State) : s.trackClass.regs = s.regs ∧ s.trackClass.now = s.now ∧ s.trackClass.stamp = s.stamp ∧ (∀ u, s.trackClass.dts u = s.dts u) ∧
    s.trackClass.time.obs = s.time.obs ∧ s.trackClass.time.strays = s.time.strays := by
  obtain ⟨n, c, h⟩ := trackClass_eq s
  rw [h]
  exact ⟨rfl, rfl, rfl, fun _ => rfl, rfl, rfl⟩

theorem stamp_le_now (s : State) : s.stamp ≤ s.now := by
  unfold State.stamp State.stampOf
  split
  · exact Nat.div_mul_le_self ..
  · exact Nat.le_refl _

/-- With the cross-check off an accepted edge is not judged (R44). -/
theorem spoofCheck_off {s : State} (h : s.flag Reg.TB_CTRL_PPS_XCHK = false) (e : Int) : s.spoofCheck e = s := by
  unfold State.spoofCheck
  rw [h]
  rfl

/-- An edge of the other polarity does nothing. -/
theorem execPpsEdge_other {s : State} {falling : Bool} (h : s.flag Reg.TB_PPS_CTRL_EDGE ≠ falling) (t : Nat) :
    execPpsEdge falling t s = .next (s.at t).trackClass := by
  obtain ⟨hr, -⟩ := trackClass_reads (s.at t)
  unfold execPpsEdge
  dsimp only
  rw [if_pos]
  rwa [flag_of_regs hr, at_flag]

theorem execPpsEdge_stray {s : State} {falling : Bool} {t : Nat} (h : s.flag Reg.TB_PPS_CTRL_EDGE = falling) (hout : ¬ EdgeInside (s.at t) (s.at t).stamp) :
    execPpsEdge falling t s = .next (((s.at t).trackClass.timeMod (fun x => { x with strays := x.strays + 1 })).evt Reg.TB_EVT_PPS_STRAY) := by
  obtain ⟨hr, -, hstamp, hdts, -⟩ := trackClass_reads (s.at t)
  have hin : (s.at t).trackClass.ppsIn (s.at t).trackClass.stamp = none := by rw [hstamp, ppsIn_congr hdts hr, ppsIn_outside hout]
  unfold execPpsEdge
  dsimp only
  rw [if_neg (by rw [flag_of_regs hr, at_flag, h]; exact not_not_intro rfl), hin]

/-- An accepted edge shows its stu and its error and becomes an observation that claims its second (R43). -/
theorem execPpsEdge_accepted {s : State} {falling : Bool} {t : Nat} (h : s.flag Reg.TB_PPS_CTRL_EDGE = falling) (hx : s.flag Reg.TB_CTRL_PPS_XCHK = false)
    (hin : EdgeInside (s.at t) (s.at t).stamp) (hnow : (s.at t).now < 2 ^ 64) :
    let edge := (s.at t).stamp
    let n := edgeSecond (s.at t) edge
    ∃ (u : State) (o : Obs), execPpsEdge falling t s = .next u ∧ u.rget64 Reg.TB_PPS_STU_LO = edge ∧
      u.rget Reg.TB_PPS_ERR = BitVec.ofInt 32 (max (-(2 ^ 31)) (min (2 ^ 31 - 1) (roundAway (((n : Rat) - (s.at t).dts edge) * 1000000000)))) ∧
      u.time.obs = s.time.obs ++ [o] ∧ o.cls = .pps ∧ o.claim = (n : Rat) ∧ o.epoch = edge := by
  intro edge n
  obtain ⟨hr, -, hstamp, hdts, hobs, -⟩ := trackClass_reads (s.at t)
  let x := (s.at t).trackClass
  let e := satS 32 (roundAway (((n : Rat) - x.dts edge) * 1000000000))
  let z := (((x.rset64 Reg.TB_PPS_STU_LO edge).rsetN Reg.TB_PPS_ERR (code 32 e)).timeMod (fun v => { v with
    ppsHist := (v.ppsHist ++ [edge]).filter (fun w => decide (x.now ≤ w + 12 * secStu)), ppsSecond := n
    obs := v.obs ++ [{ cls := .pps, claim := (n : Rat), epoch := edge, bound := Config.ppsBound }] }))
  have hz : execPpsEdge falling t s = .next z.trackClass := by
    have hp : x.ppsIn x.stamp = some n := by rw [hstamp, ppsIn_congr hdts hr, ppsIn_inside hin]
    have hflag : z.flag Reg.TB_CTRL_PPS_XCHK = false := by
      change (((x.rset64 Reg.TB_PPS_STU_LO edge).rsetN Reg.TB_PPS_ERR (code 32 e))).flag _ = _
      rw [flag_rsetN_ne _ _ (by decide), flag_rset64_ne _ _ (by decide) (by decide), flag_of_regs hr, at_flag, hx]
    unfold execPpsEdge
    dsimp only
    rw [if_neg (by rw [flag_of_regs hr, at_flag, h]; exact not_not_intro rfl), hp]
    change Host.Outcome.next ((State.spoofCheck _ _).trackClass) = _
    rw [hstamp]
    exact congrArg (fun v => Host.Outcome.next v.trackClass) (spoofCheck_off hflag e)
  obtain ⟨hzr, -, -, -, hzobs, -⟩ := trackClass_reads z
  refine ⟨_, _, hz, ?_, ?_, hzobs.trans (congrArg (· ++ _) (hobs.trans (at_obs s t))), rfl, rfl, rfl⟩
  · have hedge : edge < 2 ^ 64 := Nat.lt_of_le_of_lt (stamp_le_now _) hnow
    have hlo : (x.rset64 Reg.TB_PPS_STU_LO edge).rget64 Reg.TB_PPS_STU_LO = edge := rget64_rset64 x _ _ hedge
    refine (rget64_of_rget ?_ ?_).trans hlo <;> rw [rget_of_regs hzr] <;> exact rget_rset_ne _ (by decide) _
  · rw [rget_of_regs hzr]
    refine (rget_rset_same ..).trans ?_
    rw [ofNat_code]
    change BitVec.ofInt 32 (satS 32 _) = _
    rw [satS_eq, hdts]
    rfl

/-- A window that ends without an edge is missed (R43). -/
theorem execPpsWindowEnd_missed (s : State) :
    ∃ u : State, execPpsWindowEnd s = .next u ∧ u.flag Reg.TB_EVT_PPS_MISSED = true ∧ s.time.ppsSecond < u.time.ppsSecond :=
  ⟨_, rfl, flag_evt_same _ _ rfl (by decide), Nat.le_max_left ..⟩

/-! ## Outputs (R45, R46) -/

/-- What PPS_OUT does once second `n` is reached (R45). -/
def pulsed (s : State) (n : Nat) : State :=
  let x := s.timeMod (fun t => { t with ppsOutSecond := n })
  let ok := x.fget Reg.TB_PPSO_CTRL_MODE == 1 || (x.fget Reg.TB_PPSO_CTRL_MODE == 2 && x.fget Reg.TB_QUAL_HI_SRC != 0 &&
    decide (x.uncNs x.now ≤ 10 * x.fget Reg.TB_PPSO_CTRL_QLIM))
  let near := match x.time.ppsRise with
    | some u => x.time.stepped && decide (x.now < u + secStu / 2)
    | none => false
  if ok && !near then x.timeMod (fun t => { t with ppsOut := true, ppsRise := some x.now, stepped := false }) else x

theorem pulsed_rises {s : State} (hm : s.fget Reg.TB_PPSO_CTRL_MODE = 1) (hs : s.time.stepped = false) (n : Nat) :
    pulsed s n = s.timeMod (fun t => { t with ppsOutSecond := n, ppsOut := true, ppsRise := some s.now, stepped := false }) := by
  have hm' : (s.timeMod (fun t => { t with ppsOutSecond := n })).fget Reg.TB_PPSO_CTRL_MODE = 1 := hm
  unfold pulsed
  dsimp only
  rw [hm', timeMod_time, hs, if_pos]
  · rfl
  · split <;> rfl

/-- In mode 1 PPS_OUT rises at the next whole second, unless DTS has stepped since the last rise (R45). -/
theorem execPpsOutRise_rises {s : State} (hm : s.fget Reg.TB_PPSO_CTRL_MODE = 1) (hs : s.time.stepped = false) :
    let sec := (s.dts s.now).floor.toNat + 1
    let top := s.at (s.stuOfDts (sec : Rat))
    execPpsOutRise s = .next (top.timeMod (fun t => { t with ppsOutSecond := sec, ppsOut := true, ppsRise := some top.now, stepped := false })) := by
  intro sec top
  have hmode : top.fget Reg.TB_PPSO_CTRL_MODE = 1 := (at_fget ..).trans hm
  have hstep : top.time.stepped = false := by
    obtain ⟨v, hv, -⟩ := at_eq s (s.stuOfDts (sec : Rat))
    exact (congrArg (fun x : State => x.time.stepped) hv).trans hs
  change Host.Outcome.next (pulsed top sec) = _
  rw [pulsed_rises hmode hstep]

/-- PPS_OUT falls WIDTH ms after its rise (R45). -/
theorem execPpsOutFall_falls {s : State} {r : Nat} (h : s.time.ppsOut = true) (hr : s.time.ppsRise = some r) :
    execPpsOutFall s = .next ((s.at (r + max 1 (min 200 (s.fget Reg.TB_PPSO_CTRL_WIDTH)) * 6144000)).timeMod (fun t => { t with ppsOut := false })) := by
  unfold execPpsOutFall
  rw [h, hr]
  dsimp only
  rw [clampN_eq _ (by decide)]

/-- TICK_OUT falls WIDTH rc after its rise, or 1 rc before the next pulse (R46). -/
theorem execTickOutFall_falls {s : State} (h : s.time.tickOut = true) :
    execTickOutFall s = .next ((s.at (s.time.tickOutRise +
      min (160 * max 1 (s.fget Reg.TB_TICKO_CTRL_WIDTH)) (max 1 (min 3000 (s.fget Reg.TB_TICKO_CTRL_DIV)) * 2048000 - 160))).timeMod (fun t => { t with tickOut := false })) := by
  unfold execTickOutFall
  rw [h, State.tickDiv, clampN_eq _ (by decide), zeroAs1_eq_max]
  rfl

/-- Settles O34: each clause is the rule of its command above. -/
theorem timebaseInAndOut : Obligations.TimebaseInAndOut := by
  intro s p falling k t y a edge win n top1 inside err leap sec top
  have hedge : EdgeInside y edge = inside := by
    unfold EdgeInside
    rw [at_fget]
    rfl
  refine ⟨fun h hl hk => ?_, fun h hle hge => ?_, fun h hout => ?_, execDisciplineEvaluation_takes, execLeapChange_changes, ?_, fun h hout => ?_,
    fun h => ?_, execPpsWindowEnd_missed s, fun hm hs => ?_, fun r h hr => ?_, fun h => ?_⟩
  · refine ⟨_, execTbLatchRead_eq h, rfl, at_regs .., fun j => ?_⟩
    have hlatch := rdStu_latches (s := y) ((congrArg _ (at_latches s t)).trans hl) hk j
    rw [at_tick, at_latches] at hlatch
    exact hlatch
  · obtain ⟨x, hx, hnow, hobs, hreg⟩ := execHostLoad_eq h
    have ha : x.rget64 Reg.TB_HSET_STU_LO = a := rget64_of_rget (hreg _ (by decide)) (hreg _ (by decide))
    obtain ⟨-, -, -, -, htrack, -⟩ := trackClass_reads x.hostLoad
    refine ⟨_, hostClaim x, hx, ?_, rfl, ha, ?_, ?_⟩
    · rw [htrack, hostLoad_takes (by rw [ha, hnow]; exact hle) (by rw [ha, hnow]; exact hge), hobs]
    · exact congrArg BitVec.toNat (hreg _ (by decide))
    · change ((x.rget64 _ % 2 ^ 48 : Nat) : Rat) + (((x.rget _).toNat : Nat) : Rat) / 2 ^ 32 = _
      rw [rget64_of_rget (hreg _ (by decide)) (hreg _ (by decide)), hreg _ (by decide)]
  · obtain ⟨x, hx, hnow, hobs, hreg⟩ := execHostLoad_eq h
    have ha : x.rget64 Reg.TB_HSET_STU_LO = a := rget64_of_rget (hreg _ (by decide)) (hreg _ (by decide))
    obtain ⟨hregs, hnow', -, -, htrack, -⟩ := trackClass_reads x.hostLoad
    have hload : x.hostLoad = x.evt Reg.TB_EVT_HOST_REJECT := hostLoad_refuses (by rw [ha, hnow]; exact hout)
    refine ⟨_, hx, ?_, ?_, ?_⟩
    · rw [flag_of_regs hregs, hload, flag_evt_same _ _ rfl (by decide)]
    · rw [htrack, hload]
      exact hobs
    · rw [hnow', hload, now_evt, hnow]
  · exact fun h hx hin hnow => execPpsEdge_accepted h hx (hedge ▸ hin) hnow
  · obtain ⟨-, -, -, -, hobs, hstr⟩ := trackClass_reads y
    refine ⟨_, execPpsEdge_stray h (hedge ▸ hout), flag_evt_same _ _ rfl (by decide), ?_, ?_⟩
    · rw [evt_time, noteEvt_obs, timeMod_time, hobs, at_obs]
    · rw [evt_time, noteEvt_strays, timeMod_time, hstr, at_strays]
  · obtain ⟨hr, -, -, -, hobs, hstr⟩ := trackClass_reads y
    refine ⟨_, execPpsEdge_other h t, hr.trans (at_regs ..), hobs.trans (at_obs ..), hstr.trans (at_strays ..)⟩
  · exact ⟨_, execPpsOutRise_rises hm hs, at_regs .., rfl⟩
  · exact ⟨_, execPpsOutFall_falls h hr, at_regs .., rfl⟩
  · exact ⟨_, execTickOutFall_falls h, at_regs .., rfl⟩

end Sys2Proof.Proofs
end

section
/-!
The shared operations of the reference and of the lock machines: what each does to the fields of TOP, TB and the synthesizers, to the lock machines and to
time (chapters 2 and 3).
-/

namespace Sys2Proof.Proofs

open Sys2Proof Sys2Proof.Machine Sys2Proof.Laws

/-! ## Fields kept -/

/-- From `s` to `t` every field below the front end's registers that is apart from those listed stays. -/
def FldsKept (fs : List Reg.Fld) (s t : State) : Prop := ∀ k : Reg.Fld, k.addr < 0x40000 → fs.all (fldApart · k) = true → t.fget k = s.fget k

namespace FldsKept

variable {fs gs : List Reg.Fld} {s t u : State}

theorem refl (s : State) : FldsKept fs s s := fun _ _ _ => rfl

theorem trans (h : FldsKept fs s t) (k : FldsKept fs t u) : FldsKept fs s u := fun f ha hf => (k f ha hf).trans (h f ha hf)

theorem mono (h : FldsKept fs s t) (hs : ∀ f ∈ fs, f ∈ gs) : FldsKept gs s t :=
  fun k ha hk => h k ha (List.all_eq_true.mpr fun f hf => List.all_eq_true.mp hk f (hs f hf))

theorem of_regs (h : FldsKept fs s t) (hr : u.regs = t.regs) : FldsKept fs s u := fun k ha hk => (fget_of_regs hr k).trans (h k ha hk)

theorem of_aside {α : Type} {p : View α} (h : Aside p PastClocks s t) : FldsKept fs s t := fun _ ha _ => h.fget (Nat.not_le_of_lt ha)

theorem fset (h : FldsKept fs s t) {f : Reg.Fld} (hf : f ∈ fs) (n : Nat) : FldsKept fs s (t.fset f n) :=
  fun k ha hk => (fget_fset_fldApart t n (List.all_eq_true.mp hk f hf)).trans (h k ha hk)

theorem fsetB (h : FldsKept fs s t) {f : Reg.Fld} (hf : f ∈ fs) (b : Bool) : FldsKept fs s (t.fsetB f b) := h.fset hf _

theorem evt (h : FldsKept fs s t) {f : Reg.Fld} (hf : f ∈ fs) : FldsKept fs s (t.evt f) := h.fset hf 1

theorem rsetN (h : FldsKept fs s t) {a : Nat} (ha : whole a ∈ fs) (n : Nat) : FldsKept fs s (t.rsetN a n) := by
  intro k hk hfs
  rcases Bool.or_eq_true_iff.mp (List.all_eq_true.mp hfs _ ha) with e | e
  · exact (fget_rsetN_ne t n (of_decide_eq_true e)).trans (h k hk hfs)
  · have := of_decide_eq_true e
    simp only [whole] at this
    by_cases hne : a = k.addr
    · have : k.hi ≥ 32 ∧ k.lo ≥ 32 := by omega
      have hz (v : Word) : fieldOf v k.hi k.lo = 0 := by
        have h1 : v.toNat / 2 ^ k.lo = 0 := Nat.div_eq_of_lt (Nat.lt_of_lt_of_le v.isLt (Nat.pow_le_pow_right (by decide) this.2))
        rw [fieldOf, h1, Nat.zero_mod]
      rw [← h k hk hfs, State.fget, State.fget, hz, hz]
    · exact (fget_rsetN_ne t n hne).trans (h k hk hfs)

theorem rset64 (h : FldsKept fs s t) {a : Nat} (ha : whole a ∈ fs) (ha4 : whole (a + 4) ∈ fs) (n : Nat) : FldsKept fs s (t.rset64 a n) :=
  (h.rsetN ha _).rsetN ha4 _

theorem ite {c : Prop} [Decidable c] (h : FldsKept fs s t) (k : FldsKept fs s u) : FldsKept fs s (if c then t else u) := by
  split <;> assumption

theorem flag (h : FldsKept fs s t) {k : Reg.Fld} (ha : k.addr < 0x40000) (hk : fs.all (fldApart · k) = true) : t.flag k = s.flag k :=
  congrArg (· != 0) (h k ha hk)

theorem rget (h : FldsKept fs s t) {a : Nat} (ha : a < 0x40000) (hk : fs.all (fldApart · (whole a)) = true) : t.rget a = s.rget a := by
  have e (v : Word) : fieldOf v 31 0 = v.toNat := by
    rw [fieldOf, Nat.pow_zero, Nat.div_one]
    exact Nat.mod_eq_of_lt v.isLt
  have := h (whole a) ha hk
  rw [State.fget, State.fget, whole, e, e] at this
  exact BitVec.eq_of_toNat_eq this

end FldsKept

/-! ## The lock machines -/

/-- The field that shows a loop's band (R81). -/
def bandFld : LoopId → Reg.Fld
  | .scs => Reg.SCS_STAT_BAND
  | .ccs => Reg.CCS_STAT_BAND

/-- The fields in which the band of a search shows. -/
def bandFlds : List Reg.Fld := [Reg.SCS_STAT_BAND, Reg.SCS_STAT_SEARCH, Reg.CCS_STAT_BAND]

section

variable (s : State) (l : LoopId)

@[simp] theorem loop_setLoop (x : LoopS) : (s.setLoop l x).loop l = x := by cases l <;> rfl

@[simp] theorem setLoop_regs (x : LoopS) : (s.setLoop l x).regs = s.regs := by cases l <;> rfl

@[simp] theorem setLoop_time (x : LoopS) : (s.setLoop l x).time = s.time := by cases l <;> rfl

theorem setLoop_flag (x : LoopS) (k : Reg.Fld) : (s.setLoop l x).flag k = s.flag k := flag_of_regs (setLoop_regs ..) k

@[simp] theorem ccsMod_time (f : CcsS → CcsS) : (s.ccsMod f).time = s.time := rfl

@[simp] theorem ccsMod_regs (f : CcsS → CcsS) : (s.ccsMod f).regs = s.regs := rfl

theorem ccsMod_loop {f : CcsS → CcsS} (h : (f s.clk.ccs).loop = s.clk.ccs.loop) : (s.ccsMod f).loop l = s.loop l := by
  cases l with
  | scs => rfl
  | ccs => exact h

theorem loop_of_clk {s t : State} (h : t.clk = s.clk) : t.loop l = s.loop l := by cases l <;> simp only [State.loop, h]

@[simp] theorem showBand_clk (b : Nat) (on : Bool) : (s.showBand l b on).clk = s.clk := by
  cases l with
  | scs => exact (fsetB_clk ..).trans (fset_clk ..)
  | ccs => exact fset_clk ..

@[simp] theorem showBand_time (b : Nat) (on : Bool) : (s.showBand l b on).time = s.time := by
  cases l with
  | scs => exact (fsetB_time ..).trans (fset_time ..)
  | ccs => exact fset_time ..

theorem showBand_flds (b : Nat) (on : Bool) : FldsKept bandFlds s (s.showBand l b on) := by
  have hscs : Reg.SCS_STAT_BAND ∈ bandFlds ∧ Reg.SCS_STAT_SEARCH ∈ bandFlds ∧ Reg.CCS_STAT_BAND ∈ bandFlds := by decide
  cases l with
  | scs => exact ((FldsKept.refl s).fset hscs.1 _).fsetB hscs.2.1 _
  | ccs => exact (FldsKept.refl s).fset hscs.2.2 _

theorem showBand_band (b : Nat) (on : Bool) : (s.showBand l b on).fget (bandFld l) = b % 64 := by
  cases l with
  | scs => exact (fget_fsetB_fldApart _ _ (by decide)).trans (fget_fset _ _ _ (by decide) (by decide))
  | ccs => exact fget_fset _ _ _ (by decide) (by decide)

/-! ## The start of a search (R56) -/

theorem refAbsent_eq : s.refAbsent = !s.flag Reg.TOP_DOMAIN_REF_OK := rfl

@[simp] theorem startSearch_time (t : Nat) : (s.startSearch l t).time = s.time := by
  unfold State.startSearch
  split <;> rw [showBand_time, setLoop_time]

theorem startSearch_flds (t : Nat) : FldsKept bandFlds s (s.startSearch l t) := by
  unfold State.startSearch
  split <;> exact ((FldsKept.refl s).of_regs (setLoop_regs ..)).trans (showBand_flds _ _ _ _)

theorem startSearch_band (t : Nat) : (s.startSearch l t).fget (bandFld l) = 32 := by
  unfold State.startSearch
  split <;> exact showBand_band ..

/-- With REF_IN present a search begins at once, at band 32 (R56). -/
theorem startSearch_eq {s : State} (h : s.flag Reg.TOP_DOMAIN_REF_OK = true) (t : Nat) :
    s.startSearch l t = (s.setLoop l { s.loop l with phase := .search 0 0 64, since := roundUp t 160, held := none }).showBand l 32 true := by
  refine if_neg ?_
  rw [refAbsent_eq, h]
  decide

theorem startSearch_loop {s : State} (h : s.flag Reg.TOP_DOMAIN_REF_OK = true) (t : Nat) :
    (s.startSearch l t).loop l = { s.loop l with phase := .search 0 0 64, since := roundUp t 160, held := none } := by
  rw [startSearch_eq l h, loop_of_clk l (showBand_clk ..), loop_setLoop]

end

/-! ## The core clock's base (R62, R73) -/

/-- The fields in which a profile's end shows. -/
def freqFlds : List Reg.Fld := [Reg.CCS_STAT_RAMP, Reg.CCS_STAT_FREQ, Reg.CCS_VOUT_VREQ]

section

variable (s : State)

@[simp] theorem showFreq_time : s.showFreq.time = s.time := by rw [State.showFreq, fset_time, fset_time]

@[simp] theorem showFreq_clk : s.showFreq.clk = s.clk := by rw [State.showFreq, fset_clk, fset_clk]

theorem showFreq_flds : FldsKept freqFlds s s.showFreq := ((FldsKept.refl s).fset (by decide) _).fset (by decide) _

@[simp] theorem abandonProfile_time : s.abandonProfile.time = s.time := by
  rw [State.abandonProfile, showFreq_time, fsetB_time, ccsMod_time]

theorem abandonProfile_flds : FldsKept freqFlds s s.abandonProfile :=
  (((FldsKept.refl s).of_regs (ccsMod_regs ..)).fsetB (by decide) _).trans (showFreq_flds _)

end

end Sys2Proof.Proofs
end

section
/-!
Lock and loss of lock: what they do to the fields of the synthesizers, to the lock machines and to time (R57 to R61, R73, R75).
-/

namespace Sys2Proof.Proofs

open Sys2Proof Sys2Proof.Machine Sys2Proof.Laws

/-- From `s` to `t` the synthesizers and the time but for its note of events stay, whatever the registers show. -/
abbrev ClkSame (s t : State) : Prop := Aside clkView (fun _ => True) s t

theorem Aside.clkSame {s t : State} (h : ClocksKept s t) : ClkSame s t := h.mono (fun _ _ => trivial) id (fun _ => rfl)

theorem ClkSame.loop {s t : State} (h : ClkSame s t) (l : LoopId) : t.loop l = s.loop l := loop_of_clk l h.view

theorem rawTrack_clocksKept (s : State) (u : Nat) (f : State → State) : ClocksKept (f s) (s.rawTrack u f) := (Aside.refl (f s)).rawTrack u

theorem now_of_time {s t : State} (h : t.time = s.time) : t.now = s.now := congrArg TimeS.stu h

theorem clk_scs (s : State) : s.clk.scs = s.loop .scs := rfl

theorem clk_ccs_loop (s : State) : s.clk.ccs.loop = s.loop .ccs := rfl

/-! ## SCS (R58, R60) -/

/-- The fields in which SCS shows a lock or its loss. -/
def scsFlds : List Reg.Fld :=
  [Reg.TOP_DOMAIN_SCS_LOCK, Reg.SCS_STAT_LOCK, Reg.SCS_EVT_LOCKED, Reg.SCS_EVT_LOCK_LOST, Reg.SCS_EVT_SLIP, whole Reg.SCS_LOST_STU_LO,
    whole (Reg.SCS_LOST_STU_LO + 4), Reg.TB_QUAL_HI_COARSE] ++ bandFlds

theorem bandFlds_scsFlds : ∀ f ∈ bandFlds, f ∈ scsFlds := fun _ => List.mem_append_right _

/-- What a loss of the lock of SCS shows, before its search begins anew. -/
structure ScsLost (s : State) (slip : Bool) (t : State) : Prop where
  flds : FldsKept scsFlds s t
  now : t.now = s.now
  domain : t.flag Reg.TOP_DOMAIN_SCS_LOCK = false
  stat : t.flag Reg.SCS_STAT_LOCK = false
  evt : t.flag Reg.SCS_EVT_LOCK_LOST = true
  coarse : t.flag Reg.TB_QUAL_HI_COARSE = true
  slipped : slip = true → t.flag Reg.SCS_EVT_SLIP = true
  lostStu : t.rget64 Reg.SCS_LOST_STU_LO = s.now % 2 ^ 64

/-- Fields apart from those of a loss do not end what it shows. -/
theorem ScsLost.mono {s t u : State} {slip : Bool} (h : ScsLost s slip t) (hf : FldsKept bandFlds t u) (hn : u.now = t.now) : ScsLost s slip u where
  flds := h.flds.trans (hf.mono bandFlds_scsFlds)
  now := hn.trans h.now
  domain := (hf.flag (by decide) (by decide)).trans h.domain
  stat := (hf.flag (by decide) (by decide)).trans h.stat
  evt := (hf.flag (by decide) (by decide)).trans h.evt
  coarse := (hf.flag (by decide) (by decide)).trans h.coarse
  slipped := fun e => (hf.flag (by decide) (by decide)).trans (h.slipped e)
  lostStu := (rget64_of_rget (hf.rget (by decide) (by decide)) (hf.rget (by decide) (by decide))).trans h.lostStu

/-- A loss of the lock of SCS is shown, and its machine then searches anew. -/
theorem scsLose_lost (s : State) (slip : Bool) :
    ScsLost s slip (s.scsLose slip) ∧ (s.flag Reg.TOP_DOMAIN_REF_OK = true → (s.scsLose slip).clk.scs.phase = .search 0 0 64 ∧ (s.scsLose slip).clk.scs.fails = 0) := by
  unfold State.scsLose
  extract_lets s1 s2 _ s3
  have k := rawTrack_clocksKept s s.now (fun x => x.fsetB Reg.TOP_DOMAIN_SCS_LOCK false)
  have f1 : FldsKept scsFlds s s1 := (((((FldsKept.refl s).fsetB (by decide) false).trans (.of_aside k))).fsetB (by decide) _).evt (by decide)
  have c1 : ClkSame s s1 := ((((Aside.refl s).fsetB (f := Reg.TOP_DOMAIN_SCS_LOCK) trivial false).trans k.clkSame).fsetB trivial _).evt trivial
  have d1 : s1.flag Reg.TOP_DOMAIN_SCS_LOCK = false := by
    rw [flag_evt_fldApart _ (by decide), flag_fsetB_fldApart _ _ (by decide), k.flag (Nat.not_le_of_lt (by decide)), flag_fsetB_same _ _ _ rfl (by decide)]
  have l1 : s1.flag Reg.SCS_STAT_LOCK = false := by rw [flag_evt_fldApart _ (by decide), flag_fsetB_same _ _ _ rfl (by decide)]
  have e1 : s1.flag Reg.SCS_EVT_LOCK_LOST = true := flag_evt_same _ _ rfl (by decide)
  clear_value s1
  have slipOnly : FldsKept [Reg.SCS_EVT_SLIP] s1 s2 := .ite ((FldsKept.refl s1).evt (by decide)) (.refl s1)
  have c2 : ClkSame s s2 := .ite (c1.evt trivial) c1
  have p2 : slip = true → s2.flag Reg.SCS_EVT_SLIP = true := fun e => by rw [show s2 = _ from if_pos e, flag_evt_same _ _ rfl (by decide)]
  clear_value s2
  have noted : FldsKept [whole Reg.SCS_LOST_STU_LO, whole (Reg.SCS_LOST_STU_LO + 4), Reg.TB_QUAL_HI_COARSE] s2 s3 :=
    ((((FldsKept.refl s2).of_regs (u := { s2 with ldg := { s2.ldg with unlocked := true } }) rfl)).rset64 (by decide) (by decide) _).fsetB (by decide) _
  have c3 : ClkSame s s3 := ((c2.of_eq (u := { s2 with ldg := { s2.ldg with unlocked := true } }) rfl rfl rfl).rset64 trivial trivial _).fsetB trivial _
  have h3 : ScsLost s slip s3 := {
    flds := (f1.trans (slipOnly.mono (by decide))).trans (noted.mono (by decide))
    now := c3.now
    domain := by rw [noted.flag (by decide) (by decide), slipOnly.flag (by decide) (by decide), d1]
    stat := by rw [noted.flag (by decide) (by decide), slipOnly.flag (by decide) (by decide), l1]
    evt := by rw [noted.flag (by decide) (by decide), slipOnly.flag (by decide) (by decide), e1]
    coarse := flag_fsetB_same _ _ _ rfl (by decide)
    slipped := fun e => by rw [noted.flag (by decide) (by decide), p2 e]
    lostStu := (rget64_of_rget (rget_fset_ne _ _ _ (by decide)) (rget_fset_ne _ _ _ (by decide))).trans (rget64_rset64_mod ..) }
  clear_value s3
  have kv := (Aside.refl (s3.setLoop .scs { s3.clk.scs with fails := 0 })).voidBegin
  generalize State.voidBegin _ = v at kv ⊢
  have fv : FldsKept bandFlds s3 v := ((FldsKept.refl s3).of_regs (setLoop_regs ..)).trans (.of_aside kv)
  have hv : ScsLost s slip v := h3.mono fv (kv.now.trans (now_of_time (setLoop_time ..)))
  refine ⟨hv.mono (startSearch_flds _ _ _) (now_of_time (startSearch_time ..)), fun hr => ?_⟩
  have hfails : (v.loop .scs).fails = 0 := by rw [loop_of_clk _ kv.view, loop_setLoop]
  rw [clk_scs, startSearch_loop _ ((hv.flds.flag (by decide) (by decide)).trans hr)]
  exact ⟨rfl, hfails⟩

/-! ## CCS (R73) -/

/-- The fields in which the switch of the core to SAFE_OSC shows. -/
def safeFlds : List Reg.Fld := [Reg.TOP_DOMAIN_CORE_SAFE, Reg.CCS_STAT_SAFE, Reg.CCS_EVT_SAFE_ON, Reg.CCS_STAT_LOCK] ++ freqFlds ++ bandFlds

/-- With REF_IN present the switch to SAFE_OSC shows, and CCS searches anew from its base of 128,000 cpt. -/
structure CoreSafe (s t : State) : Prop where
  flds : FldsKept safeFlds s t
  now : t.now = s.now
  domain : t.flag Reg.TOP_DOMAIN_CORE_SAFE = true
  stat : t.flag Reg.CCS_STAT_SAFE = true
  evt : t.flag Reg.CCS_EVT_SAFE_ON = true
  lock : t.flag Reg.CCS_STAT_LOCK = false
  phase : s.flag Reg.TOP_DOMAIN_REF_OK = true → t.clk.ccs.loop.phase = .search 0 0 64
  base : t.clk.ccs.base16 = 2048000

theorem startSearch_base (s : State) (l : LoopId) (t : Nat) : (s.startSearch l t).clk.ccs.base16 = s.clk.ccs.base16 := by
  unfold State.startSearch
  split <;> rw [showBand_clk] <;> cases l <;> rfl

theorem safeSwitch_coreSafe (s : State) : CoreSafe s s.safeSwitch := by
  unfold State.safeSwitch
  extract_lets s1 s2 s3
  have f1 : FldsKept safeFlds s s1 := (abandonProfile_flds s).mono (by decide)
  have n1 : s1.now = s.now := now_of_time (abandonProfile_time s)
  clear_value s1
  have f2 : FldsKept safeFlds s s2 := ((f1.fsetB (by decide) _).fsetB (by decide) _).evt (by decide)
  have n2 : s2.now = s.now := by rw [now_evt, now_fsetB, now_fsetB, n1]
  have d2 : s2.flag Reg.TOP_DOMAIN_CORE_SAFE = true := by
    rw [flag_evt_fldApart _ (by decide), flag_fsetB_fldApart _ _ (by decide), flag_fsetB_same _ _ _ rfl (by decide)]
  have t2 : s2.flag Reg.CCS_STAT_SAFE = true := by rw [flag_evt_fldApart _ (by decide), flag_fsetB_same _ _ _ rfl (by decide)]
  have e2 : s2.flag Reg.CCS_EVT_SAFE_ON = true := flag_evt_same _ _ rfl (by decide)
  clear_value s2
  have unlocked : FldsKept [Reg.CCS_STAT_LOCK] s2 s3 := ((FldsKept.refl s2).fsetB (by decide) _).of_regs (ccsMod_regs ..)
  have n3 : s3.now = s.now := (now_of_time (ccsMod_time ..)).trans ((now_fsetB ..).trans n2)
  have l3 : s3.flag Reg.CCS_STAT_LOCK = false := (flag_of_regs (ccsMod_regs ..) _).trans (flag_fsetB_same _ _ _ rfl (by decide))
  have b3 : s3.clk.ccs.base16 = 2048000 := rfl
  clear_value s3
  have f3 : FldsKept safeFlds s s3 := f2.trans (unlocked.mono (by decide))
  have search : FldsKept (freqFlds ++ bandFlds) s3 (s3.startSearch .ccs s3.now).showFreq :=
    ((startSearch_flds s3 .ccs _).mono (by decide)).trans ((showFreq_flds _).mono (by decide))
  exact {
    flds := f3.trans (search.mono (by decide))
    now := (now_of_time ((showFreq_time _).trans (startSearch_time ..))).trans n3
    domain := by rw [search.flag (by decide) (by decide), unlocked.flag (by decide) (by decide), d2]
    stat := by rw [search.flag (by decide) (by decide), unlocked.flag (by decide) (by decide), t2]
    evt := by rw [search.flag (by decide) (by decide), unlocked.flag (by decide) (by decide), e2]
    lock := by rw [search.flag (by decide) (by decide), l3]
    phase := fun hr => by
      rw [showFreq_clk, clk_ccs_loop, startSearch_loop _ ((f3.flag (by decide) (by decide)).trans hr)]
    base := by rw [showFreq_clk, startSearch_base, b3] }

/-- A lost lock of CCS is shown beside the switch (R73). -/
theorem ccsLose_coreSafe (s : State) : CoreSafe (s.evt Reg.CCS_EVT_LOCK_LOST) s.ccsLose ∧ s.ccsLose.flag Reg.CCS_EVT_LOCK_LOST = true := by
  have h := safeSwitch_coreSafe (s.evt Reg.CCS_EVT_LOCK_LOST)
  exact ⟨h, (h.flds.flag (by decide) (by decide)).trans (flag_evt_same _ _ rfl (by decide))⟩

end Sys2Proof.Proofs
end

section
/-!
The band search and the lock windows of the synthesizers, command by command (R56 to R61, R73, R75).
-/

namespace Sys2Proof.Proofs

open Sys2Proof Sys2Proof.Machine Sys2Proof.Laws

/-! ## Lock declared, and an attempt that fails -/

/-- SCS shows its lock and its samples count again (R57, R60). -/
theorem loopLock_scs (s : State) :
    (s.loopLock .scs).now = s.now ∧ ((s.loopLock .scs).loop .scs).phase = .locked ∧ ((s.loopLock .scs).loop .scs).fails = 0 ∧
      (s.loopLock .scs).flag Reg.TOP_DOMAIN_SCS_LOCK = true ∧ (s.loopLock .scs).flag Reg.SCS_STAT_LOCK = true ∧ (s.loopLock .scs).flag Reg.SCS_EVT_LOCKED = true := by
  unfold State.loopLock
  dsimp -zeta only
  extract_lets _ s1
  have k := rawTrack_clocksKept ((s.setLoop .scs { s.clk.scs with phase := .locked, since := s.now, fails := 0 }).fsetB Reg.SCS_STAT_LOCK true) (s.now + 1)
    (fun x => x.fsetB Reg.TOP_DOMAIN_SCS_LOCK true)
  have d1 : s1.flag Reg.TOP_DOMAIN_SCS_LOCK = true := by
    rw [flag_evt_fldApart _ (by decide), k.flag (Nat.not_le_of_lt (by decide)), flag_fsetB_same _ _ _ rfl (by decide)]
  have l1 : s1.flag Reg.SCS_STAT_LOCK = true := by
    rw [flag_evt_fldApart _ (by decide), k.flag (Nat.not_le_of_lt (by decide)), flag_fsetB_fldApart _ _ (by decide), flag_fsetB_same _ _ _ rfl (by decide)]
  have e1 : s1.flag Reg.SCS_EVT_LOCKED = true := flag_evt_same _ _ rfl (by decide)
  have c1 : ClkSame (s.setLoop .scs { s.clk.scs with phase := .locked, since := s.now, fails := 0 }) s1 :=
    ((((Aside.refl _).fsetB trivial _).fsetB trivial _).trans k.clkSame).evt trivial
  clear_value s1
  have kv := (Aside.refl (p := clkView) (A := PastClocks) (s1.fsetB Reg.TB_QUAL_HI_COARSE false)).voidEnd
  generalize State.voidEnd _ = v at kv ⊢
  have cv : ClkSame (s.setLoop .scs { s.clk.scs with phase := .locked, since := s.now, fails := 0 }) v := (c1.fsetB trivial _).trans kv.clkSame
  have fv : FldsKept [Reg.TB_QUAL_HI_COARSE] s1 v := ((FldsKept.refl s1).fsetB (by decide) _).trans (.of_aside kv)
  refine ⟨cv.now.trans (now_of_time (setLoop_time ..)), ?_, ?_, (fv.flag (by decide) (by decide)).trans d1, (fv.flag (by decide) (by decide)).trans l1,
    (fv.flag (by decide) (by decide)).trans e1⟩ <;> rw [ClkSame.loop cv, loop_setLoop]

/-- CCS shows its lock; the return from SAFE_OSC falls due (R75). -/
theorem loopLock_ccs (s : State) :
    (s.loopLock .ccs).now = s.now ∧ ((s.loopLock .ccs).loop .ccs).phase = .locked ∧ ((s.loopLock .ccs).loop .ccs).fails = 0 ∧
      (s.loopLock .ccs).flag Reg.CCS_STAT_LOCK = true ∧ (s.loopLock .ccs).flag Reg.CCS_EVT_LOCKED = true ∧ (s.loopLock .ccs).clk.ccs.returnDue = true := by
  unfold State.loopLock
  dsimp -zeta only
  extract_lets _ s1
  have k := Aside.refl (p := clkView) (A := fun _ => True) (s.setLoop .ccs { s.clk.ccs.loop with phase := .locked, since := s.now, fails := 0 })
  have c1 : ClkSame (s.setLoop .ccs { s.clk.ccs.loop with phase := .locked, since := s.now, fails := 0 }) (s1.fsetB Reg.CCS_STAT_DEAD false) :=
    ((k.fsetB (f := Reg.CCS_STAT_LOCK) trivial true).evt (f := Reg.CCS_EVT_LOCKED) trivial).fsetB trivial _
  have l1 : (s1.fsetB Reg.CCS_STAT_DEAD false).flag Reg.CCS_STAT_LOCK = true := by
    rw [flag_fsetB_fldApart _ _ (by decide), flag_evt_fldApart _ (by decide), flag_fsetB_same _ _ _ rfl (by decide)]
  have e1 : (s1.fsetB Reg.CCS_STAT_DEAD false).flag Reg.CCS_EVT_LOCKED = true := by
    rw [flag_fsetB_fldApart _ _ (by decide), flag_evt_same _ _ rfl (by decide)]
  generalize s1.fsetB Reg.CCS_STAT_DEAD false = v at c1 l1 e1 ⊢
  clear_value s1
  have hl : (v.ccsMod (fun c => { c with returnDue := true })).loop .ccs = { s.clk.ccs.loop with phase := .locked, since := s.now, fails := 0 } := by
    rw [ccsMod_loop v .ccs rfl, ClkSame.loop c1, loop_setLoop]
  exact ⟨(now_of_time (ccsMod_time ..)).trans (c1.now.trans (now_of_time (setLoop_time ..))), by rw [hl], by rw [hl],
    (flag_of_regs (ccsMod_regs ..) _).trans l1, (flag_of_regs (ccsMod_regs ..) _).trans e1, rfl⟩

section

variable {s : State} {l : LoopId}

/-- The first two failures in a row begin a new search (R61). -/
theorem loopFail_searches (hr : s.flag Reg.TOP_DOMAIN_REF_OK = true) (hf : (s.loop l).fails < 2) :
    ((s.loopFail l).loop l).phase = .search 0 0 64 ∧ ((s.loopFail l).loop l).fails = (s.loop l).fails + 1 ∧ (s.loopFail l).fget (bandFld l) = 32 := by
  unfold State.loopFail
  dsimp only
  rw [if_pos (by omega), startSearch_loop l ((setLoop_flag ..).trans hr), loop_setLoop]
  exact ⟨rfl, rfl, startSearch_band ..⟩

/-- What the quarantine of a loop shows (R61, R75). -/
def DeadShown (l : LoopId) (u : State) : Prop :=
  match l with
  | .scs => u.flag Reg.SCS_EVT_SEARCH_FAIL = true ∧ u.flag Reg.SCS_STAT_SEARCH = false
  | .ccs => u.flag Reg.CCS_EVT_DEAD = true ∧ u.flag Reg.CCS_STAT_DEAD = true

/-- The third failure quarantines the loop (R61, R75). -/
theorem loopFail_quarantines (hf : (s.loop l).fails = 2) :
    ((s.loopFail l).loop l).phase = .failed ∧ ((s.loopFail l).loop l).retry = s.time.tick + 3000 ∧ DeadShown l (s.loopFail l) := by
  unfold State.loopFail
  extract_lets x n s1
  have hn : n = 3 := by change (s.loop l).fails + 1 = 3; omega
  have h1 : s1.loop l = { x with phase := .failed, fails := n, retry := s.time.tick + 3000 } := by rw [loop_setLoop, if_pos hn]
  clear_value s1
  rw [if_neg (by omega), if_pos hn]
  cases l with
  | scs =>
    have k := fault_clocksKept ((s1.evt Reg.SCS_EVT_SEARCH_FAIL).fsetB Reg.SCS_STAT_SEARCH false) 0x2003 0xFF 0xFF 0
    have c : ClkSame s1 _ := (((Aside.refl s1).evt trivial).fsetB trivial _).trans k.clkSame
    dsimp only
    rw [ClkSame.loop c, h1]
    refine ⟨rfl, rfl, ?_, ?_⟩ <;> rw [k.flag (Nat.not_le_of_lt (by decide))]
    · rw [flag_fsetB_fldApart _ _ (by decide), flag_evt_same _ _ rfl (by decide)]
    · exact flag_fsetB_same _ _ _ rfl (by decide)
  | ccs =>
    have k := fault_clocksKept ((s1.evt Reg.CCS_EVT_DEAD).fsetB Reg.CCS_STAT_DEAD true) 0x2004 0xFF 0xFF 0
    have c : ClkSame s1 _ := (((Aside.refl s1).evt trivial).fsetB trivial _).trans k.clkSame
    dsimp only
    rw [ClkSame.loop c, h1]
    refine ⟨rfl, rfl, ?_, ?_⟩ <;> rw [k.flag (Nat.not_le_of_lt (by decide))]
    · rw [flag_fsetB_fldApart _ _ (by decide), flag_evt_same _ _ rfl (by decide)]
    · exact flag_fsetB_same _ _ _ rfl (by decide)

/-- The retries of a quarantined loop lie 3000 ticks apart. -/
theorem nextRetry_spaced {r t : Nat} (h : r ≤ t) : t < nextRetry r t ∧ nextRetry r t ≤ t + 3000 ∧ (nextRetry r t - r) % 3000 = 0 := by
  unfold nextRetry
  rw [if_neg (Nat.not_lt.mpr h)]
  omega

/-- A further failure waits for the next of them (R61, R75). -/
theorem loopFail_waits (hf : 3 ≤ (s.loop l).fails) :
    s.loopFail l = s.setLoop l { s.loop l with phase := .failed, fails := (s.loop l).fails + 1, retry := nextRetry (s.loop l).retry s.time.tick } := by
  unfold State.loopFail
  dsimp only
  rw [if_neg (by omega), if_neg (by omega), if_neg (by omega)]

/-! ## The search (R56) -/

theorem execBandSearchStep_halves {k lo hi : Nat} (hr : s.flag Reg.TOP_DOMAIN_REF_OK = true) (h : (s.loop l).phase = .search k lo hi) (hk : k < 5) (count : Nat) :
    execBandSearchStep l count s = .next (
      let lo' := if count ≤ 1024 then (lo + hi) / 2 else lo
      let hi' := if count ≤ 1024 then hi else (lo + hi) / 2
      ((s.at ((s.loop l).since + 184320)).setLoop l { s.loop l with phase := .search (k + 1) lo' hi', since := (s.loop l).since + 184320 }).showBand l ((lo' + hi') / 2) true) := by
  unfold execBandSearchStep
  dsimp only
  rw [h]
  dsimp only
  rw [refAbsent_eq, hr, Bool.not_true, if_neg Bool.false_ne_true, if_pos hk]

theorem execBandSearchStep_ends {k lo hi : Nat} (hr : s.flag Reg.TOP_DOMAIN_REF_OK = true) (h : (s.loop l).phase = .search k lo hi) (hk : 5 ≤ k) (count : Nat) :
    execBandSearchStep l count s = .next (((s.at ((s.loop l).since + 184320)).setLoop l { s.loop l with phase := .count 0 0, since := (s.loop l).since + 225280 }).showBand l
      (if count ≤ 1024 then (lo + hi) / 2 else lo) false) := by
  unfold execBandSearchStep
  dsimp only
  rw [h]
  dsimp only
  rw [refAbsent_eq, hr, Bool.not_true, if_neg Bool.false_ne_true, if_neg (Nat.not_lt.mpr hk)]

/-! ## The windows (R57) -/

theorem near1024_iff (n d : Nat) : near1024 n d = true ↔ n ≤ 1024 + d ∧ 1024 ≤ n + d := by
  unfold near1024
  rw [Bool.and_eq_true, decide_eq_true_iff, decide_eq_true_iff]

/-- The end of a window, its count shown. -/
def windowEnd (s : State) (l : LoopId) (count : Nat) : State := (s.at ((s.loop l).since + 163840)).showCount l count

theorem showCount_kept (s : State) (l : LoopId) (count : Nat) : FldsKept [Reg.SCS_STAT_LASTCNT] s (s.showCount l count) ∧ (s.showCount l count).time = s.time := by
  cases l with
  | scs => exact ⟨(FldsKept.refl s).fset (by decide) _, fset_time ..⟩
  | ccs => exact ⟨.refl s, rfl⟩

theorem windowEnd_now (s : State) (l : LoopId) (count : Nat) : (windowEnd s l count).now = (s.at ((s.loop l).since + 163840)).now :=
  now_of_time (showCount_kept ..).2

theorem windowEnd_tick (s : State) (l : LoopId) (count : Nat) : (windowEnd s l count).time.tick = s.time.tick :=
  (congrArg TimeS.tick (showCount_kept ..).2).trans (at_tick ..)

theorem windowEnd_ref (s : State) (l : LoopId) (count : Nat) : (windowEnd s l count).flag Reg.TOP_DOMAIN_REF_OK = s.flag Reg.TOP_DOMAIN_REF_OK :=
  ((showCount_kept ..).1.flag (by decide) (by decide)).trans (at_flag ..)

/-- The machine after a window, which begins the next. -/
def LoopS.next (x : LoopS) (count : Nat) (phase : LoopPhase) : LoopS := { x with counts := (count :: x.counts).take 17, since := x.since + 163840, phase := phase }

/-- The good windows in a row. -/
def goodRun (count good : Nat) : Nat := if count ≤ 1026 ∧ 1022 ≤ count then good + 1 else 0

/-- The state after a window, whose machine goes on in `phase`. -/
def windowNext (s : State) (l : LoopId) (count : Nat) (phase : LoopPhase) : State := (windowEnd s l count).setLoop l (LoopS.next (s.loop l) count phase)

section

variable (s : State) (l : LoopId) (count : Nat) (phase : LoopPhase)

theorem windowNext_loop : (windowNext s l count phase).loop l = LoopS.next (s.loop l) count phase := loop_setLoop ..

theorem windowNext_now : (windowNext s l count phase).now = (s.at ((s.loop l).since + 163840)).now :=
  (now_of_time (setLoop_time ..)).trans (windowEnd_now s l count)

theorem windowNext_tick : (windowNext s l count phase).time.tick = s.time.tick := (congrArg TimeS.tick (setLoop_time ..)).trans (windowEnd_tick s l count)

theorem windowNext_ref : (windowNext s l count phase).flag Reg.TOP_DOMAIN_REF_OK = s.flag Reg.TOP_DOMAIN_REF_OK := (setLoop_flag ..).trans (windowEnd_ref s l count)

end

theorem execLockWindow_count {win good : Nat} (hr : s.flag Reg.TOP_DOMAIN_REF_OK = true) (h : (s.loop l).phase = .count win good) (count : Nat) :
    execLockWindow l count s = .next (
      let t := windowNext s l count (.count (win + 1) (goodRun count good))
      if goodRun count good = 4 then t.loopLock l else if win + 1 = 16 then t.loopFail l else t) := by
  have hg : (if near1024 count 2 = true then good + 1 else 0) = goodRun count good := if_congr ((near1024_iff ..).trans (by omega)) rfl rfl
  unfold execLockWindow
  dsimp only
  rw [refAbsent_eq, hr, Bool.not_true, if_neg Bool.false_ne_true, h]
  dsimp only
  rw [hg]
  rfl

theorem execLockWindow_locked (hr : s.flag Reg.TOP_DOMAIN_REF_OK = true) (h : (s.loop l).phase = .locked) (count : Nat) :
    execLockWindow l count s = .next (
      let t := windowNext s l count .locked
      if 1016 ≤ count ∧ count ≤ 1032 then t else t.loopLose l false) := by
  have hx : { (s.loop l).keep count with since := (s.loop l).since + 160 * 1024 } = LoopS.next (s.loop l) count .locked := by
    rw [LoopS.next, ← h]
    rfl
  unfold execLockWindow
  dsimp only
  rw [refAbsent_eq, hr, Bool.not_true, if_neg Bool.false_ne_true, h]
  dsimp only
  rw [hx]
  exact congrArg _ (if_congr ((near1024_iff ..).trans (by omega)) rfl rfl)

/-! ## Loss of lock, and retries -/

theorem execSlipDetect_locked (hr : s.flag Reg.TOP_DOMAIN_REF_OK = true) (h : (s.loop l).phase = .locked) (t : Nat) :
    execSlipDetect l t s = .next ((s.at t).loopLose l true) := by
  unfold execSlipDetect
  rw [refAbsent_eq, hr, Bool.not_true, if_neg Bool.false_ne_true, h]

theorem execScsRetry_failed (h : s.clk.scs.phase = .failed) :
    execScsRetry s = .next ((s.at (s.clk.scs.retry * 2048000)).startSearch .scs (s.at (s.clk.scs.retry * 2048000)).now) := by
  unfold execScsRetry
  rw [h]
  rfl

theorem execCcsRetry_failed (h : s.clk.ccs.loop.phase = .failed) :
    execCcsRetry s = .next ((s.at (s.clk.ccs.loop.retry * 2048000)).startSearch .ccs (s.at (s.clk.ccs.loop.retry * 2048000)).now) := by
  unfold execCcsRetry
  rw [h]
  rfl

/-- With REF_IN present the search of SCS shows. -/
theorem startSearch_searches (hr : s.flag Reg.TOP_DOMAIN_REF_OK = true) (t : Nat) : (s.startSearch .scs t).flag Reg.SCS_STAT_SEARCH = true := by
  rw [startSearch_eq .scs hr]
  exact flag_fsetB_same _ _ _ rfl (by decide)

theorem execCcsNoEdge_safe (h : s.flag Reg.TOP_DOMAIN_CORE_SAFE = true) (t : Nat) : execCcsNoEdge t s = .next (s.at t) :=
  congrArg _ (if_pos h)

/-- Without an edge the core switches to SAFE_OSC; a locked CCS has lost its lock (R73). -/
theorem execCcsNoEdge_switches (hr : s.flag Reg.TOP_DOMAIN_REF_OK = true) (h : s.flag Reg.TOP_DOMAIN_CORE_SAFE = false) (t : Nat) :
    ∃ v u : State, execCcsNoEdge t s = .next u ∧ CoreSafe v u ∧ v.now = (s.at t).now ∧ v.flag Reg.TOP_DOMAIN_REF_OK = true ∧
      (s.flag Reg.CCS_STAT_LOCK = true → u.flag Reg.CCS_EVT_LOCK_LOST = true) := by
  unfold execCcsNoEdge
  rw [State.coreSafe, h, if_neg Bool.false_ne_true, refAbsent_eq, hr, Bool.not_true, Bool.not_false, Bool.and_true]
  have hat : (s.at t).flag Reg.TOP_DOMAIN_REF_OK = true := (at_flag ..).trans hr
  cases hl : s.flag Reg.CCS_STAT_LOCK with
  | false => exact ⟨_, _, rfl, safeSwitch_coreSafe _, rfl, hat, nofun⟩
  | true =>
    obtain ⟨hs, he⟩ := ccsLose_coreSafe (s.at t)
    exact ⟨_, _, rfl, hs, now_evt .., (flag_evt_fldApart _ (by decide)).trans hat, fun _ => he⟩

end

end Sys2Proof.Proofs
end

section
/-!
The reference lost, back and realigned: the monitor's windows, the qualifying windows, STEP and WALK (R47, R49 to R52, R59).
-/

namespace Sys2Proof.Proofs

open Sys2Proof Sys2Proof.Machine Sys2Proof.Laws

/-! ## Loss (R47) -/

section

variable (s : State)

theorem setLoop_flds (fs : List Reg.Fld) (l : LoopId) (x : LoopS) : FldsKept fs s (s.setLoop l x) := (FldsKept.refl s).of_regs (setLoop_regs ..)

@[simp] theorem holdBase_time : s.holdBase.time = s.time := by rw [State.holdBase, rsetN_time, abandonProfile_time]

theorem holdBase_flds : FldsKept (whole Reg.CCS_TICKCYC :: freqFlds) s s.holdBase :=
  ((abandonProfile_flds s).mono (by decide)).rsetN (by decide) _

/-- A change of the synthesizers' state alone shows in no register and not in the time. -/
theorem withClk_kept {fs : List Reg.Fld} {s t : State} (h : FldsKept fs s t ∧ t.time = s.time) (c : ClockS) :
    FldsKept fs s { t with clk := c } ∧ ({ t with clk := c } : State).time = s.time :=
  ⟨h.1.of_regs rfl, h.2⟩

theorem icsLost_kept (walk : Bool) : FldsKept [Reg.ICS_STAT_PRECHARGE] s (s.icsLost walk) ∧ (s.icsLost walk).time = s.time := by
  have h1 : FldsKept [Reg.ICS_STAT_PRECHARGE] s s.free1.2 ∧ s.free1.2.time = s.time := ⟨(FldsKept.refl s).of_regs rfl, rfl⟩
  unfold State.icsLost
  generalize s.free1 = q at h1 ⊢
  obtain ⟨f, s1⟩ := q
  dsimp only at h1 ⊢
  split
  · exact withClk_kept h1 _
  · exact withClk_kept ⟨h1.1.fsetB (by decide) false, (fsetB_time ..).trans h1.2⟩ _

/-- The fields in which the machines' part of a loss shows. -/
def lossFlds : List Reg.Fld := [whole Reg.CCS_TICKCYC, Reg.SCS_STAT_SEARCH, Reg.ICS_STAT_PRECHARGE] ++ freqFlds

theorem refLost_shows :
    s.refLost.now = s.now ∧ s.refLost.flag Reg.TOP_DOMAIN_REF_OK = false ∧ s.refLost.flag Reg.TOP_DOMAIN_COAST = true ∧
      s.refLost.flag Reg.TB_QUAL_HI_COAST = true ∧ s.refLost.flag Reg.TB_EVT_REF_LOST = true ∧ s.refLost.time.realign = none ∧
      s.refLost.time.lockedAtLoss = s.scsLocked := by
  unfold State.refLost
  extract_lets s1 s2 ramp s3 walk u s4
  have n1 : s1.now = s.now := rfl
  clear_value s1
  have n2 : s2.now = s.now := by rw [← n1]; exact (now_of_time (exclude_time _)).trans (by rw [now_evt, now_fsetB, now_fsetB, now_fsetB, now_fsetB])
  have r2 : s2.flag Reg.TOP_DOMAIN_REF_OK = false := (flag_of_regs (exclude_regs _) _).trans (by
    rw [flag_evt_fldApart _ (by decide), flag_fsetB_fldApart _ _ (by decide), flag_fsetB_fldApart _ _ (by decide), flag_fsetB_fldApart _ _ (by decide),
      flag_fsetB_same _ _ _ rfl (by decide)])
  have c2 : s2.flag Reg.TOP_DOMAIN_COAST = true := (flag_of_regs (exclude_regs _) _).trans (by
    rw [flag_evt_fldApart _ (by decide), flag_fsetB_fldApart _ _ (by decide), flag_fsetB_fldApart _ _ (by decide), flag_fsetB_same _ _ _ rfl (by decide)])
  have q2 : s2.flag Reg.TB_QUAL_HI_COAST = true := (flag_of_regs (exclude_regs _) _).trans (by
    rw [flag_evt_fldApart _ (by decide), flag_fsetB_same _ _ _ rfl (by decide)])
  have e2 : s2.flag Reg.TB_EVT_REF_LOST = true := (flag_of_regs (exclude_regs _) _).trans (flag_evt_same _ _ rfl (by decide))
  clear_value s2
  have f3 : FldsKept lossFlds s2 s3 := .ite ((holdBase_flds s2).mono (by decide)) (.refl s2)
  have t3 : s3.time = s2.time := by
    change (if ramp = true then s2.holdBase else s2).time = _
    split
    · exact holdBase_time s2
    · rfl
  clear_value s3
  have f4 : FldsKept lossFlds s2 s4 :=
    (((f3.trans (setLoop_flds _ _ _ _)).trans (setLoop_flds _ _ _ _)).fsetB (by decide) _).trans ((icsLost_kept _ _).1.mono (by decide))
  have t4 : s4.time = s2.time := by rw [(icsLost_kept _ _).2, fsetB_time, setLoop_time, setLoop_time, t3]
  clear_value s4
  have f5 : FldsKept lossFlds s2 (s4.timeMod fun t => { t with
    lockedAtLoss := s.scsLocked, lossTemp := s.hottest, qualWins := 0, newRefWins := 0, realign := none
    walk := t.walk.map (fun w => { w with frozen := some (w.residual s.now) }) }) := f4.of_regs (timeMod_regs ..)
  exact ⟨(now_of_time t4).trans n2, (f5.flag (by decide) (by decide)).trans r2, (f5.flag (by decide) (by decide)).trans c2, (f5.flag (by decide) (by decide)).trans q2,
    (f5.flag (by decide) (by decide)).trans e2, rfl, rfl⟩

/-! ## Return (R34, R52, R59) -/

/-- The fields in which the machines' return shows. -/
def resumeFlds : List Reg.Fld := Reg.ICS_STAT_PRECHARGE :: bandFlds

theorem loopsResume_kept : FldsKept resumeFlds s s.loopsResume ∧ s.loopsResume.time = s.time := by
  unfold State.loopsResume
  extract_lets go s0 _ s1
  have hgo (x : State) (l : LoopId) : FldsKept resumeFlds x (go x l) ∧ (go x l).time = x.time := by
    dsimp only [go]
    split
    · exact ⟨(startSearch_flds _ _ _).mono (by decide), startSearch_time ..⟩
    · exact ⟨setLoop_flds _ _ _ _, setLoop_time ..⟩
    · exact ⟨.refl x, rfl⟩
  have h0 : FldsKept resumeFlds s s0 ∧ s0.time = s.time := ⟨(hgo s .scs).1.trans (hgo _ .ccs).1, ((hgo _ .ccs).2).trans (hgo s .scs).2⟩
  clear_value s0
  have h1 : FldsKept resumeFlds s s1 ∧ s1.time = s.time := withClk_kept h0 _
  clear_value s1
  split
  · exact withClk_kept ⟨h1.1.fsetB (by decide) true, (fsetB_time ..).trans h1.2⟩ _
  · exact h1

theorem newRef_shows : s.newRef.flag Reg.TOP_DOMAIN_REF_OK = true ∧ s.newRef.flag Reg.TOP_DOMAIN_COAST = false := by
  unfold State.newRef
  extract_lets s1 s2 s3 s4
  clear_value s1
  have r2 : s2.flag Reg.TOP_DOMAIN_REF_OK = true := by
    rw [flag_fsetB_fldApart _ _ (by decide), flag_fsetB_fldApart _ _ (by decide), flag_fsetB_fldApart _ _ (by decide), flag_fsetB_fldApart _ _ (by decide),
      flag_fsetB_same _ _ _ rfl (by decide)]
  have c2 : s2.flag Reg.TOP_DOMAIN_COAST = false := by
    rw [flag_fsetB_fldApart _ _ (by decide), flag_fsetB_fldApart _ _ (by decide), flag_fsetB_fldApart _ _ (by decide), flag_fsetB_same _ _ _ rfl (by decide)]
  clear_value s2
  have f3 : FldsKept (Reg.TB_QUAL_HI_WALK :: (resumeFlds ++ scsFlds)) s2 s3 := (FldsKept.refl s2).of_regs (timeMod_regs ..)
  clear_value s3
  have f4 : FldsKept (Reg.TB_QUAL_HI_WALK :: (resumeFlds ++ scsFlds)) s2 s4 := (f3.fsetB (by decide) _).trans ((loopsResume_kept _).1.mono (by decide))
  clear_value s4
  have f5 : FldsKept (Reg.TB_QUAL_HI_WALK :: (resumeFlds ++ scsFlds)) s2 (if s4.scsLocked = true then s4.scsLose false else s4) :=
    .ite (f4.trans ((scsLose_lost s4 false).1.flds.mono (by decide))) f4
  exact ⟨(f5.flag (by decide) (by decide)).trans r2, (f5.flag (by decide) (by decide)).trans c2⟩

end

section

variable {s : State}

theorem at_lockedAtLoss (s : State) (t : Nat) : (s.at t).time.lockedAtLoss = s.time.lockedAtLoss := by
  obtain ⟨u, h, -⟩ := at_eq s t
  rw [h]

theorem at_qualWins (s : State) (t : Nat) : (s.at t).time.qualWins = s.time.qualWins := by
  obtain ⟨u, h, -⟩ := at_eq s t
  rw [h]

theorem at_newRefWins (s : State) (t : Nat) : (s.at t).time.newRefWins = s.time.newRefWins := by
  obtain ⟨u, h, -⟩ := at_eq s t
  rw [h]

/-- A window of the monitor while REF_IN is present: within 24 to 56 edges it changes nothing, outside REF_IN is lost (R47). -/
theorem execRefMonitorWindow_present (h : s.flag Reg.TOP_DOMAIN_REF_OK = true) (t edges : Nat) :
    execRefMonitorWindow t edges s = .next (if 24 ≤ edges ∧ edges ≤ 56 then s.at t else (s.at t).refLost) := by
  unfold execRefMonitorWindow
  dsimp only
  rw [at_flag, h, if_pos rfl]
  exact congrArg _ (if_congr (by rw [Bool.and_eq_true, decide_eq_true_iff, decide_eq_true_iff]) rfl rfl)

/-- The first good window of the monitor brings the reference back where SCS was not locked at its loss (R52). -/
theorem execRefMonitorWindow_back (h : s.flag Reg.TOP_DOMAIN_REF_OK = false) (hc : s.flag Reg.TOP_DOMAIN_COAST = true) (hl : s.time.lockedAtLoss = false)
    {edges : Nat} (hlo : 24 ≤ edges) (hhi : edges ≤ 56) (t : Nat) : execRefMonitorWindow t edges s = .next ((s.at t).newRef.evt Reg.TB_EVT_REF_BACK) := by
  unfold execRefMonitorWindow
  dsimp only
  rw [at_flag, h, if_neg Bool.false_ne_true, at_flag, hc, at_lockedAtLoss, hl, decide_eq_true hlo, decide_eq_true hhi]
  rfl

section

/-! A qualifying window while the clocks coast, SCS locked at the loss (R49, R52). -/

variable (h : s.flag Reg.TOP_DOMAIN_REF_OK = false) (hc : s.flag Reg.TOP_DOMAIN_COAST = true) (hl : s.time.lockedAtLoss = true) (t : Nat)

include h hc hl

theorem execRefQualWindow_dropped :
    execRefQualWindow t none s = .next ((s.at t).timeMod (fun x => { x with qualWins := 0, newRefWins := 0 })) := by
  unfold execRefQualWindow
  extract_lets s1
  rw [at_flag, at_flag, at_lockedAtLoss, h, hc, hl, Bool.not_true, Bool.false_or, Bool.or_false, if_neg Bool.false_ne_true]

theorem execRefQualWindow_near {n : Nat} (hn : 163832 ≤ n ∧ n ≤ 163848) :
    execRefQualWindow t (some n) s = .next (
      let s2 := (s.at t).timeMod (fun x => { x with qualWins := s.time.qualWins + 1, newRefWins := 0 })
      if s.time.qualWins + 1 < 4 then s2 else
      (((s2.fsetB Reg.TOP_DOMAIN_REF_OK true).evt Reg.TB_EVT_REF_BACK).timeMod (fun x => { x with
        realign := some (s2.fget Reg.TB_CTRL_REALIGN == 1), qualWins := 0 })).loopsResume) := by
  unfold execRefQualWindow
  dsimp only
  rw [at_flag, at_flag, at_lockedAtLoss, h, hc, hl, Bool.not_true, Bool.false_or, Bool.or_false, if_neg Bool.false_ne_true, if_pos hn.symm, at_qualWins]

theorem execRefQualWindow_far {n : Nat} (hn : ¬ (163832 ≤ n ∧ n ≤ 163848)) :
    execRefQualWindow t (some n) s = .next (
      let s2 := (s.at t).timeMod (fun x => { x with qualWins := 0, newRefWins := s.time.newRefWins + 1 })
      if s.time.newRefWins + 1 < 8 then s2 else s2.newRef) := by
  unfold execRefQualWindow
  dsimp only
  rw [at_flag, at_flag, at_lockedAtLoss, h, hc, hl, Bool.not_true, Bool.false_or, Bool.or_false, if_neg Bool.false_ne_true, if_neg (fun k => hn (And.symm k)), at_newRefWins]

end

/-- The fourth good window in a row brings the reference back for a realignment (R49). -/
theorem loopsResume_back (x : State) (r : Option Bool) :
    let u := (((x.fsetB Reg.TOP_DOMAIN_REF_OK true).evt Reg.TB_EVT_REF_BACK).timeMod (fun x => { x with realign := r, qualWins := 0 })).loopsResume
    u.flag Reg.TOP_DOMAIN_REF_OK = true ∧ u.flag Reg.TB_EVT_REF_BACK = true ∧ u.time.realign = r := by
  intro u
  have hk := loopsResume_kept (((x.fsetB Reg.TOP_DOMAIN_REF_OK true).evt Reg.TB_EVT_REF_BACK).timeMod (fun x => { x with realign := r, qualWins := 0 }))
  refine ⟨?_, ?_, congrArg TimeS.realign hk.2⟩ <;> rw [hk.1.flag (by decide) (by decide), flag_of_regs (timeMod_regs ..)]
  · rw [flag_evt_fldApart _ (by decide), flag_fsetB_same _ _ _ rfl (by decide)]
  · exact flag_evt_same _ _ rfl (by decide)

end

/-! ## Realignment (R49 to R51) -/

/-- At its anchor no part of a slew has run. -/
theorem slewRun_anchor (t : TimeS) : t.slewRun t.s0 = 0 := by
  unfold TimeS.slewRun
  dsimp only
  rw [Nat.sub_self, Nat.cast_zero, mul_zero, zero_mul]
  split
  · next h => rw [if_pos (by linarith), neg_zero]
  · next h =>
    split
    · rfl
    · linarith

/-- At its anchor DTS is what the anchor holds, less what a walk has gained. -/
theorem dts_anchor (t : TimeS) : t.dts t.s0 = t.a - t.walked t.s0 * t.k := by
  unfold TimeS.dts
  rw [slewRun_anchor, sub_self, Int.cast_zero, zero_mul]
  ring

theorem dts_anchor_still {t : TimeS} (h : t.walk = none) : t.dts t.s0 = t.a := by
  rw [dts_anchor, TimeS.walked, h]
  ring

/-- At its first edge a walk's residual is its whole phase. -/
theorem residual_start {w : Walk} (h : w.frozen = none) : w.residual w.start = (w.e : Rat) := by
  unfold Walk.residual
  rw [h]
  dsimp only
  rw [Nat.sub_self, Nat.cast_zero, zero_mul, zero_div]
  split
  · next he => rw [if_pos (by exact_mod_cast Int.neg_pos_of_neg he), add_zero]
  · next he =>
    split
    · rw [sub_zero]
    · next hn =>
      have h0 : ¬ 0 < w.e := fun h => hn (by exact_mod_cast h)
      rw [show w.e = 0 by omega, Int.cast_zero]

theorem dts_anchor_walk {t : TimeS} {w : Walk} (h : t.walk = some w) (hf : w.frozen = none) (hs : w.start = t.s0) : t.dts t.s0 = t.a := by
  rw [dts_anchor, TimeS.walked, h]
  dsimp only
  rw [← hs, residual_start hf]
  ring

/-- Later in a state that differs in the note of events alone, DTS is the same. -/
theorem Noted.dts {x y : TimeS} (h : Noted x y) (u : Nat) : y.dts u = x.dts u := h.of (TimeS.dts · u) (fun _ _ => rfl)

end Sys2Proof.Proofs
end

section
/-!
The realignment of the grid after the reference is back, by STEP and by WALK (R49 to R51).
-/

namespace Sys2Proof.Proofs

open Sys2Proof Sys2Proof.Machine Sys2Proof.Laws

/-- The fields in which the end of the coasting shows. -/
def coastFlds : List Reg.Fld := [Reg.TOP_DOMAIN_COAST, Reg.SCS_STAT_HOLD, Reg.TB_QUAL_HI_COAST]

/-- The fields in which a realignment shows. -/
def jumpFlds : List Reg.Fld :=
  [Reg.TB_JUMP_VALID, Reg.TB_JUMP_MODE, Reg.TB_JUMP_SKIP, Reg.TB_JUMP_PHASE, whole Reg.TB_JUMP_STU_LO, whole (Reg.TB_JUMP_STU_LO + 4), Reg.TB_EVT_REALIGNED]

section

variable (s : State)

theorem coastEnd_time : ∃ c b, s.coastEnd.time = { s.time with unc := c, uncAt := b } := by
  refine ⟨s.uncAt s.now, s.now, ?_⟩
  rw [State.coastEnd, fsetB_time, fsetB_time, fsetB_time]
  rfl

theorem coastEnd_flds : FldsKept coastFlds s s.coastEnd :=
  ((((FldsKept.refl s).of_regs (u := s.foldUnc) rfl).fsetB (by decide) _).fsetB (by decide) _).fsetB (by decide) _

theorem coastEnd_coast : s.coastEnd.flag Reg.TOP_DOMAIN_COAST = false := by
  rw [State.coastEnd, flag_fsetB_fldApart _ _ (by decide), flag_fsetB_fldApart _ _ (by decide), flag_fsetB_same _ _ _ rfl (by decide)]

variable (walk : Bool) (skip : Nat) (e : Int) (u : Nat)

theorem showJump_clkSame : ClkSame s (s.showJump walk skip e u) := by
  unfold State.showJump
  exact ((((((Aside.refl s).fsetB trivial _).fsetB trivial _).fset trivial _).fset trivial _).rset64 trivial trivial _).evt trivial

theorem showJump_flds : FldsKept jumpFlds s (s.showJump walk skip e u) := by
  unfold State.showJump
  exact ((((((FldsKept.refl s).fsetB (by decide) _).fsetB (by decide) _).fset (by decide) _).fset (by decide) _).rset64 (by decide) (by decide) _).evt (by decide)

theorem showJump_evt : (s.showJump walk skip e u).flag Reg.TB_EVT_REALIGNED = true := flag_evt_same _ _ rfl (by decide)

theorem showJump_mode : (s.showJump walk skip e u).flag Reg.TB_JUMP_MODE = walk := by
  rw [State.showJump, flag_evt_fldApart _ (by decide), flag_rset64_ne _ _ (by decide) (by decide), flag_fset_fldApart _ _ (by decide), flag_fset_fldApart _ _ (by decide),
    flag_fsetB_same _ _ _ rfl (by decide)]

theorem showJump_skip (h : skip < 256) : (s.showJump walk skip e u).fget Reg.TB_JUMP_SKIP = skip := by
  rw [State.showJump, fget_evt_fldApart _ (by decide), fget_rset64_ne _ _ (by decide) (by decide), fget_fset_fldApart _ _ (by decide), fget_fset_fits _ (by decide) h]

end

/-! ## STEP (R50) -/

/-- After a STEP the time stands at the grid point, DTS as it was, and TB_JUMP shows the skip. -/
theorem stepRealign_shows (s : State) {skip : Nat} (hs : skip < 256) (e : Int) :
    let u := s.stepRealign skip e
    u.now = s.now + skip ∧ u.time.realign = none ∧ u.time.walk = none ∧ u.flag Reg.TOP_DOMAIN_COAST = false ∧ u.fget Reg.TB_JUMP_SKIP = skip ∧
      u.flag Reg.TB_JUMP_MODE = false ∧ u.flag Reg.TB_EVT_REALIGNED = true ∧ u.dts u.now = s.dts s.now := by
  unfold State.stepRealign
  extract_lets u d s1 cut s2 s3 r
  have t1 : s1.time = { (s.time.rebase s.now) with a := d, s0 := u, stu := u, walk := none, realign := none } := timeMod_time ..
  clear_value s1
  obtain ⟨c, b, t2⟩ : ∃ c b, s2.time = { s1.time with unc := c, uncAt := b } := by
    obtain ⟨c, b, h⟩ := coastEnd_time ((s1.rsetN Reg.CCS_TICKCYC ((s.rget Reg.CCS_TICKCYC).toNat - cut)).ccsMod (fun c => { c with stepCut := cut }))
    rw [ccsMod_time, rsetN_time] at h
    exact ⟨c, b, h⟩
  have c2 : s2.flag Reg.TOP_DOMAIN_COAST = false := coastEnd_coast _
  clear_value s2
  have hj := showJump_clkSame (s2.fsetB Reg.TB_QUAL_HI_WALK false) false skip e u
  have cj : ((s2.fsetB Reg.TB_QUAL_HI_WALK false).showJump false skip e u).flag Reg.TOP_DOMAIN_COAST = false := by
    rw [(showJump_flds _ _ _ _ _).flag (by decide) (by decide), flag_fsetB_fldApart _ _ (by decide), c2]
  have kj := showJump_skip (s2.fsetB Reg.TB_QUAL_HI_WALK false) false skip e u hs
  have mj := showJump_mode (s2.fsetB Reg.TB_QUAL_HI_WALK false) false skip e u
  have ej := showJump_evt (s2.fsetB Reg.TB_QUAL_HI_WALK false) false skip e u
  have nj : Noted s2.time ((s2.fsetB Reg.TB_QUAL_HI_WALK false).showJump false skip e u).time := by
    have := hj.time
    rw [fsetB_time] at this
    exact this
  have hr : ClocksKept ((s2.fsetB Reg.TB_QUAL_HI_WALK false).showJump false skip e u) r :=
    (((Aside.refl _).skipNote u skip).of_eq (exclude_regs _) (exclude_time _) (exclude_clk _)).foldl _ fun _ hx c _ => hx.convMark c _
  clear_value r
  generalize State.showJump _ _ _ _ _ = v at hr cj kj mj ej nj
  have hn : Noted s2.time r.time := nj.trans hr.time
  have low {f : Reg.Fld} (h : f.addr < 0x40000) : ¬ PastClocks f.addr := Nat.not_le_of_lt h
  have hnow : r.now = u := by
    rw [State.now, hn.of TimeS.stu (fun _ _ => rfl), t2, t1]
  refine ⟨hnow, ?_, ?_, (hr.flag (low (by decide))).trans cj, (hr.fget (low (by decide))).trans kj, (hr.flag (low (by decide))).trans mj,
    (hr.flag (low (by decide))).trans ej, ?_⟩
  · rw [hn.of TimeS.realign (fun _ _ => rfl), t2, t1]
  · rw [hn.of TimeS.walk (fun _ _ => rfl), t2, t1]
  · have h0 : s2.time.s0 = u ∧ s2.time.walk = none ∧ s2.time.a = d := by rw [t2, t1]; exact ⟨rfl, rfl, rfl⟩
    rw [State.dts, hn.dts, hnow, ← h0.1, dts_anchor_still h0.2.1, h0.2.2]

/-! ## WALK (R51) -/

/-- At the start of a WALK the time and DTS stand as they were. -/
theorem walkStart_shows (s : State) (e : Int) :
    let u := s.walkStart e
    u.now = s.now ∧ u.time.realign = none ∧ u.flag Reg.TB_QUAL_HI_WALK = true ∧
      u.time.walk = some { e := e, start := s.now, ppm := max 1 (min 100 (s.fget Reg.TB_CTRL_WALK_PPM)) } ∧ u.dts u.now = s.dts s.now := by
  intro u
  have ht : u.time = { (s.time.rebase s.now) with
      a := s.dts s.now, s0 := s.now, realign := none
      walk := some { e := e, start := s.now, ppm := max 1 (min 100 (s.fget Reg.TB_CTRL_WALK_PPM)) } } := by
    dsimp only [u]
    rw [State.walkStart, fsetB_time, timeMod_time, clampN_eq _ (by decide)]
  have hw : u.flag Reg.TB_QUAL_HI_WALK = true := flag_fsetB_same _ _ _ rfl (by decide)
  clear_value u
  have hnow : u.now = s.now := by rw [State.now, ht]; rfl
  have h0 : u.time.s0 = s.now ∧ u.time.a = s.dts s.now := by rw [ht]; exact ⟨rfl, rfl⟩
  have hk : u.time.walk = some { e := e, start := s.now, ppm := max 1 (min 100 (s.fget Reg.TB_CTRL_WALK_PPM)) } :=
    congrArg TimeS.walk ht
  refine ⟨hnow, congrArg TimeS.realign ht, hw, hk, ?_⟩
  exact (congrArg u.time.dts (hnow.trans h0.1.symm)).trans ((dts_anchor_walk hk rfl h0.1.symm).trans h0.2)

/-- The state at a walk's end, DTS anchored anew. -/
def walkDone (s : State) (w : Walk) : State :=
  let s1 := s.at w.endStu
  s1.timeMod (fun t => { (t.rebase s1.now) with a := s1.dts s1.now, walk := none })

/-- A WALK ends where its residual does. -/
theorem execWalkEnd_eq {s : State} {w : Walk} (h : s.time.walk = some w) (hf : w.frozen = none) :
    execWalkEnd s = .next (((walkDone s w).fsetB Reg.TB_QUAL_HI_WALK false).coastEnd.showJump true 0 w.e (walkDone s w).now) := by
  unfold execWalkEnd
  rw [h]
  dsimp only
  rw [hf]
  rfl

/-- TB_JUMP shows the walk that has ended. -/
theorem execWalkEnd_ends {s : State} {w : Walk} (h : s.time.walk = some w) (hf : w.frozen = none) :
    ∃ u : State, execWalkEnd s = .next u ∧ u.now = (s.at w.endStu).now ∧ u.time.walk = none ∧ u.flag Reg.TOP_DOMAIN_COAST = false ∧ u.flag Reg.TB_QUAL_HI_WALK = false ∧
      u.flag Reg.TB_JUMP_MODE = true ∧ u.flag Reg.TB_EVT_REALIGNED = true := by
  refine ⟨_, execWalkEnd_eq h hf, ?_⟩
  have n2 : (walkDone s w).now = (s.at w.endStu).now := rfl
  have k2 : (walkDone s w).time.walk = none := rfl
  generalize walkDone s w = s2 at n2 k2 ⊢
  have hj := showJump_clkSame (s2.fsetB Reg.TB_QUAL_HI_WALK false).coastEnd true 0 w.e s2.now
  obtain ⟨c, b, hc⟩ := coastEnd_time (s2.fsetB Reg.TB_QUAL_HI_WALK false)
  have low := showJump_flds (s2.fsetB Reg.TB_QUAL_HI_WALK false).coastEnd true 0 w.e s2.now
  rw [fsetB_time] at hc
  have hwalk : (s2.fsetB Reg.TB_QUAL_HI_WALK false).coastEnd.flag Reg.TB_QUAL_HI_WALK = false := by
    rw [(coastEnd_flds _).flag (by decide) (by decide), flag_fsetB_same _ _ _ rfl (by decide)]
  have hcoast := coastEnd_coast (s2.fsetB Reg.TB_QUAL_HI_WALK false)
  generalize State.coastEnd _ = v at hj hc hwalk hcoast low ⊢
  refine ⟨?_, ?_, by rw [low.flag (by decide) (by decide), hcoast], by rw [low.flag (by decide) (by decide), hwalk], showJump_mode .., showJump_evt ..⟩
  · rw [hj.now, State.now, hc]
    exact n2
  · rw [hj.time.of TimeS.walk (fun _ _ => rfl), hc]
    exact k2

/-! ## The measured edge (R49) -/

/-- The first edge of the returned reference. -/
def edgeSeen (s : State) (t : Nat) : State := s.timeMod (fun x => { x with stu := max x.stu t })

theorem edgeSeen_fget (s : State) (t : Nat) (k : Reg.Fld) : (edgeSeen s t).fget k = s.fget k := fget_of_regs (timeMod_regs ..) k

theorem edgeSeen_dts (s : State) (t u : Nat) : (edgeSeen s t).dts u = s.dts u := rfl

/-- The stu to the next point of the grid. -/
def gridSkip (u : Nat) : Nat := (160 - u % 160) % 160

/-- The phase of the nearest point of the grid. -/
def gridPhase (u : Nat) : Int := if gridSkip u ≤ 79 then -(gridSkip u : Int) else 160 - (gridSkip u : Int)

theorem execRealignEdge_steps {s : State} (h : s.time.realign = some false) (t : Nat) :
    execRealignEdge t s = .next ((edgeSeen s t).stepRealign (gridSkip (edgeSeen s t).now) (gridPhase (edgeSeen s t).now)) := by
  unfold execRealignEdge
  rw [h]
  rfl

theorem execRealignEdge_walks {s : State} (h : s.time.realign = some true) (t : Nat) :
    execRealignEdge t s = .next ((edgeSeen s t).walkStart (gridPhase (edgeSeen s t).now)) := by
  unfold execRealignEdge
  rw [h]
  rfl

/-- Settles O35: the reference's clauses by the rules of its windows and its realignment, the loops' by those of the search, the windows and a lock's loss. -/
theorem referenceAndLockLoops : Obligations.ReferenceAndLockLoops := by
  constructor
  · intro s t edges span w y here skip phase coasting near
    refine ⟨fun h hlo hhi => ?_, fun h hout => ?_, fun ⟨h, hc⟩ hl hlo hhi => ?_, fun ⟨h, hc⟩ hl => execRefQualWindow_dropped h hc hl t, fun ⟨h, hc⟩ hl hn hq => ?_,
      fun ⟨h, hc⟩ hl hn hq => ?_, fun ⟨h, hc⟩ hl hn hq => ?_, fun ⟨h, hc⟩ hl hn hq => ?_, fun h => ?_, fun h => ?_, execWalkEnd_ends⟩
    · exact (execRefMonitorWindow_present h t edges).trans (congrArg _ (if_pos ⟨hlo, hhi⟩))
    · obtain ⟨hnow, href, hcoast, hq, he, hre, hl⟩ := refLost_shows (s.at t)
      exact ⟨_, (execRefMonitorWindow_present h t edges).trans (congrArg _ (if_neg (by omega))), hnow, href, hcoast, hq, he, hre, hl.trans (at_flag ..)⟩
    · obtain ⟨href, hcoast⟩ := newRef_shows (s.at t)
      exact ⟨_, execRefMonitorWindow_back h hc hl hlo hhi t, (flag_evt_fldApart _ (by decide)).trans href, (flag_evt_fldApart _ (by decide)).trans hcoast,
        flag_evt_same _ _ rfl (by decide)⟩
    · exact (execRefQualWindow_near h hc hl t hn).trans (congrArg _ (if_pos (by omega)))
    · obtain ⟨href, he, hre⟩ := loopsResume_back ((s.at t).timeMod (fun x => { x with qualWins := s.time.qualWins + 1, newRefWins := 0 }))
        (some (((s.at t).timeMod (fun x => { x with qualWins := s.time.qualWins + 1, newRefWins := 0 })).fget Reg.TB_CTRL_REALIGN == 1))
      refine ⟨_, (execRefQualWindow_near h hc hl t hn).trans (congrArg _ (if_neg (by omega))), href, he, hre.trans ?_⟩
      rw [fget_of_regs (timeMod_regs ..), at_fget]
      rfl
    · exact (execRefQualWindow_far h hc hl t hn).trans (congrArg _ (if_pos (by omega)))
    · exact ⟨_, (execRefQualWindow_far h hc hl t hn).trans (congrArg _ (if_neg (by omega))), newRef_shows _⟩
    · obtain ⟨hnow, hrest⟩ := stepRealign_shows (edgeSeen s t) (skip := gridSkip (edgeSeen s t).now) (by unfold gridSkip; omega) (gridPhase (edgeSeen s t).now)
      rw [edgeSeen_dts] at hrest
      exact ⟨_, execRealignEdge_steps h t, hnow, hrest⟩
    · obtain ⟨hnow, hre, hq, hwalk, hdts⟩ := walkStart_shows (edgeSeen s t) (gridPhase (edgeSeen s t).now)
      rw [edgeSeen_dts] at hdts
      rw [edgeSeen_fget] at hwalk
      exact ⟨_, execRealignEdge_walks h t, hnow, hre, hq, hwalk, hdts⟩
  · intro s l count t k lo hi win good x mid lo' hi' band run counted safe lost locked dead hr
    have hnow (phase : LoopPhase) := windowNext_now s l count phase
    have href (phase : LoopPhase) := (windowNext_ref s l count phase).trans hr
    have hat (u : Nat) : (s.at u).flag Reg.TOP_DOMAIN_REF_OK = true := (at_flag ..).trans hr
    refine ⟨fun h hk => ?_, fun h hk => ?_, fun h hrun hwin => ?_, fun h hrun => ?_, fun h hrun hf => ?_, fun h hrun hf => ?_, fun h hrun hf ht => ?_,
      fun h hlo hhi => ?_, fun h hout => ?_, fun h => ?_, fun h => ?_, fun h => ?_, fun h => ?_, fun h => execCcsNoEdge_safe h t⟩
    · refine ⟨_, execBandSearchStep_halves hr h hk count, (now_of_time ((showBand_time ..).trans (setLoop_time ..))), ?_, ?_⟩
      · rw [loop_of_clk _ (showBand_clk ..), loop_setLoop]
      · exact showBand_band ..
    · refine ⟨_, execBandSearchStep_ends hr h hk count, (now_of_time ((showBand_time ..).trans (setLoop_time ..))), ?_, ?_⟩
      · rw [loop_of_clk _ (showBand_clk ..), loop_setLoop]
      · exact showBand_band ..
    · refine ⟨_, (execLockWindow_count hr h count).trans (congrArg _ ((if_neg hrun).trans (if_neg (by omega)))), hnow _, windowNext_loop ..⟩
    · refine ⟨_, (execLockWindow_count hr h count).trans (congrArg _ (if_pos hrun)), ?_⟩
      cases l with
      | scs =>
        obtain ⟨hn, hphase, hfails, hshown⟩ := loopLock_scs (windowNext s .scs count (.count (win + 1) (goodRun count good)))
        exact ⟨hn.trans (hnow _), hphase, hfails, hshown⟩
      | ccs =>
        obtain ⟨hn, hphase, hfails, hshown⟩ := loopLock_ccs (windowNext s .ccs count (.count (win + 1) (goodRun count good)))
        exact ⟨hn.trans (hnow _), hphase, hfails, hshown⟩
    · refine ⟨_, (execLockWindow_count hr h count).trans (congrArg _ ((if_neg hrun).trans (if_pos rfl))), ?_⟩
      have hx := windowNext_loop s l count (.count 16 (goodRun count good))
      have := loopFail_searches (href (.count 16 (goodRun count good))) (by rw [hx]; exact hf)
      rw [hx] at this
      exact this
    · refine ⟨_, (execLockWindow_count hr h count).trans (congrArg _ ((if_neg hrun).trans (if_pos rfl))), ?_⟩
      have := loopFail_quarantines (s := windowNext s l count (.count 16 (goodRun count good))) (l := l) (by rw [windowNext_loop]; exact hf)
      rw [windowNext_tick] at this
      exact this
    · refine ⟨_, (execLockWindow_count hr h count).trans (congrArg _ ((if_neg hrun).trans (if_pos rfl))), ?_⟩
      rw [loopFail_waits (by rw [windowNext_loop]; exact hf), loop_setLoop, windowNext_loop, windowNext_tick]
      exact ⟨rfl, nextRetry_spaced ht⟩
    · refine ⟨_, (execLockWindow_locked hr h count).trans (congrArg _ (if_pos ⟨hlo, hhi⟩)), hnow _, ?_⟩
      rw [windowNext_loop, LoopS.next, ← h]
    · refine ⟨_, (execLockWindow_locked hr h count).trans (congrArg _ (if_neg (by omega))), ?_⟩
      cases l with
      | scs =>
        obtain ⟨hl, hp⟩ := scsLose_lost (windowNext s .scs count .locked) false
        exact ⟨hl.now.trans (hnow _), hl.domain, hl.stat, hl.evt, hl.coarse, hp (href _)⟩
      | ccs =>
        obtain ⟨hs, he⟩ := ccsLose_coreSafe (windowNext s .ccs count .locked)
        exact ⟨hs.now.trans ((now_evt ..).trans (hnow _)), hs.lock, he, hs.domain, hs.stat, hs.evt, hs.phase ((flag_evt_fldApart _ (by decide)).trans (href _)), hs.base⟩
    · refine ⟨_, execSlipDetect_locked hr h t, ?_⟩
      cases l with
      | scs =>
        obtain ⟨hl, hp⟩ := scsLose_lost (s.at t) true
        exact ⟨hl.now, ⟨hl.domain, hl.stat, hl.evt, hl.coarse, hp (hat t)⟩, fun _ => ⟨hl.slipped rfl, hl.lostStu.trans (congrArg (· % _) hl.now.symm)⟩⟩
      | ccs =>
        obtain ⟨hs, he⟩ := ccsLose_coreSafe (s.at t)
        exact ⟨hs.now.trans (now_evt ..), ⟨hs.lock, he, hs.domain, hs.stat, hs.evt, hs.phase ((flag_evt_fldApart _ (by decide)).trans (hat t)), hs.base⟩, nofun⟩
    · refine ⟨_, execScsRetry_failed h, now_of_time (startSearch_time ..), ?_, startSearch_searches (hat _) _, startSearch_band ..⟩
      rw [clk_scs, startSearch_loop _ (hat _)]
    · refine ⟨_, execCcsRetry_failed h, now_of_time (startSearch_time ..), ?_, startSearch_band ..⟩
      rw [clk_ccs_loop, startSearch_loop _ (hat _)]
    · obtain ⟨v, u, hu, hs, hn, hv, he⟩ := execCcsNoEdge_switches hr h t
      exact ⟨u, hu, hs.now.trans hn, ⟨hs.domain, hs.stat, hs.evt, hs.phase hv, hs.base⟩, hs.lock, he⟩

end Sys2Proof.Proofs
end

section
/-!
A reset of the islands and what its release starts (R23, R357, R500 to R502, R506).
-/

namespace Sys2Proof.Proofs

open Sys2Proof Sys2Proof.Machine Sys2Proof.Laws

/-! ## The islands (R23, R501) -/

/-- Of a file thinned by address the rest reads as reset leaves it. -/
theorem regsGet_filter (keep : Nat → Bool) (f : RegFile) (a : Nat) :
    regsGet (f.filter (fun p => keep p.1)) a = if keep a = true then regsGet f a else Reg.resetOf a := by
  induction f with
  | nil => rw [List.filter_nil, regsGet, ite_self]
  | cons p t ih =>
    obtain ⟨c, w⟩ := p
    by_cases hc : keep c = true
    · rw [List.filter_cons_of_pos (p := fun p : Nat × Word => keep p.1) hc, regsGet, regsGet, ih]
      by_cases hca : c = a
      · rw [if_pos hca, if_pos hca, if_pos (show keep a = true from hca ▸ hc)]
      · rw [if_neg hca, if_neg hca]
    · rw [List.filter_cons_of_neg (p := fun p : Nat × Word => keep p.1) hc, ih]
      by_cases ha : keep a = true
      · rw [if_pos ha, if_pos ha, regsGet, if_neg (fun e : c = a => hc (e ▸ ha))]
      · rw [if_neg ha, if_neg ha]

theorem islands_rget (s : State) (a : Nat) : s.islands.rget a = if keptReg a = true then s.rget a else Reg.resetOf a := regsGet_filter keptReg s.regs a

theorem islands_islands (s : State) : s.Islands s.islands := by
  refine ⟨rfl, rfl, fun e => ?_, rfl, rfl, rfl, rfl, rfl, rfl, fun a ha => (islands_rget s a).trans (if_neg ?_)⟩
  · change (List.replicate 8 (none : Option Run)).getD e none = none
    rw [List.getD_eq_getElem?_getD, List.getElem?_replicate]
    split <;> rfl
  · simp only [keptReg, Reg.FLT_RSTCAUSE, Reg.FLT_RSTSTU, Bool.or_eq_true, Bool.and_eq_true, decide_eq_true_iff, beq_iff_eq]
    omega

/-- A pin or a supply that resets the device leaves every island but the backup domain as reset does (R500, R501, R534). -/
theorem resetBy_down (s : State) (t : Nat) (f : BootS → BootS) (hrom : ∀ b, (f b).rom = b.rom) (hhold : ∀ b, (f b).hold = b.hold) (hf5 : ∀ b, (f b).f5 = b.f5) :
    s.Islands (s.resetBy t f) ∧ (s.resetBy t f).boot.hold = false ∧ (s.resetBy t f).boot.f5 = false ∧
      (s.resetBy t f).boot = f { (s.at t).islands.boot with hold := false, f5 := false } := by
  obtain ⟨htime, hctxs, hrun, hreqs, hhost, -, hing, howk, hpend, hreg⟩ := islands_islands (s.at t)
  refine ⟨⟨htime, hctxs, hrun, hreqs, hhost, hrom _, ?_, ?_, ?_, hreg⟩, hhold _, hf5 _, rfl⟩
  · exact hing.trans (by rw [at_fst])
  · exact howk.trans (by rw [at_wit])
  · exact hpend.trans (at_pending ..)

/-! ## The release of reset (R502, R506) -/

/-- What the boot ROM's start leaves alone, beside registers. -/
def bootView : View (BootS × List (Nat × ContextS) × Bool) := ⟨fun s => (s.boot, s.ctxs, s.host.bound), fun _ _ _ => rfl⟩

/-- The registers that a release of reset sets beside those of the BOOT block. -/
def BesideBoot (a : Nat) : Prop := a < 0x10000 ∨ 0x20000 ≤ a ∧ a < 0xF0000 ∨ 0x100000 ≤ a ∧ a ≠ Reg.FLT_RSTCAUSE ∧ a ≠ Reg.FLT_RSTSTU

theorem besideBoot_mid {a : Nat} (h : 0x20000 ≤ a) (h' : a < 0xF0000) : BesideBoot a := .inr (.inl ⟨h, h'⟩)

theorem not_besideBoot {a : Nat} (h : 0x10000 ≤ a) (h' : a < 0x20000) : ¬ BesideBoot a := by
  simp only [BesideBoot, Reg.FLT_RSTCAUSE, Reg.FLT_RSTSTU]
  omega

theorem besideBoot_of_reportReg {a : Nat} (h : ReportReg [] a) : BesideBoot a := by
  rcases h with rfl | h | h | h | ⟨p, hp, -⟩
  · exact besideBoot_mid (by decide) (by decide)
  · exact besideBoot_mid (by omega) (by omega)
  · exact .inr (.inr ⟨by omega, by simp only [Reg.FLT_RSTCAUSE]; omega, by simp only [Reg.FLT_RSTSTU]; omega⟩)
  · exact .inr (.inr ⟨h.1, h.2.2⟩)
  · exact absurd hp List.not_mem_nil

theorem Aside.ctxs_of_bootView {A : Nat → Prop} {s t : State} (h : Aside bootView A s t) : t.ctxs = s.ctxs := congrArg (·.2.1) h.view

theorem Aside.boot_of_bootView {A : Nat → Prop} {s t : State} (h : Aside bootView A s t) : t.boot = s.boot := congrArg (·.1) h.view

theorem Aside.bound_of_bootView {A : Nat → Prop} {s t : State} (h : Aside bootView A s t) : t.host.bound = s.host.bound := congrArg (·.2.2) h.view

theorem Aside.fst_of_reportView {A : Nat → Prop} {s t : State} (h : Aside reportView A s t) : t.fst = s.fst := congrArg (·.2.2.1) h.view

/-- The registers of the synthesizers. -/
def ClockReg (a : Nat) : Prop := 0x30000 ≤ a ∧ a < 0x40000

section

variable {α : Type} {s t : State}

theorem Aside.startSearch {p : View α} {A : Nat → Prop} (h : Aside p A s t) (hA : ∀ a, ClockReg a → A a)
    (hp : ∀ (x : State) (c : ClockS), p.part { x with clk := c } = p.part x) (l : LoopId) (u : Nat) : Aside p A s (t.startSearch l u) := by
  have hset (x : LoopS) : Aside p A s (t.setLoop l x) := by cases l <;> exact h.of_eq rfl rfl (hp t _)
  have hshow {y : State} (hy : Aside p A s y) (b : Nat) (on : Bool) : Aside p A s (y.showBand l b on) := by
    cases l with
    | scs => exact (hy.fset (hA _ (show ClockReg 0x30000 from ⟨by decide, by decide⟩)) _).fsetB (hA _ (show ClockReg 0x30000 from ⟨by decide, by decide⟩)) _
    | ccs => exact hy.fset (hA _ (show ClockReg 0x34004 from ⟨by decide, by decide⟩)) _
  unfold State.startSearch
  split
  · exact hshow (hset _) _ _
  · exact hshow (hset _) _ _

theorem Aside.icsStart {p : View α} {A : Nat → Prop} (h : Aside p A s t) (hA : ∀ a, ClockReg a → A a)
    (hp : ∀ (x : State) (c : ClockS), p.part { x with clk := c } = p.part x) (u : Nat) : Aside p A s (t.icsStart u) :=
  (h.fsetB (hA _ (show ClockReg 0x38000 from ⟨by decide, by decide⟩)) true).of_eq rfl rfl (hp _ _)

end

theorem Aside.fstMod {α : Type} {p : View α} {A : Nat → Prop} {s t : State} (h : Aside p A s t) (hp : ∀ (x : State) (y : FstS), p.part { x with fst := y } = p.part x)
    (f : FstS → FstS) : Aside p A s (t.fstMod f) :=
  h.of_eq (fstMod_regs ..) (fstMod_time ..) (hp t _)

/-- The registers of the targets found. -/
def TargetReg (a : Nat) : Prop := 0xC0080 ≤ a ∧ a < 0xC0090

section

variable (s : State) (os : List TgtObs)

/-- What discovery notes of the targets, before it judges the set. -/
def targetsShown : State :=
  let ts := os.map TgtObs.found
  let g := geomOf ts
  let s1 := (List.range 4).foldl (fun (x : State) c => match ts.getD c none with
    | none => x.rsetN (Reg.FST_TGT c) 0
    | some t => x.rsetN (Reg.FST_TGT c) (2147483648 + (t.luns - 1) % 8 * 268435456 + t.mode % 256)) s
  let s2 := (s1.fset Reg.FST_STAT_TARGETS g.targets).rsetN Reg.FST_GEOM ((g.page / 1024) % 256 * 16777216 + g.bits % 16 * 1048576 + (g.bpl * g.luns) % 1048576)
  let bad := (List.range 4).flatMap (fun c => if (ts.getD c none).isSome then (os.getD c {}).bad.map (fun b => (c, b)) else [])
  s2.fstMod (fun x => { x with bad := bad, found := ts })

theorem discover_eq :
    s.discover os =
      if supported (os.map TgtObs.found) = true then
        (targetsShown s os).fset Reg.FST_STAT_N (maxN (((os.map TgtObs.found).filterMap id).map (fun t => nandDiv t.clk)))
      else ((targetsShown s os).fset Reg.FST_STAT_STATE 5).fault 0x2006 0xFF 0xFF 0 := rfl

theorem targetsShown_shows :
    (targetsShown s os).fst.found = os.map TgtObs.found ∧ (targetsShown s os).fget Reg.FST_STAT_STATE = s.fget Reg.FST_STAT_STATE ∧
      Aside bootView BesideBoot s (targetsShown s os) := by
  unfold targetsShown
  extract_lets ts g s1 s2 bad
  have h1 : Aside bootView TargetReg s s1 := (Aside.refl s).foldl _ fun x hx c hc => by
    have hc4 : TargetReg (Reg.FST_TGT c) := by
      have := List.mem_range.mp hc
      unfold TargetReg Reg.FST_TGT
      omega
    split
    · exact hx.rsetN hc4 _
    · exact hx.rsetN hc4 _
  clear_value s1
  have f2 : s2.fget Reg.FST_STAT_STATE = s.fget Reg.FST_STAT_STATE := by
    rw [fget_rsetN_ne _ _ (by decide), fget_fset_fldApart _ _ (by decide), h1.fget (fun h => absurd h.1 (by decide))]
  have b1 : Aside bootView BesideBoot s s1 := h1.mono (fun a h => besideBoot_mid (by have := h.1; omega) (by have := h.2; omega)) id (fun _ => rfl)
  have b2 : Aside bootView BesideBoot s s2 :=
    (b1.fset (besideBoot_mid (by decide) (by decide)) _).rsetN (besideBoot_mid (by decide) (by decide)) _
  clear_value s2
  exact ⟨rfl, (fget_of_regs (fstMod_regs ..) _).trans f2, b2.fstMod (fun _ _ => rfl) _⟩

/-- Discovery finds the targets, and goes no further where they form no supported set (R357, R358). -/
theorem discover_shows (hs : s.ctxs = []) (hst : s.fget Reg.FST_STAT_STATE = 1) :
    (s.discover os).fst.found = os.map TgtObs.found ∧ (s.discover os).fget Reg.FST_STAT_STATE = (if supported (os.map TgtObs.found) = true then 1 else 5) ∧
      Aside bootView BesideBoot s (s.discover os) := by
  obtain ⟨hfound, hstate, hb⟩ := targetsShown_shows s os
  rw [discover_eq]
  have hctxs : (targetsShown s os).ctxs = [] := hb.ctxs_of_bootView.trans hs
  generalize targetsShown s os = v at hfound hstate hb hctxs ⊢
  have stat : BesideBoot Reg.FST_STAT := besideBoot_mid (by decide) (by decide)
  split
  · exact ⟨(congrArg FstS.found (fset_fst ..)).trans hfound, (fget_fset_fldApart _ _ (by decide)).trans (hstate.trans hst), hb.fset stat _⟩
  · have k := fault_aside (v.fset Reg.FST_STAT_STATE 5) 0x2006 0xFF 0xFF 0
    have hc : (v.fset Reg.FST_STAT_STATE 5).ctxs = [] := (fset_ctxs ..).trans hctxs
    rw [hc] at k
    have kb := (hb.fset (f := Reg.FST_STAT_STATE) stat 5).trans (k.mono (fun _ => besideBoot_of_reportReg) (fun x => (x.2.1, x.2.2.2.1, x.2.2.2.2.2)) (fun _ => rfl))
    refine ⟨(congrArg FstS.found (k.fst_of_reportView.trans (fset_fst ..))).trans hfound, ?_, kb⟩
    rw [k.fget (not_reportReg (.inl (by decide)) (by decide)), fget_fset_fits _ (by decide) (by decide)]

end

theorem Aside.setWarden {α : Type} {p : View α} {A : Nat → Prop} {s t : State} (h : Aside p A s t) (hA : A Reg.FLT_STAT) (w v : Nat) : Aside p A s (t.setWarden w v) := by
  have hw : A (wdField w).addr := by
    unfold wdField
    split <;> exact hA
  exact (h.fset hw v).fsetB (f := Reg.FLT_STAT_NOSTBY) hA _

/-- A release of reset boots the device, and keeps the cause of the last F5 (R491, R502, R506). -/
theorem bootStart_booted {s : State} (hr : s.boot.resetLow = false) (hm : s.boot.tmode = false) (hl : s.boot.supplyLow = false) (i : BootIn) :
    s.Booted (s.bootStart i) i ∧ (s.bootStart i).rget Reg.FLT_RSTCAUSE = s.rget Reg.FLT_RSTCAUSE ∧ (s.bootStart i).rget Reg.FLT_RSTSTU = s.rget Reg.FLT_RSTSTU := by
  unfold State.bootStart
  extract_lets s0 _ _ s1 stage s2 s3 s4 s5
  have hup : s1.up = true := by
    change (!(s.boot.resetLow || s.boot.tmode || s.boot.supplyLow || false || false)) = true
    rw [hr, hm, hl]
    rfl
  have hrom : s1.boot.rom = true := rfl
  have honB : s1.boot.onB = !i.wdaOk := rfl
  have hctxs : s1.ctxs = [] := rfl
  have hbound : s1.host.bound = false := rfl
  have hnow : s1.now = 0 := rfl
  have hcause (a : Nat) (h : keptReg a = true) : s1.rget a = s.rget a := (rget_of_regs rfl a).trans ((islands_rget s a).trans (if_pos h))
  clear_value s1
  have hstage : stage < 8 := by
    change (if i.bootsel = 0 then 0 else if i.bootsel = 3 then 4 else 1) < 8
    split
    · decide
    · split <;> decide
  have a2 : Aside bootView (fun a => 0x10000 ≤ a ∧ a < 0x20000) s1 s2 := (((Aside.refl s1).fset (by decide) _).fset (by decide) _).fset (by decide) _
  have sel2 : s2.fget Reg.BOOT_STAT_BOOTSEL = i.bootsel := by
    rw [fget_fset_fldApart _ _ (by decide), fget_fset_fldApart _ _ (by decide), fget_fset_fits _ (by decide) i.bootsel.isLt]
  have twa2 : s2.fget Reg.BOOT_STAT_TWADDR = i.twaddr := by
    rw [fget_fset_fldApart _ _ (by decide), fget_fset_fits _ (by decide) i.twaddr.isLt]
  have stage2 : s2.fget Reg.BOOT_STAT_STAGE = stage := fget_fset_fits _ (by decide) hstage
  clear_value s2
  have a3 : Aside bootView (fun a => 0x10000 ≤ a ∧ a < 0x20000) s1 s3 := ((a2.fsetB (by decide) _).fsetB (by decide) _).fsetB (by decide) _
  have stat3 {f : Reg.Fld} (h : fldApart Reg.BOOT_CAUSE_HIBWAKE f = true ∧ fldApart Reg.BOOT_CAUSE_SUPMON f = true ∧ fldApart Reg.BOOT_CAUSE_F5 f = true) :
      s3.fget f = s2.fget f := by
    rw [fget_fsetB_fldApart _ _ h.2.2, fget_fsetB_fldApart _ _ h.2.1, fget_fsetB_fldApart _ _ h.1]
  have hib3 : s3.flag Reg.BOOT_CAUSE_HIBWAKE = s.bkp.hib := by
    rw [flag_fsetB_fldApart _ _ (by decide), flag_fsetB_fldApart _ _ (by decide), flag_fsetB_same _ _ _ rfl (by decide)]
  have sup3 : s3.flag Reg.BOOT_CAUSE_SUPMON = s.boot.supmon := by rw [flag_fsetB_fldApart _ _ (by decide), flag_fsetB_same _ _ _ rfl (by decide)]
  have f53 : s3.flag Reg.BOOT_CAUSE_F5 = s.boot.f5 := flag_fsetB_same _ _ _ rfl (by decide)
  clear_value s3
  have stby : BesideBoot Reg.FLT_STAT := .inr (.inr ⟨by decide, by decide, by decide⟩)
  have a4 : Aside bootView BesideBoot s3 s4 := (((Aside.refl s3).fset (.inl (by decide)) _).fsetB (.inl (by decide)) _).fsetB (.inl (by decide)) _
  clear_value s4
  have a5 : Aside bootView BesideBoot s3 s5 := .ite a4 ((a4.setWarden stby _ _).setWarden stby _ _)
  clear_value s5
  have hclk (a : Nat) (h : ClockReg a) : BesideBoot a := besideBoot_mid (by have := h.1; omega) (by have := h.2; omega)
  have a6 : Aside bootView BesideBoot s3 ((s5.fset (Reg.TW_STAT_ADDR 0) (0x58 + i.twaddr)).fset Reg.FST_STAT_STATE 1) :=
    (a5.fset (besideBoot_mid (by decide) (by decide)) _).fset (besideBoot_mid (by decide) (by decide)) _
  have st6 : ((s5.fset (Reg.TW_STAT_ADDR 0) (0x58 + i.twaddr)).fset Reg.FST_STAT_STATE 1).fget Reg.FST_STAT_STATE = 1 := fget_fset_fits _ (by decide) (by decide)
  generalize (s5.fset (Reg.TW_STAT_ADDR 0) (0x58 + i.twaddr)).fset Reg.FST_STAT_STATE 1 = s6 at a6 st6 ⊢
  have k7 : Aside bootView ClockReg s6 ((s6.startSearch .scs 0).icsStart 0) :=
    ((Aside.refl s6).startSearch (fun _ h => h) (fun _ _ => rfl) _ _).icsStart (fun _ h => h) (fun _ _ => rfl) _
  generalize (s6.startSearch .scs 0).icsStart 0 = s7 at k7 ⊢
  have a7 : Aside bootView BesideBoot s3 s7 := a6.trans (k7.mono hclk id (fun _ => rfl))
  have st7 : s7.fget Reg.FST_STAT_STATE = 1 := (k7.fget (fun h => absurd h.2 (by decide))).trans st6
  obtain ⟨hfound, hstate, a8⟩ := discover_shows s7 i.tgts (a7.ctxs_of_bootView.trans (a3.ctxs_of_bootView.trans hctxs)) st7
  generalize s7.discover i.tgts = u at hfound hstate a8 ⊢
  have a9 : Aside bootView BesideBoot s3 u := a7.trans a8
  have low {a : Nat} (h : 0x10000 ≤ a ∧ a < 0x20000) : ¬ BesideBoot a := not_besideBoot h.1 h.2
  have hboot : u.boot = s1.boot := a9.boot_of_bootView.trans a3.boot_of_bootView
  have kept {a : Nat} (hk : keptReg a = true) (hb : ¬ BesideBoot a) (h2 : ¬ (0x10000 ≤ a ∧ a < 0x20000)) : u.rget a = s.rget a :=
    (a9.regs _ hb).trans ((a3.regs _ h2).trans (hcause a hk))
  refine ⟨⟨?_, ?_, ?_, a9.now.trans (a3.now.trans hnow), a9.ctxs_of_bootView.trans (a3.ctxs_of_bootView.trans hctxs),
    a9.bound_of_bootView.trans (a3.bound_of_bootView.trans hbound), ?_, ?_, ?_, ?_, ?_, ?_, hfound, hstate⟩,
    kept (by decide) (fun h => ?_) (by decide), kept (by decide) (fun h => ?_) (by decide)⟩
  · rw [State.up, hboot]
    exact hup
  · rw [hboot, hrom]
  · rw [hboot, honB]
  · rw [a9.fget (low (by decide)), stat3 (by decide), sel2]
  · rw [a9.fget (low (by decide)), stat3 (by decide), twa2]
  · rw [a9.fget (low (by decide)), stat3 (by decide), stage2]
  · rw [a9.flag (low (by decide)), hib3]
  · rw [a9.flag (low (by decide)), sup3]
  · rw [a9.flag (low (by decide)), f53]
  · simp [BesideBoot, Reg.FLT_RSTCAUSE] at h
  · simp [BesideBoot, Reg.FLT_RSTSTU] at h

end Sys2Proof.Proofs
end

section
/-!
The release of reset by each of its causes, the boot window, and firmware that is verified (R491, R503 to R506, R534).
-/

namespace Sys2Proof.Proofs

open Sys2Proof Sys2Proof.Machine Sys2Proof.Laws

/-! ## The release of reset -/

section

variable {s : State}

/-- What has booted is told by what ended alone. -/
theorem booted_congr {z u : State} {i : BootIn} (h : z.Booted u i) (hb : z.bkp = s.bkp) (hs : z.boot.supmon = s.boot.supmon) (hf : z.boot.f5 = s.boot.f5) :
    s.Booted u i := by
  obtain ⟨hup, hrom, honB, hnow, hctxs, hbound, hsel, htwa, hstage, hhib, hsup, hf5, hrest⟩ := h
  exact ⟨hup, hrom, honB, hnow, hctxs, hbound, hsel, htwa, hstage, hhib.trans (by rw [hb]), hsup.trans hs, hf5.trans hf, hrest⟩

theorem clearCause_rget (s : State) : s.clearCause.rget Reg.FLT_RSTCAUSE = 0 ∧ s.clearCause.rget Reg.FLT_RSTSTU = 0 := by
  unfold State.clearCause
  constructor
  · exact (rget_rsetN ..).trans ((if_neg (by decide)).trans ((rget_rsetN ..).trans (if_pos rfl)))
  · exact (rget_rsetN ..).trans (if_pos rfl)

theorem clearCause_boot (s : State) : s.clearCause.boot = s.boot ∧ s.clearCause.bkp = s.bkp := by
  unfold State.clearCause
  exact ⟨(rsetN_boot ..).trans (rsetN_boot ..), (rsetN_bkp ..).trans (rsetN_bkp ..)⟩

theorem up_of_boot (s : State) : s.up = !(s.boot.resetLow || s.boot.tmode || s.boot.supplyLow || s.boot.hold || s.boot.f5) := rfl

/-- A device that nothing holds in reset boots. -/
theorem bootIfUp_booted (hr : s.boot.resetLow = false) (hm : s.boot.tmode = false) (hl : s.boot.supplyLow = false) (hh : s.boot.hold = false) (hf : s.boot.f5 = false)
    (i : BootIn) :
    s.Booted (s.bootIfUp i) i ∧ (s.bootIfUp i).rget Reg.FLT_RSTCAUSE = s.rget Reg.FLT_RSTCAUSE ∧ (s.bootIfUp i).rget Reg.FLT_RSTSTU = s.rget Reg.FLT_RSTSTU := by
  have hup : s.up = true := by
    rw [up_of_boot, hr, hm, hl, hh, hf]
    rfl
  rw [State.bootIfUp, if_pos hup]
  exact bootStart_booted hr hm hl i

/-- A release of the pin alone, or of TMODE, clears the cause of the last F5 (R491, R534). -/
theorem clearCause_boots {f : BootS → BootS} (hr : (f s.boot).resetLow = false) (hm : (f s.boot).tmode = false) (hl : (f s.boot).supplyLow = false)
    (hh : (f s.boot).hold = false) (hf : (f s.boot).f5 = false) (hs : (f s.boot).supmon = s.boot.supmon) (hf5 : s.boot.f5 = false) (i : BootIn) :
    s.Booted ((s.bootMod f).clearCause.bootIfUp i) i ∧ ((s.bootMod f).clearCause.bootIfUp i).rget Reg.FLT_RSTCAUSE = 0 ∧
      ((s.bootMod f).clearCause.bootIfUp i).rget Reg.FLT_RSTSTU = 0 := by
  obtain ⟨hboot, hbkp⟩ := clearCause_boot (s.bootMod f)
  obtain ⟨hc, hstu⟩ := clearCause_rget (s.bootMod f)
  rw [bootMod_boot] at hboot
  generalize (s.bootMod f).clearCause = z at hboot hbkp hc hstu ⊢
  obtain ⟨hz, hzc, hzs⟩ := bootIfUp_booted (s := z) (by rw [hboot, hr]) (by rw [hboot, hm]) (by rw [hboot, hl]) (by rw [hboot, hh]) (by rw [hboot, hf]) i
  exact ⟨booted_congr hz (hbkp.trans (bootMod_bkp ..)) (by rw [hboot, hs]) (by rw [hboot, hf, hf5]), hzc.trans hc, hzs.trans hstu⟩

/-! ## The boot window (R504, R505) -/

variable {p t : Nat}

/-- While no tenant is bound a port's writes reach the BOOT block alone. -/
theorem regWrite_window (hb : s.host.bound = false) (hs : (s.at t).portServes p = true) {a : Nat} (ha : within 0x10000 0x20000 a = true) (v : Word) :
    s.regWrite p a t v = (s.at t).wrBoot p a v := by
  unfold State.regWrite State.portWrite
  rw [hs, at_host, hb, ha]
  rfl

/-- BOOT_LOAD as BOOT_LOAD's command writes it. -/
def loadWord (k : BitVec 16) (last : Bool) : Word := BitVec.ofNat 32 (k.toNat + 2147483648 * b2n last)

theorem loadWord_toNat (k : BitVec 16) (last : Bool) : (loadWord k last).toNat = k.toNat + 2147483648 * b2n last := by
  have hk := k.isLt
  have hb : b2n last ≤ 1 := by cases last <;> decide
  rw [loadWord, BitVec.toNat_ofNat]
  omega

theorem loadWord_size (k : BitVec 16) (last : Bool) : fieldOf (loadWord k last) 15 0 = k.toNat := by
  have hk := k.isLt
  rw [fieldOf, loadWord_toNat, Nat.pow_zero, Nat.div_one]
  omega

theorem loadWord_last (k : BitVec 16) (last : Bool) : bitOf (loadWord k last).toNat 31 = last := by
  have hk := k.isLt
  have hb : (k.toNat + 2147483648 * b2n last) / 2 ^ 31 = b2n last := by omega
  rw [loadWord_toNat, bitOf, hb]
  cases last <;> rfl

theorem at_bootWaits (s : State) (t : Nat) : (s.at t).bootWaits = s.bootWaits := by
  unfold State.bootWaits
  rw [at_boot, at_fget]

theorem at_windowBytes (s : State) (t n : Nat) : (s.at t).windowBytes n = s.windowBytes n := by
  unfold State.windowBytes
  simp only [rget_of_regs (at_regs s t)]

/-- What an error of the boot ROM shows; the firmware stays as it is. -/
structure BootErr (s u : State) (e : Nat) : Prop where
  now : u.now = s.now
  code : u.fget Reg.BOOT_STAT_ERR = e
  firmware : u.boot.firmware = s.boot.firmware
  rom : u.boot.rom = s.boot.rom

theorem bootErr_shows {e : Nat} (he : e < 256) {f : BootS → BootS} (hf : (f s.boot).firmware = s.boot.firmware) (hr : (f s.boot).rom = s.boot.rom) :
    BootErr s ((s.bootMod f).bootErr e) e where
  now := (now_of_time (fset_time ..)).trans (now_of_time (bootMod_time ..))
  code := fget_fset_fits _ (by decide) he
  firmware := by rw [State.bootErr, fset_boot, bootMod_boot, hf]
  rom := by rw [State.bootErr, fset_boot, bootMod_boot, hr]

theorem bootErr_stage {u : State} {e : Nat} (h : BootErr s u e) (n : Nat) : BootErr s (u.fset Reg.BOOT_STAT_STAGE n) e where
  now := (now_of_time (fset_time ..)).trans h.now
  code := (fget_fset_fldApart _ _ (by decide)).trans h.code
  firmware := by rw [fset_boot, h.firmware]
  rom := by rw [fset_boot, h.rom]

section

variable (hp : s.bootPort p = true) (hw : s.bootWaits = true) (k : BitVec 16) (last : Bool)

include hp hw

/-- A port that loads in recovery holds the window (R504). -/
theorem wrBootLoad_eq :
    s.wrBootLoad p (loadWord k last) =
      let f : BootS → BootS := fun b => if s.boot.recovery = true then { b with windowPort := some p } else b
      if k.toNat ≠ 0 ∧ k.toNat ≤ 32768 ∧ s.boot.loaded.length + k.toNat ≤ 1048576 then
        ((s.bootMod f).bootMod (fun b => { b with loaded := b.loaded ++ s.windowBytes k.toNat, last := last })).fset Reg.BOOT_STAT_STAGE 1
      else (s.bootMod f).bootErr 5 := by
  unfold State.wrBootLoad
  dsimp only
  have hs1 : (if s.boot.recovery = true then s.bootMod (fun b => { b with windowPort := some p }) else s) =
      s.bootMod (fun b => if s.boot.recovery = true then { b with windowPort := some p } else b) := by
    by_cases hr : s.boot.recovery = true
    · simp only [if_pos hr]
    · simp only [if_neg hr]
      rfl
  rw [hp, hw, Bool.not_true, Bool.or_false, if_neg Bool.false_ne_true, loadWord_size, loadWord_last, hs1]
  by_cases hn : k.toNat ≠ 0 ∧ k.toNat ≤ 32768 ∧ s.boot.loaded.length + k.toNat ≤ 1048576
  · rw [if_neg (by omega), if_pos hn]
  · rw [if_pos (by omega), if_neg hn]

/-- GO and STORE start the verification of what is loaded, and are refused with nothing loaded or no last part (R505). -/
theorem wrBootCtrl_eq {v : Word} (hgo : bitOf v.toNat 31 = true) :
    s.wrBootCtrl p v =
      if s.boot.loaded ≠ [] ∧ s.boot.last = true then (s.bootMod (fun b => { b with going := some (bitOf v.toNat 30), windowPort := none })).fset Reg.BOOT_STAT_STAGE 2
      else s.bootErr 5 := by
  unfold State.wrBootCtrl
  rw [hp, hw, hgo, Bool.not_true, Bool.or_false, Bool.or_false, if_neg Bool.false_ne_true]
  by_cases hl : s.boot.loaded ≠ [] ∧ s.boot.last = true
  · rw [if_pos hl, if_neg (by simp [hl])]
  · rw [if_neg hl, if_pos]
    rw [Bool.or_eq_true, List.isEmpty_iff, Bool.not_eq_true']
    by_cases he : s.boot.loaded = []
    · exact .inl he
    · exact .inr (Bool.eq_false_iff.mpr fun h => hl ⟨he, h⟩)

end

/-! ## Verified firmware (R503, R506) -/

/-- The image passes the checks of R503. -/
def Good (s : State) (b : List Byte) : Prop := Config.firmwareSigned b = true ∧ s.otp.fwFloor ≤ Config.firmwareVersion b

theorem firmwareErr_good {b : List Byte} (h : Good s b) : s.firmwareErr b = none := by
  unfold State.firmwareErr
  rw [h.1, Bool.not_true, if_neg Bool.false_ne_true, if_neg (Nat.not_lt.mpr h.2)]

theorem firmwareErr_bad {b : List Byte} (h : ¬ Good s b) : s.firmwareErr b = some (if Config.firmwareSigned b = true then 4 else 3) := by
  unfold State.firmwareErr
  cases hs : Config.firmwareSigned b with
  | false => rfl
  | true =>
    rw [Bool.not_true, if_neg Bool.false_ne_true, if_pos rfl, if_pos]
    exact Nat.lt_of_not_le fun hle => h ⟨hs, hle⟩

/-- The compute island starts on the image `b` from source `src`, its first planned tick `first`. -/
structure Starts (s u : State) (b : List Byte) (src first : Nat) : Prop where
  now : u.now = s.now
  rom : u.boot.rom = false
  firmware : u.boot.firmware = b
  firstTick : u.boot.firstTick = first
  going : u.boot.going = none
  stage : u.fget Reg.BOOT_STAT_STAGE = 3
  source : u.fget Reg.BOOT_STAT_SRC = src
  version : u.rget Reg.BOOT_FWVER = BitVec.ofNat 32 (Config.firmwareVersion b)
  compute : u.fget Reg.TOP_DOMAIN_COMPUTE = 1
  supervisor : u.fget Reg.TOP_DOMAIN_SUPERVISOR = s.activeWd

theorem startSearch_boot (s : State) (l : LoopId) (u : Nat) : (s.startSearch l u).boot = s.boot :=
  ((Aside.refl (p := bootView) (A := ClockReg) s).startSearch (fun _ h => h) (fun _ _ => rfl) l u).boot_of_bootView

theorem activeWd_le (s : State) : s.activeWd < 4 := by
  unfold State.activeWd
  split <;> decide

theorem startFirmware_starts (s : State) (b : List Byte) {src : Nat} (hsrc : src < 4) (first : Nat) : Starts s (s.startFirmware b src first) b src first := by
  unfold State.startFirmware
  extract_lets s1 s2 s3
  have n1 : s1.now = s.now := by rw [State.now, rsetN_time, fset_time, fset_time, State.now]
  obtain ⟨stage1, source1, version1⟩ : s1.fget Reg.BOOT_STAT_STAGE = 3 ∧ s1.fget Reg.BOOT_STAT_SRC = src ∧ s1.rget Reg.BOOT_FWVER = BitVec.ofNat 32 (Config.firmwareVersion b) := by
    refine ⟨?_, ?_, (rget_rsetN ..).trans (if_pos rfl)⟩
    · rw [fget_rsetN_ne _ _ (by decide), fget_fset_fldApart _ _ (by decide), fget_fset_fits _ (by decide) (by decide)]
    · rw [fget_rsetN_ne _ _ (by decide), fget_fset_fits _ (by decide) hsrc]
  clear_value s1
  have n2 : s2.now = s.now := (now_of_time ((bootMod_time ..).trans ((fset_time ..).trans (fset_time ..)))).trans n1
  have f2 : FldsKept [Reg.TOP_DOMAIN_COMPUTE, Reg.TOP_DOMAIN_SUPERVISOR] s1 s2 := (((FldsKept.refl s1).fset (by decide) _).fset (by decide) _).of_regs (bootMod_regs ..)
  have c2 : s2.fget Reg.TOP_DOMAIN_COMPUTE = 1 :=
    (fget_of_regs (bootMod_regs ..) _).trans ((fget_fset_fldApart _ _ (by decide)).trans (fget_fset_fits _ (by decide) (by decide)))
  have w2 : s2.fget Reg.TOP_DOMAIN_SUPERVISOR = s.activeWd := (fget_of_regs (bootMod_regs ..) _).trans (fget_fset_fits _ (by decide) (activeWd_le s))
  have b2 : s2.boot.rom = false ∧ s2.boot.firmware = b ∧ s2.boot.firstTick = first ∧ s2.boot.going = none := ⟨rfl, rfl, rfl, rfl⟩
  clear_value s2
  have f3 : FldsKept (Reg.FST_STAT_STATE :: bandFlds) s2 s3 := .ite ((FldsKept.refl s2).fset (by decide) _) (.refl s2)
  have n3 : s3.now = s.now := by
    refine Eq.trans ?_ n2
    change (if s.fget Reg.FST_STAT_STATE = 1 then s2.fset Reg.FST_STAT_STATE 2 else s2).now = _
    split
    · exact now_fset ..
    · rfl
  have b3 : s3.boot = s2.boot := by
    change (if s.fget Reg.FST_STAT_STATE = 1 then s2.fset Reg.FST_STAT_STATE 2 else s2).boot = _
    split
    · exact fset_boot ..
    · rfl
  clear_value s3
  have fu : FldsKept (Reg.FST_STAT_STATE :: bandFlds) s2 (s3.startSearch .ccs s.now) := f3.trans ((startSearch_flds s3 .ccs s.now).mono (by decide))
  have bu : (s3.startSearch .ccs s.now).boot = s2.boot := (startSearch_boot ..).trans b3
  obtain ⟨hrom, hfw, hft, hgo⟩ := b2
  exact {
    now := (now_of_time (startSearch_time ..)).trans n3
    rom := by rw [bu, hrom]
    firmware := by rw [bu, hfw]
    firstTick := by rw [bu, hft]
    going := by rw [bu, hgo]
    stage := by rw [fu _ (by decide) (by decide), f2 _ (by decide) (by decide), stage1]
    source := by rw [fu _ (by decide) (by decide), f2 _ (by decide) (by decide), source1]
    version := by rw [fu.rget (by decide) (by decide), f2.rget (by decide) (by decide), version1]
    compute := by rw [fu _ (by decide) (by decide), c2]
    supervisor := by rw [fu _ (by decide) (by decide), w2] }

/-- The image asked for does not reach the registers or the time. -/
theorem askIngot_kept (s : State) (r : IngotReq) : (s.askIngot r).regs = s.regs ∧ (s.askIngot r).time = s.time := by
  unfold State.askIngot
  dsimp only
  split
  · exact ⟨rfl, rfl⟩
  · exact ⟨fstMod_regs .., fstMod_time ..⟩

theorem activeWd_of_regs {z : State} (h : z.regs = s.regs) : z.activeWd = s.activeWd := by
  unfold State.activeWd State.warden
  rw [fget_of_regs h, fget_of_regs h]

theorem starts_congr {z u : State} {b : List Byte} {src first : Nat} (h : Starts z u b src first) (hr : z.regs = s.regs) (ht : z.time = s.time) : Starts s u b src first :=
  { h with
    now := h.now.trans (now_of_time ht)
    supervisor := h.supervisor.trans (activeWd_of_regs hr) }

/-- The tick that begins 20 ms or more after the present. -/
theorem firstTickFrom_eq (s : State) : s.firstTickFrom = (s.now + 122880000 + 2047999) / 2048000 := by
  unfold State.firstTickFrom ceilDiv tickStu
  exact if_neg (by decide)

theorem at_firmwareCopies (s : State) (t : Nat) : (s.at t).firmwareCopies = s.firmwareCopies := by
  unfold State.firmwareCopies
  rw [at_fst]

theorem at_up (s : State) (t : Nat) : (s.at t).up = s.up := by rw [up_of_boot, up_of_boot, at_boot]

/-- A refused load waits for the next. -/
def loadRefused (s : State) (e : Nat) : State := ((s.bootMod (fun x => { x with going := none, loaded := [], last := false })).bootErr e).fset Reg.BOOT_STAT_STAGE 1

/-- The boot ROM goes into recovery (R504). -/
def recovering (s : State) (e : Nat) : State := ((s.bootMod (fun x => { x with recovery := true })).bootErr e).fset Reg.BOOT_STAT_STAGE 4

theorem loadRefused_shows {e : Nat} (he : e < 256) :
    BootErr s (loadRefused s e) e ∧ (loadRefused s e).boot.loaded = [] ∧ (loadRefused s e).boot.going = none ∧ (loadRefused s e).fget Reg.BOOT_STAT_STAGE = 1 := by
  refine ⟨bootErr_stage (bootErr_shows he rfl rfl) 1, ?_, ?_, fget_fset_fits _ (by decide) (by decide)⟩ <;>
    rw [loadRefused, fset_boot, State.bootErr, fset_boot, bootMod_boot]

theorem recovering_shows {e : Nat} (he : e < 256) :
    BootErr s (recovering s e) e ∧ (recovering s e).boot.recovery = true ∧ (recovering s e).fget Reg.BOOT_STAT_STAGE = 4 := by
  refine ⟨bootErr_stage (bootErr_shows he rfl rfl) 4, ?_, fget_fset_fits _ (by decide) (by decide)⟩
  rw [recovering, fset_boot, State.bootErr, fset_boot, bootMod_boot]

section

variable (hup : s.up = true) (hrom : s.boot.rom = true)

include hup hrom

section

variable {store : Bool} (hgo : s.boot.going = some store)

include hgo

theorem execFirmwareVerified_loaded (hg : Good (s.at t) s.boot.loaded) :
    ∃ u : State, execFirmwareVerified t s = .next u ∧ Starts (s.at t) u s.boot.loaded 2 (s.at t).firstTickFrom := by
  unfold execFirmwareVerified
  dsimp only
  rw [at_up, hup, at_boot, hrom, Bool.not_true, Bool.or_false, if_neg Bool.false_ne_true, hgo]
  dsimp only
  rw [firmwareErr_good hg]
  refine ⟨_, rfl, starts_congr (startFirmware_starts _ _ (by decide) _) ?_ ?_⟩ <;> split
  · exact (askIngot_kept ..).1
  · rfl
  · exact (askIngot_kept ..).2
  · rfl

theorem execFirmwareVerified_refused (hg : ¬ Good (s.at t) s.boot.loaded) :
    execFirmwareVerified t s = .next (loadRefused (s.at t) (if Config.firmwareSigned s.boot.loaded = true then 4 else 3)) := by
  unfold execFirmwareVerified
  dsimp only
  rw [at_up, hup, at_boot, hrom, Bool.not_true, Bool.or_false, if_neg Bool.false_ne_true, hgo]
  dsimp only
  rw [firmwareErr_bad hg]
  rfl

end

section

variable (hgo : s.boot.going = none) (hrec : s.boot.recovery = false) (hsel : s.fget Reg.BOOT_STAT_BOOTSEL = 0)

include hgo hrec hsel

theorem execFirmwareVerified_noStore (hst : s.fget Reg.FST_STAT_STATE = 5) : execFirmwareVerified t s = .next (recovering (s.at t) 1) := by
  unfold execFirmwareVerified
  dsimp only
  rw [at_up, hup, at_boot, hrom, Bool.not_true, Bool.or_false, if_neg Bool.false_ne_true, hgo]
  dsimp only
  rw [hrec, at_fget, hsel, if_neg (by decide), at_fget, if_pos hst]
  rfl

variable (hst : s.fget Reg.FST_STAT_STATE ≠ 5)

include hst

theorem execFirmwareVerified_noCopy (hc : s.firmwareCopies = []) : execFirmwareVerified t s = .next (recovering (s.at t) 2) := by
  unfold execFirmwareVerified
  dsimp only
  rw [at_up, hup, at_boot, hrom, Bool.not_true, Bool.or_false, if_neg Bool.false_ne_true, hgo]
  dsimp only
  rw [hrec, at_fget, hsel, if_neg (by decide), at_fget, if_neg hst, at_firmwareCopies, hc]
  rfl

theorem execFirmwareVerified_first {c : Nat} {b : List Byte} {l : List (Nat × List Byte)} (hc : s.firmwareCopies = (c, b) :: l) (hg : Good (s.at t) b) :
    execFirmwareVerified t s = .next ((s.at t).startFirmware b 0 (max 240 (s.at t).firstTickFrom)) := by
  unfold execFirmwareVerified
  dsimp only
  rw [at_up, hup, at_boot, hrom, Bool.not_true, Bool.or_false, if_neg Bool.false_ne_true, hgo]
  dsimp only
  rw [hrec, at_fget, hsel, if_neg (by decide), at_fget, if_neg hst, at_firmwareCopies, hc]
  dsimp only
  rw [firmwareErr_good hg]
  rfl

theorem execFirmwareVerified_second {c c2 : Nat} {b b2 : List Byte} {l : List (Nat × List Byte)} (hc : s.firmwareCopies = (c, b) :: (c2, b2) :: l)
    (hb : ¬ Good (s.at t) b) (hg : Good (s.at t) b2) :
    execFirmwareVerified t s = .next ((s.at t).startFirmware b2 1 (max 240 (s.at t).firstTickFrom)) := by
  unfold execFirmwareVerified
  dsimp only
  rw [at_up, hup, at_boot, hrom, Bool.not_true, Bool.or_false, if_neg Bool.false_ne_true, hgo]
  dsimp only
  rw [hrec, at_fget, hsel, if_neg (by decide), at_fget, if_neg hst, at_firmwareCopies, hc]
  dsimp only
  rw [firmwareErr_bad hb, firmwareErr_good hg]
  rfl

end

end

end

end Sys2Proof.Proofs
end

section
/-!
The first planned tick: the time taken from the backup domain, the calibration's start, and the first records (R42, R151, R340, R344, R509).
-/

namespace Sys2Proof.Proofs

open Sys2Proof Sys2Proof.Machine Sys2Proof.Laws

/-! ## The calibration's start (R151) -/

/-- What the calibration leaves alone, beside registers. -/
def calView : View (BootS × WitS) := ⟨fun s => (s.boot, s.wit), fun _ _ _ => rfl⟩

/-- The registers of the CAL block. -/
def CalReg (a : Nat) : Prop := 0x70000 ≤ a ∧ a < 0x80000

namespace Aside

variable {s t : State}

theorem calMod (h : Aside calView CalReg s t) (f : CalS → CalS) : Aside calView CalReg s (t.calMod f) := h.of_eq (calMod_regs ..) (calMod_time ..) rfl

theorem takeTarget (h : Aside calView CalReg s t) (i : Nat) (v : List Rat) (byStep : Bool) : Aside calView CalReg s (t.takeTarget i v byStep) := by
  unfold State.takeTarget
  dsimp only
  split <;> exact h.calMod _

theorem retarget (h : Aside calView CalReg s t) (byStep : Bool) (but : List Nat) : Aside calView CalReg s (t.retarget byStep but) := by
  unfold State.retarget
  refine h.foldl _ fun x hx i _ => ?_
  dsimp only
  split
  · exact hx.takeTarget ..
  · exact hx

theorem showDef (h : Aside calView CalReg s t) : Aside calView CalReg s t.showDef := by
  have stat : CalReg Reg.CAL_STAT := ⟨by decide, by decide⟩
  unfold State.showDef
  exact ((h.fset stat _).fsetB stat _).fsetB stat _

theorem estDue (h : Aside calView CalReg s t) (i : Nat) (esc : Bool) : Aside calView CalReg s (t.estDue i esc) := by
  unfold State.estDue
  split
  · refine showDef ?_
    split
    · exact h.calMod _
    · exact h
  · exact (h.calMod _).showDef

theorem showCal (h : Aside calView CalReg s t) : Aside calView CalReg s t.showCal := by
  have cal {a : Nat} (h : 0x70000 ≤ a ∧ a < 0x80000) : CalReg a := h
  unfold State.showCal
  extract_lets f v s1 s2 s3 s4
  have h1 : Aside calView CalReg s s1 := h.foldl _ fun x hx c hc => hx.foldl _ fun y hy i hi => by
    have := List.mem_range.mp hc
    have := List.mem_range.mp hi
    exact (hy.rsetN (cal (by unfold Reg.CAL_ILA; omega)) _).rsetN (cal (by unfold Reg.CAL_ILB; omega)) _
  clear_value s1
  have h2 : Aside calView CalReg s s2 := h1.foldl _ fun x hx c hc => hx.foldl _ fun y hy i hi => by
    have := List.mem_range.mp hc
    have := List.mem_range.mp hi
    exact hy.rsetN (cal (by unfold Reg.CAL_LNA; omega)) _
  clear_value s2
  have h3 : Aside calView CalReg s s3 := ((h2.rsetN (cal (by decide)) _).rsetN (cal (by decide)) _).rsetN (cal (by decide)) _
  clear_value s3
  have h4 : Aside calView CalReg s s4 := h3.foldl _ fun x hx p hp => by
    have hr : CalReg (Reg.CAL_TEMP p) := by
      have := List.mem_range.mp hp
      exact cal (by unfold Reg.CAL_TEMP; omega)
    split
    · exact hx.rsetN hr _
    · exact hx.rsetN hr _
  clear_value s4
  exact (h4.fset (cal (by decide)) _).fsetB (cal (by decide)) _

end Aside

theorem calStart_aside (s : State) : Aside calView CalReg s s.calStart := by
  have cal {a : Nat} (h : 0x70000 ≤ a ∧ a < 0x80000) : CalReg a := h
  unfold State.calStart
  extract_lets nosave z src ps s1 s2 s3
  have hindex : Aside calView CalReg s s.calIndex := by
    unfold State.calIndex
    exact (Aside.refl s).calMod _
  have hz : Aside calView CalReg s z := .ite (.refl s) hindex
  clear_value z
  have h1 : Aside calView CalReg s s1 := (hz.calMod _).fsetB (cal (by decide)) _
  clear_value s1
  have h2 : Aside calView CalReg s s2 := ((h1.fsetB (cal (by decide)) _).fset (cal (by decide)) _).retarget ..
  clear_value s2
  have h3 : Aside calView CalReg s s3 := h2.foldl _ fun _ hx i _ => hx.estDue i false
  exact h3.showCal

/-! ## The first records (R340, R344, R509) -/

/-- What the records of the boot leave alone. -/
def recordView : View (Bool × Nat) := ⟨fun s => (s.boot.planned, s.wit.lastRef), fun _ _ _ => rfl⟩

section

variable {s t : State}

theorem Aside.witRecords {A : Nat → Prop} (h : Aside recordView A s t) {f : WitS → WitS} (hf : ∀ w, (f w).lastRef = w.lastRef) : Aside recordView A s (t.witMod f) :=
  h.of_eq (witMod_regs ..) (witMod_time ..) (congrArg (Prod.mk t.boot.planned) (hf t.wit))

theorem Aside.witEventAt {A : Nat → Prop} (h : Aside recordView A s t) (code u : Nat) (time : WitTime) (b : Option (Nat × Nat)) (data : List Byte) (tenant : Nat)
    (q : Option WitReq) : Aside recordView A s (t.witEventAt code u time b data tenant q) := by
  unfold State.witEventAt
  split
  · exact h
  · split
    · exact h.witRecords fun _ => rfl
    · split
      · exact h.witRecords fun _ => rfl
      · split <;> exact h.witRecords fun _ => rfl

theorem bootRecord_aside (s : State) : Aside recordView (fun _ => False) s s.bootRecord := by
  unfold State.bootRecord
  split
  · exact .refl s
  · have hb : Aside recordView (fun _ => False) s (s.bootMod (fun b => { b with bootEvt := true })) := (Aside.refl s).of_eq (bootMod_regs ..) (bootMod_time ..) rfl
    have he := hb.witEventAt (if s.flag Reg.BOOT_CAUSE_HIBWAKE = true then 7 else 5) (s.boot.firstTick * tickStu)
      (s.boot.firstTime.getD (s.witTime (s.boot.firstTick * tickStu))) none [] 0 none
    dsimp only
    unfold State.bkpFlush
    exact (he.of_eq (bkpMod_regs ..) (bkpMod_time ..) rfl).foldl _ fun _ hx _ _ => hx.witEventAt ..

/-- The first interval begins now (R340). -/
theorem obsBegin_shows (s : State) :
    s.obsBegin.wit.lastRef = s.now ∧ s.obsBegin.boot = s.boot ∧ s.obsBegin.time = s.time ∧
      ∀ a, a ≠ Reg.WIT_NEXTREF_LO → a ≠ Reg.WIT_NEXTREF_LO + 4 → s.obsBegin.rget a = s.rget a := by
  unfold State.obsBegin State.setNextRef
  exact ⟨rfl, (witMod_boot ..).trans (rset64_boot ..), (witMod_time ..).trans (rset64_time ..),
    fun a h h4 => (rget_of_regs (witMod_regs ..) a).trans (rget_rset64_ne _ _ _ _ h.symm h4.symm)⟩

end

/-! ## The time of the backup domain (R42, R444) -/

section

variable {s : State}

/-- A capture holds the count, and the stu of its edge. -/
theorem captureAt_shows (s : State) (e : Nat) (hup : s.up = true) :
    (s.captureAt e).time = s.time ∧ (s.captureAt e).boot = s.boot ∧ (s.captureAt e).bkp.sec = s.bkp.sec ∧ (s.captureAt e).bkp.frac = s.bkp.frac ∧
      (s.captureAt e).rget Reg.BKP_CFRAC = BitVec.ofNat 32 s.bkp.frac ∧ (s.captureAt e).rget64 Reg.BKP_CSTU_LO = s.stampOf e % 2 ^ 64 ∧
      (s.captureAt e).flag Reg.BKP_STAT_DISC = s.flag Reg.BKP_STAT_DISC := by
  unfold State.captureAt State.showCapture
  rw [if_pos hup]
  have hb : (s.bkpMod (fun b => { b with capEdge := some b.raw })).bkp.sec = s.bkp.sec ∧ (s.bkpMod (fun b => { b with capEdge := some b.raw })).bkp.frac = s.bkp.frac :=
    ⟨rfl, rfl⟩
  have hz : (s.bkpMod (fun b => { b with capEdge := some b.raw })).time = s.time ∧ (s.bkpMod (fun b => { b with capEdge := some b.raw })).boot = s.boot ∧
      (s.bkpMod (fun b => { b with capEdge := some b.raw })).regs = s.regs := ⟨bkpMod_time .., bkpMod_boot .., bkpMod_regs ..⟩
  generalize s.bkpMod (fun b => { b with capEdge := some b.raw }) = z at hb hz ⊢
  refine ⟨?_, ?_, ?_, ?_, ?_, rget64_rset64_mod .., ?_⟩
  · rw [rset64_time, rsetN_time, rset64_time, hz.1]
  · rw [rset64_boot, rsetN_boot, rset64_boot, hz.2.1]
  · rw [rset64_bkp, rsetN_bkp, rset64_bkp, hb.1]
  · rw [rset64_bkp, rsetN_bkp, rset64_bkp, hb.2]
  · rw [rget_rset64_ne _ _ _ _ (by decide) (by decide), rget_rsetN, if_pos rfl, hb.2]
  · rw [flag_rset64_ne _ _ (by decide) (by decide), flag_rsetN_ne _ _ (by decide), flag_rset64_ne _ _ (by decide) (by decide), flag_of_regs hz.2.2]

/-- DTS as the first tick takes it from the count of the backup domain. -/
def rtcDts (s : State) (b : BkpS) (e : Nat) : Rat := (b.sec : Rat) + (b.frac : Rat) / 32768 + s.time.walked e * s.time.k

/-- The mapping rewritten with the capture of the count. -/
def rtcMapped (s : State) (e raw : Nat) : State :=
  let s1 := (s.osc raw).captureAt e
  let a : Rat := (s1.bkp.sec : Rat) + (s1.bkp.frac : Rat) / 32768
  s1.timeMod (fun t => { t with a := a + t.walked e * t.k, s0 := e, slew := 0 })

/-- Beside the mapping the first tick sets the source of the time and its uncertainty. -/
theorem rtcStart_eq (s : State) (edge raw : Nat) : ∃ f g : TimeS → TimeS,
    s.rtcStart edge raw = (if (rtcMapped s (max s.now edge) raw).flag Reg.BKP_STAT_DISC = true then
        ((rtcMapped s (max s.now edge) raw).fset Reg.TB_QUAL_HI_SRC 4).timeMod f else ((rtcMapped s (max s.now edge) raw).fset Reg.TB_QUAL_HI_SRC 0).timeMod g) ∧
      (∀ t, ∃ c b, f t = { t with unc := c, uncAt := b }) ∧ ∀ t, ∃ c b, g t = { t with unc := c, uncAt := b } :=
  ⟨_, _, rfl, fun _ => ⟨_, _, rfl⟩, fun _ => ⟨_, _, rfl⟩⟩

theorem rtcMapped_shows (hup : s.up = true) (e raw : Nat) :
    (rtcMapped s e raw).time = { s.time with a := rtcDts s (s.osc raw).bkp e, s0 := e, slew := 0 } ∧ (rtcMapped s e raw).boot = s.boot ∧
      (rtcMapped s e raw).rget Reg.BKP_CFRAC = BitVec.ofNat 32 (s.osc raw).bkp.frac ∧ (rtcMapped s e raw).rget64 Reg.BKP_CSTU_LO = s.stampOf e % 2 ^ 64 ∧
      (rtcMapped s e raw).flag Reg.BKP_STAT_DISC = s.flag Reg.BKP_STAT_DISC := by
  obtain ⟨b, hx⟩ := osc_eq s raw
  have xtime : (s.osc raw).time = s.time := by rw [hx]
  have xboot : (s.osc raw).boot = s.boot := by rw [hx]
  have xregs : (s.osc raw).regs = s.regs := by rw [hx]
  clear hx
  unfold rtcMapped
  generalize s.osc raw = x at xtime xboot xregs ⊢
  have xup : x.up = true := by rw [up_of_boot, xboot, ← up_of_boot, hup]
  have xstamp : x.stampOf e = s.stampOf e := by
    unfold State.stampOf State.coarse State.scsLocked
    rw [flag_of_regs xregs]
  obtain ⟨ctime, cboot, csec, cfrac, creg, cstu, cdisc⟩ := captureAt_shows x e xup
  generalize x.captureAt e = c at ctime cboot csec cfrac creg cstu cdisc ⊢
  have hr (a : Nat) := rget_of_regs (timeMod_regs c (fun t => { t with a := (c.bkp.sec : Rat) + (c.bkp.frac : Rat) / 32768 + t.walked e * t.k, s0 := e, slew := 0 })) a
  refine ⟨(timeMod_time ..).trans ?_, (timeMod_boot ..).trans (cboot.trans xboot), (hr _).trans creg, (rget64_of_rget (hr _) (hr _)).trans (cstu.trans (by rw [xstamp])),
    (flag_of_regs (timeMod_regs ..) _).trans (cdisc.trans (flag_of_regs xregs _))⟩
  rw [ctime, xtime, csec, cfrac]
  rfl

/-- The source and the uncertainty stand beside what was taken. -/
theorem sourceSet_shows (z : State) {n : Nat} (hn : n < 8) {f : TimeS → TimeS} (hf : ∀ t, ∃ c b, f t = { t with unc := c, uncAt := b }) :
    let u := (z.fset Reg.TB_QUAL_HI_SRC n).timeMod f
    (∃ c b, u.time = { z.time with unc := c, uncAt := b }) ∧ u.boot = z.boot ∧ u.rget Reg.BKP_CFRAC = z.rget Reg.BKP_CFRAC ∧
      u.rget64 Reg.BKP_CSTU_LO = z.rget64 Reg.BKP_CSTU_LO ∧ u.fget Reg.TB_QUAL_HI_SRC = n := by
  intro u
  have hr {a : Nat} (h : Reg.TB_QUAL_HI ≠ a) : u.rget a = z.rget a := (rget_of_regs (timeMod_regs ..) a).trans (rget_fset_ne _ _ _ h)
  refine ⟨?_, (timeMod_boot ..).trans (fset_boot ..), hr (by decide), rget64_of_rget (hr (by decide)) (hr (by decide)),
    (fget_of_regs (timeMod_regs ..) _).trans (fget_fset_fits _ (by decide) hn)⟩
  obtain ⟨c, b, h⟩ := hf z.time
  exact ⟨c, b, (timeMod_time ..).trans ((congrArg f (fset_time ..)).trans h)⟩

/-- What the first tick takes from the backup domain. -/
theorem rtcStart_shows (hup : s.up = true) (edge raw : Nat) :
    let e := max s.now edge
    let u := s.rtcStart edge raw
    (∃ c b, u.time = { s.time with a := rtcDts s (s.osc raw).bkp e, s0 := e, slew := 0, unc := c, uncAt := b }) ∧ u.boot = s.boot ∧
      u.rget Reg.BKP_CFRAC = BitVec.ofNat 32 (s.osc raw).bkp.frac ∧ u.rget64 Reg.BKP_CSTU_LO = s.stampOf e % 2 ^ 64 ∧
      u.fget Reg.TB_QUAL_HI_SRC = if s.flag Reg.BKP_STAT_DISC = true then 4 else 0 := by
  obtain ⟨f, g, hu, hf, hg⟩ := rtcStart_eq s edge raw
  obtain ⟨htime, hboot, hfrac, hstu, hdisc⟩ := rtcMapped_shows hup (max s.now edge) raw
  dsimp only
  rw [hu, hdisc]
  generalize rtcMapped s (max s.now edge) raw = z at htime hboot hfrac hstu hdisc
  cases s.flag Reg.BKP_STAT_DISC with
  | true =>
    obtain ⟨⟨c, b, ht⟩, hb, hr, hr64, hs⟩ := sourceSet_shows z (n := 4) (by decide) hf
    exact ⟨⟨c, b, by rw [if_pos rfl, ht, htime]⟩, hb.trans hboot, hr.trans hfrac, hr64.trans hstu, hs⟩
  | false =>
    obtain ⟨⟨c, b, ht⟩, hb, hr, hr64, hs⟩ := sourceSet_shows z (n := 0) (by decide) hg
    exact ⟨⟨c, b, by rw [if_neg Bool.false_ne_true, ht, htime]⟩, hb.trans hboot, hr.trans hfrac, hr64.trans hstu, hs⟩

/-- The oscillator's count goes by the domain, the registers and the time alone. -/
theorem osc_bkp_congr {t : State} (hb : t.bkp = s.bkp) (hr : t.regs = s.regs) (ht : t.time = s.time) (r : Nat) : (t.osc r).bkp = (s.osc r).bkp := by
  unfold State.osc
  dsimp only
  rw [hb, flag_of_regs hr, rget_of_regs hr, now_of_time ht]
  split
  · exact hb
  · rw [bkpMod_bkp, bkpMod_bkp, hb]

/-- The records and the calibration that the first planned tick starts leave alone what it took from the backup domain. -/
theorem firstRecords_shows (s : State) :
    Noted s.time (s.calStart.obsBegin.bootRecord).time ∧ (s.calStart.obsBegin.bootRecord).boot.planned = s.boot.planned ∧
      (s.calStart.obsBegin.bootRecord).wit.lastRef = s.now ∧
      ∀ a, ¬ CalReg a → a ≠ Reg.WIT_NEXTREF_LO → a ≠ Reg.WIT_NEXTREF_LO + 4 → (s.calStart.obsBegin.bootRecord).rget a = s.rget a := by
  have hc := calStart_aside s
  generalize s.calStart = c at hc ⊢
  obtain ⟨href, hboot, htime, hreg⟩ := obsBegin_shows c
  generalize c.obsBegin = o at href hboot htime hreg ⊢
  have hu := bootRecord_aside o
  generalize o.bootRecord = u at hu ⊢
  have hcboot : c.boot = s.boot := congrArg (·.1) hc.view
  have hplanned : u.boot.planned = o.boot.planned := congrArg (·.1) hu.view
  have hlast : u.wit.lastRef = o.wit.lastRef := congrArg (·.2) hu.view
  refine ⟨hc.time.trans ?_, by rw [hplanned, hboot, hcboot], by rw [hlast, href, hc.now], fun a h h0 h4 => ?_⟩
  · rw [← htime]
    exact hu.time
  · rw [hu.regs a not_false, hreg a h0 h4, hc.regs a h]

/-- The first planned tick at its boundary. -/
theorem execFirstPlannedTick_shows (hup : s.up = true) (hrom : s.boot.rom = false) (hpl : s.boot.planned = false) (ht : s.time.tick = s.boot.firstTick) (edge raw : Nat) :
    let e := max s.now edge
    ∃ u : State, execFirstPlannedTick edge raw s = .next u ∧ u.now = s.now ∧ u.boot.planned = true ∧ u.time.a = rtcDts s (s.osc raw).bkp e ∧
      u.time.walk = s.time.walk ∧ u.time.s0 = e ∧ u.wit.lastRef = s.now ∧ u.rget Reg.BKP_CFRAC = BitVec.ofNat 32 (s.osc raw).bkp.frac ∧
      u.rget64 Reg.BKP_CSTU_LO = s.stampOf e % 2 ^ 64 ∧ u.fget Reg.TB_QUAL_HI_SRC = if s.flag Reg.BKP_STAT_DISC = true then 4 else 0 := by
  intro e
  unfold execFirstPlannedTick
  rw [hup, hrom, hpl, ht, bne_self_eq_false, Bool.not_true, Bool.or_false, Bool.or_false, Bool.or_false, if_neg Bool.false_ne_true]
  refine ⟨_, rfl, ?_⟩
  extract_lets s1 s2 s3
  have regs1 : s1.regs = s.regs := bootMod_regs ..
  have time1 : s1.time = s.time := bootMod_time ..
  have planned1 : s1.boot.planned = true := rfl
  have up1 : s1.up = true := hup
  have osc1 : (s1.osc raw).bkp = (s.osc raw).bkp := osc_bkp_congr (bootMod_bkp ..) regs1 time1 raw
  have stamp1 : s1.stampOf e = s.stampOf e := by
    unfold State.stampOf State.coarse State.scsLocked
    rw [flag_of_regs regs1]
  clear_value s1
  obtain ⟨⟨c, b, time2⟩, boot2, frac2, stu2, src2⟩ := rtcStart_shows up1 edge raw
  rw [now_of_time time1] at time2 stu2
  rw [osc1] at time2 frac2
  rw [time1, show rtcDts s1 (s.osc raw).bkp e = rtcDts s (s.osc raw).bkp e by rw [rtcDts, rtcDts, time1]] at time2
  have hs2 : s2 = s1.rtcStart edge raw := rfl
  rw [← hs2] at time2 boot2 frac2 stu2 src2
  clear hs2
  have time3 : s3.time = s2.time := bootMod_time ..
  have regs3 : s3.regs = s2.regs := bootMod_regs ..
  have planned3 : s3.boot.planned = s2.boot.planned := rfl
  clear_value s3 s2
  obtain ⟨hn, hplanned, hlast, hreg⟩ := firstRecords_shows s3
  generalize s3.calStart.obsBegin.bootRecord = u at hn hplanned hlast hreg ⊢
  have tb {a : Nat} (h : a < 0x70000 ∨ 0xF0000 ≤ a) : u.rget a = s2.rget a :=
    (hreg a (by unfold CalReg; omega) (by unfold Reg.WIT_NEXTREF_LO; omega) (by unfold Reg.WIT_NEXTREF_LO; omega)).trans (rget_of_regs regs3 a)
  rw [time3] at hn
  refine ⟨?_, ?_, ?_, ?_, ?_, ?_, ?_, ?_, ?_⟩
  · rw [State.now, hn.of TimeS.stu (fun _ _ => rfl), time2]
    rfl
  · rw [hplanned, planned3, boot2, planned1]
  · rw [hn.of TimeS.a (fun _ _ => rfl), time2]
  · rw [hn.of TimeS.walk (fun _ _ => rfl), time2]
  · rw [hn.of TimeS.s0 (fun _ _ => rfl), time2]
  · rw [hlast, State.now, time3, time2]
    rfl
  · rw [tb (by decide), frac2]
  · rw [rget64_of_rget (tb (by decide)) (tb (by decide)), stu2, stamp1]
  · rw [State.fget, tb (by decide), ← State.fget, src2, flag_of_regs regs1]

end

end Sys2Proof.Proofs
end

section
/-!
The commands of a reset and of the boot window, and the settlement of their obligation (R500 to R506).
-/

namespace Sys2Proof.Proofs

open Sys2Proof Sys2Proof.Machine Sys2Proof.Laws

/-! ## The commands of the boot window (R505) -/

section

variable {s : State} {p : Fin 4} {t : Nat} (hb : s.host.bound = false) (hs : (s.at t).portServes p = true)

include hb hs

theorem execBootLoad_eq (k : BitVec 16) (last : Bool) : execBootLoad p k last t s = .next ((s.at t).wrBootLoad p (loadWord k last)) :=
  congrArg _ ((regWrite_window hb hs (by decide) _).trans ((if_neg (by decide)).trans (if_pos rfl)))

theorem bootWrite_eq (v : Word) : s.regWrite p Reg.BOOT_CTRL t v = (s.at t).wrBootCtrl p v :=
  (regWrite_window hb hs (by decide) v).trans (if_pos rfl)

variable (hp : (s.at t).bootPort p = true) (hw : s.bootWaits = true)

include hp hw

/-- A chunk that fits joins what is loaded. -/
theorem execBootLoad_takes {k : BitVec 16} (hk : k.toNat ≠ 0 ∧ k.toNat ≤ 32768 ∧ s.boot.loaded.length + k.toNat ≤ 1048576) (last : Bool) :
    ∃ u : State, execBootLoad p k last t s = .next u ∧ u.now = (s.at t).now ∧ u.boot.loaded = s.boot.loaded ++ s.windowBytes k.toNat ∧ u.boot.last = last ∧
      u.fget Reg.BOOT_STAT_STAGE = 1 ∧ (s.boot.recovery = true → u.boot.windowPort = some p.val) := by
  refine ⟨_, (execBootLoad_eq hb hs k last).trans (congrArg _ ((wrBootLoad_eq hp ((at_bootWaits s t).trans hw) k last).trans
    (if_pos (by rw [at_boot]; exact hk)))), ?_, ?_, ?_, fget_fset_fits _ (by decide) (by decide), fun hr => ?_⟩
  · rw [now_fset, State.now, bootMod_time, bootMod_time, State.now]
  · rw [fset_boot, bootMod_boot, bootMod_boot, at_boot, at_windowBytes]
    dsimp only
    split <;> rfl
  · rw [fset_boot, bootMod_boot]
  · rw [fset_boot, bootMod_boot, bootMod_boot, at_boot]
    dsimp only
    rw [if_pos hr]

/-- A chunk that does not fit is refused. -/
theorem execBootLoad_refuses {k : BitVec 16} (hk : ¬ (k.toNat ≠ 0 ∧ k.toNat ≤ 32768 ∧ s.boot.loaded.length + k.toNat ≤ 1048576)) (last : Bool) :
    ∃ u : State, execBootLoad p k last t s = .next u ∧ BootErr (s.at t) u 5 ∧ u.boot.loaded = s.boot.loaded := by
  refine ⟨_, (execBootLoad_eq hb hs k last).trans (congrArg _ ((wrBootLoad_eq hp ((at_bootWaits s t).trans hw) k last).trans
    (if_neg (by rw [at_boot]; exact hk)))), bootErr_shows (by decide) ?_ ?_, ?_⟩
  · split <;> rfl
  · split <;> rfl
  · rw [State.bootErr, fset_boot, bootMod_boot, at_boot]
    split <;> rfl

/-- GO or STORE after the last chunk starts the verification. -/
theorem bootWrite_goes {v : Word} (hgo : bitOf v.toNat 31 = true) (hl : s.boot.loaded ≠ []) (hlast : s.boot.last = true) :
    (s.regWrite p Reg.BOOT_CTRL t v).boot.going = some (bitOf v.toNat 30) ∧ (s.regWrite p Reg.BOOT_CTRL t v).boot.loaded = s.boot.loaded ∧
      (s.regWrite p Reg.BOOT_CTRL t v).fget Reg.BOOT_STAT_STAGE = 2 := by
  rw [bootWrite_eq hb hs, wrBootCtrl_eq hp ((at_bootWaits s t).trans hw) hgo, if_pos (by rw [at_boot]; exact ⟨hl, hlast⟩), fset_boot, bootMod_boot, at_boot]
  exact ⟨rfl, rfl, fget_fset_fits _ (by decide) (by decide)⟩

/-- GO or STORE before it is refused. -/
theorem bootWrite_refuses {v : Word} (hgo : bitOf v.toNat 31 = true) (hl : s.boot.loaded = [] ∨ s.boot.last = false) :
    BootErr (s.at t) (s.regWrite p Reg.BOOT_CTRL t v) 5 ∧ (s.regWrite p Reg.BOOT_CTRL t v).boot.going = none := by
  have hgoing : s.boot.going = none := by
    unfold State.bootWaits at hw
    exact Option.isNone_iff_eq_none.mp (Bool.and_eq_true_iff.mp hw).1
  rw [bootWrite_eq hb hs, wrBootCtrl_eq hp ((at_bootWaits s t).trans hw) hgo, if_neg (by
    rw [at_boot]
    rintro ⟨h, h'⟩
    rcases hl with e | e
    · exact h e
    · rw [e] at h'
      cases h')]
  exact ⟨bootErr_shows (f := id) (by decide) rfl rfl, by rw [State.bootErr, fset_boot, at_boot, hgoing]⟩

end

/-- The pins pass through a reset (R501). -/
theorem at_islands_boot (s : State) (t : Nat) :
    (s.at t).islands.boot.resetLow = s.boot.resetLow ∧ (s.at t).islands.boot.supplyLow = s.boot.supplyLow ∧ (s.at t).islands.boot.tmode = s.boot.tmode := by
  rw [← at_boot s t]
  exact ⟨rfl, rfl, rfl⟩

section

variable {s : State} (i : BootIn)

theorem execTmode_rises (t : Nat) : execTmode true i t s = .next (s.resetBy t (fun b => { b with tmode := true })) := rfl

theorem execTmode_falls (h : s.boot.tmode = true) (t : Nat) : execTmode false i t s = .next ((s.bootMod (fun b => { b with tmode := false })).clearCause.bootIfUp i) := by
  unfold execTmode
  rw [if_neg Bool.false_ne_true, if_pos h]

theorem execResetRelease_pin (h : s.boot.resetLow = true) :
    execResetRelease i s = .next ((s.bootMod (fun b => { b with resetLow := false })).clearCause.bootIfUp i) := by
  unfold execResetRelease
  rw [if_pos h]

theorem execResetRelease_f5 (h : s.boot.resetLow = false) (hf : s.boot.f5 = true) (hup : (s.bootMod (fun b => { b with f5 := false })).up = true) :
    execResetRelease i s = .next (s.bootStart i) := by
  unfold execResetRelease
  rw [h, if_neg Bool.false_ne_true, if_pos hf]
  dsimp only
  rw [if_pos hup]

theorem execPowerOnResetEnd_boots (h : s.boot.supplyLow = true) :
    execPowerOnResetEnd i s = .next ((s.bootMod (fun b => { b with supplyLow := false })).bootIfUp i) := by
  unfold execPowerOnResetEnd
  rw [if_pos h]

end

/-- READY is given 810 ticks after the first planned tick. -/
theorem execReadyEvt_gives {s : State} (hup : s.up = true) (hpl : s.boot.planned = true) (ht : s.boot.firstTick + 810 ≤ s.time.tick) :
    execReadyEvt s = .next (s.fsetB Reg.TOP_DOMAIN_READY true) :=
  congrArg _ (if_pos (by rw [hup, hpl, decide_eq_true ht]; rfl))

/-- Settles O45: each clause is the rule of its command above. -/
theorem resetAndBoot : Obligations.ResetAndBoot := by
  intro s t n p i k last store l c edge raw b b2 y x down window size fits err first starts good verifies read loads
  have herr {u : State} {e : Nat} (h : BootErr y u e) : err u e := ⟨h.now, h.code, h.firmware.trans (by rw [at_boot]), h.rom.trans (by rw [at_boot])⟩
  have hgood (w : List Byte) : Good y w ↔ good w := by rw [Good, at_otp]
  have hfirst : y.firstTickFrom = first := firstTickFrom_eq y
  have hstarts {u : State} {w : List Byte} {src f : Nat} (h : Starts y u w src f) : starts u w src f :=
    ⟨h.now, h.rom, h.firmware, h.firstTick, h.going, h.stage, h.source, h.version, h.compute, h.supervisor.trans (activeWd_of_regs (at_regs ..))⟩
  refine ⟨?_, ?_, ?_, fun hh hf => ⟨fun hr hm hl => ?_, fun hr hm hl => ?_, fun hr hm hl => ?_⟩, fun hh hr hm hl hf => ?_, fun ⟨hb, hs, hp, hw⟩ hk => ?_,
    fun ⟨hb, hs, hp, hw⟩ hk => ?_, fun ⟨hb, hs, hp, hw⟩ hl hlast => ?_, fun ⟨hb, hs, hp, hw⟩ hl => ?_, fun ⟨hup, hrom, hgo⟩ hg => ?_, fun ⟨hup, hrom, hgo⟩ hg => ?_,
    fun ⟨hup, hrom, hgo, hrec, hsel⟩ hst => ?_, fun ⟨hup, hrom, hgo, hrec, hsel⟩ hst => ⟨fun hc => ?_, fun hc hg => ?_, fun hc hb hg => ?_⟩,
    fun hup hrom hpl ht => execFirstPlannedTick_shows hup hrom hpl ht edge raw, fun hup hpl ht => ?_⟩
  · obtain ⟨hi, hhold, hf5, hboot⟩ := resetBy_down s t (fun b => { b with resetLow := true }) (fun _ => rfl) (fun _ => rfl) (fun _ => rfl)
    refine ⟨_, rfl, ⟨hi, hhold, hf5, ?_⟩, ?_, ?_, ?_⟩
    · rw [up_of_boot, hboot, Bool.true_or, Bool.true_or, Bool.true_or, Bool.true_or, Bool.not_true]
    · rw [hboot]
    · rw [hboot]
      exact (at_islands_boot s t).2.1
    · rw [hboot]
      exact (at_islands_boot s t).2.2
  · obtain ⟨hi, hhold, hf5, hboot⟩ := resetBy_down s t (fun b => { b with supplyLow := true, supmon := true }) (fun _ => rfl) (fun _ => rfl) (fun _ => rfl)
    refine ⟨_, rfl, ⟨hi, hhold, hf5, ?_⟩, ?_, ?_⟩
    · rw [up_of_boot, hboot, Bool.or_true, Bool.true_or, Bool.true_or, Bool.not_true]
    · rw [hboot]
    · rw [hboot]
  · obtain ⟨hi, hhold, hf5, hboot⟩ := resetBy_down s t (fun b => { b with tmode := true }) (fun _ => rfl) (fun _ => rfl) (fun _ => rfl)
    refine ⟨_, execTmode_rises i t, ⟨hi, hhold, hf5, ?_⟩, ?_⟩
    · rw [up_of_boot, hboot, Bool.or_true, Bool.true_or, Bool.true_or, Bool.true_or, Bool.not_true]
    · rw [hboot]
  · exact ⟨_, execResetRelease_pin i hr, clearCause_boots (f := fun b => { b with resetLow := false }) rfl hm hl hh hf rfl hf i⟩
  · obtain ⟨hbooted, hcause, -⟩ := clearCause_boots (f := fun b => { b with tmode := false }) hr rfl hl hh hf rfl hf i
    exact ⟨_, execTmode_falls i hm t, hbooted, hcause⟩
  · obtain ⟨hbooted, -⟩ := bootIfUp_booted (s := s.bootMod (fun b => { b with supplyLow := false })) hr hm rfl hh hf i
    exact ⟨_, execPowerOnResetEnd_boots i hl, booted_congr hbooted (bootMod_bkp ..) rfl rfl⟩
  · have hup : (s.bootMod (fun b => { b with f5 := false })).up = true := by
      rw [up_of_boot, bootMod_boot, hr, hm, hl, hh]
      rfl
    exact ⟨_, execResetRelease_f5 i hr hf hup, (bootStart_booted hr hm hl i).1⟩
  · exact execBootLoad_takes hb hs hp hw hk last
  · obtain ⟨u, hu, he, hl⟩ := execBootLoad_refuses hb hs hp hw hk last
    exact ⟨u, hu, herr he, hl⟩
  · exact ⟨⟨_, rfl, bootWrite_goes hb hs hp hw (by decide) hl hlast⟩, ⟨_, rfl, bootWrite_goes hb hs hp hw (by decide) hl hlast⟩⟩
  · have refused {v : Word} (hv : bitOf v.toNat 31 = true) := bootWrite_refuses hb hs hp hw hv hl
    exact ⟨⟨_, rfl, herr (refused (by decide)).1, (refused (by decide)).2⟩, ⟨_, rfl, herr (refused (by decide)).1, (refused (by decide)).2⟩⟩
  · obtain ⟨u, hu, hst⟩ := execFirmwareVerified_loaded (t := t) hup hrom hgo ((hgood _).mpr hg)
    exact ⟨u, hu, hstarts (hfirst ▸ hst)⟩
  · have hcode : (if Config.firmwareSigned s.boot.loaded = true then 4 else 3) < 256 := by split <;> decide
    obtain ⟨he, hl, hgoing, hstage⟩ := loadRefused_shows (s := y) hcode
    exact ⟨_, execFirmwareVerified_refused hup hrom hgo (fun h => hg ((hgood _).mp h)), herr he, hl, hgoing, hstage⟩
  · obtain ⟨he, hrecov, hstage⟩ := recovering_shows (s := y) (e := 1) (by decide)
    exact ⟨_, execFirmwareVerified_noStore hup hrom hgo hrec hsel hst, herr he, hrecov, hstage⟩
  · obtain ⟨he, hrecov, hstage⟩ := recovering_shows (s := y) (e := 2) (by decide)
    exact ⟨_, execFirmwareVerified_noCopy hup hrom hgo hrec hsel hst hc, herr he, hrecov, hstage⟩
  · exact ⟨_, execFirmwareVerified_first hup hrom hgo hrec hsel hst hc ((hgood _).mpr hg), hstarts (hfirst ▸ startFirmware_starts y b (by decide) _)⟩
  · exact ⟨_, execFirmwareVerified_second hup hrom hgo hrec hsel hst hc (fun h => hb ((hgood _).mp h)) ((hgood _).mpr hg),
      hstarts (hfirst ▸ startFirmware_starts y b2 (by decide) _)⟩
  · exact execReadyEvt_gives hup hpl ht

end Sys2Proof.Proofs
end

section
/-!
Self-calibration (chapter 6): what its display in registers leaves alone, and what the report of an F0 fault does.
-/

namespace Sys2Proof.Proofs

open Sys2Proof Sys2Proof.Machine Sys2Proof.Laws

/-! ## The registers shown (R163) -/

/-- The registers that show the values in force, the points and the deferrals. -/
def ShownReg (a : Nat) : Prop := a = Reg.CAL_STAT ∨ 0x70028 ≤ a ∧ a < 0x80000

/-- The fields of CAL_STAT among them. -/
def shownFlds : List Reg.Fld := [Reg.CAL_STAT_NPTS, Reg.CAL_STAT_SLEWING, Reg.CAL_STAT_DEFMASK, Reg.CAL_STAT_DEFERRED, Reg.CAL_STAT_ESC]

/-- From `s` to `t` only registers have changed, and of those only what shows the calibration. -/
structure CalShown (s t : State) : Prop where
  only : ∃ r, t = { s with regs := r }
  regs : ∀ a, ¬ ShownReg a → t.rget a = s.rget a
  stat : ∀ k : Reg.Fld, k.addr = Reg.CAL_STAT → shownFlds.all (fldApart · k) = true → t.fget k = s.fget k

namespace CalShown

variable {s t u : State}

theorem refl (s : State) : CalShown s s := ⟨⟨s.regs, rfl⟩, fun _ _ => rfl, fun _ _ _ => rfl⟩

theorem trans (h : CalShown s t) (k : CalShown t u) : CalShown s u where
  only := by
    obtain ⟨_, rfl⟩ := h.only
    obtain ⟨r, rfl⟩ := k.only
    exact ⟨r, rfl⟩
  regs a ha := (k.regs a ha).trans (h.regs a ha)
  stat f ha hf := (k.stat f ha hf).trans (h.stat f ha hf)

theorem rsetN (h : CalShown s t) {a : Nat} (ha : 0x70028 ≤ a ∧ a < 0x80000) (n : Nat) : CalShown s (t.rsetN a n) :=
  h.trans ⟨⟨_, rfl⟩, fun b hb => rget_rset_ne t (fun e : a = b => hb (e ▸ .inr ha)) _,
    fun k hk _ => fget_rsetN_ne t n (by rw [hk, Reg.CAL_STAT]; omega)⟩

theorem fset (h : CalShown s t) {f : Reg.Fld} (hf : f ∈ shownFlds) (hs : f.addr = Reg.CAL_STAT) (n : Nat) : CalShown s (t.fset f n) :=
  h.trans ⟨⟨_, rfl⟩, fun _ hb => rget_fset_ne t f n (fun e => hb (.inl (e ▸ hs))),
    fun _ _ hk => fget_fset_fldApart t n (List.all_eq_true.mp hk f hf)⟩

theorem fsetB (h : CalShown s t) {f : Reg.Fld} (hf : f ∈ shownFlds) (hs : f.addr = Reg.CAL_STAT) (b : Bool) : CalShown s (t.fsetB f b) := h.fset hf hs _

theorem foldl {α : Type} {f : State → α → State} (l : List α) (h : CalShown s t) (hf : ∀ x, CalShown s x → ∀ a ∈ l, CalShown s (f x a)) :
    CalShown s (l.foldl f t) := by
  induction l generalizing t with
  | nil => exact h
  | cons a l ih => exact ih (hf t h a List.mem_cons_self) fun x hx b hb => hf x hx b (List.mem_cons_of_mem _ hb)

theorem cal (h : CalShown s t) : t.cal = s.cal := by
  obtain ⟨_, rfl⟩ := h.only
  rfl

theorem now (h : CalShown s t) : t.now = s.now := by
  obtain ⟨_, rfl⟩ := h.only
  rfl

theorem flag_stat (h : CalShown s t) {k : Reg.Fld} (ha : k.addr = Reg.CAL_STAT) (hk : shownFlds.all (fldApart · k) = true) : t.flag k = s.flag k :=
  congrArg (· != 0) (h.stat k ha hk)

theorem flag (h : CalShown s t) {k : Reg.Fld} (ha : ¬ ShownReg k.addr) : t.flag k = s.flag k := by
  rw [State.flag, State.fget, h.regs _ ha, State.flag, State.fget]

end CalShown

theorem showDef_shown (s : State) : CalShown s s.showDef := by
  unfold State.showDef
  exact (((CalShown.refl s).fset (by decide) rfl _).fsetB (by decide) rfl _).fsetB (by decide) rfl _

theorem showCal_shown (s : State) : CalShown s s.showCal := by
  unfold State.showCal
  extract_lets f v s1 s2 s3 s4
  have h1 : CalShown s s1 := (CalShown.refl s).foldl _ fun x hx c hc => hx.foldl _ fun y hy i hi => by
    have := List.mem_range.mp hc
    have := List.mem_range.mp hi
    exact (hy.rsetN (by unfold Reg.CAL_ILA; omega) _).rsetN (by unfold Reg.CAL_ILB; omega) _
  clear_value s1
  have h2 : CalShown s s2 := h1.foldl _ fun x hx c hc => hx.foldl _ fun y hy i hi => by
    have := List.mem_range.mp hc
    have := List.mem_range.mp hi
    exact hy.rsetN (by unfold Reg.CAL_LNA; omega) _
  clear_value s2
  have h3 : CalShown s s3 := ((h2.rsetN (by decide) _).rsetN (by decide) _).rsetN (by decide) _
  clear_value s3
  have h4 : CalShown s s4 := h3.foldl _ fun x hx p hp => by
    have hr : 0x70028 ≤ Reg.CAL_TEMP p ∧ Reg.CAL_TEMP p < 0x80000 := by
      have := List.mem_range.mp hp
      unfold Reg.CAL_TEMP
      omega
    split
    · exact hx.rsetN hr _
    · exact hx.rsetN hr _
  clear_value s4
  exact (h4.fset (by decide) rfl _).fsetB (by decide) rfl _

@[simp] theorem showDef_cal (s : State) : s.showDef.cal = s.cal := (showDef_shown s).cal

@[simp] theorem showCal_cal (s : State) : s.showCal.cal = s.cal := (showCal_shown s).cal

/-- CAL_EVT is not among the registers shown. -/
theorem calEvt_notShown : ¬ ShownReg Reg.CAL_EVT := by
  unfold ShownReg
  decide

/-! ## Frames -/

section

variable {α : Type} {p : View α} {A : Nat → Prop} {s t u : State}

theorem Aside.calShown (h : Aside p A s t) (k : CalShown t u) (hA : ∀ a, ShownReg a → A a) : Aside p A s u := by
  refine h.trans ⟨?_, ?_, fun a ha => k.regs a fun hs => ha (hA a hs)⟩
  · obtain ⟨r, rfl⟩ := k.only
    exact .refl _
  · obtain ⟨r, rfl⟩ := k.only
    exact p.blind t r t.time

/-- A fault of class F0 is entered in the log and counted (R479); no snapshot follows it (R458). -/
theorem Aside.faultF0 (h : Aside p A s t) (hA : ∀ a, 0x110000 ≤ a → A a) (hp : ∀ (x : State) f w, p.part { x with flt := f, snp := w } = p.part x) {fc : Nat}
    (hfc : fc < 4096) (unit ctx detail : Nat) : Aside p A s (t.fault fc unit ctx detail) := by
  have hcls : fc / 4096 = 0 := Nat.div_eq_of_lt hfc
  unfold State.fault State.faultAt
  extract_lets cls i a s1 s2 s2b w f s3
  have ha : 0x110000 ≤ a := Nat.le_add_right_of_le (Nat.le_add_right_of_le (by decide))
  have h1 : Aside p A s s1 := ((h.rset64 (hA _ ha) (hA _ (by omega)) _).rsetN (hA _ (by omega)) _).rsetN (hA _ (by omega)) _
  have h2 : Aside p A s s2 := (h1.rsetN (hA _ (by decide)) _).evt (hA _ (by rw [show cls = 0 from hcls]; decide))
  have h3 : Aside p A s s3 := (h2.bump (hA _ (by rw [show cls = 0 from hcls]; decide))).of_eq rfl rfl (hp (s2.bump (fltCnt cls)) _ _)
  have hno : ¬ (cls ≠ 0 && bitOf (t.fget Reg.SNP_CTRL_FMASK) (cls - 1)) = true := by
    rw [show cls = 0 from hcls]
    exact Bool.false_ne_true
  rw [if_neg hno]
  exact h3

theorem Aside.boundaryTick (h : Aside p A s t) (hA : ∀ a, A a → 0x70000 ≤ a) : t.boundaryTick = s.boundaryTick := by
  have low {a : Nat} (ha : a < 0x70000) : ¬ A a := fun k => Nat.not_le_of_lt ha (hA a k)
  unfold State.boundaryTick State.afterSkip
  rw [h.now, h.tick, h.flag (low (by decide)), h.flag (low (by decide)), h.fget (low (by decide)), h.rget64 (low (by decide)) (low (by decide))]

theorem Aside.stamp (h : Aside p A s t) (hA : ∀ a, A a → 0x70000 ≤ a) : t.stamp = s.stamp := by
  unfold State.stamp State.stampOf State.coarse State.scsLocked
  rw [h.now, h.flag fun k => Nat.not_le_of_lt (by decide) (hA _ k)]

end

end Sys2Proof.Proofs
end

section
/-!
Estimates of the calibration (R134, R141, R145, R147, R154): due, accepted and rejected.
-/

namespace Sys2Proof.Proofs

open Sys2Proof Sys2Proof.Machine Sys2Proof.Laws

/-! ## Vectors by group and unit (R134) -/

theorem calIdx_lt (g : Fin 7) (u : Fin 2) : calIdx g u < 13 := by decide +revert

theorem calGroup_calIdx (g : Fin 7) (u : Fin 2) : calGroup (calIdx g u) = g := by decide +revert

/-! ## The course of an estimate -/

/-- The course of the estimate of a vector. -/
def courseOf (s : State) (i : Nat) : EstS := s.cal.ests.getD i {}

theorem courseOf_of_cal {s t : State} (h : t.cal = s.cal) (i : Nat) : courseOf t i = courseOf s i := by
  rw [courseOf, h, courseOf]

theorem estMod_course {s : State} {i : Nat} (hi : i < s.cal.ests.length) (f : EstS → EstS) : courseOf (s.estMod i f) i = f (courseOf s i) :=
  (modifyAt_getD ..).trans (if_pos ⟨rfl, hi⟩)

theorem estMod_course_ne (s : State) {i j : Nat} (h : i ≠ j) (f : EstS → EstS) : courseOf (s.estMod i f) j = courseOf s j :=
  (modifyAt_getD ..).trans (if_neg fun k => h k.1)

theorem estMod_flag (s : State) (i : Nat) (f : EstS → EstS) (k : Reg.Fld) : (s.estMod i f).flag k = s.flag k := flag_of_regs (calMod_regs ..) k

theorem estMod_points (s : State) (i : Nat) (f : EstS → EstS) : (s.estMod i f).cal.points = s.cal.points := rfl

theorem estMod_length (s : State) (i : Nat) (f : EstS → EstS) : (s.estMod i f).cal.ests.length = s.cal.ests.length := modifyAt_length ..

/-! ## Due (R154) -/

theorem estDue_of_none {s : State} {i : Nat} (h : (courseOf s i).due = none) (esc : Bool) :
    s.estDue i esc = (s.estMod i (fun e => { e with due := some s.time.tick, passing := 0, tsum := 0, esc := esc })).showDef :=
  if_neg (by rw [← courseOf, h]; exact Bool.false_ne_true)

theorem estDue_of_some {s : State} {i : Nat} (h : (courseOf s i).due.isSome = true) :
    s.estDue i true = (s.estMod i (fun e => { e with esc := true })).showDef := if_pos h

/-- An estimate that is not due becomes due by age or, escalated, by drift. -/
theorem execCalEstimateDue_falls {s : State} {g : Fin 7} {u : Fin 2} (hl : s.cal.ests.length = 13) (htrack : s.flag Reg.CAL_CTRL_TRACK = true)
    (hpwr : s.flag Reg.CAL_STAT_PWRUP = false) (hon : s.calPowered (calIdx g u) = true) (hdue : (courseOf s (calIdx g u)).due = none)
    (h : s.drifted = true ∨ (courseOf s (calIdx g u)).lastAccept + max 60 (s.fget Reg.CAL_CFG1_MAXAGE) * 3000 ≤ s.time.tick) :
    ∃ x, execCalEstimateDue g u s = .next x ∧
      courseOf x (calIdx g u) = { courseOf s (calIdx g u) with due := some s.time.tick, passing := 0, tsum := 0, esc := s.drifted } := by
  have falls (esc : Bool) : courseOf (s.estDue (calIdx g u) esc) (calIdx g u) =
      { courseOf s (calIdx g u) with due := some s.time.tick, passing := 0, tsum := 0, esc := esc } := by
    rw [estDue_of_none hdue, courseOf_of_cal (showDef_cal _), estMod_course (hl ▸ calIdx_lt g u)]
  unfold execCalEstimateDue
  dsimp only
  rw [htrack, hpwr, hon]
  cases hd : s.drifted with
  | true => exact ⟨_, rfl, falls true⟩
  | false =>
    have hage := h.resolve_left (hd ▸ Bool.false_ne_true)
    refine ⟨_, congrArg _ (if_pos hage), falls false⟩

/-! ## Accepted (R145, R147) -/

/-- From `s` to `x` an estimate of vector `i` at temperature `t` has been accepted. -/
structure Accepted (s : State) (i : Nat) (t : Rat) (v : List Rat) (x : State) : Prop where
  points : x.cal.points = updatePoints i t v s.cal.points
  changed : x.cal.changed = true
  course : courseOf x i =
    { courseOf s i with due := none, deferred := false, esc := false, passing := 0, tsum := 0, rejects := [], lastAccept := s.time.tick }
  event : x.flag Reg.CAL_EVT_ACCEPT = true
  passed : x.flag Reg.CAL_STAT_REJECT = false

theorem wuDone_cal (s : State) (k : Nat) : (s.wuDone k).cal = s.cal := rfl

theorem wuDone_regs (s : State) (k : Nat) : (s.wuDone k).regs = s.regs := rfl

/-- Showing the calibration and noting its work done change no more of it. -/
theorem shownDone_cal (s : State) : (s.showDef.showCal.wuDone 1).cal = s.cal := by
  rw [wuDone_cal, showCal_cal, showDef_cal]

theorem shownDone_flag {s : State} {k : Reg.Fld} (h : ¬ ShownReg k.addr ∨ k.addr = Reg.CAL_STAT ∧ shownFlds.all (fldApart · k) = true) :
    (s.showDef.showCal.wuDone 1).flag k = s.flag k := by
  have hs : CalShown s s.showDef.showCal := (showDef_shown s).trans (showCal_shown _)
  rw [flag_of_regs (wuDone_regs ..)]
  exact h.elim (fun hk => hs.flag hk) fun hk => hs.flag_stat hk.1 hk.2

theorem calAccept_accepts {s : State} {i : Nat} (hi : i < s.cal.ests.length) (t : Rat) (v : List Rat) : Accepted s i t v (s.calAccept i t v) := by
  unfold State.calAccept
  extract_lets s1 s2 s3 tgts
  have hcal : s3.cal = (s1.estMod i (fun e => { e with due := none, deferred := false, esc := false, passing := 0, tsum := 0, rejects := [], lastAccept := s.time.tick })).cal :=
    (fsetB_cal ..).trans (evt_cal ..)
  have hevent : s3.flag Reg.CAL_EVT_ACCEPT = true := (flag_fsetB_fldApart s2 false (by decide)).trans (flag_evt_same _ _ rfl (by decide))
  have hpassed : s3.flag Reg.CAL_STAT_REJECT = false := flag_fsetB_same _ _ _ rfl (by decide)
  clear_value s3
  have htold (k : Reg.Fld) : (s3.calMod (fun c => { c with waiting := putTargets c.waiting tgts })).flag k = s3.flag k := flag_of_regs (calMod_regs ..) k
  exact {
    points := by rw [shownDone_cal, calMod_cal, hcal]; rfl
    changed := by rw [shownDone_cal, calMod_cal, hcal]; rfl
    course := by
      rw [courseOf, shownDone_cal, calMod_cal, hcal]
      exact estMod_course (s := s1) hi _
    event := by rw [shownDone_flag (.inl calEvt_notShown), htold, hevent]
    passed := by rw [shownDone_flag (.inr ⟨rfl, by decide⟩), htold, hpassed] }

/-! ## Rejected (R141) -/

/-- From `s` to `x` an estimate of vector `i` has been rejected for a reason. -/
structure Rejected (s : State) (i reason : Nat) (x : State) : Prop where
  cal : x.cal = (s.estMod i (fun e => { e with due := none, passing := 0, tsum := 0 })).cal
  event : x.flag Reg.CAL_EVT_REJECT = true
  reject : x.flag Reg.CAL_STAT_REJECT = true
  reason : x.fget Reg.CAL_STAT_REASON = reason
  group : x.fget Reg.CAL_STAT_GROUP = calGroup i

/-- What the report of a fault leaves alone here: the calibration. -/
def reportedView : View CalS := ⟨State.cal, fun _ _ _ => rfl⟩

theorem Aside.cal_of_reported {A : Nat → Prop} {s t : State} (h : Aside reportedView A s t) : t.cal = s.cal := h.view

theorem calReject_rejects (s : State) {i reason : Nat} (hr : reason < 16) (hg : calGroup i < 8) : Rejected s i reason (s.calReject i reason) := by
  unfold State.calReject
  extract_lets s1 s2
  have hcal : s1.cal = s.cal := by rw [fset_cal, fset_cal, fset_cal, fsetB_cal]
  have hreject : s1.fget Reg.CAL_STAT_REJECT = 1 := by
    rw [fget_fset_fldApart _ _ (by decide), fget_fset_fldApart _ _ (by decide), fget_fset_fldApart _ _ (by decide)]
    exact fget_fset_fits s (n := 1) (by decide) (by decide)
  have hreason : s1.fget Reg.CAL_STAT_REASON = reason := by
    rw [fget_fset_fldApart _ _ (by decide), fget_fset_fldApart _ _ (by decide)]
    exact fget_fset_fits _ (by decide) hr
  have hgroup : s1.fget Reg.CAL_STAT_GROUP = calGroup i := by
    rw [fget_fset_fldApart _ _ (by decide)]
    exact fget_fset_fits _ (by decide) hg
  clear_value s1
  have h2 : Aside reportedView (0x110000 ≤ ·) ((s1.evt Reg.CAL_EVT_REJECT).bump Reg.CAL_CNT_REJECTED) s2 :=
    (Aside.refl _).faultF0 (fun _ h => h) (fun _ _ _ => rfl) (by decide) ..
  clear_value s2
  have hshown := showDef_shown (s2.estMod i (fun e => { e with due := none, passing := 0, tsum := 0 }))
  have stat (k : Reg.Fld) (ha : k.addr = Reg.CAL_STAT) (hk : shownFlds.all (fldApart · k) = true) :
      (s2.estMod i (fun e => { e with due := none, passing := 0, tsum := 0 })).showDef.fget k = s1.fget k := by
    have e : fldApart Reg.CAL_EVT_REJECT k = true := Bool.or_eq_true_iff.mpr (.inl (decide_eq_true (by rw [ha]; decide)))
    have c : Reg.CAL_CNT_REJECTED.addr ≠ k.addr := by rw [ha]; decide
    rw [hshown.stat k ha hk, State.estMod, fget_of_regs (calMod_regs ..), h2.fget (by rw [ha]; decide)]
    exact (fget_fset_addr _ _ _ _ c).trans (fget_evt_fldApart s1 e)
  refine ⟨?_, ?_, ?_, (stat _ rfl (by decide)).trans hreason, (stat _ rfl (by decide)).trans hgroup⟩
  · rw [hshown.cal, State.estMod, State.estMod, calMod_cal, calMod_cal, h2.cal_of_reported, bump_cal, evt_cal, hcal]
  · rw [hshown.flag calEvt_notShown, estMod_flag, h2.flag (by decide)]
    exact (flag_fset_fldApart _ _ (by decide)).trans (flag_evt_same _ _ rfl (by decide))
  · rw [State.flag, stat _ rfl (by decide), hreject]
    rfl

end Sys2Proof.Proofs
end

section
/-!
The checks of the estimates formed, those abandoned, and the evaluation of every second (R139 to R142, R146, R147).
-/

namespace Sys2Proof.Proofs

open Sys2Proof Sys2Proof.Machine Sys2Proof.Laws

/-! ## The check (R140, R141) -/

section

variable {s : State} {i : Nat} {t : Rat} {v se : List Rat} {single : Bool}

theorem calJudge_of_pass (h : calReason (calGroup i) v (interp i t s.cal.points) se single = 0) : s.calJudge i t v se single = s.calAccept i t v := by
  unfold State.calJudge
  dsimp only
  rw [h]
  rfl

/-- A rejection for another reason ends a run of those for the change limit alone (log entry 78). -/
theorem calJudge_of_fail {r : Nat} (h : calReason (calGroup i) v (interp i t s.cal.points) se single = r) (h0 : r ≠ 0) (h8 : r ≠ 8) :
    s.calJudge i t v se single = (s.calReject i r).estMod i (fun e => { e with rejects := [] }) := by
  unfold State.calJudge
  dsimp only
  rw [h]
  split
  · exact absurd rfl h0
  · exact absurd rfl h8
  · rfl

end

theorem calReason_le {g : Nat} (hg : g < 7) (v inf se : List Rat) (single : Bool) : calReason g v inf se single ≤ 9 := by
  unfold calReason
  dsimp only
  split
  · omega
  · split
    · exact Nat.le_refl _
    · split <;> decide

/-! ## Estimates solved (R135, R145) -/

section

variable {s : State} {g : Fin 7} {u : Fin 2} {v se : List Rat} (hl : s.cal.ests.length = 13)
  (hforms : s.flag Reg.CAL_CTRL_TRACK = true ∨ s.flag Reg.CAL_STAT_PWRUP = true) (hon : s.calPowered (calIdx g u) = true)

include hforms hon

theorem formsNone_false : (!(s.flag Reg.CAL_CTRL_TRACK || s.flag Reg.CAL_STAT_PWRUP) || !s.calPowered (calIdx g u)) = false := by
  rw [hon, Bool.or_eq_true_iff.mpr hforms]
  rfl

/-- An estimate of enough passing ticks is checked at their mean temperature, its values normalised. -/
theorem execCalEstimateDone_solved {pair : Fin 6} {d : Nat} (hg : g.val ≠ 4) (hdue : (courseOf s (calIdx g u)).due = some d)
    (hpass : max 1 (s.fget Reg.CAL_CFG0_EST_T) ≤ (courseOf s (calIdx g u)).passing)
    (hv : v.length = (interp (calIdx g u) (courseOf s (calIdx g u)).mean s.cal.points).length) :
    execCalEstimateDone g u pair v se s = .next (s.calJudge (calIdx g u) (courseOf s (calIdx g u)).mean (calNorm g v) se false) := by
  have hready : ((courseOf s (calIdx g u)).due.isSome && decide (zeroAs1 (s.fget Reg.CAL_CFG0_EST_T) ≤ (courseOf s (calIdx g u)).passing) &&
      decide (v.length = (interp (calIdx g u) (courseOf s (calIdx g u)).mean s.cal.points).length)) = true := by
    rw [hdue, zeroAs1_eq_max, decide_eq_true hpass, decide_eq_true hv]
    rfl
  unfold execCalEstimateDone
  dsimp only
  rw [formsNone_false hforms hon, if_neg Bool.false_ne_true, if_neg hg]
  exact congrArg _ (if_pos hready)

/-- A pair's ratio is formed from four observations or more (R146). -/
theorem execCalEstimateDone_pair {pair : Fin 6} (hg : g.val = 4) (h4 : 4 ≤ (s.cal.lnaObs.getD (6 * u.val + pair.val) []).length) :
    execCalEstimateDone g u pair v se s = .next (s.lnaJudge u pair s.tcal) := by
  unfold execCalEstimateDone
  dsimp only
  rw [formsNone_false hforms hon, if_neg Bool.false_ne_true, if_pos hg, if_neg (Nat.not_lt_of_le h4)]

include hl

theorem execCalEstimateDone_accepts {pair : Fin 6} {d : Nat} (hg : g.val ≠ 4) (hdue : (courseOf s (calIdx g u)).due = some d)
    (hpass : max 1 (s.fget Reg.CAL_CFG0_EST_T) ≤ (courseOf s (calIdx g u)).passing)
    (hv : v.length = (interp (calIdx g u) (courseOf s (calIdx g u)).mean s.cal.points).length)
    (hr : calReason g (calNorm g v) (interp (calIdx g u) (courseOf s (calIdx g u)).mean s.cal.points) se false = 0) :
    ∃ x, execCalEstimateDone g u pair v se s = .next x ∧ Accepted s (calIdx g u) (courseOf s (calIdx g u)).mean (calNorm g v) x := by
  refine ⟨_, (execCalEstimateDone_solved hforms hon hg hdue hpass hv).trans (congrArg _ (calJudge_of_pass ?_)), calAccept_accepts (hl ▸ calIdx_lt g u) ..⟩
  rw [calGroup_calIdx, hr]

/-- An estimate outside its limits but for the change limit alone is rejected with its reason, and ends the run of those. -/
theorem execCalEstimateDone_rejects {pair : Fin 6} {d r : Nat} (hg : g.val ≠ 4) (hdue : (courseOf s (calIdx g u)).due = some d)
    (hpass : max 1 (s.fget Reg.CAL_CFG0_EST_T) ≤ (courseOf s (calIdx g u)).passing)
    (hv : v.length = (interp (calIdx g u) (courseOf s (calIdx g u)).mean s.cal.points).length)
    (hr : calReason g (calNorm g v) (interp (calIdx g u) (courseOf s (calIdx g u)).mean s.cal.points) se false = r) (h0 : r ≠ 0) (h8 : r ≠ 8) :
    ∃ x, execCalEstimateDone g u pair v se s = .next x ∧ x.cal.points = s.cal.points ∧
      courseOf x (calIdx g u) = { courseOf s (calIdx g u) with due := none, passing := 0, tsum := 0, rejects := [] } ∧
      x.flag Reg.CAL_EVT_REJECT = true ∧ x.flag Reg.CAL_STAT_REJECT = true ∧ x.fget Reg.CAL_STAT_REASON = r ∧ x.fget Reg.CAL_STAT_GROUP = g := by
  have hi : calIdx g u < s.cal.ests.length := hl ▸ calIdx_lt g u
  have hgroup := calGroup_calIdx g u
  have hle : r ≤ 9 := hr ▸ calReason_le g.isLt ..
  have hx := calReject_rejects s (i := calIdx g u) (reason := r) (by omega) (by omega)
  have hi' : calIdx g u < (s.calReject (calIdx g u) r).cal.ests.length := by rw [hx.cal, estMod_length]; exact hi
  refine ⟨_, (execCalEstimateDone_solved hforms hon hg hdue hpass hv).trans (congrArg _ (calJudge_of_fail (by rw [hgroup, hr]) h0 h8)), ?_, ?_, ?_, ?_, ?_, ?_⟩
  · rw [estMod_points, hx.cal, estMod_points]
  · rw [estMod_course hi', courseOf_of_cal hx.cal, estMod_course hi]
  · exact (estMod_flag ..).trans hx.event
  · exact (estMod_flag ..).trans hx.reject
  · exact (fget_of_regs (calMod_regs ..) _).trans hx.reason
  · exact (fget_of_regs (calMod_regs ..) _).trans (hx.group.trans hgroup)

end

/-! ## Pairs of gain steps (R146, R152) -/

/-- A pair whose ratio is within its limits is accepted, and is deferred no more. -/
theorem lnaJudge_accepts {s : State} {g : Fin 7} {u : Fin 2} {pair : Fin 6} (hl : s.cal.ests.length = 13) (hg : g.val = 4)
    (h4 : 4 ≤ (s.cal.lnaObs.getD (6 * u.val + pair.val) []).length) {v : List Rat}
    (hv : modifyAt (interp (calIdx g u) s.tcal s.cal.points) pair (fun _ => meanQ (s.cal.lnaObs.getD (6 * u.val + pair.val) [])) = v)
    (hr : calReason 4 v (interp (calIdx g u) s.tcal s.cal.points) (lnaSe (s.cal.lnaObs.getD (6 * u.val + pair.val) [])) false = 0) :
    (s.lnaJudge u pair s.tcal).cal.points = updatePoints (calIdx g u) s.tcal v s.cal.points ∧ (s.lnaJudge u pair s.tcal).flag Reg.CAL_EVT_ACCEPT = true ∧
      (s.lnaJudge u pair s.tcal).cal.pairDef.getD (6 * u.val + pair.val) false = false := by
  have hi : calIdx g u < s.cal.ests.length := hl ▸ calIdx_lt g u
  have hgroup : calGroup (calIdx g u) = 4 := (calGroup_calIdx g u).trans hg
  have hsingle : ((s.cal.lnaObs.getD (6 * u.val + pair.val) []).length == 1) = false := by
    rw [beq_eq_false_iff_ne]
    omega
  have hacc := calAccept_accepts hi s.tcal v
  unfold State.lnaJudge
  rw [← hg]
  dsimp only
  rw [hsingle, hv, calJudge_of_pass (by rw [hgroup, hr]), hacc.passed, if_neg Bool.false_ne_true]
  generalize s.calAccept (calIdx g u) s.tcal v = x at hacc
  refine ⟨?_, ?_, ?_⟩
  · rw [showDef_cal, calMod_cal, hacc.points]
  · rw [(showDef_shown _).flag calEvt_notShown, flag_of_regs (calMod_regs ..), hacc.event]
  · rw [showDef_cal, calMod_cal, modifyAt_getD]
    split
    next => rfl
    next h =>
      rw [List.getD_eq_default]
      exact Nat.le_of_not_lt fun hlt => h ⟨rfl, hlt⟩

/-! ## Abandoned (R139, R151) -/

theorem gatherEnd_eq (s : State) (d : Nat) :
    s.gatherEnd d = if s.flag Reg.CAL_STAT_PWRUP then min (d + max 1 (s.fget Reg.CAL_CFG0_WAIT)) (s.boot.firstTick + 721) else d + max 1 (s.fget Reg.CAL_CFG0_WAIT) := by
  unfold State.gatherEnd
  rw [zeroAs1_eq_max]

theorem execCalAbandon_abandons {s : State} {g : Fin 7} {u : Fin 2} {d : Nat} (hl : s.cal.ests.length = 13) (hdue : (courseOf s (calIdx g u)).due = some d)
    (hon : s.calPowered (calIdx g u) = true) (hlast : s.gatherEnd d ≤ s.time.tick) (hfew : (courseOf s (calIdx g u)).passing < max 1 (s.fget Reg.CAL_CFG0_EST_T)) :
    ∃ x, execCalAbandon g u s = .next x ∧
      courseOf x (calIdx g u) = { courseOf s (calIdx g u) with due := none, passing := 0, tsum := 0, esc := false, rejects := [] } ∧
      x.flag Reg.CAL_EVT_ABANDON = true := by
  unfold execCalAbandon
  dsimp only
  rw [show (s.cal.ests.getD (calIdx g u) {}).due = some d from hdue]
  dsimp only
  rw [hon, Bool.not_true, if_neg Bool.false_ne_true, if_pos ⟨hlast, by rw [zeroAs1_eq_max]; exact hfew⟩]
  refine ⟨_, rfl, ?_, ?_⟩
  · rw [courseOf_of_cal (showDef_cal _), courseOf_of_cal ((bump_cal ..).trans (evt_cal ..)), estMod_course (hl ▸ calIdx_lt g u)]
  · rw [(showDef_shown _).flag calEvt_notShown]
    exact (flag_fset_fldApart _ _ (by decide)).trans (flag_evt_same _ _ rfl (by decide))

/-! ## The evaluation of R147 -/

theorem takeTarget_points (s : State) (i : Nat) (t : List Rat) (byStep : Bool) : (s.takeTarget i t byStep).cal.points = s.cal.points := by
  unfold State.takeTarget
  dsimp only
  split <;> rfl

theorem retarget_points (s : State) (byStep : Bool) (but : List Nat) : (s.retarget byStep but).cal.points = s.cal.points := by
  have step (f : State → Nat → State) (hf : ∀ x i, (f x i).cal.points = x.cal.points) (l : List Nat) (x : State) : (l.foldl f x).cal.points = x.cal.points := by
    induction l generalizing x with
    | nil => rfl
    | cons i l ih => exact (ih (f x i)).trans (hf x i)
  unfold State.retarget
  refine step _ (fun x i => ?_) _ s
  dsimp only
  split
  · exact takeTarget_points ..
  · rfl

theorem execCalReevaluate_evaluates {s : State} (h : s.time.tick % 3000 = 0) (hne : s.cal.reeval ≠ s.time.tick) (hp : s.boot.planned = true) :
    ∃ x, execCalReevaluate s = .next x ∧ x.cal.reeval = s.time.tick ∧ x.cal.points = s.cal.points := by
  unfold execCalReevaluate State.reevaluate
  rw [if_neg hne, if_pos ⟨h, hne, hp⟩]
  refine ⟨_, rfl, ?_, ?_⟩
  · rw [showCal_cal, calMod_cal]
  · rw [showCal_cal, calMod_cal]
    exact retarget_points s false []

end Sys2Proof.Proofs
end

section
/-!
An ingot written where an open block has room (R367, R370, R378), and the saves of the calibration (R156 to R158).
-/

namespace Sys2Proof.Proofs

open Sys2Proof Sys2Proof.Machine Sys2Proof.Laws

/-! ## Room (R378) -/

section

variable {s : State} {r : IngotReq}

theorem openBlock_of_room (h : s.Room r) : ∃ b, s.openBlock r r.cold = some b ∧ (s.fst.blk b).zone = r.zone := by
  obtain ⟨-, b, hb, hst, hzone, hpart, hcold, hnext⟩ := h
  have hfits : (s.openBlock r r.cold).isSome = true := by
    unfold State.openBlock
    rw [List.find?_isSome]
    refine ⟨b, List.mem_range.mpr hb, ?_⟩
    dsimp only
    rw [hst, hzone, hpart, hcold, decide_eq_true hnext, IngotReq.cold]
    simp
  obtain ⟨c, hc⟩ := Option.isSome_iff_exists.mp hfits
  have hp := List.find?_some hc
  simp only [Bool.and_eq_true, beq_iff_eq] at hp
  exact ⟨c, hc, hp.1.1.1.2⟩

/-- An ingot that an open block has room for is put there: nothing is retired for it (R366), and no block is taken. -/
theorem writeIngot_of_room (h : s.Room r) (hq : s.overQuota r = false) :
    ∃ b, (s.fst.blk b).zone = r.zone ∧ s.writeIngot r none = ((s.putAt b r none).1, some (s.fst.lastSeq + 1)) := by
  obtain ⟨b, hb, hzone⟩ := openBlock_of_room h
  have hnone : (s.openBlock r r.cold).isNone = false := by rw [hb]; rfl
  have hfull : s.zoneFull r = false := by rw [State.zoneFull, hnone, Bool.false_and]
  have hfold : s.fst.ingots.foldl (fun (x : State) _ => if x.overQuota r then x.dropOldest r.tenant else x) s = s :=
    List.foldl_fixed' (fun _ => if_neg (by rw [hq]; exact Bool.false_ne_true)) _
  have hroom : s.makeRoom r = s := by
    unfold State.makeRoom
    dsimp only
    rw [hfold, ite_self, hfull, if_neg Bool.false_ne_true, hfull, Bool.false_and, if_neg Bool.false_ne_true]
  refine ⟨b, hzone, ?_⟩
  unfold State.writeIngot State.placeIngot State.putIngot State.takeBlock
  rw [hroom, hnone]
  dsimp only
  rw [Bool.false_and, Bool.false_and, if_neg Bool.false_ne_true, hb]

end

/-! ## An ingot put in a block (R367, R370) -/

/-- The ingot that `putAt` adds. -/
def placed (s : State) (b : Nat) (r : IngotReq) : IngotS := {
  seq := s.fst.lastSeq + 1, origin := s.fst.lastSeq + 1, req := { r with waits := none, forced := false }, block := b, page := (s.fst.blk b).next
  pages := s.dataPages r, retacc := s.rget64 Reg.FST_RETACC_LO, tprog := s.tprog, xtemp := s.outOfTemp, reloc := false
  durable := !s.pairs (s.fst.blk b).native, commit := s.now }

/-- What the display of the store leaves alone, beside registers. -/
def storeView : View (FstS × CalS) := ⟨fun s => (s.fst, s.cal), fun _ _ _ => rfl⟩

/-- The display of the store is in registers past the calibration's (R352, R389). -/
theorem showFst_aside (s : State) : Aside storeView (0x80000 ≤ ·) s s.showFst := by
  have tuse (t : Nat) : 0x80000 ≤ Reg.FST_TUSE t := by unfold Reg.FST_TUSE; omega
  have zfree (z : Nat) : 0x80000 ≤ Reg.FST_ZFREE z := by unfold Reg.FST_ZFREE; omega
  have h1 : Aside storeView (0x80000 ≤ ·) s s.showOldest := (Aside.refl s).rset64 (by decide) (by decide) _
  unfold State.showFst
  dsimp only
  split
  · exact h1
  · exact ((h1.foldl _ fun _ hx t _ => hx.rsetN (tuse t) _).foldl _ fun _ hx z _ => hx.rsetN (zfree z) _).rsetN (by decide) _

theorem showFst_fst (s : State) : s.showFst.fst = s.fst := congrArg Prod.fst (showFst_aside s).view

theorem showFst_cal (s : State) : s.showFst.cal = s.cal := congrArg Prod.snd (showFst_aside s).view

/-- From `s` to `x` the ingot `z` has joined the store. -/
structure Joined (s : State) (z : IngotS) (x : State) : Prop where
  ingots : x.fst.ingots = s.fst.ingots ++ [z]
  cal : x.cal = s.cal
  saved : x.flag Reg.CAL_EVT_SAVED = s.flag Reg.CAL_EVT_SAVED

theorem putAt_joined (s : State) (b : Nat) (r : IngotReq) : Joined s (placed s b r) (s.putAt b r none).1 := by
  unfold State.putAt
  dsimp only
  refine ⟨?_, ?_, ?_⟩
  · rw [showFst_fst]
    rfl
  · rw [showFst_cal]
    rfl
  · rw [(showFst_aside _).flag (by decide)]
    rfl

/-! ## What a new ingot supersedes (R370, R371) -/

theorem mem_dropStale {s : State} {z : IngotS} : z ∈ s.dropStale.fst.ingots ↔ z ∈ s.fst.ingots ∧ ∀ j ∈ s.fst.ingots, j.replaces z = true → j.durable = false := by
  change z ∈ s.fst.ingots.filter _ ↔ _
  rw [List.mem_filter, Bool.not_eq_true', List.any_eq_false]
  simp only [Bool.and_eq_true, not_and, Bool.not_eq_true]

/-- The newest ingot is superseded by none. -/
theorem newest_mem_dropStale {s : State} {z : IngotS} (hz : z ∈ s.fst.ingots) (hmax : ∀ j ∈ s.fst.ingots, j.seq ≤ z.seq) : z ∈ s.dropStale.fst.ingots := by
  refine mem_dropStale.mpr ⟨hz, fun j hj hr => ?_⟩
  have hlt : z.seq < j.seq := by
    rw [IngotS.replaces, Bool.and_eq_true, decide_eq_true_eq] at hr
    exact hr.1
  exact absurd (hmax j hj) (Nat.not_le_of_lt hlt)

/-- A set takes the place of the older ones of its slot (R157). -/
theorem replaces_of_calSlot {z j : IngotS} {k : Nat} (hj : j.calSlot k = true) (hz : z.calSlot k = true) (hzj : j.req.zone = 3) (hzz : z.req.zone = 3)
    (hseq : j.seq < z.seq) : z.replaces j = true := by
  rw [IngotS.calSlot, Bool.and_eq_true, beq_iff_eq, beq_iff_eq] at hj hz
  rw [IngotS.replaces, decide_eq_true hseq, hj.1, hz.1, IngotReq.part, IngotReq.part, if_pos (.inl hzz), if_pos (.inl hzj), hj.2, hz.2]
  simp

/-! ## A save (R156 to R158) -/

/-- The slot that does not hold the newest set (R157). -/
def nextSlot (s : State) : Nat := if s.cal.newest = some 0 then 1 else 0

/-- The number of the next set (R156). -/
def nextNumber (s : State) : Nat := max (s.cal.seqOf 0) (s.cal.seqOf 1) + 1

/-- The ingot asked for by a save. -/
def nextSet (s : State) : IngotReq := {
  zone := 3, type := 0x30, fields := leBytes (nextSlot s) 4 ++ leBytes (nextNumber s) 4, payload := calPage s.otp.devid (nextNumber s) s.cal.points }

/-- The set committed as ingot `n` is saved once that is durable (R158, R370). -/
theorem calSettle_of_durable {s : State} {n k q : Nat} {ps : List CalPoint} (h : s.cal.undur = some (n, k, q, ps))
    (hd : s.fst.ingots.any (fun i => i.seq == n && i.durable) = true) :
    s.calSettle = (s.calMod (fun c => { c with saved := modifyAt c.saved k (fun _ => some (q, ps)), undur := none })).evt Reg.CAL_EVT_SAVED := by
  unfold State.calSettle
  rw [h]
  exact if_pos hd

theorem calSettle_of_not {s : State} {n k q : Nat} {ps : List CalPoint} (h : s.cal.undur = some (n, k, q, ps))
    (hd : s.fst.ingots.any (fun i => i.seq == n && i.durable) = false) : s.calSettle = s := by
  unfold State.calSettle
  rw [h]
  exact if_neg (by rw [hd]; exact Bool.false_ne_true)

/-- From `x`, in which the ingot of the set has been committed, the older sets that it supersedes are gone and the save is noted. -/
def setNoted (s x : State) : State :=
  x.dropStale.calMod (fun c => { c with
    undur := some (s.fst.lastSeq + 1, nextSlot s, nextNumber s, c.points), changed := false, wanted := false, lastSave := s.time.tick })

theorem calSaved_of_some {s x : State} (hw : s.fstCanWrite = true) (h : s.writeIngot (nextSet s) none = (x, some (s.fst.lastSeq + 1))) :
    s.calSaved true = (setNoted s x).calSettle := by
  unfold State.calSaved
  extract_lets k q
  have hk : k = nextSlot s := by
    unfold nextSlot
    simp only [k]
    rcases s.cal.newest with _ | _ | n <;> rfl
  have hput : s.calPut true k q = (x, some (s.fst.lastSeq + 1)) := by
    unfold State.calPut
    rw [hw, Bool.and_self, if_pos rfl, hk]
    exact h
  rw [hput, hk]
  rfl

/-- A save that cannot be written is logged. -/
theorem calSaved_fails {s : State} {ok : Bool} (h : (ok && s.fstCanWrite) = false) : (s.calSaved ok).flag Reg.CAL_EVT_SAVE_FAIL = true ∧ (s.calSaved ok).cal = s.cal := by
  have hfault : Aside reportedView (0x110000 ≤ ·) (s.evt Reg.CAL_EVT_SAVE_FAIL) ((s.evt Reg.CAL_EVT_SAVE_FAIL).fault 0x0002 0xFF 0xFF 0) :=
    (Aside.refl _).faultF0 (fun _ h => h) (fun _ _ _ => rfl) (by decide) ..
  unfold State.calSaved State.calPut
  dsimp only
  rw [h, if_neg Bool.false_ne_true]
  dsimp only
  refine ⟨?_, ?_⟩
  · rw [hfault.flag (by decide), flag_evt_same _ _ rfl (by decide)]
  · rw [hfault.cal_of_reported, evt_cal]

theorem nextSet_slot (s : State) : leAt (nextSet s).fields 0 1 = nextSlot s := by
  unfold nextSet nextSlot
  split <;> rfl

section

variable {s x : State} {z : IngotS} (hj : Joined s z x) (hl : ∀ j ∈ s.fst.ingots, j.seq ≤ s.fst.lastSeq) (hseq : z.seq = s.fst.lastSeq + 1)

include hj hl hseq

theorem joined_cases {j : IngotS} (h : j ∈ x.fst.ingots) : j = z ∨ j.seq < z.seq := by
  rw [hj.ingots, List.mem_append, List.mem_singleton] at h
  exact h.symm.imp_right fun h => hseq ▸ Nat.lt_succ_of_le (hl j h)

theorem joined_stays : z ∈ x.dropStale.fst.ingots := by
  refine newest_mem_dropStale (by rw [hj.ingots]; exact List.mem_append_right _ List.mem_cons_self) fun j h => ?_
  rcases joined_cases hj hl hseq h with rfl | h
  · exact Nat.le_refl _
  · exact Nat.le_of_lt h

/-- A set that is durable at once is saved at once. -/
theorem setNoted_durable (hd : z.durable = true) :
    (setNoted s x).calSettle.flag Reg.CAL_EVT_SAVED = true ∧ (setNoted s x).calSettle.fst = x.dropStale.fst ∧ (setNoted s x).calSettle.cal = { s.cal with
      saved := modifyAt s.cal.saved (nextSlot s) (fun _ => some (nextNumber s, s.cal.points)), undur := none, changed := false, wanted := false
      lastSave := s.time.tick } := by
  have hany : (setNoted s x).fst.ingots.any (fun i => i.seq == s.fst.lastSeq + 1 && i.durable) = true :=
    List.any_eq_true.mpr ⟨z, joined_stays hj hl hseq, by rw [hseq, hd, beq_self_eq_true]; rfl⟩
  have hcal : x.dropStale.cal = s.cal := hj.cal
  rw [calSettle_of_durable (by rw [setNoted, calMod_cal]) hany]
  refine ⟨flag_evt_same _ _ rfl (by decide), rfl, ?_⟩
  rw [evt_cal, calMod_cal, setNoted, calMod_cal, hcal]

/-- A set that is not durable yet waits to be. -/
theorem setNoted_waits (hd : z.durable = false) :
    (setNoted s x).calSettle.flag Reg.CAL_EVT_SAVED = s.flag Reg.CAL_EVT_SAVED ∧ (setNoted s x).calSettle.fst = x.dropStale.fst ∧
      (setNoted s x).calSettle.cal = { s.cal with
        undur := some (s.fst.lastSeq + 1, nextSlot s, nextNumber s, s.cal.points), changed := false, wanted := false, lastSave := s.time.tick } := by
  have hany : (setNoted s x).fst.ingots.any (fun i => i.seq == s.fst.lastSeq + 1 && i.durable) = false := by
    refine List.any_eq_false.mpr fun j h => ?_
    rw [Bool.and_eq_true, beq_iff_eq, not_and, ← hseq]
    rcases joined_cases hj hl hseq (mem_dropStale.mp h).1 with rfl | hlt
    · rw [hd]
      exact fun _ => Bool.false_ne_true
    · exact fun e => absurd e (Nat.ne_of_lt hlt)
  have hcal : x.dropStale.cal = s.cal := hj.cal
  rw [calSettle_of_not (by rw [setNoted, calMod_cal]) hany]
  refine ⟨hj.saved, rfl, ?_⟩
  rw [setNoted, calMod_cal, hcal]

/-- Of the sets of its slot a durable one alone is left. -/
theorem joined_alone (hz : z.req = nextSet s) (hd : z.durable = true) {j : IngotS} (h : j ∈ x.dropStale.fst.ingots) (hzone : j.req.zone = 3)
    (hslot : j.calSlot (nextSlot s) = true) : j.seq = z.seq := by
  obtain ⟨hmem, hstale⟩ := mem_dropStale.mp h
  rcases joined_cases hj hl hseq hmem with rfl | hlt
  · rfl
  · have hzs : z.calSlot (nextSlot s) = true := by
      rw [IngotS.calSlot, hz, nextSet_slot, beq_self_eq_true, Bool.and_true]
      rfl
    have hr := replaces_of_calSlot hslot hzs hzone (by rw [hz]; rfl) hlt
    have hfalse := hstale z (by rw [hj.ingots]; exact List.mem_append_right _ List.mem_cons_self) hr
    rw [hd] at hfalse
    cases hfalse

end

/-- A due save for which an open block has room is written there. -/
theorem calSaved_writes {s : State} (hw : s.fstCanWrite = true) (hroom : s.Room (nextSet s)) :
    ∃ b x, (s.fst.blk b).zone = 3 ∧ s.calSaved true = (setNoted s x).calSettle ∧ Joined s (placed s b (nextSet s)) x := by
  obtain ⟨b, hzone, hb⟩ := writeIngot_of_room hroom rfl
  exact ⟨b, _, hzone, calSaved_of_some hw hb, putAt_joined s b (nextSet s)⟩

theorem execCalAutosave_due {s : State} (h : s.saveDue = true) (ok : Bool) : execCalAutosave ok s = .next (s.calSaved ok) := by
  unfold execCalAutosave
  rw [if_pos h]

/-- A save where every block of the calibration's zone is durable at once (R370). -/
theorem execCalAutosave_saves {s : State} (h : s.saveDue = true) (hw : s.fstCanWrite = true) (hroom : s.Room (nextSet s))
    (hsure : ∀ b, (s.fst.blk b).zone = 3 → s.pairs (s.fst.blk b).native = false) :
    ∃ x, execCalAutosave true s = .next x ∧ x.flag Reg.CAL_EVT_SAVED = true ∧ x.cal = { s.cal with
        saved := modifyAt s.cal.saved (nextSlot s) (fun _ => some (nextNumber s, s.cal.points)), undur := none, changed := false, wanted := false
        lastSave := s.time.tick } ∧
      (∃ z ∈ x.fst.ingots, z.seq = s.fst.lastSeq + 1 ∧ z.req = nextSet s) ∧
      ∀ z ∈ x.fst.ingots, z.req.zone = 3 → z.calSlot (nextSlot s) = true → z.seq = s.fst.lastSeq + 1 := by
  obtain ⟨b, x, hzone, hx, hj⟩ := calSaved_writes hw hroom
  have hd : (placed s b (nextSet s)).durable = true := by
    rw [placed, hsure b hzone]
    rfl
  obtain ⟨hflag, hfst, hcal⟩ := setNoted_durable hj hroom.1 rfl hd
  refine ⟨_, (execCalAutosave_due h true).trans (congrArg _ hx), hflag, hcal, ?_, fun z hz hzone hslot => ?_⟩
  · exact ⟨placed s b (nextSet s), hfst ▸ joined_stays hj hroom.1 rfl, rfl, rfl⟩
  · exact joined_alone hj hroom.1 rfl rfl hd (hfst ▸ hz) hzone hslot

/-- A save where a later page may disturb a set of the zone (R370). -/
theorem execCalAutosave_waits {s : State} (h : s.saveDue = true) (hw : s.fstCanWrite = true) (hroom : s.Room (nextSet s))
    (hslow : ∀ b, (s.fst.blk b).zone = 3 → s.pairs (s.fst.blk b).native = true) :
    ∃ x, execCalAutosave true s = .next x ∧ x.flag Reg.CAL_EVT_SAVED = s.flag Reg.CAL_EVT_SAVED ∧ x.cal = { s.cal with
        undur := some (s.fst.lastSeq + 1, nextSlot s, nextNumber s, s.cal.points), changed := false, wanted := false, lastSave := s.time.tick } ∧
      ∃ z ∈ x.fst.ingots, z.seq = s.fst.lastSeq + 1 ∧ z.req = nextSet s := by
  obtain ⟨b, x, hzone, hx, hj⟩ := calSaved_writes hw hroom
  have hd : (placed s b (nextSet s)).durable = false := by
    rw [placed, hslow b hzone]
    rfl
  obtain ⟨hflag, hfst, hcal⟩ := setNoted_waits hj hroom.1 rfl hd
  exact ⟨_, (execCalAutosave_due h true).trans (congrArg _ hx), hflag, hcal, placed s b (nextSet s), hfst ▸ joined_stays hj hroom.1 rfl, rfl, rfl⟩

theorem execCalAutosave_fails {s : State} {ok : Bool} (h : s.saveDue = true) (hno : (ok && s.fstCanWrite) = false) :
    ∃ x, execCalAutosave ok s = .next x ∧ x.flag Reg.CAL_EVT_SAVE_FAIL = true ∧ x.cal = s.cal :=
  ⟨_, execCalAutosave_due h ok, calSaved_fails hno⟩

end Sys2Proof.Proofs
end

section
/-!
CAL_CTRL's bits START, SAVE and FACTORY (R154, R158, R161).
-/

namespace Sys2Proof.Proofs

open Sys2Proof Sys2Proof.Machine Sys2Proof.Laws

/-! ## The course of the calibration aside from its estimates -/

/-- The requests and the sweep's holds, which neither an estimate's course nor its acceptance or rejection changes. -/
def sweepView : View (List Req × List Nat × List (List (Bool × Nat))) := ⟨fun s => (s.reqs, s.cal.hold, s.cal.holds), fun _ _ _ => rfl⟩

/-- The registers of the calibration and those past them. -/
def FromCal (a : Nat) : Prop := 0x70000 ≤ a

theorem fromCal_of_shown {a : Nat} (h : ShownReg a) : FromCal a := by
  rcases h with rfl | h
  · exact (by decide : 0x70000 ≤ Reg.CAL_STAT)
  · exact Nat.le_of_lt (Nat.lt_of_lt_of_le (by decide) h.1)

section

variable {s t : State}

theorem Aside.reqs (h : Aside sweepView FromCal s t) : t.reqs = s.reqs := congrArg (·.1) h.view

theorem Aside.hold (h : Aside sweepView FromCal s t) : t.cal.hold = s.cal.hold := congrArg (·.2.1) h.view

theorem Aside.holds (h : Aside sweepView FromCal s t) : t.cal.holds = s.cal.holds := congrArg (·.2.2) h.view

theorem Aside.estMod (h : Aside sweepView FromCal s t) (i : Nat) (f : EstS → EstS) : Aside sweepView FromCal s (t.estMod i f) :=
  h.of_eq (calMod_regs ..) (calMod_time ..) rfl

theorem Aside.defShown (h : Aside sweepView FromCal s t) : Aside sweepView FromCal s t.showDef :=
  h.calShown (showDef_shown t) fun _ => fromCal_of_shown

theorem estDue_sweep (h : Aside sweepView FromCal s t) (i : Nat) (esc : Bool) : Aside sweepView FromCal s (t.estDue i esc) := by
  unfold State.estDue
  split
  · exact (Aside.ite (h.estMod ..) h).defShown
  · exact (h.estMod ..).defShown

end

/-! ## START (R154) -/

/-- The estimate of a vector is due and escalated. -/
def Escalated (s : State) (i : Nat) : Prop := (courseOf s i).due ≠ none ∧ (courseOf s i).esc = true

section

variable {s : State} {i j : Nat}

theorem estDue_length (s : State) (i : Nat) (esc : Bool) : (s.estDue i esc).cal.ests.length = s.cal.ests.length := by
  unfold State.estDue
  split
  · split <;> rw [showDef_cal]
    exact estMod_length ..
  · rw [showDef_cal, estMod_length]

theorem estDue_escalates (hi : i < s.cal.ests.length) : Escalated (s.estDue i true) i := by
  cases hd : (courseOf s i).due with
  | none =>
    rw [estDue_of_none hd, Escalated, courseOf_of_cal (showDef_cal _), estMod_course hi]
    exact ⟨Option.some_ne_none _, rfl⟩
  | some d =>
    rw [estDue_of_some (by rw [hd]; rfl), Escalated, courseOf_of_cal (showDef_cal _), estMod_course hi]
    exact ⟨by rw [hd]; exact Option.some_ne_none d, rfl⟩

theorem estDue_course_ne (s : State) (h : j ≠ i) (esc : Bool) : courseOf (s.estDue j esc) i = courseOf s i := by
  unfold State.estDue
  split
  · rw [courseOf_of_cal (showDef_cal _)]
    split
    · exact estMod_course_ne s h _
    · rfl
  · rw [courseOf_of_cal (showDef_cal _), estMod_course_ne s h]

/-- Once escalated an estimate stays so while others fall due. -/
theorem escalated_foldl (l : List Nat) (h : i ∈ l ∨ Escalated s i) (hi : i < s.cal.ests.length) : Escalated (l.foldl (fun (x : State) j => x.estDue j true) s) i := by
  induction l generalizing s with
  | nil => exact h.resolve_left List.not_mem_nil
  | cons j l ih =>
    refine ih ?_ (by rw [estDue_length]; exact hi)
    by_cases hj : j = i
    · exact .inr (hj ▸ estDue_escalates (hj ▸ hi))
    · refine h.imp (fun hm => (List.mem_cons.mp hm).resolve_left (Ne.symm hj)) fun he => ?_
      rw [Escalated, estDue_course_ne s hj]
      exact he

end

/-! ## The write of CAL_CTRL -/

/-- Bits that the row of CAL_CTRL does not keep leave it as it was. -/
theorem wr_calCtrl_rget (s : State) {n : Nat} (hn : BitVec.ofNat 32 n &&& 3#32 = 0#32) (a : Nat) :
    (s.wr Reg.CAL_CTRL (s.withBits Reg.CAL_CTRL n)).rget a = s.rget a := by
  have hrow : Reg.rowOf Reg.CAL_CTRL = some ⟨0x70000, 1, 0x0, 1, 0x0, 0x3, 0x0, 0x3⟩ := by decide
  have hword (o b : Word) (hb : b &&& 3#32 = 0#32) (c : Word) : (o &&& ~~~(3#32 ||| 0#32 &&& c)) ||| ((o ||| b) &&& 3#32) ||| (o &&& (0#32 &&& c) &&& ~~~(o ||| b)) = o := by
    ext i hi
    have := congrArg (·[i]) hb
    simp only [BitVec.getElem_and, BitVec.getElem_or, BitVec.getElem_not, BitVec.getElem_zero] at this ⊢
    revert this
    cases o[i] <;> cases b[i] <;> cases (3#32)[i] <;> simp
  unfold State.wr
  rw [hrow]
  dsimp only
  by_cases ha : Reg.CAL_CTRL = a
  · subst ha
    rw [rget_rset_same]
    exact hword _ _ hn _
  · exact rget_rset_ne s ha _

/-- CAL_CTRL is written and START acts: what SAVE and FACTORY find. -/
def calStarted (s : State) (v : Word) : State :=
  let s0 := s.wr Reg.CAL_CTRL v
  if bitOf v.toNat 31 && (s0.flag Reg.CAL_CTRL_TRACK || s0.flag Reg.CAL_STAT_PWRUP) then
    ((List.range 13).filter (fun i => s.calPowered i)).foldl (fun (x : State) i => x.estDue i true) s0 else s0

section

variable {s : State} {v : Word}

theorem wr_cal (s : State) (a : Nat) (v : Word) : (s.wr a v).cal = s.cal := by
  obtain ⟨r, hr, -⟩ := wr_eq s a v
  rw [hr]

theorem calStarted_sweep (s : State) (v : Word) : Aside sweepView FromCal s (calStarted s v) := by
  have hwr : Aside sweepView FromCal s (s.wr Reg.CAL_CTRL v) := by
    obtain ⟨r, hr, hregs⟩ := wr_eq s Reg.CAL_CTRL v
    exact ⟨by rw [hr]; exact .refl _, by rw [hr]; rfl, fun a ha => hregs a fun e => ha (e ▸ (by decide : 0x70000 ≤ Reg.CAL_CTRL))⟩
  exact .ite (hwr.foldl _ fun _ hx i _ => estDue_sweep hx i true) hwr

theorem wrCalCtrl_ests (s : State) (v : Word) : (s.wrCalCtrl v).cal.ests = (calStarted s v).cal.ests := by
  have hwanted (x : State) : (if bitOf v.toNat 30 then x.calMod (fun c => { c with wanted := true }) else x).cal.ests = x.cal.ests := by split <;> rfl
  unfold State.wrCalCtrl
  dsimp only
  split
  · exact hwanted _
  · exact hwanted _

/-- START makes every estimate of a powered converter due, escalated. -/
theorem wrCalCtrl_starts {i : Nat} (hv : bitOf v.toNat 31 = true) (hl : s.cal.ests.length = 13) (hi : i < 13) (hon : s.calPowered i = true)
    (hforms : (s.wr Reg.CAL_CTRL v).flag Reg.CAL_CTRL_TRACK = true ∨ (s.wr Reg.CAL_CTRL v).flag Reg.CAL_STAT_PWRUP = true) : Escalated (s.wrCalCtrl v) i := by
  have hlen : i < (s.wr Reg.CAL_CTRL v).cal.ests.length := by rw [wr_cal, hl]; exact hi
  rw [Escalated, courseOf, wrCalCtrl_ests]
  unfold calStarted
  dsimp only
  rw [hv, Bool.or_eq_true_iff.mpr hforms, Bool.and_self, if_pos rfl]
  exact escalated_foldl _ (.inl (List.mem_filter.mpr ⟨List.mem_range.mpr hi, hon⟩)) hlen

theorem wrCalCtrl_still (hforms : ¬ ((s.wr Reg.CAL_CTRL v).flag Reg.CAL_CTRL_TRACK = true ∨ (s.wr Reg.CAL_CTRL v).flag Reg.CAL_STAT_PWRUP = true)) :
    (s.wrCalCtrl v).cal.ests = s.cal.ests := by
  rw [wrCalCtrl_ests]
  unfold calStarted
  dsimp only
  rw [Bool.eq_false_iff.mpr fun h => hforms (Bool.or_eq_true_iff.mp h), Bool.and_false, if_neg Bool.false_ne_true, wr_cal]

theorem wrCalCtrl_wants (hv : bitOf v.toNat 30 = true) : (s.wrCalCtrl v).cal.wanted = true := by
  unfold State.wrCalCtrl
  rw [hv]
  dsimp only
  split <;> rfl

/-- FACTORY is a request of the owner (R15, R161). -/
theorem wrCalCtrl_requests (hv : bitOf v.toNat 29 = true) :
    (s.wrCalCtrl v).reqs = s.reqs ++ [{ due := s.boundaryTick, accept := s.stamp, tenant := 0, kind := .reg Reg.CAL_CTRL v }] := by
  have hs := calStarted_sweep s v
  have hwanted (x : State) : ((if bitOf v.toNat 30 then x.calMod (fun c => { c with wanted := true }) else x).request 0 (.reg Reg.CAL_CTRL v)).reqs =
      x.reqs ++ [{ due := x.boundaryTick, accept := x.stamp, tenant := 0, kind := .reg Reg.CAL_CTRL v }] := by split <;> rfl
  unfold State.wrCalCtrl
  rw [hv, ← hs.boundaryTick fun _ h => h, ← hs.stamp fun _ h => h, ← hs.reqs]
  exact hwanted (calStarted s v)

end

section

variable {s : State} {p : Fin 4} {t : Nat} (h : s.Serves p 0 Reg.CAL_CTRL t)

include h

/-- T0's write of CAL_CTRL. -/
theorem calCtrl_write (v : Word) : s.regWrite p Reg.CAL_CTRL t v = (s.at t).wrCalCtrl v := by
  have hctx : ctxWord Reg.CAL_CTRL = none := by decide
  rw [serves_write h, State.wrWord, hctx]
  simp [within, Reg.CAL_CTRL, State.wrShared, Reg.TB_CTRL, Reg.TB_UTC, Reg.TB_LEAP_AT, Reg.TB_DISC, Reg.TB_COAST, Reg.TB_PPSO_CTRL, Reg.CCS_CTRL]

omit h in
/-- A bit set in CAL_CTRL by its command is set in the word written. -/
theorem getLsbD_withBits (a : Nat) {n k : Nat} (hk : (BitVec.ofNat 32 n).getLsbD k = true) : (s.withBits a n).getLsbD k = true := by
  rw [State.withBits, BitVec.getLsbD_or, hk, Bool.or_true]

omit h in
theorem bitOf_of_getLsbD {w : Word} {k : Nat} (hk : w.getLsbD k = true) : bitOf w.toNat k = true := by
  rwa [BitVec.getLsbD, Nat.testBit_eq_decide_div_mod_eq] at hk

theorem execCalStart_starts (hl : s.cal.ests.length = 13) {i : Nat} (hi : i < 13) :
    ∃ x, execCalStart p t s = .next x ∧
      (s.flag Reg.CAL_CTRL_TRACK = true ∨ s.flag Reg.CAL_STAT_PWRUP = true → s.calPowered i = true → Escalated x i) ∧
      (¬ (s.flag Reg.CAL_CTRL_TRACK = true ∨ s.flag Reg.CAL_STAT_PWRUP = true) → x.cal.ests = s.cal.ests) := by
  have hflag (k : Reg.Fld) : ((s.at t).wr Reg.CAL_CTRL (s.withBits Reg.CAL_CTRL 0x80000000)).flag k = s.flag k := by
    have hr := wr_calCtrl_rget (s.at t) (n := 0x80000000) (by decide) k.addr
    rw [State.withBits, at_rget, ← State.withBits] at hr
    rw [State.flag, State.fget, hr, at_rget, State.flag, State.fget]
  refine ⟨_, congrArg Host.Outcome.next (calCtrl_write h _), fun hforms hon => ?_, fun hforms => ?_⟩
  · refine wrCalCtrl_starts (bitOf_withBits_31 ..) (by rw [at_cal, hl]) hi ?_ (by rw [hflag, hflag]; exact hforms)
    rw [State.calPowered, at_conv, State.calConv, at_crossed]
    exact hon
  · rw [wrCalCtrl_still (by rw [hflag, hflag]; exact hforms), at_cal]

theorem execCalSave_wants : ∃ x, execCalSave p t s = .next x ∧ x.cal.wanted = true :=
  ⟨_, congrArg Host.Outcome.next (calCtrl_write h _), wrCalCtrl_wants (bitOf_of_getLsbD (getLsbD_withBits _ (by decide)))⟩

theorem execCalFactory_requests : ∃ x, execCalFactory p t s = .next x ∧ ∃ w : Word,
    x.reqs = s.reqs ++ [{ due := (s.at t).boundaryTick, accept := (s.at t).stamp, tenant := 0, kind := .reg Reg.CAL_CTRL w }] ∧ w.getLsbD 29 = true := by
  have hbit : (s.withBits Reg.CAL_CTRL 0x20000000).getLsbD 29 = true := getLsbD_withBits _ (by decide)
  refine ⟨_, congrArg Host.Outcome.next (calCtrl_write h _), _, ?_, hbit⟩
  rw [wrCalCtrl_requests (bitOf_of_getLsbD hbit), at_reqs]

end

end Sys2Proof.Proofs
end

section
/-!
The sweep of the power-up calibration (R151, R152) and its end.
-/

namespace Sys2Proof.Proofs

open Sys2Proof Sys2Proof.Machine Sys2Proof.Laws

/-! ## What a check leaves to the sweep -/

section

variable {s t : State}

theorem Aside.wuDone (h : Aside sweepView FromCal s t) (k : Nat) : Aside sweepView FromCal s (t.wuDone k) := h.of_eq rfl rfl rfl

theorem Aside.calAccept (h : Aside sweepView FromCal s t) (i : Nat) (q : Rat) (v : List Rat) : Aside sweepView FromCal s (t.calAccept i q v) := by
  have hevt : FromCal Reg.CAL_EVT := (by decide : 0x70000 ≤ Reg.CAL_EVT)
  have hstat : FromCal Reg.CAL_STAT := (by decide : 0x70000 ≤ Reg.CAL_STAT)
  unfold State.calAccept
  extract_lets s1 s2 s3 tgts
  have h1 : Aside sweepView FromCal s s1 := h.of_eq (calMod_regs ..) (calMod_time ..) rfl
  clear_value s1
  have h3 : Aside sweepView FromCal s s3 := ((h1.estMod ..).evt hevt).fsetB hstat _
  clear_value s3
  have h4 : Aside sweepView FromCal s (s3.calMod (fun c => { c with waiting := putTargets c.waiting tgts })) := h3.of_eq (calMod_regs ..) (calMod_time ..) rfl
  exact (h4.defShown.calShown (showCal_shown _) fun _ => fromCal_of_shown).wuDone 1

theorem Aside.calReject (h : Aside sweepView FromCal s t) (i r : Nat) : Aside sweepView FromCal s (t.calReject i r) := by
  have hevt : FromCal Reg.CAL_EVT := (by decide : 0x70000 ≤ Reg.CAL_EVT)
  have hstat : FromCal Reg.CAL_STAT := (by decide : 0x70000 ≤ Reg.CAL_STAT)
  have hcnt : FromCal Reg.CAL_CNT := (by decide : 0x70000 ≤ Reg.CAL_CNT)
  unfold State.calReject
  extract_lets s1 s2
  have h1 : Aside sweepView FromCal s s1 := (((h.fsetB hstat _).fset hstat _).fset hstat _).fset hstat _
  clear_value s1
  have h2 : Aside sweepView FromCal s s2 :=
    ((h1.evt hevt).bump hcnt).faultF0 (fun _ ha => Nat.le_trans (by decide) ha) (fun _ _ _ => rfl) (by decide) ..
  clear_value s2
  exact (h2.estMod ..).defShown

theorem Aside.calJudge (h : Aside sweepView FromCal s t) (i : Nat) (q : Rat) (v se : List Rat) (single : Bool) :
    Aside sweepView FromCal s (t.calJudge i q v se single) := by
  have hevt : FromCal Reg.CAL_EVT := (by decide : 0x70000 ≤ Reg.CAL_EVT)
  unfold State.calJudge
  dsimp only
  split
  · exact h.calAccept ..
  · exact .ite ((h.evt hevt).calAccept ..) ((h.calReject ..).estMod ..)
  · exact (h.calReject ..).estMod ..

theorem Aside.lnaJudge (h : Aside sweepView FromCal s t) (p k : Nat) (q : Rat) : Aside sweepView FromCal s (t.lnaJudge p k q) := by
  have hj (i : Nat) (v se : List Rat) (single : Bool) := h.calJudge i q v se single
  unfold State.lnaJudge
  dsimp only
  split
  · exact hj ..
  · exact ((hj ..).of_eq (calMod_regs ..) (calMod_time ..) rfl).defShown

end

/-! ## A gain of the sweep (R91, R151) -/

theorem convMark_cal (s : State) (c : Nat) (m : Marker) : (s.convMark c m).cal = s.cal := by
  obtain ⟨l, hl⟩ := convMark_eq s c m
  rw [hl]
  split <;> rfl

theorem rawTrack_cal (s : State) (u : Nat) (f : State → State) : (s.rawTrack u f).cal = (f s).cal := by
  obtain ⟨w, hw⟩ := rawTrack_eq s u f
  rw [hw]

/-- A step of a gain leaves the holds of the sweep. -/
theorem stepGain_holds (s : State) (p g flags : Nat) : (s.stepGain p g flags).cal.hold = s.cal.hold ∧ (s.stepGain p g flags).cal.holds = s.cal.holds := by
  have hz : (s.rawTrack s.now (fun x => x.fset (Reg.FE_STAT_GNOW p) g)).cal = s.cal := (rawTrack_cal ..).trans (fset_cal ..)
  unfold State.stepGain
  dsimp only
  rw [convMark_cal, ← hz]
  generalize s.rawTrack s.now (fun x => x.fset (Reg.FE_STAT_GNOW p) g) = z
  split <;> exact ⟨rfl, rfl⟩

/-- A port's gain brought to `g` without announcing a step. -/
def gainTo (s : State) (p g : Nat) : State := if g = s.gnow p then s else (s.stepGain p g 0).noStep p

theorem gainTo_shows (s : State) (p g : Nat) :
    (gainTo s p g).now = s.now ∧ (gainTo s p g).gnow p = g % 8 ∧ (gainTo s p g).cal.hold = s.cal.hold ∧ (gainTo s p g).cal.holds = s.cal.holds := by
  unfold gainTo
  split
  next h => exact ⟨rfl, by rw [h, Nat.mod_eq_of_lt (gnow_lt s p)], rfl, rfl⟩
  next =>
    obtain ⟨hhold, hholds⟩ := stepGain_holds s p g 0
    refine ⟨?_, ?_, ?_, ?_⟩
    · rw [(noStep_stat _ p).now, stepGain_now]
    · rw [State.gnow, noStep_fget (apart_gnow p), stepGain_fget]
      exact fget_fset _ _ _ (by simp [Reg.FE_STAT_GNOW]) (by simp [Reg.FE_STAT_GNOW])
    · rw [State.noStep, fsetB_cal, fset_cal, hhold]
    · rw [State.noStep, fsetB_cal, fset_cal, hholds]

/-! ## A hold (R151) -/

/-- What the hold of a port showed is noted. -/
def holdNoted (s : State) (p : Nat) (bad : Bool) (peak : Nat) (obs : Option Rat) : State :=
  ((match s.cal.stepPair.getD p none, obs with
      | some k, some r => s.lnaSeen p k r
      | _, _ => s).stepSeen p none).calMod (fun c => { c with
    hold := modifyAt c.hold p (fun n => n + 1), holdEm := modifyAt c.holdEm p (fun _ => false), holds := modifyAt c.holds p (fun l => l ++ [(bad, peak)]) })

theorem holdNoted_shows (s : State) (p : Nat) (bad : Bool) (peak : Nat) (obs : Option Rat) :
    (holdNoted s p bad peak obs).time = s.time ∧ (holdNoted s p bad peak obs).regs = s.regs ∧
      (holdNoted s p bad peak obs).cal.hold = modifyAt s.cal.hold p (fun n => n + 1) ∧
      (holdNoted s p bad peak obs).cal.holds = modifyAt s.cal.holds p (fun l => l ++ [(bad, peak)]) := by
  unfold holdNoted
  split <;> exact ⟨rfl, rfl, rfl, rfl⟩

/-- The pairs of a port after the last hold of its sweep. -/
def pairsJudged (s : State) (p : Nat) : State :=
  ((List.range 6).foldl (fun (x : State) k =>
    if (x.cal.lnaObs.getD (6 * p + k) []).isEmpty || !x.calPowered (calIdx 4 p) then
      x.calMod (fun c => { c with pairDef := modifyAt c.pairDef (6 * p + k) (fun _ => true) })
    else x.lnaJudge p k x.tcal) s).showDef

theorem pairsJudged_sweep (s : State) (p : Nat) : Aside sweepView FromCal s (pairsJudged s p) := by
  refine Aside.defShown ((Aside.refl s).foldl _ fun x hx k _ => ?_)
  exact .ite (hx.of_eq (calMod_regs ..) (calMod_time ..) rfl) (hx.lnaJudge ..)

section

variable {s : State} {a : Fin 2} (hp : s.flag Reg.CAL_STAT_PWRUP = true) (clip : Bool) (peak : Nat) (obs : Option Rat)

/-- The state at the end of hold `h` of a port's sweep, the hold noted. -/
def holdEnded (s : State) (a : Nat) (clip : Bool) (peak : Nat) (obs : Option Rat) : State :=
  holdNoted (s.at ((s.boot.firstTick + 1 + 16 * (s.cal.hold.getD a 0 + 1)) * 2048000)) a (clip || s.cal.holdEm.getD a false) peak obs

theorem holdEnded_shows (hl : s.cal.hold.length = 2) (hls : s.cal.holds.length = 2) :
    (holdEnded s a clip peak obs).now = (s.at ((s.boot.firstTick + 1 + 16 * (s.cal.hold.getD a 0 + 1)) * 2048000)).now ∧
      (holdEnded s a clip peak obs).regs = s.regs ∧ (holdEnded s a clip peak obs).cal.hold.getD a 0 = s.cal.hold.getD a 0 + 1 ∧
      (holdEnded s a clip peak obs).cal.holds.getD a [] = s.cal.holds.getD a [] ++ [(clip || s.cal.holdEm.getD a false, peak)] := by
  obtain ⟨htime, hregs, hhold, hholds⟩ := holdNoted_shows (s.at ((s.boot.firstTick + 1 + 16 * (s.cal.hold.getD a 0 + 1)) * 2048000)) a
    (clip || s.cal.holdEm.getD a false) peak obs
  refine ⟨congrArg TimeS.stu htime, hregs.trans (at_regs ..), ?_, ?_⟩
  · rw [holdEnded, hhold, at_cal, modifyAt_getD, if_pos ⟨rfl, by rw [hl]; exact a.isLt⟩]
  · rw [holdEnded, hholds, at_cal, modifyAt_getD, if_pos ⟨rfl, by rw [hls]; exact a.isLt⟩]

include hp

/-- Before the last hold the gain goes to the next step of the sweep. -/
theorem execCalSweepHoldEnd_next (h : s.cal.hold.getD a 0 < 13) :
    execCalSweepHoldEnd a clip peak obs s = .next (gainTo (holdEnded s a clip peak obs) a (sweepStep (s.cal.hold.getD a 0 + 1))) := by
  have hlt : decide (14 ≤ s.cal.hold.getD a 0) = false := decide_eq_false (by omega)
  have hgnow : (holdEnded s a clip peak obs).gnow a = (s.at ((s.boot.firstTick + 1 + 16 * (s.cal.hold.getD a 0 + 1)) * 2048000)).gnow a :=
    fget_of_regs (holdNoted_shows ..).2.1 _
  unfold execCalSweepHoldEnd gainTo
  dsimp only
  rw [hp, hlt, hgnow, Bool.not_true, Bool.or_self, if_neg Bool.false_ne_true, if_pos h]
  rfl

/-- After the last hold the pairs are estimated. -/
theorem execCalSweepHoldEnd_last (h : s.cal.hold.getD a 0 = 13) :
    execCalSweepHoldEnd a clip peak obs s = .next (pairsJudged (holdEnded s a clip peak obs) a) := by
  have hlt : decide (14 ≤ s.cal.hold.getD a 0) = false := decide_eq_false (by omega)
  have hno : ¬ s.cal.hold.getD a 0 < 13 := by omega
  unfold execCalSweepHoldEnd
  dsimp only
  rw [hp, hlt, Bool.not_true, Bool.or_self, if_neg Bool.false_ne_true, if_neg hno]
  rfl

omit hp in
theorem sweepStep_lt {h : Nat} (hh : h < 14) : sweepStep h < 8 := by
  unfold sweepStep
  split <;> omega

theorem execCalSweepHoldEnd_steps (h : s.cal.hold.getD a 0 < 13) (hl : s.cal.hold.length = 2) (hls : s.cal.holds.length = 2) :
    ∃ x, execCalSweepHoldEnd a clip peak obs s = .next x ∧ x.now = (s.at ((s.boot.firstTick + 1 + 16 * (s.cal.hold.getD a 0 + 1)) * 2048000)).now ∧
      x.cal.hold.getD a 0 = s.cal.hold.getD a 0 + 1 ∧ x.cal.holds.getD a [] = s.cal.holds.getD a [] ++ [(clip || s.cal.holdEm.getD a false, peak)] ∧
      x.fget (Reg.FE_STAT_GNOW a) = sweepStep (s.cal.hold.getD a 0 + 1) := by
  obtain ⟨hnow, -, hhold, hholds⟩ := holdEnded_shows (a := a) clip peak obs hl hls
  obtain ⟨gnow, gstep, ghold, gholds⟩ := gainTo_shows (holdEnded s a clip peak obs) a (sweepStep (s.cal.hold.getD a 0 + 1))
  refine ⟨_, execCalSweepHoldEnd_next hp clip peak obs h, gnow.trans hnow, ?_, ?_, gstep.trans (Nat.mod_eq_of_lt (sweepStep_lt (by omega)))⟩
  · rw [ghold, hhold]
  · rw [gholds, hholds]

theorem execCalSweepHoldEnd_ends (h : s.cal.hold.getD a 0 = 13) (hl : s.cal.hold.length = 2) (hls : s.cal.holds.length = 2) :
    ∃ x, execCalSweepHoldEnd a clip peak obs s = .next x ∧ x.now = (s.at ((s.boot.firstTick + 225) * 2048000)).now ∧
      x.cal.hold.getD a 0 = 14 ∧ x.cal.holds.getD a [] = s.cal.holds.getD a [] ++ [(clip || s.cal.holdEm.getD a false, peak)] ∧
      x.fget (Reg.FE_STAT_GNOW a) = s.fget (Reg.FE_STAT_GNOW a) := by
  obtain ⟨hnow, hregs, hhold, hholds⟩ := holdEnded_shows (a := a) clip peak obs hl hls
  have hpairs := pairsJudged_sweep (holdEnded s a clip peak obs) a
  have hfe : ¬ FromCal (Reg.FE_STAT a) := by
    simp only [FromCal, Reg.FE_STAT]
    omega
  refine ⟨_, execCalSweepHoldEnd_last hp clip peak obs h, ?_, ?_, ?_, ?_⟩
  · rw [hpairs.now, hnow, h]
  · rw [hpairs.hold, hhold, h]
  · rw [hpairs.holds, hholds]
  · exact (hpairs.fget hfe).trans (fget_of_regs hregs _)

/-! ## The gain set (R151) -/

omit hp in
theorem at_sweepGain (s : State) (t p : Nat) : (s.at t).sweepGain p = s.sweepGain p := by
  unfold State.sweepGain State.gmin State.gmax State.dnPeak
  simp only [at_fget, at_cal]

theorem execCalGainSet_sets :
    ∃ x, execCalGainSet a s = .next x ∧ x.now = (s.at ((s.boot.firstTick + 225) * 2048000)).now ∧ x.fget (Reg.FE_STAT_GNOW a) = s.sweepGain a % 8 := by
  obtain ⟨gnow, gstep, -, -⟩ := gainTo_shows (s.at ((s.boot.firstTick + 225) * 2048000)) a (s.sweepGain a)
  refine ⟨_, ?_, gnow, gstep⟩
  unfold execCalGainSet gainTo
  rw [hp, ← at_sweepGain s ((s.boot.firstTick + 225) * 2048000) a]
  rfl

end

/-! ## The end of power-up (R151) -/

/-- Each of the first `n` elements changed in turn. -/
theorem foldl_modifyAt_getD {α : Type} (f : α → α) (n : Nat) (l : List α) (i : Nat) (d : α) :
    ((List.range n).foldl (fun l j => modifyAt l j f) l).length = l.length ∧
      ((List.range n).foldl (fun l j => modifyAt l j f) l).getD i d = if i < n ∧ i < l.length then f (l.getD i d) else l.getD i d := by
  induction n with
  | zero => exact ⟨rfl, (if_neg fun h => Nat.not_lt_zero _ h.1).symm⟩
  | succ n ih =>
    obtain ⟨hlen, hget⟩ := ih
    rw [List.range_succ, List.foldl_append, List.foldl_cons, List.foldl_nil]
    refine ⟨(modifyAt_length ..).trans hlen, ?_⟩
    rw [modifyAt_getD, hlen, hget]
    by_cases hi : n = i
    · subst hi
      simp
    · have hiff : i < n + 1 ↔ i < n := by omega
      simp only [hi, false_and, if_false, hiff]

theorem foldl_estMod (f : EstS → EstS) (l : List Nat) (s : State) :
    l.foldl (fun (x : State) i => x.estMod i f) s = s.calMod (fun c => { c with ests := l.foldl (fun e i => modifyAt e i f) c.ests }) := by
  induction l generalizing s with
  | nil => rfl
  | cons i l ih => exact ih (s.estMod i f)

/-- At the end of power-up no estimate is due, and those of which none was accepted are deferred. -/
def endCourse (e : EstS) : EstS := { e with due := none, passing := 0, tsum := 0, deferred := e.deferred || decide (e.lastAccept = 0) }

theorem execCalPwrupEnd_ends {s : State} (hp : s.flag Reg.CAL_STAT_PWRUP = true) (hl : s.cal.ests.length = 13) {i : Nat} (hi : i < 13) :
    ∃ x, execCalPwrupEnd s = .next x ∧ x.now = (s.at ((s.boot.firstTick + 750) * 2048000)).now ∧ x.flag Reg.CAL_STAT_PWRUP = false ∧
      x.flag Reg.CAL_EVT_PWRUP_DONE = true ∧ courseOf x i = endCourse (courseOf s i) := by
  have hx : execCalPwrupEnd s = .next (((List.range 13).foldl (fun (x : State) i => x.estMod i endCourse)
      (((s.at ((s.boot.firstTick + 750) * 2048000)).fsetB Reg.CAL_STAT_PWRUP false).evt Reg.CAL_EVT_PWRUP_DONE)).showDef) := by
    unfold execCalPwrupEnd
    rw [hp]
    rfl
  rw [foldl_estMod] at hx
  refine ⟨_, hx, ?_, ?_, ?_, ?_⟩
  · rw [(showDef_shown _).now, State.now, calMod_time]
    exact (now_evt ..).trans (now_fsetB ..)
  · rw [(showDef_shown _).flag_stat rfl (by decide), flag_of_regs (calMod_regs ..), flag_evt_fldApart _ (by decide)]
    exact flag_fsetB_same _ _ _ rfl (by decide)
  · rw [(showDef_shown _).flag calEvt_notShown, flag_of_regs (calMod_regs ..)]
    exact flag_evt_same _ _ rfl (by decide)
  · rw [courseOf, showDef_cal, calMod_cal, evt_cal, fsetB_cal, at_cal]
    rw [(foldl_modifyAt_getD endCourse 13 s.cal.ests i {}).2, if_pos ⟨hi, by rw [hl]; exact hi⟩, courseOf]

end Sys2Proof.Proofs
end

section
/-!
The settlement of the calibration's obligation (chapter 6).
-/

namespace Sys2Proof.Proofs

open Sys2Proof Sys2Proof.Machine Sys2Proof.Laws

/-- Settles O38: each clause is the rule of its command above. -/
theorem calibration : Obligations.Calibration := by
  intro s g u pair v se p a k t d clip peak obs y i e q due forms ready reason seen ratios last slot number set hold sure slow hl
  have hi : i < 13 := calIdx_lt g u
  refine ⟨fun htrack hpwr hon hdue h => ?_, fun hready hr => ?_, fun hready hr h8 => ?_, fun hforms hon hg h4 hr => ?_, fun hdue hon hlast hfew => ?_,
    fun h hne hp => ?_, fun hdue _ hw hroom => ⟨fun hsure => ?_, fun hslow => ?_⟩, fun hdue hw => ?_, fun hdue => ?_, fun hs hk => ⟨?_, ?_, ?_⟩,
    fun hp hh hlen hlens => ?_, fun hp hh hlen hlens => ?_, fun hp => ?_, fun hp => ?_⟩
  · exact execCalEstimateDue_falls hl htrack hpwr hon hdue h
  · obtain ⟨hforms, hon, hg, hdue, hpass, hv⟩ := hready
    obtain ⟨x, hx, hacc⟩ := execCalEstimateDone_accepts (pair := pair) hl hforms hon hg hdue hpass hv hr
    exact ⟨x, hx, hacc.points, hacc.changed, hacc.course, hacc.event, hacc.passed⟩
  · obtain ⟨hforms, hon, hg, hdue, hpass, hv⟩ := hready
    obtain ⟨x, hx, hpoints, hcourse, hrest⟩ := execCalEstimateDone_rejects (pair := pair) hl hforms hon hg hdue hpass hv rfl hr h8
    exact ⟨x, hx, hpoints, congrArg EstS.due hcourse, congrArg EstS.passing hcourse, congrArg EstS.rejects hcourse, hrest⟩
  · exact ⟨_, execCalEstimateDone_pair hforms hon hg h4, lnaJudge_accepts hl hg h4 rfl hr⟩
  · exact execCalAbandon_abandons hl hdue hon (gatherEnd_eq s d ▸ hlast) hfew
  · exact execCalReevaluate_evaluates h hne hp
  · exact execCalAutosave_saves hdue hw hroom hsure
  · exact execCalAutosave_waits hdue hw hroom hslow
  · exact execCalAutosave_fails hdue hw
  · exact execCalAutosave_fails hdue rfl
  · subst hk
    exact execCalStart_starts hs hl hi
  · subst hk
    exact execCalSave_wants hs
  · subst hk
    exact execCalFactory_requests hs
  · exact execCalSweepHoldEnd_steps hp clip peak obs hh hlen hlens
  · exact execCalSweepHoldEnd_ends hp clip peak obs hh hlen hlens
  · exact execCalGainSet_sets hp
  · exact execCalPwrupEnd_ends hp hl hi

end Sys2Proof.Proofs
end
